-- ==== Sys2Proof/Word.lean ====
section
/-! DEFINITION. The word types of the Shaudor ST9 and their plainest arithmetic (R7, R9): bytes, the 32- and 64-bit
words of registers and packets, and little-endian assembly of a field from bytes. -/

namespace Sys2Proof

/-- One byte of memory (R9). -/
abbrev Byte := BitVec 8

/-- A 16-bit field. -/
abbrev W16 := BitVec 16

/-- A 32-bit word: a register of width 32, a thread-code register, a binary32 encoding. -/
abbrev W32 := BitVec 32

/-- A 64-bit word: a register of width 64, a fence value, an address as packets carry it. -/
abbrev W64 := BitVec 64

/-- An A40 accumulator encoding (R23). -/
abbrev A40 := BitVec 40

/-- A sparse table by key: the entries of things that are present. -/
abbrev Tab (α : Type) := List (Nat × α)

/-- Little-endian number held in a list of bytes, the first at the lowest address (R9). -/
def leNat : List Byte → Nat
  | [] => 0
  | b :: bs => b.toNat + 256 * leNat bs

/-- The `n` little-endian bytes of a number (R9). -/
def leBytes : Nat → Nat → List Byte
  | 0, _ => []
  | n + 1, v => BitVec.ofNat 8 v :: leBytes n (v / 256)

end Sys2Proof
end

