-- ==== Sys2Proof/Syntax.lean ====
section
/-! DEFINITION. The commands of the block: one constructor of `Instr` for each row of spec/opcode_table.json, and the
operand types they carry. A row's operands name the unit that takes the step (a core, an engine, a sequencer, a port and
queue, a job-table entry) and what reaches it from outside the device (bytes, headers, readings, outcomes of training). -/

namespace Sys2Proof

/-- The three engines of a core (R133), which also name the three streams (R136). -/
inductive Engine where
  | te | ge | me
  deriving DecidableEq, Repr

/-- A link or port of the device: a Burob port (R321), a tray link by slot (R378), a scale-out port (R379). -/
inductive Link where
  | burob (port : Nat)
  | tray (slot : Nat)
  | scaleOut (port : Nat)
  deriving DecidableEq, Repr

/-- A unit of a tensor engine: an array (0-15), a quadrant of an array, or the matrix-vector path (R105, R106). -/
inductive TeUnit where
  | array (a : Nat)
  | quad (a q : Nat)
  | path
  deriving DecidableEq, Repr

/-- The width of a local-store access of thread code (R211): 32 or 16 bits. -/
inductive LsWidth where
  | w32 | w16
  deriving DecidableEq, Repr

/-- The atomics of thread code, of ATOMIC entries and of the fabric (R211, R393, R388). -/
inductive AtomicKind where
  | add | max | min | swap | or
  deriving DecidableEq, Repr

/-- The operations of the floating-point class of thread code (R185, R210): FP32 and BF16 add, subtract, multiply, fused
multiply-add, and conversion to a format code. R185 gives no opcode numbers, so the command names the operation (log 6). -/
inductive FpOp where
  | add32 | sub32 | mul32 | fma32 | addBf | subBf | mulBf | fmaBf | convert
  deriving DecidableEq, Repr

/-- What the checks of a core report to a command that reads its memories (R131, R234, R287): no error, a corrected error or an
uncorrectable one of core memory, an uncorrectable one in a line of the private cache, an uncorrectable one in the engine's own
registers. -/
inductive CoreErr where
  | none | corrected | uncorrectable
  | privLine (line : Nat)
  | parity
  deriving DecidableEq, Repr

/-- What a check code reports of 64 bytes of HBM (R307). -/
inductive EccErr where
  | none | corrected | uncorrectable
  deriving DecidableEq, Repr

/-- What the checks report to an update unit at a block (R272, R307): nothing, what the check code says of one half of HBM (its
device-local address / 64) that the block reads, or an uncorrectable error of the unit's pipelines or buffers. -/
inductive UnitErr where
  | none | hbm (half : Nat) (err : EccErr) | parity
  deriving DecidableEq, Repr

/-- An SRAM error that a slice meets: the line, its 64-bit word (0-15), and whether it is uncorrectable (R308). -/
structure SliceErr where
  line : Nat
  word : Nat
  uncorrectable : Bool
  deriving DecidableEq, Repr

/-- What the device reads of device-held data (R128, R307): it is sound, its digest does not match, or it is uncorrectable. -/
inductive RecordRead where
  | sound | badDigest | uncorrectable
  deriving DecidableEq, Repr

/-- The header of a flit as it arrives (R323, R381, R382): its sequence number, how many flits the far end has received in order, the
receive credits, and whether the far end asks for what it lacks again. -/
structure Flit where
  seq : Nat
  ack : Nat
  credits : List Nat  -- of the channels: requests on 0 and on 1, responses on 0 and on 1 (R405); one alone where a link has no channels
  resend : Bool
  deriving DecidableEq, Repr

/-- The header of a fabric request as it arrives (R388). -/
structure FabHdr where
  op : Nat
  hops : Nat          -- ctl[4:0]
  vc : Bool           -- ctl[5]
  deviceHeld : Bool   -- ctl[6]
  partialMask : Bool  -- ctl[7]
  job : Nat
  src : Nat
  dst : Nat
  tag : Nat
  len : Nat           -- 8-byte units
  seq : Nat
  address : Nat
  deriving DecidableEq, Repr

/-- A fabric response as it arrives (R388, R405): its source and destination nodes, its virtual channel, the code of address bits [15:0]
and the data. -/
structure FabResp where
  src : Nat
  dst : Nat
  vc : Bool
  code : Nat
  data : List Byte
  deriving DecidableEq, Repr

/-- An exact value: (-1)^neg × m × 2^e, an infinity, or NaN. Zero keeps its sign. -/
inductive Exact where
  | fin (neg : Bool) (m : Nat) (e : Int)
  | inf (neg : Bool)
  | nan
  deriving DecidableEq, Repr

/-- The contents of a collective message of a member (R397, R398): the instance it joins and its contribution. -/
structure CollMsg where
  collId : Nat        -- collective id in the job table
  inst : Nat          -- n-th instance of the id
  kind : Nat
  format : Nat
  elems : Nat
  rank : Nat
  size : Nat          -- constellation size of the member
  members : List Nat  -- the members as the sender lists them (R397)
  values : List Exact -- the values of the rank's source, in element order
  nonfinite : Bool    -- the vote's flag (R257)
  sealReq : Bool
  sealOpen : Bool
  sealVoid : Bool
  deriving DecidableEq, Repr

/-- The pair request stored in a mailbox (R422). -/
structure PairReq where
  grade : Nat         -- 0 full, 1 tray
  node : Nat
  feed : Nat
  poolPages : Nat
  names : Nat         -- the slot it names
  force : Bool
  poolOk : Bool       -- the peer's own check of its pool against its partitions (R422 step 3)
  deriving DecidableEq, Repr

/-- What an operating minute observes for the risk monitor (R446): counts and extremes of the minute. -/
structure MinuteObs where
  hbmCorrected : Nat
  sramCorrected : Nat
  sramUncorrectable : Bool
  hottestStack : Nat      -- degrees C
  lowestInputMv : Nat
  coreErrors : List (Nat × Nat)   -- core, corrected core-memory and tensor errors of the minute (R455)
  deriving DecidableEq, Repr

/-- A compute die's readings in a slow-loop interval (R468, R470). -/
structure DieReading where
  power : Nat     -- W
  floor : Nat     -- W, estimated draw at cap 8
  temp : Nat
  stackA : Nat
  stackB : Nat
  deriving DecidableEq, Repr

/-- Readings of the module in a slow-loop interval of 100 microseconds (R467, R468, R470). -/
structure SlowObs where
  watts : Nat
  milliVolts : Nat
  other : Nat       -- W on hub dies, HBM, SerDes, conversion loss and dusk domain in the previous interval
  hubTemp : Nat     -- hottest hub die
  dies : List DieReading
  deriving DecidableEq, Repr

/-- Why an input fault falls due (R483): the input range, the 100 MHz reference, or a die at 120 degrees. -/
inductive FaultCause where
  | input | reference | temperature
  deriving DecidableEq, Repr

/-- What a lookup of a module image gives the checks of R494 in a hot update or at boot: the image as bytes. -/
abbrev Image := List Byte

/-- What the boot flash says of itself (R492): its density in Mb, 4-byte addressing, 1-1-4 fast read, a 64 KiB erase type. -/
structure FlashParams where
  megabits : Nat
  fourByte : Bool
  read114 : Bool
  erase64k : Bool
  deriving DecidableEq, Repr

/-- An instruction of the test access port (R555). The spec names IDCODE, BYPASS and SAMPLE/PRELOAD; EXTEST is the fourth that
IEEE 1149.1 asks of every part (R16, log 9). -/
inductive TapOp where
  | idcode | bypass | samplePreload | extest
  | other (code : Nat)
  deriving DecidableEq, Repr

/-- A corrected or uncorrectable finding of a scrub pass (R309). -/
structure ScrubFinding where
  slot : Nat
  row : Nat
  corrected : Nat
  uncorrectable : Option Nat   -- the half of the row, 0 to 15
  deriving DecidableEq, Repr

/-- The commands: one constructor per row of the table, in its order. -/
inductive Instr where
  -- streams, tokens, passes (05, 06, 02)
  | nop (core : Nat) (eng : Engine)
  | seqBroadcast (sq : Nat) (eng : Engine) (imageBad : Bool)
  | waitEntry (core : Nat) (eng : Engine)
  | signalEntry (core : Nat) (eng : Engine)
  | tokenVisible (core : Nat) (eng : Engine)
  | waitCycle (core : Nat)
  | waitStall (ctx : Nat)
  | passOpen (sq : Nat)
  | passSettle (core : Nat) (eng : Engine)
  | passEndCredit (core : Nat)
  | settleToken (sq : Nat)
  | settleDoneToken (sq : Nat)
  | endStream (core : Nat) (eng : Engine)
  -- tensor engine (03, 04)
  | matmul (core : Nat) (err : CoreErr)
  | drain (core : Nat)
  | tileSwap (core : Nat) (unit : TeUnit)
  | tileDrainCommit (core : Nat) (unit : TeUnit)
  | txAccept (core : Nat) (err : CoreErr)
  -- group engine (07)
  | launch (core : Nat)
  | blockStart (core : Nat)
  | launchComplete (core slot : Nat)
  | integerAndCompare (core frame : Nat) (parity : Bool)
  | fpArithmetic (core frame : Nat) (op : FpOp) (parity : Bool)
  | localStoreLoad (core frame : Nat) (width : LsWidth) (err : CoreErr)
  | localStoreStore (core frame : Nat) (width : LsWidth) (err : CoreErr)
  | localStoreAtomic (core frame : Nat) (op : AtomicKind) (err : CoreErr)
  | narrowStore (core frame : Nat) (err : CoreErr)
  | laneExchange (core frame : Nat) (parity : Bool)
  | rndw (core frame : Nat) (parity : Bool)
  | rndk (core frame : Nat) (parity : Bool)
  | bra (core frame : Nat) (parity : Bool)
  | brx (core frame : Nat) (parity : Bool)
  | exit (core frame : Nat) (parity : Bool)
  | bar (core frame : Nat) (parity : Bool)
  | barrierStall (core block : Nat)
  | mrBegin (core frame : Nat) (parity : Bool)
  | mrEnd (core frame : Nat) (parity : Bool)
  | mx (core frame : Nat) (parity : Bool)
  -- move engine (10, 13, 08, 11)
  | copy (core : Nat) (err : CoreErr)
  | copyRemote (core : Nat) (err : CoreErr)
  | hintPrefetch (core : Nat)
  | hintPin (core : Nat)
  | hintUnpin (core : Nat)
  | hintDead (core : Nat)
  | reduceScatter (core : Nat) (err : CoreErr)
  | allGather (core : Nat) (err : CoreErr)
  | allReduce (core : Nat) (err : CoreErr)
  | finitenessVote (core : Nat)
  | collComplete (inst : Nat)
  | update (core : Nat)
  | voteOutcome (inst : Nat)
  | updateBlockCommit (upd unit : Nat) (err : UnitErr)
  | rule3Combine (upd : Nat) (parity : Bool)
  | updateComplete (upd : Nat)
  | fence (core : Nat)
  | trigger (core : Nat)
  | atomic (core : Nat)
  | hostPut (core : Nat) (err : CoreErr)
  | transferComplete (core slot : Nat)
  -- memory (10)
  | lineFill (miss : Nat) (lo hi : EccErr) (slice : Option SliceErr)
  | cowPageWaitExpiry (job page : Nat)
  | scrubPass (unit : Nat) (findings : List ScrubFinding)
  | rowRemapDone (unit slot row : Nat)
  | evacGo (unit slot : Nat)
  | evacCopyDone (unit slot : Nat)
  | pcRetrainDone (unit slot : Nat) (ok : Bool)
  | evacCopyBackDone (unit slot : Nat)
  | wipeComplete (wipe : Nat)
  -- packets and objects (11, 12, 06)
  | packetArrival (port : Nat) (bytes : List Byte)
  | packetHead (port queue : Nat)
  | pktNop (port queue : Nat)
  | write (port queue : Nat)
  | read (port queue : Nat)
  | load (port queue : Nat)
  | loadStart
  | loadDone
  | unload (port queue : Nat)
  | pktLaunch (port queue : Nat)
  | query (port queue : Nat)
  | partCreate (port queue : Nat)
  | partDestroy (port queue : Nat)
  | contextCreate (port queue : Nat)
  | contextKill (port queue : Nat)
  | teardownAbortDone (ctx : Nat)
  | contextDestroy (port queue : Nat)
  | contextQuery (port queue : Nat)
  | contextPreempt (port queue : Nat)
  | teSaveDone (core : Nat) (ok : Bool) (cycles : Nat)
  | geSaveDone (core : Nat)
  | queueSaveDone (core : Nat)
  | localStoreSave (core : Nat) (err : CoreErr)
  | contextResume (port queue : Nat)
  | resumeDone (ctx : Nat) (records : RecordRead)
  | jobCreate (port queue : Nat)
  | jobJoin (port queue : Nat)
  | jobDestroy (port queue : Nat)
  | queueCreate (port queue : Nat)
  | queueDestroy (port queue : Nat)
  | memAlloc (port queue : Nat)
  | memFree (port queue : Nat)
  | memMap (port queue : Nat)
  | memUnmap (port queue : Nat)
  | memUnmapComplete (unmap : Nat)
  | memShare (port queue : Nat)
  | descTableSet (port queue : Nat)
  | fenceCreate (port queue : Nat)
  | fenceDestroy (port queue : Nat)
  | fenceShare (port queue : Nat)
  | fenceImport (port queue : Nat)
  | fenceReset (port queue : Nat)
  | eventCreate (port queue : Nat)
  | eventDestroy (port queue : Nat)
  -- Burob link (11)
  | burobFlit (port : Nat) (corrected crcOk : Bool) (flit : Flit)
  | keepaliveSend (link : Link)
  | burobLinkDown (port : Nat)
  | burobTrained (port nonce halves : Nat)
  | burobTrainRetry (port : Nat)
  | laneErrorWindow (link : Link) (half lane count : Nat)
  | halfRetrainDone (link : Link) (half : Nat) (ok : Bool)
  | halfRetry (link : Link) (half : Nat)
  | graceExpiry (port : Nat)
  | cqHeadWrite (port cq : Nat) (value : W32)
  | cqWaitTimeout (port cq : Nat)
  -- tray and scale-out fabric (13)
  | trayFlit (link : Link) (corrected crcOk : Bool) (flit : Flit)
  | trayLinkTrained (slot farTray farSlot halves : Nat)
  | trayLinkDown (slot : Nat)
  | scaleoutPortTrained (port node : Nat) (width4 : Bool)
  | scaleoutPortDown (port : Nat)
  | scaleoutWidthChangeDone (port : Nat) (width4 : Bool)
  | lineStore (hdr : FabHdr) (mask : BitVec 128) (data : List Byte)
  | lineLoad (hdr : FabHdr) (mask : BitVec 128) (uncorrectable : Bool)
  | descFetch (hdr : FabHdr)
  | fabricAtomic (hdr : FabHdr) (op : AtomicKind) (operand : W64)
  | flag (hdr : FabHdr)
  | flagApplied (idx : Nat)
  | token (hdr : FabHdr) (rank channel : Nat)
  | fabricTrigger (hdr : FabHdr) (proc : Nat) (argument : W32)
  | fabricColl (hdr : FabHdr) (msg : CollMsg)
  | fencePush (hdr : FabHdr) (homeFence : Nat) (value : W64) (code : Nat) (cause : Option Nat)
  | fenceForward (hdr : FabHdr) (fence : Nat) (value : W64)
  | lossNotice (lost origin : Nat) (via : Link)
  | lossNoticeHoldEnd (lost : Nat)
  | fabricResponse (req : Nat) (resp : FabResp)
  | fabricRequestTimeout (req : Nat)
  | readmit (port slot : Nat)
  -- survival (14)
  | pairGo
  | pairRequestReceived (src : Nat) (req : PairReq)
  | pairTimeout
  | unpair
  | swapReq
  | protectEnable (entry : Nat)
  | protectDisable (entry : Nat)
  | mirrorStoreAck (entry line : Nat)
  | stepCloseReady (entry : Nat)
  | markerAck (entry : Nat)
  | sealWritebackDone (entry : Nat)
  | sealStreamAck (entry : Nat)
  | restoreGo (entry : Nat) (record : List Byte)
  | restoreComplete (entry : Nat) (sourceLost : Bool) (digestFailed : Option Nat) (digests : List (List Byte)) (pages : List (Nat × List Byte))
  | spareGo (core : Nat)
  | replacementTilesEnded
  | spareIn
  | operatingMinute (obs : MinuteObs)
  -- power and clocks (15)
  | slowLoop (obs : SlowObs)
  | fastLoop (die power : Nat)
  | clockGate (core : Nat)
  | powerGate (core : Nat)
  | coreWakeRequest (core : Nat)
  | rampAdmitted (core : Nat)
  | coreWakeDone (core : Nat) (checkOk : Bool)
  | dieGate (die : Nat)
  | dieWakeRequest (die : Nat)
  | dieWakeDone (die : Nat)
  | inputRise
  | duskReady (clean : Bool)
  | pwrEnAssert
  | powerGood
  | pwrEnDeassert
  | inputFault (cause : FaultCause) (milliVolts : Nat)
  | resetNAssert
  | resetNRelease
  | bootDone (flash : FlashParams)
  | wakeNLow
  | wakeNRelease
  | thermNLow
  | thermNRelease
  | pllLossOfLock (die : Nat) (control : Bool)
  | pllRelockDone (die : Nat) (control ok : Bool)
  | duskInputLoss
  | duskInputRestored
  -- boot, life cycle, change in service (16)
  | hubGo (port hub : Nat)
  | hubFailureDetected (hub : Nat)
  | hubSelfTestDone (hub : Nat) (pass : Bool)
  | lcGo
  | lifeCycleChangeDone
  | updGo
  | updWriteDone (ok : Bool)
  | unitActivation
  | updCommit (raiseMin : Bool)
  | updAbort
  | flashErase
  | flashProgram
  | flashOpDone (ok : Bool)
  | attGo (port : Nat)
  | attReportDone
  -- recorder (17)
  | eventIntake
  | flushNow
  | logClear
  | evLookup (window : Nat) (seq : W64)
  | evLookupDone (window : Nat)
  -- SMBus, test access, registers (19, 00)
  | addr (offset : W32) (pecOk : Bool)
  | rd32
  | rd64
  | wr32 (value : W32) (pecOk : Bool)
  | wr64 (value : W64) (pecOk : Bool)
  | status
  | alertResponse
  | tapInstruction (op : TapOp)
  | registerWrite (port : Nat) (offset width : Nat) (value : W64)
  | issueRamp (core : Nat) (unit : TeUnit) (workReady : Bool)
  | inputFall
  | inputOperatingRange (milliVolts : Nat)
  | flushDone (ok : Bool)
  deriving DecidableEq, Repr

end Sys2Proof
end

