-- ==== Sys2Proof/Config.lean ====
section
/-! DEFINITION. What the spec leaves open, as constants without a body: nothing in Lean can evaluate them, so a claim that
holds of the model holds whatever they are. Log entries 1, 6 and 8. -/

namespace Sys2Proof.Config

/-- The model's source of free values, applied to the counter `State.free` (log 1). -/
opaque freeValue : Nat → BitVec 64

/-- What an integer opcode of class 0x00 to 0x1F computes from its operands a, b and immediate: R185 names the class and
gives no opcode but RNDW and RNDK (log 6). -/
opaque intOp : (opcode : BitVec 8) → (a b : BitVec 32) → (imm : BitVec 31) → BitVec 32

/-- Whether an opcode of class 0x00 to 0x1F is a compare, which writes a predicate (R185, log 6). -/
opaque isCompare : (opcode : BitVec 8) → Bool

/-- What a compare opcode of class 0x00 to 0x1F decides (R185, log 6). -/
opaque cmpOp : (opcode : BitVec 8) → (a b : BitVec 32) → (imm : BitVec 31) → Bool

/-- What a lane exchange or reduction of class 0x50 to 0x5F gives each lane, from every lane's a and b and the active
mask (R185, log 6). -/
opaque laneOp : (opcode : BitVec 8) → (a b : List (BitVec 32)) → (active : BitVec 32) → (lane : Nat) → BitVec 32

/-- Whether an opcode of class 0x00 to 0x5F reads its operand b (1) or c (2) as a register: R185 gives forms, not opcodes
(log 6). -/
opaque readsOperand : (opcode : BitVec 8) → (operand : Nat) → Bool

/-- Whether an opcode of class 0x40 to 0x4F writes the register its first field names (R185, log 6). -/
opaque isLoad : (opcode : BitVec 8) → Bool

/-- Whether an opcode of class 0x20 to 0x3F is the conversion, whose imm[3:0] is a format code (R185, log 6). -/
opaque isConvert : (opcode : BitVec 8) → Bool

/-- The highest Peunro minor version that a loader image accepts, which the image's body holds in no stated place (R203, log 8). -/
opaque imageMinor : (image : List (BitVec 8)) → BitVec 8

/-- The loader firmware version of an image as LR_VERSION shows it (R203, log 8). -/
opaque imageFwVersion : (image : List (BitVec 8)) → BitVec 16

/-- The fused SHA-384 hashes of vendor keys 0 to 3, which the spec does not give (R495, log 3). -/
opaque vendorHash : (key : Nat) → List (BitVec 8)

/-- The key under which the identity key is wrapped: the spec says that it is derived from a fused package secret, and not how (R501,
log 19). -/
opaque packageKey : BitVec 256

/-- The vendor key whose SHA-384 a fuse holds: a token names a vendor key by index and does not carry it (R506, log 8). -/
opaque vendorKeyOf : (hash : List (BitVec 8)) → List (BitVec 8)

/-- The refresh rate of a stack at a temperature, as HC_STATUS codes it: the spec gives the rates and not the temperatures (R306, log 8). -/
opaque refreshRate : (celsius : Nat) → BitVec 2

end Sys2Proof.Config
end

