-- ==== Sys2Proof/Machine/State.lean ====
section
/-! DEFINITION. The state of the block as plain data: every register, queue, buffer, counter, mode and pin the spec gives
one Shaudor ST9 device, with the model's own queue of waiting commands; the reasons a step can stop; the state after
reset. Registers live in `regs`, one value per control-space offset (R329); what has structure lives in typed fields, and
the registers that report it are read from those fields (Machine/Regs.lean). -/

namespace Sys2Proof.Machine

open Sys2Proof

/-! ### Identity, pins -/

/-- The two grades of R1. -/
inductive Grade where
  | full | tray
  deriving DecidableEq, Repr

/-- The state of a physical core position as the CORES part reports it (R375): 0 fused off, 1 enabled, 2 spare, 3 retired. -/
inductive CoreKind where
  | fusedOff | enabled | spare | retired
  deriving DecidableEq, Repr

/-- What identifies the part: the grade (R1), the silicon revision (R203), and the core positions whose kind differs from
the grade's layout at manufacture, by global core id (R8, R455). -/
structure Ident where
  grade : Grade
  revision : Nat
  kinds : Tab CoreKind
  deriving DecidableEq, Repr

/-- The sideband pins and the input (R465, R481-R483, R550-R557). `board*` are the levels on the strap pins, `strap*` the
values sampled by the dusk domain (R551). -/
structure Pins where
  inputUp : Bool        -- input at 20 V or more
  inRange : Bool        -- input in 40 to 60 V
  duskReady : Bool      -- dusk domain out of reset (step 2 of R481)
  pwrEn : Bool          -- level of PWR_EN
  railsOn : Bool        -- PWR_EN has been taken and the rails ramp or are up
  faultLatch : Bool     -- R483: no power-up until PWR_EN is deasserted and asserted again
  pg : Bool
  resetN : Bool         -- level of RESET_N, true high
  booting : Bool        -- RESET_N taken high, BOOT_DONE not yet reached
  wakeLow : Bool
  thermBoard : Bool     -- the board drives THERM_N low
  thermModule : Bool    -- the module drives THERM_N low
  alertLow : Bool
  boardFeed : Nat
  boardSlot : Nat
  boardTray : Nat
  strapFeed : Nat
  strapSlot : Nat
  strapTray : Nat
  deriving DecidableEq, Repr

/-! ### Peunro streams as loaded (06) -/

/-- The modes of R106. -/
inductive TeMode where
  | full | thin | quad | mv
  deriving DecidableEq, Repr

/-- The drain field of a matrix instruction (R91, R177). -/
inductive DrainKind where
  | none | final | spill
  deriving DecidableEq, Repr

/-- The fields of MATMUL (R177); `DRAIN` uses mode, array set, batch and output (R176). Sizes are true sizes. -/
structure MatF where
  mode : TeMode
  first : Nat
  countLog2 : Nat
  quadrant : Nat
  drain : DrainKind
  batch : Nat
  a : Nat
  b : Nat
  out : Nat
  init : Nat
  m : Nat
  n : Nat
  k : Nat
  l : Nat
  deriving DecidableEq, Repr

/-- The bodies of stream instructions (R176). -/
inductive Insn where
  | nop
  | loop (count : Nat)
  | endloop
  | passOpen (id : Nat)
  | passSettle (id : Nat)
  | fin
  | matmul (f : MatF)
  | drain (f : MatF)
  | txAccept (n : Nat)
  | launch (entry groups blocks const : Nat)
  | copy (src dst mxCtl : Nat)
  | copyRemote (src dst rank slot node kind chan : Nat) (token flag : Bool) (flagHandle : Nat)
  | hint (handle kind : Nat)
  | coll (src dst kind scope id : Nat)
  | update (rule master grad mask rows vote : Nat)
  | fence (id value : Nat)
  | trigger (slot proc argument : Nat)
  | atomic (target : Nat) (op : AtomicKind) (operand : Nat)
  | hostPut (src cq : Nat)
  deriving DecidableEq, Repr

/-- One stream instruction with its prefixes (R173) and its byte offset in the section. -/
structure SInsn where
  body : Insn
  wait : Option (Nat × Nat)
  sig : Option Nat
  off : Nat
  deriving DecidableEq, Repr

/-- One native entry of an engine queue (R179): a wait or signal entry (`ofNop`: the prefix of a NOP), the k-th body entry
of an instruction (the k-th tile of a MATMUL), or the drain entry of a MATMUL's k-th tile. -/
inductive Entry where
  | wait (ch n : Nat) (ofNop : Bool)
  | signal (ch : Nat) (ofNop : Bool)
  | body (i : Insn) (k : Nat)
  | tileDrain (f : MatF) (k : Nat)
  deriving DecidableEq, Repr

/-- A channel binding of the constellation header (R169): producer 0 unbound, 1 TE, 2 GE, 3 ME, 4 REMOTE; consumer 1 TE,
2 GE, 3 ME. -/
structure Binding where
  init : Nat
  producer : Nat
  consumer : Nat
  deriving DecidableEq, Repr

/-- A pass table entry (R170). -/
structure PassEnt where
  id : Nat
  replayable : Bool
  tensors : List Nat
  deriving DecidableEq, Repr

/-- A kernel of a loaded module, as translated (R168-R170, R178). -/
structure Kernel where
  size : Nat
  lsEighths : Nat
  chans : List Binding
  passes : List PassEnt
  te : List SInsn
  ge : List SInsn
  me : List SInsn
  program : Option (List Byte)
  const : Option (List Byte)
  deriving DecidableEq, Repr

/-- A native image held for a context: handle, kernels, bytes (R194, R195, R203); `unloading` after an UNLOAD that waits
for its last kernel (R335), with the fence to signal, where the packet carries one. -/
structure Module where
  ctx : Nat
  handle : Nat
  kernels : List Kernel
  bytes : Nat
  unloading : Option (Option (Nat × Nat))
  deriving DecidableEq, Repr

/-! ### Descriptors (05) -/

/-- A tensor descriptor (R156): sizes are true sizes; `strides` those of dimensions 1 to 5. -/
structure Desc where
  handle : Nat
  base : Nat
  scaleOff : Int
  statsOff : Int
  rankStride : Nat
  fmt : Nat
  blk : Nat
  ovf : Bool
  valid : Bool
  bias : Int
  policy : Nat
  part : Nat
  writable : Bool
  dims : Nat
  sizes : List Nat
  strides : List Nat
  reserved : Bool
  deriving DecidableEq, Repr

/-! ### Cores: queues, tokens, transfers (05, 10) -/

/-- A token channel (R140). -/
structure Chan where
  count : Nat
  bind : Binding
  deriving DecidableEq, Repr

/-- A token in flight (R141): its producer, its channel, and the outstanding work of the producer it rides behind. -/
structure Flight where
  eng : Engine
  ch : Nat
  behind : List Nat
  deriving DecidableEq, Repr

/-- The kind of work that holds a transfer slot (R289). -/
inductive XferKind where
  | copy | remote | hint | coll | update | trigger | atomic | hostPut
  deriving DecidableEq, Repr

/-- What a transfer has yet to ask for, in order (R289, R392): a read of bytes of a line for a partition under a policy, a descriptor of
the destination node, a store of bytes to an address of the destination node, the flag behind the stores. -/
inductive Todo where
  | read (part policy ln o n : Nat)
  | fetch (addr : Nat)
  | store (addr : Nat) (data : List Byte)
  | flag (addr : Nat)
  deriving DecidableEq, Repr

/-- A mapping of pages of an object (R359): page size 0 is 2 MiB, 1 is 64 KiB. -/
structure Mapping where
  va : Nat
  pages : Nat
  pageSize : Nat
  obj : Nat
  first : Nat
  read : Bool
  write : Bool
  deriving DecidableEq, Repr

/-- A transfer slot in use (R289): its work id and entry; the descriptors read when the entry was taken (R155), and the mappings
that translated its ranges (R291, R361); what it has yet
to ask for, the slice misses, fabric requests, completion-entry pieces, update and collective instance it waits for; whether
its data have moved; the lines that read uncorrectable (R307); whether its fence has errored; whether its remote token has
been sent; the blocks re-encoded and the substitutions of a conversion (R40). -/
structure Xfer where
  work : Nat
  kind : XferKind
  insn : Insn
  descs : List Desc
  maps : List Mapping
  todo : List Todo
  misses : List Nat
  reqs : List Nat
  pieces : Nat
  upd : Option Nat
  coll : Option Nat
  moved : Bool
  bad : List Nat
  failed : Bool
  tokenSent : Bool
  mx : Option (Nat × Nat)
  deriving DecidableEq, Repr

/-- A run of a narrow tensor on one core: a bias and the blocks committed under it (R53). -/
structure Run where
  bias : Int
  blocks : List Nat
  deriving DecidableEq, Repr

/-- Clock state of a core (R161, R475). -/
inductive CoreClk where
  | running | clockGated | powerGated
  deriving DecidableEq, Repr

/-- An arrival that the wake port holds (R152): a broadcast entry, a remote token, a fabric request for the core's memory with the
device-local address it is for and, for a store, its bytes by place. -/
inductive HeldArrival where
  | entry (eng : Engine) (e : Entry)
  | token (ch : Nat)
  | request (load : Bool) (hdr : FabHdr) (addr : Nat) (data : List (Nat × Byte))
  deriving DecidableEq, Repr

/-- One physical core: what R133-R160, R53, R289 and R475 give it beside the tensor and group engines' own state. -/
structure Core where
  teQ : List Entry
  geQ : List Entry
  meQ : List Entry
  tePos : Nat
  gePos : Nat
  mePos : Nat
  chans : List Chan
  inflight : List Flight
  work : List (Engine × Nat)
  nextWork : Nat
  xfers : Tab Xfer                          -- by slot 0-63
  member : Option (Nat × Nat)               -- sequencer (die * 16 + s), rank
  lsEighths : Nat
  lsHeld : Option Nat                       -- context whose local store stays in place (R288)
  passMax : Tab Int                         -- by handle
  runs : Tab (List Run)                     -- by handle
  settled : List Engine                     -- engines that have taken the PASS_SETTLE of the open instance
  ended : List Engine                       -- engines that have taken END
  lastVote : Tab Nat                        -- latest vote instance, by vote collective id (R259)
  clk : CoreClk
  waking : Bool
  held : List HeldArrival
  cap : Nat
  noNewTile : Bool                          -- R455 step 1
  rampPhase : Nat                           -- 0 none, 1 waiting for a ramp, 2 ramping (R476)
  saved : List Engine                       -- engines whose save record is written (R126, R160, R230)
  mxCounts : Option (Nat × Nat)             -- what the last completed conversion reported: blocks re-encoded, substitutions (R40)
  faulty : Bool                             -- has reported a fault that retires it after teardown (R455)
  deriving DecidableEq, Repr

/-! ### Tensor engine (03, 04) -/

/-- A tile of a unit (R563): its mode, the unit's position in the set of the entry that opened it, accumulators by cell or
entry index (R94), the contributions of a summation block that is only partly issued and closes at the drain (R89), the count of
block additions, L, what it uses from its start (R101), whether it is long and whether its
count has passed 2^20, the name of its rounding stream (R275, R280), and the stream position of the last entry that issued
to it. -/
structure Tile where
  mode : TeMode
  arrPos : Nat
  acc : Tab A40
  part : Tab Exact
  blocks : Nat
  l : Nat
  long : Bool
  longLog2 : Nat
  srOff : Bool
  lenSeen : Bool
  pos : Nat
  ordinal : Nat
  tag : Nat
  rank : Nat
  last : Nat
  deriving DecidableEq, Repr

/-- A drain waiting at a unit, or in its shadow set (R88-R91): its kind, the output descriptor as read when the entry was
taken (R155), the row and column origin of the unit's part and the rows and columns of it that are written (R117), the batch of
the path, its work. -/
structure DrainJob where
  kind : DrainKind
  out : Desc
  row : Nat
  col : Nat
  rows : Nat
  cols : Nat
  batch : Nat
  work : Nat
  deriving DecidableEq, Repr

/-- A tile of a MATMUL that has taken its place behind a swap that waits, before any of its products (R90, R120): its instruction, tile,
stream position and operands as read when it was taken, its work, and the drain of its unit's part where the drain entry has been taken. -/
structure WaitMat where
  f : MatF
  k : Nat
  pos : Nat
  a : Desc
  b : Desc
  init : Option Desc
  work : Nat
  drain : Option DrainJob
  deriving DecidableEq, Repr

/-- One tensor unit: the active set's tile, a drain that waits for the swap, the tile behind it and the drain of that, the shadow set,
whether the swap that waits has been counted as a stall, the issue rate and credit, the tile that waits behind the stalled swap, and
whether work was ready in the unit's last arithmetic cycle (R88, R90, R120, R122). -/
structure TeUnitSt where
  active : Option Tile
  pendingDrain : Option DrainJob
  next : Option Tile
  nextDrain : Option DrainJob
  shadow : Option (Tile × DrainJob)
  stalled : Bool
  rate : Nat
  credit : Nat
  waiting : Option WaitMat
  ready : Bool
  deriving DecidableEq, Repr

/-! ### Group engine (07) -/

/-- A launch slot (R218, R230). -/
structure Launch where
  entry : Nat
  groups : Nat
  blocks : Nat
  u : List W32
  nextBlock : Nat
  ended : Nat
  barLog2 : Nat
  work : Nat
  deriving DecidableEq, Repr

/-- A resident block (R220, R222, R230). -/
structure Block where
  slot : Nat
  idx : Nat
  groups : Nat
  firstFrame : Nat
  arrived : Nat
  exited : Nat
  phase : Nat
  ticks : Nat
  left : Nat               -- groups that have left
  deriving DecidableEq, Repr

/-- An entry of the reconvergence stack (R213): lanes of a path that wait to run from a position (`arrived` false), or that have
reached their reconvergence point, that position, and wait there for the other paths (`arrived` true); and the points at which
the path meets others from there on, the innermost first. -/
structure Path where
  mask : BitVec 32
  pos : Nat
  points : List Nat
  arrived : Bool
  deriving DecidableEq, Repr

/-- A group's frame (R208, R216): registers by register * 32 + lane, predicates by number, position, masks, the points at which
its running path meets others (innermost first), the reconvergence stack, the lanes parked by BAR address with their paths'
points (R221), the open matrix region with its issuer lane and lanes (R223), and when it last issued (R210). -/
structure Group where
  block : Nat
  index : Nat
  v : Tab W32
  p : List (BitVec 32)
  pos : Nat
  active : BitVec 32
  exited : BitVec 32
  points : List Nat
  stack : List Path
  parked : List (Nat × BitVec 32 × List Nat)
  region : Option (Nat × BitVec 32)
  last : Nat
  deriving DecidableEq, Repr

/-- The group engine of one core. -/
structure Ge where
  launches : Tab Launch
  blocks : Tab Block
  groups : Tab Group
  port : List MatF
  nextBlock : Nat
  deriving DecidableEq, Repr

/-! ### Sequencers (05, 06, 02) -/

/-- A fetch position of a stream: instruction, native entry within it, loop stack of (body start, passes left) (R180). -/
structure Fetch where
  idx : Nat
  sub : Nat
  loops : List (Nat × Nat)
  deriving DecidableEq, Repr

/-- Where a pass instance stands (R56, R66, R182): opened; settled by its cores (steps 2 to 4 of R56) and waiting for its
leader; ordered to run again and waiting for its PASS_OPEN. -/
inductive PassStage where
  | opened | settled | rerun
  deriving DecidableEq, Repr

/-- The open pass instance of a sequencer. `marks` are the fetch positions of the PASS_OPENs, for a re-run (R66). -/
structure PassInst where
  id : Nat
  stage : PassStage
  marks : List (Engine × Fetch)
  broadcastSettle : List Engine
  credits : List Nat          -- cores whose pass-end credit has arrived
  settleCredits : List Nat
  biases : Tab Int            -- tensor bias before the open, by handle
  opened : Tab Int            -- tensor bias with which every core starts the pass, by handle (R55)
  ceilings : List Nat         -- handles whose BIAS_CEILING this pass has recorded (R50)
  outdated : List Nat         -- handles whose bias another constellation has written since (R45)
  reruns : Nat
  deriving DecidableEq, Repr

/-- A bound constellation (R135, R196, R276): its context, module and kernel, members in rank order, fetch positions, the
latched counters and layer tag, and the fence of its launch packet (R197). -/
structure Seq where
  ctx : Nat
  module : Nat
  kernel : Kernel
  members : List Nat
  teF : Fetch
  geF : Fetch
  meF : Fetch
  pass : Option PassInst
  step : Nat
  attempt : Nat
  jobKey : W64
  tag : Nat
  fence : Option (Nat × Nat)   -- fence id and value of the launch packet
  stallLog2 : Nat
  preempting : Bool
  order : Nat                  -- launch order in the context (R396)
  creditHeld : List Engine
  fw : Nat                     -- the Zenith version its sequencer took at its launch (R509)
  deriving DecidableEq, Repr

/-- What the headers of a member's save records hold (R127, R160, R230): the saving core, the sequencer, the mask of units that held
tiles, TE_CTL in effect, the record version, the grade and silicon revision of the device, the context's stall counter. -/
structure SaveHead where
  core : Nat
  sequencer : Nat
  units : Nat
  teCtl : Nat
  version : Nat
  grade : Grade
  revision : Nat
  stall : Nat
  deriving DecidableEq, Repr

/-- The save records of one member as bytes of the device-held area: the tensor engine's (R127), the queues' (R160), the group
engine's (R230). -/
structure SaveRec where
  te : List Byte
  queue : List Byte
  group : List Byte
  deriving DecidableEq, Repr

/-- A pre-empted constellation with its save records (R127, R160, R230, R288): the headers, what the members' cores, tensor units
and group engines held, and the records as bytes, by rank. -/
structure Saved where
  seq : Seq
  cores : Tab Core
  units : Tab TeUnitSt
  groups : Tab Ge
  stores : List (Nat × List Host.Cell)   -- saved local stores, by rank
  heads : Tab SaveHead
  records : Tab SaveRec
  deriving DecidableEq, Repr

/-! ### Packets and objects (11, 12) -/

/-- A command packet (R334). `reserved` says that a reserved bit of the header is set. -/
structure Packet where
  opcode : Nat
  fenceEn : Bool
  waitEn : Bool
  payloadLen : Nat
  queue : Nat
  ctx : Nat
  key : Nat
  cq : Nat
  tag : Nat
  fenceId : Nat
  waitId : Nat
  fenceValue : Nat
  waitValue : Nat
  arg0 : Nat
  arg1 : Nat
  arg2 : Nat
  reserved : Bool
  payload : List Byte
  deriving DecidableEq, Repr

/-- A submission queue (R153, R358): owner (none: the port's admin queue), depth, waiting packets, the packet that has
started to run, whether the head waits on its fence, counts, state record. -/
structure SubQueue where
  owner : Option Nat
  depth : Nat
  packets : List Packet
  running : Option Packet
  headWaits : Bool
  consumed : Nat
  dropped : Nat
  record : Nat
  deriving DecidableEq, Repr

/-- A partition (R349, R353). -/
structure Part where
  port : Nat
  debugAllowed : Bool
  share : Nat
  cores : List Nat
  slices : List Nat
  ranges : List (Nat × Nat)
  deriving DecidableEq, Repr

/-- Life-cycle state of a context (R352). -/
inductive CtxState where
  | live | teardown | dead
  deriving DecidableEq, Repr

/-- An entry of the context error log (R372). -/
structure LogEntry where
  seq : Nat
  code : Nat
  fault : Bool
  propagated : Bool
  fence : Nat
  originCtx : Nat
  originNode : Nat
  detail : Nat
  opcode : Nat
  queue : Nat
  deriving DecidableEq, Repr

/-- A block of a key-value tensor that the device has written: its handle, the rank of the core whose local store holds it (0 for a
tensor in HBM), its number and the bias it stands under (R70, R71). -/
structure KvBlock where
  handle : Nat
  rank : Nat
  block : Nat
  bias : Int
  deriving DecidableEq, Repr

/-- A context (R356, R373). -/
structure Ctx where
  state : CtxState
  part : Nat
  key : W32
  debug : Bool
  job : Option Nat
  cause : Nat
  ownerGone : Bool
  maps : List Mapping
  descTable : Option Nat
  log : List LogEntry
  logSeq : Nat
  logLost : Nat
  rereads : Nat
  stall : Nat
  progress : Bool                    -- an event of R149 has happened since the last tick
  saved : List Saved
  resumes : List Saved               -- constellations bound again, waiting for RESUME_DONE
  killFences : List (Nat × Nat)      -- packets completed at the end of teardown
  abortFences : List Nat             -- fences of discarded packets and aborted entries
  preemptFences : List (Nat × Nat)
  kv : List KvBlock
  deriving DecidableEq, Repr

/-- A vote record (R258). -/
structure VoteRec where
  pass : Bool
  generation : Nat
  t : Nat
  deriving DecidableEq, Repr

/-- A job-table entry (R274, R357, R258, R397). -/
structure Job where
  id : Nat
  key : W64
  ops : Nat
  step : Nat
  attempt : Nat
  members : List Nat
  nonfinite : Bool
  vote : Option VoteRec
  lastLost : Bool
  colls : Tab Nat                    -- COLLs taken by this device's ranks, by collective id * 64 + rank (R397)
  deriving DecidableEq, Repr

/-- Life-cycle state of a memory object (R352). -/
inductive MemState where
  | live | freeing | wiping
  deriving DecidableEq, Repr

/-- A memory object (R349, R359, R360): device-local addresses of its pages, shares as (context, write). -/
structure MemObj where
  owner : Nat
  part : Nat
  pageSize : Nat
  pages : List Nat
  state : MemState
  shares : List (Nat × Bool)
  deriving DecidableEq, Repr

/-- A fence (R363-R369): `err` is the code of the error state, 0 for none; `home` is set for a proxy (node, home id, signal
right). -/
structure Fence where
  owner : Nat
  value : W64
  err : Nat
  held : Bool
  shares : List (Nat × Bool)
  exported : Option Bool
  proxies : List (Nat × Nat)
  home : Option (Nat × Nat × Bool)
  origin : Option Nat      -- the context that caused the error, where one did (R365)
  deriving DecidableEq, Repr

/-- An event (R371). -/
structure Event where
  owner : Nat
  port : Nat
  fence : Nat
  target : W64
  cq : Nat
  fired : Bool
  deriving DecidableEq, Repr

/-- A MEM_UNMAP that waits for transfers (R361): the work, by core, that translated a page of the range. -/
structure UnmapWait where
  work : List (Nat × Nat)
  fence : Option (Nat × Nat)
  deriving DecidableEq, Repr

/-- The objects of R349. -/
structure Objects where
  parts : Tab Part
  ctxs : Tab Ctx
  jobs : Tab Job                -- by job-table entry
  queues : Tab SubQueue         -- by port * 8192 + queue id
  mems : Tab MemObj
  fences : Tab Fence            -- by fence id
  fenceGen : Tab Nat            -- generation to give next, by slot
  events : Tab Event
  unmaps : Tab UnmapWait
  nextMem : Nat
  nextEvent : Nat
  launches : Nat                -- launches bound, for R396's order
  deriving DecidableEq, Repr

/-! ### Loader (06) -/

/-- A load taken by the loader or waiting (R194, R195): its packet's fence, and its fence id as the completion's source; the verdict
of the checks, once made. -/
structure LoadJob where
  port : Nat
  ctx : Nat
  queue : Nat
  cq : Nat
  address : Nat
  bytes : Nat
  fence : Option (Nat × Nat)
  source : Nat
  verdict : Option (Nat × Nat × List Kernel)   -- code (0 accepted), detail, kernels
  deriving DecidableEq, Repr

/-- The loader. -/
structure Loader where
  running : Option LoadJob
  queue : List LoadJob
  modules : List Module
  nextHandle : Nat
  deriving DecidableEq, Repr

/-! ### Memory-side cache and HBM (10) -/

/-- A line of a slice (R293, R295): data is kept by byte index in the line; `slice` and `set` place it, `age` orders
replacement. -/
structure Line where
  slice : Nat
  set : Nat
  part : Nat
  valid : BitVec 128
  dirty : BitVec 128
  data : List Byte
  pinned : Bool
  age : Nat
  deriving DecidableEq, Repr

/-- An outstanding slice miss (R296): the line, the partition, the reading context, the transfer it serves (core, slot),
whether it installs the line, and whether as most recently used (R294), whether the core's private cache takes the line (R286); and for a
read that waits at a slice whose die does not serve (R474, R477) its policy, first byte and length. -/
structure Miss where
  line : Nat
  part : Nat
  ctx : Nat
  reader : Option (Nat × Nat)
  install : Bool
  mru : Bool
  ro : Bool
  held : Option (Nat × Nat × Nat)
  deriving DecidableEq, Repr

/-- The memory-side cache and the core-private caches. -/
structure Cache where
  lines : Tab Line
  misses : Tab Miss
  evicted : Tab (List (Nat × Nat))    -- by slice: line, access count at eviction (R300)
  dead : Tab (List Nat)               -- by slice (R302)
  accesses : Tab Nat                  -- by partition * 512 + slice
  priv : Tab (List (Nat × List Byte)) -- by core: line, data, most recent first (R286)
  clock : Nat
  deriving DecidableEq, Repr

/-- Where an evacuation of a slot stands (R310). -/
inductive EvacStep where
  | copying | retraining | copyingBack
  deriving DecidableEq, Repr

/-- A wipe in progress (R311): an object's pages, or a core. -/
inductive Wipe where
  | pages (obj : Nat)
  | core (core : Nat)
  deriving DecidableEq, Repr

/-- HBM controllers and stacks: row maps (row to spare row) kept in flash, corrected errors per row, copies in progress,
spare rows used, evacuation steps, uncorrectable halves, wipes (R305-R311). Keys of rows: (unit * 32 + slot) * 2^24 + row. -/
structure Hbm where
  rowMap : Tab Nat
  rowErr : Tab Nat
  remapping : List Nat
  spareUsed : Tab Nat
  evac : Tab EvacStep
  bad : List Nat
  wipes : Tab Wipe
  softRep : List Nat           -- rows that a stack has repaired softly, until it loses power (R306, R309)
  hardRep : List Nat           -- rows repaired for good, in the SERVICE life-cycle state (R306, R504)
  deriving DecidableEq, Repr

/-! ### Burob link and host memory (11) -/

/-- What a completion entry belongs to: a packet (its fence and value), a HOST_PUT (core, slot), an event. -/
inductive CqOwner where
  | packet (fence : Option (Nat × Nat)) (opcode queue : Nat)
  | put (core slot : Nat)
  | event (handle : Nat)
  deriving DecidableEq, Repr

/-- A completion entry (R340, R341): kind, context, source, result bytes, data, offset, last piece, its owner, and the
number of the transfer whose piece it is. -/
structure CqEntry where
  kind : Nat
  ctx : Nat
  source : Nat
  result : List Byte
  data : List Byte
  offset : Nat
  last : Bool
  owner : CqOwner
  xid : Nat
  deriving DecidableEq, Repr

/-- A completion queue's device side beside its registers: entry count, entries that wait. -/
structure CqState where
  seq : Nat
  waiting : List CqEntry
  deriving DecidableEq, Repr

/-- A Burob port (R321-R343). `halves` bits: lanes 0-15, lanes 16-31; `retraining` halves in a live retrain, `cause` the lane and
count that started each (half, lane, count); `training` an attempt under way, `retry` one after the first; `recorded` once its link record has been written. -/
structure Port where
  up : Bool
  training : Bool
  retry : Bool
  halves : Nat
  retraining : Nat
  cause : List (Nat × Nat × Nat)
  nonce : Option Nat
  deviceNonce : Nat
  session : Nat
  grace : Bool
  heldWrites : List (Nat × List Byte)
  recorded : Bool
  deriving DecidableEq, Repr

/-- The host side as the device can reach it: ports, completion queues by port * 256 + cq, and what the device has written
to each port's windows. -/
structure HostSide where
  ports : Tab Port
  cqs : Tab CqState
  mem : Tab (List Host.Cell)
  nextXid : Nat
  deriving DecidableEq, Repr

/-! ### Fabric (13) -/

/-- What an outstanding fabric request is (R388, R429); a load has its destination address and bytes (R407). -/
inductive ReqKind where
  | store | load (dest n : Nat) | descFetch | atomic | flag | token | trigger | coll (inst : Nat) (msg : CollMsg)
  | fencePush | fenceForward
  | mirror (entry line : Nat)      -- a line of a MIRROR page, to the partner's live image (R429, R430)
  | twin (entry : Nat) (flag : Bool)  -- a store or a flag of a message to the partner (log 30)
  | marker (entry : Nat) (close : Bool) -- the flag of a step marker, or of a seal marker (R432, R440)
  deriving DecidableEq, Repr

/-- An outstanding request (R388, R400, R407): destination node, kind, the transfer it belongs to (core, slot), the context
whose fence it would fail and that fence, job, address, data, flag count; whether it waits at its hub die. -/
structure Req where
  dst : Nat
  kind : ReqKind
  owner : Option (Nat × Nat)
  ctx : Nat
  fence : Option Nat
  job : Nat
  addr : Nat
  data : List Byte
  seq : Nat
  waiting : Bool
  vc : Nat                 -- the virtual channel on which it left (R405)
  via : Option Link        -- the link on which it left (R400, R404)
  deriving DecidableEq, Repr

/-- The end of a link at this device (R323, R324, R381-R383, R385, R401, R405): flits formed for the far end and acknowledged by it,
flits received in order, tries of the next flit to receive and of the oldest unacknowledged one, the receive credits last announced,
the class of requests served last and what each class has left of its turn, whether a change of width waits for the replay buffer; the
threshold codes in effect in the windows of lanes (half * 64 + lane), and those of each half's other lanes (R345, R415). -/
structure Wire where
  formed : Nat
  acked : Nat
  received : Nat
  rxTries : Nat
  txTries : Nat
  credits : List Nat
  last : Nat
  left : Tab Nat
  leaving : Bool
  lanes : Tab Nat
  thresh : Tab Nat
  deriving DecidableEq, Repr

/-- A flag that waits for the earlier stores it counts to be visible, with the code of one of them that failed, 0 for none (R394). -/
structure WaitFlag where
  hdr : FabHdr
  failed : Nat
  deriving DecidableEq, Repr

/-- A collective instance on this device (R397, R398). -/
structure Coll where
  entry : Nat              -- job-table entry
  collId : Nat
  index : Nat
  kind : Nat
  scope : Nat
  nodes : List Nat
  format : Nat
  elems : Nat
  size : Nat
  parts : List (Nat × CollMsg)       -- node, contribution
  locals : List (Nat × Nat × Nat)    -- core, rank, transfer slot
  ctx : Nat
  deriving DecidableEq, Repr

/-- A packet that waits at its link or port beside the device's own requests (R401): a loss notice of a link; a response to a node, with
the virtual channel it came on; a request forwarded for another node, with the header it came with; each with its flits. -/
inductive OutPkt where
  | notice (l : Link)
  | resp (dst vc flits : Nat)
  | fwd (h : FabHdr) (flits : Nat)
  deriving DecidableEq, Repr

/-- The fabric. Link states as software sees them are in the registers; `linkUp` holds the tray links that are trained, which a slot
held lost may be too (R558). -/
structure Fabric where
  reqs : Tab Req
  resp : Option (FabHdr × List Byte)   -- the response this device last made: header and data (R388)
  out : List OutPkt                -- what waits at links and ports, in order (R385, R401, R405)
  fwd : Option (Nat × FabHdr)     -- the request this device last forwarded: scale-out port, header as sent (R403-R405)
  wires : Tab Wire                -- by link: Burob port p, 8 + tray slot, 16 + scale-out port
  flags : Tab WaitFlag
  recv : Tab (Nat × Nat)          -- by source queue: stores received since the last that failed, and its code
  colls : Tab Coll
  notices : List (Nat × Nat)      -- lost, origin: held for 10 us
  seen : List (Nat × Nat)
  lostNodes : List Nat
  linkUp : List Nat
  halfOut : List (Nat × Nat)      -- link (0-7 tray, 8-11 scale-out), half in live retrain
  selfFenced : Bool
  recentLoss : List (Nat × Nat)   -- slot, tick of the declaration
  svcPeer : Nat
  nextReq : Nat
  nextColl : Nat
  nextFlag : Nat
  deriving DecidableEq, Repr

/-! ### Update units (08) -/

/-- An UPDATE handed to the units (R238): its transfer, what the move engine read and checked, its vote, the blocks left by unit.
`tens` holds its descriptors: 0 master, 1 gradient, 2 m, 3 v or row accumulator, 4 column accumulator, 5 scratch, 6 working
copy, 7 row step counts, 8 frozen mask, 9 touched-row bitmap. -/
structure Upd where
  core : Nat
  ctx : Nat
  rank : Nat
  slot : Nat
  work : Nat
  ruleHandle : Nat
  base : Nat                   -- address of the rule block for the rank
  rule : List Byte             -- bytes 0x00 to 0x3F (R240)
  maps : List Mapping
  tens : Tab Desc
  inst : Nat                   -- vote instance
  outcome : Option VoteRec
  lost : Bool
  held : Bool                  -- held by R433
  left : Tab (List Nat)        -- by unit: blocks in ascending order
  secondPass : Bool            -- rule 3: released by the combiner
  voided : Bool                -- rule 3: non-finite sums (R248)
  rtot : W32
  rowN : Tab Nat               -- row step counts as first read, by row
  rowDone : List Nat           -- rows whose count has advanced
  rowsTouched : Nat
  updated : Nat
  frozen : Nat
  guarded : Nat
  err : Nat
  deriving DecidableEq, Repr

/-- The update units; the outcomes of vote instances, none for one that ended in error (R260). -/
structure Units where
  updates : Tab Upd
  votes : Tab (Option VoteRec)
  next : Nat
  deriving DecidableEq, Repr

/-! ### Survival (14) -/

/-- A protection table entry (R426). -/
structure ProtEnt where
  id : Nat
  ctx : Nat
  cls : Nat
  first : Nat
  pages : Nat
  deriving DecidableEq, Repr

/-- State field of TF_SURV_STATUS (R458). -/
inductive SurvState where
  | off | baselining | guarded | lapsed | restoring | awaitingRestore
  deriving DecidableEq, Repr

/-- Where the open seal stands (R440-R442): none open, its close under way, its pages streaming, acknowledged. -/
inductive SealStage where
  | none | closing | streaming | complete
  deriving DecidableEq, Repr

/-- Where a close stands (R432, R440): waiting for the open step's UPDATEs, journal and mirror stores; waiting for the write-back
of a seal close; waiting for the acknowledgement of its seal marker. -/
inductive ClosePhase where
  | step | writeback | marker
  deriving DecidableEq, Repr

/-- A close that a vote outcome has started: its instance, whether the vote passed, whether a seal begins (R432, R439, R440). -/
structure Close where
  inst : Nat
  pass : Bool
  begins : Bool
  phase : ClosePhase
  deriving DecidableEq, Repr

/-- A schedule record (R444). -/
structure Sched where
  generation : Nat
  step : Nat
  attempt : Nat
  key : W64
  fences : List (Nat × W64 × Nat)
  queues : List (Nat × Nat × Nat × Nat)
  deriving DecidableEq, Repr

/-- A seal held locally: generation, schedule, versions of pages by page address, whether versions are intact (R441-R445); the operating
hours at its close, its page digest list, and its seal record, nothing before the partner has written it (R443). -/
structure Seal where
  generation : Nat
  baseline : Bool
  sched : Sched
  versions : Tab (Nat × List Byte)   -- by page address: version number, contents
  intact : Bool
  swap : Bool                        -- began while a swap was requested
  hours : Nat
  digests : List (List Byte)
  record : List Byte
  deriving DecidableEq, Repr

/-- Protection of one job (R426-R445), by job-table entry. -/
structure Prot where
  job : Nat
  entries : List ProtEnt
  state : SurvState
  journal : List Nat            -- lines marked
  mirrors : List (Nat × Bool)   -- stores unacknowledged; written again since the send
  stepOpen : Bool
  markerSent : Bool             -- a step marker waits for its acknowledgement (R433)
  settled : Option Seal
  openSeal : Option Seal
  stage : SealStage
  closing : Option Close
  lastGen : Nat
  frozen : List Nat             -- page addresses frozen and not yet touched
  sealReq : Bool                -- a baseline has drained and its seal has not begun (R438)
  sealVoid : Bool
  cowWaits : List Nat           -- pages whose first touch waits for a version page (R445)
  reserved : Nat                -- pool pages reserved on this device (R437)
  fromPartner : Bool            -- source of the restore in progress
  fetched : List Byte           -- seal record of the restore in progress (R452)
  lastCode : Nat
  share : Nat                   -- mirror_share as the job's last step close took it (R459)
  twinBase : Nat                -- first page of the partner's pool that holds the job's live image (log 30)
  twinHas : Bool                -- the partner holds the settled seal too
  needsRestore : Bool           -- the pair ended since the last restore: no seal settles (R448)
  stopped : Bool                -- a restore stopped: the next one writes every page of the seal (R453)
  deriving DecidableEq, Repr

/-- A seal held for a peer (R441-R443): its generation, the contents of the region's pages that have changed since its freeze by their
place in the table, its page digest list, schedule record and seal record, nothing before the seal has been written. -/
structure TwinSeal where
  generation : Nat
  versions : Tab (List Byte)
  digests : List (List Byte)
  sched : List Byte
  record : List Byte
  deriving DecidableEq, Repr

/-- A twin region held for a peer (R432, R437, R441, R449): its slot, the job and its table entry there, whether it is promoted, the first
byte of the region, pool pages reserved, the step at which its live image was last
consistent, the pages frozen and not touched since, by their place in the table, and its seals. -/
structure Twin where
  slot : Nat
  job : Nat
  entry : Nat
  promoted : Bool
  base : Nat
  keys : List Byte              -- the layout keys of the table's entries (R443)
  reserved : Nat
  step : Option Nat
  frozen : List Nat
  settled : Option TwinSeal
  openSeal : Option TwinSeal
  deriving DecidableEq, Repr

/-- A write to a protected page that a seal close holds (R440): through the slices of a partition under a policy, or straight to HBM. -/
structure HeldWrite where
  slices : Option (Nat × Nat)
  addr : Nat
  bytes : List Byte
  deriving DecidableEq, Repr

/-- Pairing state (R458). -/
inductive PairState where
  | unpaired | pairing | paired | partnerLost
  deriving DecidableEq, Repr

/-- Survival state of the device. -/
structure Surv where
  pair : PairState
  weak : Bool
  partner : Nat
  partnerFeed : Nat
  requests : Tab PairReq         -- pair requests in the mailbox, by the slot that stored them (R422)
  swapReady : Bool
  swapPending : Bool
  lastCode : Nat
  poolFree : Nat
  nextVersion : Nat
  prots : Tab Prot
  twins : List Twin
  spare : Option (Nat × Nat × Nat)   -- retiring core, spare, stage: 0 tiles ending, 1 pre-empted (R455)
  spareDue : List Nat           -- cores whose replacement waits for the one in progress
  riskLevel : Nat
  riskInputs : List Nat
  riskBelow : Nat               -- consecutive minutes below the level
  minuteEvents : List Nat       -- event codes seen in this minute
  heldWrites : List HeldWrite   -- writes that a seal close holds (R440)
  mails : Nat                   -- messages sent to the partner's mailbox (log 30)
  deriving DecidableEq, Repr

/-! ### Power, security, recorder, SMBus (15-19) -/

/-- State of the slow loop (R467). -/
inductive GovState where
  | normal | peak | cool
  deriving DecidableEq, Repr

/-- A compute die's power state (R469, R470, R474-R477). -/
structure Die where
  cap : Nat
  budget : Nat
  power : Nat
  temp : Nat
  stackA : Nat
  stackB : Nat
  thermal : Nat              -- 5 % steps in effect
  gated : Bool
  waking : Bool
  rampWait : List Nat        -- cores waiting for a ramp, in arrival order
  pllLost : Bool             -- the arithmetic PLL is out of lock (R474)
  ctlLost : Bool             -- the control PLL is out of lock
  relocksArith : Nat
  relocksCtl : Nat
  spread : Nat               -- spread in effect (R485)
  idles : Tab Nat            -- by core: cg_idle + 256 * pg_idle_log2 taken at its last entry into idle (R487)
  coreReqs : List Nat        -- cores whose wake ports hold a request while the die wakes (R477)
  deriving DecidableEq, Repr

/-- The governor and clocks. -/
structure Power where
  gov : GovState
  overN : Nat
  cool : Nat
  excess : Nat
  bCool : Nat
  budget : Nat
  currentLimited : Bool
  dies : Tab Die
  oscBackup : Bool
  minuteLowMv : Nat          -- lowest interval mean of this operating minute, 0 before the first
  energy : Nat               -- units of 0.1 mJ
  capped : Nat               -- intervals of 100 us with a cap below 64
  deriving DecidableEq, Repr

/-- Life-cycle states (R504). -/
inductive LcState where
  | blank | provisioned | deployed | service | retired
  deriving DecidableEq, Repr

/-- State of a firmware slot in the boot directory (R496). -/
inductive SlotState where
  | empty | committed | trial | invalid
  deriving DecidableEq, Repr

/-- A directory entry (R496). `delivered` says that the slot still holds the image of manufacture, whose bytes the spec does not
give (log 3); any other image is read from the flash bytes. -/
structure FwSlot where
  state : SlotState
  seq : Nat
  version : Nat
  secVer : Nat
  delivered : Bool
  deriving DecidableEq, Repr

/-- A firmware unit: slots A and B, the running slot (none when it has no bootable image), its fused thermometer (R495). -/
structure FwUnit where
  a : FwSlot
  b : FwSlot
  running : Option Bool      -- false A, true B
  fuses : BitVec 32
  deriving DecidableEq, Repr

/-- min_sec_ver: the count of the bits that are set in a unit's thermometer (R495). -/
def FwUnit.minSecVer (w : FwUnit) : Nat := ((List.range 32).filter fun i => w.fuses.getLsbD i).length

/-- A copy of the boot directory (R496): its contents, the SHA-384 that ends it, its write count. -/
structure DirCopy where
  contents : List Byte
  digest : List Byte
  count : Nat
  deriving DecidableEq, Repr

/-- State of a hub die (R513, R514, R517). -/
inductive HubState where
  | active | standby | resetting | retired
  deriving DecidableEq, Repr

/-- State of a hot update (R510, R517). -/
inductive UpdStage where
  | idle | checking | writing | activating | trial
  deriving DecidableEq, Repr

/-- The update in progress: stage, unit, target slot, image, whether it is a rollback's activation. -/
structure UpdState where
  stage : UpdStage
  unit : Nat
  slotB : Bool
  image : List Byte
  rollback : Bool
  noProgram : Bool           -- flash source already in the slot (R500)
  lastCode : Nat
  due : Bool                 -- an activation that waits for the report being built (R516)
  deriving DecidableEq, Repr

/-- An attestation mailbox (R502, R517). -/
structure Mailbox where
  nonce : List Byte
  busy : Bool
  done : Bool
  lastCode : Nat
  report : List Byte
  deriving DecidableEq, Repr

/-- The security block. -/
structure Sec where
  lc : LcState
  lcCount : Nat
  mgmtPort : Nat
  provRecord : List Byte
  pubKey : List Byte
  privKey : Nat                -- the identity key as the security block has unwrapped it; 0 for none (R498, R501)
  wrappedKey : List Byte       -- the identity key as the identity region holds it: nonce, ciphertext, tag (R501)
  deviceId : List Byte
  serial : List Byte
  certs : List Byte
  vendorHashes : List (List Byte)
  revoked : List Nat
  units : List FwUnit
  hubs : List HubState
  hubActive : Nat
  hubStandby : Option Nat
  hubFails : Tab Nat           -- failovers this minute
  hubCode : Nat
  changePending : Option (LcState × LcState)
  changeStage : Nat            -- 0 none, 1 before the fuse, 2 after
  lastCode : Nat
  flashBad : Bool
  bootDone : Bool
  upd : UpdState
  token : Tab Byte
  prov : Tab Byte
  flashData : Tab Byte
  flash : Tab Byte             -- bytes that differ from erased flash
  dir : Tab DirCopy            -- the two copies of the boot directory, once written (R493, R496)
  flashOp : Option (Bool × Nat × List Byte)  -- erase, offset, data of a program
  flashCode : Nat
  mailboxes : Tab Mailbox
  attQueue : List Nat
  keys : Nat                   -- key pairs generated
  deriving DecidableEq, Repr

/-- A raised event (R523): code and payload bytes, and the operating minutes, power cycles and dusk ticks at the event (R520). -/
structure RawEvent where
  code : Nat
  payload : List Byte
  minutes : Nat
  cycles : Nat
  ticks : Nat
  deriving DecidableEq, Repr

/-- A record (R520) with its place in the ring. -/
structure Record where
  seq : Nat
  code : Nat
  bytes : List Byte
  offset : Nat
  flushed : Bool
  deriving DecidableEq, Repr

/-- A token bucket (R524): capacity and refill in effect, staged values, tokens, pending suppressed count. -/
structure Bucket where
  capacity : Nat
  refill : Nat
  newCapacity : Nat
  newRefill : Nat
  tokens : Nat
  pending : Nat
  saturated : Bool
  deriving DecidableEq, Repr

/-- A read window of the recorder (R528). -/
structure Window where
  seq : W64
  busy : Bool
  found : Bool
  fromFlash : Bool
  skipped : Bool
  record : List Byte
  deriving DecidableEq, Repr

/-- The event recorder. `flash` and `marks` stand at their places in the log of blocks: block number * 65,536 + offset; `block`
is the number of the newest block, `blockAt` the first free byte in it (0 before the first block is begun). -/
structure Recorder where
  intake : List RawEvent
  ring : List Record
  ringAt : Nat
  flash : List Record
  marks : List (Nat × Nat)
  block : Nat
  blockAt : Nat
  seqNext : Nat
  buckets : Tab Bucket
  flushing : Bool
  flushFails : Nat
  flashFail : Bool
  cleanPrev : Bool
  cleanNow : Bool
  windows : Tab Window
  opMinutes : Nat
  powerCycles : Nat
  deriving DecidableEq, Repr

/-- The SMBus interface (R553). -/
structure Smb where
  offset : W32
  refused : Bool
  unpowered : Bool
  readData : W64            -- data of the last read command
  tapData : W32             -- last instruction's test data register (R555)
  extest : Bool             -- the boundary register drives the header pins (R16, R555)
  deriving DecidableEq, Repr

/-! ### The state -/

/-- The state of the device, and the model's own two fields: the counter of free values and the queue of commands. -/
structure State where
  ident : Ident
  pins : Pins
  regs : Tab W64               -- control space offset to value; an unlisted one holds its reset value
  staged : Tab W64             -- staged values not yet in effect (R13)
  once : List Nat              -- write-once registers already written (R12)
  mem : List Host.Cell         -- device-local address (R387); an unlisted byte reads 0
  cache : Cache
  hbm : Hbm
  cores : Tab Core
  te : Tab TeUnitSt            -- by core * 128 + unit code
  ge : Tab Ge
  seqs : Tab Seq               -- by die * 16 + sequencer
  objs : Objects
  loader : Loader
  host : HostSide
  fab : Fabric
  uu : Units
  surv : Surv
  pwr : Power
  sec : Sec
  recd : Recorder
  smb : Smb
  ticks : Nat                  -- DK_TICKS
  free : Nat
  pending : List Instr
  deriving DecidableEq, Repr

/-- Why the machine stops with a fault. The spec gives every command of the table an effect, so no meaning raises one; the
constructor is kept for the interface. Safe. -/
inductive Fault where
  /-- Raised by no meaning. Safe. -/
  | none
  deriving DecidableEq, Repr

/-- Why the machine refuses a command. -/
inductive Refusal where
  /-- A command without a meaning, by mnemonic. Raised by an arm of `exec` that is not yet modelled; there is none. Safe. -/
  | notModelled (mnemonic : String)
  /-- TAP_INSTRUCTION with an instruction whose effect the spec does not give, in a state that opens all test access
  (R504, R555; log 9). Raised by `execTapInstruction`. Safe. -/
  | tapInstructionOpen
  deriving DecidableEq, Repr

/-- The outcome of a meaning. -/
abbrev Res := Host.Outcome State Fault Refusal

/-! ### Reset -/

/-- A slot of the boot directory that has never been written (R496). -/
def FwSlot.empty : FwSlot := ⟨.empty, 0, 0, 0, false⟩

/-- A unit as delivered: slot A committed and running, version 1 (the loader's first shipped version, R203); log 3. -/
def FwUnit.delivered : FwUnit := ⟨⟨.committed, 1, 1, 0, true⟩, FwSlot.empty, some false, 0⟩

/-- A die after reset: cap 64, awake (R486). -/
def Die.reset : Die := ⟨64, 0, 0, 0, 0, 0, 0, false, false, [], false, false, 0, 0, 0, [], []⟩

/-- The state right after reset: RESET_N has been released with the rails up, the reset wipe of R311 has been made, and
the boot of R498 runs. Registers hold their reset values (none listed). What the spec leaves to provisioning, straps and
manufacture stands at the choices of log entries 3, 4 and 5. -/
def State.reset : State where
  ident := ⟨.full, 1, []⟩
  pins := ⟨true, true, true, true, true, false, true, true, true, false, false, false, false, 0, 0, 0, 0, 0, 0⟩
  regs := []
  staged := []
  once := []
  mem := []
  cache := ⟨[], [], [], [], [], [], 0⟩
  hbm := ⟨[], [], [], [], [], [], [], [], []⟩
  cores := []
  te := []
  ge := []
  seqs := []
  objs := ⟨[], [], [], [], [], [], [], [], [], 1, 1, 0⟩
  loader := ⟨none, [], [], 1⟩
  host := ⟨[], [], [], 0⟩
  fab := ⟨[], none, [], none, [], [], [], [], [], [], [], [], [], false, [], 0, 0, 0, 0⟩
  uu := ⟨[], [], 0⟩
  surv := ⟨.unpaired, false, 0, 0, [], false, false, 0, 0, 0, [], [], none, [], 0, [], 0, [], [], 0⟩
  pwr := ⟨.normal, 0, 0, 0, 0, 0, false, [], false, 0, 0, 0⟩
  sec := ⟨.deployed, 0, 0, [], [], 0, [], [], [], [], (List.range 4).map Config.vendorHash, [], List.replicate 6 FwUnit.delivered,
    [.active, .standby, .standby, .standby], 0, some 1, [], 0, none, 0, 0, false, false,
    ⟨.idle, 0, false, [], false, false, 0, false⟩, [], [], [], [], [], none, 0, [], [], 0⟩
  recd := ⟨[], [], 0, [], [], 0, 0, 0, [], false, 0, false, false, false, [], 0, 1⟩
  smb := ⟨0, false, false, 0, 0, false⟩
  ticks := 0
  free := 0
  pending := []

end Sys2Proof.Machine
end

