-- ==== Sys2Proof/Machine/Ops.lean ====
section
/-! DEFINITION. The operations every family shares: sparse tables, bit fields, the register file and its counters, raised
events, free values, byte lists and the canonical memory list. -/

namespace Sys2Proof.Machine

open Sys2Proof

/-! ### Tables -/

/-- The entry of a table at a key. -/
def look {α : Type} : Tab α → Nat → Option α
  | [], _ => none
  | (a, v) :: t, k => if a = k then some v else look t k

/-- A table with one entry set, keys rising. -/
def put {α : Type} : Tab α → Nat → α → Tab α
  | [], k, v => [(k, v)]
  | (a, w) :: t, k, v => if k < a then (k, v) :: (a, w) :: t else if a = k then (k, v) :: t else (a, w) :: put t k v

/-- A table without the entry at a key. -/
def del {α : Type} (t : Tab α) (k : Nat) : Tab α := t.filter fun e => e.1 != k

/-- A table with the entry at a key changed, where there is one. -/
def upd {α : Type} (t : Tab α) (k : Nat) (f : α → α) : Tab α :=
  t.map fun e => if e.1 = k then (e.1, f e.2) else e

/-- The entry at a key, or a default. -/
def lookD {α : Type} (t : Tab α) (k : Nat) (d : α) : α := (look t k).getD d

/-- A list with one member added at the end, where it is absent. -/
def addNew {α : Type} [DecidableEq α] (l : List α) (x : α) : List α := if x ∈ l then l else l ++ [x]

/-- A list of numbers without one. -/
def drop1 {α : Type} [DecidableEq α] (l : List α) (x : α) : List α := l.filter fun y => y ≠ x

/-- The lowest number below a bound that a predicate does not hold of. -/
def firstFree (used : Nat → Bool) (bound : Nat) : Option Nat := (List.range bound).find? fun k => !used k

/-- The list with place `k` replaced. -/
def setAt {α : Type} (l : List α) (k : Nat) (v : α) : List α := l.set k v

/-- The fields of a job's context that stand where no job does. -/
def noJob : Job := ⟨0, 0, 0, 0, 0, [], false, none, false, []⟩

/-! ### Fields -/

/-- The field of `w` bits at bit `lo` of a number (R9). -/
def fld (v lo w : Nat) : Nat := v / 2 ^ lo % 2 ^ w

/-- One bit of a number. -/
def bit (v k : Nat) : Bool := v / 2 ^ k % 2 == 1

/-- 1 or 0. -/
def b2n (b : Bool) : Nat := if b then 1 else 0

/-- A number of `w` bits as two's complement. -/
def signed (v w : Nat) : Int := if v < 2 ^ (w - 1) then v else (v : Int) - 2 ^ w

/-- The `w` bits of an integer's two's complement. -/
def unsigned (v : Int) (w : Nat) : Nat := (v % (2 ^ w : Int)).toNat

/-- The field of `w` bits at `lo` replaced. -/
def setFld (v lo w x : Nat) : Nat := v - fld v lo w * 2 ^ lo + x % 2 ^ w * 2 ^ lo

/-- Clamp to a range. -/
def clamp (lo hi v : Nat) : Nat := max lo (min hi v)

/-- `n` bytes from place `o` of a list; a byte past its end reads 0. -/
def sliceBytes (bs : List Byte) (o n : Nat) : List Byte := ((bs.drop o).take n) ++ List.replicate (n - ((bs.drop o).take n).length) 0

/-- The little-endian number of `n` bytes at place `o`. -/
def leAt (bs : List Byte) (o n : Nat) : Nat := leNat (sliceBytes bs o n)

/-! ### Control space offsets (R329) -/

/-- Base of a compute die's 16 MiB. -/
def offDie (d : Nat) : Nat := 0x100_0000 + d * 0x100_0000

/-- Register `r` of a port's BL_ window (R344). -/
def offBl (p r : Nat) : Nat := p * 0x4000 + r
/-- BL_CQ_CTL, HEAD, TAIL of completion queue `c` at 0, 8, 0x10 (R344). -/
def offCq (p c r : Nat) : Nat := p * 0x4000 + 0x2000 + c * 0x20 + r
/-- TF_ block (R414). -/
def offTf (r : Nat) : Nat := 0x1_0000 + r
/-- TF_ window of a tray peer. -/
def offPeer (k r : Nat) : Nat := 0x1_0000 + 0x100 + k * 0x80 + r
/-- TF_ job window. -/
def offTfJob (e r : Nat) : Nat := 0x1_0000 + 0x2000 + e * 0x40 + r
/-- Survival job window (R458). -/
def offSurv (e r : Nat) : Nat := 0x1_0000 + 0x9000 + e * 0x40 + r
/-- SF_ block (R416). -/
def offSf (r : Nat) : Nat := 0x2_0000 + r
/-- SF_ port window. -/
def offSfPort (p r : Nat) : Nat := 0x2_0000 + 0x100 + p * 0x80 + r
/-- SF_ROUTE of a destination tray. -/
def offRoute (t : Nat) : Nat := 0x2_0000 + 0x1000 + t * 8
/-- SF_ job window. -/
def offSfJob (e r : Nat) : Nat := 0x2_0000 + 0x8000 + e * 0x80 + r
/-- DK_ block. -/
def offDk (r : Nat) : Nat := 0x3_0000 + r
/-- PG_ block, device level. -/
def offPg (r : Nat) : Nat := 0x4_0000 + r
/-- SC_ block. -/
def offSc (r : Nat) : Nat := 0x5_0000 + r
/-- LR_ block. -/
def offLr (r : Nat) : Nat := 0x6_0000 + r
/-- EV_ block. -/
def offEv (r : Nat) : Nat := 0x7_0000 + r
/-- UU_ window of a unit (R268). -/
def offUu (u r : Nat) : Nat := 0x8_0000 + u * 0x80 + r
/-- UU_ window of a job-table entry (R268). -/
def offUuJob (e r : Nat) : Nat := 0x8_0000 + 0x2000 + e * 0x40 + r
/-- MC_ window of a partition (R314). -/
def offMcPart (p r : Nat) : Nat := 0x9_0000 + p * 0x80 + r
/-- MC_ window of a slice (R314). -/
def offMcSlice (k r : Nat) : Nat := 0x9_0000 + 0x4000 + k * 0x40 + r
/-- HC_ window of a controller (R316). -/
def offHc (u r : Nat) : Nat := 0xA_0000 + u * 0x100 + r
/-- ZS_ window of a sequencer, by die * 16 + sequencer (R161). -/
def offSeq (sq r : Nat) : Nat := offDie (sq / 16) + sq % 16 * 0x40 + r
/-- ZS_ window of a core, by global core id. -/
def offZs (c r : Nat) : Nat := offDie (c / 68) + 0x1000 + c % 68 * 0x100 + r
/-- GE_ window of a core (R232). -/
def offGe (c r : Nat) : Nat := offDie (c / 68) + 0x1_0000 + c % 68 * 0x100 + r
/-- CM_ window of a core (R312). -/
def offCm (c r : Nat) : Nat := offDie (c / 68) + 0x2_0000 + c % 68 * 0x40 + r
/-- ME_ window of a core (R313). -/
def offMe (c r : Nat) : Nat := offDie (c / 68) + 0x3_0000 + c % 68 * 0x100 + r
/-- PG_ block of a die (R486). -/
def offPgDie (d r : Nat) : Nat := offDie d + 0x4_0000 + r
/-- TE_ block of a core (R329). -/
def offTe (c r : Nat) : Nat := offDie (c / 68) + 0x10_0000 + c % 68 * 0x1_0000 + r

/-! ### The register file -/

/-- The stored part of a register after reset, where it is not 0: the reset column of the register tables. -/
def regReset (g : Grade) (off : Nat) : W64 :=
  if off < 0x1_0000 then
    (if off % 0x4000 = 0 then 0b01 + 25 * 4 + 22 * 128 else 0)                      -- BL_PORT_CTL
  else if off < 0x2_0000 then
    (if off = offTf 0 then 1 else if off = offTf 0x8028 then 1 else 0)                -- TF_CTL, TF_MIRROR_CTL
  else if off < 0x3_0000 then 0
  else if off < 0x4_0000 then
    (if off = offDk 0x800 then 10 * 8                                                 -- DK_RISK_CTL
     else if off = offDk 0x810 then 1024 + 256 * 2 ^ 16 + 32 * 2 ^ 32 + 2 * 2 ^ 48    -- DK_RISK_INTERVAL
     else if off = offDk 0x820 then 100                                               -- DK_SPARE_CTL
     else if off = offDk 0x108 then 3 else 0)                                         -- DK_SB_CTL
  else if off < 0x5_0000 then
    (if off = offPg 0 then (if g = .full then 92 else 82) + 128 else 0)               -- PG_CTL
  else if off < 0x6_0000 then 0
  else if off < 0x7_0000 then (if off = offLr 0 then 20 else 0)                       -- LR_CTL
  else if off < 0x9_0000 then 0
  else if off < 0xA_0000 then
    (if off < 0x9_4000 ∧ off % 0x80 = 0 then 1 else 0)                                -- MC_PART_CTL
  else if off < 0xB_0000 then
    (if off % 0x100 = 0 ∧ off < 0xA_2000 then 24 + 4 * 256 + 4096 else 0)             -- HC_CTL
  else if off < 0x100_0000 then 0
  else
    let o := off % 0x100_0000
    if o < 0x1_0000 then (if o < 0x400 ∧ o % 0x40 = 0 then 22 else 0)                 -- ZS_SEQ_CTL
    else if o < 0x2_0000 then (if o % 0x100 = 0 then 20 else 0)                       -- GE_CTL
    else if o = 0x4_0000 then 16 + 10 * 256 + 8192 + 100 * 2 ^ 14                     -- PG_DIE_CTL
    else if o < 0x10_0000 then 0
    else if o % 0x1_0000 = 0x400 then 0xF8                                            -- TE_SCALE_CTL
    else if o % 0x1_0000 = 0x500 then 16                                              -- TE_ACC_CTL
    else 0

/-- The stored value in effect of the register at an offset. -/
def State.reg (s : State) (off : Nat) : Nat := ((look s.regs off).getD (regReset s.ident.grade off)).toNat

/-- The register at an offset set to a value in effect. -/
def State.setReg (s : State) (off v : Nat) : State := { s with regs := put s.regs off (BitVec.ofNat 64 v) }

/-- A counter raised by `n`; counters wrap modulo 2^64. -/
def State.bump (s : State) (off n : Nat) : State := s.setReg off (s.reg off + n)

/-- A bit of a register set. -/
def State.setBit (s : State) (off k : Nat) : State := s.setReg off (setFld (s.reg off) k 1 1)

/-- A field of a register set. -/
def State.setField (s : State) (off lo w v : Nat) : State := s.setReg off (setFld (s.reg off) lo w v)

/-- A staged field takes effect at its quiescent boundary (R13): the `w` bits at `lo` of the value most recently written. -/
def State.adopt (s : State) (off lo w : Nat) : State :=
  match look s.staged off with
  | none => s
  | some v => s.setField off lo w (fld v.toNat lo w)

/-- A staged register as last written. -/
def State.written (s : State) (off : Nat) : Nat := match look s.staged off with | some v => v.toNat | none => s.reg off

/-! ### Free values, events, identity -/

/-- A free value drawn, and the counter advanced (log 1). -/
def State.draw (s : State) : BitVec 64 × State := (Config.freeValue s.free, { s with free := s.free + 1 })

/-- `n` bytes the spec does not state: free values, one for each byte. -/
def State.drawBytes (n : Nat) (s : State) : List Byte × State :=
  ((List.range n).map fun i => BitVec.ofNat 8 (Config.freeValue (s.free + i)).toNat, { s with free := s.free + n })

/-- An event as raised now, with its time (R520). -/
def State.eventNow (s : State) (code : Nat) (payload : List Byte) : RawEvent :=
  ⟨code, payload, s.recd.opMinutes, s.recd.powerCycles, s.ticks⟩

/-- A source raises an event: it stands at the recorder's intake, in arrival order with its time (R520, R523), and is one of the operating minute's
events (R446). -/
def State.raise (s : State) (code : Nat) (payload : List Byte) : State :=
  { s with recd := { s.recd with intake := s.recd.intake ++ [s.eventNow code payload] },
           surv := { s.surv with minuteEvents := addNew s.surv.minuteEvents code } }

/-- This device's node id: TRAY_ID × 8 + SLOT_ID of the sampled straps (R551). -/
def State.node (s : State) : Nat := s.pins.strapTray * 8 + s.pins.strapSlot

/-- The device is powered and out of reset (R481, R557). -/
def State.alive (s : State) : Bool := s.pins.pg && s.pins.resetN

/-! ### Cores -/

/-- A core that holds nothing: the state of every core after reset. -/
def Core.idle : Core :=
  { teQ := [], geQ := [], meQ := [], tePos := 0, gePos := 0, mePos := 0, chans := [], inflight := [], work := [],
    nextWork := 0, xfers := [], member := none, lsEighths := 0, lsHeld := none,
    passMax := [], runs := [], settled := [], ended := [], lastVote := [], clk := .running,
    waking := false, held := [], cap := 64, noNewTile := false, rampPhase := 0, saved := [], mxCounts := none, faulty := false }

/-- The state of a core. -/
def State.core (s : State) (c : Nat) : Core := lookD s.cores c Core.idle

/-- A core set. -/
def State.setCore (s : State) (c : Nat) (k : Core) : State := { s with cores := put s.cores c k }

/-- A core changed. -/
def State.modCore (s : State) (c : Nat) (f : Core → Core) : State := s.setCore c (f (s.core c))

/-- The enabled and spare positions of a die at manufacture: by grade, 64 or 56 enabled, then 4 spares, then fused off
(R1, R2; which positions, log 4). -/
def coreKindMade (g : Grade) (c : Nat) : CoreKind :=
  let n := if g = .full then 64 else 56
  if c % 68 < n then .enabled else if c % 68 < n + 4 then .spare else .fusedOff

/-- The kind of a core position now (R375). -/
def State.kind (s : State) (c : Nat) : CoreKind := lookD s.ident.kinds c (coreKindMade s.ident.grade c)

/-- A compute die. -/
def State.die (s : State) (d : Nat) : Die := lookD s.pwr.dies d Die.reset

/-- A compute die changed. -/
def State.modDie (s : State) (d : Nat) (f : Die → Die) : State :=
  { s with pwr := { s.pwr with dies := put s.pwr.dies d (f (s.die d)) } }

/-! ### Compute dies as they gate and relock (R474, R477) -/

/-- Compute dies of the device (R1). -/
def dieCount : Nat := 16

/-- The cores of a die, by global core id (R8). -/
def coresOf (d : Nat) : List Nat := (List.range 68).map fun i => d * 68 + i

/-- The enabled cores of a die. -/
def State.enabledOn (s : State) (d : Nat) : List Nat := (coresOf d).filter fun c => s.kind c == .enabled

/-- Whether a PLL of a die is out of lock (R474). -/
def Die.unlocked (k : Die) : Bool := k.pllLost || k.ctlLost

/-- Whether the slices, controllers and update units of a die serve: it is awake and its PLLs are in lock (R474, R477). -/
def State.dieServes (s : State) (d : Nat) : Bool := !((s.die d).gated || (s.die d).unlocked)

/-- A gated die starts to wake (R477). -/
def State.wakeDie (s : State) (d : Nat) : State :=
  if (s.die d).gated && !(s.die d).waking then (s.bump (offPgDie d 0x38) 1).modDie d fun k => { k with waking := true } else s

/-- An idle period of a die starts where every enabled core of it is power-gated (R477, R487). -/
def State.startDieIdle (s : State) (d : Nat) : State :=
  if (look s.staged (offPgDie d 0)).isSome && (s.enabledOn d).all fun c => (s.core c).clk == .powerGated then
    s.adopt (offPgDie d 0) 13 11
  else s

/-- A request reaches a slice or controller of a die: a gated one wakes, the idle period of one whose cores are all gated starts anew
(R477, R487). -/
def State.reachDie (s : State) (d : Nat) : State := if (s.die d).gated then s.wakeDie d else s.startDieIdle d

/-! ### The memory list -/

/-- The byte of a list of cells at an address; an unlisted byte reads 0 (R311). -/
def cellGet : List Host.Cell → Nat → Byte
  | [], _ => 0
  | (a, b) :: m, k => if a = k then b else if k < a then 0 else cellGet m k

/-- A byte written: addresses rise, and no listed byte is 0. -/
def cellPut : List Host.Cell → Nat → Byte → List Host.Cell
  | [], k, v => if v = 0 then [] else [(k, v)]
  | (a, b) :: m, k, v =>
    if k < a then (if v = 0 then (a, b) :: m else (k, v) :: (a, b) :: m)
    else if a = k then (if v = 0 then m else (k, v) :: m)
    else (a, b) :: cellPut m k v

/-- Consecutive bytes written from an address. -/
def cellPuts (m : List Host.Cell) (a : Nat) : List Byte → List Host.Cell
  | [] => m
  | b :: bs => cellPuts (cellPut m a b) (a + 1) bs

/-- `n` bytes read from an address. -/
def cellGets (m : List Host.Cell) (a n : Nat) : List Byte := (List.range n).map fun i => cellGet m (a + i)

/-- The canonical form: addresses strictly rising, no listed byte 0. -/
def Memory.wf : List Host.Cell → Bool
  | [] => true
  | (_, b) :: [] => b != 0
  | (a, b) :: (a', b') :: m => b != 0 && a < a' && Memory.wf ((a', b') :: m)

/-- All bytes of a range cleared. -/
def cellWipe (m : List Host.Cell) (a n : Nat) : List Host.Cell := m.filter fun c => c.1 < a || a + n ≤ c.1

/-- A byte written in host memory, which has no reset contents: every byte written is listed. -/
def hostCellPut : List Host.Cell → Nat → Byte → List Host.Cell
  | [], k, v => [(k, v)]
  | (a, b) :: m, k, v => if k < a then (k, v) :: (a, b) :: m else if a = k then (k, v) :: m else (a, b) :: hostCellPut m k v

/-- Consecutive bytes written in host memory. -/
def hostCellPuts (m : List Host.Cell) (a : Nat) : List Byte → List Host.Cell
  | [] => m
  | b :: bs => hostCellPuts (hostCellPut m a b) (a + 1) bs

end Sys2Proof.Machine
end

