-- ==== Sys2Proof/Machine/Wire.lean ====
section
/-! DEFINITION. The ends of the links at this device: flits and their replay buffer (R323, R324, R381-R383), the links that requests and
responses take (R403, R404, R406, R408), their virtual channels (R405), and the arbitration of requests (R400, R401, R434). -/

namespace Sys2Proof.Machine

open Sys2Proof

/-! ### Flits (R323, R324, R381-R383) -/

/-- The number of a link in the table of link ends. -/
def linkKey : Link → Nat
  | .burob p => p
  | .tray k => 8 + k
  | .scaleOut p => 16 + p

/-- The registers of a link's counters: flits received, sent, corrected, resent (R344, R414, R416). -/
def linkRegs : Link → Nat × Nat × Nat × Nat
  | .burob p => (offBl p 0x40, offBl p 0x48, offBl p 0x50, offBl p 0x58)
  | .tray k => (offPeer k 0x08, offPeer k 0x10, offPeer k 0x18, offPeer k 0x20)
  | .scaleOut p => (offSfPort p 0x08, offSfPort p 0x10, offSfPort p 0x18, offSfPort p 0x20)

/-- The end of a link as training leaves it: alignment and replay buffers reset, no credits announced (log 66). -/
def Wire.rest : Wire := ⟨0, 0, 0, 0, 0, [], 0, [], false, [], []⟩

/-- The end of a link whose lanes begin their windows under a threshold code (R345, R415). -/
def Wire.fresh (code : Nat) : Wire := { Wire.rest with thresh := [(0, code), (1, code)] }

/-- Flits that have left: the replay buffer holds at most 1,024 that the far end has not acknowledged (R324, R383). -/
def Wire.sent (k : Wire) : Nat := min k.formed (k.acked + 1024)

/-- Whether the replay buffer takes another flit. -/
def Wire.room (k : Wire) : Bool := decide (k.formed < k.acked + 1024)

/-- Whether the replay buffer takes a number of flits. -/
def Wire.fits (k : Wire) (n : Nat) : Bool := decide (k.formed + n ≤ k.acked + 1024)

/-- Whether the replay buffer is empty. -/
def Wire.empty (k : Wire) : Bool := k.formed == k.acked

/-- Whether the receive credits last announced leave one for a channel; before any are announced nothing is held back (log 66). -/
def Wire.credit (k : Wire) (ch : Nat) : Bool := match k.credits[ch]? with | some n => decide (0 < n) | none => true

/-- One credit of a channel used. -/
def Wire.use (k : Wire) (ch : Nat) : Wire := { k with credits := k.credits.modify ch (· - 1) }

/-- The end of a link. -/
def State.wire (s : State) (l : Link) : Wire := lookD s.fab.wires (linkKey l) Wire.rest

/-- The end of a link set. -/
def State.setWire (s : State) (l : Link) (k : Wire) : State := { s with fab := { s.fab with wires := put s.fab.wires (linkKey l) k } }

/-- The flits that some bytes of packet data take: a packet begins with a flit of its own (R323, R381, R382). -/
def flitsOf (data n : Nat) : Nat := (max 1 n + data - 1) / data

/-- The end of a link set, with the flits counted that leave by it. -/
def State.advance (s : State) (l : Link) (k : Wire) : State := (s.setWire l k).bump (linkRegs l).2.1 (k.sent - (s.wire l).sent)

/-- Flits formed for the far end: they leave as the replay buffer has room. -/
def State.formFlits (s : State) (l : Link) (n : Nat) : State := s.advance l { s.wire l with formed := (s.wire l).formed + n }

/-- The acknowledgement and the credits of a flit's header (R323, R381); a far end that asks again is sent every flit that it lacks,
and each is counted (R324, R383, log 66). -/
def State.acknowledged (s : State) (l : Link) (f : Flit) : State :=
  let k := s.wire l
  let a := max k.acked (min f.ack k.sent)
  let tries := if f.resend then (if k.acked < a then 1 else k.txTries + 1) else if k.acked < a then 0 else k.txTries
  let t := s.advance l { k with acked := a, txTries := tries, credits := f.credits }
  if f.resend then t.bump (linkRegs l).2.2.2 (k.sent - a) else t

/-- A flit received on a link that is up: corrected and counted, or discarded where its CRC fails; every flit behind a discarded one is
discarded too, and each is resent and counted. A flit is delivered once and in order (R324, R383). -/
def State.takeFlit (s : State) (l : Link) (corrected crcOk : Bool) (f : Flit) : State :=
  let r := linkRegs l
  let k := s.wire l
  if !crcOk then (s.setWire l { k with rxTries := k.rxTries + 1 }).bump r.2.2.2 1
  else
    let s1 := s.bump r.1 1
    let s2 := if corrected then s1.bump r.2.2.1 1 else s1
    let s3 :=
      if f.seq = k.received then s2.setWire l { k with received := k.received + 1, rxTries := 0 }
      else if k.received < f.seq ∧ 0 < k.rxTries then s2.bump r.2.2.2 1
      else s2
    s3.acknowledged l f

/-- Whether one flit has been sent again more than 64 times (R325, R384). -/
def Wire.hopeless (k : Wire) : Bool := decide (64 < k.rxTries) || decide (64 < k.txTries)

/-- A Burob port; one that has not trained is down. -/
def State.port (s : State) (p : Nat) : Port :=
  lookD s.host.ports p ⟨false, false, false, 0, 0, [], none, 0, 0, false, [], false⟩

/-! ### Peers and routes -/

/-- The link state of a tray slot as TF_PEER_STATUS reports it: 0 absent, 1 up, 2 lost, 3 the own slot (R414). -/
def State.peerState (s : State) (k : Nat) : Nat := if k = s.pins.strapSlot then 3 else fld (s.reg (offPeer k 0)) 0 2

/-- Whether a node is held as lost (R407, R409). -/
def State.isLost (s : State) (n : Nat) : Bool :=
  s.fab.lostNodes.contains n || decide (n / 8 = s.pins.strapTray) && s.peerState (n % 8) == 2

/-- Whether a scale-out port carries or will carry traffic: up, or out of service for a change of width (R385, R406). -/
def State.portUp (s : State) (p : Nat) : Bool := let v := fld (s.reg (offSfPort p 0)) 0 2; v == 1 || v == 2

/-- Whether a scale-out port carries traffic, and is not about to leave service (R385). -/
def State.portServes (s : State) (p : Nat) : Bool := fld (s.reg (offSfPort p 0)) 0 2 == 2 && !(s.wire (.scaleOut p)).leaving

/-- The port a request to another tray takes: the primary, or the alternate while the primary is down or leaves or has left service
(R385, R406); none for a tray without a route or with both ports down. -/
def State.routePort (s : State) (t : Nat) : Option Nat :=
  let r := s.reg (offRoute t)
  let p := fld r 1 2
  let a := fld r 4 2
  if !bit r 0 then none
  else if s.portServes p then some p
  else if bit r 3 && s.portServes a then some a
  else if s.portUp p then some p
  else if bit r 3 && s.portUp a then some a
  else none

/-- Why a request to a node fails at once: this device is self-fenced (R412), the node is held as lost (R407), the slot is absent,
or the tray has no route (R404, R406, R408). -/
def State.unreachable (s : State) (n : Nat) : Option Nat :=
  if s.fab.selfFenced then some 0x700A
  else if s.isLost n then some 0x7004
  else if n / 8 = s.pins.strapTray then (if s.peerState (n % 8) = 1 then none else some 0x7006)
  else if n % 8 = s.pins.strapSlot then (if (s.routePort (n / 8)).isSome then none else some 0x7006)
  else if s.peerState (n % 8) = 1 then none else some 0x7006

/-- The link that a request or a response to a node takes from this device: the tray fabric to the node's slot, then its rail (R403). -/
def State.linkTo (s : State) (n : Nat) : Option Link :=
  if n / 8 = s.pins.strapTray ∨ n % 8 ≠ s.pins.strapSlot then some (.tray (n % 8)) else (s.routePort (n / 8)).map .scaleOut

/-- The virtual channel after a hop to a tray: a ring's start moves to channel 0, its dateline to channel 1 (R405). -/
def State.hopChannel (s : State) (t vc : Nat) : Nat :=
  let r := s.reg (offRoute t)
  if bit r 6 then 1 else if bit r 7 then 0 else vc

/-- The virtual channel on which a packet of this device leaves on a link to a node: 0 at first (R405). -/
def State.firstChannel (s : State) (l : Link) (n : Nat) : Nat := match l with | .scaleOut _ => s.hopChannel (n / 8) 0 | _ => 0

/-! ### Links that carry flits -/

/-- The state field of a scale-out port (R416). -/
def State.sfState (s : State) (p : Nat) : Nat := fld (s.reg (offSfPort p 0)) 0 2

/-- Whether a link carries flits. -/
def State.linkUp (s : State) : Link → Bool
  | .burob p => (s.port p).up
  | .tray k => s.fab.linkUp.contains k
  | .scaleOut p => s.sfState p == 2

/-! ### Requests that wait and leave (R400, R401, R405) -/

/-- The requests outstanding on a link: those that left on it share its limit, wherever they go (R400). -/
def State.outOn (s : State) (l : Link) : Nat := (s.fab.reqs.filter fun e => e.2.via == some l).length

/-- The requests that a device may have outstanding on a link (R400). -/
def outLimit : Link → Nat
  | .scaleOut _ => 8192
  | _ => 4096

/-- The class of device-held traffic beside the partitions' (R401, R434). -/
def heldClass : Nat := 4096

/-- The class a request is arbitrated in: its partition, or device-held traffic (R401). -/
def State.reqClass (s : State) (r : Req) : Nat :=
  if r.job = 0 then heldClass
  else match r.kind with
  | .mirror _ _ => heldClass
  | .twin _ _ => heldClass
  | .marker _ _ => heldClass
  | _ => match look s.objs.ctxs r.ctx with | some c => c.part | none => heldClass

/-- The share of a link that device-held traffic takes, in quarters: mirror_share on the link to the partner, all of it at risk level 3
(R434). Each mirrored job has the share that its last step close took (R459); of several the link takes the largest (log 46). -/
def State.heldQuarters (s : State) (l : Link) : Nat :=
  if l ≠ .tray s.surv.partner ∨ s.surv.pair ≠ .paired then 0
  else if s.surv.riskLevel = 3 then 4
  else match s.surv.prots.filter fun e => e.2.state == .baselining || e.2.state == .guarded with
    | [] => fld (s.written (offTf 0x8028)) 0 2 + 1
    | l => l.foldl (fun n e => max n (e.2.share + 1)) 1

/-- The weight of each of some classes on a link: a partition's fabric share of what device-held traffic leaves (R353, R401, R434). -/
def State.weights (s : State) (l : Link) (cs : List Nat) : List (Nat × Nat) :=
  let q := s.heldQuarters l
  let share (c : Nat) : Nat := match look s.objs.parts c with | some p => p.share | none => 0
  let sum := ((cs.filter fun c => c != heldClass).map share).sum
  cs.map fun c => (c, if c = heldClass then (if q = 4 then 1 else q * max 1 sum) else share c * (4 - q))

/-- The class that is served next among some that wait, with their weights: by turns of their weights in ascending order of class; one of
weight 0 only where no other waits (R401). -/
def Wire.pick (k : Wire) (ws : List (Nat × Nat)) : Option (Nat × Wire) :=
  let heavy := if ws.any fun w => w.2 != 0 then ws.filter fun w => w.2 != 0 else ws
  let order := (heavy.filter fun w => decide (k.last < w.1)) ++ heavy.filter fun w => decide (w.1 ≤ k.last)
  let take (c : Nat) (l : Tab Nat) : Nat × Wire := (c, { k with last := c, left := put l c (lookD l c 0 - 1) })
  match order.find? fun w => decide (0 < lookD k.left w.1 0) with
  | some w => some (take w.1 k.left)
  | none => order.head?.map fun w => take w.1 (ws.foldl (fun t e => put t e.1 e.2) [])

/-- Whether a request that waits may leave on a link: its limit, the replay buffer, the credits of its channel and the port's service
allow it (R385, R400, R405). -/
def State.mayLeave (s : State) (l : Link) (r : Req) : Bool :=
  r.waiting && s.linkTo r.dst == some l && s.linkUp l && (s.wire l).room && (s.wire l).credit (s.firstChannel l r.dst) &&
    decide (s.outOn l < outLimit l) && match l with | .scaleOut p => s.portServes p | _ => true

/-- Whether a request is a store of part of a line (R388). -/
def Req.isPartial (r : Req) : Bool := r.kind == .store && decide (r.data.length < 128)

/-- The byte mask that follows a store of part of a line: the bytes it stores, by place in the line (R388). -/
def Req.mask (r : Req) : Option (BitVec 128) :=
  if r.isPartial then some (((BitVec.allOnes 128) >>> (128 - r.data.length)) <<< (r.addr % 128)) else none

/-- The data as the link carries them: of part of a line, its bytes from the line's first on (R388, log 15). -/
def Req.payload (r : Req) : List Byte := if r.isPartial then List.replicate (r.addr % 128) 0 ++ r.data else r.data

/-- The length field of a request: its data in units of 8 bytes, the last begun (R388). -/
def Req.len (r : Req) : Nat := match r.kind with | .load _ n => (n + 7) / 8 | _ => min 16 ((r.payload.length + 7) / 8)

/-- The bytes of a request on a link: its header, a byte mask where a store is of part of a line, its data (R388). -/
def Req.bytes (r : Req) : Nat := 24 + (if r.isPartial then 16 else 0) + r.payload.length

/-- A request leaves its hub die: its flits are formed, and a tray peer's window counts it. -/
def State.sendOff (s : State) (l : Link) (i : Nat) (r : Req) : State :=
  let ch := s.firstChannel l r.dst
  let s1 := { s with fab := { s.fab with reqs := upd s.fab.reqs i fun q => { q with waiting := false, vc := ch, via := some l } } }
  let s2 := (s1.setWire l ((s1.wire l).use ch)).formFlits l (flitsOf 256 r.bytes)
  if r.dst / 8 = s.pins.strapTray then s2.bump (offPeer (r.dst % 8) 0x28) 1 else s2

/-- Requests that wait for a link leave while it takes them, by the turns of R401. -/
def State.pump : Nat → State → Link → State
  | 0, s, _ => s
  | n + 1, s, l =>
    let go := s.fab.reqs.filter fun e => s.mayLeave l e.2
    match (s.wire l).pick (s.weights l ((go.foldl (fun t e => put t (s.reqClass e.2) ()) []).map (·.1))) with
    | none => s
    | some (c, k) => match go.find? fun e => s.reqClass e.2 == c with
      | none => s
      | some e => State.pump n ((s.setWire l k).sendOff l e.1 e.2) l

/-! ### Notices, responses and forwarded requests (R388, R401, R403-R405) -/

/-- The fabric changed. -/
def State.modFab (s : State) (f : Fabric → Fabric) : State := { s with fab := f s.fab }

/-- Their order of priority, ahead of the device's own requests (R401); of requests, the forwarded go first (log 66). -/
def OutPkt.rank : OutPkt → Nat
  | .notice _ => 0
  | .resp _ _ _ => 1
  | .fwd _ _ => 2

/-- The link that a packet takes; none for one that has nowhere to go. -/
def State.outLink (s : State) : OutPkt → Option Link
  | .notice l => if s.linkUp l then some l else none
  | .resp d _ _ => match s.linkTo d with
    | some (.tray k) => if s.linkUp (.tray k) then some (.tray k) else none
    | l => l
  | .fwd h _ => (s.routePort (h.dst / 8)).map .scaleOut

/-- The channel on which a packet leaves on a link: 0 and 1 for requests, 2 and 3 for responses; a notice needs no credit (R405, log 66). -/
def State.outChannel (s : State) (l : Link) : OutPkt → Option Nat
  | .notice _ => none
  | .resp d vc _ => some (2 + match l with | .scaleOut _ => s.hopChannel (d / 8) vc | _ => vc)
  | .fwd h _ => some (s.hopChannel (h.dst / 8) (b2n h.vc))

/-- Whether a packet may leave on a link: its replay buffer, the credits of its channel and the port's service allow it (R385, R405). -/
def State.mayGo (s : State) (l : Link) (p : OutPkt) : Bool :=
  s.outLink p == some l && (s.wire l).room && (match s.outChannel l p with | some ch => (s.wire l).credit ch | none => true) &&
    match l with | .scaleOut q => s.portServes q | _ => true

/-- The packet that leaves next on a link (R401). -/
def State.nextOut (s : State) (l : Link) : Option OutPkt :=
  (List.range 3).findSome? fun r => s.fab.out.find? fun p => p.rank == r && s.mayGo l p

/-- A packet leaves: a request one hop further and on the channel of that hop (R404, R405). -/
def State.goOut (s : State) (l : Link) (p : OutPkt) : State :=
  let ch := s.outChannel l p
  let s1 := s.modFab fun f => { f with out := drop1 f.out p }
  let use (t : State) : State := match ch with | some n => t.setWire l ((t.wire l).use n) | none => t
  match p, l with
  | .notice _, _ => s1.formFlits l 1
  | .resp _ _ n, _ => (use s1).formFlits l n
  | .fwd h n, .scaleOut q =>
    (use ((s1.modFab fun f => { f with fwd := some (q, { h with hops := h.hops + 1, vc := ch == some 1 }) }).bump (offSfPort q 0x28) 1)).formFlits l n
  | .fwd _ _, _ => s1

/-- The packets that wait leave on a link while it takes them. -/
def State.flush : Nat → State → Link → State
  | 0, s, _ => s
  | n + 1, s, l => match s.nextOut l with
    | none => s
    | some p => State.flush n (s.goOut l p) l

/-- A packet put among those that wait. -/
def State.putOut (s : State) (p : OutPkt) : State :=
  match s.outLink p with
  | some l => let t := s.modFab fun f => { f with out := f.out ++ [p] }
              t.flush t.fab.out.length l
  | none => s

/-- What waits for a link gets its chance to leave, requests of this device last (R401). -/
def State.pumpLink (s : State) (l : Link) : State :=
  let t := s.flush s.fab.out.length l
  t.pump (t.fab.reqs.filter fun e => e.2.waiting).length l

/-- Every link of the fabric. -/
def fabricLinks : List Link := ((List.range 8).map .tray) ++ (List.range 4).map .scaleOut

/-- What waits gets its chance on every link. -/
def State.pumpAll (s : State) : State :=
  if !s.fab.out.isEmpty || s.fab.reqs.any fun e => e.2.waiting then fabricLinks.foldl (fun (t : State) l => t.pumpLink l) s else s

/-- A fabric request handed to its hub die, held until its response or time-out (R400, R407). -/
def State.send (s : State) (r : Req) : State :=
  let t := { s with fab := { s.fab with reqs := put s.fab.reqs s.fab.nextReq { r with waiting := true }, nextReq := s.fab.nextReq + 1 } }
  match t.linkTo r.dst with
  | some l => t.pumpLink l
  | none => t

/-- The op of a request (R388). -/
def ReqKind.op : ReqKind → Nat
  | .store => 1
  | .load _ _ => 2
  | .descFetch => 3
  | .atomic => 4
  | .flag => 5
  | .token => 6
  | .trigger => 7
  | .coll _ _ => 8
  | .fencePush => 9
  | .fenceForward => 0xA
  | .mirror _ _ => 1
  | .twin _ fl => if fl then 5 else 1
  | .marker _ _ => 5

/-- Whether a request is device-held whatever its job (R387, R429, R432, R442). -/
def ReqKind.deviceHeld : ReqKind → Bool
  | .mirror _ _ => true
  | .twin _ _ => true
  | .marker _ _ => true
  | _ => false

/-- The header that an outstanding request carries on the link on which it left (R388, R404): the core of its move engine, or the hub
die. -/
def State.header (s : State) (i : Nat) (r : Req) : FabHdr :=
  let held := r.job == 0 || r.kind.deviceHeld
  { op := r.kind.op, hops := (match r.via with | some (.scaleOut _) => 1 | _ => 0), vc := r.vc == 1, deviceHeld := held, partialMask := r.isPartial,
    job := if held then 0 else r.job, src := s.node, dst := r.dst, tag := (match r.owner with | some o => o.1 | none => 0x7FF) + i % 512 * 2048,
    len := r.len, seq := r.seq, address := r.addr }

/-- The header of the response to a request: back to its source, with the code in the address (R388). -/
def State.respHeader (s : State) (h : FabHdr) (code n : Nat) : FabHdr :=
  let l := s.linkTo h.src
  { h with op := h.op + 0x80, hops := (match l with | some (.scaleOut _) => 1 | _ => 0),
           vc := (match l with | some l => s.firstChannel l h.src | none => 0) == 1, partialMask := false, src := s.node, dst := h.src,
           len := min 16 ((n + 7) / 8), seq := 0, address := code }

/-- A response made, which goes ahead of requests that wait (R388, R401); a self-fenced device sends none (R412). -/
def State.respond (s : State) (h : FabHdr) (code : Nat) (data : List Byte) : State :=
  if s.fab.selfFenced then s
  else (s.modFab fun f => { f with resp := some (s.respHeader h code data.length, data) }).putOut (.resp h.src 0 (flitsOf 256 (24 + data.length)))

/-- Packets that wait and have nowhere to go any longer: a request is answered with FAB_UNREACHABLE, the others are dropped (R404, R406,
log 66). -/
def State.sweepOut (s : State) : State :=
  let lost := s.fab.out.filter fun p => (s.outLink p).isNone
  lost.foldl (fun (t : State) p => match p with | .fwd h _ => t.respond h 0x7006 [] | _ => t)
    (s.modFab fun f => { f with out := f.out.filter fun p => !(lost.contains p) })

end Sys2Proof.Machine
end

