-- ==== Sys2Proof/Machine/Fences.lean ====
section
/-! DEFINITION. What every family uses to report: writes to host memory, completion entries (R339-R341), the context error
log (R372), fences and their waiters and events (R363-R371), the end of a packet (R336), the start of a teardown (R374). -/

namespace Sys2Proof.Machine

open Sys2Proof

/-! ### Objects -/

/-- The objects changed. -/
def State.modObjs (s : State) (f : Objects → Objects) : State := { s with objs := f s.objs }

/-- A context, where its id is in use. -/
def State.ctx (s : State) (x : Nat) : Option Ctx := look s.objs.ctxs x

/-- A context changed. -/
def State.modCtx (s : State) (x : Nat) (f : Ctx → Ctx) : State :=
  { s with objs := { s.objs with ctxs := upd s.objs.ctxs x f } }

/-- A context that runs (R352). -/
def State.live (s : State) (x : Nat) : Bool :=
  match s.ctx x with
  | some c => c.state == .live
  | none => false

/-- The port of a partition. -/
def State.partPort (s : State) (p : Nat) : Option Nat := (look s.objs.parts p).map (·.port)

/-- The port of a context's partition. -/
def State.ctxPort (s : State) (x : Nat) : Option Nat :=
  match s.ctx x with
  | some c => s.partPort c.part
  | none => none

/-- A submission queue by port and queue id; queue 0 of a port exists always (R334, R358). -/
def State.queue (s : State) (p q : Nat) : Option SubQueue :=
  match look s.objs.queues (p * 8192 + q) with
  | some k => some k
  | none => if q = 0 then some ⟨none, 4096, [], none, false, 0, 0, 0⟩ else none

/-- A submission queue set. -/
def State.setQueue (s : State) (p q : Nat) (k : SubQueue) : State :=
  { s with objs := { s.objs with queues := put s.objs.queues (p * 8192 + q) k } }

/-! ### Host memory (R331, R332) -/

/-- A Burob port changed. -/
def State.setPort (s : State) (p : Nat) (k : Port) : State := { s with host := { s.host with ports := put s.host.ports p k } }

/-- Whether a host range lies wholly within one enabled window of a port (R331). -/
def State.inWindow (s : State) (p a n : Nat) : Bool :=
  (List.range 16).any fun w =>
    let base := s.reg (offBl p (0x100 + w * 0x10))
    let pages := s.reg (offBl p (0x108 + w * 0x10))
    bit base 0 && decide (base / 4096 * 4096 ≤ a) && decide (a + n ≤ base / 4096 * 4096 + pages * 4096)

/-- A device write to host memory: sent in flits while the port is up and its replay buffer has room, else held, in the order of the
writes (R323, R324, R342). -/
def State.hostWrite (s : State) (p a : Nat) (bytes : List Byte) : State :=
  let k := s.port p
  if k.up && k.heldWrites.isEmpty && (s.wire (.burob p)).fits (flitsOf 200 bytes.length) then
    { s with host := { s.host with mem := put s.host.mem p (hostCellPuts (lookD s.host.mem p []) a bytes) } }.formFlits (.burob p)
      (flitsOf 200 bytes.length)
  else s.setPort p { k with heldWrites := k.heldWrites ++ [(a, bytes)] }

/-- The 16-byte state record of a submission queue (R153). -/
def queueRecord (k : SubQueue) : List Byte :=
  leBytes 8 k.consumed ++ leBytes 4 k.dropped ++ leBytes 2 k.depth ++ leBytes 2 0

/-- The state record of a queue published (R153); the admin queue has none. -/
def State.publish (s : State) (p q : Nat) : State :=
  match s.queue p q with
  | some k => if q = 0 then s else s.hostWrite p k.record (queueRecord k)
  | none => s

/-! ### Completion queues (R339-R341) -/

/-- BL_CQ_CTL of a completion queue. -/
def State.cqCtl (s : State) (p c : Nat) : Nat := s.reg (offCq p c 0)

/-- Whether a completion queue is enabled (R344: sizes outside 6 to 24 leave it disabled). -/
def State.cqEnabled (s : State) (p c : Nat) : Bool :=
  let v := s.cqCtl p c
  decide (c < 256) && bit v 0 && decide (6 ≤ fld v 1 5) && decide (fld v 1 5 ≤ 24)

/-- Whether a completion queue is owned by a context, or for none by the admin queue (R339). -/
def State.cqOwned (s : State) (p c : Nat) (ctx : Option Nat) : Bool :=
  let v := s.cqCtl p c
  match ctx with
  | some x => !bit v 18 && fld v 6 12 == x
  | none => bit v 18

/-- Units of an entry with `n` data bytes (R340). -/
def cqUnits (n : Nat) : Nat := 1 + (n + 63) / 64

/-- A completion entry's header and padded data (R340). -/
def cqBytes (kind : Nat) (phase last : Bool) (ctx len seq source offset : Nat) (result data : List Byte) : List Byte :=
  [BitVec.ofNat 8 kind, BitVec.ofNat 8 (b2n phase + 2 * b2n last)] ++ leBytes 2 (cqUnits len) ++ leBytes 2 ctx ++ leBytes 2 0
    ++ leBytes 4 len ++ leBytes 4 seq ++ leBytes 8 source ++ leBytes 8 offset ++ sliceBytes result 0 32
    ++ sliceBytes data 0 ((cqUnits len - 1) * 64)

/-- The device side of a completion queue. -/
def State.cq (s : State) (p c : Nat) : CqState := lookD s.host.cqs (p * 256 + c) ⟨0, []⟩

/-- The device side of a completion queue set. -/
def State.setCq (s : State) (p c : Nat) (k : CqState) : State :=
  { s with host := { s.host with cqs := put s.host.cqs (p * 256 + c) k } }

/-- The place an entry of `n` data bytes would take: the PAD units before it, and its unit in the ring; none without room
for all of its units (R340, R341), and none while the port is down (R342, log 24). -/
def State.cqRoom (s : State) (p c n : Nat) : Option (Nat × Nat) :=
  if !(s.port p).up then none else
  let size := 2 ^ fld (s.cqCtl p c) 1 5
  let tail := s.reg (offCq p c 0x10)
  let head := s.reg (offCq p c 8)
  let at_ := tail % size
  let pad := if size < at_ + cqUnits n then size - at_ else 0
  if (tail + 2 ^ 32 - head) % 2 ^ 32 + pad + cqUnits n ≤ size then some (pad, (tail + pad) % size) else none

/-- An entry written at its place: the PAD before it where the ring would wrap, its data units and then its header, the
phase of the pass, the tail moved (R340). -/
def State.cqWrite (s : State) (p c : Nat) (e : CqEntry) (pad place : Nat) : State :=
  let ctl := s.cqCtl p c
  let size := 2 ^ fld ctl 1 5
  let base := ctl / 2 ^ 19 * 2 ^ 19
  let tail := s.reg (offCq p c 0x10)
  let k := s.cq p c
  let phase (t : Nat) : Bool := t / size % 2 == 0
  let s1 := if pad = 0 then s else
    s.hostWrite p (base + tail % size * 64) (cqBytes 0 (phase tail) false 0 ((pad - 1) * 64) k.seq 0 0 [] [])
  let seq := if pad = 0 then k.seq else (k.seq + 1) % 2 ^ 32
  let s2 := s1.hostWrite p (base + place * 64)
    (cqBytes e.kind (phase (tail + pad)) e.last e.ctx e.data.length seq e.source e.offset e.result e.data)
  (s2.setCq p c { s2.cq p c with seq := (seq + 1) % 2 ^ 32 }).setReg (offCq p c 0x10)
    ((tail + pad + cqUnits e.data.length) % 2 ^ 32)

/-- Whether the flits of an entry and of the PAD before it leave at once: no write is held before them and the replay buffer takes them all,
so that the entry is in host memory when it counts as written (R324, R336). -/
def State.cqFits (s : State) (p pad n : Nat) : Bool :=
  (s.port p).heldWrites.isEmpty && (s.wire (.burob p)).fits ((if pad = 0 then 0 else 1) + flitsOf 200 (64 * cqUnits n))

/-- An entry written where no other waits before it and there is room, else left to wait (R341); whether it was written. A queue that is
disabled takes none (R343, R346). -/
def State.cqPost (s : State) (p c : Nat) (e : CqEntry) : State × Bool :=
  let k := s.cq p c
  if !(s.cqEnabled p c) then (s, false)
  else match k.waiting, s.cqRoom p c e.data.length with
  | [], some (pad, place) =>
    if s.cqFits p pad e.data.length then (s.cqWrite p c e pad place, true) else (s.setCq p c { k with waiting := [e] }, false)
  | w, _ => ((s.setCq p c { k with waiting := w ++ [e] }).adopt (offBl p 0) 7 5, false)

/-! ### The context error log (R372) -/

/-- What a log entry's source names: a packet (opcode, queue) or a stream entry (0xFF). -/
abbrev LogSrc := Nat × Nat

/-- A stream entry as source (R372). -/
def srcStream : LogSrc := (0xFF, 0)

/-- An entry appended to a context's log of 256 entries; a full log loses its oldest and counts it (R372). -/
def logPush (c : Ctx) (code : Nat) (fault prop : Bool) (fence origin node detail : Nat) (src : LogSrc) : Ctx :=
  let l := c.log ++ [⟨c.logSeq, code, fault, prop, fence, origin, node, detail, src.1, src.2⟩]
  { c with logSeq := c.logSeq + 1, log := if 256 < l.length then l.drop 1 else l,
           logLost := if 256 < l.length then c.logLost + 1 else c.logLost }

/-- An entry in a context's log, with this device as the origin's node. -/
def State.log (s : State) (x code : Nat) (fault prop : Bool) (fence detail : Nat) (src : LogSrc) : State :=
  s.modCtx x fun c => logPush c code fault prop fence x s.node detail src

/-- No fence (R372). -/
def noFence : Nat := 0xFFFF_FFFF

/-! ### Fences (R363-R371) -/

/-- The value of the error state (R363). -/
def errorValue : Nat := 0xFFFF_FFFF_FFFF_FFFF

/-- A fence, live or held. -/
def State.fence (s : State) (f : Nat) : Option Fence := look s.objs.fences f

/-- A fence changed. -/
def State.modFence (s : State) (f : Nat) (g : Fence → Fence) : State :=
  { s with objs := { s.objs with fences := upd s.objs.fences f g } }

/-- Whether a context may wait on a fence: its owner or a holder of a share (R367). -/
def Fence.mayWait (f : Fence) (x : Nat) : Bool := !f.held && f.owner == x || f.shares.any fun h => h.1 == x

/-- Whether a context may signal a fence: its owner, or a holder of a share with the signal right; of a proxy, under the
export's signal right (R367, R369). -/
def Fence.maySignal (f : Fence) (x : Nat) : Bool :=
  match f.home with
  | some (_, _, right) => right && (!f.held && f.owner == x || f.shares.any fun h => h.1 == x && h.2)
  | none => !f.held && f.owner == x || f.shares.any fun h => h.1 == x && h.2

/-- Whether a context may wait on the fence of an id. -/
def State.mayWait (s : State) (x f : Nat) : Bool := match s.fence f with | some k => k.mayWait x | none => false

/-- Whether a context may signal the fence of an id. -/
def State.maySignal (s : State) (x f : Nat) : Bool := match s.fence f with | some k => k.maySignal x | none => false

/-- The job id that a context's requests carry (R388); 0 in no job. -/
def State.jobId (s : State) (x : Nat) : Nat :=
  match s.ctx x with
  | some k => match k.job with
    | some j => match look s.objs.jobs j with | some e => e.id | none => 0
    | none => 0
  | none => 0

/-- The job-table entry of a context, with the check that the class is enabled there: `trigger` for the triggers class (R389). -/
def State.senderJob (s : State) (x : Nat) (trigger : Bool) : Except Nat (Nat × Job) :=
  match s.ctx x with
  | none => .error 0x7002
  | some c => match c.job with
    | none => .error 0x7002
    | some j => match look s.objs.jobs j with
      | none => .error 0x7002
      | some k => if bit k.ops (b2n trigger) then .ok (j, k) else .error 0x7001

/-- The events of a fence that are armed and whose target the fence has reached, or all of them in the error state (R371). -/
def State.dueEvents (s : State) (f : Nat) (k : Fence) : List (Nat × Event) :=
  s.objs.events.filter fun e => e.2.fence == f && !e.2.fired && (k.err != 0 || decide (e.2.target.toNat ≤ k.value.toNat))

/-- An armed event fires: its RESULT entry is written to its completion queue, or waits there (R371). -/
def State.fireEvent (s : State) (h : Nat) (e : Event) (k : Fence) : State :=
  let s1 := { s with objs := { s.objs with events := upd s.objs.events h fun e => { e with fired := true } },
                     host := { s.host with nextXid := s.host.nextXid + 1 } }
  (s1.cqPost e.port e.cq
    { kind := 3, ctx := e.owner, source := e.fence, result := [],
      data := leBytes 8 k.value.toNat ++ leBytes 2 k.err ++ leBytes 2 0 ++ leBytes 4 h,
      offset := 0, last := true, owner := .event h, xid := s.host.nextXid }).1

/-- Put a fence into the error state with a code, by a context or by none; a fence already there keeps its code (R365). -/
def State.setFenceErr (s : State) (f code : Nat) (by_ : Option Nat) : State :=
  s.modFence f fun k => if k.err = 0 then { k with err := code, value := BitVec.ofNat 64 errorValue, origin := by_ } else k

/-- A fence gone: its slot's generation rises (R349). -/
def State.freeFence (s : State) (f : Nat) : State :=
  s.modObjs fun o => { o with fences := del o.fences f, fenceGen := put o.fenceGen (f % 2 ^ 20) ((f / 2 ^ 20 + 1) % 4096) }

/-- A fence that is held is gone with its last share and proxy (R352). -/
def State.settleHeld (s : State) (f : Nat) : State :=
  match s.fence f with
  | some k => if k.held && k.shares.isEmpty && k.proxies.isEmpty then s.freeFence f else s
  | none => s

/-- The nodes that a job-table entry lists: its tray members and its nodes (R397, R414, R416). -/
def State.jobNodes (s : State) (e : Nat) : List Nat :=
  let near := ((List.range 8).filter fun k => bit (s.reg (offTfJob e 0)) k).map fun k => s.pins.strapTray * 8 + k
  let far := (List.range 16).flatMap fun i => ((List.range 64).filter fun j => bit (s.reg (offSfJob e (i * 8))) j).map fun j => 64 * i + j
  far.foldl addNew near

/-- The nodes that a change of a fence is pushed to: those of its owner's job, where the fence is exported to it and lines are enabled,
since any of them may hold a proxy (R369, R389, log 31). -/
def State.pushNodes (s : State) (k : Fence) : List Nat :=
  if k.exported.isNone ∨ k.home.isSome then []
  else match s.senderJob k.owner false with
    | .error _ => []
    | .ok (e, _) => (s.jobNodes e).filter fun n => n != s.node && (s.unreachable n).isNone

/-- The log entries of an error attached to a fence (R365): in the log of the context that caused it, and in the owner's
when that is another; with no causing context, in the owner's alone. The owner of a held fence whose context id is free again has no
log (`State.orphan`). -/
def State.logFenceErr (s : State) (f code : Nat) (by_ : Option Nat) (prop : Bool) (node detail : Nat) (src : LogSrc) : State :=
  match s.fence f, by_ with
  | some k, some x =>
    let s1 := s.modCtx x fun c => logPush c code false prop f x node detail src
    if k.owner = x then s1 else s1.modCtx k.owner fun c => logPush c code false prop f x node detail src
  | some k, none => s.modCtx k.owner fun c => logPush c code false prop f k.owner node detail src
  | none, _ => s

/-- The queues, by port * 8192 + queue id, whose head packet waits on a fence. -/
def State.waitingOn (s : State) (f : Nat) : List (Nat × SubQueue) :=
  s.objs.queues.filter fun q => q.2.headWaits && match q.2.packets with
    | p :: _ => p.waitId == f
    | [] => false

/-- The context of a packet: its queue's owner, or on queue 0 the context field (R564). -/
def packetCtx (k : SubQueue) (p : Packet) : Nat := k.owner.getD p.ctx

/-- The opcodes of R335 and R350. -/
def listedOpcode (op : Nat) : Bool :=
  decide (op ≤ 2) || op == 0x10 || op == 0x11 || op == 0x12 || op == 0x18 || decide (0x20 ≤ op) && decide (op ≤ 0x39)

/-- The management port (R491). -/
def State.mgmtPort (s : State) : Nat := if s.sec.lc = .blank then 0 else s.sec.mgmtPort

/-- Whether a port has the management port's rights: while that port is down no port has them (R491). -/
def State.isMgmt (s : State) (port : Nat) : Bool := port == s.mgmtPort && (s.port port).up

/-- Why a packet may not run at all: a RETIRED device takes only QUERY on queue 0 (R504); while a unit has no image, only what
installs one runs, on queue 0 of the management port (R499); an opcode not listed (R564 step 4). -/
def State.packetBar (s : State) (port q : Nat) (p : Packet) : Option Nat :=
  if s.sec.lc = .retired then (if q == 0 && p.opcode == 0x18 then none else some 0xA00B)
  else if s.sec.units.any fun u => u.running.isNone then
    (if q == 0 && s.isMgmt port && (p.opcode == 0x18 || p.opcode == 1 || decide (0x20 ≤ p.opcode) && decide (p.opcode ≤ 0x39))
      then none else some 0xA00E)
  else if listedOpcode p.opcode then none else some 0x8001

/-- The head packet of a queue starts to run and is consumed; the queue's record is published (R153, R336). -/
def State.startHead (s : State) (key : Nat) (k : SubQueue) : State :=
  match k.packets with
  | [] => s
  | p :: rest =>
    (s.setQueue (key / 8192) (key % 8192)
      { k with packets := rest, running := some p, headWaits := false, consumed := k.consumed + 1 }).publish
        (key / 8192) (key % 8192)

/-- The head packet of a queue is consumed and does not run. -/
def State.consumeHead (s : State) (key : Nat) (k : SubQueue) : State :=
  ((s.setQueue (key / 8192) (key % 8192) { k with packets := k.packets.drop 1, headWaits := false, consumed := k.consumed + 1 }).publish
    (key / 8192) (key % 8192)).bump (offBl (key / 8192) 0x68) 1

/-- The head packet of a queue is consumed and fails with a code on its own fence (R336, R366): the new state, and the fence that
thereby enters the error state. -/
def State.failHead (s : State) (key : Nat) (k : SubQueue) (code : Nat) (prop : Bool) (detail : Nat) : State × List Nat :=
  match k.packets with
  | [] => (s, [])
  | p :: _ =>
    let s1 := s.consumeHead key k
    if p.fenceEn then
      let fresh := match s1.fence p.fenceId with | some f => f.err == 0 | none => false
      ((s1.setFenceErr p.fenceId code (some (packetCtx k p))).logFenceErr p.fenceId code (some (packetCtx k p)) prop s.node detail (p.opcode, key % 8192),
        if fresh then [p.fenceId] else [])
    else (s1, [])

/-- The detail of DEP_FENCE_ERROR: the wait fence, and its code (R366). -/
def depDetail (p : Packet) (waitCode : Nat) : Nat := p.waitId + waitCode * 2 ^ 32

/-- The head packet of a queue, its wait met, starts to run, or fails where it may not run. -/
def State.runHead (s : State) (key : Nat) (k : SubQueue) (p : Packet) : State × List Nat :=
  match s.packetBar (key / 8192) (key % 8192) p with
  | some code => s.failHead key k code false 0
  | none => (s.startHead key k, [])

/-- A fence's value and state pushed to the nodes that may hold a proxy of it (R369). -/
def State.pushFence (s : State) (f : Nat) (k : Fence) : State :=
  (s.pushNodes k).foldl (fun t n => t.send
    ⟨n, .fencePush, none, k.owner, some f, s.jobId k.owner, f, leBytes 8 k.value.toNat ++ leBytes 2 k.err, 0, false, 0, none⟩) s

/-- The nodes that may hold a proxy of a fence noted as holding one, until they answer that they hold none (R352, R369, log 31). -/
def State.noteHolders (s : State) (f : Nat) : State :=
  match s.fence f with
  | some k => s.modFence f fun y => { y with proxies := (s.pushNodes k).foldl (fun l n => addNew l (n, f)) y.proxies }
  | none => s

/-- What follows a change of one fence: its proxies are pushed, with the context that caused an error (R365, R369), its due events fire (R371), and the packets that
wait on it start to run or fail (R336, R366). Answers the fences that entered the error state by it. -/
def State.wakeFence (s : State) (f : Nat) : State × List Nat :=
  match s.fence f with
  | none => (s, [])
  | some k =>
    let s1 := s.pushFence f k
    let s2 := (s1.dueEvents f k).foldl (fun t e => t.fireEvent e.1 e.2 k) s1
    (s2.waitingOn f).foldl (fun (t : State × List Nat) q =>
      match q.2.packets with
      | p :: _ =>
        if k.err ≠ 0 then
          let r := t.1.failHead q.1 q.2 0x6003 true (depDetail p k.err)
          (r.1, t.2 ++ r.2)
        else if p.waitValue ≤ k.value.toNat then
          let r := t.1.runHead q.1 q.2 p
          (r.1, t.2 ++ r.2)
        else t
      | [] => t) (s2, [])

/-- What follows changes of the listed fences, and of those their errors spread to (R366): at most one turn for each fence
of the list and for each queue whose head waits. -/
def State.wakeAll : Nat → List Nat → State → State
  | 0, _, s => s
  | _, [], s => s
  | n + 1, f :: fs, s =>
    let r := s.wakeFence f
    State.wakeAll n (fs ++ r.2) r.1

/-- The turns that waking from a list of fences can take. -/
def State.wakeFuel (s : State) (fs : List Nat) : Nat := fs.length + (s.objs.queues.filter fun q => q.2.headWaits).length

/-- The fences of a list have changed. -/
def State.wake (s : State) (fs : List Nat) : State := State.wakeAll (s.wakeFuel fs) fs s

/-- An error attached to a fence by a context, or by none, with the node id that the entries name, and whether they are marked as
propagated (R365, R372). -/
def State.attachError (s : State) (f code : Nat) (by_ : Option Nat) (prop : Bool) (node detail : Nat) (src : LogSrc) : State :=
  let fresh := match s.fence f with | some k => k.err == 0 | none => false
  let s1 := (s.setFenceErr f code by_).logFenceErr f code by_ prop node detail src
  if fresh then s1.wake [f] else s1

/-- An error attached to a fence that did not spread to it from another (R365). -/
def State.fenceErrorAt (s : State) (f code : Nat) (by_ : Option Nat) (node detail : Nat) (src : LogSrc) : State :=
  s.attachError f code by_ false node detail src

/-- An error attached to a fence on this device (R365). -/
def State.fenceError (s : State) (f code : Nat) (by_ : Option Nat) (detail : Nat) (src : LogSrc) : State :=
  s.fenceErrorAt f code by_ s.node detail src

/-- An error of a signal that is to reach a home on another node: on the fence that is to have it, or in the context's log where there is
none (R376, R419). -/
def State.signalFails (s : State) (errs : Option Nat) (x code : Nat) : State :=
  match errs with
  | some g => s.fenceError g code (some x) 0 srcStream
  | none => s.log x code false false noFence 0 srcStream

/-- A signal of value `v` at the fence's home (R364): a larger value raises it; otherwise one FENCE_REGRESS is recorded. A
signal of a proxy is forwarded to the home (R369); one that fails there or cannot be sent goes to the fence `errs` (R389, R407, R419). -/
def State.signalFor (s : State) (f v : Nat) (errs : Option Nat) : State :=
  match s.fence f with
  | none => s
  | some k =>
    match k.home with
    | some (node, home, _) =>
      match s.senderJob k.owner false, s.unreachable node with
      | .error e, _ => s.signalFails errs k.owner e
      | .ok _, some e => s.signalFails errs k.owner e
      | .ok _, none => s.send ⟨node, .fenceForward, none, k.owner, errs, s.jobId k.owner, home, leBytes 8 v, 0, false, 0, none⟩
    | none =>
      if k.value.toNat < v then (s.modFence f fun k => { k with value := BitVec.ofNat 64 v }).wake [f]
      else s.raise 0x6801 (leBytes 4 f ++ leBytes 8 k.value.toNat ++ leBytes 8 v ++ leBytes 1 (b2n (k.err != 0)))

/-- A signal that no stream entry issued: what fails on the way to a home is the proxy's own error (log 31). -/
def State.signal (s : State) (f v : Nat) : State := s.signalFor f v (some f)

/-! ### The end of a packet (R336, R564) -/

/-- The packet that runs at a queue, with its queue. -/
def State.runningPacket (s : State) (p q : Nat) : Option (SubQueue × Packet) :=
  match s.queue p q with
  | some k => k.running.map fun r => (k, r)
  | none => none

/-- The queue runs no packet any longer. -/
def State.endPacket (s : State) (p q : Nat) : State :=
  match look s.objs.queues (p * 8192 + q) with
  | some k => s.setQueue p q { k with running := none }
  | none => s

/-- A packet completes: its fence is signalled with its value (R336). -/
def State.completePacket (s : State) (p q : Nat) (r : Packet) : State :=
  let s1 := s.endPacket p q
  if r.fenceEn then s1.signal r.fenceId r.fenceValue else s1

/-- A packet fails with a code: its fence enters the error state with it; without fence_en it leaves no trace but
BL_PACKETS_FAILED (R336). -/
def State.failPacket (s : State) (p q : Nat) (ctx code detail : Nat) (r : Packet) : State :=
  let s1 := (s.endPacket p q).bump (offBl p 0x68) 1
  if r.fenceEn then s1.fenceError r.fenceId code (some ctx) detail (r.opcode, q) else s1

/-- A packet completes with data: a RESULT entry in its completion queue (R351), and the fence once that is written. -/
def State.completeWith (s : State) (p q : Nat) (ctx : Nat) (r : Packet) (kind source : Nat) (result data : List Byte) : State :=
  let s1 := { s.endPacket p q with host := { (s.endPacket p q).host with nextXid := s.host.nextXid + 1 } }
  let f := if r.fenceEn then some (r.fenceId, r.fenceValue) else none
  let t := s1.cqPost p r.cq
    { kind := kind, ctx := ctx, source := source, result := result, data := data, offset := 0, last := true,
      owner := .packet f r.opcode q, xid := s.host.nextXid }
  if t.2 then match f with
    | some (i, v) => t.1.signal i v
    | none => t.1
  else t.1

/-! ### Stream entries and their fence (R197) -/

/-- The sequencer of a core's constellation. -/
def State.coreSeq (s : State) (c : Nat) : Option (Nat × Seq) :=
  match (s.core c).member with
  | some (q, _) => (look s.seqs q).map fun k => (q, k)
  | none => none

/-- The running context of a core: its constellation's, while live. -/
def State.coreCtx (s : State) (c : Nat) : Option Nat :=
  match s.coreSeq c with
  | some (_, k) => if s.live k.ctx then some k.ctx else none
  | none => none

/-- The rank of a core (R135). -/
def State.coreRank (s : State) (c : Nat) : Nat := match (s.core c).member with | some (_, r) => r | none => 0

/-- An entry of a kernel on a core fails: the fence of its launch packet enters the error state (R197), or the error is
logged where the launch carried none (R376). -/
def State.entryError (s : State) (c code detail : Nat) : State :=
  match s.coreSeq c with
  | none => s
  | some (_, k) =>
    match k.fence with
    | some (f, _) => s.fenceError f code (some k.ctx) detail srcStream
    | none => s.log k.ctx code false false noFence detail srcStream

/-! ### Teardown (R374) -/

/-- The fences that the packets of a queue carry. -/
def queueFences (k : SubQueue) : List Nat :=
  (k.packets ++ k.running.toList).filterMap fun p => if p.fenceEn then some p.fenceId else none

/-- A queue of a torn-down context holds no packet any longer. -/
def stopQueue (x : Nat) (q : Nat × SubQueue) : Nat × SubQueue :=
  if q.2.owner == some x then (q.1, { q.2 with packets := [], running := none, headWaits := false }) else q

/-- The loads of a context, running and queued (R195). -/
def State.loadsOf (s : State) (x : Nat) : List LoadJob :=
  (s.loader.running.toList ++ s.loader.queue).filter fun l => l.ctx == x

/-- The loader without the loads of a context: a running load stops, a queued one leaves the queue (R195). -/
def Loader.without (l : Loader) (x : Nat) : Loader :=
  { l with queue := l.queue.filter fun j => j.ctx != x, running := l.running.filter fun j => j.ctx != x }

/-- A context enters TEARDOWN with a cause: its queues are stopped and their packets discarded, and its loads end; the fences they
carry are kept for the end of the abort. A context that is not live is left as it is. -/
def State.teardown (s : State) (x cause : Nat) (ownerGone : Bool) : State :=
  if s.live x then
    let own := s.objs.queues.filter fun q => q.2.owner == some x
    let fs := own.flatMap (fun q => queueFences q.2) ++ (s.loadsOf x).filterMap fun l => l.fence.map (·.1)
    let s1 := { s with objs := { s.objs with queues := s.objs.queues.map (stopQueue x) }, loader := s.loader.without x }
    s1.modCtx x fun c => { c with state := .teardown, cause := cause, ownerGone := ownerGone, abortFences := c.abortFences ++ fs }
  else if ownerGone then s.modCtx x fun c => { c with ownerGone := true }
  else s

/-- A tensor unit without its sets, its drains and its block sums: what it issues keeps its rate (R122). -/
def TeUnitSt.idle (k : TeUnitSt) : TeUnitSt :=
  { k with active := none, pendingDrain := none, next := none, nextDrain := none, shadow := none, stalled := false,
           waiting := none, ready := false }

/-- The tensor units of some cores emptied; one at rest is not listed. -/
def State.clearUnits (s : State) (p : Nat → Bool) : State :=
  let rest (e : Nat × TeUnitSt) : Option (Nat × TeUnitSt) :=
    if !p (e.1 / 128) then some e else if e.2.rate = 0 ∧ e.2.credit = 0 then none else some (e.1, e.2.idle)
  { s with te := s.te.filterMap rest }

/-- The members of a context's constellations. -/
def State.ctxCores (s : State) (x : Nat) : List Nat := s.seqs.flatMap fun e => if e.2.ctx = x then e.2.members else []

/-- A fault of a context: it is logged, the tensor units of its cores discard their sets at once (R125), and the context is torn down
with the fault's code (R374). A context that is not live only logs it. -/
def State.faultCtx (s : State) (x code detail : Nat) : State :=
  let s1 := s.log x code true false noFence detail srcStream
  if s.live x then (s1.clearUnits fun c => (s.ctxCores x).contains c).teardown x code false else s1

/-- A fault of a core's context (R131, R163, R206, R234, R320). -/
def State.faultCore (s : State) (c code detail : Nat) : State :=
  match s.coreSeq c with
  | some (_, k) => s.faultCtx k.ctx code detail
  | none => s

end Sys2Proof.Machine
end

