-- ==== Sys2Proof/Machine/Memory.lean ====
section
/-! DEFINITION. Memory: the HBM address map (R304, R305), writes that reach HBM with the mirror, the journal and the copy on
first touch (R429, R430, R441, R445), the memory-side cache (R292-R300), translation (R291, R359), local store (R283, R284). -/

namespace Sys2Proof.Machine

open Sys2Proof

/-! ### HBM -/

/-- Bytes of device-local HBM (R304). -/
def hbmBytes : Nat := 0x0165_A0BC_0000

/-- The stack, which is also the controller and update unit, of a device-local address (R304). -/
def stackOf (a : Nat) : Nat := (a / 4096 % 32) ^^^ (a / 4096 / 32 % 32)

/-- The stack-local address (R304). -/
def stackAddr (a : Nat) : Nat := a / 4096 / 32 * 4096 + a % 4096

/-- The pseudo-channel slot of an address (R304). -/
def slotOf (a : Nat) : Nat := stackAddr a / 128 % 32

/-- The key of the 1 KiB row of an address within its pseudo-channel: (stack * 32 + slot) * 2^24 + row (R305). -/
def rowKey (a : Nat) : Nat := (stackOf a * 32 + slotOf a) * 2 ^ 24 + (stackAddr a / 4096 * 128 + stackAddr a % 128) / 1024

/-- The bytes of a page: 2 MiB or 64 KiB (R349). -/
def pageBytes (size : Nat) : Nat := if size = 0 then 0x20_0000 else 0x1_0000

/-- The bytes that a stack reads and writes counted (R316). -/
def State.hbmBytesMoved (s : State) (u rd wr : Nat) : State :=
  let s0 := s.reachDie (u / 2)
  let s1 := if rd = 0 then s0 else s0.bump (offHc u 0x38) rd
  if wr = 0 then s1 else s1.bump (offHc u 0x40) wr

/-- The bytes of a store counted at its controller: while a slot is copied away or back, writes go to both places (R310). -/
def State.hbmWrote (s : State) (a rd wr : Nat) : State :=
  let both := match look s.hbm.evac (stackOf a * 32 + slotOf a) with | some .copying => true | some .copyingBack => true | _ => false
  s.hbmBytesMoved (stackOf a) rd (if both then 2 * wr else wr)

/-- The bytes of a page counted as read from or written to the stacks that hold its 4 KiB granules (R304, R316). -/
def State.pageMoved (s : State) (a size : Nat) (write : Bool) : State :=
  if size = 0 then (List.range 32).foldl (fun (t : State) u => if write then t.hbmBytesMoved u 0 0x1_0000 else t.hbmBytesMoved u 0x1_0000 0) s
  else (List.range 16).foldl (fun (t : State) i =>
    let u := stackOf (a + i * 4096)
    if write then t.hbmBytesMoved u 0 4096 else t.hbmBytesMoved u 4096 0) s

/-! ### Protected pages (R426, R427) -/

/-- The page addresses and page size of a protection entry's range of its object. -/
def State.entryPages (s : State) (e : ProtEnt) : List (Nat × Nat) :=
  match look s.objs.mems e.id with
  | some o => ((o.pages.drop e.first).take (if e.pages = 0 then o.pages.length else e.pages)).map fun a => (a, o.pageSize)
  | none => []

/-- The page of a job's entries of the given classes that holds an address. -/
def State.protPage (s : State) (p : Prot) (mirror users : Bool) (a : Nat) : Option (Nat × Nat) :=
  (p.entries.flatMap fun e => if e.cls = 0 ∧ mirror ∨ e.cls = 1 ∧ users then s.entryPages e else []).find? fun g =>
    decide (g.1 ≤ a) && decide (a < g.1 + pageBytes g.2)

/-- 2 MiB pages of a job's entries of a class, rounded up (R436). -/
def State.protPages (s : State) (p : Prot) (cls : Nat) : Nat :=
  let n := (p.entries.map fun e => if e.cls = cls then ((s.entryPages e).map fun g => pageBytes g.2).sum else 0).sum
  (n + 0x1F_FFFF) / 0x20_0000

/-- Pool pages that a job's local versions use: those of the settled and the open seal, shared ones once (R441). -/
def versionPages (p : Prot) : Nat :=
  let a := match p.settled with | some x => x.versions | none => []
  let b := match p.openSeal with | some x => x.versions | none => []
  let all := a ++ b.filter fun v => !(a.any fun w => w.2.1 == v.2.1)
  ((all.map fun v => v.2.2.length).sum + 0x1F_FFFF) / 0x20_0000

/-- Pool pages reserved for a job's local versions (R437). -/
def State.versionReserve (s : State) (p : Prot) : Nat := 2 * s.protPages p 0 + 2 * s.protPages p 1

/-- A version given to a seal that has none of the page. -/
def addVersion (page vid : Nat) (bytes : List Byte) (x : Seal) : Seal :=
  if (look x.versions page).isSome then x else { x with versions := put x.versions page (vid, bytes) }

/-- A protection changed. -/
def State.setProt (s : State) (j : Nat) (p : Prot) : State := { s with surv := { s.surv with prots := put s.surv.prots j p } }

/-- The open seal abandoned on this device for want of a pool page (R445). -/
def State.voidOpen (s : State) (j : Nat) (p : Prot) : State :=
  match p.openSeal with
  | none => s
  | some x => (s.setProt j { p with openSeal := none, stage := .none, sealVoid := true, lastCode := 0x7028 }).raise 0x7813
      (leBytes 2 p.job ++ leBytes 4 x.generation ++ leBytes 2 0x7028)

/-- Whether the open seal of a job is one whose close has not frozen the pages yet (R440). -/
def Prot.opening (p : Prot) : Bool := match p.closing with | some c => c.begins | none => false

/-- Pool pages that a job's versions may take: those reserved for them and what is free (R437, R441). -/
def State.versionRoom (s : State) (p : Prot) : Nat := s.versionReserve p + s.surv.poolFree

/-- The first write to a frozen page since the freeze copies the page into a version page before it proceeds (R441), for the settled seal
and for an open one whose close has frozen the page; without a free pool page the open seal is abandoned, and the copy for the settled
seal waits for one (R445). -/
def State.touchProt (s : State) (a : Nat) (j : Nat) (p : Prot) : State :=
  match s.protPage p true true a with
  | none => s
  | some (page, size) =>
    if page ∈ p.frozen then
      let bytes := cellGets s.mem page (pageBytes size)
      let vid := s.surv.nextVersion
      let p0 := { p with frozen := drop1 p.frozen page, settled := p.settled.map (addVersion page vid bytes),
                         cowWaits := p.cowWaits.filter fun g => g != page }
      let p1 := { p0 with openSeal := if p.opening then p.openSeal else p.openSeal.map (addVersion page vid bytes) }
      let room := s.versionRoom p
      let s0 := { s with surv := { s.surv with nextVersion := vid + 1 } }.pageMoved page size false
      if versionPages p1 ≤ room then (s0.setProt j p1).bump (offTf 0x8040) 1
      else
        let s1 := (s0.setProt j p0).voidOpen j p0
        let p2 := (look s1.surv.prots j).getD p0
        if p2.settled.isSome ∧ room < versionPages p2 then s1.setProt j { p2 with cowWaits := p.cowWaits ++ [page] }
        else s1.bump (offTf 0x8040) 1
    else s

/-- Copies on first touch for every job that protects the page of an address. -/
def State.touch (s : State) (a : Nat) : State := s.surv.prots.foldl (fun t e => t.touchProt a e.1 (lookD t.surv.prots e.1 e.2)) s

/-- Mirror stores outstanding at a controller for all jobs (R429). -/
def State.mirrorsOut (s : State) (u : Nat) : Nat :=
  (s.surv.prots.map fun e => (e.2.mirrors.filter fun m => stackOf (m.1 * 128) == u).length).sum

/-- Whether a job's lines are mirrored now: protected and paired (R429), not lapsed (R448). -/
def State.mirroring (s : State) (p : Prot) : Bool :=
  s.surv.pair == .paired && (p.state == .baselining || p.state == .guarded)

/-- Whether a seal close holds a job's writes to its protected pages (R440 steps 3 to 5). -/
def Prot.holds (p : Prot) : Bool := match p.closing with | some c => c.phase != .step | none => false

/-- Whether a seal close holds writes to an address (R440 steps 3 to 5). -/
def State.holdsAt (s : State) (a : Nat) : Bool := s.surv.prots.any fun e => e.2.holds && (s.protPage e.2 true true a).isSome

/-- A write held until its close ends (R440). -/
def State.holdWrite (s : State) (w : HeldWrite) : State := { s with surv := { s.surv with heldWrites := s.surv.heldWrites ++ [w] } }

/-- First byte of the survival pool (R421). -/
def State.poolBase (s : State) : Nat := s.reg (offTf 0x8010) / 2 ^ 21 * 2 ^ 21

/-- A device-local address of the partner as a tray physical address (R387). -/
def State.partnerAddr (s : State) (a : Nat) : Nat := s.surv.partner * 2 ^ 45 + a

/-- The partner's node. -/
def State.partnerNode (s : State) : Nat := s.pins.strapTray * 8 + s.surv.partner

/-- Where an address lies among pages laid end to end. -/
def placeIn (l : List (Nat × Nat)) (a : Nat) : Nat :=
  (l.foldl (fun (r : Nat × Bool) g =>
    if r.2 then r
    else if decide (g.1 ≤ a) && decide (a < g.1 + pageBytes g.2) then (r.1 + (a - g.1), true)
    else (r.1 + pageBytes g.2, false)) (0, false)).1

/-- The pages of a job's entries of a class, in table order. -/
def State.classPages (s : State) (p : Prot) (cls : Nat) : List (Nat × Nat) :=
  p.entries.flatMap fun t => if t.cls = cls then s.entryPages t else []

/-- First byte of a job's region in the partner's pool, which the model takes to lie where this device's lies (log 30). -/
def State.regionBase (s : State) (p : Prot) : Nat := s.poolBase + p.twinBase * 0x20_0000

/-- A line sent to the partner's live image as a device-held LINE_STORE (R429, R430). -/
def State.sendMirror (s : State) (j ln : Nat) (p : Prot) : State :=
  (s.setProt j { p with mirrors := p.mirrors ++ [(ln, false)] }).send
    ⟨s.partnerNode, .mirror j ln, none, 0, none, p.job, s.partnerAddr (s.regionBase p + placeIn (s.classPages p 0) (ln * 128)),
      cellGets s.mem (ln * 128) 128, 0, false, 0, none⟩

/-- A line marked in a job's journal, and counted where its bit was clear (R429, R430, R462). -/
def State.markLine (s : State) (j ln : Nat) : State :=
  match look s.surv.prots j with
  | none => s
  | some p => if p.journal.contains ln then s
    else (s.setProt j { p with journal := p.journal ++ [ln] }).bump (offUu (stackOf (ln * 128)) 0x58) 1

/-- A line of a MIRROR page committed in HBM is sent, or marked in the journal (R429); one whose bit is set waits for the drain, and one
that is written again before its acknowledgement has its bit set (R430). -/
def State.mirrorProt (s : State) (ln : Nat) (j : Nat) (p : Prot) : State :=
  match s.protPage p true false (ln * 128) with
  | none => s
  | some _ =>
    let u := stackOf (ln * 128)
    let out := p.mirrors.any fun m => m.1 == ln
    if s.mirroring p && !out && !(p.journal.contains ln) && decide (s.mirrorsOut u < 64) then
      ((s.sendMirror j ln p).bump (offTf 0x8030) 1).bump (offUu u 0x50) 1
    else (s.setProt j { p with mirrors := p.mirrors.map fun m => if m.1 = ln then (ln, true) else m }).markLine j ln

/-- A committed line mirrored for every job that protects it. -/
def State.mirror (s : State) (ln : Nat) : State :=
  s.surv.prots.foldl (fun t e => if e.2.state = .off then t else t.mirrorProt ln e.1 (lookD t.surv.prots e.1 e.2)) s

/-- The uncorrectable halves that bytes from an address cover wholly become readable again, and their rows are remapped
(R307, R309). -/
def State.mendHalves (s : State) (a n : Nat) : State :=
  let cured := s.hbm.bad.filter fun h => decide (a ≤ h * 64) && decide (h * 64 + 64 ≤ a + n)
  { s with hbm := { s.hbm with bad := s.hbm.bad.filter fun h => !(decide (a ≤ h * 64) && decide (h * 64 + 64 ≤ a + n)),
                               remapping := cured.foldl (fun l h => addNew l (rowKey (h * 64))) s.hbm.remapping } }

/-- Bytes within one line put in HBM, after the copy on first touch (R441). -/
def State.hbmPut (s : State) (a : Nat) (bytes : List Byte) : State :=
  let s1 := s.touch a
  { s1 with mem := cellPuts s1.mem a bytes }

/-- Bytes within one line stored in HBM: the copy on first touch, the bytes, the mirror. -/
def State.hbmStore (s : State) (a : Nat) (bytes : List Byte) : State := (s.hbmPut a bytes).mirror (a / 128)

/-- The 64-byte halves that bytes touch, and those among them that they do not cover: a controller reads such a half first and merges,
because the check code covers 64 bytes (R295). -/
def halvesOf (a n : Nat) : Nat × Nat :=
  let l := (List.range ((a % 64 + n + 63) / 64)).map fun i => a / 64 + i
  (l.length, (l.filter fun h => !(decide (a ≤ h * 64) && decide (h * 64 + 64 ≤ a + n))).length)

/-- Bytes within one line written to HBM (R295, R307, R316); a seal close may hold them (R440). -/
def State.hbmWrite (s : State) (a : Nat) (bytes : List Byte) : State :=
  let h := halvesOf a bytes.length
  if s.holdsAt a then s.holdWrite ⟨none, a, bytes⟩
  else ((s.hbmStore a bytes).mendHalves a bytes.length).hbmWrote a (64 * h.2) (64 * h.1)

/-! ### The memory-side cache (R292-R300) -/

/-- The slices a partition owns, ascending. -/
def State.slices (s : State) (p : Nat) : List Nat := match look s.objs.parts p with | some k => k.slices | none => []

/-- Slice and set of a line of a partition (R293). -/
def State.placeOf (s : State) (p ln : Nat) : Nat × Nat :=
  let l := s.slices p
  let h := (ln ^^^ (ln >>> 11) ^^^ (ln >>> 22)) % 2 ^ 64
  ((l[h % max 1 l.length]?).getD 0, (ln ^^^ (ln >>> 10)) % 1024)

/-- A cached line. -/
def State.line (s : State) (ln : Nat) : Option Line := look s.cache.lines ln

/-- The lines of the cache changed. -/
def State.modLines (s : State) (f : Tab Line → Tab Line) : State := { s with cache := { s.cache with lines := f s.cache.lines } }

/-- The mask of `n` bytes at byte `o` of a line. -/
def lineMask (o n : Nat) : BitVec 128 := BitVec.ofNat 128 ((2 ^ n - 1) * 2 ^ o)

/-- Bytes of a line replaced from byte `o`. -/
def patch (data : List Byte) (o : Nat) (bytes : List Byte) : List Byte := data.take o ++ bytes ++ data.drop (o + bytes.length)

/-- A dirty 64-byte half of a line written back whole, its other bytes merged from HBM (R295). A half that reads uncorrectable is merged
all the same and stays uncorrectable, unless all of it is dirty (R307). -/
def State.writeHalf (s : State) (ln : Nat) (l : Line) (h : Nat) : State :=
  let a := ln * 128 + h * 64
  let d (i : Nat) : Bool := l.dirty.getLsbD (h * 64 + i)
  if !((List.range 64).any d) then s
  else if (List.range 64).all d then ((s.hbmPut a (sliceBytes l.data (h * 64) 64)).mendHalves a 64).hbmWrote a 0 64
  else
    let merged := (List.range 64).map fun i => if d i then (l.data[h * 64 + i]?).getD 0 else cellGet s.mem (a + i)
    (s.hbmPut a merged).hbmWrote a 64 64

/-- The dirty bytes of a line written back by 64-byte halves (R295); the line is mirrored once both are in HBM (R429). -/
def State.writeBack (s : State) (ln : Nat) (l : Line) : State :=
  if l.dirty = 0 then s else (((s.writeHalf ln l 0).writeHalf ln l 1).mirror ln).bump (offMcPart l.part 0x40) 1

/-- A line evicted: written back if it is dirty, and remembered in the slice's ring of 64 (R295, R300). -/
def State.evict (s : State) (ln : Nat) (l : Line) : State :=
  let s1 := s.writeBack ln l
  let n := lookD s1.cache.accesses (l.part * 512 + l.slice) 0
  let ring := lookD s1.cache.evicted l.slice [] ++ [(ln, n)]
  { s1 with cache := { s1.cache with lines := del s1.cache.lines ln,
                                     evicted := put s1.cache.evicted l.slice (ring.drop (ring.length - 64)) } }

/-- The victim among the unpinned ways of a set: a line inserted as least recently used first; else pseudo-least-recently-used,
which the spec does not state further: a free choice (log 12). -/
def State.victim (s : State) (slice set : Nat) : Option (Nat × Line) × State :=
  let ways := s.cache.lines.filter fun e => e.2.slice == slice && e.2.set == set
  let open_ := ways.filter fun e => !e.2.pinned
  if ways.length < 16 then (none, s)
  else match open_.find? fun e => e.2.age == 0 with
    | some e => (some e, s)
    | none => let d := s.draw; (open_[d.1.toNat % max 1 open_.length]?, d.2)

/-- An absent line installed with no valid byte, after the eviction of a victim where its set is full; `mru` inserts as most
recently used, else as least (R294, R295). -/
def State.install (s : State) (p ln : Nat) (mru : Bool) : State :=
  match s.line ln with
  | some _ => s
  | none =>
    let at_ := s.placeOf p ln
    let v := s.victim at_.1 at_.2
    let s1 := match v.1 with | some e => v.2.evict e.1 e.2 | none => v.2
    let age := if mru then s1.cache.clock + 1 else 0
    { s1 with cache := { s1.cache with
        lines := put s1.cache.lines ln ⟨at_.1, at_.2, p, 0, 0, List.replicate 128 0, false, age⟩,
        clock := s1.cache.clock + 1 } }

/-- Whether an HBM read of a line is outstanding (R296). -/
def State.missing (s : State) (ln : Nat) : Bool := s.cache.misses.any fun m => m.2.line == ln && m.2.held.isNone

/-- An access of a partition to a line at its slice counted: hit or miss, and a miss on a recently evicted line (R300). -/
def State.access (s : State) (p ln : Nat) (hit : Bool) : State :=
  let slice := (s.placeOf p ln).1
  let n := lookD s.cache.accesses (p * 512 + slice) 0
  let thrash := !hit && (lookD s.cache.evicted slice []).any fun e => e.1 == ln && decide (n - e.2 < 1024)
  let s0 := s.reachDie (slice / 32)
  let s1 := { s0 with cache := { s0.cache with accesses := put s0.cache.accesses (p * 512 + slice) (n + 1) } }
  let s2 := s1.bump (offMcPart p (if hit then 0x18 else 0x20)) 1
  if thrash then s2.bump (offMcPart p 0x38) 1 else s2

/-- A line used: most recent now. -/
def State.used (s : State) (ln : Nat) : State :=
  { s with cache := { s.cache with lines := upd s.cache.lines ln fun l => { l with age := s.cache.clock + 1 },
                                   clock := s.cache.clock + 1 } }

/-- Bytes of one line written into its cached copy, valid and dirty (R295). -/
def Line.write (l : Line) (o : Nat) (bytes : List Byte) : Line :=
  { l with data := patch l.data o bytes, valid := l.valid ||| lineMask o bytes.length,
           dirty := l.dirty ||| lineMask o bytes.length }

/-- Bytes of one line written through a partition's slices under a policy (R294, R295); a seal close may hold them (R440). -/
def State.writeLine (s : State) (p policy a : Nat) (bytes : List Byte) : State :=
  let ln := a / 128
  if s.holdsAt a then s.holdWrite ⟨some (p, policy), a, bytes⟩
  else match s.line ln with
  | some _ => ((s.access p ln true).modLines fun t => upd t ln fun l => l.write (a % 128) bytes).used ln
  | none =>
    let s0 := s.access p ln false
    let s1 := if s.missing ln then s0.bump (offMcPart p 0x30) 1 else s0
    if policy = 2 then s1.hbmWrite a bytes
    else (s1.install p ln (policy != 1)).modLines fun t => upd t ln fun l => l.write (a % 128) bytes

/-- Bytes from an address cut at line boundaries. -/
def lineCuts : Nat → Nat → List Byte → List (Nat × List Byte)
  | 0, _, _ => []
  | _, _, [] => []
  | n + 1, a, b :: bs =>
    let k := 128 - a % 128
    (a, (b :: bs).take k) :: lineCuts n (a + k) ((b :: bs).drop k)

/-- Bytes written to HBM through the slices of their home partition. -/
def State.cacheWrite (s : State) (p policy a : Nat) (bytes : List Byte) : State :=
  (lineCuts (bytes.length / 128 + 2) a bytes).foldl (fun t c => t.writeLine p policy c.1 c.2) s

/-- The writes that closes held go their way, in their order; one that another close holds goes on waiting (R440 step 5). -/
def State.releaseWrites (s : State) : State :=
  s.surv.heldWrites.foldl (fun (t : State) w => match w.slices with
    | some (p, policy) => t.writeLine p policy w.addr w.bytes
    | none => t.hbmWrite w.addr w.bytes) { s with surv := { s.surv with heldWrites := [] } }

/-- The pages of a protection that a command has made to wait for a version page. -/
def newWaits (p q : Prot) : List Nat := q.cowWaits.filter fun g => p.cowWaits.count g < q.cowWaits.count g

/-- The pages of one job's protection that a command has made to wait. -/
def State.waitsMade (s t : State) (j : Nat) : List Nat :=
  match look s.surv.prots j, look t.surv.prots j with
  | some p, some q => newWaits p q
  | _, _ => []

/-- The waits of a command for version pages, without its other effects: the open seals are abandoned (R445). -/
def State.waitForPages (s t : State) : State :=
  s.surv.prots.foldl (fun (r : State) e =>
    let l := s.waitsMade t e.1
    if l.isEmpty then r
    else
      let r1 := r.voidOpen e.1 e.2
      r1.setProt e.1 { lookD r1.surv.prots e.1 e.2 with cowWaits := l.foldl addNew e.2.cowWaits }) s

/-- Whether a command that led from one state to another has a write that must wait: a seal close holds it (R440), or the copy on its
first touch finds no version page (R445). -/
def State.mustWait (s t : State) : Bool :=
  decide (s.surv.heldWrites.length < t.surv.heldWrites.length) ||
    s.surv.prots.any fun e => !(s.waitsMade t e.1).isEmpty

/-- The state after a command that leads to `t`, where none of its writes must wait: else the command waits whole, and may be given again
(R440, R445, log 2). -/
def State.guarded (s t : State) : State := if s.mustWait t then s.waitForPages t else t

/-- The value of one byte of HBM that every agent sees: the valid byte of a cached copy, else HBM (R297). -/
def State.seeByte (s : State) (a : Nat) : Byte :=
  match s.line (a / 128) with
  | some l => if l.valid.getLsbD (a % 128) then (l.data[a % 128]?).getD 0 else cellGet s.mem a
  | none => cellGet s.mem a

/-- `n` bytes of HBM as every agent sees them. -/
def State.see (s : State) (a n : Nat) : List Byte := (List.range n).map fun i => s.seeByte (a + i)

/-- Whether a read of bytes meets an uncorrectable half that no cached byte covers (R307). -/
def State.seeBad (s : State) (a n : Nat) : Bool :=
  s.hbm.bad.any fun h => decide (h * 64 < a + n) && decide (a < h * 64 + 64) &&
    (List.range 64).any fun i =>
      let b := h * 64 + i
      decide (a ≤ b) && decide (b < a + n) &&
        match s.line (b / 128) with | some l => !l.valid.getLsbD (b % 128) | none => true

/-- A read recorded as outstanding. -/
def State.addMiss (s : State) (m : Miss) : State × Nat :=
  let k := s.cache.clock
  ({ s with cache := { s.cache with misses := put s.cache.misses k m, clock := k + 1 } }, k)

/-- A read miss counted, and the HBM read it sends: a repeat of one outstanding (R296), and one on a line of its slice's ring of dead
lines, for the reading context too (R302). Answers the miss. -/
def State.missLine (s : State) (p ctx ln : Nat) (m : Miss) : State × Option Nat :=
  let s1 := (s.access p ln false).reachDie (stackOf (ln * 128) / 2)
  let s2 := if s.missing ln then s1.bump (offMcPart p 0x30) 1 else s1
  let s3 := if ln ∈ lookD s.cache.dead (s.placeOf p ln).1 [] then
      (s2.bump (offMcPart p 0x58) 1).modCtx ctx fun c => { c with rereads := c.rereads + 1 } else s2
  let r := s3.addMiss m
  (r.1, some r.2)

/-- A read of bytes `o` to `o + n` of a line at a slice that serves: counted, and on a miss the HBM read it sends; a line with
valid bytes but not all of these is a partial miss (R295, R296). Answers the miss. -/
def State.readServed (s : State) (p policy ctx ln o n : Nat) (reader : Option (Nat × Nat)) : State × Option Nat :=
  let mask := lineMask o n
  match s.line ln with
  | some l =>
    if l.valid &&& mask = mask then ((s.access p ln true).used ln, none)
    else (if l.valid = 0 then s else s.bump (offMcPart p 0x28) 1).missLine p ctx ln ⟨ln, p, ctx, reader, true, policy != 1, policy == 3, none⟩
  | none => s.missLine p ctx ln ⟨ln, p, ctx, reader, policy != 2, policy != 1, policy == 3, none⟩

/-- A read of bytes of a line through a partition's slices (R295, R296); one that finds its slice's die asleep or out of lock wakes it, and
waits (R474, R477). Answers what it waits for. -/
def State.readLine (s : State) (p policy ctx ln o n : Nat) (reader : Option (Nat × Nat)) : State × Option Nat :=
  let d := (s.placeOf p ln).1 / 32
  if s.dieServes d then s.readServed p policy ctx ln o n reader
  else
    let r := (s.reachDie d).addMiss ⟨ln, p, ctx, reader, false, false, policy == 3, some (policy, o, n)⟩
    (r.1, some r.2)

/-- The line, byte and length cuts of a range. -/
def rangeCuts : Nat → Nat → Nat → List (Nat × Nat × Nat)
  | 0, _, _ => []
  | f + 1, a, n =>
    if n = 0 then [] else
    let k := min n (128 - a % 128)
    (a / 128, a % 128, k) :: rangeCuts f (a + k) (n - k)

/-- A range read through the slices: the state, and the misses it sent. -/
def State.readRange (s : State) (p policy ctx a n : Nat) (reader : Option (Nat × Nat)) : State × List Nat :=
  (rangeCuts (n / 128 + 2) a n).foldl (fun (t : State × List Nat) c =>
    let r := t.1.readLine p policy ctx c.1 c.2.1 c.2.2 reader
    (r.1, t.2 ++ r.2.toList)) (s, [])

/-- A line taken out of the cache without write-back. -/
def State.dropLine (s : State) (ln : Nat) : State := s.modLines fun t => del t ln

/-- The lines of a range taken out of the cache without write-back (R303). -/
def State.dropRange (s : State) (a n : Nat) : State :=
  s.modLines fun t => t.filter fun e => !(decide (a / 128 ≤ e.1) && decide (e.1 < (a + n) / 128))

/-- Pinned lines of a partition (R298). -/
def State.pinned (s : State) (p : Nat) : Nat := (s.cache.lines.filter fun e => e.2.part == p && e.2.pinned).length

/-! ### Translation (R291, R359) -/

/-- The mapping of a context that holds an address. -/
def Ctx.mapAt (c : Ctx) (va : Nat) : Option Mapping :=
  c.maps.find? fun m => decide (m.va ≤ va) && decide (va < m.va + m.pages * pageBytes m.pageSize)

/-- The device-local address of an address of a mapping, and its object's home partition. -/
def State.mapTo (s : State) (m : Mapping) (va : Nat) : Option (Nat × Nat) :=
  match look s.objs.mems m.obj with
  | some o => (o.pages[m.first + (va - m.va) / pageBytes m.pageSize]?).map fun g =>
      (g + (va - m.va) % pageBytes m.pageSize, o.part)
  | none => none

/-- A piece of a translated range: device-local address, bytes, home partition. -/
abbrev Piece := Nat × Nat × Nat

/-- The pieces of a range, page by page; none where a page is not mapped. -/
def State.pieces (s : State) (c : Ctx) : Nat → Nat → Nat → Option (List (Piece × Mapping))
  | 0, _, _ => some []
  | f + 1, va, n =>
    if n = 0 then some [] else
    match c.mapAt va with
    | none => none
    | some m =>
      match s.mapTo m va with
      | none => none
      | some (a, p) =>
        let k := min n (pageBytes m.pageSize - (va - m.va) % pageBytes m.pageSize)
        (s.pieces c f (va + k) (n - k)).map fun t => ((a, k, p), m) :: t

/-- A range of a context translated: its pieces, or MEM_UNMAPPED, MEM_READONLY or MEM_NO_READ (R291). Unmapped pages are
reported before rights. -/
def State.translate (s : State) (x va n : Nat) (rd wr : Bool) : Except Nat (List Piece) :=
  match s.ctx x with
  | none => .error 0x4001
  | some c =>
    if 2 ^ 56 < va + n then .error 0x4001 else
    match s.pieces c (n / 0x1_0000 + 2) va n with
    | none => .error 0x4001
    | some l =>
      if wr && l.any fun e => !e.2.write then .error 0x4002
      else if rd && l.any fun e => !e.2.read then .error 0x4006
      else .ok (l.map (·.1))

/-- The bytes of translated pieces as every agent sees them. -/
def State.seePieces (s : State) (l : List Piece) : List Byte := l.flatMap fun e => s.see e.1 e.2.1

/-- Whether a read of pieces meets an uncorrectable half. -/
def State.badPieces (s : State) (l : List Piece) : Bool := l.any fun e => s.seeBad e.1 e.2.1

/-- Bytes written to translated pieces through their home slices. -/
def State.writePieces (s : State) (policy : Nat) : List Piece → List Byte → State
  | [], _ => s
  | (a, k, p) :: l, bytes => State.writePieces (s.cacheWrite p policy a (bytes.take k)) policy l (bytes.drop k)

/-- An uncorrectable read counted at its controller (R307, R316). -/
def State.countUe (s : State) (u : Nat) : State := (s.bump (offHc u 0x20) 1).setBit (offHc u 0x08) 13

/-- Whether a half of a line reads uncorrectable. -/
def State.badLine (s : State) (ln : Nat) : Bool := s.hbm.bad.contains (2 * ln) || s.hbm.bad.contains (2 * ln + 1)

/-- Bytes of a line that the device reads at once for itself, through the partition's slices: a hit, or a miss and its HBM read, which it
does not install: under which policy it reads the spec does not say (DESIGN CHOICE, log 14). An uncorrectable half is counted (R307). -/
def State.fetchLine (s : State) (p ctx ln o n : Nat) : State :=
  let r := s.readServed p 2 ctx ln o n none
  match r.2 with
  | none => r.1
  | some i =>
    let u := stackOf (ln * 128)
    let s1 := { r.1 with cache := { r.1.cache with misses := del r.1.cache.misses i } }.hbmBytesMoved u 128 0
    if s1.badLine ln then s1.countUe u else s1

/-- Pieces that the device reads at once for itself: a descriptor, a statistics record, a word of an atomic (R314, R316). -/
def State.fetchPieces (s : State) (ctx : Nat) (l : List Piece) : State :=
  l.foldl (fun (t : State) e => (rangeCuts (e.2.1 / 128 + 2) e.1 e.2.1).foldl (fun (u : State) c => u.fetchLine e.2.2 ctx c.1 c.2.1 c.2.2) t) s

/-- Whether the slices and controllers that hold pieces serve (R474, R477). -/
def State.served (s : State) (l : List Piece) : Bool :=
  l.all fun e => (rangeCuts (e.2.1 / 128 + 2) e.1 e.2.1).all fun c =>
    s.dieServes ((s.placeOf e.2.2 c.1).1 / 32) && s.dieServes (stackOf (c.1 * 128) / 2)

/-- The dies whose slices and controllers hold pieces reached by a request (R477). -/
def State.reachPieces (s : State) (l : List Piece) : State :=
  l.foldl (fun (t : State) e => (rangeCuts (e.2.1 / 128 + 2) e.1 e.2.1).foldl (fun (u : State) c =>
    (u.reachDie ((u.placeOf e.2.2 c.1).1 / 32)).reachDie (stackOf (c.1 * 128) / 2)) t) s

/-- Pieces read through their home slices for a context, with their misses. -/
def State.readPieces (s : State) (policy ctx : Nat) (l : List Piece) (reader : Option (Nat × Nat)) : State × List Nat :=
  l.foldl (fun (t : State × List Nat) e =>
    let r := t.1.readRange e.2.2 policy ctx e.1 e.2.1 reader
    (r.1, t.2 ++ r.2)) (s, [])

/-! ### Local store (R283, R284) -/

/-- Whether an address lies in the local-store window's half of the space: bit 56 is set (R284). -/
def inLocal (va : Nat) : Bool := bit va 56

/-- The local-store offset of a window address; none with any of bits [55:24] set (R284). -/
def localOffset (va : Nat) : Option Nat := if fld va 24 32 = 0 then some (va % 2 ^ 24) else none

/-- The device-local address of a local-store byte: bank floor(o / 64) mod n at bank row floor(o / (64 n)) (R283, R387). -/
def localAddr (c eighths o : Nat) : Nat :=
  let n := max 1 (6 * eighths)
  0x1000_0000_0000 + c * 0x80_0000 + o / 64 % n * 0x2_0000 + o / (64 * n) * 64 + o % 64

/-- `n` bytes of a core's local store. -/
def State.lsRead (s : State) (c o n : Nat) : List Byte :=
  (List.range n).map fun i => cellGet s.mem (localAddr c (s.core c).lsEighths (o + i))

/-- Bytes written into a core's local store. -/
def State.lsWrite (s : State) (c o : Nat) : List Byte → State
  | [] => s
  | b :: bs => State.lsWrite { s with mem := cellPut s.mem (localAddr c (s.core c).lsEighths o) b } c (o + 1) bs

/-! ### Wipes (R311) -/

/-- A wipe starts (R311). -/
def State.startWipe (s : State) (w : Wipe) : State :=
  match firstFree (fun k => (look s.hbm.wipes k).isSome) (s.hbm.wipes.length + 1) with
  | some k => { s with hbm := { s.hbm with wipes := put s.hbm.wipes k w } }
  | none => s

/-! ### The core-private cache (R286) -/

/-- A core's private lines, the most recently used first. -/
def State.priv (s : State) (c : Nat) : List (Nat × List Byte) := lookD s.cache.priv c []

/-- A core's private lines set. -/
def State.setPriv (s : State) (c : Nat) (l : List (Nat × List Byte)) : State :=
  { s with cache := { s.cache with priv := put s.cache.priv c l } }

/-- Lines that this core writes leave its private cache. -/
def State.privDrop (s : State) (c : Nat) (lns : List Nat) : State :=
  if (s.priv c).isEmpty then s else s.setPriv c ((s.priv c).filter fun e => !lns.contains e.1)

/-- The lines of pieces. -/
def pieceLines (l : List Piece) : List Nat := l.flatMap fun e => (rangeCuts (e.2.1 / 128 + 2) e.1 e.2.1).map (·.1)

/-! ### Errors of core memory (R287) -/

/-- A line of a core's private cache discarded, to be fetched again. -/
def State.dropPriv (s : State) (c ln : Nat) : State :=
  { s with cache := { s.cache with priv := upd s.cache.priv c fun l => l.filter fun e => e.1 != ln } }

/-- An uncorrectable error counted, and ue_seen set (R287, R312). -/
def State.countCmUe (s : State) (c : Nat) : State := (s.bump (offCm c 0x28) 1).setBit (offCm c 0) 6

/-- A 64-byte half marked uncorrectable until a write covers it (R307). -/
def State.markBad (s : State) (h : Nat) : State := { s with hbm := { s.hbm with bad := addNew s.hbm.bad h } }

/-- Corrected errors of a row counted in the scrub interval: a row that reaches ce_row_thresh is to be remapped (R309). -/
def State.rowErrors (s : State) (k thresh n : Nat) : State :=
  let m := lookD s.hbm.rowErr k 0 + n
  { s with hbm := { s.hbm with rowErr := put s.hbm.rowErr k m,
                               remapping := if thresh ≤ m ∧ 0 < n then addNew s.hbm.remapping k else s.hbm.remapping } }

/-- The threshold of a controller in effect (R309, R316). -/
def State.rowThresh (s : State) (u : Nat) : Nat := max 1 (fld (s.reg (offHc u 0)) 8 4)

/-- What the check code reports of a half: a corrected error is counted at its controller and for its row, an uncorrectable one marks the
half (R307, R309). -/
def State.eccHalf (s : State) (h : Nat) (e : EccErr) : State :=
  match e with
  | .none => s
  | .corrected => (s.bump (offHc (stackOf (h * 64)) 0x18) 1).rowErrors (rowKey (h * 64)) (s.rowThresh (stackOf (h * 64))) 1
  | .uncorrectable => s.markBad h

/-- What the checks of core memory report to an access of an engine, and whether the access stops: a corrected error is counted, an
uncorrectable one of local store or frame area kills the context, one of the private cache discards the line (R287). An error of
an engine's own registers is the engine's. -/
def State.coreErr (s : State) (c : Nat) : CoreErr → State × Bool
  | .none => (s, false)
  | .corrected => (s.bump (offCm c 0x20) 1, false)
  | .uncorrectable => (((s.countCmUe c).modCore c fun k => { k with faulty := true }).faultCore c 0x4011 0, true)
  | .privLine ln => if (lookD s.cache.priv c []).any fun e => e.1 == ln then ((s.countCmUe c).dropPriv c ln, false) else (s, false)
  | .parity => (s, false)

end Sys2Proof.Machine
end

