-- ==== Sys2Proof/Machine/Num.lean ====
section
/-! DEFINITION. Numbers: exact dyadic values, the element formats and their encodings (R17-R32), FP32 arithmetic, A40 and its
two roundings (R22-R31, R86, R93), and the counter generator (R273, R275). -/

namespace Sys2Proof.Machine

open Sys2Proof

/-! ### Exact values -/

/-- Positive zero. -/
def zero : Exact := .fin false 0 0

/-- The integer mantissa of a value at exponent `q`, exact when `q` is at most its exponent. -/
def alignTo (neg : Bool) (m : Nat) (e q : Int) : Int :=
  let v : Int := (m * 2 ^ (e - q).toNat : Nat)
  if neg then -v else v

/-- The exact sum of two values: an exact zero is +0 unless both are -0 (R86). -/
def addN : Exact → Exact → Exact
  | .nan, _ => .nan
  | _, .nan => .nan
  | .inf a, .inf b => if a = b then .inf a else .nan
  | .inf a, _ => .inf a
  | _, .inf b => .inf b
  | .fin a m e, .fin b n f =>
    let q := min e f
    let v := alignTo a m e q + alignTo b n f q
    if v = 0 then .fin (a && b && m == 0 && n == 0) 0 0 else .fin (v < 0) v.natAbs q

/-- The exact product. -/
def mulN : Exact → Exact → Exact
  | .nan, _ => .nan
  | _, .nan => .nan
  | .inf a, .inf b => .inf (a != b)
  | .inf a, .fin b n _ => if n = 0 then .nan else .inf (a != b)
  | .fin a m _, .inf b => if m = 0 then .nan else .inf (a != b)
  | .fin a m e, .fin b n f => .fin (a != b) (m * n) (e + f)

/-- The value with its sign turned. -/
def negN : Exact → Exact
  | .fin a m e => .fin (!a) m e
  | .inf a => .inf (!a)
  | .nan => .nan

/-- The value times 2^k. -/
def scaleN (k : Int) : Exact → Exact
  | .fin a m e => .fin a m (e + k)
  | x => x

/-- The magnitude. -/
def absN : Exact → Exact
  | .fin _ m e => .fin false m e
  | .inf _ => .inf false
  | .nan => .nan

/-- Whether a value is finite. -/
def finiteN : Exact → Bool
  | .fin _ _ _ => true
  | _ => false

/-- Whether a value is NaN. -/
def isNan : Exact → Bool
  | .nan => true
  | _ => false

/-- Whether a value is a zero. -/
def zeroN : Exact → Bool
  | .fin _ m _ => m == 0
  | _ => false

/-- Whether the first value is below the second; false with a NaN (IEEE 754). -/
def ltN : Exact → Exact → Bool
  | .nan, _ => false
  | _, .nan => false
  | .inf a, .inf b => a && !b
  | .inf a, _ => a
  | _, .inf b => !b
  | .fin a m e, .fin b n f => decide (alignTo a m e (min e f) < alignTo b n f (min e f))

/-- floor(log2) of the magnitude of a finite value that is not 0. -/
def log2N : Exact → Int
  | .fin _ m e => (Nat.log2 m : Int) + e
  | _ => 0

/-- The larger of two values (the first where neither is smaller). -/
def maxN (a b : Exact) : Exact := if ltN a b then b else a

/-! ### Rounding -/

/-- m × 2^e rounded to a multiple of 2^q, to nearest with ties to even, in units of 2^q (R25). -/
def rne (m : Nat) (e q : Int) : Nat :=
  if q ≤ e then m * 2 ^ (e - q).toNat
  else
    let d := (q - e).toNat
    let a := m / 2 ^ d
    let r := m % 2 ^ d
    if 2 ^ d < 2 * r ∨ (2 * r = 2 ^ d ∧ a % 2 = 1) then a + 1 else a

/-- The exponent of the last place of a grid of `f` fraction bits with least exponent `lo`, at a magnitude m × 2^e. -/
def ulpExp (f : Nat) (lo : Int) (m : Nat) (e : Int) : Int := max ((Nat.log2 m : Int) + e) lo - f

/-- The magnitude code, exponent field above fraction, of m × 2^e rounded on a grid of `f` fraction bits and bias `b` with an
unbounded exponent range (R27). -/
def magCode (f b m : Nat) (e : Int) : Nat :=
  if m = 0 then 0
  else
    let q := ulpExp f (1 - (b : Int)) m e
    (((q + f + b) * 2 ^ f : Int) + rne m e q - 2 ^ f).toNat

/-- An IEEE format of `f` fraction bits and 8 exponent bits: FP32, BF16, A40 (R22, R23, R28, R29). -/
def encIeee (f : Nat) : Exact → Nat
  | .nan => 255 * 2 ^ f + 2 ^ (f - 1)
  | .inf a => b2n a * 2 ^ (f + 8) + 255 * 2 ^ f
  | .fin a m e => b2n a * 2 ^ (f + 8) + min (magCode f 127 m e) (255 * 2 ^ f)

/-- The value of an encoding of `f` fraction bits and 8 exponent bits (R22, R23). -/
def decIeee (f v : Nat) : Exact :=
  let a := bit v (f + 8)
  let x := fld v f 8
  let m := v % 2 ^ f
  if x = 255 then (if m = 0 then .inf a else .nan)
  else if x = 0 then .fin a m (-126 - (f : Int))
  else .fin a (2 ^ f + m) ((x : Int) - 127 - f)

/-- FP32 as bits (R22). -/
def encF32 (x : Exact) : W32 := BitVec.ofNat 32 (encIeee 23 x)
/-- FP32 value. -/
def decF32 (w : W32) : Exact := decIeee 23 w.toNat
/-- BF16 as bits (R22). -/
def encBf16 (x : Exact) : Nat := encIeee 7 x
/-- BF16 value. -/
def decBf16 (v : Nat) : Exact := decIeee 7 (v % 2 ^ 16)
/-- A40 rounded to nearest with ties to even (R23, R86). -/
def encA40 (x : Exact) : A40 := BitVec.ofNat 40 (encIeee 31 x)
/-- A40 value. -/
def decA40 (w : A40) : Exact := decIeee 31 w.toNat

/-- The value rounded once to FP32. -/
def rF32 (x : Exact) : Exact := decF32 (encF32 x)
/-- The value rounded once to BF16. -/
def rBf16 (x : Exact) : Exact := decBf16 (encBf16 x)

/-- FP32 sum, rounded once. -/
def addF (a b : Exact) : Exact := rF32 (addN a b)
/-- FP32 product, rounded once. -/
def mulF (a b : Exact) : Exact := rF32 (mulN a b)
/-- FP32 fused multiply-add, rounded once. -/
def fmaF (a b c : Exact) : Exact := rF32 (addN (mulN a b) c)

/-- A quotient of magnitudes to 64 more bits than the divisor, with a sticky bit: rounding it once rounds the exact quotient. -/
def divMag (m n : Nat) : Nat :=
  let k := Nat.log2 n + 64
  2 * (m * 2 ^ k / n) + b2n (m * 2 ^ k % n != 0)

/-- FP32 quotient, rounded once (IEEE 754). -/
def divF : Exact → Exact → Exact
  | .nan, _ => .nan
  | _, .nan => .nan
  | .inf _, .inf _ => .nan
  | .inf a, .fin b _ _ => .inf (a != b)
  | .fin a _ _, .inf b => .fin (a != b) 0 0
  | .fin a m e, .fin b n f =>
    if n = 0 then (if m = 0 then .nan else .inf (a != b))
    else rF32 (.fin (a != b) (divMag m n) (e - f - (Nat.log2 n + 64) - 1))

/-- FP32 square root, rounded once (IEEE 754). -/
def sqrtF : Exact → Exact
  | .nan => .nan
  | .inf a => if a then .nan else .inf false
  | .fin a m e =>
    if m = 0 then .fin a 0 0
    else if a then .nan
    else
      let k : Nat := if (e % 2 = 0) then 128 else 129
      let w := m * 2 ^ k
      let r := Nat.sqrt w
      rF32 (.fin false (2 * r + b2n (r * r != w)) ((e - k) / 2 - 1))

/-! ### The narrow formats (R18, R19) -/

/-- Mantissa bits of a narrow format code. -/
def fmtM (f : Nat) : Nat := if f = 2 then 2 else if f = 3 then 3 else if f = 4 then 2 else if f = 5 then 3 else 1
/-- Format bias b of a narrow format code (R19). -/
def fmtB (f : Nat) : Nat := if f = 2 then 15 else if f = 3 then 7 else if f = 4 then 3 else 1
/-- Largest finite code without its sign (R19). -/
def fmtMax (f : Nat) : Nat := if f = 2 then 0x7B else if f = 3 then 0x7E else if f = 4 then 0x1F else if f = 5 then 0x1F else 0x7
/-- Bits of an element of a format (R17). -/
def fmtBits (f : Nat) : Nat :=
  if f = 0 then 32 else if f = 1 then 16 else if f ≤ 3 then 8 else if f ≤ 5 then 6 else if f = 6 then 4 else if f = 7 then 64 else 8
/-- The five narrow formats (R17). -/
def isNarrow (f : Nat) : Bool := decide (2 ≤ f) && decide (f ≤ 6)
/-- Top exponent of a narrow format (R46). -/
def emax (f : Nat) : Int := if f = 2 then 15 else if f = 3 then 8 else if f = 4 then 4 else 2

/-- The element value of a narrow code, without its block exponent (R18, R19). -/
def decNarrow (f c : Nat) : Exact :=
  let w := fmtBits f
  let a := bit c (w - 1)
  let mag := c % 2 ^ (w - 1)
  let mb := fmtM f
  if f = 2 ∧ mag = 0x7C then .inf a
  else if (f = 2 ∧ 0x7C < mag) ∨ (f = 3 ∧ mag = 0x7F) then .nan
  else
    let x := mag / 2 ^ mb
    let m := mag % 2 ^ mb
    if x = 0 then .fin a m (1 - (fmtB f : Int) - mb) else .fin a (2 ^ mb + m) ((x : Int) - fmtB f - mb)

/-- A value q = v / 2^E written as a narrow element: the code, and whether the write was a substitution (R25-R30). -/
def encNarrow (f : Nat) (ovf : Bool) (x : Exact) : Nat × Bool :=
  let sgn (a : Bool) : Nat := b2n a * 2 ^ (fmtBits f - 1)
  match x with
  | .nan => if f = 2 then (0x7E, false) else if f = 3 then (0x7F, false) else (0, true)
  | .inf a =>
    if ovf ∧ f = 2 then (sgn a + 0x7C, false) else if ovf ∧ f = 3 then (0x7F, false) else (sgn a + fmtMax f, true)
  | .fin a m e =>
    let c := magCode (fmtM f) (fmtB f) m e
    if c ≤ fmtMax f then (sgn a + c, false)
    else if ovf ∧ f = 2 then (sgn a + 0x7C, false)
    else if ovf ∧ f = 3 then (0x7F, false)
    else (sgn a + fmtMax f, false)

/-- The R27 test: the rounded magnitude exceeds the largest finite one. -/
def overflows (f : Nat) : Exact → Bool
  | .fin _ m e => decide (fmtMax f < magCode (fmtM f) (fmtB f) m e)
  | _ => false

/-- needed_exponent of R46: the smallest block exponent at which the largest finite magnitude does not overflow; none for a
block without magnitude. -/
def neededExponent (f : Nat) (vs : List Exact) : Option Int :=
  let amax := (vs.filter finiteN).foldl (fun a v => maxN a (absN v)) zero
  if zeroN amax then none
  else
    let e := log2N amax - emax f
    some (if overflows f (scaleN (-e) amax) then e + 1 else e)

/-- The value of an element of any format by its code and, for a narrow one, its block exponent (R20). -/
def decodeFmt (f c : Nat) (bexp : Int) : Exact :=
  if f = 0 then decIeee 23 c else if f = 1 then decBf16 c else if f = 7 then decIeee 31 (c % 2 ^ 40)
  else scaleN bexp (decNarrow f c)

/-! ### A40 addition (R85, R86, R93) -/

/-- The A40 grid's unit in the last place at a magnitude. -/
def a40Ulp (m : Nat) (e : Int) : Int := ulpExp 31 (-126) m e

/-- round_sr of R93 with a grid of `f` fraction bits: stochastic rounding of an exact value by a 16-bit word. -/
def roundSr (f : Nat) (x : Exact) (w : Nat) : Nat :=
  match x with
  | .fin a m e =>
    if m = 0 then encIeee f x
    else
      let q := ulpExp f (-126) m e
      if q ≤ e then encIeee f x
      else
        let d := (q - e).toNat
        let t := m / 2 ^ d
        let frac := m % 2 ^ d * 2 ^ 16 / 2 ^ d
        if m % 2 ^ d = 0 then encIeee f x
        else if 2 ^ 16 ≤ frac + w then encIeee f (.fin a (t + 1) q) else encIeee f (.fin a t q)
  | _ => encIeee f x

/-- An A40 addition of a contribution: rounded to nearest, or stochastically with a word (R86, R93). -/
def addA40 (acc : A40) (b : Exact) (sr : Option Nat) : A40 :=
  let x := addN (decA40 acc) b
  match sr with
  | none => encA40 x
  | some w => BitVec.ofNat 40 (roundSr 31 x w)

/-! ### Philox-4x32-10 (R273) -/

/-- One round. -/
def philoxRound (k : Nat × Nat) (c : Nat × Nat × Nat × Nat) : Nat × Nat × Nat × Nat :=
  let p := 0xD251_1F53 * c.1
  let q := 0xCD9E_8D57 * c.2.2.1
  ((q / 2 ^ 32 ^^^ c.2.1) ^^^ k.1, q % 2 ^ 32, (p / 2 ^ 32 ^^^ c.2.2.2) ^^^ k.2, p % 2 ^ 32)

/-- `n` rounds, the key raised between rounds. -/
def philoxRounds : Nat → Nat × Nat → Nat × Nat × Nat × Nat → Nat × Nat × Nat × Nat
  | 0, _, c => c
  | n + 1, k, c => philoxRounds n ((k.1 + 0x9E37_79B9) % 2 ^ 32, (k.2 + 0xBB67_AE85) % 2 ^ 32) (philoxRound k c)

/-- The 128-bit output, x0 lowest (R273). -/
def philox (k0 k1 c0 c1 c2 c3 : Nat) : Nat :=
  let x := philoxRounds 10 (k0 % 2 ^ 32, k1 % 2 ^ 32) (c0 % 2 ^ 32, c1 % 2 ^ 32, c2 % 2 ^ 32, c3 % 2 ^ 32)
  x.1 + x.2.1 * 2 ^ 32 + x.2.2.1 * 2 ^ 64 + x.2.2.2 * 2 ^ 96

/-- The 32-bit word of a thread draw: purpose 0 of R275. -/
def threadWord (key layer tile e step : Nat) : Nat :=
  fld (philox (key % 2 ^ 32 ^^^ tile) (key / 2 ^ 32 ^^^ (layer * 2 ^ 16)) (e / 4) 0 step (step / 2 ^ 32)) (32 * (e % 4)) 32

/-- The 16-bit rounding word of index `i`: purpose 1 of R275. -/
def roundWord (key pos tag rank ordinal arr attempt i : Nat) : Nat :=
  fld (philox (key % 2 ^ 32 ^^^ pos % 2 ^ 32) (key / 2 ^ 32 ^^^ (tag * 2 ^ 16) ^^^ (rank * 16) ^^^ 1) (i / 8)
    (16 * ordinal + arr) attempt (attempt / 2 ^ 32)) (16 * (i % 8)) 16

end Sys2Proof.Machine
end

