-- ==== Sys2Proof/Machine/Operands.lean ====
section
/-! DEFINITION. Operands: tensor descriptors with their checks (R155-R159), element addresses and codes (R21, R158), and bytes
by context virtual address, in local store or in HBM (R284, R291). -/

namespace Sys2Proof.Machine

open Sys2Proof

/-! ### Bytes by virtual address -/

/-- Bytes of the frame area of a kernel's member (R216). -/
def frameBytes (k : Kernel) : Nat := if k.program.isSome then min (k.lsEighths * 0x1_8000) 0x8_0000 else 0

/-- Bytes of the context's local store on a core (R283): ls_eighths * 768 KiB less the frame area. -/
def State.lsLimit (s : State) (c : Nat) : Nat :=
  match s.coreSeq c with
  | some (_, q) => (s.core c).lsEighths * 0xC_0000 - frameBytes q.kernel
  | none => 0

/-- Whether `n` bytes at a window address lie in the context's local store (R284). -/
def State.inLs (s : State) (c va n : Nat) : Bool :=
  match localOffset va with
  | some o => inLocal va && decide (va < 2 ^ 57) && decide (o + n ≤ s.lsLimit c)
  | none => false

/-- The byte at a virtual address as a core's engine reads it. -/
def State.vaByte (s : State) (c x va : Nat) : Byte :=
  if inLocal va then cellGet s.mem (localAddr c (s.core c).lsEighths (va % 2 ^ 24))
  else match s.ctx x with
    | some k => match k.mapAt va with
      | some m => match s.mapTo m va with | some (a, _) => s.seeByte a | none => 0
      | none => 0
    | none => 0

/-- `n` bytes at a virtual address. -/
def State.vaRead (s : State) (c x va n : Nat) : List Byte := (List.range n).map fun i => s.vaByte c x (va + i)

/-- Bytes written at a virtual address under a policy; unmapped addresses are checked before. -/
def State.vaWrite (s : State) (c x policy va : Nat) (bytes : List Byte) : State :=
  if inLocal va then s.lsWrite c (va % 2 ^ 24) bytes
  else match s.translate x va bytes.length false false with
    | .ok l => s.writePieces policy l bytes
    | .error _ => s

/-- Whether `n` bytes at an address may be reached, with the code of the failure: ME_LS_RANGE is a fault and is told apart by
its code (R284, R291). -/
def State.vaCheck (s : State) (c x va n : Nat) (rd wr : Bool) : Option Nat :=
  if inLocal va then (if s.inLs c va n then none else some 0x4010)
  else match s.translate x va n rd wr with | .ok _ => none | .error e => some e

/-! ### Descriptors -/

/-- The fields of a descriptor's 64 bytes (R156). -/
def parseDesc (h : Nat) (b : List Byte) : Desc :=
  let at_ := leAt b 0x14 4
  let base := leAt b 0 8
  { handle := h, base := base % 2 ^ 57, scaleOff := signed (leAt b 8 4) 32, statsOff := signed (leAt b 0xC 4) 32,
    rankStride := leAt b 0x10 4, fmt := fld at_ 0 4, blk := 16 * 2 ^ fld at_ 4 2, ovf := bit at_ 6, valid := bit at_ 7,
    bias := signed (fld at_ 8 8) 8, policy := fld at_ 16 3, part := fld at_ 19 7, writable := bit at_ 26,
    dims := fld at_ 27 3, sizes := (List.range 6).map fun i => fld (leAt b 0x18 18) (24 * i) 24 + 1,
    strides := (List.range 5).map fun i => leAt b (0x2C + 4 * i) 4,
    reserved := base / 2 ^ 57 != 0 || fld at_ 30 2 != 0 || leAt b 0x2A 2 != 0 }

/-- The sizes of the dimensions a descriptor has. -/
def Desc.dimSizes (d : Desc) : List Nat := d.sizes.take d.dims

/-- The strides of dimensions 0 to dims - 1. -/
def Desc.dimStrides (d : Desc) : List Nat := (1 :: d.strides).take d.dims

/-- The number of elements at one rank. -/
def Desc.count (d : Desc) : Nat := d.dimSizes.foldl (· * ·) 1

/-- The partition row of R159 and R292: the home partition of the object that holds the base, which a context may name when it is
its own or that of an object shared with it on its port; for a base that no object holds, the context's own. -/
def State.partitionOk (s : State) (x : Nat) (d : Desc) : Bool :=
  let own := match s.ctx x with | some c => c.part | none => 128
  let holder : Option MemObj := match s.ctx x with
    | some c => match c.mapAt d.base with | some m => look s.objs.mems m.obj | none => none
    | none => none
  match (if inLocal d.base then none else holder) with
  | none => d.part == own
  | some o => d.part == o.part &&
      (d.part == own || s.partPort d.part == s.partPort own && o.shares.any fun h => h.1 == x)

/-- R159's check of a descriptor in a context: the code of the first failing row. -/
def State.checkDesc (s : State) (x : Nat) (d : Desc) (dest : Bool) : Option Nat :=
  let strides := d.rankStride :: (d.strides.take (d.dims - 1))
  if !d.valid || d.handle == 0 then some 0x4020
  else if 9 ≤ d.fmt then some 0x1001
  else if d.dims = 0 ∨ d.dims = 7 ∨ d.reserved ∨ 4 ≤ d.policy then some 0x4021
  else if isNarrow d.fmt ∧ strides.any (fun t => t % d.blk != 0) then some 0x4021
  else if (d.fmt = 4 ∨ d.fmt = 5) ∧ strides.any (fun t => t % 4 != 0) ∨ d.fmt = 6 ∧ strides.any (fun t => t % 2 != 0) then some 0x4021
  else if dest ∧ !d.writable then some 0x4022
  else if s.partitionOk x d then none else some 0x4023

/-- The check of an auxiliary tensor's descriptor: only valid, partition and writable (R242). -/
def State.checkAux (s : State) (x : Nat) (d : Desc) (dest : Bool) : Option Nat :=
  if !d.valid || d.handle == 0 then some 0x4020
  else if dest ∧ !d.writable then some 0x4022
  else if s.partitionOk x d then none else some 0x4023

/-- The descriptor of a handle as it stands in a context's table, unchecked (R155). -/
def State.readDesc (s : State) (x h : Nat) : Except Nat Desc :=
  match s.ctx x with
  | none => .error 0x4020
  | some c =>
    match c.descTable with
    | none => .error 0x4020
    | some t =>
      if h = 0 then .error 0x4020
      else match s.translate x (t + h * 64) 64 true false with
        | .error e => .error e
        | .ok l => if s.badPieces l then .error 0x4003 else .ok (parseDesc h (s.seePieces l))

/-- Descriptors read through the slices of their table's pages (R155, R314, R316); handle 0 is never read. -/
def State.readDescs (s : State) (x : Nat) (hs : List Nat) : State :=
  match (s.ctx x).bind fun c => c.descTable with
  | none => s
  | some t => hs.foldl (fun (u : State) h =>
      if h = 0 then u else match u.translate x (t + h * 64) 64 true false with
        | .ok l => u.fetchPieces x l
        | .error _ => u) s

/-- A descriptor of a context by handle, checked under R159. -/
def State.desc (s : State) (x h : Nat) (dest : Bool) : Except Nat Desc :=
  match s.readDesc x h with
  | .error e => .error e
  | .ok d => match s.checkDesc x d dest with
    | some e => .error e
    | none => .ok d

/-- An auxiliary tensor's descriptor by handle (R242). -/
def State.aux (s : State) (x h : Nat) (dest : Bool) : Except Nat Desc :=
  match s.readDesc x h with
  | .error e => .error e
  | .ok d => match s.checkAux x d dest with
    | some e => .error e
    | none => .ok d

/-- The first byte of an auxiliary tensor at a rank (R242). -/
def Desc.auxBase (d : Desc) (r : Nat) : Nat := d.base + d.rankStride * r

/-- The bytes of an auxiliary tensor (R242). -/
def Desc.auxBytes (d : Desc) : Nat := (d.sizes.head?).getD 0

/-- The context address of a handle's descriptor. -/
def State.descAddr (s : State) (x h : Nat) : Nat :=
  match s.ctx x with | some c => c.descTable.getD 0 + h * 64 | none => 0

/-- One byte of a descriptor written by a core (R157): offset 0x15 is tensor_bias, 0x14 holds the format. The line leaves the core's
private cache (R286). -/
def State.writeDescByte (s : State) (c x h o : Nat) (b : Byte) : State :=
  match s.translate x (s.descAddr x h + o) 1 false false with
  | .ok l => (s.writePieces 0 l [b]).privDrop c (pieceLines l)
  | .error _ => s

/-- The tensor bias a descriptor holds now. -/
def State.descBias (s : State) (x h : Nat) : Int :=
  match s.translate x (s.descAddr x h + 0x15) 1 false false with
  | .ok l => signed (leNat (s.seePieces l)) 8
  | .error _ => 0

/-! ### Elements (R21, R158) -/

/-- The indices of the `n`-th element, dimension 0 fastest. -/
def unrank : List Nat → Nat → List Nat
  | [], _ => []
  | d :: ds, n => n % max 1 d :: unrank ds (n / max 1 d)

/-- Element offset of indices at a rank (R158). -/
def Desc.offset (d : Desc) (r : Nat) (idx : List Nat) : Nat :=
  d.rankStride * r + (List.zipWith (· * ·) idx d.dimStrides).sum

/-- The element offsets of a whole tensor at a rank, dimension 0 fastest. -/
def Desc.offsets (d : Desc) (r : Nat) : List Nat := (List.range d.count).map fun n => d.offset r (unrank d.dimSizes n)

/-- First byte of an element. -/
def Desc.byteOf (d : Desc) (o : Nat) : Nat := d.base + o * fmtBits d.fmt / 8

/-- Bytes of the range from an element to another, both whole: an FP6 group and an FP4 byte are whole (R158). -/
def Desc.spanEnd (d : Desc) (o : Nat) : Nat :=
  if d.fmt = 4 ∨ d.fmt = 5 then d.base + (o / 4 + 1) * 3 else d.base + ((o + 1) * fmtBits d.fmt + 7) / 8

/-- The byte range (address, length) of a whole tensor at a rank: from its first element to its last. -/
def Desc.range (d : Desc) (r : Nat) : Nat × Nat :=
  let lo := d.offset r []
  let hi := d.offset r (d.dimSizes.map (· - 1))
  let a := if d.fmt = 4 ∨ d.fmt = 5 then d.base + lo / 4 * 3 else d.byteOf lo
  (a, d.spanEnd hi - a)

/-- Base of the scale array (R156). -/
def Desc.scaleBase (d : Desc) : Nat := ((d.base / 64 * 64 : Nat) + d.scaleOff * 64 : Int).toNat

/-- Address of the statistics record (R156). -/
def Desc.statsBase (d : Desc) : Nat := ((d.base / 64 * 64 : Nat) + d.statsOff * 64 : Int).toNat

/-- The scale byte range of a narrow tensor at a rank. -/
def Desc.scaleRange (d : Desc) (r : Nat) : Nat × Nat :=
  let lo := d.offset r [] / d.blk / 2
  let hi := d.offset r (d.dimSizes.map (· - 1)) / d.blk / 2
  (d.scaleBase + lo, hi + 1 - lo)

/-- The code of an element. -/
def State.elemCode (s : State) (c x : Nat) (d : Desc) (o : Nat) : Nat :=
  let p := o * fmtBits d.fmt
  fld (leNat (s.vaRead c x (d.base + p / 8) (if fmtBits d.fmt < 8 then 2 else fmtBits d.fmt / 8))) (p % 8) (fmtBits d.fmt)

/-- The bytes of an element code written, the other bits of its bytes kept. -/
def State.setElem (s : State) (c x : Nat) (d : Desc) (o code : Nat) : State :=
  let w := fmtBits d.fmt
  let p := o * w
  let n := (p % 8 + w + 7) / 8
  let a := d.base + p / 8
  if w % 8 = 0 then s.vaWrite c x d.policy a (leBytes (w / 8) code)
  else s.vaWrite c x d.policy a (leBytes n (setFld (leNat (s.vaRead c x a n)) (p % 8) w code))

/-- The scale code of block `j` (R21). -/
def State.scaleCode (s : State) (c x : Nat) (d : Desc) (j : Nat) : Nat :=
  fld (s.vaByte c x (d.scaleBase + j / 2)).toNat (4 * (j % 2)) 4

/-- The scale code of block `j` written. -/
def State.setScale (s : State) (c x : Nat) (d : Desc) (j code : Nat) : State :=
  let a := d.scaleBase + j / 2
  s.vaWrite c x d.policy a [BitVec.ofNat 8 (setFld (s.vaByte c x a).toNat (4 * (j % 2)) 4 code)]

/-- The block exponent of an element under a bias (R20). -/
def State.blockExp (s : State) (c x : Nat) (d : Desc) (bias : Int) (o : Nat) : Int :=
  if isNarrow d.fmt then bias + s.scaleCode c x d (o / d.blk) - 8 else 0

/-- The value of an element, with the block exponent of its tensor bias (R20, R25). -/
def State.elem (s : State) (c x : Nat) (d : Desc) (o : Nat) : Exact :=
  decodeFmt d.fmt (s.elemCode c x d o) (s.blockExp c x d d.bias o)

/-- The code of a value in an unscaled format (R22-R24). A COPY or COLL may name an A40 tensor too: R17 limits A40 and names no code for
another use (DESIGN CHOICE, log 63). -/
def encWide (f : Nat) (v : Exact) : Nat := if f = 0 then encIeee 23 v else if f = 1 then encIeee 7 v else encIeee 31 v

/-- What an atomic leaves in a word of `w` bits (R211, R393): the operand and the old value are unsigned. -/
def atomicOp (op : AtomicKind) (w old x : Nat) : Nat :=
  match op with
  | .add => (old + x) % 2 ^ w
  | .max => max old x
  | .min => min old x
  | .swap => x
  | .or => old ||| x

end Sys2Proof.Machine
end

