-- ==== Sys2Proof/Machine/Engines.lean ====
section
/-! DEFINITION. Queues, stream positions, outstanding work, token channels and the fetch of streams (R133-R147, R178-R182): what
the stream commands of every engine share. -/

namespace Sys2Proof.Machine

open Sys2Proof

/-! ### Queues of a core -/

/-- The queue of an engine (R133). -/
def Core.queue (k : Core) : Engine → List Entry
  | .te => k.teQ
  | .ge => k.geQ
  | .me => k.meQ

/-- The stream position of an engine (R133). -/
def Core.pos (k : Core) : Engine → Nat
  | .te => k.tePos
  | .ge => k.gePos
  | .me => k.mePos

/-- An engine's queue and position set. -/
def Core.setQueue (k : Core) (e : Engine) (q : List Entry) (p : Nat) : Core :=
  match e with
  | .te => { k with teQ := q, tePos := p }
  | .ge => { k with geQ := q, gePos := p }
  | .me => { k with meQ := q, mePos := p }

/-- Whether an entry is the PASS_OPEN mark of a stream, which an engine takes with no effect on the core. -/
def Entry.isOpen : Entry → Bool
  | .body (.passOpen _) _ => true
  | _ => false

/-- The head of an engine's queue, past PASS_OPEN marks (log 21). -/
def Core.head (k : Core) (e : Engine) : Option Entry := ((k.queue e).dropWhile Entry.isOpen).head?

/-- The stream position of the head (R133): the entries taken before it, the PASS_OPEN marks at the front among them. -/
def Core.headPos (k : Core) (e : Engine) : Nat := (k.pos e + ((k.queue e).takeWhile Entry.isOpen).length) % 2 ^ 64

/-- The head taken, with the PASS_OPEN marks before it: the position counts every entry taken (R133). -/
def Core.take (k : Core) (e : Engine) : Core :=
  let q := k.queue e
  let rest := (q.dropWhile Entry.isOpen).drop 1
  k.setQueue e rest ((k.pos e + (q.length - rest.length)) % 2 ^ 64)

/-- Entries of an engine's queue that count as held for credit: those in it and those its wake port holds (R137, R152). -/
def Core.depth (k : Core) (e : Engine) : Nat :=
  (k.queue e).length + (k.held.filter fun h => match h with | .entry f _ => f == e | _ => false).length

/-- A core takes entries: its constellation's context is live and is not being pre-empted, its clocks run and its die's PLLs are locked (R474), and its local store is
the context's, after any save and wipe of R288 and R311. -/
def State.takes (s : State) (c : Nat) : Bool :=
  match s.coreSeq c with
  | some (_, q) => s.live q.ctx && !q.preempting && (s.core c).clk == .running && !(s.core c).waking && (s.core c).lsHeld == some q.ctx &&
      !(s.die (c / 68)).unlocked
  | none => false

/-- The head of an engine that may take it. -/
def State.headOf (s : State) (c : Nat) (e : Engine) : Option Entry := if s.takes c then (s.core c).head e else none

/-- A context's stall counter is to return to 0 at the next tick (R149). -/
def State.progress (s : State) (c : Nat) : State :=
  match s.coreSeq c with
  | some (_, q) => s.modCtx q.ctx fun x => { x with progress := true }
  | none => s

/-- A core that takes an entry is no longer idle: its next idle period takes the thresholds anew (R487). -/
def State.leaveIdle (s : State) (c : Nat) : State :=
  if (look (s.die (c / 68)).idles c).isSome then s.modDie (c / 68) fun k => { k with idles := del k.idles c } else s

/-- The handles whose descriptors an engine reads as it takes an entry (R155). -/
def Entry.handles : Entry → List Nat
  | .body (.matmul f) _ => [f.a, f.b, f.init]
  | .body (.drain f) _ => [f.out]
  | .tileDrain f _ => [f.out]
  | .body (.copy src dst mx) _ => [src, dst] ++ if mx % 4 = 1 then [src + 1] else if mx % 4 = 2 then [dst + 1] else []
  | .body (.copyRemote src dst _ _ _ kind _ _ _ _) _ => if kind = 0 then [src, dst] else [src]
  | .body (.hint h _) _ => [h]
  | .body (.coll src dst kind _ _) _ => if kind = 3 then [] else [src, dst]
  | .body (.update rule _ _ _ _ _) _ => [rule]
  | .body (.atomic h _ _) _ => [h]
  | .body (.hostPut src _) _ => [src]
  | _ => []

/-- The descriptors that an engine reads for its head entry, read (R155). -/
def State.readHead (s : State) (c : Nat) (e : Engine) : State :=
  match (s.core c).head e, s.coreCtx c with
  | some x, some y => s.readDescs y x.handles
  | _, _ => s

/-- The head of an engine's queue taken (R133, R137, R149), its descriptors read (R155); the core takes its die's cap (R469). -/
def State.take (s : State) (c : Nat) (e : Engine) : State :=
  (((s.readHead c e).modCore c fun k => { k.take e with cap := (s.die (c / 68)).cap }).leaveIdle c).progress c

/-- The engine's number in the wait-channel and binding codes: TE 1, GE 2, ME 3 (R169). -/
def engCode : Engine → Nat
  | .te => 1
  | .ge => 2
  | .me => 3

/-! ### Outstanding work and tokens (R141) -/

/-- New outstanding work of an engine: its id. -/
def State.newWork (s : State) (c : Nat) (e : Engine) : State × Nat :=
  let k := s.core c
  (s.setCore c { k with work := k.work ++ [(e, k.nextWork)], nextWork := k.nextWork + 1 }, k.nextWork)

/-- Work ended: no token rides behind it any longer. -/
def Core.endWork (k : Core) (w : Nat) : Core :=
  { k with work := k.work.filter fun x => x.2 != w,
           inflight := k.inflight.map fun f => { f with behind := f.behind.filter fun x => x != w } }

/-- Work of a core ended. -/
def State.endWork (s : State) (c w : Nat) : State := s.modCore c fun k => k.endWork w

/-- A channel of a core; one never set up is unbound. -/
def Core.chan (k : Core) (ch : Nat) : Chan := (k.chans[ch]?).getD ⟨0, ⟨0, 0, 0⟩⟩

/-- A channel's count set. -/
def Core.setCount (k : Core) (ch n : Nat) : Core := { k with chans := k.chans.set ch { k.chan ch with count := n } }

/-- A token becomes visible on a channel: the count rises by 1, or the context faults with TOKEN_OVERFLOW (R141, R145). -/
def State.tokenArrives (s : State) (c ch : Nat) : State :=
  let k := s.core c
  let n := (k.chan ch).count
  if 255 ≤ n then s.faultCore c 0x6012 0
  else ((s.setCore c (k.setCount ch (n + 1))).bump (offZs c 0x48) 1).progress c

/-- The wait entry at an engine's head that its channel does not satisfy: channel and count (R148). -/
def Core.blockedOn (k : Core) (e : Engine) : Option (Nat × Nat) :=
  match k.head e with
  | some (.wait ch n _) => if (k.chan ch).count < n then some (ch, n) else none
  | _ => none

/-- A wait at the head of an engine: satisfied, it lowers the count and is taken; on a channel not bound to the engine as
consumer the context faults (R145, R146). -/
def State.takeWait (s : State) (c : Nat) (e : Engine) (ch n : Nat) : State :=
  let k := s.core c
  let b := k.chan ch
  if b.bind.producer = 0 ∨ b.bind.consumer ≠ engCode e then s.faultCore c 0x6013 0
  else if n ≤ b.count then (s.take c e).modCore c fun k => k.setCount ch (b.count - n)
  else s

/-- A signal at the head of an engine: taken, it puts a token in flight behind the engine's outstanding work; on a channel not
bound to the engine as producer the context faults (R141, R145). -/
def State.takeSignal (s : State) (c : Nat) (e : Engine) (ch : Nat) : State :=
  let k := s.core c
  if (k.chan ch).bind.producer ≠ engCode e then s.faultCore c 0x6013 0
  else (s.take c e).modCore c fun k =>
    { k with inflight := k.inflight ++ [⟨e, ch, (k.work.filter fun w => w.1 == e).map (·.2)⟩] }

/-! ### Streams (R178-R182) -/

/-- Tile rows and columns Mt, Nt of a matrix instruction (R178). -/
def MatF.tileRows (f : MatF) : Nat := match f.mode with | .full => 32 | .thin => 8 | .quad => 16 | .mv => 1
/-- Columns of a native tile (R178). -/
def MatF.tileCols (f : MatF) : Nat :=
  match f.mode with
  | .full => 32 * 2 ^ f.countLog2
  | .thin => 128 * 2 ^ f.countLog2
  | .quad => 16
  | .mv => 1024 / max 1 f.batch

/-- Rows of tiles, columns of tiles (R178). -/
def MatF.rowTiles (f : MatF) : Nat := if f.mode = .mv then 1 else (f.m + f.tileRows - 1) / f.tileRows
/-- Columns of tiles (R178). -/
def MatF.colTiles (f : MatF) : Nat := (f.n + f.tileCols - 1) / f.tileCols
/-- Tiles of a matrix instruction (R178). -/
def MatF.tiles (f : MatF) : Nat := f.rowTiles * f.colTiles

/-- The native entries of an instruction's body (R179). -/
def Insn.entries (i : Insn) : Nat :=
  match i with
  | .nop => 0
  | .loop _ => 0
  | .endloop => 0
  | .matmul f => f.tiles * (if f.drain = .none then 1 else 2)
  | _ => 1

/-- The native entries of an instruction with its prefixes (R175, R179). -/
def SInsn.entries (i : SInsn) : Nat := b2n i.wait.isSome + i.body.entries + b2n i.sig.isSome

/-- The `k`-th native entry of an instruction with its prefixes. -/
def SInsn.entry (i : SInsn) (k : Nat) : Option Entry :=
  let isNop := i.body == .nop
  let body (j : Nat) : Option Entry :=
    if j < i.body.entries then
      match i.body with
      | .matmul f =>
        if f.drain = .none then some (.body i.body j)
        else if j % 2 = 0 then some (.body i.body (j / 2)) else some (.tileDrain f (j / 2))
      | b => some (.body b 0)
    else if j = i.body.entries then i.sig.map fun ch => .signal ch isNop
    else none
  match i.wait with
  | some (ch, n) => if k = 0 then some (.wait ch n isNop) else body (k - 1)
  | none => body k

/-- A stream of a kernel. -/
def Kernel.stream (k : Kernel) : Engine → List SInsn
  | .te => k.te
  | .ge => k.ge
  | .me => k.me

/-- The fetch position of a stream. -/
def Seq.fetch (q : Seq) : Engine → Fetch
  | .te => q.teF
  | .ge => q.geF
  | .me => q.meF

/-- The fetch position of a stream set. -/
def Seq.setFetch (q : Seq) (e : Engine) (f : Fetch) : Seq :=
  match e with
  | .te => { q with teF := f }
  | .ge => { q with geF := f }
  | .me => { q with meF := f }

/-- A fetch position moved past what reaches no core: LOOP opens a body, ENDLOOP repeats or leaves it, a NOP without a prefix
gives no entry (R179, R180). A body without entries is left at once. At most `fuel` instructions. -/
def settleFetch (l : List SInsn) : Nat → Fetch → Fetch
  | 0, f => f
  | n + 1, f =>
    match l[f.idx]? with
    | none => f
    | some i =>
      match i.body with
      | .loop k => settleFetch l n { f with idx := f.idx + 1, sub := 0, loops := (f.idx + 1, k) :: f.loops }
      | .endloop =>
        match f.loops with
        | (b, k) :: rest =>
          if 1 < k ∧ ((l.drop b).take (f.idx - b)).any (fun j => j.entries != 0) then
            settleFetch l n { f with idx := b, sub := 0, loops := (b, k - 1) :: rest }
          else settleFetch l n { f with idx := f.idx + 1, sub := 0, loops := rest }
        | [] => settleFetch l n { f with idx := f.idx + 1, sub := 0 }
      | _ => if i.entries = 0 then settleFetch l n { f with idx := f.idx + 1, sub := 0 } else f

/-- A fetch position at an instruction that gives entries, or at the end of its stream. -/
def Seq.settled (q : Seq) (e : Engine) : Fetch :=
  settleFetch (q.kernel.stream e) (2 * (q.kernel.stream e).length + 2) (q.fetch e)

/-- The next native entry of a stream. -/
def Seq.next (q : Seq) (e : Engine) : Option Entry :=
  let f := q.settled e
  match (q.kernel.stream e)[f.idx]? with
  | some i => i.entry f.sub
  | none => none

/-- The fetch position after the next entry. -/
def Seq.advance (q : Seq) (e : Engine) : Fetch :=
  let f := q.settled e
  match (q.kernel.stream e)[f.idx]? with
  | some i => if f.sub + 1 < i.entries then { f with sub := f.sub + 1 } else { f with idx := f.idx + 1, sub := 0 }
  | none => f

/-- A sequencer changed. -/
def State.setSeq (s : State) (q : Nat) (k : Seq) : State := { s with seqs := put s.seqs q k }

/-- An entry delivered to a member's queue, or held by its wake port while the core sleeps (R136, R152). -/
def Core.deliver (k : Core) (e : Engine) (x : Entry) : Core :=
  if k.clk = .running then k.setQueue e (k.queue e ++ [x]) (k.pos e) else { k with held := k.held ++ [.entry e x] }

/-- Every member holds a credit for a stream (R137). -/
def State.credits (s : State) (q : Seq) (e : Engine) : Bool := q.members.all fun c => decide ((s.core c).depth e < 256)

/-- Whether a stream's next entry may be broadcast: at a PASS_OPEN its instance is open and this stream has not passed its mark;
after its PASS_SETTLE it holds until the verdict (R182). -/
def Seq.mayBroadcast (q : Seq) (e : Engine) (x : Entry) : Bool :=
  match q.pass with
  | none => match x with | .body (.passOpen _) _ => false | _ => true
  | some p =>
    !(p.broadcastSettle.contains e) &&
      match x with
      | .body (.passOpen i) _ => p.id == i && p.stage == .opened && !(p.marks.any fun m => m.1 == e)
      | _ => true

/-- What the broadcast of a pass mark leaves in the open instance (R66, R182). -/
def PassInst.broadcast (p : PassInst) (e : Engine) (f : Fetch) (x : Entry) : PassInst :=
  match x with
  | .body (.passOpen _) _ => { p with marks := p.marks ++ [(e, f)] }
  | .body (.passSettle _) _ => { p with broadcastSettle := p.broadcastSettle ++ [e] }
  | _ => p

/-! ### The end of a kernel -/

/-- A core has taken the END of its three streams and holds no outstanding work. -/
def Core.done (k : Core) : Bool := k.ended.length == 3 && k.work.isEmpty

/-- Whether a held arrival is a fabric request, which is for the core's memory and not for a constellation (R152). -/
def HeldArrival.isRequest : HeldArrival → Bool
  | .request _ _ _ _ => true
  | _ => false

/-- A core freed from its constellation: its queues and channels are empty; its local store keeps what it holds until another
context takes the core (R311), and its move engine the votes it has taken (R259). -/
def Core.freed (k : Core) : Core :=
  { Core.idle with lsEighths := k.lsEighths, clk := k.clk, waking := k.waking, cap := k.cap, noNewTile := k.noNewTile, lsHeld := k.lsHeld,
                   rampPhase := k.rampPhase, faulty := k.faulty, lastVote := k.lastVote, held := k.held.filter HeldArrival.isRequest }

/-- The tokens among a core's held arrivals. -/
def Core.heldTokens (k : Core) : Nat := (k.held.filter fun h => match h with | .token _ => true | _ => false).length

/-- A core freed, with its group engine's state and its tensor units' sets; tokens that its wake port holds are discarded (R144). -/
def State.freeCore (s : State) (c : Nat) : State :=
  let s0 := if (s.core c).heldTokens = 0 then s else s.bump (offZs c 0x50) (s.core c).heldTokens
  let s1 := s0.clearUnits fun k => k == c
  { s1.modCore c Core.freed with ge := del s1.ge c }

/-- Whether a kernel of a module is bound or pre-empted. -/
def State.moduleRuns (s : State) (x h : Nat) : Bool :=
  s.seqs.any (fun e => e.2.ctx == x && e.2.module == h) ||
    match s.ctx x with | some c => c.saved.any fun v => v.seq.module == h | none => false

/-- A module's image freed. -/
def State.freeModule (s : State) (x h : Nat) : State :=
  { s with loader := { s.loader with modules := s.loader.modules.filter fun m => !(m.ctx == x && m.handle == h) } }

/-- An UNLOAD that waited for a kernel of its module, once none runs: the image is freed and the fence signalled (R335). -/
def State.settleUnload (s : State) (x h : Nat) : State :=
  match s.loader.modules.find? fun m => m.ctx == x && m.handle == h && m.unloading.isSome with
  | none => s
  | some m =>
    if s.moduleRuns x h then s
    else match m.unloading with
      | some (some (f, v)) => (s.freeModule x h).signal f v
      | _ => s.freeModule x h

/-- Fences signalled in order. -/
def State.signalAll (s : State) (l : List (Nat × Nat)) : State := l.foldl (fun t f => t.signal f.1 f.2) s

/-- With no constellation of a context left to be saved or restored, its pre-emptions have completed (R355). -/
def State.preemptDone (s : State) (x : Nat) : State :=
  match s.ctx x with
  | none => s
  | some c =>
    if c.preemptFences.isEmpty || s.seqs.any (fun e => e.2.ctx == x && e.2.preempting) then s
    else (s.modCtx x fun k => { k with preemptFences := [] }).signalAll c.preemptFences

/-- A kernel ends when every member has ended its streams: cores and sequencer are free, and the fence of its launch packet is
signalled (R336). -/
def State.endKernel (s : State) (sq : Nat) : State :=
  match look s.seqs sq with
  | none => s
  | some q =>
    if q.members.all fun c => (s.core c).done then
      let s1 := (q.members.foldl (fun (t : State) c => t.freeCore c) { s with seqs := del s.seqs sq }).settleUnload q.ctx q.module
      (match q.fence with
      | some (f, v) => s1.signal f v
      | none => s1).preemptDone q.ctx
    else s

/-- The end of a core's kernel, where this core's work was the last. -/
def State.endKernelOf (s : State) (c : Nat) : State :=
  match (s.core c).member with
  | some (q, _) => s.endKernel q
  | none => s

/-- Work of a core ended, and with it the kernel where it was the last. -/
def State.finishWork (s : State) (c w : Nat) : State := (s.endWork c w).endKernelOf c

end Sys2Proof.Machine
end

