-- ==== Sys2Proof/Machine/Requests.lean ====
section
/-! DEFINITION. The fabric as a source sees it: which nodes it can reach, the checks of a sender, requests and their end (R388,
R389, R400, R404-R408, R412), and the delivery of a remote token (R144, R396). -/

namespace Sys2Proof.Machine

open Sys2Proof

/-! ### Transfers in slots (R289) -/

/-- A transfer of a core changed. -/
def State.modXfer (s : State) (c slot : Nat) (f : Xfer → Xfer) : State :=
  s.modCore c fun k => { k with xfers := upd k.xfers slot f }

/-- A transfer of a core. -/
def State.xfer (s : State) (c slot : Nat) : Option Xfer := look (s.core c).xfers slot

/-- A transfer's fence has entered the error state: ME_ERRORS counts the transfer once (R313). -/
def State.xferFailed (s : State) (c slot : Nat) : State :=
  match s.xfer c slot with
  | none => s
  | some x => if x.failed then s else (s.modXfer c slot fun x => { x with failed := true }).bump (offMe c 0x48) 1

/-- A transfer fails with a code, which goes to its fence (R197). -/
def State.xferError (s : State) (c slot code : Nat) : State :=
  match s.xfer c slot with
  | none => s
  | some _ => (s.xferFailed c slot).entryError c code 0

/-- Line requests outstanding at a move engine, to memory and to peers (R289, R400). -/
def Core.linesOut (k : Core) : Nat := (k.xfers.map fun e => e.2.misses.length + e.2.reqs.length).sum

/-- Stores and atomics of a core's queue to a node that have not been acknowledged (R394). -/
def State.unacked (s : State) (c dst : Nat) : Nat :=
  (s.fab.reqs.filter fun e => e.2.dst == dst && (e.2.kind == .store || e.2.kind == .atomic) &&
    match e.2.owner with | some o => o.1 == c | none => false).length

/-- Whether a request counts as a line request (R289, R313). -/
def ReqKind.isLine (k : ReqKind) : Bool :=
  match k with
  | .store => true
  | .load _ _ => true
  | .descFetch => true
  | .atomic => true
  | .flag => true
  | _ => false

/-- A request of a transfer sent; a request that cannot leave fails at once (R404, R407, R408, R412). -/
def State.sendFor (s : State) (c slot : Nat) (r : Req) : State :=
  let s1 := (if r.kind.isLine then s.bump (offMe c 0x20) 1 else s).bump (offMe c 0x40) 1
  match s1.unreachable r.dst with
  | some code =>
    let t := s1.xferError c slot code
    if r.kind = .descFetch then t.modXfer c slot fun x => { x with moved := true } else t
  | none => (s1.send r).modXfer c slot fun x => { x with reqs := x.reqs ++ [s1.fab.nextReq] }

/-- Whether the alternate of a tray's route carries its traffic (R406). -/
def State.usesAlt (s : State) (t : Nat) : Bool :=
  let r := s.reg (offRoute t)
  match s.routePort t with
  | some p => p != fld r 1 2
  | none => bit r 8

/-- The route to a tray follows its ports; each switch is recorded (R406). -/
def State.updateRoute (s : State) (t : Nat) : State :=
  let alt := s.usesAlt t
  if bit (s.reg (offRoute t)) 8 = alt then s
  else (s.setField (offRoute t) 8 1 (b2n alt)).raise 0x7804 (leBytes 1 t ++ leBytes 1 ((s.routePort t).getD 0))

/-- Every route follows its ports, and requests that wait for one go on. -/
def State.updateRoutes (s : State) : State := ((List.range 128).foldl (fun (t : State) k => t.updateRoute k) s).pumpAll

/-- A request no longer outstanding: one that waited for its place leaves its hub die (R400, R401), and the route to its tray takes a
staged value once none is outstanding (R417). -/
def State.dropReq (s : State) (i : Nat) : State :=
  match look s.fab.reqs i with
  | none => s
  | some r =>
    let s2 := { s with fab := { s.fab with reqs := del s.fab.reqs i } }.pumpAll
    if s2.fab.reqs.any fun e => e.2.dst / 8 == r.dst / 8 then s2 else (s2.adopt (offRoute (r.dst / 8)) 0 8).updateRoute (r.dst / 8)

/-- The requests that are chosen are no longer outstanding; the routes of their trays take what was staged, as at the end of any request
(R417). -/
def State.dropReqs (s : State) (sel : Req → Bool) : State :=
  let trays := (s.fab.reqs.filter fun e => sel e.2).foldl (fun l e => addNew l (e.2.dst / 8)) []
  let s1 := { s with fab := { s.fab with reqs := s.fab.reqs.filter fun e => !(sel e.2) } }
  (trays.foldl (fun (t : State) y =>
    if t.fab.reqs.any fun e => e.2.dst / 8 == y then t else (t.adopt (offRoute y) 0 8).updateRoute y) s1).pumpAll

/-- A request has ended for its transfer. -/
def State.reqEnded (s : State) (c slot i : Nat) : State := s.modXfer c slot fun x => { x with reqs := drop1 x.reqs i }

/-! ### Remote tokens (R143, R144, R396) -/

/-- A constellation with the lowest launch order of a list. -/
def earliest {α : Type} (order : α → Nat) : List α → Option α
  | [] => none
  | a :: l => match earliest order l with
    | some b => if order b < order a then some b else some a
    | none => some a

/-- A token delivered to a rank of a bound constellation: held by the wake port while the core sleeps (R152), discarded once its
context is no longer live (R144). -/
def State.tokenToSeq (s : State) (q : Seq) (rank ch : Nat) : State :=
  let c := (q.members[rank]?).getD 0
  let k := s.core c
  if !s.live q.ctx then s.bump (offZs c 0x50) 1
  else if (k.chan ch).bind.producer ≠ 4 then s.faultCtx q.ctx 0x6013 0
  else if k.clk ≠ .running then s.setCore c { k with held := k.held ++ [.token ch] }
  else s.tokenArrives c ch

/-- A token delivered to a rank of a pre-empted constellation: its count in the queue save record rises (R144). -/
def State.tokenToSaved (s : State) (x : Nat) (v : Saved) (rank ch : Nat) : State :=
  let k := lookD v.cores rank Core.idle
  if (k.chan ch).bind.producer ≠ 4 then s.faultCtx x 0x6013 0
  else if 255 ≤ (k.chan ch).count then s.faultCtx x 0x6012 0
  else
    let v1 : Saved := { v with cores := put v.cores rank (k.setCount ch ((k.chan ch).count + 1)) }
    s.modCtx x fun y => { y with saved := y.saved.map fun w => if w.seq.order = v.seq.order then v1 else w }

/-- A token discarded for want of a constellation, as the killed row of R144: counted on a core of the context's partition, which one a
free value says, since the spec names no core that receives it (log 65). -/
def State.discardToken (s : State) (x : Nat) : State :=
  match (s.ctx x).bind fun c => look s.objs.parts c.part with
  | none => s
  | some p => match p.cores[s.draw.1.toNat % max 1 p.cores.length]? with
    | some c => s.draw.2.bump (offZs c 0x50) 1
    | none => s

/-- A remote token for a rank and channel of a context (R144, R396): to its earliest-launched constellation that is bound or
pre-empted; without one it is discarded. Answers false where the rank is at or beyond the constellation's size. -/
def State.deliverToken (s : State) (x rank ch : Nat) : State × Bool :=
  let bound := earliest (fun (q : Seq) => q.order) ((s.seqs.filter fun e => e.2.ctx == x).map (·.2))
  let saved := earliest (fun (v : Saved) => v.seq.order) (match s.ctx x with | some c => c.saved | none => [])
  let toSaved (v : Saved) : State × Bool :=
    if v.seq.kernel.size ≤ rank then (s, false) else (s.tokenToSaved x v rank ch, true)
  let toBound (q : Seq) : State × Bool :=
    if q.members.length ≤ rank then (s, false) else (s.tokenToSeq q rank ch, true)
  match bound, saved with
  | none, none => (s.discardToken x, true)
  | some q, none => toBound q
  | none, some v => toSaved v
  | some q, some v => if v.seq.order < q.order then toSaved v else toBound q

end Sys2Proof.Machine
end

