-- ==== Sys2Proof/Machine/Scale.lean ====
section
/-! DEFINITION. Narrow write units: block scales chosen by the device, window overflow and recompute, runs, regrowth, the error
statistic and the statistics record (R43-R54, R62, R70, R74). -/

namespace Sys2Proof.Machine

open Sys2Proof

/-! ### The statistics record (R74) -/

/-- The 64 bytes of a tensor's statistics record, where it is mapped with read and write permission. A record in the local-store
window is that of the core that makes the access (R284, log 23). -/
def State.stats (s : State) (c x : Nat) (d : Desc) : Option (List Byte) :=
  match s.vaCheck c x d.statsBase 64 true true with
  | none => some (s.vaRead c x d.statsBase 64)
  | some _ => none

/-- Whether a read of the record meets an uncorrectable half. -/
def State.statsBad (s : State) (x : Nat) (d : Desc) : Bool :=
  !inLocal d.statsBase && match s.translate x d.statsBase 64 true true with | .ok l => s.badPieces l | .error _ => false

/-- Bytes at a context address of a record read through their slices (R314, R316). -/
def State.fetchVa (s : State) (x va n : Nat) : State :=
  if inLocal va then s else match s.translate x va n true true with | .ok l => s.fetchPieces x l | .error _ => s

/-- Lines of a record that a core writes leave its private cache (R286). -/
def State.privDropVa (s : State) (c x va n : Nat) : State :=
  if inLocal va then s else match s.translate x va n true true with | .ok l => s.privDrop c (pieceLines l) | .error _ => s

/-- The record's 64 bytes read and changed, where it is mapped; one that reads uncorrectable is left as it is (R307). -/
def State.modStats (s : State) (c x : Nat) (d : Desc) (f : List Byte → List Byte) : State :=
  match s.stats c x d with
  | some b =>
    let t := s.fetchVa x d.statsBase 64
    if s.statsBad x d then t else (t.vaWrite c x 0 d.statsBase (f b)).privDropVa c x d.statsBase 64
  | none => s

/-- A record that reads uncorrectable puts MEM_UNCORRECTABLE on the fence of the entry that reads it (R307). -/
def State.statsErr (s : State) (c x : Nat) (d : Desc) : State := if s.statsBad x d then s.entryError c 0x4003 0 else s

/-- A little-endian field of `n` bytes at `o` replaced. -/
def setLe (bs : List Byte) (o n v : Nat) : List Byte := patch bs o (leBytes n v)

/-- A u32 counter of the record raised, modulo 2^32. -/
def addLe (o v : Nat) (bs : List Byte) : List Byte := setLe bs o 4 ((leAt bs o 4 + v) % 2 ^ 32)

/-- An FP32 field of the record raised by an FP32 addition. -/
def addFp (o : Nat) (v : Exact) (bs : List Byte) : List Byte :=
  setLe bs o 4 (encF32 (addN (decIeee 23 (leAt bs o 4)) v)).toNat

/-- The record has kv_append set. -/
def State.kvAppend (s : State) (c x : Nat) (d : Desc) : Bool :=
  match s.stats c x d with | some b => bit (leAt b 0x13 1) 0 | none => false

/-! ### Passes -/

/-- The open pass instance of a core's constellation with its table entry. -/
def State.openPass (s : State) (c : Nat) : Option (Nat × Seq × PassInst × PassEnt) :=
  match s.coreSeq c with
  | some (q, k) => match k.pass with
    | some p => (k.kernel.passes.find? fun e => e.id == p.id).map fun e => (q, k, p, e)
    | none => none
  | none => none

/-- Whether a pass that lists a handle is open on a core's constellation (R183). -/
def State.passLists (s : State) (c h : Nat) : Bool :=
  match s.openPass c with | some (_, _, _, e) => e.tensors.contains h | none => false

/-- The bias a core uses for a tensor it writes: that of its last run, else the one the pass started with, else the
descriptor's (R53, R55). -/
def State.biasInUse (s : State) (c x h : Nat) : Int :=
  match (lookD (s.core c).runs h []).getLast? with
  | some r => r.bias
  | none => match s.openPass c with
    | some (_, _, p, _) => lookD p.opened h (s.descBias x h)
    | none => s.descBias x h

/-- The finiteness flag of a context's job set (R30, R257). -/
def State.setNonfinite (s : State) (x : Nat) : State :=
  match s.ctx x with
  | some c => match c.job with
    | some j => { s with objs := { s.objs with jobs := upd s.objs.jobs j fun k => { k with nonfinite := true } } }
    | none => s
  | none => s

/-! ### Blocks of a unit -/

/-- The elements of a unit by block, in the order of first appearance. -/
def byBlock (blk : Nat) (es : List (Nat × Exact)) : List (Nat × List (Nat × Exact)) :=
  let js := es.foldl (fun l e => addNew l (e.1 / blk)) []
  js.map fun j => (j, es.filter fun e => e.1 / blk == j)

/-- A block of a unit as planned: its elements, the exponent needed for them (R46), and for a later element of an open
key-value block the exponent of the elements already there (R70). -/
structure BlockPlan where
  j : Nat
  elems : List (Nat × Exact)
  need : Option Int
  old : Option Int
  deriving DecidableEq, Repr

/-- The cores whose runs of a tensor speak of the same bytes: the members of the constellation, or the core alone for a tensor
in its local store. -/
def State.writers (s : State) (c : Nat) (d : Desc) : List Nat :=
  if inLocal d.base then [c] else match s.coreSeq c with | some (_, q) => q.members | none => [c]

/-- The rank that an entry of `Ctx.kv` names for a tensor. -/
def Desc.kvRank (d : Desc) (r : Nat) : Nat := if inLocal d.base then r else 0

/-- What the device knows of a block of a key-value tensor that it has written. -/
def State.kvBlock (s : State) (c x : Nat) (d : Desc) (j : Nat) : Option KvBlock :=
  match s.ctx x with
  | some k => k.kv.find? fun b => b.handle == d.handle && b.rank == d.kvRank (s.coreRank c) && b.block == j
  | none => none

/-- Blocks of a key-value tensor stand under a bias from now on. -/
def State.kvMark (s : State) (c x : Nat) (d : Desc) (t : Int) (js : List Nat) : State :=
  s.modCtx x fun k =>
    { k with kv := (k.kv.filter fun b => !(b.handle == d.handle && b.rank == d.kvRank (s.coreRank c) && js.contains b.block)) ++
        js.map fun j => ⟨d.handle, d.kvRank (s.coreRank c), j, t⟩ }

/-- Blocks of a tensor that a rebase has moved stand under the new bias, where the device keeps them as key-value blocks. -/
def State.kvMoved (s : State) (c x : Nat) (d : Desc) (t : Int) (js : List Nat) : State :=
  s.modCtx x fun k => { k with kv := k.kv.map fun b =>
    if b.handle == d.handle && b.rank == d.kvRank (s.coreRank c) && js.contains b.block then { b with bias := t } else b }

/-- The bias under which a block of a key-value tensor stands: the one it was written under; for a block that the device has not
written, the one before the open pass (log 62). -/
def State.blockBias (s : State) (c x : Nat) (d : Desc) (j : Nat) : Int :=
  match s.kvBlock c x d j with
  | some b => b.bias
  | none => match s.openPass c with
    | some (_, _, p, _) => lookD p.biases d.handle (s.descBias x d.handle)
    | none => s.descBias x d.handle

/-- The plan of a block. A block of a key-value tensor is an open one that already has elements where the unit neither covers it
nor holds its first element (DESIGN CHOICE, log 62): R70 does not say how the device tells a first from a later element. -/
def State.planBlock (s : State) (c x : Nat) (d : Desc) (kv : Bool) (b : Nat × List (Nat × Exact)) : BlockPlan :=
  let later := kv && decide (b.2.length < d.blk) && !(b.2.any fun e => e.1 == b.1 * d.blk)
  { j := b.1, elems := b.2, need := neededExponent d.fmt (b.2.map (·.2)),
    old := if later then some (s.blockBias c x d b.1 + s.scaleCode c x d b.1 - 8) else none }

/-- The code a planned block needs under a bias: 0 without magnitude, and not below its old exponent's code where it is a
later element's (R46, R47, R70). It may lie outside 0 to 15. -/
def BlockPlan.code (p : BlockPlan) (t : Int) : Int :=
  let n := match p.need with | some e => e - t + 8 | none => 0
  match p.old with
  | some o => if p.need.isSome then max n (o - t + 8) else o - t + 8
  | none => n

/-- What a committed unit adds to the statistics: floor blocks, regrowths, substitutions, unit sse and ssq. -/
structure UnitStats where
  floors : Nat
  regrows : Nat
  substs : Nat
  sse : Exact
  ssq : Exact
  deriving DecidableEq, Repr

/-- The sums of one converted element (R62): err = v - d and v, each squared and rounded to FP32. -/
def UnitStats.elem (u : UnitStats) (v dec : Exact) (sub : Bool) : UnitStats :=
  if sub then { u with substs := u.substs + 1 }
  else if finiteN v then
    let err := rF32 (addN v (negN dec))
    { u with sse := addF u.sse (mulF err err), ssq := addF u.ssq (rF32 (mulN v v)) }
  else u

/-- Elements already in a block re-encoded at an exponent `by_` lower, with the substitutions made (R25, R30, R54, R70). -/
def State.shiftElems (s : State) (c x : Nat) (d : Desc) (os : List Nat) (by_ : Int) : State × Nat :=
  os.foldl (fun r o =>
    let w := encNarrow d.fmt d.ovf (scaleN by_ (decNarrow d.fmt (r.1.elemCode c x d o)))
    (r.1.setElem c x d o w.1, r.2 + b2n w.2)) (s, 0)

/-- The elements of an open block before the first one of the unit. -/
def BlockPlan.before (p : BlockPlan) (blk : Nat) : List Nat :=
  let first := p.elems.foldl (fun m e => min m e.1) (p.j * blk + blk)
  (List.range (first - p.j * blk)).map fun i => p.j * blk + i

/-- One block of a unit committed under a bias: its code, its elements, its statistics (R48, R50, R62, R70). An open block that stands
under another bias moves to this one without counting as rebased (DESIGN CHOICE, log 62); a regrowth is counted where the unit's
elements need a greater exponent than the block had. -/
def State.commitBlock (s : State) (c x : Nat) (d : Desc) (t : Int) (u : UnitStats) (p : BlockPlan) : State × UnitStats :=
  let need := p.code t
  let code := (max 0 (min 15 need)).toNat
  let e := t + code - 8
  let s1 := match p.old with
    | some o => if o = e then (s, 0) else s.shiftElems c x d (p.before d.blk) (o - e)
    | none => (s, 0)
  let u1 := { u with floors := u.floors + b2n (decide (need < 0)), substs := u.substs + s1.2,
                     regrows := u.regrows + match p.old, p.need with | some o, some n => b2n (decide (o < e) && decide (o < n)) | _, _ => 0 }
  let s2 := s1.1.setScale c x d p.j code
  p.elems.foldl (fun (r : State × UnitStats) el =>
    let w := encNarrow d.fmt d.ovf (scaleN (-e) el.2)
    (r.1.setElem c x d el.1 w.1, r.2.elem el.2 (scaleN e (decNarrow d.fmt w.1)) w.2)) (s2, u1)

/-! ### Rebase (R54) -/

/-- The elements of a block that the tensor has at a rank. -/
def Desc.blockElems (d : Desc) (r j : Nat) : List Nat :=
  let hi := d.offset r (d.dimSizes.map (· - 1))
  ((List.range d.blk).map fun i => j * d.blk + i).filter fun o => decide (o ≤ hi)

/-- A block rebased from one bias to another: its code moved, or, where the code would leave 0 to 15, its elements re-encoded at
code 0 or 15, with the substitutions of R30 counted (R54). R54 states a greater bias; to a lower one, which a pass open can bring
to a key-value tensor, the code rises in the same way (DESIGN CHOICE, log 62). -/
def State.rebaseBlock (s : State) (c x r : Nat) (d : Desc) (told tnew : Int) (j : Nat) : State :=
  let want : Int := (s.scaleCode c x d j : Int) + told - tnew
  let code := (max 0 (min 15 want)).toNat
  let s1 := if want = code then (s.setScale c x d j code, 0)
    else (s.setScale c x d j code).shiftElems c x d (d.blockElems r j) (want - code)
  let s2 := if s1.2 = 0 then s1.1 else (s1.1.modStats c x d (addLe 0x3C s1.2)).setNonfinite x
  (s2.modStats c x d (addLe 0x34 1)).bump (offTe c 0x428) 1

/-- The blocks of a run rebased to a bias. -/
def State.rebaseRun (s : State) (c x r : Nat) (d : Desc) (t : Int) (run : Run) : State :=
  if run.bias < t then run.blocks.foldl (fun u j => u.rebaseBlock c x r d run.bias t j) s else s

/-- A run without some blocks. -/
def Run.without (r : Run) (js : List Nat) : Run := { r with blocks := r.blocks.filter fun j => !js.contains j }

/-- Blocks committed under a bias stand in no older run any more (R53). -/
def State.dropRuns (s : State) (c : Nat) (d : Desc) (js : List Nat) : State :=
  (s.writers c d).foldl (fun t k => t.modCore k fun m => { m with runs := upd m.runs d.handle fun l => l.map fun r => r.without js }) s

/-- Blocks committed under a bias added to a core's runs of a tensor; a seventeenth run rebases the others first (R53). -/
def State.addRun (s : State) (c x r : Nat) (d : Desc) (t : Int) (js : List Nat) : State :=
  let s0 := s.dropRuns c d js
  let runs := lookD (s0.core c).runs d.handle []
  match runs.getLast? with
  | some last =>
    if last.bias = t then
      s0.modCore c fun k => { k with runs := put k.runs d.handle (runs.dropLast ++ [⟨t, last.blocks ++ js⟩]) }
    else if runs.length < 16 then
      s0.modCore c fun k => { k with runs := put k.runs d.handle (runs ++ [⟨t, js⟩]) }
    else
      let s1 := (runs.foldl (fun u run => u.rebaseRun c x r d t run) s0).kvMoved c x d t (runs.flatMap (·.blocks))
      s1.modCore c fun k => { k with runs := put k.runs d.handle [⟨t, runs.flatMap (·.blocks) ++ js⟩] }
  | none => s0.modCore c fun k => { k with runs := put k.runs d.handle [⟨t, js⟩] }

/-! ### Two constellations on one tensor (R45) -/

/-- The elements of blocks take free values: the values of blocks under a superseded bias are undefined (R45, log 1). -/
def State.scramble (s : State) (c x r : Nat) (d : Desc) (js : List Nat) : State :=
  (js.flatMap fun j => d.blockElems r j).foldl (fun t o =>
    let w := t.draw
    w.2.setElem c x d o (w.1.toNat % 2 ^ fmtBits d.fmt)) s

/-- The members of the other constellations of a context that have written a tensor in their open pass, with their ranks. -/
def State.rivals (s : State) (sq x h : Nat) : List (Nat × Nat) :=
  (s.seqs.filter fun e => e.1 != sq && e.2.ctx == x && e.2.pass.isSome).flatMap fun e =>
    e.2.members.zipIdx.filter fun m => !(lookD (s.core m.1).runs h []).isEmpty

/-- The other constellations of a context whose open pass lists a tensor note that its bias is another's now. -/
def State.outdate (s : State) (sq x h : Nat) : State :=
  { s with seqs := s.seqs.map fun e =>
      match e.2.pass with
      | some p => if e.1 != sq && e.2.ctx == x && (p.opened.any fun o => o.1 == h) then
          (e.1, { e.2 with pass := some { p with outdated := addNew p.outdated h } }) else e
      | none => e }

/-- A bias has been written to a descriptor in HBM memory by one constellation: what another's cores have written under another bias
in their open pass is undefined (R45). -/
def State.supersede (s : State) (sq x : Nat) (d : Desc) (t : Int) : State :=
  if inLocal d.base then s
  else ((s.rivals sq x d.handle).foldl (fun u m =>
    (lookD (s.core m.1).runs d.handle []).foldl (fun v run => if run.bias = t then v else v.scramble m.1 x m.2 d run.blocks) u) s).outdate sq x d.handle

/-- Blocks that a core commits under another bias than the one that another constellation has written since the pass opened are
undefined (R45). -/
def State.superseded (s : State) (c x r : Nat) (d : Desc) (t : Int) (js : List Nat) : State :=
  match s.openPass c with
  | some (_, _, p, _) =>
    if !(inLocal d.base) && p.outdated.contains d.handle && decide (s.descBias x d.handle ≠ t) then s.scramble c x r d js else s
  | none => s

/-! ### The unit (R49-R51) -/

/-- The atomic maximum on a descriptor's tensor bias: a raise is counted and recorded (R49, R51). Answers the bias then in
the descriptor. -/
def State.raiseBias (s : State) (c x : Nat) (d : Desc) (want : Int) : State × Int :=
  let now := s.descBias x d.handle
  let w := min 127 want
  if now < w then
    ((((s.writeDescByte c x d.handle 0x15 (BitVec.ofInt 8 w)).modStats c x d (addLe 0x28 1)).bump (offTe c 0x410) 1).raise 0x1802
      (leBytes 2 x ++ leBytes 2 d.handle ++ [BitVec.ofInt 8 now, BitVec.ofInt 8 w]), w)
  else (s, now)

/-- The ceiling of R50: ceiling_hit, and one BIAS_CEILING event per pass and tensor. -/
def State.hitCeiling (s : State) (c x h : Nat) : State :=
  let s1 := s.setBit (offTe c 0x408) 2
  match s1.openPass c with
  | some (q, k, p, _) =>
    if p.ceilings.contains h then s1
    else ({ s1 with seqs := put s1.seqs q { k with pass := some { p with ceilings := p.ceilings ++ [h] } } }).raise 0x1803
      (leBytes 2 x ++ leBytes 2 h)
  | none => s1.raise 0x1803 (leBytes 2 x ++ leBytes 2 h)

/-- A committed unit's statistics added to the record, or discarded with STATS_UNMAPPED on the fence of the entry (R62, R74). -/
def State.addStats (s : State) (c x : Nat) (d : Desc) (u : UnitStats) (again : Bool) : State :=
  match s.stats c x d with
  | none => (s.setBit (offTe c 0x408) 3).entryError c 0x1010 0
  | some _ =>
    (s.statsErr c x d).modStats c x d fun b =>
      addLe 0x3C u.substs (addLe 0x38 u.regrows (addLe 0x30 u.floors (addLe 0x2C (b2n again) (addFp 0x1C u.ssq (addFp 0x18 u.sse b)))))

/-- A narrow write unit of a core into a tensor (R43): planned, recomputed at a raised bias where a block needs a code above
15, and committed with its runs, pass maximum and statistics. -/
def State.narrowUnit (s : State) (c x : Nat) (d : Desc) (es : List (Nat × Exact)) : State :=
  let r := s.coreRank c
  let kv := s.kvAppend c x d
  let plan := (byBlock d.blk es).map (s.planBlock c x d kv)
  let t0 := s.biasInUse c x d.handle
  let cmax := (plan.map fun p => p.code t0).foldl max 0
  let again := decide (15 < cmax)
  let a := if again then s.raiseBias c x d (t0 + (cmax - 15)) else (s, t0)
  let t := a.2
  let sq := match s.coreSeq c with | some (q, _) => q | none => 0
  let s1 := if again then (a.1.supersede sq x d t).bump (offTe c 0x418) 1 else s
  let s2 := if plan.any (fun p => decide (15 < p.code t)) then s1.hitCeiling c x d.handle else s1
  let s3 := plan.foldl (fun (w : State × UnitStats) p => w.1.commitBlock c x d t w.2 p) (s2, ⟨0, 0, 0, zero, zero⟩)
  let s4 := (s3.1.addStats c x d s3.2 again).bump (offTe c 0x420) s3.2.floors
  let s5 := if 0 < s3.2.substs then s4.setNonfinite x else s4
  let top := (plan.filterMap (·.need)).foldl max (-1000)
  let s6 := s5.modCore c fun k =>
    if top = -1000 then k else { k with passMax := put k.passMax d.handle (max top (lookD k.passMax d.handle (-1000))) }
  let js := plan.map (·.j)
  let s7 := (s6.addRun c x r d t js).superseded c x r d t js
  if kv then s7.kvMark c x d t js else s7

/-- The scale bytes of offsets in a descriptor's scale array: first byte and length. -/
def Desc.scaleSpan (d : Desc) (lo hi : Nat) : Nat × Nat :=
  (d.scaleBase + lo / d.blk / 2, hi / d.blk / 2 + 1 - lo / d.blk / 2)

end Sys2Proof.Machine
end

