-- ==== Sys2Proof/Machine/Transfers.lean ====
section
/-! DEFINITION. Move-engine transfers: slots, ranges and line requests (R289-R291), the core-private cache (R286), the source as
the transfer reads it, the start and the end of a transfer. -/

namespace Sys2Proof.Machine

open Sys2Proof

/-! ### Ranges of a tensor -/

/-- A range joined to the list of ranges before it, the last first, where it adjoins or overlaps the last. -/
def joinRun (acc : List (Nat × Nat)) (r : Nat × Nat) : List (Nat × Nat) :=
  match acc with
  | (a, n) :: t => if a ≤ r.1 ∧ r.1 ≤ a + n then (a, max n (r.1 + r.2 - a)) :: t else r :: acc
  | [] => [r]

/-- The element offsets of the first and last element of each row of dimension 0 at a rank. -/
def Desc.rows (d : Desc) (r : Nat) : List (Nat × Nat) :=
  let n := (d.dimSizes.head?).getD 1
  (List.range (d.count / max 1 n)).map fun i =>
    let o := d.offset r (0 :: unrank (d.dimSizes.drop 1) i)
    (o, o + n - 1)

/-- The bytes of the elements from one offset to another of a row. -/
def Desc.rowBytes (d : Desc) (lo hi : Nat) : Nat × Nat :=
  let a := if d.fmt = 4 ∨ d.fmt = 5 then d.base + lo / 4 * 3 else d.byteOf lo
  (a, d.spanEnd hi - a)

/-- The byte ranges of a tensor's elements at a rank. -/
def Desc.elemRanges (d : Desc) (r : Nat) : List (Nat × Nat) :=
  ((d.rows r).foldl (fun acc e => joinRun acc (d.rowBytes e.1 e.2)) []).reverse

/-- The byte ranges of a narrow tensor's scale codes at a rank. -/
def Desc.scaleRanges (d : Desc) (r : Nat) : List (Nat × Nat) :=
  ((d.rows r).foldl (fun acc e => joinRun acc (d.scaleSpan e.1 e.2)) []).reverse

/-- The byte ranges of a tensor at a rank: elements, and the scale codes of a narrow one. -/
def Desc.ranges (d : Desc) (r : Nat) : List (Nat × Nat) :=
  if isNarrow d.fmt then d.elemRanges r ++ d.scaleRanges r else d.elemRanges r

/-- Bytes of a list of ranges. -/
def rangesBytes (l : List (Nat × Nat)) : Nat := (l.map (·.2)).sum

/-- The first failure of a check of ranges (R284, R291). -/
def State.checkRanges (s : State) (c x : Nat) (rd wr : Bool) : List (Nat × Nat) → Option Nat
  | [] => none
  | (a, n) :: l => match s.vaCheck c x a n rd wr with
    | some e => some e
    | none => State.checkRanges s c x rd wr l

/-- The lines of the HBM parts of ranges: partition, line, byte in it, bytes. -/
def State.rangeLines (s : State) (x : Nat) (l : List (Nat × Nat)) : List (Nat × Nat × Nat × Nat) :=
  l.flatMap fun r =>
    if inLocal r.1 then [] else
    match s.translate x r.1 r.2 false false with
    | .error _ => []
    | .ok ps => ps.flatMap fun p => (rangeCuts (p.2.1 / 128 + 2) p.1 p.2.1).map fun c => (p.2.2, c.1, c.2.1, c.2.2)

/-! ### The core-private cache (R286) -/

/-- Whether a core has a private cache: with ls_eighths 8 it has no banks. -/
def Core.hasPriv (k : Core) : Bool := decide (k.lsEighths < 8)

/-- The set of a line in a core's private cache of 8 ways (log 14). -/
def Core.privSet (k : Core) (ln : Nat) : Nat := ln % max 1 ((48 - 6 * k.lsEighths) * 128)

/-- A line put into a core's private cache as the most recently used; the ninth line of its set leaves. -/
def State.privFill (s : State) (c ln : Nat) : State :=
  let k := s.core c
  let l := (ln, s.see (ln * 128) 128) :: (s.priv c).filter fun e => e.1 != ln
  let mine := l.filter fun e => k.privSet e.1 == k.privSet ln
  s.setPriv c (match mine[8]? with | some v => l.filter fun e => e.1 != v.1 | none => l)

/-- What a core's move engine reads under a cache policy: under CORE_RO its private lines stand before the slices (R286). -/
def State.seenBy (s : State) (c policy : Nat) : State :=
  if policy = 3 ∧ (s.core c).hasPriv then
    (s.priv c).foldl (fun t e =>
      { t with cache := { t.cache with lines := put t.cache.lines e.1 ⟨0, 0, 0, BitVec.allOnes 128, 0, e.2, false, 0⟩ } }) s
  else s

/-! ### Line requests (R289, R296, R400) -/

/-- The reads that a transfer asks for, for ranges under a policy; a CORE_RO read takes whole lines. -/
def State.readTodo (s : State) (c x policy : Nat) (l : List (Nat × Nat)) : List Todo :=
  let ro := decide (policy = 3) && (s.core c).hasPriv
  (s.rangeLines x l).map fun e => if ro then .read e.1 3 e.2.1 0 128 else .read e.1 (if policy = 3 then 0 else policy) e.2.1 e.2.2.1 e.2.2.2

/-- One read asked for: from the private cache under CORE_RO, else as a line request to the slices. -/
def State.askRead (s : State) (c slot part policy ln o n : Nat) : State :=
  let x := (s.coreCtx c).getD 0
  if policy = 3 ∧ (s.priv c).any (fun e => e.1 == ln) then
    let l := s.priv c
    (s.setPriv c ((l.filter fun e => e.1 == ln) ++ l.filter fun e => e.1 != ln)).bump (offCm c 0x10) 1
  else
    let s1 := (if policy = 3 then s.bump (offCm c 0x18) 1 else s).bump (offMe c 0x20) 1
    let r := s1.readLine part policy x ln o n (some (c, slot))
    match r.2 with
    | some m => r.1.modXfer c slot fun t => { t with misses := t.misses ++ [m] }
    | none => if policy = 3 then r.1.privFill c ln else r.1

/-- The destination of a transfer's requests. -/
def Insn.node (i : Insn) (tray : Nat) : Nat :=
  match i with
  | .copyRemote _ _ _ slot node kind _ _ _ _ => if kind = 1 then tray * 8 + slot else node
  | .trigger slot _ _ => tray * 8 + slot
  | _ => 0

/-- What a transfer has next to ask for is asked for. -/
def State.ask (s : State) (c slot : Nat) (t : Todo) : State :=
  match s.xfer c slot, s.coreCtx c with
  | some x, some ctx =>
    let dst := x.insn.node s.pins.strapTray
    let job := s.jobId ctx
    match t with
    | .read part policy ln o n => s.askRead c slot part policy ln o n
    | .fetch a => s.sendFor c slot ⟨dst, .descFetch, some (c, slot), ctx, none, job, a, [], 0, false, 0, none⟩
    | .store a data => s.sendFor c slot ⟨dst, .store, some (c, slot), ctx, none, job, a, data, 0, false, 0, none⟩
    | .flag a => s.sendFor c slot ⟨dst, .flag, some (c, slot), ctx, none, job, a, [], s.unacked c dst, false, 0, none⟩
  | _, _ => s

/-- A list of requests asked for in order while fewer than 512 are outstanding; the rest is kept. -/
def State.askAll (s : State) (c slot : Nat) : List Todo → State
  | [] => s.modXfer c slot fun x => { x with todo := [] }
  | t :: ts =>
    if 512 ≤ (s.core c).linesOut then s.modXfer c slot fun x => { x with todo := t :: ts }
    else (s.ask c slot t).askAll c slot ts

/-- The transfers of a core ask for what the limit left, in slot order. -/
def State.askOn (s : State) (c : Nat) : State :=
  (s.core c).xfers.foldl (fun t e => if e.2.todo.isEmpty then t else t.askAll c e.1 e.2.todo) s

/-! ### Starting and failing -/

/-- A free transfer slot (R289). -/
def State.freeSlot (s : State) (c : Nat) : Option Nat := firstFree (fun k => (s.xfer c k).isSome) 64

/-- The mappings of a context. -/
def State.maps (s : State) (x : Nat) : List Mapping := match s.ctx x with | some k => k.maps | none => []

/-- A transfer starts in a slot, as outstanding work of the move engine (R289). -/
def State.startXfer (s : State) (c x slot : Nat) (kind : XferKind) (i : Insn) (ds : List Desc) (todo : List Todo) : State :=
  let w := s.newWork c .me
  let v : Xfer := ⟨w.2, kind, i, ds, s.maps x, [], [], [], 0, none, none, false, [], false, false, none⟩
  (w.1.modCore c fun k => { k with xfers := put k.xfers slot v }).askAll c slot todo

/-- An entry that fails when it is taken: ME_LS_RANGE is a fault, every other code goes to its fence (R284, R319). -/
def State.failEntry (s : State) (c code : Nat) : State :=
  if code = 0x4010 then s.faultCore c 0x4010 0 else (s.bump (offMe c 0x48) 1).entryError c code 0

/-- A move-stream entry at the head of a core's move engine is taken, with a free slot; without one it is held (R134, R289). -/
def State.takeMove (s : State) (c : Nat) (sel : Insn → Bool) (run : State → Nat → Nat → Insn → State) : State :=
  match s.headOf c .me, s.coreCtx c with
  | some (.body i _), some x =>
    if sel i then
      match s.freeSlot c with
      | some slot => run (s.take c .me) x slot i
      | none => s.bump (offMe c 0x28) 1
    else s
  | _, _ => s

/-- A change made under the mappings that a transfer translated its ranges with (R361). -/
def State.underMaps (s : State) (x : Nat) (m : List Mapping) (f : State → State) : State :=
  let now := s.maps x
  (f (s.modCtx x fun k => { k with maps := m })).modCtx x fun k => { k with maps := now }

/-- A transfer has done what it does with its data. -/
def State.moved (s : State) (c slot : Nat) : State := s.modXfer c slot fun x => { x with moved := true }

/-! ### Freed objects (R303, R311, R360, R361) -/

/-- An object whose wipe starts: its cached lines leave without write-back, pinned or not, and no fill still on its way brings one back
(R303, R311). -/
def State.wipeStart (s : State) (h : Nat) (o : MemObj) : State :=
  let s0 := o.pages.foldl (fun (t : State) a => t.dropRange a (pageBytes o.pageSize)) s
  let gone (ln : Nat) : Bool := o.pages.any fun a => decide (a / 128 ≤ ln) && decide (ln < (a + pageBytes o.pageSize) / 128)
  let misses := s0.cache.misses.map fun (m : Nat × Miss) => if gone m.2.line then (m.1, { m.2 with install := false, ro := false, held := none }) else m
  let s1 := { s0 with cache := { s0.cache with misses := misses } }
  (s1.modObjs fun k => { k with mems := upd k.mems h fun o => { o with state := .wiping } }).startWipe (.pages h)

/-- Whether any context maps an object. -/
def State.isMapped (s : State) (h : Nat) : Bool := s.objs.ctxs.any fun e => e.2.maps.any fun m => m.obj == h

/-- Whether a transfer under way may have translated its ranges to an object's pages, on which it finishes (R361). -/
def State.heldByWork (s : State) (h : Nat) : Bool := s.cores.any fun k => k.2.xfers.any fun v => v.2.maps.any fun m => m.obj == h

/-- Freed objects that no context maps any longer, and no transfer under way may write, start their wipes (R352, R360, R361). -/
def State.settleFreeing (s : State) : State :=
  s.objs.mems.foldl (fun (t : State) e => if e.2.state = .freeing ∧ !t.isMapped e.1 ∧ !t.heldByWork e.1 then t.wipeStart e.1 e.2 else t) s

/-! ### Lines that read uncorrectable (R307) -/

/-- The line of an HBM byte of a context. -/
def State.vaLine (s : State) (x va : Nat) : Option Nat :=
  if inLocal va then none
  else match s.translate x va 1 false false with
    | .ok ((a, _, _) :: _) => some (a / 128)
    | _ => none

/-- Whether an element of a tensor, or its scale code, lies in a list of lines. -/
def State.elemIn (s : State) (x : Nat) (d : Desc) (lns : List Nat) (o : Nat) : Bool :=
  if lns.isEmpty then false
  else
    let r := d.rowBytes o o
    let sc := if isNarrow d.fmt then [d.scaleBase + o / d.blk / 2] else []
    ((List.range r.2).map (r.1 + ·) ++ sc).any fun a =>
      match s.vaLine x a with | some ln => lns.contains ln | none => false

end Sys2Proof.Machine
end

