-- ==== Sys2Proof/Machine/Copies.lean ====
section
/-! DEFINITION. What a COPY checks and moves (R290, R291, R183, R307), and the MX conversion mode (R33-R41). -/

namespace Sys2Proof.Machine

open Sys2Proof

/-! ### The plan of a COPY -/

/-- Whether pairs of source and destination offsets are whole blocks moved to whole blocks, each in place. -/
def rawPairs (b : Nat) (ps : List (Nat × Nat)) : Bool :=
  let bs := ps.foldl (fun l e => addNew l (e.1 / b, e.2 / b)) []
  ps.all (fun e => e.1 % b == e.2 % b) && bs.all (fun k => (ps.filter fun e => (e.1 / b, e.2 / b) == k).length == b) &&
    (bs.foldl (fun l k => addNew l k.1) []).length == bs.length && (bs.foldl (fun l k => addNew l k.2) []).length == bs.length

/-- Whether a COPY without conversion is a raw copy at a rank (R290). -/
def isRaw (sd dd : Desc) (r : Nat) : Bool :=
  isNarrow sd.fmt && sd.fmt == dd.fmt && sd.blk == dd.blk && sd.bias == dd.bias &&
    rawPairs sd.blk ((sd.offsets r).zip (dd.offsets r))

/-- The mode field of mx_ctl (R35). -/
def mxMode (mx : Nat) : Nat := mx % 4

/-- The scale descriptor of the MX side: the entry at its handle + 1 (R290). -/
def State.mxScale (s : State) (x src dst mx : Nat) : Except Nat (List Desc) :=
  if mxMode mx = 0 then .ok []
  else if (if mxMode mx = 1 then src else dst) = 0xFFFF then .error 0x4020
  else (s.desc x ((if mxMode mx = 1 then src else dst) + 1) (mxMode mx == 2)).map fun d => [d]

/-- The checks of formats and shapes of a COPY, in the order of the log (R35, R42, R290, R183): the code of the first failure.
DESIGN CHOICE (log 63): a COPY without conversion of an E8M0 tensor fails with 0x1005, the code that R42 gives the conversion mode;
a transfer leaves a part of the destination tensor uncovered (R38) exactly where the tensor has a rank stride and the constellation
more than one core; an A40 tensor, whose use R17 limits without a code, is converted like any other. -/
def State.copyFault (s : State) (c r mx : Nat) (size : Nat) (sd dd : Desc) (sc : List Desc) : Option Nat :=
  let conv := mxMode mx != 0
  if conv && (!isNarrow sd.fmt || sd.fmt != dd.fmt || sc.any fun d => d.fmt != 8) then some 0x1005
  else if !conv && (sd.fmt == 8 || dd.fmt == 8) then some 0x1005
  else if conv && (sd.blk != 32 || dd.blk != 32) then some 0x1002
  else if sd.dims ≠ dd.dims ∨ sd.dimSizes ≠ dd.dimSizes then some 0x4004
  else if mxMode mx = 1 ∧ bit mx 2 ∧ dd.rankStride ≠ 0 ∧ 1 < size then some 0x1004
  else if !conv && isNarrow dd.fmt && !(isRaw sd dd r) && !(s.passLists c dd.handle) then some 0x9030
  else none

/-- The ranges that a COPY reads and writes. -/
def copyRanges (r mx : Nat) (sd dd : Desc) (sc : List Desc) : List (Nat × Nat) × List (Nat × Nat) :=
  let scs := sc.flatMap fun d => d.elemRanges r
  if mxMode mx = 1 then (sd.elemRanges r ++ scs, dd.ranges r)
  else if mxMode mx = 2 then (sd.ranges r, dd.elemRanges r ++ scs)
  else (sd.ranges r, dd.ranges r)

/-- The reads of a COPY, each range under the policy of its own descriptor (R294). -/
def State.copyTodo (s : State) (c x mx : Nat) (sd : Desc) (sc : List Desc) : List Todo :=
  let r := s.coreRank c
  if mxMode mx = 1 then s.readTodo c x sd.policy (sd.elemRanges r) ++ sc.flatMap fun d => s.readTodo c x d.policy (d.elemRanges r)
  else s.readTodo c x sd.policy (sd.ranges r)

/-- A COPY as checked when it is taken: its descriptors, source, destination and the MX side's scales, or the code of the first
failure (R290, R291). -/
def State.planCopy (s : State) (c x src dst mx : Nat) : Except Nat (List Desc) :=
  let r := s.coreRank c
  let size := match s.coreSeq c with | some (_, q) => q.members.length | none => 1
  if mxMode mx = 3 then .error 0x1001 else
  match s.desc x src false with
  | .error e => .error e
  | .ok sd => match s.desc x dst true with
    | .error e => .error e
    | .ok dd => match s.mxScale x src dst mx with
      | .error e => .error e
      | .ok sc => match s.copyFault c r mx size sd dd sc with
        | some e => .error e
        | none =>
          let rs := copyRanges r mx sd dd sc
          match s.checkRanges c x true false rs.1, s.checkRanges c x false true rs.2 with
          | some e, _ => .error e
          | none, some e => .error e
          | none, none => .ok (sd :: dd :: sc)

/-! ### Moving the data -/

/-- Blocks of elements put together into write units of at most `per` elements, whole blocks each, from the first element on and
across the gaps of strides: R43 says of a segment only that it is at most 4 KiB (DESIGN CHOICE, log 63). -/
def packBlocks {α : Type} (per : Nat) (l : List (List α)) : List (List α) :=
  let r := l.foldl (fun (acc : List (List α) × List α) b =>
    if !acc.2.isEmpty && decide (per < acc.2.length + b.length) then (acc.1 ++ [acc.2], b) else (acc.1, acc.2 ++ b)) ([], [])
  if r.2.isEmpty then r.1 else r.1 ++ [r.2]

/-- The write units of the move engine for the elements of a narrow destination: segments of at most 4 KiB (R43). -/
def moveUnits (d : Desc) (es : List (Nat × Exact)) : List (List (Nat × Exact)) :=
  packBlocks (max d.blk (4096 * 8 / fmtBits d.fmt)) ((byBlock d.blk es).map (·.2))

/-- Elements written to a destination by a transfer: converted once each, or in converting write units of a narrow one (R290). -/
def State.writeElems (s : State) (c slot x : Nat) (d : Desc) (es : List (Nat × Exact)) : State :=
  if isNarrow d.fmt then
    let us := moveUnits d es
    let s1 := (us.foldl (fun t u => t.narrowUnit c x d u) s).bump (offMe c 0x38) us.length
    if (s1.stats c x d).isNone || s1.statsBad x d then s1.xferFailed c slot else s1
  else es.foldl (fun t e => t.setElem c x d e.1 (encWide d.fmt e.2)) s

/-- A raw copy: element codes and scale codes unchanged (R290). -/
def State.copyRaw (s v : State) (c x : Nat) (sd dd : Desc) (ps : List (Nat × Nat)) : State :=
  let s1 := ps.foldl (fun t e => t.setElem c x dd e.2 (v.elemCode c x sd e.1)) s
  let bs := ps.foldl (fun l e => addNew l (e.1 / sd.blk, e.2 / dd.blk)) []
  let s2 := bs.foldl (fun t b => t.setScale c x dd b.2 (v.scaleCode c x sd b.1)) s1
  if s.kvAppend c x dd then s2.kvMark c x dd dd.bias (bs.map (·.2)) else s2

/-- The pairs of source and destination offsets whose source is readable (R307). -/
def State.goodPairs (s : State) (x r : Nat) (sd dd : Desc) (bad : List Nat) : List (Nat × Nat) :=
  ((sd.offsets r).zip (dd.offsets r)).filter fun e => !(s.elemIn x sd bad e.1)

/-- The data of a COPY without conversion. -/
def State.copyPlain (s : State) (c slot x r : Nat) (sd dd : Desc) (bad : List Nat) : State :=
  let v := s.seenBy c sd.policy
  let ps := s.goodPairs x r sd dd bad
  if isRaw sd dd r then s.copyRaw v c x sd dd ps
  else s.writeElems c slot x dd (ps.map fun e => (e.2, v.elem c x sd e.1))

/-! ### MX conversion (R33-R41) -/

/-- The canonical NaN of an FP8 format (R28). -/
def nanCode (f : Nat) : Nat := if f = 2 then 0x7E else 0x7F

/-- The element codes of a block moved by 2^k, with the substitutions made (R36, R37). -/
def reencode (f : Nat) (ovf : Bool) (k : Int) (cs : List (Nat × Nat)) : List (Nat × Nat) × Nat :=
  let l := cs.map fun e => (e.1, encNarrow f ovf (scaleN k (decNarrow f e.2)))
  (l.map fun e => (e.1, e.2.1), (l.filter fun e => e.2.2).length)

/-- The offset of the `b`-th scale byte of an MX scale array (R34, log 14). -/
def Desc.mxScaleOff (d : Desc) (r b : Nat) : Nat := ((d.offsets r)[b]?).getD (d.offset r [] + b)

/-- Codes written to a tensor. -/
def State.setCodes (s : State) (c x : Nat) (d : Desc) (cs : List (Nat × Nat)) : State :=
  cs.foldl (fun t e => t.setElem c x d e.1 e.2) s

/-- What a conversion has done so far, and what it reports: blocks re-encoded and substitutions (R40). -/
abbrev MxCount := Nat × Nat

/-- One destination block of an import from its scale X and its elements' codes, by destination offset (R37, R39). -/
def State.importBlock (s : State) (c x : Nat) (d : Desc) (t : Int) (n : MxCount) (j xs : Nat) (cs : List (Nat × Nat)) :
    State × MxCount :=
  let k : Int := (xs : Int) - 127 - t + 8
  if xs = 255 then ((s.setCodes c x d (cs.map fun e => (e.1, nanCode d.fmt))).setScale c x d j 0, n)
  else if 0 ≤ k ∧ k ≤ 15 then ((s.setCodes c x d cs).setScale c x d j k.toNat, n)
  else
    let r := reencode d.fmt d.ovf (if k < 0 then k else k - 15) cs
    ((s.setCodes c x d r.1).setScale c x d j (if k < 0 then 0 else 15), (n.1 + 1, n.2 + r.2))

/-- The tensor bias of an import (R38): derived from the greatest scale below 0xFF, or the descriptor's. -/
def importBias (derive : Bool) (d : Desc) (xs : List Nat) : Int :=
  let l := xs.filter fun v => v != 255
  if derive && !l.isEmpty then max (-128) (min 127 ((l.foldl max 0 : Nat) - 127 - 7 : Int)) else d.bias

/-- What a conversion reports: its two counts, held by the transfer until it completes, the substitutions in the destination's
record (R30, R40, R74), and one event with the blocks re-encoded. -/
def State.mxReport (s : State) (c slot x : Nat) (d : Desc) (n : MxCount) : State :=
  let s0 := s.modXfer c slot fun v => { v with mx := some n }
  let s1 := if n.2 = 0 then s0
    else if (s0.stats c x d).isSome then
      ((if s0.statsBad x d then s0.xferError c slot 0x4003 else s0).modStats c x d (addLe 0x3C n.2)).setNonfinite x
    else ((s0.setBit (offTe c 0x408) 3).xferError c slot 0x1010).setNonfinite x
  if n.1 = 0 then s1 else s1.raise 0x1801 (leBytes 2 x ++ leBytes 4 n.1)

/-- The source blocks of an MX import, in order, with their scales; a block whose scale byte reads uncorrectable has none (R307). -/
def State.mxScales (s : State) (c x r : Nat) (sd sc : Desc) (bad : List Nat) : Tab Nat :=
  let w := s.seenBy c sc.policy
  let blocks := (sd.offsets r).foldl (fun l o => addNew l (o / 32)) []
  (blocks.zipIdx.filter fun b => !(s.elemIn x sc bad (sc.mxScaleOff r b.2))).map fun b => (b.1, w.elemCode c x sc (sc.mxScaleOff r b.2))

/-- Whether an MX import fails on a NaN scale, and writes nothing (R39). -/
def mxBarred (f : Nat) (xs : Tab Nat) : Bool := decide (4 ≤ f) && xs.any fun e => e.2 == 255

/-- The pairs of offsets that an MX import converts: element and scale byte readable (R307). -/
def State.mxPairs (s : State) (x r : Nat) (sd dd : Desc) (xs : Tab Nat) (bad : List Nat) : List (Nat × Nat) :=
  (s.goodPairs x r sd dd bad).filter fun e => (look xs (e.1 / 32)).isSome

/-- The data of an MX import (R37-R41). A derived bias comes from the scales that read well (DESIGN CHOICE, log 63). -/
def State.mxImport (s : State) (c slot x r : Nat) (derive : Bool) (sd dd sc : Desc) (bad : List Nat) : State :=
  let v := s.seenBy c sd.policy
  let xs := s.mxScales c x r sd sc bad
  if mxBarred dd.fmt xs then s.xferError c slot 0x1003
  else
    let t := importBias derive dd (xs.map (·.2))
    let s0 := if derive then s.writeDescByte c x dd.handle 0x15 (BitVec.ofInt 8 t) else s
    let ps := s.mxPairs x r sd dd xs bad
    let js := ps.foldl (fun l e => addNew l (e.2 / 32)) []
    let s1 := if s0.kvAppend c x dd then s0.kvMark c x dd t js else s0
    let res := js.foldl (fun (u : State × MxCount) j =>
      let mine := ps.filter fun e => e.2 / 32 == j
      let b := match mine with | e :: _ => e.1 / 32 | [] => 0
      u.1.importBlock c x dd t u.2 j (lookD xs b 255) (mine.map fun e => (e.2, v.elemCode c x sd e.1))) (s1, (0, 0))
    res.1.mxReport c slot x dd res.2

/-- One source block of an export with exponent E: its elements and its scale byte (R36). -/
def State.exportBlock (s : State) (c x : Nat) (d sc : Desc) (so : Nat) (n : MxCount) (e : Int) (cs : List (Nat × Nat)) :
    State × MxCount :=
  let k := e + 127
  let canon (l : List (Nat × Nat)) : List (Nat × Nat) := l.map fun p => (p.1, if isNan (decNarrow d.fmt p.2) then nanCode d.fmt else p.2)
  if 0 ≤ k ∧ k ≤ 254 then ((s.setCodes c x d (canon cs)).setElem c x sc so k.toNat, n)
  else
    let r := reencode d.fmt d.ovf (if k < 0 then e + 127 else e - 127) cs
    ((s.setCodes c x d (canon r.1)).setElem c x sc so (if k < 0 then 0 else 254), (n.1 + 1, n.2 + r.2))

/-- The data of an MX export (R36, R40). -/
def State.mxExport (s : State) (c slot x r : Nat) (sd dd sc : Desc) (bad : List Nat) : State :=
  let v := s.seenBy c sd.policy
  let ps := s.goodPairs x r sd dd bad
  let blocks := (sd.offsets r).foldl (fun l o => addNew l (o / 32)) []
  let res := blocks.zipIdx.foldl (fun (u : State × MxCount) b =>
    let mine := ps.filter fun e => e.1 / 32 == b.1
    if mine.isEmpty then u
    else u.1.exportBlock c x dd sc (sc.mxScaleOff r b.2) u.2 (v.blockExp c x sd sd.bias (b.1 * 32))
      (mine.map fun e => (e.2, v.elemCode c x sd e.1))) (s, (0, 0))
  res.1.mxReport c slot x dd res.2

/-! ### The end of the data of a COPY -/

/-- What a transfer has read and written is counted, its writes as line requests, and leaves the private cache (R286, R313). -/
def State.countMove (s : State) (c x : Nat) (rd wr : List (Nat × Nat)) : State :=
  let lns := s.rangeLines x wr
  (((s.bump (offMe c 0x10) (rangesBytes rd)).bump (offMe c 0x18) (rangesBytes wr)).bump (offMe c 0x20) lns.length).privDrop c
    (lns.map fun e => e.2.1)

/-- The bytes of elements at given offsets, and of their scale codes in a narrow tensor. -/
def Desc.bytesAt (d : Desc) (os : List Nat) : List (Nat × Nat) :=
  let join (l : List (Nat × Nat)) : List (Nat × Nat) := (l.foldl joinRun []).reverse
  join (os.map fun o => d.rowBytes o o) ++ if isNarrow d.fmt then join (os.map fun o => d.scaleSpan o o) else []

/-- The bytes that a COPY writes: all of its destination's, but those of what reads uncorrectable, and none where it fails on a NaN
scale (R39, R307). -/
def State.copyWrites (s : State) (c x r mx : Nat) (sd dd : Desc) (sc : List Desc) (bad : List Nat) : List (Nat × Nat) :=
  let all := (copyRanges r mx sd dd sc).2
  match sc with
  | k :: _ =>
    if mxMode mx = 1 then
      let xs := s.mxScales c x r sd k bad
      if mxBarred dd.fmt xs then []
      else if bad.isEmpty then all else dd.bytesAt ((s.mxPairs x r sd dd xs bad).map (·.2))
    else if bad.isEmpty then all
    else
      let ps := s.goodPairs x r sd dd bad
      let blocks := (sd.offsets r).foldl (fun l o => addNew l (o / 32)) []
      let kept := blocks.zipIdx.filter fun b => ps.any fun e => e.1 / 32 == b.1
      ((ps.map fun e => dd.rowBytes e.2 e.2).foldl joinRun []).reverse ++ k.bytesAt (kept.map fun b => k.mxScaleOff r b.2)
  | [] => if bad.isEmpty then all else dd.bytesAt ((s.goodPairs x r sd dd bad).map (·.2))

/-- Where the bytes of ranges lie: in local store, or at their HBM addresses. -/
def State.places (s : State) (x : Nat) (l : List (Nat × Nat)) : List (Bool × Nat × Nat) :=
  l.flatMap fun r =>
    if inLocal r.1 then [(true, r.1 % 2 ^ 24, r.2)]
    else match s.translate x r.1 r.2 false false with
      | .ok ps => ps.map fun p => (false, p.1, p.2.1)
      | .error _ => []

/-- Whether bytes that a COPY reads are bytes that it writes (R290). -/
def State.overlap (s : State) (x : Nat) (rs : List (Nat × Nat) × List (Nat × Nat)) : Bool :=
  (s.places x rs.1).any fun a => (s.places x rs.2).any fun b => a.1 == b.1 && decide (a.2.1 < b.2.1 + b.2.2) && decide (b.2.1 < a.2.1 + a.2.2)

/-- A range of bytes whose values the spec does not state: free values. -/
def State.drawRange (s : State) (c x policy : Nat) (g : Nat × Nat) : State :=
  let b := s.drawBytes g.2
  b.2.vaWrite c x policy g.1 b.1

/-- The data of a COPY, once all that it reads has arrived; lines that read uncorrectable are left out, with MEM_UNCORRECTABLE
on its fence (R307). Where its source and destination overlap, the bytes it writes are free values (R290). -/
def State.moveCopy (s : State) (c slot x : Nat) (v : Xfer) (mx : Nat) : State :=
  let r := s.coreRank c
  match v.descs with
  | sd :: dd :: sc =>
    let s1 := match sc with
      | k :: _ => if mxMode mx = 1 then s.mxImport c slot x r (bit mx 2) sd dd k v.bad else s.mxExport c slot x r sd dd k v.bad
      | [] => s.copyPlain c slot x r sd dd v.bad
    let rs := copyRanges r mx sd dd sc
    let wr := s.copyWrites c x r mx sd dd sc v.bad
    let s0 := if s.overlap x rs then wr.foldl (fun (t : State) g => t.drawRange c x dd.policy g) s1 else s1
    let s2 := s0.countMove c x rs.1 wr
    (if v.bad.isEmpty then s2 else s2.xferError c slot 0x4003).moved c slot
  | _ => s.moved c slot

end Sys2Proof.Machine
end

