-- ==== Sys2Proof/Machine/Remote.lean ====
section
/-! DEFINITION. Remote copies and triggers at their source (R392, R394, R395, R143): the descriptor fetch, the checks, the line
stores, the flag behind them and the token behind the transfer. -/

namespace Sys2Proof.Machine

open Sys2Proof

/-- The u64 at a mapped address raised by an amount (R393). -/
def State.add64 (s : State) (l : List Piece) (v : Nat) : State :=
  s.writePieces 0 l (leBytes 8 ((leNat (s.seePieces l) + v) % 2 ^ 64))

/-- The address field of a DESC_FETCH and of a job's FLAG: handle and destination rank (log 15). -/
def handleAddr (h rank : Nat) : Nat := h + rank * 2 ^ 16

/-- The address field of a TOKEN request: rank and channel (log 15). -/
def tokenAddr (rank ch : Nat) : Nat := rank + ch * 64

/-- The step 2 checks of a remote copy (R392): equal formats. The bytes of an E8M0 tensor are moved like any other's, since R392 asks no
more and R33 speaks of reading and writing its data (DESIGN CHOICE, log 63). -/
def remoteFault (sd dd : Desc) : Option Nat :=
  if sd.dims ≠ dd.dims ∨ sd.dimSizes ≠ dd.dimSizes then some 0x4004
  else if sd.fmt ≠ dd.fmt ∨ isNarrow sd.fmt ∧ (sd.blk ≠ dd.blk ∨ sd.bias ≠ dd.bias) then some 0x7007
  else none

/-- The failure of an entry that reaches a unit absent in the grade (R202). -/
def State.absentUnit (s : State) (c : Nat) : State := (s.bump (offLr 0x30) 1).failEntry c 0x9010

/-! ### The image of the destination -/

/-- The bytes of the rows of a source at a rank, by destination address; bytes of lines that read uncorrectable are left out. -/
def State.elemImage (s v : State) (c x rs rd : Nat) (sd dd : Desc) (bad : List Nat) : List (Nat × Byte) :=
  ((sd.rows rs).zip (dd.rows rd)).flatMap fun e =>
    let a := sd.rowBytes e.1.1 e.1.2
    let b := dd.rowBytes e.2.1 e.2.2
    ((List.range a.2).filter fun i =>
      match (if bad.isEmpty then none else s.vaLine x (a.1 + i)) with | some ln => !bad.contains ln | none => true).map
        fun i => (b.1 + i, v.vaByte c x (a.1 + i))

/-- The scale bytes of the destination: whole bytes of codes, the neighbour of a block's code beside it (R392). -/
def State.scaleImage (s v : State) (c x rs rd : Nat) (sd dd : Desc) (bad : List Nat) : List (Nat × Byte) :=
  let bs := ((sd.offsets rs).zip (dd.offsets rd)).foldl (fun l e => addNew l (e.2 / dd.blk, e.1 / sd.blk)) []
  let bytes := bs.foldl (fun l e => addNew l (e.1 / 2)) []
  bytes.filterMap fun k =>
    let lo := bs.find? fun e => e.1 == 2 * k
    let hi := bs.find? fun e => e.1 == 2 * k + 1
    let pair : Nat × Nat := match lo, hi with
      | some a, some b => (a.2, b.2)
      | some a, none => (a.2, a.2 + 1)
      | none, some b => (b.2 - 1, b.2)
      | none, none => (0, 0)
    let src := sd.scaleBase + pair.1 / 2
    if (match (if bad.isEmpty then none else s.vaLine x src) with | some ln => bad.contains ln | none => false) then none
    else some (dd.scaleBase + k, BitVec.ofNat 8 (v.scaleCode c x sd pair.1 + 16 * v.scaleCode c x sd pair.2))

/-- Bytes by address put together into stores of consecutive bytes within one aligned line (R388). -/
def cutStores (l : List (Nat × Byte)) : List (Nat × List Byte) :=
  (l.foldl (fun (acc : List (Nat × List Byte)) e =>
    match acc with
    | (a, bs) :: t => if e.1 = a + bs.length ∧ e.1 / 128 = a / 128 then (a, bs ++ [e.2]) :: t else (e.1, [e.2]) :: acc
    | [] => [(e.1, [e.2])]) []).reverse

/-- The stores of a remote copy. -/
def State.remoteStores (s : State) (c x rs rd : Nat) (sd dd : Desc) (bad : List Nat) : List (Nat × List Byte) :=
  let v := s.seenBy c sd.policy
  cutStores (s.elemImage v c x rs rd sd dd bad) ++
    if isNarrow sd.fmt then cutStores (s.scaleImage v c x rs rd sd dd bad) else []

/-! ### Within the device -/

/-- The flag of a copy within the device: 1 added at the flag word, read as an auxiliary tensor (R393), in HBM (R390), as one line request
of 8 bytes (R313); a word that reads uncorrectable is not written (R307). -/
def State.localFlag (s : State) (c slot x h rank : Nat) : State :=
  let s0 := s.readDescs x [h]
  match s0.aux x h true with
  | .error e => s0.xferError c slot e
  | .ok d =>
    let a := d.auxBase rank
    if inLocal a then s0.xferError c slot 0x7003
    else match s0.translate x a 8 false true with
      | .error e => s0.xferError c slot e
      | .ok l =>
        let s1 := s0.fetchPieces x l
        if s1.badPieces l then s1.xferError c slot 0x4003
        else (((s1.add64 l 1).privDrop c (pieceLines l)).bump (offMe c 0x20) 1).bump (offMe c 0x18) 8

/-- The data of a COPY_REMOTE of kind this device, and its flag. -/
def State.moveOwn (s : State) (c slot x : Nat) (v : Xfer) (rank : Nat) (flag : Option Nat) : State :=
  match v.descs with
  | sd :: dd :: _ =>
    let r := s.coreRank c
    let st := s.remoteStores c x r rank sd dd v.bad
    let s1 := st.foldl (fun t e => t.vaWrite c x dd.policy e.1 e.2) s
    let s2 := s1.countMove c x (sd.ranges r) (st.map fun e => (e.1, e.2.length))
    let s3 := if v.bad.isEmpty then s2 else s2.xferError c slot 0x4003
    (match flag with | some h => s3.localFlag c slot x h rank | none => s3).moved c slot
  | _ => s.moved c slot

/-! ### To another node -/

/-- The reads of a transfer's source are asked for. -/
def State.startReads (s : State) (c slot x : Nat) (sd : Desc) : State :=
  s.askAll c slot (s.readTodo c x sd.policy (sd.ranges (s.coreRank c)))

/-- The descriptor fetched for a remote copy has arrived: it is checked, and the source is read (R392 step 2). -/
def State.remoteDesc (s : State) (c slot : Nat) (d : Desc) : State :=
  match s.xfer c slot, s.coreCtx c with
  | some v, some x =>
    match v.descs with
    | [sd] =>
      match remoteFault sd d with
      | some e => (s.xferError c slot e).moved c slot
      | none => (s.modXfer c slot fun y => { y with descs := [sd, d] }).underMaps x v.maps fun t => t.startReads c slot x sd
    | _ => s
  | _, _ => s

/-- The source of a remote copy has been read: its line stores are sent, and its flag behind them (R392 step 3, R394). -/
def State.moveRemote (s : State) (c slot x : Nat) (v : Xfer) (rank : Nat) (flag : Option Nat) : State :=
  match v.descs with
  | sd :: dd :: _ =>
    let r := s.coreRank c
    let stores := (s.remoteStores c x r rank sd dd v.bad).map fun e => Todo.store e.1 e.2
    let flags := match flag with | some h => [Todo.flag (handleAddr h rank)] | none => []
    let sent := (s.remoteStores c x r rank sd dd v.bad).map fun e => e.2.length
    let s1 := (s.bump (offMe c 0x10) (rangesBytes (sd.ranges r))).bump (offMe c 0x18) sent.sum
    let s2 := if v.bad.isEmpty then s1 else s1.xferError c slot 0x4003
    (s2.moved c slot).askAll c slot (stores ++ flags)
  | _ => s.moved c slot

/-! ### Taking the entries -/

/-- A COPY_REMOTE within the device as taken (R392, R390), of whatever format the two tensors share (log 63). -/
def State.takeOwn (s : State) (c x slot : Nat) (i : Insn) (src dst rank : Nat) : State :=
  match s.desc x src false with
  | .error e => s.failEntry c e
  | .ok sd => match s.desc x dst true with
    | .error e => s.failEntry c e
    | .ok dd =>
      let r := s.coreRank c
      if (dd.ranges rank).any fun a => inLocal a.1 then s.failEntry c 0x7003
      else match remoteFault sd dd, s.checkRanges c x true false (sd.ranges r), s.checkRanges c x false true (dd.ranges rank) with
        | some e, _, _ => s.failEntry c e
        | none, some e, _ => s.failEntry c e
        | none, none, some e => s.failEntry c e
        | none, none, none => s.startXfer c x slot .remote i [sd, dd] (s.readTodo c x sd.policy (sd.ranges r))

/-- A COPY_REMOTE to another node as taken: the job's class, the source, the reach, then the fetch (R389, R392), which is one of the
engine's 512 line requests (R400). -/
def State.takeRemote (s : State) (c x slot : Nat) (i : Insn) (src dst rank : Nat) : State :=
  match s.senderJob x false with
  | .error e => s.failEntry c e
  | .ok _ => match s.desc x src false with
    | .error e => s.failEntry c e
    | .ok sd => match s.checkRanges c x true false (sd.ranges (s.coreRank c)), s.unreachable (i.node s.pins.strapTray) with
      | some e, _ => s.failEntry c e
      | none, some e => s.failEntry c e
      | none, none =>
        s.startXfer c x slot .remote i [sd] [.fetch (handleAddr dst rank)]

/-- A TRIGGER as taken (R389, R395). -/
def State.takeTrigger (s : State) (c x slot : Nat) (i : Insn) (proc arg : Nat) : State :=
  match s.senderJob x true with
  | .error e => s.failEntry c e
  | .ok _ => match s.unreachable (i.node s.pins.strapTray) with
    | some e => s.failEntry c e
    | none =>
      ((s.startXfer c x slot .trigger i [] []).moved c slot).sendFor c slot
        ⟨i.node s.pins.strapTray, .trigger, some (c, slot), x, none, s.jobId x, proc, leBytes 4 arg, 0, false, 0, none⟩

end Sys2Proof.Machine
end

