-- ==== Sys2Proof/Machine/Collectives.lean ====
section
/-! DEFINITION. Collectives and votes at a member (R397, R398, R257, R260, R438): joining an instance, contributions, the sums, the
end of an instance that fails. -/

namespace Sys2Proof.Machine

open Sys2Proof

/-! ### Instances -/

/-- The members of a collective by scope, in ascending node id (R397). -/
def State.collNodes (s : State) (entry scope : Nat) : List Nat :=
  let me := s.node
  if scope = 0 then [me]
  else if scope = 1 then
    let m := s.reg (offTfJob entry 0)
    ((List.range 8).filter fun k => bit m k).map fun k => s.pins.strapTray * 8 + k
  else (List.range 1024).filter fun n => bit (s.reg (offSfJob entry (n / 64 * 8))) (n % 64)

/-- The instance of a collective id at a job-table entry (R397). -/
def State.findColl (s : State) (entry id n : Nat) : Option (Nat × Coll) :=
  s.fab.colls.find? fun e => e.2.entry == entry && e.2.collId == id && e.2.index == n

/-- An instance changed. -/
def State.modColl (s : State) (i : Nat) (f : Coll → Coll) : State :=
  { s with fab := { s.fab with colls := upd s.fab.colls i f } }

/-- An instance opened: its key. -/
def State.openColl (s : State) (k : Coll) : State × Nat :=
  ({ s with fab := { s.fab with colls := put s.fab.colls s.fab.nextColl k, nextColl := s.fab.nextColl + 1 } }, s.fab.nextColl)

/-- Whether a member's COLL agrees with an instance in members, kind, format, elements and constellation size (R397). -/
def Coll.agrees (k : Coll) (nodes : List Nat) (kind format elems size : Nat) : Bool :=
  k.nodes == nodes && k.kind == kind && k.format == format && k.elems == elems && k.size == size

/-- Every participant of an instance has contributed: each rank of each member (R397). -/
def Coll.full (k : Coll) : Bool :=
  !k.nodes.isEmpty && k.nodes.all fun n => (List.range k.size).all fun r => k.parts.any fun p => p.1 == n && p.2.rank == r

/-- The contribution of a participant. -/
def Coll.part (k : Coll) (n r : Nat) : Option CollMsg := (k.parts.find? fun p => p.1 == n && p.2.rank == r).map (·.2)

/-- The contributions in ascending participant index (R397). -/
def Coll.inOrder (k : Coll) : List CollMsg := k.nodes.flatMap fun n => (List.range k.size).filterMap fun r => k.part n r

/-! ### The end of an UPDATE's vote in error (R260) -/

/-- An UPDATE fails before it has written anything: its fence enters the error state (R260, R271). -/
def State.loseUpd (s : State) (u : Nat) (k : Upd) : State :=
  { s with uu := { s.uu with updates := upd s.uu.updates u fun k => { k with lost := true, err := 0x5006 } } }.xferError
    k.core k.slot 0x5006

/-- A vote instance ends in error: neither passed nor failed; the UPDATEs bound to it write nothing (R260). -/
def State.loseVote (s : State) (inst entry : Nat) : State :=
  let s1 := { s with uu := { s.uu with votes := put s.uu.votes inst none },
                     objs := { s.objs with jobs := upd s.objs.jobs entry fun j => { j with lastLost := true } } }
  s1.uu.updates.foldl (fun t e => if e.2.inst = inst ∧ e.2.outcome.isNone ∧ !e.2.lost then t.loseUpd e.1 e.2 else t) s1

/-- The local participants of an instance are done with it. -/
def State.leaveColl (s : State) (k : Coll) : State :=
  k.locals.foldl (fun t l => t.modXfer l.1 l.2.2 fun x => { x with coll := none, moved := true }) s

/-- An instance fails on this member with a code (R397, R407, R411). -/
def State.failColl (s : State) (i code : Nat) : State :=
  match look s.fab.colls i with
  | none => s
  | some k =>
    let s1 := k.locals.foldl (fun t l => t.xferError l.1 l.2.2 code) s
    let s2 := { s1.leaveColl k with fab := { (s1.leaveColl k).fab with colls := del s1.fab.colls i } }
    if k.kind = 3 then s2.loseVote i k.entry else s2

/-! ### Contributions -/

/-- The interval of the risk level in effect; values below 2 take effect as 2 (R447). -/
def State.sealInterval (s : State) : Nat := max 2 (fld (s.reg (offDk 0x810)) (16 * min 3 s.surv.riskLevel) 16)

/-- The step of a job's settled seal; none without one. -/
def Prot.settledStep (p : Prot) : Option Nat := p.settled.map fun x => x.sched.step

/-- The seal bits of a job's vote on this member: seal_req, seal_open, seal_void (R438). -/
def State.sealBits (s : State) (entry : Nat) (j : Job) : Bool × Bool × Bool :=
  match look s.surv.prots entry with
  | none => (false, false, false)
  | some p =>
    if p.state = .off then (false, false, false)
    else
      let due := match p.settledStep with | some t => decide (s.sealInterval ≤ j.step - t) | none => false
      (p.sealReq || due || s.surv.swapPending,
       p.state == .baselining || p.state == .lapsed || p.needsRestore || s.surv.pair != .paired || p.openSeal.isSome && p.stage != .complete,
       p.sealVoid)

/-- The values of a source at a rank (R31, R398); an element that reads uncorrectable contributes a free value. -/
def State.collValues (s : State) (c x r : Nat) (d : Desc) (bad : List Nat) : List Exact × State :=
  let v := s.seenBy c d.policy
  (d.offsets r).foldl (fun (acc : List Exact × State) o =>
    if acc.2.elemIn x d bad o then
      let w := acc.2.draw
      (acc.1 ++ [decodeFmt d.fmt (w.1.toNat % 2 ^ fmtBits d.fmt) (v.blockExp c x d d.bias o)], w.2)
    else (acc.1 ++ [v.elem c x d o], acc.2)) ([], s)

/-- Whether a contribution holds a value that is not finite (R257). -/
def nonfiniteMsg (m : CollMsg) : Bool := m.values.any fun v => !(finiteN v)

/-- The job entry's finiteness flag set to not-finite (R257). -/
def State.flagJob (s : State) (entry : Nat) (bad : Bool) : State :=
  if bad then { s with objs := { s.objs with jobs := upd s.objs.jobs entry fun j => { j with nonfinite := true } } } else s

/-- The contribution of a transfer to its instance, once its source has been read; it goes to every other member (R397, R398).
A non-finite element of a reduction's source sets the job's finiteness flag here, one of another member's or of the result
when the instance completes (R257, log 22). -/
def State.moveColl (s : State) (c slot x : Nat) (v : Xfer) (i : Nat) : State :=
  match look s.fab.colls i with
  | none => s.moved c slot
  | some k =>
    let r := s.coreRank c
    let job := lookD s.objs.jobs k.entry noJob
    let vals := match v.descs with
      | sd :: _ => s.collValues c x r sd v.bad
      | [] => ([], s)
    let seals := s.sealBits k.entry job
    let msg : CollMsg := ⟨k.collId, k.index, k.kind, k.format, k.elems, r, k.size, k.nodes, vals.1, k.kind == 3 && job.nonfinite,
      k.kind == 3 && seals.1, k.kind == 3 && seals.2.1, k.kind == 3 && seals.2.2⟩
    let rd := match v.descs with | sd :: _ => rangesBytes (sd.ranges r) | [] => 0
    let met := (k.kind == 0 || k.kind == 2) && nonfiniteMsg msg
    let s1 := ((vals.2.modColl i fun k => { k with parts := k.parts ++ [(s.node, msg)] }).bump (offMe c 0x10) rd).flagJob k.entry met
    let s2 := if v.bad.isEmpty then s1 else s1.xferError c slot 0x4003
    let others := k.nodes.filter fun n => n != s.node
    match others.findSome? fun n => s2.unreachable n with
    | some code => s2.failColl i code
    | none => others.foldl (fun t n => t.sendFor c slot
        ⟨n, .coll i msg, some (c, slot), x, none, job.id, k.collId, [], 0, false, 0, none⟩) s2

/-! ### Results (R398) -/

/-- A participant's value of an element. -/
def msgValue (m : CollMsg) (n : Nat) : Exact := (m.values[n]?).getD zero

/-- The FP32 sum of an element over the participants, from participant 0 upward: each source decoded to FP32, each addition
rounded. -/
def sumAt (ps : List CollMsg) (n : Nat) : Exact :=
  match ps with
  | [] => zero
  | p :: rest => rest.foldl (fun a q => addF a (rF32 (msgValue q n))) (rF32 (msgValue p n))

/-- The elements of a participant's destination; an all-gather moves the source values, which the destination converts once
(R25). -/
def Coll.result (k : Coll) (q : Nat) : List Exact :=
  let ps := k.inOrder
  if k.kind = 1 then ps.flatMap fun p => p.values
  else
    let n := k.elems / (if k.kind = 0 then max 1 ps.length else 1)
    (List.range n).map fun i => sumAt ps (i + if k.kind = 0 then q * n else 0)

/-- Whether a reduction meets a non-finite element in another member's input or in a result, where none of node `n` has met one
already (R257, R398, log 22). -/
def Coll.meetsNonfinite (k : Coll) (n : Nat) : Bool :=
  let ps := k.inOrder
  (k.kind == 0 || k.kind == 2) && !(k.parts.any fun p => p.1 == n && nonfiniteMsg p.2) &&
    (ps.any nonfiniteMsg || (List.range k.elems).any fun i => !(finiteN (sumAt ps i)))

/-- The participant index of a rank of this device (R397). -/
def State.participant (s : State) (k : Coll) (r : Nat) : Nat := (k.nodes.findIdx fun n => n == s.node) * k.size + r

/-- The destination of a local participant is written. -/
def State.writeResult (s : State) (k : Coll) (l : Nat × Nat × Nat) : State :=
  match s.xfer l.1 l.2.2, s.coreCtx l.1 with
  | some v, some x =>
    match v.descs with
    | _ :: dd :: _ =>
      s.underMaps x v.maps fun t =>
        (t.writeElems l.1 l.2.2 x dd ((dd.offsets l.2.1).zip (k.result (s.participant k l.2.1)))).countMove l.1 x []
          (dd.ranges l.2.1)
    | _ => s
  | _, _ => s

/-! ### Taking a COLL -/

/-- The code of a member list that cannot stand (R397, R202): it leaves out this device, or the tray grade cannot reach it. -/
def State.nodesFault (s : State) (nodes : List Nat) : Option Nat :=
  if !nodes.contains s.node then some 0x7008
  else if s.ident.grade = .tray ∧ nodes.any (fun n => n / 8 != s.pins.strapTray) then some 0x9010
  else none

/-- The elements a destination must have for a source of `n` elements and `p` participants (R398); none where `n` does not
divide. -/
def destElems (kind n p : Nat) : Option Nat :=
  if kind = 0 then (if n % p = 0 then some (n / p) else none) else if kind = 1 then some (n * p) else some n

/-- The checks of the tensors of a COLL of kinds 0 to 2. An E8M0 tensor fails with 0x1005, as in a COPY (DESIGN CHOICE, log 63). -/
def State.planColl (s : State) (c x src dst kind parts : Nat) : Except Nat (List Desc) :=
  match s.desc x src false with
  | .error e => .error e
  | .ok sd => match s.desc x dst true with
    | .error e => .error e
    | .ok dd =>
      let r := s.coreRank c
      if sd.fmt = 8 ∨ dd.fmt = 8 then .error 0x1005
      else if destElems kind sd.count parts ≠ some dd.count then .error 0x7008
      else if isNarrow dd.fmt && !(s.passLists c dst) then .error 0x9030
      else match s.checkRanges c x true false (sd.ranges r), s.checkRanges c x false true (dd.ranges r) with
        | some e, _ => .error e
        | none, some e => .error e
        | none, none => .ok [sd, dd]

/-- A vote collective id of a job-table entry: ids are each job's own. -/
def voteKey (entry id : Nat) : Nat := entry * 2 ^ 16 + id

/-- The instance number of a rank's next COLL of an id in a job, and that COLL counted: the n-th that a rank takes joins the n-th
instance, one that fails when it is taken among them (R397). The count runs on from kernel to kernel of the job (DEDUCED, log 43). -/
def State.countColl (s : State) (entry id rank : Nat) : State × Nat :=
  let k := id * 64 + rank
  let n := match look s.objs.jobs entry with | some j => lookD j.colls k 0 | none => 0
  (s.modObjs fun o => { o with jobs := upd o.jobs entry fun j => { j with colls := put j.colls k (n + 1) } }, n)

/-- A COLL as taken joins instance `n` of its id, and its source is asked for (R397). -/
def State.joinColl (s : State) (c x slot : Nat) (i : Insn) (entry kind scope id n size : Nat) (nodes : List Nat)
    (ds : List Desc) : State :=
  let fmt := match ds with | sd :: _ => sd.fmt | [] => 0
  let elems := match ds with | sd :: _ => sd.count | [] => 0
  let found := s.findColl entry id n
  let r : State × Nat := match found with
    | some (k, _) => (s, k)
    | none => s.openColl ⟨entry, id, n, kind, scope, nodes, fmt, elems, size, [], [], x⟩
  let agree := nodes.contains s.node && match found with
    | some (_, k) => k.agrees nodes kind fmt elems size && (k.locals.isEmpty || k.scope == scope)
    | none => true
  let s1 := if kind = 3 then r.1.modCore c fun k => { k with lastVote := put k.lastVote (voteKey entry id) r.2 } else r.1
  let s2 := s1.modColl r.2 fun k =>
    { k with scope := scope, ctx := x, locals := k.locals ++ [(c, s.coreRank c, slot)] }
  let rd := match ds with | sd :: _ => s.readTodo c x sd.policy (sd.ranges (s.coreRank c)) | [] => []
  let s3 := (s2.startXfer c x slot .coll i ds []).modXfer c slot fun v => { v with coll := some r.2 }
  if agree then s3.askAll c slot rd
  else ((nodes.filter fun m => m != s.node).foldl (fun t m => t.sendFor c slot
    ⟨m, .coll r.2 ⟨id, n, kind, fmt, elems, s.coreRank c, size, nodes, [], false, false, false, false⟩, some (c, slot), x, none,
      s.jobId x, id, [], 0, false, 0, none⟩) s3).failColl r.2 0x7008

/-- A vote that a core's COLL cannot join as it is taken: the core's latest vote of that id ends in error, so that an UPDATE bound to it
writes nothing (R259, R260). -/
def State.voteFails (s : State) (c entry kind id : Nat) : State :=
  if kind = 3 then
    let i := s.fab.nextColl
    (({ s with fab := { s.fab with nextColl := i + 1 } }.modCore c fun k =>
      { k with lastVote := put k.lastVote (voteKey entry id) i })).loseVote i entry
  else s

/-- A COLL at the head of a move engine (R397, R389, R202). A member list that leaves this device out disagrees with every other
member's, so that the instance fails on them all. -/
def State.takeColl (s : State) (c x slot : Nat) (i : Insn) (src dst kind scope id : Nat) : State :=
  match (s.ctx x).bind fun k => k.job with
  | none => s.failEntry c 0x7002
  | some entry =>
    let b := s.countColl entry id (s.coreRank c)
    let s1 := b.1
    let nodes := s1.collNodes entry scope
    let size := match s1.coreSeq c with | some (_, q) => q.members.length | none => 1
    match (if scope = 0 then none else match s1.senderJob x false with | .error e => some e | .ok _ => none), s1.nodesFault nodes with
    | some e, _ => (s1.failEntry c e).voteFails c entry kind id
    | none, some e => if e = 0x9010 then (s1.absentUnit c).voteFails c entry kind id else s1.joinColl c x slot i entry kind scope id b.2 size nodes []
    | none, none =>
      if kind = 3 then s1.joinColl c x slot i entry kind scope id b.2 size nodes []
      else match s1.planColl c x src dst kind (nodes.length * size) with
        | .error e => s1.failEntry c e
        | .ok ds => s1.joinColl c x slot i entry kind scope id b.2 size nodes ds

end Sys2Proof.Machine
end

