-- ==== Sys2Proof/Machine/Code.lean ====
section
/-! DEFINITION. Words of Peunro code that both the loader and the engines read: thread-code words (R185), the fields of matrix
instructions (R177), instruction starts, and the reconvergence point of a branch (R213). -/

namespace Sys2Proof.Machine

open Sys2Proof

/-- The mode of a code (R106). -/
def modeOf (v : Nat) : TeMode := if v = 0 then .full else if v = 1 then .thin else if v = 2 then .quad else .mv

/-- The fields of a MATMUL or MX: the 16 bits that MATMUL holds in w0[41:26], and words 1 to 3 (R177, R185); none for the
reserved drain code. -/
def matFields (h w1 w2 w3 : Nat) : Option MatF :=
  let d := fld h 11 2
  if d = 3 then none
  else some
    { mode := modeOf (fld h 0 2), first := fld h 2 4, countLog2 := fld h 6 3, quadrant := fld h 9 2,
      drain := if d = 0 then .none else if d = 1 then .final else .spill, batch := fld h 13 3 + 1,
      a := fld w1 0 16, b := fld w1 16 16, out := fld w1 32 16, init := fld w1 48 16,
      m := fld w2 0 16 + 1, n := fld w2 16 16 + 1, k := fld w2 32 24 + 1, l := fld w3 0 32 }

/-- Word 0 of a thread-code instruction (R185). -/
structure TWord where
  op : Nat
  words : Nat
  dst : Nat
  a : Nat
  b : Nat
  guard : Nat
  neg : Bool
  ua : Bool
  imm : Nat
  deriving DecidableEq, Repr

/-- The fields of a thread-code word (R185). -/
def tword (w : Nat) : TWord :=
  { op := fld w 0 8, words := fld w 8 2 + 1, dst := fld w 10 6, a := fld w 16 6, b := fld w 22 6, guard := fld w 28 3,
    neg := bit w 31, ua := bit w 32, imm := fld w 33 31 }

/-- The thread-code word at a byte offset of a PROGRAM section; none past its end. -/
def wordAt (prog : List Byte) (pos : Nat) : Option TWord :=
  if pos % 8 = 0 ∧ pos + 8 ≤ prog.length then some (tword (leAt prog pos 8)) else none

/-- The starts of the instructions of a program, in order: MX takes 4 words, every other instruction 1 (R185). -/
def startsFrom (prog : List Byte) : Nat → Nat → List Nat
  | 0, _ => []
  | n + 1, pos => match wordAt prog pos with
    | none => []
    | some w => pos :: startsFrom prog n (pos + (if w.op = 0x66 then 32 else 8))

/-- The instruction starts of a program. -/
def starts (prog : List Byte) : List Nat := startsFrom prog (prog.length / 8) 0

/-- Where a BRA goes: its own address plus its signed word offset (log 13). -/
def braTarget (pos : Nat) (w : TWord) : Int := pos + 8 * signed w.imm 31

/-- Whether a guard is the constant p7 (R185). -/
def TWord.always (w : TWord) : Bool := w.guard == 7 && !w.neg

/-- Where control may go after the instruction at a position; the end of the program is left out, an EXIT of all lanes has
nowhere to go. A BRX may go to any instruction (R214, log 13). -/
def succs (prog : List Byte) (pos : Nat) : List Nat :=
  match wordAt prog pos with
  | none => []
  | some w =>
    let next := pos + (if w.op = 0x66 then 32 else 8)
    if w.op = 0x62 then (if w.always then [] else [next])
    else if w.op = 0x60 then
      let t := (braTarget pos w).toNat
      if w.always then [t] else [t, next]
    else if w.op = 0x61 then starts prog ++ (if w.always then [] else [next])
    else [next]

/-- Whether control may leave the program at a position: an EXIT, or no instruction there. -/
def mayLeave (prog : List Byte) (pos : Nat) : Bool :=
  match wordAt prog pos with
  | none => true
  | some w => w.op == 0x62 && !(w.neg && w.guard == 7)

/-- The positions control can reach from a list without passing `avoid`. -/
def reachFrom (prog : List Byte) (avoid : Option Nat) : Nat → List Nat → List Nat → List Nat
  | 0, _, seen => seen
  | _, [], seen => seen
  | n + 1, p :: ps, seen =>
    if p ∈ seen ∨ some p = avoid then reachFrom prog avoid n ps seen
    else reachFrom prog avoid n (succs prog p ++ ps) (p :: seen)

/-- Work bound of a search: one turn for each edge. -/
def reachFuel (prog : List Byte) : Nat := (prog.length / 8 + 2) * (prog.length / 8 + 2) + 2

/-- Whether control from some positions can leave the program without passing `avoid`. -/
def leaves (prog : List Byte) (avoid : Option Nat) (ps : List Nat) : Bool :=
  (reachFrom prog avoid (reachFuel prog) ps []).any fun p => mayLeave prog p

/-- The immediate post-dominator of a branch (R213): among the positions that every way from it out of the program passes, the
one that every other lies behind; none where there is none. -/
def postDom (prog : List Byte) (pos : Nat) : Option Nat :=
  let ss := succs prog pos
  if leaves prog none ss then
    let cands := (reachFrom prog none (reachFuel prog) ss []).filter fun p => p != pos && !(leaves prog (some p) ss)
    cands.find? fun p => cands.all fun c => c == p || !(leaves prog (some c) [p])
  else none

end Sys2Proof.Machine
end

