-- ==== Sys2Proof/Machine/Passes.lean ====
section
/-! DEFINITION. Passes: the open that writes tensor biases (R55), the settle in its steps (R56-R69, R71), the verdict (R66). -/

namespace Sys2Proof.Machine

open Sys2Proof

/-- The pass table entry of an id (R170). -/
def Kernel.passOf (k : Kernel) (i : Nat) : Option PassEnt := k.passes.find? fun (e : PassEnt) => e.id == i

/-- The settle leader, the member of rank 0 (R56, R135). -/
def Seq.leader (q : Seq) : Nat := (q.members.head?).getD 0

/-- The TE_SCALE_CTL of the leader (R76). -/
def State.scaleCtl (s : State) (q : Seq) : Nat := s.reg (offTe q.leader 0x400)

/-- A core starts a pass with an empty run list and no pass maximum for a tensor (R55). -/
def Core.openTensor (k : Core) (h : Nat) : Core := { k with runs := del k.runs h, passMax := del k.passMax h }

/-- The bias written at the open: next_bias, or with headroom where the history is empty (R55). -/
def openBias (headroom : Nat) (b : List Byte) : Int :=
  let next := signed (leAt b 0x14 1) 8
  if leAt b 0x11 1 = 0 then max (-128) (min 127 (next + headroom)) else next

/-- One listed tensor opened (R55): nothing for a descriptor that fails R159 or is not narrow; without a mapped record the
bias stays as it is. -/
def State.openTensor (s : State) (sq : Nat) (q : Seq) (h : Nat) : State :=
  match s.desc q.ctx h true with
  | .error _ => s
  | .ok d =>
    if isNarrow d.fmt then
      let s1 := q.members.foldl (fun t c => t.modCore c fun k => k.openTensor h) ((s.readDescs q.ctx [h]).fetchVa q.ctx d.statsBase 64)
      match s1.stats q.leader q.ctx d with
      | none => s1
      | some b =>
        let t := openBias (fld (s1.scaleCtl q) 0 4) b
        (s1.writeDescByte q.leader q.ctx h 0x15 (BitVec.ofInt 8 t)).supersede sq q.ctx d t
    else s

/-- The pass instance of an id on a sequencer may be opened: a stream stands at its PASS_OPEN and no other instance is open
(R182), or the instance has been ordered to run again (R66). -/
def Seq.opening (q : Seq) : Option (PassEnt × Nat) :=
  let ids := [Engine.te, .ge, .me].filterMap fun e => match q.next e with
    | some (.body (.passOpen i) _) => some i
    | _ => none
  let id := match q.pass with
    | none => ids.head?
    | some p => if p.stage = .rerun then some p.id else none
  let reruns := match q.pass with | some p => p.reruns | none => 0
  match id with
  | some i => (q.kernel.passOf i).map fun e => (e, reruns)
  | none => none

/-- PASS_OPEN (R55, R182). -/
def execPassOpen (sq : Nat) (s : State) : Res :=
  .next (s.guarded (match look s.seqs sq with
  | none => s
  | some q =>
    match q.opening with
    | none => s
    | some (e, reruns) =>
      if s.live q.ctx && !q.preempting then
        let p : PassInst :=
          { id := e.id, stage := .opened, marks := [], broadcastSettle := [], credits := [], settleCredits := [],
            biases := e.tensors.map fun h => (h, s.descBias q.ctx h), opened := [], ceilings := [], outdated := [],
            reruns := reruns }
        let s1 := e.tensors.foldl (fun t h => t.openTensor sq q h) (s.setSeq sq { q with pass := some p })
        s1.setSeq sq { q with pass := some { p with opened := e.tensors.map fun h => (h, s1.descBias q.ctx h) } }
      else s))

/-- PASS_SETTLE (R182): an engine takes the PASS_SETTLE entry at its head. -/
def execPassSettle (core : Nat) (eng : Engine) (s : State) : Res :=
  .next (match s.headOf core eng with
  | some (.body (.passSettle _) _) => (s.take core eng).modCore core fun k => { k with settled := addNew k.settled eng }
  | _ => s)

/-- PASS_END_CREDIT (R56 step 1, R182): the three engines have taken PASS_SETTLE and their writes have committed. -/
def execPassEndCredit (core : Nat) (s : State) : Res :=
  let k := s.core core
  .next (match s.coreSeq core with
  | some (sq, q) =>
    match q.pass with
    | some p =>
      if s.live q.ctx && p.stage == .opened && k.settled.length == 3 && k.work.isEmpty then
        s.setSeq sq { q with pass := some { p with credits := addNew p.credits core } }
      else s
    | none => s
  | none => s)

/-! ### The settle (R56) -/

/-- Step 3: a core rebases its runs of a tensor to the final bias (R54), and keeps none. -/
def State.settleRuns (s : State) (x c r : Nat) (d : Desc) (t : Int) : State :=
  ((lookD (s.core c).runs d.handle []).foldl (fun u run => u.rebaseRun c x r d t run) (s.statsErr c x d)).modCore c
    fun k => { k with runs := del k.runs d.handle }

/-- Step 4: a core merges its pass maximum into pass_emax by an atomic maximum, clamped to -127 to 127 (R58). -/
def State.mergeMax (s : State) (x c : Nat) (d : Desc) : State :=
  match look (s.core c).passMax d.handle with
  | none => s
  | some m =>
    let v := max (-127) (min 127 m)
    s.modStats c x d fun b => if signed (leAt b 0x17 1) 8 < v then setLe b 0x17 1 (unsigned v 8) else b

/-- The blocks of a tensor at a rank. -/
def Desc.blocksAt (d : Desc) (r : Nat) : List Nat := ((d.offsets r).foldl (fun l o => addNew l (o / d.blk)) [])

/-- Whether anything stands in a block: a scale code or an element code other than 0. -/
def State.blockUsed (s : State) (c x r : Nat) (d : Desc) (j : Nat) : Bool :=
  s.scaleCode c x d j != 0 || (d.blockElems r j).any fun o => s.elemCode c x d o != 0

/-- Blocks of a key-value tensor that no core wrote in the pass are rebased too (R71), each by the first member it belongs to: those
that the device has written before, from the bias they stand under, and those that hold anything though the device wrote them in
no unit, from the bias before the open (DESIGN CHOICE, log 62). -/
def State.settleOld (s : State) (q : Seq) (p : PassInst) (d : Desc) (t : Int) : State :=
  let told := lookD p.biases d.handle t
  let ran (c : Nat) : List Nat := (s.writers c d).flatMap fun m => (lookD (s.core m).runs d.handle []).flatMap (·.blocks)
  (q.members.zipIdx.foldl (fun (u : State × List (Nat × Nat)) m =>
    let js := (d.blocksAt m.2).filter fun j => !((ran m.1).contains j) && !(u.2.contains (d.kvRank m.2, j)) &&
      ((s.kvBlock m.1 q.ctx d j).isSome || s.blockUsed m.1 q.ctx m.2 d j)
    (js.foldl (fun v j =>
        let b := match s.kvBlock m.1 q.ctx d j with | some k => k.bias | none => told
        if b = t then v else v.rebaseBlock m.1 q.ctx m.2 d b t j) u.1,
      u.2 ++ js.map fun j => (d.kvRank m.2, j))) (s, [])).1

/-- Every block of a key-value tensor that the device has written stands under the final bias. -/
def State.kvSettled (s : State) (x h : Nat) (t : Int) : State :=
  s.modCtx x fun k => { k with kv := k.kv.map fun b => if b.handle = h then { b with bias := t } else b }

/-- Steps 3 and 4 of one tensor on every core. -/
def State.settleTensor (s : State) (q : Seq) (p : PassInst) (h : Nat) : State :=
  match s.desc q.ctx h true with
  | .error _ => s
  | .ok d =>
    if isNarrow d.fmt then
      let t := s.descBias q.ctx h
      let kv := s.kvAppend q.leader q.ctx d
      let s0 := s.readDescs q.ctx [h]
      let s1 := if kv then s0.settleOld q p d t else s0
      let s2 := q.members.zipIdx.foldl (fun u m => (u.settleRuns q.ctx m.1 m.2 d t).mergeMax q.ctx m.1 d) s1
      if kv then s2.kvSettled q.ctx h t else s2
    else s

/-- SETTLE_TOKEN (R56 steps 2 to 4). -/
def execSettleToken (sq : Nat) (s : State) : Res :=
  .next (s.guarded (match look s.seqs sq with
  | none => s
  | some q =>
    match q.pass with
    | none => s
    | some p =>
      if s.live q.ctx && p.stage == .opened && q.members.all fun c => p.credits.contains c then
        let hs := match q.kernel.passOf p.id with | some e => e.tensors | none => []
        let s1 := hs.foldl (fun t h => t.settleTensor q p h) s
        s1.setSeq sq { q with pass := some { p with stage := .settled, settleCredits := q.members } }
      else s))

/-- The next format on an escalation path (R65). -/
def nextFormat (path : Bool) (f : Nat) : Option Nat :=
  if f = 6 then some (if path then 4 else 5)
  else if f = 5 then some 3
  else if f = 4 then some (if path then 2 else 3)
  else if f = 3 ∨ f = 2 then some 1
  else none

/-- Whether a ceiling lies on the path after a format (R65); a path has at most three steps. -/
def belowCeiling (path : Bool) (f ceil : Nat) : Bool :=
  let a := nextFormat path f
  let b := a.bind (nextFormat path)
  let c := b.bind (nextFormat path)
  a == some ceil || b == some ceil || c == some ceil

/-- next_bias of a record whose history is not empty (R59). -/
def predictedBias (b : List Byte) : Int :=
  let m := (List.range (leAt b 0x11 1)).foldl (fun m i => max m (signed (leAt b i 1) 8)) (-128 : Int)
  max (-128) (min 127 (m - 7 + fld (leAt b 0x12 1) 0 2))

/-- The record after the history of step 6: pass_emax appended where the pass had a maximum, and next_bias (R58, R59). -/
def appendHistory (b : List Byte) : List Byte :=
  let e := leAt b 0x17 1
  let head := leAt b 0x10 1 % 16
  let b1 := if e = 0x80 then b
    else setLe (setLe (setLe b head 1 e) 0x10 1 ((head + 1) % 16)) 0x11 1 (min 16 (leAt b 0x11 1 + 1))
  if leAt b1 0x11 1 = 0 then b1 else setLe b1 0x14 1 (unsigned (predictedBias b1) 8)

/-- rel of a record (R63). -/
def relMse (b : List Byte) : Exact :=
  let ssq := decIeee 23 (leAt b 0x1C 4)
  if zeroN ssq then zero else divF (decIeee 23 (leAt b 0x18 4)) ssq

/-- Whether a record's tensor exceeds its limit (R63). -/
def exceeds (check : Bool) (b : List Byte) : Bool :=
  let lim := decIeee 23 (leAt b 0x20 4)
  let rel := relMse b
  check && !zeroN lim && (ltN lim rel || isNan rel)

/-- The record at the end of step 6: last_rel_mse, the sums, pass_emax and the lowered flag cleared (R56, R63). -/
def clearSums (b : List Byte) : List Byte :=
  let rel := (encF32 (relMse b)).toNat
  let fl := leAt b 0x13 1
  setLe (setLe (setLe (setLe b 0x24 4 rel) 0x18 8 0) 0x17 1 0x80) 0x13 1 (setFld fl 2 1 0)

/-- Step 6 of one tensor: history, prediction, statistic, calibration (R58-R71). Answers whether it calls for a re-run. -/
def State.leadTensor (s : State) (q : Seq) (e : PassEnt) (h : Nat) : State × Bool :=
  let lead := q.leader
  let ctl := s.scaleCtl q
  match s.desc q.ctx h true with
  | .error _ => (s, false)
  | .ok d =>
    if !(isNarrow d.fmt) then (s, false) else
    match s.stats lead q.ctx d with
    | none => (s, false)
    | some b =>
      let rel := leBytes 4 (encF32 (relMse b)).toNat
      let s1 := ((s.readDescs q.ctx [h]).statsErr lead q.ctx d).modStats lead q.ctx d fun r => clearSums (appendHistory r)
      let who := leBytes 2 q.ctx ++ leBytes 2 h
      if exceeds (bit ctl 4) b then
        let fl := leAt b 0x13 1
        if bit ctl 5 && belowCeiling (bit fl 1) d.fmt (leAt b 0x16 1) then
          if bit fl 0 then (s1.raise 0x1807 (who ++ rel), false)
          else
            let f := (nextFormat (bit fl 1) d.fmt).getD d.fmt
            let at_ := leNat (match s1.translate q.ctx (s1.descAddr q.ctx h + 0x14) 1 false false with
              | .ok k => s1.seePieces k
              | .error _ => [])
            let s2 := (s1.modStats lead q.ctx d fun r => setLe r 0x15 1 f).writeDescByte lead q.ctx h 0x14
              (BitVec.ofNat 8 (setFld at_ 0 4 f))
            let s3 := (s2.raise 0x1804 (who ++ leBytes 1 d.fmt ++ leBytes 1 f ++ rel)).bump (offTe lead 0x430) 1
            if e.replayable then (s3, true) else (s3.entryError lead 0x1011 0, false)
        else (s1.raise 0x1805 (who ++ rel), false)
      else (s1, false)

/-- Step 6 for all tensors of a pass. -/
def State.leadPass (s : State) (q : Seq) (e : PassEnt) : State × Bool :=
  e.tensors.foldl (fun (u : State × Bool) h => let r := u.1.leadTensor q e h; (r.1, u.2 || r.2)) (s, false)

/-- The verdict re-run: every stream stands again at its PASS_OPEN (R66, R182). -/
def Seq.restart (q : Seq) (p : PassInst) : Seq :=
  let q1 := p.marks.foldl (fun (k : Seq) m => k.setFetch m.1 m.2) q
  { q1 with pass := some { p with stage := .rerun, marks := [], broadcastSettle := [], credits := [], settleCredits := [],
                                  reruns := p.reruns + 1 } }

/-- The quiescent boundary of TE_SCALE_CTL (R44, R76) on a core, which starts the streams anew after the settle. -/
def State.settledCore (s : State) (c : Nat) : State :=
  (s.adopt (offTe c 0x400) 0 8).modCore c fun k => { k with settled := [] }

/-- SETTLE_DONE_TOKEN (R56 steps 5 to 7, R65-R69). -/
def execSettleDoneToken (sq : Nat) (s : State) : Res :=
  .next (s.guarded (match look s.seqs sq with
  | none => s
  | some q =>
    match q.pass with
    | none => s
    | some p =>
      match q.kernel.passOf p.id with
      | none => s
      | some e =>
        if s.live q.ctx && p.stage == .settled && q.members.all fun c => p.settleCredits.contains c then
          let r := s.leadPass q e
          let again := r.2 && decide (p.reruns < fld (s.scaleCtl q) 6 2)
          let s1 := if r.2 && !again then r.1.raise 0x1806 (leBytes 2 q.ctx ++ leBytes 2 p.id) else r.1
          let s2 := s1.setSeq sq (if again then q.restart p else { q with pass := none })
          q.members.foldl (fun t c => t.settledCore c) s2
        else s))

end Sys2Proof.Machine
end

