-- ==== Sys2Proof/Machine/Tensor.lean ====
section
/-! DEFINITION. The tensor engine: tiles and their arithmetic (R79-R97), checks (R80, R99, R103-R119, R131, R132), places, drains
and swaps (R88-R91, R120, R121, R563), TX_ACCEPT (R189), the issue ramp (R122-R124). -/

namespace Sys2Proof.Machine

open Sys2Proof

/-! ### Units -/

/-- A unit that holds nothing. -/
def TeUnitSt.empty : TeUnitSt := ⟨none, none, none, none, none, false, 0, 0, none, false⟩

/-- The number of a unit of a core: arrays 0 to 15, quadrant q of array a at 16 + 4a + q, the path at 80. -/
def unitCode : TeUnit → Nat
  | .array a => a
  | .quad a q => 16 + 4 * a + q
  | .path => 80

/-- A unit of a core. -/
def State.unit (s : State) (c u : Nat) : TeUnitSt := lookD s.te (c * 128 + u) TeUnitSt.empty

/-- A unit of a core set. -/
def State.setUnit (s : State) (c u : Nat) (k : TeUnitSt) : State := { s with te := put s.te (c * 128 + u) k }

/-- The array of a unit; the path's number, in ACC_LENGTH_EXCEEDED too, is 16: R102 gives the path none (DESIGN CHOICE, log 64). -/
def arrayOf (u : Nat) : Nat := if u < 16 then u else if u < 80 then (u - 16) / 4 else 16

/-- The units a matrix instruction names, with their positions in its set (R105, R118). -/
def MatF.units (f : MatF) : List (Nat × Nat) :=
  match f.mode with
  | .mv => [(80, 0)]
  | .quad => [(16 + 4 * f.first + f.quadrant, 0)]
  | _ => (List.range (2 ^ f.countLog2)).map fun p => (f.first + p, p)

/-- Columns of one unit of a set (R118). -/
def MatF.unitCols (f : MatF) : Nat :=
  match f.mode with | .full => 32 | .thin => 128 | .quad => 16 | .mv => f.tileCols

/-- The column span of an instruction, that an output block may not exceed (R119): on the path, the N given. -/
def MatF.spanOf (f : MatF) (n : Nat) : Nat :=
  match f.mode with | .mv => n | _ => f.unitCols * 2 ^ f.countLog2

/-- The column span of a MATMUL or MX. -/
def MatF.span (f : MatF) : Nat := f.spanOf f.n

/-- The tiles an array's units hold, active or behind it. -/
def State.tilesOn (s : State) (c u : Nat) : List Tile :=
  let us := if u = 80 then [80] else let a := arrayOf u; [a, 16 + 4 * a, 17 + 4 * a, 18 + 4 * a, 19 + 4 * a]
  us.flatMap fun v => (s.unit c v).active.toList ++ (s.unit c v).next.toList

/-- An array takes an instruction in its mode: it holds no tile in another (R106). -/
def State.modeReady (s : State) (c : Nat) (f : MatF) : Bool :=
  f.units.all fun u => (s.tilesOn c u.1).all fun t => t.mode == f.mode

/-- Every unit an instruction names has a free place (R120): of two drains that wait for their swaps the second fills it, and so does
an instruction that waits behind a stalled swap. -/
def State.placeFree (s : State) (c : Nat) (f : MatF) : Bool :=
  f.units.all fun u => (s.unit c u.1).nextDrain.isNone && (s.unit c u.1).waiting.isNone

/-- An instruction is taken into its places: free ones, on arrays that hold no tile of another mode (R106, R120). -/
def State.mayIssue (s : State) (c : Nat) (f : MatF) : Bool := s.modeReady c f && s.placeFree c f

/-- A unit that an instruction names has a swap that waits for its shadow set: no further product enters its tree (R90), and the arrays
of a set issue in lock step (R118). -/
def State.stalledOn (s : State) (c : Nat) (f : MatF) : Bool := f.units.any fun u => (s.unit c u.1).stalled

/-- Where a unit's next products go: the tile behind a waiting drain, else the active one. -/
def TeUnitSt.target (k : TeUnitSt) : Option Tile := if k.pendingDrain.isSome then k.next else k.active

/-- The tile that products go to, set. -/
def TeUnitSt.setTarget (k : TeUnitSt) (t : Tile) : TeUnitSt :=
  if k.pendingDrain.isSome then { k with next := some t } else { k with active := some t }

/-- Whether an instruction would start a tile on a unit it names. -/
def State.startsTile (s : State) (c : Nat) (f : MatF) : Bool := f.units.any fun u => (s.unit c u.1).target.isNone

/-! ### Tiles of an instruction (R178) -/

/-- Row origin, column origin, rows and columns of a tile. -/
structure TileBox where
  row : Nat
  col : Nat
  rows : Nat
  cols : Nat
  deriving DecidableEq, Repr

/-- The `k`-th tile of an instruction: row tiles outside, column tiles inside. -/
def MatF.box (f : MatF) (k : Nat) : TileBox :=
  let ct := max 1 f.colTiles
  let r := k / ct * f.tileRows
  let c := k % ct * f.tileCols
  if f.mode = .mv then ⟨0, c, f.batch, min f.tileCols (f.n - c)⟩ else ⟨r, c, min f.tileRows (f.m - r), min f.tileCols (f.n - c)⟩

/-- The cell or entry of row `m` and column `n` of a unit's part of a tile (R94, R109, R110, R115). -/
def MatF.cell (f : MatF) (m n : Nat) : Nat :=
  match f.mode with
  | .full => m * 32 + n
  | .thin => (8 * (n / 32) + m) * 32 + n % 32
  | .quad => (16 * (f.quadrant / 2) + m) * 32 + 16 * (f.quadrant % 2) + n
  | .mv => n * f.batch + m

/-- Row and column, within a unit's part of a tile, of a cell or entry. -/
def cellPlace (mode : TeMode) (batch c : Nat) : Nat × Nat :=
  match mode with
  | .full => (c / 32, c % 32)
  | .thin => (c / 32 % 8, c / 256 * 32 + c % 32)
  | .quad => (c / 32 % 16, c % 16)
  | .mv => (c % max 1 batch, c / max 1 batch)

/-- The cells of a unit's part of a tile: (cell, row, column) within the part. -/
def MatF.cells (f : MatF) (b : TileBox) (p : Nat) : List (Nat × Nat × Nat) :=
  let w := f.unitCols
  (List.range b.rows).flatMap fun m => (List.range (min w (b.cols - p * w))).map fun n => (f.cell m n, m, n)

/-! ### Checks -/

/-- Why an instruction stops: an error of its fence (R132), or a fault. -/
inductive MatStop where
  | err (code : Nat)
  | fault (code : Nat)
  deriving DecidableEq, Repr

/-- Indices of element k of row m of A; on the path, of vector m (R112). -/
def aIdx (m k : Nat) : List Nat := [k, m]

/-- Indices of element k of column n of B; on the path, of row n of the weights (R113). -/
def bIdx (f : MatF) (n k : Nat) : List Nat := if f.mode = .mv then [k % 32, n, k / 32] else [k, n]

/-- Whether an operand's elements from one to another, and their scales, lie in the context's local store (R104, R131). -/
def State.lsHolds (s : State) (c r : Nat) (d : Desc) (lo hi : List Nat) : Bool :=
  let a := d.offset r lo
  let b := d.offset r hi
  let first := if d.fmt = 4 ∨ d.fmt = 5 then d.base + a / 4 * 3 else d.byteOf a
  s.inLs c first (d.spanEnd b - first) &&
    (!(isNarrow d.fmt) || s.inLs c (d.scaleSpan a b).1 (d.scaleSpan a b).2)

/-- The checks of an operand format by mode (R80 step 2, R112). -/
def teFormat (f : MatF) (fmt : Nat) : Bool := isNarrow fmt || fmt == 1 && f.mode != .mv

/-- The layout of the path's weights (R113). -/
def mvLayout (f : MatF) (r : Nat) (d : Desc) : Bool :=
  d.dims == 3 && d.dimSizes == [32, f.n, (f.k + 31) / 32] && d.dimStrides == [1, 32, 32 * f.n] &&
    d.byteOf (d.offset r [0, 0, 0]) % 4096 == 0

/-- The shape and array set of an instruction (R105, R117, R132). -/
def MatF.check (f : MatF) : Option MatStop :=
  if f.mode ≠ .mv ∧ (4 < f.countLog2 ∨ 16 < f.first + 2 ^ f.countLog2 ∨ f.mode = .quad ∧ f.countLog2 ≠ 0) then some (.err 0x2004)
  else if f.m = 0 ∨ f.n = 0 ∨ f.k = 0 ∨ 2 ^ 24 < f.k ∨ f.mode = .mv ∧ (f.batch = 0 ∨ 4 < f.batch) then some (.err 0x2001)
  else none

/-- The debug attribute of a context (R99). -/
def State.debugCtx (s : State) (x : Nat) : Bool := match s.ctx x with | some c => c.debug | none => false

/-- The checks of an output that is a destination of a drain of a kind, with the columns that its instruction spans: R159, R99, R92,
R119, R183, R104. A final drain to E8M0 fails with TE_MODE_FORMAT, a code the rules give an operand (DESIGN CHOICE, log 64). -/
def State.checkOut (s : State) (c x : Nat) (f : MatF) (span : Nat) (b : TileBox) : Except MatStop Desc :=
  match s.desc x f.out true with
  | .error e => .error (.err e)
  | .ok d =>
    let r := s.coreRank c
    if d.fmt = 7 ∧ !s.debugCtx x then .error (.err 0x1020)
    else if f.drain = .spill ∧ d.fmt ≠ 0 ∧ d.fmt ≠ 7 then .error (.err 0x1021)
    else if d.fmt = 8 then .error (.err 0x2002)
    else if isNarrow d.fmt ∧ (span < d.blk ∨ b.col % d.blk ≠ 0) then .error (.err 0x2001)
    else if isNarrow d.fmt ∧ !s.passLists c f.out then .error (.err 0x9030)
    else if s.lsHolds c r d [b.col, b.row] [b.col + b.cols - 1, b.row + b.rows - 1] then .ok d
    else .error (.fault 0x2010)

/-- What a matrix instruction reads: A, B and the initial value. -/
structure MatOps where
  a : Desc
  b : Desc
  init : Option Desc
  deriving DecidableEq, Repr

/-- The checks of an initial value (R91, R92, R99). -/
def State.checkInit (s : State) (c x : Nat) (f : MatF) (b : TileBox) : Except MatStop (Option Desc) :=
  if f.init = 0 then .ok none
  else match s.desc x f.init false with
    | .error e => .error (.err e)
    | .ok d =>
      if d.fmt = 7 ∧ !s.debugCtx x then .error (.err 0x1020)
      else if d.fmt ≠ 0 ∧ d.fmt ≠ 7 then .error (.err 0x1021)
      else if s.lsHolds c (s.coreRank c) d [b.col, b.row] [b.col + b.cols - 1, b.row + b.rows - 1] then .ok (some d)
      else .error (.fault 0x2010)

/-- The checks of a tile before anything of it is issued: the formats in the order of R80; around them, which of several failures is
reported is the model's order (DESIGN CHOICE, log 64). -/
def State.checkMat (s : State) (c x : Nat) (f : MatF) (b : TileBox) : Except MatStop MatOps :=
  let r := s.coreRank c
  match f.check, s.desc x f.a false, s.desc x f.b false with
  | some e, _, _ => .error e
  | none, .error e, _ => .error (.err e)
  | none, .ok _, .error e => .error (.err e)
  | none, .ok da, .ok db =>
    if !(teFormat f da.fmt) || !(teFormat f db.fmt) then .error (.err 0x2002)
    else if isNarrow da.fmt != isNarrow db.fmt then .error (.err 0x1022)
    else if f.mode = .mv ∧ !(mvLayout f r db) then .error (.err 0x2003)
    else match s.checkInit c x f b with
      | .error e => .error e
      | .ok i =>
        match if f.drain = .none then (.ok da) else s.checkOut c x f f.span b with
        | .error e => .error e
        | .ok _ =>
          if s.lsHolds c r da (aIdx b.row 0) (aIdx (b.row + b.rows - 1) (f.k - 1)) &&
              s.lsHolds c r db (bIdx f b.col 0) (bIdx f (b.col + b.cols - 1) (f.k - 1)) then .ok ⟨da, db, i⟩
          else .error (.fault 0x2010)

/-- A matrix instruction that stops: its fence errs (R103, R132), counted where the code is one of R132; or its context
faults (R131). -/
def State.matStop (s : State) (c : Nat) : MatStop → State
  | .err e => (if 0x2001 ≤ e ∧ e ≤ 0x2004 then s.bump (offTe c 0x140) 1 else s).entryError c e 0
  | .fault e => s.faultCore c e 0

/-! ### Block sums and accumulation (R81-R87, R93, R94) -/

/-- The summation block of an instruction's operands (R81); 1 for BF16 (R84). -/
def MatOps.blk (o : MatOps) : Nat := if isNarrow o.a.fmt then min o.a.blk o.b.blk else 1

/-- The products of a block, summed exactly (R82, R83); BF16 has one product (R84). -/
def State.blockSum (s : State) (c x r : Nat) (f : MatF) (o : MatOps) (m n k0 len : Nat) : Exact :=
  let prod (k : Nat) : Exact :=
    let ia := o.a.offset r (aIdx m k)
    let ib := o.b.offset r (bIdx f n k)
    mulN (decodeFmt o.a.fmt (s.elemCode c x o.a ia) 0) (decodeFmt o.b.fmt (s.elemCode c x o.b ib) 0)
  if len = 1 ∧ !(isNarrow o.a.fmt) then prod k0
  else
    let v := (List.range len).foldl (fun t i => addN t (prod (k0 + i))) zero
    let e := s.blockExp c x o.a o.a.bias (o.a.offset r (aIdx m k0)) + s.blockExp c x o.b o.b.bias (o.b.offset r (bIdx f n k0))
    if zeroN v then zero else scaleN e v

/-- The contributions of one output element in ascending K (R85, R87), of the summation blocks that are wholly issued. -/
def State.contribs (s : State) (c x r : Nat) (f : MatF) (o : MatOps) (m n : Nat) : List Exact :=
  (List.range (f.k / o.blk)).map fun j => s.blockSum c x r f o m n (j * o.blk) o.blk

/-- The contribution of a last block that K ends inside: it closes at the drain (R89, R117). -/
def State.partOf (s : State) (c x r : Nat) (f : MatF) (o : MatOps) (m n : Nat) : Option Exact :=
  if f.k % o.blk = 0 then none else some (s.blockSum c x r f o m n (f.k / o.blk * o.blk) (f.k % o.blk))

/-- The rounding word of block addition `j` of a cell, for a long tile with stochastic rounding in effect (R93, R94, R280). -/
def Tile.word (t : Tile) (key attempt j c : Nat) : Nat :=
  roundWord key t.pos t.tag t.rank t.ordinal t.arrPos attempt (j % 2 ^ 20 * 1024 + c)

/-- Whether the block addition after `j` others is in a long tile (R93). -/
def Tile.longAt (t : Tile) (j : Nat) : Bool := t.long || decide (2 ^ t.longLog2 < t.l) || decide (2 ^ t.longLog2 < j + 1)

/-- What the additions of a cell leave: the accumulator, rounding words assigned, additions of finite values that gave an
infinity. -/
abbrev CellSum := A40 × Nat × Nat

/-- One block addition of a cell (R86, R93). -/
def Tile.addBlock (t : Tile) (key attempt c : Nat) (u : CellSum) (jb : Nat × Exact) : CellSum :=
  let sr := t.longAt jb.1 && !t.srOff
  let v := addA40 u.1 jb.2 (if sr then some (t.word key attempt jb.1 c) else none)
  let inf := finiteN (decA40 u.1) && finiteN jb.2 && !(finiteN (decA40 v))
  (v, u.2.1 + b2n sr, u.2.2 + b2n inf)

/-- All additions of a cell from the tile's count on. -/
def Tile.addCell (t : Tile) (key attempt c : Nat) (acc : A40) (cs : List Exact) : CellSum :=
  cs.zipIdx.foldl (fun u b => t.addBlock key attempt c u (t.blocks + b.2, b.1)) (acc, 0, 0)

/-- A tile after `n` more block additions of each of its cells: its count, whether it is long, whether it has passed 2^20. -/
def Tile.counted (t : Tile) (n : Nat) : Tile :=
  { t with blocks := t.blocks + n, long := t.long || decide (2 ^ t.longLog2 < t.l) || decide (2 ^ t.longLog2 < t.blocks + n),
           lenSeen := t.lenSeen || decide (2 ^ 20 < t.blocks + n) }

/-- A tile whose partly issued block closes: its contributions added, with the words and infinities counted (R89). -/
def Tile.closePart (t : Tile) (key attempt : Nat) : Tile × Nat × Nat :=
  let res := t.part.foldl (fun (u : Tab A40 × Nat × Nat) e =>
    let v := t.addBlock key attempt e.1 ((look t.acc e.1).getD 0, 0, 0) (t.blocks, e.2)
    (put u.1 e.1 v.1, u.2.1 + v.2.1, u.2.2 + v.2.2)) (t.acc, 0, 0)
  ({ t.counted 1 with acc := res.1, part := [] }, res.2)

/-- A new tile of a unit, under the values of TE_ACC_CTL in effect at its start (R93, R101). Its rounding stream is that of the entry
that opens it, also for what later MATMULs add: R94 and R280 give each tile one entry (DESIGN CHOICE, log 64). -/
def State.newTile (s : State) (c : Nat) (q : Seq) (f : MatF) (o : MatOps) (p pos ordinal : Nat) : Tile :=
  let ctl := s.reg (offTe c 0x500)
  { mode := f.mode, arrPos := p, acc := [], part := [], blocks := 0, l := if f.l = 0 then (f.k + o.blk - 1) / o.blk else f.l,
    long := false, longLog2 := clamp 10 24 (fld ctl 0 5), srOff := bit ctl 5, lenSeen := false, pos := pos, ordinal := ordinal,
    tag := q.tag, rank := s.coreRank c, last := pos }

/-- The starting content of a cell: +0, or the initial value of the tile (R88, R91). -/
def State.initCell (s : State) (c x r : Nat) (o : MatOps) (m n : Nat) : A40 :=
  match o.init with
  | none => 0
  | some d =>
    let v := s.elemCode c x d (d.offset r [n, m])
    if d.fmt = 7 then BitVec.ofNat 40 v else encA40 (decIeee 23 v)

/-- A tile with one unit's part of an instruction issued to it, with the words and infinities counted; `fresh` says that the
tile starts with this instruction and loads its initial value. The initial value of a MATMUL that adds to an open tile is checked and
not loaded: R91 starts tiles from it (DESIGN CHOICE, log 64). -/
def State.runTile (s : State) (c x r : Nat) (q : Seq) (f : MatF) (o : MatOps) (b : TileBox) (p : Nat) (fresh : Bool)
    (t : Tile) : Tile × Nat × Nat :=
  let cells := f.cells b p
  let w := p * f.unitCols
  let res := cells.foldl (fun (u : (Tab A40 × Tab Exact) × Nat × Nat) e =>
    let m := b.row + e.2.1
    let n := b.col + w + e.2.2
    let acc := match look t.acc e.1 with
      | some a => a
      | none => if fresh then s.initCell c x r o m n else 0
    let v := t.addCell q.jobKey.toNat q.attempt e.1 acc (s.contribs c x r f o m n)
    let part := match s.partOf c x r f o m n with | some y => put u.1.2 e.1 y | none => u.1.2
    ((put u.1.1 e.1 v.1, part), u.2.1 + v.2.1, u.2.2 + v.2.2)) ((t.acc, []), 0, 0)
  ({ t.counted (f.k / o.blk) with acc := res.1.1, part := res.1.2 }, res.2)

/-- The counters of block additions (R100): a tile as it was and as it is, additions made, words, infinities. -/
def State.countTile (s : State) (c : Nat) (t0 t : Tile) (adds : Nat) (w : Nat × Nat) : State :=
  let s1 := ((s.bump (offTe c 0x510) adds).bump (offTe c 0x520) w.1).bump (offTe c 0x528) w.2
  let s2 := if t.long && !t0.long then s1.bump (offTe c 0x518) 1 else s1
  if t.lenSeen && !t0.lenSeen then (s2.setBit (offTe c 0x508) 3).bump (offTe c 0x530) 1 else s2

/-- The partly issued block of the tile that products go to closes: at its drain (R89), or as a further MATMUL starts a block in the
cells' block-sum registers (R82, log 64). -/
def State.closeBlock (s : State) (c u : Nat) (q : Seq) : State :=
  let k := s.unit c u
  match k.target with
  | none => s
  | some t =>
    if t.part.isEmpty then s
    else
      let r := t.closePart q.jobKey.toNat q.attempt
      (s.setUnit c u (k.setTarget r.1)).countTile c t r.1 t.part.length r.2

/-- One unit's part of a tile issued (R79-R97). -/
def State.issueUnit (s : State) (c x : Nat) (q : Seq) (f : MatF) (o : MatOps) (b : TileBox) (pos ordinal : Nat)
    (u : Nat × Nat) : State :=
  if (f.cells b u.2).isEmpty then s else
  let sc := s.closeBlock c u.1 q
  let k := sc.unit c u.1
  let fresh := k.target.isNone
  let s1 := if fresh then
      let s0 := sc.adopt (offTe c 0x500) 0 6
      if f.mode = .mv then s0.adopt (offTe c 0) 0 2 else s0
    else sc
  let t0 := k.target.getD (s1.newTile c q f o u.2 pos ordinal)
  let r := s1.runTile c x (s.coreRank c) q f o b u.2 fresh t0
  let n := (f.cells b u.2).length
  ((s1.setUnit c u.1 (k.setTarget { r.1 with last := pos })).bump (offTe c (if f.mode = .mv then 0x110 else 0x108)) (n * f.k)).countTile c
    t0 r.1 (n * (f.k / o.blk)) r.2

/-- A tile issued to every unit its instruction names. -/
def State.issueTile (s : State) (c x : Nat) (q : Seq) (f : MatF) (o : MatOps) (b : TileBox) (pos ordinal : Nat) : State :=
  f.units.foldl (fun t u => t.issueUnit c x q f o b pos ordinal u) s

/-- What the checks report to the tensor engine: an uncorrectable error in an edge register, a block-sum register or an accumulator
sets parity_seen and faults the context (R129, R131); errors of core memory as R287 states. Answers whether the engine stops. -/
def State.teErr (s : State) (c : Nat) (e : CoreErr) : State × Bool :=
  if e = .parity then (((s.setBit (offTe c 0x8) 4).modCore c fun k => { k with faulty := true }).faultCore c 0x2011 0, true) else s.coreErr c e

/-- A tile takes its place behind a stalled swap (R90, R120): its products are outstanding work. -/
def State.placeTile (s : State) (c : Nat) (f : MatF) (k : Nat) (o : MatOps) (pos : Nat) : State :=
  let w := s.newWork c .te
  f.units.foldl (fun t u => t.setUnit c u.1 { t.unit c u.1 with waiting := some ⟨f, k, pos, o.a, o.b, o.init, w.2, none⟩ }) w.1

/-- MATMUL (R177, R80, R120): the next tile of a matrix instruction, with what the checks report as it is issued (R131, R287). -/
def execMatmul (core : Nat) (err : CoreErr) (s : State) : Res :=
  .next (match s.headOf core .te, s.coreSeq core with
  | some (.body (.matmul f) k), some (_, q) =>
    if s.mayIssue core f && !((s.core core).noNewTile && s.startsTile core f) then
      let pos := (s.core core).headPos .te
      let b := f.box k
      match s.checkMat core q.ctx f b with
      | .error e => (s.take core .te).matStop core e
      | .ok o =>
        let r := (s.take core .te).teErr core err
        if r.2 then r.1
        else if r.1.stalledOn core f then r.1.placeTile core f k o pos
        else r.1.issueTile core q.ctx q f o b pos 0
    else s
  | _, _ => s)

/-! ### Drains (R88-R91, R563) -/

/-- A drain at a unit: for the active tile, or for the tile behind a drain that waits (R120). -/
def TeUnitSt.addDrain (k : TeUnitSt) (j : DrainJob) : TeUnitSt :=
  if k.pendingDrain.isSome then { k with nextDrain := some j } else { k with pendingDrain := some j }

/-- A drain put behind the open tile of a unit, whose last block closes (R89). -/
def State.putDrain (s : State) (c : Nat) (q : Seq) (j : DrainJob) (u : Nat) : State :=
  let s1 := s.closeBlock c u q
  s1.setUnit c u ((s1.unit c u).addDrain j)

/-- The part of a drain that a unit of its set makes. -/
def DrainJob.part (j : DrainJob) (f : MatF) (b : TileBox) (p : Nat) : DrainJob :=
  { j with row := b.row, col := b.col + p * f.unitCols, rows := b.rows, cols := b.cols - p * f.unitCols }

/-- A drain of a unit's part of a tile; where the tile still waits behind a stalled swap the drain waits with it (R120). -/
def State.drainUnit (s : State) (c : Nat) (q : Seq) (j : DrainJob) (f : MatF) (b : TileBox) (u : Nat × Nat) : State :=
  match (s.unit c u.1).waiting with
  | some w => s.setUnit c u.1 { s.unit c u.1 with waiting := some { w with drain := some (j.part f b u.2) } }
  | none => s.putDrain c q (j.part f b u.2) u.1

/-- A drain of the named units that hold an open tile: it is outstanding work until it commits. -/
def State.startDrain (s : State) (c : Nat) (q : Seq) (f : MatF) (b : TileBox) (d : Desc) (us : List (Nat × Nat)) : State :=
  let w := s.newWork c .te
  us.foldl (fun t u => t.drainUnit c q ⟨f.drain, d, 0, 0, 0, 0, f.batch, w.2⟩ f b u) w.1

/-- The units of an instruction whose open tile its drain entry ends: for the drain entry of a MATMUL, those that its own
body issued to; for a DRAIN, those that hold a tile (R563). -/
def State.drainsOf (s : State) (c : Nat) (f : MatF) (own : Option Nat) : List (Nat × Nat) :=
  f.units.filter fun u => match (s.unit c u.1).target with
    | some t => (s.unit c u.1).nextDrain.isNone && match own with | some p => t.last == p | none => true
    | none => false

/-- The units on which the tile of a MATMUL's drain entry still waits behind a stalled swap (R120). -/
def State.waitsOf (s : State) (c : Nat) (f : MatF) (p : Nat) : List (Nat × Nat) :=
  f.units.filter fun u => match (s.unit c u.1).waiting with | some w => w.pos == p && w.drain.isNone | none => false

/-- The rows and columns that the open tiles of a DRAIN's units reach, on the path by the DRAIN's own batch (DESIGN CHOICE, log 64). -/
def State.openBox (s : State) (c : Nat) (f : MatF) (us : List (Nat × Nat)) : TileBox :=
  let ps := us.flatMap fun u => match (s.unit c u.1).target with
    | some t => t.acc.map fun e => let p := cellPlace t.mode f.batch e.1; (p.1, p.2 + u.2 * f.unitCols)
    | none => []
  ⟨0, 0, (ps.foldl (fun m p => max m p.1) 0) + 1, (ps.foldl (fun m p => max m p.2) 0) + 1⟩

/-- A tile whose drain failed is discarded, and its unit stays free (R103, R132). -/
def State.dropTile (s : State) (c : Nat) (u : Nat × Nat) : State :=
  let k := s.unit c u.1
  let s1 := match k.waiting with | some w => s.endWork c w.work | none => s
  s1.setUnit c u.1 (if k.pendingDrain.isSome then { k with next := none, waiting := none } else { k with active := none, waiting := none })

/-- The tiles of a failed drain entry: where debug access is denied the sets keep their contents (R99), else they are discarded. -/
def State.dropTiles (s : State) (c : Nat) (e : MatStop) (us : List (Nat × Nat)) : State :=
  if e = .err 0x1020 then s else us.foldl (fun t u => t.dropTile c u) s

/-- DRAIN (R88, R89, R563): the drain entry of a MATMUL's tile, or a DRAIN instruction; the head waits for a place on every unit, and
for a tile in another mode to swap (R106, R120). A DRAIN that fails leaves the tiles open (DESIGN CHOICE, log 64). -/
def execDrain (core : Nat) (s : State) : Res :=
  .next (match s.headOf core .te, s.coreSeq core with
  | some (.tileDrain f k), some (_, q) =>
    let pos := ((s.core core).headPos .te + (2 ^ 64 - 1)) % 2 ^ 64
    let waits := s.waitsOf core f pos
    if !waits.isEmpty || s.placeFree core f then
      let own := if waits.isEmpty then s.drainsOf core f (some pos) else waits
      let s1 := s.take core .te
      if own.isEmpty then s1.endKernelOf core
      else match s.checkOut core q.ctx f f.span (f.box k) with
        | .error e => (s1.dropTiles core e own).matStop core e
        | .ok d => s1.startDrain core q f (f.box k) d own
    else s
  | some (.body (.drain f) _), some (_, q) =>
    if s.placeFree core f && s.modeReady core f then
      let us := s.drainsOf core f none
      let s1 := s.take core .te
      let b := s.openBox core f us
      if us.isEmpty then s1.endKernelOf core
      else match s.checkOut core q.ctx f (f.spanOf b.cols) b with
        | .error e => s1.matStop core e
        | .ok d => s1.startDrain core q f b d us
    else s
  | _, _ => s)

/-- The units whose shadow sets are parts of a unit's: an array's quadrants, a quadrant's array (R110). -/
def shadowKin (u : Nat) : List Nat :=
  if u < 16 then (List.range 4).map fun q => 16 + 4 * u + q else if u < 80 then [arrayOf u] else []

/-- Whether the shadow set of a unit may take a swap: its cells' set is free, and at most one other quadrant of its array drains (R90,
R121). -/
def State.swapFree (s : State) (c u : Nat) : Bool :=
  (s.unit c u).shadow.isNone && ((shadowKin u).all fun v => (s.unit c v).shadow.isNone) &&
    (u < 16 || u == 80 ||
      decide (((List.range 4).filter fun q => (s.unit c (16 + 4 * arrayOf u + q)).shadow.isSome).length < 2))

/-- The sets of a unit swap (R88): the tile behind becomes active, with its drain. -/
def TeUnitSt.swap (k : TeUnitSt) : TeUnitSt :=
  match k.active, k.pendingDrain with
  | some t, some j =>
    { k with active := k.next, pendingDrain := k.nextDrain, next := none, nextDrain := none, shadow := some (t, j), stalled := false }
  | _, _ => k

/-- A tile that waited behind a stalled swap issues once no unit of its set is stalled, with its drain where that has been taken. -/
def State.releaseTile (s : State) (c u : Nat) : State :=
  match (s.unit c u).waiting, s.coreSeq c with
  | some w, some (_, q) =>
    if s.stalledOn c w.f then s
    else
      let s1 := w.f.units.foldl (fun t v => t.setUnit c v.1 { t.unit c v.1 with waiting := none }) s
      let s2 := s1.issueTile c q.ctx q w.f ⟨w.a, w.b, w.init⟩ (w.f.box w.k) w.pos 0
      let own := s2.drainsOf c w.f (some w.pos)
      (own.foldl (fun t v => match ((s.unit c v.1).waiting).bind (·.drain) with
        | some j => t.putDrain c q j v.1
        | none => t) s2).finishWork c w.work
  | _, _ => s

/-- The sets of a unit swap, and what waited behind the swap goes on. -/
def State.swapUnit (s : State) (c u : Nat) : State := (s.setUnit c u (s.unit c u).swap).releaseTile c u

/-- Whether the tensor engine of a core runs: its context is live, its record has not been written, and no resume is under way (R126). -/
def State.teRuns (s : State) (c : Nat) : Bool :=
  match s.coreSeq c with
  | some (_, q) => s.live q.ctx && !((s.core c).saved.contains .te) &&
      !(q.preempting && match s.ctx q.ctx with | some k => !k.resumes.isEmpty | none => false)
  | none => false

/-- TILE_SWAP (R88, R90). -/
def execTileSwap (core : Nat) (unit : TeUnit) (s : State) : Res :=
  let u := unitCode unit
  let k := s.unit core u
  .next (if s.teRuns core && k.pendingDrain.isSome then
    if s.swapFree core u then s.swapUnit core u
    else if k.stalled then s
    else (s.setUnit core u { k with stalled := true }).bump (offTe core 0x538) 1
  else s)

/-! ### The drain path (R91, R121) -/

/-- An element to be written: its offset, the accumulator, its cell and tile. -/
abbrev DrainEl := Nat × A40 × Nat × Tile

/-- A list of elements with one put in its place by ascending offset. -/
def insertEl {α : Type} (e : Nat × α) : List (Nat × α) → List (Nat × α)
  | [] => [e]
  | x :: xs => if e.1 < x.1 then e :: x :: xs else x :: insertEl e xs

/-- Elements in ascending offset. -/
def sortEls {α : Type} (es : List (Nat × α)) : List (Nat × α) := es.foldl (fun l e => insertEl e l) []

/-- The elements of a unit's shadow set that its drain writes: masked ones are not (R117). -/
def shadowEls (r : Nat) (t : Tile) (j : DrainJob) : List DrainEl :=
  (t.acc.filter fun e => decide ((cellPlace t.mode j.batch e.1).1 < j.rows) && decide ((cellPlace t.mode j.batch e.1).2 < j.cols)).map fun e =>
    let p := cellPlace t.mode j.batch e.1
    (j.out.offset r (if t.mode = .mv then [j.col + p.2, p.1] else [j.col + p.2, j.row + p.1]), e.2, e.1, t)

/-- The FP32 a spill writes (R91, R93). -/
def spillCode (q : Seq) (e : DrainEl) : Nat :=
  let t := e.2.2.2
  if t.long && !t.srOff then roundSr 23 (decA40 e.2.1) (t.word q.jobKey.toNat q.attempt t.blocks e.2.2.1)
  else encIeee 23 (decA40 e.2.1)

/-- The elements of a drain that is not narrow, written (R91, R99). -/
def State.writeEls (s : State) (c x : Nat) (q : Seq) (j : DrainJob) (es : List DrainEl) : State :=
  es.foldl (fun t e => t.setElem c x j.out e.1
    (if j.out.fmt = 7 then e.2.1.toNat else if j.kind = .spill then spillCode q e else encWide j.out.fmt (decA40 e.2.1))) s

/-- The shadow sets of a core that drain for a work, by unit. -/
def State.draining (s : State) (c w : Nat) : List (Nat × Tile × DrainJob) :=
  (s.te.filter fun e => e.1 / 128 == c).filterMap fun e => match e.2.shadow with
    | some (t, j) => if j.work = w then some (e.1 % 128, t, j) else none
    | none => none

/-- Whether a drain of a work still waits for a swap. -/
def State.swapsLeft (s : State) (c w : Nat) : Bool :=
  s.te.any fun e => e.1 / 128 == c &&
    (e.2.pendingDrain.toList ++ e.2.nextDrain.toList ++ (e.2.waiting.bind (·.drain)).toList).any fun j => j.work == w

/-- The shadow set of a unit is free again; a tile past 2^20 additions is recorded (R102). -/
def State.clearShadow (s : State) (c : Nat) (e : Nat × Tile × DrainJob) : State :=
  let s1 := (s.setUnit c e.1 { s.unit c e.1 with shadow := none }).bump (offTe c 0x100) 1
  if e.2.1.lenSeen then s1.raise 0x1809 (leBytes 2 c ++ leBytes 1 (arrayOf e.1) ++ leBytes 8 e.2.1.blocks) else s1

/-- The drain of a work commits as one write unit, and its work ends (R91, R118, R121). -/
def State.commitDrain (s : State) (c w : Nat) : State :=
  match s.draining c w, s.coreSeq c with
  | (u, t, j) :: rest, some (_, q) =>
    let es := sortEls (((u, t, j) :: rest).flatMap fun e => shadowEls (s.coreRank c) e.2.1 e.2.2)
    let s1 := if isNarrow j.out.fmt then s.narrowUnit c q.ctx j.out (es.map fun e => (e.1, decA40 e.2.1))
      else s.writeEls c q.ctx q j es
    let words := if j.kind = .spill ∧ j.out.fmt ≠ 7 then (es.filter fun e => e.2.2.2.long && !e.2.2.2.srOff).length else 0
    let s2 := if words = 0 then s1 else s1.bump (offTe c 0x520) words
    (((u, t, j) :: rest).foldl (fun v e => v.clearShadow c e) s2).finishWork c w
  | _, _ => s

/-- TILE_DRAIN_COMMIT (R121): once every unit of the set has swapped. -/
def execTileDrainCommit (core : Nat) (unit : TeUnit) (s : State) : Res :=
  .next (s.guarded (match (s.unit core (unitCode unit)).shadow, s.teRuns core with
  | some (_, j), true => if s.swapsLeft core j.work then s else s.commitDrain core j.work
  | _, _ => s))

/-! ### TX_ACCEPT (R189) -/

/-- The swaps that a drain of a work waits for are made. -/
def State.swapWork (s : State) (c w : Nat) : State :=
  (s.te.filter fun e => e.1 / 128 == c).foldl (fun t e => match e.2.pendingDrain with
    | some j => if j.work = w then t.swapUnit c (e.1 % 128) else t
    | none => t) s

/-- The works whose drains a core's units hold, in the order they were started. -/
def State.drainWorks (s : State) (c : Nat) : List Nat :=
  let ws := (s.te.filter fun e => e.1 / 128 == c).flatMap fun e =>
    (e.2.shadow.map fun p => p.2.work).toList ++ (e.2.pendingDrain.map (·.work)).toList ++ (e.2.nextDrain.map (·.work)).toList ++
      ((e.2.waiting.bind (·.drain)).map (·.work)).toList
  (s.core c).work.filterMap fun w => if ws.contains w.2 then some w.2 else none

/-- The drains of a core's units run to their ends, in order: what the tiles of a TX_ACCEPT wait for between them. -/
def State.runDrains (s : State) (c : Nat) : State := (s.drainWorks c).foldl (fun t w => (t.swapWork c w).commitDrain c w) s

/-- One tile of an MX issued, with its drain; none where an open tile of another mode bars it (R106), and nothing once a fault has
killed the context (R125). -/
def State.acceptTile (s : State) (c : Nat) (q : Seq) (f : MatF) (pos : Nat) (kt : Nat × Nat) : Option State :=
  let s0 := if !(s.live q.ctx) || s.mayIssue c f && !(s.stalledOn c f) then s else s.runDrains c
  if !(s0.live q.ctx) then some s0
  else if s0.mayIssue c f && !(s0.stalledOn c f) then
    let b := f.box kt.1
    match s0.checkMat c q.ctx f b with
    | .error e => some (s0.matStop c e)
    | .ok o =>
      let s1 := s0.issueTile c q.ctx q f o b pos kt.2
      if f.drain = .none then some s1
      else match s1.checkOut c q.ctx f f.span b with
        | .error e => some (s1.matStop c e)
        | .ok d => some (s1.startDrain c q f b d (s1.drainsOf c f (some pos)))
  else none

/-- The tiles of the MX that a TX_ACCEPT takes: instruction, tile, ordinal (R280). -/
def acceptTiles (fs : List MatF) : List (MatF × Nat × Nat) :=
  let l := fs.flatMap fun f => (List.range f.tiles).map fun k => (f, k)
  l.zipIdx.map fun e => (e.1.1, e.1.2, e.2)

/-- The descriptors of an MX read (R155). -/
def State.readMx (s : State) (x : Nat) (f : MatF) : State :=
  s.readDescs x ([f.a, f.b, f.init] ++ if f.drain = .none then [] else [f.out])

/-- TX_ACCEPT (R189, R120): with `n` MX in the port, their tiles in order, with what the checks report (R131, R287). -/
def execTxAccept (core : Nat) (err : CoreErr) (s : State) : Res :=
  .next (s.guarded (match s.headOf core .te, s.coreSeq core, look s.ge core with
  | some (.body (.txAccept n) _), some (_, q), some g =>
    if n ≤ g.port.length && !(s.core core).noNewTile then
      let pos := (s.core core).headPos .te
      let s1 := { s.take core .te with ge := put s.ge core { g with port := g.port.drop n } }
      let r := s1.teErr core err
      if r.2 then r.1
      else
        let s2 := (g.port.take n).foldl (fun (u : State) f => u.readMx q.ctx f) r.1
        ((acceptTiles (g.port.take n)).foldl (fun (u : Option State) e =>
          u.bind fun v => v.acceptTile core q e.1 pos e.2) (some s2)).getD s
    else s
  | _, _, _ => s))

/-! ### Issue rate (R122-R124) -/

/-- One arithmetic cycle of a unit's rate and credit: the rate, the credit, and whether a slot is issued (R122). -/
def rampStep (cap rate credit : Nat) (ready : Bool) : Nat × Nat × Bool :=
  let target := if ready then cap else 0
  let r := if rate < target then rate + 1 else if target < rate then rate - 1 else rate
  let c := min (credit + r) 127
  if 64 ≤ c then (r, c - 64, true) else (r, c, false)

/-- ISSUE_RAMP (R122-R124): one arithmetic cycle of an array or the path, with work ready or not. A cycle is throttled while the cap
holds the rate below 64, at the cap or on the way down to it. -/
def execIssueRamp (core : Nat) (unit : TeUnit) (workReady : Bool) (s : State) : Res :=
  let u := unitCode unit
  let k := s.unit core u
  let cap := (s.core core).cap
  let r := rampStep cap k.rate k.credit workReady
  .next (match unit with
  | .quad _ _ => s
  | _ =>
    if (s.core core).clk = .running then
      let s1 := s.setUnit core u { k with rate := r.1, credit := r.2.1, ready := workReady }
      let s2 := if r.2.2 && !workReady then s1.bump (offTe core 0x120) 1 else s1
      let s3 := if workReady && !r.2.2 && decide (r.1 < cap) then s2.bump (offTe core 0x118) 1 else s2
      if workReady && decide (cap ≤ r.1) && decide (r.1 < 64) then s3.bump (offTe core 0x128) 1 else s3
    else s)

end Sys2Proof.Machine
end

