-- ==== Sys2Proof/Machine/Group.lean ====
section
/-! DEFINITION. The group engine: launches and blocks (R207, R208, R216-R218), thread instructions for the active lanes of a group
(R185, R209-R215, R277), divergence (R213, R214), barriers (R220-R222), matrix regions and the group port (R188, R189,
R223-R226), narrow stores (R227). -/

namespace Sys2Proof.Machine

open Sys2Proof

/-! ### Launches and blocks -/

/-- A group engine that holds nothing. -/
def Ge.empty : Ge := ⟨[], [], [], [], 0⟩

/-- The group engine of a core. -/
def State.groupEngine (s : State) (c : Nat) : Ge := lookD s.ge c Ge.empty

/-- The group engine of a core set. -/
def State.setGe (s : State) (c : Nat) (g : Ge) : State := { s with ge := put s.ge c g }

/-- The u registers of a launch: the CONST block, or 0 without a CONST section (R176, R208). -/
def constWords (k : Kernel) (off : Nat) : List W32 :=
  (List.range 16).map fun i => match k.const with
    | some b => BitVec.ofNat 32 (leAt b (off + 4 * i) 4)
    | none => 0

/-- LAUNCH (R207, R218, R233): taken into a free launch slot. -/
def execLaunch (core : Nat) (s : State) : Res :=
  let g := s.groupEngine core
  .next (match s.headOf core .ge, s.coreSeq core, firstFree (fun i => (look g.launches i).isSome) 2 with
  | some (.body (.launch entry groups blocks const) _), some (_, q), some slot =>
    let s1 := (s.take core .ge).adopt (offGe core 0) 0 5
    let w := s1.newWork core .ge
    let l : Launch :=
      ⟨entry, groups, blocks, constWords q.kernel const, 0, 0, clamp 12 28 (fld (w.1.reg (offGe core 0)) 0 5), w.2⟩
    w.1.setGe core { g with launches := put g.launches slot l }
  | _, _, _ => s)

/-- The launch whose blocks start next: the earliest that has blocks left (R218). -/
def Ge.starting (g : Ge) : Option (Nat × Launch) :=
  (g.launches.filter fun l => decide (l.2.nextBlock < l.2.blocks)).foldl (fun (m : Option (Nat × Launch)) l =>
    match m with
    | some n => if l.2.work < n.2.work then some l else m
    | none => some l) none

/-- A group as it starts (R208). -/
def Group.start (block index idx rank entry : Nat) : Group :=
  { block := block, index := index,
    v := (List.range 32).map fun l => (l, BitVec.ofNat 32 (l + index * 32 + idx * 512 + rank * 2 ^ 25)),
    p := List.replicate 7 0, pos := entry, active := BitVec.allOnes 32, exited := 0, points := [], stack := [], parked := [],
    region := none, last := 0 }

/-- BLOCK_START (R216-R218): the next block of the earliest launch, once its groups' frames are free. -/
def execBlockStart (core : Nat) (s : State) : Res :=
  let g := s.groupEngine core
  .next (match s.coreSeq core, g.starting with
  | some (_, q), some (slot, l) =>
    let frames := frameBytes q.kernel / 0x2000
    let free := (List.range frames).filter fun f => (look g.groups f).isNone
    if s.takes core && decide (l.groups ≤ free.length) then
      let b : Block := ⟨slot, l.nextBlock, l.groups, (free.head?).getD 0, 0, 0, 0, 0, 0⟩
      let new := (free.take l.groups).zipIdx.map fun e => (e.1, Group.start g.nextBlock e.2 l.nextBlock (s.coreRank core) l.entry)
      s.setGe core { g with launches := put g.launches slot { l with nextBlock := l.nextBlock + 1 },
                            blocks := put g.blocks g.nextBlock b,
                            groups := new.foldl (fun t e => put t e.1 e.2) g.groups,
                            nextBlock := g.nextBlock + 1 }
    else s
  | _, _ => s)

/-- LAUNCH_COMPLETE (R218): the last block has ended, and every store has committed. -/
def execLaunchComplete (core slot : Nat) (s : State) : Res :=
  let g := s.groupEngine core
  .next (match look g.launches slot, s.coreCtx core with
  | some l, some _ =>
    if l.ended = l.blocks then
      ((s.setGe core { g with launches := del g.launches slot }).bump (offGe core 0x18) 1).finishWork core l.work
    else s
  | _, _ => s)

/-! ### A group's registers and lanes -/

/-- The lanes of a mask, ascending. -/
def lanesOf (m : BitVec 32) : List Nat := (List.range 32).filter fun l => m.getLsbD l

/-- The mask of some lanes. -/
def laneMask (p : Nat → Bool) : BitVec 32 := BitVec.ofNat 32 (((List.range 32).map fun l => b2n (p l) * 2 ^ l).sum)

/-- A register of a lane: v0 to v47, then u0 to u15 (R185, R209). -/
def Group.rd (g : Group) (u : List W32) (r lane : Nat) : W32 :=
  if r < 48 then lookD g.v (r * 32 + lane) 0 else (u[r - 48]?).getD 0

/-- A register of a lane written; a u register is not written by thread code (R209). -/
def Group.wr (g : Group) (r lane : Nat) (x : W32) : Group := if r < 48 then { g with v := put g.v (r * 32 + lane) x } else g

/-- A predicate; p7 reads true (R185). -/
def Group.pred (g : Group) (n : Nat) : BitVec 32 := if n = 7 then BitVec.allOnes 32 else (g.p[n]?).getD 0

/-- A predicate written for some lanes; writes to p7 are ignored (R185). -/
def Group.setPred (g : Group) (n : Nat) (lanes : BitVec 32) (f : Nat → Bool) : Group :=
  if n = 7 then g else { g with p := g.p.set n ((g.pred n &&& ~~~lanes) ||| (laneMask f &&& lanes)) }

/-- The active lanes whose guard is true (R185). -/
def Group.guarded (g : Group) (w : TWord) : BitVec 32 :=
  g.active &&& (if w.neg then ~~~(g.pred w.guard) else g.pred w.guard)

/-- A register written for the guarded lanes. -/
def Group.each (g : Group) (w : TWord) (f : Nat → W32) : Group := (lanesOf (g.guarded w)).foldl (fun h l => h.wr w.dst l (f l)) g

/-! ### Divergence (R213, R214, R221) -/

/-- Whether a path at a point waits there for others: some entry of the stack has the point still before it. -/
def waitsAt (stack : List Path) (p : Nat) : Bool := stack.any fun e => e.points.contains p

/-- The entry that runs when no path does: the first that is not held at its point; where each is held, the first. -/
def nextPath (stack : List Path) : Option Path :=
  match stack.find? fun e => !(e.arrived && waitsAt (stack.erase e) e.pos) with
  | some e => some e
  | none => stack.head?

/-- A group moved on where its running path is at an end (R213): a path at its reconvergence point joins the lanes that wait there
and, while another path has that point before it, waits with them; with no lane running, the next entry of the stack runs. At
most `fuel` turns. -/
def Group.settle : Nat → Group → Group
  | 0, g => g
  | n + 1, g =>
    if g.active = 0 then
      match nextPath g.stack with
      | some e => Group.settle n { g with active := e.mask, pos := e.pos, points := e.points, stack := g.stack.erase e }
      | none => { g with points := [] }
    else
      match g.points with
      | [] => g
      | p :: tail =>
        if g.pos = p then
          let here (e : Path) : Bool := e.arrived && e.pos == p && e.points == tail
          let m := (g.stack.filter here).foldl (fun (m : BitVec 32) e => m ||| e.mask) g.active
          let rest := g.stack.filter fun e => !(here e)
          if waitsAt rest p then Group.settle n { g with active := 0, points := [], stack := ⟨m, p, tail, true⟩ :: rest }
          else Group.settle n { g with active := m, points := tail, stack := rest }
        else g

/-- The group at its next position. -/
def Group.settled (g : Group) : Group :=
  Group.settle (2 * (g.points.length + (g.stack.map fun e => e.points.length + 1).sum) + 2) g

/-- The group at the next instruction of its path. -/
def Group.goto (g : Group) (pos : Nat) : Group := ({ g with pos := pos }).settled

/-- A group divided into paths, the first of which runs now, the others waiting in order (R213). -/
def Group.paths (g : Group) : List Path → Group
  | [] => g
  | e :: rest => { g with pos := e.pos, active := e.mask, points := e.points, stack := rest ++ g.stack }

/-- The points of the paths of a branch: its reconvergence point, then those of the path that splits; none where the branch's paths
meet only as they exit (R213). -/
def Group.pointsOf (g : Group) : Option Nat → List Nat
  | none => []
  | some p => if g.points.head? = some p then g.points else p :: g.points

/-- A group split by a branch with a reconvergence point (R213). -/
def Group.split (g : Group) (point : Option Nat) (ps : List (Nat × BitVec 32)) : Group :=
  match ps with
  | [e] => { g with pos := e.1, active := e.2 }
  | _ => g.paths (ps.map fun e => ⟨e.2, e.1, g.pointsOf point, false⟩)

/-! ### Where a command runs -/

/-- What a thread instruction of a group on a core works with: its engine, group, block, launch, word and program. -/
structure Thread where
  ge : Ge
  group : Group
  block : Block
  launch : Launch
  word : TWord
  prog : List Byte

/-- Whether the active lanes are those of MR_BEGIN (R188). -/
def Group.sameLanes (g : Group) : Bool := match g.region with | some (_, m) => g.active == m | none => true

/-- The lane whose MX enters the port (R223). -/
def Group.issuer (g : Group) : Nat := match g.region with | some (l, _) => l | none => ((lanesOf g.active).head?).getD 0

/-- Whether a group stays at an MX because the port is full (R224). -/
def Group.heldAtPort (g : Group) (prog : List Byte) (port : List MatF) : Bool :=
  match wordAt prog g.pos with
  | some w => w.op == 0x66 && g.sameLanes && (g.guarded w).getLsbD g.issuer && decide (16 ≤ port.length)
  | none => false

/-- The time of the latest issue of a core, in instructions. -/
def Ge.clock (g : Ge) : Nat := g.groups.foldl (fun m e => max m e.2.last) 0

/-- Whether a group's turn has come (R210): no other ready group has issued less recently. Operands are available at once;
of two that issued equally long ago the lower frame goes first (log 36). -/
def Ge.turn (g : Ge) (prog : List Byte) (frame : Nat) (x : Group) : Bool :=
  g.groups.all fun e =>
    e.1 == frame || e.2.active == 0 || e.2.heldAtPort prog g.port || decide (x.last < e.2.last) ||
      (e.2.last == x.last && decide (frame < e.1))

/-- The next instruction of the group in a frame, where it may issue (R210): the group is ready and its turn has come. A group at a full
port is not ready, and its MX stays. -/
def State.thread (s : State) (c frame : Nat) : Option Thread :=
  let ge := s.groupEngine c
  match s.coreSeq c, look ge.groups frame with
  | some (_, q), some g =>
    match look ge.blocks g.block, q.kernel.program with
    | some b, some prog =>
      match look ge.launches b.slot, wordAt prog g.pos with
      | some l, some w =>
        if s.takes c && g.active != 0 && (g.heldAtPort prog ge.port || ge.turn prog frame g) then some ⟨ge, g, b, l, w, prog⟩ else none
      | _, _ => none
    | _, _ => none
  | _, _ => none

/-- A group of a core set. -/
def State.setGroup (s : State) (c frame : Nat) (g : Group) : State :=
  s.setGe c { s.groupEngine c with groups := put (s.groupEngine c).groups frame g }

/-- An instruction issued: counted, the group as it leaves it, and the latest to have issued (R210). -/
def State.issued (s : State) (c frame : Nat) (g : Group) : State :=
  (s.setGroup c frame { g with last := (s.groupEngine c).clock + 1 }).bump (offGe c 0x28) 1

/-- The detail of a thread fault (R228). -/
def threadDetail (pos block group lane rank : Nat) : Nat :=
  pos % 2 ^ 32 + block % 2 ^ 16 * 2 ^ 32 + group % 16 * 2 ^ 48 + lane % 32 * 2 ^ 52 + rank % 64 * 2 ^ 57

/-- A fault of a lane of a group (R228). -/
def State.threadFault (s : State) (c : Nat) (t : Thread) (code lane : Nat) : State :=
  s.faultCore c code (threadDetail t.group.pos t.block.idx t.group.index lane (s.coreRank c))

/-- A fault of the lowest active lane. -/
def State.groupFault (s : State) (c : Nat) (t : Thread) (code : Nat) : State :=
  s.threadFault c t code (((lanesOf t.group.active).head?).getD 0)

/-- What the checks report to a thread instruction, and whether it stops: an uncorrectable error in a frame or in group state faults
with GE_FRAME_PARITY (R234), one of local store with CM_UNCORRECTABLE (R287), each with the detail of R228; else as for every
engine. -/
def State.groupErr (s : State) (c : Nat) (t : Thread) (err : CoreErr) : State × Bool :=
  match err with
  | .parity => ((s.modCore c fun k => { k with faulty := true }).groupFault c t 0x3016, true)
  | .uncorrectable => (((s.countCmUe c).modCore c fun k => { k with faulty := true }).groupFault c t 0x4011, true)
  | _ => s.coreErr c err

/-- GE_FRAME_PARITY: an uncorrectable error in a frame or in group state met by a thread instruction (R234). -/
def State.frameParity (s : State) (c : Nat) (t : Thread) : State := (s.groupErr c t .parity).1

/-! ### Arithmetic -/

/-- INTEGER_AND_COMPARE (R185): a result in dst, or a predicate from a compare. The table of operations is not in the spec:
the functions of log 6. -/
def execIntegerAndCompare (core frame : Nat) (parity : Bool) (s : State) : Res :=
  .next (match s.thread core frame with
  | some t =>
    let w := t.word
    if w.op < 0x1E then
      if parity then s.frameParity core t
      else
        let g := t.group
        let op := BitVec.ofNat 8 w.op
        let a (l : Nat) := g.rd t.launch.u w.a l
        let b (l : Nat) := g.rd t.launch.u w.b l
        let imm := BitVec.ofNat 31 w.imm
        let h := if Config.isCompare op then g.setPred (w.dst % 8) (g.guarded w) fun l => Config.cmpOp op (a l) (b l) imm
          else g.each w fun l => Config.intOp op (a l) (b l) imm
        s.issued core frame (h.goto (g.pos + 8))
    else s
  | none => s)

/-- A register's BF16 value: bits [15:0] (log 13). -/
def bf16Of (x : W32) : Exact := decBf16 x.toNat

/-- The result of a floating-point operation on registers a, b and c (R185, R211, R22-R29); none for a conversion to a
format that has no element code in a register, whose result the spec does not state. A conversion's format code is taken as that of
its result, its source as FP32 (DESIGN CHOICE, log 63). A conversion to a narrow format has no descriptor: it saturates and has block
exponent 0 (DESIGN CHOICE, log 63). -/
def fpResult (op : FpOp) (fmt : Nat) (a b c : W32) : Option W32 :=
  match op with
  | .add32 => some (encF32 (addN (decF32 a) (decF32 b)))
  | .sub32 => some (encF32 (addN (decF32 a) (negN (decF32 b))))
  | .mul32 => some (encF32 (mulN (decF32 a) (decF32 b)))
  | .fma32 => some (encF32 (addN (mulN (decF32 a) (decF32 b)) (decF32 c)))
  | .addBf => some (BitVec.ofNat 32 (encBf16 (addN (bf16Of a) (bf16Of b))))
  | .subBf => some (BitVec.ofNat 32 (encBf16 (addN (bf16Of a) (negN (bf16Of b)))))
  | .mulBf => some (BitVec.ofNat 32 (encBf16 (mulN (bf16Of a) (bf16Of b))))
  | .fmaBf => some (BitVec.ofNat 32 (encBf16 (addN (mulN (bf16Of a) (bf16Of b)) (bf16Of c))))
  | .convert =>
    if fmt = 0 then some (encF32 (decF32 a))
    else if fmt = 1 then some (BitVec.ofNat 32 (encBf16 (decF32 a)))
    else if isNarrow fmt then some (BitVec.ofNat 32 (encNarrow fmt false (decF32 a)).1)
    else none

/-- A lane's floating-point result written, a free value where it is not stated. -/
def fpLane (op : FpOp) (w : TWord) (g0 : Group) (u : List W32) (r : State × Group) (l : Nat) : State × Group :=
  match fpResult op (w.imm % 16) (g0.rd u w.a l) (g0.rd u w.b l) (g0.rd u (w.imm % 64) l) with
  | some x => (r.1, r.2.wr w.dst l x)
  | none => (r.1.draw.2, r.2.wr w.dst l (r.1.draw.1.truncate 32))

/-- FP_ARITHMETIC (R185, R211). A conversion that names a reserved format code writes nothing; the fence of R197 takes FORMAT_RESERVED
(R17, R42). -/
def execFpArithmetic (core frame : Nat) (op : FpOp) (parity : Bool) (s : State) : Res :=
  .next (match s.thread core frame with
  | some t =>
    let w := t.word
    if 0x20 ≤ w.op ∧ w.op < 0x40 then
      if parity then s.frameParity core t
      else
        if op = .convert ∧ 9 ≤ w.imm % 16 then
          (s.entryError core 0x1001 0).issued core frame (t.group.goto (t.group.pos + 8))
        else
          let r := (lanesOf (t.group.guarded w)).foldl (fpLane op w t.group t.launch.u) (s, t.group)
          r.1.issued core frame (r.2.goto (t.group.pos + 8))
    else s
  | none => s)

/-! ### Local store (R211, R212) -/

/-- The local-store address of a lane: register a plus the signed offset, modulo 2^32 (log 13). -/
def Thread.address (t : Thread) (lane : Nat) : Nat :=
  unsigned (((t.group.rd t.launch.u t.word.a lane).toNat : Int) + signed t.word.imm 31) 32

/-- The bytes of an access width. -/
def lsBytes : LsWidth → Nat
  | .w32 => 4
  | .w16 => 2

/-- The first fault of an access, by ascending lane: outside the context's local store, or misaligned (R211). -/
def State.lsFault (s : State) (c : Nat) (t : Thread) (n : Nat) : Option (Nat × Nat) :=
  (lanesOf (t.group.guarded t.word)).findSome? fun l =>
    if s.lsLimit c < t.address l + n then some (0x3013, l)
    else if t.address l % n ≠ 0 then some (0x3014, l)
    else none

/-- A local-store instruction of a group (R211): its first fault, by ascending lane; else, unless the checks stop it, its effect on
the state and the group, which then goes on. -/
def State.lsInsn (s : State) (core frame n : Nat) (err : CoreErr) (t : Thread) (f : State → State × Group) : State :=
  match s.lsFault core t n with
  | some (code, l) => s.threadFault core t code l
  | none =>
    let e := s.groupErr core t err
    if e.2 then e.1
    else
      let r := f e.1
      r.1.issued core frame (r.2.goto (t.group.pos + 8))

/-- LOCAL_STORE_LOAD (R211, R287). A 16-bit load fills the upper half with zeros (log 13). -/
def execLocalStoreLoad (core frame : Nat) (width : LsWidth) (err : CoreErr) (s : State) : Res :=
  .next (match s.thread core frame with
  | some t =>
    if 0x40 ≤ t.word.op ∧ t.word.op < 0x50 then
      s.lsInsn core frame (lsBytes width) err t fun u =>
        (u, t.group.each t.word fun l => BitVec.ofNat 32 (leNat (u.lsRead core (t.address l) (lsBytes width))))
    else s
  | none => s)

/-- LOCAL_STORE_STORE (R211, R212): lanes in ascending order. -/
def execLocalStoreStore (core frame : Nat) (width : LsWidth) (err : CoreErr) (s : State) : Res :=
  .next (match s.thread core frame with
  | some t =>
    if 0x40 ≤ t.word.op ∧ t.word.op < 0x50 then
      s.lsInsn core frame (lsBytes width) err t fun u =>
        ((lanesOf (t.group.guarded t.word)).foldl (fun (v : State) l =>
          v.lsWrite core (t.address l) (leBytes (lsBytes width) (t.group.rd t.launch.u t.word.dst l).toNat)) u, t.group)
    else s
  | none => s)

/-- One lane's atomic at the bank; its old value goes to dst (R209). -/
def atomicLane (core : Nat) (op : AtomicKind) (t : Thread) (r : State × Group) (l : Nat) : State × Group :=
  let old := leNat (r.1.lsRead core (t.address l) 4)
  let x := (t.group.rd t.launch.u t.word.b l).toNat
  (r.1.lsWrite core (t.address l) (leBytes 4 (atomicOp op 32 old x)), r.2.wr t.word.dst l (BitVec.ofNat 32 old))

/-- LOCAL_STORE_ATOMIC (R211): add, maximum, minimum or swap; local store has no other atomic. -/
def execLocalStoreAtomic (core frame : Nat) (op : AtomicKind) (err : CoreErr) (s : State) : Res :=
  .next (match s.thread core frame with
  | some t =>
    if 0x40 ≤ t.word.op ∧ t.word.op < 0x50 ∧ op ≠ .or then
      s.lsInsn core frame 4 err t fun u => (lanesOf (t.group.guarded t.word)).foldl (atomicLane core op t) (u, t.group)
    else s
  | none => s)

/-- The descriptor a narrow store may write, or the code that stops it (R159, R183, R227, R235). An A40 or E8M0 tensor fails with
FORMAT_RESERVED (DESIGN CHOICE, log 37). -/
def State.narrowTarget (s : State) (c x : Nat) (t : Thread) (o : Nat) : Except Nat Desc :=
  match s.desc x (t.word.imm % 2 ^ 16) true with
  | .error e => .error e
  | .ok d =>
    if t.group.guarded t.word ≠ BitVec.allOnes 32 then .error 0x3001
    else if isNarrow d.fmt ∧ 32 < d.blk ∨ o % 32 ≠ 0 then .error 0x3002
    else if !(s.passLists c d.handle) then .error 0x9030
    else if d.fmt = 7 ∨ d.fmt = 8 then .error 0x1001
    else .ok d

/-- NARROW_STORE (R227): the lanes' FP32 values as one write unit. -/
def execNarrowStore (core frame : Nat) (err : CoreErr) (s : State) : Res :=
  .next (s.guarded (match s.thread core frame, s.coreSeq core with
  | some t, some (_, q) =>
    let w := t.word
    if 0x40 ≤ w.op ∧ w.op < 0x50 then
      let g := t.group
      let low := ((lanesOf (g.guarded w)).head?).getD 0
      let o := (g.rd t.launch.u w.a low).toNat
      let next := g.goto (g.pos + 8)
      let s0 := s.readDescs q.ctx [w.imm % 2 ^ 16]
      match s.narrowTarget core q.ctx t o with
      | .error e => (s0.entryError core e 0).issued core frame next
      | .ok d =>
        let first := d.rankStride * s.coreRank core + o
        let lo := if d.fmt = 4 ∨ d.fmt = 5 then d.base + first / 4 * 3 else d.byteOf first
        let es := (List.range 32).map fun l => (first + l, decF32 (g.rd t.launch.u w.dst l))
        if s.inLs core lo (d.spanEnd (first + 31) - lo) &&
            (!(isNarrow d.fmt) || s.inLs core (d.scaleSpan first (first + 31)).1 (d.scaleSpan first (first + 31)).2) then
          let e := s0.groupErr core t err
          if e.2 then e.1
          else
            let s1 := if isNarrow d.fmt then e.1.narrowUnit core q.ctx d es
              else es.foldl (fun (u : State) e => u.setElem core q.ctx d e.1 (encWide d.fmt e.2)) e.1
            s1.issued core frame next
        else s0.groupFault core t 0x3013
    else s
  | _, _ => s))

/-! ### Exchange and draws -/

/-- LANE_EXCHANGE (R185): a lane exchange or a reduction within the group, by the function of log 6. -/
def execLaneExchange (core frame : Nat) (parity : Bool) (s : State) : Res :=
  .next (match s.thread core frame with
  | some t =>
    let w := t.word
    if 0x50 ≤ w.op ∧ w.op < 0x60 then
      if parity then s.frameParity core t
      else
        let g := t.group
        let a := (List.range 32).map fun l => g.rd t.launch.u w.a l
        let b := (List.range 32).map fun l => g.rd t.launch.u w.b l
        s.issued core frame ((g.each w fun l => Config.laneOp (BitVec.ofNat 8 w.op) a b (g.guarded w) l).goto (g.pos + 8))
    else s
  | none => s)

/-- The word a lane draws (R275, R277): the kernel's latched step and job key. -/
def Thread.draw (t : Thread) (q : Seq) (lane : Nat) : Nat :=
  threadWord q.jobKey.toNat (t.word.imm % 2 ^ 16) (t.group.rd t.launch.u t.word.a lane).toNat
    (t.group.rd t.launch.u t.word.b lane).toNat q.step

/-- RNDW (R277). -/
def execRndw (core frame : Nat) (parity : Bool) (s : State) : Res :=
  .next (match s.thread core frame, s.coreSeq core with
  | some t, some (_, q) =>
    if t.word.op = 0x1E then
      if parity then s.frameParity core t
      else
        s.issued core frame ((t.group.each t.word fun l => BitVec.ofNat 32 (t.draw q l)).goto (t.group.pos + 8))
    else s
  | _, _ => s)

/-- RNDK (R277): keep where word[31:17] reaches drop_thr. -/
def execRndk (core frame : Nat) (parity : Bool) (s : State) : Res :=
  .next (match s.thread core frame, s.coreSeq core with
  | some t, some (_, q) =>
    let w := t.word
    if w.op = 0x1F then
      if parity then s.frameParity core t
      else
        s.issued core frame ((t.group.setPred (w.dst % 8) (t.group.guarded w) fun l =>
          decide (fld w.imm 16 15 ≤ t.draw q l / 2 ^ 17)).goto (t.group.pos + 8))
    else s
  | _, _ => s)

/-! ### Branches -/

/-- A group's split into paths, or the fault of a 33rd stack entry (R213); counted where the group divides. -/
def State.branch (s : State) (c frame : Nat) (t : Thread) (paths : List (Nat × BitVec 32)) : State :=
  let g := t.group
  if 1 < paths.length ∧ 32 < g.stack.length + (paths.length - 1) then s.groupFault c t 0x3012
  else
    let s1 := s.issued c frame (g.split (postDom t.prog g.pos) paths).settled
    if 1 < paths.length then s1.bump (offGe c 0x30) 1 else s1

/-- BRA (R213): the taken lanes run first. -/
def execBra (core frame : Nat) (parity : Bool) (s : State) : Res :=
  .next (match s.thread core frame with
  | some t =>
    if t.word.op = 0x60 then
      if parity then s.frameParity core t
      else
        let g := t.group
        let taken := g.guarded t.word
        let rest := g.active &&& ~~~taken
        s.branch core frame t
          ((if taken = 0 then [] else [((braTarget g.pos t.word).toNat, taken)]) ++
            (if rest = 0 then [] else [(g.pos + 8, rest)]))
    else s
  | none => s)

/-- The paths of a BRX: one for each distinct target, ascending (R214). -/
def brxPaths (tg : List (Nat × Nat)) : List (Nat × BitVec 32) :=
  let ts := tg.foldl (fun l e => if l.any fun x => x.1 == e.2 then l else insertEl (e.2, ()) l) []
  ts.map fun x => (x.1, laneMask fun l => tg.any fun e => e.1 == l && e.2 == x.1)

/-- BRX (R214): a target that is no instruction start faults its lowest lane. -/
def execBrx (core frame : Nat) (parity : Bool) (s : State) : Res :=
  .next (match s.thread core frame with
  | some t =>
    if t.word.op = 0x61 then
      if parity then s.frameParity core t
      else
        let g := t.group
        let jump := g.guarded t.word
        let tg := (lanesOf g.active).map fun l =>
          (l, if jump.getLsbD l then (g.rd t.launch.u t.word.a l).toNat else g.pos + 8)
        let ok := starts t.prog
        match tg.find? fun e => jump.getLsbD e.1 && !(ok.contains e.2) with
        | some e => s.threadFault core t 0x3015 e.1
        | none => s.branch core frame t (brxPaths tg)
    else s
  | none => s)

/-! ### Barriers and exits (R215, R220, R221) -/

/-- Parked lanes by ascending BAR address. -/
def Group.parkedPaths (g : Group) : List Path :=
  (sortEls (g.parked.map fun e => (e.1, e.2))).map fun e => ⟨e.2.1, e.1 + 8, e.2.2, false⟩

/-- The lanes parked at each BAR address form one path each, in ascending address order, on the points that remain (R221). -/
def Group.release (g : Group) : Group :=
  if g.parked.isEmpty then g else (({ g with parked := [] }).paths g.parkedPaths).settled

/-- The barrier of a block releases when arrived and exited lanes are all its lanes (R220). -/
def State.barrier (s : State) (c blk : Nat) : State :=
  let ge := s.groupEngine c
  match look ge.blocks blk with
  | none => s
  | some b =>
    if b.arrived ≠ 0 ∧ b.arrived + b.exited = 32 * b.groups then
      (s.setGe c { ge with
        blocks := put ge.blocks blk { b with arrived := 0, phase := b.phase + 1, ticks := 0 },
        groups := ge.groups.map fun e => if e.2.block = blk then (e.1, e.2.release) else e }).bump (offGe c 0x38) 1
    else s

/-- A change of a block of a core. -/
def State.modBlock (s : State) (c blk : Nat) (f : Block → Block) : State :=
  s.setGe c { s.groupEngine c with blocks := upd (s.groupEngine c).blocks blk f }

/-- Lanes parked at a BAR address, with the points their path has before it; of lanes that park there from several paths, those that
all of them have. -/
def Group.park (g : Group) (m : BitVec 32) : Group :=
  { g with active := g.active &&& ~~~m,
           parked := match g.parked.find? fun e => e.1 == g.pos with
             | some _ => g.parked.map fun x =>
                 if x.1 = g.pos then (x.1, x.2.1 ||| m, x.2.2.filter fun p => g.points.contains p) else x
             | none => g.parked ++ [(g.pos, m, g.points)] }

/-- Where a group goes when some of its active lanes have parked or exited: on, or to the next waiting path. -/
def Group.onward (g : Group) : Group := if g.active = 0 then g.settled else g.goto (g.pos + 8)

/-- BAR (R220, R221). -/
def execBar (core frame : Nat) (parity : Bool) (s : State) : Res :=
  .next (match s.thread core frame with
  | some t =>
    if t.word.op = 0x63 then
      if parity then s.frameParity core t
      else
        let m := t.group.guarded t.word
        let n := (lanesOf m).length
        let g := if m = 0 then t.group else t.group.park m
        let s1 := (s.issued core frame g.onward).modBlock core t.group.block fun b => { b with arrived := b.arrived + n }
        s1.barrier core t.group.block
    else s
  | none => s)

/-- A group whose lanes have all exited leaves the core; with its last group its block ends (R215). -/
def State.leave (s : State) (c frame : Nat) (blk : Nat) : State :=
  let ge := s.groupEngine c
  match look ge.blocks blk with
  | none => s
  | some b =>
    let s1 := s.setGe c { ge with groups := del ge.groups frame, blocks := put ge.blocks blk { b with left := b.left + 1 } }
    if b.left + 1 = b.groups then
      (s1.setGe c { s1.groupEngine c with
        blocks := del (s1.groupEngine c).blocks blk,
        launches := upd (s1.groupEngine c).launches b.slot fun l => { l with ended := l.ended + 1 } }).bump (offGe c 0x20) 1
    else s1

/-- EXIT (R215, R220): exited lanes count as arrived. -/
def execExit (core frame : Nat) (parity : Bool) (s : State) : Res :=
  .next (match s.thread core frame with
  | some t =>
    if t.word.op = 0x62 then
      if parity then s.frameParity core t
      else
        let m := t.group.guarded t.word
        let n := (lanesOf m).length
        let g := { t.group with active := t.group.active &&& ~~~m, exited := t.group.exited ||| m }
        let s1 := (s.issued core frame g.onward).modBlock core t.group.block fun b => { b with exited := b.exited + n }
        if g.exited = BitVec.allOnes 32 then (s1.barrier core t.group.block).leave core frame t.group.block
        else s1.barrier core t.group.block
    else s
  | none => s)

/-- BARRIER_STALL raised for a block (R222): the detail names a parked lane. -/
def State.stallBarrier (s : State) (core block : Nat) : State :=
  let ge := s.groupEngine core
  let who := ge.groups.find? fun e => e.2.block == block && !e.2.parked.isEmpty
  let at_ := who.bind fun e => e.2.parked.head?
  let pos := match at_ with | some p => p.1 | none => 0
  let lane := match at_ with | some p => ((lanesOf p.2.1).head?).getD 0 | none => 0
  let grp := match who with | some e => e.2.index | none => 0
  let idx := match look ge.blocks block with | some b => b.idx | none => 0
  (s.setBit (offGe core 8) 22).faultCore core 0x3010 (threadDetail pos idx grp lane (s.coreRank core))

/-- Whether a block's barrier phase is entered and at its limit (R222). -/
def Ge.atLimit (g : Ge) (b : Block) : Bool :=
  match look g.launches b.slot with
  | some l => b.arrived != 0 && decide (2 ^ l.barLog2 ≤ b.ticks)
  | none => false

/-- The first block of a core whose barrier is at its limit. -/
def State.overdue (s : State) (core : Nat) : Option Nat :=
  ((s.groupEngine core).blocks.find? fun e => (s.groupEngine core).atLimit e.2).map (·.1)

/-- BARRIER_STALL (R222): a phase that a lane has entered, at its limit. -/
def execBarrierStall (core block : Nat) (s : State) : Res :=
  .next (match look (s.groupEngine core).blocks block, s.coreCtx core with
  | some b, some _ => if (s.groupEngine core).atLimit b then s.stallBarrier core block else s
  | _, _ => s)

/-! ### Matrix regions (R188, R189, R223-R226) -/

/-- MR_BEGIN (R223): the issuer lane is the lowest active one. -/
def execMrBegin (core frame : Nat) (parity : Bool) (s : State) : Res :=
  .next (match s.thread core frame with
  | some t =>
    if t.word.op = 0x64 then
      if parity then s.frameParity core t
      else
        let g := t.group
        s.issued core frame (({ g with region := some (((lanesOf g.active).head?).getD 0, g.active) }).goto (g.pos + 8))
    else s
  | none => s)

/-- MATRIX_DIVERGED (R226). -/
def State.diverged (s : State) (c : Nat) (t : Thread) : State := (s.setBit (offGe c 8) 23).groupFault c t 0x3011

/-- MR_END (R188, R226). -/
def execMrEnd (core frame : Nat) (parity : Bool) (s : State) : Res :=
  .next (match s.thread core frame with
  | some t =>
    if t.word.op = 0x65 then
      if parity then s.frameParity core t
      else
        if t.group.sameLanes then s.issued core frame (({ t.group with region := none }).goto (t.group.pos + 8))
        else s.diverged core t
    else s
  | none => s)

/-- The matrix instruction of an MX at a position (R185). -/
def mxFields (prog : List Byte) (pos : Nat) (w : TWord) : Option MatF :=
  matFields (w.imm % 2 ^ 16) (leAt prog (pos + 8) 8) (leAt prog (pos + 16) 8) (leAt prog (pos + 24) 8)

/-- MX (R189, R190, R224-R226): the issuer lane's MX enters the port, the other lanes' does nothing; at a full port the
group stays. -/
def execMx (core frame : Nat) (parity : Bool) (s : State) : Res :=
  .next (match s.thread core frame with
  | some t =>
    let g := t.group
    if t.word.op = 0x66 then
      if parity then s.frameParity core t
      else
        if !g.sameLanes then s.diverged core t
        else match (g.guarded t.word).getLsbD g.issuer, mxFields t.prog g.pos t.word with
          | true, some f =>
            if 16 ≤ t.ge.port.length then s.bump (offGe core 0x48) 1
            else if (s.core core).ended.contains .te then s.groupFault core t 0x9040
            else
              let s1 := s.issued core frame (g.goto (g.pos + 32))
              (s1.setGe core { s1.groupEngine core with port := t.ge.port ++ [f] }).bump (offGe core 0x40) 1
          | _, _ => s.issued core frame (g.goto (g.pos + 32))
    else s
  | none => s)

end Sys2Proof.Machine
end

