-- ==== Sys2Proof/Machine/Crypto.lean ====
section
/-! DEFINITION. The hash and the signature of the device (R5): SHA-384, and ECDSA on brainpoolP384r1. The spec names both and states
neither; their text is that of FIPS 180-4, RFC 5639 and SEC 1 (PRESUMED, log 8). -/

namespace Sys2Proof.Machine

open Sys2Proof

/-! ### SHA-384 -/

/-- The number held in bytes, the first the most significant. -/
def beNat (b : List Byte) : Nat := b.foldl (fun n x => n * 256 + x.toNat) 0

/-- The bytes of a number, the most significant first. -/
def beBytes (n v : Nat) : List Byte := (leBytes n v).reverse

/-- The eight working words of SHA-512 and SHA-384. -/
structure Hash where
  a : W64
  b : W64
  c : W64
  d : W64
  e : W64
  f : W64
  g : W64
  h : W64
  deriving DecidableEq, Repr

/-- The words SHA-384 starts from. -/
def hashStart : Hash :=
  ⟨0xCBBB9D5DC1059ED8, 0x629A292A367CD507, 0x9159015A3070DD17, 0x152FECD8F70E5939,
   0x67332667FFC00B31, 0x8EB44A8768581511, 0xDB0C2E0D64F98FA7, 0x47B5481DBEFA4FA4⟩

/-- The round constants. -/
def hashRound : List W64 :=
  [0x428A2F98D728AE22, 0x7137449123EF65CD, 0xB5C0FBCFEC4D3B2F, 0xE9B5DBA58189DBBC, 0x3956C25BF348B538,
   0x59F111F1B605D019, 0x923F82A4AF194F9B, 0xAB1C5ED5DA6D8118, 0xD807AA98A3030242, 0x12835B0145706FBE,
   0x243185BE4EE4B28C, 0x550C7DC3D5FFB4E2, 0x72BE5D74F27B896F, 0x80DEB1FE3B1696B1, 0x9BDC06A725C71235,
   0xC19BF174CF692694, 0xE49B69C19EF14AD2, 0xEFBE4786384F25E3, 0x0FC19DC68B8CD5B5, 0x240CA1CC77AC9C65]
  ++ [0x2DE92C6F592B0275, 0x4A7484AA6EA6E483, 0x5CB0A9DCBD41FBD4, 0x76F988DA831153B5, 0x983E5152EE66DFAB,
   0xA831C66D2DB43210, 0xB00327C898FB213F, 0xBF597FC7BEEF0EE4, 0xC6E00BF33DA88FC2, 0xD5A79147930AA725,
   0x06CA6351E003826F, 0x142929670A0E6E70, 0x27B70A8546D22FFC, 0x2E1B21385C26C926, 0x4D2C6DFC5AC42AED,
   0x53380D139D95B3DF, 0x650A73548BAF63DE, 0x766A0ABB3C77B2A8, 0x81C2C92E47EDAEE6, 0x92722C851482353B]
  ++ [0xA2BFE8A14CF10364, 0xA81A664BBC423001, 0xC24B8B70D0F89791, 0xC76C51A30654BE30, 0xD192E819D6EF5218,
   0xD69906245565A910, 0xF40E35855771202A, 0x106AA07032BBD1B8, 0x19A4C116B8D2D0C8, 0x1E376C085141AB53,
   0x2748774CDF8EEB99, 0x34B0BCB5E19B48A8, 0x391C0CB3C5C95A63, 0x4ED8AA4AE3418ACB, 0x5B9CCA4F7763E373,
   0x682E6FF3D6B2B8A3, 0x748F82EE5DEFB2FC, 0x78A5636F43172F60, 0x84C87814A1F0AB72, 0x8CC702081A6439EC]
  ++ [0x90BEFFFA23631E28, 0xA4506CEBDE82BDE9, 0xBEF9A3F7B2C67915, 0xC67178F2E372532B, 0xCA273ECEEA26619C,
   0xD186B8C721C0C207, 0xEADA7DD6CDE0EB1E, 0xF57D4F7FEE6ED178, 0x06F067AA72176FBA, 0x0A637DC5A2C898A6,
   0x113F9804BEF90DAE, 0x1B710B35131C471B, 0x28DB77F523047D84, 0x32CAAB7B40C72493, 0x3C9EBE0A15C9BEBC,
   0x431D67C49C100D4C, 0x4CC5D4BECB3E42B6, 0x597F299CFC657E2A, 0x5FCB6FAB3AD6FAEC, 0x6C44198C4A475817]

/-- The sum of three words, each a rotation of a word, the last one a shift where `shift` says so. -/
def hashMix (x : W64) (i j k : Nat) (shift : Bool) : W64 :=
  x.rotateRight i ^^^ x.rotateRight j ^^^ (if shift then x >>> k else x.rotateRight k)

/-- One round. -/
def Hash.round (s : Hash) (kw : W64 × W64) : Hash :=
  let t1 := s.h + hashMix s.e 14 18 41 false + ((s.e &&& s.f) ^^^ (~~~s.e &&& s.g)) + kw.1 + kw.2
  let t2 := hashMix s.a 28 34 39 false + ((s.a &&& s.b) ^^^ (s.a &&& s.c) ^^^ (s.b &&& s.c))
  ⟨t1 + t2, s.a, s.b, s.c, s.d + t1, s.e, s.f, s.g⟩

/-- The message schedule: a window of the last 16 words, oldest first, gives the next words. -/
def schedule : Nat → List W64 → List W64
  | 0, _ => []
  | n + 1, w =>
    let at_ (i : Nat) : W64 := w.getD i 0
    at_ 0 :: schedule n (w.drop 1 ++ [hashMix (at_ 14) 19 61 6 true + at_ 9 + hashMix (at_ 1) 1 8 7 true + at_ 0])

/-- One block of 128 bytes worked into the state. -/
def Hash.block (s : Hash) (b : List Byte) : Hash :=
  let w := (List.range 16).map fun i => BitVec.ofNat 64 (beNat (sliceBytes b (8 * i) 8))
  let t := (hashRound.zip (schedule 80 w)).foldl Hash.round s
  ⟨s.a + t.a, s.b + t.b, s.c + t.c, s.d + t.d, s.e + t.e, s.f + t.f, s.g + t.g, s.h + t.h⟩

/-- A message padded to whole blocks, with its length in bits at the end. -/
def hashPad (m : List Byte) : List Byte :=
  m ++ [0x80] ++ List.replicate ((239 - m.length % 128) % 128) 0 ++ beBytes 16 (8 * m.length)

/-- SHA-384 of bytes, as the 48 bytes of its digest (R5). -/
def sha384 (m : List Byte) : List Byte :=
  let p := hashPad m
  let s := (List.range (p.length / 128)).foldl (fun (s : Hash) i => s.block (sliceBytes p (128 * i) 128)) hashStart
  [s.a, s.b, s.c, s.d, s.e, s.f].flatMap fun x => beBytes 8 x.toNat

/-! ### ECDSA on brainpoolP384r1 -/

/-- The field's prime. -/
def ecP : Nat := 0x8CB91E82A3386D280F5D6F7E50E641DF152F7109ED5456B412B1DA197FB71123ACD3A729901D1A71874700133107EC53

/-- The curve's coefficient A. -/
def ecA : Nat := 0x7BC382C63D8C150C3C72080ACE05AFA0C2BEA28E4FB22787139165EFBA91F90F8AA5814A503AD4EB04A8C7DD22CE2826

/-- The curve's coefficient B. -/
def ecB : Nat := 0x04A8C7DD22CE28268B39B55416F0447C2FB77DE107DCD2A62E880EA53EEB62D57CB4390295DBC9943AB78696FA504C11

/-- The order of the base point. -/
def ecQ : Nat := 0x8CB91E82A3386D280F5D6F7E50E641DF152F7109ED5456B31F166E6CAC0425A7CF3AB6AF6B7FC3103B883202E9046565

/-- A point of the curve; none for the point at infinity. -/
abbrev EcPoint := Option (Nat × Nat)

/-- The base point. -/
def ecG : EcPoint := some
  (0x1D1C64F068CF45FFA2A63A81B7C13F6B8847A3E77EF14FE3DB7FCAFE0CBD10E8E826E03436D646AAEF87B2E247D4AF1E,
   0x8ABE1D7520F9C2A45CB1EB8E95CFD55262B70B29FEEC5864E19C054FF99129280E4646217791811142820341263C5315)

/-- A power modulo a number, by `n` bits of the exponent. -/
def powMod (m : Nat) : Nat → Nat → Nat → Nat
  | 0, _, _ => 1
  | n + 1, x, e => (if e % 2 = 1 then x else 1) * powMod m n (x * x % m) (e / 2) % m

/-- The inverse modulo a prime below 2^384. -/
def invMod (m x : Nat) : Nat := powMod m 384 (x % m) (m - 2)

/-- The sum of two points. -/
def ecAdd : EcPoint → EcPoint → EcPoint
  | none, q => q
  | p, none => p
  | some (x1, y1), some (x2, y2) =>
    if x1 = x2 ∧ (y1 + y2) % ecP = 0 then none
    else
      let l :=
        if x1 = x2 then (3 * x1 * x1 + ecA) * invMod ecP (2 * y1) % ecP
        else (y2 + ecP - y1) * invMod ecP (x2 + ecP - x1) % ecP
      let x := (l * l + 2 * ecP - x1 - x2) % ecP
      some (x, (l * (x1 + ecP - x) + ecP - y1) % ecP)

/-- A multiple of a point, by `n` bits of the factor. -/
def ecMul : Nat → Nat → EcPoint → EcPoint
  | 0, _, _ => none
  | n + 1, k, p => if k = 0 then none else ecAdd (if k % 2 = 1 then p else none) (ecMul n (k / 2) (ecAdd p p))

/-- The bytes of a point, uncompressed (R502); nothing for the point at infinity. -/
def ecBytes : EcPoint → List Byte
  | none => []
  | some (x, y) => [0x04] ++ beBytes 48 x ++ beBytes 48 y

/-- The point that 97 bytes hold; none where they hold no point of the curve. -/
def ecPoint (b : List Byte) : EcPoint :=
  let x := beNat (sliceBytes b 1 48)
  let y := beNat (sliceBytes b 49 48)
  if b.length = 97 ∧ leAt b 0 1 = 4 ∧ x < ecP ∧ y < ecP ∧ y * y % ecP = ((x * x + ecA) * x + ecB) % ecP then some (x, y) else none

/-- The public key of a secret. -/
def ecKey (secret : Nat) : List Byte := ecBytes (ecMul 384 secret ecG)

/-- The x coordinate of a point; 0 for the point at infinity. -/
def ecX : EcPoint → Nat
  | none => 0
  | some (x, _) => x

/-- Whether an ECDSA signature, the numbers r then s (R9), of a message verifies under a public key (R5). -/
def ecdsaVerify (key msg sig : List Byte) : Bool :=
  let r := leAt sig 0 48
  let s := leAt sig 48 48
  let w := invMod ecQ s
  let e := beNat (sha384 msg)
  let p := ecAdd (ecMul 384 (e * w % ecQ) ecG) (ecMul 384 (r * w % ecQ) (ecPoint key))
  (ecPoint key).isSome && decide (sig.length = 96) && decide (0 < r) && decide (r < ecQ) && decide (0 < s) && decide (s < ecQ) &&
    p.isSome && ecX p % ecQ == r

/-- A secret number from 48 bytes of the entropy source, conditioned with SHA-384 (R501). -/
def ecSecret (entropy : List Byte) : Nat := beNat (sha384 entropy) % (ecQ - 1) + 1

/-- The ECDSA signature, the numbers r then s (R9), of a message with a secret key and a number used once (R5). -/
def ecdsaSign (secret once : Nat) (msg : List Byte) : List Byte :=
  let r := ecX (ecMul 384 once ecG) % ecQ
  leBytes 48 r ++ leBytes 48 (invMod ecQ once * (beNat (sha384 msg) + r * secret) % ecQ)

end Sys2Proof.Machine
end

