-- ==== Sys2Proof/Machine/Updates.lean ====
section
/-! DEFINITION. The update units (R236-R266): the checks of an UPDATE, its blocks, the rules in FP32, the commit of a block, the
combine of rule 3, the completion record. -/

namespace Sys2Proof.Machine

open Sys2Proof

/-! ### The rule block (R240, R241) -/

/-- The FP32 field at an offset of a rule block. -/
def fp (b : List Byte) (o : Nat) : Exact := decIeee 23 (leAt b o 4)

/-- A handle field of a rule block. -/
def hnd (b : List Byte) (o : Nat) : Nat := leAt b o 2

/-- A factor in [0, 1). -/
def unitFactor (x : Exact) : Bool := finiteN x && !ltN x zero && ltN x (.fin false 1 0)

/-- A finite value of at least 0. -/
def nonneg (x : Exact) : Bool := finiteN x && !ltN x zero

/-- R241's conditions on a rule block, with the handles its rule needs (R243); `rows` says that a touched-row bitmap is named. -/
def ruleOk (b : List Byte) (rows : Bool) : Bool :=
  let rule := leAt b 0 1
  let fl := leAt b 1 1
  decide (rule ≤ 3) && decide (fl < 4) && leAt b 0xE 2 == 0 && leAt b 0x30 16 == 0 &&
    unitFactor (fp b 0x1C) && unitFactor (fp b 0x20) && nonneg (fp b 0x10) && nonneg (fp b 0x18) && nonneg (fp b 0x24) &&
    nonneg (fp b 0x28) && finiteN (fp b 0x14) &&
    (rule != 3 || ltN zero (fp b 0x28)) &&
    (if rule = 3 then hnd b 0x6 != 0 && hnd b 0x8 != 0 && hnd b 0xC != 0 && (!bit fl 1 || hnd b 0x4 != 0)
     else hnd b 0x4 != 0 && (rule != 1 || hnd b 0x6 != 0)) &&
    (!rows || rule != 1 || hnd b 0xA != 0)

/-! ### Checks when the entry is taken (R238-R259) -/

/-- A tensor of an UPDATE by role: the role's number, its handle, whether it is written, whether it is auxiliary. -/
abbrev UpdRole := Nat × Nat × Bool × Bool

/-- The tensors that an UPDATE names, in role order; a role with handle 0 that is optional is left out. -/
def updRoles (b : List Byte) (master grad mask rows : Nat) : List UpdRole :=
  let rule := leAt b 0 1
  let opt (r h : Nat) (wr auxl : Bool) : List UpdRole := if h = 0 then [] else [(r, h, wr, auxl)]
  [(0, master, true, false), (1, grad, false, false)] ++
    (if rule ≤ 2 ∨ bit (leAt b 1 1) 1 then opt 2 (hnd b 4) true false else []) ++
    (if rule = 1 ∨ rule = 3 then opt 3 (hnd b 6) true false else []) ++
    (if rule = 3 then opt 4 (hnd b 8) true false ++ opt 5 (hnd b 0xC) true true else []) ++
    opt 6 (hnd b 2) true false ++
    (if rows ≠ 0 ∧ rule = 1 then opt 7 (hnd b 0xA) true true else []) ++ opt 8 mask false true ++ opt 9 rows false true

/-- The descriptors of the roles read and checked under R159 or R242. -/
def State.updDescs (s : State) (x : Nat) : List UpdRole → Except Nat (Tab Desc)
  | [] => .ok []
  | (r, h, wr, auxl) :: l =>
    match (if auxl then s.aux x h wr else s.desc x h wr) with
    | .error e => .error e
    | .ok d => match State.updDescs s x l with
      | .error e => .error e
      | .ok t => .ok ((r, d) :: t)

/-- Rows of the touched-row path. -/
def rowCount (n rowLen : Nat) : Nat := n / max 1 rowLen

/-- The layout rules of R243, R247 and R253: the code of the first that a tensor breaks. -/
def updLayout (b : List Byte) (t : Tab Desc) : Option Nat :=
  let rule := leAt b 0 1
  let rowLen := leAt b 0x2C 4
  match look t 0, look t 1 with
  | some md, some gd =>
    let like (d : Desc) : Bool := d.dims == md.dims && d.dimSizes == md.dimSizes
    let wide (d : Desc) : Bool := d.fmt == 0 || d.fmt == 1
    let all (r : Nat) (p : Desc → Bool) : Bool := match look t r with | some d => p d | none => true
    let rows := (look t 9).isSome
    let c := (md.dimSizes.head?).getD 0
    let r := (md.dimSizes[1]?).getD 0
    if rule = 3 ∧ rows then some 0x5004
    else if !(md.fmt == 0 && c % 32 == 0 && like gd && (wide gd || isNarrow gd.fmt) && all 2 (fun d => like d && wide d) &&
        (rule != 1 || all 3 fun d => like d && wide d) &&
        all 6 (fun d => like d && (wide d || isNarrow d.fmt && !rows && (d.blk == 16 || d.blk == 32)))) then some 0x5002
    else if rule = 3 ∧ !(md.dims == 2 && decide (c ≤ 2 ^ 20) && decide (r ≤ 2 ^ 20) &&
        all 3 (fun d => d.fmt == 0 && d.dims == 1 && d.count == r) && all 4 fun d => d.fmt == 0 && d.dims == 1 && d.count == c) then
      some 0x5002
    else if rows ∧ (rowLen = 0 ∨ rowLen % 32 ≠ 0 ∨ md.count % rowLen ≠ 0 ∨
        !(all 7 fun d => decide (4 * rowCount md.count rowLen ≤ d.auxBytes))) then some 0x5002
    else if rule = 3 ∧ !(all 5 fun d => decide (128 * (r + c) ≤ d.auxBytes)) then some 0x5008
    else none
  | _, _ => some 0x5002

/-- The byte ranges of a tensor of an UPDATE at a rank. -/
def roleRanges (auxl : Bool) (d : Desc) (r : Nat) : List (Nat × Nat) :=
  if auxl then [(d.auxBase r, d.auxBytes)] else d.ranges r

/-- Every tensor lies in HBM and is mapped with the rights its use needs (R243, R291). -/
def State.updRanges (s : State) (c x r : Nat) (t : Tab Desc) : List UpdRole → Option Nat
  | [] => none
  | (k, _, wr, auxl) :: l =>
    let rs := match look t k with | some d => roleRanges auxl d r | none => []
    if rs.any fun a => inLocal a.1 then some 0x5003
    else match s.checkRanges c x (k != 6) wr rs with
      | some e => some e
      | none => State.updRanges s c x r t l

/-- The rule block of an UPDATE: its address for the rank and bytes 0x00 to 0x3F, read once (R240). -/
def State.ruleBlock (s : State) (x r h : Nat) : Except Nat (Nat × List Byte) :=
  match s.aux x h true with
  | .error e => .error e
  | .ok d =>
    let a := d.auxBase r
    if inLocal a then .error 0x5003
    else if a % 256 ≠ 0 then .error 0x5001
    else match s.translate x a 256 true true with
      | .error e => .error e
      | .ok _ => match s.translate x a 64 true true with
        | .error e => .error e
        | .ok l => if s.badPieces l then .error 0x4003 else .ok (a, s.seePieces l)

/-- The checks of an UPDATE after its rule block, in order; its descriptors. -/
def State.planUpdate (s : State) (c x master grad mask rows : Nat) (b : List Byte) : Except Nat (Tab Desc) :=
  if !ruleOk b (rows != 0) then .error 0x5001
  else if leAt b 0 1 = 3 ∧ s.ident.grade = .tray then .error 0x9010
  else if leAt b 0 1 = 3 ∧ rows ≠ 0 then .error 0x5004
  else
    let roles := updRoles b master grad mask rows
    match s.updDescs x roles with
    | .error e => .error e
    | .ok t => match updLayout b t, s.updRanges c x (s.coreRank c) t roles with
      | some e, _ => .error e
      | none, some e => .error e
      | none, none =>
        let unlisted := match look t 6 with | some d => isNarrow d.fmt && !(s.passLists c d.handle) | none => false
        if unlisted then .error 0x9030 else .ok t

/-! ### Blocks -/

/-- Element indices of an update block: 32 in dimension 0 (R237). -/
def blockIdx (md : Desc) (j : Nat) : List (List Nat) := (List.range 32).map fun i => unrank md.dimSizes (32 * j + i)

/-- The unit that owns a block: that of the controller which holds its master line (R237). -/
def State.blockUnit (s : State) (x r : Nat) (md : Desc) (j : Nat) : Nat :=
  match s.translate x (md.byteOf (md.offset r (unrank md.dimSizes (32 * j)))) 1 false false with
  | .ok ((a, _, _) :: _) => stackOf a
  | _ => 0

/-- Bit `k` of an auxiliary bit array at a rank (R242). -/
def State.auxBit (s : State) (c x r : Nat) (d : Desc) (k : Nat) : Bool := bit (s.vaByte c x (d.auxBase r + k / 8)).toNat (k % 8)

/-- The blocks that an UPDATE hands to the units: all, or those of touched rows (R238, R253). -/
def State.updBlocks (s : State) (c x r : Nat) (b : List Byte) (t : Tab Desc) : List Nat :=
  match look t 0 with
  | none => []
  | some md =>
    let all := List.range (md.count / 32)
    match look t 9 with
    | none => all
    | some d => all.filter fun j => s.auxBit c x r d (32 * j / max 1 (leAt b 0x2C 4))

/-- Touched rows of an UPDATE (R266). -/
def State.rowsMarked (s : State) (c x r : Nat) (b : List Byte) (t : Tab Desc) : Nat :=
  match look t 0, look t 9 with
  | some md, some d => ((List.range (rowCount md.count (leAt b 0x2C 4))).filter fun i => s.auxBit c x r d i).length
  | _, _ => 0

/-- A completion record with status 2 and an error code: the status by maximum, the code where none stands (R266). -/
def failedRecord (code : Nat) (b : List Byte) : List Byte :=
  let b1 := setLe b 0 1 (max 2 (leAt b 0 1))
  if leAt b1 2 2 = 0 then setLe b1 2 2 code else b1

/-- An UPDATE that fails before its vote writes status 2 and its error code only (R266). -/
def State.failRecord (s : State) (c x a code : Nat) : State :=
  if inLocal a then
    if s.inLs c (a + 0x40) 64 then s.vaWrite c x 0 (a + 0x40) (failedRecord code (s.vaRead c x (a + 0x40) 64)) else s
  else match s.translate x (a + 0x40) 64 true true with
  | .error _ => s
  | .ok l =>
    s.writePieces 0 l (failedRecord code (s.seePieces l))

/-- A skipped UPDATE with a narrow gradient: its rank-0 entry lowers next_bias by 1 and sets the lowered flag, where the record is
mapped and the flag is not set (R261, R60). -/
def State.lowerGrad (s : State) (k : Upd) : State :=
  match look k.tens 1 with
  | some d =>
    if k.rank = 0 ∧ isNarrow d.fmt then
      s.modStats k.core k.ctx d fun b =>
        if bit (leAt b 0x13 1) 2 then b
        else setLe (setLe b 0x14 1 (unsigned (max (-128) (signed (leAt b 0x14 1) 8 - 1)) 8)) 0x13 1 (setFld (leAt b 0x13 1) 2 1 1)
    else s
  | none => s

/-- UPDATEs of a context's protected job have been released by a passed vote: a step is open (R432). -/
def State.openStep (s : State) (x : Nat) : State :=
  match (s.ctx x).bind fun k => k.job with
  | some e => { s with surv := { s.surv with prots := upd s.surv.prots e fun p => { p with stepOpen := true } } }
  | none => s

/-- An UPDATE's rule block and its tensors' descriptors, read through the slices (R155, R240, R314, R316). -/
def State.readRule (s : State) (x a : Nat) (b : List Byte) (master grad mask rows : Nat) : State :=
  let s1 := s.readDescs x ((updRoles b master grad mask rows).map fun e => e.2.1)
  match s1.translate x a 64 true false with
  | .ok l => s1.fetchPieces x l
  | .error _ => s1

/-- An UPDATE at the head of a move engine, taken (R238, R259). One that fails, ENGINE_ABSENT among the codes, writes its completion
record (R266), though R202 and R205 have nothing written (DESIGN CHOICE, log 67). -/
def State.takeUpdate (s : State) (c x slot : Nat) (i : Insn) (ruleH master grad mask rows vote : Nat) : State :=
  let r := s.coreRank c
  let bound := ((s.ctx x).bind fun k => k.job).bind fun e => look (s.core c).lastVote (voteKey e vote)
  match s.ruleBlock x r ruleH with
  | .error e => match s.aux x ruleH true with
    | .ok d => (s.failEntry c e).failRecord c x (d.auxBase r) e
    | .error _ => s.failEntry c e
  | .ok (a, b) =>
    let s := s.readRule x a b master grad mask rows
    match s.planUpdate c x master grad mask rows b, bound with
    | .error e, _ => (if e = 0x9010 then s.absentUnit c else s.failEntry c e).failRecord c x a e
    | .ok _, none => (s.failEntry c 0x5005).failRecord c x a 0x5005
    | .ok t, some inst =>
      let u := s.uu.next
      let work := (s.core c).nextWork
      let md := lookD t 0 (parseDesc 0 [])
      let bs := (s.updBlocks c x r b t).map fun j => (s.blockUnit x r md j, j)
      let left : Tab (List Nat) := (List.range 32).map fun n => (n, (bs.filter fun e => e.1 == n).map (·.2))
      let ended := look s.uu.votes inst
      let held := match (s.ctx x).bind fun k => k.job with
        | some e => match look s.surv.prots e with | some p => p.markerSent | none => false
        | none => false
      let k : Upd :=
        { core := c, ctx := x, rank := r, slot := slot, work := work, ruleHandle := ruleH, base := a, rule := b, maps := s.maps x,
          tens := t, inst := inst, outcome := ended.getD none, lost := false, held := held && ended.isSome, left := left, secondPass := false,
          voided := false, rtot := 0, rowN := [], rowDone := [], rowsTouched := s.rowsMarked c x r b t, updated := 0,
          frozen := 0, guarded := 0, err := 0 }
      let s1 := (s.startXfer c x slot .update i [] []).modXfer c slot fun v => { v with upd := some u, moved := true }
      let s2 := { s1 with uu := { s1.uu with updates := put s1.uu.updates u k, next := u + 1 } }
      match ended with
      | some none => s2.loseUpd u k
      | some (some rec) => if rec.pass then s2.openStep x else s2.lowerGrad k
      | none => s2

/-! ### Arithmetic (R245, R246, R249) -/

/-- The FP32 constant 1. -/
def oneF : Exact := .fin false 1 0

/-- The power of R245. -/
def powStep (b : Exact) (t : Nat) : Exact :=
  (List.range 64).foldl (fun r i =>
    let q := mulF r r
    if bit t (63 - i) then mulF q b else q) oneF

/-- What one element becomes: master, first moment, second moment. -/
structure Elem where
  p : Exact
  m : Exact
  v : Exact
  deriving DecidableEq, Repr

/-- The decayed master step shared by rules 1 to 3: p' = fma(-lr, d, fma(-lrwd, p, p)). -/
def decayStep (b : List Byte) (d p : Exact) : Exact :=
  fmaF (negN (fp b 0x10)) d (fmaF (negN (mulF (fp b 0x10) (fp b 0x18))) p p)

/-- Rule 0 (R246). -/
def rule0 (b : List Byte) (g1 : Exact) (e : Elem) : Elem :=
  let g2 := fmaF (fp b 0x18) e.p g1
  let m := fmaF (fp b 0x1C) e.m g2
  let d := if bit (leAt b 1 1) 0 then fmaF (fp b 0x1C) m g2 else m
  ⟨fmaF (negN (fp b 0x10)) d e.p, m, e.v⟩

/-- Rule 1 for a step (R246). -/
def rule1 (b : List Byte) (bc1 bc2 g1 : Exact) (e : Elem) : Elem :=
  let m := fmaF (fp b 0x1C) e.m (mulF (addF oneF (negN (fp b 0x1C))) g1)
  let v := fmaF (fp b 0x20) e.v (mulF (addF oneF (negN (fp b 0x20))) (mulF g1 g1))
  let d := divF (divF m bc1) (addF (sqrtF (divF v bc2)) (fp b 0x24))
  ⟨decayStep b d e.p, m, v⟩

/-- The sign of rule 2: 0 for either zero. -/
def signF : Exact → Exact
  | .nan => .nan
  | .inf a => .fin a 1 0
  | .fin a m _ => if m = 0 then zero else .fin a 1 0

/-- Rule 2 (R246). -/
def rule2 (b : List Byte) (g1 : Exact) (e : Elem) : Elem :=
  let s := signF (fmaF (fp b 0x1C) e.m (mulF (addF oneF (negN (fp b 0x1C))) g1))
  ⟨decayStep b s e.p, fmaF (fp b 0x20) e.m (mulF (addF oneF (negN (fp b 0x20))) g1), e.v⟩

/-- The second pass of rule 3 for an element with its row and column accumulators (R249). -/
def rule3 (b : List Byte) (bc2 rtot g1 row col : Exact) (e : Elem) : Elem :=
  let vh := divF (divF (mulF row col) rtot) bc2
  let d := divF g1 (sqrtF vh)
  if bit (leAt b 1 1) 1 then
    let m := fmaF (fp b 0x1C) e.m (mulF (addF oneF (negN (fp b 0x1C))) d)
    ⟨decayStep b m e.p, m, e.v⟩
  else ⟨decayStep b d e.p, e.m, e.v⟩

/-- The bias correction of a factor at a step (R245). -/
def biasCorr (b : List Byte) (o t : Nat) : Exact := addF oneF (negN (powStep (fp b o) t))

/-! ### Reads and writes of a unit (R297) -/

/-- A line's bytes replaced in its cached copy by an update unit (R297). -/
def Line.replace (l : Line) (o : Nat) (bytes : List Byte) : Line :=
  { l with data := patch l.data o bytes, valid := l.valid ||| lineMask o bytes.length,
           dirty := l.dirty &&& ~~~(lineMask o bytes.length) }

/-- Bytes of one line written by an update unit: to HBM, and into any cached copy (R297). -/
def State.unitLine (s : State) (a : Nat) (bytes : List Byte) : State :=
  (s.hbmWrite a bytes).modLines fun t => upd t (a / 128) fun l => l.replace (a % 128) bytes

/-- Bytes at translated pieces written by an update unit. -/
def State.unitPieces (s : State) : List Piece → List Byte → State
  | [], _ => s
  | (a, k, _) :: l, bytes =>
    State.unitPieces ((lineCuts (k / 128 + 2) a (bytes.take k)).foldl (fun t e => t.unitLine e.1 e.2) s) l (bytes.drop k)

/-- Bytes at a context address written by an update unit. -/
def State.unitWrite (s : State) (x va : Nat) (bytes : List Byte) : State :=
  match s.translate x va bytes.length false false with
  | .ok l => s.unitPieces l bytes
  | .error _ => s

/-- Whether a cached copy holds every byte of a range within one half (R297). -/
def State.halfHeld (s : State) (a n : Nat) : Bool :=
  match s.line (a / 128) with
  | some l => (List.range n).all fun i => l.valid.getLsbD ((a + i) % 128)
  | none => false

/-- The 64-byte halves of HBM that a unit reads for context ranges: those that no cached copy holds (R297). -/
def State.hbmHalves (s : State) (x : Nat) (sp : List (Nat × Nat)) : List Nat :=
  sp.flatMap fun e => match s.translate x e.1 e.2 false false with
    | .error _ => []
    | .ok l => l.flatMap fun p =>
      ((List.range ((p.1 % 64 + p.2.1 + 63) / 64)).map fun i => p.1 / 64 + i).filter fun h =>
        let lo := max p.1 (h * 64)
        !(s.halfHeld lo (min (p.1 + p.2.1) (h * 64 + 64) - lo))

/-- Ranges read by a unit, counted at the unit and at the stacks (R268, R316). -/
def State.unitReads (s : State) (unit x : Nat) (sp : List (Nat × Nat)) : State :=
  ((s.hbmHalves x sp).foldl (fun t h => t.hbmBytesMoved (stackOf (h * 64)) 64 0) s).bump (offUu unit 0x30) (sp.map (·.2)).sum

/-- The halves among ranges that read uncorrectable (R307). -/
def State.unitBad (s : State) (x : Nat) (sp : List (Nat × Nat)) : List Nat := (s.hbmHalves x sp).filter s.hbm.bad.contains

/-- The update changed. -/
def State.modUpd (s : State) (u : Nat) (f : Upd → Upd) : State :=
  { s with uu := { s.uu with updates := upd s.uu.updates u f } }

/-- A tensor of an UPDATE. -/
def Upd.ten (k : Upd) (r : Nat) : Option Desc := look k.tens r

/-- The values of a block in a tensor of the master's shape. -/
def State.blockVals (s : State) (k : Upd) (md d : Desc) (j : Nat) : List Exact :=
  (blockIdx md j).map fun i => s.elem k.core k.ctx d (d.offset k.rank i)

/-- A gradient element as the arithmetic takes it: a narrow one decoded to FP32 (R244, R31), so rounded onto it; BF16 and FP32 are exact. -/
def gradIn (d : Desc) (v : Exact) : Exact := if isNarrow d.fmt then rF32 v else v

/-- The gradient of a block, in FP32. -/
def State.blockGrads (s : State) (k : Upd) (md d : Desc) (j : Nat) : List Exact := (s.blockVals k md d j).map (gradIn d)

/-- The first byte and the bytes of a block in a tensor of FP32 or BF16. -/
def blockSpan (k : Upd) (md d : Desc) (j : Nat) : Nat × Nat :=
  (d.byteOf (d.offset k.rank (unrank md.dimSizes (32 * j))), 32 * fmtBits d.fmt / 8)

/-- A block of values written to a tensor of FP32 or BF16 by its unit. -/
def State.writeBlock (s : State) (k : Upd) (md d : Desc) (j : Nat) (vs : List Exact) : State :=
  s.unitWrite k.ctx (blockSpan k md d j).1 (vs.flatMap fun v => leBytes (fmtBits d.fmt / 8) (encWide d.fmt v))

/-- A unit's write of the bytes that a narrow write left in cached lines, so that HBM holds them too (R297). -/
def State.settleUnit (s : State) (k : Upd) (a n : Nat) : State :=
  match s.translate k.ctx a n false false with
  | .error _ => s
  | .ok l => l.foldl (fun t p => (lineCuts (p.2.1 / 128 + 2) p.1 (t.see p.1 p.2.1)).foldl (fun u e =>
      if (u.line (e.1 / 128)).isSome then u.unitLine e.1 e.2 else u) t) s

/-- The working copy of a block written from its masters as they stand (R244, R252). -/
def State.writeCopy (s : State) (k : Upd) (md : Desc) (j : Nat) : State :=
  match k.ten 6 with
  | none => s
  | some d =>
    let vs := s.blockVals k md md j
    if isNarrow d.fmt then
      let os := (blockIdx md j).map fun i => d.offset k.rank i
      let s1 := s.narrowUnit k.core k.ctx { d with policy := 2 } (os.zip vs)
      let lo := (os.head?).getD 0
      let r := d.rowBytes lo (lo + 31)
      let sc := d.scaleSpan lo (lo + 31)
      (s1.settleUnit k r.1 r.2).settleUnit k sc.1 sc.2
    else s.writeBlock k md d j vs

/-- The row of a block on the touched-row path. -/
def Upd.row (k : Upd) (j : Nat) : Nat := 32 * j / max 1 (leAt k.rule 0x2C 4)

/-- The step count that a row's blocks use: as first read by this UPDATE (R255). -/
def State.rowCountOf (s : State) (k : Upd) (d : Desc) (i : Nat) : Nat :=
  match look k.rowN i with
  | some n => n
  | none => leNat (s.vaRead k.core k.ctx (d.auxBase k.rank + 4 * i) 4)

/-- The step t of a block: that of the vote, or its row's (R245, R255). -/
def State.blockStep (s : State) (k : Upd) (j t : Nat) : Nat :=
  match k.ten 7 with | some d => s.rowCountOf k d (k.row j) + 1 | none => t

/-- Whether the mask freezes a block (R250). -/
def State.isFrozen (s : State) (k : Upd) (j : Nat) : Bool :=
  match k.ten 8 with | some d => s.auxBit k.core k.ctx k.rank d j | none => false

/-- The new values of a block (R246, R249). -/
def State.newBlock (s : State) (k : Upd) (md : Desc) (j t : Nat) : List Elem :=
  let b := k.rule
  let ps := s.blockVals k md md j
  let gs := match k.ten 1 with | some d => s.blockGrads k md d j | none => []
  let ms := match k.ten 2 with | some d => s.blockVals k md d j | none => List.replicate 32 zero
  let rule := leAt b 0 1
  let vs := if rule = 1 then (match k.ten 3 with | some d => s.blockVals k md d j | none => []) else List.replicate 32 zero
  let bc1 := biasCorr b 0x1C t
  let bc2 := biasCorr b 0x20 t
  (List.range 32).map fun i =>
    let e : Elem := ⟨(ps[i]?).getD zero, (ms[i]?).getD zero, (vs[i]?).getD zero⟩
    let g1 := mulF ((gs[i]?).getD zero) (fp b 0x14)
    if rule = 0 then rule0 b g1 e
    else if rule = 1 then rule1 b bc1 bc2 g1 e
    else if rule = 2 then rule2 b g1 e
    else
      let idx := unrank md.dimSizes (32 * j + i)
      let acc (r : Nat) (n : Nat) : Exact := match k.ten r with
        | some d => s.elem k.core k.ctx d (d.offset k.rank [n])
        | none => zero
      rule3 b bc2 (decF32 k.rtot) g1 (acc 3 ((idx[1]?).getD 0)) (acc 4 ((idx[0]?).getD 0)) e

/-- Whether a block is guarded (R256): a non-finite gradient element, or a non-finite new master or moment, the moment as it is
stored. -/
def State.isGuarded (s : State) (k : Upd) (md : Desc) (j : Nat) (es : List Elem) : Bool :=
  let stored (r : Nat) (x : Exact) : Bool := match k.ten r with
    | some d => finiteN (if d.fmt = 1 then rBf16 x else x)
    | none => true
  (match k.ten 1 with | some d => (s.blockGrads k md d j).any fun g => !finiteN g | none => false) ||
    es.any fun e => !finiteN e.p || !(stored 2 e.m) || leAt k.rule 0 1 == 1 && !(stored 3 e.v)

/-- The row step count of a committed block advances, once in an UPDATE; a full count stays (R255). -/
def State.advanceRow (s : State) (u unit : Nat) (k : Upd) (j : Nat) : State :=
  match k.ten 7 with
  | none => s
  | some d =>
    let i := k.row j
    let n := s.rowCountOf k d i
    let s1 := s.modUpd u fun y => { y with rowN := if (look y.rowN i).isSome then y.rowN else put y.rowN i n }
    if i ∈ k.rowDone ∨ n = 0xFFFF_FFFF then s1
    else (((s1.unitWrite k.ctx (d.auxBase k.rank + 4 * i) (leBytes 4 (n + 1))).modUpd u fun y =>
      { y with rowDone := y.rowDone ++ [i] }).bump (offUu unit 0x28) 1).bump (offUu unit 0x38) 4

/-- The byte ranges of a block in an UPDATE's tensors, by roles: elements and scale codes (a code counts as the byte that holds it), the
row's step count, the mask's byte (log 67). -/
def Upd.spans (k : Upd) (md : Desc) (j : Nat) (rs : List Nat) : List (Nat × Nat) :=
  rs.flatMap fun r => match k.ten r with
    | none => []
    | some d =>
      let o := d.offset k.rank (unrank md.dimSizes (32 * j))
      if r = 8 then [(d.auxBase k.rank + j / 8, 1)]
      else if r = 7 then [(d.auxBase k.rank + 4 * k.row j, 4)]
      else if leAt k.rule 0 1 = 3 ∧ r = 3 then []
      else if isNarrow d.fmt then [d.rowBytes o (o + 31), d.scaleSpan o (o + 31)]
      else [d.rowBytes o (o + 31)]

/-- Bytes of a block's tensors that its unit writes, counted (R268). -/
def State.unitWrote (s : State) (unit : Nat) (k : Upd) (md : Desc) (j : Nat) (rs : List Nat) : State :=
  s.bump (offUu unit 0x38) ((k.spans md j rs).map (·.2)).sum

/-- A block that the mask freezes: its working copy is written again (R250, R252). -/
def State.frozenBlock (s : State) (u unit : Nat) (k : Upd) (md : Desc) (j : Nat) : State :=
  (((s.writeCopy k md j).modUpd u fun y => { y with frozen := y.frozen + 1 }).bump (offUu unit 0x18) 1).unitWrote unit k md j [6]

/-- A guarded block: left unchanged, and its working copy written (R256, R252). -/
def State.guardedBlock (s : State) (u unit : Nat) (k : Upd) (md : Desc) (j : Nat) : State :=
  ((((s.writeCopy k md j).modUpd u fun y => { y with guarded := y.guarded + 1 }).bump (offUu unit 0x20) 1).setBit
    (offUu unit 0x08) 3).unitWrote unit k md j [6]

/-- A block with operands that read uncorrectable: left unchanged; the fence enters the error state (R307). -/
def State.badBlock (s : State) (u : Nat) (k : Upd) (hs : List Nat) : State :=
  ((hs.foldl (fun t h => t.countUe (stackOf (h * 64))) s).modUpd u fun y => { y with err := if y.err = 0 then 0x4003 else y.err }).xferError
    k.core k.slot 0x4003

/-- A block committed: master, moments, row step count, then its part of the working copy (R263). -/
def State.commitUpd (s : State) (u unit : Nat) (k : Upd) (md : Desc) (j : Nat) (es : List Elem) : State :=
  let s1 := s.writeBlock k md md j (es.map fun (e : Elem) => e.p)
  let s2 := match k.ten 2 with | some d => s1.writeBlock k md d j (es.map fun (e : Elem) => e.m) | none => s1
  let s3 := if leAt k.rule 0 1 = 1 then (match k.ten 3 with | some d => s2.writeBlock k md d j (es.map fun (e : Elem) => e.v) | none => s2) else s2
  let s4 := (s3.advanceRow u unit k j).writeCopy k md j
  ((s4.modUpd u fun y => { y with updated := y.updated + 1 }).bump (offUu unit 0x10) 1).unitWrote unit k md j [0, 2, 3, 6]

/-- A block of an UPDATE whose vote passed (R246-R256): the mask and the masters are read first (R251), the other operands of a block
that is neither frozen nor voided after them. -/
def State.passBlock (s : State) (u unit : Nat) (k : Upd) (md : Desc) (j t : Nat) : State :=
  let first := k.spans md j [8, 0]
  let rest := k.spans md j ([1, 2, 3] ++ if (look k.rowN (k.row j)).isSome then [] else [7])
  let s1 := s.unitReads unit k.ctx first
  if !(s.unitBad k.ctx first).isEmpty then s1.badBlock u k (s.unitBad k.ctx first)
  else if s1.isFrozen k j then s1.frozenBlock u unit k md j
  else if k.voided then s1.guardedBlock u unit k md j
  else
    let s2 := s1.unitReads unit k.ctx rest
    if !(s1.unitBad k.ctx rest).isEmpty then s2.badBlock u k (s1.unitBad k.ctx rest)
    else
      let es := s2.newBlock k md j (s2.blockStep k j t)
      if s2.isGuarded k md j es then s2.guardedBlock u unit k md j else s2.commitUpd u unit k md j es

/-- A block of an UPDATE whose vote failed: its working copy is written from the unchanged masters (R261). -/
def State.skipBlock (s : State) (u unit : Nat) (k : Upd) (md : Desc) (j : Nat) : State :=
  if (k.ten 6).isNone then s
  else
    let first := k.spans md j [0]
    let s1 := s.unitReads unit k.ctx first
    if !(s.unitBad k.ctx first).isEmpty then s1.badBlock u k (s.unitBad k.ctx first)
    else (s1.writeCopy k md j).unitWrote unit k md j [6]

/-- rate_limit is adopted when the unit holds no block of any UPDATE (R269). -/
def State.adoptRate (s : State) (unit : Nat) : State :=
  if s.uu.updates.any fun e => !(lookD e.2.left unit []).isEmpty then s else s.adopt (offUu unit 0) 0 2

/-- UPDATE_BLOCK_COMMIT (R244-R256, R261, R263, R272): the next block of a unit, after the vote (R259) and while nothing holds it
(R433), with what the checks report as it reads; at a die that is gated or relocks it waits (R474, R477); after a failed vote only the working copy is written again. -/
def execUpdateBlockCommit (upd unit : Nat) (err : UnitErr) (s : State) : Res :=
  .next (s.guarded (match look s.uu.updates upd with
  | none => s
  | some k =>
    match k.outcome, lookD k.left unit [], k.ten 0 with
    | some rec, j :: rest, some md =>
      if s.live k.ctx && !k.lost && !k.held && (!rec.pass || leAt k.rule 0 1 != 3 || k.secondPass) then
        if !(s.dieServes (unit / 2)) then s.reachDie (unit / 2)
        else if err = .parity then s.faultCtx k.ctx 0x5010 0
        else
          let s1 := s.modUpd upd fun y => { y with left := put y.left unit rest }
          (s1.underMaps k.ctx k.maps fun t =>
            let t1 := match err with
              | .hbm h e => if (t.hbmHalves k.ctx (k.spans md j [8, 0, 1, 2, 3, 7])).contains h then t.eccHalf h e else t
              | _ => t
            if rec.pass then t1.passBlock upd unit k md j rec.t else t1.skipBlock upd unit k md j).adoptRate unit
      else s
    | _, _, _ => s))

/-! ### Rule 3: the combine (R248) -/

/-- q of an element of the first pass. -/
def State.qAt (s : State) (k : Upd) (n : Nat) : Exact :=
  match k.ten 0, k.ten 1 with
  | some md, some gd =>
    let g1 := mulF (gradIn gd (s.elem k.core k.ctx gd (gd.offset k.rank (unrank md.dimSizes n)))) (fp k.rule 0x14)
    fmaF g1 g1 (fp k.rule 0x28)
  | _, _ => zero

/-- The partial sums of a unit: its rows, then its columns (R248 steps 1 to 4). -/
def State.partials (s : State) (k : Upd) (u r c : Nat) : List Exact :=
  let mine := (lookD k.left u []).map fun j => (32 * j / max 1 c, 32 * j % max 1 c)
  let rows := (List.range r).map fun i =>
    (mine.filter fun b => b.1 == i).foldl (fun a b => (List.range 32).foldl (fun a e => addF a (s.qAt k (i * c + b.2 + e))) a) zero
  let cols := (List.range c).map fun j =>
    (mine.filter fun b => decide (b.2 ≤ j) && decide (j < b.2 + 32)).foldl (fun a b => addF a (s.qAt k (b.1 * c + j))) zero
  rows ++ cols

/-- A vector of FP32 values written to an accumulator at a rank. -/
def State.writeVector (s : State) (k : Upd) (d : Desc) (vs : List Exact) : State :=
  s.unitWrite k.ctx (d.byteOf (d.offset k.rank [])) (vs.flatMap fun v => leBytes 4 (encF32 v).toNat)

/-- The bytes that the units move in the first pass: each reads its blocks' gradients and writes its partials; the combiner reads all
partials and the accumulators (R248, R268, R316). -/
def State.firstPassReads (s : State) (k : Upd) (md rd cd sd : Desc) (n comb : Nat) : State :=
  let s1 := (List.range 32).foldl (fun (t : State) u =>
    (t.unitReads u k.ctx ((lookD k.left u []).flatMap fun j => k.spans md j [1])).bump (offUu u 0x38) (4 * n)) s
  let vec (d : Desc) : Nat × Nat := (d.byteOf (d.offset k.rank []), 4 * d.count)
  s1.unitReads comb k.ctx [(sd.auxBase k.rank, 128 * n), vec rd, vec cd]

/-- The sums, the accumulators and Rtot of the combiner, with whether they stand (R248 steps 5 to 8). -/
def State.combine (s : State) (u : Nat) (k : Upd) (md rd cd sd : Desc) : State :=
  let c := (md.dimSizes.head?).getD 0
  let r := (md.dimSizes[1]?).getD 0
  let comb := s.blockUnit k.ctx k.rank md 0
  let ps := (List.range 32).map fun n => s.partials k n r c
  let s1 := ps.zipIdx.foldl (fun t p => t.unitWrite k.ctx (sd.auxBase k.rank + 4 * p.2 * (r + c))
    (p.1.flatMap fun v => leBytes 4 (encF32 v).toNat)) (s.firstPassReads k md rd cd sd (r + c) comb)
  let sums := (List.range (r + c)).map fun i => ps.foldl (fun a p => addF a ((p[i]?).getD zero)) zero
  let c2 := addF oneF (negN (fp k.rule 0x20))
  let next (d : Desc) (n : Nat) (v : Exact) : Exact :=
    fmaF (fp k.rule 0x20) (s.elem k.core k.ctx d (d.offset k.rank [n])) (mulF c2 v)
  let rows := (List.range r).map fun i => next rd i ((sums[i]?).getD zero)
  let cols := (List.range c).map fun j => next cd j ((sums[r + j]?).getD zero)
  let tot := rows.foldl addF zero
  if (rows ++ cols ++ [tot]).any (fun v => !finiteN v) || zeroN tot then
    s1.modUpd u fun y => { y with secondPass := true, voided := true }
  else (((s1.writeVector k rd rows).writeVector k cd cols).modUpd u fun y => { y with secondPass := true, rtot := encF32 tot }).bump
    (offUu comb 0x38) (4 * (r + c))

/-- RULE3_COMBINE (R248, R272): after a passed vote, the first pass of all 32 units and the combine, which wait until every die serves (R474,
R477); a parity error met by one of them kills the context. -/
def execRule3Combine (upd : Nat) (parity : Bool) (s : State) : Res :=
  .next (s.guarded (match look s.uu.updates upd with
  | none => s
  | some k =>
    match k.outcome, k.ten 0, k.ten 3, k.ten 4, k.ten 5 with
    | some rec, some md, some rd, some cd, some sd =>
      if s.live k.ctx && !k.lost && !k.held && rec.pass && leAt k.rule 0 1 == 3 && !k.secondPass then
        if !((List.range dieCount).all s.dieServes) then (List.range dieCount).foldl State.reachDie s
        else if parity then s.faultCtx k.ctx 0x5010 0 else s.underMaps k.ctx k.maps fun t => t.combine upd k md rd cd sd
      else s
    | _, _, _, _, _ => s))

/-! ### Completion (R238, R266) -/

/-- The completion record of an UPDATE whose vote had an outcome: status by maximum, the first error, step and generation, and
after a pass the counts (R266). -/
def Upd.record (k : Upd) (rec : VoteRec) (b : List Byte) : List Byte :=
  let err := if k.err ≠ 0 then k.err else if 0 < k.guarded then 0x5007 else 0
  let b1 := setLe (setLe b 0 1 (max (if rec.pass then 0 else 1) (leAt b 0 1))) 1 1 (leAt k.rule 0 1)
  let b2 := if leAt b1 2 2 = 0 then setLe b1 2 2 err else b1
  let b3 := setLe (setLe b2 8 8 rec.t) 0x10 8 rec.generation
  if rec.pass then
    let add (o v : Nat) (l : List Byte) : List Byte := setLe l o 8 ((leAt l o 8 + v) % 2 ^ 64)
    add 0x38 k.rowsTouched (add 0x30 k.rowDone.length (add 0x28 k.guarded (add 0x20 k.frozen (add 0x18 k.updated b3))))
  else b3

/-- The transfer of an UPDATE completes and its slot frees (R289), and with it the pages that it held (R352, R360). -/
def State.endUpd (s : State) (u : Nat) (k : Upd) : State :=
  let s1 := (List.range 32).foldl State.adoptRate { s with uu := { s.uu with updates := del s.uu.updates u } }
  ((s1.modCore k.core fun y => { y with xfers := del y.xfers k.slot }).bump (offMe k.core 0x08) 1).settleFreeing.finishWork k.core k.work

/-- UPDATE_COMPLETE (R238, R256, R260, R266): every unit has committed its last block, or the vote ended in error; the
completion record is written, and the work ends, behind which a signal rides. -/
def execUpdateComplete (upd : Nat) (s : State) : Res :=
  .next (s.guarded (match look s.uu.updates upd with
  | none => s
  | some k =>
    if !s.live k.ctx then s
    else if k.lost then (s.underMaps k.ctx k.maps fun t => t.failRecord k.core k.ctx k.base k.err).endUpd upd k
    else match k.outcome with
      | some rec =>
        if !k.held && k.left.all (fun e => e.2.isEmpty) then
          let s1 := s.underMaps k.ctx k.maps fun t =>
            match t.translate k.ctx (k.base + 0x40) 64 false false with
            | .ok l => t.writePieces 0 l (k.record rec (t.seePieces l))
            | .error _ => t
          let s2 := if 0 < k.guarded then
              (s1.raise 0x5802 (leBytes 2 k.ctx ++ leBytes 2 k.ruleHandle ++ leBytes 8 k.guarded)).xferError k.core k.slot 0x5007
            else s1
          s2.endUpd upd k
        else s
      | none => s))

end Sys2Proof.Machine
end

