-- ==== Sys2Proof/Machine/Move.lean ====
section
/-! DEFINITION. The move engine's commands (R289-R303, R341, R367, R392, R393, R398): COPY, COPY_REMOTE, HINT, COLL, UPDATE,
FENCE, TRIGGER, ATOMIC, HOST_PUT, and the end of a transfer. -/

namespace Sys2Proof.Machine

open Sys2Proof

/-! ### HOST_PUT (R339-R341) -/

/-- The bytes of a HOST_PUT's source; those of lines that read uncorrectable are free values (R307). -/
def State.putData (s : State) (c x : Nat) (d : Desc) (bad : List Nat) : List Byte × State :=
  let g := d.range (s.coreRank c)
  let v := s.seenBy c d.policy
  if bad.isEmpty then (v.vaRead c x g.1 g.2, s)
  else (List.range g.2).foldl (fun (acc : List Byte × State) i =>
    match s.vaLine x (g.1 + i) with
    | some ln => if bad.contains ln then let w := acc.2.draw; (acc.1 ++ [w.1.setWidth 8], w.2) else (acc.1 ++ [v.vaByte c x (g.1 + i)], acc.2)
    | none => (acc.1 ++ [v.vaByte c x (g.1 + i)], acc.2)) ([], s)

/-- Data cut into pieces of at most 16,384 bytes with their offsets (R340); empty data give one empty piece. -/
def putPieces (data : List Byte) : List (Nat × List Byte) :=
  (List.range (max 1 ((data.length + 16383) / 16384))).map fun k => (16384 * k, (data.drop (16384 * k)).take 16384)

/-- The data of a HOST_PUT, in PUT entries of its completion queue; those that find no room wait (R341). -/
def State.movePut (s : State) (c slot x : Nat) (v : Xfer) (src cq : Nat) : State :=
  match v.descs, s.ctxPort x with
  | d :: _, some p =>
    let r := s.putData c x d v.bad
    let ps := putPieces r.1
    let xid := r.2.host.nextXid
    let s0 := { r.2 with host := { r.2.host with nextXid := xid + 1 } }
    let res := ps.zipIdx.foldl (fun (acc : State × Nat) e =>
      let t := acc.1.cqPost p cq
        { kind := 1, ctx := x, source := src, result := [], data := e.1.2, offset := e.1.1, last := e.2 + 1 == ps.length,
          owner := .put c slot, xid := xid }
      (t.1, acc.2 + b2n (!t.2))) (s0, 0)
    let s1 := (res.1.modXfer c slot fun y => { y with pieces := res.2 }).bump (offMe c 0x10) r.1.length
    (if v.bad.isEmpty then s1 else s1.xferError c slot 0x4003).moved c slot
  | _, _ => s.moved c slot

/-! ### What a transfer does once all it asked for has arrived -/

/-- Whether a rank's contribution to its instance has been made. -/
def State.contributed (s : State) (c i : Nat) : Bool :=
  match look s.fab.colls i with
  | some k => (k.part s.node (s.coreRank c)).isSome
  | none => true

/-- The data of a transfer by its entry. -/
def State.moveData (s : State) (c slot x : Nat) (v : Xfer) : State :=
  match v.insn with
  | .copy _ _ mx => s.moveCopy c slot x v mx
  | .copyRemote _ _ rank _ _ kind _ _ flag fh =>
    if kind = 0 then s.moveOwn c slot x v rank (if flag then some fh else none)
    else if v.reqs.isEmpty && v.descs.length == 2 then s.moveRemote c slot x v rank (if flag then some fh else none)
    else s
  | .coll _ _ _ _ _ => match v.coll with
    | some i => if s.contributed c i then s else s.moveColl c slot x v i
    | none => s.moved c slot
  | .hostPut src cq => s.movePut c slot x v src cq
  | _ => s.moved c slot

/-- A transfer whose reads have all arrived moves its data, once. -/
def State.settleXfer (s : State) (c slot : Nat) : State :=
  match s.xfer c slot, s.coreCtx c with
  | some v, some x =>
    if !v.moved && v.todo.isEmpty && v.misses.isEmpty then s.underMaps x v.maps fun t => t.moveData c slot x v else s
  | _, _ => s

/-- Every transfer of a core whose reads have all arrived, in slot order. -/
def State.settleAll (s : State) (c : Nat) : State := (s.core c).xfers.foldl (fun t e => t.settleXfer c e.1) s

/-- Line requests of a core have ended: its transfers ask on, and those that have all they need move their data. -/
def State.goOn (s : State) (c : Nat) : State := (s.askOn c).settleAll c

/-! ### Taking entries -/

/-- Whether an entry is a COPY. -/
def Insn.isCopy : Insn → Bool | .copy _ _ _ => true | _ => false
/-- Whether an entry is a COPY_REMOTE. -/
def Insn.isRemote : Insn → Bool | .copyRemote _ _ _ _ _ _ _ _ _ _ => true | _ => false
/-- Whether an entry is a HINT of a kind. -/
def Insn.isHint (k : Nat) : Insn → Bool | .hint _ j => j == k | _ => false
/-- Whether an entry is a COLL of a kind. -/
def Insn.isColl (k : Nat) : Insn → Bool | .coll _ _ j _ _ => j == k | _ => false
/-- Whether an entry is an UPDATE. -/
def Insn.isUpdate : Insn → Bool | .update _ _ _ _ _ _ => true | _ => false
/-- Whether an entry is a TRIGGER. -/
def Insn.isTrigger : Insn → Bool | .trigger _ _ _ => true | _ => false
/-- Whether an entry is an ATOMIC. -/
def Insn.isAtomic : Insn → Bool | .atomic _ _ _ => true | _ => false
/-- Whether an entry is a HOST_PUT. -/
def Insn.isHostPut : Insn → Bool | .hostPut _ _ => true | _ => false

/-- An entry taken by a function, with what the checks of core memory report to the reads of its transfer: one that they stop takes no
slot and moves nothing; an entry that fails before it reads is no reader (R287). -/
def State.withErr (s : State) (c slot : Nat) (err : CoreErr) (f : State → State) : State :=
  if ((f s).xfer c slot).isNone then f s
  else
    let b := s.coreErr c err
    if b.2 then b.1 else f b.1

/-- COPY (R290, R291, R33-R41): checked, taken into a slot, its source asked for. An uncorrectable error that the move engine meets in the
core's memory stops it (R287). -/
def execCopy (core : Nat) (err : CoreErr) (s : State) : Res :=
  .next (s.guarded (s.takeMove core Insn.isCopy fun t x slot i => match i with
    | .copy src dst mx => match t.planCopy core x src dst mx with
      | .error e => t.failEntry core e
      | .ok ds => match ds with
        | sd :: _ :: sc =>
          t.withErr core slot err fun u => (u.startXfer core x slot .copy i ds (u.copyTodo core x mx sd sc)).settleXfer core slot
        | _ => t
    | _ => t))

/-- COPY_REMOTE (R392, R143, R202), with what the checks of core memory report (R287). -/
def execCopyRemote (core : Nat) (err : CoreErr) (s : State) : Res :=
  .next (s.guarded (s.takeMove core Insn.isRemote fun t x slot i => match i with
    | .copyRemote src dst rank _ _ kind _ _ _ _ =>
      if kind = 0 then t.withErr core slot err fun u => (u.takeOwn core x slot i src dst rank).settleXfer core slot
      else if kind ≠ 1 ∧ t.ident.grade = .tray then t.absentUnit core
      else t.withErr core slot err fun u => u.takeRemote core x slot i src dst rank
    | _ => t))

/-! ### HINT (R298-R303) -/

/-- The lines that hold a byte of a HINT's range, with the partition, or the code of the failure (R242, R298, R301). -/
def State.hintLines (s : State) (c x h : Nat) : Except Nat (Desc × List (Nat × Nat × Nat × Nat)) :=
  match s.aux x h false with
  | .error e => .error e
  | .ok d =>
    let a := d.auxBase (s.coreRank c)
    if inLocal a then .error 0x4005
    else match s.translate x a d.auxBytes false false with
      | .error e => .error e
      | .ok _ => .ok (d, s.rangeLines x [(a, d.auxBytes)])

/-- Reads of whole lines that are absent. -/
def State.fetchLines (s : State) (policy : Nat) (l : List (Nat × Nat × Nat × Nat)) : List Todo :=
  (l.filter fun e => (s.line e.2.1).isNone).map fun e => .read e.1 policy e.2.1 0 128

/-- HINT_PREFETCH (R301): every absent line of the range is installed under the descriptor's policy; under NO_ALLOC none. -/
def execHintPrefetch (core : Nat) (s : State) : Res :=
  .next (s.takeMove core (Insn.isHint 0) fun t x slot i => match i with
    | .hint h _ => match t.hintLines core x h with
      | .error e => t.failEntry core e
      | .ok (d, l) =>
        (t.startXfer core x slot .hint i [d] (if d.policy = 2 then [] else t.fetchLines (if d.policy = 1 then 1 else 0) l)).moved
          core slot
    | _ => t)

/-- The pin cap of a partition in lines (R298, R314). -/
def State.pinCap (s : State) (p : Nat) : Nat :=
  min 3 (fld (s.reg (offMcPart p 0)) 0 2 + 1) * (16384 * (s.slices p).length) / 4

/-- No pin HINT of a partition is in progress (R315); a descriptor names the home partition of its base (R292). -/
def State.pinIdle (s : State) (p : Nat) : Bool :=
  !(s.cores.any fun k => k.2.xfers.any fun v => Insn.isHint 1 v.2.insn && v.2.descs.any fun d => d.part == p)

/-- The pin cap of a partition takes its staged value where no pin HINT of it is in progress (R315). -/
def State.adoptCap (s : State) (p : Nat) : State := if s.pinIdle p then s.adopt (offMcPart p 0) 0 2 else s

/-- One line of a pin HINT: refused at 12 pinned ways of its set or at the cap, else pinned, with its fetch where it is absent
(R298). -/
def State.pinLine (s : State) (todo : List Todo) (e : Nat × Nat × Nat × Nat) : State × List Todo :=
  let p := e.1
  let ln := e.2.1
  let refuse (t : State) : State × List Todo := (t.bump (offMcPart p 0x48) 1, todo)
  match s.line ln with
  | some l =>
    if l.pinned then (s, todo)
    else if s.pinCap p ≤ s.pinned p then refuse (s.setBit (offMcPart p 0x08) 10)
    else if 12 ≤ (s.cache.lines.filter fun k => k.2.slice == l.slice && k.2.set == l.set && k.2.pinned).length then refuse s
    else (s.modLines fun t => upd t ln fun l => { l with pinned := true }, todo)
  | none =>
    let at_ := s.placeOf p ln
    if s.pinCap p ≤ s.pinned p then refuse (s.setBit (offMcPart p 0x08) 10)
    else if 12 ≤ (s.cache.lines.filter fun k => k.2.slice == at_.1 && k.2.set == at_.2 && k.2.pinned).length then refuse s
    else ((s.install p ln true).modLines fun t => upd t ln fun l => { l with pinned := true }, todo ++ [.read p 0 ln 0 128])

/-- HINT_PIN (R298): the lines of the range are fetched and pinned in ascending address order. -/
def execHintPin (core : Nat) (s : State) : Res :=
  .next (s.guarded (s.takeMove core (Insn.isHint 1) fun t x slot i => match i with
    | .hint h _ => match t.hintLines core x h with
      | .error e => t.failEntry core e
      | .ok (d, l) =>
        match (if d.statsOff = 0 then none else t.vaCheck core x d.statsBase 8 false true) with
        | some e => t.failEntry core e
        | none =>
          let t1 := (l.foldl (fun ps e => addNew ps e.1) []).foldl (fun (u : State) p => u.adoptCap p) t
          let r := l.foldl (fun (u : State × List Todo) e => u.1.pinLine u.2 e) (t1, [])
          (r.1.startXfer core x slot .hint i [d] r.2).moved core slot
    | _ => t))

/-- HINT_UNPIN (R299): the pin marks of the range are cleared. -/
def execHintUnpin (core : Nat) (s : State) : Res :=
  .next (s.takeMove core (Insn.isHint 2) fun t x slot i => match i with
    | .hint h _ => match t.hintLines core x h with
      | .error e => t.failEntry core e
      | .ok (d, l) =>
        ((t.modLines fun tab => l.foldl (fun w e => upd w e.2.1 fun k => { k with pinned := false }) tab).startXfer
          core x slot .hint i [d] []).moved core slot
    | _ => t)

/-- One line that a dead HINT invalidates: its slice's ring of 64 remembers it (R302). -/
def State.deadLine (s : State) (p ln : Nat) : State :=
  let sl := (s.placeOf p ln).1
  let ring := lookD s.cache.dead sl [] ++ [ln]
  let s1 := s.dropLine ln
  ({ s1 with cache := { s1.cache with dead := put s1.cache.dead sl (ring.drop (ring.length - 64)) } }).bump (offMcPart p 0x50) 1

/-- HINT_DEAD (R302): the lines wholly inside the range are invalidated without write-back. -/
def execHintDead (core : Nat) (s : State) : Res :=
  .next (s.takeMove core (Insn.isHint 3) fun t x slot i => match i with
    | .hint h _ => match t.hintLines core x h with
      | .error e => t.failEntry core e
      | .ok (d, l) =>
        let whole := l.filter fun e => e.2.2.1 == 0 && e.2.2.2 == 128
        ((whole.foldl (fun u e => u.deadLine e.1 e.2.1) t).startXfer core x slot .hint i [d] []).moved core slot
    | _ => t)

/-! ### COLL (R397, R398) -/

/-- A COLL of a kind at the head of a move engine, with what the checks of core memory report to its reads (R287). -/
def State.collHead (s : State) (core kind : Nat) (err : CoreErr) : State :=
  s.takeMove core (Insn.isColl kind) fun t x slot i => match i with
    | .coll src dst _ scope id => t.withErr core slot err fun u => (u.takeColl core x slot i src dst kind scope id).settleXfer core slot
    | _ => t

/-- REDUCE_SCATTER (R398). -/
def execReduceScatter (core : Nat) (err : CoreErr) (s : State) : Res := .next (s.guarded (s.collHead core 0 err))
/-- ALL_GATHER (R398). -/
def execAllGather (core : Nat) (err : CoreErr) (s : State) : Res := .next (s.guarded (s.collHead core 1 err))
/-- ALL_REDUCE (R398). -/
def execAllReduce (core : Nat) (err : CoreErr) (s : State) : Res := .next (s.guarded (s.collHead core 2 err))
/-- FINITENESS_VOTE (R257, R438). -/
def execFinitenessVote (core : Nat) (s : State) : Res := .next (s.collHead core 3 .none)

/-- COLL_COMPLETE (R398, R257): with every participant's contribution, the destinations of this member's participants are
written, and the instance ends. -/
def execCollComplete (inst : Nat) (s : State) : Res :=
  .next (s.guarded (match look s.fab.colls inst with
  | none => s
  | some k =>
    if k.kind ≠ 3 && k.full then
      let s1 := k.locals.foldl (fun t l => t.writeResult k l) (s.flagJob k.entry (k.meetsNonfinite s.node))
      { s1.leaveColl k with fab := { (s1.leaveColl k).fab with colls := del s1.fab.colls inst } }
    else s))

/-! ### UPDATE, FENCE, TRIGGER, ATOMIC, HOST_PUT -/

/-- UPDATE (R238-R259). -/
def execUpdate (core : Nat) (s : State) : Res :=
  .next (s.guarded (s.takeMove core Insn.isUpdate fun t x slot i => match i with
    | .update rule master grad mask rows vote => t.takeUpdate core x slot i rule master grad mask rows vote
    | _ => t))

/-- The fence of the launch that runs on a core (R197). -/
def State.launchFence (s : State) (c : Nat) : Option Nat := (s.coreSeq c).bind fun q => q.2.fence.map (·.1)

/-- FENCE (R364, R367, R377): taken once the engine's earlier transfers have completed; it signals its fence. Where that is a proxy, the
launch's fence takes what fails on the way to its home (R419). -/
def execFence (core : Nat) (s : State) : Res :=
  .next (match s.headOf core .me, s.coreCtx core with
  | some (.body (.fence id value) _), some x =>
    if (s.core core).work.any fun w => w.1 == .me then s
    else
      let s1 := s.take core .me
      if s1.maySignal x id then s1.signalFor id value (s1.launchFence core) else s1.failEntry core 0x6004
  | _, _ => s)

/-- TRIGGER (R389, R395). -/
def execTrigger (core : Nat) (s : State) : Res :=
  .next (s.takeMove core Insn.isTrigger fun t x slot i => match i with
    | .trigger _ proc arg => t.takeTrigger core x slot i proc arg
    | _ => t)

/-- The u64 at an ATOMIC's target (R393): its address for the rank, in HBM and 8-byte aligned. -/
def State.atomicTarget (s : State) (c x h : Nat) : Except Nat (List Piece) :=
  match s.aux x h true with
  | .error e => .error e
  | .ok d =>
    let a := d.auxBase (s.coreRank c)
    if inLocal a || a % 8 != 0 then .error 0x4021
    else match s.translate x a 8 false true with
      | .error e => .error e
      | .ok l => .ok l

/-- ATOMIC (R393): its word is read through the slices (R314, R316); one that reads uncorrectable is not written (R307). -/
def execAtomic (core : Nat) (s : State) : Res :=
  .next (s.guarded (s.takeMove core Insn.isAtomic fun t x slot i => match i with
    | .atomic h op v => match t.atomicTarget core x h with
      | .error e => t.failEntry core e
      | .ok l =>
        let t0 := t.fetchPieces x l
        if t0.badPieces l then t0.failEntry core 0x4003
        else
          let t1 := (t0.writePieces 0 l (leBytes 8 (atomicOp op 64 (leNat (t0.seePieces l)) v))).privDrop core (pieceLines l)
          (((t1.bump (offMe core 0x20) 1).bump (offMe core 0x18) 8).startXfer core x slot .atomic i [] []).moved core slot
    | _ => t))

/-- The checks of a HOST_PUT (R339, R331, R348). -/
def State.putFault (s : State) (x cq : Nat) : Option Nat :=
  match s.ctxPort x with
  | none => some 0x8005
  | some p =>
    let v := s.cqCtl p cq
    if !(s.cqEnabled p cq && s.cqOwned p cq (some x)) then some 0x8005
    else if s.inWindow p (v / 2 ^ 19 * 2 ^ 19) (64 * 2 ^ fld v 1 5) then none else some 0x8006

/-- HOST_PUT (R341), with what the checks of core memory report (R287). -/
def execHostPut (core : Nat) (err : CoreErr) (s : State) : Res :=
  .next (s.takeMove core Insn.isHostPut fun t x slot i => match i with
    | .hostPut src cq =>
      match t.putFault x cq, t.desc x src false with
      | some e, _ => t.failEntry core e
      | none, .error e => t.failEntry core e
      | none, .ok d =>
        let g := d.range (t.coreRank core)
        match t.vaCheck core x g.1 g.2 true false with
        | some e => t.failEntry core e
        | none => t.withErr core slot err fun u => (u.startXfer core x slot .hostPut i [d] (u.readTodo core x d.policy [g])).settleXfer core slot
    | _ => t)

/-! ### The end of a transfer (R289) -/

/-- A transfer waits for nothing any longer. -/
def Xfer.quiet (v : Xfer) : Bool :=
  v.moved && v.todo.isEmpty && v.misses.isEmpty && v.reqs.isEmpty && v.pieces == 0 && v.upd.isNone && v.coll.isNone

/-- The lines of a pin HINT's range that are pinned now are written as its result (R298). -/
def State.pinResult (s : State) (c x : Nat) (v : Xfer) : State :=
  match v.insn, v.descs with
  | .hint _ 1, [d] =>
    if d.statsOff = 0 then s
    else
      let l := s.rangeLines x [(d.auxBase (s.coreRank c), d.auxBytes)]
      let n := (l.filter fun e => match s.line e.2.1 with | some k => k.pinned | none => false).length
      (((s.vaWrite c x 0 d.statsBase (leBytes 8 n)).privDrop c ((s.rangeLines x [(d.statsBase, 8)]).map fun e => e.2.1)).bump (offMe c 0x18) 8).bump
        (offMe c 0x20) 1
  | _, _ => s

/-- The remote token that a transfer carries and has not yet sent: destination rank, channel and kind; a COPY_REMOTE that ended
before its first line carries none. -/
def Xfer.tokenDue (v : Xfer) : Option (Nat × Nat × Nat) :=
  match v.insn with
  | .copyRemote _ _ rank _ _ kind chan true _ _ => if v.tokenSent || v.descs.length < 2 then none else some (rank, chan, kind)
  | _ => none

/-- A transfer has completed: its slot frees, the stall counter restarts (R149), and what waited for its slot or its lines goes on. -/
def State.endXfer (s : State) (c slot x : Nat) (v : Xfer) : State :=
  let s1 := s.underMaps x v.maps fun t => t.pinResult c x v
  let s2 := (s1.modCore c fun k => { k with xfers := del k.xfers slot, mxCounts := if v.mx.isSome then v.mx else k.mxCounts }).bump (offMe c 0x08) 1
  let s3 := if Insn.isHint 1 v.insn then v.descs.foldl (fun (t : State) d => t.adoptCap d.part) s2 else s2
  (((s3.progress c).finishWork c v.work).goOn c).settleFreeing

/-- TRANSFER_COMPLETE (R289, R143): a transfer that waits for nothing any longer completes. One that carries a remote token first
delivers or sends it, once every earlier transfer of the engine has completed (R394). -/
def execTransferComplete (core slot : Nat) (s : State) : Res :=
  .next (s.guarded (match s.xfer core slot, s.coreCtx core with
  | some v, some x =>
    if !v.quiet then s
    else match v.tokenDue with
      | none => s.endXfer core slot x v
      | some (rank, chan, kind) =>
        if (s.core core).work.any fun w => w.1 == .me && decide (w.2 < v.work) then s
        else
          let s0 := s.modXfer core slot fun y => { y with tokenSent := true }
          if kind = 0 then
            let r := s0.deliverToken x rank chan
            (if r.2 then r.1 else r.1.xferError core slot 0x7003).endXfer core slot x v
          else s0.sendFor core slot
            ⟨v.insn.node s.pins.strapTray, .token, some (core, slot), x, none, s.jobId x, tokenAddr rank chan, [], 0, false, 0, none⟩
  | _, _ => s))

end Sys2Proof.Machine
end

