-- ==== Sys2Proof/Machine/Hbm.lean ====
section
/-! DEFINITION. The commands of the memory side (R295, R296, R307, R309-R311, R445): a fill, the wait of a first-touch copy, scrub
passes, row remaps, evacuation of a slot, wipes. -/

namespace Sys2Proof.Machine

open Sys2Proof

/-! ### Fills (R296, R307) -/

/-- A fill's bytes merged into its line, installed where it is absent: bytes already valid are kept (R295, R296). -/
def State.fillLine (s : State) (m : Miss) : State :=
  if m.install then
    let s1 := s.install m.part m.line m.mru
    let hbm := cellGets s1.mem (m.line * 128) 128
    s1.modLines fun t => upd t m.line fun l =>
      { l with valid := BitVec.allOnes 128,
               data := (List.range 128).map fun i => if l.valid.getLsbD i then (l.data[i]?).getD 0 else (hbm[i]?).getD 0 }
  else s

/-- A line that a pin HINT placed and no fill has reached leaves again (R307: it is not installed). -/
def State.unplace (s : State) (ln : Nat) : State :=
  match s.line ln with
  | some l => if l.valid = 0 then s.dropLine ln else s
  | none => s

/-- The reader of a fill: the transfer waits for it no longer, and learns of a line that read uncorrectable. -/
def State.serve (s : State) (i : Nat) (m : Miss) (bad : Bool) : State :=
  match m.reader with
  | none => s
  | some (c, slot) =>
    match s.xfer c slot with
    | none => s
    | some v =>
      let s1 := s.modXfer c slot fun y => { y with misses := drop1 y.misses i, bad := if bad then addNew y.bad m.line else y.bad }
      let hint := match v.insn with | .hint _ _ => true | _ => false
      let ro := m.ro && (s.core c).hasPriv
      let s2 := if bad && hint then s1.xferError c slot 0x4003 else s1
      (if ro && !bad then s2.privFill c m.line else s2).goOn c

/-- The memory object that holds a device-local address. -/
def State.objectAt (s : State) (a : Nat) : Option Nat :=
  (s.objs.mems.find? fun m => m.2.pages.any fun g => decide (g ≤ a) && decide (a < g + pageBytes m.2.pageSize)).map (·.1)

/-- Dirty bytes of a line are lost (R308): the line is invalidated, every context with a mapping of its object is killed, and the loss is
recorded. Of a line that no object holds the object number of the event is a free value. -/
def State.dirtyLost (s : State) (ln : Nat) (l : Line) : State :=
  let o := s.objectAt (ln * 128)
  let xs : List Nat := match o with
    | some h => (s.objs.ctxs.filter fun (x : Nat × Ctx) => x.2.maps.any fun m => m.obj == h).map (·.1)
    | none => []
  let s1 := xs.foldl (fun (t : State) x => t.faultCtx x 0x4013 0) (s.dropLine ln)
  let d : Nat × State := match o with | some h => (h, s1) | none => (s1.draw.1.toNat % 2 ^ 32, s1.draw.2)
  d.2.raise 0x4805 (leBytes 2 l.slice ++ leBytes 4 d.1)

/-- An SRAM error of a slice in one 64-bit word of a line (R308): a corrected one is counted; an uncorrectable one discards bytes that are
not dirty, to be fetched again, and loses dirty ones. -/
def State.sliceErr (s : State) (e : SliceErr) : State :=
  match s.line e.line with
  | none => s
  | some l =>
    if !e.uncorrectable then s.bump (offMcSlice l.slice 0x08) 1
    else
      let s1 := s.bump (offMcSlice l.slice 0x10) 1
      let w := lineMask (8 * (e.word % 16)) 8
      if l.dirty &&& w = 0 then s1.modLines fun t => upd t e.line fun l => { l with valid := l.valid &&& ~~~w }
      else s1.dirtyLost e.line l

/-- A read that waited at its slice, once the die serves: a hit goes to its reader, a miss sends its HBM read (R474, R477). -/
def State.releaseRead (s : State) (i : Nat) (m : Miss) : State :=
  match m.held with
  | none => s
  | some (policy, o, n) =>
    let r := { s with cache := { s.cache with misses := del s.cache.misses i } }.readServed m.part policy m.ctx m.line o n m.reader
    match r.2 with
    | none => r.1.serve i { m with held := none } false
    | some k => match look r.1.cache.misses k with
      | some w => { r.1 with cache := { r.1.cache with misses := put (del r.1.cache.misses k) i w } }
      | none => r.1

/-- The reads that wait at the slices of a die go on, in the order in which they came. -/
def State.releaseReads (s : State) (d : Nat) : State :=
  s.cache.misses.foldl (fun (t : State) e =>
    if e.2.held.isSome && (s.placeOf e.2.part e.2.line).1 / 32 == d && t.dieServes d then t.releaseRead e.1 e.2 else t) s

/-- LINE_FILL (R296, R307, R308): the HBM read of a miss returns, with what the check code reports of its two halves and what the slice's
SRAM reports as the line is merged. A controller or slice whose die does not serve returns nothing (R474, R477). -/
def execLineFill (miss : Nat) (lo hi : EccErr) (slice : Option SliceErr) (s : State) : Res :=
  .next (s.guarded (match look s.cache.misses miss with
  | none => s
  | some m =>
    let u := stackOf (m.line * 128)
    if m.held.isSome || !(s.dieServes (u / 2)) || !(s.dieServes ((s.placeOf m.part m.line).1 / 32)) then s
    else
    let s0 := { s with cache := { s.cache with misses := del s.cache.misses miss } }
    let s1 := match slice with | some e => s0.sliceErr e | none => s0
    let s2 := ((s1.hbmBytesMoved u 128 0).eccHalf (2 * m.line) lo).eccHalf (2 * m.line + 1) hi
    if s2.badLine m.line then
      ((s2.countUe u).unplace m.line).serve miss m true
    else (s2.fillLine m).serve miss m false))

/-! ### Copies on first touch (R445) -/

/-- Whether the version page that a page waits for has come free meanwhile (R445). -/
def State.roomCame (s : State) (p : Prot) (page : Nat) : Bool :=
  let n := match s.protPage p true true page with | some (_, size) => pageBytes size | none => 0
  decide (versionPages { p with settled := p.settled.map (addVersion page s.surv.nextVersion (cellGets s.mem page n)) } ≤ s.versionRoom p)

/-- COW_PAGE_WAIT_EXPIRY (R445): the page that has waited 1 ms costs the settled seal its local versions; where a page has come free in
the meantime the write waits no longer. -/
def execCowPageWaitExpiry (job page : Nat) (s : State) : Res :=
  .next (match look s.surv.prots job with
  | none => s
  | some p =>
    match p.settled with
    | some x =>
      if page ∈ p.cowWaits then
        if s.roomCame p page then s.setProt job { p with cowWaits := p.cowWaits.filter fun g => g != page }
        else (s.setProt job { p with cowWaits := [], settled := some { x with versions := [], intact := false } }).raise 0x7814
          (leBytes 2 p.job ++ leBytes 4 x.generation)
      else s
    | none => s)

/-! ### Scrub and row remaps (R309) -/

/-- The key of a row by controller, slot and row (R305). -/
def rowOf (u slot row : Nat) : Nat := (u * 32 + slot) * 2 ^ 24 + row

/-- The half of a row's address in the device-local space: a row is 8 lines of its pseudo-channel, each 4 KiB of stack addresses apart
(R304, R305). -/
def rowHalf (u slot row h : Nat) : Nat :=
  let g := 8 * row + h / 2
  ((g * 32 + (u ^^^ (g % 32))) * 4096 + slot * 128) / 64 + h % 2

/-- A finding of a scrub pass: corrected errors counted by row, which reaches its threshold, and the line written back; an uncorrectable
half stays so until it is written, and is recorded as HBM_UE (R307, R309). -/
def State.scrubFinding (s : State) (u thresh : Nat) (f : ScrubFinding) : State :=
  let k := rowOf u f.slot f.row
  let s2 := ((s.rowErrors k thresh f.corrected).bump (offHc u 0x18) f.corrected).hbmBytesMoved u 0 (128 * f.corrected)
  match f.uncorrectable with
  | some h =>
    let a := rowHalf u f.slot f.row h
    ((if a * 64 < hbmBytes then s2.markBad a else s2).countUe u).raise 0x4804 (leBytes 1 u ++ leBytes 1 f.slot ++ leBytes 4 f.row)
  | none => s2

/-- Bytes that a pass reads: every exposed line of the stack, and the spare rows in use (R305, R309). -/
def State.scrubBytes (s : State) (u : Nat) : Nat :=
  48_000_000_000 + 1024 * ((List.range 32).map fun k => lookD s.hbm.spareUsed (u * 32 + k) 0).sum + 1_500_000_000 *
    (s.hbm.evac.filter fun e => e.1 / 32 == u).length

/-- SCRUB_PASS (R309, R317): a pass of a controller with what it finds; its staged fields take effect at its start. -/
def execScrubPass (unit : Nat) (findings : List ScrubFinding) (s : State) : Res :=
  let s1 := s.adopt (offHc unit 0) 0 12
  let thresh := s1.rowThresh unit
  let s2 := { s1 with hbm := { s1.hbm with rowErr := s1.hbm.rowErr.filter fun e => e.1 / 2 ^ 24 / 32 != unit } }
  .next (if unit < 32 && s.alive && s.dieServes (unit / 2) then (findings.foldl (fun t f => t.scrubFinding unit thresh f) s2).bump (offHc unit 0x30) 1
    |>.hbmBytesMoved unit (s2.scrubBytes unit) 0 else s)

/-- Spare rows of 1 KiB in a pseudo-channel (R305). -/
def spareRows : Nat := 10364

/-- ROW_REMAP_DONE (R306, R309): the row's copy ends; a spare row serves it from now on, or, with none left, the stack's soft repair, and in
the SERVICE life-cycle state its hard repair. -/
def execRowRemapDone (unit slot row : Nat) (s : State) : Res :=
  let k := rowOf unit slot row
  let used := lookD s.hbm.spareUsed (unit * 32 + slot) 0
  .next (if k ∈ s.hbm.remapping then
    let h := { s.hbm with remapping := drop1 s.hbm.remapping k }
    if used < spareRows then
      ({ s.hbmBytesMoved unit 1024 1024 with hbm := { h with rowMap := put h.rowMap k used, spareUsed := put h.spareUsed (unit * 32 + slot) (used + 1) } }).raise
        0x4801 (leBytes 1 unit ++ leBytes 1 slot ++ leBytes 4 row)
    else { s with hbm := if s.sec.lc = .service then { h with hardRep := addNew h.hardRep k } else { h with softRep := addNew h.softRep k } }
  else s)

/-! ### Evacuation (R310) -/

/-- The stored state of a slot: 3 once its pseudo-channel is retired (R316). -/
def State.slotRetired (s : State) (u k : Nat) : Bool := fld (s.reg (offHc u 0x10)) (2 * k) 2 == 3

/-- Slots of a controller in or bound for the evacuation areas. -/
def State.slotsOut (s : State) (u : Nat) : Nat :=
  (s.hbm.evac.filter fun e => e.1 / 32 == u).length + ((List.range 32).filter fun k => s.slotRetired u k).length

/-- The evacuation of a slot changed. -/
def State.setEvac (s : State) (u k : Nat) (e : EvacStep) : State :=
  { s with hbm := { s.hbm with evac := put s.hbm.evac (u * 32 + k) e } }

/-- EVAC_GO (R310): a slot starts to move away; a third is refused. A slot already moving or retired is left as it is. -/
def execEvacGo (unit slot : Nat) (s : State) : Res :=
  .next (if 32 ≤ unit || 32 ≤ slot || !s.alive || (look s.hbm.evac (unit * 32 + slot)).isSome || s.slotRetired unit slot then s
  else if 2 ≤ s.slotsOut unit then s.raise 0x4803 (leBytes 1 unit ++ leBytes 1 slot ++ leBytes 1 1)
  else (((s.adopt (offHc unit 0) 12 2).setEvac unit slot .copying).bump (offHc unit 0x48) 1).raise 0x4802
    (leBytes 1 unit ++ leBytes 1 slot))

/-- Bytes that a slot exposes (R305). -/
def pcSlotBytes : Nat := 1_500_000_000

/-- EVAC_COPY_DONE (R310 steps 2 and 3): the slot is served from the evacuation areas, and its pseudo-channel retrains. -/
def execEvacCopyDone (unit slot : Nat) (s : State) : Res :=
  .next (if look s.hbm.evac (unit * 32 + slot) = some .copying then
    (s.setEvac unit slot .retraining).hbmBytesMoved unit pcSlotBytes pcSlotBytes else s)

/-- PC_RETRAIN_DONE (R310 step 4): the data are copied back, or the pseudo-channel is retired. -/
def execPcRetrainDone (unit slot : Nat) (ok : Bool) (s : State) : Res :=
  .next (if look s.hbm.evac (unit * 32 + slot) = some .retraining then
    if ok then s.setEvac unit slot .copyingBack
    else (({ s with hbm := { s.hbm with evac := del s.hbm.evac (unit * 32 + slot) } }).setField (offHc unit 0x10) (2 * slot) 2 3).raise
      0x4803 (leBytes 1 unit ++ leBytes 1 slot ++ leBytes 1 0)
  else s)

/-- EVAC_COPY_BACK_DONE (R310 steps 5 and 6): the slot is served from its pseudo-channel again. -/
def execEvacCopyBackDone (unit slot : Nat) (s : State) : Res :=
  .next (if look s.hbm.evac (unit * 32 + slot) = some .copyingBack then
    { s with hbm := { s.hbm with evac := del s.hbm.evac (unit * 32 + slot) } }.hbmBytesMoved unit pcSlotBytes pcSlotBytes
  else s)

/-! ### Wipes (R311) -/

/-- First byte of a core's memory in the device-local space (R387). -/
def coreMem (c : Nat) : Nat := 0x1000_0000_0000 + c * 0x80_0000

/-- A core's local store and frame area set to zero, and its private cache emptied (R311). -/
def State.wipeCore (s : State) (c : Nat) : State := ({ s with mem := cellWipe s.mem (coreMem c) 0x80_0000 }).setPriv c []

/-- The pages of a freed object set to zero, and the object gone (R311, R352). -/
def State.wipeObject (s : State) (i : Nat) : State :=
  match look s.objs.mems i with
  | none => s
  | some o =>
    let s1 := o.pages.foldl (fun (t : State) a =>
      (({ t with mem := cellWipe t.mem a (pageBytes o.pageSize) }).mendHalves a (pageBytes o.pageSize)).pageMoved a o.pageSize true) s
    { s1 with objs := { s1.objs with mems := del s1.objs.mems i } }

/-- WIPE_COMPLETE (R311): the wipe of a freed object's pages, or of a core, ends. -/
def execWipeComplete (wipe : Nat) (s : State) : Res :=
  .next (match look s.hbm.wipes wipe with
  | none => s
  | some w =>
    let s1 := { s with hbm := { s.hbm with wipes := del s.hbm.wipes wipe } }
    match w with
    | .pages i => s1.wipeObject i
    | .core c => (s1.wipeCore c).modCore c fun k => { k with lsHeld := (s.coreSeq c).map fun q => q.2.ctx })

end Sys2Proof.Machine
end

