-- ==== Sys2Proof/Machine/Survival.lean ====
section
/-! DEFINITION. Survival (R420-R457) and the vote outcome (R258, R261): the steps of an outcome, the close of a step and of a seal,
mirroring, pairing, protection, restores. -/

namespace Sys2Proof.Machine

open Sys2Proof

/-- The serving context of a job: the earliest-joined context that is live; where none is, one in teardown serves until its job entry is
removed at step 4 of R374 (R390, R413). -/
def State.serving (s : State) (entry : Nat) : Option Nat :=
  match look s.objs.jobs entry with
  | some j => match j.members.find? fun x => s.live x with
    | some x => some x
    | none => j.members.find? fun x => (s.ctx x).isSome
  | none => none

/-- The protection of a job-table entry, where it is on. -/
def State.prot (s : State) (e : Nat) : Option Prot :=
  match look s.surv.prots e with
  | some p => if p.state = .off then none else some p
  | none => none

/-- The survival state changed. -/
def State.modSurv (s : State) (f : Surv → Surv) : State := { s with surv := f s.surv }

/-- A protection changed, where there is one. -/
def State.modProt (s : State) (e : Nat) (f : Prot → Prot) : State := s.modSurv fun v => { v with prots := upd v.prots e f }

/-! ### The steps of an outcome (R258, R261) -/

/-- The UPDATEs bound to a vote instance that wait for it. -/
def State.boundTo (s : State) (inst : Nat) : List (Nat × Upd) :=
  s.uu.updates.filter fun e => e.2.inst == inst && e.2.outcome.isNone && !e.2.lost

/-- The counters and the record after an outcome (R258 steps 1 to 3); the flag is cleared (R257). -/
def Job.voted (j : Job) (pass : Bool) : Job :=
  let g := (j.attempt + 1) % 2 ^ 64
  let t := if pass then (j.step + 1) % 2 ^ 64 else j.step
  { j with attempt := g, step := t, vote := some ⟨pass, g, t⟩, nonfinite := false, lastLost := false }

/-- The instance of a vote ends on this member, its participants done. -/
def State.closeVote (s : State) (inst : Nat) : State :=
  match look s.fab.colls inst with
  | some k => { s.leaveColl k with fab := { (s.leaveColl k).fab with colls := del s.fab.colls inst } }
  | none => s

/-- Steps 1 to 4 of R258 with R261: counters, record, the bound UPDATEs released or skipped; `held` keeps the released ones for
the marker of R433. -/
def State.voteSteps (s : State) (inst entry : Nat) (pass held : Bool) : State :=
  let s1 := { s with objs := { s.objs with jobs := upd s.objs.jobs entry fun j => j.voted pass } }
  match look s1.objs.jobs entry with
  | none => s.closeVote inst
  | some j =>
    let rec_ : VoteRec := ⟨pass, j.attempt, j.step⟩
    let bound := s1.boundTo inst
    let ups := s1.uu.updates.map fun (e : Nat × Upd) =>
      if e.2.inst == inst && e.2.outcome.isNone && !e.2.lost then (e.1, { e.2 with outcome := some rec_, held := held && pass }) else e
    let s2 := { s1 with uu := { s1.uu with votes := put s1.uu.votes inst (some rec_), updates := ups } }
    let s3 := if pass then (if bound.isEmpty then s2 else s2.modProt entry fun p => { p with stepOpen := true })
      else ((bound.foldl (fun (t : State) (e : Nat × Upd) => t.lowerGrad e.2) s2).bump (offUuJob entry 0x18) 1).raise 0x5801
        (leBytes 2 j.id ++ leBytes 8 j.step ++ leBytes 8 j.attempt)
    s3.closeVote inst

/-! ### Messages to the partner (log 30) -/

/-- Offsets in a mailbox of the flag word and the line of a message, of 4,096 in turn, and of the buffer of a table entry (log 30). -/
def mailFlag (n : Nat) : Nat := 0x4_0000 + 8 * (n % 4096)

/-- The line of a message. -/
def mailLine (n : Nat) : Nat := 0x8_0000 + 128 * (n % 4096)

/-- The buffer of a job-table entry for its table's keys and its schedule record. -/
def mailBuffer (e : Nat) : Nat := 0x10_0000 + e % 8 * 0x2_0000

/-- Stores to the partner that it has not acknowledged: what a flag behind them counts (R394). -/
def State.storesOut (s : State) : Nat :=
  (s.fab.reqs.filter fun e => match e.2.kind with | .mirror _ _ => true | .twin _ fl => !fl | _ => false).length

/-- A message of a job to the partner: its line stored in the mailbox, then a flag behind every earlier store; nothing without a pair. -/
def State.tell (s : State) (e job : Nat) (k : ReqKind) (msg : List Byte) : State :=
  if s.surv.pair ≠ .paired then s
  else
    let n := s.surv.mails
    let s1 := (s.modSurv fun v => { v with mails := n + 1 }).send
      ⟨s.partnerNode, .twin e false, none, 0, none, job, s.partnerAddr (s.poolBase + mailLine n), (msg ++ List.replicate 128 0).take 128, 0,
        false, 0, none⟩
    s1.send ⟨s.partnerNode, k, none, 0, none, job, s.partnerAddr (s.poolBase + mailFlag n), [], s1.storesOut, false, 0, none⟩

/-- The kinds of message: a region reserved, a step's marker, a seal's marker, the end of a seal's stream, a seal settled, a seal voided,
the twin discarded, the live image to be the settled seal again. -/
inductive Mail where
  | reserve | step | close | record | settle | void | discard | rewind
  deriving DecidableEq, Repr

/-- The byte that names a kind. -/
def Mail.code : Mail → Nat
  | .reserve => 1
  | .step => 2
  | .close => 3
  | .record => 4
  | .settle => 5
  | .void => 6
  | .discard => 7
  | .rewind => 8

/-- A message: its kind, the job and its entry, a generation or first page, a step or a count of pages, and what the record of a seal
needs beside. -/
def mail (k : Mail) (e job a b : Nat) (rest : List Byte) : List Byte :=
  leBytes 1 k.code ++ leBytes 1 e ++ leBytes 2 job ++ leBytes 4 a ++ leBytes 8 b ++ rest

/-- A message whose flag no close waits for. -/
def State.note (s : State) (e job : Nat) (k : Mail) (a b : Nat) (rest : List Byte) : State :=
  s.tell e job (.twin e true) (mail k e job a b rest)

/-- Bytes stored in the partner's pool, line by line (R442). -/
def State.streamBytes (s : State) (e job a : Nat) (bytes : List Byte) : State :=
  (lineCuts (bytes.length / 128 + 2) a bytes).foldl (fun (t : State) c =>
    t.send ⟨t.partnerNode, .twin e false, none, 0, none, job, t.partnerAddr c.1, c.2, 0, false, 0, none⟩) s

/-! ### Seals at an outcome (R439) -/

/-- The open seal settles, here and on the partner (R439 step 2). -/
def State.settleSeal (s : State) (e : Nat) (p : Prot) (x : Seal) : State :=
  (((s.setProt e { p with settled := some x, openSeal := none, stage := .none, cowWaits := [], twinHas := true }).modSurv fun v =>
    { v with swapReady := v.swapReady || x.swap }).bump (offTf 0x8048) 1 |>.raise 0x7812
      (leBytes 2 p.job ++ leBytes 4 x.generation ++ leBytes 8 x.sched.step)).note e p.job .settle x.generation 0 []

/-- A seal that begins: its generation, what it will hold once the close has frozen the pages. -/
def State.newSeal (s : State) (p : Prot) : Seal :=
  ⟨p.lastGen + 1, p.sealReq, ⟨p.lastGen + 1, 0, 0, 0, [], []⟩, [], true, s.surv.swapPending, 0, [], []⟩

/-- R439 applied to an outcome: the state, and whether a seal begins at this close. -/
def State.sealRules (s : State) (e : Nat) (p : Prot) (pass req op void : Bool) : State × Bool :=
  let s1 : State := if void then (s.setProt e { p with openSeal := none, stage := .none, sealVoid := false }).note e p.job .void 0 0 []
    else match p.openSeal with
      | some x => if op then s else s.settleSeal e p x
      | none => s
  let p1 := lookD s1.surv.prots e p
  if pass && req && p1.openSeal.isNone then
    let x := s1.newSeal p1
    ((s1.setProt e { p1 with openSeal := some x, stage := .closing, lastGen := x.generation, sealReq := false }).modSurv fun v =>
      { v with swapPending := false, swapReady := false }, true)
  else (s1, false)

/-! ### Mirroring (R429, R430) -/

/-- The journal drain: marked lines that are not outstanding sent in order while their controllers have fewer than 64 mirror stores
outstanding; their bits stay set until the partner acknowledges them (R430). -/
def State.drain (s : State) (e : Nat) : State :=
  match s.prot e with
  | none => s
  | some p =>
    if s.mirroring p then
      p.journal.foldl (fun t ln =>
        let q := lookD t.surv.prots e p
        if (q.mirrors.any fun m => m.1 == ln) || decide (64 ≤ t.mirrorsOut (stackOf (ln * 128))) then t
        else (t.sendMirror e ln q).bump (offTf 0x8038) 1) s
    else s

/-- Every line of the MIRROR pages of a job. -/
def State.mirrorLines (s : State) (p : Prot) : List Nat :=
  (s.classPages p 0).flatMap fun g => (List.range (pageBytes g.2 / 128)).map fun i => g.1 / 128 + i

/-- The baseline of R428: every journal bit set, the drain started; the partner holds no seal of the job yet. -/
def State.baseline (s : State) (e : Nat) : State :=
  match s.prot e with
  | none => s
  | some p => ((s.mirrorLines p).foldl (fun (t : State) ln => t.markLine e ln)
      (s.setProt e { p with state := .baselining, twinHas := false })).drain e

/-- Nothing of a job's mirror waits: the journal is empty and every store is acknowledged. -/
def Prot.drained (p : Prot) : Bool := p.journal.isEmpty && p.mirrors.isEmpty

/-- A baseline that has drained: the job is protected, and its seal is requested (R428, R438). -/
def State.baselineDone (s : State) (e : Nat) : State :=
  s.modProt e fun p => if p.state = .baselining ∧ p.drained then { p with state := .guarded, sealReq := true } else p

/-! ### Closes (R432, R433, R440) -/

/-- UPDATEs of a job that its last passed vote released and that have not completed. -/
def State.updatesOpen (s : State) (e : Nat) : Bool :=
  s.uu.updates.any fun u => u.2.outcome.isSome && match s.ctx u.2.ctx with | some k => k.job == some e | none => false

/-- A step's marker, with the job and the step of its vote record (R432), or the marker of a seal close (R440 step 4). -/
def State.sendMarker (s : State) (e : Nat) (p : Prot) (close : Bool) (t : Nat) : State :=
  let gen := match p.openSeal with | some x => x.generation | none => p.lastGen
  s.tell e p.job (.marker e close) (mail (if close then .close else .step) e p.job (if close then gen else 0) t [])

/-- The pages that a job's MIRROR and USERS entries protect. -/
def State.sealPages (s : State) (p : Prot) : List Nat :=
  p.entries.flatMap fun t => if t.cls ≤ 1 then (s.entryPages t).map (·.1) else []

/-- The schedule record of a job (R444): counters, key, and the listed fences and queues in table order; of one that is gone the entry
is zero. -/
def State.schedule (s : State) (p : Prot) (j : Job) (gen : Nat) : Sched :=
  { generation := gen, step := j.step, attempt := j.attempt, key := j.key,
    fences := (p.entries.filter fun t => t.cls == 2).map fun t =>
      match s.fence t.id with | some f => (t.id, f.value, f.err) | none => (t.id, 0, 0),
    queues := (p.entries.filter fun t => t.cls == 3).map fun t =>
      let k := ((s.ctxPort t.ctx).getD 0) * 8192 + t.id
      match look s.objs.queues k with | some q => (k, q.consumed, q.dropped, q.depth) | none => (k, 0, 0, 0) }

/-- The bytes of a schedule record (R444). -/
def Sched.bytes (x : Sched) (job : Nat) : List Byte :=
  leBytes 4 x.generation ++ leBytes 2 job ++ leBytes 2 x.fences.length ++ leBytes 8 x.step ++ leBytes 8 x.attempt ++ leBytes 8 x.key.toNat ++
    leBytes 2 x.queues.length ++ leBytes 30 0 ++
    (x.fences.flatMap fun f => leBytes 8 f.2.1.toNat ++ leBytes 2 f.2.2 ++ leBytes 6 0) ++
    x.queues.flatMap fun q => leBytes 8 q.2.1 ++ leBytes 4 q.2.2.1 ++ leBytes 2 q.2.2.2 ++ leBytes 2 0

/-- The layout key of a protection table entry (R443); an entry without pages has page size and count 0. -/
def State.layoutKey (s : State) (t : ProtEnt) : List Byte :=
  let g := if t.cls ≤ 1 then s.entryPages t else []
  leBytes 1 t.cls ++ leBytes 1 (match g with | x :: _ => x.2 | [] => 0) ++ leBytes 2 0 ++ leBytes 4 g.length

/-- SHA-384 over the layout keys of a job's protection table (R443). -/
def State.tableDigest (s : State) (p : Prot) : List Byte := sha384 (p.entries.flatMap s.layoutKey)

/-- The page digest list of a seal, in protection-table order: each page as the seal froze it (R441, R443). -/
def State.pageDigests (s : State) (p : Prot) (x : Seal) : List (List Byte) :=
  p.entries.flatMap fun t => if t.cls ≤ 1 then (s.entryPages t).map fun g =>
    sha384 (match look x.versions g.1 with | some v => v.2 | none => cellGets s.mem g.1 (pageBytes g.2)) else []

/-- The seal record (R443). -/
def State.sealRecord (s : State) (p : Prot) (x : Seal) (digests : List (List Byte)) : List Byte :=
  let sched := x.sched.bytes p.job
  let body := leBytes 4 0x4C41_4553 ++ leBytes 2 1 ++ leBytes 2 (b2n s.surv.weak + 2 * b2n x.baseline) ++ leBytes 4 x.generation ++
    leBytes 2 p.job ++ leBytes 2 0 ++ leBytes 2 s.node ++ leBytes 2 (s.pins.strapTray * 8 + s.surv.partner) ++ leBytes 1 s.pins.strapFeed ++
    leBytes 1 s.surv.partnerFeed ++ leBytes 2 0 ++ leBytes 8 x.sched.step ++ leBytes 8 x.sched.attempt ++ leBytes 4 x.hours ++
    leBytes 4 s.recd.powerCycles ++ leBytes 4 p.entries.length ++ leBytes 4 digests.length ++ leBytes 4 sched.length ++ leBytes 4 0 ++
    s.tableDigest p ++ sha384 digests.flatten ++ sha384 sched
  body ++ sha384 body

/-- What is wrong with the seal record of a restore's source (R451 steps 2 to 4): there is none, its digest does not match, or the layout
keys of this device's table do not give its table digest. -/
def State.recordFault (s : State) (p : Prot) (r : List Byte) : Option Nat :=
  if r.isEmpty then some 0x7026
  else if sha384 (r.take 0xD0) ≠ sliceBytes r 0xD0 48 then some 0x7027
  else if s.tableDigest p ≠ sliceBytes r 0x40 48 then some 0x7024
  else none

/-- Step 3 of a seal close: dirty lines of protected pages written back, and kept clean (R440). -/
def State.sealWriteback (s : State) (p : Prot) : State :=
  let mine := s.cache.lines.filter fun l => l.2.dirty != 0 && (s.protPage p true true (l.1 * 128)).isSome
  mine.foldl (fun t l => (t.writeBack l.1 l.2).modLines fun tab => upd tab l.1 fun k => { k with dirty := 0 }) s

/-- Writes to protected pages are held from here on: the dirty lines are in HBM (R440 step 3). -/
def State.holdWrites (s : State) (e : Nat) (c : Close) : State :=
  s.modProt e fun p => { p with closing := some { c with phase := .writeback } }

/-- Whether a USERS page has changed since the freeze of the seal that the partner holds; every page has where it holds none (R442). -/
def Prot.changed (p : Prot) (page : Nat) : Bool :=
  match p.settled with
  | some x => !p.twinHas || !x.intact || (look x.versions page).isSome
  | none => true

/-- The stream of a seal (R442): every changed USERS page to its place behind the live image, the schedule record last, and what the
partner needs beside for the seal record. -/
def State.streamSeal (s : State) (e : Nat) (p : Prot) (x : Seal) : State :=
  let users := s.classPages p 1
  let sched := x.sched.bytes p.job
  let s1 := users.foldl (fun (t : State) g =>
    if p.changed g.1 then
      t.streamBytes e p.job (t.regionBase p + t.protPages p 0 * 0x20_0000 + placeIn users g.1) (cellGets t.mem g.1 (pageBytes g.2))
    else t) s
  (s1.streamBytes e p.job (s1.poolBase + mailBuffer e) sched).note e p.job .record x.generation
    (x.hours % 2 ^ 32 + s.recd.powerCycles % 2 ^ 32 * 2 ^ 32)
    (leBytes 4 sched.length ++ leBytes 1 (b2n s.surv.weak + 2 * b2n x.baseline) ++ leBytes 1 s.pins.strapFeed)

/-- A close that waits for nothing any longer at its step: the step marker is sent, and the outcome's steps follow, or in a seal close the
dirty lines of protected pages are written back and writes held (R432, R440 step 3). Without a mirror there is no marker. -/
def State.stepClosed (s : State) (e : Nat) (p : Prot) (c : Close) : State :=
  let j := lookD s.objs.jobs e noJob
  let held := s.mirroring p && p.stepOpen
  let s1 := if held then s.sendMarker e p false j.step else s
  let p1 : Prot := { p with stepOpen := false, closing := none, markerSent := held, share := fld (s.written (offTf 0x8028)) 0 2 }
  if c.begins then ((s1.setProt e { p1 with closing := some c }).sealWriteback p1).holdWrites e c
  else (s1.setProt e p1).voteSteps c.inst e c.pass held

/-- The UPDATEs of a job are held for a marker no longer (R433). -/
def State.releaseHeld (s : State) (e : Nat) : State :=
  let ups := s.uu.updates.map fun (u : Nat × Upd) =>
    match s.ctx u.2.ctx with
    | some k => if k.job = some e then (u.1, { u.2 with held := false }) else u
    | none => u
  let s1 := { s with uu := { s.uu with updates := ups } }
  s1.modProt e fun p => { p with markerSent := false }

/-- VOTE_OUTCOME (R258, R261, R439, R432): every member's flag has arrived. The seal rules are applied; an open step is closed, or a
seal closes, before the counters move. -/
def execVoteOutcome (inst : Nat) (s : State) : Res :=
  .next (match look s.fab.colls inst with
  | none => s
  | some k =>
    if k.kind = 3 ∧ k.full then
      let ps := k.inOrder
      let pass := !(ps.any fun (m : CollMsg) => m.nonfinite)
      let s0 := s.adopt (offDk 0x810) 0 64
      match s.prot k.entry with
      | none => s0.voteSteps inst k.entry pass false
      | some p =>
        if p.closing.isSome then s
        else
          let r := s0.sealRules k.entry p pass (ps.any fun (m : CollMsg) => m.sealReq) (ps.any fun (m : CollMsg) => m.sealOpen)
            (ps.any fun (m : CollMsg) => m.sealVoid)
          let p1 := lookD r.1.surv.prots k.entry p
          if p1.stepOpen || r.2 then r.1.setProt k.entry { p1 with closing := some ⟨inst, pass, r.2, .step⟩ }
          else r.1.voteSteps inst k.entry pass false
    else s)

/-- STEP_CLOSE_READY (R432): the open step's UPDATEs have completed, the journal is empty and every mirror store is acknowledged;
while the job is not mirrored the journal is not waited for. -/
def execStepCloseReady (entry : Nat) (s : State) : Res :=
  .next (match s.prot entry with
  | none => s
  | some p =>
    match p.closing with
    | some c =>
      if c.phase == .step && !(s.updatesOpen entry) && (p.drained || !s.mirroring p) then s.guarded (s.stepClosed entry p c) else s
    | none => s)

/-- Steps 5 and 6 of a seal close: the pages are frozen and the schedule record is built; the stream of the seal starts, the writes held
are released, and the steps of R258 follow (R440, R442, R444). -/
def State.sealClosed (s : State) (e : Nat) (p : Prot) (c : Close) : State :=
  let x := p.openSeal.map fun (x : Seal) =>
    { x with sched := s.schedule p (lookD s.objs.jobs e noJob) x.generation, hours := s.recd.opMinutes / 60 }
  let live := s.mirroring p
  let s1 := s.setProt e { p with closing := none, stage := if x.isSome && live then .streaming else .none, openSeal := x,
                                 frozen := s.sealPages p }
  let s2 := match x with | some x => if live then s1.streamSeal e p x else s1 | none => s1
  s2.releaseWrites.voteSteps c.inst e c.pass p.markerSent

/-- SEAL_WRITEBACK_DONE (R440 steps 3 and 4): the dirty protected lines are in HBM and mirrored. Once the journal is empty the seal's
marker is sent; without a mirror the close ends. -/
def execSealWritebackDone (entry : Nat) (s : State) : Res :=
  .next (match s.prot entry with
  | none => s
  | some p =>
    match p.closing with
    | some c =>
      if c.phase = .writeback then
        if s.mirroring p && !p.journal.isEmpty then s
        else if s.mirroring p then
          (s.setProt entry { p with closing := some { c with phase := .marker } }).sendMarker entry p true (lookD s.objs.jobs entry noJob).step
        else s.sealClosed entry p c
      else s
    | none => s)

/-- The request that carries a marker ends with its acknowledgement. -/
def State.dropMarker (s : State) (e : Nat) (close : Bool) : State :=
  match s.fab.reqs.find? fun r => r.2.kind == ReqKind.marker e close with
  | some r => s.dropReq r.1
  | none => s

/-- MARKER_ACK (R433, R440): the partner has acknowledged the marker of a step close, the first to be sent, which releases its UPDATEs, or
that of a seal close, which goes on to its end. -/
def execMarkerAck (entry : Nat) (s : State) : Res :=
  .next (match s.prot entry with
  | none => s
  | some p =>
    if p.markerSent then (s.dropMarker entry false).releaseHeld entry
    else match p.closing with
    | some c => if c.phase == .marker then (s.dropMarker entry true).sealClosed entry p c else s
    | none => s)

/-- MIRROR_STORE_ACK (R430): the partner acknowledges a mirror store, which clears the line's bit, unless the line has been written again
since its send; the drain goes on. -/
def execMirrorStoreAck (entry line : Nat) (s : State) : Res :=
  .next (match s.prot entry with
  | none => s
  | some p =>
    match p.mirrors.find? fun m => m.1 == line with
    | none => s
    | some m =>
      let p1 := { p with mirrors := p.mirrors.filter fun m => m.1 != line,
                         journal := if m.2 then p.journal else drop1 p.journal line }
      let id := (s.fab.reqs.find? fun r => r.2.kind == ReqKind.mirror entry line).map (·.1)
      let s1 := s.setProt entry p1
      let s2 := match id with | some i => s1.dropReq i | none => s1
      (s2.drain entry).baselineDone entry)

/-- SEAL_STREAM_ACK (R442, R443): the partner has computed the page digests and written the seal record; the seal is complete. -/
def execSealStreamAck (entry : Nat) (s : State) : Res :=
  .next (match s.prot entry with
  | none => s
  | some p =>
    if p.stage = .streaming ∧ s.surv.pair = .paired then
      (s.dropReqs fun r => match r.kind with | .twin e _ => e == entry | _ => false).setProt entry { p with
        stage := .complete
        openSeal := p.openSeal.map fun (x : Seal) => { x with digests := s.pageDigests p x, record := s.sealRecord p x (s.pageDigests p x) } }
    else s)

/-! ### Lapse (R448, R453, R457) -/

/-- The RESTORE_FAILED of a restore that stops, with its code (R452, R453). -/
def State.restoreStops (s : State) (e : Nat) (p : Prot) (code : Nat) : State :=
  (s.setProt e { p with state := .awaitingRestore, lastCode := code, stopped := true }).raise 0x7818 (leBytes 2 p.job ++ leBytes 2 code)

/-- Whether a request carries something of a job to the partner. -/
def ReqKind.ofJob (k : ReqKind) (e : Nat) : Bool :=
  match k with
  | .mirror x _ => x == e
  | .twin x _ => x == e
  | .marker x _ => x == e
  | _ => false

/-- A job whose pair has ended: mirroring and a seal's stream stop and the unacknowledged lines are marked, holds end, the job shows as
lapsed, and no seal settles before a restore. A close no longer waits for the partner. A restore from the partner stops (R433, R448, R453,
R457). -/
def State.lapse (s : State) (e : Nat) (p : Prot) : State :=
  let s0 := p.mirrors.foldl (fun (t : State) m => t.markLine e m.1) (s.dropReqs fun r => r.kind.ofJob e)
  let p1 : Prot := { lookD s0.surv.prots e p with mirrors := [], twinHas := false }
  match p.state with
  | .restoring => if p.fromPartner then s0.restoreStops e p1 0x7029 else s0.setProt e p1
  | .awaitingRestore => s0.setProt e p1
  | .off => s
  | _ =>
    let s1 := ((s0.setProt e { p1 with state := .lapsed, needsRestore := true, stage := if p.stage = .streaming then .none else p.stage }).releaseHeld
      e).raise 0x7815 (leBytes 2 p.job)
    match p1.closing with
    | some c => if c.phase = .marker then s1.sealClosed e (lookD s1.surv.prots e p1) c else s1
    | none => s1

/-- Every protected job lapses. -/
def State.lapseAll (s : State) : State := s.surv.prots.foldl (fun t e => t.lapse e.1 (lookD t.surv.prots e.1 e.2)) s

/-- The class and page size of each MIRROR and USERS page of a twin's table, in table order, as the layout keys give them (R443). -/
def Twin.table (w : Twin) : List (Nat × Nat) :=
  (List.range (w.keys.length / 8)).flatMap fun i =>
    if leAt w.keys (8 * i) 1 ≤ 1 then List.replicate (leAt w.keys (8 * i + 4) 4) (leAt w.keys (8 * i) 1, leAt w.keys (8 * i + 1) 1) else []

/-- The pages of a twin region in table order: first byte, size, class. MIRROR pages lie from its start, USERS pages behind them from a
whole pool page on (log 30). -/
def Twin.places (w : Twin) : List (Nat × Nat × Nat) :=
  let users := w.base + (((w.table.filter fun k => k.1 == 0).map fun k => pageBytes k.2).sum + 0x1F_FFFF) / 0x20_0000 * 0x20_0000
  (w.table.foldl (fun (r : List (Nat × Nat × Nat) × Nat × Nat) k =>
    let n := pageBytes k.2
    if k.1 = 0 then (r.1 ++ [(r.2.1, n, 0)], r.2.1 + n, r.2.2) else (r.1 ++ [(r.2.2, n, 1)], r.2.1, r.2.2 + n)) ([], w.base, users)).1

/-- The contents of a twin's pages as a seal froze them: the version of a page that has changed since, else the live image (R441). -/
def State.twinPages (s : State) (w : Twin) (x : TwinSeal) : List (List Byte) :=
  w.places.zipIdx.map fun g => match look x.versions g.2 with | some b => b | none => s.see g.1.1 g.1.2.1

/-- 2 MiB pages that the pages of a twin fill. -/
def Twin.size (w : Twin) : Nat := ((w.places.map fun g => g.2.1).sum + 0x1F_FFFF) / 0x20_0000

/-- A twin whose live image goes: the settled seal keeps every page, and the region no more than those (R449). -/
def State.keepSealed (s : State) (w : Twin) : Twin :=
  { w with
    settled := w.settled.map fun x => { x with versions := (s.twinPages w x).zipIdx.map fun g => (g.2, g.1) }
    openSeal := none
    frozen := []
    step := none
    reserved := if w.settled.isSome then min w.reserved w.size else 0 }

/-- The loss of the partner (R448, R449): the twin regions held for it are promoted, what only the live image and the open seal used is
freed, and the protected jobs lapse. -/
def State.partnerLost (s : State) (slot : Nat) : State :=
  if s.surv.pair = .paired ∧ s.surv.partner = slot then
    let mine := s.surv.twins.filter fun t => t.slot == slot && !t.promoted
    let twins := s.surv.twins.map fun (t : Twin) => if t.slot = slot && !t.promoted then { s.keepSealed t with promoted := true } else t
    let freed := (mine.map fun t => t.reserved - (s.keepSealed t).reserved).sum
    let s1 := s.modSurv fun v => { v with pair := .partnerLost, twins := twins, poolFree := v.poolFree + freed }
    (mine.foldl (fun t w => t.raise 0x7816 (leBytes 1 w.slot ++ leBytes 2 w.job)) s1).lapseAll
  else s

/-! ### Pairing (R420-R424, R437) -/

/-- Pages of the survival pool. -/
def State.poolPages (s : State) : Nat := fld (s.reg (offTf 0x8018)) 0 20

/-- Whether the pool overlaps a range of a partition (R421, R422). -/
def State.poolOverlaps (s : State) : Bool :=
  s.objs.parts.any fun p => p.2.ranges.any fun r =>
    decide (r.1 < s.poolBase + s.poolPages * 0x20_0000) && decide (s.poolBase < r.1 + r.2)

/-- Pool pages that a job's protection reserves on this device (R437). -/
def State.localShare (s : State) (p : Prot) : Nat :=
  2 * s.protPages p 0 + 2 * s.protPages p 1 + (s.protPages p 0 + 1023) / 1024 + 1

/-- Pool pages that a job's protection reserves on the partner (R437). -/
def State.partnerShare (s : State) (p : Prot) : Nat := 3 * s.protPages p 0 + 2 * s.protPages p 1

/-- A pairing refused: both devices stay unpaired (R422). -/
def State.pairRefused (s : State) (code : Nat) : State :=
  let k := fld (s.reg (offTf 0x8000)) 0 3
  (s.modSurv fun v => { v with pair := .unpaired, requests := del v.requests k, lastCode := code }).raise 0x7810
    (leBytes 1 k ++ leBytes 2 code)

/-- The first page of the partner's pool, behind the mailbox, from which a number of pages lies beside the regions of other jobs
(log 30). -/
def State.firstFit (s : State) (e n : Nat) : Nat :=
  let used := s.surv.prots.filterMap fun q => if q.2.state = .off || q.1 == e then none else some (q.2.twinBase, s.partnerShare q.2)
  let ends := (used.map fun u => u.1 + u.2).filter fun a => used.all fun u => decide (a + n ≤ u.1) || decide (u.1 + u.2 ≤ a)
  if used.all fun u => decide (1 + n ≤ u.1) || decide (u.1 + u.2 ≤ 1) then 1 else ends.foldl min (ends.headD 1)

/-- The partner is asked for a job's pages of its pool, and gets the classes and page sizes of the table (R437, log 30). -/
def State.reserveTwin (s : State) (e : Nat) : State :=
  match s.prot e with
  | none => s
  | some p =>
    let n := s.partnerShare p
    let base := s.firstFit e n
    let keys := p.entries.flatMap s.layoutKey
    (((s.setProt e { p with twinBase := base }).streamBytes e p.job (s.poolBase + mailBuffer e) keys).note e p.job .reserve base n
      (leBytes 4 p.entries.length))

/-- Steps 3 and 4 of R422 with the partner's request; then the pair. The request says whether the partner's pool passes step 3 there: that
it overlaps no partition, and that its free pages hold the shares of this device's jobs (R437, log 16). -/
def State.tryPair (s : State) (r : PairReq) : State :=
  let ctl := s.reg (offTf 0x8000)
  let force := bit ctl 3 && r.force
  let shares := (s.surv.prots.map fun e => if e.2.state = .off then 0 else s.partnerShare e.2).sum
  if s.poolPages < 64 ∨ r.poolPages < 64 ∨ s.poolOverlaps ∨ !r.poolOk ∨ r.poolPages < shares + 1 then s.pairRefused 0x7022
  else if r.feed = s.pins.strapFeed ∧ !force then s.pairRefused 0x7020
  else
    let weak := r.feed == s.pins.strapFeed
    let s1 := s.modSurv fun v => { v with pair := .paired, weak := weak, partner := fld ctl 0 3, partnerFeed := r.feed,
                                          requests := del v.requests (r.node % 8) }
    let s2 := if weak then s1.raise 0x7811 (leBytes 1 (fld ctl 0 3) ++ leBytes 1 r.feed) else s1
    s2.surv.prots.foldl (fun t e =>
      match e.2.state with
      | .off => t
      | .restoring => t.reserveTwin e.1
      | .awaitingRestore => t.reserveTwin e.1
      | _ => (t.reserveTwin e.1).baseline e.1) s2

/-- PAIR_GO (R422): the request is stored in the other device's mailbox; with the other's request there, the pair is checked. -/
def execPairGo (s : State) : Res :=
  let k := fld (s.reg (offTf 0x8000)) 0 3
  .next (if s.surv.pair = .pairing ∨ s.surv.pair = .paired then s
  else if s.peerState k ≠ 1 then s.pairRefused 0x7021
  else
    let s1 := (s.modSurv fun v => { v with pair := .pairing, partner := k }).send
      ⟨s.pins.strapTray * 8 + k, .store, none, 0, none, 0, 0, leBytes 1 (b2n (s.ident.grade == .tray)) ++ leBytes 2 s.node ++
        leBytes 1 s.pins.strapFeed ++ leBytes 4 s.poolPages, 0, false, 0, none⟩
    match look s1.surv.requests k with
    | some r => if r.names = s.pins.strapSlot then s1.tryPair r else s1
    | none => s1)

/-- PAIR_REQUEST_RECEIVED (R422): a tray peer's request arrives in the mailbox, which keeps the last one of each peer. -/
def execPairRequestReceived (src : Nat) (req : PairReq) (s : State) : Res :=
  .next (if src / 8 ≠ s.pins.strapTray ∨ s.peerState (src % 8) ≠ 1 then s
  else
    let r : PairReq := { req with node := src }
    if s.surv.pair = .pairing ∧ s.surv.partner = src % 8 ∧ req.names = s.pins.strapSlot then s.tryPair r
    else s.modSurv fun v => { v with requests := put v.requests (src % 8) r })

/-- PAIR_TIMEOUT (R422 step 2): the peer's request has not arrived within 1 s. -/
def execPairTimeout (s : State) : Res := .next (if s.surv.pair = .pairing then s.pairRefused 0x7021 else s)

/-- UNPAIR (R424): the pair ends; jobs lapse, and twins for the other device are freed unless they are promoted. -/
def execUnpair (s : State) : Res :=
  .next (if s.surv.pair = .paired ∨ s.surv.pair = .partnerLost then
    let paired := s.surv.pair == .paired
    let gone := ((s.surv.twins.filter fun t => !t.promoted).map fun t => t.reserved).sum
    let s1 := s.modSurv fun v => { v with pair := .unpaired, weak := false, twins := v.twins.filter fun t => t.promoted,
                                          poolFree := v.poolFree + gone }
    if paired then s1.lapseAll else s1
  else s)

/-- SWAP_REQ (R438, R457): a seal is requested; swap_ready waits for one that begins after it. -/
def execSwapReq (s : State) : Res := .next (s.modSurv fun v => { v with swapPending := true, swapReady := false })

/-! ### Protection (R426-R428, R437) -/

/-- An entry of a protection table (R426); none with a reserved bit or class. -/
def parseProt (b : List Byte) : Option ProtEnt :=
  if 4 ≤ leAt b 6 1 ∨ leAt b 7 1 ≠ 0 ∨ 4096 ≤ leAt b 4 2 then none
  else some ⟨leAt b 0 4, leAt b 4 2, leAt b 6 1, leAt b 8 4, leAt b 0xC 4⟩

/-- Whether an entry names an object of a context joined to the job, within its pages (R426). -/
def State.protOk (s : State) (e : Nat) (t : ProtEnt) : Bool :=
  (match s.ctx t.ctx with | some k => k.job == some e | none => false) &&
  (if t.cls ≤ 1 then match look s.objs.mems t.id with
    | some o => o.owner == t.ctx && o.state == .live && decide (t.first < o.pages.length) && decide (t.first + t.pages ≤ o.pages.length)
    | none => false
  else if t.cls = 2 then match s.fence t.id with | some f => f.owner == t.ctx && !f.held | none => false
  else match s.ctxPort t.ctx with
    | some p => match look s.objs.queues (p * 8192 + t.id) with | some q => q.owner == some t.ctx | none => false
    | none => false)

/-- The protection table of a job, read once at enable (R426). -/
def State.protTable (s : State) (e : Nat) : Option (List ProtEnt) :=
  match s.serving e with
  | none => none
  | some x =>
    let n := fld (s.reg (offSurv e 0)) 1 12 + 1
    match s.translate x (s.reg (offSurv e 8) % 2 ^ 57) (16 * n) true false with
    | .error _ => none
    | .ok l =>
      let b := s.seePieces l
      let es := (List.range n).map fun i => parseProt (sliceBytes b (16 * i) 16)
      if es.all fun t => match t with | some k => s.protOk e k | none => false then some (es.filterMap id) else none

/-- A protection that is off, with the code of the failure. -/
def protOff (job code : Nat) : Prot :=
  { job := job, entries := [], state := .off, journal := [], mirrors := [], stepOpen := false, markerSent := false,
    settled := none, openSeal := none, stage := .none, closing := none, lastGen := 0, frozen := [], sealReq := false,
    sealVoid := false, cowWaits := [], reserved := 0, fromPartner := false, fetched := [], lastCode := code, share := 0, twinBase := 0,
    twinHas := false, needsRestore := false, stopped := false }

/-- PROTECT_ENABLE (R426-R428, R437): the table is read and checked, pool pages are reserved, and the baseline starts. Whether the
partner's pool has its share free, and whether the partner holds a settled seal or promoted twin of the job, it alone knows: a free value
(log 16). -/
def execProtectEnable (entry : Nat) (s : State) : Res :=
  .next (match look s.objs.jobs entry, s.prot entry with
  | some j, none =>
    match s.protTable entry with
    | none => s.setProt entry (protOff j.id 0x7023)
    | some es =>
      let p : Prot := { protOff j.id 0 with entries := es, state := .lapsed, share := fld (s.written (offTf 0x8028)) 0 2 }
      let share := s.localShare p
      if s.surv.poolFree < share then s.setProt entry (protOff j.id 0x7028)
      else
        let reserve (t : State) : State := (t.setProt entry { p with reserved := share }).modSurv fun v => { v with poolFree := v.poolFree - share }
        if s.surv.pair = .paired then
          let w := s.draw
          if w.1.getLsbD 1 then w.2.setProt entry (protOff j.id 0x7028)
          else if w.1.getLsbD 0 then ((reserve w.2).reserveTwin entry).modProt entry fun q => { q with state := .awaitingRestore }
          else ((reserve w.2).reserveTwin entry).baseline entry
        else reserve s
  | _, _ => s)

/-- PROTECT_DISABLE (R428): protection ends at once; the job's seals and versions are discarded, its pool pages freed, and the partner is
told to discard its twin. Writes that a close of the job held go on. -/
def execProtectDisable (entry : Nat) (s : State) : Res :=
  .next (match s.prot entry with
  | none => s
  | some p =>
    let s1 := match p.closing with
      | some c => (s.setProt entry { p with closing := none }).voteSteps c.inst entry c.pass false
      | none => s
    let s2 := s1.releaseHeld entry
    let s3 := s2.dropReqs fun r => r.kind.ofJob entry
    let s4 := { s3 with surv := { s3.surv with prots := put s3.surv.prots entry (protOff p.job 0), poolFree := s3.surv.poolFree + p.reserved } }
    (s4.note entry p.job .discard 0 0 []).releaseWrites)

/-! ### Restore (R451-R454) -/

/-- A kernel of a context joined to a job is bound or pre-empted (R451). -/
def State.jobBusy (s : State) (e : Nat) : Bool :=
  let mine (x : Nat) : Bool := match s.ctx x with | some k => k.job == some e | none => false
  (s.seqs.any fun q => mine q.2.ctx) || s.objs.ctxs.any fun c => mine c.1 && !c.2.saved.isEmpty

/-- A restore request whose source's seal record is `record` (R451): the checks in their order; the open seal is discarded. A local
restore checks the device's own record. Of a table entry never enabled protection is off (R451 step 1). -/
def State.restoreWith (s : State) (entry : Nat) (record : List Byte) : State :=
  match look s.surv.prots entry with
  | none => s.setProt entry (protOff (lookD s.objs.jobs entry noJob).id 0x7025)
  | some p =>
    let partner := bit (s.reg (offSurv entry 0x20)) 1
    let refuse (code : Nat) : State := s.setProt entry { p with lastCode := code }
    let go (r : List Byte) : State := match s.recordFault p r with
      | some e => refuse e
      | none => s.setProt entry { p with state := .restoring, fromPartner := partner, fetched := r, openSeal := none, stage := .none }
    if p.state == .off || p.state == .restoring || s.jobBusy entry then refuse 0x7025
    else if partner then (if s.surv.pair != .paired then refuse 0x7026 else go record)
    else match p.settled with
      | some x => if x.intact then go x.record else refuse 0x7026
      | none => refuse 0x7026

/-- restore_go written (R451): a restore from the partner that passes its first check waits for the seal record, with which RESTORE_GO
follows; any other is checked at once. -/
def State.restoreAsked (s : State) (e : Nat) : State :=
  match look s.surv.prots e with
  | none => s.restoreWith e []
  | some p =>
    if bit (s.reg (offSurv e 0x20)) 1 && s.surv.pair == .paired && p.state != .off && p.state != .restoring && !(s.jobBusy e) then s
    else s.restoreWith e []

/-- RESTORE_GO (R451): the request is checked with the seal record that the partner gives, nothing where it holds no settled seal or
promoted twin of the job. -/
def execRestoreGo (entry : Nat) (record : List Byte) (s : State) : Res := .next (s.restoreWith entry record)

/-- One page written by a restore: cached copies of its lines go. -/
def State.restorePage (s : State) (g : Nat × List Byte) : State :=
  let s1 := s.dropRange g.1 g.2.length
  (({ s1 with mem := cellPuts s1.mem g.1 g.2 }).mendHalves g.1 g.2.length).bump (offTf 0x8050) g.2.length

/-- The schedule record that a partner sends with the pages, at the address that marks it (R444, log 30). -/
def schedAddr : Nat := 2 ^ 48

/-- A schedule record read from its bytes for the fences and queues of a table (R444). -/
def State.parseSched (s : State) (p : Prot) (b : List Byte) : Sched :=
  let fs := p.entries.filter fun t => t.cls == 2
  let qs := p.entries.filter fun t => t.cls == 3
  { generation := leAt b 0 4, step := leAt b 8 8, attempt := leAt b 0x10 8, key := BitVec.ofNat 64 (leAt b 0x18 8),
    fences := fs.zipIdx.map fun t => (t.1.id, BitVec.ofNat 64 (leAt b (64 + 16 * t.2) 8), leAt b (64 + 16 * t.2 + 8) 2),
    queues := qs.zipIdx.map fun t =>
      let o := 64 + 16 * (fs.length + t.2)
      (((s.ctxPort t.1.ctx).getD 0) * 8192 + t.1.id, leAt b o 8, leAt b (o + 8) 4, leAt b (o + 12) 2) }

/-- The schedule record applied (R454): counters and key, fences as FENCE_RESET sets them, queues empty with their counts. -/
def State.applySched (s : State) (e : Nat) (x : Sched) : State :=
  let s1 := { s with objs := { s.objs with jobs := upd s.objs.jobs e fun j =>
    { j with step := x.step, attempt := x.attempt, key := x.key, nonfinite := false } } }
  let s2 := x.fences.foldl (fun t f => (t.modFence f.1 fun k => { k with value := f.2.1, err := f.2.2 }).wake [f.1]) s1
  x.queues.foldl (fun t q =>
    match look t.objs.queues q.1 with
    | some k => (t.setQueue (q.1 / 8192) (q.1 % 8192)
        { k with packets := [], running := none, headWaits := false, consumed := q.2.1, dropped := q.2.2.1 }).publish
          (q.1 / 8192) (q.1 % 8192)
    | none => t) s2

/-- Whether a restore brought back a descriptor's tensor and not its statistics record (R72): the tensor is narrow, its first byte lies in
the job's MIRROR or USERS pages, and its record, mapped with both rights, does not. -/
def State.lostHistory (s : State) (x : Nat) (p : Prot) (d : Desc) : Bool :=
  let kept (a : Nat) : Option Bool := match s.translate x a 1 true true with
    | .ok ((b, _, _) :: _) => some (s.protPage p true true b).isSome
    | _ => none
  d.valid && isNarrow d.fmt && kept d.base == some true && kept d.statsBase == some false

/-- A statistics record set back (R72): no history, whose ring starts anew (log 62), next_bias from the descriptor, the other counters
clear; HISTORY_LOST recorded. -/
def State.resetHistory (s : State) (x : Nat) (d : Desc) : State :=
  (s.modStats 0 x d fun b =>
    patch (setLe (setLe b 0x10 2 0) 0x14 1 (unsigned d.bias 8)) 0x28 (leBytes 24 0)).raise 0x1808 (leBytes 2 x ++ leBytes 2 d.handle)

/-- The tensors of a context that a restore brought back without their statistics records: one descriptor of each record. -/
def State.lostTensors (s : State) (x : Nat) (p : Prot) : List Desc :=
  match (s.ctx x).bind fun c => c.descTable with
  | none => []
  | some _ => (List.range 65536).foldl (fun (l : List Desc) h => match s.readDesc x h with
    | .ok d => if s.lostHistory x p d && !(l.any fun e => e.statsBase == d.statsBase) then l ++ [d] else l
    | .error _ => l) []

/-- R72 for every context joined to a job. -/
def State.resetHistories (s : State) (e : Nat) (p : Prot) : State :=
  (match look s.objs.jobs e with | some j => j.members | none => []).foldl (fun (t : State) x =>
    (t.lostTensors x p).foldl (fun (t : State) d => t.resetHistory x d) t) s

/-- A restore done: the schedule applied, histories that were not restored set back, RESTORE_DONE recorded, the job protected again or
lapsed without a pair. A partner that holds the seal makes it its live image again (R452 step 5); another is given a baseline (R428,
R450). -/
def State.restored (s : State) (e : Nat) (p : Prot) (x : Sched) (digests : List (List Byte)) : State :=
  let held : Seal := { generation := x.generation, baseline := false, sched := x, versions := [], intact := true, swap := false,
                       hours := leAt p.fetched 0x28 4, digests := digests, record := p.fetched }
  let p1 : Prot := { p with settled := some held, lastGen := x.generation, frozen := s.sealPages p, journal := [], mirrors := [],
                            sealReq := false, stepOpen := false, needsRestore := false, stopped := false,
                            twinHas := p.fromPartner || p.twinHas,
                            state := if s.surv.pair = .paired then .guarded else .lapsed }
  let s1 := (((s.dropReqs fun r => r.kind.ofJob e).applySched e x).resetHistories e p).setProt e p1
  let s2 := if s.surv.pair ≠ .paired then s1
    else if p1.twinHas then s1.note e p.job .rewind x.generation 0 [] else s1.baseline e
  s2.raise 0x7817 (leBytes 2 p.job ++ leBytes 4 x.generation ++ leBytes 1 (b2n p.fromPartner))

/-- Whether a page that the partner sends is the one its place in the page digest list names (R452). -/
def State.pageMatches (s : State) (p : Prot) (digests : List (List Byte)) (g : Nat × List Byte) : Bool :=
  match (s.sealPages p).findIdx? fun a => a == g.1 with
  | some i => digests[i]? == some (sha384 g.2)
  | none => false

/-- A restore from the partner at its end (R452, R453): the pages are written up to the first that fails its digest; with all of them
written and their source there, the schedule record is checked and applied. -/
def State.restorePartner (s : State) (e : Nat) (p : Prot) (lost : Bool) (digests : List (List Byte)) (pages : List (Nat × List Byte)) : State :=
  let given := pages.filter fun g => g.1 != schedAddr
  let listed := sha384 digests.flatten == sliceBytes p.fetched 0x70 48
  let good := if listed then given.takeWhile (s.pageMatches p digests) else []
  let s1 := good.foldl (fun (t : State) g => (t.touch g.1).restorePage g) s
  let whole := listed && good.length == given.length && (s.sealPages p).all fun a => given.any fun g => g.1 == a
  if lost then s1.restoreStops e p 0x7029
  else match look pages schedAddr with
    | some b =>
      if whole && sha384 b == sliceBytes p.fetched 0xA0 48 then s1.restored e p (s1.parseSched p b) digests
      else s1.restoreStops e p 0x7027
    | none => s1.restoreStops e p 0x7027

/-- The pages that a local restore writes (R452): those that changed after the seal's freeze, from their versions; after a restore that
stopped, every page of the seal (R453). -/
def State.localPages (s : State) (p : Prot) (x : Seal) : List (Nat × List Byte) :=
  if p.stopped then (s.classPages p 0 ++ s.classPages p 1).map fun g => match look x.versions g.1 with
    | some v => (g.1, v.2)
    | none => (g.1, cellGets s.mem g.1 (pageBytes g.2))
  else x.versions.map fun v => (v.1, v.2.2)

/-- A local restore at its end (R452, R453): the pages of the settled seal are copied back, up to the first whose digest fails, which stops
it; the schedule record is checked and applied last. `failed` is the place of a page that was read back wrong. -/
def State.restoreLocal (s : State) (e : Nat) (p : Prot) (failed : Option Nat) : State :=
  match p.settled with
  | none => s.restoreStops e p 0x7026
  | some x =>
    let back := s.localPages p x
    let read := match failed with | some n => back.take n | none => back
    let good := read.takeWhile (s.pageMatches p x.digests)
    let s1 := good.foldl (fun t g => t.restorePage g) s
    if failed.isSome || good.length < back.length then s1.restoreStops e p 0x7027
    else if sha384 (x.sched.bytes p.job) ≠ sliceBytes x.record 0xA0 48 then s1.restoreStops e p 0x7027
    else s1.restored e p x.sched x.digests

/-- RESTORE_COMPLETE (R452-R454): what the partner sent, the page digest list and the pages with the schedule record among them, and
whether it was lost; of a local restore, the place of the version that failed its digest as it was read back. -/
def execRestoreComplete (entry : Nat) (sourceLost : Bool) (digestFailed : Option Nat) (digests : List (List Byte)) (pages : List (Nat × List Byte))
    (s : State) : Res :=
  .next (match s.prot entry with
  | none => s
  | some p =>
    if p.state ≠ .restoring then s
    else
      let s0 := (p.entries.flatMap fun t => if t.cls ≤ 1 then s.entryPages t else []).foldl
        (fun (t : State) g => t.dropRange g.1 (pageBytes g.2)) s
      if p.fromPartner then s0.restorePartner entry p sourceLost digests pages else s0.restoreLocal entry p digestFailed)

end Sys2Proof.Machine
end

