-- ==== Sys2Proof/Machine/Packets.lean ====
section
/-! DEFINITION. Command packets (R334-R338, R153, R154, R564): arrival, the head of a queue, the checks as a packet starts to run, and
the opcodes NOP, WRITE, READ, UNLOAD (R335). -/

namespace Sys2Proof.Machine

open Sys2Proof

/-! ### Arrival (R334, R337, R154) -/

/-- The header's fields and the payload of a packet's bytes (R334). -/
def parsePacket (b : List Byte) : Packet :=
  { opcode := leAt b 0 1, fenceEn := bit (leAt b 1 1) 0, waitEn := bit (leAt b 1 1) 1, payloadLen := leAt b 2 2,
    queue := leAt b 4 2 % 8192, ctx := leAt b 6 2 % 4096, key := leAt b 8 4, cq := leAt b 0xC 2, tag := leAt b 0xE 2,
    fenceId := leAt b 0x10 4, waitId := leAt b 0x14 4, fenceValue := leAt b 0x18 8, waitValue := leAt b 0x20 8,
    arg0 := leAt b 0x28 8, arg1 := leAt b 0x30 8, arg2 := leAt b 0x38 8,
    reserved := leAt b 1 1 / 4 != 0 || leAt b 4 2 / 8192 != 0 || leAt b 6 2 / 4096 != 0,
    payload := b.drop 64 }

/-- Whether bytes are one whole packet: a header and the payload it announces (R334). -/
def wholePacket (b : List Byte) : Bool := decide (64 ≤ b.length) && b.length == 64 + leAt b 2 2

/-- A packet discarded at arrival (R337). -/
def State.rejectPacket (s : State) (p : Nat) (r : Packet) : State :=
  (s.bump (offBl p 0x70) 1).raise 0x8804 (leBytes 1 p ++ leBytes 2 r.queue ++ leBytes 2 r.ctx)

/-- Whether a packet may enter a queue: queue, context, key, and a live owner (R337). -/
def State.packetTrusted (s : State) (p : Nat) (k : SubQueue) (r : Packet) : Bool :=
  match k.owner with
  | none => r.key == fld (s.reg (offBl p 0x10)) 0 32
  | some x => r.ctx == x && match s.ctx x with | some c => c.key.toNat == r.key && c.state == .live | none => false

/-- A packet that finds its queue full is dropped, and its fence errs where its context may signal it (R154, R367). -/
def State.dropPacket (s : State) (p : Nat) (k : SubQueue) (r : Packet) : State :=
  let s1 := s.setQueue p r.queue { k with dropped := (k.dropped + 1) % 2 ^ 32 }
  let x := packetCtx k r
  if r.fenceEn && s.maySignal x r.fenceId then s1.fenceError r.fenceId 0x6001 (some x) 0 (r.opcode, r.queue) else s1

/-- PACKET_ARRIVAL (R334, R337, R338, R154): the last byte of a packet has arrived at a port that is up. -/
def execPacketArrival (port : Nat) (bytes : List Byte) (s : State) : Res :=
  let r := parsePacket bytes
  .next (if 4 ≤ port || !(s.port port).up || !wholePacket bytes then s
  else match s.queue port r.queue with
  | none => s.rejectPacket port r
  | some k =>
    if !s.packetTrusted port k r then s.rejectPacket port r
    else if k.depth ≤ k.packets.length then s.dropPacket port k r
    else (s.setQueue port r.queue { k with packets := k.packets ++ [r] }).bump (offBl port 0x60) 1)

/-! ### The head of a queue (R564 steps 1 to 3) -/

/-- Whether a context belongs to a partition of a port. -/
def State.onPort (s : State) (p x : Nat) : Bool := s.ctxPort x == some p

/-- The head packet fails at step 1 of R564: logged with its fence id, and no fence is changed. -/
def State.headDenied (s : State) (key : Nat) (k : SubQueue) (p : Packet) (code : Nat) : State :=
  (s.consumeHead key k).log (packetCtx k p) code false false (if code = 0x6004 then p.fenceId else noFence) 0 (p.opcode, key % 8192)

/-- The head packet with no fence to check any longer: it waits, runs or fails (R564 steps 2 to 4, R366). -/
def State.headWait (s : State) (key : Nat) (k : SubQueue) (p : Packet) : State :=
  let fail (code : Nat) (prop : Bool) (detail : Nat) : State :=
    let r := s.failHead key k code prop detail
    r.1.wake r.2
  if p.waitEn then
    match s.fence p.waitId with
    | none => fail 0x6004 false 0
    | some f =>
      if !f.mayWait (packetCtx k p) then fail 0x6004 false 0
      else if f.err ≠ 0 then fail 0x6003 true (depDetail p f.err)
      else if p.waitValue ≤ f.value.toNat then
        let r := s.runHead key k p
        r.1.wake r.2
      else s.setQueue (key / 8192) (key % 8192) { k with headWaits := true }
  else
    let r := s.runHead key k p
    r.1.wake r.2

/-- PACKET_HEAD (R564 steps 1 to 3, R336, R366): the packet at the head of a queue that runs none. -/
def execPacketHead (port queue : Nat) (s : State) : Res :=
  .next (match s.queue port queue with
  | none => s
  | some k =>
    match k.packets, k.running with
    | p :: _, none =>
      if k.headWaits then s
      else
        let key := port * 8192 + queue
        let x := packetCtx k p
        if k.owner.isNone && (p.fenceEn || p.waitEn) && !s.onPort port x then s.headDenied key k p 0x600B
        else if p.fenceEn && !s.maySignal x p.fenceId then s.headDenied key k p 0x6004
        else s.headWait key k p
    | _, _ => s)

/-! ### A packet as it starts to run (R564 steps 5 to 8) -/

/-- Who may issue an opcode (R350): any queue, queue 0 alone, queue 0 of the management port. -/
inductive Issuer where
  | any | admin | management
  deriving DecidableEq, Repr

/-- What R335 and R350 fix for an opcode: issuer, masks of the arguments' bits in use, whether a completion queue is written. -/
structure OpRule where
  from_ : Issuer
  m0 : Nat
  m1 : Nat
  m2 : Nat
  cq : Bool
  deriving DecidableEq, Repr

/-- The address bits of a packet's argument. -/
def vaMask : Nat := 2 ^ 57 - 1
/-- Bits [55:0]. -/
def va56 : Nat := 2 ^ 56 - 1
/-- Bits [31:0]. -/
def m32 : Nat := 2 ^ 32 - 1
/-- All bits. -/
def m64 : Nat := 2 ^ 64 - 1

/-- The rules of the opcodes of R335 and R350. -/
def opRule (op : Nat) : OpRule :=
  match op with
  | 0x00 => ⟨.any, 0, 0, 0, false⟩
  | 0x01 => ⟨.any, vaMask, 0, 0, false⟩
  | 0x02 => ⟨.any, vaMask, m32, 0, true⟩
  | 0x10 => ⟨.any, vaMask, m32, 0, true⟩
  | 0x11 => ⟨.any, m32, 0, 0, false⟩
  | 0x12 => ⟨.any, 2 ^ 48 - 1, 0, 0, false⟩
  | 0x18 => ⟨.any, 0xFFFF, 0, 0, true⟩
  | 0x20 => ⟨.management, 0x3_FFFF, 0, 0, false⟩
  | 0x21 => ⟨.management, 0x7F, 0, 0, false⟩
  | 0x22 => ⟨.admin, 0xFF, 0, 0, true⟩
  | 0x23 => ⟨.any, 0xFFF, 0, 0, false⟩
  | 0x24 => ⟨.admin, 0xFFF, 0, 0, false⟩
  | 0x25 => ⟨.any, 0xFFF, 0xFF_FFFF_FF03, m32, true⟩
  | 0x26 => ⟨.admin, 0xFFF, 0, 0, false⟩
  | 0x27 => ⟨.admin, 0xFFF, 0, 0, false⟩
  | 0x28 => ⟨.admin, 0x3_FFFF, m64, 0, false⟩
  | 0x29 => ⟨.admin, 0x1FFF_FFFF, 0, 0, false⟩
  | 0x2A => ⟨.admin, 0xFFFF, 0, 0, false⟩
  | 0x2B => ⟨.any, 0x3FF_FFFF, m64, 0, false⟩
  | 0x2C => ⟨.any, 0x1FFF, 0, 0, false⟩
  | 0x2D => ⟨.any, 1, 0xF_FFFF, 0, true⟩
  | 0x2E => ⟨.any, m32, 0, 0, false⟩
  | 0x2F => ⟨.any, 0x3_FFFF_FFFF, va56, m64, false⟩
  | 0x30 => ⟨.any, 0, va56, m32, false⟩
  | 0x31 => ⟨.any, m32, 0x1FFF, 0, false⟩
  | 0x32 => ⟨.any, 0, va56, 0, false⟩
  | 0x33 => ⟨.any, 0, 0, m64, true⟩
  | 0x34 => ⟨.any, m32, 0, 0, false⟩
  | 0x35 => ⟨.any, m32, 0x3FFF, 0, false⟩
  | 0x36 => ⟨.any, m32, 0x3FFF, 0, true⟩
  | 0x37 => ⟨.any, m32, 0, m64, false⟩
  | 0x38 => ⟨.any, m32, m64, 0xFF, true⟩
  | _ => ⟨.any, m32, 0, 0, false⟩

/-- Whether a payload length is allowed for an opcode (R334, R335, R350). -/
def lengthOk (op n : Nat) : Bool :=
  decide (n ≤ 16384) && n % 8 == 0 &&
    if op = 1 then decide (8 ≤ n)
    else if op = 0x20 then decide (216 ≤ n) && decide (n ≤ 1224) && (n - 200) % 16 == 0
    else if op = 0x28 then n == 0 || n == 16
    else n == 0

/-- Whether an HBM range of PART_CREATE is 2 MiB aligned and lies in HBM (R350). -/
def rangeOk (r : Nat × Nat) : Bool :=
  r.1 % 0x20_0000 == 0 && r.2 % 0x20_0000 == 0 && r.2 != 0 && decide (r.1 + r.2 ≤ hbmBytes)

/-- The HBM ranges of a PART_CREATE's payload. -/
def payloadRanges (b : List Byte) : List (Nat × Nat) :=
  (List.range ((b.length - 200) / 16)).map fun i => (leAt b (200 + 16 * i) 8, leAt b (208 + 16 * i) 8)

/-- Whether the arguments of a packet are in range, their reserved bits apart (R335, R350, R361, R362, R363, R375). -/
def argsInRange (p : Packet) : Bool :=
  match p.opcode with
  | 0x01 => !bit p.arg0 56
  | 0x02 => !bit p.arg0 56 && p.arg1 % 8 == 0 && decide (8 ≤ p.arg1)
  | 0x10 => !bit p.arg0 56 && decide (p.arg1 ≤ 0x1000_0000)
  | 0x18 => decide (p.arg0 ≤ 7)
  | 0x20 => (payloadRanges p.payload).all rangeOk
  | 0x25 => p.arg1 % 4 != 3
  | 0x2B => p.arg0 % 8192 != 0 && decide (1 ≤ fld p.arg0 13 13) && decide (fld p.arg0 13 13 ≤ 4096) && p.arg1 % 16 == 0
  | 0x2D => p.arg1 != 0
  | 0x2F => fld p.arg2 32 32 != 0
  | 0x30 => p.arg2 != 0
  | 0x32 => p.arg1 % 0x1_0000 == 0
  | 0x33 => p.arg2 != errorValue
  | 0x37 => p.arg2 != errorValue
  | _ => true

/-- Whether no bit outside a mask is set. -/
def inMask (v m : Nat) : Bool := v % 2 ^ 64 &&& m == v

/-- Whether every argument is in range and every reserved bit is clear (R564 step 7). -/
def argsOk (p : Packet) : Bool :=
  let r := opRule p.opcode
  !p.reserved && (p.opcode == 0x12 || p.tag == 0) && p.fenceValue != errorValue && inMask p.arg0 r.m0 && inMask p.arg1 r.m1 &&
    inMask p.arg2 r.m2 && argsInRange p

/-- Whether a packet may write a completion queue: it is enabled, and the admin queue's for a packet of queue 0 or the packet's
context's (R339, R351, R344). -/
def State.mayCq (s : State) (port q cq x : Nat) : Bool :=
  s.cqEnabled port cq && if bit (s.cqCtl port cq) 18 then q == 0 else fld (s.cqCtl port cq) 6 12 == x

/-- The completion queue a command writes: that of the header, or of EVENT_CREATE's argument too (R351, R371). -/
def State.cqsOk (s : State) (port q x : Nat) (p : Packet) : Bool :=
  (!(opRule p.opcode).cq || s.mayCq port q p.cq x) && (p.opcode != 0x38 || s.mayCq port q p.arg2 x)

/-- The code of the first failure of steps 5 to 8 of R564. -/
def State.packetFault (s : State) (port q x : Nat) (p : Packet) : Option Nat :=
  let r := opRule p.opcode
  if r.from_ = .admin ∧ q ≠ 0 ∨ r.from_ = .management ∧ (q ≠ 0 ∨ !(s.isMgmt port)) then some 0x600B
  else if !lengthOk p.opcode p.payloadLen then some 0x8002
  else if !argsOk p then some 0x8003
  else if !s.cqsOk port q x p then some 0x8005
  else none

/-- The first byte and the bytes of a completion queue's ring. -/
def State.ring (s : State) (port c : Nat) : Nat × Nat :=
  let v := s.cqCtl port c
  (v / 2 ^ 19 * 2 ^ 19, 64 * 2 ^ fld v 1 5)

/-- Whether the ring a packet writes to lies in a window of its port (R331). -/
def State.ringOk (s : State) (port : Nat) (p : Packet) : Bool :=
  let ok (c : Nat) : Bool := let r := s.ring port c; s.inWindow port r.1 r.2
  (!(opRule p.opcode).cq || ok p.cq) && (p.opcode != 0x38 || ok p.arg2)

/-- What a packet's command does once steps 1 to 8 of R564 have passed: it fails with a code and detail, or it changes the
state. -/
abbrev Cmd := Except (Nat × Nat) State

/-- A failure without detail. -/
def refuse (code : Nat) : Cmd := .error (code, 0)

/-- The packet that runs at a queue, where it has the opcode, put through steps 5 to 8 of R564 and then through its command, which
ends the packet itself. A failed command changes nothing (R335, R351). -/
def State.runPacket (s : State) (port q op : Nat) (cmd : SubQueue → Packet → Nat → Cmd) : State :=
  match s.runningPacket port q with
  | none => s
  | some (k, p) =>
    if p.opcode ≠ op then s
    else
      let x := packetCtx k p
      match s.packetFault port q x p with
      | some code => s.failPacket port q x code 0 p
      | none => match cmd k p x with
        | .ok t => t
        | .error (code, detail) => s.failPacket port q x code detail p

/-- The acting context of a command: live, and of the port (R350, R564 step 9). -/
def State.actor (s : State) (port x : Nat) : Except (Nat × Nat) Ctx :=
  match s.ctx x with
  | none => .error (0x6007, 0)
  | some c => if !s.onPort port x then .error (0x600B, 0) else if c.state = .live then .ok c else .error (0x6007, 0)

/-! ### NOP, WRITE, READ, UNLOAD (R335) -/

/-- PKT_NOP (R335): a fence-only packet completes at once. -/
def execPktNop (port queue : Nat) (s : State) : Res :=
  .next (s.runPacket port queue 0 fun _ p _ => .ok (s.completePacket port queue p))

/-- WRITE (R335, R291, R292): the payload written into HBM of the context, with the policy NORMAL. -/
def execWrite (port queue : Nat) (s : State) : Res :=
  .next (s.guarded (s.runPacket port queue 1 fun _ p x =>
    match s.actor port x with
    | .error e => .error e
    | .ok _ => match s.translate x p.arg0 p.payload.length false true with
      | .error e => refuse e
      | .ok l => .ok ((s.writePieces 0 l p.payload).completePacket port queue p)))

/-- The pieces of a READ: offset and bytes, at most 16,384 each (R335). -/
def readPieces : Nat → Nat → List Byte → List (Nat × List Byte)
  | 0, _, _ => []
  | _, _, [] => []
  | n + 1, o, b :: bs => (o, (b :: bs).take 16384) :: readPieces n (o + 16384) ((b :: bs).drop 16384)

/-- The entries of a READ posted in order; the fence is signalled once the last is written (R336, R340, R341). -/
def State.postRead (s : State) (port : Nat) (cq x src : Nat) (owner : CqOwner) (l : List (Nat × List Byte)) : State × Bool :=
  l.zipIdx.foldl (fun (t : State × Bool) e =>
    t.1.cqPost port cq { kind := 2, ctx := x, source := src, result := [], data := e.1.2, offset := e.1.1,
                         last := e.2 + 1 == l.length, owner := owner, xid := s.host.nextXid }) (s, true)

/-- READ (R335, R339-R341, R307): HBM data to a completion queue in pieces. A read that meets an uncorrectable half writes no
piece. -/
def execRead (port queue : Nat) (s : State) : Res :=
  .next (s.runPacket port queue 2 fun _ p x =>
    match s.actor port x with
    | .error e => .error e
    | .ok _ => match s.translate x p.arg0 p.arg1 true false with
      | .error e => refuse e
      | .ok l =>
        if !s.ringOk port p then refuse 0x8006
        else if !(s.served l) then .ok (s.reachPieces l)
        else if s.badPieces l then .ok ((s.fetchPieces x l).failPacket port queue x 0x4003 0 p)
        else
          let s1 := (s.readPieces 0 x l none).1
          let f := if p.fenceEn then some (p.fenceId, p.fenceValue) else none
          let t := (s1.endPacket port queue).postRead port p.cq x p.arg0 (.packet f p.opcode queue)
            (readPieces (p.arg1 / 16384 + 1) 0 (s.seePieces l))
          let t1 := { t.1 with host := { t.1.host with nextXid := t.1.host.nextXid + 1 } }
          .ok (if t.2 then match f with | some (i, v) => t1.signal i v | none => t1 else t1))

/-- UNLOAD (R335, R205): the image is freed once no kernel of it runs. -/
def execUnload (port queue : Nat) (s : State) : Res :=
  .next (s.runPacket port queue 0x11 fun _ p x =>
    match s.actor port x with
    | .error e => .error e
    | .ok _ =>
      if !(s.loader.modules.any fun m => m.ctx == x && m.handle == p.arg0 && m.unloading.isNone) then refuse 0x9024
      else if s.moduleRuns x p.arg0 then
        let f := some (if p.fenceEn then some (p.fenceId, p.fenceValue) else none)
        let ms := s.loader.modules.map fun (m : Module) => if m.ctx == x && m.handle == p.arg0 then { m with unloading := f } else m
        .ok ({ s with loader := { s.loader with modules := ms } }.endPacket port queue)
      else .ok ((s.freeModule x p.arg0).completePacket port queue p))

end Sys2Proof.Machine
end

