-- ==== Sys2Proof/Machine/Launch.lean ====
section
/-! DEFINITION. Binding of kernels (R135, R140, R196, R276, R283, R286, R311), LAUNCH, pre-emption and resume (R126-R128, R160, R230,
R231, R288, R355). -/

namespace Sys2Proof.Machine

open Sys2Proof

/-! ### The choice of die, sequencer and cores (R196) -/

/-- Whether a wipe of a core is in progress (R311). -/
def State.wiping (s : State) (c : Nat) : Bool := s.hbm.wipes.any fun w => w.2 == .core c

/-- Whether a core of a partition is free for a kernel: enabled, in no constellation, not retiring, its die's clocks in lock; `soon`
counts one whose wipe has yet to end (R311). -/
def State.coreFree (s : State) (soon : Bool) (c : Nat) : Bool :=
  s.kind c == .enabled && (s.core c).member.isNone && !(s.core c).noNewTile && !(s.core c).faulty && (soon || !(s.wiping c)) &&
    match look s.pwr.dies (c / 68) with | some d => !d.unlocked | none => true

/-- The free cores of a partition on a die, ascending. -/
def State.freeOn (s : State) (soon : Bool) (part d : Nat) : List Nat :=
  match look s.objs.parts part with
  | none => []
  | some p => (List.range 68).filterMap fun i => let c := d * 68 + i; if p.cores.contains c && s.coreFree soon c then some c else none

/-- The free sequencer of a die with the lowest number, as die * 16 + sequencer. -/
def State.freeSeq (s : State) (d : Nat) : Option Nat :=
  (List.range 16).findSome? fun q => let k := d * 16 + q; if (look s.seqs k).isNone then some k else none

/-- The sequencer and cores that a kernel of a size binds to, or why it cannot (R196). -/
def State.pick (s : State) (soon : Bool) (part size : Nat) : Except Nat (Nat × List Nat) :=
  let dies := (List.range 16).filterMap fun d => let l := s.freeOn soon part d; if size ≤ l.length then some (d, l) else none
  if dies.isEmpty then .error 0x9023
  else
    let ok := dies.filterMap fun e => (s.freeSeq e.1).map fun q => (e.2, q)
    match ok with
    | [] => .error 0x9022
    | e :: es =>
      let best := es.foldl (fun (b : List Nat × Nat) c => if c.1.length < b.1.length then c else b) e
      .ok (best.2, best.1.take size)

/-! ### Local stores that stay in place (R288, R311) -/

/-- The cells of a core's memory, from its first byte. -/
def State.storeCells (s : State) (c : Nat) : List Host.Cell :=
  (s.mem.filter fun m => decide (coreMem c ≤ m.1) && decide (m.1 < coreMem c + 0x80_0000)).map fun m => (m.1 - coreMem c, m.2)

/-- A core's memory set to saved cells. -/
def State.loadCells (s : State) (c : Nat) (l : List Host.Cell) : State :=
  let t := s.wipeCore c
  { t with mem := l.foldl (fun m e => cellPut m (coreMem c + e.1) e.2) t.mem }

/-- The saved constellation whose local store still stands on a core: its context, and the rank. -/
def State.storeOwner (s : State) (c : Nat) : Option (Nat × Saved × Nat) :=
  s.objs.ctxs.findSome? fun e => e.2.saved.findSome? fun v =>
    match v.seq.members.findIdx? fun m => m == c with
    | some r => if v.stores.any fun t => t.1 == r then none else some (e.1, v, r)
    | none => none

/-- The local store of a saved constellation's rank written to the device-held area (R288). -/
def State.saveStore (s : State) (x : Nat) (v : Saved) (r c : Nat) : State :=
  let cells := s.storeCells c
  (s.bump (offCm c 0x30) 1).modCtx x fun k => { k with saved := k.saved.map fun w =>
    if w.seq.order = v.seq.order then { w with stores := w.stores ++ [(r, cells)] } else w }

/-- A core's local store as it comes to a context: one that another context left is saved or wiped first, before the core takes an
entry (R288, R311). -/
def State.claimStore (s : State) (c x : Nat) : State :=
  match (s.core c).lsHeld with
  | none => s.modCore c fun k => { k with lsHeld := some x }
  | some y =>
    match s.storeOwner c with
    | some (z, v, r) => if z = x then (s.saveStore z v r c).modCore c fun k => { k with lsHeld := some x } else s
    | none => if y = x then s else s.startWipe (.core c)

/-! ### Binding -/

/-- The channels of a kernel at launch (R140). -/
def Kernel.channels (k : Kernel) : List Chan := k.chans.map fun b => ⟨b.init, b⟩

/-- A core as it joins a constellation: queues empty, the private cache invalid, the local store claimed (R135, R196, R283, R286). -/
def State.joinCore (s : State) (c x sq rank : Nat) (k : Kernel) : State :=
  let s1 := (s.claimStore c x).setPriv c []
  { s1.modCore c fun o => { o.freed with member := some (sq, rank), lsEighths := k.lsEighths, chans := k.channels, lsHeld := o.lsHeld }
    with ge := put s1.ge c ⟨[], [], [], [], 0⟩ }

/-- The members of a constellation bound in rank order. -/
def State.joinAll (s : State) (x sq : Nat) (k : Kernel) (cores : List Nat) : State :=
  cores.zipIdx.foldl (fun (t : State) e => t.joinCore e.1 x sq e.2 k) s

/-- The clamp of stall_log2 (R161). -/
def clampStall (v : Nat) : Nat := max 16 (min 30 v)

/-- The version of the Zenith firmware that a sequencer takes at its next launch or resume, and save records carry (R509). -/
def State.zenithVersion (s : State) : Nat :=
  match s.sec.units[3]? with
  | some u => match u.running with | some false => u.a.version | some true => u.b.version | none => 0
  | none => 0

/-- PKT_LAUNCH (R196, R197, R276, R336): a kernel bound; its packet completes when its streams have ended. While only cores whose wipe
has yet to end would suffice, the packet waits (R311). -/
def execPktLaunch (port queue : Nat) (s : State) : Res :=
  .next (s.runPacket port queue 0x12 fun _ p x =>
    match s.actor port x with
    | .error e => .error e
    | .ok c =>
      match s.loader.modules.find? fun m => m.ctx == x && m.handle == p.arg0 % 2 ^ 32 && m.unloading.isNone with
      | none => refuse 0x9024
      | some m => match m.kernels[p.arg0 / 2 ^ 32]? with
        | none => refuse 0x9024
        | some k => match s.pick false c.part k.size, s.pick true c.part k.size with
          | .error _, .error e => refuse e
          | .error _, .ok _ => .ok s
          | .ok (sq, cores), _ =>
            let s1 := (s.endPacket port queue).adopt (offSeq sq 0) 0 5
            let j := c.job.bind fun e => look s.objs.jobs e
            let q : Seq :=
              { ctx := x, module := m.handle, kernel := k, members := cores, teF := ⟨0, 0, []⟩, geF := ⟨0, 0, []⟩,
                meF := ⟨0, 0, []⟩, pass := none, step := (j.map (·.step)).getD 0, attempt := (j.map (·.attempt)).getD 0,
                jobKey := (j.map (·.key)).getD 0, tag := p.tag, fence := if p.fenceEn then some (p.fenceId, p.fenceValue) else none,
                stallLog2 := clampStall (fld (s1.reg (offSeq sq 0)) 0 5), preempting := false, order := s.objs.launches,
                creditHeld := [], fw := s.zenithVersion }
            let s2 := ((s1.setSeq sq q).joinAll x sq k cores).bump (offLr 0x28) 1
            .ok { s2 with objs := { s2.objs with launches := s2.objs.launches + 1 } })

/-- LOCAL_STORE_SAVE (R287, R288, R311): the local store that a pre-empted constellation left on a core bound to another context is saved,
and the core is wiped for its new context. Where the old context has gone or gone elsewhere meanwhile, only the wipe is left to do. What
the checks of core memory report to the save is the operand's; the new context, bound and not yet started, is the one on the core. -/
def execLocalStoreSave (core : Nat) (err : CoreErr) (s : State) : Res :=
  .next (match s.coreSeq core with
  | some (_, q) =>
    if (s.core core).lsHeld = some q.ctx || s.wiping core then s
    else
      let own := s.storeOwner core
      let s1 : State := match own, err with
        | some (z, _, _), .uncorrectable => ((s.countCmUe core).modCore core fun k => { k with faulty := true }).faultCtx z 0x4011 0
        | some (z, v, r), e => (if e = .corrected then s.bump (offCm core 0x20) 1 else s).saveStore z v r core
        | none, _ => s
      (s1.wipeCore core).modCore core fun k => { k with lsHeld := some q.ctx }
  | none => s)

/-! ### Pre-emption (R126, R160, R230, R355) -/

/-- The constellations of a context that are bound. -/
def State.boundOf (s : State) (x : Nat) : List (Nat × Seq) := s.seqs.filter fun e => e.2.ctx == x

/-- The context named in arg0 of a command (R350): of the port; on a context's own queue, itself. -/
def State.subject (s : State) (port q x : Nat) (p : Packet) : Except (Nat × Nat) (Nat × Ctx) :=
  let y := p.arg0 % 4096
  if q ≠ 0 ∧ y ≠ x then .error (0x600B, 0)
  else match s.ctx y with
    | none => .error (0x6007, 0)
    | some c => if s.onPort port y then .ok (y, c) else .error (0x600B, 0)

/-- Whether a constellation is held for the replacement of a member (R455), and is not saved away. -/
def State.heldForSpare (s : State) (q : Seq) : Bool :=
  match s.surv.spare with | some (c, _, st) => st == 1 && q.members.contains c | none => false

/-- CONTEXT_PREEMPT (R355): every constellation of the context starts to be saved; with none bound it completes at once. While a
resume or the replacement of a member is under way the packet waits. -/
def execContextPreempt (port queue : Nat) (s : State) : Res :=
  .next (s.runPacket port queue 0x26 fun _ p x =>
    match s.subject port queue x p with
    | .error e => .error e
    | .ok (y, c) =>
      if c.state ≠ .live then refuse 0x6007
      else if !c.resumes.isEmpty || (s.boundOf y).any (fun e => s.heldForSpare e.2) then .ok s
      else if (s.boundOf y).isEmpty then .ok (s.completePacket port queue p)
      else
        let seqs := s.seqs.map fun (e : Nat × Seq) => if e.2.ctx = y then (e.1, { e.2 with preempting := true }) else e
        .ok (({ s with seqs := seqs }.endPacket port queue).modCtx y fun k =>
          { k with preemptFences := if p.fenceEn then k.preemptFences ++ [(p.fenceId, p.fenceValue)] else k.preemptFences }))

/-- The headers of a member's save records (R127, R160, R230), with TE_CTL as in effect: 0b11 takes effect as 0b10 (R129). -/
def State.saveHead (s : State) (sq : Nat) (q : Seq) (c : Nat) : SaveHead :=
  { core := c, sequencer := sq, units := ((List.range 17).map fun a => if (s.tilesOn c (if a = 16 then 80 else a)).isEmpty then 0 else 2 ^ a).sum,
    teCtl := min (s.reg (offTe c 0)) 2, version := q.fw, grade := s.ident.grade, revision := s.ident.revision,
    stall := match s.ctx q.ctx with | some k => k.stall | none => 0 }

/-- A set of a unit as the tensor engine's record holds it (R127): 1,024 A40 values in 64-bit containers (R24), zeros where the unit
holds no tile. -/
def setBytes (acc : Tab A40) : List Byte := (List.range 1024).flatMap fun i => leBytes 8 (lookD acc i 0).toNat

/-- The tiles of an array and its quadrants, or of the path, in the active set and behind it. -/
def State.setTiles (s : State) (c a : Nat) (pick : TeUnitSt → Option Tile) : Tab A40 :=
  let us := if a = 16 then [80] else [a, 16 + 4 * a, 17 + 4 * a, 18 + 4 * a, 19 + 4 * a]
  us.flatMap fun u => match pick (s.unit c u) with | some t => t.acc | none => []

/-- The save record of the tensor engine (R127): header, cursors, sets. The bits of a cursor the spec does not lay out: free values
(log 25). -/
def State.teRecord (s : State) (x : Nat) (h : SaveHead) : List Byte × State :=
  let cur := s.drawBytes (17 * 64)
  let sets := (List.range 17).flatMap fun a => setBytes (s.setTiles h.core a (·.active)) ++ setBytes (s.setTiles h.core a (·.next))
  let body := cur.1 ++ List.replicate 2944 0 ++ sets
  let head := leBytes 2 x ++ leBytes 2 h.core ++ leBytes 4 h.units ++ leBytes 4 h.teCtl ++ leBytes 2 h.version ++
    leBytes 1 (b2n (h.grade == .tray)) ++ leBytes 2 h.revision ++ List.replicate 15 0
  (head ++ (sha384 body).take 32 ++ body, cur.2)

/-- The queue save record (R160): the stall counter and the reserved bytes stand where the rule puts them; how the header, the engines,
the channels and the entries lie within their fields it does not say: free values (log 25). -/
def State.queueRecord (s : State) (h : SaveHead) : List Byte × State :=
  let a := s.drawBytes 0x200
  let b := a.2.drawBytes 0x6000
  (a.1 ++ leBytes 8 h.stall ++ List.replicate 3576 0 ++ b.1, b.2)

/-- The group save record (R230): the reserved bytes read zero; how a header, launch, port entry and block lie within their fields the
rule does not say: free values (log 25). -/
def State.groupRecord (s : State) : List Byte × State :=
  let a := s.drawBytes 0x340
  let b := a.2.drawBytes 0x800
  (a.1 ++ List.replicate 192 0 ++ b.1 ++ List.replicate 1024 0, b.2)

/-- The save records of the members as bytes, by rank. -/
def State.recordsOf (s : State) (x : Nat) (heads : Tab SaveHead) : Tab SaveRec × State :=
  heads.foldl (fun (r : Tab SaveRec × State) e =>
    let t := r.2.teRecord x e.2
    let k := t.2.queueRecord e.2
    let g := k.2.groupRecord
    (r.1 ++ [(e.1, ⟨t.1, k.1, g.1⟩)], g.2)) ([], s)

/-- A saved constellation's records (R127, R160, R230), before their bytes. -/
def State.saveOf (s : State) (sq : Nat) (q : Seq) : Saved :=
  { seq := q, cores := q.members.zipIdx.map fun e => (e.2, s.core e.1),
    units := q.members.zipIdx.flatMap fun e => (s.te.filter fun t => t.1 / 128 == e.1).map fun t => (e.2 * 128 + t.1 % 128, t.2),
    groups := q.members.zipIdx.map fun e => (e.2, lookD s.ge e.1 ⟨[], [], [], [], 0⟩),
    stores := [], heads := q.members.zipIdx.map fun e => (e.2, s.saveHead sq q e.1), records := [] }

/-- A constellation whose every member has written its records leaves its cores and sequencer; with the last of its context the
pre-emption completes (R355). -/
def State.endSave (s : State) (sq : Nat) (q : Seq) : State :=
  let r := s.recordsOf q.ctx (s.saveOf sq q).heads
  let v := { s.saveOf sq q with records := r.1 }
  ((q.members.foldl (fun (t : State) c => t.freeCore c) { r.2 with seqs := del s.seqs sq }).modCtx q.ctx fun k =>
    { k with saved := k.saved ++ [v] }).preemptDone q.ctx

/-- An engine of a core has written its record. -/
def State.savedEngine (s : State) (c : Nat) (e : Engine) : State :=
  let s1 := s.modCore c fun k => { k with saved := addNew k.saved e }
  match s1.coreSeq c with
  | none => s1
  | some (sq, q) =>
    if q.members.all (fun m => (s1.core m).saved.length == 3) && !s1.heldForSpare q then s1.endSave sq q else s1

/-- Whether an engine of a core is to be saved now: a sleeping member wakes first (R478), and a core whose local store is not yet the
context's is first saved and wiped (R288, R311). -/
def State.saves (s : State) (c : Nat) (e : Engine) : Bool :=
  match s.coreSeq c with
  | some (_, q) =>
    s.live q.ctx && q.preempting && !(s.core c).saved.contains e && (s.core c).clk == .running && !(s.core c).waking &&
      (s.core c).lsHeld == some q.ctx && match s.ctx q.ctx with | some k => k.resumes.isEmpty | none => false
  | none => false

/-- TE_SAVE_DONE (R125-R127): the drains in progress have committed and the save record is written, or it could not be. -/
def execTeSaveDone (core : Nat) (ok : Bool) (cycles : Nat) (s : State) : Res :=
  .next (if s.saves core .te && s.te.all (fun e => e.1 / 128 != core || e.2.shadow.isNone) then
    let v := b2n ok * 4 + min cycles 0xFFFF * 2 ^ 16
    let s1 := s.setReg (offTe core 0x28) v
    if ok then (s1.bump (offTe core 0x138) 1).savedEngine core .te else s1.faultCore core 0x2012 0
  else s)

/-- GE_SAVE_DONE (R230): the group engine has written its frames and its record. -/
def execGeSaveDone (core : Nat) (s : State) : Res := .next (if s.saves core .ge then s.savedEngine core .ge else s)

/-- QUEUE_SAVE_DONE (R160): the move engine's issued transfers have completed, the tokens behind them are visible, and the queue save
record is written. -/
def execQueueSaveDone (core : Nat) (s : State) : Res :=
  let k := s.core core
  .next (if s.saves core .me && k.xfers.isEmpty && k.inflight.all (fun f => f.eng != .me) then s.savedEngine core .me else s)

/-! ### Resume (R128, R231, R288, R355) -/

/-- A saved constellation bound again by the rule of R196, with its records on its new cores; it takes no entry before
RESUME_DONE. Local stores that stand on other cores are saved first. -/
def State.rebind (s : State) (x part : Nat) (v : Saved) : Option State :=
  match s.pick false part v.seq.members.length with
  | .error _ => none
  | .ok (sq, cores) =>
    let moved := v.seq.members.zipIdx.filter fun e => (cores[e.2]? != some e.1) && !(v.stores.any fun t => t.1 == e.2)
    let s0 := moved.foldl (fun (t : State) e => t.saveStore x v e.2 e.1) s
    let v0 := ((s0.ctx x).bind fun c => c.saved.find? fun (w : Saved) => w.seq.order == v.seq.order).getD v
    let s1 := s0.modCtx x fun k => { k with saved := k.saved.filter fun (w : Saved) => w.seq.order != v.seq.order, resumes := k.resumes ++ [v0] }
    let moveId (m : Nat) : Nat := match v.seq.members.findIdx? fun k => k == m with | some r => (cores[r]?).getD m | none => m
    let pass := v0.seq.pass.map fun (p : PassInst) => { p with credits := p.credits.map moveId, settleCredits := p.settleCredits.map moveId }
    let s2 := (s1.setSeq sq { v0.seq with members := cores, preempting := true, pass := pass, fw := s.zenithVersion }).joinAll x sq v0.seq.kernel cores
    some (cores.zipIdx.foldl (fun (t : State) e =>
      let o := lookD v0.cores e.2 Core.idle
      let t1 := t.modCore e.1 fun k =>
        { o with member := k.member, lsEighths := k.lsEighths, lsHeld := k.lsHeld, clk := k.clk,
                 waking := k.waking, cap := k.cap, noNewTile := k.noNewTile,
                 rampPhase := k.rampPhase, faulty := k.faulty, held := k.held, saved := [] }
      let us := (v0.units.filter fun u => u.1 / 128 == e.2).map fun u => (e.1 * 128 + u.1 % 128, { u.2 with rate := 0, credit := 0, ready := false })
      { t1 with te := us.foldl (fun m u => put m u.1 u.2) t1.te, ge := put t1.ge e.1 (lookD v0.groups e.2 ⟨[], [], [], [], 0⟩) }) s2)

/-- Every saved constellation of a context bound again, earliest launched first; none where one of them finds no cores. -/
def State.rebindAll (s : State) (x part : Nat) : List Saved → Option State
  | [] => some s
  | v :: vs => match s.rebind x part v with
    | some t => t.rebindAll x part vs
    | none => none

/-- Whether a core of a partition is being wiped. -/
def State.partWiping (s : State) (part : Nat) : Bool :=
  match look s.objs.parts part with | some p => p.cores.any s.wiping | none => false

/-- CONTEXT_RESUME (R355): each saved constellation is bound again, or none with OBJ_BUSY; while cores of the partition are being wiped
a packet that finds too few waits (R311). -/
def execContextResume (port queue : Nat) (s : State) : Res :=
  .next (s.runPacket port queue 0x27 fun _ p x =>
    match s.subject port queue x p with
    | .error e => .error e
    | .ok (y, c) =>
      if c.state ≠ .live then refuse 0x6007
      else if (s.boundOf y).any fun e => e.2.preempting then .ok s
      else if c.saved.isEmpty then .ok (s.completePacket port queue p)
      else match (s.endPacket port queue).rebindAll y c.part c.saved with
        | none => if s.partWiping c.part then .ok s else refuse 0x600A
        | some t => .ok (t.modCtx y fun k =>
            { k with preemptFences := if p.fenceEn then k.preemptFences ++ [(p.fenceId, p.fenceValue)] else k.preemptFences }))

/-- Whether a save record passes the checks of R128 beside its digest: its grade and silicon revision are this device's, and its version
is one that the running firmware reads. Which versions a firmware reads the spec does not state: one other than the running one is
read or not by a free value (log 25). -/
def State.recordOk (s : State) (v : Saved) : Bool × State :=
  if v.heads.any fun h => h.2.grade != s.ident.grade || h.2.revision != s.ident.revision then (false, s)
  else if v.heads.all fun h => h.2.version == s.zenithVersion then (true, s)
  else let w := s.draw; (w.1.getLsbD 0, w.2)

/-- A resumed constellation's local stores reloaded where they were saved, and its units restarted (R128, R288). -/
def State.restart (s : State) (v : Saved) : State :=
  match s.seqs.find? fun e => e.2.order == v.seq.order with
  | none => s
  | some (sq, q) =>
    let s1 := q.members.zipIdx.foldl (fun (t : State) e =>
      match v.stores.find? fun c => c.1 == e.2 with
      | some c => t.loadCells e.1 c.2
      | none => t) s
    let s2 := q.members.foldl (fun (t : State) c => t.setReg (offTe c 0x28) (setFld (t.reg (offTe c 0x28)) 0 3 4)) s1
    s2.setSeq sq { q with preempting := false }

/-- A resume of a context ends in failure: last_ok of its members reads 0, and the context is killed (R128, R129). -/
def State.failResume (s : State) (x code : Nat) : State :=
  ((s.ctxCores x).foldl (fun (t : State) c => t.setField (offTe c 0x28) 2 1 0) s).faultCtx x code 0

/-- RESUME_DONE (R128, R231, R160): the records are checked and restored, and the streams go on; a record that fails its checks or its
digest kills the context, and so does one that reads uncorrectable (R307). -/
def execResumeDone (ctx : Nat) (records : RecordRead) (s : State) : Res :=
  .next (match s.ctx ctx with
  | none => s
  | some c =>
    if c.state ≠ .live || c.resumes.isEmpty || (s.boundOf ctx).any (fun e => e.2.members.any fun m => (s.core m).lsHeld != some ctx) then s
    else match records with
      | .uncorrectable => s.failResume ctx 0x4012
      | .badDigest => s.failResume ctx 0x2012
      | .sound =>
        let r := c.resumes.foldl (fun (t : Bool × State) v => let w := t.2.recordOk v; (t.1 && w.1, w.2)) (true, s)
        if r.1 then
          let s1 := c.resumes.foldl (fun (t : State) v => t.restart v) r.2
          (s1.modCtx ctx fun k => { k with resumes := [], preemptFences := [] }).signalAll c.preemptFences
        else r.2.failResume ctx 0x2012)

end Sys2Proof.Machine
end

