-- ==== Sys2Proof/Machine/Flash.lean ====
section
/-! DEFINITION. The boot flash as the window of R500 and the updates of R510 write it, and the checks of a firmware image (R492-R496). -/

namespace Sys2Proof.Machine

open Sys2Proof

/-! ### Slots (R493) -/

/-- Offset of a unit within a slot, and its size, in MiB (R493). -/
def unitMiB (u : Nat) : Nat × Nat :=
  match u with
  | 0 => (0, 2)
  | 1 => (2, 6)
  | 2 => (8, 1)
  | 3 => (9, 4)
  | 4 => (13, 10)
  | _ => (23, 1)

/-- Flash offset of a unit's slot: A false, B true (R493). -/
def slotBase (u : Nat) (b : Bool) : Nat := (if b then 0x280_0000 else 0x100_0000) + (unitMiB u).1 * 2 ^ 20

/-- Bytes of a unit's slot (R493). -/
def slotBytes (u : Nat) : Nat := (unitMiB u).2 * 2 ^ 20

/-- The unit and slot that a flash offset lies in. -/
def slotAt (o : Nat) : Option (Nat × Bool) :=
  ([false, true].flatMap fun b => (List.range 6).map fun u => (u, b)).find? fun e =>
    decide (slotBase e.1 e.2 ≤ o) && decide (o < slotBase e.1 e.2 + slotBytes e.1)

/-- Whether a flash offset lies in the operator area (R493). -/
def inOperator (o : Nat) : Bool := decide (0x8_0000 ≤ o) && decide (o < 0x18_0000)

/-- Bytes of the flash from an offset; an erased byte reads 0xFF. -/
def State.flashBytes (s : State) (o n : Nat) : List Byte := (List.range n).map fun i => lookD s.sec.flash (o + i) 0xFF

/-- Bytes programmed at an offset of the flash. -/
def flashPut (t : Tab Byte) (o : Nat) : List Byte → Tab Byte
  | [] => t
  | b :: bs => flashPut (if b = 0xFF then del t o else put t o b) (o + 1) bs

/-- A range of the flash erased. -/
def flashWipe (t : Tab Byte) (o n : Nat) : Tab Byte := t.filter fun e => e.1 < o || o + n ≤ e.1

/-- The entry of a slot in a unit. -/
def FwUnit.slot (u : FwUnit) (b : Bool) : FwSlot := if b then u.b else u.a

/-- The entry of a slot replaced. -/
def FwUnit.setSlot (u : FwUnit) (b : Bool) (k : FwSlot) : FwUnit := if b then { u with b := k } else { u with a := k }

/-- A firmware unit (R509). -/
def State.fwUnit (s : State) (u : Nat) : FwUnit := (s.sec.units[u]?).getD FwUnit.delivered

/-- A firmware unit changed. -/
def State.modFw (s : State) (u : Nat) (f : FwUnit → FwUnit) : State :=
  { s with sec := { s.sec with units := s.sec.units.set u (f (s.fwUnit u)) } }

/-- Image bytes at a flash offset: the header and the body whose length it gives, within a limit (R494). -/
def State.imageAt (s : State) (o limit : Nat) : List Byte :=
  s.flashBytes o (min limit (384 + leAt (s.flashBytes (o + 16) 4) 0 4))

/-- The image in a slot. -/
def State.slotImage (s : State) (u : Nat) (b : Bool) : List Byte := s.imageAt (slotBase u b) (slotBytes u)

/-! ### The boot directory (R493, R496) -/

/-- The code of a slot's state. -/
def SlotState.code : SlotState → Nat
  | .empty => 0
  | .committed => 1
  | .trial => 2
  | .invalid => 3

/-- The state of a code. -/
def SlotState.ofCode (n : Nat) : SlotState := if n = 1 then .committed else if n = 2 then .trial else if n = 3 then .invalid else .empty

/-- The 16 bytes of a slot's entry. -/
def FwSlot.bytes (k : FwSlot) : List Byte :=
  leBytes 4 k.seq ++ leBytes 1 k.state.code ++ leBytes 3 0 ++ leBytes 4 k.version ++ leBytes 1 k.secVer ++ leBytes 3 0

/-- What the directory holds: the entries by unit and slot; behind them the life-cycle state and the pending flag, whose places the spec
does not state (R507, log 3). -/
def State.dirContents (s : State) : List Byte :=
  (s.sec.units.flatMap fun w => w.a.bytes ++ w.b.bytes) ++
    leBytes 1 (match s.sec.lc with | .blank => 0 | .provisioned => 1 | .deployed => 2 | .service => 3 | .retired => 4) ++
    leBytes 1 (b2n s.sec.changePending.isSome)

/-- Whether a copy's digest is that of its contents. -/
def DirCopy.intact (k : DirCopy) : Bool := sha384 k.contents == k.digest

/-- The highest write count of the copies. -/
def State.dirCount (s : State) : Nat := s.sec.dir.foldl (fun n e => max n e.2.count) 0

/-- The directory written to its other copy, with the next write count (R493, R496). -/
def State.writeDir (s : State) : State :=
  let n := s.dirCount + 1
  let b := s.dirContents
  { s with sec := { s.sec with dir := put s.sec.dir (n % 2) ⟨b, sha384 b, n⟩ } }

/-- The valid copy with the higher write count (R496). -/
def State.validDir (s : State) : Option DirCopy :=
  s.sec.dir.foldl (fun (b : Option DirCopy) e =>
    if !e.2.intact then b else match b with | some k => if k.count < e.2.count then some e.2 else b | none => some e.2) none

/-- A slot's entry as the directory gives it. -/
def FwSlot.parse (k : FwSlot) (b : List Byte) : FwSlot :=
  { k with seq := leAt b 0 4, state := SlotState.ofCode (leAt b 4 1), version := leAt b 8 4, secVer := leAt b 12 1 }

/-- The slots as the ROM reads them from the directory (R496); before the first write they stand as delivered (log 3). -/
def State.readDir (s : State) : State :=
  match s.validDir with
  | none => s
  | some k => { s with sec := { s.sec with units := s.sec.units.zipIdx.map fun w =>
      { w.1 with a := w.1.a.parse (sliceBytes k.contents (32 * w.2) 16), b := w.1.b.parse (sliceBytes k.contents (32 * w.2 + 16) 16) } } }

/-! ### The checks of an image (R494) -/

/-- Whether a vendor key is the fused key of an index, and is not revoked (R494, R495). -/
def State.vendorKey (s : State) (i : Nat) (key : List Byte) : Bool :=
  decide (i < 4) && !(s.sec.revoked.contains i) && s.sec.vendorHashes[i]? == some (sha384 key)

/-- The code of the first check of R494 that an image for a unit fails; 0 for none. -/
def State.checkImage (s : State) (u minSec : Nat) (b : List Byte) : Nat :=
  let len := leAt b 16 4
  let key := sliceBytes b 0x80 97
  if b.length < 384 ∨ leAt b 0 4 ≠ 0x5746_4853 ∨ leAt b 4 1 ≠ u ∨ !(bit (leAt b 5 1) (match s.ident.grade with | .full => 0 | .tray => 1)) ∨
      s.ident.revision < leAt b 6 2 ∨ slotBytes u < 384 + len ∨ b.length < 384 + len then 0xA001
  else if !(s.vendorKey (leAt b 0x14 1) key) || !(ecdsaVerify key (b.take 0x100) (sliceBytes b 0x100 96)) ||
      sha384 (sliceBytes b 384 len) != sliceBytes b 0x40 48 then 0xA002
  else if leAt b 12 1 < minSec then 0xA003
  else 0

/-- The code of the first check that the image in a slot fails (R494); the image of manufacture passes all but the last by its making
(log 3). -/
def State.checkSlot (s : State) (u : Nat) (b : Bool) : Nat :=
  let k := (s.fwUnit u).slot b
  if k.delivered then (if k.secVer < (s.fwUnit u).minSecVer then 0xA003 else 0)
  else s.checkImage u (s.fwUnit u).minSecVer (s.slotImage u b)

end Sys2Proof.Machine
end

