-- ==== Sys2Proof/Machine/Modules.lean ====
section
/-! DEFINITION. The loader's checks of a module file (R165-R193) in the order of R194, steps 1 to 6: file header, sections, kernel
headers, requirements, streams. Every failure is a code with the detail of R194. -/

namespace Sys2Proof.Machine

open Sys2Proof

/-- A failed check: code, detail (R194). -/
abbrev Fail := Nat × Nat

/-- The detail of a rejection: section index, byte offset, kernel index (R194). -/
def where_ (sect off kern : Nat) : Nat := sect % 2 ^ 16 + off % 2 ^ 32 * 2 ^ 16 + kern % 2 ^ 16 * 2 ^ 48

/-- No section, or no kernel. -/
def noIdx : Nat := 0xFFFF

/-- A failure of the file as a whole, at a header field. -/
def headFail (code off : Nat) : Fail := (code, where_ noIdx off noIdx)

/-- A check: nothing, or its failure. -/
def need (ok : Bool) (f : Fail) : Except Fail Unit := if ok then .ok () else .error f

/-- A section table entry (R166). -/
structure Sect where
  type : Nat
  kernel : Nat
  reserved : Nat
  off : Nat
  size : Nat
  deriving DecidableEq, Repr

/-- A module file as parsed so far: its bytes up to file_size, its sections, the sections' kernel count. -/
structure ModFile where
  bytes : List Byte
  sects : List Sect
  kernels : Nat
  minor : Nat
  deriving DecidableEq, Repr

/-- Whether all bytes of a range are zero. -/
def zeros (b : List Byte) (o n : Nat) : Bool := (sliceBytes b o n).all fun x => x == 0

/-! ### Steps 1 to 3 (R165-R167) -/

/-- Whether a file header's magic, version and file_size stand, for a LOAD of so many bytes (R165). -/
def checkSize (count : Nat) (b : List Byte) : Bool :=
  leAt b 0 4 == 0x4E55_4550 && leAt b 4 2 == 1 && decide (128 ≤ leAt b 8 8) && decide (leAt b 8 8 ≤ count)

/-- Steps 1 and 2 of R194, of a LOAD of so many bytes: byte count, magic, version, file_size, digest. -/
def checkHead (count : Nat) (b : List Byte) : Except Fail Unit := do
  need (decide (128 ≤ count)) (headFail 0x9004 0x08)
  need (leAt b 0 4 == 0x4E55_4550) (headFail 0x9001 0)
  need (leAt b 4 2 == 1) (headFail 0x9002 4)
  let n := leAt b 8 8
  need (decide (128 ≤ n) && decide (n ≤ count)) (headFail 0x9004 0x08)
  need (sha384 (sliceBytes b 0x80 (n - 0x80)) == sliceBytes b 0x40 48) (headFail 0x9003 0x40)

/-- The `i`-th entry of a section table (R166). -/
def sectAt (b : List Byte) (tab i : Nat) : Sect :=
  let o := tab + 16 * i
  ⟨leAt b o 2, leAt b (o + 2) 2, leAt b (o + 4) 4, leAt b (o + 8) 4, leAt b (o + 12) 4⟩

/-- The failures of a list of checks, the first reported. -/
def checkAll {α : Type} (l : List α) (f : α → Except Fail Unit) : Except Fail Unit :=
  match l with
  | [] => .ok ()
  | x :: xs => match f x with | .error e => .error e | .ok _ => checkAll xs f

/-- A section table entry by itself (R166, R167): type, reserved word, kernel field, the owner its type asks for: none for REQS, a kernel
for the others but NAMES (DESIGN CHOICE, log 17). -/
def checkSect (kernels : Nat) (e : Sect × Nat) : Except Fail Unit :=
  let s := e.1
  let owner := if s.type = 1 then s.kernel == noIdx else if s.type = 8 then true else s.kernel != noIdx
  need (decide (1 ≤ s.type) && decide (s.type ≤ 8) && s.reserved == 0 && (s.kernel == noIdx || decide (s.kernel < kernels)) && owner)
    (0x9005, where_ e.2 0 s.kernel)

/-- The place of a section (R165): aligned, in the file, outside the header, the table and the sections before it. -/
def checkPlace (tab tabEnd size : Nat) (before : List Sect) (e : Sect × Nat) : Except Fail Unit :=
  let s := e.1
  let clear := decide (128 ≤ s.off) && !(decide (tab ≤ s.off) && decide (s.off < tabEnd)) &&
    !(decide (s.off < tabEnd) && decide (tab < s.off + s.size)) &&
    before.all fun t => !(decide (s.off < t.off + t.size) && decide (t.off < s.off + s.size))
  need (s.off % 64 == 0 && s.size % 8 == 0 && decide (s.off + s.size ≤ size) && clear) (0x9004, where_ e.2 0 s.kernel)

/-- The sections' places, each against those before it. -/
def checkPlaces (tab tabEnd size : Nat) : List Sect → List (Sect × Nat) → Except Fail Unit
  | _, [] => .ok ()
  | before, e :: es => match checkPlace tab tabEnd size before e with
    | .error x => .error x
    | .ok _ => checkPlaces tab tabEnd size (e.1 :: before) es

/-- The indices of the sections of a type and kernel. -/
def ModFile.find (m : ModFile) (type kernel : Nat) : List Nat :=
  (m.sects.zipIdx.filter fun e => e.1.type == type && e.1.kernel == kernel).map (·.2)

/-- The counts of R167 for one type of one kernel: exactly one, or at most one. -/
def ModFile.checkCount (m : ModFile) (kernel type : Nat) : Except Fail Unit :=
  match m.find type kernel with
  | [] => need (decide (6 ≤ type)) (0x9005, where_ noIdx 0 kernel)
  | [i] => match m.sects[i]? with
    | some s => need (!(decide (3 ≤ type) && decide (type ≤ 5) && decide (2 ^ 24 < s.size / 8))) (0x9006, where_ i 0 kernel)
    | none => .ok ()
  | _ :: i :: _ => .error (0x9005, where_ i 0 kernel)

/-- Step 3 of R194: header fields, section table and section placement (R165 to R167). -/
def checkSections (b : List Byte) : Except Fail ModFile := do
  let n := leAt b 8 8
  let tab := leAt b 0x10 4
  let count := leAt b 0x14 2
  let kernels := leAt b 0x16 2
  need (tab % 64 == 0 && decide (128 ≤ tab)) (headFail 0x9004 0x10)
  need (decide (1 ≤ count) && decide (count ≤ 1024)) (headFail 0x9005 0x14)
  need (decide (1 ≤ kernels) && decide (kernels ≤ 256)) (headFail 0x9005 0x16)
  need (zeros b 0x18 40) (headFail 0x9004 0x18)
  need (zeros b 0x70 16) (headFail 0x9004 0x70)
  need (decide (tab + 16 * count ≤ n)) (headFail 0x9004 0x10)
  let sects := (List.range count).map (sectAt b tab)
  checkAll sects.zipIdx (checkSect kernels)
  checkPlaces tab (tab + 16 * count) n [] sects.zipIdx
  let m : ModFile := ⟨b.take n, sects, kernels, leAt b 6 2⟩
  match m.find 1 noIdx with
  | [] => .error (0x9005, where_ noIdx 0 noIdx)
  | [_] => .ok ()
  | _ :: i :: _ => .error (0x9005, where_ i 0 noIdx)
  checkAll (List.range kernels) fun k => checkAll [2, 3, 4, 5, 6, 7] (m.checkCount k)
  .ok m

/-- The bytes of a section. -/
def ModFile.body (m : ModFile) (i : Nat) : List Byte :=
  match m.sects[i]? with
  | some s => sliceBytes m.bytes s.off s.size
  | none => []

/-! ### Step 4: kernels (R168-R170) -/

/-- A kernel with the indices of its sections: KERNEL, TE, GE, ME streams, and PROGRAM and CONST where it names them. -/
structure RawKernel where
  index : Nat
  sect : Nat
  te : Nat
  ge : Nat
  me : Nat
  prog : Option Nat
  const : Option Nat
  size : Nat
  lsEighths : Nat
  chans : List Binding
  passes : List (PassEnt × Nat)     -- with the offset of its entry
  deriving DecidableEq, Repr

/-- A channel binding (R169). -/
def binding (v : Nat) : Option Binding :=
  if v = 0 then some ⟨0, 0, 0⟩
  else
    let p := fld v 8 3
    let c := fld v 11 2
    if p = 0 ∨ 5 ≤ p ∨ c = 0 ∨ fld v 13 3 ≠ 0 then none else some ⟨fld v 0 8, p, c⟩

/-- The pass table from an offset (R170): `count` entries, each with its offset. -/
def passTable (k sect : Nat) (b : List Byte) : Nat → Nat → List (PassEnt × Nat) → Except Fail (List (PassEnt × Nat))
  | 0, _, acc => .ok acc
  | n + 1, o, acc =>
    let id := leAt b o 2
    let flags := leAt b (o + 2) 2
    let t := leAt b (o + 4) 2
    let len := 8 + (2 * t + 7) / 8 * 8
    if b.length < o + 8 ∨ 2 ≤ flags ∨ leAt b (o + 6) 2 ≠ 0 ∨ t = 0 ∨ 64 < t ∨ b.length < o + len ∨ acc.any (fun e => e.1.id == id) ∨
        !(zeros b (o + 8 + 2 * t) (len - 8 - 2 * t)) then .error (0x900C, where_ sect o k)
    else passTable k sect b n (o + len)
      (acc ++ [(⟨id, bit flags 0, (List.range t).map fun i => leAt b (o + 8 + 2 * i) 2⟩, o)])

/-- A KERNEL section (R168-R170), fields in the order of their offsets. -/
def ModFile.kernel (m : ModFile) (k : Nat) : Except Fail RawKernel := do
  let sect := (m.find 2 k).headD 0
  let b := m.body sect
  let bad (o : Nat) : Fail := (0x900C, where_ sect o k)
  need (decide (0x100 ≤ b.length)) (bad 0)
  let named (type i : Nat) : Bool := (m.find type k).contains i
  need (decide (1 ≤ leAt b 0 1) && decide (leAt b 0 1 ≤ 64)) (bad 0)
  need (decide (leAt b 1 1 ≤ 8)) (bad 1)
  need (leAt b 2 2 == 0) (bad 2)
  need (named 3 (leAt b 4 2)) (bad 4)
  need (named 4 (leAt b 6 2)) (bad 6)
  need (named 5 (leAt b 8 2)) (bad 8)
  need (leAt b 0xA 2 == noIdx || named 6 (leAt b 0xA 2)) (bad 0xA)
  need (leAt b 0xC 2 == noIdx || named 7 (leAt b 0xC 2)) (bad 0xC)
  need (decide (leAt b 0xE 2 ≤ 1024)) (bad 0xE)
  need (zeros b 0x10 48) (bad 0x10)
  checkAll (List.range 32) fun c => need (binding (leAt b (0x40 + 2 * c) 2)).isSome (bad (0x40 + 2 * c))
  need (zeros b 0x80 128) (bad 0x80)
  let passes ← passTable k sect b (leAt b 0xE 2) 0x100 []
  let opt (i : Nat) : Option Nat := if i = noIdx then none else some i
  .ok { index := k, sect := sect, te := leAt b 4 2, ge := leAt b 6 2, me := leAt b 8 2, prog := opt (leAt b 0xA 2),
        const := opt (leAt b 0xC 2), size := leAt b 0 1, lsEighths := leAt b 1 1,
        chans := (List.range 32).filterMap fun c => binding (leAt b (0x40 + 2 * c) 2), passes := passes }

/-- All of a list mapped, or the first failure. -/
def mapAll {α β : Type} (f : α → Except Fail β) : List α → Except Fail (List β)
  | [] => .ok []
  | x :: xs => match f x with
    | .error e => .error e
    | .ok y => match mapAll f xs with
      | .error e => .error e
      | .ok ys => .ok (y :: ys)

/-! ### Step 5: requirements (R171, R172) -/

/-- A capability of the device: present and its value (R171). -/
def capability (g : Grade) (maxMinor cap : Nat) : Option Nat :=
  match cap with
  | 0x0001 => some maxMinor
  | 0x0002 => some (if g = .full then 64 else 56)
  | 0x0010 => if g = .full then some 1 else none
  | 0x0011 => if g = .full then some 1 else none
  | 0x0012 => some 1
  | 0x0013 => some 1
  | 0x0014 => some 1
  | 0x0015 => some 1
  | _ => none

/-- A requirement met, or its failure (R171, R172): capability, op, reserved byte, value, and where it stands. -/
def require (g : Grade) (maxMinor cap op res value at_ : Nat) : Except Fail Unit :=
  if res ≠ 0 ∨ 2 ≤ op then .error (0x9011, at_)
  else match capability g maxMinor cap with
    | some v => need (op == 0 || decide (value ≤ v)) (0x9011, at_)
    | none => .error (if 0x0010 ≤ cap ∧ cap ≤ 0x001F then 0x9010 else 0x9011, at_)

/-- The length in words of a stream's opcode; none where it is undefined for the stream (R174, R176). -/
def opWords (e : Engine) (op : Nat) : Option Nat :=
  if op = 0 ∨ 2 ≤ op ∧ op ≤ 6 then some 1
  else match e with
    | .te => if op = 0x40 then some 4 else if op = 0x41 then some 2 else if op = 0x42 then some 1 else none
    | .ge => if op = 0x80 then some 3 else none
    | .me =>
      if op = 0xC0 ∨ op = 0xC2 ∨ op = 0xC6 ∨ op = 0xC8 then some 2
      else if op = 0xC1 ∨ op = 0xC3 ∨ op = 0xC4 ∨ op = 0xC5 ∨ op = 0xC7 then some 3 else none

/-- The capability that a mode of a matrix instruction implies (R172). -/
def modeCap (mode : Nat) : Option Nat := if mode = 0 then none else if mode = 3 then some 0x0013 else some 0x0014

/-- The words of a section. -/
def wordsOf : Nat → List Byte → List Nat
  | 0, _ => []
  | n + 1, b => match b with
    | [] => []
    | x :: xs => leNat ((x :: xs).take 8) :: wordsOf n ((x :: xs).drop 8)

/-- The capabilities that the instructions of a stream imply, with their offsets; the walk stops at an opcode that is undefined or an
instruction that reaches past the section (R172). -/
def streamCaps (e : Engine) : Nat → Nat → List Nat → List (Nat × Nat)
  | 0, _, _ => []
  | n + 1, o, ws => match ws with
    | [] => []
    | w :: rest => match opWords e (w % 256) with
      | none => []
      | some len =>
        if (w :: rest).length < len then []
        else
          let w1 := rest.headD 0
          let w2 := (rest.drop 1).headD 0
          let op := w % 256
          let cap := if op = 0x40 then modeCap (fld w 26 2) else if op = 0xC0 ∧ fld w1 32 32 ≠ 0 then some 0x0012
            else if op = 0xC1 ∧ fld w2 19 2 = 2 then some 0x0011 else if op = 0xC6 then some 0x0015 else none
          cap.toList.map (fun c => (c, o)) ++ streamCaps e n (o + 8 * len) ((w :: rest).drop len)

/-- The capabilities that the MX of thread code imply, with their offsets (R172). -/
def progCaps : Nat → Nat → List Nat → List (Nat × Nat)
  | 0, _, _ => []
  | n + 1, o, ws => match ws with
    | [] => []
    | w :: rest =>
      let op := w % 256
      let len := if op = 0x66 then 4 else 1
      if 0x67 ≤ op ∨ (w :: rest).length < len then []
      else (if op = 0x66 then ((modeCap (fld w 33 2)).map fun c => (c, o)).toList else []) ++
        progCaps n (o + 8 * len) ((w :: rest).drop len)

/-- The engine of a stream section's type (R166). -/
def sectEngine (type : Nat) : Option Engine := if type = 3 then some .te else if type = 4 then some .ge else if type = 5 then some .me else none

/-- The words of a section by its index. -/
def ModFile.words (m : ModFile) (i : Nat) : List Nat := wordsOf (m.body i).length (m.body i)

/-- The capabilities that a section's instructions imply, each with where it stands. -/
def ModFile.sectCaps (m : ModFile) (e : Sect × Nat) : List (Nat × Nat) :=
  let ws := m.words e.2
  let l := match sectEngine e.1.type with
    | some g => streamCaps g (ws.length + 1) 0 ws
    | none => if e.1.type = 6 then progCaps (ws.length + 1) 0 ws else []
  l.map fun c => (c.1, where_ e.2 c.2 e.1.kernel)

/-- Step 5 of R194: the declared and the implied requirements, in order (R171, R172). -/
def ModFile.requirements (m : ModFile) (g : Grade) (maxMinor : Nat) (ks : List RawKernel) : Except Fail Unit := do
  let rs := (m.find 1 noIdx).headD 0
  let b := m.body rs
  checkAll (List.range (b.length / 8)) fun i =>
    require g maxMinor (leAt b (8 * i) 2) (leAt b (8 * i + 2) 1) (leAt b (8 * i + 3) 1) (leAt b (8 * i + 4) 4) (where_ rs (8 * i) noIdx)
  require g maxMinor 1 1 0 m.minor (where_ noIdx 6 noIdx)
  let big := ks.foldl (fun (a : Nat) k => max a k.size) 0
  match ks.find? fun k => k.size == big with
  | some k => require g maxMinor 2 1 0 big (where_ k.sect 0 k.index)
  | none => .ok ()
  checkAll (m.sects.zipIdx.flatMap m.sectCaps) fun c => require g maxMinor c.1 0 0 0 c.2

/-! ### Step 6: streams (R173-R180) -/

/-- The prefixes of an instruction's word 0, or none where the fields are not allowed (R173, R175). -/
def prefixes (op w : Nat) : Option (Option (Nat × Nat) × Option Nat) :=
  let n := fld w 15 5
  let noPrefix := decide (2 ≤ op) && decide (op ≤ 6)
  if 16 < n ∨ n = 0 ∧ fld w 10 5 ≠ 0 ∨ fld w 25 1 = 0 ∧ fld w 20 5 ≠ 0 ∨ noPrefix ∧ (n ≠ 0 ∨ fld w 25 1 ≠ 0) then none
  else some (if n = 0 then none else some (fld w 10 5, n), if fld w 25 1 = 0 then none else some (fld w 20 5))

/-- The units and mode of a matrix instruction as the loader can judge them (R105, R106, R117, R118, R177). -/
def MatF.unitsOk (f : MatF) (m1 : Nat) : Bool :=
  match f.mode with
  | .full => decide (f.countLog2 ≤ 4) && decide (f.first + 2 ^ f.countLog2 ≤ 16) && f.quadrant == 0 && f.batch == 1
  | .thin => decide (f.countLog2 ≤ 4) && decide (f.first + 2 ^ f.countLog2 ≤ 16) && f.quadrant == 0 && f.batch == 1
  | .quad => f.countLog2 == 0 && f.batch == 1
  | .mv => f.countLog2 == 0 && f.quadrant == 0 && f.first == 0 && decide (f.batch ≤ 4) && m1 == 1

/-- A matrix instruction as the loader can judge it (R177, R178). -/
def MatF.loadOk (f : MatF) : Bool :=
  f.unitsOk f.m && (f.drain == .none || f.out != 0) && (f.drain != .none || f.tiles == 1)

/-- The bits of an instruction's words beyond the first that no field uses are clear (R173, R176, R177). -/
def reservedClear (op w w1 w2 w3 : Nat) : Bool :=
  let hi (n : Nat) : Bool := w / 2 ^ n == 0
  match op with
  | 0x00 => hi 26
  | 0x02 => hi 58
  | 0x03 => hi 26
  | 0x04 => hi 42
  | 0x05 => hi 42
  | 0x06 => hi 26
  | 0x40 => hi 42 && decide (w2 < 2 ^ 56) && decide (w3 < 2 ^ 32)
  | 0x41 => hi 42 && decide (w1 < 2 ^ 16)
  | 0x42 => hi 30
  | 0x80 => hi 26 && decide (w1 < 2 ^ 52) && decide (w2 < 2 ^ 32)
  | 0xC0 => hi 26
  | 0xC1 => hi 26 && decide (w1 < 2 ^ 32) && fld w2 28 20 == 0
  | 0xC2 => hi 26 && decide (w1 < 2 ^ 19)
  | 0xC3 => hi 26 && decide (w1 < 2 ^ 38) && decide (w2 < 2 ^ 16)
  | 0xC4 => hi 26 && decide (w2 < 2 ^ 32)
  | 0xC5 => hi 26 && decide (w1 < 2 ^ 32)
  | 0xC6 => hi 26 && fld w1 19 13 == 0
  | 0xC7 => hi 26 && decide (w1 < 2 ^ 20)
  | _ => hi 26 && decide (w1 < 2 ^ 32)

/-- The matrix fields of a MATMUL or DRAIN. -/
def streamMat (op w w1 w2 w3 : Nat) : Option MatF :=
  if op = 0x40 then matFields (fld w 26 16) w1 w2 w3
  else (matFields (fld w 26 16) 0 0 0).map fun f => { f with out := fld w1 0 16 }

/-- What a LAUNCH names lies in its kernel's sections, and its block fits the frames (R176, R217). -/
def launchOk (eighths : Nat) (prog const : Option (List Byte)) (w1 w2 : Nat) : Bool :=
  let entry := fld w1 0 32
  let k := fld w2 0 32
  match prog with
  | none => false
  | some p => entry % 8 == 0 && decide (entry < p.length) && k % 64 == 0 && decide (fld w1 32 4 + 1 ≤ min (eighths * 12) 64) &&
      match const with
      | some c => decide (k + 64 ≤ c.length)
      | none => k == 0

/-- An atomic's operation (R176). -/
def atomicOf (v : Nat) : Option AtomicKind := match v with | 0 => some .add | 1 => some .max | 2 => some .min | 3 => some .swap | _ => none

/-- The body of a stream instruction, or none where an operand is out of range (R176, R177). -/
def insnOf (eighths : Nat) (prog const : Option (List Byte)) (op w w1 w2 w3 : Nat) : Option Insn :=
  match op with
  | 0x00 => some .nop
  | 0x02 => if fld w 26 32 = 0 then none else some (.loop (fld w 26 32))
  | 0x03 => some .endloop
  | 0x04 => some (.passOpen (fld w 26 16))
  | 0x05 => some (.passSettle (fld w 26 16))
  | 0x06 => some .fin
  | 0x40 => (streamMat op w w1 w2 w3).bind fun f => if f.loadOk then some (.matmul f) else none
  | 0x41 => (streamMat op w w1 w2 w3).bind fun f => if f.drain != .none && f.unitsOk 1 then some (.drain f) else none
  | 0x42 => some (.txAccept (fld w 26 4 + 1))
  | 0x80 =>
    if launchOk eighths prog const w1 w2 then
      some (.launch (fld w1 0 32) (fld w1 32 4 + 1) (fld w1 36 16 + 1) (fld w2 0 32))
    else none
  | 0xC0 => some (.copy (fld w1 0 16) (fld w1 16 16) (fld w1 32 32))
  | 0xC1 =>
    if fld w2 19 2 = 3 then none
    else some (.copyRemote (fld w1 0 16) (fld w1 16 16) (fld w2 0 6) (fld w2 6 3) (fld w2 9 10) (fld w2 19 2) (fld w2 21 5)
      (bit w2 26) (bit w2 27) (fld w2 48 16))
  | 0xC2 => if 4 ≤ fld w1 16 3 then none else some (.hint (fld w1 0 16) (fld w1 16 3))
  | 0xC3 =>
    if 4 ≤ fld w1 32 4 ∨ fld w1 36 2 = 3 then none
    else some (.coll (fld w1 0 16) (fld w1 16 16) (fld w1 32 4) (fld w1 36 2) (fld w2 0 16))
  | 0xC4 =>
    some (.update (fld w1 0 16) (fld w1 16 16) (fld w1 32 16) (fld w1 48 16) (fld w2 0 16) (fld w2 16 16))
  | 0xC5 => if w2 = errorValue then none else some (.fence (fld w1 0 32) w2)
  | 0xC6 => some (.trigger (fld w1 0 3) (fld w1 3 16) (fld w1 32 32))
  | 0xC7 => (atomicOf (fld w1 16 4)).map fun o => .atomic (fld w1 0 16) o w2
  | _ => some (.hostPut (fld w1 0 16) (fld w1 16 16))

/-- A stream section word by word (R173-R180): `depth` loops are open, `ended` after its END, `last` the offset before. Answers its
instructions, or the code and the offset of the first that fails. -/
def parseStream (e : Engine) (eighths : Nat) (prog const : Option (List Byte)) :
    Nat → Nat → Nat → Nat → Bool → List Nat → List SInsn → Except (Nat × Nat) (List SInsn)
  | 0, _, last, _, _, _, _ => .error (0x9009, last)
  | n + 1, o, last, depth, ended, ws, acc => match ws with
    | [] => if ended then .ok acc.reverse else .error (0x9009, last)
    | w :: rest =>
      if ended then .error (0x9009, o)
      else
        let op := w % 256
        match opWords e op with
        | none => .error (0x9007, o)
        | some len =>
          let w1 := if 2 ≤ len then rest.headD 0 else 0
          let w2 := if 3 ≤ len then (rest.drop 1).headD 0 else 0
          let w3 := if 4 ≤ len then (rest.drop 2).headD 0 else 0
          if fld w 8 2 + 1 ≠ len ∨ (w :: rest).length < len ∨ !(reservedClear op w w1 w2 w3) then .error (0x9008, o)
          else match prefixes op w, insnOf eighths prog const op w w1 w2 w3 with
            | some (wait, sig), some body =>
              let depth' := if op = 2 then depth + 1 else if op = 3 then depth - 1 else depth
              if body.entries > 4096 then .error (0x900B, o)
              else if op = 2 ∧ 8 < depth' ∨ op = 3 ∧ depth = 0 ∨ op = 6 ∧ depth ≠ 0 then .error (0x9009, o)
              else parseStream e eighths prog const n (o + 8 * len) o depth' (op == 6) ((w :: rest).drop len)
                (⟨body, wait, sig, o⟩ :: acc)
            | _, _ => .error (0x9008, o)

/-- The streams of a section for a kernel. -/
def ModFile.stream (m : ModFile) (ks : List RawKernel) (e : Sect × Nat) : Except Fail (List SInsn) :=
  match sectEngine e.1.type, ks[e.1.kernel]? with
  | some g, some k =>
    let ws := m.words e.2
    match parseStream g k.lsEighths (k.prog.map m.body) (k.const.map m.body) (ws.length + 2) 0 0 0 false ws [] with
    | .ok l => .ok l
    | .error (code, o) => .error (code, where_ e.2 o e.1.kernel)
  | _, _ => .ok []

end Sys2Proof.Machine
end

