-- ==== Sys2Proof/Machine/Regions.lean ====
section
/-! DEFINITION. The loader's checks of pass marks and replay (R181, R184) and of thread code and its matrix regions (R185-R187): steps 6
and 7 of R194. -/

namespace Sys2Proof.Machine

open Sys2Proof

/-! ### Pass marks (R181) -/

/-- What R181 reads of a stream: loops that enclose a mark, their ends, and the marks. -/
inductive Mark where
  | loop (count : Nat) | close | open_ (id : Nat) | settle (id : Nat)
  deriving DecidableEq, Repr

/-- The marks of a stream with their offsets, newest first: a loop that encloses no mark leaves none. -/
def marksFrom : List SInsn → List (Mark × Nat) → List (Mark × Nat)
  | [], acc => acc
  | i :: is, acc =>
    marksFrom is (match i.body with
      | .loop n => (.loop n, i.off) :: acc
      | .endloop => match acc with
        | (.loop _, _) :: rest => rest
        | a => (.close, i.off) :: a
      | .passOpen id => (.open_ id, i.off) :: acc
      | .passSettle id => (.settle id, i.off) :: acc
      | _ => acc)

/-- The marks of a stream. -/
def streamMarks (l : List SInsn) : List (Mark × Nat) := (marksFrom l []).reverse

/-- The offset of the first mark that names an unlisted pass or is misplaced (R181). -/
def badMark (ids : List Nat) : List (Mark × Nat) → Option Nat
  | [] => none
  | (.open_ id, o) :: rest =>
    if !ids.contains id then some o
    else match rest with
      | (.settle j, _) :: more => if id = j then badMark ids more else some o
      | _ => some o
  | (.settle _, o) :: _ => some o
  | _ :: rest => badMark ids rest

/-- The pass marks of a kernel (R181): marks stream by stream, then pass table entries, then the streams' agreement. -/
def RawKernel.checkMarks (k : RawKernel) (te ge me : List SInsn) : Except Fail Unit := do
  let ids := k.passes.map fun p => p.1.id
  let stream (sect : Nat) (l : List SInsn) : Except Fail Unit :=
    match badMark ids (streamMarks l) with
    | some o => .error (0x900A, where_ sect o k.index)
    | none => .ok ()
  stream k.te te
  stream k.ge ge
  stream k.me me
  let seq (l : List SInsn) : List Mark := (streamMarks l).map (·.1)
  checkAll k.passes fun p =>
    need ((seq te ++ seq ge ++ seq me).any fun m => m == .open_ p.1.id) (0x900A, where_ k.sect p.2 k.index)
  need (seq te == seq ge && seq te == seq me) (0x900A, where_ k.sect 0x100 k.index)

/-! ### Replay (R184) -/

/-- The handles an instruction counts as sources and as destinations (R184); handle 0 names nothing. -/
def handlesOf (i : Insn) : List Nat × List Nat :=
  let r : List Nat × List Nat := match i with
    | .matmul f => ([f.a, f.b, f.init], [f.out])
    | .drain f => ([], [f.out])
    | .copy s d c => (if fld c 0 2 = 1 then [s, (s + 1) % 2 ^ 16] else [s], if fld c 0 2 = 2 then [d, (d + 1) % 2 ^ 16] else [d])
    | .copyRemote s _ _ _ _ _ _ _ _ _ => ([s], [])
    | .coll s d _ _ _ => ([s], [d])
    | .update r m g f t _ => ([r, m, g, f, t], [r, m])
    | .atomic t _ _ => ([t], [t])
    | .hostPut s _ => ([s], [])
    | _ => ([], [])
  (r.1.filter fun h => h != 0, r.2.filter fun h => h != 0)

/-- The instructions of a stream that lie in a pass, each with the pass. -/
def inPasses : Option Nat → List SInsn → List (Nat × SInsn)
  | _, [] => []
  | cur, i :: is =>
    match i.body with
    | .passOpen id => inPasses (some id) is
    | .passSettle _ => inPasses none is
    | _ => (cur.map fun p => (p, i)).toList ++ inPasses cur is

/-- The replay conflicts of a kernel (R184): the first instruction that writes a handle which its replayable pass reads. -/
def RawKernel.checkReplay (k : RawKernel) (te ge me : List SInsn) : Except Fail Unit :=
  let replayable (p : Nat) : Bool := k.passes.any fun e => e.1.id == p && e.1.replayable
  let all := inPasses none te ++ inPasses none ge ++ inPasses none me
  let reads (p h : Nat) : Bool := all.any fun e => e.1 == p && (handlesOf e.2.body).1.contains h
  let stream (sect : Nat) (l : List SInsn) : Except Fail Unit :=
    checkAll (inPasses none l) fun e =>
      need (!(replayable e.1 && (handlesOf e.2.body).2.any (reads e.1))) (0x9018, where_ sect e.2.off k.index)
  match stream k.te te with
  | .error e => .error e
  | .ok _ => match stream k.ge ge with
    | .error e => .error e
    | .ok _ => stream k.me me

/-! ### Thread code (R185, R209) -/

/-- Whether an opcode writes the register that dst names (R185). -/
def writesReg (op : Nat) : Bool :=
  if op < 0x1E then !Config.isCompare (BitVec.ofNat 8 op)
  else if op < 0x20 then op == 0x1E
  else if op < 0x40 then true
  else if op < 0x50 then Config.isLoad (BitVec.ofNat 8 op)
  else decide (op < 0x60)

/-- The words of thread code, one instruction after the other: opcode, length, destination, a conversion's format code (R17, R42), and
an MX's fields. -/
def checkWords : Nat → Nat → List Nat → Except (Nat × Nat) Unit
  | 0, _, _ => .ok ()
  | n + 1, o, ws => match ws with
    | [] => .ok ()
    | w :: rest =>
      let t := tword w
      let len := if t.op = 0x66 then 4 else 1
      if 0x67 ≤ t.op then .error (0x9007, o)
      else if t.words ≠ len ∨ (w :: rest).length < len ∨ writesReg t.op ∧ 48 ≤ t.dst then .error (0x9008, o)
      else if 0x20 ≤ t.op ∧ t.op < 0x40 ∧ Config.isConvert (BitVec.ofNat 8 t.op) ∧ 9 ≤ t.imm % 16 then .error (0x1001, o)
      else
        let mxOk :=
          if t.op = 0x66 then
            let w2 := (rest.drop 1).headD 0
            let w3 := (rest.drop 2).headD 0
            match matFields (fld w 33 16) (rest.headD 0) w2 w3 with
            | some f => f.loadOk && decide (w2 < 2 ^ 56) && decide (w3 < 2 ^ 32)
            | none => false
          else true
        if mxOk then checkWords n (o + 8 * len) ((w :: rest).drop len) else .error (0x9008, o)

/-! ### Matrix regions (R186, R187) -/

/-- The opcode at a position; none past the end. -/
def opAt (prog : List Byte) (pos : Nat) : Option Nat := (wordAt prog pos).map (·.op)

/-- The MR_BEGIN whose code a position stands in, as R186 puts it: after it, and no MR_END between; none outside every region. -/
def beginOf (prog : List Byte) (pos : Nat) : Option Nat :=
  let marks := (starts prog).filter fun p => decide (p < pos) && (opAt prog p == some 0x64 || opAt prog p == some 0x65)
  marks.getLast?.bind fun p => if opAt prog p = some 0x64 then some p else none

/-- Where control may go as the loader follows it. A BRX's targets are not in the code: it is followed to every instruction of the code
it stands in, that of its matrix region or that outside every region (log 17). -/
def flow (prog : List Byte) (pos : Nat) : List Nat :=
  match wordAt prog pos with
  | some w =>
    if w.op = 0x61 then
      ((starts prog).filter fun t => beginOf prog t == beginOf prog pos) ++ (if w.always then [] else [pos + 8])
    else succs prog pos
  | none => []

/-- The positions reached from a list without repeats, not going past the positions of a list. -/
def flowFrom (prog : List Byte) (stop : Nat → Bool) : Nat → List Nat → List Nat → List Nat
  | 0, _, seen => seen
  | _, [], seen => seen
  | n + 1, p :: ps, seen =>
    if p ∈ seen then flowFrom prog stop n ps seen
    else if stop p then flowFrom prog stop n ps (p :: seen)
    else flowFrom prog stop n (flow prog p ++ ps) (p :: seen)

/-- Whether a position holds an MR_END. -/
def isEnd (prog : List Byte) (p : Nat) : Bool := opAt prog p == some 0x65

/-- The region an MR_BEGIN opens (R186): what its paths reach, up to and with their MR_END. -/
def regionOf (prog : List Byte) (b : Nat) : List Nat := flowFrom prog (isEnd prog) (reachFuel prog) (flow prog b) []

/-- Whether a region is well formed (R186): its paths meet no MR_BEGIN, EXIT, BAR or end of the program before an MR_END, an MR_END can
be reached from everywhere in it, and nothing enters it but through its MR_BEGIN. -/
def regionOk (prog : List Byte) (entries : List Nat) (b : Nat) : Bool :=
  let r := regionOf prog b
  let outside := flowFrom prog (fun p => p == b) (reachFuel prog) entries []
  (r.all fun p => match opAt prog p with
    | none => false
    | some op => op != 0x64 && op != 0x62 && op != 0x63) &&
  (r.all fun p => (flowFrom prog (isEnd prog) (reachFuel prog) [p] []).any (isEnd prog)) &&
  r.all fun p => !(outside.contains p && p != b)

/-- What the loader knows uniform before an instruction: v registers and predicates (R187). -/
structure Uni where
  v : List Bool
  p : List Bool
  deriving DecidableEq, Repr

/-- Nothing uniform, as at a LAUNCH's entry. -/
def Uni.bottom : Uni := ⟨List.replicate 48 false, List.replicate 7 false⟩

/-- Everything uniform, before any path is known. -/
def Uni.top : Uni := ⟨List.replicate 48 true, List.replicate 7 true⟩

/-- What holds on both of two paths. -/
def Uni.meet (a b : Uni) : Uni := ⟨List.zipWith (· && ·) a.v b.v, List.zipWith (· && ·) a.p b.p⟩

/-- A register is uniform: a u register, or a v register known so (R187). -/
def Uni.reg (u : Uni) (r : Nat) : Bool := decide (48 ≤ r) || (u.v[r]?).getD false

/-- A guard is uniform: p7, or a predicate known so. -/
def Uni.guard (u : Uni) (w : TWord) : Bool := w.guard == 7 || (u.p[w.guard]?).getD false

/-- Whether an instruction's operands are all uniform (R187): register a in every class, b in an exchange or reduction, b and c
elsewhere where the opcode reads them as registers (R185). -/
def Uni.operands (u : Uni) (w : TWord) : Bool :=
  let reads (k : Nat) : Bool := k = 1 ∧ 0x50 ≤ w.op ∧ w.op < 0x60 ∨ Config.readsOperand (BitVec.ofNat 8 w.op) k
  if w.op = 0x1E ∨ w.op = 0x1F then u.reg w.a && u.reg w.b
  else u.reg w.a && (!reads 1 || u.reg w.b) && (!reads 2 || u.reg (w.imm % 64))

/-- What is uniform after an instruction (R187). A write under a guard leaves the value before it where the guard is false. -/
def Uni.after (u : Uni) (w : TWord) : Uni :=
  let new := (w.ua && decide (0x40 ≤ w.op) && decide (w.op < 0x50)) || u.operands w
  let put_ (old : Bool) : Bool := new && (w.always || u.guard w && old)
  if w.op = 0x1F ∨ w.op < 0x1E ∧ Config.isCompare (BitVec.ofNat 8 w.op) then
    { u with p := u.p.set (w.dst % 8) (put_ ((u.p[w.dst % 8]?).getD false)) }
  else if writesReg w.op then { u with v := u.v.set w.dst (put_ ((u.v[w.dst]?).getD false)) }
  else u

/-- One sweep over the instructions: each hands on what is uniform after it to where control may go. -/
def sweep (prog : List Byte) (ss : List Nat) (env : Tab Uni) : Tab Uni :=
  ss.foldl (fun (m : Tab Uni) p => match look m p, wordAt prog p with
    | some u, some w => (flow prog p).foldl (fun (m : Tab Uni) q => upd m q fun x => x.meet (u.after w)) m
    | _, _ => m) env

/-- Sweeps until nothing changes. -/
def sweeps (prog : List Byte) (ss : List Nat) : Nat → Tab Uni → Tab Uni
  | 0, env => env
  | n + 1, env =>
    let e := sweep prog ss env
    if e = env then env else sweeps prog ss n e

/-- The instructions from which the loader follows the code (R187): the entries of the launches; for code that none of them reaches,
the instructions that nothing leads to, and of what then remains the lowest of each part (log 17). -/
def walkEntries (prog : List Byte) (entries : List Nat) : List Nat :=
  let ss := starts prog
  (ss.filter (fun p => !(ss.any fun q => (flow prog q).contains p)) ++ ss).foldl (fun es p =>
    if (flowFrom prog (fun _ => false) (reachFuel prog) es []).contains p then es else es ++ [p]) entries

/-- What is uniform before every instruction (R187): nothing where the walk begins, and elsewhere what holds on every path there. -/
def uniformity (prog : List Byte) (entries : List Nat) : Tab Uni :=
  let ss := starts prog
  let es := walkEntries prog entries
  sweeps prog ss (ss.length * 56 + 1) (ss.map fun p => (p, if es.contains p then Uni.bottom else Uni.top))

/-- Whether a BRA, BRX or MX of a region keeps the group together (R187). -/
def regionInsnOk (prog : List Byte) (env : Tab Uni) (p : Nat) : Bool :=
  match wordAt prog p, look env p with
  | some w, some u =>
    if w.op = 0x60 ∨ w.op = 0x66 then u.guard w
    else if w.op = 0x61 then w.ua || u.reg w.a
    else true
  | _, _ => true

/-- Step 7 of R194 for one PROGRAM section: its words, the entries of its kernel's launches, its regions, the MX outside them, and what
can split a group inside one (R185-R187). -/
def checkProgram (prog : List Byte) (sect kern : Nat) (launches : List (Nat × Nat × Nat)) : Except Fail Unit := do
  match checkWords (prog.length + 1) 0 (wordsOf prog.length prog) with
  | .error (code, o) => .error (code, where_ sect o kern)
  | .ok _ => .ok ()
  let ss := starts prog
  checkAll launches fun l => need (ss.contains l.1) (0x9008, where_ l.2.1 l.2.2 kern)
  let entries := launches.foldl (fun l e => addNew l e.1) []
  let begins := ss.filter fun p => opAt prog p == some 0x64
  checkAll begins fun b => need (regionOk prog entries b) (0x9015, where_ sect b kern)
  let inside := begins.flatMap (regionOf prog)
  let mx := ss.filter fun p => opAt prog p == some 0x66
  checkAll mx fun p => need (inside.contains p) (0x9017, where_ sect p kern)
  let env := uniformity prog entries
  checkAll (ss.filter inside.contains) fun p => need (regionInsnOk prog env p) (0x9016, where_ sect p kern)

end Sys2Proof.Machine
end

