-- ==== Sys2Proof/Machine/Loader.lean ====
section
/-! DEFINITION. The loader (R165-R205): channel bindings and the symbolic run (R191-R193), all checks in order (R194), and the commands
LOAD, LOAD_START, LOAD_DONE. -/

namespace Sys2Proof.Machine

open Sys2Proof

/-! ### Step 8: bindings (R191) -/

/-- A stream instruction's prefixes and remote token against the bindings (R191). -/
def bindOk (chans : List Binding) (e : Engine) (i : SInsn) : Bool :=
  let b (ch : Nat) : Binding := (chans[ch]?).getD ⟨0, 0, 0⟩
  (match i.wait with | some (ch, _) => (b ch).producer != 0 && (b ch).consumer == engCode e | none => true) &&
  (match i.sig with | some ch => (b ch).producer == engCode e | none => true) &&
  (match i.body with | .copyRemote _ _ _ _ _ kind chan true _ _ => kind != 0 || (b chan).producer == 4 | _ => true)

/-- The bindings of one stream. -/
def checkBinds (k : RawKernel) (e : Engine) (sect : Nat) (l : List SInsn) : Except Fail Unit :=
  checkAll l fun i => need (bindOk k.chans e i) (0x9012, where_ sect i.off k.index)

/-! ### Step 9: the symbolic run (R192, R193) -/

/-- The symbolic run of one core: fetch positions, native entries taken and END reached, by stream, and channel counts. -/
structure Sim where
  te : Fetch
  ge : Fetch
  me : Fetch
  taken : List Nat
  done : List Engine
  counts : List Nat
  deriving DecidableEq, Repr

/-- The place of a stream in a list. -/
def engIdx (e : Engine) : Nat := engCode e - 1

/-- A stream's fetch position. -/
def Sim.fetch (m : Sim) : Engine → Fetch
  | .te => m.te
  | .ge => m.ge
  | .me => m.me

/-- A stream's fetch position set. -/
def Sim.setFetch (m : Sim) (e : Engine) (f : Fetch) : Sim :=
  match e with
  | .te => { m with te := f }
  | .ge => { m with ge := f }
  | .me => { m with me := f }

/-- A stream's next native entry taken, where it can be (R192): signals become visible at once, a wait on a REMOTE channel takes
nothing. -/
def Sim.step (m : Sim) (chans : List Binding) (e : Engine) (l : List SInsn) : Option Sim :=
  if m.done.contains e then none
  else
    let f := settleFetch l (2 * l.length + 2) (m.fetch e)
    match l[f.idx]? with
    | none => none
    | some i =>
      let next : Fetch := if f.sub + 1 < i.entries then { f with sub := f.sub + 1 } else { f with idx := f.idx + 1, sub := 0 }
      let m1 := { m.setFetch e next with taken := m.taken.set (engIdx e) ((m.taken.getD (engIdx e) 0) + 1) }
      match i.entry f.sub with
      | some (.wait ch n _) =>
        if ((chans[ch]?).getD ⟨0, 0, 0⟩).producer = 4 then some m1
        else if n ≤ m.counts.getD ch 0 then some { m1 with counts := m.counts.set ch (m.counts.getD ch 0 - n) }
        else none
      | some (.signal ch _) => some { m1 with counts := m.counts.set ch (m.counts.getD ch 0 + 1) }
      | some (.body .fin _) => some { m1 with done := e :: m.done }
      | _ => some m1

/-- The symbolic run (R192, R193): the failure's code with its stream or channel, or none. It stops after `limit` entries of a
stream. -/
def simulate (chans : List Binding) (te ge me : List SInsn) (limit : Nat) : Nat → Sim → Sim × Option Nat
  | 0, m => (m, none)
  | n + 1, m =>
    if m.taken.any fun t => decide (limit ≤ t) then (m, none)
    else match m.step chans .te te with
      | some t => simulate chans te ge me limit n t
      | none => match m.step chans .ge ge with
        | some t => simulate chans te ge me limit n t
        | none => match m.step chans .me me with
          | some t => simulate chans te ge me limit n t
          | none =>
            if m.done.length = 3 then
              (m, if m.counts.any fun c => decide (255 < c) then some 0x9013 else none)
            else (m, some 0x9014)

/-- Step 9 of R194 for a kernel: CHANNEL_OVERFLOW names the lowest channel, WAIT_STATIC the first stream that has not ended. -/
def RawKernel.checkRun (k : RawKernel) (limit : Nat) (te ge me : List SInsn) : Except Fail Unit :=
  let r := simulate k.chans te ge me limit (3 * limit + 4)
    ⟨⟨0, 0, []⟩, ⟨0, 0, []⟩, ⟨0, 0, []⟩, [0, 0, 0], [], k.chans.map (·.init)⟩
  match r.2 with
  | none => .ok ()
  | some 0x9013 =>
    let c := (r.1.counts.zipIdx.find? fun e => decide (255 < e.1)).elim 0 (·.2)
    .error (0x9013, where_ k.sect (0x40 + 2 * c) k.index)
  | some code =>
    let blocked (e : Engine) : Bool := !(r.1.done.contains e)
    let at_ (e : Engine) (l : List SInsn) : Nat :=
      ((l[(settleFetch l (2 * l.length + 2) (r.1.fetch e)).idx]?).map (·.off)).getD 0
    if blocked .te then .error (code, where_ k.te (at_ .te te) k.index)
    else if blocked .ge then .error (code, where_ k.ge (at_ .ge ge) k.index)
    else .error (code, where_ k.me (at_ .me me) k.index)

/-! ### All checks (R194) -/

/-- The launches of a stream: entry, section and offset. -/
def launchesOf (sect : Nat) (l : List SInsn) : List (Nat × Nat × Nat) :=
  l.filterMap fun i => match i.body with | .launch entry _ _ _ => some (entry, sect, i.off) | _ => none

/-- The checks of a module file, from a LOAD of so many bytes, in the order of R194, steps 1 to 9: its kernels, or the first failure. -/
def checkModule (g : Grade) (maxMinor limit count : Nat) (b : List Byte) : Except Fail (List Kernel) := do
  checkHead count b
  let m ← checkSections b
  let ks ← mapAll m.kernel (List.range m.kernels)
  m.requirements g maxMinor ks
  let streams ← mapAll (m.stream ks) m.sects.zipIdx
  let of_ (i : Nat) : List SInsn := (streams[i]?).getD []
  checkAll ks fun k => match k.checkMarks (of_ k.te) (of_ k.ge) (of_ k.me) with
    | .error e => .error e
    | .ok _ => k.checkReplay (of_ k.te) (of_ k.ge) (of_ k.me)
  checkAll (m.sects.zipIdx.filter fun e => e.1.type == 6) fun e =>
    let launches := match ks[e.1.kernel]? with
      | some k => if k.prog = some e.2 then launchesOf k.ge (of_ k.ge) else []
      | none => []
    checkProgram (m.body e.2) e.2 e.1.kernel launches
  checkAll ks fun k => match checkBinds k .te k.te (of_ k.te) with
    | .error e => .error e
    | .ok _ => match checkBinds k .ge k.ge (of_ k.ge) with
      | .error e => .error e
      | .ok _ => checkBinds k .me k.me (of_ k.me)
  checkAll ks fun k => k.checkRun limit (of_ k.te) (of_ k.ge) (of_ k.me)
  .ok (ks.map fun k =>
    { size := k.size, lsEighths := k.lsEighths, chans := k.chans, passes := k.passes.map (·.1), te := of_ k.te, ge := of_ k.ge,
      me := of_ k.me, program := k.prog.map m.body, const := k.const.map m.body })

/-! ### Commands (R194, R195) -/

/-- The Peunro minor version and firmware version of the running loader (R203): those first shipped, or the running image's. -/
def State.loaderVersion (s : State) : Nat × Nat :=
  let u := s.fwUnit 4
  let b := u.running.getD false
  if (u.slot b).delivered then (0, 1)
  else ((Config.imageMinor (s.slotImage 4 b)).toNat, (Config.imageFwVersion (s.slotImage 4 b)).toNat)

/-- Images held for a context (R195), those whose UNLOAD waits for their kernels among them (DESIGN CHOICE, log 17). -/
def State.modulesOf (s : State) (x : Nat) : Nat := (s.loader.modules.filter fun m => m.ctx == x).length

/-- The leading bytes of a load's file, or the code of what stops the read (R291, R307). -/
def State.filePart (s : State) (j : LoadJob) (n : Nat) : Except Nat (List Byte × List Piece) :=
  match s.translate j.ctx j.address n true false with
  | .error e => .error e
  | .ok l => if s.badPieces l then .error 0x4003 else .ok (s.seePieces l, l)

/-- The bytes the loader reads of a load: its file header, then the file up to file_size; bytes of the LOAD beyond file_size are not read,
nor anything of a file whose size does not fit (R165). -/
def State.loadFile (s : State) (j : LoadJob) : Except Nat (List Byte × List Piece) :=
  if j.bytes < 128 then .ok ([], [])
  else match s.filePart j 128 with
    | .error e => .error e
    | .ok h => if checkSize j.bytes h.1 then s.filePart j (leAt h.1 8 8) else .ok h

/-- What stops the reading of a load's file: the memory it touches (R564, R291). What reads uncorrectable the loader finds. -/
def State.fileFault (s : State) (j : LoadJob) : Option Nat :=
  match s.loadFile j with
  | .error e => if e = 0x4003 then none else some e
  | .ok _ => none

/-- LOAD (R335, R195): a load queued for the loader, where its queue and its context's modules have room and its file is mapped. A load
refused here has not reached the loader, and its counters do not count it (DESIGN CHOICE, log 17). -/
def execLoad (port queue : Nat) (s : State) : Res :=
  .next (s.runPacket port queue 0x10 fun _ p x =>
    match s.actor port x with
    | .error e => .error e
    | .ok _ =>
      if 16 ≤ s.loader.queue.length then refuse 0x9020
      else if 64 ≤ s.modulesOf x then refuse 0x9021
      else
        let j : LoadJob := { port := port, ctx := x, queue := queue, cq := p.cq, address := p.arg0, bytes := p.arg1,
                             fence := if p.fenceEn then some (p.fenceId, p.fenceValue) else none, source := p.fenceId,
                             verdict := none }
        match s.fileFault j with
        | some e => refuse e
        | none =>
          if !s.ringOk port p then refuse 0x8006
          else
            let s1 := s.endPacket port queue
            .ok { s1 with loader := { s1.loader with queue := s1.loader.queue ++ [j] } })

/-- LOAD_START (R194, R195, R204): the next queued load is taken, its file read and checked in order. -/
def execLoadStart (s : State) : Res :=
  .next (match s.loader.running, s.loader.queue with
  | none, j :: rest =>
    let s1 := s.adopt (offLr 0) 0 5
    let limit := 2 ^ clamp 16 24 (fld (s1.reg (offLr 0)) 0 5)
    let v : State × (Nat × Nat × List Kernel) := match s1.loadFile j with
      | .error e => (s1, (e, 0, []))
      | .ok (b, l) =>
        let s2 := (s1.readPieces 0 j.ctx l none).1
        match checkModule s.ident.grade s.loaderVersion.1 limit j.bytes b with
        | .error (code, detail) => (s2, (code, detail, []))
        | .ok ks => (s2, (0, 0, ks))
    { v.1 with loader := { v.1.loader with running := some { j with verdict := some v.2 }, queue := rest } }
  | _, _ => s)

/-- A load fails (R194, R205): nothing stays loaded, its fence enters the error state, and a rejection of the module is counted. -/
def State.rejectLoad (s : State) (j : LoadJob) (code detail : Nat) : State :=
  let s0 := { s with loader := { s.loader with running := none } }
  let s1 := if 0x9000 ≤ code ∨ code = 0x1001 then (s0.bump (offLr 0x20) 1).setReg (offLr 0x40) (code + j.ctx * 2 ^ 16) else s0
  let s2 := s1.bump (offBl j.port 0x68) 1
  match j.fence with
  | some (f, _) => s2.fenceError f code (some j.ctx) detail (0x10, j.queue)
  | none => s2

/-- A module stored: its handle goes to the completion queue, and the fence is signalled once that is written (R194). -/
def State.storeModule (s : State) (j : LoadJob) (ks : List Kernel) (bytes : Nat) : State :=
  let h := s.loader.nextHandle
  let m : Module := ⟨j.ctx, h, ks, bytes, none⟩
  let s1 := { s with
    loader := { s.loader with running := none, modules := s.loader.modules ++ [m], nextHandle := (h + 1) % 2 ^ 32 },
    host := { s.host with nextXid := s.host.nextXid + 1 } }
  let t := (s1.bump (offLr 0x18) 1).cqPost j.port j.cq
    { kind := 3, ctx := j.ctx, source := j.source, result := leBytes 4 h, data := [], offset := 0, last := true,
      owner := .packet j.fence 0x10 j.queue, xid := s.host.nextXid }
  match t.2, j.fence with
  | true, some (f, v) => t.1.signal f v
  | _, _ => t.1

/-- LOAD_DONE (R194, R195): the native image is stored, or the module rejected. The native image's size is a free value: the spec does
not document the native instruction set (log 17). -/
def execLoadDone (s : State) : Res :=
  .next (match s.loader.running with
  | some j => match j.verdict with
    | some (0, _, ks) =>
      if 64 ≤ s.modulesOf j.ctx then s.rejectLoad j 0x9021 0
      else
        let d := s.draw
        if 2 ^ 26 < d.1.toNat then d.2.rejectLoad j 0x900B (where_ noIdx 0 noIdx) else d.2.storeModule j ks d.1.toNat
    | some (code, detail, _) => s.rejectLoad j code detail
    | none => s
  | none => s)

end Sys2Proof.Machine
end

