-- ==== Sys2Proof/Machine/Spares.lean ====
section
/-! DEFINITION. Replacement of cores by spares (R455-R457): after a fault, and live with the save and resume of its constellation. -/

namespace Sys2Proof.Machine

open Sys2Proof

/-- The lowest-numbered spare of a core's die that no replacement in progress takes (R455). -/
def State.spareFor (s : State) (c : Nat) : Option Nat :=
  let taken (k : Nat) : Bool := match s.surv.spare with | some (_, r, _) => r == k | none => false
  ((List.range 68).map fun i => c / 68 * 68 + i).find? fun k => s.kind k == .spare && !(taken k)

/-- A core's kind set. -/
def State.setKind (s : State) (c : Nat) (k : CoreKind) : State := { s with ident := { s.ident with kinds := put s.ident.kinds c k } }

/-- The cores of every partition changed. -/
def State.mapParts (s : State) (f : List Nat → List Nat) : State :=
  s.modObjs fun o => { o with parts := o.parts.map fun e => (e.1, { e.2 with cores := f e.2.cores }) }

/-- A core retired and its spare in its partition's place (R455 step 7). -/
def State.swapIn (s : State) (c k : Nat) : State :=
  ((((s.setKind c .retired).setKind k .enabled).mapParts fun l => l.map fun m => if m = c then k else m).bump (offDk 0x830) 1).raise
    0xB807 (leBytes 2 c ++ leBytes 2 k)

/-- A core that has reported a fault is replaced once its context is torn down; without a spare its partition is one core smaller
(R455, R456). -/
def State.replaceDead (s : State) (c : Nat) : State :=
  let s1 := s.modCore c fun k => { k with faulty := false }
  match s1.spareFor c with
  | some k => s1.swapIn c k
  | none => (s1.setKind c .retired).mapParts fun l => drop1 l c

/-- A live trigger names a core: its replacement starts, waits for the one in progress, or cannot be made (R455, R456). A number that is no
core's (R7) names none. -/
def State.startReplace (s : State) (c : Nat) : State :=
  let going := match s.surv.spare with | some (d, _, _) => d == c | none => false
  if decide (1088 ≤ c) || s.kind c != .enabled || s.surv.spareDue.contains c || going then s
  else match s.spareFor c, s.surv.spare with
    | none, _ => s.raise 0xB808 (leBytes 2 c)
    | some k, none =>
      (s.modSurv fun v => { v with spare := some (c, k, 0) }).modCore c fun o => { o with noNewTile := true }
    | some _, some _ => s.modSurv fun v => { v with spareDue := v.spareDue ++ [c] }

/-- The cores whose replacement is due, in their order: each without a spare is recorded, until one starts (R455, R456). -/
def State.nextReplace : List Nat → State → State
  | [], s => s.modSurv fun v => { v with spareDue := [] }
  | d :: ds, s =>
    let t := (s.modSurv fun v => { v with spareDue := ds }).startReplace d
    if t.surv.spare.isSome then t else State.nextReplace ds t

/-- SPARE_GO (R455, R460): management names a core. -/
def execSpareGo (core : Nat) (s : State) : Res :=
  .next (if core < 2048 then (s.setField (offDk 0x820) 13 11 core).startReplace core else s)

/-- A seal close holds writes (R440 steps 3 to 5, R457). -/
def State.sealHolds (s : State) : Bool :=
  s.surv.prots.any fun e => e.2.holds

/-- REPLACEMENT_TILES_ENDED (R455 steps 2 and 3, R457): the core's constellation starts to be pre-empted; it waits for a seal close and
for a pre-emption or resume already under way. -/
def execReplacementTilesEnded (s : State) : Res :=
  .next (match s.surv.spare with
  | some (c, k, 0) =>
    let go (t : State) : State := t.modSurv fun v => { v with spare := some (c, k, 1) }
    if s.sealHolds then s
    else match s.coreSeq c with
      | some (sq, q) => if q.preempting then s else go (s.setSeq sq { q with preempting := true })
      | none => go s
  | _ => s)

/-- A number in a list replaced. -/
def swapNat (l : List Nat) (a b : Nat) : List Nat := l.map fun m => if m = a then b else m

/-- The rank of a core moved to its spare, with its engines' state and local store (R455 steps 4 and 5). -/
def State.moveRank (s : State) (sq : Nat) (q : Seq) (c k : Nat) : State :=
  let o := s.core c
  let n := s.core k
  let s1 := (s.loadCells k (s.storeCells c)).wipeCore c
  let s2 := (s1.setCore k { o with clk := n.clk, waking := n.waking, cap := n.cap, noNewTile := false, rampPhase := n.rampPhase,
                                   faulty := false, held := n.held }).setCore c
    { Core.idle with clk := o.clk, waking := o.waking, cap := o.cap, rampPhase := o.rampPhase, held := o.held }
  let te := s2.te.filter (fun e => e.1 / 128 != c && e.1 / 128 != k)
  let mine : Tab TeUnitSt := (s2.te.filter fun e => e.1 / 128 == c).map fun e => (k * 128 + e.1 % 128, e.2)
  let s3 := { s2 with te := mine.foldl (fun (m : Tab TeUnitSt) (e : Nat × TeUnitSt) => put m e.1 e.2) te,
                      ge := match look s2.ge c with | some g => put (del s2.ge c) k g | none => s2.ge }
  let pass := q.pass.map fun (p : PassInst) => { p with credits := swapNat p.credits c k, settleCredits := swapNat p.settleCredits c k }
  s3.setSeq sq { q with members := swapNat q.members c k, pass := pass }

/-- A constellation whose members were saved in place goes on, its units from rest (R126, R128, R231). -/
def State.resumeInPlace (s : State) (sq : Nat) : State :=
  match look s.seqs sq with
  | none => s
  | some q =>
    let s1 := q.members.foldl (fun (t : State) m => t.modCore m fun o => { o with saved := [] }) s
    let te : Tab TeUnitSt := s1.te.map fun (e : Nat × TeUnitSt) => if q.members.contains (e.1 / 128) then (e.1, { e.2 with rate := 0, credit := 0, ready := false }) else e
    { s1.setSeq sq { q with preempting := false } with te := te }

/-- The replacement in progress ends, and the next one due starts. -/
def State.endReplace (s : State) (c k : Nat) : State :=
  let s1 := ((s.modCore c fun o => { o with noNewTile := false }).swapIn c k).modSurv fun v => { v with spare := none }
  State.nextReplace s1.surv.spareDue s1

/-- SPARE_IN (R455 steps 4 to 7): every member has been saved; the spare takes the rank, and the constellation goes on. -/
def execSpareIn (s : State) : Res :=
  .next (match s.surv.spare with
  | some (c, k, 1) =>
    match s.coreSeq c with
    | some (sq, q) =>
      if q.members.all fun m => (s.core m).saved.length == 3 then ((s.moveRank sq q c k).resumeInPlace sq).endReplace c k else s
    | none =>
      (match s.storeOwner c with
        | some (z, v, r) => s.saveStore z v r c
        | none => s).endReplace c k
  | _ => s)

end Sys2Proof.Machine
end

