-- ==== Sys2Proof/Machine/Objects.lean ====
section
/-! DEFINITION. Object commands (R349-R371): partitions, contexts, jobs, submission queues, memory objects, mappings, fences, events,
and the teardown of a context (R374). -/

namespace Sys2Proof.Machine

open Sys2Proof

/-! ### Partitions (R350, R352, R353) -/

/-- The set bits of a bitmap. -/
def bitsOf (b : List Byte) : List Nat := b.zipIdx.flatMap fun e => (List.range 8).filterMap fun i =>
  if e.1.getLsbD i then some (8 * e.2 + i) else none

/-- Whether two ranges overlap. -/
def overlaps (a b : Nat × Nat) : Bool := decide (a.1 < b.1 + b.2) && decide (b.1 < a.1 + a.2)

/-- Whether a list of ranges overlaps itself. -/
def selfOverlap : List (Nat × Nat) → Bool
  | [] => false
  | r :: l => l.any (overlaps r) || selfOverlap l

/-- Whether a partition may be made of what a PART_CREATE names (R353, R421). -/
def State.partFree (s : State) (id : Nat) (cores slices : List Nat) (ranges : List (Nat × Nat)) : Bool :=
  (look s.objs.parts id).isNone && !cores.isEmpty && !slices.isEmpty && !selfOverlap ranges &&
    cores.all (fun c => s.kind c == .enabled) &&
    s.objs.parts.all (fun e => !(e.2.cores.any fun c => cores.contains c) && !(e.2.slices.any fun c => slices.contains c) &&
      !(e.2.ranges.any fun r => ranges.any (overlaps r))) &&
    !(ranges.any (overlaps (s.poolBase, s.poolPages * 0x20_0000)))

/-- PART_CREATE (R350, R353, R421). -/
def execPartCreate (port queue : Nat) (s : State) : Res :=
  .next (s.runPacket port queue 0x20 fun _ p _ =>
    let id := p.arg0 % 128
    let cores := bitsOf (sliceBytes p.payload 0 136)
    let slices := bitsOf (sliceBytes p.payload 136 64)
    let ranges := payloadRanges p.payload
    if !s.partFree id cores slices ranges then refuse 0x6009
    else
      let part : Part := ⟨fld p.arg0 7 2, bit p.arg0 9, fld p.arg0 10 8, cores, slices, ranges⟩
      .ok ((s.modObjs fun o => { o with parts := put o.parts id part }).completePacket port queue p))

/-- PART_DESTROY (R352): a partition without context and memory object is freed. -/
def execPartDestroy (port queue : Nat) (s : State) : Res :=
  .next (s.runPacket port queue 0x21 fun _ p _ =>
    let id := p.arg0 % 128
    if (look s.objs.parts id).isNone || s.objs.ctxs.any (fun e => e.2.part == id) || s.objs.mems.any (fun e => e.2.part == id) then
      refuse 0x6007
    else .ok ((s.modObjs fun o => { o with parts := del o.parts id }).completePacket port queue p))

/-! ### Contexts (R352, R356, R373) -/

/-- Whether the life-cycle state runs contexts (R504). -/
def State.runsContexts (s : State) : Bool := s.sec.lc == .deployed || s.sec.lc == .service

/-- A context as created (R356). -/
def newCtx (part : Nat) (key : W32) (debug : Bool) : Ctx :=
  { state := .live, part := part, key := key, debug := debug, job := none, cause := 0, ownerGone := false, maps := [],
    descTable := none, log := [], logSeq := 0, logLost := 0, rereads := 0, stall := 0, progress := false, saved := [],
    resumes := [], killFences := [], abortFences := [], preemptFences := [], kv := [] }

/-- CONTEXT_CREATE (R356, R353, R504): the lowest free id, and a key from the random source, a free value. -/
def execContextCreate (port queue : Nat) (s : State) : Res :=
  .next (s.runPacket port queue 0x22 fun _ p _ =>
    let id := p.arg0 % 128
    match look s.objs.parts id with
    | none => if s.runsContexts then refuse 0x6007 else refuse 0xA00B
    | some g =>
      if g.port ≠ port then refuse 0x600B
      else if !s.runsContexts then refuse 0xA00B
      else if bit p.arg0 7 && !g.debugAllowed then refuse 0x6007
      else match firstFree (fun k => (s.ctx k).isSome) (min 4096 (s.objs.ctxs.length + 1)) with
        | none => refuse 0x6008
        | some x =>
          if !s.ringOk port p then refuse 0x8006
          else
            let w := s.draw
            let key := w.1.setWidth 32
            let s1 := w.2.modObjs fun o => { o with ctxs := put o.ctxs x (newCtx id key (bit p.arg0 7)) }
            .ok (s1.completeWith port queue p.ctx p 3 p.fenceId [] (leBytes 2 x ++ leBytes 2 0 ++ leBytes 4 key.toNat)))

/-- CONTEXT_KILL (R374): the teardown starts, at whose end the packet's fence is signalled; on a context already in teardown or dead it
completes at once. -/
def execContextKill (port queue : Nat) (s : State) : Res :=
  .next (s.runPacket port queue 0x23 fun _ p x =>
    match s.subject port queue x p with
    | .error e => .error e
    | .ok (y, c) =>
      if c.state ≠ .live then .ok (s.completePacket port queue p)
      else
        let s1 := (s.endPacket port queue).teardown y 0x6002 false
        .ok (if p.fenceEn then s1.modCtx y fun k => { k with killFences := k.killFences ++ [(p.fenceId, p.fenceValue)] } else s1))

/-- The fences still held that a context owned, whose id is free from now on: number 4096 above it no context has (R352, R365). -/
def State.orphan (s : State) (x : Nat) : State :=
  s.modObjs fun o => { o with fences := o.fences.map fun f => (f.1, if f.2.owner = x ∧ f.2.held then { f.2 with owner := x + 4096 } else f.2) }

/-- CONTEXT_DESTROY (R352): a dead context is freed. -/
def execContextDestroy (port queue : Nat) (s : State) : Res :=
  .next (s.runPacket port queue 0x24 fun _ p x =>
    match s.subject port queue x p with
    | .error e => .error e
    | .ok (y, c) =>
      if c.state ≠ .dead then refuse 0x6007
      else .ok (((s.orphan y).modObjs fun o => { o with ctxs := del o.ctxs y }).completePacket port queue p))

/-- The 32 bytes of a log entry (R372). -/
def logBytes (e : LogEntry) : List Byte :=
  leBytes 4 e.seq ++ leBytes 2 e.code ++ leBytes 2 (b2n e.fault + 2 * b2n e.propagated) ++ leBytes 4 e.fence ++
    leBytes 4 (e.originCtx % 4096 + e.originNode % 1024 * 4096) ++ leBytes 8 e.detail ++ leBytes 8 (e.opcode % 256 + e.queue % 8192 * 256)

/-- The code of a context's life-cycle state (R373). -/
def ctxCode : CtxState → Nat
  | .live => 0
  | .teardown => 1
  | .dead => 2

/-- The 64 bytes of the status part (R373). -/
def State.statusPart (s : State) (x : Nat) (c : Ctx) : List Byte :=
  let job := match c.job.bind fun e => look s.objs.jobs e with | some j => j.id | none => 0xFFFF
  let queues := (s.objs.queues.filter fun q => q.2.owner == some x).length
  let fences := (s.objs.fences.filter fun f => f.2.owner == x && !f.2.held).length
  let mems := (s.objs.mems.filter fun m => m.2.owner == x && m.2.state == .live).length
  sliceBytes (leBytes 1 (ctxCode c.state) ++ leBytes 1 c.part ++ leBytes 2 job ++ leBytes 2 c.cause ++ leBytes 2 0 ++ leBytes 4 c.logSeq
    ++ leBytes 4 c.logLost ++ leBytes 8 c.rereads ++ leBytes 4 queues ++ leBytes 4 fences ++ leBytes 4 mems) 0 64

/-- CONTEXT_QUERY (R373): the status, the error log, or a fence. -/
def execContextQuery (port queue : Nat) (s : State) : Res :=
  .next (s.runPacket port queue 0x25 fun _ p x =>
    match s.subject port queue x p with
    | .error e => .error e
    | .ok (y, c) =>
      let give (data : List Byte) : Cmd :=
        if s.ringOk port p then .ok (s.completeWith port queue x p 3 p.fenceId [] data) else refuse 0x8006
      if p.arg1 % 4 = 0 then give (s.statusPart y c)
      else if p.arg1 % 4 = 1 then give ((c.log.filter fun e => decide (fld p.arg1 8 32 ≤ e.seq)).flatMap logBytes)
      else match s.fence p.arg2 with
        | some f =>
          if f.mayWait y then give (leBytes 8 f.value.toNat ++ leBytes 2 f.err ++ leBytes 2 (f.owner % 4096) ++ leBytes 4 0) else refuse 0x6004
        | none => refuse 0x6004)

/-! ### Jobs (R357) -/

/-- JOB_CREATE (R357, R504): a free job-table entry takes the id, the key and the counters. -/
def execJobCreate (port queue : Nat) (s : State) : Res :=
  .next (s.runPacket port queue 0x28 fun _ p _ =>
    let id := p.arg0 % 2 ^ 16
    if !s.runsContexts then refuse 0xA00B
    else if s.objs.jobs.any fun e => e.2.id == id then refuse 0x6009
    else match firstFree (fun k => (look s.objs.jobs k).isSome) (min 256 (s.objs.jobs.length + 1)) with
      | none => refuse 0x6008
      | some e =>
        let j : Job := ⟨id, BitVec.ofNat 64 p.arg1, fld p.arg0 16 2, leAt p.payload 0 8, leAt p.payload 8 8, [], false, none, false, []⟩
        .ok ((s.modObjs fun o => { o with jobs := put o.jobs e j }).completePacket port queue p))

/-- The job-table entry of a job id. -/
def State.jobEntry (s : State) (id : Nat) : Option (Nat × Job) := s.objs.jobs.find? fun e => e.2.id == id

/-- A context leaves its job's members. -/
def State.leaveJob (s : State) (x : Nat) : State :=
  (s.modObjs fun o => { o with jobs := o.jobs.map fun e => (e.1, { e.2 with members := drop1 e.2.members x }) }).modCtx x fun k =>
    { k with job := none }

/-- JOB_JOIN (R357). -/
def execJobJoin (port queue : Nat) (s : State) : Res :=
  .next (s.runPacket port queue 0x29 fun _ p x =>
    match s.subject port queue x p, s.jobEntry (fld p.arg0 12 16) with
    | .error e, _ => .error e
    | .ok _, none => refuse 0x6007
    | .ok (y, c), some (e, _) =>
      let leave := bit p.arg0 28
      if c.state ≠ .live || (if leave then c.job != some e else c.job.isSome) then refuse 0x6007
      else if !(s.boundOf y).isEmpty || !c.saved.isEmpty then refuse 0x600A
      else
        let s1 := if leave then s.leaveJob y
          else (s.modObjs fun o => { o with jobs := upd o.jobs e fun j => { j with members := j.members ++ [y] } }).modCtx y fun k =>
            { k with job := some e }
        .ok (s1.completePacket port queue p))

/-- JOB_DESTROY (R352): a job that no context has joined is freed, with its protection. -/
def execJobDestroy (port queue : Nat) (s : State) : Res :=
  .next (s.runPacket port queue 0x2A fun _ p _ =>
    match s.jobEntry (p.arg0 % 2 ^ 16) with
    | none => refuse 0x6007
    | some (e, j) =>
      if !j.members.isEmpty then refuse 0x6007
      else
        let s1 := { s with cores := s.cores.map fun (k : Nat × Core) => (k.1, { k.2 with lastVote := k.2.lastVote.filter fun v => v.1 / 2 ^ 16 != e }) }
        .ok ((s1.modObjs fun o => { o with jobs := del o.jobs e }).completePacket port queue p))

/-! ### The order of a command's own checks (R564 step 9) -/

/-- The right on an object stands before the states of what the command names: the failure of a right, then the rest. -/
def rightFirst (r : Option (Nat × Nat)) (rest : Cmd) : Cmd := match r with | some e => .error e | none => rest

/-- The right that an acting context lacks on a memory object: it is of another port, or another context owns the object. -/
def State.memRight (s : State) (port x h : Nat) : Option (Nat × Nat) :=
  if (s.ctx x).isSome && !s.onPort port x then some (0x600B, 0)
  else match look s.objs.mems h with | some o => if o.owner = x then none else some (0x600B, 0) | none => none

/-! ### Submission queues (R358) -/

/-- Submission queues held, the admin queues apart. -/
def State.queueCount (s : State) : Nat := (s.objs.queues.filter fun q => q.2.owner.isSome).length

/-- QUEUE_CREATE (R358, R153, R331): a queue whose record is published at creation. -/
def execQueueCreate (port queue : Nat) (s : State) : Res :=
  .next (s.runPacket port queue 0x2B fun _ p x =>
    match s.actor port x with
    | .error e => .error e
    | .ok _ =>
      let id := p.arg0 % 8192
      if (s.queue port id).isSome then refuse 0x6009
      else if 16384 ≤ s.queueCount then refuse 0x6008
      else if !s.inWindow port p.arg1 16 then refuse 0x8006
      else
        let k : SubQueue := ⟨some x, fld p.arg0 13 13, [], none, false, 0, 0, p.arg1⟩
        .ok (((s.setQueue port id k).publish port id).completePacket port queue p))

/-- The packets of a destroyed queue fail, one by one (R358). -/
def State.failQueued (s : State) (port id x : Nat) (l : List Packet) : State :=
  l.foldl (fun (t : State) r =>
    let t1 := t.bump (offBl port 0x68) 1
    if r.fenceEn && t1.maySignal x r.fenceId then t1.fenceError r.fenceId 0x6006 (some x) 0 (r.opcode, id) else t1) s

/-- QUEUE_DESTROY (R358): every packet still in the queue fails, one that has started and waits among them. -/
def execQueueDestroy (port queue : Nat) (s : State) : Res :=
  .next (s.runPacket port queue 0x2C fun _ p x =>
    rightFirst (match s.queue port p.arg0 with | some k => if k.owner = some x then none else some (0x600B, 0) | none => none) <|
    match s.actor port x with
    | .error e => .error e
    | .ok _ =>
      let id := p.arg0
      match s.queue port id with
      | none => refuse 0x6007
      | some k =>
        if k.owner ≠ some x then refuse 0x600B
        else
          let s1 := s.endPacket port queue
          let left := match s1.queue port id with | some k => k.running.toList ++ k.packets | none => []
          let s2 := { s1 with objs := { s1.objs with queues := del s1.objs.queues (port * 8192 + id) } }
          let s3 := s2.failQueued port id x left
          .ok (if p.fenceEn then s3.signal p.fenceId p.fenceValue else s3))

/-! ### Memory objects (R351, R352, R359-R362) -/

/-- Whether a page of an object overlaps a range. -/
def pageHits (o : MemObj) (r : Nat × Nat) : Bool := o.pages.any fun a => overlaps (a, pageBytes o.pageSize) r

/-- The first `n` pages of a size in a partition's ranges that no object of a list holds, ascending. -/
def freePages (part : Part) (held : List MemObj) (size n : Nat) : Option (List Nat) :=
  let b := pageBytes size
  let ranges : Tab Nat := part.ranges.foldl (fun t r => put t r.1 r.2) []
  let all := ranges.flatMap fun r => (List.range (r.2 / b)).map fun i => r.1 + i * b
  let free := all.filter fun a => !(held.any fun o => pageHits o (a, b))
  if n ≤ free.length then some (free.take n) else none

/-- MEM_ALLOC (R351, R311): pages of the partition's ranges, lowest first; an allocation that needs pages whose wipe runs waits for
it. -/
def execMemAlloc (port queue : Nat) (s : State) : Res :=
  .next (s.runPacket port queue 0x2D fun _ p x =>
    match s.actor port x with
    | .error e => .error e
    | .ok c => match look s.objs.parts c.part with
      | none => refuse 0x6007
      | some g =>
        let held := (s.objs.mems.map (·.2)).filter fun o => o.part == c.part
        if 262144 ≤ s.objs.mems.length then refuse 0x6008
        else match freePages g held (p.arg0 % 2) p.arg1 with
          | some pages =>
            if !s.ringOk port p then refuse 0x8006
            else
              let h := s.objs.nextMem
              let s1 := s.modObjs fun o => { o with mems := put o.mems h ⟨x, c.part, p.arg0 % 2, pages, .live, []⟩, nextMem := h + 1 }
              .ok (s1.completeWith port queue x p 3 p.fenceId [] (leBytes 4 h))
          | none =>
            if (freePages g (held.filter fun o => o.state != .wiping) (p.arg0 % 2) p.arg1).isSome then .ok s else refuse 0x600C)

/-- An object of the acting context (R350): its right comes before its state. -/
def State.ownMem (s : State) (x h : Nat) : Except (Nat × Nat) MemObj :=
  match look s.objs.mems h with
  | none => .error (0x6007, 0)
  | some o => if o.owner ≠ x then .error (0x600B, 0) else if o.state = .live then .ok o else .error (0x6007, 0)

/-- MEM_FREE (R360, R352): the owner's hold ends. -/
def execMemFree (port queue : Nat) (s : State) : Res :=
  .next (s.runPacket port queue 0x2E fun _ p x => rightFirst (s.memRight port x p.arg0) <|
    match s.actor port x with
    | .error e => .error e
    | .ok _ => match s.ownMem x p.arg0 with
      | .error e => .error e
      | .ok _ =>
        .ok ((s.modObjs fun k => { k with mems := upd k.mems p.arg0 fun o => { o with state := .freeing } }).settleFreeing.completePacket
          port queue p))

/-- Bytes of a mapping. -/
def Mapping.bytes (m : Mapping) : Nat := m.pages * pageBytes m.pageSize

/-- MEM_MAP (R359): its arguments are judged first, by the pages of the object it names (R564 steps 7 and 9). -/
def execMemMap (port queue : Nat) (s : State) : Res :=
  .next (s.runPacket port queue 0x2F fun _ p x =>
    let h := p.arg0 % 2 ^ 32
    match look s.objs.mems h with
    | none => match s.actor port x with | .error e => .error e | .ok _ => refuse 0x6007
    | some o =>
      let share := o.shares.find? fun t => t.1 == x
      let m : Mapping := ⟨p.arg1, fld p.arg2 32 32, o.pageSize, h, p.arg2 % 2 ^ 32, bit p.arg0 32, bit p.arg0 33⟩
      if m.va % pageBytes o.pageSize ≠ 0 ∨ o.pages.length < m.first + m.pages ∨ 2 ^ 56 < m.va + m.bytes then refuse 0x8003
      else if o.owner ≠ x ∧ share.isNone then refuse 0x600B
      else match s.actor port x with
      | .error e => .error e
      | .ok c =>
        if o.state ≠ .live then refuse 0x6007
        else if c.maps.any fun n => overlaps (n.va, n.bytes) (m.va, m.bytes) then refuse 0x6009
        else if m.write && o.owner != x && !(share.any fun t => t.2) then refuse 0x4002
        else .ok ((s.modCtx x fun k => { k with maps := k.maps ++ [m] }).completePacket port queue p))

/-- Whether every page of a range to unmap is mapped (R361): walked mapping by mapping from an address. -/
def Ctx.mapsAll (c : Ctx) : Nat → Nat → Nat → Bool
  | 0, _, n => n == 0
  | f + 1, a, n =>
    if n = 0 then true
    else match c.mapAt a with
      | none => false
      | some m =>
        let k := min n (m.va + m.bytes - a)
        c.mapsAll f (a + k) (n - k)

/-- What is wrong with a range to unmap (R361): first an argument (PKT_ARGS: a page of another size in it), then a page that is not mapped
(R564 steps 7 and 9). -/
def unmapFault (c : Ctx) (size a n : Nat) : Option Nat :=
  if c.maps.any fun m => m.pageSize != size && overlaps (m.va, m.bytes) (a, n) then some 0x8003
  else if c.mapsAll (c.maps.length + 1) a n then none else some 0x4001

/-- What stays of a mapping once a range is unmapped: the parts before and after it (R361). -/
def Mapping.without (m : Mapping) (a n : Nat) : List Mapping :=
  let b := pageBytes m.pageSize
  if overlaps (m.va, m.bytes) (a, n) then
    (if m.va < a then [{ m with pages := (a - m.va) / b }] else []) ++
      (if a + n < m.va + m.bytes then
        [{ m with va := a + n, first := m.first + (a + n - m.va) / b, pages := (m.va + m.bytes - (a + n)) / b }] else [])
  else [m]

/-- The tensors whose statistics records a transfer writes: the one it pins, its narrow destination, an UPDATE's narrow working copy
(R58, R298). -/
def Xfer.counted (v : Xfer) (tens : Tab Desc) : List Desc :=
  let own := match v.insn with
    | .hint _ 1 => v.descs.take 1
    | .copy _ _ _ => ((v.descs.drop 1).take 1).filter fun d => isNarrow d.fmt
    | .coll _ _ _ _ _ => ((v.descs.drop 1).take 1).filter fun d => isNarrow d.fmt
    | _ => []
  (own ++ ((look tens 6).toList.filter fun d => isNarrow d.fmt)).filter fun d => d.statsOff != 0

/-- Whether a transfer has translated an address of a range: a range of one of its tensors at its rank, or of its UPDATE's, or a
statistics record that it writes. -/
def State.xferTouches (s : State) (r : Nat) (v : Xfer) (g : Nat × Nat) : Bool :=
  let tens := match v.upd.bind fun u => look s.uu.updates u with | some k => k.tens | none => []
  let ds := v.descs ++ tens.map (·.2)
  let recs := (v.counted tens).map fun d => (d.statsBase, 64)
  let rule := match v.upd.bind fun u => look s.uu.updates u with | some k => [(k.base, 128)] | none => []
  (rule ++ recs ++ ds.flatMap fun d => (d.auxBase r, max 1 d.auxBytes) :: d.ranges r).any (overlaps g)

/-- The outstanding transfers of a context, by core and work, that translated an address of a range (R361). -/
def State.translators (s : State) (x : Nat) (g : Nat × Nat) : List (Nat × Nat) :=
  (s.boundOf x).flatMap fun q => q.2.members.zipIdx.flatMap fun e =>
    ((s.core e.1).xfers.filter fun v => s.xferTouches e.2 v.2 g).map fun v => (e.1, v.2.work)

/-- MEM_UNMAP (R361): the translations go at once; it completes after the transfers that translated a page of the range. -/
def execMemUnmap (port queue : Nat) (s : State) : Res :=
  .next (s.runPacket port queue 0x30 fun _ p x =>
    match s.actor port x with
    | .error e => .error e
    | .ok c => match c.mapAt p.arg1 with
      | none => refuse (if p.arg1 % pageBytes 1 = 0 then 0x4001 else 0x8003)
      | some m =>
        let b := pageBytes m.pageSize
        let n := p.arg2 * b
        if p.arg1 % b ≠ 0 then refuse 0x8003
        else match unmapFault c m.pageSize p.arg1 n with
          | some e => refuse e
          | none =>
            let work := s.translators x (p.arg1, n)
            let s1 := (s.modCtx x fun k => { k with maps := k.maps.flatMap fun m => m.without p.arg1 n }).settleFreeing
            if work.isEmpty then .ok (s1.completePacket port queue p)
            else
              let f := if p.fenceEn then some (p.fenceId, p.fenceValue) else none
              match firstFree (fun k => (look s1.objs.unmaps k).isSome) (s1.objs.unmaps.length + 1) with
              | some k => .ok ((s1.modObjs fun o => { o with unmaps := put o.unmaps k ⟨work, f⟩ }).endPacket port queue)
              | none => .ok s1)

/-- MEM_UNMAP_COMPLETE (R361): every transfer that translated a page of the range has completed. -/
def execMemUnmapComplete (unmap : Nat) (s : State) : Res :=
  .next (match look s.objs.unmaps unmap with
  | none => s
  | some u =>
    if u.work.any fun w => (s.core w.1).work.any fun k => k.2 == w.2 then s
    else
      let s1 := s.modObjs fun o => { o with unmaps := del o.unmaps unmap }
      match u.fence with | some (f, v) => s1.signal f v | none => s1)

/-- The right that a MEM_SHARE lacks (R360, R564 step 9): the object is another context's, or the context to share with is another
port's. -/
def State.shareRights (s : State) (port x h y : Nat) : Option (Nat × Nat) :=
  let mine := match look s.objs.mems h with | some o => o.owner == x | none => true
  if mine && ((s.ctx y).isNone || s.onPort port y) then none else some (0x600B, 0)

/-- MEM_SHARE (R360): a context of the same port may map the object. -/
def execMemShare (port queue : Nat) (s : State) : Res :=
  .next (s.runPacket port queue 0x31 fun _ p x => rightFirst (s.shareRights port x p.arg0 (p.arg1 % 4096)) <|
    match s.actor port x with
    | .error e => .error e
    | .ok _ => match s.shareRights port x p.arg0 (p.arg1 % 4096), s.ownMem x p.arg0, s.actor port (p.arg1 % 4096) with
      | some e, _, _ => .error e
      | none, .error e, _ => .error e
      | none, .ok _, .error e => .error e
      | none, .ok _, .ok _ =>
        let t := (p.arg1 % 4096, bit p.arg1 12)
        .ok ((s.modObjs fun k => { k with mems := upd k.mems p.arg0 fun o =>
          { o with shares := (o.shares.filter fun h => h.1 != t.1) ++ [t] } }).completePacket port queue p))

/-- DESC_TABLE_SET (R362). -/
def execDescTableSet (port queue : Nat) (s : State) : Res :=
  .next (s.runPacket port queue 0x32 fun _ p x =>
    match s.actor port x with
    | .error e => .error e
    | .ok c =>
      if !(s.boundOf x).isEmpty || !c.saved.isEmpty then refuse 0x600A
      else match s.translate x p.arg1 0x40_0000 true true with
        | .error e => refuse e
        | .ok _ => .ok ((s.modCtx x fun k => { k with descTable := some p.arg1 }).completePacket port queue p))

/-! ### Fences (R363-R369) -/

/-- A fence as created by a context, or imported as a proxy. -/
def newFence (x : Nat) (v : W64) (home : Option (Nat × Nat × Bool)) : Fence :=
  ⟨x, v, 0, false, [], none, [], home, none⟩

/-- The id that the next fence takes: the lowest free slot with its generation (R349). -/
def State.fenceId (s : State) : Option Nat :=
  (firstFree (fun k => s.objs.fences.any fun e => e.1 % 2 ^ 20 == k) (min (2 ^ 20) (s.objs.fences.length + 1))).map fun k =>
    k + lookD s.objs.fenceGen k 0 * 2 ^ 20

/-- FENCE_CREATE (R363, R349). -/
def execFenceCreate (port queue : Nat) (s : State) : Res :=
  .next (s.runPacket port queue 0x33 fun _ p x =>
    match s.actor port x, s.fenceId with
    | .error e, _ => .error e
    | .ok _, none => refuse 0x6008
    | .ok _, some f =>
      if !s.ringOk port p then refuse 0x8006
      else .ok ((s.modObjs fun o => { o with fences := put o.fences f (newFence x (BitVec.ofNat 64 p.arg2) none) }).completeWith
        port queue x p 3 p.fenceId [] (leBytes 4 f)))

/-- A live fence of the acting context (R367). -/
def State.ownFence (s : State) (x f : Nat) : Except (Nat × Nat) Fence :=
  match s.fence f with
  | some k => if k.owner = x ∧ !k.held then .ok k else .error (0x6004, 0)
  | none => .error (0x6004, 0)

/-- The right that an acting context lacks on a fence it is to own: it is of another port, or the fence is not its own (R367). -/
def State.fenceRight (s : State) (port x f : Nat) : Option (Nat × Nat) :=
  if (s.ctx x).isSome && !s.onPort port x then some (0x600B, 0)
  else match s.ownFence x f with | .error e => some e | .ok _ => none

/-- A fence that its owner gives up: held while a share or a proxy remains, else gone (R352). A change of state is pushed like any other
(R369). -/
def State.dropFence (s : State) (f : Nat) : State :=
  match s.fence f with
  | none => s
  | some k => (((s.noteHolders f).pushFence f k).modFence f fun k => { k with held := true }).settleHeld f

/-- FENCE_DESTROY (R368, R352): with waiters it first enters the error state. -/
def execFenceDestroy (port queue : Nat) (s : State) : Res :=
  .next (s.runPacket port queue 0x34 fun _ p x => rightFirst (s.fenceRight port x p.arg0) <|
    match s.actor port x with
    | .error e => .error e
    | .ok _ => match s.ownFence x p.arg0 with
      | .error e => .error e
      | .ok _ =>
        let s1 := s.endPacket port queue
        let s2 := if (s1.waitingOn p.arg0).isEmpty then s1 else s1.fenceError p.arg0 0x6005 (some x) 0 (p.opcode, queue)
        let s3 := s2.dropFence p.arg0
        .ok (if p.fenceEn then s3.signal p.fenceId p.fenceValue else s3))

/-- FENCE_SHARE (R367, R369): with a context, or exported to the owner's job. -/
def execFenceShare (port queue : Nat) (s : State) : Res :=
  .next (s.runPacket port queue 0x35 fun _ p x => rightFirst (s.fenceRight port x p.arg0) <|
    match s.actor port x with
    | .error e => .error e
    | .ok _ => match s.ownFence x p.arg0 with
      | .error e => .error e
      | .ok _ =>
        let y := p.arg1 % 4096
        let right := bit p.arg1 12
        if bit p.arg1 13 then .ok ((s.modFence p.arg0 fun k => { k with exported := some right }).completePacket port queue p)
        else if !s.live y then refuse 0x6007
        else .ok ((s.modFence p.arg0 fun k => { k with shares := (k.shares.filter fun h => h.1 != y) ++ [(y, right)] }).completePacket
          port queue p))

/-- FENCE_IMPORT (R369, R202): a proxy of a peer's fence. Whether the home grants it, the value it stands at and the export's signal
right come from the home: free values (log 31). -/
def execFenceImport (port queue : Nat) (s : State) : Res :=
  .next (s.runPacket port queue 0x36 fun _ p x =>
    match s.actor port x, s.fenceId with
    | .error e, _ => .error e
    | .ok c, id =>
      let node := if bit p.arg1 13 then fld p.arg1 3 10 else s.pins.strapTray * 8 + p.arg1 % 8
      if bit p.arg1 13 && s.ident.grade == .tray then .ok ((s.bump (offLr 0x30) 1).failPacket port queue x 0x9010 0 p)
      else if c.job.isNone then refuse 0x6004
      else match s.senderJob x false, id, s.unreachable node with
        | .error e, _, _ => refuse e
        | .ok _, none, _ => refuse 0x6008
        | .ok _, some _, some e => refuse e
        | .ok _, some f, none =>
          let w := s.draw
          if !w.1.getLsbD 0 then .ok (w.2.failPacket port queue x 0x6004 0 p)
          else if !s.ringOk port p then refuse 0x8006
          else
            let v := w.2.draw
            .ok ((v.2.modObjs fun o => { o with fences := put o.fences f (newFence x v.1 (some (node, p.arg0, w.1.getLsbD 1))) }).completeWith
              port queue x p 3 p.fenceId [] (leBytes 4 f)))

/-- FENCE_RESET (R368): value set, error state and code cleared; waiters whose target the value meets go on. -/
def execFenceReset (port queue : Nat) (s : State) : Res :=
  .next (s.runPacket port queue 0x37 fun _ p x => rightFirst (s.fenceRight port x p.arg0) <|
    match s.actor port x with
    | .error e => .error e
    | .ok _ => match s.ownFence x p.arg0 with
      | .error e => .error e
      | .ok _ =>
        let s1 := (s.modFence p.arg0 fun k => { k with value := BitVec.ofNat 64 p.arg2, err := 0, origin := none }).wake [p.arg0]
        .ok (s1.completePacket port queue p))

/-! ### Events (R371) -/

/-- EVENT_CREATE (R371, R370): an event armed at a target already met fires at once. -/
def execEventCreate (port queue : Nat) (s : State) : Res :=
  .next (s.runPacket port queue 0x38 fun _ p x =>
    rightFirst (if (s.ctx x).isSome && !s.onPort port x then some (0x600B, 0) else if s.mayWait x p.arg0 then none else some (0x6004, 0)) <|
    match s.actor port x with
    | .error e => .error e
    | .ok _ =>
      if !s.mayWait x p.arg0 then refuse 0x6004
      else if 65536 ≤ s.objs.events.length then refuse 0x6008
      else if !s.ringOk port p then refuse 0x8006
      else
        let h := s.objs.nextEvent
        let e : Event := ⟨x, port, p.arg0, BitVec.ofNat 64 p.arg1, p.arg2, false⟩
        let s1 := (s.modObjs fun o => { o with events := put o.events h e, nextEvent := h + 1 }).completeWith port queue x p 3 p.fenceId []
          (leBytes 4 h)
        .ok (match s1.fence p.arg0 with
          | some k => if k.err ≠ 0 ∨ e.target.toNat ≤ k.value.toNat then s1.fireEvent h e k else s1
          | none => s1))

/-- EVENT_DESTROY (R352). -/
def execEventDestroy (port queue : Nat) (s : State) : Res :=
  .next (s.runPacket port queue 0x39 fun _ p x =>
    rightFirst (match look s.objs.events p.arg0 with | some e => if e.owner = x then none else some (0x600B, 0) | none => none) <|
    match s.actor port x with
    | .error e => .error e
    | .ok _ => match look s.objs.events p.arg0 with
      | none => refuse 0x6007
      | some e =>
        if e.owner ≠ x then refuse 0x600B
        else .ok ((s.modObjs fun o => { o with events := del o.events p.arg0 }).completePacket port queue p))

/-! ### The end of a teardown (R374 steps 3 to 6) -/

/-- Fences of entries that a core has not yet taken, those that its wake port holds among them (R152). -/
def Core.entryFences (k : Core) : List Nat :=
  let carried (e : Entry) : Option Nat := match e with | .body (.fence id _) _ => some id | _ => none
  k.meQ.filterMap carried ++ k.held.filterMap fun h => match h with | .entry _ e => carried e | _ => none

/-- The fences of a context's packets that wait for room in completion queues. -/
def State.waitingFences (s : State) (x : Nat) : List Nat :=
  s.host.cqs.flatMap fun q => q.2.waiting.filterMap fun e =>
    match e.owner with | .packet (some f) _ qu => if e.ctx = x ∧ qu ≠ 0 then some f.1 else none | _ => none

/-- The fences that a context's aborted work carries: of its launches, of FENCE entries in its cores' queues, of packets that
wait for room in a completion queue, of packets and loads discarded before, of unloads and of pre-emptions. -/
def State.abortedFences (s : State) (x : Nat) (c : Ctx) : List Nat :=
  let seqs := (s.boundOf x).map (·.2)
  let qs := seqs ++ c.saved.map (·.seq)
  let launch := qs.filterMap fun q => q.fence.map (·.1)
  let entries := seqs.flatMap (fun q => q.members.flatMap fun m => (s.core m).entryFences) ++
    c.saved.flatMap fun v => v.cores.flatMap fun k => k.2.entryFences
  let unloads := s.loader.modules.filterMap fun m => if m.ctx = x then m.unloading.bind fun f => f.map (·.1) else none
  launch ++ entries ++ unloads ++ s.waitingFences x ++ c.abortFences ++ c.preemptFences.map (·.1)

/-- The work of a context on engines, units, the loader, the links and the caches stops, and its cores and sequencers are free
(R374 steps 2 and 5, R195, R265). -/
def State.dropWork (s : State) (x : Nat) : State :=
  let members := (s.boundOf x).flatMap fun q => q.2.members
  let s1 := members.foldl (fun (t : State) c => t.freeCore c) { s with seqs := s.seqs.filter fun e => e.2.ctx != x }
  let cqs := s1.host.cqs.map fun (q : Nat × CqState) => (q.1, { q.2 with waiting := q.2.waiting.filter fun e =>
    !(e.ctx == x && match e.owner with | .packet _ _ qu => qu != 0 | .put _ _ => true | .event _ => true) })
  let misses := s1.cache.misses.map fun (m : Nat × Miss) =>
    (m.1, { m.2 with reader := match m.2.reader with | some (c, k) => if members.contains c then none else some (c, k) | none => none })
  (List.range 32).foldl State.adoptRate ({ s1 with
    host := { s1.host with cqs := cqs }, fab := { s1.fab with colls := s1.fab.colls.filter fun k => k.2.ctx != x },
    uu := { s1.uu with updates := s1.uu.updates.filter fun u => u.2.ctx != x }, cache := { s1.cache with misses := misses },
    loader := { s1.loader with modules := s1.loader.modules.filter fun m => m.ctx != x } }.dropReqs fun r => r.ctx == x && r.owner.isSome)

/-- The fences, shares, events and queues of a context released (R374, R352). -/
def State.dropObjects (s : State) (x : Nat) : State :=
  let fs := s.objs.fences.map fun (f : Nat × Fence) => (f.1, { f.2 with shares := f.2.shares.filter fun h => h.1 != x,
                                                                        held := f.2.held || f.2.owner == x })
  let mems := s.objs.mems.map fun (m : Nat × MemObj) => (m.1, { m.2 with shares := m.2.shares.filter fun h => h.1 != x })
  let s1 := s.modObjs fun o => { o with
    mems := mems, fences := fs, events := o.events.filter fun e => e.2.owner != x, queues := o.queues.filter fun q => q.2.owner != some x }
  fs.foldl (fun (t : State) f => t.settleHeld f.1) s1

/-- The local stores that a context leaves on cores belong to no context any longer: the number 4096 is no context id, so the next
context to take such a core finds it to be wiped (R311). -/
def State.disown (s : State) (x : Nat) : State :=
  { s with cores := s.cores.map fun e => (e.1, if e.2.lsHeld = some x then { e.2 with lsHeld := some 4096 } else e.2) }

/-- An error attached to a fence whose owner ends: the nodes that may hold a proxy are told of it, also where the fence had erred before
(R369). -/
def State.endFence (s : State) (f code : Nat) (by_ : Option Nat) : State :=
  let t := s.noteHolders f
  let u := t.fenceError f code by_ 0 srcStream
  match t.fence f with
  | some k => if k.err = 0 then u else u.pushFence f k
  | none => u

/-- TEARDOWN_ABORT_DONE (R374 steps 3 to 6): the aborted work has stopped. Its fences, and those carried that it may signal (R367), err
with the cause, translations are revoked, cores
are freed and kill packets completed, freed objects are wiped, and the context is DEAD, or FREE with its owner gone. -/
def execTeardownAbortDone (ctx : Nat) (s : State) : Res :=
  .next (match s.ctx ctx with
  | none => s
  | some c =>
    if c.state ≠ .teardown then s
    else
      let owned := (s.objs.fences.filter fun f => f.2.owner == ctx && !f.2.held).map (·.1)
      let carried := (s.abortedFences ctx c).filter fun f => !owned.contains f && s.maySignal ctx f
      let by_ := if c.ownerGone then none else some ctx
      let bad := ((s.boundOf ctx).flatMap fun q => q.2.members).filter fun m => (s.core m).faulty
      let s0 := s.dropWork ctx
      let s1 := (owned ++ carried.eraseDups).foldl (fun (t : State) f => t.endFence f c.cause by_) s0
      let s2 := (s1.leaveJob ctx).modCtx ctx fun k =>
        { k with maps := [], descTable := none, state := .dead, saved := [], resumes := [], abortFences := [], preemptFences := [],
                 killFences := [] }
      let s3 := (s2.disown ctx).signalAll c.killFences
      let mems := s3.objs.mems.map fun (m : Nat × MemObj) =>
        if m.2.owner = ctx ∧ m.2.state = .live then (m.1, { m.2 with state := MemState.freeing }) else m
      let s4 := ({ s3 with objs := { s3.objs with mems := mems } }.dropObjects ctx).settleFreeing
      let s5 := bad.foldl (fun (t : State) m => t.replaceDead m) s4
      if c.ownerGone then (s5.orphan ctx).modObjs fun o => { o with ctxs := del o.ctxs ctx } else s5)

end Sys2Proof.Machine
end

