-- ==== Sys2Proof/Machine/Links.lean ====
section
/-! DEFINITION. The links (R321-R328, R341-R343, R378-R385): flits and keepalives, training and the loss of a Burob port, live retrains of
halves, and the completion queues' room. -/

namespace Sys2Proof.Machine

open Sys2Proof

/-! ### Halves and hub dies (R321, R378, R379, R515) -/

/-- A hub die serves its lanes: active, standby or spare (R517). -/
def State.hubServes (s : State) (h : Nat) : Bool :=
  match s.sec.hubs[h]? with
  | some .active => true
  | some .standby => true
  | _ => false

/-- The halves that hub dies serve, of a link whose halves lie on hub dies h and h + 1. -/
def State.servedHalves (s : State) (h : Nat) : Nat := b2n (s.hubServes (h % 4)) + 2 * b2n (s.hubServes ((h + 1) % 4))

/-- The two bits that two masks of halves share. -/
def andHalves (a b : Nat) : Nat := b2n (bit a 0 && bit b 0) + 2 * b2n (bit a 1 && bit b 1)

/-- One half's bit. -/
def halfBit (h : Nat) : Nat := 2 ^ (h % 2)

/-- Whether links train: the device is booted, and its dusk and link units run (R498, R499). -/
def State.linksTrain (s : State) : Bool :=
  s.alive && s.sec.bootDone && (s.sec.units.take 2).all fun u => u.running.isSome

/-! ### Flits (R323-R325, R381-R384) -/

/-- The state that SF_PORT_STATUS shows of a scale-out port: one that is down while links train is in training (R402, R416, R498, log 45). -/
def State.sfShown (s : State) (p : Nat) : Nat :=
  let v := s.sfState p
  if v = 0 ∧ s.linksTrain ∧ s.ident.grade ≠ .tray ∧ s.servedHalves p ≠ 0 then 1 else v

/-- KEEPALIVE_SEND (R325, R384): a flit of its own on a link that has been idle. -/
def execKeepaliveSend (link : Link) (s : State) : Res :=
  .next (if s.linkUp link then s.bump (linkRegs link).2.1 1 else s)

/-! ### Room in completion queues (R341) -/

/-- A completion entry that waited has been written: a packet's last one signals its fence, a HOST_PUT has one piece less to wait for
(R336, R341). -/
def State.entryWritten (s : State) (e : CqEntry) : State :=
  match e.owner with
  | .packet (some (f, v)) _ _ => if e.last then s.signal f v else s
  | .packet none _ _ => s
  | .put c slot => (s.modXfer c slot fun x => { x with pieces := x.pieces - 1 }).goOn c
  | .event _ => s

/-- The entries that wait at a completion queue are written in order while there is room and the port is up (R341, R342). -/
def State.cqDrain : Nat → State → Nat → Nat → State
  | 0, s, _, _ => s
  | n + 1, s, p, c =>
    match (s.cq p c).waiting with
    | [] => s
    | e :: rest =>
      if !(s.cqEnabled p c) then s
      else match s.cqRoom p c e.data.length with
        | some (pad, place) =>
          if !(s.cqFits p pad e.data.length) then s else
          let s1 := s.setCq p c { s.cq p c with waiting := rest }
          State.cqDrain n ((s1.cqWrite p c e pad place).entryWritten e) p c
        | none => s

/-! ### Burob ports down and trained (R325, R326, R333, R342, R343) -/

/-- The entries that wait at the completion queues of a port are written, as far as there is room (R342). -/
def State.cqDrainPort (s : State) (p : Nat) : State :=
  (List.range 256).foldl (fun (t : State) c => t.cqDrain (t.cq p c).waiting.length p c) s

/-- The fences of the admin queue's packets that wait for room in a port's completion queues, with their sources. -/
def State.adminFences (s : State) (p : Nat) : List (Nat × Nat × Nat) :=
  (List.range 256).flatMap fun c => (s.cq p c).waiting.filterMap fun e =>
    match e.owner with | .packet (some f) op 0 => some (f.1, op, 0) | _ => none

/-- The owner of a port is gone (R343): what waits for it in completion queues is gone with it, the admin queue's too, and errs its
fence. -/
def State.ownerGone (s : State) (p : Nat) : State :=
  let k := s.port p
  let n := (k.session + 1) % 2 ^ 16
  let own := (s.objs.ctxs.filter fun c => s.ctxPort c.1 == some p).map (·.1)
  let s0 := (s.setWire (.burob p) Wire.rest).setPort p { k with heldWrites := [], session := n, grace := false }
  let s1 := own.foldl (fun (t : State) x => t.modCtx x fun y => { y with abortFences := y.abortFences ++ s.waitingFences x }) s0
  let s2 := (s.adminFences p).foldl (fun (t : State) f => t.fenceError f.1 0x6002 none 0 f.2)
    (own.foldl (fun (t : State) x => t.teardown x 0x6002 true) s1)
  let s3 := (List.range 256).foldl (fun (t : State) c =>
    let u := if (t.cq p c).waiting.isEmpty then t else t.setCq p c { t.cq p c with waiting := [] }
    if bit (u.cqCtl p c) 0 then u.setField (offCq p c 0) 0 1 0 else u) s2
  (s3.setBit (offBl p 8) 4).raise 0x8803 (leBytes 1 p ++ leBytes 2 n)

/-- A port that is up is declared down; grace runs (R325, R342). -/
def State.burobDown (s : State) (port : Nat) : State :=
  if 4 ≤ port || !(s.port port).up then s
  else
    let s1 := s.adopt (offBl port 0) 2 5
    (s1.setPort port { s1.port port with up := false, training := false, halves := 0, retraining := 0, cause := [], grace := true }).raise
      0x8801 (leBytes 1 port)

/-- BUROB_LINK_DOWN (R325, R342). -/
def execBurobLinkDown (port : Nat) (s : State) : Res := .next (s.burobDown port)

/-- The link record of a port (R333): at its offset in window 0, where that is enabled and holds it. -/
def State.linkRecord (s : State) (p : Nat) : State :=
  let k := s.port p
  let base := s.reg (offBl p 0x100)
  let a := base / 4096 * 4096 + fld (s.reg (offBl p 0x18)) 0 20 * 16
  let room := decide (a + 16 ≤ base / 4096 * 4096 + s.reg (offBl p 0x108) * 4096)
  if bit base 0 && room then
    (s.setPort p { k with recorded := true }).hostWrite p a (leBytes 4 k.session ++ leBytes 4 (k.nonce.getD 0) ++ leBytes 1 (if k.halves = 3 then 32 else 16) ++ leBytes 1 2 ++
      leBytes 6 0)
  else s

/-- Writes held for a port replayed to the host in order (R324, R342). -/
def State.replayHeld (s : State) (p : Nat) : State :=
  let held := (s.port p).heldWrites
  held.foldl (fun (t : State) w => t.hostWrite p w.1 w.2) (s.setPort p { s.port p with heldWrites := [] })

/-- BUROB_TRAINED (R326, R333, R342): training completes with the halves that came up. A companion that comes back in time with the
nonce it had finds nothing lost, and what the replay buffer holds is sent again; with another nonce its owner is gone. -/
def execBurobTrained (port nonce halves : Nat) (s : State) : Res :=
  let up := andHalves (halves % 4) (s.servedHalves port)
  .next (if 4 ≤ port || (s.port port).up || !s.linksTrain || up == 0 then s
  else
    let k := s.port port
    let n := nonce % 2 ^ 32
    let s1 := if k.grace ∧ k.nonce ≠ some n then s.ownerGone port else s
    let d := if k.nonce.isNone then s1.draw else (BitVec.ofNat 64 k.deviceNonce, s1)
    let k1 : Port := { d.2.port port with
      up := true, training := false, retry := false, halves := up, retraining := 0, grace := false, nonce := some n,
      deviceNonce := d.1.toNat % 2 ^ 32 }
    let w := d.2.wire (.burob port)
    let fresh := Wire.fresh (fld (s.written (offBl port 0)) 0 2)
    let s2 := ((d.2.setWire (.burob port) { fresh with formed := w.formed - w.acked }).bump (linkRegs (.burob port)).2.2.2 (w.sent - w.acked)).setPort
      port k1
    ((s2.replayHeld port).cqDrainPort port).linkRecord port)

/-- BUROB_TRAIN_RETRY (R326): a port that is down trains again; a retry that ends without training is counted. -/
def execBurobTrainRetry (port : Nat) (s : State) : Res :=
  .next (if 4 ≤ port || (s.port port).up || !s.linksTrain then s
  else
    let k := s.port port
    (if k.training && k.retry then s.bump (offBl port 0x80) 1 else s).setPort port { k with training := true, retry := true })

/-- GRACE_EXPIRY (R342): the grace time has passed without training. -/
def execGraceExpiry (port : Nat) (s : State) : Res :=
  .next (if port < 4 && !(s.port port).up && (s.port port).grace then s.ownerGone port else s)

/-! ### Live retrains of halves (R327, R385) -/

/-- The corrected symbols of a lane's window above which its half retrains; none for never (R344). -/
def degradeLimit (code : Nat) : Option Nat :=
  match code with
  | 0 => some (2 ^ 10)
  | 1 => some (2 ^ 12)
  | 2 => some (2 ^ 14)
  | _ => none

/-- Whether a count crosses the threshold of a code. -/
def crosses (code count : Nat) : Bool := match degradeLimit code with | some n => decide (n < count) | none => false

/-- A half of a Burob port leaves service for a live retrain (R327 step 1, R328). -/
def State.burobRetrain (s : State) (p half lane count : Nat) : State :=
  let k := s.port p
  (s.setPort p { k with halves := k.halves - andHalves k.halves (halfBit half), retraining := k.retraining + halfBit half - andHalves k.retraining (halfBit half),
                        cause := (k.cause.filter fun c => c.1 != half) ++ [(half, lane, count)] }).bump (offBl p 0x88) 1

/-- Halves of a tray link in service (R414). -/
def State.trayHalves (s : State) (k : Nat) : Nat := fld (s.reg (offPeer k 0)) 2 2

/-- The number of a tray link or scale-out port in a payload (R532, log 33). -/
def linkByte : Link → Nat
  | .burob p => p
  | .tray k => 0x10 + k
  | .scaleOut p => p

/-- A change of a tray link's or scale-out port's width recorded (R385). -/
def State.degradeEvent (s : State) (l : Link) (width : Nat) : State := s.raise 0x7801 (leBytes 1 (linkByte l) ++ leBytes 1 width)

/-- A half of a tray link leaves service for a live retrain (R385). -/
def State.trayRetrain (s : State) (k half : Nat) : State :=
  let h := s.trayHalves k
  let s1 := (s.setField (offPeer k 0) 2 2 (h - andHalves h (halfBit half))).setBit (offPeer k 0) 4
  { s1 with fab := { s1.fab with halfOut := addNew s1.fab.halfOut (k, half) } }.degradeEvent (.tray k) 8

/-- A scale-out port whose replay buffer is empty is out of service for its change of width (R385). -/
def State.sfOut (s : State) (p : Nat) : State :=
  if (s.wire (.scaleOut p)).leaving && (s.wire (.scaleOut p)).empty then s.setField (offSfPort p 0) 0 2 1 else s

/-- A change of width of a scale-out port begins (R385): its routes move to their alternates, and it leaves service once its replay
buffer is empty. -/
def State.sfRetrain (s : State) (p half : Nat) : State :=
  let s1 := s.setWire (.scaleOut p) { s.wire (.scaleOut p) with leaving := true }
  ({ s1 with fab := { s1.fab with halfOut := addNew s1.fab.halfOut (8 + p, half) } }.updateRoutes).sfOut p

/-- The threshold code in effect in the window of a lane of a half (R345, R415). -/
def State.laneCode (s : State) (l : Link) (half lane : Nat) : Nat :=
  lookD (s.wire l).lanes (half * 64 + lane) (lookD (s.wire l).thresh half 1)

/-- A lane's window ends: its next begins under the threshold as last written at `off`. -/
def State.nextWindow (s : State) (l : Link) (half lane off : Nat) : State :=
  s.setWire l { s.wire l with lanes := put (s.wire l).lanes (half * 64 + lane) (fld (s.written off) 0 2) }

/-- A half of a link returns to service: the windows of its lanes begin under the threshold as last written at `off`. -/
def State.freshHalf (s : State) (l : Link) (half off : Nat) : State :=
  s.setWire l { s.wire l with lanes := (s.wire l).lanes.filter fun e => e.1 / 64 != half,
                              thresh := put (s.wire l).thresh half (fld (s.written off) 0 2) }

/-- LANE_ERROR_WINDOW (R327, R385, R345, R415): the end of a lane's 1 ms window, with its count of corrected symbols, judged by the
threshold in effect in that window; a threshold written meanwhile takes effect for the lane's next. -/
def execLaneErrorWindow (link : Link) (half lane count : Nat) (s : State) : Res :=
  .next (match link with
  | .burob p =>
    if 4 ≤ p || !(s.port p).up || !(bit (s.port p).halves half) || 2 ≤ half then s
    else
      let s1 := (s.nextWindow (.burob p) half lane (offBl p 0)).adopt (offBl p 0) 0 2
      if !(crosses (s.laneCode (.burob p) half lane) count) then s1
      else if (s.port p).halves = 3 then s1.burobRetrain p half lane count
      else s1.raise 0x8802 (leBytes 1 p ++ leBytes 1 half ++ leBytes 1 lane ++ leBytes 4 count)
  | .tray k =>
    if 8 ≤ k || !(s.linkUp (.tray k)) || !(bit (s.trayHalves k) half) || 2 ≤ half then s
    else
      let s1 := (s.nextWindow (.tray k) half lane (offTf 0)).adopt (offTf 0) 0 2
      if crosses (s.laneCode (.tray k) half lane) count && s.trayHalves k == 3 then s1.trayRetrain k half else s1
  | .scaleOut p =>
    if 4 ≤ p || s.sfState p != 2 then s
    else
      let s1 := (s.nextWindow (.scaleOut p) half lane (offTf 0)).adopt (offTf 0) 0 2
      if crosses (s.laneCode (.scaleOut p) half lane) count && !(bit (s.reg (offSfPort p 0)) 2) && s.portServes p then s1.sfRetrain p half else s1)

/-- HALF_RETRAIN_DONE (R327 step 3, R385): the half returns to service, or stays out. -/
def execHalfRetrainDone (link : Link) (half : Nat) (ok : Bool) (s : State) : Res :=
  .next (match link with
  | .burob p =>
    let k := s.port p
    if 4 ≤ p || 2 ≤ half || !k.up || !(bit k.retraining half) then s
    else
      let c := ((k.cause.find? fun c => c.1 == half).map (·.2)).getD (0, 0)
      let k1 : Port := { k with retraining := k.retraining - halfBit half, cause := k.cause.filter fun c => c.1 != half }
      if ok && bit (s.servedHalves p) half then
        (s.freshHalf (.burob p) half (offBl p 0)).setPort p { k1 with halves := k.halves + halfBit half }
      else (s.setPort p k1).raise 0x8802 (leBytes 1 p ++ leBytes 1 half ++ leBytes 1 c.1 ++ leBytes 4 c.2)
  | .tray k =>
    if !(s.fab.halfOut.contains (k, half)) || !(s.linkUp (.tray k)) || 8 ≤ k then s
    else
      let s1 := { s with fab := { s.fab with halfOut := drop1 s.fab.halfOut (k, half) } }
      if ok && bit (s.servedHalves k) half then
        let h := s1.trayHalves k
        ((s1.freshHalf (.tray k) half (offTf 0)).setField (offPeer k 0) 2 2 (h + halfBit half - andHalves h (halfBit half))).degradeEvent
          (.tray k) 16
      else s1
  | .scaleOut _ => s)

/-- A half that is out of service is retrained; a scale-out port at width 4 leaves service for it (R327, R385). -/
def State.halfRetry (s : State) (link : Link) (half : Nat) : State :=
  match link with
  | .burob p =>
    let k := s.port p
    if 4 ≤ p || 2 ≤ half || !k.up || bit k.halves half || bit k.retraining half || !(bit (s.servedHalves p) half) then s
    else s.setPort p { k with retraining := k.retraining + halfBit half }
  | .tray k =>
    if 8 ≤ k || 2 ≤ half || !(s.linkUp (.tray k)) || bit (s.trayHalves k) half || !(bit (s.servedHalves k) half) then s
    else { s with fab := { s.fab with halfOut := addNew s.fab.halfOut (k, half) } }
  | .scaleOut p =>
    if 4 ≤ p || s.sfState p != 2 || !(bit (s.reg (offSfPort p 0)) 2) || s.servedHalves p != 3 || !(s.portServes p) then s else s.sfRetrain p half

/-- HALF_RETRY (R327, R385). -/
def execHalfRetry (link : Link) (half : Nat) (s : State) : Res := .next (s.halfRetry link half)

/-! ### Completion queues at the link (R341, R344) -/

/-- CQ_HEAD_WRITE (R341, R344): the host frees units, and entries that wait are written. -/
def execCqHeadWrite (port cq : Nat) (value : W32) (s : State) : Res :=
  .next (if 4 ≤ port || 256 ≤ cq || !(s.port port).up then s
  else (s.setReg (offCq port cq 8) value.toNat).cqDrain (s.cq port cq).waiting.length port cq)

/-- A transfer of completion entries ends without room (R341, R371): its fence, or its event's owner, learns of CQ_FULL. -/
def State.entryLost (s : State) (port : Nat) (e : CqEntry) : State :=
  match e.owner with
  | .packet f op q =>
    let s1 := s.bump (offBl port 0x68) 1
    match f with | some (i, _) => s1.fenceError i 0x8004 (some e.ctx) 0 (op, q) | none => s1
  | .put c slot => ((s.xferError c slot 0x8004).modXfer c slot fun x => { x with pieces := 0 }).goOn c
  | .event h => s.log e.ctx 0x8004 false false noFence h (0x38, 0)

/-- CQ_WAIT_TIMEOUT (R341, R371): the transfer at the front has waited 2^cq_timeout_log2 ticks for room; it stops. One that has room and
waits for the replay buffer goes on waiting. A RESULT entry that
waits for a port that is down is a held write and stops for no time (R342). -/
def execCqWaitTimeout (port cq : Nat) (s : State) : Res :=
  .next (match (s.cq port cq).waiting with
  | [] => s
  | e :: rest =>
    if !(s.port port).up && e.kind == 3 || (s.cqRoom port cq e.data.length).isSome then s else
    let s1 := s.setCq port cq { s.cq port cq with waiting := rest.filter fun w => w.xid != e.xid }
    (s1.entryLost port e).cqDrain rest.length port cq)

end Sys2Proof.Machine
end

