-- ==== Sys2Proof/Machine/Loss.lean ====
section
/-! DEFINITION. The end of fabric requests (R388, R392, R407), loss of a node and self-fencing (R408-R412), tray links and scale-out
ports as they come and go (R402, R406, R408, R548), readmission (R409). -/

namespace Sys2Proof.Machine

open Sys2Proof

/-! ### The end of a request (R388, R407) -/

/-- A mirror store that has not been acknowledged ends with an error: its line is marked again (R430, log 32). -/
def State.mirrorFailed (s : State) (e line : Nat) : State :=
  match look s.surv.prots e with
  | none => s
  | some p => if p.mirrors.any fun m => m.1 == line then
      (s.setProt e { p with mirrors := p.mirrors.filter fun m => m.1 != line }).markLine e line
    else s

/-- A transfer's request has ended with a code and data; a descriptor that arrives moves a COPY_REMOTE on, one that does not ends it
(R392, R407). -/
def State.xferReq (s : State) (c slot i code : Nat) (r : Req) (data : List Byte) : State :=
  let s1 := match r.kind with
    | .load dest n => (s.reqEnded c slot i).vaWrite c r.ctx 0 dest (if code = 0 then data.take n else List.replicate n 0xFF)
    | _ => s.reqEnded c slot i
  if code ≠ 0 then
    let s2 := s1.xferError c slot code
    (if r.kind = .descFetch then s2.modXfer c slot fun x => { x with todo := [], moved := true } else s2).goOn c
  else if r.kind = .descFetch then (s1.remoteDesc c slot (parseDesc (r.addr % 2 ^ 16) data)).goOn c
  else s1.goOn c

/-- A signal forwarded to its home ends with a code: an error goes to the fence of the entry that issued it, or to the proxy (R369, R390,
R419, log 31). -/
def State.forwardFailed (s : State) (r : Req) (code : Nat) : State :=
  if code = 0 then s else s.signalFails r.fence r.ctx code

/-- A push ends with a code: the node holds a proxy of the fence, or by FAB_NO_TARGET or FAB_NO_JOB it holds none any longer, and a fence
that is held is gone with its last (R352, R369, log 31). Any other code says nothing of proxies. -/
def State.pushAnswered (s : State) (r : Req) (code : Nat) : State :=
  match r.fence with
  | none => s
  | some f =>
    if code = 0 then s.modFence f fun k => { k with proxies := addNew k.proxies (r.dst, f) }
    else if code = 0x7002 ∨ code = 0x7003 then (s.modFence f fun k => { k with proxies := drop1 k.proxies (r.dst, f) }).settleHeld f
    else s

/-- A message to the partner that has ended with an error is sent again, while there is a pair (log 32). -/
def State.resend (s : State) (r : Req) : State := if s.surv.pair = .paired then s.send { r with vc := 0, via := none } else s

/-- An outstanding request ends with a code, 0 for success, and data (R388, R407). A mirror store's success is MIRROR_STORE_ACK's or
MARKER_ACK's. -/
def State.endReq (s : State) (i code : Nat) (data : List Byte) : State :=
  match look s.fab.reqs i with
  | none => s
  | some r =>
    match r.kind, r.owner with
    | .mirror e ln, _ => if code = 0 then s else (s.dropReq i).mirrorFailed e ln
    | .marker _ _, _ => if code = 0 then s else (s.dropReq i).resend r
    | .twin _ _, _ => if code = 0 then s.dropReq i else (s.dropReq i).resend r
    | .coll inst _, some (c, slot) =>
      let s1 := (s.dropReq i).reqEnded c slot i
      (if code = 0 then s1 else s1.failColl inst code).goOn c
    | _, some (c, slot) => (s.dropReq i).xferReq c slot i code r data
    | .fenceForward, none => (s.dropReq i).forwardFailed r code
    | .fencePush, none => (s.dropReq i).pushAnswered r code
    | _, none => s.dropReq i

/-- A response for another node is sent on along the rail by the route entry of its tray (R403, R405); without a route it goes no further
(log 66). -/
def State.forwardResp (s : State) (r : FabResp) : State :=
  if r.dst / 8 = s.pins.strapTray || r.dst % 8 != s.pins.strapSlot || s.ident.grade == .tray || !s.alive || s.fab.selfFenced then s
  else s.putOut (.resp r.dst (b2n r.vc) (flitsOf 256 (24 + r.data.length)))

/-- FABRIC_RESPONSE (R388, R403, R407): it ends its request; one whose request has ended is late, and counted at its sender's window; one
for another node is sent on. A self-fenced device accepts none (R412). -/
def execFabricResponse (req : Nat) (resp : FabResp) (s : State) : Res :=
  .next (s.guarded (if s.fab.selfFenced then s else if resp.dst ≠ s.node then s.forwardResp resp else match look s.fab.reqs req with
  | some r =>
    if r.waiting || r.dst != resp.src then s
    else
      let s1 := s.endReq req (resp.code % 2 ^ 16) resp.data
      match r.kind with
      | .mirror e _ => s1.drain e
      | _ => s1
  | none =>
    if resp.src / 8 = s.pins.strapTray ∧ s.peerState (resp.src % 8) = 1 then s.bump (offPeer (resp.src % 8) 0x40) 1 else s))

/-- Whether a request starts a timer as it leaves its hub die (R407). -/
def ReqKind.timed (k : ReqKind) : Bool :=
  match k with
  | .token => false
  | .fencePush => false
  | .fenceForward => false
  | _ => true

/-- FABRIC_REQUEST_TIMEOUT (R407): 64 microseconds have passed without a response. -/
def execFabricRequestTimeout (req : Nat) (s : State) : Res :=
  .next (match look s.fab.reqs req with
  | none => s
  | some r =>
    if r.waiting || !r.kind.timed then s
    else
      let s1 := if r.dst / 8 = s.pins.strapTray then s.bump (offPeer (r.dst % 8) 0x30) 1 else s
      let s2 := s1.endReq req 0x7005 []
      match r.kind with
      | .mirror e _ => s2.drain e
      | _ => s2)

/-! ### Loss (R411, R412) -/

/-- Whether a node is in the member list of a job-table entry (R397). -/
def State.nodeMember (s : State) (e n : Nat) : Bool :=
  decide (n / 8 = s.pins.strapTray) && bit (s.reg (offTfJob e 0)) (n % 8) || bit (s.reg (offSfJob e (n / 64 * 8))) (n % 64)

/-- The loss fence of a job enters the error state, where it is enabled and of a context joined to the job; the entries name
the given node (R365, R411, R414). -/
def State.lossFence (s : State) (e code node detail : Nat) : State :=
  let f := s.reg (offTfJob e 8) % 2 ^ 32
  match bit (s.reg (offTfJob e 0)) 8, s.fence f with
  | true, some k =>
    match s.ctx k.owner with
    | some c => if c.job = some e ∧ !k.held ∧ k.home.isNone then s.fenceErrorAt f code none node detail (0, 0) else s
    | none => s
  | _, _ => s

/-- The proxies whose home nodes are chosen enter the error state; the entries name the given node (R365), and with `prop` are marked as
R369's (R372). -/
def State.failProxies (s : State) (sel : Nat → Bool) (code : Nat) (prop : Bool) (node detail : Nat) : State :=
  (s.objs.fences.filter fun f => match f.2.home with | some (n, _, _) => sel n | none => false).foldl
    (fun (t : State) f => t.attachError f.1 code none prop node detail (0, 0)) s

/-- The proxies on a lost node are gone with it (R352, R411). -/
def State.dropProxies (s : State) (n : Nat) : State :=
  let ids := (s.objs.fences.filter fun f => f.2.proxies.any fun q => q.1 == n).map (·.1)
  ids.foldl (fun (t : State) f => (t.modFence f fun k => { k with proxies := k.proxies.filter fun q => q.1 != n }).settleHeld f) s

/-- A loss notice sent over every tray link and scale-out port but one (R410); it goes ahead of responses and requests (R401). -/
def State.sendNotice (s : State) (but : Option Link) : State :=
  fabricLinks.foldl (fun (t : State) l => if t.linkUp l && but != some l then t.putOut (.notice l) else t) s

/-- The device fences itself (R412): outstanding requests fail, flags that wait and packets to send other than
notices are gone, proxies and loss fences of its contexts err; it mirrors no longer. The
cause byte of the event has no stated coding: a free value. -/
def State.selfFence (s : State) : State :=
  if s.fab.selfFenced then s
  else
    let s0 := (s.sendNotice none).modFab fun f =>
      { f with selfFenced := true, flags := [], out := f.out.filter fun p => p.rank == 0 }
    let s1 := if s0.surv.pair = .paired then s0.lapseAll else s0
    let s2 := (s1.fab.reqs.map (·.1)).foldl (fun (t : State) i => t.endReq i 0x700A []) s1
    let s3 := s2.failProxies (fun _ => true) 0x700A false s2.node 0
    let s4 := (s3.objs.jobs.map (·.1)).foldl (fun (t : State) e => t.lossFence e 0x700A s3.node 0) s3
    let d := s4.draw
    d.2.raise 0x7807 (leBytes 1 (d.1.toNat % 256))

/-- A loss applied (R411): requests from the node that wait here are discarded, and so on; the device's own loss fences it (R412). -/
def State.applyLoss (s : State) (n : Nat) : State :=
  if n = s.node then s.selfFence
  else if s.isLost n then s
  else
    let near := decide (n / 8 = s.pins.strapTray)
    let s0 := s.modFab fun f =>
      { f with lostNodes := addNew f.lostNodes n, flags := f.flags.filter fun w => w.2.hdr.src != n,
               out := f.out.filter fun p => match p with | .fwd h _ => h.src != n | _ => true }
    let s1 := if near then (s0.setField (offPeer (n % 8) 0) 0 2 2).partnerLost (n % 8) else s0
    let s2 := ((s1.fab.reqs.filter fun r => r.2.dst == n).map (·.1)).foldl (fun (t : State) i => t.endReq i 0x7004 []) s1
    let s3 := ((s2.fab.colls.filter fun k => k.2.nodes.contains n).map (·.1)).foldl (fun (t : State) i => t.failColl i 0x7004) s2
    let s4 := s3.failProxies (fun h => h == n) 0x7004 true n n
    let s5 := (s4.objs.jobs.map (·.1)).foldl (fun (t : State) e => if t.nodeMember e n then t.lossFence e 0x7004 n n else t) s4
    (s5.dropProxies n).raise 0x7806 (leBytes 2 n)

/-! ### Notices (R410) -/

/-- LOSS_NOTICE (R410): a notice not yet seen is forwarded and held. -/
def execLossNotice (lost origin : Nat) (via : Link) (s : State) : Res :=
  .next (if s.fab.seen.contains (lost, origin) || !s.alive then s
  else { s with fab := { s.fab with seen := s.fab.seen ++ [(lost, origin)], notices := s.fab.notices ++ [(lost, origin)] } }.sendNotice
    (some via))

/-- Whether a notice is held, or this device has itself declared the loss within the 10 microseconds (R410, log 32). -/
def State.holdsNotice (s : State) (lost origin : Nat) : Bool :=
  s.fab.notices.contains (lost, origin) ||
    decide (origin = s.node) && s.fab.recentLoss.any fun r => s.pins.strapTray * 8 + r.1 == lost && decide (s.ticks ≤ r.2 + 250)

/-- LOSS_NOTICE_HOLD_END (R410): the hold of the notices that name a node ends. Of two nodes that name each other the higher is lost;
else the loss is applied. -/
def execLossNoticeHoldEnd (lost : Nat) (s : State) : Res :=
  .next (match s.fab.notices.find? fun n => n.1 == lost with
  | none => s
  | some _ =>
    let mine := s.fab.notices.filter fun n => n.1 == lost
    match mine.find? fun n => s.holdsNotice n.2 lost with
    | some n =>
      let hi := max lost n.2
      let lo := min lost n.2
      let rest := s.fab.notices.filter fun m => m != (lo, hi) && m != (hi, lo)
      ({ s with fab := { s.fab with notices := rest } }.raise 0x7805 (leBytes 2 hi ++ leBytes 2 lo)).applyLoss hi
    | none => { s with fab := { s.fab with notices := s.fab.notices.filter fun n => n.1 != lost } }.applyLoss lost)

/-! ### Tray links (R408, R548) -/

/-- TRAY_LINK_TRAINED (R548, R408, R558): a link comes up where its far end is the module it serves; a slot held lost stays lost. -/
def execTrayLinkTrained (slot farTray farSlot halves : Nat) (s : State) : Res :=
  let up := andHalves (halves % 4) (s.servedHalves slot)
  .next (if 8 ≤ slot || slot == s.pins.strapSlot || s.fab.linkUp.contains slot || !s.linksTrain || up == 0 then s
  else if farTray ≠ s.pins.strapTray ∨ farSlot ≠ slot then
    s.raise 0x7803 (leBytes 1 (0x10 + slot) ++ leBytes 2 (farTray * 8 + farSlot))
  else
    let s1 := { s with fab := { s.fab with linkUp := addNew s.fab.linkUp slot } }.setWire (.tray slot)
      (Wire.fresh (fld (s.written (offTf 0)) 0 2))
    let s2 := s1.setField (offPeer slot 0) 2 2 up
    if s2.peerState slot = 0 then s2.setField (offPeer slot 0) 0 2 1 else s2)

/-- A tray peer's link is gone. -/
def State.unlink (s : State) (k : Nat) : State :=
  ({ s with fab := { s.fab with linkUp := drop1 s.fab.linkUp k, halfOut := s.fab.halfOut.filter fun h => h.1 != k } }.setField
    (offPeer k 0) 2 2 0).sweepOut

/-- The tray peers this device has declared lost within 100 microseconds, with one more (R412). -/
def State.noteLoss (s : State) (k : Nat) : State :=
  let l := (s.fab.recentLoss.filter fun r => r.1 != k && decide (s.ticks ≤ r.2 + 2500)) ++ [(k, s.ticks)]
  { s with fab := { s.fab with recentLoss := l, seen := addNew s.fab.seen (s.pins.strapTray * 8 + k, s.node) } }.sendNotice none

/-- A tray link goes down: the peer is declared lost and the loss applied; at the fourth within 100 microseconds the device fences itself
(R384, R408, R410, R412). -/
def State.trayDown (s : State) (slot : Nat) : State :=
  if 8 ≤ slot || !(s.fab.linkUp.contains slot) then s
  else
    let up := decide (s.peerState slot = 1)
    let s1 := s.unlink slot
    if !up then s1
    else
      let s2 := (s1.noteLoss slot).applyLoss (s.pins.strapTray * 8 + slot)
      if 4 ≤ s2.fab.recentLoss.length then s2.selfFence else s2

/-- TRAY_LINK_DOWN (R384, R408). -/
def execTrayLinkDown (slot : Nat) (s : State) : Res := .next (s.trayDown slot)

/-! ### Scale-out ports (R402, R384, R385, R406) -/

/-- SCALEOUT_PORT_TRAINED (R402): a port comes up, or is held down where its neighbour is of another slot. -/
def execScaleoutPortTrained (port node : Nat) (width4 : Bool) (s : State) : Res :=
  let halves := s.servedHalves port
  .next (if 4 ≤ port || s.ident.grade == .tray || s.sfState port == 2 || s.sfState port == 1 || !s.linksTrain ||
      1024 ≤ node || halves == 0 || halves != 3 && !width4 then s
  else
    let s1 := (s.setField (offSfPort port 0) 3 10 node).setWire (.scaleOut port) (Wire.fresh (fld (s.written (offTf 0)) 0 2))
    if node % 8 ≠ s.pins.strapSlot then
      (s1.setField (offSfPort port 0) 0 2 3).raise 0x7803 (leBytes 1 port ++ leBytes 2 node)
    else ((s1.setField (offSfPort port 0) 0 2 2).setField (offSfPort port 0) 2 1 (b2n width4)).updateRoutes)

/-- Requests that wait for a port and have no link left fail at once (R406). -/
def State.failStranded (s : State) : State :=
  ((s.fab.reqs.filter fun e => e.2.waiting).map fun e => (e.1, e.2.dst)).foldl
    (fun (t : State) e => match t.unreachable e.2 with | some code => t.endReq e.1 code [] | none => t) s

/-- A scale-out port that is up, or out of service for a change of width, goes down; no loss is declared (R384, R406). -/
def State.scaleOutDown (s : State) (port : Nat) : State :=
  if 4 ≤ port || !(s.portUp port) then s
  else
    let s1 := { s with fab := { s.fab with halfOut := s.fab.halfOut.filter fun h => h.1 != 8 + port } }
    (((s1.setWire (.scaleOut port) Wire.rest).setField (offSfPort port 0) 0 2 0).updateRoutes).sweepOut.failStranded

/-- SCALEOUT_PORT_DOWN (R384, R406). -/
def execScaleoutPortDown (port : Nat) (s : State) : Res := .next (s.scaleOutDown port)

/-- SCALEOUT_WIDTH_CHANGE_DONE (R385): the port returns to service; a change of width is recorded. -/
def execScaleoutWidthChangeDone (port : Nat) (width4 : Bool) (s : State) : Res :=
  .next (if 4 ≤ port || s.sfState port != 1 then s
  else
    let w4 := width4 || s.servedHalves port != 3
    let old := bit (s.reg (offSfPort port 0)) 2
    let s1 := { s with fab := { s.fab with halfOut := s.fab.halfOut.filter fun h => h.1 != 8 + port } }.setWire (.scaleOut port)
      (Wire.fresh (fld (s.written (offTf 0)) 0 2))
    let s2 := (s1.setField (offSfPort port 0) 0 2 2).setField (offSfPort port 0) 2 1 (b2n w4)
    let s3 := if w4 = old then s2 else s2.degradeEvent (.scaleOut port) (if w4 then 4 else 8)
    s3.updateRoutes)

/-! ### Flits (R323-R325, R381-R385) -/

/-- A link or port is taken down (R325, R384). -/
def State.linkDown (s : State) : Link → State
  | .burob p => s.burobDown p
  | .tray k => s.trayDown k
  | .scaleOut p => s.scaleOutDown p

/-- What the room that an acknowledgement makes lets go: held writes to the host, requests that wait, a port that is to leave service
(R324, R385). -/
def State.afterFlit (s : State) : Link → State
  | .burob p => (s.replayHeld p).cqDrainPort p
  | .tray k => s.pumpLink (.tray k)
  | .scaleOut p => (s.pumpLink (.scaleOut p)).sfOut p

/-- A flit on a link that is up; more than 64 replays of one flit take the link down (R324, R325, R383, R384). -/
def State.flit (s : State) (l : Link) (corrected crcOk : Bool) (f : Flit) : State :=
  if !(s.linkUp l) then s
  else
    let t := s.takeFlit l corrected crcOk f
    if (t.wire l).hopeless then t.linkDown l else t.afterFlit l

/-- BUROB_FLIT (R324). -/
def execBurobFlit (port : Nat) (corrected crcOk : Bool) (flit : Flit) (s : State) : Res :=
  .next (if port < 4 then s.flit (.burob port) corrected crcOk flit else s)

/-- TRAY_FLIT (R383): a flit of a tray link or a scale-out port. -/
def execTrayFlit (link : Link) (corrected crcOk : Bool) (flit : Flit) (s : State) : Res :=
  .next (match link with
  | .burob _ => s
  | l => s.flit l corrected crcOk flit)

/-! ### Readmission (R409, R414) -/

/-- READMIT (R409, R412, R330): management readmits a lost slot, or ends this device's self-fence. -/
def execReadmit (port slot : Nat) (s : State) : Res :=
  .next (if 4 ≤ port || 8 ≤ slot || !(s.port port).up then s
  else if port ≠ s.mgmtPort then s.bump (offBl port 0x78) 1
  else
    let s1 := s.setField (offTf 0) 3 3 slot
    let n := s.pins.strapTray * 8 + slot
    if slot = s.pins.strapSlot then { s1 with fab := { s1.fab with selfFenced := false } }
    else if s.peerState slot = 2 then
      let fab : Fabric := { s1.fab with lostNodes := drop1 s1.fab.lostNodes n, seen := s1.fab.seen.filter fun m => m.1 != n,
                                        recentLoss := s1.fab.recentLoss.filter fun r => r.1 != slot }
      { s1 with fab := fab }.setField (offPeer slot 0) 0 2 (b2n (s1.fab.linkUp.contains slot))
    else s1)

end Sys2Proof.Machine
end

