-- ==== Sys2Proof/Machine/Aes.lean ====
section
/-! DEFINITION. AES-256 in Galois counter mode, with which the security block wraps the identity key (R501): the block cipher, GHASH, and a
wrapped key as its nonce, its ciphertext and its tag (log 19). -/

namespace Sys2Proof.Machine

open Sys2Proof

/-! ### The block cipher -/

/-- A byte of the field of AES doubled. -/
def xtime (a : Byte) : Byte := (a <<< 1) ^^^ (if a.msb then 0x1B else 0)

/-- The product of two bytes in the field of AES. -/
def gmul (a b : Byte) : Byte :=
  ((List.range 8).foldl (fun (r : Byte × Byte) i => (if b.getLsbD i then r.1 ^^^ r.2 else r.1, xtime r.2)) (0, a)).1

/-- The inverse of a byte in the field of AES, 0 for 0: its power 254. -/
def ginv (a : Byte) : Byte :=
  (List.range 7).foldl (fun (r : Byte) i => gmul (gmul r r) (if i = 6 then 1 else a)) a

/-- The substitution of a byte. -/
def subByte (a : Byte) : Byte :=
  let b := ginv a
  b ^^^ b.rotateLeft 1 ^^^ b.rotateLeft 2 ^^^ b.rotateLeft 3 ^^^ b.rotateLeft 4 ^^^ 0x63

/-- Two byte strings added in the field, byte by byte. -/
def xorBytes (a b : List Byte) : List Byte := List.zipWith (fun x y => x ^^^ y) a b

/-- The 60 words of the key schedule of a 256-bit key, by recursion on how many words follow the key. -/
def keyWords (key : List Byte) : Nat → List (List Byte)
  | 0 => (List.range 8).map fun i => (key.drop (4 * i)).take 4
  | n + 1 =>
    let ws := keyWords key n
    let i := n + 8
    let prev := ws.getLastD []
    let g : List Byte :=
      if i % 8 = 0 then xorBytes ((prev.drop 1 ++ prev.take 1).map subByte) [(List.range (i / 8 - 1)).foldl (fun a _ => xtime a) 1, 0, 0, 0]
      else if i % 8 = 4 then prev.map subByte
      else prev
    ws ++ [xorBytes ((ws[n]?).getD []) g]

/-- The rows of a state shifted: byte i of a column-major block. -/
def shiftRows (b : List Byte) : List Byte := (List.range 16).map fun i => b.getD ((i + 4 * (i % 4)) % 16) 0

/-- One column mixed. -/
def mixColumn (c : List Byte) : List Byte :=
  (List.range 4).map fun i =>
    let at_ (k : Nat) : Byte := c.getD ((i + k) % 4) 0
    gmul 2 (at_ 0) ^^^ gmul 3 (at_ 1) ^^^ at_ 2 ^^^ at_ 3

/-- AES-256 of one block under a key schedule. -/
def aesBlock (ws : List (List Byte)) (b : List Byte) : List Byte :=
  let key (r : Nat) : List Byte := ((ws.drop (4 * r)).take 4).flatten
  let rounds := (List.range 13).foldl (fun (x : List Byte) r =>
    let y := shiftRows (x.map subByte)
    xorBytes ((List.range 4).flatMap fun c => mixColumn ((y.drop (4 * c)).take 4)) (key (r + 1))) (xorBytes b (key 0))
  xorBytes (shiftRows (rounds.map subByte)) (key 14)

/-! ### Galois counter mode -/

/-- A block as the element of the field of GHASH that it spells, its first bit the most significant. -/
def ghashElem (b : List Byte) : BitVec 128 := BitVec.ofNat 128 (beNat b)

/-- The product of two elements of the field of GHASH. -/
def ghashMul (x y : BitVec 128) : BitVec 128 :=
  ((List.range 128).foldl (fun (r : BitVec 128 × BitVec 128) i =>
    (if x.getMsbD i then r.1 ^^^ r.2 else r.1, (r.2 >>> 1) ^^^ (if r.2.getLsbD 0 then BitVec.ofNat 128 (0xE1 * 2 ^ 120) else 0))) (0, y)).1

/-- A byte string padded with zeros to whole blocks. -/
def padBlock (b : List Byte) : List Byte := b ++ List.replicate ((16 - b.length % 16) % 16) 0

/-- GHASH of a ciphertext without further data, its length last. -/
def ghash (h : BitVec 128) (c : List Byte) : BitVec 128 :=
  let d := padBlock c ++ beBytes 16 (8 * c.length)
  (List.range (d.length / 16)).foldl (fun (y : BitVec 128) i => ghashMul (y ^^^ ghashElem ((d.drop (16 * i)).take 16)) h) 0

/-- The key stream for `n` bytes behind a 12-byte nonce, from counter 2 on. -/
def gcmStream (ws : List (List Byte)) (iv : List Byte) (n : Nat) : List Byte :=
  ((List.range ((n + 15) / 16)).flatMap fun i => aesBlock ws (iv ++ beBytes 4 (i + 2))).take n

/-- The tag of a ciphertext. -/
def gcmTag (ws : List (List Byte)) (iv c : List Byte) : List Byte :=
  xorBytes (beBytes 16 (ghash (ghashElem (aesBlock ws (List.replicate 16 0))) c).toNat) (aesBlock ws (iv ++ [0, 0, 0, 1]))

/-- Bytes wrapped under a key with a 12-byte nonce: the nonce, the ciphertext, the tag. -/
def gcmWrap (key iv data : List Byte) : List Byte :=
  let ws := keyWords key 52
  let c := xorBytes data (gcmStream ws iv data.length)
  iv ++ c ++ gcmTag ws iv c

/-- Wrapped bytes in clear again; none where the tag does not match. -/
def gcmUnwrap (key w : List Byte) : Option (List Byte) :=
  let ws := keyWords key 52
  let iv := w.take 12
  let c := (w.drop 12).take (w.length - 28)
  if w.length < 28 || gcmTag ws iv c != w.drop (w.length - 16) then none else some (xorBytes c (gcmStream ws iv c.length))

end Sys2Proof.Machine
end

