-- ==== Sys2Proof/Machine/Recorder.lean ====
section
/-! DEFINITION. The event recorder (R520-R532): the catalogue, token buckets, sequence numbers and marks, the ring, the flash log, lookups;
the operating minute with the risk monitor (R446) and the sparing threshold (R455). -/

namespace Sys2Proof.Machine

open Sys2Proof

/-! ### The catalogue (R532) -/

/-- Severity 0: code, capacity, refill. -/
def catalogue0 : List (Nat × Nat × Nat) :=
  [(0x1801, 8, 2), (0x1802, 32, 8), (0x6801, 16, 4), (0x7812, 16, 4), (0xB801, 16, 4)]

/-- Severity 1. -/
def catalogue1 : List (Nat × Nat × Nat) :=
  [(0x1803, 8, 2), (0x1804, 16, 4), (0x1805, 8, 2), (0x1806, 8, 2), (0x1807, 8, 2), (0x1808, 16, 4), (0x1809, 8, 2), (0x4801, 16, 4),
   (0x5801, 16, 4), (0x7802, 16, 4), (0x7804, 8, 2), (0x7817, 8, 2), (0x8804, 16, 4), (0xA801, 4, 1), (0xA805, 8, 2), (0xA806, 8, 2),
   (0xB806, 16, 4)]

/-- Severity 2. -/
def catalogue2 : List (Nat × Nat × Nat) :=
  [(0x4802, 8, 2), (0x4804, 16, 4), (0x5802, 8, 2), (0x7801, 8, 2), (0x7803, 4, 1), (0x7805, 4, 1), (0x7810, 4, 1), (0x7811, 4, 1),
   (0x7813, 8, 2), (0x7814, 8, 2), (0x7818, 8, 2), (0x8801, 8, 2), (0x8802, 8, 2), (0xA802, 8, 2), (0xA807, 8, 2), (0xB802, 8, 2),
   (0xB803, 4, 1), (0xB807, 8, 2), (0xB80A, 4, 1)]

/-- Severity 3: the critical codes, without a bucket. -/
def catalogue3 : List Nat :=
  [0x4803, 0x4805, 0x7806, 0x7807, 0x7815, 0x7816, 0x8803, 0xA803, 0xA804, 0xA808, 0xA809, 0xA80A, 0xB804, 0xB805, 0xB808, 0xB809, 0xB80B]

/-- The severity of a code (R532). -/
def severity (code : Nat) : Nat :=
  if (catalogue0.map (·.1)).contains code then 0
  else if (catalogue1.map (·.1)).contains code then 1
  else if (catalogue2.map (·.1)).contains code then 2
  else 3

/-- The default capacity and refill of a code's bucket; none for a critical code and for what is no code (R532). -/
def bucketDefault (code : Nat) : Option (Nat × Nat) :=
  ((catalogue0 ++ catalogue1 ++ catalogue2).find? fun e => e.1 == code).map (·.2)

/-- The bucket of a code; at reset it holds its capacity (R524). A critical code's holds only its pending count (R522). -/
def State.bucket (s : State) (code : Nat) : Bucket :=
  let d := (bucketDefault code).getD (0, 0)
  lookD s.recd.buckets code ⟨d.1, d.2, d.1, d.2, d.1, 0, false⟩

/-- The recorder changed. -/
def State.modRecd (s : State) (f : Recorder → Recorder) : State := { s with recd := f s.recd }

/-- A bucket set. -/
def State.setBucket (s : State) (code : Nat) (b : Bucket) : State := s.modRecd fun r => { r with buckets := put r.buckets code b }

/-! ### Sequence numbers, marks and the flash log (R522, R527) -/

/-- Whether the last program of the flash region failed with its retry: no mark can then be written (R522, R527). -/
def Recorder.stuck (r : Recorder) : Bool := decide (2 ≤ r.flushFails)

/-- Room for `n` bytes in the newest block of the log; a new block is begun where they would straddle, and the oldest of 128 is erased
for it (R527). -/
def Recorder.room (r : Recorder) (n : Nat) : Recorder :=
  if r.blockAt = 0 then { r with blockAt := 64 }
  else if r.blockAt + n ≤ 0x1_0000 then r
  else
    let b := r.block + 1
    let kept (pos : Nat) : Bool := decide (b < pos / 0x1_0000 + 128)
    { r with block := b, blockAt := 64, flash := r.flash.filter (fun k => kept k.offset), marks := r.marks.filter fun m => kept m.1 }

/-- The lowest number not yet reserved: the last mark written, 0 before the first (R522). -/
def Recorder.lastMark (r : Recorder) : Nat := (r.marks.map (·.2)).foldl max 0

/-- The next mark appended, where one can be written (R522, R527). -/
def Recorder.mark (r : Recorder) : Recorder :=
  if r.stuck then r
  else
    let q := r.room 16
    { q with marks := q.marks ++ [(q.block * 0x1_0000 + q.blockAt, r.lastMark + 32768)], blockAt := q.blockAt + 16 }

/-- A record appended to the log (R527). -/
def Recorder.append (r : Recorder) (k : Record) : Recorder :=
  let n := k.bytes.length
  let q := r.room n
  { q with flash := q.flash ++ [{ k with offset := q.block * 0x1_0000 + q.blockAt, flushed := true }], blockAt := q.blockAt + n }

/-- Bytes of the ring not yet in flash. -/
def Recorder.unflushed (r : Recorder) : Nat := (r.ring.map fun k => if k.flushed then 0 else k.bytes.length).sum

/-! ### Intake (R520, R523, R524, R526) -/

/-- Bytes of the ring. -/
def ringBytes : Nat := 0x10_0000

/-- An event not recorded: EV_SUPPRESSED counts it, and so does its code's pending count, which stays at its highest value (R524). -/
def State.suppress (s : State) (code : Nat) : State :=
  let b := s.bucket code
  (s.setBucket code (if b.pending = 2 ^ 32 - 1 then { b with saturated := true } else { b with pending := b.pending + 1 })).bump (offEv 0x30) 1

/-- The bytes of a record (R520). -/
def State.recordBytes (s : State) (e : RawEvent) (b : Bucket) : List Byte :=
  let n := (e.payload.length + 7) / 8 * 8
  leBytes 2 (40 + n) ++ leBytes 2 e.code ++ leBytes 1 (severity e.code) ++ leBytes 1 (b2n b.saturated) ++ leBytes 1 s.sec.hubActive ++ [0] ++
    leBytes 8 s.recd.seqNext ++ leBytes 4 (e.minutes / 60) ++ leBytes 4 e.cycles ++ leBytes 8 e.ticks ++ leBytes 4 b.pending ++
    leBytes 1 (e.minutes % 60) ++ leBytes 3 0 ++ sliceBytes e.payload 0 n

/-- A record placed in the ring over the oldest bytes (R526): records that lose bytes to it are gone, unflushed ones counted. -/
def State.ringPut (s : State) (code : Nat) (bytes : List Byte) : State :=
  let n := bytes.length
  let at_ := if ringBytes < s.recd.ringAt + n then 0 else s.recd.ringAt
  let hit (k : Record) : Bool := decide (k.offset < at_ + n) && decide (at_ < k.offset + k.bytes.length)
  let lost := (s.recd.ring.filter fun k => hit k && !k.flushed).length
  let k : Record := ⟨s.recd.seqNext, code, bytes, at_, false⟩
  let s1 := s.modRecd fun r =>
    { r with ring := (r.ring.filter fun k => !hit k) ++ [k], ringAt := at_ + n, seqNext := r.seqNext + 1, cleanNow := false }
  if lost = 0 then s1 else s1.raise 0xB80A (leBytes 4 lost)

/-- A flush starts (R527). -/
def State.startFlush (s : State) : State := s.modRecd fun r => { r with flushing := true }

/-- A record made (R524-R527, R554, R562): its code's pending count goes into it, ALERT_N falls from alert_sev on, a critical record or
16 KiB unflushed start a flush, and the next mark is written when half of the allotment is used (R522). -/
def State.makeRecord (s : State) (e : RawEvent) : State :=
  let b := s.bucket e.code
  let s1 := (s.setBucket e.code { b with pending := 0, saturated := false, tokens := b.tokens - 1 }).bump (offEv 0x28) 1
  let s2 := (s1.ringPut e.code (s.recordBytes e b)).adopt (offDk 0x108) 0 2
  let low := decide (s2.reg (offDk 0x108) % 4 ≤ severity e.code)
  let s3 := if low then { s2 with pins := { s2.pins with alertLow := true } } else s2
  let s4 := if s3.recd.lastMark ≤ s3.recd.seqNext + 16384 then s3.modRecd Recorder.mark else s3
  if severity e.code = 3 ∨ 16384 ≤ s4.recd.unflushed then s4.startFlush else s4

/-- EVENT_INTAKE (R522-R526): the recorder takes the event at the front of its intake. -/
def execEventIntake (s : State) : Res :=
  .next (match s.recd.intake with
  | [] => s
  | e :: rest =>
    if !s.pins.duskReady then s
    else
      let s1 := s.modRecd fun r => { r with intake := rest }
      if (bucketDefault e.code).isSome && (s1.bucket e.code).tokens == 0 then s1.suppress e.code
      else
        let s2 := if s1.recd.lastMark ≤ s1.recd.seqNext then s1.modRecd Recorder.mark else s1
        if s2.recd.lastMark ≤ s2.recd.seqNext then s2.suppress e.code else s2.makeRecord e)

/-! ### Flushes (R527) -/

/-- FLUSH_NOW (R527, R530): software starts a flush. -/
def execFlushNow (s : State) : Res := .next (if s.pins.duskReady then s.startFlush else s)

/-- The unflushed records of the ring appended to the log, in order. -/
def Recorder.flushAll (r : Recorder) : Recorder :=
  let due := r.ring.filter fun k => !k.flushed
  let q := due.foldl (fun (t : Recorder) k => t.append k) r
  { q with ring := q.ring.map fun k => { k with flushed := true } }

/-- FLUSH_DONE (R527, R522): the records are in the log, at power-down with the clean flag; or the program failed: each failure is counted, the
first is recorded and retried in the next block, the retry's failure gives up (log 53). -/
def execFlushDone (ok : Bool) (s : State) : Res :=
  .next (if !s.pins.duskReady || !s.recd.flushing then s
  else if ok then
    (s.modRecd fun r => { r.flushAll with flushing := false, flushFails := 0, cleanNow := !s.pins.railsOn }).bump (offEv 0x38) 1
  else
    let s1 := s.bump (offEv 0x40) 1
    if s.recd.flushFails = 1 then s1.modRecd fun r => { r with flushing := false, flushFails := 2 }
    else (s1.modRecd fun r => { (r.room 0x1_0000) with flushFails := 1, flashFail := true }).raise 0xB80B (leBytes 1 (s.recd.block % 128)))

/-- LOG_CLEAR (R527, R530): the ring and the flash region are erased; one mark carries the last mark on. -/
def State.logClear (s : State) : State :=
  s.modRecd fun r =>
    let m := r.lastMark
    { r with ring := [], ringAt := 0, flash := [], block := 0, marks := if m = 0 then [] else [(64, m)],
             blockAt := if m = 0 then 0 else 80, flushing := false }

/-- LOG_CLEAR. -/
def execLogClear (s : State) : Res := .next (if s.pins.duskReady then s.logClear else s)

/-! ### Lookups (R528) -/

/-- A read window: ports 0 to 3, SMBus 4. -/
def State.window (s : State) (w : Nat) : Window := lookD s.recd.windows w ⟨0, false, false, false, false, []⟩

/-- A read window set. -/
def State.setWindow (s : State) (w : Nat) (k : Window) : State := s.modRecd fun r => { r with windows := put r.windows w k }

/-- A write of EV_RD_SEQ starts a lookup, or restarts the one in progress. -/
def State.startLookup (s : State) (w : Nat) (n : W64) : State := s.setWindow w { s.window w with seq := n, busy := true }

/-- EV_LOOKUP (R528): at the window of a port that is up, or of SMBus. -/
def execEvLookup (window : Nat) (seq : W64) (s : State) : Res :=
  .next (if s.pins.duskReady && (window == 4 || decide (window < 4) && (s.port window).up) then s.startLookup window seq else s)

/-- The record of a list with the smallest number at or above one sought. -/
def firstFrom (l : List Record) (n : Nat) : Option Record :=
  (l.filter fun k => decide (n ≤ k.seq)).foldl
    (fun (b : Option Record) k => match b with | none => some k | some m => if k.seq < m.seq then some k else b) none

/-- EV_LOOKUP_DONE (R528, R529): the record held with the smallest number at or above the one sought, from the ring or, failing that, from
flash. -/
def execEvLookupDone (window : Nat) (s : State) : Res :=
  .next (let k := s.window window
  if !s.pins.duskReady || !k.busy then s
  else
    let n := k.seq.toNat
    let ring := firstFrom s.recd.ring n
    let flash := firstFrom s.recd.flash n
    let hit : Option (Record × Bool) := match ring, flash with
      | some a, some b => if b.seq < a.seq then some (b, true) else some (a, false)
      | some a, none => some (a, false)
      | none, some b => some (b, true)
      | none, none => none
    match hit with
    | some (r, f) => s.setWindow window ⟨k.seq, false, true, f, decide (n < r.seq), r.bytes⟩
    | none => s.setWindow window ⟨k.seq, false, false, false, false, []⟩)

/-! ### The operating minute (R446, R455, R524, R531) -/

/-- A bucket at an operating-minute boundary: the values most recently written apply, it gains its refill, and holds at most its capacity
(R524, R525, R531). -/
def Bucket.refilled (b : Bucket) : Bucket :=
  let c := max 1 b.newCapacity
  let f := max 1 b.newRefill
  { b with capacity := c, refill := f, tokens := min (b.tokens + f) c }

/-- Every bucket refilled; those of codes never touched stand at their capacity. -/
def State.refill (s : State) : State :=
  s.modRecd fun r => { r with buckets := r.buckets.map fun e => if (bucketDefault e.1).isSome then (e.1, e.2.refilled) else e }

/-- Spare cores left on a die. -/
def State.sparesOn (s : State) (d : Nat) : Nat := ((List.range 68).filter fun i => s.kind (d * 68 + i) == .spare).length

/-- THERM_N is low (R552). -/
def State.thermLow (s : State) : Bool := s.pins.thermBoard || s.pins.thermModule

/-- A level from thresholds that a value reaches. -/
def levelOf (v : Nat) (t : List Nat) : Nat := (t.filter fun x => decide (x ≤ v)).length

/-- Whether a hub die has failed over: within the minute, or it is still out of service (R446, R514, R515). -/
def State.hubDown (s : State) : Bool :=
  !s.sec.hubFails.isEmpty || s.sec.hubs.any fun h => h == .resetting || h == .retired

/-- The level of each risk input (R446). -/
def State.riskInputsNow (s : State) (o : MinuteObs) : List Nat :=
  let ev (c : Nat) : Bool := s.surv.minuteEvents.contains c
  let fewest := ((List.range 16).map fun d => s.sparesOn d).foldl min 4
  let narrow := s.surv.pair == .paired && fld (s.reg (offPeer s.surv.partner 0)) 2 2 != 3
  [ levelOf o.hbmCorrected [1000, 10000],
    if ev 0x4803 || ev 0x4804 then 3 else if ev 0x4802 then 2 else b2n (ev 0x4801),
    if o.sramUncorrectable then 2 else levelOf o.sramCorrected [1000],
    if fewest = 0 then 2 else b2n (fewest == 1),
    if narrow then 2 else b2n (ev 0x7801 || ev 0x8802),
    levelOf o.hottestStack [90, 95, 100],
    if o.lowestInputMv < 40500 then 3 else if o.lowestInputMv < 42000 then 2 else b2n (decide (o.lowestInputMv < 44000)),
    if s.thermLow then 3 else 0,
    if s.sec.hubStandby.isNone then 3 else if s.hubDown then 2 else 0 ]

/-- The input levels packed as DK_RISK_STATUS has them. -/
def riskPack : List Nat → Nat
  | [] => 0
  | l :: ls => l + 4 * riskPack ls

/-- A change of the risk level is counted and recorded (R446, R460). -/
def State.setRisk (s : State) (level : Nat) : State :=
  if level = s.surv.riskLevel then s
  else
    let old := s.surv.riskLevel
    ((s.modSurv fun v => { v with riskLevel := level, riskBelow := 0 }).bump (offDk 0x818) 1).raise 0xB806
      (leBytes 1 old ++ leBytes 1 level ++ leBytes 4 (riskPack s.surv.riskInputs))

/-- The risk monitor at an operating minute (R446, R461). -/
def State.risk (s : State) (o : MinuteObs) : State :=
  let inputs := s.riskInputsNow o
  let top := inputs.foldl max 0
  let s1 := (s.adopt (offDk 0x800) 3 8).modSurv fun v =>
    { v with riskInputs := inputs, riskBelow := if top < v.riskLevel then v.riskBelow + 1 else 0, minuteEvents := [] }
  let ctl := s1.reg (offDk 0x800)
  if bit ctl 2 then s1.setRisk (ctl % 4)
  else if s1.surv.riskLevel < top then s1.setRisk top
  else if max 1 (fld ctl 3 8) ≤ s1.surv.riskBelow then s1.setRisk (s1.surv.riskLevel - 1)
  else s1

/-- Cores whose corrected errors of the minute reach the sparing threshold are replaced (R455, R461). -/
def State.sparing (s : State) (o : MinuteObs) : State :=
  let s1 := s.adopt (offDk 0x820) 0 12
  let t := s1.reg (offDk 0x820) % 4096
  if t = 0 then s1
  else (o.coreErrors.filter fun e => decide (t ≤ e.2) && decide (e.1 < 1088)).foldl (fun (u : State) e => u.startReplace e.1) s1

/-- OPERATING_MINUTE (R446, R455, R484, R521, R524, R527, R529): the refill comes first; then the monitor, sparing, and a flush. Counts of
relocks (R474) and failovers (R514) start again. -/
def execOperatingMinute (obs : MinuteObs) (s : State) : Res :=
  .next (if !s.pins.duskReady then s
  else
    let s1 := s.refill.modRecd fun r => { r with opMinutes := r.opMinutes + 1 }
    let s2 := ((s1.risk obs).sparing obs).setReg (offPg 0x38) s1.pwr.minuteLowMv
    let pwr : Power := { s2.pwr with minuteLowMv := 0, dies := s2.pwr.dies.map fun e => (e.1, { e.2 with relocksArith := 0, relocksCtl := 0 }) }
    { s2 with pwr := pwr, sec := { s2.sec with hubFails := [] } }.startFlush)

end Sys2Proof.Machine
end

