-- ==== Sys2Proof/Machine/Power.lean ====
section
/-! DEFINITION. Power and clocks (R465-R490, R545-R560): the governor's loops, gating and waking of cores and dies, loss of lock, the pins and
the sequences of power-up, power-down and reset. -/

namespace Sys2Proof.Machine

open Sys2Proof

/-- The power state changed. -/
def State.modPwr (s : State) (f : Power → Power) : State := { s with pwr := f s.pwr }

/-- The pins changed. -/
def State.modPins (s : State) (f : Pins → Pins) : State := { s with pins := f s.pins }

/-- Whether a core holds work: an entry in a queue, or work outstanding (R469). -/
def Core.holdsWork (k : Core) : Bool := !(k.teQ.isEmpty && k.geQ.isEmpty && k.meQ.isEmpty && k.work.isEmpty)

/-! ### THERM_N (R470, R552) -/

/-- Every cap is held at 8 while THERM_N is low (R470): those of the dies and of every core. -/
def State.holdCaps (s : State) : State :=
  let s1 := (List.range dieCount).foldl (fun (t : State) d => t.modDie d fun k => { k with cap := 8 }) s
  { s1 with cores := (List.range 1088).map fun c => (c, { s1.core c with cap := 8 }) }

/-- THERM_N goes low: therm_seen, PWR_THERMAL, every cap at 8 (R470, R484, R489). The sensor byte has no stated coding, and a fall that the
board drives no temperature: free values. -/
def State.thermFalls (s : State) (temp : Option Nat) : State :=
  let d := s.draw
  let d2 := d.2.draw
  let t := temp.getD (d2.1.toNat % 256)
  ((d2.2.setBit (offPg 8) 3).raise 0xB802 (leBytes 1 (d.1.toNat % 256) ++ leBytes 1 t)).holdCaps

/-- The module drives THERM_N, or stops; the line falls where the board did not hold it low. -/
def State.driveTherm (s : State) (low : Bool) (temp : Nat) : State :=
  let falls := low && !s.thermLow
  let s1 := s.modPins fun p => { p with thermModule := low }
  if falls then s1.thermFalls (some temp) else s1

/-! ### The slow loop (R466-R470) -/

/-- TDP in units of 100 W (R466). -/
def Grade.tdp : Grade → Nat
  | .full => 92
  | .tray => 82

/-- The power limit in effect, in watts (R484). -/
def State.powerLimit (s : State) : Nat := 100 * clamp 50 s.ident.grade.tdp (fld (s.reg (offPg 0)) 0 7)

/-- peak_en in effect. -/
def State.peakEn (s : State) : Bool := bit (s.reg (offPg 0)) 7

/-- A 32-bit difference, which wraps. -/
def sub32 (a b : Nat) : Nat := (a + 2 ^ 32 - b % 2 ^ 32) % 2 ^ 32

/-- What the current limit of 250 A allows at a voltage in mV, in watts (R466, R467). -/
def currentWatts (mv : Nat) : Nat := 250 * mv / 1000

/-- One interval of R467 from mean power and voltage: the state of the loop, and whether a peak starts. -/
def Power.interval (k : Power) (limit p mv : Nat) (therm peak : Bool) : Power × Bool :=
  let lim := min limit (currentWatts mv)
  let k1 : Power := if therm then { k with gov := .cool, cool := 900, bCool := sub32 lim (k.excess * 1000 / 90000) } else k
  match k1.gov with
  | .normal => if lim < p ∧ peak then ({ k1 with gov := .peak, overN := 1, excess := (p - lim) / 10 % 2 ^ 32 }, true) else (k1, false)
  | .peak =>
    let k2 : Power :=
      if lim < p then { k1 with overN := (k1.overN + 1) % 256, excess := (k1.excess + (p - lim) / 10) % 2 ^ 32 } else k1
    (if p ≤ lim ∨ k2.overN = 99 then { k2 with gov := .cool, cool := 900, bCool := sub32 lim (k2.excess * 1000 / 90000) } else k2, false)
  | .cool =>
    let n := (k1.cool + 2 ^ 16 - 1) % 2 ^ 16
    (if n = 0 then { k1 with cool := 0, gov := .normal, excess := 0 } else { k1 with cool := n }, false)

/-- The module budget of an interval, and whether 250 A set it (R467, R484). -/
def Power.moduleBudget (k : Power) (limit mv : Nat) (peak : Bool) : Nat × Bool :=
  let amps := currentWatts mv
  if k.gov = .cool then (k.bCool, decide (amps < limit))
  else if peak then (min 10000 amps, decide (amps < 10000))
  else (min limit amps, decide (amps < limit))

/-- A die with an awake core (R468). -/
def State.dieAwake (s : State) (d : Nat) : Bool := !(s.die d).gated && (s.enabledOn d).any fun c => (s.core c).clk == .running

/-- The part of what remains above the floors that a die's demand earns (R468); where no die demands anything above its floor the spec
divides by nothing: a free value. -/
def State.dieShare (s : State) (above demand total : Nat) : Nat × State :=
  if total = 0 then
    let d := s.draw
    (d.1.toNat % (above + 1), d.2)
  else (above * demand / total, s)

/-- The budget of one die with its readings (R468, R470): lowered by 5 % for each interval in which it is too hot; PWR_THERMAL on the first. -/
def State.dieBudget (s : State) (d above total : Nat) (r : DieReading) : State :=
  let sh := if s.dieAwake d then s.dieShare above (r.power - r.floor) total else (0, s)
  let share := if s.dieAwake d then r.floor + sh.1 else 0
  let hot := decide (100 ≤ r.temp) || decide (95 ≤ r.stackA) || decide (95 ≤ r.stackB)
  let n := if hot then (s.die d).thermal + 1 else 0
  let s1 := sh.2.modDie d fun k =>
    { k with power := r.power, temp := r.temp, stackA := r.stackA, stackB := r.stackB, thermal := n, budget := share * 95 ^ n / 100 ^ n }
  if n = 1 then
    let f := s1.draw
    f.2.raise 0xB802 (leBytes 1 (f.1.toNat % 256) ++ leBytes 1 (if 100 ≤ r.temp then r.temp else max r.stackA r.stackB))
  else s1

/-- The dies of a reading with their numbers. -/
def slowEach (o : SlowObs) : List (Nat × DieReading) := (List.range dieCount).zip o.dies

/-- The budgets of the dies from the module budget (R468). -/
def State.divide (s : State) (o : SlowObs) (b : Nat) : State :=
  let awake := (slowEach o).filter fun e => s.dieAwake e.1
  let above := b - o.other - ((slowEach o).map fun e => e.2.floor).sum
  let total := (awake.map fun e => e.2.power - e.2.floor).sum
  (slowEach o).foldl (fun (t : State) e => t.dieBudget e.1 above total e.2) s

/-- The hottest reading that drives THERM_N, and whether it does (R470). -/
def slowAlarm (o : SlowObs) : Bool × Nat :=
  let hbmTemps := o.dies.flatMap fun r => [r.stackA, r.stackB]
  let chips := o.hubTemp :: o.dies.map fun r => r.temp
  (chips.any (fun t => decide (110 ≤ t)) || hbmTemps.any (fun t => decide (100 ≤ t)), (chips ++ hbmTemps).foldl max 0 % 256)

/-- Core-microseconds that an interval adds for power-gated cores (R486). -/
def State.countGated (s : State) : State :=
  (List.range dieCount).foldl (fun (t : State) d =>
    let n := ((t.enabledOn d).filter fun c => (t.core c).clk == .powerGated).length
    if n = 0 then t else t.bump (offPgDie d 0x30) (100 * n)) s

/-- The readings and running counts of an interval: input, energy, milliseconds capped, lowest voltage (R484). -/
def State.meter (s : State) (o : SlowObs) : State :=
  let capped := (List.range dieCount).any fun d => decide ((s.die d).cap < 64)
  let s1 := s.setReg (offPg 0x10) (o.milliVolts % 2 ^ 16 + o.watts * 10000 / max 1 o.milliVolts % 2 ^ 16 * 2 ^ 16)
  s1.modPwr fun k =>
    { k with energy := k.energy + o.watts, capped := k.capped + b2n capped,
             minuteLowMv := if k.minuteLowMv = 0 then o.milliVolts else min k.minuteLowMv o.milliVolts }

/-- SLOW_LOOP (R465-R470, R485): one interval of 100 microseconds; one whose mean voltage lies outside 40 to 60 V takes the input out of its
range (log 48). -/
def execSlowLoop (obs : SlowObs) (s : State) : Res :=
  .next (if !s.pins.duskReady then s
  else
    let ranged := decide (40000 ≤ obs.milliVolts) && decide (obs.milliVolts ≤ 60000)
    let s0 := ((s.adopt (offPg 0) 0 8).meter obs).modPins fun p => { p with inRange := p.inRange && ranged }
    let al := slowAlarm obs
    let s1 := s0.driveTherm al.1 al.2
    let limit := s1.powerLimit
    let r := s1.pwr.interval limit obs.watts obs.milliVolts s1.thermLow s1.peakEn
    let b := r.1.moduleBudget limit obs.milliVolts s1.peakEn
    let s2 := s1.modPwr fun _ => { r.1 with budget := b.1, currentLimited := b.2 }
    let s3 := if r.2 then (s2.bump (offPg 0x28) 1).raise 0xB801 (leBytes 2 limit ++ leBytes 2 obs.milliVolts) else s2
    (s3.divide obs b.1).countGated)

/-- FAST_LOOP (R469, R470): one microsecond of a die's governor. -/
def execFastLoop (die power : Nat) (s : State) : Res :=
  .next (if dieCount ≤ die || !s.alive || (s.die die).gated then s
  else
    let k := s.die die
    let cap :=
      if s.thermLow then 8
      else if k.budget < power then max 8 (k.cap - 4)
      else if power * 100 < k.budget * 98 then min 64 (k.cap + 1)
      else k.cap
    let s1 := s.modDie die fun k => { k with cap := cap }
    { s1 with cores := s1.cores.map fun e => if e.1 / 68 = die ∧ e.2.holdsWork then (e.1, { e.2 with cap := cap }) else e })

/-! ### Gating (R151, R475, R477, R487) -/

/-- A core that has nothing to do (R151). -/
def Core.idleNow (k : Core) : Bool := !k.holdsWork && k.inflight.isEmpty && k.xfers.isEmpty && k.held.isEmpty

/-- A core's constellation is being saved or restored. -/
def State.coreSaving (s : State) (c : Nat) : Bool := match s.coreSeq c with | some (_, q) => q.preempting | none => false

/-- The spread takes effect on a die at a moment at which each of its enabled cores is gated (R485); 0b11 takes effect as off. -/
def State.adoptSpread (s : State) (d : Nat) : State :=
  if (s.enabledOn d).all fun c => (s.core c).clk != .running then
    s.modDie d fun k => { k with spread := min 2 (fld (s.written (offPg 0x18)) 0 2) }
  else s

/-- A core's idle thresholds as it goes idle (R487): 0 counts as 1 for cg_idle, and pg_idle_log2 lies from 4 to 24. They stand as they were
written at the core's entry into idle: what is written while it is idle waits for the next entry, which follows its next stream entry. -/
def State.adoptIdle (s : State) (c : Nat) : State :=
  let v := s.written (offPgDie (c / 68) 0)
  if (look (s.die (c / 68)).idles c).isSome then s
  else s.modDie (c / 68) fun k => { k with idles := put k.idles c (max 1 (fld v 0 8) + 256 * clamp 4 24 (fld v 8 5)) }

/-- The cores of a die that are idle as its thresholds are about to be written keep those of their entry into idle (R487). -/
def State.holdIdles (s : State) (d : Nat) : State :=
  (coresOf d).foldl (fun (t : State) c => if t.kind c == .enabled && (t.core c).idleNow then t.adoptIdle c else t) s

/-- CLOCK_GATE (R151, R475, R487): an idle core stops its clocks. -/
def execClockGate (core : Nat) (s : State) : Res :=
  let k := s.core core
  .next (if 1088 ≤ core || !s.alive || s.kind core != .enabled || k.clk != .running || k.waking || !k.idleNow || s.coreSaving core then s
  else ((s.adoptIdle core).modCore core fun k => { k with clk := .clockGated }).adoptSpread (core / 68))

/-- POWER_GATE (R475, R487): a core that stayed clock-gated cuts its logic power; with the last of a die its idle period starts. -/
def execPowerGate (core : Nat) (s : State) : Res :=
  let k := s.core core
  .next (if 1088 ≤ core || !s.alive || k.clk != .clockGated || k.waking then s
  else (s.modCore core fun k => { k with clk := .powerGated }).startDieIdle (core / 68))

/-- The wake of a sleeping core starts (R152, R475, R476); a power-gated core waits for a ramp. -/
def State.wakeCore (s : State) (c : Nat) : State :=
  let k := s.core c
  let d := c / 68
  if k.clk == .running || k.waking then s
  else
    let s1 := s.bump (offZs c 0x58) 1
    if k.clk = .clockGated then
      (s1.bump (offPgDie d 0x20) 1).modCore c fun k => { k with waking := true }
    else
      ((s1.bump (offPgDie d 0x28) 1).modCore c fun k => { k with waking := true, rampPhase := 1 }).modDie d fun k =>
        { k with rampWait := k.rampWait ++ [c] }

/-- CORE_WAKE_REQUEST (R152, R475-R478): what the wake port holds starts a wake; at a gated die it wakes the die first, and the core's wake
starts once the die serves. -/
def execCoreWakeRequest (core : Nat) (s : State) : Res :=
  let d := core / 68
  .next (if 1088 ≤ core || !s.alive || (s.core core).clk == .running then s
  else if (s.die d).gated then (s.wakeDie d).modDie d fun k => { k with coreReqs := addNew k.coreReqs core }
  else s.wakeCore core)

/-- Core rails that ramp on a die (R476, R486). -/
def State.ramps (s : State) (d : Nat) : Nat := ((coresOf d).filter fun c => (s.core c).rampPhase == 2).length

/-- RAMP_ADMITTED (R476): the wake that has waited longest gets one of the die's 8 ramps. -/
def execRampAdmitted (core : Nat) (s : State) : Res :=
  let d := core / 68
  .next (if !s.alive || (s.die d).rampWait.head? != some core || decide (8 ≤ s.ramps d) then s
  else (s.modDie d fun k => { k with rampWait := k.rampWait.drop 1 }).modCore core fun k => { k with rampPhase := 2 })

/-- A held arrival delivered (R152). -/
def State.deliverHeld (s : State) (c : Nat) (a : HeldArrival) : State :=
  match a with
  | .entry e x => s.modCore c fun k => k.setQueue e (k.queue e ++ [x]) (k.pos e)
  | .token ch => if (match s.coreCtx c with | some x => s.live x | none => false) then s.tokenArrives c ch else s.bump (offZs c 0x50) 1
  | .request load h a data =>
    if load then
      s.respond h 0 (if h.partialMask then data.map fun e => cellGet s.mem (a + e.1) else cellGets s.mem a (min (8 * h.len) (128 - a % 128)))
    else
      let mem : List Host.Cell := data.foldl (fun (m : List Host.Cell) (e : Nat × Byte) => cellPut m (a + e.1) e.2) s.mem
      { s with mem := mem }.respond h 0 []

/-- A core runs again: its units start from rest (R122, R476), and its held arrivals are delivered in order (R152). -/
def State.coreRuns (s : State) (c : Nat) : State :=
  let held := (s.core c).held
  let s1 := s.modCore c fun k => { k with clk := .running, waking := false, rampPhase := 0, held := [] }
  let te : Tab TeUnitSt := s1.te.map fun (e : Nat × TeUnitSt) => if e.1 / 128 = c then (e.1, { e.2 with rate := 0, credit := 0, ready := false }) else e
  held.foldl (fun (t : State) a => t.deliverHeld c a) { s1 with te := te }

/-- A core that has failed its check is replaced as one that has reported TE_ARRAY_PARITY (R455, R476). -/
def State.coreFails (s : State) (c : Nat) : State :=
  let s1 := (s.setBit (offTe c 8) 4).modCore c fun k => { k with faulty := true }
  if (s1.coreSeq c).isSome then s1.faultCore c 0x2011 0 else s1.replaceDead c

/-- CORE_WAKE_DONE (R475, R476): the clocks run; a power-gated core's state has been read back and checked. Of one that fails the context is
killed and the core replaced; what its wake port held is delivered all the same (R152), tokens to a context that is no longer live (R144). -/
def execCoreWakeDone (core : Nat) (checkOk : Bool) (s : State) : Res :=
  let k := s.core core
  .next (if !s.alive || !k.waking || (k.clk == .powerGated && k.rampPhase != 2) then s
  else if k.clk = .powerGated ∧ !checkOk then
    let s1 := (s.modCore core fun k => { k with clk := .running, waking := false, rampPhase := 0, held := [] }).coreFails core
    k.held.foldl (fun (t : State) a => t.deliverHeld core a) s1
  else s.coreRuns core)

/-- Whether a request waits at a slice or controller of a die (R477). -/
def State.dieAsked (s : State) (d : Nat) : Bool :=
  s.cache.misses.any fun m => (s.placeOf m.2.part m.2.line).1 / 32 == d || stackOf (m.2.line * 128) / 2 == d

/-- DIE_GATE (R477, R552): a die idle for its time gates itself, unless WAKE_N is low or a request is at its slices or controllers. -/
def execDieGate (die : Nat) (s : State) : Res :=
  .next (if dieCount ≤ die || s.dieAsked die || !s.alive || s.pins.wakeLow || (s.die die).gated || !(bit (s.reg (offPgDie die 0)) 13) ||
      (s.enabledOn die).any (fun c => (s.core c).clk != .powerGated || (s.core c).waking) then s
  else s.modDie die fun k => { k with gated := true })

/-- DIE_WAKE_REQUEST (R477). -/
def execDieWakeRequest (die : Nat) (s : State) : Res := .next (if dieCount ≤ die || !s.alive then s else s.wakeDie die)

/-- DIE_WAKE_DONE (R477, R478): the die, its PLLs locked, serves again: an idle period of it starts anew, the requests that waited go on,
and core wakes start. -/
def execDieWakeDone (die : Nat) (s : State) : Res :=
  .next (if s.alive && (s.die die).waking && !(s.die die).unlocked then
    let reqs := (s.die die).coreReqs
    let s1 := (s.modDie die fun k => { k with gated := false, waking := false, coreReqs := [] }).startDieIdle die
    (reqs.foldl (fun (t : State) c => t.wakeCore c) s1).releaseReads die
  else s)

/-- WAKE_N_LOW (R552): every gated die wakes, and none gates. -/
def execWakeNLow (s : State) : Res :=
  .next (let s1 := s.modPins fun p => { p with wakeLow := true }
  if s.alive then (List.range dieCount).foldl (fun (t : State) d => t.wakeDie d) s1 else s1)

/-- WAKE_N_RELEASE (R552). -/
def execWakeNRelease (s : State) : Res := .next (s.modPins fun p => { p with wakeLow := false })

/-- THERM_N_LOW (R470, R552): the board drives the alarm. -/
def execThermNLow (s : State) : Res :=
  .next (let falls := !s.thermLow
  let s1 := s.modPins fun p => { p with thermBoard := true }
  if falls && s.pins.duskReady then s1.thermFalls none else s1)

/-- THERM_N_RELEASE (R470): the board lets go; once the line is high the governor goes on with the cooldown of R467. -/
def execThermNRelease (s : State) : Res :=
  .next (let s1 := s.modPins fun p => { p with thermBoard := false }
  if !s.pins.thermBoard || s1.thermLow || s1.pwr.gov == .cool then s1
  else
    let lim := min s1.powerLimit (currentWatts (s1.reg (offPg 0x10) % 2 ^ 16))
    s1.modPwr fun k => { k with gov := .cool, cool := 900, bCool := sub32 lim (k.excess * 1000 / 90000) })

/-! ### Clocks (R473, R474) -/

/-- DUSK_INPUT_LOSS (R473): the 25 MHz input has stopped. -/
def execDuskInputLoss (s : State) : Res :=
  .next (if !s.pins.inputUp || s.pwr.oscBackup then s
  else ((s.modPwr fun k => { k with oscBackup := true }).setBit (offDk 0) 3).raise 0xB803 [])

/-- DUSK_INPUT_RESTORED (R473): it has run for 1 ms. -/
def execDuskInputRestored (s : State) : Res := .next (s.modPwr fun k => { k with oscBackup := false })

/-- The contexts with a core on a die. -/
def State.ctxsOn (s : State) (d : Nat) : List Nat :=
  (s.seqs.filter fun q => q.2.members.any fun c => c / 68 == d).foldl (fun l q => addNew l q.2.ctx) []

/-- Contexts killed with CLOCK_LOST (R474, R490). -/
def State.clockLost (s : State) (l : List Nat) : State :=
  l.foldl (fun (t : State) x => if t.live x then t.faultCtx x 0xB010 0 else t) s

/-- PLL_LOSS_OF_LOCK (R474, R478): the die's engines stop, and every context with a core on it faults; during the wake of a gated die none is
there to fault. The PLL byte of the event has no stated coding: a free value. -/
def execPllLossOfLock (die : Nat) (control : Bool) (s : State) : Res :=
  .next (if dieCount ≤ die || !s.alive || (s.die die).gated && !(s.die die).waking then s
  else
    let f := s.draw
    let b : Nat := if control then f.1.toNat % 256 else f.1.toNat / 256 % 256
    let s0 := f.2.modDie die fun k => if control then { k with ctlLost := true } else { k with pllLost := true }
    let s1 := if (s.die die).gated then s0 else s0.clockLost (s.ctxsOn die)
    (s1.setBit (offPgDie die 8) 14).raise 0xB804 (leBytes 1 die ++ leBytes 1 b))

/-- The cores of a die retired, and gone from their partitions (R474). -/
def State.retireDie (s : State) (d : Nat) : State :=
  let l := (coresOf d).filter fun c => s.kind c == .enabled || s.kind c == .spare
  (l.foldl (fun (t : State) c => t.setKind c .retired) s).mapParts fun cs => cs.filter fun c => c / 68 != d

/-- The slots of a die's two stacks retired (R474, R316). -/
def State.retireStacks (s : State) (d : Nat) : State :=
  (s.setReg (offHc (2 * d) 0x10) (2 ^ 64 - 1)).setReg (offHc (2 * d + 1) 0x10) (2 ^ 64 - 1)

/-- A PLL of a die is in lock again, or its die goes on without it (R474). -/
def State.relocked (s : State) (d : Nat) (control : Bool) : State :=
  s.modDie d fun k => if control then { k with ctlLost := false } else { k with pllLost := false }

/-- PLL_RELOCK_DONE (R474): the die returns to service; after three failures in an operating minute its cores are retired and the rest of it
serves, or, with the control PLL, the device fences itself. -/
def execPllRelockDone (die : Nat) (control ok : Bool) (s : State) : Res :=
  .next (if dieCount ≤ die || !s.alive || !(if control then (s.die die).ctlLost else (s.die die).pllLost) then s
  else if ok then (s.relocked die control).releaseReads die
  else if control then
    let s1 := s.modDie die fun k => { k with relocksCtl := k.relocksCtl + 1 }
    if (s1.die die).relocksCtl = 3 then
      (((s1.clockLost (s1.objs.ctxs.map (·.1))).retireDie die).retireStacks die).selfFence
    else s1
  else
    let s1 := s.modDie die fun k => { k with relocksArith := k.relocksArith + 1 }
    if (s1.die die).relocksArith = 3 then ((s1.retireDie die).relocked die false).releaseReads die else s1)

/-! ### Reset and power (R311, R481-R483, R546, R556-R558) -/

/-- Registers that a reset leaves: those of the blocks that are powered with the dusk domain (R554, log 18). -/
def keptOff (o : Nat) : Bool := decide (0x3_0000 ≤ o) && decide (o < 0x6_0000) || decide (0x7_0000 ≤ o) && decide (o < 0x8_0000)

/-- What every reset wipes (R311): memories, caches, objects, links and every register but those of the dusk domain's blocks. Flash, fuses,
row maps, core positions and the dusk domain's own state stay; the zero wipe writes every uncorrectable half, whose rows are then remapped
(R307, R309); caps stay at 8 while THERM_N is low (R470). -/
def State.wipeAll (s : State) : State :=
  let r := State.reset
  let hbm : Hbm := { r.hbm with rowMap := s.hbm.rowMap, spareUsed := s.hbm.spareUsed,
                                remapping := s.hbm.bad.foldl (fun l h => addNew l (rowKey (h * 64))) s.hbm.remapping,
                                softRep := s.hbm.softRep, hardRep := s.hbm.hardRep }
  let surv : Surv := { r.surv with riskLevel := s.surv.riskLevel, riskInputs := s.surv.riskInputs, riskBelow := s.surv.riskBelow,
                                   minuteEvents := s.surv.minuteEvents }
  let fab : Fabric := { r.fab with svcPeer := s.fab.svcPeer }
  let sec : Sec := { s.sec with bootDone := false, privKey := 0, token := [], prov := [], flashData := [], flashOp := none, mailboxes := [],
                                attQueue := [], upd := { r.sec.upd with lastCode := s.sec.upd.lastCode } }
  let pwr : Power := { s.pwr with dies := [] }
  let t : State := { s with regs := s.regs.filter (fun e => keptOff e.1), staged := s.staged.filter (fun e => keptOff e.1), once := [], mem := [],
                            cache := r.cache, hbm := hbm, cores := [], te := [], ge := [], seqs := [], objs := r.objs, loader := r.loader, host := r.host,
                            fab := fab, uu := r.uu, surv := surv, pwr := pwr, sec := sec }
  if s.thermLow then t.holdCaps else t

/-- Whether a hub die is retired. -/
def State.hubGone (s : State) (h : Nat) : Bool := s.sec.hubs[h]? == some .retired

/-- The hub dies after a reset (R513): the lowest that passes its self-test is active, the next standby, the others spare. Whether a die that
is not retired passes is a free value; one that fails is retired, and without one that passes the lowest number has the role (log 18). -/
def State.chooseHubs (s : State) : State :=
  let d := s.draw
  let ok := (List.range 4).filter fun h => !(s.hubGone h) && d.1.getLsbD h
  let hubs := (List.range 4).map fun h => if ok.head? = some h then HubState.active else if ok.contains h then .standby else .retired
  { d.2 with sec := { d.2.sec with hubs := hubs, hubActive := ok.headD 0, hubStandby := ok[1]? } }

/-- The registers, codes and counters of the SC_ block at their reset values: they count since reset (R517). -/
def State.scReset (s : State) : State :=
  let sc (o : Nat) : Bool := decide (offSc 0 ≤ o) && decide (o < offSc 0 + 0x1_0000)
  { s with regs := s.regs.filter (fun e => !(sc e.1)), staged := s.staged.filter (fun e => !(sc e.1)),
           sec := { s.sec with lastCode := 0, hubCode := 0, flashCode := 0, upd := { s.sec.upd with lastCode := 0 } } }

/-- The reset wipe and the boot begin (R311, R481 step 7, R498). -/
def State.beginBoot (s : State) : State := (s.wipeAll.scReset.chooseHubs).modPins fun p => { p with booting := true }

/-- The rails ramp once PWR_EN is high, the dusk domain runs, the input is in range and no fault is latched (R481, R483). -/
def State.tryPower (s : State) : State :=
  let p := s.pins
  if p.pwrEn && p.duskReady && p.inRange && !p.faultLatch then s.modPins fun p => { p with railsOn := true } else s

/-- Pending counts are discarded at power-down (R524). -/
def State.dropPending (s : State) : State :=
  s.modRecd fun r => { r with buckets := r.buckets.map fun e => (e.1, { e.2 with pending := 0, saturated := false }) }

/-- The rails go off (R482, R483): PG falls, links stop, what R311 wipes is lost, and the recorder flushes. -/
def State.powerDown (s : State) : State :=
  if s.pins.railsOn then
    let t := { s with hbm := { s.hbm with softRep := [] } }
    ((t.wipeAll.modPins fun p => { p with railsOn := false, pg := false, booting := false }).dropPending).startFlush
  else s

/-- INPUT_RISE (R521, R488): the input rises through 20 V. -/
def execInputRise (s : State) : Res :=
  .next (if s.pins.inputUp then s
  else { (s.modPins fun p => { p with inputUp := true }).modRecd (fun r => { r with powerCycles := (r.powerCycles + 1) % 2 ^ 32 }) with
         ticks := 0 })

/-- The lowest mark of the region. -/
def Recorder.firstMark (r : Recorder) : Nat := ((r.marks.map (·.2)).tail).foldl min ((r.marks.map (·.2)).headD 0)

/-- The recorder made ready (R522, R524, R527): numbers go on after the last record of a clean power-down, else from the last mark, with
EV_LOSS for what was skipped: from the number after the last record in flash, or without one from the first number that the first mark's
allotment reserved (log 53). -/
def Recorder.ready (r : Recorder) (clean : Bool) (ticks : Nat) : Recorder :=
  let ok := clean && r.cleanNow
  let m := r.lastMark
  let next := match r.flash.getLast? with | some k => k.seq + 1 | none => r.firstMark - 32768
  let lossy := !ok && m != 0
  let loss : List RawEvent := if lossy then [⟨0xB809, leBytes 8 next ++ leBytes 4 (m - next), r.opMinutes, r.powerCycles, ticks⟩] else []
  { r with intake := loss, ring := [], ringAt := 0, buckets := [], windows := [], flushing := false, flushFails := 0, flashFail := false,
           cleanPrev := ok, cleanNow := false, seqNext := if m = 0 then 0 else if ok then next else m }

/-- DUSK_READY (R481 step 2, R522, R551): the dusk domain leaves reset, samples the straps and readies the recorder; a PWR_EN that was held is
taken. -/
def execDuskReady (clean : Bool) (s : State) : Res :=
  .next (if !s.pins.inputUp || s.pins.duskReady then s
  else
    let s1 := s.modPins fun p => { p with duskReady := true, strapFeed := p.boardFeed, strapSlot := p.boardSlot, strapTray := p.boardTray }
    (s1.modRecd fun r => r.ready clean s1.ticks).tryPower)

/-- PWR_EN_ASSERT (R481): taken at once, or held until the dusk domain runs and the input is in range. -/
def execPwrEnAssert (s : State) : Res := .next (s.modPins fun p => { p with pwrEn := true }).tryPower

/-- INPUT_OPERATING_RANGE (R465, R481): the input enters 40 to 60 V. -/
def execInputOperatingRange (milliVolts : Nat) (s : State) : Res :=
  .next (if s.pins.inputUp && decide (40000 ≤ milliVolts) && decide (milliVolts ≤ 60000) then
    (s.modPins fun p => { p with inRange := true }).tryPower
  else s)

/-- POWER_GOOD (R481 step 5, R557): PG rises; with RESET_N high the boot begins. -/
def execPowerGood (s : State) : Res :=
  .next (if !s.pins.railsOn || s.pins.pg then s
  else
    let s1 := s.modPins fun p => { p with pg := true }
    if s1.pins.resetN then s1.beginBoot else s1)

/-- PWR_EN_DEASSERT (R482, R483): the power-down sequence; a latched fault is cleared. -/
def execPwrEnDeassert (s : State) : Res :=
  .next (s.modPins fun p => { p with pwrEn := false, faultLatch := false }).powerDown

/-- INPUT_FAULT (R465, R483): power-down at once, recorded; no power-up before PWR_EN, where it is asserted, has been deasserted. The cause byte has no stated coding: a
free value for each cause. -/
def execInputFault (cause : FaultCause) (milliVolts : Nat) (s : State) : Res :=
  .next (if !s.pins.duskReady then s
  else
    let d := s.draw
    let v := d.1.toNat
    let c := match cause with | .input => v | .reference => v / 256 | .temperature => v / 2 ^ 16
    let s1 := (d.2.modPins fun p => { p with faultLatch := p.faultLatch || p.pwrEn, inRange := p.inRange && cause != .input }).powerDown
    s1.raise 0xB805 (leBytes 2 milliVolts ++ leBytes 1 (c % 256)))

/-- RESET_N_ASSERT (R557): cores, engines and links stop; PG and the dusk domain go on. -/
def execResetNAssert (s : State) : Res :=
  .next (let s1 := s.modPins fun p => { p with resetN := false, booting := false }
  if s.pins.pg && s.pins.resetN then s1.wipeAll.scReset else s1)

/-- RESET_N_RELEASE (R481, R557): the reset wipe and the boot begin, at once or as PG rises. -/
def execResetNRelease (s : State) : Res :=
  .next (let s1 := s.modPins fun p => { p with resetN := true }
  if s.pins.pg && !s.pins.resetN then s1.beginBoot else s1)

/-- INPUT_FALL (R465, R522, R551): below 20 V nothing runs, and the dusk domain's own state is lost. -/
def execInputFall (s : State) : Res :=
  .next (if !s.pins.inputUp then s
  else
    let r := State.reset
    let s1 := s.wipeAll.modPins fun p =>
      { p with inputUp := false, inRange := false, duskReady := false, railsOn := false, pg := false, booting := false, alertLow := false,
               thermModule := false }
    let surv : Surv := { s1.surv with riskLevel := 0, riskInputs := [], riskBelow := 0, minuteEvents := [] }
    { s1.modRecd (fun k => { k with intake := [], ring := [], ringAt := 0, buckets := [], windows := [], flushing := false }) with
      regs := [], staged := [], smb := r.smb, surv := surv, pwr := r.pwr })

end Sys2Proof.Machine
end

