-- ==== Sys2Proof/Machine/Security.lean ====
section
/-! DEFINITION. Boot, life cycle, hot update, hub dies, the flash window and attestation (R491-R519). -/

namespace Sys2Proof.Machine

open Sys2Proof

/-- The security state changed. -/
def State.modSec (s : State) (f : Sec → Sec) : State := { s with sec := f s.sec }

/-! ### Hub dies (R513-R515) -/

/-- A half of a Burob port leaves service with its hub die (R328); a port left with none goes down (R515). -/
def State.burobHalfOut (s : State) (p half : Nat) : State :=
  let k := s.port p
  if !k.up then s
  else
    let b := halfBit half
    let h := k.halves - andHalves k.halves b
    let k1 : Port := { k with halves := h, retraining := k.retraining - andHalves k.retraining b, cause := k.cause.filter fun c => c.1 != half }
    let s1 := if bit k.halves half then (s.setPort p k1).bump (offBl p 0x88) 1 else s.setPort p k1
    if h = 0 then s1.burobDown p else s1

/-- A half of a tray link leaves service with its hub die; a link left with none goes down (R515). -/
def State.trayHalfOut (s : State) (k half : Nat) : State :=
  if !(s.linkUp (.tray k)) then s
  else
    let h := s.trayHalves k
    let n := h - andHalves h (halfBit half)
    let s1 := { s with fab := { s.fab with halfOut := drop1 s.fab.halfOut (k, half) } }
    if n = 0 then s1.trayDown k
    else if bit h half then (s1.setField (offPeer k 0) 2 2 n).degradeEvent (.tray k) 8
    else s1

/-- The lanes of a scale-out port leave service with a hub die: it changes width, or goes down with both halves gone (R385, R515). -/
def State.scaleHalfOut (s : State) (p half : Nat) : State :=
  if s.servedHalves p = 0 then s.scaleOutDown p else if s.sfState p = 2 then s.sfRetrain p half else s

/-- The hub die before one, modulo 4. -/
def hubBefore (h : Nat) : Nat := (h + 3) % 4

/-- The lane halves of a hub die leave service (R515). -/
def State.hubLanesOut (s : State) (h : Nat) : State :=
  let b := hubBefore h
  let s1 := (s.burobHalfOut h 0).burobHalfOut b 1
  let s2 := (((s1.trayHalfOut h 0).trayHalfOut (h + 4) 0).trayHalfOut b 1).trayHalfOut (b + 4) 1
  (s2.scaleHalfOut h 0).scaleHalfOut b 1

/-- The lane halves of a hub die are retrained (R514 step 7). -/
def State.hubLanesBack (s : State) (h : Nat) : State :=
  let b := hubBefore h
  let s1 := (s.halfRetry (.burob h) 0).halfRetry (.burob b) 1
  let s2 := (((s1.halfRetry (.tray h) 0).halfRetry (.tray (h + 4)) 0).halfRetry (.tray b) 1).halfRetry (.tray (b + 4)) 1
  (s2.halfRetry (.scaleOut h) 0).halfRetry (.scaleOut b) 1

/-- The next passing hub die after one, in ascending order modulo 4 (R513). -/
def nextHub (hubs : List HubState) (h : Nat) : Option Nat :=
  ([1, 2, 3].map fun i => (h + i) % 4).find? fun k => hubs[k]? == some .standby

/-- Failover of a hub die that is active or waits (R514, R516): of the active die the standby takes its roles; the third within an operating
minute retires it. An update in progress stops. -/
def State.failover (s : State) (h : Nat) : State :=
  let active := s.sec.hubActive
  let na := if h = active then s.sec.hubStandby.getD active else active
  if s.sec.hubs[h]? ≠ some .active ∧ s.sec.hubs[h]? ≠ some .standby ∨ na = h then s
  else
    let n := lookD s.sec.hubFails h 0 + 1
    let hubs := ((s.sec.hubs.set h (if 3 ≤ n then .retired else .resetting)).set na .active)
    let sb := if h = active ∨ s.sec.hubStandby = some h then nextHub hubs na else s.sec.hubStandby
    let writing := !s.sec.upd.rollback && (s.sec.upd.stage == .checking || s.sec.upd.stage == .writing || s.sec.upd.stage == .activating)
    let u : UpdState := if writing then { s.sec.upd with stage := .idle, lastCode := 0xA007 } else s.sec.upd
    let s1 := s.modSec fun c => { c with hubs := hubs, hubActive := na, hubStandby := sb, hubFails := put c.hubFails h n, upd := u }
    let s2 := s1.hubLanesOut h
    let s3 := if h = active then s2.raise 0xA808 (leBytes 1 h ++ leBytes 1 na) else s2
    if 3 ≤ n then s3.raise 0xA80A (leBytes 1 h) else s3

/-- Whether a hub die is the active one with no standby (R514). -/
def State.loneHub (s : State) (h : Nat) : Bool := h == s.sec.hubActive && s.sec.hubStandby.isNone

/-- hub_go written (R514, R517). -/
def State.hubGo (s : State) (h : Nat) : State :=
  if s.loneHub h then s.modSec fun c => { c with hubCode := 0xA00D } else s.failover h

/-- HUB_GO (R514, R491, R330): management names a hub die. -/
def execHubGo (port hub : Nat) (s : State) : Res :=
  .next (if 4 ≤ port || 4 ≤ hub || !(s.port port).up then s
  else if port ≠ s.mgmtPort then s.bump (offBl port 0x78) 1
  else (s.setField (offSc 0x18) 0 2 hub).hubGo hub)

/-- HUB_FAILURE_DETECTED (R514): an active die without a standby keeps its role. -/
def execHubFailureDetected (hub : Nat) (s : State) : Res :=
  .next (if 4 ≤ hub || !s.alive then s else if s.loneHub hub then s.raise 0xA809 (leBytes 1 hub) else s.failover hub)

/-- HUB_SELF_TEST_DONE (R514 steps 6 and 7): the die is a spare again and its halves retrain, or it is retired. A die that returns while there
is no standby becomes it (log 19). -/
def execHubSelfTestDone (hub : Nat) (pass : Bool) (s : State) : Res :=
  .next (if s.sec.hubs[hub]? ≠ some .resetting then s
  else if pass then
    (s.modSec fun c => { c with hubs := c.hubs.set hub .standby,
                                hubStandby := if c.hubStandby.isNone then some hub else c.hubStandby }).hubLanesBack hub
  else (s.modSec fun c => { c with hubs := c.hubs.set hub .retired }).raise 0xA80A (leBytes 1 hub))

/-! ### Life cycle (R504-R508) -/

/-- The code of a life-cycle state (R504). -/
def lcCode : LcState → Nat
  | .blank => 0
  | .provisioned => 1
  | .deployed => 2
  | .service => 3
  | .retired => 4

/-- The life-cycle state of a code. -/
def lcOf (n : Nat) : Option LcState :=
  match n with
  | 0 => some .blank
  | 1 => some .provisioned
  | 2 => some .deployed
  | 3 => some .service
  | 4 => some .retired
  | _ => none

/-- The transitions of R505: whether the signer is the operator, and whether a staged record is required. -/
def transition (a b : LcState) : Option (Bool × Bool) :=
  match a, b with
  | .blank, .provisioned => some (false, true)
  | .provisioned, .deployed => some (true, false)
  | .deployed, .service => some (true, false)
  | .service, .deployed => some (true, false)
  | .deployed, .provisioned => some (true, true)
  | .service, .provisioned => some (true, true)
  | .blank, .retired => some (false, false)
  | .provisioned, .retired => some (true, false)
  | .deployed, .retired => some (true, false)
  | .service, .retired => some (true, false)
  | _, _ => none

/-- Bytes staged in a window of the SC_ block; one never written reads 0. -/
def tabBytes (t : Tab Byte) (n : Nat) : List Byte := (List.range n).map fun i => lookD t i 0

/-- Bytes that are all zero. -/
def allZero (b : List Byte) : Bool := b.all fun x => x == 0

/-- The device id (R501): the fused serial in BLANK. -/
def State.deviceIdNow (s : State) : List Byte := if s.sec.lc = .blank then sliceBytes s.sec.serial 0 16 else sliceBytes s.sec.deviceId 0 16

/-- The key that verifies a token of a signer: a vendor key that is not revoked, or the record's operator key (R505, R506). -/
def State.signerKey (s : State) (signer : Nat) : Option (List Byte) :=
  if signer = 0x10 then some (sliceBytes s.sec.provRecord 8 97)
  else if s.sec.revoked.contains signer then none
  else s.sec.vendorHashes[signer]?.map Config.vendorKeyOf

/-- Whether a token's signature verifies under its signer's key (R506). -/
def State.signatureOk (s : State) (t : List Byte) (signer : Nat) : Bool :=
  match s.signerKey signer with
  | some k => ecdsaVerify k (t.take 0x80) (sliceBytes t 0x80 96)
  | none => false

/-- Whether a token's record digest is that of the staged record where one is required, else zero (R506). -/
def State.digestOk (s : State) (t : List Byte) (record : Bool) : Bool :=
  if record then sliceBytes t 32 48 == sha384 (tabBytes s.sec.prov 1024) else allZero (sliceBytes t 32 48)

/-- The code of the first check of R506 that a token fails, or the change it makes. -/
def State.checkToken (s : State) (t : List Byte) : Except Nat (LcState × Bool) :=
  let signer := leAt t 5 1
  if leAt t 0 4 ≠ 0x4E4B_434C then .error 0xA008
  else match lcOf (leAt t 4 1) with
    | none => .error 0xA00A
    | some to_ => match transition s.sec.lc to_ with
      | none => .error 0xA00A
      | some (operator, record) =>
        if s.sec.lcCount = 255 ∧ to_ ≠ .retired then .error 0xA00A
        else if (if operator then signer != 0x10 else decide (4 ≤ signer)) then .error 0xA00A
        else if (if to_ = .service then decide (8 ≤ leAt t 6 1) else leAt t 6 1 != 0) || leAt t 7 1 != 0 then .error 0xA008
        else if leAt t 8 4 ≠ s.sec.lcCount then .error 0xA009
        else if leAt t 12 4 != 0 || sliceBytes t 16 16 != s.deviceIdNow || !(s.digestOk t record) || !(allZero (sliceBytes t 0x50 48)) ||
            !(s.signatureOk t signer) || !(allZero (sliceBytes t 0xE0 32)) then .error 0xA008
        else .ok (to_, record)

/-- An update or a life-cycle change in progress, a unit in trial among them (R512). -/
def State.changing (s : State) : Bool := s.sec.upd.stage != .idle || s.sec.changeStage != 0

/-- lc_go written (R506, R507 steps 1 to 3, R512): the token is checked, the count fused, the state and the pending flag written, and the device
goes silent. A staged record replaces the current one (log 19). -/
def State.lcGo (s : State) : State :=
  if s.changing then s.modSec fun c => { c with lastCode := 0xA004 }
  else
    let t := tabBytes s.sec.token 256
    match s.checkToken t with
    | .error code => s.modSec fun c => { c with lastCode := code }
    | .ok (to_, record) =>
      let rec_ := if record then tabBytes s.sec.prov 1024 else s.sec.provRecord
      let s1 := s.modSec fun c => { c with
        lcCount := min 255 (c.lcCount + 1), changePending := some (c.lc, to_), changeStage := 2, lc := to_, provRecord := rec_,
        mgmtPort := if record then leAt rec_ 6 1 else c.mgmtPort }
      ({ s1 with fab := { s1.fab with svcPeer := leAt t 6 1 } }.wipeAll.writeDir).modPins fun p => { p with booting := false }

/-- LC_GO (R506, R507). -/
def execLcGo (s : State) : Res := .next (if s.alive then s.lcGo else s)

/-- Every register at its reset value, whatever part of the state it shows: the codes of the SC_ block, the buckets, windows and flag of the
recorder, the energy counters, the risk level (R507 step 4). -/
def State.regsReset (s : State) : State :=
  { s.scReset with
    regs := []
    staged := []
    recd := { s.recd with buckets := [], windows := [], flashFail := false }
    pwr := { s.pwr with energy := 0, capped := 0, minuteLowMv := 0 }
    surv := { s.surv with riskLevel := 0, riskInputs := [], riskBelow := 0 } }

/-- The identity key wrapped with AES-256-GCM under the package's key, with a nonce the spec does not state (R501, log 19). -/
def wrapKey (iv : List Byte) (k : Nat) : List Byte := gcmWrap (leBytes 32 Config.packageKey.toNat) iv (leBytes 48 k)

/-- The identity key unwrapped (R498 step 5); 0 where there is none. -/
def State.unwrapKey (s : State) : State :=
  { s with sec := { s.sec with privKey := match gcmUnwrap (leBytes 32 Config.packageKey.toNat) s.sec.wrappedKey with
    | some b => if s.sec.wrappedKey.isEmpty then 0 else leNat b
    | none => 0 } }

/-- Steps 4 and 5 of R507: wipe, registers at their reset values, operator area erased, keys, the pending flag cleared in the directory;
LC_CHANGE recorded. The id of a device whose identity is erased has no stated value: free values. -/
def State.finishChange (s : State) : State :=
  match s.sec.changePending with
  | none => s
  | some (a, b) =>
    let s0 := s.wipeAll.regsReset
    let s1 := s0.modSec fun c => { c with flash := flashWipe c.flash 0x8_0000 0x10_0000, changePending := none, changeStage := 0 }
    let s2 :=
      if b = .provisioned then
        let d := s1.drawBytes 60
        let k := ecSecret (d.1.take 48)
        d.2.modSec fun c => { c with pubKey := ecKey k, wrappedKey := wrapKey (d.1.drop 48) k, deviceId := (sha384 (ecKey k)).take 16, certs := [],
                                     keys := c.keys + 1 }
      else if b = .retired then
        let d := s1.drawBytes 16
        d.2.modSec fun c => { c with pubKey := [], wrappedKey := [], deviceId := d.1, certs := [] }
      else s1
    s2.writeDir.raise 0xA804 (leBytes 1 (lcCode a) ++ leBytes 1 (lcCode b) ++ leBytes 1 s2.sec.lcCount)

/-- LIFE_CYCLE_CHANGE_DONE (R507 steps 4 to 6): the change is finished, and the device boots. -/
def execLifeCycleChangeDone (s : State) : Res :=
  .next (if s.alive && s.sec.changeStage == 2 && !s.pins.booting then s.finishChange.beginBoot else s)

/-! ### Boot (R496-R499) -/

/-- Trial slots of a unit are marked invalid, each recorded as FW_ROLLBACK (R497). -/
def State.dropTrials (s : State) (u : Nat) : State :=
  [false, true].foldl (fun (t : State) b =>
    let k := (t.fwUnit u).slot b
    if k.state = .trial then
      (t.modFw u fun w => w.setSlot b { k with state := .invalid }).raise 0xA807 (leBytes 1 u ++ leBytes 1 (b2n b) ++ leBytes 4 k.version)
    else t) s

/-- The committed slots of a unit in descending seq (R497). -/
def FwUnit.order (w : FwUnit) : List Bool :=
  (if w.a.seq < w.b.seq then [true, false] else [false, true]).filter fun b => (w.slot b).state == .committed

/-- The slots of a unit tried in order: the first that passes runs; one that fails is marked invalid and recorded (R497). -/
def State.trySlots : List Bool → Nat → State → State
  | [], u, s => s.modFw u fun w => { w with running := none }
  | b :: bs, u, s =>
    let code := s.checkSlot u b
    if code = 0 then s.modFw u fun w => { w with running := some b }
    else
      let s1 := (s.modFw u fun w => w.setSlot b { w.slot b with state := .invalid }).modSec fun c => { c with lastCode := code }
      State.trySlots bs u (s1.raise 0xA802 (leBytes 1 u ++ leBytes 1 (b2n b) ++ leBytes 2 code))

/-- A unit booted; from a flash outside the limits none is (R492, R497). -/
def State.bootUnit (s : State) (u : Nat) : State :=
  if s.sec.flashBad then s.modFw u fun w => { w with running := none }
  else
    let t := s.dropTrials u
    State.trySlots (t.fwUnit u).order u t

/-- The directory written again where a boot has marked slots (R496, R497). -/
def State.keepDir (s t : State) : State := if s.dirContents = t.dirContents then t else t.writeDir

/-- Units without a bootable slot, as a mask (R499, R517). -/
def State.noImage (s : State) : Nat := ((List.range 6).map fun u => if (s.fwUnit u).running.isNone then 2 ^ u else 0).sum

/-- The slot byte of each unit in BOOT_DONE; of a unit that does not run, a free value. -/
def State.slotBytesNow : List Nat → State → List Byte × State
  | [], s => ([], s)
  | u :: us, s =>
    let h : List Byte × State := match (s.fwUnit u).running with | some b => (leBytes 1 (b2n b), s) | none => s.drawBytes 1
    let r := State.slotBytesNow us h.2
    (h.1 ++ r.1, r.2)

/-- The Burob ports begin to train (R498 step 6): what counts as a retry comes after (R326). -/
def State.startTraining (s : State) : State :=
  if s.linksTrain then (List.range 4).foldl (fun (t : State) p => t.setPort p { t.port p with training := true, retry := false }) s else s

/-- Whether the boot flash lies within the limits of R492. -/
def flashOk (f : FlashParams) : Bool := decide (512 ≤ f.megabits) && f.fourByte && f.read114 && f.erase64k

/-- BOOT_DONE (R492, R496-R499, R501, R507): the flash is discovered, the directory read, an unfinished change completed, the slots are
chosen, the identity key unwrapped, and the units run. -/
def execBootDone (flash : FlashParams) (s : State) : Res :=
  .next (if !s.alive || !s.pins.booting then s
  else
    let sf := s.modSec fun c => { c with flashBad := !flashOk flash }
    let sd := sf.readDir
    let s0 := if sd.sec.changeStage = 2 then sd.finishChange else sd
    let s1 := (s0.keepDir ((List.range 6).foldl (fun (t : State) u => t.bootUnit u) s0)).unwrapKey
    let mask := s1.noImage
    let s2 := if mask = 0 then s1 else (s1.modSec fun c => { c with lastCode := 0xA00E }).raise 0xA803 (leBytes 1 mask)
    let b := State.slotBytesNow (List.range 6) s2
    let s3 := ((b.2.modPins fun p => { p with booting := false }).modSec fun c => { c with bootDone := true }).startTraining
    (s3.bump (offSc 0xC0) 1).raise 0xA801 b.1)

/-! ### Hot update (R509-R512) -/

/-- The update changed. -/
def State.modHot (s : State) (f : UpdState → UpdState) : State := s.modSec fun c => { c with upd := f c.upd }

/-- An update refused or failed: its code shows, and none is in progress. -/
def State.updFails (s : State) (code : Nat) : State := s.modHot fun u => { u with stage := .idle, image := [], lastCode := code }

/-- The image of an update and, for a flash source that is already in its slot, that unit and slot (R500, R510). -/
def State.updSource (s : State) : Option (List Byte × Option (Nat × Bool)) :=
  let ctl := s.reg (offSc 0x38)
  let addr := s.reg (offSc 0x40)
  let len := s.reg (offSc 0x48)
  if bit ctl 16 then
    let o := addr % 2 ^ 32
    match slotAt o with
    | some (u, b) =>
      let k := (s.fwUnit u).slot b
      if o = slotBase u b ∧ (s.fwUnit u).running ≠ some b ∧ (k.delivered ∨ leAt (s.flashBytes o 8) 4 1 = u) then
        some (s.flashBytes o len, some (u, b))
      else none
    | none => if inOperator o && inOperator (o + len - 1) then some (s.flashBytes o len, none) else none
  else
    let x := fld ctl 4 12
    if s.live x && s.ctxPort x == some s.mgmtPort then
      match s.translate x (addr % 2 ^ 57) len true false with
      | .ok l => some (s.seePieces l, none)
      | .error _ => none
    else none

/-- The slot that an update writes: the one that does not run (R510). -/
def FwUnit.target (w : FwUnit) : Bool := w.running == some false

/-- A slot's bytes erased. -/
def State.eraseSlot (s : State) (u : Nat) (b : Bool) : State :=
  (s.modSec fun c => { c with flash := flashWipe c.flash (slotBase u b) (slotBytes u) }).modFw u fun w =>
    w.setSlot b { w.slot b with delivered := false }

/-- An update checked and started: the inactive slot is erased, or, with its image already in place, only read back. -/
def State.updStart (s : State) (u : Nat) (b : Bool) (image : List Byte) (inPlace : Bool) : State :=
  let s1 := if inPlace then s else s.eraseSlot u b
  s1.modHot fun k => { k with stage := .writing, unit := u, slotB := b, image := image, rollback := false, noProgram := inPlace }

/-- upd_go written (R510 step 1, R512): the image is read and checked. -/
def State.updGo (s : State) : State :=
  if s.changing then s.modHot fun u => { u with lastCode := 0xA004 }
  else match s.updSource with
    | none => s.updFails 0xA005
    | some (image, some (u, b)) =>
      let k := (s.fwUnit u).slot b
      let code := if k.delivered then s.checkSlot u b else s.checkImage u (s.fwUnit u).minSecVer image
      if code = 0 then s.updStart u b image true else s.updFails code
    | some (image, none) =>
      let u := leAt image 4 1
      let code := if 6 ≤ u then 0xA001 else s.checkImage u (s.fwUnit u).minSecVer image
      if code = 0 then s.updStart u (s.fwUnit u).target image false else s.updFails code

/-- UPD_GO (R510, R512). -/
def execUpdGo (s : State) : Res := .next (if s.alive then s.updGo else s)

/-- UPD_WRITE_DONE (R510 steps 2 and 3): the slot is programmed and read back, and the directory shows it in trial; or the flash failed. -/
def execUpdWriteDone (ok : Bool) (s : State) : Res :=
  .next (let k := s.sec.upd
  if k.stage ≠ .writing then s
  else if !ok then s.updFails 0xA006
  else
    let w := s.fwUnit k.unit
    let o := w.slot k.slotB
    let seq := match w.order with | b :: _ => (w.slot b).seq + 1 | [] => 1
    let e : FwSlot := if o.delivered then { o with state := .trial, seq := seq }
      else ⟨.trial, seq, leAt k.image 8 4, leAt k.image 12 1, false⟩
    let s1 := if k.noProgram then s else s.modSec fun c => { c with flash := flashPut c.flash (slotBase k.unit k.slotB) k.image }
    ((s1.modFw k.unit fun w => w.setSlot k.slotB e).writeDir).modHot fun u => { u with stage := .activating, image := [] })

/-- The dusk role moves to the standby hub die as its unit switches (R509). -/
def State.duskMoves (s : State) : State :=
  match s.sec.hubStandby with
  | none => s
  | some b =>
    s.modSec fun c => { c with hubs := (c.hubs.set c.hubActive .standby).set b .active, hubActive := b, hubStandby := some c.hubActive }

/-- Whether a unit stands at its switch point (R509): the loader between loads, the update-unit constants while no unit holds a block of an
UPDATE (R269). Each Zenith sequencer takes the new version at its next launch. -/
def State.switchPoint (s : State) (u : Nat) : Bool :=
  if u = 4 then s.loader.running.isNone
  else if u = 5 then !(s.uu.updates.any fun e => e.2.left.any fun l => !l.2.isEmpty)
  else true

/-- The unit of the update switches to its new image, or back to the committed one (R509-R511). -/
def State.activate (s : State) : State :=
  let k := s.sec.upd
  let s1 := if k.unit = 0 then s.duskMoves else s
  let w := s1.fwUnit k.unit
  if k.rollback then
    (s1.modFw k.unit fun w => { w with running := w.order.head? }).modHot fun u => { u with stage := .idle, rollback := false, due := false }
  else
    (((s1.modFw k.unit fun w => { w with running := some k.slotB }).modHot fun u => { u with stage := .trial, due := false }).bump
      (offSc 0xC8) 1).raise 0xA805 (leBytes 1 k.unit ++ leBytes 1 (b2n k.slotB) ++ leBytes 4 (w.slot k.slotB).version)

/-- UNIT_ACTIVATION (R509-R511, R516): at its switch point the unit switches; while a report is being built it waits for that build, and
follows its end. -/
def execUnitActivation (s : State) : Res :=
  .next (let k := s.sec.upd
  if k.stage ≠ .activating ∨ !(s.switchPoint k.unit) then s
  else if s.sec.attQueue ≠ [] then s.modHot fun u => { u with due := true }
  else s.activate)

/-- upd_commit written (R511): the slot in trial is committed; with raise_min its security version is fused. -/
def State.updCommit (s : State) (raiseMin : Bool) : State :=
  let k := s.sec.upd
  if k.stage ≠ .trial then s
  else
    let o := (s.fwUnit k.unit).slot k.slotB
    ((s.modFw k.unit fun w =>
      let w1 := w.setSlot k.slotB { o with state := .committed }
      if raiseMin then { w1 with fuses := w1.fuses ||| BitVec.ofNat 32 (2 ^ min 32 o.secVer - 1) } else w1).writeDir.modHot fun u =>
        { u with stage := .idle }).raise
        0xA806 (leBytes 1 k.unit ++ leBytes 1 (b2n k.slotB) ++ leBytes 4 o.version)

/-- UPD_COMMIT (R511). -/
def execUpdCommit (raiseMin : Bool) (s : State) : Res := .next (s.updCommit raiseMin)

/-- upd_abort written (R511): the trial slot is marked invalid, and the committed slot is to be activated again. -/
def State.updAbort (s : State) : State :=
  let k := s.sec.upd
  if k.stage ≠ .trial then s
  else
    let o := (s.fwUnit k.unit).slot k.slotB
    ((s.modFw k.unit fun w => w.setSlot k.slotB { o with state := .invalid }).writeDir.modHot fun u =>
      { u with stage := .activating, rollback := true }).raise 0xA807 (leBytes 1 k.unit ++ leBytes 1 (b2n k.slotB) ++ leBytes 4 o.version)

/-- UPD_ABORT (R511). -/
def execUpdAbort (s : State) : Res := .next s.updAbort

/-! ### The flash window (R500) -/

/-- Whether the window may erase or program at an offset: an operator area, or a slot without a running or trial image of its unit; and no
update is in progress. -/
def State.flashAllowed (s : State) (o : Nat) : Bool :=
  s.sec.upd.stage == .idle &&
    match slotAt o with
    | some (u, b) => (s.fwUnit u).running != some b && ((s.fwUnit u).slot b).state != .trial
    | none => inOperator o

/-- The byte offset of SC_FLASH_CTL. -/
def State.flashOffset (s : State) : Nat := s.reg (offSc 0x600) % 2 ^ 32 / 256 * 256

/-- erase or program written (R500); while one runs, another is not taken. -/
def State.flashGo (s : State) (erase : Bool) : State :=
  if s.sec.flashOp.isSome then s
  else if s.flashAllowed s.flashOffset then
    s.modSec fun c => { c with flashOp := some (erase, s.flashOffset, tabBytes c.flashData 256) }
  else s.modSec fun c => { c with flashCode := 0xA006 }

/-- FLASH_ERASE (R500). -/
def execFlashErase (s : State) : Res := .next (if s.alive then s.flashGo true else s)

/-- FLASH_PROGRAM (R500). -/
def execFlashProgram (s : State) : Res := .next (if s.alive then s.flashGo false else s)

/-- A slot whose bytes have been changed no longer holds the image of manufacture. -/
def State.slotChanged (s : State) (o : Nat) : State :=
  match slotAt o with
  | some (u, b) => s.modFw u fun w => w.setSlot b { w.slot b with delivered := false }
  | none => s

/-- FLASH_OP_DONE (R500): the block is erased, or the bytes are programmed and the offset rises; a failed read-back shows. -/
def execFlashOpDone (ok : Bool) (s : State) : Res :=
  .next (match s.sec.flashOp with
  | none => s
  | some (erase, o, data) =>
    let s1 := s.modSec fun c => { c with flashOp := none }
    if !ok then s1.modSec fun c => { c with flashCode := 0xA006 }
    else if erase then (s1.modSec fun c => { c with flash := flashWipe c.flash (o / 2 ^ 16 * 2 ^ 16) (2 ^ 16) }).slotChanged o
    else ((s1.modSec fun c => { c with flash := flashPut c.flash o data }).slotChanged o).setField (offSc 0x600) 0 32 (o + 256))

/-! ### Attestation (R502, R503) -/

/-- A mailbox. -/
def State.mailbox (s : State) (p : Nat) : Mailbox := lookD s.sec.mailboxes p ⟨[], false, false, 0, []⟩

/-- A mailbox set. -/
def State.setMailbox (s : State) (p : Nat) (m : Mailbox) : State := s.modSec fun c => { c with mailboxes := put c.mailboxes p m }

/-- att_go written (R502, R503). -/
def State.attGo (s : State) (p : Nat) : State :=
  let m := s.mailbox p
  if m.busy then s.setMailbox p { m with lastCode := 0xA00C }
  else if s.sec.lc = .blank ∨ s.sec.lc = .retired then s.setMailbox p { m with done := false, lastCode := 0xA00B }
  else (s.setMailbox p { m with busy := true, done := false }).modSec fun c => { c with attQueue := c.attQueue ++ [p] }

/-- ATT_GO (R502): by a port that is up. -/
def execAttGo (port : Nat) (s : State) : Res := .next (if port < 4 && (s.port port).up then s.attGo port else s)

/-- The 64 bytes of a unit in a report (R502); what the spec does not state of a unit that does not run, and the digest of an image of
manufacture, are free values. -/
def State.reportUnit (s : State) (u : Nat) : List Byte × State :=
  let w := s.fwUnit u
  match w.running with
  | none =>
    let d := s.drawBytes 64
    (d.1.take 7 ++ leBytes 1 w.minSecVer ++ leBytes 8 0 ++ d.1.drop 16, d.2)
  | some b =>
    let k := w.slot b
    let d : List Byte × State := if k.delivered then s.drawBytes 48 else (sliceBytes (s.slotImage u b) 0x40 48, s)
    (leBytes 4 k.version ++ leBytes 1 k.secVer ++ leBytes 1 (b2n b) ++ leBytes 1 (b2n (k.state == .trial)) ++ leBytes 1 w.minSecVer ++
      leBytes 8 0 ++ d.1, d.2)

/-- The units of a report. -/
def State.reportUnits : List Nat → State → List Byte × State
  | [], s => ([], s)
  | u :: us, s =>
    let h := s.reportUnit u
    let r := State.reportUnits us h.2
    (h.1 ++ r.1, r.2)

/-- A report with its signature (R502). -/
def State.report (s : State) (p : Nat) : List Byte × State :=
  let u := State.reportUnits (List.range 6) s
  let body := leBytes 4 0x5441_5453 ++ leBytes 2 1 ++ leBytes 1 (lcCode s.sec.lc) ++ leBytes 1 (match s.ident.grade with | .full => 0 | .tray => 1) ++
    leBytes 2 s.ident.revision ++ leBytes 1 p ++ leBytes 1 0 ++ leBytes 4 s.recd.powerCycles ++ s.deviceIdNow ++
    sliceBytes (s.mailbox p).nonce 0 48 ++ leBytes 4 (s.recd.opMinutes / 60) ++ leBytes 4 s.sec.lcCount ++ leBytes 8 0 ++ u.1 ++
    sha384 s.sec.provRecord ++ sliceBytes s.sec.pubKey 0 97 ++ leBytes 15 0
  let d := u.2.drawBytes 48
  (body ++ ecdsaSign s.sec.privKey (ecSecret d.1) body, d.2)

/-- ATT_REPORT_DONE (R502, R503, R516): the report at the front of the build order is ready; an activation that waited for it follows, before
the next build starts. -/
def execAttReportDone (s : State) : Res :=
  .next (match s.sec.attQueue with
  | [] => s
  | p :: rest =>
    let r := s.report p
    let t := (r.2.setMailbox p { s.mailbox p with busy := false, done := true, report := r.1 }).modSec fun c => { c with attQueue := rest }
    if t.sec.upd.due && t.sec.upd.stage == .activating && t.switchPoint t.sec.upd.unit then t.activate else t)

end Sys2Proof.Machine
end

