-- ==== Sys2Proof/Machine/Flags.lean ====
section
/-! DEFINITION. Status fields: what each register reads of the state that is held elsewhere than in the register file. A view takes the
stored value, which carries the fields that stay as they are written. -/

namespace Sys2Proof.Machine

open Sys2Proof

/-- Fields packed at their lowest bits. -/
def pack (l : List (Nat × Nat)) : Nat := (l.map fun e => e.2 * 2 ^ e.1).sum

/-- The value of a predicate's true places as bits. -/
def maskOf (n : Nat) (p : Nat → Bool) : Nat := pack ((List.range n).map fun k => (k, b2n (p k)))

/-! ### Burob ports, tray and scale-out fabric (R344, R414, R416, R458) -/

/-- The link state of BL_PORT_STATUS: 0 down, 1 training, 2 up, 3 retraining a half. -/
def Port.state (k : Port) : Nat := if k.up then (if k.retraining = 0 then 2 else 3) else b2n k.training

/-- BL_PORT_STATUS. -/
def State.viewPort (s : State) (p v : Nat) : Nat :=
  let k := s.port p
  pack [(0, k.state), (2, k.halves % 4), (4, fld v 4 2), (16, k.session % 2 ^ 16)]

/-- TF_STATUS: lost and absent maps of the other slots. -/
def State.viewTf (s : State) (v : Nat) : Nat :=
  pack [(0, s.pins.strapSlot % 8), (3, b2n s.fab.selfFenced), (4, maskOf 8 fun k => s.peerState k == 2),
        (12, maskOf 8 fun k => s.peerState k == 0), (20, fld v 20 1)]

/-- The state of a pairing as TF_PAIR_STATUS codes it. -/
def pairCode : PairState → Nat
  | .unpaired => 0
  | .pairing => 1
  | .paired => 2
  | .partnerLost => 3

/-- TF_PAIR_STATUS. -/
def State.viewPair (s : State) (v : Nat) : Nat :=
  let k := s.surv
  pack [(0, pairCode k.pair), (2, b2n k.weak), (3, k.partner % 8), (6, s.pins.strapFeed % 16), (10, k.partnerFeed % 16),
        (14, b2n k.swapReady), (15, fld v 15 1), (16, k.lastCode % 2 ^ 16)]

/-- The state of a protection as TF_SURV_STATUS codes it. -/
def survCode : SurvState → Nat
  | .off => 0
  | .baselining => 1
  | .guarded => 2
  | .lapsed => 3
  | .restoring => 4
  | .awaitingRestore => 5

/-- TF_SURV_STATUS of a job-table entry, with the bits its member sends in votes (R438). -/
def State.viewSurv (s : State) (e v : Nat) : Nat :=
  match look s.surv.prots e with
  | none => pack [(6, fld v 6 1)]
  | some p =>
    let b := match look s.objs.jobs e with | some j => s.sealBits e j | none => (false, false, false)
    pack [(0, survCode p.state), (3, b2n b.2.1), (4, b2n b.1), (5, b2n b.2.2), (6, fld v 6 1), (16, p.lastCode % 2 ^ 16)]

/-- TF_SURV_GEN: the settled and the open generation. -/
def State.viewGen (s : State) (e : Nat) : Nat :=
  let gen (x : Option Seal) : Nat := match x with | some k => k.generation % 2 ^ 32 | none => 0
  match look s.surv.prots e with
  | some p => pack [(0, gen p.settled), (32, gen p.openSeal)]
  | none => 0

/-- SF_STATUS. -/
def State.viewSf (s : State) (v : Nat) : Nat := pack [(0, s.node % 1024), (10, maskOf 4 fun p => s.sfState p == 2), (14, fld v 14 1)]

/-! ### Dusk domain and power (R460, R484, R486, R488, R561) -/

/-- DK_CLK_STATUS. -/
def State.viewClk (s : State) (v : Nat) : Nat := pack [(0, b2n s.pwr.oscBackup), (1, s.sec.hubActive % 4), (3, fld v 3 1)]

/-- DK_SB_STATUS. -/
def State.viewSb (s : State) : Nat :=
  let p := s.pins
  pack [(0, p.strapFeed % 16), (4, p.strapSlot % 8), (7, p.strapTray % 128), (14, b2n p.wakeLow), (15, b2n s.thermLow),
        (16, b2n p.thermModule), (17, b2n p.alertLow)]

/-- DK_RISK_STATUS. -/
def State.viewRisk (s : State) : Nat := pack [(0, s.surv.riskLevel % 4), (2, riskPack s.surv.riskInputs % 2 ^ 18)]

/-- DK_SPARE_STATUS: spares left on each die. -/
def State.viewSpares (s : State) : Nat := pack ((List.range 16).map fun d => (3 * d, s.sparesOn d % 8))

/-- The state of the governor as PG_STATUS codes it: 3 while THERM_N is low. -/
def State.govCode (s : State) : Nat := if s.thermLow then 3 else match s.pwr.gov with | .normal => 0 | .peak => 1 | .cool => 2

/-- The lowest cap on any die. -/
def State.minCap (s : State) : Nat := ((List.range dieCount).map fun d => (s.die d).cap).foldl min 64

/-- PG_STATUS. -/
def State.viewPower (s : State) (v : Nat) : Nat :=
  pack [(0, s.govCode), (2, b2n s.pwr.currentLimited), (3, fld v 3 1), (8, s.minCap % 128)]

/-- PG_DIE_STATUS. -/
def State.viewDie (s : State) (d v : Nat) : Nat :=
  let k := s.die d
  pack [(0, if k.gated then (if k.waking then 1 else 2) else 0), (2, k.cap % 128), (9, s.ramps d % 16), (13, b2n (decide (0 < k.thermal))),
        (14, fld v 14 1)]

/-- PG_DIE_POWER. -/
def State.viewDiePower (s : State) (d : Nat) : Nat := pack [(0, (s.die d).power % 2 ^ 16), (16, (s.die d).budget % 2 ^ 16)]

/-- PG_DIE_TEMP. -/
def State.viewDieTemp (s : State) (d : Nat) : Nat :=
  let k := s.die d
  pack [(0, k.temp % 256), (8, k.stackA % 256), (16, k.stackB % 256)]

/-! ### Security (R517) -/

/-- SC_STATUS. -/
def State.viewSec (s : State) : Nat :=
  let k := s.sec
  pack [(0, lcCode k.lc), (3, b2n k.bootDone), (4, b2n k.flashBad), (5, s.noImage % 64), (11, b2n k.changePending.isSome),
        (16, k.lastCode % 2 ^ 16)]

/-- The state of a hub die as SC_HUB_STATUS codes it. -/
def hubCodeOf : HubState → Nat
  | .active => 0
  | .standby => 1
  | .resetting => 2
  | .retired => 3

/-- SC_HUB_STATUS. -/
def State.viewHub (s : State) : Nat :=
  let k := s.sec
  pack ([(0, k.hubActive % 4), (2, k.hubStandby.getD 0 % 4), (4, b2n k.hubStandby.isSome), (16, k.hubCode % 2 ^ 16)] ++
    (List.range 4).map fun h => (8 + 2 * h, match k.hubs[h]? with | some x => hubCodeOf x | none => 3))

/-- The stage of an update as SC_UPD_STATUS codes it. -/
def updCode : UpdStage → Nat
  | .idle => 0
  | .checking => 1
  | .writing => 2
  | .activating => 3
  | .trial => 4

/-- SC_UPD_STATUS. -/
def State.viewUpd (s : State) (v : Nat) : Nat :=
  let k := s.sec.upd
  pack [(0, updCode k.stage), (3, k.unit % 8), (6, fld v 6 1), (16, k.lastCode % 2 ^ 16)]

/-- SC_UNIT_VER of a unit: the image it runs; 0 in the image's fields where it runs none. -/
def State.viewUnit (s : State) (u : Nat) : Nat :=
  let w := s.fwUnit u
  match w.running with
  | none => pack [(40, w.minSecVer % 64)]
  | some b =>
    let k := w.slot b
    pack [(0, k.version % 2 ^ 32), (32, k.secVer % 64), (38, b2n b), (39, b2n (k.state == .trial)), (40, w.minSecVer % 64)]

/-- SC_FLASH_STATUS. -/
def State.viewFlash (s : State) : Nat := pack [(0, b2n s.sec.flashOp.isSome), (16, s.sec.flashCode % 2 ^ 16)]

/-- SC_ATT_STATUS of a port. -/
def State.viewAtt (s : State) (p : Nat) : Nat :=
  let m := s.mailbox p
  pack [(0, b2n m.busy), (1, b2n m.done), (16, m.lastCode % 2 ^ 16)]

/-! ### Loader and recorder (R203, R528, R530) -/

/-- LR_STATUS. -/
def State.viewLoader (s : State) : Nat := pack [(0, b2n s.loader.running.isSome), (1, s.loader.queue.length % 32)]

/-- LR_VERSION. -/
def State.viewVersion (s : State) : Nat := pack [(0, 1), (8, s.loaderVersion.1 % 256), (16, s.loaderVersion.2 % 2 ^ 16)]

/-- EV_STATUS. -/
def State.viewRecorder (s : State) : Nat :=
  let k := s.recd
  pack [(0, b2n k.flushing), (1, b2n k.flashFail), (2, b2n k.cleanPrev), (3, k.unflushed / 1024 % 1024)]

/-- EV_RATE of the code that EV_RATE_SEL selects: the capacity and refill most recently written (R531). -/
def State.viewRate (s : State) : Nat :=
  let c := s.reg (offEv 0x48) % 2 ^ 16
  match bucketDefault c with
  | none => pack [(24, b2n (catalogue3.contains c))]
  | some _ =>
    let b := s.bucket c
    pack [(0, b.newCapacity % 256), (8, b.newRefill % 256), (16, b.tokens % 256)]

/-- EV_RD_STATUS of a read window. -/
def State.viewLookup (s : State) (w : Nat) : Nat :=
  let k := s.window w
  pack [(0, b2n k.busy), (1, b2n k.found), (2, b2n k.fromFlash), (3, b2n k.skipped), (16, k.record.length / 8 % 512)]

/-! ### Update units and the job table (R268, R269) -/

/-- An UPDATE waits for its vote. -/
def Upd.waitsVote (k : Upd) : Bool := k.outcome.isNone && !k.lost

/-- UU_UNIT_STATUS: the unit that combines rule 3 is that of the UPDATE's first block (log 27). -/
def State.viewUnitUu (s : State) (u v : Nat) : Nat :=
  let mine := s.uu.updates.filter fun e => !(lookD e.2.left u []).isEmpty
  let combines (k : Upd) : Bool := leAt k.rule 0 1 == 3 && !k.secondPass && match k.outcome with | some r => r.pass | none => false
  let first (k : Upd) : Bool := match k.ten 0 with | some md => s.blockUnit k.ctx k.rank md 0 == u | none => false
  pack [(0, b2n !mine.isEmpty), (1, b2n (mine.any fun e => e.2.waitsVote)),
        (2, b2n (s.uu.updates.any fun e => combines e.2 && first e.2)), (3, fld v 3 1)]

/-- The registers of a job-table entry (R269) but the count of failed votes. -/
def State.viewJob (s : State) (e o : Nat) : Nat :=
  match look s.objs.jobs e with
  | none => 0
  | some j =>
    if o = 0 then pack [(0, j.id % 2 ^ 16), (16, 1)]
    else if o = 8 then j.step
    else if o = 0x10 then j.attempt
    else if o = 0x20 then
      pack ([(17, b2n j.lastLost)] ++ match j.vote with | some r => [(0, r.generation % 2 ^ 16), (16, b2n (r.pass && !j.lastLost))] | none => [])
    else b2n j.nonfinite

/-! ### Memory-side cache and HBM (R314-R316) -/

/-- MC_PART_STATUS. -/
def State.viewPart (s : State) (p v : Nat) : Nat := pack [(0, (s.slices p).length % 1024), (10, fld v 10 1)]

/-- Lines of a partition that are pinned now. -/
def State.pinnedLines (s : State) (p : Nat) : Nat := (s.cache.lines.filter fun e => e.2.part == p && e.2.pinned).length

/-- The partition that holds a slice. -/
def State.sliceOwner (s : State) (k : Nat) : Option Nat := (s.objs.parts.find? fun e => e.2.slices.contains k).map (·.1)

/-- MC_SLICE_STATUS. -/
def State.viewSlice (s : State) (k : Nat) : Nat := match s.sliceOwner k with | some p => pack [(0, p % 128), (7, 1)] | none => 0

/-- The hottest temperature of a controller's stack: two stacks on each die (R304, R470). -/
def State.stackTemp (s : State) (u : Nat) : Nat := if u % 2 = 0 then (s.die (u / 2)).stackA else (s.die (u / 2)).stackB

/-- The steps of the evacuations of a controller's slots. -/
def State.evacsOf (s : State) (u : Nat) : List (Nat × EvacStep) := s.hbm.evac.filter fun e => e.1 / 32 == u

/-- Slots of a controller served from the evacuation areas (R310 steps 3 to 6). -/
def State.slotsMoved (s : State) (u : Nat) : Nat :=
  ((s.evacsOf u).filter fun e => e.2 != .copying).length + ((List.range 32).filter fun k => s.slotRetired u k).length

/-- HC_STATUS. -/
def State.viewHbm (s : State) (u v : Nat) : Nat :=
  let t := s.stackTemp u
  let low := (List.range 32).any fun k => decide (spareRows - lookD s.hbm.spareUsed (u * 32 + k) 0 < 256)
  pack [(0, t % 256), (8, (Config.refreshRate t).toNat), (10, b2n !(s.evacsOf u).isEmpty), (11, s.slotsMoved u % 4), (13, fld v 13 1),
        (14, b2n low)]

/-- HC_PC_STATE. -/
def State.viewSlots (s : State) (u v : Nat) : Nat :=
  pack ((List.range 32).map fun k => (2 * k, match look s.hbm.evac (u * 32 + k) with
    | some .copying => 1
    | some _ => 2
    | none => fld v (2 * k) 2))

/-- Rows of a controller in the row map. -/
def State.rowsMapped (s : State) (u : Nat) : Nat := (s.hbm.rowMap.filter fun e => e.1 / 2 ^ 24 / 32 == u).length

/-! ### Sequencers and cores (R161, R162) -/

/-- ZS_SEQ_STATUS. -/
def State.viewSeq (s : State) (q : Nat) : Nat :=
  match look s.seqs q with
  | none => 0
  | some k =>
    let held (e : Engine) : Nat := b2n (k.creditHeld.contains e && !(s.credits k e))
    let resuming := match s.ctx k.ctx with | some c => c.resumes.any fun v => v.seq.order == k.order | none => false
    let saving := k.preempting && s.live k.ctx && !resuming && !(k.members.all fun c => (s.core c).saved.length == 3)
    pack [(0, 1), (1, (k.members.length - 1) % 64), (7, k.ctx % 4096), (19, b2n saving), (20, held .te), (21, held .ge), (22, held .me)]

/-- The members of a sequencer's constellation, by core of its die. -/
def State.seqMembers (s : State) (q : Nat) : Nat :=
  match look s.seqs q with
  | none => 0
  | some k => maskOf 68 fun i => k.members.contains (q / 16 * 68 + i)

/-- ZS_CORE_QDEPTH. -/
def Core.viewDepth (k : Core) : Nat := pack [(0, k.depth .te % 512), (9, k.depth .ge % 512), (18, k.depth .me % 512)]

/-- The clocks of a core as ZS_CORE_STATE codes them. -/
def clkCode : CoreClk → Nat
  | .running => 0
  | .clockGated => 1
  | .powerGated => 2

/-- ZS_CORE_STATE. -/
def Core.viewState (k : Core) (v : Nat) : Nat :=
  let ch (e : Engine) : Nat := match k.blockedOn e with | some (c, _) => c % 32 | none => 0
  let on (e : Engine) : Nat := b2n (k.blockedOn e).isSome
  pack [(0, on .te), (1, on .ge), (2, on .me), (3, ch .te), (8, ch .ge), (13, ch .me), (18, clkCode k.clk), (20, fld v 20 1)]

/-- ZS_CORE_RANK. -/
def Core.viewRank (k : Core) : Nat := match k.member with | some (q, r) => pack [(0, 1), (1, r % 64), (7, q % 16)] | none => 0

/-- ZS_CORE_TOKENS: the counts of eight channels. -/
def Core.viewTokens (k : Core) (i : Nat) : Nat := pack ((List.range 8).map fun n => (8 * n, (k.chan (8 * i + n)).count % 256))

/-- ZS_CORE_INFLIGHT. -/
def Core.viewInflight (k : Core) : Nat :=
  let n (e : Engine) : Nat := min 255 (k.inflight.filter fun f => f.eng == e).length
  pack [(0, n .te), (8, n .ge), (16, n .me)]

/-- A core is being pre-empted or resumed: whether a resume (R126, R128); a fault has ended either (R125). -/
def State.coreMoves (s : State) (c : Nat) : Option Bool :=
  match s.coreSeq c with
  | some (_, q) =>
    if q.preempting && s.live q.ctx then some (match s.ctx q.ctx with | some k => k.resumes.any fun v => v.seq.order == q.order | none => false) else none
  | none => none

/-- A core's engine writes its save record. -/
def State.coreSaves (s : State) (c : Nat) (e : Engine) : Bool := s.coreMoves c == some false && !(s.core c).saved.contains e

/-- GE_STATUS. -/
def State.viewGe (s : State) (c v : Nat) : Nat :=
  let g := s.groupEngine c
  pack [(0, g.groups.length % 128), (7, g.blocks.length % 128), (14, g.launches.length % 4), (16, g.port.length % 32),
        (21, b2n (s.coreSaves c .ge)), (22, fld v 22 2)]

/-- GE_FRAMES. -/
def State.viewFrames (s : State) (c : Nat) : Nat :=
  match s.coreSeq c with
  | some (_, q) => let f := frameBytes q.kernel; pack [(0, f / 0x2000 % 128), (7, f / 1024 % 1024)]
  | none => 0

/-- CM_STATUS (R288, R312). -/
def State.viewCm (s : State) (c v : Nat) : Nat :=
  let k := s.core c
  pack [(0, k.lsEighths % 16), (4, b2n (s.storeOwner c).isSome), (5, b2n (s.hbm.wipes.any fun w => w.2 == .core c)), (6, fld v 6 1)]

/-- ME_STATUS. -/
def State.viewMe (s : State) (c : Nat) : Nat :=
  let k := s.core c
  pack [(0, k.xfers.length % 128), (7, k.linesOut % 1024), (17, b2n (s.uu.updates.any fun e => e.2.core == c && e.2.waitsVote))]

/-! ### The tensor engine (R75, R100, R129) -/

/-- The units of a core's tensor engine that hold something. -/
def State.teUnits (s : State) (c : Nat) : List (Nat × TeUnitSt) := s.te.filter fun e => e.1 / 128 == c

/-- A unit holds a tile. -/
def TeUnitSt.holds (k : TeUnitSt) : Bool := k.active.isSome || k.next.isSome

/-- The tiles that a core's units hold, drained ones among them. -/
def State.coreTiles (s : State) (c : Nat) : List Tile :=
  (s.teUnits c).flatMap fun e => e.2.active.toList ++ e.2.next.toList ++ (e.2.shadow.map (·.1)).toList

/-- TE_SCALE_STATUS. -/
def State.viewScale (s : State) (c v : Nat) : Nat :=
  let p := match s.coreSeq c with | some (_, q) => q.pass | none => none
  let settling := match p with | some k => k.stage == .settled | none => false
  let again := match p with | some k => decide (0 < k.reruns) | none => false
  pack [(0, b2n settling), (1, b2n again), (2, fld v 2 2)]

/-- TE_ACC_STATUS. A tree holds products from the drain of its tile to the moment its swap falls due (R89, R90, log 54). -/
def State.viewAcc (s : State) (c v : Nat) : Nat :=
  pack [(0, b2n ((s.teUnits c).any fun e => e.2.pendingDrain.isSome && !e.2.stalled)),
        (1, b2n ((s.teUnits c).any fun e => e.2.shadow.isSome)), (2, b2n ((s.coreTiles c).any fun t => t.long)), (3, fld v 3 1),
        (4, b2n (match s.coreCtx c with | some x => s.debugCtx x | none => false))]

/-- The arrays of a core and its path (16), with whether each holds a tile; quadrants issue under their array's rate (R122). -/
def State.teRates (s : State) (c : Nat) : List (Bool × TeUnitSt) :=
  (List.range 17).map fun a => let u := if a = 16 then 80 else a; (!(s.tilesOn c u).isEmpty, s.unit c u)

/-- Whether a unit's rate is moving: it is not yet at the target of its last arithmetic cycle (R122). -/
def TeUnitSt.moves (k : TeUnitSt) (cap : Nat) : Bool := k.rate != if k.ready then cap else 0

/-- TE_STATUS. -/
def State.viewTe (s : State) (c v : Nat) : Nat :=
  let cap := (s.core c).cap
  pack [(0, b2n ((s.teUnits c).any fun e => e.2.holds)), (1, b2n ((s.teRates c).any fun e => e.2.moves cap)),
        (2, b2n (decide (cap < 64))), (3, b2n (s.coreSaves c .te || s.coreMoves c == some true)), (4, fld v 4 1)]

/-- TE_ARRAY_BUSY. -/
def State.viewBusy (s : State) (c : Nat) : Nat :=
  maskOf 17 fun a => !(s.tilesOn c (if a = 16 then 80 else a)).isEmpty

/-- The mode of an array as TE_ARRAY_MODE codes it (R106). -/
def modeCode : TeMode → Nat
  | .full => 0
  | .thin => 1
  | .quad => 2
  | .mv => 3

/-- TE_ARRAY_MODE. -/
def State.viewModes (s : State) (c : Nat) : Nat :=
  pack ((List.range 16).map fun a => (2 * a, match s.tilesOn c a with | t :: _ => modeCode t.mode | [] => 3))

/-- TE_ISSUE_RATE. -/
def State.viewIssue (s : State) (c : Nat) : Nat :=
  let rates := ((s.teRates c).filter fun e => e.1).map (·.2.rate)
  pack [(0, (s.core c).cap % 128), (8, match rates with | [] => 0 | r :: rs => rs.foldl min r % 128)]

/-- TE_PREEMPT_STATUS: what the last save left, with a save or resume that runs now. -/
def State.viewSave (s : State) (c v : Nat) : Nat :=
  pack [(0, b2n (s.coreSaves c .te)), (1, b2n (s.coreMoves c == some true)), (2, fld v 2 1), (16, fld v 16 16)]

end Sys2Proof.Machine
end

