-- ==== Sys2Proof/Machine/Regs.lean ====
section
/-! DEFINITION. The control space (R9-R14, R329, R330): the map of windows, the registers of each window with their field types, reads,
rights by port, writes with what they set going, and the commands that come through it: REGISTER_WRITE, SMBus, test access. -/

namespace Sys2Proof.Machine

open Sys2Proof

/-! ### Windows (R329) -/

/-- A window of the control space. -/
inductive Win where
  | port (p : Nat)
  | tf
  | peer (k : Nat)
  | tfJob (e : Nat)
  | survJob (e : Nat)
  | sf
  | sfPort (p : Nat)
  | route (t : Nat)
  | sfJob (e : Nat)
  | dk
  | pg
  | sc
  | mailbox (p : Nat)
  | lr
  | ev
  | evWin (w : Nat)
  | uu (u : Nat)
  | uuJob (e : Nat)
  | mcPart (p : Nat)
  | mcSlice (k : Nat)
  | hc (u : Nat)
  | seq (q : Nat)
  | zs (c : Nat)
  | ge (c : Nat)
  | cm (c : Nat)
  | me (c : Nat)
  | te (c : Nat)
  | pgDie (d : Nat)
  deriving DecidableEq, Repr

/-- The window and place of an offset in windows of one size, `n` of them from `base`. -/
def inRun (off base size n : Nat) : Option (Nat × Nat) :=
  if base ≤ off ∧ off < base + size * n then some ((off - base) / size, (off - base) % size) else none

/-- The first that holds of a list. -/
def firstOf {α : Type} (l : List (Option α)) : Option α := l.findSome? id

/-- The window of an offset in the space of a compute die (R329, R161, R232, R312, R313, R486). -/
def winDie (d o : Nat) : Option (Win × Nat) :=
  firstOf
    [ (inRun o 0 0x40 16).map fun e => (.seq (d * 16 + e.1), e.2),
      (inRun o 0x1000 0x100 68).map fun e => (.zs (d * 68 + e.1), e.2),
      (inRun o 0x1_0000 0x100 68).map fun e => (.ge (d * 68 + e.1), e.2),
      (inRun o 0x2_0000 0x40 68).map fun e => (.cm (d * 68 + e.1), e.2),
      (inRun o 0x3_0000 0x100 68).map fun e => (.me (d * 68 + e.1), e.2),
      (inRun o 0x4_0000 0x1_0000 1).map fun e => (.pgDie d, e.2),
      (inRun o 0x10_0000 0x1_0000 68).map fun e => (.te (d * 68 + e.1), e.2) ]

/-- The window of an offset outside the dies (R329, R344, R414, R416, R458, R517, R528, R268, R314, R316). -/
def winHub (off : Nat) : Option (Win × Nat) :=
  firstOf
    [ (inRun off 0 0x4000 4).map fun e => (.port e.1, e.2),
      (inRun off 0x1_0100 0x80 8).map fun e => (.peer e.1, e.2),
      (inRun off 0x1_2000 0x40 256).map fun e => (.tfJob e.1, e.2),
      (inRun off 0x1_9000 0x40 256).map fun e => (.survJob e.1, e.2),
      (inRun off 0x1_0000 0x1_0000 1).map fun e => (.tf, e.2),
      (inRun off 0x2_0100 0x80 4).map fun e => (.sfPort e.1, e.2),
      (inRun off 0x2_1000 8 128).map fun e => (.route e.1, e.2),
      (inRun off 0x2_8000 0x80 256).map fun e => (.sfJob e.1, e.2),
      (inRun off 0x2_0000 0x1_0000 1).map fun e => (.sf, e.2),
      (inRun off 0x3_0000 0x1_0000 1).map fun e => (.dk, e.2),
      (inRun off 0x4_0000 0x1_0000 1).map fun e => (.pg, e.2),
      (inRun off 0x5_1000 0x400 4).map fun e => (.mailbox e.1, e.2),
      (inRun off 0x5_0000 0x1_0000 1).map fun e => (.sc, e.2),
      (inRun off 0x6_0000 0x1_0000 1).map fun e => (.lr, e.2),
      (inRun off 0x7_1000 0x400 5).map fun e => (.evWin e.1, e.2),
      (inRun off 0x7_0000 0x1_0000 1).map fun e => (.ev, e.2),
      (inRun off 0x8_0000 0x80 32).map fun e => (.uu e.1, e.2),
      (inRun off 0x8_2000 0x40 256).map fun e => (.uuJob e.1, e.2),
      (inRun off 0x9_0000 0x80 128).map fun e => (.mcPart e.1, e.2),
      (inRun off 0x9_4000 0x40 512).map fun e => (.mcSlice e.1, e.2),
      (inRun off 0xA_0000 0x100 32).map fun e => (.hc e.1, e.2) ]

/-- The window of an offset of the control space; none for a reserved one. -/
def winAt (off : Nat) : Option (Win × Nat) :=
  match inRun off 0x100_0000 0x100_0000 16 with
  | some (d, o) => winDie d o
  | none => winHub off

/-! ### Registers and their fields (R12) -/

/-- A register: its width, and the bits of its rw, w1c, stg and lck fields. The bits of ro and reserved fields are in none; those of wo
fields are not stored, and act as they are written. -/
structure RegSpec where
  width : Nat
  rw : Nat
  w1c : Nat
  stg : Nat
  lck : Nat
  deriving DecidableEq, Repr

/-- A register of `w` bits without fields that are stored as written. -/
def roReg (w : Nat) : RegSpec := ⟨w, 0, 0, 0, 0⟩

/-- A register with rw bits. -/
def rwReg (w m : Nat) : RegSpec := { roReg w with rw := m }

/-- A register with w1c bits. -/
def w1cReg (w m : Nat) : RegSpec := { roReg w with w1c := m }

/-- A register with staged bits. -/
def stgReg (w m : Nat) : RegSpec := { roReg w with stg := m }

/-- A register with lck bits. -/
def lckReg (w m : Nat) : RegSpec := { roReg w with lck := m }

/-- `n` 64-bit ro registers from an offset, 8 bytes apart. -/
def counters (o n : Nat) : Tab RegSpec := (List.range n).map fun i => (o + 8 * i, roReg 64)

/-- A port's BL_ window but its windows and completion queues (R344). -/
def blRegs : Tab RegSpec :=
  [(0, stgReg 32 0xFFF), (8, w1cReg 32 0x30), (0x10, roReg 32), (0x18, lckReg 32 0xF_FFFF)] ++ counters 0x40 10

/-- BL_WIN_BASE and BL_WIN_SIZE (R344). -/
def blWinRegs : Tab RegSpec := [(0, lckReg 64 0xFFFF_FFFF_FFFF_F001), (8, lckReg 32 0xFFFF_FFFF)]

/-- BL_CQ_CTL, HEAD and TAIL (R344). -/
def blCqRegs : Tab RegSpec := [(0, lckReg 64 0xFFFF_FFFF_FFFF_FFFF), (8, rwReg 32 0xFFFF_FFFF), (0x10, roReg 32)]

/-- The TF_ block and the survival device window (R414, R458). -/
def tfRegs : Tab RegSpec :=
  [(0, { stgReg 32 3 with rw := 0x38 }), (8, w1cReg 32 0x10_0000), (0x8000, lckReg 32 0xF), (0x8008, w1cReg 32 0x8000),
   (0x8010, lckReg 64 0xFFFF_FFFF_FFE0_0000), (0x8018, lckReg 32 0xF_FFFF), (0x8020, roReg 32), (0x8028, stgReg 32 3)] ++ counters 0x8030 5

/-- A tray peer's window (R414). -/
def peerRegs : Tab RegSpec := [(0, w1cReg 32 0x10)] ++ counters 8 8

/-- A TF_ job window (R414). -/
def tfJobRegs : Tab RegSpec := [(0, lckReg 32 0x1FF), (8, lckReg 32 0xFFFF_FFFF), (0x10, roReg 64)]

/-- A survival job window (R458). -/
def survRegs : Tab RegSpec :=
  [(0, lckReg 32 0x1FFE), (8, lckReg 64 0x1FF_FFFF_FFFF_FFFF), (0x10, w1cReg 32 0x40), (0x18, roReg 64), (0x20, rwReg 32 2), (0x28, roReg 64)]

/-- The SF_ block (R416). -/
def sfRegs : Tab RegSpec := [(0, w1cReg 32 0x4000)]

/-- A scale-out port's window (R416). -/
def sfPortRegs : Tab RegSpec := [(0, roReg 32)] ++ counters 8 6

/-- The words of SF_JOB_NODES (R416). -/
def sfJobRegs : Tab RegSpec := (List.range 16).map fun i => (8 * i, lckReg 64 0xFFFF_FFFF_FFFF_FFFF)

/-- The DK_ block (R460, R488, R561). -/
def dkRegs : Tab RegSpec :=
  [(0, w1cReg 32 8), (8, roReg 64), (0x100, roReg 32), (0x108, stgReg 32 3), (0x800, { stgReg 32 0x7F8 with rw := 7 }), (0x808, roReg 32),
   (0x810, stgReg 64 0xFFFF_FFFF_FFFF_FFFF), (0x818, roReg 64), (0x820, { stgReg 32 0xFFF with rw := 0xFF_E000 }), (0x828, roReg 64),
   (0x830, roReg 64)]

/-- The device-level PG_ block (R484). -/
def pgRegs : Tab RegSpec :=
  [(0, stgReg 32 0xFF), (8, w1cReg 32 8), (0x10, roReg 32), (0x18, stgReg 32 3)] ++ counters 0x20 3 ++ [(0x38, roReg 32)]

/-- A die's PG_ block (R486). -/
def pgDieRegs : Tab RegSpec :=
  [(0, stgReg 32 0xFF_FFFF), (8, w1cReg 32 0x4000), (0x10, roReg 32), (0x18, roReg 32)] ++ counters 0x20 4

/-- The SC_ block but its byte windows (R517). -/
def scRegs : Tab RegSpec :=
  [(0, roReg 32), (8, roReg 32), (0x10, roReg 32), (0x18, rwReg 32 3), (0x20, roReg 32), (0x28, roReg 64), (0x30, roReg 64),
   (0x38, lckReg 32 0x1_FFF0), (0x40, lckReg 64 0x1FF_FFFF_FFFF_FFFF), (0x48, lckReg 32 0xFFFF_FFFF), (0x50, w1cReg 32 0x40)] ++
  counters 0x60 6 ++ [(0xC0, roReg 64), (0xC8, roReg 64), (0x600, rwReg 64 0xFFFF_FFFF), (0x608, roReg 32)]

/-- An attestation mailbox but its byte windows (R517). -/
def mailboxRegs : Tab RegSpec := [(0, roReg 32), (8, roReg 32)]

/-- The LR_ block (R203). -/
def lrRegs : Tab RegSpec := [(0, stgReg 32 0x1F), (8, roReg 32), (0x10, roReg 32)] ++ counters 0x18 5 ++ [(0x40, roReg 32)]

/-- The EV_ block but its read windows (R530). EV_RATE is held by the recorder. -/
def evRegs : Tab RegSpec :=
  [(0, roReg 32), (8, roReg 32), (0x10, roReg 64), (0x18, roReg 64), (0x20, roReg 32)] ++ counters 0x28 4 ++
  [(0x48, rwReg 32 0xFFFF), (0x50, roReg 32)]

/-- A read window but its record (R528). -/
def evWinRegs : Tab RegSpec := [(0, roReg 64), (8, roReg 32)]

/-- A unit's UU_ window (R268, R462). -/
def uuRegs : Tab RegSpec := [(0, stgReg 32 3), (8, w1cReg 32 8)] ++ counters 0x10 10

/-- A job-table entry's UU_ window (R269). -/
def uuJobRegs : Tab RegSpec := [(0, roReg 32)] ++ counters 8 3 ++ [(0x20, roReg 32), (0x28, roReg 32)]

/-- A partition's MC_ window (R314). -/
def mcPartRegs : Tab RegSpec := [(0, stgReg 32 3), (8, w1cReg 32 0x400)] ++ counters 0x10 10

/-- A slice's MC_ window (R315). -/
def mcSliceRegs : Tab RegSpec := [(0, roReg 32)] ++ counters 8 2

/-- A controller's HC_ window (R316). -/
def hcRegs : Tab RegSpec :=
  [(0, { stgReg 32 0x3FFF with rw := 0xF_8000 }), (8, w1cReg 32 0x2000)] ++ counters 0x10 3 ++ [(0x28, roReg 32)] ++ counters 0x30 4

/-- A sequencer's ZS_ window (R161). -/
def seqRegs : Tab RegSpec := [(0, stgReg 32 0x1F), (8, roReg 32), (0x10, roReg 64), (0x18, roReg 32)] ++ counters 0x20 2

/-- A core's ZS_ window (R161). -/
def zsRegs : Tab RegSpec :=
  [(0, roReg 32), (8, w1cReg 32 0x10_0000), (0x10, roReg 32)] ++ counters 0x18 4 ++ [(0x38, roReg 32)] ++ counters 0x40 4

/-- A core's GE_ window (R232). -/
def geRegs : Tab RegSpec := [(0, stgReg 32 0x1F), (8, w1cReg 32 0xC0_0000), (0x10, roReg 32)] ++ counters 0x18 8

/-- A core's CM_ window (R312). -/
def cmRegs : Tab RegSpec := [(0, w1cReg 32 0x40)] ++ counters 8 6

/-- A core's ME_ window (R313). -/
def meRegs : Tab RegSpec := [(0, roReg 32)] ++ counters 8 9

/-- A core's TE_ block (R75, R100, R129). -/
def teRegs : Tab RegSpec :=
  [(0, stgReg 32 3), (8, w1cReg 32 0x10), (0x10, roReg 32), (0x18, roReg 32), (0x20, roReg 32), (0x28, roReg 32)] ++ counters 0x100 9 ++
  [(0x400, stgReg 32 0xFF), (0x408, w1cReg 32 0xC)] ++ counters 0x410 5 ++ [(0x500, stgReg 32 0x3F), (0x508, w1cReg 32 8)] ++ counters 0x510 6

/-- The registers of a port's window by place. -/
def blReg (o : Nat) : Option RegSpec :=
  if 0x100 ≤ o ∧ o < 0x200 then look blWinRegs (o % 0x10)
  else if 0x2000 ≤ o then look blCqRegs (o % 0x20)
  else look blRegs o

/-- The register at a place of a window. -/
def winReg (w : Win) (o : Nat) : Option RegSpec :=
  match w with
  | .port _ => blReg o
  | .tf => look tfRegs o
  | .peer _ => look peerRegs o
  | .tfJob _ => look tfJobRegs o
  | .survJob _ => look survRegs o
  | .sf => look sfRegs o
  | .sfPort _ => look sfPortRegs o
  | .route _ => if o = 0 then some (stgReg 32 0xFF) else none
  | .sfJob _ => look sfJobRegs o
  | .dk => look dkRegs o
  | .pg => look pgRegs o
  | .sc => look scRegs o
  | .mailbox _ => look mailboxRegs o
  | .lr => look lrRegs o
  | .ev => look evRegs o
  | .evWin _ => look evWinRegs o
  | .uu _ => look uuRegs o
  | .uuJob _ => look uuJobRegs o
  | .mcPart _ => look mcPartRegs o
  | .mcSlice _ => look mcSliceRegs o
  | .hc _ => look hcRegs o
  | .seq _ => look seqRegs o
  | .zs _ => look zsRegs o
  | .ge _ => look geRegs o
  | .cm _ => look cmRegs o
  | .me _ => look meRegs o
  | .te _ => look teRegs o
  | .pgDie _ => look pgDieRegs o

/-- The bytes of a window that are no register of 32 or 64 bits: the place within them (R517, R528). -/
inductive ByteWin where
  | token | prov | flashData
  | nonce (p : Nat)
  | report (p : Nat)
  | record (w : Nat)
  deriving DecidableEq, Repr

/-- The byte window at a place of a window, and the place in it. -/
def byteWin (w : Win) (o : Nat) : Option (ByteWin × Nat) :=
  match w with
  | .sc => firstOf [(inRun o 0x100 0x100 1).map fun e => (.token, e.2), (inRun o 0x200 0x400 1).map fun e => (.prov, e.2),
      (inRun o 0x700 0x100 1).map fun e => (.flashData, e.2)]
  | .mailbox p => firstOf [(inRun o 0x40 48 1).map fun e => (.nonce p, e.2), (inRun o 0x100 736 1).map fun e => (.report p, e.2)]
  | .evWin k => (inRun o 0x100 0x100 1).map fun e => (.record k, e.2)
  | _ => none

/-! ### Reads -/

/-- What a register reads of the rest of the state. `v` is its stored value. -/
def State.view (s : State) (w : Win) (o v : Nat) : Nat :=
  match w, o with
  | .port p, 8 => s.viewPort p v
  | .port _, 0x10 => 0
  | .tf, 8 => s.viewTf v
  | .tf, 0x8008 => s.viewPair v
  | .tf, 0x8020 => s.surv.poolFree % 2 ^ 20
  | .peer k, _ => if k = s.pins.strapSlot then (if o = 0 then 3 else 0) else v
  | .survJob e, 0 => setFld v 0 1 (b2n (s.prot e).isSome)
  | .survJob e, 0x10 => s.viewSurv e v
  | .survJob e, 0x18 => s.viewGen e
  | .sf, 0 => s.viewSf v
  | .sfPort p, 0 => setFld v 0 2 (s.sfShown p)
  | .dk, 0 => s.viewClk v
  | .dk, 8 => s.ticks
  | .dk, 0x100 => s.viewSb
  | .dk, 0x808 => s.viewRisk
  | .dk, 0x828 => s.viewSpares
  | .pg, 8 => s.viewPower v
  | .pg, 0x20 => s.pwr.energy / 10000
  | .pg, 0x30 => s.pwr.capped / 10
  | .pgDie d, 8 => s.viewDie d v
  | .pgDie d, 0x10 => s.viewDiePower d
  | .pgDie d, 0x18 => s.viewDieTemp d
  | .sc, 0 => s.viewSec
  | .sc, 0x10 => s.sec.lcCount % 256
  | .sc, 0x20 => s.viewHub
  | .sc, 0x28 => leAt s.deviceIdNow 0 8
  | .sc, 0x30 => leAt s.deviceIdNow 8 8
  | .sc, 0x50 => s.viewUpd v
  | .sc, 0x60 => s.viewUnit 0
  | .sc, 0x68 => s.viewUnit 1
  | .sc, 0x70 => s.viewUnit 2
  | .sc, 0x78 => s.viewUnit 3
  | .sc, 0x80 => s.viewUnit 4
  | .sc, 0x88 => s.viewUnit 5
  | .sc, 0x608 => s.viewFlash
  | .mailbox p, 8 => s.viewAtt p
  | .lr, 8 => s.viewLoader
  | .lr, 0x10 => s.viewVersion
  | .lr, 0x38 => (s.loader.modules.map fun m => m.bytes).sum
  | .ev, 8 => s.viewRecorder
  | .ev, 0x10 => s.recd.seqNext
  | .ev, 0x18 => s.recd.opMinutes
  | .ev, 0x20 => s.recd.powerCycles
  | .ev, 0x50 => s.viewRate
  | .evWin k, 0 => (s.window k).seq.toNat
  | .evWin k, 8 => s.viewLookup k
  | .uu u, 8 => s.viewUnitUu u v
  | .uuJob _, 0x18 => v
  | .uuJob e, _ => s.viewJob e o
  | .mcPart p, 8 => s.viewPart p v
  | .mcPart p, 0x10 => s.pinnedLines p
  | .mcSlice k, 0 => s.viewSlice k
  | .hc u, 8 => s.viewHbm u v
  | .hc u, 0x10 => s.viewSlots u v
  | .hc u, 0x28 => s.rowsMapped u
  | .seq q, 8 => s.viewSeq q
  | .seq q, 0x10 => s.seqMembers q % 2 ^ 64
  | .seq q, 0x18 => s.seqMembers q / 2 ^ 64
  | .zs c, 0 => (s.core c).viewDepth
  | .zs c, 8 => (s.core c).viewState v
  | .zs c, 0x10 => (s.core c).viewRank
  | .zs c, 0x18 => (s.core c).viewTokens 0
  | .zs c, 0x20 => (s.core c).viewTokens 1
  | .zs c, 0x28 => (s.core c).viewTokens 2
  | .zs c, 0x30 => (s.core c).viewTokens 3
  | .zs c, 0x38 => (s.core c).viewInflight
  | .ge c, 8 => s.viewGe c v
  | .ge c, 0x10 => s.viewFrames c
  | .cm c, 0 => s.viewCm c v
  | .me c, 0 => s.viewMe c
  | .te c, 8 => s.viewTe c v
  | .te c, 0x10 => s.viewBusy c
  | .te c, 0x18 => s.viewModes c
  | .te c, 0x20 => s.viewIssue c
  | .te c, 0x28 => s.viewSave c v
  | .te c, 0x408 => s.viewScale c v
  | .te c, 0x508 => s.viewAcc c v
  | _, _ => v

/-- The bytes of a byte window; those that are only written read 0 (R12). -/
def State.byteWinRead (s : State) : ByteWin → List Byte
  | .nonce p => (s.mailbox p).nonce
  | .report p => (s.mailbox p).report
  | .record k => (s.window k).record
  | _ => []

/-- Bits of one number where a mask has 1, of another elsewhere. -/
def mix (m a b : Nat) : Nat := ((BitVec.ofNat 64 a &&& BitVec.ofNat 64 m) ||| (BitVec.ofNat 64 b &&& ~~~(BitVec.ofNat 64 m))).toNat

/-- The value of a register: its stored value with staged fields as most recently written (R13), and what it reads of the state. -/
def State.regValue (s : State) (off : Nat) (w : Win) (o : Nat) (r : RegSpec) : Nat :=
  let v := s.reg off
  let v1 := match look s.staged off with | some k => mix r.stg k.toNat v | none => v
  s.view w o v1 % 2 ^ r.width

/-- Whether an access has a width of 32 or 64 bits and is aligned (R10). -/
def accessOk (off width : Nat) : Bool := (width == 32 || width == 64) && off % (width / 8) == 0

/-- All ones of a width. -/
def allOnes (width : Nat) : Nat := 2 ^ width - 1

/-- Whether an offset lies in the absent SF_ block of the tray grade (R3). -/
def State.noSf (s : State) (off : Nat) : Bool := s.ident.grade == .tray && decide (0x2_0000 ≤ off) && decide (off < 0x3_0000)

/-- Whether the half of a 64-bit register lies at an offset. -/
def halfOf (w : Win) (o : Nat) : Bool := decide (4 ≤ o) && match winReg w (o - 4) with | some r => r.width == 64 | none => false

/-- A read of the control space (R10-R13, R329): a reserved offset reads 0, a width that is not the register's reads all ones. -/
def State.readCtl (s : State) (off width : Nat) : Nat :=
  if !(accessOk off width) then allOnes width
  else if s.noSf off then 0
  else match winAt off with
    | none => 0
    | some (w, o) => match byteWin w o with
      | some (b, k) => leAt (s.byteWinRead b) k (width / 8)
      | none => match winReg w o with
        | some r => if r.width = width then s.regValue off w o r else allOnes width
        | none => if halfOf w o then allOnes width else 0

/-! ### Rights (R330, R491) -/

/-- Whether R330 gives windows of a kind an owner. -/
def Win.owned : Win → Bool
  | .tfJob _ => true
  | .survJob _ => true
  | .sfJob _ => true
  | .uuJob _ => true
  | .mcPart _ => true
  | .mcSlice _ => true
  | .seq _ => true
  | .zs _ => true
  | .ge _ => true
  | .cm _ => true
  | .me _ => true
  | .te _ => true
  | _ => false

/-- The partition that holds a core. -/
def State.coreOwner (s : State) (c : Nat) : Option Nat := (s.objs.parts.find? fun e => e.2.cores.contains c).map (·.1)

/-- The partition of a job-table entry's serving context (R330, R390). -/
def State.jobOwner (s : State) (e : Nat) : Option Nat := ((s.serving e).bind fun x => s.ctx x).map fun c => c.part

/-- The partition that owns a window (R330). -/
def State.winOwner (s : State) : Win → Option Nat
  | .tfJob e => s.jobOwner e
  | .survJob e => s.jobOwner e
  | .sfJob e => s.jobOwner e
  | .uuJob e => s.jobOwner e
  | .mcPart p => if (look s.objs.parts p).isSome then some p else none
  | .mcSlice k => s.sliceOwner k
  | .seq q => ((look s.seqs q).bind fun k => s.ctx k.ctx).map fun c => c.part
  | .zs c => s.coreOwner c
  | .ge c => s.coreOwner c
  | .cm c => s.coreOwner c
  | .me c => s.coreOwner c
  | .te c => s.coreOwner c
  | _ => none

/-- Whether a port may read a window; a mailbox and a read window are read by their own port (R330, R502, R528). -/
def State.mayRead (s : State) (p : Nat) (w : Win) : Bool :=
  match w with
  | .mailbox q => q == p
  | .evWin q => q == p
  | _ => match s.winOwner w with | some k => s.partPort k == some p | none => true

/-- Whether a port may write a window (R330, R491, R502, R528). -/
def State.mayWrite (s : State) (p : Nat) (w : Win) : Bool :=
  match w with
  | .port q => q == p
  | .mailbox q => q == p
  | .evWin q => q == p
  | _ => match s.winOwner w with | some k => s.partPort k == some p | none => p == s.mgmtPort

/-- A read through a port's configuration window: one that is not allowed returns 0 (R330). -/
def State.readPort (s : State) (p off width : Nat) : Nat :=
  match winAt off with
  | some (w, _) => if accessOk off width && !(s.mayRead p w) then 0 else s.readCtl off width
  | none => s.readCtl off width

/-! ### lck fields (R12, R14) -/

/-- The host ranges of a port's live objects (R346): queue state records, the link record once written, the rings of its enabled completion
queues. -/
def State.liveRanges (s : State) (p : Nat) : List (Nat × Nat) :=
  let base := s.reg (offBl p 0x100)
  ((s.objs.queues.filter fun e => e.1 / 8192 == p && e.2.owner.isSome).map fun e => (e.2.record, 16)) ++
    (if (s.port p).recorded then [(base / 4096 * 4096 + fld (s.reg (offBl p 0x18)) 0 20 * 16, 16)] else []) ++
    (((List.range 256).filter fun c => s.cqEnabled p c).map fun c => (s.cqCtl p c / 2 ^ 19 * 2 ^ 19, 64 * 2 ^ fld (s.cqCtl p c) 1 5))

/-- Whether a coherent window runs: a live object lies in it (R346). -/
def State.windowRuns (s : State) (p n : Nat) : Bool :=
  let base := s.reg (offBl p (0x100 + n * 0x10))
  let pages := s.reg (offBl p (0x108 + n * 0x10))
  bit base 0 && (s.liveRanges p).any fun r => overlaps r (base / 4096 * 4096, pages * 4096)

/-- Whether the lck fields at a place run (R346, R415, R459, R517). -/
def State.runs (s : State) (w : Win) (o : Nat) : Bool :=
  match w with
  | .port p =>
    if o = 0x18 then (s.port p).recorded
    else if o < 0x2000 then s.windowRuns p ((o - 0x100) / 0x10)
    else s.cqEnabled p ((o - 0x2000) / 0x20)
  | .tf =>
    if o = 0x8000 then s.surv.pair == .pairing || s.surv.pair == .paired
    else s.surv.pair == .paired || s.surv.twins.any fun t => t.promoted
  | .tfJob e => s.fab.colls.any fun k => k.2.entry == e
  | .sfJob e => s.fab.colls.any fun k => k.2.entry == e
  | .survJob e => (s.prot e).isSome
  | .sc => s.sec.upd.stage != .idle
  | _ => false

/-- The write_refused flag of a window's block (R14). -/
def refusedFlag : Win → Nat × Nat
  | .port p => (offBl p 8, 5)
  | .tf => (offTf 0x8008, 15)
  | .survJob e => (offSurv e 0x10, 6)
  | .sfJob _ => (offSf 0, 14)
  | .sc => (offSc 0x50, 6)
  | _ => (offTf 8, 20)

/-! ### Writes -/

/-- The state that a meaning leaves. -/
def after (r : Res) (s : State) : State :=
  match r with
  | .next t => t
  | _ => s

/-- BL_CQ_CTL written: a size that is not 6 to 24 leaves the queue disabled; a queue newly enabled starts empty (R344, log 20). -/
def State.cqSet (s : State) (p c : Nat) (was : Bool) : State :=
  let v := s.cqCtl p c
  if bit v 0 && !(s.cqEnabled p c) then s.setField (offCq p c 0) 0 1 0
  else if bit v 0 && !was then ((s.setReg (offCq p c 8) 0).setReg (offCq p c 0x10) 0).setCq p c ⟨0, []⟩
  else s

/-- The free pages of the survival pool after its size is set: all but the mailbox and what is reserved (R421, R437). -/
def State.poolSet (s : State) : State :=
  s.modSurv fun v => { v with poolFree := s.poolPages - 1 - (v.prots.map fun e => if e.2.state = .off then 0 else e.2.reserved).sum -
    (v.twins.map fun t => t.reserved).sum }

/-- The commands of TF_PAIR_CTL, in the order of their bits (R458). -/
def State.pairCtl (s : State) (v : Nat) : State :=
  let s1 := if bit v 4 then after (execPairGo s) s else s
  let s2 := if bit v 5 then after (execUnpair s1) s1 else s1
  if bit v 6 then after (execSwapReq s2) s2 else s2

/-- The commands of SC_UPD_CTL, in the order of their bits (R510, R511, R517). -/
def State.updCtl (s : State) (v : Nat) : State :=
  let s1 := if bit v 0 then s.updGo else s
  let s2 := if bit v 1 then s1.updCommit (bit v 2) else s1
  if bit v 3 then s2.updAbort else s2

/-- EV_RATE written: capacity and refill of the selected code wait for its next operating minute; a critical code has none (R525, R531). -/
def State.rateSet (s : State) (v : Nat) : State :=
  let c := s.reg (offEv 0x48) % 2 ^ 16
  if (bucketDefault c).isSome then s.setBucket c { s.bucket c with newCapacity := fld v 0 8, newRefill := fld v 8 8 } else s

/-- EV_CTL written: a flush, then a clear (R530). -/
def State.evCtl (s : State) (v : Nat) : State :=
  let s1 := if bit v 0 then s.startFlush else s
  if bit v 1 then s1.logClear else s1

/-- What a write sets going beside its fields, where the write comes from port `p` (R344, R409, R458-R461, R316, R417, R485, R517, R530). `was` is
the register's stored value before. -/
def State.wrote (s : State) (p : Nat) (w : Win) (o v was : Nat) : State :=
  match w, o with
  | .tf, 0 => if bit v 2 then after (execReadmit p (fld v 3 3) s) s else s
  | .tf, 0x8000 => s.pairCtl v
  | .tf, 0x8018 => if s.runs .tf 0x8018 then s else s.poolSet
  | .survJob e, 0 => after (if bit v 0 then execProtectEnable e s else execProtectDisable e s) s
  | .survJob e, 0x20 => if bit v 0 then s.restoreAsked e else s
  | .route t, 0 => if s.fab.reqs.any fun e => e.2.dst / 8 == t then s else ((s.adopt (offRoute t) 0 8).updateRoute t).sweepOut.pumpAll
  | .dk, 0x800 => if bit v 2 then s.setRisk (v % 4) else s
  | .dk, 0x820 => if bit v 12 then s.startReplace (fld v 13 11) else s
  | .pg, 0x18 => (List.range dieCount).foldl (fun (t : State) d => t.adoptSpread d) s
  | .hc u, 0 => if bit v 14 then after (execEvacGo u (fld v 15 5) s) s else s
  | .sc, 8 => if bit v 0 then s.lcGo else s
  | .sc, 0x18 => if bit v 2 then s.hubGo (v % 4) else s
  | .sc, 0x38 => s.updCtl v
  | .sc, 0x600 => let s1 := if bit v 32 then s.flashGo true else s; if bit v 33 then s1.flashGo false else s1
  | .mailbox q, 0 => if bit v 0 then s.attGo q else s
  | .ev, 0 => s.evCtl v
  | .ev, 8 => if bit v 1 then s.modRecd fun k => { k with flashFail := false } else s
  | .ev, 0x50 => s.rateSet v
  | .evWin k, 0 => s.startLookup k (BitVec.ofNat 64 v)
  | .uu u, 0 => s.adoptRate u
  | .mcPart k, 0 => s.adoptCap k
  | .port q, _ =>
    if 0x2000 ≤ o ∧ o % 0x20 = 0 then s.cqSet q ((o - 0x2000) / 0x20) (bit was 0)
    else if 0x2000 ≤ o ∧ o % 0x20 = 8 then s.cqDrain (s.cq q ((o - 0x2000) / 0x20)).waiting.length q ((o - 0x2000) / 0x20)
    else s
  | _, _ => s

/-- The fields of a register written (R12-R14): rw and lck fields take the value, w1c bits written 1 clear, staged fields wait; lck fields
that run keep theirs and set write_refused. -/
def State.writeFields (s : State) (off : Nat) (w : Win) (o : Nat) (r : RegSpec) (v : Nat) : State :=
  let old := s.reg off
  let stuck := r.lck != 0 && s.runs w o
  let new := mix (if stuck then r.rw else mix r.rw (allOnes 64) r.lck) v (mix r.w1c (mix v 0 old) old)
  let s1 := if new = old then s else s.setReg off new
  let base := match look s.staged off with | some k => k.toNat | none => old
  let s2 := if r.stg = 0 then s1 else { s1 with staged := put s1.staged off (BitVec.ofNat 64 (mix r.stg v base)) }
  if stuck then s2.setBit (refusedFlag w).1 (refusedFlag w).2 else s2

/-- BL_PORT_KEY written: once after reset (R12). -/
def State.keySet (s : State) (off v : Nat) : State :=
  if off ∈ s.once then s else { s.setReg off (v % 2 ^ 32) with once := off :: s.once }

/-- Bytes written in a table from a place. -/
def putBytes (t : Tab Byte) (o : Nat) : List Byte → Tab Byte
  | [] => t
  | b :: bs => putBytes (put t o b) (o + 1) bs

/-- A byte window written; the flash window takes no write while an update is in progress (R500). -/
def State.byteWinWrite (s : State) (b : ByteWin) (k : Nat) (bytes : List Byte) : State :=
  match b with
  | .token => s.modSec fun c => { c with token := putBytes c.token k bytes }
  | .prov => s.modSec fun c => { c with prov := putBytes c.prov k bytes }
  | .flashData =>
    if s.sec.upd.stage = .idle then s.modSec fun c => { c with flashData := putBytes c.flashData k bytes }
    else s.modSec fun c => { c with flashCode := 0xA006 }
  | .nonce p => s.setMailbox p { s.mailbox p with nonce := (patch (sliceBytes (s.mailbox p).nonce 0 48) k bytes).take 48 }
  | .report _ => s
  | .record _ => s

/-- A write that is allowed (R10-R14, R329): one of another width, or at a reserved offset, is ignored. `p` is the port whose rights it
uses. -/
def State.writeCtl (s : State) (p off width v : Nat) : State :=
  if !(accessOk off width) || s.noSf off then s
  else match winAt off with
    | none => s
    | some (w, o) => match byteWin w o with
      | some (b, k) => s.byteWinWrite b k (leBytes (width / 8) v)
      | none => match winReg w o with
        | none => s
        | some r =>
          if r.width ≠ width then s
          else if off = offBl p 0x10 then s.keySet off v
          else if w = .sc ∧ o = 0x600 ∧ s.sec.upd.stage ≠ .idle then s.modSec fun c => { c with flashCode := 0xA006 }
          else
            let s0 := match w, o with | .pgDie d, 0 => s.holdIdles d | _, _ => s
            (s0.writeFields off w o r v).wrote p w o v (s.reg off)

/-- Whether an offset holds a register or a byte window that an access of a width meets (R10, R329). -/
def State.meets (s : State) (off width : Nat) : Bool :=
  accessOk off width && !(s.noSf off) &&
    match winAt off with
    | none => false
    | some (w, o) => (byteWin w o).isSome || match winReg w o with | some r => r.width == width | none => false

/-- A write through a port's configuration window: one that is not allowed is ignored and counted (R330). -/
def State.writePort (s : State) (p off width v : Nat) : State :=
  match winAt off with
  | some (w, _) =>
    if s.meets off width && !(s.mayWrite p w) then s.bump (offBl p 0x78) 1 else s.writeCtl p off width v
  | none => s

/-- REGISTER_WRITE (R10-R14, R329, R330): through the configuration window of a port that is up. -/
def execRegisterWrite (port offset width : Nat) (value : W64) (s : State) : Res :=
  .next (if port < 4 && (s.port port).up then s.writePort port offset width (value.toNat % 2 ^ width) else s)

/-! ### SMBus (R491, R553, R554) -/

/-- Whether an offset lies in the blocks that SMBus writes: DK_, PG_, SC_, and a die's PG_ (R491). -/
def smbBlock (off : Nat) : Bool :=
  decide (0x3_0000 ≤ off) && decide (off < 0x6_0000) ||
    decide (0x100_0000 ≤ off) && decide (off < 0x1100_0000) && off % 0x100_0000 / 0x1_0000 == 4

/-- Whether an offset lies in a block that has power: DK_, SC_, PG_ and EV_ have it whenever the dusk domain runs (R554). -/
def State.hasPower (s : State) (off : Nat) : Bool := s.alive || smbBlock off || decide (0x7_0000 ≤ off) && decide (off < 0x8_0000)

/-- Whether SMBus may read at an offset: with the management port's rights, and its own read window (R491, R528). -/
def State.smbReads (s : State) (off : Nat) : Bool :=
  match winAt off with
  | some (.evWin 4, _) => true
  | some (w, _) => s.mayRead s.mgmtPort w
  | none => true

/-- Whether SMBus may write at an offset (R491, R528). -/
def State.smbWrites (s : State) (off : Nat) : Bool :=
  match winAt off with
  | some (.evWin 4, _) => true
  | some (.mailbox q, _) => q == s.mgmtPort
  | _ => smbBlock off

/-- The SMBus interface changed. -/
def State.modSmb (s : State) (f : Smb → Smb) : State := { s with smb := f s.smb }

/-- An access noted: whether it was refused or met no power; the offset rises by its bytes (R553). -/
def State.smbNote (s : State) (refused unpowered : Bool) (n : Nat) : State :=
  s.modSmb fun k => { k with refused := refused, unpowered := unpowered, offset := k.offset + BitVec.ofNat 32 n }

/-- A read command of a width. -/
def State.smbRead (s : State) (width : Nat) : State :=
  if !s.pins.duskReady then s
  else
    let off := s.smb.offset.toNat
    let v := if !(s.hasPower off) || !(s.smbReads off) then 0 else s.readCtl off width
    (s.modSmb fun k => { k with readData := BitVec.ofNat 64 v }).smbNote (!(s.smbReads off)) (!(s.hasPower off)) (width / 8)

/-- A write command of a width. -/
def State.smbWrite (s : State) (width v : Nat) : State :=
  if !s.pins.duskReady then s
  else
    let off := s.smb.offset.toNat
    let s1 := if s.hasPower off && s.smbWrites off then s.writeCtl s.mgmtPort off width v else s
    s1.smbNote (!(s.smbWrites off)) (!(s.hasPower off)) (width / 8)

/-- ADDR (R553). A write whose PEC fails is discarded. -/
def execAddr (offset : W32) (pecOk : Bool) (s : State) : Res := .next (if s.pins.duskReady && pecOk then s.modSmb fun k => { k with offset := offset } else s)

/-- RD32 (R553). -/
def execRd32 (s : State) : Res := .next (s.smbRead 32)

/-- RD64 (R553). -/
def execRd64 (s : State) : Res := .next (s.smbRead 64)

/-- WR32 (R553). A write whose PEC fails is discarded. -/
def execWr32 (value : W32) (pecOk : Bool) (s : State) : Res := .next (if pecOk then s.smbWrite 32 value.toNat else s)

/-- WR64 (R553). A write whose PEC fails is discarded. -/
def execWr64 (value : W64) (pecOk : Bool) (s : State) : Res := .next (if pecOk then s.smbWrite 64 value.toNat else s)

/-- STATUS (R553): what the last access met, cleared by the read. -/
def execStatus (s : State) : Res :=
  .next (if s.pins.duskReady then
    s.modSmb fun k => { k with readData := BitVec.ofNat 64 (b2n k.refused + 2 * b2n k.unpowered), refused := false, unpowered := false }
  else s)

/-- ALERT_RESPONSE (R554): the module answers with its address, and releases ALERT_N. -/
def execAlertResponse (s : State) : Res :=
  .next (if s.pins.duskReady && s.pins.alertLow then
    (s.modSmb fun k => { k with readData := BitVec.ofNat 64 (0x48 + s.pins.strapSlot) }).modPins fun p => { p with alertLow := false }
  else s)

/-! ### Test access (R555) -/

/-- IDCODE (R555). -/
def State.idcode (s : State) : Nat :=
  pack [(28, s.ident.revision % 16), (12, if s.ident.grade = .full then 0xC7AF else 0xC7AE), (1, 0x159), (0, 1)]

/-- The life cycle opens all test access (R504). -/
def State.tapOpen (s : State) : Bool := s.sec.lc = .blank ∨ s.sec.lc = .service

/-- The test data register captures the header pins, whose order in the boundary register is not stated: a free value. `drive` says
whether the boundary register drives the pins (IEEE 1149.1, R16; log 9). -/
def State.capturePins (s : State) (drive : Bool) : State :=
  let d := s.draw
  d.2.modSmb fun k => { k with tapData := d.1.setWidth 32, extest := drive }

/-- TAP_INSTRUCTION (R16, R504, R555): the data register holds the IDCODE, the bypass bit or the header pins. EXTEST also drives the pins
from the boundary register until another instruction stands. Outside BLANK and SERVICE only the three that R504 names are taken; in those
two, the effect of an instruction that neither the spec nor IEEE 1149.1's required set names is not stated (log 9). -/
def execTapInstruction (op : TapOp) (s : State) : Res :=
  match op with
  | .idcode => .next (s.modSmb fun k => { k with tapData := BitVec.ofNat 32 s.idcode, extest := false })
  | .bypass => .next (s.modSmb fun k => { k with tapData := 0, extest := false })
  | .samplePreload => .next (s.capturePins false)
  | .extest => .next (if s.tapOpen then s.capturePins true else s)
  | .other _ => if s.tapOpen then .refused .tapInstructionOpen else .next s

end Sys2Proof.Machine
end

