-- ==== Sys2Proof/Machine/Twins.lean ====
section
/-! DEFINITION. The partner's side of survival: the twin regions that this device holds for its partner's jobs (R428, R432, R437,
R440-R444, R449, R452). How the partner's messages reach it is the model's choice (log 30). -/

namespace Sys2Proof.Machine

open Sys2Proof

/-! ### The live image (R429, R441) -/

/-- A seal that takes a page's frozen contents as its version, where it has none of the page. -/
def TwinSeal.addVersion (i : Nat) (b : List Byte) (x : TwinSeal) : TwinSeal :=
  if (look x.versions i).isSome then x else { x with versions := put x.versions i b }

/-- The first touch of a frozen page of a live image (R441): its contents become a version of the settled seal, and of the open one where
that has frozen the page, a USERS page only once the seal has been written (R442). -/
def State.touchTwin (s : State) (a : Nat) (w : Twin) : Twin :=
  match w.places.zipIdx.find? fun g => decide (g.1.1 ≤ a) && decide (a < g.1.1 + g.1.2.1) with
  | none => w
  | some (g, i) =>
    if w.promoted || !(w.frozen.contains i) then w
    else
      let b := s.see g.1 g.2.1
      { w with frozen := drop1 w.frozen i, settled := w.settled.map (TwinSeal.addVersion i b),
               openSeal := w.openSeal.map fun x => if g.2.2 = 0 || !x.record.isEmpty then x.addVersion i b else x }

/-- The copies on first touch of a store to an address of the pool. -/
def State.twinTouch (s : State) (a : Nat) : State := s.modSurv fun v => { v with twins := v.twins.map (s.touchTwin a) }

/-- Whether a twin is a job's of a slot. -/
def Twin.isOf (w : Twin) (slot job : Nat) : Bool := w.slot == slot && w.job == job

/-- A twin changed. -/
def State.modTwin (s : State) (slot job : Nat) (f : Twin → Twin) : State :=
  s.modSurv fun v => { v with twins := v.twins.map fun w => if w.isOf slot job then f w else w }

/-! ### Messages of the partner (log 30) -/

/-- A region reserved for a job (R437), whose keys lie in the mailbox; none where the pool has too few free pages. A settled seal or
promoted twin of the job is kept. -/
def State.reserveHere (s : State) (slot : Nat) (m : List Byte) : Option State :=
  let job := leAt m 2 2
  let n := leAt m 8 8
  let old := s.surv.twins.find? fun w => w.isOf slot job
  let have_ := match old with | some w => w.reserved | none => 0
  if s.surv.poolFree + have_ < n || s.poolPages < leAt m 4 4 + n then none
  else
    let base := s.poolBase + leAt m 4 4 * 0x20_0000
    let fresh : Twin := { slot := slot, job := job, entry := leAt m 1 1, promoted := false, base := base,
                          keys := s.see (s.poolBase + mailBuffer (leAt m 1 1)) (8 * leAt m 0x10 4), reserved := n, step := none, frozen := [],
                          settled := none, openSeal := none }
    let w := match old with
      | some w => if w.settled.isSome then { s.keepSealed w with entry := leAt m 1 1, base := base, reserved := n } else fresh
      | none => fresh
    some (s.modSurv fun v => { v with twins := (v.twins.filter fun w => !(w.isOf slot job)) ++ [w], poolFree := v.poolFree + have_ - n })

/-- The places of the pages of a class in a twin's table. -/
def Twin.ofClass (w : Twin) (cls : Nat) : List Nat := (w.table.zipIdx.filter fun k => k.1.1 == cls).map (·.2)

/-- A seal's marker: the live image freezes (R440 step 4). -/
def Twin.close (gen : Nat) (w : Twin) : Twin :=
  { w with openSeal := some ⟨gen, [], [], [], []⟩, frozen := w.ofClass 0 ++ w.frozen.filter fun i => (w.ofClass 1).contains i }

/-- The end of a seal's stream (R442, R443): the page digests, the schedule record and the seal record, and the USERS pages freeze. -/
def State.recordTwin (s : State) (m : List Byte) (w : Twin) : Twin :=
  match w.openSeal with
  | none => w
  | some x =>
    let sched := s.see (s.poolBase + mailBuffer w.entry) (leAt m 0x10 4)
    let digests := (s.twinPages w x).map sha384
    let body := leBytes 4 0x4C41_4553 ++ leBytes 2 1 ++ leBytes 2 (leAt m 0x14 1) ++ leBytes 4 x.generation ++ leBytes 2 w.job ++ leBytes 2 0 ++
      leBytes 2 (s.pins.strapTray * 8 + w.slot) ++ leBytes 2 s.node ++ leBytes 1 (leAt m 0x15 1) ++ leBytes 1 s.pins.strapFeed ++ leBytes 2 0 ++
      leBytes 8 (leAt sched 8 8) ++ leBytes 8 (leAt sched 0x10 8) ++ leBytes 4 (leAt m 8 4) ++ leBytes 4 (leAt m 0xC 4) ++
      leBytes 4 (w.keys.length / 8) ++ leBytes 4 digests.length ++ leBytes 4 sched.length ++ leBytes 4 0 ++
      sha384 w.keys ++ sha384 digests.flatten ++ sha384 sched
    { w with openSeal := some { x with digests := digests, sched := sched, record := body ++ sha384 body }
             frozen := (w.frozen.filter fun i => !((w.ofClass 1).contains i)) ++ w.ofClass 1 }

/-- A seal settles on the partner once it has been written (R439). -/
def Twin.settle (w : Twin) : Twin :=
  match w.openSeal with
  | some x => if x.record.isEmpty then w else { w with settled := some x, openSeal := none }
  | none => w

/-- A page of a live image written back by a rewind. -/
def State.rewindPage (s : State) (w : Twin) (v : Nat × List Byte) : State :=
  match w.places[v.1]? with
  | some g =>
    let t := s.dropRange g.1 g.2.1
    (({ t with mem := cellPuts t.mem g.1 v.2 }).mendHalves g.1 g.2.1).pageMoved g.1 (if g.2.1 = 0x20_0000 then 0 else 1) true
  | none => s

/-- The settled seal made the live image again, its later versions freed; a promoted twin is one no longer (R449, R452). -/
def State.rewindTwin (s : State) (slot job : Nat) : State :=
  match s.surv.twins.find? fun w => w.isOf slot job with
  | none => s
  | some w => match w.settled with
    | none => s
    | some x =>
      (x.versions.foldl (fun (t : State) v => t.rewindPage w v) s).modTwin slot job fun y =>
        { y with promoted := false, openSeal := none, settled := some { x with versions := [] }, frozen := List.range w.table.length,
                 step := some (leAt x.sched 8 8) }

/-- A job's twin discarded, its pages freed (R428). -/
def State.discardTwin (s : State) (slot job : Nat) : State :=
  s.modSurv fun v => { v with twins := v.twins.filter fun w => !(w.isOf slot job),
                              poolFree := v.poolFree + ((v.twins.filter fun w => w.isOf slot job).map fun w => w.reserved).sum }

/-- A message of the partner taken; none where a region cannot be reserved. -/
def State.takeMail (s : State) (slot : Nat) (m : List Byte) : Option State :=
  let job := leAt m 2 2
  match leAt m 0 1 with
  | 1 => s.reserveHere slot m
  | 2 => some (s.modTwin slot job fun w => { w with step := some (leAt m 8 8) })
  | 3 => some (s.modTwin slot job (Twin.close (leAt m 4 4)))
  | 4 => some (s.modTwin slot job (s.recordTwin m))
  | 5 => some (s.modTwin slot job Twin.settle)
  | 6 => some (s.modTwin slot job fun w => { w with openSeal := none })
  | 7 => some (s.discardTwin slot job)
  | 8 => some (s.rewindTwin slot job)
  | _ => some s

/-- The flag of a message of the partner at an address of the pool: its line is taken, and cleared so that a flag sent again finds none. -/
def State.mailHere (s : State) (slot a : Nat) : Option State :=
  if (s.surv.pair == .paired || s.surv.pair == .pairing) && s.surv.partner == slot && decide (s.poolBase + mailFlag 0 ≤ a) &&
      decide (a ≤ s.poolBase + mailFlag 4095) then
    let line := s.poolBase + mailLine ((a - s.poolBase - mailFlag 0) / 8)
    (s.takeMail slot (s.see line 128)).map fun t => t.hbmWrite line [0]
  else some s

/-! ### Loads of a restore (R452) -/

/-- What a peer that restores reads of its twin: the settled seal's pages in their places, its page digest list behind them, and its seal
and schedule records in the mailbox buffer of the job's entry (log 30). -/
def State.twinView (s : State) (slot a n : Nat) : Option (List Byte) :=
  s.surv.twins.findSome? fun w =>
    if w.slot != slot then none
    else match w.settled with
    | none => none
    | some x =>
      let tail := w.base + w.size * 0x20_0000 + 0x20_0000
      let rec_ := s.poolBase + mailBuffer w.entry
      let within (base : Nat) (b : List Byte) : Option (List Byte) :=
        if base ≤ a && decide (a + n ≤ base + b.length) then some (sliceBytes b (a - base) n) else none
      match (w.places.zip (s.twinPages w x)).findSome? fun g => within g.1.1 g.2 with
      | some b => some b
      | none => match within tail x.digests.flatten with
        | some b => some b
        | none => within rec_ (x.record ++ x.sched)

end Sys2Proof.Machine
end

