-- ==== Sys2Proof/WellFormed.lean ====
section
/-! DEFINITION. Which commands are well formed: every operand names a unit the device has (R7, R135, R236, R321, R349,
R358, R378, R379, R513). A command that is not well formed can still stand in the queue; it names no unit of the device, so
its event cannot take place and it changes nothing. -/

namespace Sys2Proof

/-- A global core id (R7): 16 dies of 68 cores. -/
def coreOk (c : Nat) : Bool := c < 1088

/-- A sequencer, as die * 16 + sequencer (R135). -/
def seqOk (q : Nat) : Bool := q < 256

/-- A Burob port (R321). -/
def portOk (p : Nat) : Bool := p < 4

/-- A submission queue of a port (R358). -/
def queueOk (p q : Nat) : Bool := p < 4 && q < 8192

/-- A context id (R7). -/
def ctxOk (c : Nat) : Bool := c < 4096

/-- A job-table entry (R349). -/
def jobOk (j : Nat) : Bool := j < 256

/-- An HBM controller or update unit (R236, R304). -/
def unitOk (u : Nat) : Bool := u < 32

/-- A slot of an HBM controller's stack (R305, R316). -/
def slotOk (u k : Nat) : Bool := u < 32 && k < 32

/-- A compute die (R7). -/
def dieOk (d : Nat) : Bool := d < 16

/-- A link of the device (R321, R378, R379). -/
def Link.wf : Link → Bool
  | .burob p => p < 4
  | .tray k => k < 8
  | .scaleOut p => p < 4

/-- A unit of a tensor engine (R105, R106). -/
def TeUnit.wf : TeUnit → Bool
  | .array a => a < 16
  | .quad a q => a < 16 && q < 4
  | .path => true

/-- A fabric request header as R388 lays it out: the op of the command, 5 bits of hops, a 16-bit job, 10-bit nodes, a tag of 20 bits in use,
a 16-bit flag count. -/
def FabHdr.wf (h : FabHdr) (op : Nat) : Bool :=
  h.op == op && h.hops < 32 && h.job < 65536 && h.src < 1024 && h.dst < 1024 && h.tag < 2 ^ 20 && h.seq < 65536 && h.address < 2 ^ 64

/-- The operand ranges of the commands. -/
def Instr.wf : Instr → Bool
  | .nop c _ => coreOk c
  | .seqBroadcast q _ _ => seqOk q
  | .waitEntry c _ => coreOk c
  | .signalEntry c _ => coreOk c
  | .tokenVisible c _ => coreOk c
  | .waitCycle c => coreOk c
  | .waitStall x => ctxOk x
  | .passOpen q => seqOk q
  | .passSettle c _ => coreOk c
  | .passEndCredit c => coreOk c
  | .settleToken q => seqOk q
  | .settleDoneToken q => seqOk q
  | .endStream c _ => coreOk c
  | .matmul c _ => coreOk c
  | .drain c => coreOk c
  | .tileSwap c u => coreOk c && u.wf
  | .tileDrainCommit c u => coreOk c && u.wf
  | .txAccept c _ => coreOk c
  | .launch c => coreOk c
  | .blockStart c => coreOk c
  | .launchComplete c k => coreOk c && k < 2
  | .integerAndCompare c f _ => coreOk c && f < 64
  | .fpArithmetic c f _ _ => coreOk c && f < 64
  | .localStoreLoad c f _ _ => coreOk c && f < 64
  | .localStoreStore c f _ _ => coreOk c && f < 64
  | .localStoreAtomic c f op _ => coreOk c && f < 64 && op != .or
  | .narrowStore c f _ => coreOk c && f < 64
  | .laneExchange c f _ => coreOk c && f < 64
  | .rndw c f _ => coreOk c && f < 64
  | .rndk c f _ => coreOk c && f < 64
  | .bra c f _ => coreOk c && f < 64
  | .brx c f _ => coreOk c && f < 64
  | .exit c f _ => coreOk c && f < 64
  | .bar c f _ => coreOk c && f < 64
  | .barrierStall c _ => coreOk c
  | .mrBegin c f _ => coreOk c && f < 64
  | .mrEnd c f _ => coreOk c && f < 64
  | .mx c f _ => coreOk c && f < 64
  | .copy c _ => coreOk c
  | .copyRemote c _ => coreOk c
  | .hintPrefetch c => coreOk c
  | .hintPin c => coreOk c
  | .hintUnpin c => coreOk c
  | .hintDead c => coreOk c
  | .reduceScatter c _ => coreOk c
  | .allGather c _ => coreOk c
  | .allReduce c _ => coreOk c
  | .finitenessVote c => coreOk c
  | .collComplete _ => true
  | .update c => coreOk c
  | .voteOutcome _ => true
  | .updateBlockCommit _ u _ => unitOk u
  | .rule3Combine _ _ => true
  | .updateComplete _ => true
  | .fence c => coreOk c
  | .trigger c => coreOk c
  | .atomic c => coreOk c
  | .hostPut c _ => coreOk c
  | .transferComplete c k => coreOk c && k < 64
  | .lineFill _ _ _ e => match e with | some e => e.word < 16 | none => true
  | .cowPageWaitExpiry j _ => jobOk j
  | .scrubPass u fs => unitOk u && fs.all fun f => f.slot < 32
  | .rowRemapDone u k _ => slotOk u k
  | .evacGo u k => slotOk u k
  | .evacCopyDone u k => slotOk u k
  | .pcRetrainDone u k _ => slotOk u k
  | .evacCopyBackDone u k => slotOk u k
  | .wipeComplete _ => true
  | .packetArrival p bs => portOk p && 64 ≤ bs.length
  | .packetHead p q => queueOk p q
  | .pktNop p q => queueOk p q
  | .write p q => queueOk p q
  | .read p q => queueOk p q
  | .load p q => queueOk p q
  | .loadStart => true
  | .loadDone => true
  | .unload p q => queueOk p q
  | .pktLaunch p q => queueOk p q
  | .query p q => queueOk p q
  | .partCreate p q => queueOk p q
  | .partDestroy p q => queueOk p q
  | .contextCreate p q => queueOk p q
  | .contextKill p q => queueOk p q
  | .teardownAbortDone x => ctxOk x
  | .contextDestroy p q => queueOk p q
  | .contextQuery p q => queueOk p q
  | .contextPreempt p q => queueOk p q
  | .teSaveDone c _ _ => coreOk c
  | .geSaveDone c => coreOk c
  | .queueSaveDone c => coreOk c
  | .localStoreSave c _ => coreOk c
  | .contextResume p q => queueOk p q
  | .resumeDone x _ => ctxOk x
  | .jobCreate p q => queueOk p q
  | .jobJoin p q => queueOk p q
  | .jobDestroy p q => queueOk p q
  | .queueCreate p q => queueOk p q
  | .queueDestroy p q => queueOk p q
  | .memAlloc p q => queueOk p q
  | .memFree p q => queueOk p q
  | .memMap p q => queueOk p q
  | .memUnmap p q => queueOk p q
  | .memUnmapComplete _ => true
  | .memShare p q => queueOk p q
  | .descTableSet p q => queueOk p q
  | .fenceCreate p q => queueOk p q
  | .fenceDestroy p q => queueOk p q
  | .fenceShare p q => queueOk p q
  | .fenceImport p q => queueOk p q
  | .fenceReset p q => queueOk p q
  | .eventCreate p q => queueOk p q
  | .eventDestroy p q => queueOk p q
  | .burobFlit p _ _ _ => portOk p
  | .keepaliveSend l => l.wf
  | .burobLinkDown p => portOk p
  | .burobTrained p n h => portOk p && n < 65536 && 1 ≤ h && h ≤ 3
  | .burobTrainRetry p => portOk p
  | .laneErrorWindow l h n _ => l.wf && h < 2 && n < 32
  | .halfRetrainDone l h _ => l.wf && h < 2
  | .halfRetry l h => l.wf && h < 2
  | .graceExpiry p => portOk p
  | .cqHeadWrite p c _ => portOk p && c < 256
  | .cqWaitTimeout p c => portOk p && c < 256
  | .trayFlit l _ _ _ => l.wf
  | .trayLinkTrained k t f h => k < 8 && t < 128 && f < 8 && 1 ≤ h && h ≤ 3
  | .trayLinkDown k => k < 8
  | .scaleoutPortTrained p n _ => p < 4 && n < 1024
  | .scaleoutPortDown p => p < 4
  | .scaleoutWidthChangeDone p _ => p < 4
  | .lineStore h _ d => h.wf 1 && d.length == 128
  | .lineLoad h _ _ => h.wf 2
  | .descFetch h => h.wf 3
  | .fabricAtomic h _ _ => h.wf 4
  | .flag h => h.wf 5
  | .flagApplied _ => true
  | .token h _ k => h.wf 6 && k < 32
  | .fabricTrigger h p _ => h.wf 7 && p < 65536
  | .fabricColl h _ => h.wf 8
  | .fencePush h _ _ k _ => h.wf 9 && k < 65536
  | .fenceForward h _ _ => h.wf 0xA
  | .lossNotice a b l => l.wf && a < 1024 && b < 1024
  | .lossNoticeHoldEnd a => a < 1024
  | .fabricResponse _ r => r.code < 65536 && r.src < 1024 && r.dst < 1024
  | .fabricRequestTimeout _ => true
  | .readmit p k => portOk p && k < 8
  | .pairGo => true
  | .pairRequestReceived n _ => n < 1024
  | .pairTimeout => true
  | .unpair => true
  | .swapReq => true
  | .protectEnable j => jobOk j
  | .protectDisable j => jobOk j
  | .mirrorStoreAck j _ => jobOk j
  | .stepCloseReady j => jobOk j
  | .markerAck j => jobOk j
  | .sealWritebackDone j => jobOk j
  | .sealStreamAck j => jobOk j
  | .restoreGo j _ => jobOk j
  | .restoreComplete j _ _ _ _ => jobOk j
  | .spareGo c => coreOk c
  | .replacementTilesEnded => true
  | .spareIn => true
  | .operatingMinute _ => true
  | .slowLoop o => o.dies.length == 16
  | .fastLoop d _ => dieOk d
  | .clockGate c => coreOk c
  | .powerGate c => coreOk c
  | .coreWakeRequest c => coreOk c
  | .rampAdmitted c => coreOk c
  | .coreWakeDone c _ => coreOk c
  | .dieGate d => dieOk d
  | .dieWakeRequest d => dieOk d
  | .dieWakeDone d => dieOk d
  | .inputRise => true
  | .duskReady _ => true
  | .pwrEnAssert => true
  | .powerGood => true
  | .pwrEnDeassert => true
  | .inputFault _ _ => true
  | .resetNAssert => true
  | .resetNRelease => true
  | .bootDone _ => true
  | .wakeNLow => true
  | .wakeNRelease => true
  | .thermNLow => true
  | .thermNRelease => true
  | .pllLossOfLock d _ => dieOk d
  | .pllRelockDone d _ _ => dieOk d
  | .duskInputLoss => true
  | .duskInputRestored => true
  | .hubGo p h => portOk p && h < 4
  | .hubFailureDetected h => h < 4
  | .hubSelfTestDone h _ => h < 4
  | .lcGo => true
  | .lifeCycleChangeDone => true
  | .updGo => true
  | .updWriteDone _ => true
  | .unitActivation => true
  | .updCommit _ => true
  | .updAbort => true
  | .flashErase => true
  | .flashProgram => true
  | .flashOpDone _ => true
  | .attGo p => portOk p
  | .attReportDone => true
  | .eventIntake => true
  | .flushNow => true
  | .logClear => true
  | .evLookup w _ => w < 5
  | .evLookupDone w => w < 5
  | .addr _ _ => true
  | .rd32 => true
  | .rd64 => true
  | .wr32 _ _ => true
  | .wr64 _ _ => true
  | .status => true
  | .alertResponse => true
  | .tapInstruction _ => true
  | .registerWrite p _ _ _ => portOk p
  | .issueRamp c u _ => coreOk c && u.wf
  | .inputFall => true
  | .inputOperatingRange _ => true
  | .flushDone _ => true

end Sys2Proof
end

