-- ==== Sys2Proof/Machine/Fabric.lean ====
section
/-! DEFINITION. Requests as the device receives them over the tray and scale-out fabric (R387-R398, R403, R404, R369): arrival and
forwarding, the receiver's checks, lines, descriptors, atomics, flags, tokens, triggers, collective messages, fence traffic,
and device-held traffic (R421, R432, R506). -/

namespace Sys2Proof.Machine

open Sys2Proof

/-! ### Arrival and forwarding (R403, R404) -/

/-- Whether a request from a node can reach this device: over the link of a tray peer, or over a scale-out port. A self-fenced device
accepts none, and those of a node held lost are discarded (R403, R411-R413). -/
def State.arrives (s : State) (n : Nat) : Bool :=
  s.alive && !s.fab.selfFenced && !(s.isLost n) &&
    if n / 8 = s.pins.strapTray then s.peerState (n % 8) == 1
    else (List.range 4).any fun p => fld (s.reg (offSfPort p 0)) 0 2 == 2

/-- A request for another tray forwarded along the rail by its route entry, once its port takes it (R385, R401, R405); without a route, or
onto its 25th hop, it is answered with FAB_UNREACHABLE (R403-R405). -/
def State.forward (s : State) (h : FabHdr) : State :=
  if h.dst / 8 = s.pins.strapTray || h.dst % 8 != s.pins.strapSlot || s.ident.grade == .tray then s
  else match s.routePort (h.dst / 8) with
    | none => s.respond h 0x7006 []
    | some p =>
      if 24 ≤ h.hops then (s.bump (offSfPort p 0x30) 1).respond h 0x7006 []
      else s.putOut (.fwd h (flitsOf 256 (24 + (if h.partialMask then 16 else 0) + 8 * h.len)))

/-- A request refused by a check of R390. An uncorrectable read at the receiver is none: it returns its code alone (R391). -/
def State.reject (s : State) (h : FabHdr) (code : Nat) : State :=
  if code = 0x4003 then s.respond h code [] else
  let s1 := if h.src / 8 = s.pins.strapTray then s.bump (offPeer (h.src % 8) 0x38) 1 else s
  (s1.raise 0x7802 (leBytes 2 h.src ++ leBytes 2 h.job ++ leBytes 2 code)).respond h code []

/-- A request received: forwarded where it is for another node; `own` is what it does here. -/
def State.receive (s : State) (op : Nat) (h : FabHdr) (own : State → State) : State :=
  if !(h.wf op) || !(s.arrives h.src) then s else if h.dst ≠ s.node then s.forward h else own s

/-- The receiver's checks 2 to 5 of R390: the job-table entry and the serving context. -/
def State.admission (s : State) (h : FabHdr) (trigger : Bool) : Except Nat (Nat × Nat) :=
  match s.objs.jobs.find? fun e => e.2.id == h.job with
  | none => .error 0x7002
  | some (e, j) =>
    if !bit j.ops (b2n trigger) then .error 0x7001
    else if !s.nodeMember e h.src then .error 0x7003
    else match s.serving e with
      | none => .error 0x7003
      | some x => if s.isLost h.src then .error 0x7003 else .ok (e, x)

/-- A job's range for a request: mapped, in HBM, with the rights it needs (R390 step 7). -/
def State.targetRange (s : State) (x a n : Nat) (rd wr : Bool) : Except Nat (List Piece) :=
  if inLocal a then .error 0x7003 else s.translate x a n rd wr

/-! ### Device-held ranges (R387, R421, R506) -/

/-- Where a device-held address lies: in HBM granted to the sender; in the control window; in another window that SERVICE opens. -/
inductive Held where
  | hbm (a : Nat)
  | core (a : Nat)
  | slice
  | control (off : Nat)
  deriving DecidableEq, Repr

/-- Whether an HBM range is granted to a tray peer: the mailbox to each, the pool to the partner's slot (R421). -/
def State.granted (s : State) (slot a n : Nat) : Bool :=
  let base := s.poolBase
  let whole := (s.surv.pair == .paired || s.surv.pair == .partnerLost) && s.surv.partner == slot
  decide (base ≤ a) && decide (a + n ≤ base + (if whole then s.poolPages else min 1 s.poolPages) * 0x20_0000)

/-- Whether SERVICE opens the windows to a tray peer (R506). -/
def State.serviceOpen (s : State) (slot : Nat) : Bool := s.sec.lc == .service && s.fab.svcPeer == slot

/-- The place of a device-held range of a line; none where the sender holds no grant (R387, R390 step 1). -/
def State.held (s : State) (h : FabHdr) (a n : Nat) : Option Held :=
  let o := a % 2 ^ 45
  let slot := h.src % 8
  if h.src / 8 ≠ s.pins.strapTray ∨ a / 2 ^ 45 ≠ s.pins.strapSlot then none
  else if o + n ≤ hbmBytes then (if s.granted slot o n then some (.hbm o) else none)
  else if !s.serviceOpen slot then none
  else match inRun o 0x1000_0000_0000 0x80_0000 1088 with
    | some (_, k) => if k + n ≤ 0x60_0000 then some (.core o) else none
    | none =>
      if (inRun o 0x1100_0000_0000 0x20_0000 512).isSome then some .slice
      else (inRun o 0x1F00_0000_0000 0x1_0000_0000 1).map fun e => .control e.2

/-- Whether an offset of the control space holds a register of 64 bits. -/
def wide (off : Nat) : Bool :=
  match winAt off with
  | some (w, o) => match winReg w o with | some r => r.width == 64 | none => false
  | none => false

/-- Eight bytes of the control space: one register of 64 bits, or two of 32 (log 28). -/
def State.readUnit (s : State) (off : Nat) : Nat :=
  if wide off then s.readCtl off 64 else s.readCtl off 32 + s.readCtl (off + 4) 32 * 2 ^ 32

/-- Bytes of a device-held range; of a slice's storage, whose layout is not stated, free values (log 28). -/
def State.heldRead (s : State) (slot : Nat) (g : Held) (n : Nat) : List Byte × State :=
  match g with
  | .hbm a => ((s.twinView slot a n).getD (s.see a n), s)
  | .core a => (cellGets s.mem a n, s)
  | .control off => (((List.range (n / 8)).flatMap fun i => leBytes 8 (s.readUnit (off + 8 * i))), s)
  | .slice => (List.range (n / 8)).foldl (fun (t : List Byte × State) _ =>
      let d := t.2.draw
      (t.1 ++ leBytes 8 d.1.toNat, d.2)) ([], s)

/-- A store to the control window at an offset: whole registers among the bytes stored (log 28). -/
def State.controlWrite (s : State) (off : Nat) (l : List (Nat × Byte)) : State :=
  (List.range 16).foldl (fun (t : State) i =>
    let at_ (k : Nat) : Option Byte := (l.find? fun e => e.1 == 8 * i + k).map (·.2)
    let half (k : Nat) : Option (List Byte) := (List.range 4).mapM fun j => at_ (k + j)
    match half 0, half 4 with
    | some lo, some hi =>
      if wide (off + 8 * i) then t.writeCtl t.mgmtPort (off + 8 * i) 64 (leNat (lo ++ hi))
      else (t.writeCtl t.mgmtPort (off + 8 * i) 32 (leNat lo)).writeCtl t.mgmtPort (off + 8 * i + 4) 32 (leNat hi)
    | some lo, none => t.writeCtl t.mgmtPort (off + 8 * i) 32 (leNat lo)
    | none, some hi => t.writeCtl t.mgmtPort (off + 8 * i + 4) 32 (leNat hi)
    | none, none => t) s

/-- Bytes of a line stored in a device-held range; a slice's storage is left as it is (log 28). `l` holds the bytes by place in the
line. -/
def State.heldWrite (s : State) (g : Held) (l : List (Nat × Byte)) : State :=
  match g with
  | .hbm a => (cutStores l).foldl (fun (t : State) e => (t.twinTouch (a + e.1)).hbmWrite (a + e.1) e.2) s
  | .core a => { s with mem := (cutStores l).foldl (fun m e => cellPuts m (a + e.1) e.2) s.mem }
  | .control off => s.controlWrite off l
  | .slice => s

/-- The core whose clocks do not run among whose memory a device-held place lies (R152). -/
def State.sleeping (s : State) (g : Held) : Option Nat :=
  match g with
  | .core a => let c := (a - 0x1000_0000_0000) / 0x80_0000
               if (s.core c).clk = .running then none else some c
  | _ => none

/-- A request held by the wake port of a sleeping core, in arrival order (R152). -/
def State.holdRequest (s : State) (c : Nat) (load : Bool) (h : FabHdr) (a : Nat) (l : List (Nat × Byte)) : State :=
  s.modCore c fun k => { k with held := k.held ++ [.request load h (a % 2 ^ 45) l] }

/-! ### Line stores (R388, R390, R394) -/

/-- The source queue of a request: its node and core (R394). -/
def srcQueue (h : FabHdr) : Nat := h.src * 2048 + h.tag % 2048

/-- A store or atomic of a source queue has ended here with a code, 0 for success (R394). -/
def State.noteStore (s : State) (h : FabHdr) (code : Nat) : State :=
  let r := lookD s.fab.recv (srcQueue h) (0, 0)
  s.modFab fun f => { f with recv := put f.recv (srcQueue h) (if code = 0 then (r.1 + 1, r.2) else (0, code)) }

/-- The bytes a LINE_STORE stores, by place in the line: those of the mask where it is partial, else `len` units from the address. -/
def storeBytes (h : FabHdr) (mask : BitVec 128) (data : List Byte) : List (Nat × Byte) :=
  let o := h.address % 128
  ((List.range 128).filter fun i => if h.partialMask then mask.getLsbD i else decide (o ≤ i) && decide (i < o + 8 * h.len)).map fun i =>
    (i, (data[i]?).getD 0)

/-- Bytes of a line stored at translated pieces of the line, each run through its home slice (R390). -/
def State.storeLine (s : State) (l : List Piece) (bytes : List (Nat × Byte)) : State :=
  match l with
  | (a, _, p) :: _ => (cutStores bytes).foldl (fun (t : State) e => t.cacheWrite p 0 (a + e.1) e.2) s
  | [] => s

/-- A LINE_STORE for this device. -/
def State.storeHere (s : State) (h : FabHdr) (bytes : List (Nat × Byte)) : State :=
  let line := h.address / 128 * 128
  if h.deviceHeld then
    match s.held h line 128 with
    | none => s.reject h 0x7003
    | some g => match s.sleeping g with
      | some c => s.holdRequest c false h line bytes
      | none => (s.heldWrite g bytes).respond h 0 []
  else match s.admission h false with
    | .error e => (s.reject h e).noteStore h e
    | .ok (_, x) => match s.targetRange x line 128 false true with
      | .error e => (s.reject h e).noteStore h e
      | .ok l => ((s.storeLine l bytes).respond h 0 []).noteStore h 0

/-- LINE_STORE (R388, R390, R394). -/
def execLineStore (hdr : FabHdr) (mask : BitVec 128) (data : List Byte) (s : State) : Res :=
  .next (s.guarded (s.receive 1 hdr fun t => t.storeHere hdr (storeBytes hdr mask data)))

/-! ### Line loads and descriptors (R390-R392) -/

/-- The range a LINE_LOAD reads: `len` units from the address, within its line; the whole line where a mask follows (R388). -/
def loadRange (h : FabHdr) : Nat × Nat :=
  if h.partialMask then (h.address / 128 * 128, 128) else (h.address, min (8 * h.len) (128 - h.address % 128))

/-- The data a LINE_LOAD returns of the range it reads: of part of a line, the bytes of the mask in ascending order (R388, log 15). -/
def loadData (h : FabHdr) (mask : BitVec 128) (l : List Byte) : List Byte :=
  if h.partialMask then (l.zipIdx.filter fun e => mask.getLsbD e.2).map (·.1) else l

/-- A LINE_LOAD for this device; a read that meets an uncorrectable half returns no data (R391). -/
def State.loadHere (s : State) (h : FabHdr) (mask : BitVec 128) (uncorrectable : Bool) : State :=
  let r := loadRange h
  if h.deviceHeld then
    match s.held h r.1 r.2 with
    | none => s.reject h 0x7003
    | some g => match s.sleeping g with
      | some c => s.holdRequest c true h r.1 ((List.range 128).filterMap fun i => if mask.getLsbD i then some (i, 0) else none)
      | none =>
        let bad := match g with | .hbm a => s.badPieces [(a, r.2, 0)] | _ => false
        if uncorrectable || bad then s.respond h 0x4003 []
        else let d := s.heldRead (h.src % 8) g r.2; d.2.respond h 0 (loadData h mask d.1)
  else match s.admission h false with
    | .error e => s.reject h e
    | .ok (_, x) => match s.targetRange x r.1 r.2 true false with
      | .error e => s.reject h e
      | .ok l =>
        let s1 := (s.readPieces 0 x l none).1
        if uncorrectable || s.badPieces l then s1.respond h 0x4003 [] else s1.respond h 0 (loadData h mask (s.seePieces l))

/-- LINE_LOAD (R388, R390, R391). -/
def execLineLoad (hdr : FabHdr) (mask : BitVec 128) (uncorrectable : Bool) (s : State) : Res :=
  .next (s.receive 2 hdr fun t => t.loadHere hdr mask uncorrectable)

/-- Every range of a list is mapped, in HBM and writable: the code of the first failure (R390 step 7). -/
def State.rangesFault (s : State) (x : Nat) : List (Nat × Nat) → Option Nat
  | [] => none
  | (a, n) :: l => match s.targetRange x a n false true with
    | .error e => some e
    | .ok _ => State.rangesFault s x l

/-- The descriptor that a DESC_FETCH asks for, with the range of its rank that it is to be written in (R392). -/
def State.fetched (s : State) (x a : Nat) : Except Nat (Nat × List (Nat × Nat)) :=
  match s.desc x (a % 2 ^ 16) true with
  | .error e => .error e
  | .ok d => .ok (a % 2 ^ 16, d.ranges (a / 2 ^ 16 % 64))

/-- The flag word that a job's FLAG names by handle and rank: read as an auxiliary tensor in the serving context (R393, log 15). -/
def State.flagWord (s : State) (x a : Nat) : Except Nat Nat :=
  match s.aux x (a % 2 ^ 16) true with
  | .error e => .error e
  | .ok d => match s.targetRange x (d.auxBase (a / 2 ^ 16 % 64)) 8 false true with
    | .error e => .error e
    | .ok _ => .ok (d.auxBase (a / 2 ^ 16 % 64))

/-- A DESC_FETCH for this device. -/
def State.fetchHere (s : State) (h : FabHdr) : State :=
  if h.deviceHeld then s.reject h 0x7003
  else match s.admission h false with
    | .error e => s.reject h e
    | .ok (_, x) =>
      let s := s.readDescs x [h.address % 2 ^ 16]
      match s.fetched x h.address with
      | .error e => s.reject h e
      | .ok (k, l) => match s.rangesFault x l with
        | some e => s.reject h e
        | none => match s.translate x (s.descAddr x k) 64 true false with
          | .error e => s.reject h e
          | .ok g => s.respond h 0 (s.seePieces g)

/-- DESC_FETCH (R390, R392). -/
def execDescFetch (hdr : FabHdr) (s : State) : Res := .next (s.receive 3 hdr fun t => t.fetchHere hdr)

/-! ### Atomics and flags (R393, R394) -/

/-- What an atomic or a flag does at translated pieces of a u64. -/
def State.atomicAt (s : State) (l : List Piece) (op : AtomicKind) (v : Nat) : State :=
  s.writePieces 0 l (leBytes 8 (atomicOp op 64 (leNat (s.seePieces l)) v))

/-- A fabric ATOMIC for this device: an 8-byte-aligned HBM target (R393). -/
def State.atomicHere (s : State) (h : FabHdr) (op : AtomicKind) (v : Nat) : State :=
  if h.deviceHeld then s.reject h 0x7003
  else match s.admission h false with
    | .error e => (s.reject h e).noteStore h e
    | .ok (_, x) =>
      if h.address % 8 ≠ 0 then (s.reject h 0x4021).noteStore h 0x4021
      else match s.targetRange x h.address 8 false true with
        | .error e => (s.reject h e).noteStore h e
        | .ok l =>
          let s := s.fetchPieces x l
          if s.badPieces l then (s.respond h 0x4003 []).noteStore h 0x4003
          else ((s.atomicAt l op v).respond h 0 []).noteStore h 0

/-- FABRIC_ATOMIC (R388, R390, R393). -/
def execFabricAtomic (hdr : FabHdr) (op : AtomicKind) (operand : W64) (s : State) : Res :=
  .next (s.guarded (s.receive 4 hdr fun t => t.atomicHere hdr op operand.toNat))

/-- The code of a store among the last `n` of a source queue that failed, 0 for none (R394, log 29). -/
def State.failedAmong (s : State) (h : FabHdr) (n : Nat) : Nat :=
  match look s.fab.recv (srcQueue h) with
  | some (after_, code) => if after_ < n then code else 0
  | none => 0

/-- A flag waits for the stores it counts; its header then holds the address of its word (R394). -/
def State.flagWaits (s : State) (h : FabHdr) : State :=
  s.modFab fun f => { f with flags := put f.flags f.nextFlag ⟨h, s.failedAmong h h.seq⟩, nextFlag := f.nextFlag + 1 }

/-- FLAG (R388, R390, R394): checked as it arrives; it waits until the earlier stores it counts are visible. -/
def execFlag (hdr : FabHdr) (s : State) : Res :=
  .next (s.receive 5 hdr fun t =>
    if hdr.deviceHeld then
      match t.held hdr hdr.address 8 with
      | some (.hbm _) => t.flagWaits hdr
      | _ => t.reject hdr 0x7003
    else match t.admission hdr false with
      | .error e => t.reject hdr e
      | .ok (_, x) =>
        let u := t.readDescs x [hdr.address % 2 ^ 16]
        match u.flagWord x hdr.address with
        | .error e => u.reject hdr e
        | .ok a => u.flagWaits { hdr with address := a })

/-- A device-held flag applied in HBM; one of the partner's mailbox takes its message, a region that cannot be reserved being rejected
(R432, R437, R440, R442, log 30). -/
def State.markerHere (s : State) (h : FabHdr) : State :=
  match s.held h h.address 8 with
  | some (.hbm a) =>
    let u := s.fetchLine 0 0 (a / 128) (a % 128) 8
    if u.seeBad a 8 then u.respond h 0x4003 []
    else
      let v := u.hbmWrite a (leBytes 8 ((leNat (u.see a 8) + 1) % 2 ^ 64))
      match v.mailHere (h.src % 8) a with
      | some t => t.respond h 0 []
      | none => v.reject h 0x7003
  | _ => s.reject h 0x7003

/-- A flag of a job applied, where its job is still served and its word mapped. -/
def State.flagHere (s : State) (h : FabHdr) : State :=
  match s.admission h false with
  | .error e => s.reject h e
  | .ok (_, x) => match s.targetRange x h.address 8 false true with
    | .error e => s.reject h e
    | .ok l =>
      let s := s.fetchPieces x l
      if s.badPieces l then s.respond h 0x4003 [] else (s.add64 l 1).respond h 0 []

/-- FLAG_APPLIED (R394): the stores that a flag counts are visible, and 1 is added to its word; if one of them failed, the flag is not
applied and its response carries that store's code. -/
def execFlagApplied (idx : Nat) (s : State) : Res :=
  .next (s.guarded (match look s.fab.flags idx with
  | none => s
  | some w =>
    let s1 := s.modFab fun f => { f with flags := del f.flags idx }
    if w.failed ≠ 0 then s1.respond w.hdr w.failed []
    else if w.hdr.deviceHeld then s1.markerHere w.hdr
    else s1.flagHere w.hdr))

/-! ### Tokens and triggers (R144, R395, R396) -/

/-- TOKEN (R144, R390, R396): delivered to the serving context; a rank beyond the constellation's is answered with FAB_NO_TARGET. -/
def execToken (hdr : FabHdr) (rank channel : Nat) (s : State) : Res :=
  .next (s.receive 6 hdr fun t =>
    if hdr.deviceHeld then t.reject hdr 0x7003
    else match t.admission hdr false with
      | .error e => t.reject hdr e
      | .ok (_, x) =>
        let r := t.deliverToken x rank (channel % 32)
        if r.2 then r.1.respond hdr 0 [] else r.1.respond hdr 0x7003 [])

/-- A trigger block's 64 bytes (R395). -/
structure TrigBlock where
  ring : Nat
  sizeLog2 : Nat
  enable : Bool
  tokenEn : Bool
  channel : Nat
  rank : Nat
  written : Nat
  consumed : Nat
  dropped : Nat
  deriving DecidableEq, Repr

/-- The fields of a trigger block (R395). -/
def parseTrig (b : List Byte) : TrigBlock :=
  { ring := leAt b 0 8, sizeLog2 := leAt b 8 1, enable := bit (leAt b 9 1) 0, tokenEn := bit (leAt b 9 1) 1,
    channel := leAt b 0xA 1 % 32, rank := leAt b 0xB 1 % 64, written := leAt b 0x10 8, consumed := leAt b 0x18 8,
    dropped := leAt b 0x20 8 }

/-- The 16-byte entry of a trigger (R395). -/
def trigEntry (proc src written : Nat) (arg : W32) : List Byte :=
  leBytes 4 arg.toNat ++ leBytes 2 proc ++ leBytes 2 src ++ leBytes 4 written ++ leBytes 4 0

/-- The trigger block that a procedure id names in a context, checked under R390: its address and its fields (R395). -/
def State.trigBlock (s : State) (x proc : Nat) : Except Nat (Nat × TrigBlock) :=
  match s.desc x proc true with
  | .error e => .error e
  | .ok d => match s.targetRange x d.base 64 true true with
    | .error e => .error e
    | .ok l =>
      if s.badPieces l then .error 0x4003
      else .ok (d.base, parseTrig (s.seePieces l))

/-- A trigger block read through the slices (R314, R316). -/
def State.readTrig (s : State) (x proc : Nat) : State :=
  match s.desc x proc true with
  | .error _ => s
  | .ok d => match s.targetRange x d.base 64 true true with
    | .ok l => s.fetchPieces x l
    | .error _ => s

/-- A u64 of a trigger block rewritten. -/
def State.setTrig (s : State) (x a v : Nat) : State :=
  match s.translate x a 8 false false with
  | .ok l => s.writePieces 0 l (leBytes 8 v)
  | .error _ => s

/-- A trigger taken by its block: failed, or an entry in the ring, and its token (R395). What R395 itself fails is no failed check of R390
and makes no record (R418). -/
def State.takeTrig (s : State) (h : FabHdr) (e x proc : Nat) (arg : W32) (base : Nat) (k : TrigBlock) : State :=
  if base % 64 ≠ 0 ∨ k.sizeLog2 < 4 ∨ 16 < k.sizeLog2 ∨ !k.enable ∨ k.ring % 16 ≠ 0 then s.respond h 0x7003 []
  else if (k.written + 2 ^ 64 - k.consumed) % 2 ^ 64 = 2 ^ k.sizeLog2 then
    (s.setTrig x (base + 0x20) (k.dropped + 1)).respond h 0x7009 []
  else match s.targetRange x (k.ring + k.written % 2 ^ k.sizeLog2 * 16) 16 false true with
    | .error c => s.reject h c
    | .ok l =>
      let s1 := s.writePieces 0 l (trigEntry proc h.src (k.written % 2 ^ 32) arg)
      let s2 := (s1.setTrig x (base + 0x10) (k.written + 1)).bump (offTfJob e 0x10) 1
      (if k.tokenEn then (s2.deliverToken x k.rank k.channel).1 else s2).respond h 0 []

/-- FABRIC_TRIGGER (R390, R395). -/
def execFabricTrigger (hdr : FabHdr) (proc : Nat) (argument : W32) (s : State) : Res :=
  .next (s.guarded (s.receive 7 hdr fun t =>
    if hdr.deviceHeld then t.reject hdr 0x7003
    else match t.admission hdr true with
      | .error e => t.reject hdr e
      | .ok (e, x) =>
        let u := (t.readDescs x [proc]).readTrig x proc
        match u.trigBlock x proc with
        | .error c => u.reject hdr c
        | .ok (base, k) => u.takeTrig hdr e x proc argument base k))

/-! ### Collective messages (R397, R398) -/

/-- Whether a message can be a contribution: its sender is one of the members it lists, its rank one of its constellation, its
source whole (R397). -/
def msgStands (m : CollMsg) (n : Nat) : Bool :=
  m.members.contains n && decide (m.rank < m.size) && (m.kind == 3 || m.values.length == m.elems)

/-- Whether a message fits an instance (R397). -/
def Coll.fits (k : Coll) (n : Nat) (m : CollMsg) : Bool := k.agrees m.members m.kind m.format m.elems m.size && msgStands m n

/-- Whether a rank here has already taken the n-th COLL of an id, so that an instance no longer here has ended (R397). -/
def State.collPast (s : State) (entry id n : Nat) : Bool :=
  match look s.objs.jobs entry with
  | some j => j.colls.any fun e => e.1 / 64 == id && decide (n < e.2)
  | none => false

/-- A member's message joined to its instance (R397, R398); one that disagrees fails the instance here and is answered so. Of an
instance that no rank of this device has joined yet the first message opens the record; with one that cannot be a contribution
no COLL here agrees. -/
def State.collHere (s : State) (h : FabHdr) (e : Nat) (m : CollMsg) : State :=
  match s.findColl e m.collId m.inst with
  | some (i, k) =>
    if k.fits h.src m then
      (if (k.part h.src m.rank).isSome then s else s.modColl i fun k => { k with parts := k.parts ++ [(h.src, m)] }).respond h 0 []
    else (s.failColl i 0x7008).respond h 0x7008 []
  | none =>
    if s.collPast e m.collId m.inst then s.respond h 0x7008 []
    else
      let size := if msgStands m h.src then m.size else 0
      let o := s.openColl ⟨e, m.collId, m.inst, m.kind, 1, m.members, m.format, m.elems, size, [(h.src, m)], [], 0⟩
      o.1.respond h 0 []

/-- FABRIC_COLL (R390, R397, R398). -/
def execFabricColl (hdr : FabHdr) (msg : CollMsg) (s : State) : Res :=
  .next (s.receive 8 hdr fun t =>
    if hdr.deviceHeld then t.reject hdr 0x7003
    else match t.admission hdr false with
      | .error e => t.reject hdr e
      | .ok (e, _) => t.collHere hdr e msg)

/-! ### Fences (R369) -/

/-- A proxy takes the value or the error state of its home; the log entry of an error names the context that caused it, on the home's
node, or where none did the proxy's owner on this one (R369, R365). -/
def State.pushProxy (s : State) (f node value code : Nat) (cause : Option Nat) : State :=
  match s.fence f with
  | none => s
  | some k =>
    if code = 0 then (s.modFence f fun k => { k with value := BitVec.ofNat 64 value, err := 0, origin := none }).wake [f]
    else
      let from_ : Nat × Nat := match cause with | some x => (x, node) | none => (k.owner, s.node)
      let s1 := (s.setFenceErr f code none).modCtx k.owner fun c => logPush c code false true f from_.1 from_.2 0 (0, 0)
      if k.err = 0 then s1.wake [f] else s1

/-- FENCE_PUSH (R369, R390): every proxy of the home's fence here, of a context of the job; a device that holds none answers so. -/
def execFencePush (hdr : FabHdr) (homeFence : Nat) (value : W64) (code : Nat) (cause : Option Nat) (s : State) : Res :=
  .next (s.receive 9 hdr fun t =>
    if hdr.deviceHeld then t.reject hdr 0x7003
    else match t.admission hdr false with
      | .error e => t.reject hdr e
      | .ok (e, _) =>
        let mine (x : Nat) : Bool := match t.ctx x with | some c => c.job == some e | none => false
        let proxies := t.objs.fences.filter fun f =>
          match f.2.home with | some (n, h, _) => n == hdr.src && h == homeFence && mine f.2.owner | none => false
        if proxies.isEmpty then t.respond hdr 0x7003 []
        else (proxies.foldl (fun (t : State) f => t.pushProxy f.1 hdr.src value.toNat (code % 2 ^ 16) cause) t).respond hdr 0 [])

/-- FENCE_FORWARD (R369, R364): a proxy's signal takes effect here, with the export's signal right; the device that sends one holds a
proxy of the fence and is pushed its changes (log 31). On a fence held for its proxies, in the error state, it is a regress (R370). -/
def execFenceForward (hdr : FabHdr) (fence : Nat) (value : W64) (s : State) : Res :=
  .next (s.receive 10 hdr fun t =>
    if hdr.deviceHeld then t.reject hdr 0x7003
    else match t.admission hdr false with
      | .error e => t.reject hdr e
      | .ok (e, _) => match t.fence fence with
        | none => t.respond hdr 0x6004 []
        | some k =>
          let mine := match t.ctx k.owner with | some c => c.job == some e | none => false
          if k.exported == some true && k.home.isNone && (mine || k.held && k.proxies.any fun q => q.1 == hdr.src) then
            ((t.modFence fence fun k => { k with proxies := addNew k.proxies (hdr.src, fence) }).signal fence value.toNat).respond hdr 0 []
          else t.respond hdr 0x6004 [])

end Sys2Proof.Machine
end

