-- ==== Sys2Proof/Machine/Query.lean ====
section
/-! DEFINITION. The capability and topology table (R375, R171, R425): its parts as they stand when they are read, and the packet that
reads them. Where R375 lists a part's fields without their places, they stand in the order listed (log 26). -/

namespace Sys2Proof.Machine

open Sys2Proof

/-- The part number of a grade, padded to 16 bytes (R1). -/
def partNumber (g : Grade) : List Byte :=
  sliceBytes (((if g = .full then "SHD-9610-F" else "SHD-9609-T").toList).map fun c => BitVec.ofNat 8 c.toNat) 0 16

/-- Core positions of a kind. -/
def State.countKind (s : State) (k : CoreKind) : Nat := ((List.range 1088).filter fun c => s.kind c == k).length

/-- SUMMARY, 64 bytes. -/
def State.partSummary (s : State) : List Byte :=
  sliceBytes
    (leBytes 1 (if s.ident.grade = .full then 0 else 1) ++ leBytes 2 0 ++ leBytes 2 s.ident.revision ++ partNumber s.ident.grade ++
      leBytes 4 s.viewVersion ++ leBytes 2 (s.countKind .enabled) ++ leBytes 2 (s.countKind .spare) ++ leBytes 2 512 ++
      leBytes 8 hbmBytes ++ leBytes 1 (maskOf 4 fun p => (s.port p).up) ++ leBytes 1 s.pins.strapSlot ++ leBytes 2 s.node ++
      leBytes 1 s.pins.strapTray ++ leBytes 1 s.pins.strapSlot ++ leBytes 1 s.pins.strapFeed) 0 64

/-- The capabilities of R171. -/
def capList : List Nat := [1, 2, 0x10, 0x11, 0x12, 0x13, 0x14, 0x15]

/-- CAPS: one entry of 8 bytes for each capability (R171, R375). -/
def State.partCaps (s : State) : List Byte :=
  capList.flatMap fun c =>
    let v := capability s.ident.grade s.loaderVersion.1 c
    leBytes 2 c ++ leBytes 1 (b2n v.isSome) ++ leBytes 1 0 ++ leBytes 4 (v.getD 0)

/-- The state of a core position as CORES codes it (R375). -/
def kindCode : CoreKind → Nat
  | .fusedOff => 0
  | .enabled => 1
  | .spare => 2
  | .retired => 3

/-- CORES: state and partition of each core (R375). -/
def State.partCores (s : State) : List Byte :=
  (List.range 1088).flatMap fun c =>
    leBytes 1 (kindCode (s.kind c)) ++
      leBytes 1 (match s.objs.parts.find? fun e => e.2.cores.contains c with | some e => e.1 | none => 0xFF)

/-- MEMORY: per stack, the slot states of HC_PC_STATE and the bytes exposed (R375). -/
def State.partMemory (s : State) : List Byte :=
  (List.range 32).flatMap fun u => leBytes 8 (s.viewSlots u (s.reg (offHc u 0x10))) ++ leBytes 8 (hbmBytes / 32)

/-- One entry of LINKS: state, width in lanes, peer slot or node. -/
def linkEntry (state width peer : Nat) : List Byte := leBytes 1 state ++ leBytes 1 width ++ leBytes 2 peer

/-- The halves of a mask, as a number. -/
def halfCount (m : Nat) : Nat := b2n (bit m 0) + b2n (bit m 1)

/-- LINKS: the Burob ports, the tray slots, the scale-out ports, with the state codes of their status registers (R375). -/
def State.partLinks (s : State) : List Byte :=
  ((List.range 4).flatMap fun p => let k := s.port p; linkEntry k.state (if k.up then 16 * halfCount k.halves else 0) 0) ++
  ((List.range 8).flatMap fun k =>
    linkEntry (s.peerState k) (if s.peerState k = 3 then 0 else 8 * halfCount (fld (s.reg (offPeer k 0)) 2 2)) k) ++
  (List.range 4).flatMap fun p =>
    let v := s.reg (offSfPort p 0)
    linkEntry (s.sfShown p) (if s.sfState p = 2 then (if bit v 2 then 4 else 8) else 0) (fld v 3 10)

/-- PARTITIONS: one entry of 32 bytes for each partition id; of another port's, that it is held and by which port (R375). -/
def State.partParts (s : State) (port : Nat) : List Byte :=
  (List.range 128).flatMap fun i =>
    match look s.objs.parts i with
    | none => List.replicate 32 0
    | some k =>
      sliceBytes (leBytes 1 1 ++ leBytes 1 k.port ++
        if k.port = port then
          leBytes 1 (b2n k.debugAllowed) ++ leBytes 1 k.share ++ leBytes 2 k.cores.length ++ leBytes 2 k.slices.length ++ leBytes 4 0 ++
            leBytes 8 (k.ranges.map (·.2)).sum
        else []) 0 32

/-- One entry of PAIRING for a job-table entry whose protection is on (R425). -/
def State.pairEntry (s : State) (e : Nat) (p : Prot) : List Byte :=
  let j := look s.objs.jobs e
  let step := match j with | some k => k.step | none => 0
  let settled := p.settledStep.getD 0
  let gen (x : Option Seal) : Nat := match x with | some k => k.generation | none => 0
  leBytes 2 p.job ++ leBytes 1 (survCode p.state) ++
    leBytes 1 (match j with | some k => b2n (s.sealBits e k).2.1 | none => 0) ++ leBytes 4 (gen p.settled) ++ leBytes 4 (gen p.openSeal) ++
    leBytes 4 (min (step - settled) (2 ^ 32 - 1)) ++ leBytes 8 settled ++ leBytes 8 0

/-- PAIRING: a header of 32 bytes and an entry for each protected job (R425). -/
def State.partPairing (s : State) : List Byte :=
  let k := s.surv
  leBytes 1 (pairCode k.pair) ++ leBytes 1 (b2n k.weak) ++ leBytes 1 k.partner ++ leBytes 1 s.pins.strapFeed ++ leBytes 1 k.partnerFeed ++
    leBytes 1 (min 3 k.riskLevel) ++ leBytes 2 0 ++ leBytes 4 s.poolPages ++ leBytes 4 k.poolFree ++
    leBytes 4 (k.twins.filter fun t => t.promoted).length ++ List.replicate 12 0 ++
    (k.prots.filter fun e => e.2.state != .off).flatMap fun e => s.pairEntry e.1 e.2

/-- JOBS: an entry of 16 bytes for each job with a context of the port (R375). -/
def State.partJobs (s : State) (port : Nat) : List Byte :=
  (s.objs.jobs.filter fun e => e.2.members.any fun x => s.onPort port x).flatMap fun e =>
    leBytes 2 e.2.id ++ leBytes 2 e.2.members.length ++ leBytes 4 0 ++ leBytes 8 e.2.step

/-- A part of the table; R375 has eight. -/
def State.tablePart (s : State) (port part : Nat) : List Byte :=
  match part with
  | 0 => s.partSummary
  | 1 => s.partCaps
  | 2 => s.partCores
  | 3 => s.partMemory
  | 4 => s.partLinks
  | 5 => s.partParts port
  | 6 => s.partPairing
  | _ => s.partJobs port

/-- QUERY (R375, R351): one part in one RESULT entry, its size in the result field. -/
def execQuery (port queue : Nat) (s : State) : Res :=
  .next (s.runPacket port queue 0x18 fun _ p x =>
    if !s.ringOk port p then refuse 0x8006
    else
      let d := s.tablePart port p.arg0
      .ok (s.completeWith port queue x p 3 p.fenceId (leBytes 4 d.length) d))

end Sys2Proof.Machine
end

