-- ==== Sys2Proof/Machine/Streams.lean ====
section
/-! DEFINITION. Stream commands: broadcast, waits, signals, tokens, wait cycles and stalls, END (05, 06). -/

namespace Sys2Proof.Machine

open Sys2Proof

/-- NOP (R175): the wait and signal entries of a NOP at the head of an engine; the signal follows a wait that has been taken. -/
def execNop (core : Nat) (eng : Engine) (s : State) : Res :=
  .next (match s.headOf core eng with
  | some (.wait ch n true) =>
    let t := s.takeWait core eng ch n
    match t.headOf core eng with
    | some (.signal ch' true) => t.takeSignal core eng ch'
    | _ => t
  | some (.signal ch true) => s.takeSignal core eng ch
  | _ => s)

/-- SEQ_BROADCAST (R136, R137, R180, R182): the next entry of a stream goes to every member's queue; without credit the stream
is held. An entry whose bytes of the native image read uncorrectable faults the context (R307). -/
def execSeqBroadcast (sq : Nat) (eng : Engine) (imageBad : Bool) (s : State) : Res :=
  .next (match look s.seqs sq with
  | none => s
  | some q =>
    match q.next eng with
    | none => s
    | some x =>
      if s.live q.ctx && !q.preempting && q.mayBroadcast eng x then
        if imageBad then s.faultCtx q.ctx 0x4012 0
        else if s.credits q eng then
          let q1 := { q with pass := q.pass.map fun (p : PassInst) => p.broadcast eng (q.settled eng) x,
                             creditHeld := drop1 q.creditHeld eng }
          let s1 := s.setSeq sq (q1.setFetch eng (q.advance eng))
          (q.members.foldl (fun t c => t.modCore c fun k => k.deliver eng x) s1).bump (offSeq sq 0x20) 1
        else (s.setSeq sq { q with creditHeld := addNew q.creditHeld eng }).bump (offSeq sq 0x28) 1
      else s)

/-- WAIT_ENTRY (R146): the wait at the head of an engine. -/
def execWaitEntry (core : Nat) (eng : Engine) (s : State) : Res :=
  .next (match s.headOf core eng with
  | some (.wait ch n false) => s.takeWait core eng ch n
  | _ => s)

/-- SIGNAL_ENTRY (R141): the signal at the head of an engine. -/
def execSignalEntry (core : Nat) (eng : Engine) (s : State) : Res :=
  .next (match s.headOf core eng with
  | some (.signal ch false) => s.takeSignal core eng ch
  | _ => s)

/-- TOKEN_VISIBLE (R141, R142): the oldest token in flight of an engine, once nothing it rides behind is outstanding. -/
def execTokenVisible (core : Nat) (eng : Engine) (s : State) : Res :=
  let k := s.core core
  .next (match s.coreCtx core, k.inflight.find? fun f => f.eng == eng with
  | some _, some f =>
    if f.behind.isEmpty then
      (s.setCore core { k with inflight := k.inflight.erase f }).tokenArrives core f.ch
    else s
  | _, _ => s)

/-- The engine that would free a blocked engine: its channel's producer, where no token of the channel is in flight and it is
not REMOTE (R148). -/
def Core.waitsFor (k : Core) (e : Engine) : Option Engine :=
  match k.blockedOn e with
  | some (ch, _) =>
    if k.inflight.any fun f => f.ch == ch then none
    else match (k.chan ch).bind.producer with
      | 1 => some .te
      | 2 => some .ge
      | 3 => some .me
      | _ => none
  | none => none

/-- A wait cycle of 1 to 3 engines (R148). -/
def Core.waitCycle (k : Core) : Bool :=
  [Engine.te, .ge, .me].any fun e =>
    let a := k.waitsFor e
    let b := a.bind k.waitsFor
    let d := b.bind k.waitsFor
    a == some e || b == some e || d == some e

/-- WAIT_CYCLE (R148): a cycle that has held for 64 core cycles, which the command says, faults the core. -/
def execWaitCycle (core : Nat) (s : State) : Res :=
  .next (if (s.coreCtx core).isSome && (s.core core).waitCycle then (s.setBit (offZs core 0x08) 20).faultCore core 0x6010 0 else s)

/-- The stall limit exponent of a context: the least of its bound constellations' (R149, R162). -/
def State.stallLimit (s : State) (x : Nat) : Option Nat :=
  (s.seqs.filter fun q => q.2.ctx == x).foldl (fun m q => some (match m with | some v => min v q.2.stallLog2 | none => q.2.stallLog2)) none

/-- WAIT_STALL (R149): a stall counter at its limit faults the context; a barrier at its limit in the same tick is what is reported
(R229). -/
def execWaitStall (ctx : Nat) (s : State) : Res :=
  .next (match s.ctx ctx, s.stallLimit ctx with
  | some c, some n =>
    if s.live ctx && decide (2 ^ n ≤ c.stall) then
      match ((s.seqs.filter fun q => q.2.ctx == ctx).flatMap fun q => q.2.members).findSome? fun m => (s.overdue m).map fun b => (m, b) with
      | some (m, b) => s.stallBarrier m b
      | none => s.faultCtx ctx 0x6011 0
    else s
  | _, _ => s)

/-- END (R180, R190): an engine takes the END of its stream; with an MX in the port at the tensor stream's END the context
faults with MX_UNACCEPTED. -/
def execEndStream (core : Nat) (eng : Engine) (s : State) : Res :=
  .next (match s.headOf core eng with
  | some (.body .fin _) =>
    let s1 := (s.take core eng).modCore core fun k => { k with ended := addNew k.ended eng }
    if eng == .te && (match look s.ge core with | some g => !g.port.isEmpty | none => false) then s1.faultCore core 0x9040 0
    else s1.endKernelOf core
  | _ => s)

end Sys2Proof.Machine
end

