-- ==== Sys2Proof/Machine/Dispatch.lean ====
section
/-! DEFINITION. What each command does to everything but the queue: one arm per constructor. -/

namespace Sys2Proof.Machine

open Sys2Proof

def exec (i : Instr) (s : State) : Host.Outcome State Fault Refusal :=
  match i with
  | .nop core eng => Sys2Proof.Machine.execNop core eng s
  | .seqBroadcast sq eng imageBad => Sys2Proof.Machine.execSeqBroadcast sq eng imageBad s
  | .waitEntry core eng => Sys2Proof.Machine.execWaitEntry core eng s
  | .signalEntry core eng => Sys2Proof.Machine.execSignalEntry core eng s
  | .tokenVisible core eng => Sys2Proof.Machine.execTokenVisible core eng s
  | .waitCycle core => Sys2Proof.Machine.execWaitCycle core s
  | .waitStall ctx => Sys2Proof.Machine.execWaitStall ctx s
  | .passOpen sq => Sys2Proof.Machine.execPassOpen sq s
  | .passSettle core eng => Sys2Proof.Machine.execPassSettle core eng s
  | .passEndCredit core => Sys2Proof.Machine.execPassEndCredit core s
  | .settleToken sq => Sys2Proof.Machine.execSettleToken sq s
  | .settleDoneToken sq => Sys2Proof.Machine.execSettleDoneToken sq s
  | .endStream core eng => Sys2Proof.Machine.execEndStream core eng s
  | .matmul core err => Sys2Proof.Machine.execMatmul core err s
  | .drain core => Sys2Proof.Machine.execDrain core s
  | .tileSwap core unit => Sys2Proof.Machine.execTileSwap core unit s
  | .tileDrainCommit core unit => Sys2Proof.Machine.execTileDrainCommit core unit s
  | .txAccept core err => Sys2Proof.Machine.execTxAccept core err s
  | .launch core => Sys2Proof.Machine.execLaunch core s
  | .blockStart core => Sys2Proof.Machine.execBlockStart core s
  | .launchComplete core slot => Sys2Proof.Machine.execLaunchComplete core slot s
  | .integerAndCompare core frame parity => Sys2Proof.Machine.execIntegerAndCompare core frame parity s
  | .fpArithmetic core frame op parity => Sys2Proof.Machine.execFpArithmetic core frame op parity s
  | .localStoreLoad core frame width err => Sys2Proof.Machine.execLocalStoreLoad core frame width err s
  | .localStoreStore core frame width err => Sys2Proof.Machine.execLocalStoreStore core frame width err s
  | .localStoreAtomic core frame op err => Sys2Proof.Machine.execLocalStoreAtomic core frame op err s
  | .narrowStore core frame err => Sys2Proof.Machine.execNarrowStore core frame err s
  | .laneExchange core frame parity => Sys2Proof.Machine.execLaneExchange core frame parity s
  | .rndw core frame parity => Sys2Proof.Machine.execRndw core frame parity s
  | .rndk core frame parity => Sys2Proof.Machine.execRndk core frame parity s
  | .bra core frame parity => Sys2Proof.Machine.execBra core frame parity s
  | .brx core frame parity => Sys2Proof.Machine.execBrx core frame parity s
  | .exit core frame parity => Sys2Proof.Machine.execExit core frame parity s
  | .bar core frame parity => Sys2Proof.Machine.execBar core frame parity s
  | .barrierStall core block => Sys2Proof.Machine.execBarrierStall core block s
  | .mrBegin core frame parity => Sys2Proof.Machine.execMrBegin core frame parity s
  | .mrEnd core frame parity => Sys2Proof.Machine.execMrEnd core frame parity s
  | .mx core frame parity => Sys2Proof.Machine.execMx core frame parity s
  | .copy core err => Sys2Proof.Machine.execCopy core err s
  | .copyRemote core err => Sys2Proof.Machine.execCopyRemote core err s
  | .hintPrefetch core => Sys2Proof.Machine.execHintPrefetch core s
  | .hintPin core => Sys2Proof.Machine.execHintPin core s
  | .hintUnpin core => Sys2Proof.Machine.execHintUnpin core s
  | .hintDead core => Sys2Proof.Machine.execHintDead core s
  | .reduceScatter core err => Sys2Proof.Machine.execReduceScatter core err s
  | .allGather core err => Sys2Proof.Machine.execAllGather core err s
  | .allReduce core err => Sys2Proof.Machine.execAllReduce core err s
  | .finitenessVote core => Sys2Proof.Machine.execFinitenessVote core s
  | .collComplete inst => Sys2Proof.Machine.execCollComplete inst s
  | .update core => Sys2Proof.Machine.execUpdate core s
  | .voteOutcome inst => Sys2Proof.Machine.execVoteOutcome inst s
  | .updateBlockCommit upd unit err => Sys2Proof.Machine.execUpdateBlockCommit upd unit err s
  | .rule3Combine upd parity => Sys2Proof.Machine.execRule3Combine upd parity s
  | .updateComplete upd => Sys2Proof.Machine.execUpdateComplete upd s
  | .fence core => Sys2Proof.Machine.execFence core s
  | .trigger core => Sys2Proof.Machine.execTrigger core s
  | .atomic core => Sys2Proof.Machine.execAtomic core s
  | .hostPut core err => Sys2Proof.Machine.execHostPut core err s
  | .transferComplete core slot => Sys2Proof.Machine.execTransferComplete core slot s
  | .lineFill miss lo hi slice => Sys2Proof.Machine.execLineFill miss lo hi slice s
  | .cowPageWaitExpiry job page => Sys2Proof.Machine.execCowPageWaitExpiry job page s
  | .scrubPass unit findings => Sys2Proof.Machine.execScrubPass unit findings s
  | .rowRemapDone unit slot row => Sys2Proof.Machine.execRowRemapDone unit slot row s
  | .evacGo unit slot => Sys2Proof.Machine.execEvacGo unit slot s
  | .evacCopyDone unit slot => Sys2Proof.Machine.execEvacCopyDone unit slot s
  | .pcRetrainDone unit slot ok => Sys2Proof.Machine.execPcRetrainDone unit slot ok s
  | .evacCopyBackDone unit slot => Sys2Proof.Machine.execEvacCopyBackDone unit slot s
  | .wipeComplete wipe => Sys2Proof.Machine.execWipeComplete wipe s
  | .packetArrival port bytes => Sys2Proof.Machine.execPacketArrival port bytes s
  | .packetHead port queue => Sys2Proof.Machine.execPacketHead port queue s
  | .pktNop port queue => Sys2Proof.Machine.execPktNop port queue s
  | .write port queue => Sys2Proof.Machine.execWrite port queue s
  | .read port queue => Sys2Proof.Machine.execRead port queue s
  | .load port queue => Sys2Proof.Machine.execLoad port queue s
  | .loadStart => Sys2Proof.Machine.execLoadStart s
  | .loadDone => Sys2Proof.Machine.execLoadDone s
  | .unload port queue => Sys2Proof.Machine.execUnload port queue s
  | .pktLaunch port queue => Sys2Proof.Machine.execPktLaunch port queue s
  | .query port queue => Sys2Proof.Machine.execQuery port queue s
  | .partCreate port queue => Sys2Proof.Machine.execPartCreate port queue s
  | .partDestroy port queue => Sys2Proof.Machine.execPartDestroy port queue s
  | .contextCreate port queue => Sys2Proof.Machine.execContextCreate port queue s
  | .contextKill port queue => Sys2Proof.Machine.execContextKill port queue s
  | .teardownAbortDone ctx => Sys2Proof.Machine.execTeardownAbortDone ctx s
  | .contextDestroy port queue => Sys2Proof.Machine.execContextDestroy port queue s
  | .contextQuery port queue => Sys2Proof.Machine.execContextQuery port queue s
  | .contextPreempt port queue => Sys2Proof.Machine.execContextPreempt port queue s
  | .teSaveDone core ok cycles => Sys2Proof.Machine.execTeSaveDone core ok cycles s
  | .geSaveDone core => Sys2Proof.Machine.execGeSaveDone core s
  | .queueSaveDone core => Sys2Proof.Machine.execQueueSaveDone core s
  | .localStoreSave core err => Sys2Proof.Machine.execLocalStoreSave core err s
  | .contextResume port queue => Sys2Proof.Machine.execContextResume port queue s
  | .resumeDone ctx records => Sys2Proof.Machine.execResumeDone ctx records s
  | .jobCreate port queue => Sys2Proof.Machine.execJobCreate port queue s
  | .jobJoin port queue => Sys2Proof.Machine.execJobJoin port queue s
  | .jobDestroy port queue => Sys2Proof.Machine.execJobDestroy port queue s
  | .queueCreate port queue => Sys2Proof.Machine.execQueueCreate port queue s
  | .queueDestroy port queue => Sys2Proof.Machine.execQueueDestroy port queue s
  | .memAlloc port queue => Sys2Proof.Machine.execMemAlloc port queue s
  | .memFree port queue => Sys2Proof.Machine.execMemFree port queue s
  | .memMap port queue => Sys2Proof.Machine.execMemMap port queue s
  | .memUnmap port queue => Sys2Proof.Machine.execMemUnmap port queue s
  | .memUnmapComplete unmap => Sys2Proof.Machine.execMemUnmapComplete unmap s
  | .memShare port queue => Sys2Proof.Machine.execMemShare port queue s
  | .descTableSet port queue => Sys2Proof.Machine.execDescTableSet port queue s
  | .fenceCreate port queue => Sys2Proof.Machine.execFenceCreate port queue s
  | .fenceDestroy port queue => Sys2Proof.Machine.execFenceDestroy port queue s
  | .fenceShare port queue => Sys2Proof.Machine.execFenceShare port queue s
  | .fenceImport port queue => Sys2Proof.Machine.execFenceImport port queue s
  | .fenceReset port queue => Sys2Proof.Machine.execFenceReset port queue s
  | .eventCreate port queue => Sys2Proof.Machine.execEventCreate port queue s
  | .eventDestroy port queue => Sys2Proof.Machine.execEventDestroy port queue s
  | .burobFlit port corrected crcOk flit => Sys2Proof.Machine.execBurobFlit port corrected crcOk flit s
  | .keepaliveSend link => Sys2Proof.Machine.execKeepaliveSend link s
  | .burobLinkDown port => Sys2Proof.Machine.execBurobLinkDown port s
  | .burobTrained port nonce halves => Sys2Proof.Machine.execBurobTrained port nonce halves s
  | .burobTrainRetry port => Sys2Proof.Machine.execBurobTrainRetry port s
  | .laneErrorWindow link half lane count => Sys2Proof.Machine.execLaneErrorWindow link half lane count s
  | .halfRetrainDone link half ok => Sys2Proof.Machine.execHalfRetrainDone link half ok s
  | .halfRetry link half => Sys2Proof.Machine.execHalfRetry link half s
  | .graceExpiry port => Sys2Proof.Machine.execGraceExpiry port s
  | .cqHeadWrite port cq value => Sys2Proof.Machine.execCqHeadWrite port cq value s
  | .cqWaitTimeout port cq => Sys2Proof.Machine.execCqWaitTimeout port cq s
  | .trayFlit link corrected crcOk flit => Sys2Proof.Machine.execTrayFlit link corrected crcOk flit s
  | .trayLinkTrained slot farTray farSlot halves => Sys2Proof.Machine.execTrayLinkTrained slot farTray farSlot halves s
  | .trayLinkDown slot => Sys2Proof.Machine.execTrayLinkDown slot s
  | .scaleoutPortTrained port node width4 => Sys2Proof.Machine.execScaleoutPortTrained port node width4 s
  | .scaleoutPortDown port => Sys2Proof.Machine.execScaleoutPortDown port s
  | .scaleoutWidthChangeDone port width4 => Sys2Proof.Machine.execScaleoutWidthChangeDone port width4 s
  | .lineStore hdr mask data => Sys2Proof.Machine.execLineStore hdr mask data s
  | .lineLoad hdr mask uncorrectable => Sys2Proof.Machine.execLineLoad hdr mask uncorrectable s
  | .descFetch hdr => Sys2Proof.Machine.execDescFetch hdr s
  | .fabricAtomic hdr op operand => Sys2Proof.Machine.execFabricAtomic hdr op operand s
  | .flag hdr => Sys2Proof.Machine.execFlag hdr s
  | .flagApplied idx => Sys2Proof.Machine.execFlagApplied idx s
  | .token hdr rank channel => Sys2Proof.Machine.execToken hdr rank channel s
  | .fabricTrigger hdr proc argument => Sys2Proof.Machine.execFabricTrigger hdr proc argument s
  | .fabricColl hdr msg => Sys2Proof.Machine.execFabricColl hdr msg s
  | .fencePush hdr homeFence value code cause => Sys2Proof.Machine.execFencePush hdr homeFence value code cause s
  | .fenceForward hdr fence value => Sys2Proof.Machine.execFenceForward hdr fence value s
  | .lossNotice lost origin via => Sys2Proof.Machine.execLossNotice lost origin via s
  | .lossNoticeHoldEnd lost => Sys2Proof.Machine.execLossNoticeHoldEnd lost s
  | .fabricResponse req resp => Sys2Proof.Machine.execFabricResponse req resp s
  | .fabricRequestTimeout req => Sys2Proof.Machine.execFabricRequestTimeout req s
  | .readmit port slot => Sys2Proof.Machine.execReadmit port slot s
  | .pairGo => Sys2Proof.Machine.execPairGo s
  | .pairRequestReceived src req => Sys2Proof.Machine.execPairRequestReceived src req s
  | .pairTimeout => Sys2Proof.Machine.execPairTimeout s
  | .unpair => Sys2Proof.Machine.execUnpair s
  | .swapReq => Sys2Proof.Machine.execSwapReq s
  | .protectEnable entry => Sys2Proof.Machine.execProtectEnable entry s
  | .protectDisable entry => Sys2Proof.Machine.execProtectDisable entry s
  | .mirrorStoreAck entry line => Sys2Proof.Machine.execMirrorStoreAck entry line s
  | .stepCloseReady entry => Sys2Proof.Machine.execStepCloseReady entry s
  | .markerAck entry => Sys2Proof.Machine.execMarkerAck entry s
  | .sealWritebackDone entry => Sys2Proof.Machine.execSealWritebackDone entry s
  | .sealStreamAck entry => Sys2Proof.Machine.execSealStreamAck entry s
  | .restoreGo entry record => Sys2Proof.Machine.execRestoreGo entry record s
  | .restoreComplete entry sourceLost digestFailed digests pages => Sys2Proof.Machine.execRestoreComplete entry sourceLost digestFailed digests pages s
  | .spareGo core => Sys2Proof.Machine.execSpareGo core s
  | .replacementTilesEnded => Sys2Proof.Machine.execReplacementTilesEnded s
  | .spareIn => Sys2Proof.Machine.execSpareIn s
  | .operatingMinute obs => Sys2Proof.Machine.execOperatingMinute obs s
  | .slowLoop obs => Sys2Proof.Machine.execSlowLoop obs s
  | .fastLoop die power => Sys2Proof.Machine.execFastLoop die power s
  | .clockGate core => Sys2Proof.Machine.execClockGate core s
  | .powerGate core => Sys2Proof.Machine.execPowerGate core s
  | .coreWakeRequest core => Sys2Proof.Machine.execCoreWakeRequest core s
  | .rampAdmitted core => Sys2Proof.Machine.execRampAdmitted core s
  | .coreWakeDone core checkOk => Sys2Proof.Machine.execCoreWakeDone core checkOk s
  | .dieGate die => Sys2Proof.Machine.execDieGate die s
  | .dieWakeRequest die => Sys2Proof.Machine.execDieWakeRequest die s
  | .dieWakeDone die => Sys2Proof.Machine.execDieWakeDone die s
  | .inputRise => Sys2Proof.Machine.execInputRise s
  | .duskReady clean => Sys2Proof.Machine.execDuskReady clean s
  | .pwrEnAssert => Sys2Proof.Machine.execPwrEnAssert s
  | .powerGood => Sys2Proof.Machine.execPowerGood s
  | .pwrEnDeassert => Sys2Proof.Machine.execPwrEnDeassert s
  | .inputFault cause milliVolts => Sys2Proof.Machine.execInputFault cause milliVolts s
  | .resetNAssert => Sys2Proof.Machine.execResetNAssert s
  | .resetNRelease => Sys2Proof.Machine.execResetNRelease s
  | .bootDone flash => Sys2Proof.Machine.execBootDone flash s
  | .wakeNLow => Sys2Proof.Machine.execWakeNLow s
  | .wakeNRelease => Sys2Proof.Machine.execWakeNRelease s
  | .thermNLow => Sys2Proof.Machine.execThermNLow s
  | .thermNRelease => Sys2Proof.Machine.execThermNRelease s
  | .pllLossOfLock die control => Sys2Proof.Machine.execPllLossOfLock die control s
  | .pllRelockDone die control ok => Sys2Proof.Machine.execPllRelockDone die control ok s
  | .duskInputLoss => Sys2Proof.Machine.execDuskInputLoss s
  | .duskInputRestored => Sys2Proof.Machine.execDuskInputRestored s
  | .hubGo port hub => Sys2Proof.Machine.execHubGo port hub s
  | .hubFailureDetected hub => Sys2Proof.Machine.execHubFailureDetected hub s
  | .hubSelfTestDone hub pass => Sys2Proof.Machine.execHubSelfTestDone hub pass s
  | .lcGo => Sys2Proof.Machine.execLcGo s
  | .lifeCycleChangeDone => Sys2Proof.Machine.execLifeCycleChangeDone s
  | .updGo => Sys2Proof.Machine.execUpdGo s
  | .updWriteDone ok => Sys2Proof.Machine.execUpdWriteDone ok s
  | .unitActivation => Sys2Proof.Machine.execUnitActivation s
  | .updCommit raiseMin => Sys2Proof.Machine.execUpdCommit raiseMin s
  | .updAbort => Sys2Proof.Machine.execUpdAbort s
  | .flashErase => Sys2Proof.Machine.execFlashErase s
  | .flashProgram => Sys2Proof.Machine.execFlashProgram s
  | .flashOpDone ok => Sys2Proof.Machine.execFlashOpDone ok s
  | .attGo port => Sys2Proof.Machine.execAttGo port s
  | .attReportDone => Sys2Proof.Machine.execAttReportDone s
  | .eventIntake => Sys2Proof.Machine.execEventIntake s
  | .flushNow => Sys2Proof.Machine.execFlushNow s
  | .logClear => Sys2Proof.Machine.execLogClear s
  | .evLookup window seq => Sys2Proof.Machine.execEvLookup window seq s
  | .evLookupDone window => Sys2Proof.Machine.execEvLookupDone window s
  | .addr offset pecOk => Sys2Proof.Machine.execAddr offset pecOk s
  | .rd32 => Sys2Proof.Machine.execRd32 s
  | .rd64 => Sys2Proof.Machine.execRd64 s
  | .wr32 value pecOk => Sys2Proof.Machine.execWr32 value pecOk s
  | .wr64 value pecOk => Sys2Proof.Machine.execWr64 value pecOk s
  | .status => Sys2Proof.Machine.execStatus s
  | .alertResponse => Sys2Proof.Machine.execAlertResponse s
  | .tapInstruction op => Sys2Proof.Machine.execTapInstruction op s
  | .registerWrite port offset width value => Sys2Proof.Machine.execRegisterWrite port offset width value s
  | .issueRamp core unit workReady => Sys2Proof.Machine.execIssueRamp core unit workReady s
  | .inputFall => Sys2Proof.Machine.execInputFall s
  | .inputOperatingRange milliVolts => Sys2Proof.Machine.execInputOperatingRange milliVolts s
  | .flushDone ok => Sys2Proof.Machine.execFlushDone ok s

end Sys2Proof.Machine
end

