-- ==== Sys2Proof/Machine/Tick.lean ====
section
/-! DEFINITION. What passes with one dusk tick while no command waits (log 10): the tick counter (R561), the stall counters of contexts
(R149), the barrier stall counters of blocks (R222) and the time of release holds (R433). -/

namespace Sys2Proof.Machine

open Sys2Proof

/-- Whether a core's tensor head waits at a TX_ACCEPT for entries of the port (R189). -/
def State.waitsPort (s : State) (c : Nat) : Bool :=
  match (s.core c).head .te with
  | some (.body (.txAccept n) _) => decide ((s.groupEngine c).port.length < n)
  | _ => false

/-- Whether a wait of a context counts this tick: a queue head blocked on a wait, a tensor head at a TX_ACCEPT, an UPDATE that waits for
its vote or is held behind its outcome (R149, R189, R260, R433). -/
def State.ctxBlocked (s : State) (x : Nat) : Bool :=
  ((s.seqs.filter fun e => e.2.ctx == x).any fun e => e.2.members.any fun c =>
    [Engine.te, .ge, .me].any (fun g => ((s.core c).blockedOn g).isSome) || s.waitsPort c) ||
  s.uu.updates.any fun e => e.2.ctx == x && (e.2.waitsVote || e.2.held)

/-- A context's stall counter at a tick (R149). -/
def Ctx.tick (c : Ctx) (blocked : Bool) : Ctx :=
  if c.progress then { c with stall := 0, progress := false } else if blocked then { c with stall := c.stall + 1 } else c

/-- A block's barrier stall counter at a tick: it runs from the first arrival of a phase (R222). -/
def Block.tick (b : Block) : Block := if b.arrived = 0 then b else { b with ticks := b.ticks + 1 }

/-- The barrier stall counters of a core's resident blocks at a tick. -/
def Ge.tick (g : Ge) : Ge := { g with blocks := g.blocks.map fun e => (e.1, e.2.tick) }

/-- The job-table entries whose UPDATE releases are held for a marker (R433). -/
def State.heldJobs (s : State) : List Nat :=
  (s.uu.updates.filterMap fun e => if e.2.held then (s.ctx e.2.ctx).bind fun c => c.job else none).foldl addNew []

/-- TF_SURV_HOLD_NS advances by the 40 nanoseconds of a tick where releases are held (R433, R458, R466). -/
def State.holdTime (s : State) : State := s.heldJobs.foldl (fun (t : State) e => t.bump (offSurv e 0x28) 40) s

/-- One dusk tick; without the dusk domain nothing counts (R561). -/
def tick (s : State) : State :=
  if s.pins.duskReady then
    let ctxs := s.objs.ctxs.map fun (e : Nat × Ctx) => (e.1, if e.2.state == .live then e.2.tick (s.ctxBlocked e.1) else e.2)
    let ge := s.ge.map fun (e : Nat × Ge) => (e.1, e.2.tick)
    { s with ticks := s.ticks + 1, ge := ge, objs := { s.objs with ctxs := ctxs } }.holdTime
  else s

end Sys2Proof.Machine
end

