-- ==== Sys2Proof/Safety.lean ====
section
/-! DEFINITION. What claims say about runs: completion of a command, stops, reachability, and the properties of a state that every run
keeps. -/

namespace Sys2Proof.Machine

open Sys2Proof

/-- A command completes with a property of the state it leaves. -/
def Completes (c : Instr) (s : State) (p : State → Prop) : Prop := ∃ t, exec c s = .next t ∧ p t

/-- A command stops: it faults or is refused. -/
def Stops (c : Instr) (s : State) : Prop := ∀ t, exec c s ≠ .next t

/-- The states that steps lead to. -/
inductive Reaches (s : State) : State → Prop
  | refl : Reaches s s
  | step {t u : State} : Reaches s t → step t = .next u → Reaches s u

/-- A state without a word of memory out of its canonical form. -/
def MemCanonical (s : State) : Prop := Memory.wf s.mem = true

/-- An entry at the head of a core's move engine may be taken into a free transfer slot of a live context (R134, R289). -/
def MoveReady (s : State) (c : Nat) (i : Insn) (x slot : Nat) : Prop :=
  (∃ k, s.headOf c .me = some (.body i k)) ∧ s.coreCtx c = some x ∧ s.freeSlot c = some slot

/-- A packet of an opcode runs at a queue of a port, passes the checks of steps 5 to 8 of R564, and its context is live and of the
port. -/
def Admitted (s : State) (port q op : Nat) (k : SubQueue) (p : Packet) (c : Ctx) : Prop :=
  s.runningPacket port q = some (k, p) ∧ p.opcode = op ∧ s.packetFault port q (packetCtx k p) p = none ∧
    s.ctx (packetCtx k p) = some c ∧ s.ctxPort (packetCtx k p) = some port ∧ c.state = .live

/-- Memory and the memory-side cache agree: lines by rising number and whole, dirty bytes among the valid ones, and every valid byte that is not
dirty equal to the one in HBM (R295, R297). -/
structure CacheSound (s : State) : Prop where
  canonical : MemCanonical s
  rising : s.cache.lines.Pairwise fun a b => a.1 < b.1
  whole : ∀ e ∈ s.cache.lines, e.2.data.length = 128
  dirtyValid : ∀ e ∈ s.cache.lines, ∀ i < 128, e.2.dirty.getLsbD i = true → e.2.valid.getLsbD i = true
  clean : ∀ e ∈ s.cache.lines, ∀ i < 128, e.2.valid.getLsbD i = true → e.2.dirty.getLsbD i = false →
    e.2.data[i]? = some (cellGet s.mem (e.1 * 128 + i))

/-! ### What commands may change -/

end Sys2Proof.Machine

namespace Sys2Proof

/-- The commands that reset the device, lose its power, or write its control space (R10, R311, R481 to R483, R506). -/
def Instr.wipesOrWritesControl : Instr → Bool
  | .lineStore .. | .powerGood .. | .pwrEnDeassert .. | .inputFault .. | .resetNAssert .. | .resetNRelease .. | .bootDone .. |
    .lcGo .. | .lifeCycleChangeDone .. | .wr32 .. | .wr64 .. | .registerWrite .. | .inputFall .. => true
  | _ => false

/-- The commands that may move a pin or sample one. -/
def Instr.changesPins (c : Instr) : Bool :=
  c.wipesOrWritesControl || match c with
  | .slowLoop .. | .inputRise .. | .duskReady .. | .pwrEnAssert .. | .wakeNLow .. | .wakeNRelease .. | .thermNLow .. |
    .thermNRelease .. | .eventIntake .. | .alertResponse .. | .inputOperatingRange .. => true
  | _ => false

/-- The commands that may change the security block: life cycle, fuses, flash, firmware slots, hub dies, reports. -/
def Instr.changesSecurity (c : Instr) : Bool :=
  c.wipesOrWritesControl || match c with
  | .operatingMinute .. | .hubGo .. | .hubFailureDetected .. | .hubSelfTestDone .. | .updGo .. | .updWriteDone .. |
    .unitActivation .. | .updCommit .. | .updAbort .. | .flashErase .. | .flashProgram .. | .flashOpDone .. | .attGo .. |
    .attReportDone .. => true
  | _ => false

/-- The commands that may change the SMBus and test access ports. -/
def Instr.changesSmb (c : Instr) : Bool :=
  c.wipesOrWritesControl || match c with
  | .addr .. | .rd32 .. | .rd64 .. | .status .. | .alertResponse .. | .tapInstruction .. => true
  | _ => false

/-- The commands that may change which core positions are enabled. -/
def Instr.changesIdentity (c : Instr) : Bool :=
  c.wipesOrWritesControl || match c with
  | .teardownAbortDone .. | .spareIn .. | .coreWakeDone .. | .pllRelockDone .. => true
  | _ => false

/-- The commands that may change the governor, clocks and dies. -/
def Instr.changesPower (c : Instr) : Bool :=
  c.wipesOrWritesControl || match c with
  | .nop .. | .waitEntry .. | .signalEntry .. | .passOpen .. | .passSettle .. | .settleToken .. | .settleDoneToken .. |
    .endStream .. | .matmul .. | .drain .. | .tileDrainCommit .. | .txAccept .. | .launch .. | .narrowStore .. | .copy .. |
    .copyRemote .. | .hintPrefetch .. | .hintPin .. | .hintUnpin .. | .hintDead .. | .reduceScatter .. | .allGather .. |
    .allReduce .. | .finitenessVote .. | .collComplete .. | .update .. | .voteOutcome .. | .updateBlockCommit .. |
    .rule3Combine .. | .updateComplete .. | .fence .. | .trigger .. | .atomic .. | .hostPut .. | .transferComplete .. |
    .lineFill .. | .scrubPass .. | .rowRemapDone .. | .evacCopyDone .. | .evacCopyBackDone .. | .wipeComplete .. | .write .. |
    .read .. | .loadStart .. | .burobFlit .. | .burobTrained .. | .cqHeadWrite .. | .cqWaitTimeout .. | .trayFlit .. |
    .trayLinkDown .. | .scaleoutPortDown .. | .lineLoad .. | .descFetch .. | .fabricAtomic .. | .flag .. | .flagApplied .. |
    .fabricTrigger .. | .lossNoticeHoldEnd .. | .fabricResponse .. | .fabricRequestTimeout .. | .unpair .. | .protectDisable .. |
    .stepCloseReady .. | .markerAck .. | .sealWritebackDone .. | .restoreComplete .. | .operatingMinute .. | .slowLoop .. |
    .fastLoop .. | .clockGate .. | .coreWakeRequest .. | .rampAdmitted .. | .dieGate .. | .dieWakeRequest .. | .dieWakeDone .. |
    .wakeNLow .. | .thermNLow .. | .thermNRelease .. | .pllLossOfLock .. | .pllRelockDone .. | .duskInputLoss .. |
    .duskInputRestored .. | .hubGo .. | .hubFailureDetected .. => true
  | _ => false

/-- The commands that may change the tensor units. -/
def Instr.changesTensorUnits (c : Instr) : Bool :=
  c.wipesOrWritesControl || match c with
  | .nop .. | .seqBroadcast .. | .waitEntry .. | .signalEntry .. | .tokenVisible .. | .waitCycle .. | .waitStall .. |
    .endStream .. | .matmul .. | .drain .. | .tileSwap .. | .tileDrainCommit .. | .txAccept .. | .launchComplete .. |
    .integerAndCompare .. | .fpArithmetic .. | .localStoreLoad .. | .localStoreStore .. | .localStoreAtomic .. | .narrowStore .. |
    .laneExchange .. | .rndw .. | .rndk .. | .bra .. | .brx .. | .exit .. | .bar .. | .barrierStall .. | .mrBegin .. | .mrEnd .. |
    .mx .. | .copy .. | .copyRemote .. | .hintPrefetch .. | .hintPin .. | .hintUnpin .. | .hintDead .. | .reduceScatter .. |
    .allGather .. | .allReduce .. | .finitenessVote .. | .update .. | .updateBlockCommit .. | .rule3Combine .. |
    .updateComplete .. | .fence .. | .trigger .. | .atomic .. | .hostPut .. | .transferComplete .. | .lineFill .. |
    .teardownAbortDone .. | .teSaveDone .. | .geSaveDone .. | .queueSaveDone .. | .localStoreSave .. | .contextResume .. |
    .resumeDone .. | .token .. | .fabricTrigger .. | .spareIn .. | .coreWakeDone .. | .pllLossOfLock .. | .pllRelockDone .. |
    .issueRamp .. => true
  | _ => false

/-- The commands that may change the group engines. -/
def Instr.changesGroupEngines (c : Instr) : Bool :=
  c.wipesOrWritesControl || match c with
  | .endStream .. | .drain .. | .tileSwap .. | .tileDrainCommit .. | .txAccept .. | .launch .. | .blockStart .. |
    .launchComplete .. | .integerAndCompare .. | .fpArithmetic .. | .localStoreLoad .. | .localStoreStore .. |
    .localStoreAtomic .. | .narrowStore .. | .laneExchange .. | .rndw .. | .rndk .. | .bra .. | .brx .. | .exit .. | .bar .. |
    .mrBegin .. | .mrEnd .. | .mx .. | .updateComplete .. | .transferComplete .. | .pktLaunch .. | .teardownAbortDone .. |
    .teSaveDone .. | .geSaveDone .. | .queueSaveDone .. | .contextResume .. | .spareIn .. => true
  | _ => false

/-- The commands that may change memory, the cache over it, or the state of HBM. -/
def Instr.changesMemory (c : Instr) : Bool :=
  c.wipesOrWritesControl || match c with
  | .nop .. | .waitEntry .. | .signalEntry .. | .passOpen .. | .passSettle .. | .settleToken .. | .settleDoneToken .. |
    .endStream .. | .matmul .. | .drain .. | .tileDrainCommit .. | .txAccept .. | .launch .. | .integerAndCompare .. |
    .fpArithmetic .. | .localStoreLoad .. | .localStoreStore .. | .localStoreAtomic .. | .narrowStore .. | .laneExchange .. |
    .rndw .. | .rndk .. | .bra .. | .brx .. | .exit .. | .bar .. | .mrBegin .. | .mrEnd .. | .mx .. | .copy .. | .copyRemote .. |
    .hintPrefetch .. | .hintPin .. | .hintUnpin .. | .hintDead .. | .reduceScatter .. | .allGather .. | .allReduce .. |
    .finitenessVote .. | .collComplete .. | .update .. | .voteOutcome .. | .updateBlockCommit .. | .rule3Combine .. |
    .updateComplete .. | .fence .. | .trigger .. | .atomic .. | .hostPut .. | .transferComplete .. | .lineFill .. | .scrubPass ..
    | .rowRemapDone .. | .evacGo .. | .evacCopyDone .. | .pcRetrainDone .. | .evacCopyBackDone .. | .wipeComplete .. | .write .. |
    .read .. | .loadStart .. | .pktLaunch .. | .teardownAbortDone .. | .localStoreSave .. | .contextResume .. | .resumeDone .. |
    .memFree .. | .memUnmap .. | .burobFlit .. | .burobTrained .. | .cqHeadWrite .. | .cqWaitTimeout .. | .trayFlit .. |
    .trayLinkDown .. | .scaleoutPortDown .. | .lineLoad .. | .descFetch .. | .fabricAtomic .. | .flag .. | .flagApplied .. |
    .fabricTrigger .. | .lossNoticeHoldEnd .. | .fabricResponse .. | .fabricRequestTimeout .. | .unpair .. | .protectDisable .. |
    .stepCloseReady .. | .markerAck .. | .sealWritebackDone .. | .restoreComplete .. | .spareIn .. | .coreWakeDone .. |
    .dieWakeDone .. | .pllRelockDone .. | .hubGo .. | .hubFailureDetected .. => true
  | _ => false

end Sys2Proof
end

