-- ==== Sys2Proof/Certificates/Slice0/Obligations.lean ====
section
/-! DEFINITION. The statements about the model, for the provers. -/

open Sys2Proof Sys2Proof.Machine

/-! ### Streams and passes (05, 06, 02) -/

/-- R141, R142, R145, R146, R175: WAIT_ENTRY, SIGNAL_ENTRY and NOP. A wait at the head of an engine whose channel is bound to it as
consumer and holds the count is taken and lowers the channel by its count; while the channel holds less, nothing changes. A signal on a
channel bound to the engine as producer is taken and puts a token in flight behind the engine's outstanding work. A wait or a signal on a
channel not so bound faults the context with TOKEN_BINDING. A NOP does the same with its wait and with its signal: alone, or its wait and
then its signal. -/
def Obligations.WaitAndSignalEntries : Prop :=
  ∀ (s : State) (c : Nat) (e : Engine) (ch n : Nat),
    let waited (t : State) : State := (t.take c e).modCore c fun k => k.setCount ch (((t.core c).chan ch).count - n)
    let signalled (t : State) (ch : Nat) : State := (t.take c e).modCore c fun k =>
      { k with inflight := k.inflight ++ [⟨e, ch, (k.work.filter fun w => w.1 == e).map (·.2)⟩] }
    (s.headOf c e = some (.wait ch n false) →
      (((s.core c).chan ch).bind.producer ≠ 0 → ((s.core c).chan ch).bind.consumer = engCode e →
        (n ≤ ((s.core c).chan ch).count → exec (.waitEntry c e) s = .next (waited s)) ∧
        (((s.core c).chan ch).count < n → exec (.waitEntry c e) s = .next s)) ∧
      (((s.core c).chan ch).bind.producer = 0 ∨ ((s.core c).chan ch).bind.consumer ≠ engCode e →
        exec (.waitEntry c e) s = .next (s.faultCore c 0x6013 0))) ∧
    (s.headOf c e = some (.signal ch false) →
      (((s.core c).chan ch).bind.producer = engCode e → exec (.signalEntry c e) s = .next (signalled s ch)) ∧
      (((s.core c).chan ch).bind.producer ≠ engCode e → exec (.signalEntry c e) s = .next (s.faultCore c 0x6013 0))) ∧
    (s.headOf c e = some (.signal ch true) →
      (((s.core c).chan ch).bind.producer = engCode e → exec (.nop c e) s = .next (signalled s ch)) ∧
      (((s.core c).chan ch).bind.producer ≠ engCode e → exec (.nop c e) s = .next (s.faultCore c 0x6013 0))) ∧
    (s.headOf c e = some (.wait ch n true) →
      (((s.core c).chan ch).bind.producer ≠ 0 → ((s.core c).chan ch).bind.consumer = engCode e →
        (((s.core c).chan ch).count < n → exec (.nop c e) s = .next s) ∧
        (n ≤ ((s.core c).chan ch).count →
          ((∀ ch', ((s.core c).take e).head e ≠ some (.signal ch' true)) → exec (.nop c e) s = .next (waited s)) ∧
          (∀ ch', ((s.core c).take e).head e = some (.signal ch' true) → ((s.core c).chan ch').bind.producer = engCode e →
            exec (.nop c e) s = .next (signalled (waited s) ch')) ∧
          (∀ ch', ((s.core c).take e).head e = some (.signal ch' true) → ((s.core c).chan ch').bind.producer ≠ engCode e →
            exec (.nop c e) s = .next ((waited s).faultCore c 0x6013 0)))) ∧
      (((s.core c).chan ch).bind.producer = 0 ∨ ((s.core c).chan ch).bind.consumer ≠ engCode e →
        exec (.nop c e) s = .next (s.faultCore c 0x6013 0)))

/-- R136, R137, R180, R307: SEQ_BROADCAST. The next native entry of a stream goes to the end of the engine's queue of every member whose
clocks run, and behind what the wake port of any other member holds; the stream moves past it and ZS_SEQ_ENTRIES counts it; without credit
at every member the stream is held, nothing reaches a queue, and the hold is counted. An entry whose bytes of the native image read
uncorrectable faults the context with MEM_DEVICE_AREA. -/
def Obligations.BroadcastDelivers : Prop :=
  ∀ (s : State) (sq : Nat) (e : Engine) (q : Seq) (x : Entry),
    look s.seqs sq = some q → q.next e = some x → s.live q.ctx = true → q.preempting = false → q.mayBroadcast e x = true →
    (s.credits q e = true → q.members.Nodup → ∃ t, exec (.seqBroadcast sq e false) s = .next t ∧
      (∀ c ∈ q.members, (s.core c).clk = .running → (t.core c).queue e = (s.core c).queue e ++ [x]) ∧
      (∀ c ∈ q.members, (s.core c).clk ≠ .running → (t.core c).held = (s.core c).held ++ [.entry e x] ∧ (t.core c).queue e = (s.core c).queue e) ∧
      (∀ c, c ∉ q.members → t.core c = s.core c) ∧
      (∃ q', look t.seqs sq = some q' ∧ q'.fetch e = q.advance e) ∧
      t.regs = put s.regs (offSeq sq 0x20) (BitVec.ofNat 64 (s.reg (offSeq sq 0x20) + 1)) ∧ t.objs = s.objs ∧ t.mem = s.mem) ∧
    (s.credits q e = false → exec (.seqBroadcast sq e false) s =
      .next ((s.setSeq sq { q with creditHeld := addNew q.creditHeld e }).bump (offSeq sq 0x28) 1)) ∧
    (∃ t, exec (.seqBroadcast sq e true) s = .next t ∧
      ∀ y, s.ctx q.ctx = some y → (t.ctx q.ctx).map (fun y => (y.state, y.cause)) = some (.teardown, 0x4012))

/-- R141, R142, R145, R148, R149, R229: TOKEN_VISIBLE, WAIT_CYCLE, WAIT_STALL. The oldest token in flight of an engine that rides behind no
outstanding work becomes visible: the channel's count rises by 1; at 255 the context faults with TOKEN_OVERFLOW instead. A wait cycle
faults the context with code 0x6010, a stall counter at its limit with 0x6011: the context goes to teardown with that cause. Where a
barrier of the context's cores is at its limit too, the barrier is what is reported. -/
def Obligations.TokensAndStalls : Prop :=
  ∀ (s : State) (c : Nat) (e : Engine) (x : Nat) (f : Flight),
    (s.coreCtx c = some x → ((s.core c).inflight.find? fun g => g.eng == e) = some f → f.behind = [] →
      f.ch < (s.core c).chans.length → ((s.core c).chan f.ch).count < 255 →
      ∃ t, exec (.tokenVisible c e) s = .next t ∧ ((t.core c).chan f.ch).count = ((s.core c).chan f.ch).count + 1 ∧
        (t.core c).inflight = (s.core c).inflight.erase f ∧ (∀ ch, ch ≠ f.ch → (t.core c).chan ch = (s.core c).chan ch) ∧
        (∀ c', c' ≠ c → t.core c' = s.core c') ∧ t.mem = s.mem ∧
        t.regs = put s.regs (offZs c 0x48) (BitVec.ofNat 64 (s.reg (offZs c 0x48) + 1))) ∧
    (s.coreCtx c = some x → s.live x = true → ((s.core c).inflight.find? fun g => g.eng == e) = some f → f.behind = [] →
      ((s.core c).chan f.ch).count = 255 → ∃ t, exec (.tokenVisible c e) s = .next t ∧
        (t.ctx x).map (fun y => (y.state, y.cause)) = some (.teardown, 0x6012)) ∧
    (s.coreCtx c = some x → s.live x = true → (s.core c).waitCycle = true → ∃ t, exec (.waitCycle c) s = .next t ∧
      (t.ctx x).map (fun y => (y.state, y.cause)) = some (.teardown, 0x6010) ∧ bit (t.reg (offZs c 0x08)) 20 = true) ∧
    (∀ y n, s.ctx x = some y → y.state = .live → s.stallLimit x = some n → 2 ^ n ≤ y.stall →
      ((∀ m ∈ (s.seqs.filter fun q => q.2.ctx == x).flatMap (fun q => q.2.members), s.overdue m = none) →
        ∃ t, exec (.waitStall x) s = .next t ∧ (t.ctx x).map (fun y => (y.state, y.cause)) = some (.teardown, 0x6011)) ∧
      (∀ m b, (((s.seqs.filter fun q => q.2.ctx == x).flatMap fun q => q.2.members).findSome? fun m => (s.overdue m).map fun b => (m, b)) =
        some (m, b) → exec (.waitStall x) s = exec (.barrierStall m b) s))

/-- R55, R56, R58 to R66, R182, R190: PASS_OPEN, PASS_SETTLE, PASS_END_CREDIT, SETTLE_TOKEN, SETTLE_DONE_TOKEN and END. The open makes an
instance and starts every listed tensor; each engine takes its settle mark; a core whose engines have and whose work has ended gives its
credit; with every credit the cores settle the tensors and then the leader; the verdict closes the instance or, where the leader calls
for a re-run below the limit, puts every stream back at its PASS_OPEN. A command of these whose writes must
wait for version pages waits whole (`State.guarded`, as WritesWaitForVersionPages says). An engine takes its END; the tensor engine's with an MX in the port
faults the context with MX_UNACCEPTED. -/
def Obligations.PassesOpenSettleAndEnd : Prop :=
  ∀ (s : State) (sq c : Nat) (e : Engine) (q : Seq) (p : PassInst) (ent : PassEnt),
    (∀ reruns, look s.seqs sq = some q → s.live q.ctx = true → q.preempting = false → q.opening = some (ent, reruns) →
      let p0 : PassInst :=
        { id := ent.id, stage := .opened, marks := [], broadcastSettle := [], credits := [], settleCredits := [],
          biases := ent.tensors.map fun h => (h, s.descBias q.ctx h), opened := [], ceilings := [], outdated := [],
          reruns := reruns }
      let t := ent.tensors.foldl (fun t h => t.openTensor sq q h) (s.setSeq sq { q with pass := some p0 })
      exec (.passOpen sq) s =
        .next (s.guarded (t.setSeq sq { q with pass := some { p0 with opened := ent.tensors.map fun h => (h, t.descBias q.ctx h) } }))) ∧
    (∀ i k, s.headOf c e = some (.body (.passSettle i) k) →
      exec (.passSettle c e) s = .next ((s.take c e).modCore c fun k => { k with settled := addNew k.settled e })) ∧
    (s.coreSeq c = some (sq, q) → q.pass = some p → s.live q.ctx = true → p.stage = .opened → (s.core c).settled.length = 3 →
      (s.core c).work = [] →
      exec (.passEndCredit c) s = .next (s.setSeq sq { q with pass := some { p with credits := addNew p.credits c } })) ∧
    (look s.seqs sq = some q → q.pass = some p → q.kernel.passOf p.id = some ent → s.live q.ctx = true →
      (p.stage = .opened → (q.members.all fun c => p.credits.contains c) = true →
        exec (.settleToken sq) s = .next (s.guarded ((ent.tensors.foldl (fun t h => t.settleTensor q p h) s).setSeq sq
          { q with pass := some { p with stage := .settled, settleCredits := q.members } }))) ∧
      (p.stage = .settled → (q.members.all fun c => p.settleCredits.contains c) = true →
        ((s.leadPass q ent).2 = false → exec (.settleDoneToken sq) s = .next
          (s.guarded (q.members.foldl (fun t c => t.settledCore c) ((s.leadPass q ent).1.setSeq sq { q with pass := none })))) ∧
        ((s.leadPass q ent).2 = true → p.reruns < fld (s.scaleCtl q) 6 2 → exec (.settleDoneToken sq) s = .next
          (s.guarded (q.members.foldl (fun t c => t.settledCore c) ((s.leadPass q ent).1.setSeq sq (q.restart p))))) ∧
        ((s.leadPass q ent).2 = true → fld (s.scaleCtl q) 6 2 ≤ p.reruns → exec (.settleDoneToken sq) s = .next
          (s.guarded (q.members.foldl (fun t c => t.settledCore c)
            (((s.leadPass q ent).1.raise 0x1806 (leBytes 2 q.ctx ++ leBytes 2 p.id)).setSeq sq { q with pass := none })))))) ∧
    (∀ k, s.headOf c e = some (.body .fin k) →
      let t := (s.take c e).modCore c fun k => { k with ended := addNew k.ended e }
      ((e = .te → ∀ g, look s.ge c = some g → g.port = []) → exec (.endStream c e) s = .next (t.endKernelOf c)) ∧
      (∀ g, e = .te → look s.ge c = some g → g.port ≠ [] → exec (.endStream c e) s = .next (t.faultCore c 0x9040 0)))

/-! ### The tensor engine (03, 04) -/

/-- R80, R88, R89, R103, R106, R120, R131, R177, R189, R563: MATMUL, DRAIN and TX_ACCEPT. A tile whose units can take it and whose operands
pass their checks is issued to its units; a tile that fails a check stops with its code; an error that the engine's own checks report as
the tile is issued stops it; a tile taken behind a swap that waits for its shadow set takes its place there. A drain entry ends the tiles its own body issued to, a DRAIN those its units hold; with none the entry is taken
all the same, and one that fails a check stops with its code. While a unit that the entry names cannot take it, or the core is to start no new tile, the entry stays at the head.
A TX_ACCEPT takes its number of MX from the port and issues their tiles in order; while the port holds fewer, it stays at the head. -/
def Obligations.MatrixEntriesIssue : Prop :=
  ∀ (s : State) (c sq : Nat) (q : Seq) (f : MatF) (k : Nat) (err : CoreErr), s.coreSeq c = some (sq, q) →
    (s.headOf c .te = some (.body (.matmul f) k) →
      (s.mayIssue c f = true → ((s.core c).noNewTile = true → s.startsTile c f = false) →
        (∀ o, s.checkMat c q.ctx f (f.box k) = .ok o →
          (((s.take c .te).teErr c err).2 = false → exec (.matmul c err) s =
            let u := ((s.take c .te).teErr c err).1
            .next (if u.stalledOn c f then u.placeTile c f k o ((s.core c).headPos .te)
              else u.issueTile c q.ctx q f o (f.box k) ((s.core c).headPos .te) 0)) ∧
          (((s.take c .te).teErr c err).2 = true → exec (.matmul c err) s = .next ((s.take c .te).teErr c err).1)) ∧
        (∀ e, s.checkMat c q.ctx f (f.box k) = .error e → exec (.matmul c err) s = .next ((s.take c .te).matStop c e))) ∧
      (s.mayIssue c f = false ∨ (s.core c).noNewTile = true ∧ s.startsTile c f = true → exec (.matmul c err) s = .next s)) ∧
    (s.headOf c .te = some (.tileDrain f k) →
      let pos := ((s.core c).headPos .te + (2 ^ 64 - 1)) % 2 ^ 64
      let waits := s.waitsOf c f pos
      (waits ≠ [] ∨ s.placeFree c f = true →
        let own := if waits.isEmpty then s.drainsOf c f (some pos) else waits
        (own = [] → exec (.drain c) s = .next ((s.take c .te).endKernelOf c)) ∧
        (∀ d, own ≠ [] → s.checkOut c q.ctx f f.span (f.box k) = .ok d →
          exec (.drain c) s = .next ((s.take c .te).startDrain c q f (f.box k) d own)) ∧
        (∀ e, own ≠ [] → s.checkOut c q.ctx f f.span (f.box k) = .error e → exec (.drain c) s =
          .next (((s.take c .te).dropTiles c e own).matStop c e))) ∧
      (waits = [] → s.placeFree c f = false → exec (.drain c) s = .next s)) ∧
    (s.headOf c .te = some (.body (.drain f) k) →
      (s.placeFree c f = true → s.modeReady c f = true →
        let us := s.drainsOf c f none
        let b := s.openBox c f us
        (us = [] → exec (.drain c) s = .next ((s.take c .te).endKernelOf c)) ∧
        (∀ d, us ≠ [] → s.checkOut c q.ctx f (f.spanOf b.cols) b = .ok d →
          exec (.drain c) s = .next ((s.take c .te).startDrain c q f b d us)) ∧
        (∀ e, us ≠ [] → s.checkOut c q.ctx f (f.spanOf b.cols) b = .error e →
          exec (.drain c) s = .next ((s.take c .te).matStop c e))) ∧
      (s.placeFree c f = false ∨ s.modeReady c f = false → exec (.drain c) s = .next s)) ∧
    (∀ n g, s.headOf c .te = some (.body (.txAccept n) k) → look s.ge c = some g →
      (n ≤ g.port.length → (s.core c).noNewTile = false →
        let s1 := { s.take c .te with ge := put s.ge c { g with port := g.port.drop n } }
        ((s1.teErr c err).2 = true → exec (.txAccept c err) s = .next (s.guarded (s1.teErr c err).1)) ∧
        ((s1.teErr c err).2 = false → exec (.txAccept c err) s = .next (s.guarded (((acceptTiles (g.port.take n)).foldl
          (fun (u : Option State) e => u.bind fun v => v.acceptTile c q e.1 ((s.core c).headPos .te) e.2)
          (some ((g.port.take n).foldl (fun (u : State) f => u.readMx q.ctx f) (s1.teErr c err).1))).getD s)))) ∧
      (g.port.length < n ∨ (s.core c).noNewTile = true → exec (.txAccept c err) s = .next s))

/-- R88, R90, R118, R120 to R124: TILE_SWAP and TILE_DRAIN_COMMIT. When a unit's shadow set is free its two sets swap: the tile to be drained
goes to the shadow set with its drain, the tile behind it becomes active with the drain that waits for it, and the unit's second place is
free; while the shadow set is not free the unit waits, and a stall is counted once. With no drain waiting nothing swaps. When every unit of
a drain's set has swapped, the drain commits; until then nothing happens. Neither happens while the engine does not run: its context
is not live, its record has been written, or a resume is under way (R126).
ISSUE_RAMP. In an arithmetic cycle of a running core's array or matrix-vector path the rate moves by 1 towards the
core's cap with work ready and towards 0 without; the credit gains the rate, up to 127, and at 64 or more a slot is issued and takes
64. A slot issued without work, a cycle with work that issues no slot while the rate is below the cap, and a cycle with work in which the
cap holds or pulls the rate below 64 are each counted, and no other register changes. A quadrant has no rate of its own, and a core whose
clock does not run has no cycle: there nothing changes. -/
def Obligations.TilesSwapAndRatesRamp : Prop :=
  (∀ (s : State) (c : Nat) (un : TeUnit), unitCode un < 128 →
      let k := s.unit c (unitCode un)
      (k.pendingDrain = none ∨ s.teRuns c = false → exec (.tileSwap c un) s = .next s) ∧
      (∀ t j, s.teRuns c = true → k.active = some t → k.pendingDrain = some j →
        (s.swapFree c (unitCode un) = true → exec (.tileSwap c un) s = .next (s.swapUnit c (unitCode un))) ∧
        (s.swapFree c (unitCode un) = true → k.waiting = none → ∃ s', exec (.tileSwap c un) s = .next s' ∧
          s'.unit c (unitCode un) =
            { k with shadow := some (t, j), active := k.next, pendingDrain := k.nextDrain, next := none, nextDrain := none, stalled := false } ∧
          (∀ c' u', (c', u') ≠ (c, unitCode un) → u' < 128 → s'.unit c' u' = s.unit c' u') ∧ s'.regs = s.regs ∧ s'.cores = s.cores ∧
          s'.seqs = s.seqs ∧ s'.mem = s.mem ∧ s'.cache = s.cache ∧ s'.objs = s.objs) ∧
        (s.swapFree c (unitCode un) = false → k.stalled = true → exec (.tileSwap c un) s = .next s) ∧
        (s.swapFree c (unitCode un) = false → k.stalled = false → exec (.tileSwap c un) s =
          .next ((s.setUnit c (unitCode un) { k with stalled := true }).bump (offTe c 0x538) 1))) ∧
      (k.shadow = none ∨ s.teRuns c = false → exec (.tileDrainCommit c un) s = .next s) ∧
      (∀ t j, s.teRuns c = true → k.shadow = some (t, j) →
        (s.swapsLeft c j.work = false → exec (.tileDrainCommit c un) s = .next (s.guarded (s.commitDrain c j.work))) ∧
        (s.swapsLeft c j.work = true → exec (.tileDrainCommit c un) s = .next s))) ∧
  (∀ (s : State) (c : Nat) (un : TeUnit) (ready : Bool), unitCode un < 128 →
      (∀ a q, un = .quad a q → exec (.issueRamp c un ready) s = .next s) ∧
      ((s.core c).clk ≠ .running → exec (.issueRamp c un ready) s = .next s) ∧
      ((s.core c).clk = .running → (∀ a q, un ≠ .quad a q) →
        let k := s.unit c (unitCode un)
        let cap := (s.core c).cap
        let r := if ready then (if k.rate < cap then k.rate + 1 else if cap < k.rate then k.rate - 1 else k.rate) else k.rate - 1
        let cr := min (k.credit + r) 127
        let one (b : Bool) : BitVec 64 := if b then 1 else 0
        ∃ t, exec (.issueRamp c un ready) s = .next t ∧
          t.unit c (unitCode un) = { k with rate := r, credit := if 64 ≤ cr then cr - 64 else cr, ready := ready } ∧
          (∀ c' u', (c', u') ≠ (c, unitCode un) → u' < 128 → t.unit c' u' = s.unit c' u') ∧
          BitVec.ofNat 64 (t.reg (offTe c 0x120)) = BitVec.ofNat 64 (s.reg (offTe c 0x120)) + one (!ready && decide (64 ≤ cr)) ∧
          BitVec.ofNat 64 (t.reg (offTe c 0x118)) =
            BitVec.ofNat 64 (s.reg (offTe c 0x118)) + one (ready && decide (cr < 64) && decide (r < cap)) ∧
          BitVec.ofNat 64 (t.reg (offTe c 0x128)) =
            BitVec.ofNat 64 (s.reg (offTe c 0x128)) + one (ready && decide (cap ≤ r) && decide (r < 64)) ∧
          (∀ o, o ≠ offTe c 0x118 → o ≠ offTe c 0x120 → o ≠ offTe c 0x128 → t.reg o = s.reg o) ∧
          t.cores = s.cores ∧ t.mem = s.mem ∧ t.objs = s.objs ∧ t.recd = s.recd))

/-! ### The group engine (07) -/

/-- R207, R215, R216, R218, R233: LAUNCH, BLOCK_START and LAUNCH_COMPLETE. A launch is taken into a free slot as outstanding work of the
group engine with its CONST words, and waits while both slots are taken; a block of the earliest launch with blocks left starts when its
groups' frames are free, in the lowest of them, and waits while they are not; a launch whose blocks have all ended frees its slot, is
counted and ends its work, and one with blocks left goes on. -/
def Obligations.LaunchesAndBlocks : Prop :=
  ∀ (s : State) (c sq : Nat) (q : Seq),
    s.coreSeq c = some (sq, q) →
    (∀ entry groups blocks const k slot,
      s.headOf c .ge = some (.body (.launch entry groups blocks const) k) →
      firstFree (fun i => (look (s.groupEngine c).launches i).isSome) 2 = some slot → ∃ t l, exec (.launch c) s = .next t ∧
        look (t.groupEngine c).launches slot = some l ∧ l.entry = entry ∧ l.groups = groups ∧ l.blocks = blocks ∧
        l.u = constWords q.kernel const ∧ l.nextBlock = 0 ∧ l.ended = 0 ∧ 12 ≤ l.barLog2 ∧ l.barLog2 ≤ 28 ∧
        l.work = (s.core c).nextWork ∧ (t.core c).work = (s.core c).work ++ [(.ge, l.work)] ∧
        (t.groupEngine c).blocks = (s.groupEngine c).blocks ∧ t.mem = s.mem ∧ t.seqs = s.seqs ∧ t.te = s.te) ∧
    (firstFree (fun i => (look (s.groupEngine c).launches i).isSome) 2 = none → exec (.launch c) s = .next s) ∧
    (∀ slot l, (s.groupEngine c).starting = some (slot, l) → s.takes c = true →
      let free := (List.range (frameBytes q.kernel / 0x2000)).filter fun f => (look (s.groupEngine c).groups f).isNone
      (free.length < l.groups → exec (.blockStart c) s = .next s) ∧
      (l.groups ≤ free.length → ∃ t, exec (.blockStart c) s = .next t ∧
        look (t.groupEngine c).launches slot = some { l with nextBlock := l.nextBlock + 1 } ∧
        look (t.groupEngine c).blocks (s.groupEngine c).nextBlock =
          some ⟨slot, l.nextBlock, l.groups, (free.head?).getD 0, 0, 0, 0, 0, 0⟩ ∧
        (∀ i f, i < l.groups → free[i]? = some f → look (t.groupEngine c).groups f =
          some (Group.start (s.groupEngine c).nextBlock i l.nextBlock (s.coreRank c) l.entry)) ∧
        (∀ f, f ∉ free.take l.groups → look (t.groupEngine c).groups f = look (s.groupEngine c).groups f) ∧
        t.mem = s.mem ∧ t.regs = s.regs ∧ t.cores = s.cores ∧ t.seqs = s.seqs)) ∧
    (∀ x slot l, s.coreCtx c = some x → look (s.groupEngine c).launches slot = some l →
      (l.ended = l.blocks → exec (.launchComplete c slot) s = .next
        (((s.setGe c { s.groupEngine c with launches := del (s.groupEngine c).launches slot }).bump (offGe c 0x18) 1).finishWork
          c l.work)) ∧
      (l.ended ≠ l.blocks → exec (.launchComplete c slot) s = .next s))

/-- R185, R209, R210, R211, R234, R277: INTEGER_AND_COMPARE, FP_ARITHMETIC, LANE_EXCHANGE, RNDW, RNDK. An instruction of a group that may issue
is counted, gives each guarded lane its result, in `dst` or, for a compare and RNDK, in a predicate, and the group goes on 8 bytes
further. A conversion that names a reserved format code writes nothing and errs the kernel's fence with FORMAT_RESERVED; one to a format
whose result the spec does not state (A40, E8M0) gives the guarded lanes free values and changes nothing else. The tables of operations are
not in the spec: they are the functions of Config (the model's choice, log 6). Where an uncorrectable error in the frame or the group's
state is met, the context faults with GE_FRAME_PARITY instead.
R185, R209: what a thread result changes. A register result reaches exactly the guarded lanes' `dst`, and none where `dst` is a u
register; a predicate result exactly the guarded lanes of its predicate, and none where that is p7, which reads true. Going on to the
next position changes no register and no predicate. -/
def Obligations.ThreadArithmeticInGuardedLanes : Prop :=
  (∀ (s : State) (c f : Nat) (t : Thread), s.thread c f = some t →
     let w := t.word
     let g := t.group
     let a (l : Nat) := g.rd t.launch.u w.a l
     let b (l : Nat) := g.rd t.launch.u w.b l
     let imm := BitVec.ofNat 31 w.imm
     let op := BitVec.ofNat 8 w.op
     let done (h : Group) : State := s.issued c f (h.goto (g.pos + 8))
     let killed : State := (s.modCore c fun k => { k with faulty := true }).groupFault c t 0x3016
     ((w.op < 0x1E → exec (.integerAndCompare c f true) s = .next killed) ∧
       (∀ o, 0x20 ≤ w.op → w.op < 0x40 → exec (.fpArithmetic c f o true) s = .next killed) ∧
       (0x50 ≤ w.op → w.op < 0x60 → exec (.laneExchange c f true) s = .next killed)) ∧
     (w.op < 0x1E → Config.isCompare op = true → exec (.integerAndCompare c f false) s =
       .next (done (g.setPred (w.dst % 8) (g.guarded w) fun l => Config.cmpOp op (a l) (b l) imm))) ∧
     (w.op < 0x1E → Config.isCompare op = false → exec (.integerAndCompare c f false) s =
       .next (done (g.each w fun l => Config.intOp op (a l) (b l) imm))) ∧
     (∀ o : FpOp, 0x20 ≤ w.op → w.op < 0x40 → o ≠ .convert → exec (.fpArithmetic c f o false) s =
       .next (done (g.each w fun l => (fpResult o (w.imm % 16) (a l) (b l) (g.rd t.launch.u (w.imm % 64) l)).getD 0))) ∧
     (0x20 ≤ w.op → w.op < 0x40 → (w.imm % 16 = 0 ∨ w.imm % 16 = 1 ∨ isNarrow (w.imm % 16) = true) → exec (.fpArithmetic c f .convert false) s =
       .next (done (g.each w fun l => (fpResult .convert (w.imm % 16) (a l) 0 0).getD 0))) ∧
     (0x20 ≤ w.op → w.op < 0x40 → 9 ≤ w.imm % 16 →
       exec (.fpArithmetic c f .convert false) s = .next ((s.entryError c 0x1001 0).issued c f (g.goto (g.pos + 8)))) ∧
     (0x20 ≤ w.op → w.op < 0x40 → (w.imm % 16 = 7 ∨ w.imm % 16 = 8) → ∃ (n : Nat) (h : Group),
       exec (.fpArithmetic c f .convert false) s = .next (({ s with free := n }).issued c f (h.goto (g.pos + 8))) ∧
       (∀ r l, l < 32 → ¬(r = w.dst ∧ r < 48 ∧ (g.guarded w).getLsbD l = true) → h.rd t.launch.u r l = g.rd t.launch.u r l) ∧
       { h with v := g.v } = g) ∧
     (0x50 ≤ w.op → w.op < 0x60 → exec (.laneExchange c f false) s =
       .next (done (g.each w fun l => Config.laneOp op ((List.range 32).map a) ((List.range 32).map b) (g.guarded w) l))) ∧
     (∀ sq q, s.coreSeq c = some (sq, q) →
       let word (l : Nat) := threadWord q.jobKey.toNat (w.imm % 2 ^ 16) (a l).toNat (b l).toNat q.step
       (w.op = 0x1E → exec (.rndw c f true) s = .next killed) ∧ (w.op = 0x1F → exec (.rndk c f true) s = .next killed) ∧
       (w.op = 0x1E → exec (.rndw c f false) s = .next (done (g.each w fun l => BitVec.ofNat 32 (word l)))) ∧
       (w.op = 0x1F → exec (.rndk c f false) s = .next (done (g.setPred (w.dst % 8) (g.guarded w) fun l =>
         decide (fld w.imm 16 15 ≤ word l / 2 ^ 17)))))) ∧
  (∀ (g : Group) (w : TWord) (u : List W32) (f : Nat → W32) (n : Nat) (m : BitVec 32) (p : Nat → Bool),
     (∀ r l, l < 32 → (g.each w f).rd u r l =
       if r = w.dst ∧ r < 48 ∧ (g.guarded w).getLsbD l = true then f l else g.rd u r l) ∧
     (g.p.length = 7 → n < 8 → ∀ k l, k < 8 → l < 32 → ((g.setPred n m p).pred k).getLsbD l =
       if k = n ∧ n < 7 ∧ m.getLsbD l = true then p l else (g.pred k).getLsbD l) ∧
     (∀ l, l < 32 → (g.pred 7).getLsbD l = true) ∧
     (∀ pos, (g.goto pos).v = g.v ∧ (g.goto pos).p = g.p))

/-- R211, R212, R227, R234, R287: LOCAL_STORE_LOAD, LOCAL_STORE_STORE, LOCAL_STORE_ATOMIC, NARROW_STORE. With every guarded lane's access
inside the local store and aligned, a load gives each lane its bytes; a store writes lane after lane and leaves every other byte of memory
as it was; an atomic gives the old value and writes the new, lane after lane; a faulting access faults the context at its lowest lane. A
narrow store of 32 lanes writes one unit; one that its descriptor does not allow errs the kernel's fence and the group goes on, one outside
the local store faults the context. What the checks of core memory report as the access is made is counted, and an uncorrectable error
stops it. A narrow store whose write must wait for a version page waits whole (`State.guarded`). -/
def Obligations.ThreadMemory : Prop :=
  ∀ (s : State) (c f : Nat) (t : Thread) (err : CoreErr), s.thread c f = some t → 0x40 ≤ t.word.op → t.word.op < 0x50 →
    let lanes := lanesOf (t.group.guarded t.word)
    let on := t.group.pos + 8
    let e := (s.groupErr c t err).1
    let stops := (s.groupErr c t err).2
    (err = .none → e = s ∧ stops = false) ∧
    (∀ width, s.lsFault c t (lsBytes width) = none →
      (stops = false → exec (.localStoreLoad c f width err) s = .next (e.issued c f ((t.group.each t.word fun l =>
        BitVec.ofNat 32 (leNat (e.lsRead c (t.address l) (lsBytes width)))).goto on))) ∧
      (stops = false → exec (.localStoreStore c f width err) s = .next ((lanes.foldl (fun (v : State) l =>
        v.lsWrite c (t.address l) (leBytes (lsBytes width) (t.group.rd t.launch.u t.word.dst l).toNat)) e).issued c f (t.group.goto on))) ∧
      (stops = false → MemCanonical s → ∀ u, exec (.localStoreStore c f width err) s = .next u → MemCanonical u ∧
        (∀ a, (∀ l ∈ lanes, ∀ i, i < lsBytes width → a ≠ localAddr c (s.core c).lsEighths (t.address l + i)) →
          cellGet u.mem a = cellGet s.mem a) ∧
        u.cache = e.cache ∧ u.objs = s.objs ∧ u.seqs = s.seqs) ∧
      (stops = true → exec (.localStoreLoad c f width err) s = .next e ∧ exec (.localStoreStore c f width err) s = .next e)) ∧
    (∀ width code l, s.lsFault c t (lsBytes width) = some (code, l) →
      exec (.localStoreLoad c f width err) s = .next (s.threadFault c t code l) ∧
      exec (.localStoreStore c f width err) s = .next (s.threadFault c t code l)) ∧
    (∀ op : AtomicKind, op ≠ .or →
      (∀ code l, s.lsFault c t 4 = some (code, l) → exec (.localStoreAtomic c f op err) s = .next (s.threadFault c t code l)) ∧
      (s.lsFault c t 4 = none → stops = true → exec (.localStoreAtomic c f op err) s = .next e) ∧
      (s.lsFault c t 4 = none → stops = false →
        let r := lanes.foldl (atomicLane c op t) (e, t.group)
        exec (.localStoreAtomic c f op err) s = .next (r.1.issued c f (r.2.goto on)))) ∧
    (∀ sq q, s.coreSeq c = some (sq, q) →
      let o := (t.group.rd t.launch.u t.word.a ((lanes.head?).getD 0)).toNat
      let s0 := s.readDescs q.ctx [t.word.imm % 2 ^ 16]
      let e := (s0.groupErr c t err).1
      let stops := (s0.groupErr c t err).2
      (∀ x, s.narrowTarget c q.ctx t o = .error x →
        exec (.narrowStore c f err) s = .next (s.guarded ((s0.entryError c x 0).issued c f (t.group.goto on)))) ∧
      (∀ d, s.narrowTarget c q.ctx t o = .ok d →
        let first := d.rankStride * s.coreRank c + o
        let lo := if d.fmt = 4 ∨ d.fmt = 5 then d.base + first / 4 * 3 else d.byteOf first
        let es := (List.range 32).map fun l => (first + l, decF32 (t.group.rd t.launch.u t.word.dst l))
        let fits := s.inLs c lo (d.spanEnd (first + 31) - lo) = true ∧
          (isNarrow d.fmt = true → s.inLs c (d.scaleSpan first (first + 31)).1 (d.scaleSpan first (first + 31)).2 = true)
        (fits → stops = true → exec (.narrowStore c f err) s = .next (s.guarded e)) ∧
        (fits → stops = false →
          (isNarrow d.fmt = true →
            exec (.narrowStore c f err) s = .next (s.guarded ((e.narrowUnit c q.ctx d es).issued c f (t.group.goto on)))) ∧
          (isNarrow d.fmt = false → exec (.narrowStore c f err) s = .next (s.guarded
            ((es.foldl (fun (u : State) x => u.setElem c q.ctx d x.1 (encWide d.fmt x.2)) e).issued c f (t.group.goto on))))) ∧
        (¬fits → exec (.narrowStore c f err) s = .next (s.guarded (s0.groupFault c t 0x3013)))))

/-- R213, R214, R215, R220 to R222, R234: BRA, BRX, EXIT, BAR, BARRIER_STALL. A branch that keeps the group together moves it; one that divides
it runs the taken lanes first and counts a divergence, and faults the context with GE_DIVERGE_DEPTH where its stack is full. A BRX whose lane
has a target that starts no instruction faults the context at that lane. A BAR parks its lanes and counts them as arrived, an EXIT ends
them; with its last lanes the group leaves the core. A barrier phase that lanes have entered faults the context with BARRIER_STALL at its
limit, and goes on below it. An uncorrectable error met in the frame or the group's state faults the context with GE_FRAME_PARITY. -/
def Obligations.ThreadControl : Prop :=
  ∀ (s : State) (c f : Nat),
    (∀ t, s.thread c f = some t →
    let g := t.group
    let m := g.guarded t.word
    let killed : State := (s.modCore c fun k => { k with faulty := true }).groupFault c t 0x3016
    ((t.word.op = 0x60 → exec (.bra c f true) s = .next killed) ∧ (t.word.op = 0x61 → exec (.brx c f true) s = .next killed) ∧
      (t.word.op = 0x62 → exec (.exit c f true) s = .next killed) ∧ (t.word.op = 0x63 → exec (.bar c f true) s = .next killed)) ∧
    (t.word.op = 0x60 → m = g.active → exec (.bra c f false) s = .next (s.issued c f (g.goto (braTarget g.pos t.word).toNat))) ∧
    (t.word.op = 0x60 → m = 0 → exec (.bra c f false) s = .next (s.issued c f (g.goto (g.pos + 8)))) ∧
    (t.word.op = 0x60 → m ≠ 0 → g.active &&& ~~~m ≠ 0 → g.stack.length < 32 → exec (.bra c f false) s = .next ((s.issued c f
      (g.split (postDom t.prog g.pos) [((braTarget g.pos t.word).toNat, m), (g.pos + 8, g.active &&& ~~~m)]).settled).bump
        (offGe c 0x30) 1)) ∧
    (t.word.op = 0x60 → m ≠ 0 → g.active &&& ~~~m ≠ 0 → 32 ≤ g.stack.length → exec (.bra c f false) s = .next (s.groupFault c t 0x3012)) ∧
    (t.word.op = 0x61 →
      let tg := (lanesOf g.active).map fun l => (l, if m.getLsbD l then (g.rd t.launch.u t.word.a l).toNat else g.pos + 8)
      ((tg.find? fun e => m.getLsbD e.1 && !((starts t.prog).contains e.2)) = none →
        exec (.brx c f false) s = .next (s.branch c f t (brxPaths tg))) ∧
      (∀ e, (tg.find? fun e => m.getLsbD e.1 && !((starts t.prog).contains e.2)) = some e →
        exec (.brx c f false) s = .next (s.threadFault c t 0x3015 e.1))) ∧
    (t.word.op = 0x63 → exec (.bar c f false) s = .next
      (((s.issued c f (if m = 0 then g else g.park m).onward).modBlock c g.block fun b => { b with arrived := b.arrived + (lanesOf m).length }).barrier
        c g.block)) ∧
    (t.word.op = 0x62 →
      let h := { g with active := g.active &&& ~~~m, exited := g.exited ||| m }
      let s1 := (s.issued c f h.onward).modBlock c g.block fun b => { b with exited := b.exited + (lanesOf m).length }
      (h.exited ≠ BitVec.allOnes 32 → exec (.exit c f false) s = .next (s1.barrier c g.block)) ∧
      (h.exited = BitVec.allOnes 32 → exec (.exit c f false) s = .next ((s1.barrier c g.block).leave c f g.block)))) ∧
    (∀ blk b l x, look (s.groupEngine c).blocks blk = some b → look (s.groupEngine c).launches b.slot = some l →
      s.coreCtx c = some x →
      (b.arrived ≠ 0 → 2 ^ l.barLog2 ≤ b.ticks → ∃ u, exec (.barrierStall c blk) s = .next u ∧
        (u.ctx x).map (fun y => (y.state, y.cause)) = some (.teardown, 0x3010) ∧ bit (u.reg (offGe c 8)) 22 = true) ∧
      (b.arrived = 0 ∨ b.ticks < 2 ^ l.barLog2 → exec (.barrierStall c blk) s = .next s))

/-- R188 to R190, R223 to R226, R234: MR_BEGIN, MR_END, MX. A region opens with the lowest active lane as its issuer and closes with the same
lanes active; at an MX or an MR_END with other lanes active the context faults with MATRIX_DIVERGED. The issuer lane's MX enters the port
and is counted, the others' does nothing; at a port of 16 the group stays and the wait is counted; once the tensor engine has taken END, the
context faults with MX_UNACCEPTED. An uncorrectable error met in the frame or the group's state faults it with GE_FRAME_PARITY. -/
def Obligations.MatrixRegions : Prop :=
  ∀ (s : State) (c f : Nat) (t : Thread), s.thread c f = some t →
    let g := t.group
    let killed : State := (s.modCore c fun k => { k with faulty := true }).groupFault c t 0x3016
    ((t.word.op = 0x64 → exec (.mrBegin c f true) s = .next killed) ∧ (t.word.op = 0x65 → exec (.mrEnd c f true) s = .next killed) ∧
      (t.word.op = 0x66 → exec (.mx c f true) s = .next killed)) ∧
    (t.word.op = 0x64 → exec (.mrBegin c f false) s = .next
      (s.issued c f (({ g with region := some (((lanesOf g.active).head?).getD 0, g.active) }).goto (g.pos + 8)))) ∧
    (t.word.op = 0x65 → g.sameLanes = true → exec (.mrEnd c f false) s = .next (s.issued c f (({ g with region := none }).goto (g.pos + 8)))) ∧
    (t.word.op = 0x65 → g.sameLanes = false → exec (.mrEnd c f false) s = .next ((s.setBit (offGe c 8) 23).groupFault c t 0x3011)) ∧
    (t.word.op = 0x66 → g.sameLanes = false → exec (.mx c f false) s = .next ((s.setBit (offGe c 8) 23).groupFault c t 0x3011)) ∧
    (∀ lane lanes i, t.word.op = 0x66 → g.region = some (lane, lanes) → g.active = lanes →
      mxFields t.prog g.pos t.word = some i →
      ((g.guarded t.word).getLsbD lane = true → 16 ≤ t.ge.port.length → exec (.mx c f false) s = .next (s.bump (offGe c 0x48) 1)) ∧
      ((g.guarded t.word).getLsbD lane = true → t.ge.port.length < 16 → Engine.te ∈ (s.core c).ended →
        exec (.mx c f false) s = .next (s.groupFault c t 0x9040)) ∧
      ((g.guarded t.word).getLsbD lane = true → t.ge.port.length < 16 → Engine.te ∉ (s.core c).ended → ∃ u, exec (.mx c f false) s = .next u ∧
        (u.groupEngine c).port = t.ge.port ++ [i] ∧
        look (u.groupEngine c).groups f = some { g.goto (g.pos + 32) with last := (s.groupEngine c).clock + 1 } ∧
        (∀ f', f' ≠ f → look (u.groupEngine c).groups f' = look (s.groupEngine c).groups f') ∧
        u.regs = ((s.bump (offGe c 0x28) 1).bump (offGe c 0x40) 1).regs ∧ u.cores = s.cores ∧ u.mem = s.mem) ∧
      ((g.guarded t.word).getLsbD lane = false → exec (.mx c f false) s = .next (s.issued c f (g.goto (g.pos + 32)))))

/-! ### The move engine (10, 13, 08, 11) -/

/-- R143, R202, R287, R289 to R291, R319, R390, R392: COPY and COPY_REMOTE. A copy whose descriptors and ranges pass their checks starts a
transfer in the free slot, which moves its data when its reads have arrived; a check that fails ends the entry with its code; an
uncorrectable error that the checks of core memory report as it is taken stops it. A remote copy of this device (kind 0) is taken like a
copy; one to another node asks for the descriptor of its target; in the tray grade one outside the tray reaches an absent unit.
R242, R298, R301, R302, R315: HINT prefetch, pin, unpin, dead. With the range mapped, a prefetch reads the lines that are absent
unless the policy is NO_ALLOC; a pin, whose result field may be written, takes the staged pin cap of each partition of its range where no
pin HINT of that partition is in progress, and pins each line within the cap and 12 ways of its set; an unpin clears the lines' pins; a
dead hint invalidates each line wholly inside its range. Each ends in a transfer that has moved its data. A range that fails its checks
ends the entry with its code. A command whose writes must wait for version pages waits whole (`State.guarded`). -/
def Obligations.CopiesAndHintsAct : Prop :=
  (∀ (s : State) (c x slot : Nat) (i : Insn) (err : CoreErr), MoveReady s c i x slot → let t := s.take c .me
     (∀ src dst mx, i = .copy src dst mx →
       (∀ sd dd sc, t.planCopy c x src dst mx = .ok (sd :: dd :: sc) →
         let f (u : State) : State := (u.startXfer c x slot .copy i (sd :: dd :: sc) (u.copyTodo c x mx sd sc)).settleXfer c slot
         (err = .none → exec (.copy c err) s = .next (s.guarded (f t))) ∧
         exec (.copy c err) s = .next (s.guarded (t.withErr c slot err f))) ∧
       (∀ e, t.planCopy c x src dst mx = .error e → exec (.copy c err) s = .next (s.guarded (t.failEntry c e)))) ∧
     (∀ src dst rank sl node kind ch tok flag h, i = .copyRemote src dst rank sl node kind ch tok flag h →
       let own (u : State) : State := (u.takeOwn c x slot i src dst rank).settleXfer c slot
       let far (u : State) : State := u.takeRemote c x slot i src dst rank
       (kind = 0 → exec (.copyRemote c err) s = .next (s.guarded (t.withErr c slot err own)) ∧
         exec (.copyRemote c .none) s = .next (s.guarded (own t))) ∧
       (kind = 1 ∨ kind = 2 ∧ t.ident.grade = .full → exec (.copyRemote c err) s = .next (s.guarded (t.withErr c slot err far)) ∧
         exec (.copyRemote c .none) s = .next (s.guarded (far t))) ∧
       (kind = 2 → t.ident.grade = .tray →
         exec (.copyRemote c err) s = .next (s.guarded ((t.bump (offLr 0x30) 1).failEntry c 0x9010))))) ∧
  (∀ (s : State) (c x slot h k : Nat), MoveReady s c (.hint h k) x slot → let t := s.take c .me
     (∀ e, t.hintLines c x h = .error e →
       (k = 0 → exec (.hintPrefetch c) s = .next (t.failEntry c e)) ∧ (k = 1 → exec (.hintPin c) s = .next (s.guarded (t.failEntry c e))) ∧
       (k = 2 → exec (.hintUnpin c) s = .next (t.failEntry c e)) ∧ (k = 3 → exec (.hintDead c) s = .next (t.failEntry c e))) ∧
     (∀ d l, t.hintLines c x h = .ok (d, l) →
       (k = 0 → exec (.hintPrefetch c) s = .next ((t.startXfer c x slot .hint (.hint h k) [d]
         (if d.policy = 2 then [] else t.fetchLines (if d.policy = 1 then 1 else 0) l)).moved c slot)) ∧
       (∀ e, k = 1 → d.statsOff ≠ 0 → t.vaCheck c x d.statsBase 8 false true = some e →
         exec (.hintPin c) s = .next (s.guarded (t.failEntry c e))) ∧
       (k = 1 → (d.statsOff ≠ 0 → t.vaCheck c x d.statsBase 8 false true = none) →
         let t1 := (l.foldl (fun ps e => addNew ps e.1) []).foldl (fun (u : State) p =>
           if u.pinIdle p then u.adopt (offMcPart p 0) 0 2 else u) t
         let r := l.foldl (fun (u : State × List Todo) e => u.1.pinLine u.2 e) (t1, [])
         exec (.hintPin c) s = .next (s.guarded ((r.1.startXfer c x slot .hint (.hint h k) [d] r.2).moved c slot))) ∧
       (k = 2 → exec (.hintUnpin c) s = .next
         (((t.modLines fun tab => l.foldl (fun w e => upd w e.2.1 fun y => { y with pinned := false }) tab).startXfer
           c x slot .hint (.hint h k) [d] []).moved c slot)) ∧
       (k = 3 → exec (.hintDead c) s = .next
         ((((l.filter fun e => e.2.2.1 == 0 && e.2.2.2 == 128).foldl (fun u e => u.deadLine e.1 e.2.1) t).startXfer
           c x slot .hint (.hint h k) [d] []).moved c slot))))

/-- R313, R395, R397, R398, R393, R389, R341, R238: REDUCE_SCATTER, ALL_GATHER, ALL_REDUCE, FINITENESS_VOTE, UPDATE, TRIGGER, ATOMIC,
HOST_PUT, taken into a slot. An ATOMIC writes the result of its operation on the u64 at its target, which it reads there, and its core's
private copy of the line is dropped; a HOST_PUT reads its source; a TRIGGER sends its request; one of the three that fails a check ends with
its code. A COLL and an UPDATE are taken with the instance they join, each as its own operation says.
R134, R289: an entry of the move engine that needs a transfer slot is held while none is free, and the wait is counted. -/
def Obligations.MoveEntriesStartOrWait : Prop :=
  (∀ (s : State) (c x slot : Nat) (i : Insn) (err : CoreErr), MoveReady s c i x slot → let t := s.take c .me
     (∀ src dst kind scope id, i = .coll src dst kind scope id →
       let coll (u : State) : State := (u.takeColl c x slot i src dst kind scope id).settleXfer c slot
       let all := s.guarded (t.withErr c slot err coll)
       (err = .none → all = s.guarded (coll t)) ∧
       (kind = 0 → exec (.reduceScatter c err) s = .next all) ∧ (kind = 1 → exec (.allGather c err) s = .next all) ∧
       (kind = 2 → exec (.allReduce c err) s = .next all) ∧
       (kind = 3 → exec (.finitenessVote c) s = .next ((t.takeColl c x slot i src dst 3 scope id).settleXfer c slot))) ∧
     (∀ rule master grad mask rows vote, i = .update rule master grad mask rows vote →
       exec (.update c) s = .next (s.guarded (t.takeUpdate c x slot i rule master grad mask rows vote))) ∧
     (∀ sl proc arg, i = .trigger sl proc arg →
       (∀ e, t.senderJob x true = .error e → exec (.trigger c) s = .next (t.failEntry c e)) ∧
       (∀ j e, t.senderJob x true = .ok j → t.unreachable (i.node t.pins.strapTray) = some e →
         exec (.trigger c) s = .next (t.failEntry c e)) ∧
       (∀ j, t.senderJob x true = .ok j → t.unreachable (i.node t.pins.strapTray) = none →
         exec (.trigger c) s = .next (((t.startXfer c x slot .trigger i [] []).moved c slot).sendFor c slot
           ⟨i.node t.pins.strapTray, .trigger, some (c, slot), x, none, t.jobId x, proc, leBytes 4 arg, 0, false, 0, none⟩))) ∧
     (∀ h op v, i = .atomic h op v →
       (∀ e, t.atomicTarget c x h = .error e → exec (.atomic c) s = .next (s.guarded (t.failEntry c e))) ∧
       (∀ l, t.atomicTarget c x h = .ok l → let t0 := t.fetchPieces x l
         (t0.badPieces l = true → exec (.atomic c) s = .next (s.guarded (t0.failEntry c 0x4003))) ∧
         (t0.badPieces l = false → exec (.atomic c) s = .next (s.guarded
           ((((((t0.writePieces 0 l (leBytes 8 (atomicOp op 64 (leNat (t0.seePieces l)) v))).privDrop c (pieceLines l)).bump
             (offMe c 0x20) 1).bump (offMe c 0x18) 8).startXfer c x slot .atomic i [] []).moved c slot))))) ∧
     (∀ src cq, i = .hostPut src cq →
       (∀ e, t.putFault x cq = some e → exec (.hostPut c err) s = .next (t.failEntry c e)) ∧
       (∀ e, t.putFault x cq = none → t.desc x src false = .error e → exec (.hostPut c err) s = .next (t.failEntry c e)) ∧
       (∀ d, t.putFault x cq = none → t.desc x src false = .ok d → let g := d.range (t.coreRank c)
         let put (u : State) : State := (u.startXfer c x slot .hostPut i [d] (u.readTodo c x d.policy [g])).settleXfer c slot
         (∀ e, t.vaCheck c x g.1 g.2 true false = some e → exec (.hostPut c err) s = .next (t.failEntry c e)) ∧
         (t.vaCheck c x g.1 g.2 true false = none → exec (.hostPut c err) s = .next (t.withErr c slot err put) ∧
           exec (.hostPut c .none) s = .next (put t))))) ∧
  (∀ (s : State) (c x k : Nat) (i : Insn) (err : CoreErr), s.headOf c .me = some (.body i k) → s.coreCtx c = some x → s.freeSlot c = none →
     let held := Host.Outcome.next (s.bump (offMe c 0x28) 1)
     (∀ a b m, i = .copy a b m → exec (.copy c err) s = held) ∧
     (∀ a b r l n o ch tok f h, i = .copyRemote a b r l n o ch tok f h → exec (.copyRemote c err) s = held) ∧
     (∀ h, i = .hint h 0 → exec (.hintPrefetch c) s = held) ∧ (∀ h, i = .hint h 1 → exec (.hintPin c) s = held) ∧
     (∀ h, i = .hint h 2 → exec (.hintUnpin c) s = held) ∧ (∀ h, i = .hint h 3 → exec (.hintDead c) s = held) ∧
     (∀ a b d e, i = .coll a b 0 d e → exec (.reduceScatter c err) s = held) ∧ (∀ a b d e, i = .coll a b 1 d e → exec (.allGather c err) s = held) ∧
     (∀ a b d e, i = .coll a b 2 d e → exec (.allReduce c err) s = held) ∧ (∀ a b d e, i = .coll a b 3 d e → exec (.finitenessVote c) s = held) ∧
     (∀ r m g a w v, i = .update r m g a w v → exec (.update c) s = held) ∧ (∀ a b d, i = .trigger a b d → exec (.trigger c) s = held) ∧
     (∀ a o b, i = .atomic a o b → exec (.atomic c) s = held) ∧ (∀ a b, i = .hostPut a b → exec (.hostPut c err) s = held))

/-- R143, R144, R197, R289, R364, R367, R394: FENCE and TRANSFER_COMPLETE. A FENCE waits for the engine's earlier work, then signals a
fence its context may signal, whose failure on the way to another device goes to the launch's fence; else it ends with FENCE_ACCESS. A transfer that waits for nothing, and carries no remote token still to send,
frees its slot; one that still waits goes on. A token goes out when the engine's earlier work has ended: delivered on this device, where it
fails with FAB_NO_TARGET where it names no target, or sent to its node. -/
def Obligations.FencesAndTransfersEnd : Prop :=
  ∀ (s : State) (c x : Nat), s.coreCtx c = some x →
    (∀ id v k, s.headOf c .me = some (.body (.fence id v) k) →
      ((∃ w ∈ (s.core c).work, w.1 = .me) → exec (.fence c) s = .next s) ∧
      ((∀ w ∈ (s.core c).work, w.1 ≠ .me) →
        ((s.take c .me).maySignal x id = true →
          exec (.fence c) s = .next ((s.take c .me).signalFor id v ((s.take c .me).launchFence c))) ∧
        ((s.take c .me).maySignal x id = false → exec (.fence c) s = .next ((s.take c .me).failEntry c 0x6004)))) ∧
    (∀ slot v, s.xfer c slot = some v →
      (v.quiet = false → exec (.transferComplete c slot) s = .next s) ∧
      (v.quiet = true → v.tokenDue = none → exec (.transferComplete c slot) s = .next (s.guarded (s.endXfer c slot x v))) ∧
      (∀ rank ch kind, v.quiet = true → v.tokenDue = some (rank, ch, kind) →
        ((∃ w ∈ (s.core c).work, w.1 = .me ∧ w.2 < v.work) → exec (.transferComplete c slot) s = .next s) ∧
        ((∀ w ∈ (s.core c).work, w.1 = .me → v.work ≤ w.2) →
          let s0 := s.modXfer c slot fun y => { y with tokenSent := true }
          let r := s0.deliverToken x rank ch
          (kind = 0 → r.2 = true → exec (.transferComplete c slot) s = .next (s.guarded (r.1.endXfer c slot x v))) ∧
          (kind = 0 → r.2 = false → exec (.transferComplete c slot) s =
            .next (s.guarded ((r.1.xferError c slot 0x7003).endXfer c slot x v))) ∧
          (kind ≠ 0 → exec (.transferComplete c slot) s = .next (s.guarded (s0.sendFor c slot
            ⟨v.insn.node s.pins.strapTray, .token, some (c, slot), x, none, s.jobId x, tokenAddr rank ch, [], 0, false, 0, none⟩))))))

/-! ### Collectives, votes and updates (08, 13) -/

/-- R257, R258, R397, R398, R432, R433, R439: COLL_COMPLETE and VOTE_OUTCOME. A full instance that is no vote writes its result at every
local participant and ends. A full vote of a job without protection raises the attempt counter by 1, raises the step counter by 1 where every
flag was finite, writes the vote record with both new values, clears the job's flag, records the instance's outcome and ends it. A full vote
of a protected job applies the seal rules first: with a step open or a seal to close it starts that close, and while an earlier close runs it
waits; else it moves the counters. An instance that is not full goes on waiting. A COLL_COMPLETE whose writes must wait for version pages
waits whole (`State.guarded`). -/
def Obligations.CollectivesAndVotesEnd : Prop :=
  ∀ (s : State) (i : Nat) (k : Coll), look s.fab.colls i = some k →
    (k.full = false → exec (.collComplete i) s = .next s ∧ exec (.voteOutcome i) s = .next s) ∧
    (k.kind ≠ 3 → k.full = true →
      let s1 := k.locals.foldl (fun t l => t.writeResult k l) (s.flagJob k.entry (k.meetsNonfinite s.node))
      ∃ t, exec (.collComplete i) s = .next (s.guarded t) ∧ look t.fab.colls i = none ∧
        t.mem = (s1.leaveColl k).mem ∧ t.cache = (s1.leaveColl k).cache ∧ t.cores = (s1.leaveColl k).cores) ∧
    (∀ j, k.kind = 3 → k.full = true → s.prot k.entry = none → look s.objs.jobs k.entry = some j →
      let pass := !(k.inOrder.any fun m => m.nonfinite)
      let step := if pass then (j.step + 1) % 2 ^ 64 else j.step
      ∃ t, exec (.voteOutcome i) s = .next t ∧
        look t.objs.jobs k.entry = some { j with
          attempt := (j.attempt + 1) % 2 ^ 64, step := step, vote := some ⟨pass, (j.attempt + 1) % 2 ^ 64, step⟩, nonfinite := false,
          lastLost := false } ∧
        look t.uu.votes i = some (some ⟨pass, (j.attempt + 1) % 2 ^ 64, step⟩) ∧ look t.fab.colls i = none ∧
        (∀ u v, look s.uu.updates u = some v → v.inst = i → v.outcome = none → v.lost = false →
          (look t.uu.updates u).map (·.outcome) = some (some ⟨pass, (j.attempt + 1) % 2 ^ 64, step⟩)) ∧
        (∀ e, e ≠ k.entry → look t.objs.jobs e = look s.objs.jobs e) ∧ t.objs.ctxs = s.objs.ctxs ∧ t.objs.fences = s.objs.fences ∧
        t.seqs = s.seqs) ∧
    (∀ p, k.kind = 3 → k.full = true → s.prot k.entry = some p →
      (p.closing ≠ none → exec (.voteOutcome i) s = .next s) ∧
      (p.closing = none →
        let pass := !(k.inOrder.any fun m => m.nonfinite)
        let r := (s.adopt (offDk 0x810) 0 64).sealRules k.entry p pass (k.inOrder.any fun m => m.sealReq) (k.inOrder.any fun m => m.sealOpen)
          (k.inOrder.any fun m => m.sealVoid)
        let p1 := lookD r.1.surv.prots k.entry p
        (p1.stepOpen = true ∨ r.2 = true → exec (.voteOutcome i) s =
          .next (r.1.setProt k.entry { p1 with closing := some ⟨i, pass, r.2, .step⟩ })) ∧
        (p1.stepOpen = false → r.2 = false → exec (.voteOutcome i) s = .next (r.1.voteSteps i k.entry pass false))))

/-- R244 to R256, R259, R261, R266, R269, R272, R307: UPDATE_BLOCK_COMMIT, RULE3_COMBINE and UPDATE_COMPLETE. With the bound vote's outcome a
unit commits the next of its blocks: after a passed vote by the rule, after a failed one its working copy alone; what the check code reports
of a half that the block reads is counted or marks the half first; an error of the unit's pipelines or buffers kills the context; and the unit
takes its staged rate where it holds no block any longer. Rule 3 waits for its combination between its two passes. An UPDATE with no block
left writes its record and ends, with UU_BLOCK_GUARD where blocks were guarded; one whose vote was lost writes its failure record and ends.
Before its vote, or while it is held, an UPDATE commits nothing; a unit whose die does not serve has it woken and commits nothing until it
serves (R474, R477). A command whose writes must wait for version pages waits whole (`State.guarded`). -/
def Obligations.UpdatesCommit : Prop :=
  ∀ (s : State) (u : Nat) (k : Upd) (err : UnitErr), look s.uu.updates u = some k → s.live k.ctx = true →
    let reported (md : Desc) (j : Nat) (t : State) : State := match err with
      | .hbm h e => if h ∈ t.hbmHalves k.ctx (k.spans md j [8, 0, 1, 2, 3, 7]) then t.eccHalf h e else t
      | _ => t
    (∀ unit, k.outcome = none ∨ k.lost = true ∨ k.held = true → exec (.updateBlockCommit u unit err) s = .next s) ∧
    (∀ unit rec md j rest, k.outcome = some rec → k.ten 0 = some md → lookD k.left unit [] = j :: rest → k.lost = false → k.held = false →
      let s1 := s.modUpd u fun y => { y with left := put y.left unit rest }
      ((rec.pass = true → leAt k.rule 0 1 = 3 → k.secondPass = true) →
        (s.dieServes (unit / 2) = false → exec (.updateBlockCommit u unit err) s = .next (s.guarded (s.reachDie (unit / 2)))) ∧
        (s.dieServes (unit / 2) = true →
          (err = .parity → exec (.updateBlockCommit u unit err) s = .next (s.guarded (s.faultCtx k.ctx 0x5010 0))) ∧
          (rec.pass = true → err ≠ .parity → exec (.updateBlockCommit u unit err) s =
            .next (s.guarded ((s1.underMaps k.ctx k.maps fun t => (reported md j t).passBlock u unit k md j rec.t).adoptRate unit))) ∧
          (rec.pass = false → err ≠ .parity → exec (.updateBlockCommit u unit err) s =
            .next (s.guarded ((s1.underMaps k.ctx k.maps fun t => (reported md j t).skipBlock u unit k md j).adoptRate unit))))) ∧
      (rec.pass = true → leAt k.rule 0 1 = 3 → k.secondPass = false → exec (.updateBlockCommit u unit err) s = .next s)) ∧
    (∀ rec md rd cd sd, k.outcome = some rec → rec.pass = true → leAt k.rule 0 1 = 3 → k.secondPass = false → k.lost = false →
      k.held = false → k.ten 0 = some md → k.ten 3 = some rd → k.ten 4 = some cd → k.ten 5 = some sd →
      (∀ parity, (List.range dieCount).all s.dieServes = false →
        exec (.rule3Combine u parity) s = .next (s.guarded ((List.range dieCount).foldl State.reachDie s))) ∧
      ((List.range dieCount).all s.dieServes = true →
        exec (.rule3Combine u true) s = .next (s.guarded (s.faultCtx k.ctx 0x5010 0)) ∧
        exec (.rule3Combine u false) s = .next (s.guarded (s.underMaps k.ctx k.maps fun t => t.combine u k md rd cd sd)))) ∧
    (k.lost = true → exec (.updateComplete u) s =
      .next (s.guarded ((s.underMaps k.ctx k.maps fun t => t.failRecord k.core k.ctx k.base k.err).endUpd u k))) ∧
    (k.lost = false → k.outcome = none ∨ k.held = true ∨ (∃ e ∈ k.left, e.2 ≠ []) → exec (.updateComplete u) s = .next s) ∧
    (∀ rec l, k.lost = false → k.outcome = some rec → k.held = false → (∀ e ∈ k.left, e.2 = []) →
      (s.modCtx k.ctx fun c => { c with maps := k.maps }).translate k.ctx (k.base + 0x40) 64 false false = .ok l →
      let s1 := s.underMaps k.ctx k.maps fun t => t.writePieces 0 l (k.record rec (t.seePieces l))
      (k.guarded = 0 → exec (.updateComplete u) s = .next (s.guarded (s1.endUpd u k))) ∧
      (k.guarded ≠ 0 → exec (.updateComplete u) s = .next (s.guarded
        (((s1.raise 0x5802 (leBytes 2 k.ctx ++ leBytes 2 k.ruleHandle ++ leBytes 8 k.guarded)).xferError k.core k.slot 0x5007).endUpd u k))))

/-! ### Memory (10) -/

/-- R295, R296, R307, R308, R316, R445, R474, R477: LINE_FILL and COW_PAGE_WAIT_EXPIRY. A fill counts the bytes it reads and what the check code reports of
either half, and serves its reader with its line installed; one with an uncorrectable half, or a half known bad, installs nothing and is
counted; an error of the slice's SRAM takes its own effect first. Nothing returns while the controller's or the slice's die does not serve.
A copy-on-write wait that expires costs the settled seal its versions; where a page has come free meanwhile the write waits no longer.
R311: WIPE_COMPLETE. When the wipe of a freed object is complete, every byte of its pages reads 0 in memory, its other bytes are as
they were, and the object is gone; when the wipe of a core is, every byte of its core memory reads 0 and the core's local store is its
new constellation's. -/
def Obligations.FillsWaitsAndWipes : Prop :=
  (∀ (s : State),
     (∀ i m lo hi slice, look s.cache.misses i = some m →
       let u := stackOf (m.line * 128)
       let s0 := { s with cache := { s.cache with misses := del s.cache.misses i } }
       let s1 := match slice with | some e => s0.sliceErr e | none => s0
       let s2 := ((s1.hbmBytesMoved u 128 0).eccHalf (2 * m.line) lo).eccHalf (2 * m.line + 1) hi
       let serving := m.held.isNone && s.dieServes (u / 2) && s.dieServes ((s.placeOf m.part m.line).1 / 32)
       (serving = false → exec (.lineFill i lo hi slice) s = .next s) ∧
       (lo = .uncorrectable ∨ hi = .uncorrectable → s2.badLine m.line = true) ∧
       (serving = true →
         (s2.badLine m.line = false → exec (.lineFill i lo hi slice) s = .next (s.guarded ((s2.fillLine m).serve i m false))) ∧
         (s2.badLine m.line = true → exec (.lineFill i lo hi slice) s =
           .next (s.guarded (((s2.countUe u).unplace m.line).serve i m true))))) ∧
     (∀ e page p x, look s.surv.prots e = some p → p.settled = some x → page ∈ p.cowWaits →
       (s.roomCame p page = true → exec (.cowPageWaitExpiry e page) s =
         .next (s.setProt e { p with cowWaits := p.cowWaits.filter fun g => g != page })) ∧
       (s.roomCame p page = false → ∃ t, exec (.cowPageWaitExpiry e page) s = .next t ∧
         look t.surv.prots e = some { p with cowWaits := [], settled := some { x with versions := [], intact := false } } ∧
         t.recd.intake = s.recd.intake ++ [s.eventNow 0x7814 (leBytes 2 p.job ++ leBytes 4 x.generation)] ∧
         t.mem = s.mem ∧ t.cache = s.cache ∧ t.regs = s.regs ∧ t.objs = s.objs))) ∧
  (∀ (s : State) (w : Nat), MemCanonical s →
     (∀ i o, look s.hbm.wipes w = some (.pages i) → look s.objs.mems i = some o → ∃ t, exec (.wipeComplete w) s = .next t ∧
       look t.objs.mems i = none ∧ (∀ a ∈ o.pages, ∀ n, n < pageBytes o.pageSize → cellGet t.mem (a + n) = 0) ∧
       (∀ b, (∀ a ∈ o.pages, b < a ∨ a + pageBytes o.pageSize ≤ b) → cellGet t.mem b = cellGet s.mem b) ∧
       look t.hbm.wipes w = none ∧ MemCanonical t) ∧
     (∀ c, look s.hbm.wipes w = some (.core c) → ∃ t, exec (.wipeComplete w) s = .next t ∧
       (∀ n, n < 0x80_0000 → cellGet t.mem (coreMem c + n) = 0) ∧
       (∀ b, (b < coreMem c ∨ coreMem c + 0x80_0000 ≤ b) → cellGet t.mem b = cellGet s.mem b) ∧
       (t.core c).lsHeld = (s.coreSeq c).map (fun q => q.2.ctx) ∧ look t.hbm.wipes w = none ∧ MemCanonical t))

/-- R309, R310, R316, R317: SCRUB_PASS, ROW_REMAP_DONE, EVAC_GO, EVAC_COPY_DONE, PC_RETRAIN_DONE, EVAC_COPY_BACK_DONE. A scrub pass counts
its interval's findings afresh and the bytes it read; a remapped row takes the slot's next spare row, and with none left the stack's soft repair, or in SERVICE its hard repair, takes it; an evacuation goes through copying, retraining and copying
back, is refused with two slots out, and a slot that fails to retrain is retired. -/
def Obligations.ScrubsAndEvacuations : Prop :=
  ∀ (s : State) (u k : Nat),
    (∀ fs, 32 ≤ u ∨ s.alive = false ∨ s.dieServes (u / 2) = false → exec (.scrubPass u fs) s = .next s) ∧
    (∀ fs, u < 32 → s.alive = true → s.dieServes (u / 2) = true →
      let s1 := s.adopt (offHc u 0) 0 12
      let s2 := { s1 with hbm := { s1.hbm with rowErr := s1.hbm.rowErr.filter fun e => e.1 / 2 ^ 24 / 32 != u } }
      exec (.scrubPass u fs) s = .next
        (((fs.foldl (fun t f => t.scrubFinding u (s1.rowThresh u) f) s2).bump (offHc u 0x30) 1).hbmBytesMoved u
          (s2.scrubBytes u) 0)) ∧
    (∀ row, rowOf u k row ∈ s.hbm.remapping → lookD s.hbm.spareUsed (u * 32 + k) 0 < spareRows →
      ∃ t, exec (.rowRemapDone u k row) s = .next t ∧
        look t.hbm.rowMap (rowOf u k row) = some (lookD s.hbm.spareUsed (u * 32 + k) 0) ∧
        look t.hbm.spareUsed (u * 32 + k) = some (lookD s.hbm.spareUsed (u * 32 + k) 0 + 1) ∧ rowOf u k row ∉ t.hbm.remapping ∧
        t.recd.intake = s.recd.intake ++ [s.eventNow 0x4801 (leBytes 1 u ++ leBytes 1 k ++ leBytes 4 row)] ∧ t.mem = s.mem ∧
        t.regs = (s.hbmBytesMoved u 1024 1024).regs) ∧
    (∀ row, rowOf u k row ∈ s.hbm.remapping → spareRows ≤ lookD s.hbm.spareUsed (u * 32 + k) 0 →
      let h := { s.hbm with remapping := drop1 s.hbm.remapping (rowOf u k row) }
      (s.sec.lc = .service → exec (.rowRemapDone u k row) s = .next { s with hbm := { h with hardRep := addNew h.hardRep (rowOf u k row) } }) ∧
      (s.sec.lc ≠ .service →
        exec (.rowRemapDone u k row) s = .next { s with hbm := { h with softRep := addNew h.softRep (rowOf u k row) } })) ∧
    (u < 32 → k < 32 → s.alive = true → look s.hbm.evac (u * 32 + k) = none → s.slotRetired u k = false →
      (s.slotsOut u < 2 → ∃ t, exec (.evacGo u k) s = .next t ∧ look t.hbm.evac (u * 32 + k) = some .copying ∧
        t.recd.intake = s.recd.intake ++ [s.eventNow 0x4802 (leBytes 1 u ++ leBytes 1 k)] ∧ t.mem = s.mem ∧ t.cache = s.cache) ∧
      (2 ≤ s.slotsOut u → exec (.evacGo u k) s = .next (s.raise 0x4803 (leBytes 1 u ++ leBytes 1 k ++ leBytes 1 1)))) ∧
    (look s.hbm.evac (u * 32 + k) = some .copying → exec (.evacCopyDone u k) s =
      .next ((s.setEvac u k .retraining).hbmBytesMoved u pcSlotBytes pcSlotBytes)) ∧
    (look s.hbm.evac (u * 32 + k) = some .retraining →
      exec (.pcRetrainDone u k true) s = .next (s.setEvac u k .copyingBack) ∧
      exec (.pcRetrainDone u k false) s = .next
        ((({ s with hbm := { s.hbm with evac := del s.hbm.evac (u * 32 + k) } }).setField (offHc u 0x10) (2 * k) 2 3).raise 0x4803
          (leBytes 1 u ++ leBytes 1 k ++ leBytes 1 0))) ∧
    (look s.hbm.evac (u * 32 + k) = some .copyingBack →
      exec (.evacCopyBackDone u k) s =
        .next ({ s with hbm := { s.hbm with evac := del s.hbm.evac (u * 32 + k) } }.hbmBytesMoved u pcSlotBytes pcSlotBytes))

/-! ### Command packets (11, 12, 06) -/

/-- R154, R334, R337, R338, R336, R366, R564: PACKET_ARRIVAL and PACKET_HEAD. A whole packet of a trusted context goes to the end of its
queue; at a full queue it is dropped, one that is not trusted or names no queue is rejected with an event; a port that is down, or bytes that
are no whole packet, change nothing. At the head of a queue that runs none, a packet whose wait is met, or that waits on nothing, starts to run
and is consumed, unless it may not run at all, when it fails with that code; one whose target is not reached waits; one whose wait fence is
in the error state fails; one that may not use its fences, or whose context is of another port, is consumed and logged, and its fence stays as
it is. -/
def Obligations.PacketsArriveAndStart : Prop :=
  ∀ (s : State) (port : Nat),
    (∀ bytes, 4 ≤ port ∨ (s.port port).up = false ∨ wholePacket bytes = false → exec (.packetArrival port bytes) s = .next s) ∧
    (∀ bytes, let r := parsePacket bytes
      port < 4 → (s.port port).up = true → wholePacket bytes = true → s.queue port r.queue = none →
      exec (.packetArrival port bytes) s = .next (s.rejectPacket port r)) ∧
    (∀ bytes k, let r := parsePacket bytes
      port < 4 → (s.port port).up = true → wholePacket bytes = true → s.queue port r.queue = some k →
      (s.packetTrusted port k r = true → k.packets.length < k.depth → exec (.packetArrival port bytes) s =
        .next ((s.setQueue port r.queue { k with packets := k.packets ++ [r] }).bump (offBl port 0x60) 1)) ∧
      (s.packetTrusted port k r = true → k.depth ≤ k.packets.length → exec (.packetArrival port bytes) s =
        .next (s.dropPacket port k r)) ∧
      (s.packetTrusted port k r = false → exec (.packetArrival port bytes) s = .next (s.rejectPacket port r))) ∧
    (∀ q k p rest, s.queue port q = some k → k.packets = p :: rest → k.running = none → q < 8192 →
      let x := packetCtx k p
      let key := port * 8192 + q
      let stranger := k.owner = none ∧ (p.fenceEn = true ∨ p.waitEn = true) ∧ s.ctxPort x ≠ some port
      let denied := p.fenceEn = true ∧ s.maySignal x p.fenceId = false
      let fails (code : Nat) (prop : Bool) (detail : Nat) : State :=
        (s.failHead key k code prop detail).1.wake (s.failHead key k code prop detail).2
      (k.headWaits = true → exec (.packetHead port q) s = .next s) ∧
      (k.headWaits = false → stranger → exec (.packetHead port q) s =
        .next ((s.consumeHead key k).log x 0x600B false false noFence 0 (p.opcode, q))) ∧
      (k.headWaits = false → ¬stranger → denied → exec (.packetHead port q) s =
        .next ((s.consumeHead key k).log x 0x6004 false false p.fenceId 0 (p.opcode, q))) ∧
      (k.headWaits = false → ¬stranger → ¬denied →
        (p.waitEn = false → s.packetBar port q p = none → exec (.packetHead port q) s = .next ((s.startHead key k).wake [])) ∧
        (∀ code, p.waitEn = false → s.packetBar port q p = some code → exec (.packetHead port q) s = .next (fails code false 0)) ∧
        (∀ f, p.waitEn = true → s.fence p.waitId = some f → f.mayWait x = true → f.err = 0 →
          (f.value.toNat < p.waitValue → exec (.packetHead port q) s = .next (s.setQueue port q { k with headWaits := true })) ∧
          (p.waitValue ≤ f.value.toNat → s.packetBar port q p = none → exec (.packetHead port q) s =
            .next ((s.startHead key k).wake [])) ∧
          (∀ code, p.waitValue ≤ f.value.toNat → s.packetBar port q p = some code → exec (.packetHead port q) s =
            .next (fails code false 0))) ∧
        (∀ f, p.waitEn = true → s.fence p.waitId = some f → f.mayWait x = true → f.err ≠ 0 →
          exec (.packetHead port q) s = .next (fails 0x6003 true (p.waitId + f.err * 2 ^ 32))) ∧
        (p.waitEn = true → s.mayWait x p.waitId = false → exec (.packetHead port q) s = .next (fails 0x6004 false 0))))

/-- R334, R335, R339, R350, R351, R564 steps 5 to 8: whatever the opcode, a packet that runs and fails a check of steps 5 to 8 fails with
that check's code and changes nothing else. (A WRITE is a command that may have to wait for version pages: `State.guarded`.) -/
def Obligations.PacketChecksFail : Prop :=
  ∀ (s : State) (port q code : Nat) (k : SubQueue) (p : Packet) (e : Nat × Instr),
    e ∈ [(0x00, Instr.pktNop port q), (0x01, .write port q), (0x02, .read port q), (0x10, .load port q), (0x11, .unload port q),
      (0x12, .pktLaunch port q), (0x18, .query port q), (0x20, .partCreate port q), (0x21, .partDestroy port q),
      (0x22, .contextCreate port q), (0x23, .contextKill port q), (0x24, .contextDestroy port q), (0x25, .contextQuery port q),
      (0x26, .contextPreempt port q), (0x27, .contextResume port q), (0x28, .jobCreate port q), (0x29, .jobJoin port q),
      (0x2A, .jobDestroy port q), (0x2B, .queueCreate port q), (0x2C, .queueDestroy port q), (0x2D, .memAlloc port q),
      (0x2E, .memFree port q), (0x2F, .memMap port q), (0x30, .memUnmap port q), (0x31, .memShare port q),
      (0x32, .descTableSet port q), (0x33, .fenceCreate port q), (0x34, .fenceDestroy port q), (0x35, .fenceShare port q),
      (0x36, .fenceImport port q), (0x37, .fenceReset port q), (0x38, .eventCreate port q), (0x39, .eventDestroy port q)] →
    s.runningPacket port q = some (k, p) → p.opcode = e.1 → s.packetFault port q (packetCtx k p) p = some code →
    let t := s.failPacket port q (packetCtx k p) code 0 p
    exec e.2 s = .next (if e.1 = 0x01 then s.guarded t else t)

/-- R335, R336, R291, R292, R340, R194, R205, R375: PKT_NOP, WRITE, READ, LOAD, UNLOAD, PKT_LAUNCH, QUERY, admitted with their own checks
passed. A NOP completes at once; a WRITE stores its payload; a READ gives its bytes in pieces of at most 16,384, waits while a die that holds
them does not serve, and fails where one of them reads uncorrectable; a LOAD joins the loader's
queue; an UNLOAD frees its image, or waits for its kernels; a LAUNCH binds its kernel to a sequencer and cores, each core as the member of its
rank, with the counters of its job, waits where only cores with a wipe outstanding would suffice, and fails where none would; a QUERY
answers with its part of the table. -/
def Obligations.DataPacketsComplete : Prop :=
  ∀ (s : State) (port q : Nat) (k : SubQueue) (p : Packet) (c : Ctx), let x := packetCtx k p
    (s.runningPacket port q = some (k, p) → p.opcode = 0 → s.packetFault port q x p = none →
      exec (.pktNop port q) s = .next (s.completePacket port q p)) ∧
    (∀ l, Admitted s port q 1 k p c → s.translate x p.arg0 p.payload.length false true = .ok l →
      exec (.write port q) s = .next (s.guarded ((s.writePieces 0 l p.payload).completePacket port q p))) ∧
    (∀ l, Admitted s port q 2 k p c → s.translate x p.arg0 p.arg1 true false = .ok l → s.ringOk port p = true →
      (s.served l = false → exec (.read port q) s = .next (s.reachPieces l)) ∧
      (s.served l = true → s.badPieces l = true → exec (.read port q) s =
        .next ((s.fetchPieces x l).failPacket port q x 0x4003 0 p)) ∧
      (s.served l = true → s.badPieces l = false →
      let f := if p.fenceEn then some (p.fenceId, p.fenceValue) else none
      let t := ((s.readPieces 0 x l none).1.endPacket port q).postRead port p.cq x p.arg0 (.packet f 2 q)
        (readPieces (p.arg1 / 16384 + 1) 0 (s.seePieces l))
      let t1 := { t.1 with host := { t.1.host with nextXid := t.1.host.nextXid + 1 } }
      (t.2 = false → exec (.read port q) s = .next t1) ∧
      (t.2 = true → p.fenceEn = true → exec (.read port q) s = .next (t1.signal p.fenceId p.fenceValue)) ∧
      (p.fenceEn = false → exec (.read port q) s = .next t1))) ∧
    (let j : LoadJob := { port := port, ctx := x, queue := q, cq := p.cq, address := p.arg0, bytes := p.arg1,
                           fence := if p.fenceEn then some (p.fenceId, p.fenceValue) else none, source := p.fenceId, verdict := none }
     Admitted s port q 0x10 k p c → s.loader.queue.length < 16 → s.modulesOf x < 64 → s.fileFault j = none →
     s.ringOk port p = true → ∃ t, exec (.load port q) s = .next t ∧ t.loader.queue = s.loader.queue ++ [j] ∧ t.mem = s.mem ∧
       t.regs = s.regs ∧ t.objs.fences = s.objs.fences) ∧
    (Admitted s port q 0x11 k p c → (s.loader.modules.any fun m => m.ctx == x && m.handle == p.arg0 && m.unloading.isNone) = true →
      (s.moduleRuns x p.arg0 = false → exec (.unload port q) s = .next ((s.freeModule x p.arg0).completePacket port q p)) ∧
      (s.moduleRuns x p.arg0 = true → ∃ t, exec (.unload port q) s = .next t ∧ t.objs.fences = s.objs.fences ∧
        ∀ m ∈ t.loader.modules, m.ctx = x → m.handle = p.arg0 → m.unloading ≠ none)) ∧
    (∀ m kn sq cores, Admitted s port q 0x12 k p c →
      (s.loader.modules.find? fun m => m.ctx == x && m.handle == p.arg0 % 2 ^ 32 && m.unloading.isNone) = some m →
      m.kernels[p.arg0 / 2 ^ 32]? = some kn → s.pick false c.part kn.size = .ok (sq, cores) → cores.Nodup →
      ∃ t b, exec (.pktLaunch port q) s = .next t ∧ look t.seqs sq = some b ∧ b.ctx = x ∧ b.kernel = kn ∧ b.members = cores ∧
        b.tag = p.tag ∧ b.fence = (if p.fenceEn then some (p.fenceId, p.fenceValue) else none) ∧ b.order = s.objs.launches ∧
        b.step = ((c.job.bind fun e => look s.objs.jobs e).map (·.step)).getD 0 ∧
        b.attempt = ((c.job.bind fun e => look s.objs.jobs e).map (·.attempt)).getD 0 ∧
        b.jobKey = ((c.job.bind fun e => look s.objs.jobs e).map (·.key)).getD 0 ∧ b.preempting = false ∧ b.pass = none ∧
        b.fw = s.zenithVersion ∧
        (∀ i d, cores[i]? = some d → (t.core d).member = some (sq, i)) ∧ t.mem = s.mem ∧ t.objs.fences = s.objs.fences) ∧
    (∀ m kn e, Admitted s port q 0x12 k p c →
      (s.loader.modules.find? fun m => m.ctx == x && m.handle == p.arg0 % 2 ^ 32 && m.unloading.isNone) = some m →
      m.kernels[p.arg0 / 2 ^ 32]? = some kn → s.pick false c.part kn.size = .error e →
      (∀ r, s.pick true c.part kn.size = .ok r → exec (.pktLaunch port q) s = .next s) ∧
      (∀ code, s.pick true c.part kn.size = .error code → exec (.pktLaunch port q) s = .next (s.failPacket port q x code 0 p))) ∧
    (s.runningPacket port q = some (k, p) → p.opcode = 0x18 → s.packetFault port q x p = none → s.ringOk port p = true →
      exec (.query port q) s = .next (s.completeWith port q x p 3 p.fenceId (leBytes 4 (s.tablePart port p.arg0).length)
        (s.tablePart port p.arg0)))

/-- R349, R350, R353, R356, R358, R373, R374: PART_CREATE, PART_DESTROY, CONTEXT_CREATE, CONTEXT_KILL, CONTEXT_DESTROY, CONTEXT_QUERY,
QUEUE_CREATE, QUEUE_DESTROY, admitted with their own checks passed. Each has its effect and completes; a context's kill starts its teardown
and its packet completes at the end of it, or at once where the context is no longer live; a queue goes with its packets, one that has
started and waits among them, each failing with QUEUE_DESTROYED. -/
def Obligations.PartitionsContextsAndQueues : Prop :=
  ∀ (s : State) (port q : Nat) (k : SubQueue) (p : Packet) (c : Ctx), let x := packetCtx k p
    (s.runningPacket port q = some (k, p) → s.packetFault port q x p = none →
      (p.opcode = 0x20 → s.partFree (p.arg0 % 128) (bitsOf (sliceBytes p.payload 0 136)) (bitsOf (sliceBytes p.payload 136 64))
        (payloadRanges p.payload) = true →
        let g : Part := ⟨fld p.arg0 7 2, bit p.arg0 9, fld p.arg0 10 8, bitsOf (sliceBytes p.payload 0 136),
          bitsOf (sliceBytes p.payload 136 64), payloadRanges p.payload⟩
        exec (.partCreate port q) s =
          .next ((s.modObjs fun o => { o with parts := put o.parts (p.arg0 % 128) g }).completePacket port q p)) ∧
      (∀ g, p.opcode = 0x21 → look s.objs.parts (p.arg0 % 128) = some g → (s.objs.ctxs.all fun e => e.2.part != p.arg0 % 128) = true →
        (s.objs.mems.all fun e => e.2.part != p.arg0 % 128) = true → exec (.partDestroy port q) s =
          .next ((s.modObjs fun o => { o with parts := del o.parts (p.arg0 % 128) }).completePacket port q p)) ∧
      (∀ g y, p.opcode = 0x22 → look s.objs.parts (p.arg0 % 128) = some g → g.port = port → s.runsContexts = true →
        (bit p.arg0 7 = true → g.debugAllowed = true) →
        firstFree (fun k => (s.ctx k).isSome) (min 4096 (s.objs.ctxs.length + 1)) = some y → s.ringOk port p = true →
        let key : W32 := (Config.freeValue s.free).setWidth 32
        exec (.contextCreate port q) s = .next
          (((({ s with free := s.free + 1 } : State).modObjs fun o => { o with ctxs := put o.ctxs y (newCtx (p.arg0 % 128) key (bit p.arg0 7)) })).completeWith
            port q p.ctx p 3 p.fenceId [] (leBytes 2 y ++ leBytes 2 0 ++ leBytes 4 key.toNat))) ∧
      (∀ y, s.subject port q x p = .ok (y, c) →
        (p.opcode = 0x23 → c.state = .live → p.fenceEn = false → exec (.contextKill port q) s =
          .next ((s.endPacket port q).teardown y 0x6002 false)) ∧
        (p.opcode = 0x23 → c.state = .live → p.fenceEn = true → exec (.contextKill port q) s =
          .next (((s.endPacket port q).teardown y 0x6002 false).modCtx y fun k =>
            { k with killFences := k.killFences ++ [(p.fenceId, p.fenceValue)] })) ∧
        (p.opcode = 0x23 → c.state ≠ .live → exec (.contextKill port q) s = .next (s.completePacket port q p)) ∧
        (p.opcode = 0x24 → c.state = .dead → exec (.contextDestroy port q) s =
          .next (((s.orphan y).modObjs fun o => { o with ctxs := del o.ctxs y }).completePacket port q p)) ∧
        (p.opcode = 0x25 → p.arg1 % 4 = 0 → s.ringOk port p = true → exec (.contextQuery port q) s =
          .next (s.completeWith port q x p 3 p.fenceId [] (s.statusPart y c))) ∧
        (p.opcode = 0x25 → p.arg1 % 4 = 1 → s.ringOk port p = true → exec (.contextQuery port q) s =
          .next (s.completeWith port q x p 3 p.fenceId []
            ((c.log.filter fun e => decide (fld p.arg1 8 32 ≤ e.seq)).flatMap logBytes))) ∧
        (∀ f, p.opcode = 0x25 → p.arg1 % 4 = 2 → s.fence p.arg2 = some f → f.mayWait y = true → s.ringOk port p = true →
          exec (.contextQuery port q) s = .next (s.completeWith port q x p 3 p.fenceId []
            (leBytes 8 f.value.toNat ++ leBytes 2 f.err ++ leBytes 2 (f.owner % 4096) ++ leBytes 4 0))))) ∧
    (Admitted s port q 0x2B k p c → s.queue port (p.arg0 % 8192) = none → s.queueCount < 16384 → s.inWindow port p.arg1 16 = true →
      exec (.queueCreate port q) s = .next (((s.setQueue port (p.arg0 % 8192)
        ⟨some x, fld p.arg0 13 13, [], none, false, 0, 0, p.arg1⟩).publish port (p.arg0 % 8192)).completePacket port q p)) ∧
    (∀ d r, Admitted s port q 0x2C k p c → s.queue port p.arg0 = some d → d.owner = some x →
      (s.endPacket port q).queue port p.arg0 = some r →
      let t := ((s.endPacket port q).modObjs fun o => { o with queues := del o.queues (port * 8192 + p.arg0) }).failQueued port p.arg0 x
        (r.running.toList ++ r.packets)
      exec (.queueDestroy port q) s = .next (if p.fenceEn then t.signal p.fenceId p.fenceValue else t))

/-- R126, R160, R230, R288, R374, R375: TEARDOWN_ABORT_DONE, CONTEXT_PREEMPT, TE_SAVE_DONE, GE_SAVE_DONE, QUEUE_SAVE_DONE,
LOCAL_STORE_SAVE, CONTEXT_RESUME, RESUME_DONE. The end of a torn-down context's abort puts the
fences it owns, and those it carried and may signal, into the error state with its cause, and leaves it dead, without mappings, its objects and its local stores given
up, or free where its owner is gone; a pre-emption holds its constellations until their engines have saved, and waits while a resume or the
replacement of a member runs; a resume binds them again, waits while a member is being saved or cores it needs are being wiped, and fails
where it finds none; its end restores the records, or kills the context where a record fails its checks, its digest or the check code. -/
def Obligations.PreemptionAndTeardown : Prop :=
  ∀ (s : State) (port q : Nat) (k : SubQueue) (p : Packet) (c : Ctx) (x y n : Nat),
    (s.ctx y = some c → c.state = .teardown →
      let owned := (s.objs.fences.filter fun f => f.2.owner == y && !f.2.held).map (·.1)
      let carried := (s.abortedFences y c).filter fun f => !owned.contains f && s.maySignal y f
      let bad := ((s.boundOf y).flatMap fun q => q.2.members).filter fun m => (s.core m).faulty
      let s1 := (owned ++ carried.eraseDups).foldl (fun (t : State) f => t.endFence f c.cause (if c.ownerGone then none else some y)) (s.dropWork y)
      let s2 := (s1.leaveJob y).modCtx y fun k =>
        { k with maps := [], descTable := none, state := .dead, saved := [], resumes := [], abortFences := [], preemptFences := [],
                 killFences := [] }
      let s3 := (s2.disown y).signalAll c.killFences
      let freed := s3.objs.mems.map fun (m : Nat × MemObj) =>
        if m.2.owner = y ∧ m.2.state = .live then (m.1, { m.2 with state := MemState.freeing }) else m
      let s4 := bad.foldl (fun (t : State) m => t.replaceDead m)
        (({ s3 with objs := { s3.objs with mems := freed } }.dropObjects y).settleFreeing)
      (c.ownerGone = false → exec (.teardownAbortDone y) s = .next s4) ∧
      (c.ownerGone = true → exec (.teardownAbortDone y) s = .next ((s4.orphan y).modObjs fun o => { o with ctxs := del o.ctxs y }))) ∧
    (s.ctx y = some c → c.state ≠ .teardown → exec (.teardownAbortDone y) s = .next s) ∧
    (s.runningPacket port q = some (k, p) → s.packetFault port q (packetCtx k p) p = none →
      s.subject port q (packetCtx k p) p = .ok (y, c) → c.state = .live →
      (p.opcode = 0x26 → (c.resumes ≠ [] ∨ ∃ e ∈ s.boundOf y, s.heldForSpare e.2 = true) → exec (.contextPreempt port q) s = .next s) ∧
      (p.opcode = 0x26 → c.resumes = [] → s.boundOf y = [] → exec (.contextPreempt port q) s = .next (s.completePacket port q p)) ∧
      (p.opcode = 0x26 → c.resumes = [] → s.boundOf y ≠ [] → (∀ e ∈ s.boundOf y, s.heldForSpare e.2 = false) →
        ∃ t, exec (.contextPreempt port q) s = .next t ∧ (∀ e ∈ t.boundOf y, e.2.preempting = true) ∧
          (∀ e ∈ s.seqs, e.2.ctx ≠ y → e ∈ t.seqs) ∧ t.cores = s.cores ∧ t.mem = s.mem ∧ t.objs.fences = s.objs.fences) ∧
      (p.opcode = 0x27 → (∃ e ∈ s.boundOf y, e.2.preempting = true) → exec (.contextResume port q) s = .next s) ∧
      (p.opcode = 0x27 → (∀ e ∈ s.boundOf y, e.2.preempting = false) → c.saved ≠ [] →
        (s.endPacket port q).rebindAll y c.part c.saved = none →
        (s.partWiping c.part = true → exec (.contextResume port q) s = .next s) ∧
        (s.partWiping c.part = false → exec (.contextResume port q) s = .next (s.failPacket port q (packetCtx k p) 0x600A 0 p))) ∧
      (p.opcode = 0x27 → (∀ e ∈ s.boundOf y, e.2.preempting = false) → c.saved = [] →
        exec (.contextResume port q) s = .next (s.completePacket port q p)) ∧
      (∀ t, p.opcode = 0x27 → (∀ e ∈ s.boundOf y, e.2.preempting = false) → c.saved ≠ [] →
        (s.endPacket port q).rebindAll y c.part c.saved = some t → exec (.contextResume port q) s = .next (t.modCtx y fun k =>
          { k with preemptFences := if p.fenceEn then k.preemptFences ++ [(p.fenceId, p.fenceValue)] else k.preemptFences }))) ∧
    (∀ cycles, s.saves n .te = true → (∀ e ∈ s.te, e.1 / 128 = n → e.2.shadow = none) →
      exec (.teSaveDone n true cycles) s = .next
        (((s.setReg (offTe n 0x28) (4 + min cycles 0xFFFF * 2 ^ 16)).bump (offTe n 0x138) 1).savedEngine n .te) ∧
      exec (.teSaveDone n false cycles) s = .next ((s.setReg (offTe n 0x28) (min cycles 0xFFFF * 2 ^ 16)).faultCore n 0x2012 0)) ∧
    (s.saves n .ge = true → exec (.geSaveDone n) s = .next (s.savedEngine n .ge)) ∧
    (s.saves n .me = true → (s.core n).xfers = [] → (∀ f ∈ (s.core n).inflight, f.eng ≠ .me) →
      exec (.queueSaveDone n) s = .next (s.savedEngine n .me)) ∧
    (∀ sq b err, s.coreSeq n = some (sq, b) → (s.core n).lsHeld ≠ some b.ctx → s.wiping n = false → MemCanonical s →
      (∀ z v r, s.storeOwner n = some (z, v, r) → err ≠ .uncorrectable → exec (.localStoreSave n err) s =
        .next ((((if err = .corrected then s.bump (offCm n 0x20) 1 else s).saveStore z v r n).wipeCore n).modCore n fun k =>
          { k with lsHeld := some b.ctx })) ∧
      ∃ t, exec (.localStoreSave n err) s = .next t ∧ (t.core n).lsHeld = some b.ctx ∧
        (∀ i, i < 0x80_0000 → cellGet t.mem (coreMem n + i) = 0) ∧
        (∀ a, (a < coreMem n ∨ coreMem n + 0x80_0000 ≤ a) → cellGet t.mem a = cellGet s.mem a)) ∧
    (s.ctx x = some c → c.state = .live → c.resumes ≠ [] →
      (∀ e ∈ s.boundOf x, ∀ m ∈ e.2.members, (s.core m).lsHeld = some x) →
      let r := c.resumes.foldl (fun (t : Bool × State) v => let w := t.2.recordOk v; (t.1 && w.1, w.2)) (true, s)
      exec (.resumeDone x .uncorrectable) s = .next (s.failResume x 0x4012) ∧
      exec (.resumeDone x .badDigest) s = .next (s.failResume x 0x2012) ∧
      (r.1 = true → exec (.resumeDone x .sound) s = .next
        ((((c.resumes.foldl (fun (t : State) v => t.restart v) r.2).modCtx x fun k =>
          { k with resumes := [], preemptFences := [] })).signalAll c.preemptFences)) ∧
      (r.1 = false → exec (.resumeDone x .sound) s = .next (r.2.failResume x 0x2012)))

/-- R274, R357, R353: JOB_CREATE, JOB_JOIN, JOB_DESTROY. A job takes the lowest free entry with its id, key and classes, and the counters
of its payload; a context joins or leaves a job while none of its kernels is bound or pre-empted; a job without members goes,
and with it what its cores remember of its votes. -/
def Obligations.JobsAreKept : Prop :=
  ∀ (s : State) (port q e : Nat) (k : SubQueue) (p : Packet) (c : Ctx),
    s.runningPacket port q = some (k, p) → s.packetFault port q (packetCtx k p) p = none →
    (p.opcode = 0x28 → s.runsContexts = true → (s.objs.jobs.all fun e => e.2.id != p.arg0 % 2 ^ 16) = true →
      firstFree (fun k => (look s.objs.jobs k).isSome) (min 256 (s.objs.jobs.length + 1)) = some e →
      let j : Job :=
        ⟨p.arg0 % 2 ^ 16, BitVec.ofNat 64 p.arg1, fld p.arg0 16 2, leAt p.payload 0 8, leAt p.payload 8 8, [], false, none, false, []⟩
      exec (.jobCreate port q) s = .next ((s.modObjs fun o => { o with jobs := put o.jobs e j }).completePacket port q p)) ∧
    (∀ y j, p.opcode = 0x29 → s.subject port q (packetCtx k p) p = .ok (y, c) → s.jobEntry (fld p.arg0 12 16) = some (e, j) →
      c.state = .live → s.boundOf y = [] → c.saved = [] →
      (bit p.arg0 28 = false → c.job = none → exec (.jobJoin port q) s = .next
        (((s.modObjs fun o => { o with jobs := upd o.jobs e fun j => { j with members := j.members ++ [y] } }).modCtx y fun k =>
          { k with job := some e }).completePacket port q p)) ∧
      (bit p.arg0 28 = true → c.job = some e → exec (.jobJoin port q) s = .next ((s.leaveJob y).completePacket port q p))) ∧
    (∀ j, p.opcode = 0x2A → s.jobEntry (p.arg0 % 2 ^ 16) = some (e, j) → j.members = [] →
      let cores := s.cores.map fun (k : Nat × Core) => (k.1, { k.2 with lastVote := k.2.lastVote.filter fun v => v.1 / 2 ^ 16 != e })
      exec (.jobDestroy port q) s = .next ((({ s with cores := cores } : State).modObjs fun o => { o with jobs := del o.jobs e }).completePacket port q p))

/-- R349, R352, R359 to R361, R156: MEM_ALLOC, MEM_FREE, MEM_MAP, MEM_UNMAP, MEM_UNMAP_COMPLETE, MEM_SHARE, DESC_TABLE_SET, admitted with
their own checks passed. An allocation takes the lowest free pages of its partition, and waits while only pages being wiped would do. A mapping
or a share is recorded; a write mapping of another's object needs a share with the write right. An unmap completes at once where no transfer
translated its range, else when those transfers have ended. -/
def Obligations.MemoryObjects : Prop :=
  ∀ (s : State) (port q : Nat) (k : SubQueue) (p : Packet) (c : Ctx), let x := packetCtx k p
    (∀ g pages, Admitted s port q 0x2D k p c → look s.objs.parts c.part = some g → s.objs.mems.length < 262144 →
      freePages g ((s.objs.mems.map (·.2)).filter fun o => o.part == c.part) (p.arg0 % 2) p.arg1 = some pages → s.ringOk port p = true →
      exec (.memAlloc port q) s = .next ((s.modObjs fun o => { o with
        mems := put o.mems s.objs.nextMem ⟨x, c.part, p.arg0 % 2, pages, .live, []⟩, nextMem := s.objs.nextMem + 1 }).completeWith
          port q x p 3 p.fenceId [] (leBytes 4 s.objs.nextMem))) ∧
    (∀ g, Admitted s port q 0x2D k p c → look s.objs.parts c.part = some g → s.objs.mems.length < 262144 →
      freePages g ((s.objs.mems.map (·.2)).filter fun o => o.part == c.part) (p.arg0 % 2) p.arg1 = none →
      (freePages g (((s.objs.mems.map (·.2)).filter fun o => o.part == c.part).filter fun o => o.state != .wiping) (p.arg0 % 2)
        p.arg1).isSome = true → exec (.memAlloc port q) s = .next s) ∧
    (∀ o, Admitted s port q 0x2E k p c → s.ownMem x p.arg0 = .ok o → exec (.memFree port q) s = .next
      ((s.modObjs fun k => { k with mems := upd k.mems p.arg0 fun o => { o with state := .freeing } }).settleFreeing.completePacket
        port q p)) ∧
    (∀ o, let m : Mapping :=
        ⟨p.arg1, fld p.arg2 32 32, o.pageSize, p.arg0 % 2 ^ 32, p.arg2 % 2 ^ 32, bit p.arg0 32, bit p.arg0 33⟩
      Admitted s port q 0x2F k p c → look s.objs.mems (p.arg0 % 2 ^ 32) = some o → o.state = .live →
      (o.owner = x ∨ ∃ w, (x, w) ∈ o.shares) → (m.write = true → o.owner = x ∨ (o.shares.find? fun t => t.1 == x) = some (x, true)) →
      m.va % pageBytes o.pageSize = 0 → m.first + m.pages ≤ o.pages.length → m.va + m.bytes ≤ 2 ^ 56 →
      (c.maps.any fun n => overlaps (n.va, n.bytes) (m.va, m.bytes)) = false →
      exec (.memMap port q) s = .next ((s.modCtx x fun k => { k with maps := k.maps ++ [m] }).completePacket port q p)) ∧
    (∀ m, Admitted s port q 0x30 k p c → c.mapAt p.arg1 = some m → p.arg1 % pageBytes m.pageSize = 0 →
      let n := p.arg2 * pageBytes m.pageSize
      unmapFault c m.pageSize p.arg1 n = none →
      let s1 := (s.modCtx x fun k => { k with maps := k.maps.flatMap fun m => m.without p.arg1 n }).settleFreeing
      (s.translators x (p.arg1, n) = [] → exec (.memUnmap port q) s = .next (s1.completePacket port q p)) ∧
      (∀ i, s.translators x (p.arg1, n) ≠ [] → firstFree (fun k => (look s1.objs.unmaps k).isSome) (s1.objs.unmaps.length + 1) = some i →
        let w : UnmapWait := ⟨s.translators x (p.arg1, n), if p.fenceEn then some (p.fenceId, p.fenceValue) else none⟩
        exec (.memUnmap port q) s = .next ((s1.modObjs fun o => { o with unmaps := put o.unmaps i w }).endPacket port q))) ∧
    (∀ i u, look s.objs.unmaps i = some u → (∃ w ∈ u.work, ∃ e ∈ (s.core w.1).work, e.2 = w.2) →
      exec (.memUnmapComplete i) s = .next s) ∧
    (∀ i u f v, look s.objs.unmaps i = some u → (∀ w ∈ u.work, ∀ e ∈ (s.core w.1).work, e.2 ≠ w.2) →
      (u.fence = some (f, v) → exec (.memUnmapComplete i) s =
        .next ((s.modObjs fun o => { o with unmaps := del o.unmaps i }).signal f v)) ∧
      (u.fence = none → exec (.memUnmapComplete i) s = .next (s.modObjs fun o => { o with unmaps := del o.unmaps i }))) ∧
    (∀ o d, Admitted s port q 0x31 k p c → s.shareRights port x p.arg0 (p.arg1 % 4096) = none → s.ownMem x p.arg0 = .ok o → s.actor port (p.arg1 % 4096) = .ok d →
      exec (.memShare port q) s = .next ((s.modObjs fun k => { k with mems := upd k.mems p.arg0 fun o =>
        { o with shares := (o.shares.filter fun h => h.1 != p.arg1 % 4096) ++ [(p.arg1 % 4096, bit p.arg1 12)] } }).completePacket
          port q p)) ∧
    (∀ l, Admitted s port q 0x32 k p c → s.boundOf x = [] → c.saved = [] → s.translate x p.arg1 0x40_0000 true true = .ok l →
      exec (.descTableSet port q) s = .next ((s.modCtx x fun k => { k with descTable := some p.arg1 }).completePacket port q p))

/-- R363 to R369, R371: FENCE_CREATE, FENCE_DESTROY, FENCE_SHARE, FENCE_IMPORT, FENCE_RESET, EVENT_CREATE, EVENT_DESTROY, admitted with
their own checks passed. Whether the home accepts an import, and the value it first holds there, are the model's free values (log 31). -/
def Obligations.FencesAndEvents : Prop :=
  ∀ (s : State) (port q : Nat) (k : SubQueue) (p : Packet) (c : Ctx) (d : Fence), let x := packetCtx k p
    (∀ f, Admitted s port q 0x33 k p c → s.fenceId = some f → s.ringOk port p = true → exec (.fenceCreate port q) s = .next
      ((s.modObjs fun o => { o with fences := put o.fences f ⟨x, BitVec.ofNat 64 p.arg2, 0, false, [], none, [], none, none⟩ }).completeWith
        port q x p 3 p.fenceId [] (leBytes 4 f))) ∧
    (Admitted s port q 0x34 k p c → s.ownFence x p.arg0 = .ok d →
      let done (t : State) : State := if p.fenceEn then t.signal p.fenceId p.fenceValue else t
      ((s.endPacket port q).waitingOn p.arg0 = [] → exec (.fenceDestroy port q) s =
        .next (done ((s.endPacket port q).dropFence p.arg0))) ∧
      ((s.endPacket port q).waitingOn p.arg0 ≠ [] → exec (.fenceDestroy port q) s =
        .next (done (((s.endPacket port q).fenceError p.arg0 0x6005 (some x) 0 (0x34, q)).dropFence p.arg0)))) ∧
    (Admitted s port q 0x35 k p c → s.ownFence x p.arg0 = .ok d →
      (bit p.arg1 13 = true → exec (.fenceShare port q) s =
        .next ((s.modFence p.arg0 fun k => { k with exported := some (bit p.arg1 12) }).completePacket port q p)) ∧
      (bit p.arg1 13 = false → s.live (p.arg1 % 4096) = true → exec (.fenceShare port q) s =
        .next ((s.modFence p.arg0 fun k => { k with
          shares := (k.shares.filter fun h => h.1 != p.arg1 % 4096) ++ [(p.arg1 % 4096, bit p.arg1 12)] }).completePacket port q p))) ∧
    (∀ f j, Admitted s port q 0x36 k p c → c.job ≠ none → s.senderJob x false = .ok j → s.fenceId = some f →
      let node := if bit p.arg1 13 then fld p.arg1 3 10 else s.pins.strapTray * 8 + p.arg1 % 8
      (bit p.arg1 13 = true → s.ident.grade = .full) → s.unreachable node = none → s.ringOk port p = true →
      let proxy : Fence :=
        ⟨x, Config.freeValue (s.free + 1), 0, false, [], none, [], some (node, p.arg0, (Config.freeValue s.free).getLsbD 1), none⟩
      ((Config.freeValue s.free).getLsbD 0 = true → exec (.fenceImport port q) s = .next
        ((({ s with free := s.free + 1 + 1 } : State).modObjs fun o => { o with fences := put o.fences f proxy }).completeWith
          port q x p 3 p.fenceId [] (leBytes 4 f))) ∧
      ((Config.freeValue s.free).getLsbD 0 = false → exec (.fenceImport port q) s =
        .next (({ s with free := s.free + 1 } : State).failPacket port q x 0x6004 0 p))) ∧
    (Admitted s port q 0x37 k p c → s.ownFence x p.arg0 = .ok d → exec (.fenceReset port q) s = .next
      (((s.modFence p.arg0 fun k => { k with value := BitVec.ofNat 64 p.arg2, err := 0, origin := none }).wake [p.arg0]).completePacket port q p)) ∧
    (Admitted s port q 0x38 k p c → s.mayWait x p.arg0 = true → s.objs.events.length < 65536 → s.ringOk port p = true →
      let e : Event := ⟨x, port, p.arg0, BitVec.ofNat 64 p.arg1, p.arg2, false⟩
      let s1 := (s.modObjs fun o => { o with events := put o.events s.objs.nextEvent e, nextEvent := s.objs.nextEvent + 1 }).completeWith
        port q x p 3 p.fenceId [] (leBytes 4 s.objs.nextEvent)
      ∀ f, s1.fence p.arg0 = some f →
        (f.err = 0 → f.value.toNat < e.target.toNat → exec (.eventCreate port q) s = .next s1) ∧
        (f.err ≠ 0 ∨ e.target.toNat ≤ f.value.toNat → exec (.eventCreate port q) s = .next (s1.fireEvent s.objs.nextEvent e f))) ∧
    (∀ e, Admitted s port q 0x39 k p c → look s.objs.events p.arg0 = some e → e.owner = x → exec (.eventDestroy port q) s =
      .next ((s.modObjs fun o => { o with events := del o.events p.arg0 }).completePacket port q p))

/-- R194, R195, R205: LOAD_START and LOAD_DONE. The loader takes the first waiting load and checks its file; a module it accepts is stored
and its handle goes to the completion queue, unless the context holds 64 images or the image would pass 64 MiB; one it rejects stores nothing.
While a load runs, or with none waiting, no load starts. The size of a native image is the model's free value (log 17). -/
def Obligations.LoaderRuns : Prop :=
  ∀ (s : State) (j : LoadJob) (rest : List LoadJob),
    (s.loader.running ≠ none ∨ s.loader.queue = [] → exec .loadStart s = .next s) ∧
    (s.loader.running = none → s.loader.queue = j :: rest →
      let s1 := s.adopt (offLr 0) 0 5
      let limit := 2 ^ clamp 16 24 (fld (s1.reg (offLr 0)) 0 5)
      (∀ e, s1.loadFile j = .error e → exec .loadStart s = .next { s1 with loader :=
        { s1.loader with running := some { j with verdict := some (e, 0, []) }, queue := rest } }) ∧
      (∀ b l, s1.loadFile j = .ok (b, l) → ∃ t j', exec .loadStart s = .next t ∧ t.loader.running = some j' ∧ t.loader.queue = rest ∧
        j'.ctx = j.ctx ∧ j'.fence = j.fence ∧ t.objs.fences = s.objs.fences ∧ t.seqs = s.seqs ∧
        (∀ ks, checkModule s.ident.grade s.loaderVersion.1 limit j.bytes b = .ok ks → j'.verdict = some (0, 0, ks)) ∧
        (∀ code detail, checkModule s.ident.grade s.loaderVersion.1 limit j.bytes b = .error (code, detail) →
          j'.verdict = some (code, detail, [])))) ∧
    (∀ code detail ks, s.loader.running = some j → j.verdict = some (code, detail, ks) →
      (code ≠ 0 → exec .loadDone s = .next (s.rejectLoad j code detail)) ∧
      (code = 0 → s.modulesOf j.ctx < 64 → (Config.freeValue s.free).toNat ≤ 2 ^ 26 → exec .loadDone s =
        .next (({ s with free := s.free + 1 } : State).storeModule j ks (Config.freeValue s.free).toNat)) ∧
      (code = 0 → s.modulesOf j.ctx < 64 → 2 ^ 26 < (Config.freeValue s.free).toNat → exec .loadDone s =
        .next (({ s with free := s.free + 1 } : State).rejectLoad j 0x900B (where_ noIdx 0 noIdx))) ∧
      (code = 0 → 64 ≤ s.modulesOf j.ctx → exec .loadDone s = .next (s.rejectLoad j 0x9021 0)))

/-! ### Burob, tray and scale-out links (11, 13) -/

/-- R324, R325, R383, R384: BUROB_FLIT, TRAY_FLIT, KEEPALIVE_SEND. On a link that is up a flit that fails its CRC is counted as resent and
nothing of it is taken, and the link goes down once one flit has failed more than 64 times; a flit that passes is counted, and counted as
corrected where it was; the next in order is received, and its acknowledgement and credits let go what waits for them; a flit behind a
discarded one is discarded and counted as resent too. A keepalive is counted as a flit sent. On a link that is down nothing happens.
R339, R340, R341, R342: CQ_HEAD_WRITE and CQ_WAIT_TIMEOUT. The host's head is taken and entries that wait are written while there is
room; a wait at its limit drops the transfer of the first waiting entry and its fence learns of CQ_FULL, but no result waits in vain for a
port that is down, and an entry that has room waits for the replay buffer alone. -/
def Obligations.FlitsCountedAndQueuesDrained : Prop :=
  (∀ (s : State) (l : Link) (fixed ok : Bool) (f : Flit),
     let arrive (fixed ok : Bool) : Host.Outcome State Fault Refusal := match l with
       | .burob p => exec (.burobFlit p fixed ok f) s
       | m => exec (.trayFlit m fixed ok f) s
     let k := s.wire l
     let r := linkRegs l
     (∀ p, l = .burob p → p < 4) →
     (s.linkUp l = false → arrive fixed ok = .next s ∧ exec (.keepaliveSend l) s = .next s) ∧
     (s.linkUp l = true →
       exec (.keepaliveSend l) s = .next (s.bump r.2.1 1) ∧
       (let t := (s.setWire l { k with rxTries := k.rxTries + 1 }).bump r.2.2.2 1
        (k.rxTries < 64 → k.txTries ≤ 64 → arrive fixed false = .next (t.afterFlit l)) ∧
        (64 ≤ k.rxTries → arrive fixed false = .next (t.linkDown l))) ∧
       (let t := if fixed then (s.bump r.1 1).bump r.2.2.1 1 else s.bump r.1 1
        (f.seq = k.received → k.txTries ≤ 64 → f.resend = false → arrive fixed true =
          .next (((t.setWire l { k with received := k.received + 1, rxTries := 0 }).acknowledged l f).afterFlit l)) ∧
        (k.received < f.seq → 0 < k.rxTries → k.rxTries ≤ 64 → k.txTries ≤ 64 → f.resend = false →
          arrive fixed true = .next (((t.bump r.2.2.2 1).acknowledged l f).afterFlit l))))) ∧
  (∀ (s : State) (p c : Nat), p < 4 → c < 256 → (s.port p).up = true →
     (∀ v : W32, exec (.cqHeadWrite p c v) s =
       .next ((s.setReg (offCq p c 8) v.toNat).cqDrain (s.cq p c).waiting.length p c)) ∧
     (∀ v : W32, (s.cq p c).waiting = [] → ∃ t, exec (.cqHeadWrite p c v) s = .next t ∧ t.reg (offCq p c 8) = v.toNat ∧
       t.host = s.host ∧ t.objs = s.objs ∧ t.mem = s.mem ∧ (∀ o, o ≠ offCq p c 8 → t.reg o = s.reg o)) ∧
     ((s.cq p c).waiting = [] → exec (.cqWaitTimeout p c) s = .next s) ∧
     (∀ e rest, (s.cq p c).waiting = e :: rest → (s.cqRoom p c e.data.length).isSome = true → exec (.cqWaitTimeout p c) s = .next s) ∧
     (∀ e rest, (s.cq p c).waiting = e :: rest → s.cqRoom p c e.data.length = none → exec (.cqWaitTimeout p c) s = .next
       (((s.setCq p c { s.cq p c with waiting := rest.filter fun w => w.xid != e.xid }).entryLost p e).cqDrain rest.length p c)) ∧
     (∀ f g n op q rest e, (s.cq p c).waiting = e :: rest → e.owner = .packet (some (f, n)) op q → s.fence f = some g → g.err = 0 →
       s.cqRoom p c e.data.length = none → s.objs.events = [] → s.objs.queues = [] → g.proxies = [] → rest = [] → ∃ t, exec (.cqWaitTimeout p c) s = .next t ∧
         (t.fence f).map (fun g => (g.err, g.value.toNat)) = some (0x8004, errorValue) ∧ (t.cq p c).waiting = [])) ∧
  (∀ (s : State) (p c : Nat) (e : CqEntry) (rest : List CqEntry), (s.port p).up = false → (s.cq p c).waiting = e :: rest → e.kind = 3 →
     exec (.cqWaitTimeout p c) s = .next s)

/-- R322, R325, R326, R333, R342, R343, R345: BUROB_LINK_DOWN, BUROB_TRAINED, BUROB_TRAIN_RETRY, GRACE_EXPIRY. A port that goes down keeps its
nonce and session, is recorded, and its grace runs; one that trains comes up on the halves that trained, with the host's nonce and a fresh
link, sends again what the replay buffer holds and what was held, and writes its link record; without its owner's nonce, or at the end of the grace, the owner is gone. A retry
that ends without training is counted. -/
def Obligations.PortsTrainAndFail : Prop :=
  ∀ (s : State) (p : Nat), p < 4 →
    ((s.port p).up = true → ∃ t, exec (.burobLinkDown p) s = .next t ∧
      t.port p = { s.port p with up := false, training := false, halves := 0, retraining := 0, cause := [], grace := true } ∧
      (∀ r, r ≠ p → t.port r = s.port r) ∧ t.recd.intake = s.recd.intake ++ [s.eventNow 0x8801 (leBytes 1 p)] ∧ t.mem = s.mem ∧ t.objs = s.objs ∧
      t.host.cqs = s.host.cqs ∧ t.host.mem = s.host.mem) ∧
    ((s.port p).up = false → exec (.burobLinkDown p) s = .next s) ∧
    (∀ nonce halves, (s.port p).up = true ∨ s.linksTrain = false ∨ andHalves (halves % 4) (s.servedHalves p) = 0 →
      exec (.burobTrained p nonce halves) s = .next s) ∧
    (∀ nonce halves, (s.port p).up = false → s.linksTrain = true → nonce < 2 ^ 32 →
      let up := andHalves (halves % 4) (s.servedHalves p)
      let trained (t : State) (device : Nat) : State :=
        let w := t.wire (.burob p)
        let fresh := Wire.fresh (fld (s.written (offBl p 0)) 0 2)
        ((((((t.setWire (.burob p) { fresh with formed := w.formed - w.acked }).bump (linkRegs (.burob p)).2.2.2 (w.sent - w.acked)).setPort p { t.port p with
          up := true, training := false, retry := false, halves := up, retraining := 0, grace := false, nonce := some nonce,
          deviceNonce := device % 2 ^ 32 }).replayHeld p).cqDrainPort p).linkRecord p)
      up ≠ 0 →
      (∀ n, (s.port p).nonce = some n → ((s.port p).grace = true → n = nonce) → exec (.burobTrained p nonce halves) s =
        .next (trained s (BitVec.ofNat 64 (s.port p).deviceNonce).toNat)) ∧
      (∀ n, (s.port p).nonce = some n → (s.port p).grace = true → n ≠ nonce → exec (.burobTrained p nonce halves) s =
        .next (trained (s.ownerGone p) (BitVec.ofNat 64 (s.port p).deviceNonce).toNat)) ∧
      ((s.port p).nonce = none → (s.port p).grace = false → exec (.burobTrained p nonce halves) s =
        .next (trained { s with free := s.free + 1 } (Config.freeValue s.free).toNat))) ∧
    ((s.port p).up = false → s.linksTrain = true →
      let t := if (s.port p).training = true ∧ (s.port p).retry = true then s.bump (offBl p 0x80) 1 else s
      exec (.burobTrainRetry p) s = .next (t.setPort p { s.port p with training := true, retry := true })) ∧
    ((s.port p).up = true ∨ s.linksTrain = false → exec (.burobTrainRetry p) s = .next s) ∧
    ((s.port p).up = false → (s.port p).grace = true → exec (.graceExpiry p) s = .next (s.ownerGone p)) ∧
    ((s.port p).up = true ∨ (s.port p).grace = false → exec (.graceExpiry p) s = .next s)

/-- R327, R328, R385, R415: LANE_ERROR_WINDOW, HALF_RETRAIN_DONE, HALF_RETRY on a Burob port, a tray link and a scale-out port. A lane's window
is judged by the threshold in effect in it, and the one last written is that of the lane's next. A lane beyond the threshold takes its half of a
port or tray link out of service for a live retrain where the other half serves, and is recorded on a port where it does not; a
scale-out lane beyond it starts its port's change of width. A retrain that succeeds brings the half back where a hub die serves it; one that
fails is recorded on a port. A half that is out is retrained again. -/
def Obligations.HalvesRetrain : Prop :=
  (∀ (s : State) (p half lane count : Nat), p < 4 → half < 2 → (s.port p).up = true →
    let s1 := (s.nextWindow (.burob p) half lane (offBl p 0)).adopt (offBl p 0) 0 2
    let k := s.port p
    let beyond := crosses (s.laneCode (.burob p) half lane) count
    (bit k.halves half = true →
      (beyond = false → exec (.laneErrorWindow (.burob p) half lane count) s = .next s1) ∧
      (beyond = true → k.halves = 3 → bit k.retraining half = false →
        exec (.laneErrorWindow (.burob p) half lane count) s = .next ((s1.setPort p { s1.port p with
          halves := 3 - 2 ^ half, retraining := k.retraining + 2 ^ half,
          cause := (k.cause.filter fun c => c.1 != half) ++ [(half, lane, count)] }).bump (offBl p 0x88) 1)) ∧
      (beyond = true → k.halves ≠ 3 →
        exec (.laneErrorWindow (.burob p) half lane count) s =
          .next (s1.raise 0x8802 (leBytes 1 p ++ leBytes 1 half ++ leBytes 1 lane ++ leBytes 4 count)))) ∧
    (bit k.halves half = false → exec (.laneErrorWindow (.burob p) half lane count) s = .next s) ∧
    (bit k.retraining half = true →
      let out : Port := { k with retraining := k.retraining - 2 ^ half, cause := k.cause.filter fun c => c.1 != half }
      (bit (s.servedHalves p) half = true → exec (.halfRetrainDone (.burob p) half true) s =
        .next ((s.freshHalf (.burob p) half (offBl p 0)).setPort p { out with halves := k.halves + 2 ^ half })) ∧
      (∀ l n, (k.cause.find? fun c => c.1 == half) = some (half, l, n) → exec (.halfRetrainDone (.burob p) half false) s =
        .next ((s.setPort p out).raise 0x8802 (leBytes 1 p ++ leBytes 1 half ++ leBytes 1 l ++ leBytes 4 n)))) ∧
    (bit k.retraining half = false → ∀ ok, exec (.halfRetrainDone (.burob p) half ok) s = .next s) ∧
    (bit k.halves half = false → bit k.retraining half = false → bit (s.servedHalves p) half = true →
      exec (.halfRetry (.burob p) half) s = .next (s.setPort p { k with retraining := k.retraining + 2 ^ half })) ∧
    (bit k.halves half = true ∨ bit k.retraining half = true ∨ bit (s.servedHalves p) half = false →
      exec (.halfRetry (.burob p) half) s = .next s)) ∧
  (∀ (s : State) (j half lane count : Nat), j < 8 → half < 2 → j ∈ s.fab.linkUp →
    let s1 := (s.nextWindow (.tray j) half lane (offTf 0)).adopt (offTf 0) 0 2
    let beyond := crosses (s.laneCode (.tray j) half lane) count
    let out (t : State) : State := { t with fab := { t.fab with halfOut := addNew t.fab.halfOut (j, half) } }
    (bit (s.trayHalves j) half = true →
      (beyond = true → s.trayHalves j = 3 → exec (.laneErrorWindow (.tray j) half lane count) s = .next
        ((out ((s1.setField (offPeer j 0) 2 2 (3 - 2 ^ half)).setBit (offPeer j 0) 4)).raise 0x7801 (leBytes 1 (0x10 + j) ++ leBytes 1 8))) ∧
      (beyond = false ∨ s.trayHalves j ≠ 3 →
        exec (.laneErrorWindow (.tray j) half lane count) s = .next s1)) ∧
    ((j, half) ∈ s.fab.halfOut →
      let back : State := { s with fab := { s.fab with halfOut := drop1 s.fab.halfOut (j, half) } }
      (bit (s.trayHalves j) half = false → bit (s.servedHalves j) half = true → exec (.halfRetrainDone (.tray j) half true) s = .next
        (((back.freshHalf (.tray j) half (offTf 0)).setField (offPeer j 0) 2 2 (s.trayHalves j + 2 ^ half)).raise 0x7801 (leBytes 1 (0x10 + j) ++ leBytes 1 16))) ∧
      exec (.halfRetrainDone (.tray j) half false) s = .next back) ∧
    (bit (s.trayHalves j) half = false → bit (s.servedHalves j) half = true → exec (.halfRetry (.tray j) half) s = .next (out s))) ∧
  (∀ (s : State) (p half lane count : Nat), p < 4 → s.sfState p = 2 →
    let s1 := (s.nextWindow (.scaleOut p) half lane (offTf 0)).adopt (offTf 0) 0 2
    let beyond := crosses (s.laneCode (.scaleOut p) half lane) count
    (beyond = true → bit (s.reg (offSfPort p 0)) 2 = false → s.portServes p = true →
      exec (.laneErrorWindow (.scaleOut p) half lane count) s = .next (s1.sfRetrain p half)) ∧
    (beyond = false ∨ bit (s.reg (offSfPort p 0)) 2 = true ∨ s.portServes p = false →
      exec (.laneErrorWindow (.scaleOut p) half lane count) s = .next s1) ∧
    (∀ ok, exec (.halfRetrainDone (.scaleOut p) half ok) s = .next s) ∧
    (bit (s.reg (offSfPort p 0)) 2 = true → s.servedHalves p = 3 → s.portServes p = true → exec (.halfRetry (.scaleOut p) half) s = .next (s.sfRetrain p half)))

/-- R378, R379, R384, R385, R402, R403, R405, R406, R408, R409, R410, R412: TRAY_LINK_TRAINED, TRAY_LINK_DOWN, SCALEOUT_PORT_TRAINED,
SCALEOUT_PORT_DOWN, SCALEOUT_WIDTH_CHANGE_DONE, READMIT. A tray link to the right peer comes up, the peer with it unless it is held
lost; one to another is recorded as miscabled. A scale-out port whose neighbour is in another slot is held down. Losing a link to a peer that
is up declares the peer lost, and the fourth such loss within 100 microseconds fences the device. A port that goes down moves its routes and
fails the requests that no link is left for. A readmitted peer is no longer held lost; through another port than the management port nobody
is readmitted. -/
def Obligations.FabricLinksComeAndGo : Prop :=
  ∀ (s : State) (k halves : Nat),
    (k < 8 → k ≠ s.pins.strapSlot → k ∉ s.fab.linkUp → s.linksTrain = true → andHalves (halves % 4) (s.servedHalves k) ≠ 0 →
      (∃ t, exec (.trayLinkTrained k s.pins.strapTray k halves) s = .next t ∧ k ∈ t.fab.linkUp ∧
        t.peerState k = (if s.peerState k = 0 then 1 else s.peerState k) ∧
        t.trayHalves k = andHalves (halves % 4) (s.servedHalves k) ∧ t.wire (.tray k) = Wire.fresh (fld (s.written (offTf 0)) 0 2) ∧ t.recd = s.recd ∧ t.objs = s.objs ∧
        t.mem = s.mem) ∧
      (∀ ft fs, (ft ≠ s.pins.strapTray ∨ fs ≠ k) → exec (.trayLinkTrained k ft fs halves) s =
        .next (s.raise 0x7803 (leBytes 1 (0x10 + k) ++ leBytes 2 (ft * 8 + fs))))) ∧
    (k < 8 → k ∈ s.fab.linkUp → s.peerState k ≠ 1 → exec (.trayLinkDown k) s = .next (s.unlink k)) ∧
    (k < 8 → k ∈ s.fab.linkUp → s.peerState k = 1 →
      let t := ((s.unlink k).noteLoss k).applyLoss (s.pins.strapTray * 8 + k)
      (t.fab.recentLoss.length < 4 → exec (.trayLinkDown k) s = .next t) ∧
      (4 ≤ t.fab.recentLoss.length → exec (.trayLinkDown k) s = .next t.selfFence)) ∧
    (k ∉ s.fab.linkUp → exec (.trayLinkDown k) s = .next s) ∧
    (∀ node w4, k < 4 → s.ident.grade = .full → s.sfState k ≠ 2 → s.sfState k ≠ 1 → s.linksTrain = true → node < 1024 →
      s.servedHalves k ≠ 0 → (s.servedHalves k = 3 ∨ w4 = true) →
      let s1 := (s.setField (offSfPort k 0) 3 10 node).setWire (.scaleOut k) (Wire.fresh (fld (s.written (offTf 0)) 0 2))
      (node % 8 = s.pins.strapSlot → exec (.scaleoutPortTrained k node w4) s = .next
        (((s1.setField (offSfPort k 0) 0 2 2).setField (offSfPort k 0) 2 1 (b2n w4)).updateRoutes)) ∧
      (node % 8 ≠ s.pins.strapSlot → exec (.scaleoutPortTrained k node w4) s = .next
        ((s1.setField (offSfPort k 0) 0 2 3).raise 0x7803 (leBytes 1 k ++ leBytes 2 node)))) ∧
    (let s1 : State := { s with fab := { s.fab with halfOut := s.fab.halfOut.filter fun h => h.1 != 8 + k } }
     let s2 := s1.setWire (.scaleOut k) Wire.rest
     (k < 4 → s.portUp k = true → exec (.scaleoutPortDown k) s =
       .next ((((s2.setField (offSfPort k 0) 0 2 0).updateRoutes).sweepOut).failStranded)) ∧
     (k < 4 → s.portUp k = false → exec (.scaleoutPortDown k) s = .next s) ∧
     (∀ w, k < 4 → s.sfState k = 1 →
       let w4 := w || s.servedHalves k != 3
       let s3 := ((s1.setWire (.scaleOut k) (Wire.fresh (fld (s.written (offTf 0)) 0 2))).setField (offSfPort k 0) 0 2 2).setField (offSfPort k 0) 2 1 (b2n w4)
       (bit (s.reg (offSfPort k 0)) 2 = w4 → exec (.scaleoutWidthChangeDone k w) s = .next s3.updateRoutes) ∧
       (bit (s.reg (offSfPort k 0)) 2 ≠ w4 → exec (.scaleoutWidthChangeDone k w) s =
         .next ((s3.raise 0x7801 (leBytes 1 k ++ leBytes 1 (if w4 then 4 else 8))).updateRoutes)))) ∧
    (∀ slot, k < 4 → slot < 8 → (s.port k).up = true →
      (k ≠ s.mgmtPort → exec (.readmit k slot) s = .next (s.bump (offBl k 0x78) 1)) ∧
      (k = s.mgmtPort → slot = s.pins.strapSlot → ∃ t, exec (.readmit k slot) s = .next t ∧ t.fab.selfFenced = false ∧ t.objs = s.objs ∧
        t.mem = s.mem) ∧
      (k = s.mgmtPort → slot ≠ s.pins.strapSlot → s.peerState slot = 2 → ∃ t, exec (.readmit k slot) s = .next t ∧
        s.pins.strapTray * 8 + slot ∉ t.fab.lostNodes ∧ (slot ∈ s.fab.linkUp → t.peerState slot = 1) ∧
        (slot ∉ s.fab.linkUp → t.peerState slot = 0) ∧ t.objs = s.objs ∧ t.mem = s.mem))

/-- R388, R390, R391, R392, R393, R394, R396, R403, R404: LINE_STORE, LINE_LOAD, DESC_FETCH, FABRIC_ATOMIC, FLAG, FLAG_APPLIED, TOKEN. A request of a
job that this device admits, to a target of the serving context, has its effect and is answered with success; one that reads an
uncorrectable half is answered so; one that a check refuses is recorded and answered with that code; one for another node is forwarded. A
flag waits for the stores it counts and is then applied, unless one of them failed. A command whose writes must wait for version pages waits
whole (`State.guarded`). -/
def Obligations.FabricRequestsServed : Prop :=
  ∀ (s : State) (h : FabHdr) (e x : Nat), s.arrives h.src = true →
    (h.dst ≠ s.node → ∀ mask data err op v rank ch,
      (h.wf 1 = true → exec (.lineStore h mask data) s = .next (s.guarded (s.forward h))) ∧
      (h.wf 2 = true → exec (.lineLoad h mask err) s = .next (s.forward h)) ∧
      (h.wf 3 = true → exec (.descFetch h) s = .next (s.forward h)) ∧
      (h.wf 4 = true → exec (.fabricAtomic h op v) s = .next (s.guarded (s.forward h))) ∧
      (h.wf 5 = true → exec (.flag h) s = .next (s.forward h)) ∧
      (h.wf 6 = true → exec (.token h rank ch) s = .next (s.forward h))) ∧
    (h.dst = s.node → h.deviceHeld = false → s.admission h false = .ok (e, x) →
      (∀ mask data, h.wf 1 = true → let a := h.address / 128 * 128
        (∀ l, s.targetRange x a 128 false true = .ok l → exec (.lineStore h mask data) s =
          .next (s.guarded (((s.storeLine l (storeBytes h mask data)).respond h 0 []).noteStore h 0))) ∧
        (∀ c, s.targetRange x a 128 false true = .error c →
          exec (.lineStore h mask data) s = .next (s.guarded ((s.reject h c).noteStore h c)))) ∧
      (∀ mask err, h.wf 2 = true → let r := loadRange h
        (∀ l, s.targetRange x r.1 r.2 true false = .ok l →
          let t := (s.readPieces 0 x l none).1
          (err = false → s.badPieces l = false →
            exec (.lineLoad h mask err) s = .next (t.respond h 0 (loadData h mask (s.seePieces l)))) ∧
          (err = true ∨ s.badPieces l = true → exec (.lineLoad h mask err) s = .next (t.respond h 0x4003 []))) ∧
        (∀ c, s.targetRange x r.1 r.2 true false = .error c → exec (.lineLoad h mask err) s = .next (s.reject h c))) ∧
      (let r := s.readDescs x [h.address % 2 ^ 16]
       (∀ k l g, h.wf 3 = true → r.fetched x h.address = .ok (k, l) → r.rangesFault x l = none →
         r.translate x (r.descAddr x k) 64 true false = .ok g → exec (.descFetch h) s = .next (r.respond h 0 (r.seePieces g))) ∧
       (∀ c, h.wf 3 = true → r.fetched x h.address = .error c → exec (.descFetch h) s = .next (r.reject h c)) ∧
       (∀ k l c, h.wf 3 = true → r.fetched x h.address = .ok (k, l) → r.rangesFault x l = some c →
         exec (.descFetch h) s = .next (r.reject h c)) ∧
       (∀ a, h.wf 5 = true → r.flagWord x h.address = .ok a → ∃ t, exec (.flag h) s = .next t ∧
         look t.fab.flags r.fab.nextFlag = some ⟨{ h with address := a }, r.failedAmong h h.seq⟩ ∧
         t.fab.nextFlag = r.fab.nextFlag + 1 ∧ t.fab.reqs = r.fab.reqs ∧ t.mem = r.mem ∧ t.cache = r.cache ∧ t.objs = r.objs) ∧
       (∀ c, h.wf 5 = true → r.flagWord x h.address = .error c → exec (.flag h) s = .next (r.reject h c))) ∧
      (∀ op v, h.wf 4 = true →
        (h.address % 8 ≠ 0 → exec (.fabricAtomic h op v) s = .next (s.guarded ((s.reject h 0x4021).noteStore h 0x4021))) ∧
        (∀ l, h.address % 8 = 0 → s.targetRange x h.address 8 false true = .ok l → let u := s.fetchPieces x l
          (u.badPieces l = false → exec (.fabricAtomic h op v) s = .next (s.guarded
            (((u.writePieces 0 l (leBytes 8 (atomicOp op 64 (leNat (u.seePieces l)) v.toNat))).respond h 0 []).noteStore h 0))) ∧
          (u.badPieces l = true → exec (.fabricAtomic h op v) s = .next (s.guarded ((u.respond h 0x4003 []).noteStore h 0x4003)))) ∧
        (∀ c, h.address % 8 = 0 → s.targetRange x h.address 8 false true = .error c →
          exec (.fabricAtomic h op v) s = .next (s.guarded ((s.reject h c).noteStore h c)))) ∧
      (∀ rank ch, h.wf 6 = true → let r := s.deliverToken x rank (ch % 32)
        (r.2 = true → exec (.token h rank ch) s = .next (r.1.respond h 0 [])) ∧
        (r.2 = false → exec (.token h rank ch) s = .next (r.1.respond h 0x7003 [])))) ∧
    (∀ code mask data err op v rank ch, h.dst = s.node → h.deviceHeld = false → s.admission h false = .error code →
      (h.wf 1 = true → exec (.lineStore h mask data) s = .next (s.guarded ((s.reject h code).noteStore h code))) ∧
      (h.wf 2 = true → exec (.lineLoad h mask err) s = .next (s.reject h code)) ∧
      (h.wf 3 = true → exec (.descFetch h) s = .next (s.reject h code)) ∧
      (h.wf 4 = true → exec (.fabricAtomic h op v) s = .next (s.guarded ((s.reject h code).noteStore h code))) ∧
      (h.wf 5 = true → exec (.flag h) s = .next (s.reject h code)) ∧
      (h.wf 6 = true → exec (.token h rank ch) s = .next (s.reject h code))) ∧
    (∀ i w, look s.fab.flags i = some w → let s1 := s.modFab fun f => { f with flags := del f.flags i }
      (w.failed ≠ 0 → exec (.flagApplied i) s = .next (s.guarded (s1.respond w.hdr w.failed []))) ∧
      (w.failed = 0 → w.hdr.deviceHeld = false → exec (.flagApplied i) s = .next (s.guarded (s1.flagHere w.hdr))) ∧
      (w.failed = 0 → w.hdr.deviceHeld = true → exec (.flagApplied i) s = .next (s.guarded (s1.markerHere w.hdr))))

/-- R144, R152, R369, R387, R388, R395, R397, R400, R401, R407, R410, R412: FABRIC_TRIGGER, FABRIC_COLL, FENCE_PUSH, FENCE_FORWARD, LOSS_NOTICE,
LOSS_NOTICE_HOLD_END, FABRIC_RESPONSE, FABRIC_REQUEST_TIMEOUT, and LINE_STORE and LINE_LOAD of device-held ranges. A trigger of an admitted
job goes to its block, a collective message to its instance, a fence signal to the exported fence, a push to every proxy of the job. A
loss notice not yet seen is passed on, ahead of what waits at its link, and held; at the end of its hold the loss is applied, or, of two nodes that name each other, that of
the higher. A response for this node ends its request and one for another is passed on, a time-out ends it with FAB_TIMEOUT. A device-held range is read or written where the sender
holds a grant, is held for a core that sleeps, and is refused where it holds none. A self-fenced device takes no response. A command whose writes must wait
for version pages waits whole (`State.guarded`). -/
def Obligations.TriggersFencesAndLosses : Prop :=
  ∀ (s : State) (h : FabHdr) (e x i : Nat),
    (s.arrives h.src = true → h.dst = s.node → h.deviceHeld = false →
      (∀ proc arg, h.wf 7 = true → s.admission h true = .ok (e, x) →
        let u := (s.readDescs x [proc]).readTrig x proc
        (∀ base k, u.trigBlock x proc = .ok (base, k) →
          exec (.fabricTrigger h proc arg) s = .next (s.guarded (u.takeTrig h e x proc arg base k))) ∧
        (∀ c, u.trigBlock x proc = .error c → exec (.fabricTrigger h proc arg) s = .next (s.guarded (u.reject h c)))) ∧
      (∀ msg, h.wf 8 = true → s.admission h false = .ok (e, x) → exec (.fabricColl h msg) s = .next (s.collHere h e msg)) ∧
      (∀ hf v code cause, h.wf 9 = true → s.admission h false = .ok (e, x) →
        let proxies := s.objs.fences.filter fun f => match f.2.home with
          | some (n, k, _) => n == h.src && k == hf && (match s.ctx f.2.owner with | some c => c.job == some e | none => false)
          | none => false
        (proxies ≠ [] → exec (.fencePush h hf v code cause) s = .next ((proxies.foldl
          (fun (t : State) f => t.pushProxy f.1 h.src v.toNat (code % 2 ^ 16) cause) s).respond h 0 [])) ∧
        (proxies = [] → exec (.fencePush h hf v code cause) s = .next (s.respond h 0x7003 []))) ∧
      (∀ f v k, h.wf 10 = true → s.admission h false = .ok (e, x) → s.fence f = some k →
        let mine := (∃ c, s.ctx k.owner = some c ∧ c.job = some e) ∨ k.held = true ∧ ∃ q ∈ k.proxies, q.1 = h.src
        (k.exported = some true → k.home = none → mine → exec (.fenceForward h f v) s = .next
          (((s.modFence f fun k => { k with proxies := addNew k.proxies (h.src, f) }).signal f v.toNat).respond h 0 [])) ∧
        (k.exported ≠ some true ∨ k.home ≠ none ∨ ¬mine → exec (.fenceForward h f v) s = .next (s.respond h 0x6004 []))) ∧
      (∀ code proc arg msg hf v cause, (h.wf 7 = true → s.admission h true = .error code →
          exec (.fabricTrigger h proc arg) s = .next (s.guarded (s.reject h code))) ∧
        (s.admission h false = .error code → (h.wf 8 = true → exec (.fabricColl h msg) s = .next (s.reject h code)) ∧
          (h.wf 9 = true → exec (.fencePush h hf v 0 cause) s = .next (s.reject h code)) ∧
          (h.wf 10 = true → exec (.fenceForward h hf v) s = .next (s.reject h code))))) ∧
    (s.arrives h.src = true → h.dst = s.node → h.deviceHeld = true →
      (∀ mask data, h.wf 1 = true → let a := h.address / 128 * 128
        (s.held h a 128 = none → exec (.lineStore h mask data) s = .next (s.guarded (s.reject h 0x7003))) ∧
        (∀ g, s.held h a 128 = some g → s.sleeping g = none → exec (.lineStore h mask data) s =
          .next (s.guarded ((s.heldWrite g (storeBytes h mask data)).respond h 0 []))) ∧
        (∀ g c, s.held h a 128 = some g → s.sleeping g = some c → exec (.lineStore h mask data) s =
          .next (s.guarded (s.holdRequest c false h a (storeBytes h mask data))))) ∧
      (h.wf 5 = true →
        (∀ a, s.held h h.address 8 = some (.hbm a) → exec (.flag h) s = .next (s.flagWaits h)) ∧
        (s.held h h.address 8 = none → exec (.flag h) s = .next (s.reject h 0x7003))) ∧
      (∀ mask, h.wf 2 = true → let r := loadRange h
        (s.held h r.1 r.2 = none → exec (.lineLoad h mask false) s = .next (s.reject h 0x7003)) ∧
        (∀ a, s.held h r.1 r.2 = some (.hbm a) → s.badPieces [(a, r.2, 0)] = false → exec (.lineLoad h mask false) s =
          .next (s.respond h 0 (loadData h mask ((s.twinView (h.src % 8) a r.2).getD (s.see a r.2))))) ∧
        (∀ a, s.held h r.1 r.2 = some (.hbm a) → s.badPieces [(a, r.2, 0)] = true → exec (.lineLoad h mask false) s =
          .next (s.respond h 0x4003 [])))) ∧
    (∀ lost origin via, s.alive = true → (lost, origin) ∉ s.fab.seen → ∃ t, exec (.lossNotice lost origin via) s = .next t ∧
      t.fab.notices = s.fab.notices ++ [(lost, origin)] ∧ t.fab.seen = s.fab.seen ++ [(lost, origin)] ∧
      (∀ l ∈ fabricLinks, s.linkUp l = true → l ≠ via → (s.wire l).formed < (t.wire l).formed ∨ .notice l ∈ t.fab.out) ∧
      t.fab.lostNodes = s.fab.lostNodes ∧ t.objs = s.objs ∧ t.mem = s.mem ∧ t.recd = s.recd) ∧
    (∀ lost origin via, (lost, origin) ∈ s.fab.seen → exec (.lossNotice lost origin via) s = .next s) ∧
    (∀ lost origin, (lost, origin) ∈ s.fab.notices → (∀ n ∈ s.fab.notices, n.1 = lost → s.holdsNotice n.2 lost = false) →
      exec (.lossNoticeHoldEnd lost) s = .next
        (({ s with fab := { s.fab with notices := s.fab.notices.filter fun n => n.1 != lost } } : State).applyLoss lost)) ∧
    (∀ lost other, s.fab.notices = [(lost, other), (other, lost)] → lost ≠ other → exec (.lossNoticeHoldEnd lost) s = .next
      ((({ s with fab := { s.fab with notices := [] } } : State).raise 0x7805 (leBytes 2 (max lost other) ++ leBytes 2 (min lost other))).applyLoss
        (max lost other))) ∧
    (∀ r, look s.fab.reqs i = some r → r.waiting = false → (∀ n l, r.kind ≠ .mirror n l) →
      (∀ resp : FabResp, s.fab.selfFenced = true → exec (.fabricResponse i resp) s = .next s) ∧
      (∀ resp : FabResp, s.fab.selfFenced = false → resp.dst = s.node → resp.src = r.dst →
        exec (.fabricResponse i resp) s = .next (s.guarded (s.endReq i (resp.code % 2 ^ 16) resp.data))) ∧
      (∀ resp : FabResp, s.fab.selfFenced = false → resp.dst ≠ s.node →
        exec (.fabricResponse i resp) s = .next (s.guarded (s.forwardResp resp))) ∧
      (r.kind.timed = true → r.dst / 8 = s.pins.strapTray → exec (.fabricRequestTimeout i) s =
        .next ((s.bump (offPeer (r.dst % 8) 0x30) 1).endReq i 0x7005 [])) ∧
      (r.kind.timed = true → r.dst / 8 ≠ s.pins.strapTray → exec (.fabricRequestTimeout i) s = .next (s.endReq i 0x7005 [])))

/-! ### Survival (14) -/

/-- R420 to R424, R438: PAIR_GO, PAIR_REQUEST_RECEIVED, PAIR_TIMEOUT, UNPAIR, SWAP_REQ. A device that is neither pairing nor paired and names a
peer that is up goes to pairing and sends its request; naming one that is not up is refused; a request from a peer is kept for the
device's own pair_go; a pairing that times out is refused and stays unpaired; an unpair ends the pair, lapses every protected job and keeps only
promoted twins, the pages of the others coming free.
A device pairs with the peer whose request it holds only where both pools hold 64 pages or more and the peer's holds its shares, and where the
feeds differ or both sides force; else the pairing is refused with PAIR_REFUSED and the device stays unpaired. -/
def Obligations.PairingRuns : Prop :=
  ∀ (s : State) (src : Nat) (r : PairReq),
    (let k := fld (s.reg (offTf 0x8000)) 0 3
     s.surv.pair ≠ .pairing → s.surv.pair ≠ .paired →
      (s.peerState k ≠ 1 → exec .pairGo s = .next (s.pairRefused 0x7021)) ∧
      (∀ r', s.peerState k = 1 → look s.surv.requests k = some r' → r'.names = s.pins.strapSlot → ∃ t : State, exec .pairGo s = .next (t.tryPair r') ∧
        t.surv.pair = .pairing ∧ t.surv.partner = k ∧ t.surv.prots = s.surv.prots) ∧
      (s.peerState k = 1 → look s.surv.requests k = none → ∃ t q, exec .pairGo s = .next t ∧ t.surv.pair = .pairing ∧ t.surv.partner = k ∧
        look t.fab.reqs s.fab.nextReq = some q ∧ q.dst = s.pins.strapTray * 8 + k ∧ q.kind = .store ∧
        q.data = leBytes 1 (b2n (s.ident.grade == .tray)) ++ leBytes 2 s.node ++ leBytes 1 s.pins.strapFeed ++ leBytes 4 s.poolPages ∧
        t.surv.prots = s.surv.prots ∧ t.objs = s.objs ∧ t.mem = s.mem)) ∧
    (src / 8 = s.pins.strapTray → s.peerState (src % 8) = 1 →
      (s.surv.pair ≠ .pairing → exec (.pairRequestReceived src r) s =
        .next (s.modSurv fun v => { v with requests := put v.requests (src % 8) { r with node := src } })) ∧
      (s.surv.pair = .pairing → s.surv.partner = src % 8 → r.names = s.pins.strapSlot →
        exec (.pairRequestReceived src r) s = .next (s.tryPair { r with node := src }))) ∧
    (s.surv.pair = .pairing → ∃ t, exec .pairTimeout s = .next t ∧ t.surv.pair = .unpaired ∧ t.surv.lastCode = 0x7021 ∧
      t.surv.prots = s.surv.prots ∧ t.regs = s.regs ∧ t.fab = s.fab ∧ t.mem = s.mem) ∧
    (s.surv.pair = .partnerLost → ∃ t, exec .unpair s = .next t ∧ t.surv.pair = .unpaired ∧
      t.surv.twins = s.surv.twins.filter (fun t => t.promoted) ∧
      t.surv.poolFree = s.surv.poolFree + ((s.surv.twins.filter fun t => !t.promoted).map fun t => t.reserved).sum ∧ t.surv.prots = s.surv.prots ∧ t.fab = s.fab ∧ t.mem = s.mem) ∧
    (s.surv.pair = .paired → exec .unpair s = .next ((s.modSurv fun v =>
      { v with pair := .unpaired, weak := false, twins := v.twins.filter fun t => t.promoted,
               poolFree := v.poolFree + ((s.surv.twins.filter fun t => !t.promoted).map fun t => t.reserved).sum }).lapseAll)) ∧
    (∃ t, exec .swapReq s = .next t ∧ t.surv.swapPending = true ∧ t.surv.swapReady = false ∧ t.surv.prots = s.surv.prots ∧ t.regs = s.regs) ∧
    (s.surv.prots = [] →
    let force := bit (s.reg (offTf 0x8000)) 3 && r.force
    (s.poolPages < 64 ∨ r.poolPages < 64 ∨ s.poolOverlaps = true ∨ r.poolOk = false →
      (s.tryPair r).surv.pair = .unpaired ∧ (s.tryPair r).surv.lastCode = 0x7022 ∧
      (s.tryPair r).recd.intake = s.recd.intake ++ [s.eventNow 0x7810 (leBytes 1 (fld (s.reg (offTf 0x8000)) 0 3) ++ leBytes 2 0x7022)]) ∧
    (64 ≤ s.poolPages → 64 ≤ r.poolPages → s.poolOverlaps = false → r.poolOk = true →
      (r.feed = s.pins.strapFeed → force = false → (s.tryPair r).surv.pair = .unpaired ∧ (s.tryPair r).surv.lastCode = 0x7020) ∧
      (r.feed ≠ s.pins.strapFeed → (s.tryPair r).surv.pair = .paired ∧ (s.tryPair r).surv.weak = false ∧
        (s.tryPair r).surv.partner = fld (s.reg (offTf 0x8000)) 0 3 ∧ (s.tryPair r).surv.partnerFeed = r.feed ∧
        (s.tryPair r).recd = s.recd) ∧
      (r.feed = s.pins.strapFeed → force = true → (s.tryPair r).surv.pair = .paired ∧ (s.tryPair r).surv.weak = true ∧
        (s.tryPair r).recd.intake = s.recd.intake ++ [s.eventNow 0x7811 (leBytes 1 (fld (s.reg (offTf 0x8000)) 0 3) ++ leBytes 1 r.feed)])))

/-- R440, R441, R445: what a write does to a protected page of a job. While a seal close holds the page's writes, the write is held. The first
write to a frozen page copies it first into a version page, for the settled seal and for an open one whose close has frozen it; where no
version page is free and only the settled seal needs the copy, the page waits. A command that led to such a write changes nothing but the
waits, the seals abandoned for them, and what is recorded of that, and is given again (the model's choice, log 2); a command without one has all
its effects. -/
def Obligations.WritesWaitForVersionPages : Prop :=
  (∀ (s t : State),
    (s.mustWait t = false → s.guarded t = t) ∧
    (s.mustWait t = true →
      let u := s.guarded t
      u.mem = s.mem ∧ u.cache = s.cache ∧ u.regs = s.regs ∧ u.objs = s.objs ∧ u.fab = s.fab ∧ u.cores = s.cores ∧ u.te = s.te ∧
      u.ge = s.ge ∧ u.seqs = s.seqs ∧ u.uu = s.uu ∧ u.host = s.host ∧ u.hbm = s.hbm ∧ u.surv.heldWrites = s.surv.heldWrites ∧
      u.surv.poolFree = s.surv.poolFree ∧
      (∀ e p, look s.surv.prots e = some p → ∃ q, look u.surv.prots e = some q ∧ ∀ g ∈ s.waitsMade t e, g ∈ q.cowWaits)) ∧
    (∀ g e p q, look s.surv.prots e = some p → look t.surv.prots e = some q → p.cowWaits.count g < q.cowWaits.count g →
      s.mustWait t = true ∧ g ∈ s.waitsMade t e)) ∧
  (∀ (s : State) (a : Nat) (bytes : List Byte), s.holdsAt a = true →
    (∀ p policy, s.writeLine p policy a bytes = s.holdWrite ⟨some (p, policy), a, bytes⟩) ∧
    s.hbmWrite a bytes = s.holdWrite ⟨none, a, bytes⟩ ∧ (∀ t : State,
      s.surv.heldWrites.length ≤ t.surv.heldWrites.length → s.mustWait (t.holdWrite ⟨none, a, bytes⟩) = true)) ∧
  (∀ (s : State) (a j page size : Nat) (p : Prot), s.protPage p true true a = some (page, size) →
    (page ∉ p.frozen → s.touchProt a j p = s) ∧
    (page ∈ p.frozen →
      let bytes := cellGets s.mem page (pageBytes size)
      let p0 := { p with frozen := drop1 p.frozen page, settled := p.settled.map (addVersion page s.surv.nextVersion bytes),
                         cowWaits := p.cowWaits.filter fun g => g != page }
      let p1 := { p0 with openSeal := if p.opening then p.openSeal else p.openSeal.map (addVersion page s.surv.nextVersion bytes) }
      (versionPages p1 ≤ s.versionRoom p → look (s.touchProt a j p).surv.prots j = some p1 ∧
        (s.touchProt a j p).surv.nextVersion = s.surv.nextVersion + 1 ∧ (s.touchProt a j p).mem = s.mem) ∧
      (s.versionRoom p < versionPages p1 → p.openSeal = none → p.settled ≠ none →
        look (s.touchProt a j p).surv.prots j = some { p0 with cowWaits := p0.cowWaits ++ [page] } ∧ (s.touchProt a j p).mem = s.mem)))

/-- R426, R428, R430, R432, R433, R437, R440 to R443, R451: PROTECT_ENABLE, PROTECT_DISABLE, MIRROR_STORE_ACK, STEP_CLOSE_READY, MARKER_ACK,
SEAL_WRITEBACK_DONE, SEAL_STREAM_ACK. Protection reserves its share of the pool before its state becomes anything but off; without a
pair it lapses at once; its end gives the share back, tells the partner to discard its twin and lets held writes go. A mirror store acknowledged is
no longer outstanding, and its line's journal bit is cleared unless the line was written since. A close goes on when nothing it waits for is
left; an acknowledged marker of a step releases the UPDATEs held behind it, that of a seal close ends the close. The
seal record that a device builds is 256 bytes and passes the checks of R451 against the same protection table; a completed seal holds it
and its page digests. -/
def Obligations.ProtectionRuns : Prop :=
  ∀ (s : State) (e : Nat) (p : Prot),
    (∀ j es, look s.objs.jobs e = some j → s.prot e = none → s.protTable e = some es → s.surv.pair ≠ .paired →
      let p0 : Prot := { protOff j.id 0 with entries := es, state := .lapsed, share := fld (s.written (offTf 0x8028)) 0 2 }
      (s.surv.poolFree < s.localShare p0 → exec (.protectEnable e) s = .next (s.setProt e (protOff j.id 0x7028))) ∧
      (s.localShare p0 ≤ s.surv.poolFree → ∃ t, exec (.protectEnable e) s = .next t ∧
        look t.surv.prots e = some { p0 with reserved := s.localShare p0 } ∧ t.surv.poolFree = s.surv.poolFree - s.localShare p0 ∧
        t.objs = s.objs ∧ t.mem = s.mem ∧ t.regs = s.regs ∧ t.fab = s.fab)) ∧
    (∀ j, look s.objs.jobs e = some j → s.prot e = none → s.protTable e = none →
      exec (.protectEnable e) s = .next (s.setProt e (protOff j.id 0x7023))) ∧
    (s.prot e = some p →
      (p.closing = none →
        let s3 := (s.releaseHeld e).dropReqs fun r => r.kind.ofJob e
        let surv : Surv := { s3.surv with prots := put s3.surv.prots e (protOff p.job 0), poolFree := s3.surv.poolFree + p.reserved }
        let s4 : State := { s3 with surv := surv }
        exec (.protectDisable e) s = .next ((s4.note e p.job .discard 0 0 []).releaseWrites) ∧
        (s.surv.heldWrites = [] → ∃ t, exec (.protectDisable e) s = .next t ∧ look t.surv.prots e = some (protOff p.job 0) ∧
          t.surv.poolFree = s.surv.poolFree + p.reserved ∧ (∀ r ∈ t.fab.reqs, ∀ ln, r.2.kind ≠ .mirror e ln) ∧ t.objs = s.objs ∧
          t.mem = s.mem)) ∧
      (∀ line m, (p.mirrors.find? fun m => m.1 == line) = some m →
        let p1 := { p with mirrors := p.mirrors.filter fun m => m.1 != line, journal := if m.2 then p.journal else drop1 p.journal line }
        ((s.fab.reqs.find? fun r => r.2.kind == ReqKind.mirror e line) = none →
          exec (.mirrorStoreAck e line) s = .next (((s.setProt e p1).drain e).baselineDone e)) ∧
        (∀ i r, (s.fab.reqs.find? fun r => r.2.kind == ReqKind.mirror e line) = some (i, r) →
          exec (.mirrorStoreAck e line) s = .next ((((s.setProt e p1).dropReq i).drain e).baselineDone e))) ∧
      (∀ c, p.closing = some c →
        (c.phase = .step → s.updatesOpen e = false → (p.drained = true ∨ s.mirroring p = false) →
          exec (.stepCloseReady e) s = .next (s.guarded (s.stepClosed e p c))) ∧
        (c.phase = .step → (s.updatesOpen e = true ∨ (p.drained = false ∧ s.mirroring p = true)) → exec (.stepCloseReady e) s = .next s) ∧
        (p.markerSent = false → c.phase = .marker → exec (.markerAck e) s = .next ((s.dropMarker e true).sealClosed e p c)) ∧
        (p.markerSent = false → c.phase ≠ .marker → exec (.markerAck e) s = .next s) ∧
        (c.phase = .writeback → s.mirroring p = false → exec (.sealWritebackDone e) s = .next (s.sealClosed e p c)) ∧
        (c.phase = .writeback → s.mirroring p = true → p.journal ≠ [] → exec (.sealWritebackDone e) s = .next s) ∧
        (c.phase = .writeback → s.mirroring p = true → p.journal = [] → exec (.sealWritebackDone e) s =
          .next ((s.setProt e { p with closing := some { c with phase := .marker } }).sendMarker
            e p true (lookD s.objs.jobs e noJob).step))) ∧
      (p.markerSent = true → exec (.markerAck e) s = .next ((s.dropMarker e false).releaseHeld e)) ∧
      (∀ close, (∀ r ∈ s.fab.reqs, r.2.kind ≠ .marker e close) → s.dropMarker e close = s) ∧
      (∀ i r close, (s.fab.reqs.find? fun r => r.2.kind == ReqKind.marker e close) = some (i, r) → s.dropMarker e close = s.dropReq i) ∧
      (p.stage = .streaming → s.surv.pair = .paired → exec (.sealStreamAck e) s = .next
        ((s.dropReqs fun r => match r.kind with | .twin x _ => x == e | _ => false).setProt e { p with
        stage := .complete
        openSeal := p.openSeal.map fun x => { x with digests := s.pageDigests p x, record := s.sealRecord p x (s.pageDigests p x) } }))) ∧
    (∀ x ds, (s.sealRecord p x ds).length = 0x100 ∧ s.recordFault p (s.sealRecord p x ds) = none)

/-- R451 to R454: RESTORE_GO and RESTORE_COMPLETE. A restore starts where the job is protected, none of its kernels is bound or pre-empted, its
source holds a seal (the local one with its versions intact) and the seal's record passes its checks, else it is refused with the code of the
first check it fails and nothing else changes. A completed local one writes back the seal's pages, up to the first that fails its digest,
which stops it, and applies its schedule, which is checked too. One from the partner writes the pages that pass their digests; a source that was lost, or
a digest that fails, stops it before the schedule. -/
def Obligations.RestoresRun : Prop :=
  ∀ (s : State) (e : Nat) (p : Prot) (record : List Byte),
    (look s.surv.prots e = none →
      exec (.restoreGo e record) s = .next (s.setProt e (protOff (lookD s.objs.jobs e noJob).id 0x7025))) ∧
    (look s.surv.prots e = some p →
      let refused (code : Nat) : Host.Outcome State Fault Refusal := .next (s.setProt e { p with lastCode := code })
      let started (partner : Bool) (r : List Byte) : Host.Outcome State Fault Refusal := .next (s.setProt e
        { p with state := .restoring, fromPartner := partner, fetched := r, openSeal := none, stage := .none })
      (p.state = .off ∨ p.state = .restoring ∨ s.jobBusy e = true → exec (.restoreGo e record) s = refused 0x7025) ∧
      (p.state ≠ .off → p.state ≠ .restoring → s.jobBusy e = false → bit (s.reg (offSurv e 0x20)) 1 = false →
        (∀ x, p.settled = some x → x.intact = true →
          (s.recordFault p x.record = none → exec (.restoreGo e record) s = started false x.record) ∧
          (∀ code, s.recordFault p x.record = some code → exec (.restoreGo e record) s = refused code)) ∧
        (∀ x, p.settled = some x → x.intact = false → exec (.restoreGo e record) s = refused 0x7026) ∧
        (p.settled = none → exec (.restoreGo e record) s = refused 0x7026)) ∧
      (p.state ≠ .off → p.state ≠ .restoring → s.jobBusy e = false → bit (s.reg (offSurv e 0x20)) 1 = true →
        (s.surv.pair ≠ .paired → exec (.restoreGo e record) s = refused 0x7026) ∧
        (s.surv.pair = .paired → s.recordFault p record = none → exec (.restoreGo e record) s = started true record) ∧
        (∀ code, s.surv.pair = .paired → s.recordFault p record = some code → exec (.restoreGo e record) s = refused code))) ∧
    (s.prot e = some p → p.state = .restoring → ∀ lost digests pages,
      let s0 := (p.entries.flatMap fun t => if t.cls ≤ 1 then s.entryPages t else []).foldl
        (fun (t : State) g => t.dropRange g.1 (pageBytes g.2)) s
      (p.fromPartner = false →
        (∀ x failed, p.settled = some x →
          let back := s0.localPages p x
          let read := match failed with | some n => back.take n | none => back
          let good := read.takeWhile (s0.pageMatches p x.digests)
          let s1 := good.foldl (fun t g => t.restorePage g) s0
          (failed ≠ none ∨ good.length < back.length ∨ sha384 (x.sched.bytes p.job) ≠ sliceBytes x.record 0xA0 48 →
            exec (.restoreComplete e lost failed digests pages) s = .next (s1.restoreStops e p 0x7027)) ∧
          (failed = none → good.length = back.length → sha384 (x.sched.bytes p.job) = sliceBytes x.record 0xA0 48 →
            exec (.restoreComplete e lost failed digests pages) s = .next (s1.restored e p x.sched x.digests))) ∧
        (∀ failed, p.settled = none → exec (.restoreComplete e lost failed digests pages) s = .next (s0.restoreStops e p 0x7026))) ∧
      (p.fromPartner = true → ∀ failed, let given := pages.filter fun g => g.1 != schedAddr
        let good := given.takeWhile (s0.pageMatches p digests)
        let s1 := good.foldl (fun (t : State) g => (t.touch g.1).restorePage g) s0
        sha384 digests.flatten = sliceBytes p.fetched 0x70 48 →
        (lost = true → exec (.restoreComplete e lost failed digests pages) s = .next (s1.restoreStops e p 0x7029)) ∧
        (lost = false → good.length < given.length →
          exec (.restoreComplete e lost failed digests pages) s = .next (s1.restoreStops e p 0x7027)) ∧
        (∀ b, lost = false → good.length = given.length → look pages schedAddr = some b → sha384 b = sliceBytes p.fetched 0xA0 48 →
          ((s0.sealPages p).all fun a => given.any fun g => g.1 == a) = true →
          exec (.restoreComplete e lost failed digests pages) s = .next (s1.restored e p (s1.parseSched p b) digests)) ∧
        (∀ b, lost = false → look pages schedAddr = some b → sha384 b ≠ sliceBytes p.fetched 0xA0 48 →
          exec (.restoreComplete e lost failed digests pages) s = .next (s1.restoreStops e p 0x7027))) ∧
      (p.fromPartner = true → ∀ failed, lost = false → sha384 digests.flatten ≠ sliceBytes p.fetched 0x70 48 →
        exec (.restoreComplete e lost failed digests pages) s = .next (s0.restoreStops e p 0x7027))) ∧
    (s.prot e = some p → p.state ≠ .restoring → ∀ lost failed digests pages,
      exec (.restoreComplete e lost failed digests pages) s = .next s)

/-- R446, R447, R455, R456, R461: SPARE_GO, REPLACEMENT_TILES_ENDED, SPARE_IN, OPERATING_MINUTE. A live trigger for an enabled core takes the
lowest spare of its die and lets no new tile start on the core, waits for the replacement in progress, or is recorded as SPARE_EXHAUSTED; a number that is no core's (R7) names
none; when
its tiles have ended the constellation is pre-empted, after a seal close or a pre-emption under way; when its members have saved, the spare
takes the core's place. An operating minute counts, closes the minute's counts, evaluates the risk and starts a flush. -/
def Obligations.SparesAndMinutes : Prop :=
  ∀ (s : State) (c k : Nat),
    (c < 2048 → let s1 := s.setField (offDk 0x820) 13 11 c
      (1088 ≤ c → exec (.spareGo c) s = .next s1) ∧
      (c < 1088 → s1.kind c = .enabled → c ∉ s1.surv.spareDue → (∀ r n, s1.surv.spare ≠ some (c, r, n)) →
      (s1.spareFor c = none → exec (.spareGo c) s = .next (s1.raise 0xB808 (leBytes 2 c))) ∧
      (s1.spareFor c = some k → s1.surv.spare = none → ∃ t, exec (.spareGo c) s = .next t ∧ t.surv.spare = some (c, k, 0) ∧
        (t.core c).noNewTile = true ∧ (∀ d, d ≠ c → t.core d = s.core d) ∧ t.seqs = s.seqs ∧ t.mem = s.mem ∧ t.recd = s.recd) ∧
      (∀ d r n, s1.spareFor c = some k → s1.surv.spare = some (d, r, n) → d ≠ c →
        exec (.spareGo c) s = .next (s1.modSurv fun v => { v with spareDue := v.spareDue ++ [c] })))) ∧
    (s.surv.spare = some (c, k, 0) → s.sealHolds = true → exec .replacementTilesEnded s = .next s) ∧
    (s.surv.spare = some (c, k, 0) → s.sealHolds = false →
      (s.coreSeq c = none → exec .replacementTilesEnded s = .next (s.modSurv fun v => { v with spare := some (c, k, 1) })) ∧
      (∀ sq q, s.coreSeq c = some (sq, q) → q.preempting = true → exec .replacementTilesEnded s = .next s) ∧
      (∀ sq q, s.coreSeq c = some (sq, q) → q.preempting = false → exec .replacementTilesEnded s =
        .next ((s.setSeq sq { q with preempting := true }).modSurv fun v => { v with spare := some (c, k, 1) }))) ∧
    (s.surv.spare = some (c, k, 1) →
      (∀ sq q, s.coreSeq c = some (sq, q) → (q.members.all fun m => (s.core m).saved.length == 3) = true →
        exec .spareIn s = .next (((s.moveRank sq q c k).resumeInPlace sq).endReplace c k)) ∧
      (∀ sq q, s.coreSeq c = some (sq, q) → (q.members.all fun m => (s.core m).saved.length == 3) = false → exec .spareIn s = .next s) ∧
      (∀ z v r, s.coreSeq c = none → s.storeOwner c = some (z, v, r) → exec .spareIn s = .next ((s.saveStore z v r c).endReplace c k)) ∧
      (s.coreSeq c = none → s.storeOwner c = none → exec .spareIn s = .next (s.endReplace c k))) ∧
    (∀ o, s.pins.duskReady = false → exec (.operatingMinute o) s = .next s) ∧
    (∀ o, s.pins.duskReady = true → ∃ t, exec (.operatingMinute o) s = .next t ∧ t.recd.opMinutes = s.recd.opMinutes + 1 ∧
      t.recd.flushing = true ∧ t.sec.hubFails = [] ∧ t.pwr.minuteLowMv = 0 ∧ (s.surv.riskLevel < 4 → t.surv.riskLevel < 4) ∧
      t.reg (offPg 0x38) = s.pwr.minuteLowMv % 2 ^ 64 ∧ t.mem = s.mem ∧ t.objs = s.objs ∧ t.seqs = s.seqs)

/-! ### The event recorder (17) -/

/-- R522 to R528: EVENT_INTAKE, FLUSH_NOW, FLUSH_DONE, LOG_CLEAR, EV_LOOKUP, EV_LOOKUP_DONE. The first event at the intake becomes the next
record where its code has a token, else it is counted as suppressed; a flush ends with nothing unflushed, at power-down with the clean flag;
each failed program is counted, the first is recorded and retried in the next block, and the retry's failure gives up; a lookup gives the
record with the smallest number at or after its own, from the ring or the flash. With nothing at the intake, no flush or no lookup, their
commands change nothing. -/
def Obligations.RecorderCommands : Prop :=
  ∀ (s : State), s.pins.duskReady = true →
    (∀ e rest, s.recd.intake = e :: rest → let s1 := s.modRecd fun r => { r with intake := rest }
      ((bucketDefault e.code).isSome = true → (s.bucket e.code).tokens = 0 → exec .eventIntake s = .next (s1.suppress e.code)) ∧
      ((bucketDefault e.code).isSome = false ∨ 0 < (s.bucket e.code).tokens → s.recd.seqNext < s.recd.lastMark →
        exec .eventIntake s = .next (s1.makeRecord e))) ∧
    exec .flushNow s = .next (s.modRecd fun r => { r with flushing := true }) ∧
    (s.recd.flushing = true →
      (∃ t, exec (.flushDone true) s = .next t ∧ t.recd.flushing = false ∧ t.recd.flushFails = 0 ∧ (∀ k ∈ t.recd.ring, k.flushed = true) ∧
        t.recd.seqNext = s.recd.seqNext ∧ t.recd.ring.length = s.recd.ring.length ∧ t.recd.cleanNow = !s.pins.railsOn ∧ t.mem = s.mem ∧
        t.objs = s.objs) ∧
      (s.recd.flushFails ≠ 1 → exec (.flushDone false) s = .next (((s.bump (offEv 0x40) 1).modRecd fun r =>
        { (r.room 0x1_0000) with flushFails := 1, flashFail := true }).raise 0xB80B (leBytes 1 (s.recd.block % 128)))) ∧
      (s.recd.flushFails = 1 → exec (.flushDone false) s = .next ((s.bump (offEv 0x40) 1).modRecd fun r =>
        { r with flushing := false, flushFails := 2 }))) ∧
    (s.recd.flushing = false → ∀ ok, exec (.flushDone ok) s = .next s) ∧ (s.recd.intake = [] → exec .eventIntake s = .next s) ∧
    (∀ w, (s.window w).busy = false → exec (.evLookupDone w) s = .next s) ∧
    (∃ t, exec .logClear s = .next t ∧ t.recd.ring = [] ∧ t.recd.flash = [] ∧ t.recd.seqNext = s.recd.seqNext ∧
      t.recd.intake = s.recd.intake ∧ t.recd.buckets = s.recd.buckets ∧ t.regs = s.regs) ∧
    (∀ w n, (w = 4 ∨ w < 4 ∧ (s.port w).up = true) → exec (.evLookup w n) s =
      .next (s.setWindow w { s.window w with seq := n, busy := true })) ∧
    (∀ w, (s.window w).busy = true → ∃ t, exec (.evLookupDone w) s = .next t ∧ (t.window w).busy = false ∧
      (t.window w).seq = (s.window w).seq ∧ (∀ v, v ≠ w → t.window v = s.window v) ∧
      ((∀ r ∈ s.recd.ring ++ s.recd.flash, r.seq < (s.window w).seq.toNat) → (t.window w).found = false) ∧
      ((∃ r ∈ s.recd.ring ++ s.recd.flash, (s.window w).seq.toNat ≤ r.seq) → (t.window w).found = true ∧
        ∃ r ∈ s.recd.ring ++ s.recd.flash, (t.window w).record = r.bytes ∧ (s.window w).seq.toNat ≤ r.seq ∧
          (∀ r' ∈ s.recd.ring ++ s.recd.flash, (s.window w).seq.toNat ≤ r'.seq → r.seq ≤ r'.seq)))

/-- R522: "Sequence numbers rise by 1 with each record": a record takes the next number, and stands last in the ring; an event
taken from the intake moves the number by 1 where it is recorded and leaves it where it is not. -/
def Obligations.SequenceNumbersRise : Prop :=
  (∀ (s : State) (e : RawEvent), ∃ r, (s.makeRecord e).recd.ring.getLast? = some r ∧ r.seq = s.recd.seqNext ∧ r.code = e.code ∧
    (s.makeRecord e).recd.seqNext = s.recd.seqNext + 1) ∧
  (∀ (s t : State), exec .eventIntake s = .next t → t.recd.seqNext = s.recd.seqNext ∨ t.recd.seqNext = s.recd.seqNext + 1)

/-! ### Power, clocks and pins (15, 18) -/

/-- R467 to R470, R484, R485: SLOW_LOOP and FAST_LOOP. A slow loop adopts the limit last written, takes the interval's mean voltage and current
into the input register, adds its energy, and moves the governor and its budget by the rule for its state, with THERM_N as its readings leave it; an
interval outside 40 to 60 V takes the input out of its range (the model's choice, log 48); a
peak that starts is counted and no other interval counts one. A fast loop moves a die's cap by 4 down to 8, by 1 up to 64, or holds it at 8 while
THERM_N is low, and gives it to the die's cores that hold work and to no other; a gated die's loop stands still. -/
def Obligations.BudgetsAndCapsMove : Prop :=
  ∀ (s : State) (o : SlowObs) (die power : Nat),
    (s.pins.duskReady = true → ∃ t, exec (.slowLoop o) s = .next t ∧ t.objs = s.objs ∧ t.mem = s.mem ∧ t.fab = s.fab ∧ t.seqs = s.seqs ∧
      t.pwr.energy = s.pwr.energy + o.watts ∧
      t.reg (offPg 0x10) = o.milliVolts % 2 ^ 16 + o.watts * 10000 / max 1 o.milliVolts % 2 ^ 16 * 2 ^ 16 ∧
      t.pins.thermModule = (slowAlarm o).1 ∧
      t.pins.inRange = (s.pins.inRange && (decide (40000 ≤ o.milliVolts) && decide (o.milliVolts ≤ 60000))) ∧
      (let a := s.adopt (offPg 0) 0 8
       let k := s.pwr.interval a.powerLimit o.watts o.milliVolts (s.pins.thermBoard || (slowAlarm o).1) a.peakEn
       t.pwr.gov = k.1.gov ∧ t.pwr.overN = k.1.overN ∧ t.pwr.cool = k.1.cool ∧ t.pwr.excess = k.1.excess ∧
       t.pwr.budget = (k.1.moduleBudget a.powerLimit o.milliVolts a.peakEn).1 ∧
       (k.2 = false → t.reg (offPg 0x28) = s.reg (offPg 0x28)) ∧
       (k.2 = true → t.reg (offPg 0x28) = (s.reg (offPg 0x28) + 1) % 2 ^ 64))) ∧
    (die < 16 → s.alive = true → (s.die die).gated = false →
      let k := s.die die
      ∃ t, exec (.fastLoop die power) s = .next t ∧ t.regs = s.regs ∧ t.objs = s.objs ∧ t.mem = s.mem ∧ t.recd = s.recd ∧
        (s.thermLow = true → (t.die die).cap = 8) ∧
        (s.thermLow = false →
          (k.budget < power → (t.die die).cap = max 8 (k.cap - 4)) ∧
          (power ≤ k.budget → power * 100 < k.budget * 98 → (t.die die).cap = min 64 (k.cap + 1)) ∧
          (power ≤ k.budget → k.budget * 98 ≤ power * 100 → (t.die die).cap = k.cap)) ∧
        (t.die die).budget = k.budget ∧ (∀ d, d ≠ die → t.die d = s.die d) ∧
        (∀ c,
          t.core c = if c / 68 = die ∧ (s.core c).holdsWork = true then { s.core c with cap := (t.die die).cap } else s.core c)) ∧
    ((s.die die).gated = true → exec (.fastLoop die power) s = .next s)

/-- R467, R470: the governor's interval. From normal, power above the limit in effect starts a peak where peaks are enabled; a peak ends, and the
cooldown begins with the budget lowered by a ninety-thousandth of a thousand times the excess, at the first interval at or below the limit or
after 99 intervals above it; the cooldown lasts 900 intervals and then the excess is cleared; THERM_N low begins it at any time. -/
def Obligations.GovernorRuns : Prop :=
  ∀ (k : Power) (limit p mv : Nat) (peak : Bool),
    let lim := min limit (currentWatts mv)
    let r := k.interval limit p mv false peak
    (k.gov = .normal → (lim < p → peak = true → r.2 = true ∧ r.1.gov = .peak ∧ r.1.overN = 1) ∧
      (p ≤ lim ∨ peak = false → r.2 = false ∧ r.1 = k)) ∧
    (k.gov = .peak → r.2 = false ∧
      (p ≤ lim → r.1.gov = .cool ∧ r.1.cool = 900 ∧ r.1.bCool = sub32 lim (k.excess * 1000 / 90000) ∧ r.1.excess = k.excess) ∧
      (lim < p → k.overN = 98 → r.1.gov = .cool ∧ r.1.cool = 900) ∧
      (lim < p → k.overN < 98 → r.1.gov = .peak ∧ r.1.overN = k.overN + 1 ∧ r.1.excess = (k.excess + (p - lim) / 10) % 2 ^ 32)) ∧
    (k.gov = .cool → r.2 = false ∧
      (k.cool = 1 → r.1.gov = .normal ∧ r.1.excess = 0) ∧
      (1 < k.cool → k.cool ≤ 900 → r.1.gov = .cool ∧ r.1.cool = k.cool - 1 ∧ r.1.excess = k.excess)) ∧
    (let c := (k.interval limit p mv true peak).1
     c.gov = .cool ∧ c.cool = 899 ∧ c.bCool = sub32 lim (k.excess * 1000 / 90000) ∧ c.excess = k.excess)

/-- R151, R152, R475 to R477, R485 to R487: CLOCK_GATE, POWER_GATE, CORE_WAKE_REQUEST, RAMP_ADMITTED, CORE_WAKE_DONE, DIE_GATE,
DIE_WAKE_REQUEST, DIE_WAKE_DONE. An idle running core is clock-gated, its idle thresholds taken as it goes idle, and a clock-gated one power-gated; a request
wakes a gated core at once, or puts a power-gated one in the queue for one of its die's 8 ramps; its held arrivals are delivered in order as it runs
again, and one that fails its check is replaced, its held arrivals delivered all the same. A request of a core on a gated die wakes the die first. A die
whose enabled cores are all power-gated gates unless WAKE_N is low or a request is at its slices or controllers, and a request wakes it; it serves again
once its PLLs are in lock, and then the core wakes and reads that waited for it go on. -/
def Obligations.GatingFollowsIdleness : Prop :=
  ∀ (s : State) (c d : Nat),
    (c < 1088 → s.alive = true →
      (s.kind c = .enabled → (s.core c).clk = .running → (s.core c).waking = false → (s.core c).idleNow = true → s.coreSaving c = false →
        ∃ t, exec (.clockGate c) s = .next t ∧ t.core c = { s.core c with clk := .clockGated } ∧ (∀ c', c' ≠ c → t.core c' = s.core c') ∧
          t.objs = s.objs ∧ t.seqs = s.seqs ∧ t.mem = s.mem ∧ t.regs = s.regs ∧ (∀ e, e ≠ c / 68 → t.die e = s.die e) ∧
          (t.die (c / 68)).cap = (s.die (c / 68)).cap ∧ (t.die (c / 68)).gated = (s.die (c / 68)).gated ∧
          look (t.die (c / 68)).idles c = some (lookD (s.die (c / 68)).idles c (max 1 (fld (s.written (offPgDie (c / 68) 0)) 0 8) +
            256 * clamp 4 24 (fld (s.written (offPgDie (c / 68) 0)) 8 5)))) ∧
      (s.kind c ≠ .enabled ∨ (s.core c).clk ≠ .running ∨ (s.core c).waking = true ∨ (s.core c).idleNow = false ∨ s.coreSaving c = true →
        exec (.clockGate c) s = .next s) ∧
      ((s.core c).clk = .clockGated → (s.core c).waking = false →
        ∃ t, exec (.powerGate c) s = .next t ∧ t.core c = { s.core c with clk := .powerGated } ∧ (∀ c', c' ≠ c → t.core c' = s.core c') ∧
          t.objs = s.objs ∧ t.seqs = s.seqs ∧ t.mem = s.mem ∧ t.pwr = s.pwr ∧ (∀ r, r ≠ offPgDie (c / 68) 0 → t.reg r = s.reg r)) ∧
      ((s.core c).clk = .clockGated → (s.core c).waking = false → (s.die (c / 68)).gated = false →
        ∃ t, exec (.coreWakeRequest c) s = .next t ∧ (t.core c).waking = true ∧ (t.core c).rampPhase = (s.core c).rampPhase ∧ t.pwr = s.pwr ∧
          t.objs = s.objs ∧ t.mem = s.mem) ∧
      ((s.core c).clk = .powerGated → (s.core c).waking = false → (s.die (c / 68)).gated = false →
        ∃ t, exec (.coreWakeRequest c) s = .next t ∧ (t.core c).waking = true ∧ (t.core c).rampPhase = 1 ∧
          (t.die (c / 68)).rampWait = (s.die (c / 68)).rampWait ++ [c] ∧ t.objs = s.objs ∧ t.mem = s.mem) ∧
      ((s.core c).clk ≠ .running → (s.die (c / 68)).gated = true →
        ∃ t, exec (.coreWakeRequest c) s = .next t ∧ t.cores = s.cores ∧ t.objs = s.objs ∧ t.mem = s.mem ∧ (∀ e, e ≠ c / 68 → t.die e = s.die e) ∧
          t.die (c / 68) = { s.die (c / 68) with waking := true, coreReqs := addNew (s.die (c / 68)).coreReqs c }) ∧
      (∀ w, (s.die (c / 68)).rampWait = c :: w → s.ramps (c / 68) < 8 →
        ∃ t, exec (.rampAdmitted c) s = .next t ∧ (t.core c).rampPhase = 2 ∧ (t.die (c / 68)).rampWait = w ∧ t.regs = s.regs ∧ t.objs = s.objs) ∧
      (8 ≤ s.ramps (c / 68) → exec (.rampAdmitted c) s = .next s) ∧
      (∀ ok, (s.core c).waking = true → ((s.core c).clk ≠ .powerGated ∨ (s.core c).rampPhase = 2 ∧ ok = true) →
        ∃ b, exec (.coreWakeDone c ok) s = .next ((s.core c).held.foldl (fun (t : State) a => t.deliverHeld c a) b) ∧
          b.core c = { s.core c with clk := .running, waking := false, rampPhase := 0, held := [] } ∧
          (∀ c', c' ≠ c → b.core c' = s.core c') ∧ (∀ u v, u / 128 = c → look b.te u = some v → v.rate = 0 ∧ v.credit = 0 ∧ v.ready = false) ∧
          b.objs = s.objs ∧ b.mem = s.mem ∧ b.regs = s.regs ∧ b.seqs = s.seqs ∧ b.pwr = s.pwr) ∧
      ((s.core c).waking = true → (s.core c).clk = .powerGated → (s.core c).rampPhase = 2 →
        ∃ b : State, exec (.coreWakeDone c false) s = .next ((s.core c).held.foldl (fun (t : State) a => t.deliverHeld c a) (b.coreFails c)) ∧
          b.core c = { s.core c with clk := .running, waking := false, rampPhase := 0, held := [] } ∧
          (∀ c', c' ≠ c → b.core c' = s.core c') ∧ b.regs = s.regs ∧ b.objs = s.objs ∧ b.mem = s.mem ∧ b.seqs = s.seqs)) ∧
    (d < 16 → s.alive = true →
      (s.pins.wakeLow = false → (s.die d).gated = false → s.dieAsked d = false → bit (s.reg (offPgDie d 0)) 13 = true →
        (∀ x ∈ s.enabledOn d, (s.core x).clk = .powerGated ∧ (s.core x).waking = false) →
        ∃ t, exec (.dieGate d) s = .next t ∧ t.die d = { s.die d with gated := true } ∧ (∀ e, e ≠ d → t.die e = s.die e) ∧ t.cores = s.cores ∧
          t.regs = s.regs ∧ t.cache = s.cache ∧ t.mem = s.mem) ∧
      (s.pins.wakeLow = true ∨ s.dieAsked d = true ∨ bit (s.reg (offPgDie d 0)) 13 = false ∨ (∃ x ∈ s.enabledOn d, (s.core x).clk ≠ .powerGated) →
        exec (.dieGate d) s = .next s) ∧
      ((s.die d).gated = true → (s.die d).waking = false →
        ∃ t, exec (.dieWakeRequest d) s = .next t ∧ t.die d = { s.die d with waking := true } ∧ t.cores = s.cores ∧ t.mem = s.mem) ∧
      ((s.die d).waking = true → (s.die d).unlocked = false →
        ∃ b : State, exec (.dieWakeDone d) s = .next (((s.die d).coreReqs.foldl (fun (t : State) c => t.wakeCore c) b).releaseReads d) ∧
          b.die d = { s.die d with gated := false, waking := false, coreReqs := [] } ∧ b.cores = s.cores ∧
          (∀ r, r ≠ offPgDie d 0 → b.reg r = s.reg r) ∧ b.cache = s.cache ∧ b.mem = s.mem) ∧
      ((s.die d).unlocked = true → exec (.dieWakeDone d) s = .next s))

/-- R465, R481 to R483, R311, R522, R550, R557: INPUT_RISE, DUSK_READY, PWR_EN_ASSERT, INPUT_OPERATING_RANGE, POWER_GOOD, PWR_EN_DEASSERT,
INPUT_FAULT, RESET_N_ASSERT, RESET_N_RELEASE, INPUT_FALL. The input's rise counts a power cycle; the dusk domain samples the straps; the rails ramp when
PWR_EN is high, the dusk domain runs, the input is in range and no fault is latched; PG and RESET_N high wipe and boot; power-down, a fault and reset wipe
what R311 lists. -/
def Obligations.PowerSequences : Prop :=
  ∀ (s : State) (clean : Bool) (mv : Nat) (cause : FaultCause),
    (s.pins.inputUp = false → ∃ t, exec .inputRise s = .next t ∧ t.pins = { s.pins with inputUp := true } ∧ t.ticks = 0 ∧
      t.recd.powerCycles = (s.recd.powerCycles + 1) % 2 ^ 32 ∧ t.recd.flash = s.recd.flash ∧ t.mem = s.mem ∧ t.sec = s.sec) ∧
    (s.pins.inputUp = true → s.pins.duskReady = false → ∃ t, exec (.duskReady clean) s = .next t ∧ t.pins.duskReady = true ∧
      t.pins.strapFeed = s.pins.boardFeed ∧ t.pins.strapSlot = s.pins.boardSlot ∧ t.pins.strapTray = s.pins.boardTray ∧
      t.recd = s.recd.ready clean s.ticks ∧ t.pins.railsOn = (s.pins.railsOn || (s.pins.pwrEn && s.pins.inRange && !s.pins.faultLatch))) ∧
    (∃ t, exec .pwrEnAssert s = .next t ∧ t.pins.pwrEn = true ∧ t.recd = s.recd ∧ t.mem = s.mem ∧
      t.pins.railsOn = (s.pins.railsOn || (s.pins.duskReady && s.pins.inRange && !s.pins.faultLatch))) ∧
    (s.pins.inputUp = true → 40000 ≤ mv → mv ≤ 60000 → ∃ t, exec (.inputOperatingRange mv) s = .next t ∧ t.pins.inRange = true ∧
      t.pins.railsOn = (s.pins.railsOn || (s.pins.pwrEn && s.pins.duskReady && !s.pins.faultLatch))) ∧
    (s.pins.railsOn = true → s.pins.pg = false →
      (s.pins.resetN = true → exec .powerGood s = .next (s.modPins fun p => { p with pg := true }).beginBoot) ∧
      (s.pins.resetN = false → exec .powerGood s = .next (s.modPins fun p => { p with pg := true }))) ∧
    (s.pins.railsOn = true → ∃ t, exec .pwrEnDeassert s = .next t ∧ t.pins.pwrEn = false ∧ t.pins.railsOn = false ∧ t.pins.pg = false ∧
      t.pins.faultLatch = false ∧ t.recd.flushing = true ∧ t.mem = [] ∧ t.objs = State.reset.objs ∧ t.recd.flash = s.recd.flash ∧
      t.ident = s.ident) ∧
    (s.pins.duskReady = true → ∃ t v, exec (.inputFault cause mv) s = .next t ∧ t.pins.faultLatch = (s.pins.faultLatch || s.pins.pwrEn) ∧
      t.recd.intake = s.recd.intake ++ [s.eventNow 0xB805 (leBytes 2 mv ++ leBytes 1 v)] ∧ (cause = .input → t.pins.inRange = false) ∧
      t.pins.railsOn = false ∧ (s.pins.railsOn = true → t.pins.pg = false ∧ t.mem = [] ∧ t.recd.flushing = true) ∧
      (s.pins.railsOn = false → t.mem = s.mem ∧ t.objs = s.objs ∧ t.regs = s.regs)) ∧
    (s.pins.pg = true → s.pins.resetN = true →
      exec .resetNAssert s = .next (s.modPins fun p => { p with resetN := false, booting := false }).wipeAll.scReset) ∧
    (s.pins.pg = true → s.pins.resetN = false →
      exec .resetNRelease s = .next (s.modPins fun p => { p with resetN := true }).beginBoot) ∧
    (s.pins.pg = false → exec .resetNAssert s = .next (s.modPins fun p => { p with resetN := false, booting := false }) ∧
      exec .resetNRelease s = .next (s.modPins fun p => { p with resetN := true })) ∧
    (s.pins.railsOn = false → exec .pwrEnDeassert s = .next (s.modPins fun p => { p with pwrEn := false, faultLatch := false })) ∧
    (mv < 40000 ∨ 60000 < mv → exec (.inputOperatingRange mv) s = .next s) ∧
    (s.pins.inputUp = true → ∃ t, exec .inputFall s = .next t ∧ t.pins.inputUp = false ∧ t.pins.duskReady = false ∧ t.pins.pg = false ∧
      t.regs = [] ∧ t.recd.ring = [] ∧ t.recd.intake = [] ∧ t.recd.flash = s.recd.flash ∧ t.mem = [] ∧ t.ident = s.ident)

/-- R470, R473, R474, R477, R489, R490, R550: WAKE_N_LOW, WAKE_N_RELEASE, THERM_N_LOW, THERM_N_RELEASE, PLL_LOSS_OF_LOCK, PLL_RELOCK_DONE,
DUSK_INPUT_LOSS, DUSK_INPUT_RESTORED. Each PLL of a die is in lock or not by itself; one that relocks lets the reads that waited at the die go on, where
the die serves; during the wake of a gated die no context is there to fault. -/
def Obligations.PinsAndClocksAct : Prop :=
  ∀ (s : State) (die : Nat) (ctl : Bool),
    (s.alive = true → ∃ t, exec .wakeNLow s = .next t ∧ t.pins = { s.pins with wakeLow := true } ∧ t.cores = s.cores ∧ t.objs = s.objs ∧
      ∀ d, d < 16 → (s.die d).gated = true → (t.die d).waking = true) ∧
    exec .wakeNRelease s = .next (s.modPins fun p => { p with wakeLow := false }) ∧
    (s.thermLow = false → s.pins.duskReady = true → ∃ t, exec .thermNLow s = .next t ∧ t.pins = { s.pins with thermBoard := true } ∧
      (∀ d, d < 16 → (t.die d).cap = 8) ∧ (∀ c, c < 1088 → (t.core c).cap = 8) ∧ bit (t.reg (offPg 8)) 3 = true ∧
      (∃ a b, t.recd.intake = s.recd.intake ++ [s.eventNow 0xB802 (leBytes 1 a ++ leBytes 1 b)])) ∧
    (s.pins.thermBoard = true → s.pins.thermModule = false → s.pwr.gov ≠ .cool → ∃ t, exec .thermNRelease s = .next t ∧
      t.pins = { s.pins with thermBoard := false } ∧ t.pwr.gov = .cool ∧ t.pwr.cool = 900 ∧ t.regs = s.regs ∧ t.recd = s.recd) ∧
    (die < 16 → s.alive = true →
      ((s.die die).gated = false ∨ (s.die die).waking = true →
        ∃ t b, exec (.pllLossOfLock die ctl) s = .next t ∧ (t.die die).ctlLost = (ctl || (s.die die).ctlLost) ∧
          (t.die die).pllLost = (!ctl || (s.die die).pllLost) ∧ bit (t.reg (offPgDie die 8)) 14 = true ∧
          t.recd.intake = s.recd.intake ++ [s.eventNow 0xB804 (leBytes 1 die ++ leBytes 1 b)] ∧
          ((s.die die).gated = false → ∀ x ∈ s.ctxsOn die, t.live x = false) ∧ ((s.die die).gated = true → t.objs = s.objs ∧ t.cores = s.cores)) ∧
      ((s.die die).gated = true → (s.die die).waking = false → exec (.pllLossOfLock die ctl) s = .next s)) ∧
    (die < 16 → s.alive = true →
      ((s.die die).pllLost = true →
        exec (.pllRelockDone die false true) s = .next ((s.modDie die fun k => { k with pllLost := false }).releaseReads die) ∧
        ((s.die die).relocksArith ≠ 2 → exec (.pllRelockDone die false false) s =
          .next (s.modDie die fun k => { k with relocksArith := k.relocksArith + 1 })) ∧
        ((s.die die).relocksArith = 2 → ∃ b : State, exec (.pllRelockDone die false false) s = .next (b.releaseReads die) ∧
          (b.die die).pllLost = false ∧ b.regs = s.regs ∧ b.mem = s.mem ∧ b.cache = s.cache ∧
          (∀ c, c < 1088 → b.kind c = if c / 68 = die ∧ (s.kind c = .enabled ∨ s.kind c = .spare) then .retired else s.kind c))) ∧
      ((s.die die).ctlLost = true →
        exec (.pllRelockDone die true true) s = .next ((s.modDie die fun k => { k with ctlLost := false }).releaseReads die) ∧
        ((s.die die).relocksCtl ≠ 2 → exec (.pllRelockDone die true false) s =
          .next (s.modDie die fun k => { k with relocksCtl := k.relocksCtl + 1 })) ∧
        ((s.die die).relocksCtl = 2 → ∃ b : State, exec (.pllRelockDone die true false) s = .next b.selfFence ∧
          b.reg (offHc (2 * die) 0x10) = 2 ^ 64 - 1 ∧ b.reg (offHc (2 * die + 1) 0x10) = 2 ^ 64 - 1 ∧
          (∀ x, b.live x = false) ∧
          (∀ c, c < 1088 → b.kind c = if c / 68 = die ∧ (s.kind c = .enabled ∨ s.kind c = .spare) then .retired else s.kind c)))) ∧
    ((if ctl = true then (s.die die).ctlLost else (s.die die).pllLost) = false → ∀ ok, exec (.pllRelockDone die ctl ok) s = .next s) ∧
    (s.pins.inputUp = true → s.pwr.oscBackup = false → ∃ t, exec .duskInputLoss s = .next t ∧ t.pwr = { s.pwr with oscBackup := true } ∧
      bit (t.reg (offDk 0)) 3 = true ∧ t.recd.intake = s.recd.intake ++ [s.eventNow 0xB803 []] ∧ t.mem = s.mem) ∧
    exec .duskInputRestored s = .next (s.modPwr fun k => { k with oscBackup := false })
/-! ### Boot, hub dies, life cycle, update, flash, attestation (16) -/

/-- R492, R497 to R499, R507, R514 to R517: BOOT_DONE, HUB_GO, HUB_FAILURE_DETECTED, HUB_SELF_TEST_DONE. A boot completes a change left pending, and
ends with its count and BOOT_DONE recorded, the slots read from the directory and the identity key unwrapped; from a flash outside the limits no unit runs; hub_go at another port than the management port is ignored and
counted; the only hub die is never taken out; a failing active die hands its roles to the standby and, short of a third failover, is reset; a die that
is not active leaves the roles where they are; a die that passes its self-test is standby again, one that fails is retired. -/
def Obligations.BootsAndHubsChange : Prop :=
  ∀ (s : State) (p h sb : Nat) (f : FlashParams),
    (s.alive = true → s.pins.booting = true →
      let d := (s.modSec fun c => { c with flashBad := !flashOk f }).readDir
      let c := if d.sec.changeStage = 2 then d.finishChange else d
      ∃ t, exec (.bootDone f) s = .next t ∧ t.pins.booting = false ∧ t.sec.bootDone = true ∧ t.sec.flashBad = !flashOk f ∧
      t.reg (offSc 0xC0) = (c.reg (offSc 0xC0) + 1) % 2 ^ 64 ∧ t.objs = c.objs ∧ t.sec.lc = c.sec.lc ∧ t.sec.keys = c.sec.keys ∧
      t.sec.wrappedKey = c.sec.wrappedKey ∧ t.sec.privKey = c.unwrapKey.sec.privKey ∧
      (flashOk f = false → c.sec.units.length = 6 → ∀ u, u < 6 → (t.fwUnit u).running = none) ∧
      (t.recd.intake.getLast?).map (fun r => r.code) = some 0xA801) ∧
    (p < 4 → h < 4 → (s.port p).up = true →
      (p ≠ s.mgmtPort → exec (.hubGo p h) s = .next (s.bump (offBl p 0x78) 1)) ∧
      (p = s.mgmtPort → s.loneHub h = true → ∃ t, exec (.hubGo p h) s = .next t ∧ t.sec = { s.sec with hubCode := 0xA00D } ∧ t.fab = s.fab ∧
        t.recd = s.recd) ∧
      (p = s.mgmtPort → s.loneHub h = false → exec (.hubGo p h) s = .next ((s.setField (offSc 0x18) 0 2 h).failover h))) ∧
    (h < 4 → s.alive = true → s.loneHub h = true → exec (.hubFailureDetected h) s = .next (s.raise 0xA809 (leBytes 1 h))) ∧
    (h < 4 → s.alive = true → s.sec.hubs[h]? = some .active → s.sec.hubActive = h → s.sec.hubStandby = some sb → sb ≠ h → sb < 4 →
      s.sec.hubs.length = 4 → ∃ t, exec (.hubFailureDetected h) s = .next t ∧ t.sec.hubActive = sb ∧ t.sec.hubs[sb]? = some .active ∧
      t.sec.hubs[h]? = some (if 2 ≤ lookD s.sec.hubFails h 0 then .retired else .resetting) ∧
      lookD t.sec.hubFails h 0 = lookD s.sec.hubFails h 0 + 1 ∧ t.sec.lc = s.sec.lc ∧ t.sec.units = s.sec.units ∧ t.pins = s.pins) ∧
    (h < 4 → s.alive = true → s.sec.hubs[h]? = some .standby → s.sec.hubActive ≠ h → s.sec.hubs.length = 4 →
      ∃ t, exec (.hubFailureDetected h) s = .next t ∧ t.sec.hubActive = s.sec.hubActive ∧
      t.sec.hubs[h]? = some (if 2 ≤ lookD s.sec.hubFails h 0 then .retired else .resetting) ∧
      lookD t.sec.hubFails h 0 = lookD s.sec.hubFails h 0 + 1 ∧ t.sec.lc = s.sec.lc ∧ t.sec.units = s.sec.units ∧ t.pins = s.pins) ∧
    (s.sec.hubs[h]? = some .resetting →
      (∃ t, exec (.hubSelfTestDone h true) s = .next t ∧ t.sec.hubs = s.sec.hubs.set h .standby ∧
        t.sec.hubStandby = (if s.sec.hubStandby.isNone then some h else s.sec.hubStandby) ∧ t.sec.hubActive = s.sec.hubActive) ∧
      exec (.hubSelfTestDone h false) s =
        .next ((s.modSec fun c => { c with hubs := c.hubs.set h .retired }).raise 0xA80A (leBytes 1 h)))

/-- R501, R504 to R507, R512: LC_GO and LIFE_CYCLE_CHANGE_DONE. A token that fails a check leaves the state of the device and shows its code; one that
passes raises the count, sets the state and takes the new management port with a new record, and the device is wiped and silent, the directory's
other copy written; the change then erases the operator's flash, makes the keys or erases them (the private one held wrapped under the package's key
alone), writes the directory again, records LC_CHANGE and boots. -/
def Obligations.LifeCycleChanges : Prop :=
  ∀ (s : State) (code : Nat) (b : LcState) (r : Bool),
    (s.alive = true →
      (s.changing = true → exec .lcGo s = .next (s.modSec fun c => { c with lastCode := 0xA004 })) ∧
      (s.changing = false → s.checkToken (tabBytes s.sec.token 256) = .error code →
        exec .lcGo s = .next (s.modSec fun c => { c with lastCode := code })) ∧
      (s.changing = false → s.checkToken (tabBytes s.sec.token 256) = .ok (b, r) → ∃ t, exec .lcGo s = .next t ∧ t.sec.lc = b ∧
        t.sec.lcCount = min 255 (s.sec.lcCount + 1) ∧ t.sec.changePending = some (s.sec.lc, b) ∧
        t.sec.provRecord = (if r = true then tabBytes s.sec.prov 1024 else s.sec.provRecord) ∧ t.mem = [] ∧ t.objs = State.reset.objs ∧
        look t.sec.dir ((s.dirCount + 1) % 2) = some ⟨t.dirContents, sha384 t.dirContents, s.dirCount + 1⟩ ∧
        t.pins = { s.pins with booting := false } ∧ t.recd = s.recd) ∧
      (∀ a, s.sec.changeStage = 2 → s.pins.booting = false → s.sec.changePending = some (a, b) → ∃ t, exec .lifeCycleChangeDone s = .next t ∧
        t.sec.changePending = none ∧ t.sec.lc = s.sec.lc ∧ t.sec.lcCount = s.sec.lcCount ∧ t.pins.booting = true ∧ t.mem = [] ∧ t.regs = [] ∧
        (∀ o, 0x8_0000 ≤ o → o < 0x18_0000 → look t.sec.flash o = none) ∧
        (b = .provisioned → t.sec.keys = s.sec.keys + 1 ∧ t.sec.deviceId = (sha384 t.sec.pubKey).take 16 ∧
          ∃ iv k, t.sec.pubKey = ecKey k ∧ t.sec.wrappedKey = wrapKey iv k ∧ iv.length = 12) ∧
        (b = .retired → t.sec.pubKey = [] ∧ t.sec.wrappedKey = [] ∧ t.sec.certs = []) ∧ t.sec.privKey = 0 ∧
        look t.sec.dir ((s.dirCount + 1) % 2) = some ⟨t.dirContents, sha384 t.dirContents, s.dirCount + 1⟩ ∧
        t.recd.intake = s.recd.intake ++ [s.eventNow 0xA804 (leBytes 1 (lcCode a) ++ leBytes 1 (lcCode b) ++ leBytes 1 s.sec.lcCount)])) ∧
    ((s.sec.lc = .retired → s.sec.token = [] → s.alive = true → s.changing = false →
      exec .lcGo s = .next (s.modSec fun c => { c with lastCode := 0xA008 })))

/-- R500, R508 to R512: UPD_GO, UPD_WRITE_DONE, UNIT_ACTIVATION, UPD_COMMIT, UPD_ABORT. An update of an image from memory that passes its checks
starts in the inactive slot, one that lies in its slot is read back there; a write that fails ends it with its code; each change of a slot is in the
directory's next copy; an activation at its unit's switch point that waits for no report runs the trial slot and records it, and one that finds a report
being built becomes due with its end; a commit commits the slot, fuses its version where asked and records it; an abort marks the slot invalid, and the
next activation goes back. -/
def Obligations.UpdatesOfFirmwareRun : Prop :=
  ∀ (s : State) (image : List Byte) (m : Bool) (u : Nat) (b : Bool),
    let k := s.sec.upd
    let o := (s.fwUnit k.unit).slot k.slotB
    (s.alive = true →
      (s.changing = true → exec .updGo s = .next (s.modHot fun u => { u with lastCode := 0xA004 })) ∧
      (s.changing = false → s.updSource = none → exec .updGo s = .next (s.updFails 0xA005)) ∧
      (s.changing = false → s.updSource = some (image, none) → 6 ≤ leAt image 4 1 → exec .updGo s = .next (s.updFails 0xA001)) ∧
      (s.changing = false → s.updSource = some (image, some (u, b)) → ((s.fwUnit u).slot b).delivered = false →
        (s.checkImage u (s.fwUnit u).minSecVer image = 0 → exec .updGo s = .next (s.updStart u b image true)) ∧
        (s.checkImage u (s.fwUnit u).minSecVer image ≠ 0 →
          exec .updGo s = .next (s.updFails (s.checkImage u (s.fwUnit u).minSecVer image)))) ∧
      (s.changing = false → s.updSource = some (image, none) → leAt image 4 1 < 6 →
        (s.checkImage (leAt image 4 1) (s.fwUnit (leAt image 4 1)).minSecVer image = 0 →
          exec .updGo s = .next (s.updStart (leAt image 4 1) (s.fwUnit (leAt image 4 1)).target image false)) ∧
        (s.checkImage (leAt image 4 1) (s.fwUnit (leAt image 4 1)).minSecVer image ≠ 0 →
          exec .updGo s = .next (s.updFails (s.checkImage (leAt image 4 1) (s.fwUnit (leAt image 4 1)).minSecVer image))))) ∧
    (k.stage = .writing → exec (.updWriteDone false) s = .next (s.updFails 0xA006)) ∧
    (k.stage = .writing → k.unit < s.sec.units.length → ∃ t, exec (.updWriteDone true) s = .next t ∧ t.sec.upd.stage = .activating ∧
      ((t.fwUnit k.unit).slot k.slotB).state = .trial ∧ (t.fwUnit k.unit).slot (!k.slotB) = (s.fwUnit k.unit).slot (!k.slotB) ∧
      (t.fwUnit k.unit).running = (s.fwUnit k.unit).running ∧
      look t.sec.dir ((s.dirCount + 1) % 2) = some ⟨t.dirContents, sha384 t.dirContents, s.dirCount + 1⟩ ∧ (∀ u, u ≠ k.unit → t.fwUnit u = s.fwUnit u) ∧ t.mem = s.mem ∧ t.regs = s.regs) ∧
    (k.stage = .activating → s.switchPoint k.unit = true → s.sec.attQueue = [] → k.rollback = false → k.unit < s.sec.units.length → ∃ t, exec .unitActivation s = .next t ∧
      t.sec.upd.stage = .trial ∧ (t.fwUnit k.unit).running = some k.slotB ∧ t.reg (offSc 0xC8) = (s.reg (offSc 0xC8) + 1) % 2 ^ 64 ∧
      t.recd.intake = s.recd.intake ++ [s.eventNow 0xA805 (leBytes 1 k.unit ++ leBytes 1 (b2n k.slotB) ++ leBytes 4 o.version)] ∧ t.mem = s.mem) ∧
    (k.stage = .activating → s.switchPoint k.unit = true → s.sec.attQueue = [] → k.rollback = true → k.unit < s.sec.units.length → ∃ t, exec .unitActivation s = .next t ∧
      t.sec.upd.stage = .idle ∧ (t.fwUnit k.unit).running = (s.fwUnit k.unit).order.head? ∧ t.recd = s.recd ∧ t.regs = s.regs ∧ t.mem = s.mem) ∧
    (k.stage = .activating → s.switchPoint k.unit = true → s.sec.attQueue ≠ [] → exec .unitActivation s = .next (s.modHot fun u => { u with due := true })) ∧
    (k.stage ≠ .activating ∨ s.switchPoint k.unit = false → exec .unitActivation s = .next s) ∧
    (k.stage ≠ .trial → exec (.updCommit m) s = .next s ∧ exec .updAbort s = .next s) ∧
    (k.stage = .trial → k.unit < s.sec.units.length → ∃ t, exec (.updCommit m) s = .next t ∧ t.sec.upd.stage = .idle ∧
      (t.fwUnit k.unit).slot k.slotB = { o with state := .committed } ∧
      (t.fwUnit k.unit).fuses = (if m = true then (s.fwUnit k.unit).fuses ||| BitVec.ofNat 32 (2 ^ min 32 o.secVer - 1) else (s.fwUnit k.unit).fuses) ∧
      (∀ n, n ≤ 32 → (s.fwUnit k.unit).fuses = BitVec.ofNat 32 (2 ^ n - 1) →
        (t.fwUnit k.unit).minSecVer = if m = true then max n (min 32 o.secVer) else n) ∧
      look t.sec.dir ((s.dirCount + 1) % 2) = some ⟨t.dirContents, sha384 t.dirContents, s.dirCount + 1⟩ ∧
      t.recd.intake = s.recd.intake ++ [s.eventNow 0xA806 (leBytes 1 k.unit ++ leBytes 1 (b2n k.slotB) ++ leBytes 4 o.version)] ∧ t.mem = s.mem ∧
      t.regs = s.regs) ∧
    (k.stage = .trial → k.unit < s.sec.units.length → ∃ t, exec .updAbort s = .next t ∧ t.sec.upd.stage = .activating ∧
      t.sec.upd.rollback = true ∧ (t.fwUnit k.unit).slot k.slotB = { o with state := .invalid } ∧
      (t.fwUnit k.unit).fuses = (s.fwUnit k.unit).fuses ∧
      look t.sec.dir ((s.dirCount + 1) % 2) = some ⟨t.dirContents, sha384 t.dirContents, s.dirCount + 1⟩ ∧
      t.recd.intake = s.recd.intake ++ [s.eventNow 0xA807 (leBytes 1 k.unit ++ leBytes 1 (b2n k.slotB) ++ leBytes 4 o.version)] ∧ t.mem = s.mem ∧
      t.regs = s.regs)

/-- R500, R502, R503: FLASH_ERASE, FLASH_PROGRAM, FLASH_OP_DONE, ATT_GO, ATT_REPORT_DONE. An operation at an allowed offset is taken, one at
another refused; an erase that ends leaves its 64 KiB sector erased and every byte outside as it was; a report taken in turn is in its mailbox when it
ends, and an activation that waited for it follows. -/
def Obligations.FlashAndReports : Prop :=
  ∀ (s : State) (e : Bool) (o : Nat) (data : List Byte) (p : Nat) (rest : List Nat),
    (s.alive = true → s.sec.flashOp = none →
      (s.flashAllowed s.flashOffset = true →
        exec .flashErase s = .next (s.modSec fun c => { c with flashOp := some (true, s.flashOffset, tabBytes c.flashData 256) }) ∧
        exec .flashProgram s = .next (s.modSec fun c => { c with flashOp := some (false, s.flashOffset, tabBytes c.flashData 256) })) ∧
      (s.flashAllowed s.flashOffset = false →
        exec .flashErase s = .next (s.modSec fun c => { c with flashCode := 0xA006 }) ∧
        exec .flashProgram s = .next (s.modSec fun c => { c with flashCode := 0xA006 }))) ∧
    (s.sec.flashOp = some (e, o, data) →
      exec (.flashOpDone false) s = .next (s.modSec fun c => { c with flashOp := none, flashCode := 0xA006 }) ∧
      ∃ t, exec (.flashOpDone true) s = .next t ∧ t.sec.flashOp = none ∧ t.mem = s.mem ∧ t.objs = s.objs ∧
        (e = true → t.regs = s.regs ∧ (∀ a, a / 2 ^ 16 = o / 2 ^ 16 → look t.sec.flash a = none) ∧
          ∀ a, a / 2 ^ 16 ≠ o / 2 ^ 16 → look t.sec.flash a = look s.sec.flash a) ∧
        (e = false → fld (t.reg (offSc 0x600)) 0 32 = (o + 256) % 2 ^ 32 ∧
          (∀ i, (h : i < data.length) → lookD t.sec.flash (o + i) 0xFF = data[i]) ∧
          ∀ a, (a < o ∨ o + data.length ≤ a) → look t.sec.flash a = look s.sec.flash a)) ∧
    (p < 4 → (s.port p).up = true →
      ((s.mailbox p).busy = true → exec (.attGo p) s = .next (s.setMailbox p { s.mailbox p with lastCode := 0xA00C })) ∧
      ((s.mailbox p).busy = false → (s.sec.lc = .blank ∨ s.sec.lc = .retired) →
        exec (.attGo p) s = .next (s.setMailbox p { s.mailbox p with done := false, lastCode := 0xA00B })) ∧
      ((s.mailbox p).busy = false → s.sec.lc ≠ .blank → s.sec.lc ≠ .retired → ∃ t, exec (.attGo p) s = .next t ∧
        t.mailbox p = { s.mailbox p with busy := true, done := false } ∧ t.sec.attQueue = s.sec.attQueue ++ [p] ∧
        (∀ q, q ≠ p → t.mailbox q = s.mailbox q) ∧ t.mem = s.mem ∧ t.regs = s.regs)) ∧
    (s.sec.attQueue = p :: rest → ∃ t, exec .attReportDone s = .next t ∧ t.sec.attQueue = rest ∧ (t.mailbox p).done = true ∧
      (t.mailbox p).busy = false ∧ (t.mailbox p).report = (s.report p).1 ∧ (t.mailbox p).nonce = (s.mailbox p).nonce ∧
      (∀ q, q ≠ p → t.mailbox q = s.mailbox q) ∧ t.mem = s.mem ∧ (s.sec.upd.due = false → t.regs = s.regs ∧ t.sec.upd = s.sec.upd) ∧
      (s.sec.upd.due = true → s.sec.upd.stage = .activating → s.switchPoint s.sec.upd.unit = true → s.sec.upd.rollback = false →
        t.sec.upd.stage = .trial ∧ t.reg (offSc 0xC8) = (s.reg (offSc 0xC8) + 1) % 2 ^ 64))
/-! ### Register access (03, 12, 18, 19) -/

/-- R10 to R14, R330, R553, R554: REGISTER_WRITE, ADDR, RD32, RD64, WR32, WR64, STATUS, ALERT_RESPONSE. A write through a port's window with rights
acts and one without is ignored and counted; a reserved register is read as zero and its writes are ignored; over SMBus the offset rises by
the bytes of the access, a write whose PEC fails is discarded, and STATUS answers and clears the bits of the last one. -/
def Obligations.RegistersAreAccessed : Prop :=
  ∀ (s : State) (p w o off : Nat) (win : Win) (v : W64) (v32 : W32),
    (p < 4 → (s.port p).up = true → winAt off = some (win, o) →
      (s.meets off w = true → s.mayWrite p win = false → exec (.registerWrite p off w v) s = .next (s.bump (offBl p 0x78) 1)) ∧
      (s.mayWrite p win = true → exec (.registerWrite p off w v) s = .next (s.writeCtl p off w (v.toNat % 2 ^ w)))) ∧
    (p < 4 → (s.port p).up = true → winAt off = none → exec (.registerWrite p off w v) s = .next s ∧ s.readCtl off 32 % 2 ^ 32 =
      (if accessOk off 32 = true then 0 else 2 ^ 32 - 1)) ∧
    exec (.addr v32 false) s = .next s ∧ exec (.wr32 v32 false) s = .next s ∧ exec (.wr64 v false) s = .next s ∧
    (s.pins.duskReady = true →
      exec (.addr v32 true) s = .next (s.modSmb fun k => { k with offset := v32 }) ∧
      (let a := s.smb.offset.toNat
       (s.hasPower a = true → s.smbReads a = true →
         exec .rd32 s = .next (s.modSmb fun k =>
           { k with readData := BitVec.ofNat 64 (s.readCtl a 32), refused := false, unpowered := false, offset := k.offset + 4 }) ∧
         exec .rd64 s = .next (s.modSmb fun k =>
           { k with readData := BitVec.ofNat 64 (s.readCtl a 64), refused := false, unpowered := false, offset := k.offset + 8 })) ∧
       (s.hasPower a = false → s.smbReads a = true →
         exec .rd32 s = .next (s.modSmb fun k => { k with readData := 0, refused := false, unpowered := true, offset := k.offset + 4 })) ∧
       (s.hasPower a = true → s.smbReads a = false →
         exec .rd64 s = .next (s.modSmb fun k => { k with readData := 0, refused := true, unpowered := false, offset := k.offset + 8 })) ∧
       (s.smbWrites a = false → s.hasPower a = true →
         exec (.wr32 v32 true) s = .next (s.modSmb fun k => { k with refused := true, unpowered := false, offset := k.offset + 4 }) ∧
         exec (.wr64 v true) s = .next (s.modSmb fun k => { k with refused := true, unpowered := false, offset := k.offset + 8 })) ∧
       (s.smbWrites a = true → s.hasPower a = true →
         exec (.wr32 v32 true) s = .next ((s.writeCtl s.mgmtPort a 32 v32.toNat).smbNote false false 4) ∧
         exec (.wr64 v true) s = .next ((s.writeCtl s.mgmtPort a 64 v.toNat).smbNote false false 8))) ∧
      exec .status s = .next (s.modSmb fun k =>
        { k with readData := BitVec.ofNat 64 (b2n k.refused + 2 * b2n k.unpowered), refused := false, unpowered := false }) ∧
      (s.pins.alertLow = true → ∃ t, exec .alertResponse s = .next t ∧ t.smb = { s.smb with readData := BitVec.ofNat 64 (0x48 + s.pins.strapSlot) } ∧
        t.pins = { s.pins with alertLow := false } ∧ t.regs = s.regs ∧ t.recd = s.recd))

/-- R16, R504, R555: TAP_INSTRUCTION. IDCODE gives the device's code and BYPASS one zero bit, and both let the pins go; SAMPLE takes pin levels that
the spec gives no order (a free value), and EXTEST drives the pins too where the life cycle opens test access. Any other instruction has no effect in a state
that limits test access to IDCODE, BYPASS and SAMPLE; where it is open, its effect is stated nowhere: the model refuses it (log 9). -/
def Obligations.TapAnswers : Prop :=
  ∀ (s : State) (n : Nat),
    exec (.tapInstruction .idcode) s = .next (s.modSmb fun k => { k with tapData := BitVec.ofNat 32 s.idcode, extest := false }) ∧
    (exec (.tapInstruction .bypass) s = .next (s.modSmb fun k => { k with tapData := 0, extest := false })) ∧
    (∃ v, exec (.tapInstruction .samplePreload) s = .next (s.draw.2.modSmb fun k => { k with tapData := v, extest := false })) ∧
    ((s.sec.lc = .blank ∨ s.sec.lc = .service) →
      (∃ v, exec (.tapInstruction .extest) s = .next (s.draw.2.modSmb fun k => { k with tapData := v, extest := true })) ∧
      exec (.tapInstruction (.other n)) s = .refused .tapInstructionOpen) ∧
    (s.sec.lc ≠ .blank → s.sec.lc ≠ .service →
      exec (.tapInstruction .extest) s = .next s ∧ exec (.tapInstruction (.other n)) s = .next s)

/-! ### The machine as a whole -/

/-- A step takes the command at the front of the queue and is that command on the state with the queue's rest; with an empty queue it is one
dusk tick (the model's choice, log 10). -/
def Obligations.StepRunsTheFrontCommand : Prop :=
  ∀ (s : State), (∀ c rest, s.pending = c :: rest → step s = exec c { s with pending := rest }) ∧
    (s.pending = [] → step s = .next (tick s))

/-- R13, R311, R352, R420, R497, R513: what reset leaves. No command waits, memory lists nothing and is canonical, the cache holds no line and
agrees with memory, every register has its reset value, no object of a host is left, no unit holds a tile, the device is unpaired, hub die 0 is
active, no update or change is in progress, and fewer changes are counted than the fuses hold. That the part is powered and deployed is the model's choice (log 3). -/
def Obligations.ResetLeaves : Prop :=
  let s := State.reset
  s.pending = [] ∧ s.mem = [] ∧ CacheSound s ∧ s.sec.lcCount ≤ 255 ∧
  (∀ off, s.reg off = (regReset .full off).toNat) ∧
  s.objs.parts = [] ∧ s.objs.ctxs = [] ∧ s.objs.queues = [] ∧ s.objs.jobs = [] ∧ s.objs.mems = [] ∧ s.objs.fences = [] ∧
  (∀ c u, (s.unit c u).active = none ∧ (s.unit c u).shadow = none ∧ (s.unit c u).rate = 0) ∧
  (∀ c, (s.core c).work = [] ∧ (s.core c).inflight = [] ∧ (s.core c).clk = .running) ∧
  (∀ p, (s.port p).up = false) ∧ s.surv.pair = .unpaired ∧ s.surv.prots = [] ∧ s.sec.hubs[0]? = some .active ∧ s.changing = false ∧
  s.recd.intake = [] ∧ s.smb.offset = 0

/-- From every state with a canonical memory and a count of life-cycle changes that the fuses hold, a step leaves both so, takes one command from the
queue and adds none, and keeps the grade of the device (R1, R504, R505): and so does every run. -/
def Obligations.EveryStepKeepsTheInvariant : Prop :=
  (∀ (s t : State), step s = .next t → MemCanonical s → s.sec.lcCount ≤ 255 →
    MemCanonical t ∧ t.sec.lcCount ≤ 255 ∧ t.pending = s.pending.tail ∧ t.ident.grade = s.ident.grade) ∧
  (∀ (s t : State), Reaches s t → MemCanonical s → s.sec.lcCount ≤ 255 →
    MemCanonical t ∧ t.sec.lcCount ≤ 255 ∧ t.ident.grade = s.ident.grade ∧ ∃ n, t.pending = s.pending.drop n)

/-- R504, R505: the life cycle never goes back. RETIRED is left by no step and BLANK entered by none; the count of changes never falls and stays within
its 256 fuses; a change raises it, or finds it at 255; and at 255 only a change to RETIRED takes place. -/
def Obligations.LifeCycleNeverGoesBack : Prop :=
  ∀ (s t : State), step s = .next t → s.sec.lcCount ≤ 255 →
    (s.sec.lc = .retired → t.sec.lc = .retired) ∧ (t.sec.lc = .blank → s.sec.lc = .blank) ∧
    s.sec.lcCount ≤ t.sec.lcCount ∧ t.sec.lcCount ≤ 255 ∧
    (t.sec.lc ≠ s.sec.lc → s.sec.lcCount < t.sec.lcCount ∨ t.sec.lcCount = 255) ∧
    (s.sec.lcCount = 255 → t.sec.lc = s.sec.lc ∨ t.sec.lc = .retired)

/-- R294, R295, R297, R390: the memory-side cache is transparent to stores. Bytes written through the slices under any policy, where no seal close
holds them, are what every agent then sees at their addresses, every other byte of HBM reads as before, and cache and memory still agree; so a LINE_STORE changes the bytes of its mask alone, and a
FABRIC_ATOMIC and a WRITE packet the bytes of their translated pieces alone. -/
def Obligations.StoresChangeOnlyTheirBytes : Prop :=
  ∀ (s : State), CacheSound s →
    (∀ p policy a bytes, CacheSound (s.cacheWrite p policy a bytes) ∧
      ((∀ i, i < bytes.length → s.holdsAt (a + i) = false) → ∀ b, (s.cacheWrite p policy a bytes).seeByte b =
        if a ≤ b ∧ b < a + bytes.length then (bytes[b - a]?).getD 0 else s.seeByte b)) ∧
    (∀ h e x mask data a k p l t, h.wf 1 = true → s.arrives h.src = true → h.dst = s.node → h.deviceHeld = false →
      s.admission h false = .ok (e, x) → s.targetRange x (h.address / 128 * 128) 128 false true = .ok ((a, k, p) :: l) →
      exec (.lineStore h mask data) s = .next t → ∀ b, (∀ i ∈ storeBytes h mask data, b ≠ a + i.1) → t.seeByte b = s.seeByte b) ∧
    (∀ h e x op v l t, h.wf 4 = true → s.arrives h.src = true → h.dst = s.node → h.deviceHeld = false →
      s.admission h false = .ok (e, x) → s.targetRange x h.address 8 false true = .ok l →
      exec (.fabricAtomic h op v) s = .next t → ∀ b, (∀ g ∈ l, b < g.1 ∨ g.1 + g.2.1 ≤ b) → t.seeByte b = s.seeByte b) ∧
    (∀ port q k p c l t, Admitted s port q 1 k p c → s.translate (packetCtx k p) p.arg0 p.payload.length false true = .ok l →
      exec (.write port q) s = .next t → ∀ b, (∀ g ∈ l, b < g.1 ∨ g.1 + g.2.1 ≤ b) → t.seeByte b = s.seeByte b)

/-- What commands leave as it is: memory and every byte that an agent sees, the pins, the security block, the SMBus port, the identity, the power state, the
tensor units, the group engines, and the staged and locked registers, each changed by the commands named for it in Safety and by no other. -/
def Obligations.CommandsLeaveTheRest : Prop :=
  ∀ (c : Instr) (s t : State), exec c s = .next t →
    t.pending = s.pending ∧
    (c.changesMemory = false → t.mem = s.mem ∧ t.cache = s.cache ∧ t.hbm = s.hbm ∧ ∀ a, t.seeByte a = s.seeByte a) ∧
    (c.changesPins = false → t.pins = s.pins ∧ t.node = s.node ∧ t.alive = s.alive) ∧
    (c.changesSecurity = false → t.sec = s.sec) ∧
    (c.changesSmb = false → t.smb = s.smb) ∧
    (c.changesIdentity = false → t.ident = s.ident) ∧
    (c.changesPower = false → t.pwr = s.pwr) ∧
    (c.changesTensorUnits = false → t.te = s.te) ∧
    (c.changesGroupEngines = false → t.ge = s.ge) ∧
    (c.wipesOrWritesControl = false → t.staged = s.staged ∧ t.once = s.once)

/-- R386: "A device's tray slot is its SLOT_ID strap, and its node id is TRAY_ID × 8 + SLOT_ID." In every state the node id is that of the sampled
straps, and only DUSK_READY, at which the dusk domain comes up, samples them: it takes the levels on the strap pins, and no other command changes the
sampled ones. -/
def Obligations.NodeIdIsTheStraps : Prop :=
  (∀ s : State, s.node = s.pins.strapTray * 8 + s.pins.strapSlot) ∧
  (∀ (s t : State) clean, exec (.duskReady clean) s = .next t → s.pins.inputUp = true → s.pins.duskReady = false →
    t.pins.strapSlot = s.pins.boardSlot ∧ t.pins.strapTray = s.pins.boardTray) ∧
  (∀ (c : Instr) (s t : State), exec c s = .next t → (∀ clean, c ≠ .duskReady clean) →
    t.pins.strapSlot = s.pins.strapSlot ∧ t.pins.strapTray = s.pins.strapTray ∧ t.node = s.node)

/-- R10: "Registers are 32 or 64 bits wide and naturally aligned. Offsets are byte offsets from the block base, and the control space map in "Burob link to the
companion processors" gives the block bases. A register read of any other width returns all ones. A register write of any other width is ignored." -/
def Obligations.RegistersHaveTwoWidths : Prop :=
  (∀ (w : Win) (o : Nat) (r : RegSpec), winReg w o = some r → (r.width = 32 ∨ r.width = 64) ∧ o % (r.width / 8) = 0) ∧
  (∀ (s : State) (p off width v : Nat) (w : Win) (o : Nat) (r : RegSpec), winAt off = some (w, o) → winReg w o = some r →
    s.noSf off = false → width ≠ r.width → s.readCtl off width = 2 ^ width - 1 ∧ s.writeCtl p off width v = s)

/-- R364: "A signal of value s raises the fence to s when s is greater than the current value. Otherwise the signal is ignored. The fence keeps its
value, and one FENCE_REGRESS event is recorded with the fence id, the value and s, and with a flag set when the fence is in the error state. A regress is
not an error and enters no fence. Signals to one fence take effect one at a time at its home device, so concurrent signals leave the maximum of their
values." -/
def Obligations.SignalsRaiseFences : Prop :=
  ∀ (s : State) (f v w : Nat) (k : Fence), s.fence f = some k → k.home = none → v < 2 ^ 64 → w < 2 ^ 64 →
    (k.value.toNat < v → ∃ k', (s.signal f v).fence f = some k' ∧ k'.value.toNat = v) ∧
    (v ≤ k.value.toNat → (s.signal f v).fence f = some k ∧ (s.signal f v).objs = s.objs ∧ (s.signal f v).recd.intake = s.recd.intake ++
      [s.eventNow 0x6801 (leBytes 4 f ++ leBytes 8 k.value.toNat ++ leBytes 8 v ++ leBytes 1 (b2n (k.err != 0)))]) ∧
    (∃ k', ((s.signal f v).signal f w).fence f = some k' ∧ k'.value.toNat = max k.value.toNat (max v w))
end

