-- ==== Sys2Proof/Laws/Guarded.lean ====
section
/-! SUPPORT. A command whose writes must wait (R440, R445): what `State.guarded` answers. -/

namespace Sys2Proof.Machine

open Sys2Proof

@[simp] theorem newWaits_self (p : Prot) : newWaits p p = [] := by simp [newWaits]

@[simp] theorem State.waitsMade_self (s : State) (j : Nat) : s.waitsMade s j = [] := by
  unfold State.waitsMade
  cases look s.surv.prots j <;> simp

/-- A command that changes nothing need not wait. -/
@[simp] theorem State.mustWait_self (s : State) : s.mustWait s = false := by simp [State.mustWait]

@[simp] theorem State.guarded_self (s : State) : s.guarded s = s := by simp [State.guarded]

/-- A command with no write that must wait has all its effects. -/
theorem State.guarded_of_free {s t : State} (h : s.mustWait t = false) : s.guarded t = t := by simp [State.guarded, h]

/-- A command with a write that must wait has none of its effects but the waits. -/
theorem State.guarded_of_held {s t : State} (h : s.mustWait t = true) : s.guarded t = s.waitForPages t := by simp [State.guarded, h]

/-- A device that protects no job and holds no write lets every command through that leaves it so. -/
theorem State.guarded_of_unprotected {s t : State} (h : s.surv.prots = []) (w : t.surv.heldWrites.length ≤ s.surv.heldWrites.length) :
    s.guarded t = t := State.guarded_of_free (by simp [State.mustWait, h, Nat.not_lt.mpr w])

end Sys2Proof.Machine
end

