-- ==== Sys2Proof/Laws/Memory.lean ====
section
/-! SUPPORT. Memory as cells: every operation keeps the canonical form; reading what was written (R387). -/

namespace Sys2Proof.Machine

open Sys2Proof

theorem Memory.wf_iff (m : List Host.Cell) :
    Memory.wf m = true ↔ m.Pairwise (fun a b => a.1 < b.1) ∧ ∀ c ∈ m, c.2 ≠ 0 := by
  induction m with
  | nil => simp [Memory.wf]
  | cons x m ih =>
    obtain ⟨a, b⟩ := x
    cases m with
    | nil => simp [Memory.wf]
    | cons y m =>
      obtain ⟨a', b'⟩ := y
      simp only [Memory.wf, Bool.and_eq_true, decide_eq_true_eq, bne_iff_ne, ne_eq, ih, List.pairwise_cons, List.mem_cons,
        forall_eq_or_imp]
      constructor
      · rintro ⟨⟨h1, h2⟩, ⟨h3, h4⟩, h5, h6⟩
        exact ⟨⟨⟨h2, fun c hc => lt_trans h2 (h3 c hc)⟩, h3, h4⟩, h1, h5, h6⟩
      · rintro ⟨⟨⟨h2, -⟩, h3, h4⟩, h1, h5, h6⟩
        exact ⟨⟨h1, h2⟩, ⟨h3, h4⟩, h5, h6⟩

theorem cellPut_mem {m : List Host.Cell} {k : Nat} {v : Byte} {c : Host.Cell} (h : c ∈ cellPut m k v) : c ∈ m ∨ c = (k, v) ∧ v ≠ 0 := by
  induction m with
  | nil =>
    by_cases hv : v = 0 <;> simp [cellPut, hv] at h
    exact .inr ⟨h.2, h.1⟩
  | cons x m ih =>
    obtain ⟨a, b⟩ := x
    unfold cellPut at h
    split_ifs at h with h1 h2 h3 h4
    · exact .inl h
    · rcases List.mem_cons.mp h with h | h
      · exact .inr ⟨h, h2⟩
      · exact .inl h
    · exact .inl (List.mem_cons_of_mem _ h)
    · rcases List.mem_cons.mp h with h | h
      · exact .inr ⟨h, h4⟩
      · exact .inl (List.mem_cons_of_mem _ h)
    · rcases List.mem_cons.mp h with h | h
      · exact .inl (h ▸ List.mem_cons_self)
      · rcases ih h with h | h
        · exact .inl (List.mem_cons_of_mem _ h)
        · exact .inr h

/-- A byte written keeps the canonical form. -/
theorem cellPut_wf {m : List Host.Cell} (h : Memory.wf m = true) (k : Nat) (v : Byte) : Memory.wf (cellPut m k v) = true := by
  rw [Memory.wf_iff] at h ⊢
  refine ⟨?_, fun c hc => ?_⟩
  · obtain ⟨h, -⟩ := h
    induction m with
    | nil => by_cases hv : v = 0#8 <;> simp [cellPut, hv]
    | cons x m ih =>
      obtain ⟨a, b⟩ := x
      have hp := List.pairwise_cons.mp h
      unfold cellPut
      split_ifs with h1 h2 h3 h4
      · exact h
      · refine List.pairwise_cons.mpr ⟨fun c hc => ?_, h⟩
        rcases List.mem_cons.mp hc with rfl | hc
        · exact h1
        · exact lt_trans h1 (hp.1 c hc)
      · exact hp.2
      · exact List.pairwise_cons.mpr ⟨fun c hc => h3 ▸ hp.1 c hc, hp.2⟩
      · refine List.pairwise_cons.mpr ⟨fun c hc => ?_, ih hp.2⟩
        rcases cellPut_mem hc with hc | ⟨rfl, -⟩
        · exact hp.1 c hc
        · exact lt_of_le_of_ne (not_lt.mp h1) h3
  · rcases cellPut_mem hc with hc | ⟨rfl, hv⟩
    · exact h.2 c hc
    · exact hv

/-- Consecutive bytes written keep the canonical form. -/
theorem cellPuts_wf {m : List Host.Cell} (h : Memory.wf m = true) (a : Nat) (bs : List Byte) : Memory.wf (cellPuts m a bs) = true := by
  induction bs generalizing m a with
  | nil => exact h
  | cons b bs ih => exact ih (cellPut_wf h a b) (a + 1)

/-- A range cleared keeps the canonical form. -/
theorem cellWipe_wf {m : List Host.Cell} (h : Memory.wf m = true) (a n : Nat) : Memory.wf (cellWipe m a n) = true := by
  rw [Memory.wf_iff] at h ⊢
  exact ⟨h.1.sublist List.filter_sublist, fun c hc => h.2 c (List.mem_of_mem_filter hc)⟩

/-- An address below every listed one reads 0. -/
theorem cellGet_below {m : List Host.Cell} {k : Nat} (h : ∀ c ∈ m, k < c.1) : cellGet m k = 0 := by
  cases m with
  | nil => rfl
  | cons x m =>
    obtain ⟨a, b⟩ := x
    have := h (a, b) List.mem_cons_self
    simp only [cellGet, this, if_true, Nat.ne_of_gt this, if_false]

/-- A byte written reads back, in a canonical memory. -/
theorem cellGet_cellPut_self {m : List Host.Cell} (h : Memory.wf m = true) (k : Nat) (v : Byte) : cellGet (cellPut m k v) k = v := by
  replace h := ((Memory.wf_iff m).mp h).1
  induction m with
  | nil => by_cases hv : v = 0#8 <;> simp [cellPut, cellGet, hv]
  | cons x m ih =>
    obtain ⟨a, b⟩ := x
    have hp := List.pairwise_cons.mp h
    unfold cellPut
    split_ifs with h1 h2 h3 h4
    · simp [cellGet, Nat.ne_of_gt h1, h1, h2]
    · simp [cellGet]
    · rw [cellGet_below fun c hc => h3 ▸ hp.1 c hc, h4]
    · simp [cellGet]
    · simp only [cellGet, h3, h1, if_false]
      exact ih hp.2

/-- Every other byte stays as it was. -/
theorem cellGet_cellPut_ne {m : List Host.Cell} (h : Memory.wf m = true) {k j : Nat} (v : Byte) (hj : j ≠ k) :
    cellGet (cellPut m k v) j = cellGet m j := by
  replace h := ((Memory.wf_iff m).mp h).1
  induction m with
  | nil =>
    by_cases hv : v = 0#8
    · simp [cellPut, hv]
    · simp [cellPut, hv, cellGet, Ne.symm hj]
  | cons x m ih =>
    obtain ⟨a, b⟩ := x
    have hp := List.pairwise_cons.mp h
    unfold cellPut
    split_ifs with h1 h2 h3 h4
    · rfl
    · simp only [cellGet, Ne.symm hj, if_false]
      by_cases hk : j < k
      · have ha : j < a := lt_trans hk h1
        simp [hk, ha, Nat.ne_of_gt ha]
      · simp [hk]
    · subst h3
      simp only [cellGet, Ne.symm hj, if_false]
      split_ifs with h5
      · exact cellGet_below fun c hc => lt_trans h5 (hp.1 c hc)
      · rfl
    · subst h3
      simp only [cellGet, Ne.symm hj, if_false]
    · simp only [cellGet]
      rw [ih hp.2]

end Sys2Proof.Machine
end

