-- ==== Sys2Proof/Laws/Keeps.lean ====
section
/-! SUPPORT. What a step keeps, whatever the command: the canonical form of memory, the queue, the grade of the device, the RETIRED
life-cycle state and the count of life-cycle changes; which parts of the state it leaves as they are; and how this passes
through the shapes that meanings are written in. -/

namespace Sys2Proof.Machine

open Sys2Proof

/-- The parts of the state, but for the queue. -/
inductive Area where
  | ident | pins | regs | staged | once | mem | cache | hbm | cores | te | ge | seqs | objs | loader | host | fab | uu | surv
  | pwr | sec | recd | smb | ticks | free
  deriving DecidableEq, Repr

/-- A part is the same in two states. -/
def Area.same (s t : State) : Area → Prop
  | .ident => t.ident = s.ident
  | .pins => t.pins = s.pins
  | .regs => t.regs = s.regs
  | .staged => t.staged = s.staged
  | .once => t.once = s.once
  | .mem => t.mem = s.mem
  | .cache => t.cache = s.cache
  | .hbm => t.hbm = s.hbm
  | .cores => t.cores = s.cores
  | .te => t.te = s.te
  | .ge => t.ge = s.ge
  | .seqs => t.seqs = s.seqs
  | .objs => t.objs = s.objs
  | .loader => t.loader = s.loader
  | .host => t.host = s.host
  | .fab => t.fab = s.fab
  | .uu => t.uu = s.uu
  | .surv => t.surv = s.surv
  | .pwr => t.pwr = s.pwr
  | .sec => t.sec = s.sec
  | .recd => t.recd = s.recd
  | .smb => t.smb = s.smb
  | .ticks => t.ticks = s.ticks
  | .free => t.free = s.free

theorem Area.same_refl (p : Area) (s : State) : p.same s s := by cases p <;> exact rfl

theorem Area.same_trans (p : Area) {s t u : State} (a : p.same s t) (b : p.same t u) : p.same s u := by
  cases p <;> exact Eq.trans b a

/-- None of the listed parts is among the chosen ones. -/
def Free (F : Area → Bool) (l : List Area) : Prop := ∀ p, p ∈ l → F p = false

theorem Free.sub {F : Area → Bool} {l m : List Area} (w : Free F l) (h : m.all (fun p => l.contains p) = true) : Free F m :=
  fun p hp => w p (by simpa using List.all_eq_true.mp h p hp)

theorem Free.off {F : Area → Bool} {l : List Area} {p : Area} {P : Prop} (w : Free F l) (h : l.contains p = true) : F p = true → P :=
  fun e => absurd e (by rw [w p (by simpa using h)]; decide)

/-- What holds of a state and of every state that a meaning makes from it; the parts that `F` chooses are the same in both. -/
structure Keeps (F : Area → Bool) (s t : State) : Prop where
  wf : Memory.wf s.mem = true → Memory.wf t.mem = true
  pending : t.pending = s.pending
  grade : t.ident.grade = s.ident.grade
  retired : s.sec.lc = .retired → t.sec.lc = .retired
  count : s.sec.lcCount ≤ 255 → s.sec.lcCount ≤ t.sec.lcCount ∧ t.sec.lcCount ≤ 255
  same : ∀ p, F p = true → p.same s t

variable {F : Area → Bool}

theorem Keeps.refl (s : State) : Keeps F s s := ⟨id, rfl, rfl, id, fun h => ⟨le_refl _, h⟩, fun p _ => p.same_refl s⟩

theorem Keeps.trans {s t u : State} (a : Keeps F s t) (b : Keeps F t u) : Keeps F s u :=
  ⟨fun h => b.wf (a.wf h), b.pending.trans a.pending, b.grade.trans a.grade, fun h => b.retired (a.retired h),
    fun h => ⟨le_trans (a.count h).1 (b.count (a.count h).2).1, (b.count (a.count h).2).2⟩,
    fun p hp => p.same_trans (a.same p hp) (b.same p hp)⟩

/-- Parts other than the memory, the queue, the identity and the security block may be anything where they are not chosen. -/
theorem Keeps.upd {s0 s : State}
    {pins1 : Pins} {regs1 : Tab W64} {staged1 : Tab W64} {once1 : List Nat} {cache1 : Cache} {hbm1 : Hbm} {cores1 : Tab Core}
    {te1 : Tab TeUnitSt} {ge1 : Tab Ge} {seqs1 : Tab Seq} {objs1 : Objects} {loader1 : Loader} {host1 : HostSide}
    {fab1 : Fabric} {uu1 : Units} {surv1 : Surv} {pwr1 : Power} {recd1 : Recorder} {smb1 : Smb} {ticks1 : Nat} {free1 : Nat}
    (h : Keeps F s0 s)
    (h_pins : F .pins = true → pins1 = s.pins) (h_regs : F .regs = true → regs1 = s.regs)
    (h_staged : F .staged = true → staged1 = s.staged) (h_once : F .once = true → once1 = s.once)
    (h_cache : F .cache = true → cache1 = s.cache) (h_hbm : F .hbm = true → hbm1 = s.hbm)
    (h_cores : F .cores = true → cores1 = s.cores) (h_te : F .te = true → te1 = s.te) (h_ge : F .ge = true → ge1 = s.ge)
    (h_seqs : F .seqs = true → seqs1 = s.seqs) (h_objs : F .objs = true → objs1 = s.objs)
    (h_loader : F .loader = true → loader1 = s.loader) (h_host : F .host = true → host1 = s.host)
    (h_fab : F .fab = true → fab1 = s.fab) (h_uu : F .uu = true → uu1 = s.uu) (h_surv : F .surv = true → surv1 = s.surv)
    (h_pwr : F .pwr = true → pwr1 = s.pwr) (h_recd : F .recd = true → recd1 = s.recd) (h_smb : F .smb = true → smb1 = s.smb)
    (h_ticks : F .ticks = true → ticks1 = s.ticks) (h_free : F .free = true → free1 = s.free) :
    Keeps F s0 {
      ident := s.ident, pins := pins1, regs := regs1, staged := staged1, once := once1, mem := s.mem, cache := cache1,
      hbm := hbm1, cores := cores1, te := te1, ge := ge1, seqs := seqs1, objs := objs1, loader := loader1, host := host1,
      fab := fab1, uu := uu1, surv := surv1, pwr := pwr1, sec := s.sec, recd := recd1, smb := smb1, ticks := ticks1,
      free := free1, pending := s.pending } := by
  refine h.trans ⟨id, rfl, rfl, id, fun b => ⟨le_refl _, b⟩, fun p hp => ?_⟩
  cases p with
    | ident => exact rfl
    | pins => exact h_pins hp
    | regs => exact h_regs hp
    | staged => exact h_staged hp
    | once => exact h_once hp
    | mem => exact rfl
    | cache => exact h_cache hp
    | hbm => exact h_hbm hp
    | cores => exact h_cores hp
    | te => exact h_te hp
    | ge => exact h_ge hp
    | seqs => exact h_seqs hp
    | objs => exact h_objs hp
    | loader => exact h_loader hp
    | host => exact h_host hp
    | fab => exact h_fab hp
    | uu => exact h_uu hp
    | surv => exact h_surv hp
    | pwr => exact h_pwr hp
    | sec => exact rfl
    | recd => exact h_recd hp
    | smb => exact h_smb hp
    | ticks => exact h_ticks hp
    | free => exact h_free hp

theorem Keeps.ite {s0 a b : State} {c : Prop} [Decidable c] (ha : Keeps F s0 a) (hb : Keeps F s0 b) : Keeps F s0 (if c then a else b) := by
  split <;> assumption

theorem Keeps.foldl {α : Type} {s0 s : State} {l : List α} {f : State → α → State} (hf : ∀ t e, Keeps F s0 t → Keeps F s0 (f t e))
    (h : Keeps F s0 s) : Keeps F s0 (l.foldl f s) := by
  induction l generalizing s with
  | nil => exact h
  | cons e l ih => exact ih (hf s e h)

theorem Keeps.foldl1 {α β : Type} {s0 : State} {p : State × β} {l : List α} {f : State × β → α → State × β}
    (hf : ∀ t e, Keeps F s0 t.1 → Keeps F s0 (f t e).1) (h : Keeps F s0 p.1) : Keeps F s0 (l.foldl f p).1 := by
  induction l generalizing p with
  | nil => exact h
  | cons e l ih => exact ih (hf p e h)

theorem Keeps.foldl2 {α β : Type} {s0 : State} {p : β × State} {l : List α} {f : β × State → α → β × State}
    (hf : ∀ t e, Keeps F s0 t.2 → Keeps F s0 (f t e).2) (h : Keeps F s0 p.2) : Keeps F s0 (l.foldl f p).2 := by
  induction l generalizing p with
  | nil => exact h
  | cons e l ih => exact ih (hf p e h)

/-- An outcome whose next state, if it has one, is kept. -/
def KeepsRes (F : Area → Bool) (s0 : State) (r : Res) : Prop := ∀ t, r = .next t → Keeps F s0 t

theorem KeepsRes.next {s0 t : State} (h : Keeps F s0 t) : KeepsRes F s0 (.next t) := fun _ e => by cases e; exact h

theorem KeepsRes.refused {s0 : State} {r : Refusal} : KeepsRes F s0 (.refused r) := fun _ e => by cases e

/-- A state that may be absent. -/
def KeepsOpt (F : Area → Bool) (s0 : State) (r : Option State) : Prop := ∀ t, r = some t → Keeps F s0 t

theorem KeepsOpt.some {s0 t : State} (h : Keeps F s0 t) : KeepsOpt F s0 (some t) := fun _ e => by cases e; exact h

theorem KeepsOpt.none {s0 : State} : KeepsOpt F s0 none := fun _ e => by cases e

theorem KeepsOpt.of {s0 t : State} {r : Option State} (e : r = Option.some t) (h : KeepsOpt F s0 r) : Keeps F s0 t := h t e

theorem KeepsOpt.getD {s0 s : State} {o : Option State} (ho : KeepsOpt F s0 o) (h : Keeps F s0 s) : Keeps F s0 (o.getD s) := by
  cases o with
  | none => exact h
  | some t => exact ho t rfl

theorem KeepsOpt.bind {s0 : State} {o : Option State} {f : State → Option State} (ho : KeepsOpt F s0 o)
    (hf : ∀ t, Keeps F s0 t → KeepsOpt F s0 (f t)) : KeepsOpt F s0 (o.bind f) := by
  cases o with
  | none => exact KeepsOpt.none
  | some t => exact hf t (ho t rfl)

theorem KeepsOpt.map {s0 : State} {o : Option State} {f : State → State} (ho : KeepsOpt F s0 o)
    (hf : ∀ t, Keeps F s0 t → Keeps F s0 (f t)) : KeepsOpt F s0 (o.map f) := by
  cases o with
  | none => exact KeepsOpt.none
  | some t => exact KeepsOpt.some (hf t (ho t rfl))

theorem KeepsOpt.foldl {α : Type} {s0 : State} {o : Option State} {l : List α} {f : Option State → α → Option State}
    (hf : ∀ t e, KeepsOpt F s0 t → KeepsOpt F s0 (f t e)) (h : KeepsOpt F s0 o) : KeepsOpt F s0 (l.foldl f o) := by
  induction l generalizing o with
  | nil => exact h
  | cons e l ih => exact ih (hf o e h)

/-- A command of a packet: an error, or a state that is kept. -/
def KeepsCmd (F : Area → Bool) (s0 : State) (r : Cmd) : Prop := ∀ t, r = .ok t → Keeps F s0 t

theorem KeepsCmd.ok {s0 t : State} (h : Keeps F s0 t) : KeepsCmd F s0 (.ok t) := fun _ e => by cases e; exact h

theorem KeepsCmd.error {s0 : State} {r : Nat × Nat} : KeepsCmd F s0 (.error r) := fun _ e => by cases e

theorem KeepsCmd.rightFirst {s0 : State} {f : Option (Nat × Nat)} {r : Cmd} (h : KeepsCmd F s0 r) : KeepsCmd F s0 (rightFirst f r) := by
  cases f with
  | none => exact h
  | some e => exact KeepsCmd.error

theorem KeepsCmd.refuse {s0 : State} {r : Nat} : KeepsCmd F s0 (refuse r) := fun _ e => by cases e

theorem Keeps.of_fst {β : Type} {s0 t : State} {b : β} {p : State × β} (e : p = (t, b)) (h : Keeps F s0 p.1) : Keeps F s0 t := by
  rw [e] at h; exact h

theorem Keeps.of_snd {β : Type} {s0 t : State} {b : β} {p : β × State} (e : p = (b, t)) (h : Keeps F s0 p.2) : Keeps F s0 t := by
  rw [e] at h; exact h

/-- A memory made from a canonical one. -/
theorem Keeps.setMem {s0 s : State} {m : List Host.Cell} (w : F .mem = false) (h : Keeps F s0 s)
    (hm : Memory.wf s.mem = true → Memory.wf m = true) : Keeps F s0 { s with mem := m } := by
  refine h.trans ⟨hm, rfl, rfl, id, fun b => ⟨le_refl _, b⟩, fun p hp => ?_⟩
  cases p <;> first | exact rfl | exact absurd hp (by rw [w]; decide)

/-- A security block with the life-cycle state and count as they were. -/
theorem Keeps.setSec {s0 s : State} {c : Sec} (w : F .sec = false) (h : Keeps F s0 s) (hl : c.lc = s.sec.lc)
    (hc : c.lcCount = s.sec.lcCount) : Keeps F s0 { s with sec := c } := by
  refine h.trans ⟨id, rfl, rfl, fun e => hl.trans e, fun b => by simp [hc, b], fun p hp => ?_⟩
  cases p <;> first | exact rfl | exact absurd hp (by rw [w]; decide)

end Sys2Proof.Machine
end

