-- ==== Sys2Proof/Laws/KeepsOps.lean ====
section
/-! SUPPORT. What every step keeps: the functions of Machine/Ops.lean. -/

namespace Sys2Proof.Machine

open Sys2Proof

variable {F : Area → Bool}

theorem State.setReg_keeps {s0 : State} {s : State} {off : Nat} {v : Nat} (wF : Free F [.regs]) (hK : Keeps F s0 s) :
    Keeps F s0 (State.setReg s off v) := by
  unfold State.setReg
  repeat' first
    | with_reducible assumption
    | exact wF.sub rfl
    | dsimp only
    | with_reducible apply Keeps.upd
    | with_reducible exact fun _ => rfl
    | exact wF.off rfl

theorem State.bump_keeps {s0 : State} {s : State} {off : Nat} {n : Nat} (wF : Free F [.regs]) (hK : Keeps F s0 s) :
    Keeps F s0 (State.bump s off n) := by
  unfold State.bump
  repeat' first
    | with_reducible assumption
    | exact wF.sub rfl
    | with_reducible apply State.setReg_keeps
    | dsimp only
    | with_reducible apply Keeps.upd
    | with_reducible exact fun _ => rfl
    | exact wF.off rfl

theorem State.setBit_keeps {s0 : State} {s : State} {off : Nat} {k : Nat} (wF : Free F [.regs]) (hK : Keeps F s0 s) :
    Keeps F s0 (State.setBit s off k) := by
  unfold State.setBit
  repeat' first
    | with_reducible assumption
    | exact wF.sub rfl
    | with_reducible apply State.setReg_keeps
    | dsimp only
    | with_reducible apply Keeps.upd
    | with_reducible exact fun _ => rfl
    | exact wF.off rfl

theorem State.setField_keeps {s0 : State} {s : State} {off : Nat} {lo : Nat} {w : Nat} {v : Nat} (wF : Free F [.regs]) (hK : Keeps F s0 s) :
    Keeps F s0 (State.setField s off lo w v) := by
  unfold State.setField
  repeat' first
    | with_reducible assumption
    | exact wF.sub rfl
    | with_reducible apply State.setReg_keeps
    | dsimp only
    | with_reducible apply Keeps.upd
    | with_reducible exact fun _ => rfl
    | exact wF.off rfl

theorem State.adopt_keeps {s0 : State} {s : State} {off : Nat} {lo : Nat} {w : Nat} (wF : Free F [.regs]) (hK : Keeps F s0 s) :
    Keeps F s0 (State.adopt s off lo w) := by
  unfold State.adopt
  repeat' first
    | with_reducible assumption
    | exact wF.sub rfl
    | with_reducible apply State.setField_keeps
    | split
    | (with_reducible apply Keeps.of_fst; assumption)
    | (with_reducible apply Keeps.of_snd; assumption)
    | dsimp only
    | with_reducible apply Keeps.upd
    | with_reducible exact fun _ => rfl
    | exact wF.off rfl

theorem State.draw_keeps {s0 : State} {s : State} (wF : Free F [.free]) (hK : Keeps F s0 s) :
    Keeps F s0 (State.draw s).2 := by
  unfold State.draw
  repeat' first
    | with_reducible assumption
    | exact wF.sub rfl
    | dsimp only
    | with_reducible apply Keeps.upd
    | with_reducible exact fun _ => rfl
    | exact wF.off rfl

theorem State.drawBytes_keeps {s0 : State} {n : Nat} {s : State} (wF : Free F [.free]) (hK : Keeps F s0 s) :
    Keeps F s0 (State.drawBytes n s).2 := by
  unfold State.drawBytes
  repeat' first
    | with_reducible assumption
    | exact wF.sub rfl
    | dsimp only
    | with_reducible apply Keeps.upd
    | with_reducible exact fun _ => rfl
    | exact wF.off rfl

theorem State.raise_keeps {s0 : State} {s : State} {code : Nat} {payload : List Byte} (wF : Free F [.surv, .recd]) (hK : Keeps F s0 s) :
    Keeps F s0 (State.raise s code payload) := by
  unfold State.raise
  repeat' first
    | with_reducible assumption
    | exact wF.sub rfl
    | dsimp only
    | with_reducible apply Keeps.upd
    | with_reducible exact fun _ => rfl
    | exact wF.off rfl

theorem State.setCore_keeps {s0 : State} {s : State} {c : Nat} {k : Core} (wF : Free F [.cores]) (hK : Keeps F s0 s) :
    Keeps F s0 (State.setCore s c k) := by
  unfold State.setCore
  repeat' first
    | with_reducible assumption
    | exact wF.sub rfl
    | dsimp only
    | with_reducible apply Keeps.upd
    | with_reducible exact fun _ => rfl
    | exact wF.off rfl

theorem State.modCore_keeps {s0 : State} {s : State} {c : Nat} {f : Core → Core} (wF : Free F [.cores]) (hK : Keeps F s0 s) :
    Keeps F s0 (State.modCore s c f) := by
  unfold State.modCore
  repeat' first
    | with_reducible assumption
    | exact wF.sub rfl
    | with_reducible apply State.setCore_keeps
    | dsimp only
    | with_reducible apply Keeps.upd
    | with_reducible exact fun _ => rfl
    | exact wF.off rfl

theorem State.modDie_keeps {s0 : State} {s : State} {d : Nat} {f : Die → Die} (wF : Free F [.pwr]) (hK : Keeps F s0 s) :
    Keeps F s0 (State.modDie s d f) := by
  unfold State.modDie
  repeat' first
    | with_reducible assumption
    | exact wF.sub rfl
    | dsimp only
    | with_reducible apply Keeps.upd
    | with_reducible exact fun _ => rfl
    | exact wF.off rfl

theorem State.wakeDie_keeps {s0 : State} {s : State} {d : Nat} (wF : Free F [.regs, .pwr]) (hK : Keeps F s0 s) :
    Keeps F s0 (State.wakeDie s d) := by
  unfold State.wakeDie
  repeat' first
    | with_reducible assumption
    | exact wF.sub rfl
    | with_reducible apply State.bump_keeps
    | with_reducible apply State.modDie_keeps
    | with_reducible apply Keeps.ite
    | split
    | dsimp only
    | with_reducible apply Keeps.upd
    | with_reducible exact fun _ => rfl
    | exact wF.off rfl

theorem State.startDieIdle_keeps {s0 : State} {s : State} {d : Nat} (wF : Free F [.regs]) (hK : Keeps F s0 s) :
    Keeps F s0 (State.startDieIdle s d) := by
  unfold State.startDieIdle
  repeat' first
    | with_reducible assumption
    | exact wF.sub rfl
    | with_reducible apply State.adopt_keeps
    | with_reducible apply Keeps.ite
    | split
    | dsimp only
    | with_reducible apply Keeps.upd
    | with_reducible exact fun _ => rfl
    | exact wF.off rfl

theorem State.reachDie_keeps {s0 : State} {s : State} {d : Nat} (wF : Free F [.regs, .pwr]) (hK : Keeps F s0 s) :
    Keeps F s0 (State.reachDie s d) := by
  unfold State.reachDie
  repeat' first
    | with_reducible assumption
    | exact wF.sub rfl
    | with_reducible apply State.startDieIdle_keeps
    | with_reducible apply State.wakeDie_keeps
    | with_reducible apply Keeps.ite
    | split
    | dsimp only
    | with_reducible apply Keeps.upd
    | with_reducible exact fun _ => rfl
    | exact wF.off rfl

end Sys2Proof.Machine
end

