-- ==== Sys2Proof/Laws/KeepsWire.lean ====
section
/-! SUPPORT. What every step keeps: the functions of Machine/Wire.lean. -/

namespace Sys2Proof.Machine

open Sys2Proof

variable {F : Area → Bool}

theorem State.setWire_keeps {s0 : State} {s : State} {l : Link} {k : Wire} (wF : Free F [.fab]) (hK : Keeps F s0 s) :
    Keeps F s0 (State.setWire s l k) := by
  unfold State.setWire
  repeat' first
    | with_reducible assumption
    | exact wF.sub rfl
    | dsimp only
    | with_reducible apply Keeps.upd
    | with_reducible exact fun _ => rfl
    | exact wF.off rfl

theorem State.advance_keeps {s0 : State} {s : State} {l : Link} {k : Wire} (wF : Free F [.regs, .fab]) (hK : Keeps F s0 s) :
    Keeps F s0 (State.advance s l k) := by
  unfold State.advance
  repeat' first
    | with_reducible assumption
    | exact wF.sub rfl
    | with_reducible apply State.bump_keeps
    | with_reducible apply State.setWire_keeps
    | dsimp only
    | with_reducible apply Keeps.upd
    | with_reducible exact fun _ => rfl
    | exact wF.off rfl

theorem State.formFlits_keeps {s0 : State} {s : State} {l : Link} {n : Nat} (wF : Free F [.regs, .fab]) (hK : Keeps F s0 s) :
    Keeps F s0 (State.formFlits s l n) := by
  unfold State.formFlits
  repeat' first
    | with_reducible assumption
    | exact wF.sub rfl
    | with_reducible apply State.advance_keeps
    | dsimp only
    | with_reducible apply Keeps.upd
    | with_reducible exact fun _ => rfl
    | exact wF.off rfl

theorem State.acknowledged_keeps {s0 : State} {s : State} {l : Link} {f : Flit} (wF : Free F [.regs, .fab]) (hK : Keeps F s0 s) :
    Keeps F s0 (State.acknowledged s l f) := by
  unfold State.acknowledged
  repeat' first
    | with_reducible assumption
    | exact wF.sub rfl
    | with_reducible apply State.advance_keeps
    | with_reducible apply State.bump_keeps
    | with_reducible apply Keeps.ite
    | split
    | dsimp only
    | with_reducible apply Keeps.upd
    | with_reducible exact fun _ => rfl
    | exact wF.off rfl

theorem State.takeFlit_keeps {s0 : State} {s : State} {l : Link} {corrected : Bool} {crcOk : Bool} {f : Flit} (wF : Free F [.regs, .fab]) (hK : Keeps F s0 s) :
    Keeps F s0 (State.takeFlit s l corrected crcOk f) := by
  unfold State.takeFlit
  repeat' first
    | with_reducible assumption
    | exact wF.sub rfl
    | with_reducible apply State.acknowledged_keeps
    | with_reducible apply State.bump_keeps
    | with_reducible apply State.setWire_keeps
    | with_reducible apply Keeps.ite
    | split
    | dsimp only
    | with_reducible apply Keeps.upd
    | with_reducible exact fun _ => rfl
    | exact wF.off rfl

theorem State.sendOff_keeps {s0 : State} {s : State} {l : Link} {i : Nat} {r : Req} (wF : Free F [.regs, .fab]) (hK : Keeps F s0 s) :
    Keeps F s0 (State.sendOff s l i r) := by
  unfold State.sendOff
  repeat' first
    | with_reducible assumption
    | exact wF.sub rfl
    | with_reducible apply State.bump_keeps
    | with_reducible apply State.formFlits_keeps
    | with_reducible apply State.setWire_keeps
    | with_reducible apply Keeps.ite
    | split
    | dsimp only
    | with_reducible apply Keeps.upd
    | with_reducible exact fun _ => rfl
    | exact wF.off rfl

theorem State.pump_keeps {s0 : State} {n : Nat} {s : State} {l : Link} (wF : Free F [.regs, .fab]) (h : Keeps F s0 s) : Keeps F s0 (State.pump n s l) := by
  induction n generalizing s with
  | zero => exact h
  | succ n ih =>
    unfold State.pump
    repeat' first
      | with_reducible assumption
      | exact wF.sub rfl
      | with_reducible apply ih
      | with_reducible apply State.sendOff_keeps
      | with_reducible apply State.setWire_keeps
      | dsimp only
      | split

theorem State.modFab_keeps {s0 : State} {s : State} {f : Fabric → Fabric} (wF : Free F [.fab]) (hK : Keeps F s0 s) :
    Keeps F s0 (State.modFab s f) := by
  unfold State.modFab
  repeat' first
    | with_reducible assumption
    | exact wF.sub rfl
    | dsimp only
    | with_reducible apply Keeps.upd
    | with_reducible exact fun _ => rfl
    | exact wF.off rfl

theorem State.goOut_keeps {s0 : State} {s : State} {l : Link} {p : OutPkt} (wF : Free F [.regs, .fab]) (hK : Keeps F s0 s) :
    Keeps F s0 (State.goOut s l p) := by
  unfold State.goOut
  repeat' first
    | with_reducible assumption
    | exact wF.sub rfl
    | with_reducible apply State.bump_keeps
    | with_reducible apply State.formFlits_keeps
    | with_reducible apply State.modFab_keeps
    | with_reducible apply State.setWire_keeps
    | split
    | (with_reducible apply Keeps.of_fst; assumption)
    | (with_reducible apply Keeps.of_snd; assumption)
    | dsimp only
    | with_reducible apply Keeps.upd
    | with_reducible exact fun _ => rfl
    | exact wF.off rfl

theorem State.flush_keeps {s0 : State} {n : Nat} {s : State} {l : Link} (wF : Free F [.regs, .fab]) (h : Keeps F s0 s) : Keeps F s0 (State.flush n s l) := by
  induction n generalizing s with
  | zero => exact h
  | succ n ih =>
    unfold State.flush
    split
    · exact h
    · exact ih (State.goOut_keeps (wF.sub rfl) h)

theorem State.putOut_keeps {s0 : State} {s : State} {p : OutPkt} (wF : Free F [.regs, .fab]) (hK : Keeps F s0 s) :
    Keeps F s0 (State.putOut s p) := by
  unfold State.putOut
  repeat' first
    | with_reducible assumption
    | exact wF.sub rfl
    | with_reducible apply State.flush_keeps
    | with_reducible apply State.modFab_keeps
    | split
    | (with_reducible apply Keeps.of_fst; assumption)
    | (with_reducible apply Keeps.of_snd; assumption)
    | dsimp only
    | with_reducible apply Keeps.upd
    | with_reducible exact fun _ => rfl
    | exact wF.off rfl

theorem State.pumpLink_keeps {s0 : State} {s : State} {l : Link} (wF : Free F [.regs, .fab]) (hK : Keeps F s0 s) :
    Keeps F s0 (State.pumpLink s l) := by
  unfold State.pumpLink
  repeat' first
    | with_reducible assumption
    | exact wF.sub rfl
    | with_reducible apply State.flush_keeps
    | with_reducible apply State.pump_keeps
    | dsimp only
    | with_reducible apply Keeps.upd
    | with_reducible exact fun _ => rfl
    | exact wF.off rfl

theorem State.pumpAll_keeps {s0 : State} {s : State} (wF : Free F [.regs, .fab]) (hK : Keeps F s0 s) :
    Keeps F s0 (State.pumpAll s) := by
  unfold State.pumpAll
  repeat' first
    | with_reducible assumption
    | exact wF.sub rfl
    | with_reducible apply State.pumpLink_keeps
    | with_reducible apply Keeps.ite
    | (with_reducible apply Keeps.foldl1; intro _ _ _)
    | (with_reducible apply Keeps.foldl2; intro _ _ _)
    | (with_reducible apply Keeps.foldl; intro _ _ _)
    | split
    | dsimp only
    | with_reducible apply Keeps.upd
    | with_reducible exact fun _ => rfl
    | exact wF.off rfl

theorem State.send_keeps {s0 : State} {s : State} {r : Req} (wF : Free F [.regs, .fab]) (hK : Keeps F s0 s) :
    Keeps F s0 (State.send s r) := by
  unfold State.send
  repeat' first
    | with_reducible assumption
    | exact wF.sub rfl
    | with_reducible apply State.pumpLink_keeps
    | split
    | (with_reducible apply Keeps.of_fst; assumption)
    | (with_reducible apply Keeps.of_snd; assumption)
    | dsimp only
    | with_reducible apply Keeps.upd
    | with_reducible exact fun _ => rfl
    | exact wF.off rfl

theorem State.respond_keeps {s0 : State} {s : State} {h : FabHdr} {code : Nat} {data : List Byte} (wF : Free F [.regs, .fab]) (hK : Keeps F s0 s) :
    Keeps F s0 (State.respond s h code data) := by
  unfold State.respond
  repeat' first
    | with_reducible assumption
    | exact wF.sub rfl
    | with_reducible apply State.modFab_keeps
    | with_reducible apply State.putOut_keeps
    | with_reducible apply Keeps.ite
    | split
    | dsimp only
    | with_reducible apply Keeps.upd
    | with_reducible exact fun _ => rfl
    | exact wF.off rfl

theorem State.sweepOut_keeps {s0 : State} {s : State} (wF : Free F [.regs, .fab]) (hK : Keeps F s0 s) :
    Keeps F s0 (State.sweepOut s) := by
  unfold State.sweepOut
  repeat' first
    | with_reducible assumption
    | exact wF.sub rfl
    | with_reducible apply State.modFab_keeps
    | with_reducible apply State.respond_keeps
    | (with_reducible apply Keeps.foldl1; intro _ _ _)
    | (with_reducible apply Keeps.foldl2; intro _ _ _)
    | (with_reducible apply Keeps.foldl; intro _ _ _)
    | split
    | (with_reducible apply Keeps.of_fst; assumption)
    | (with_reducible apply Keeps.of_snd; assumption)
    | dsimp only
    | with_reducible apply Keeps.upd
    | with_reducible exact fun _ => rfl
    | exact wF.off rfl

end Sys2Proof.Machine
end

