-- ==== Sys2Proof/Laws/KeepsFences.lean ====
section
/-! SUPPORT. What every step keeps: the functions of Machine/Fences.lean. -/

namespace Sys2Proof.Machine

open Sys2Proof

variable {F : Area → Bool}

theorem State.modObjs_keeps {s0 : State} {s : State} {f : Objects → Objects} (wF : Free F [.objs]) (hK : Keeps F s0 s) :
    Keeps F s0 (State.modObjs s f) := by
  unfold State.modObjs
  repeat' first
    | with_reducible assumption
    | exact wF.sub rfl
    | dsimp only
    | with_reducible apply Keeps.upd
    | with_reducible exact fun _ => rfl
    | exact wF.off rfl

theorem State.modCtx_keeps {s0 : State} {s : State} {x : Nat} {f : Ctx → Ctx} (wF : Free F [.objs]) (hK : Keeps F s0 s) :
    Keeps F s0 (State.modCtx s x f) := by
  unfold State.modCtx
  repeat' first
    | with_reducible assumption
    | exact wF.sub rfl
    | dsimp only
    | with_reducible apply Keeps.upd
    | with_reducible exact fun _ => rfl
    | exact wF.off rfl

theorem State.setQueue_keeps {s0 : State} {s : State} {p : Nat} {q : Nat} {k : SubQueue} (wF : Free F [.objs]) (hK : Keeps F s0 s) :
    Keeps F s0 (State.setQueue s p q k) := by
  unfold State.setQueue
  repeat' first
    | with_reducible assumption
    | exact wF.sub rfl
    | dsimp only
    | with_reducible apply Keeps.upd
    | with_reducible exact fun _ => rfl
    | exact wF.off rfl

theorem State.setPort_keeps {s0 : State} {s : State} {p : Nat} {k : Port} (wF : Free F [.host]) (hK : Keeps F s0 s) :
    Keeps F s0 (State.setPort s p k) := by
  unfold State.setPort
  repeat' first
    | with_reducible assumption
    | exact wF.sub rfl
    | dsimp only
    | with_reducible apply Keeps.upd
    | with_reducible exact fun _ => rfl
    | exact wF.off rfl

theorem State.hostWrite_keeps {s0 : State} {s : State} {p : Nat} {a : Nat} {bytes : List Byte} (wF : Free F [.regs, .host, .fab]) (hK : Keeps F s0 s) :
    Keeps F s0 (State.hostWrite s p a bytes) := by
  unfold State.hostWrite
  repeat' first
    | with_reducible assumption
    | exact wF.sub rfl
    | with_reducible apply State.formFlits_keeps
    | with_reducible apply State.setPort_keeps
    | with_reducible apply Keeps.ite
    | split
    | dsimp only
    | with_reducible apply Keeps.upd
    | with_reducible exact fun _ => rfl
    | exact wF.off rfl

theorem State.publish_keeps {s0 : State} {s : State} {p : Nat} {q : Nat} (wF : Free F [.regs, .host, .fab]) (hK : Keeps F s0 s) :
    Keeps F s0 (State.publish s p q) := by
  unfold State.publish
  repeat' first
    | with_reducible assumption
    | exact wF.sub rfl
    | with_reducible apply State.hostWrite_keeps
    | with_reducible apply Keeps.ite
    | split
    | (with_reducible apply Keeps.of_fst; assumption)
    | (with_reducible apply Keeps.of_snd; assumption)
    | dsimp only
    | with_reducible apply Keeps.upd
    | with_reducible exact fun _ => rfl
    | exact wF.off rfl

theorem State.setCq_keeps {s0 : State} {s : State} {p : Nat} {c : Nat} {k : CqState} (wF : Free F [.host]) (hK : Keeps F s0 s) :
    Keeps F s0 (State.setCq s p c k) := by
  unfold State.setCq
  repeat' first
    | with_reducible assumption
    | exact wF.sub rfl
    | dsimp only
    | with_reducible apply Keeps.upd
    | with_reducible exact fun _ => rfl
    | exact wF.off rfl

theorem State.cqWrite_keeps {s0 : State} {s : State} {p : Nat} {c : Nat} {e : CqEntry} {pad : Nat} {place : Nat} (wF : Free F [.regs, .host, .fab]) (hK : Keeps F s0 s) :
    Keeps F s0 (State.cqWrite s p c e pad place) := by
  unfold State.cqWrite
  repeat' first
    | with_reducible assumption
    | exact wF.sub rfl
    | with_reducible apply State.hostWrite_keeps
    | with_reducible apply State.setCq_keeps
    | with_reducible apply State.setReg_keeps
    | with_reducible apply Keeps.ite
    | split
    | dsimp only
    | with_reducible apply Keeps.upd
    | with_reducible exact fun _ => rfl
    | exact wF.off rfl

theorem State.cqPost_keeps {s0 : State} {s : State} {p : Nat} {c : Nat} {e : CqEntry} (wF : Free F [.regs, .host, .fab]) (hK : Keeps F s0 s) :
    Keeps F s0 (State.cqPost s p c e).1 := by
  unfold State.cqPost
  repeat' first
    | with_reducible assumption
    | exact wF.sub rfl
    | with_reducible apply State.adopt_keeps
    | with_reducible apply State.cqWrite_keeps
    | with_reducible apply State.setCq_keeps
    | with_reducible apply Keeps.ite
    | split
    | (with_reducible apply Keeps.of_fst; assumption)
    | (with_reducible apply Keeps.of_snd; assumption)
    | dsimp only
    | with_reducible apply Keeps.upd
    | with_reducible exact fun _ => rfl
    | exact wF.off rfl

theorem State.log_keeps {s0 : State} {s : State} {x : Nat} {code : Nat} {fault : Bool} {prop : Bool} {fence : Nat} {detail : Nat} {src : LogSrc} (wF : Free F [.objs]) (hK : Keeps F s0 s) :
    Keeps F s0 (State.log s x code fault prop fence detail src) := by
  unfold State.log
  repeat' first
    | with_reducible assumption
    | exact wF.sub rfl
    | with_reducible apply State.modCtx_keeps
    | dsimp only
    | with_reducible apply Keeps.upd
    | with_reducible exact fun _ => rfl
    | exact wF.off rfl

theorem State.modFence_keeps {s0 : State} {s : State} {f : Nat} {g : Fence → Fence} (wF : Free F [.objs]) (hK : Keeps F s0 s) :
    Keeps F s0 (State.modFence s f g) := by
  unfold State.modFence
  repeat' first
    | with_reducible assumption
    | exact wF.sub rfl
    | dsimp only
    | with_reducible apply Keeps.upd
    | with_reducible exact fun _ => rfl
    | exact wF.off rfl

theorem State.fireEvent_keeps {s0 : State} {s : State} {h : Nat} {e : Event} {k : Fence} (wF : Free F [.regs, .objs, .host, .fab]) (hK : Keeps F s0 s) :
    Keeps F s0 (State.fireEvent s h e k) := by
  unfold State.fireEvent
  repeat' first
    | with_reducible assumption
    | exact wF.sub rfl
    | with_reducible apply State.cqPost_keeps
    | dsimp only
    | with_reducible apply Keeps.upd
    | with_reducible exact fun _ => rfl
    | exact wF.off rfl

theorem State.setFenceErr_keeps {s0 : State} {s : State} {f : Nat} {code : Nat} {by_ : Option Nat} (wF : Free F [.objs]) (hK : Keeps F s0 s) :
    Keeps F s0 (State.setFenceErr s f code by_) := by
  unfold State.setFenceErr
  repeat' first
    | with_reducible assumption
    | exact wF.sub rfl
    | with_reducible apply State.modFence_keeps
    | with_reducible apply Keeps.ite
    | split
    | dsimp only
    | with_reducible apply Keeps.upd
    | with_reducible exact fun _ => rfl
    | exact wF.off rfl

theorem State.freeFence_keeps {s0 : State} {s : State} {f : Nat} (wF : Free F [.objs]) (hK : Keeps F s0 s) :
    Keeps F s0 (State.freeFence s f) := by
  unfold State.freeFence
  repeat' first
    | with_reducible assumption
    | exact wF.sub rfl
    | with_reducible apply State.modObjs_keeps
    | dsimp only
    | with_reducible apply Keeps.upd
    | with_reducible exact fun _ => rfl
    | exact wF.off rfl

theorem State.settleHeld_keeps {s0 : State} {s : State} {f : Nat} (wF : Free F [.objs]) (hK : Keeps F s0 s) :
    Keeps F s0 (State.settleHeld s f) := by
  unfold State.settleHeld
  repeat' first
    | with_reducible assumption
    | exact wF.sub rfl
    | with_reducible apply State.freeFence_keeps
    | with_reducible apply Keeps.ite
    | split
    | (with_reducible apply Keeps.of_fst; assumption)
    | (with_reducible apply Keeps.of_snd; assumption)
    | dsimp only
    | with_reducible apply Keeps.upd
    | with_reducible exact fun _ => rfl
    | exact wF.off rfl

theorem State.logFenceErr_keeps {s0 : State} {s : State} {f : Nat} {code : Nat} {by_ : Option Nat} {prop : Bool} {node : Nat} {detail : Nat} {src : LogSrc} (wF : Free F [.objs]) (hK : Keeps F s0 s) :
    Keeps F s0 (State.logFenceErr s f code by_ prop node detail src) := by
  unfold State.logFenceErr
  repeat' first
    | with_reducible assumption
    | exact wF.sub rfl
    | with_reducible apply State.modCtx_keeps
    | with_reducible apply Keeps.ite
    | split
    | (with_reducible apply Keeps.of_fst; assumption)
    | (with_reducible apply Keeps.of_snd; assumption)
    | dsimp only
    | with_reducible apply Keeps.upd
    | with_reducible exact fun _ => rfl
    | exact wF.off rfl

theorem State.startHead_keeps {s0 : State} {s : State} {key : Nat} {k : SubQueue} (wF : Free F [.regs, .objs, .host, .fab]) (hK : Keeps F s0 s) :
    Keeps F s0 (State.startHead s key k) := by
  unfold State.startHead
  repeat' first
    | with_reducible assumption
    | exact wF.sub rfl
    | with_reducible apply State.publish_keeps
    | with_reducible apply State.setQueue_keeps
    | split
    | (with_reducible apply Keeps.of_fst; assumption)
    | (with_reducible apply Keeps.of_snd; assumption)
    | dsimp only
    | with_reducible apply Keeps.upd
    | with_reducible exact fun _ => rfl
    | exact wF.off rfl

theorem State.consumeHead_keeps {s0 : State} {s : State} {key : Nat} {k : SubQueue} (wF : Free F [.regs, .objs, .host, .fab]) (hK : Keeps F s0 s) :
    Keeps F s0 (State.consumeHead s key k) := by
  unfold State.consumeHead
  repeat' first
    | with_reducible assumption
    | exact wF.sub rfl
    | with_reducible apply State.bump_keeps
    | with_reducible apply State.publish_keeps
    | with_reducible apply State.setQueue_keeps
    | dsimp only
    | with_reducible apply Keeps.upd
    | with_reducible exact fun _ => rfl
    | exact wF.off rfl

theorem State.failHead_keeps {s0 : State} {s : State} {key : Nat} {k : SubQueue} {code : Nat} {prop : Bool} {detail : Nat} (wF : Free F [.regs, .objs, .host, .fab]) (hK : Keeps F s0 s) :
    Keeps F s0 (State.failHead s key k code prop detail).1 := by
  unfold State.failHead
  repeat' first
    | with_reducible assumption
    | exact wF.sub rfl
    | with_reducible apply State.consumeHead_keeps
    | with_reducible apply State.logFenceErr_keeps
    | with_reducible apply State.setFenceErr_keeps
    | with_reducible apply Keeps.ite
    | split
    | (with_reducible apply Keeps.of_fst; assumption)
    | (with_reducible apply Keeps.of_snd; assumption)
    | dsimp only
    | with_reducible apply Keeps.upd
    | with_reducible exact fun _ => rfl
    | exact wF.off rfl

theorem State.runHead_keeps {s0 : State} {s : State} {key : Nat} {k : SubQueue} {p : Packet} (wF : Free F [.regs, .objs, .host, .fab]) (hK : Keeps F s0 s) :
    Keeps F s0 (State.runHead s key k p).1 := by
  unfold State.runHead
  repeat' first
    | with_reducible assumption
    | exact wF.sub rfl
    | with_reducible apply State.failHead_keeps
    | with_reducible apply State.startHead_keeps
    | split
    | (with_reducible apply Keeps.of_fst; assumption)
    | (with_reducible apply Keeps.of_snd; assumption)
    | dsimp only
    | with_reducible apply Keeps.upd
    | with_reducible exact fun _ => rfl
    | exact wF.off rfl

theorem State.pushFence_keeps {s0 : State} {s : State} {f : Nat} {k : Fence} (wF : Free F [.regs, .fab]) (hK : Keeps F s0 s) :
    Keeps F s0 (State.pushFence s f k) := by
  unfold State.pushFence
  repeat' first
    | with_reducible assumption
    | exact wF.sub rfl
    | with_reducible apply State.send_keeps
    | (with_reducible apply Keeps.foldl1; intro _ _ _)
    | (with_reducible apply Keeps.foldl2; intro _ _ _)
    | (with_reducible apply Keeps.foldl; intro _ _ _)
    | dsimp only
    | with_reducible apply Keeps.upd
    | with_reducible exact fun _ => rfl
    | exact wF.off rfl

theorem State.noteHolders_keeps {s0 : State} {s : State} {f : Nat} (wF : Free F [.objs]) (hK : Keeps F s0 s) :
    Keeps F s0 (State.noteHolders s f) := by
  unfold State.noteHolders
  repeat' first
    | with_reducible assumption
    | exact wF.sub rfl
    | with_reducible apply State.modFence_keeps
    | (with_reducible apply Keeps.foldl1; intro _ _ _)
    | (with_reducible apply Keeps.foldl2; intro _ _ _)
    | (with_reducible apply Keeps.foldl; intro _ _ _)
    | split
    | (with_reducible apply Keeps.of_fst; assumption)
    | (with_reducible apply Keeps.of_snd; assumption)
    | dsimp only
    | with_reducible apply Keeps.upd
    | with_reducible exact fun _ => rfl
    | exact wF.off rfl

theorem State.wakeFence_keeps {s0 : State} {s : State} {f : Nat} (wF : Free F [.regs, .objs, .host, .fab]) (hK : Keeps F s0 s) :
    Keeps F s0 (State.wakeFence s f).1 := by
  unfold State.wakeFence
  repeat' first
    | with_reducible assumption
    | exact wF.sub rfl
    | with_reducible apply State.failHead_keeps
    | with_reducible apply State.fireEvent_keeps
    | with_reducible apply State.pushFence_keeps
    | with_reducible apply State.runHead_keeps
    | with_reducible apply Keeps.ite
    | (with_reducible apply Keeps.foldl1; intro _ _ _)
    | (with_reducible apply Keeps.foldl2; intro _ _ _)
    | (with_reducible apply Keeps.foldl; intro _ _ _)
    | split
    | (with_reducible apply Keeps.of_fst; assumption)
    | (with_reducible apply Keeps.of_snd; assumption)
    | dsimp only
    | with_reducible apply Keeps.upd
    | with_reducible exact fun _ => rfl
    | exact wF.off rfl

theorem State.wakeAll_keeps {s0 : State} {n : Nat} {fs : List Nat} {s : State} (wF : Free F [.regs, .objs, .host, .fab]) (h : Keeps F s0 s) : Keeps F s0 (State.wakeAll n fs s) := by
  induction n generalizing fs s with
  | zero => exact h
  | succ n ih => cases fs with
    | nil => exact h
    | cons f fs => exact ih (State.wakeFence_keeps (wF.sub rfl) h)

theorem State.wake_keeps {s0 : State} {s : State} {fs : List Nat} (wF : Free F [.regs, .objs, .host, .fab]) (hK : Keeps F s0 s) :
    Keeps F s0 (State.wake s fs) := by
  unfold State.wake
  repeat' first
    | with_reducible assumption
    | exact wF.sub rfl
    | with_reducible apply State.wakeAll_keeps
    | dsimp only
    | with_reducible apply Keeps.upd
    | with_reducible exact fun _ => rfl
    | exact wF.off rfl

theorem State.attachError_keeps {s0 : State} {s : State} {f : Nat} {code : Nat} {by_ : Option Nat} {prop : Bool} {node : Nat} {detail : Nat} {src : LogSrc} (wF : Free F [.regs, .objs, .host, .fab]) (hK : Keeps F s0 s) :
    Keeps F s0 (State.attachError s f code by_ prop node detail src) := by
  unfold State.attachError
  repeat' first
    | with_reducible assumption
    | exact wF.sub rfl
    | with_reducible apply State.logFenceErr_keeps
    | with_reducible apply State.setFenceErr_keeps
    | with_reducible apply State.wake_keeps
    | with_reducible apply Keeps.ite
    | split
    | (with_reducible apply Keeps.of_fst; assumption)
    | (with_reducible apply Keeps.of_snd; assumption)
    | dsimp only
    | with_reducible apply Keeps.upd
    | with_reducible exact fun _ => rfl
    | exact wF.off rfl

theorem State.fenceErrorAt_keeps {s0 : State} {s : State} {f : Nat} {code : Nat} {by_ : Option Nat} {node : Nat} {detail : Nat} {src : LogSrc} (wF : Free F [.regs, .objs, .host, .fab]) (hK : Keeps F s0 s) :
    Keeps F s0 (State.fenceErrorAt s f code by_ node detail src) := by
  unfold State.fenceErrorAt
  repeat' first
    | with_reducible assumption
    | exact wF.sub rfl
    | with_reducible apply State.attachError_keeps
    | dsimp only
    | with_reducible apply Keeps.upd
    | with_reducible exact fun _ => rfl
    | exact wF.off rfl

theorem State.fenceError_keeps {s0 : State} {s : State} {f : Nat} {code : Nat} {by_ : Option Nat} {detail : Nat} {src : LogSrc} (wF : Free F [.regs, .objs, .host, .fab]) (hK : Keeps F s0 s) :
    Keeps F s0 (State.fenceError s f code by_ detail src) := by
  unfold State.fenceError
  repeat' first
    | with_reducible assumption
    | exact wF.sub rfl
    | with_reducible apply State.fenceErrorAt_keeps
    | dsimp only
    | with_reducible apply Keeps.upd
    | with_reducible exact fun _ => rfl
    | exact wF.off rfl

theorem State.signalFails_keeps {s0 : State} {s : State} {errs : Option Nat} {x : Nat} {code : Nat} (wF : Free F [.regs, .objs, .host, .fab]) (hK : Keeps F s0 s) :
    Keeps F s0 (State.signalFails s errs x code) := by
  unfold State.signalFails
  repeat' first
    | with_reducible assumption
    | exact wF.sub rfl
    | with_reducible apply State.fenceError_keeps
    | with_reducible apply State.log_keeps
    | split
    | (with_reducible apply Keeps.of_fst; assumption)
    | (with_reducible apply Keeps.of_snd; assumption)
    | dsimp only
    | with_reducible apply Keeps.upd
    | with_reducible exact fun _ => rfl
    | exact wF.off rfl

theorem State.signalFor_keeps {s0 : State} {s : State} {f : Nat} {v : Nat} {errs : Option Nat} (wF : Free F [.regs, .objs, .host, .fab, .surv, .recd]) (hK : Keeps F s0 s) :
    Keeps F s0 (State.signalFor s f v errs) := by
  unfold State.signalFor
  repeat' first
    | with_reducible assumption
    | exact wF.sub rfl
    | with_reducible apply State.modFence_keeps
    | with_reducible apply State.raise_keeps
    | with_reducible apply State.send_keeps
    | with_reducible apply State.signalFails_keeps
    | with_reducible apply State.wake_keeps
    | with_reducible apply Keeps.ite
    | split
    | (with_reducible apply Keeps.of_fst; assumption)
    | (with_reducible apply Keeps.of_snd; assumption)
    | dsimp only
    | with_reducible apply Keeps.upd
    | with_reducible exact fun _ => rfl
    | exact wF.off rfl

theorem State.signal_keeps {s0 : State} {s : State} {f : Nat} {v : Nat} (wF : Free F [.regs, .objs, .host, .fab, .surv, .recd]) (hK : Keeps F s0 s) :
    Keeps F s0 (State.signal s f v) := by
  unfold State.signal
  repeat' first
    | with_reducible assumption
    | exact wF.sub rfl
    | with_reducible apply State.signalFor_keeps
    | dsimp only
    | with_reducible apply Keeps.upd
    | with_reducible exact fun _ => rfl
    | exact wF.off rfl

theorem State.endPacket_keeps {s0 : State} {s : State} {p : Nat} {q : Nat} (wF : Free F [.objs]) (hK : Keeps F s0 s) :
    Keeps F s0 (State.endPacket s p q) := by
  unfold State.endPacket
  repeat' first
    | with_reducible assumption
    | exact wF.sub rfl
    | with_reducible apply State.setQueue_keeps
    | split
    | (with_reducible apply Keeps.of_fst; assumption)
    | (with_reducible apply Keeps.of_snd; assumption)
    | dsimp only
    | with_reducible apply Keeps.upd
    | with_reducible exact fun _ => rfl
    | exact wF.off rfl

theorem State.completePacket_keeps {s0 : State} {s : State} {p : Nat} {q : Nat} {r : Packet} (wF : Free F [.regs, .objs, .host, .fab, .surv, .recd]) (hK : Keeps F s0 s) :
    Keeps F s0 (State.completePacket s p q r) := by
  unfold State.completePacket
  repeat' first
    | with_reducible assumption
    | exact wF.sub rfl
    | with_reducible apply State.endPacket_keeps
    | with_reducible apply State.signal_keeps
    | with_reducible apply Keeps.ite
    | split
    | dsimp only
    | with_reducible apply Keeps.upd
    | with_reducible exact fun _ => rfl
    | exact wF.off rfl

theorem State.failPacket_keeps {s0 : State} {s : State} {p : Nat} {q : Nat} {ctx : Nat} {code : Nat} {detail : Nat} {r : Packet} (wF : Free F [.regs, .objs, .host, .fab]) (hK : Keeps F s0 s) :
    Keeps F s0 (State.failPacket s p q ctx code detail r) := by
  unfold State.failPacket
  repeat' first
    | with_reducible assumption
    | exact wF.sub rfl
    | with_reducible apply State.bump_keeps
    | with_reducible apply State.endPacket_keeps
    | with_reducible apply State.fenceError_keeps
    | with_reducible apply Keeps.ite
    | split
    | dsimp only
    | with_reducible apply Keeps.upd
    | with_reducible exact fun _ => rfl
    | exact wF.off rfl

theorem State.completeWith_keeps {s0 : State} {s : State} {p : Nat} {q : Nat} {ctx : Nat} {r : Packet} {kind : Nat} {source : Nat} {result : List Byte} {data : List Byte} (wF : Free F [.regs, .objs, .host, .fab, .surv, .recd]) (hK : Keeps F s0 s) :
    Keeps F s0 (State.completeWith s p q ctx r kind source result data) := by
  unfold State.completeWith
  repeat' first
    | with_reducible assumption
    | exact wF.sub rfl
    | with_reducible apply State.cqPost_keeps
    | with_reducible apply State.endPacket_keeps
    | with_reducible apply State.signal_keeps
    | with_reducible apply Keeps.ite
    | split
    | (with_reducible apply Keeps.of_fst; assumption)
    | (with_reducible apply Keeps.of_snd; assumption)
    | dsimp only
    | with_reducible apply Keeps.upd
    | with_reducible exact fun _ => rfl
    | exact wF.off rfl

theorem State.entryError_keeps {s0 : State} {s : State} {c : Nat} {code : Nat} {detail : Nat} (wF : Free F [.regs, .objs, .host, .fab]) (hK : Keeps F s0 s) :
    Keeps F s0 (State.entryError s c code detail) := by
  unfold State.entryError
  repeat' first
    | with_reducible assumption
    | exact wF.sub rfl
    | with_reducible apply State.fenceError_keeps
    | with_reducible apply State.log_keeps
    | split
    | (with_reducible apply Keeps.of_fst; assumption)
    | (with_reducible apply Keeps.of_snd; assumption)
    | dsimp only
    | with_reducible apply Keeps.upd
    | with_reducible exact fun _ => rfl
    | exact wF.off rfl

theorem State.teardown_keeps {s0 : State} {s : State} {x : Nat} {cause : Nat} {ownerGone : Bool} (wF : Free F [.objs, .loader]) (hK : Keeps F s0 s) :
    Keeps F s0 (State.teardown s x cause ownerGone) := by
  unfold State.teardown
  repeat' first
    | with_reducible assumption
    | exact wF.sub rfl
    | with_reducible apply State.modCtx_keeps
    | with_reducible apply Keeps.ite
    | split
    | dsimp only
    | with_reducible apply Keeps.upd
    | with_reducible exact fun _ => rfl
    | exact wF.off rfl

theorem State.clearUnits_keeps {s0 : State} {s : State} {p : Nat → Bool} (wF : Free F [.te]) (hK : Keeps F s0 s) :
    Keeps F s0 (State.clearUnits s p) := by
  unfold State.clearUnits
  repeat' first
    | with_reducible assumption
    | exact wF.sub rfl
    | with_reducible apply Keeps.ite
    | split
    | dsimp only
    | with_reducible apply Keeps.upd
    | with_reducible exact fun _ => rfl
    | exact wF.off rfl

theorem State.faultCtx_keeps {s0 : State} {s : State} {x : Nat} {code : Nat} {detail : Nat} (wF : Free F [.te, .objs, .loader]) (hK : Keeps F s0 s) :
    Keeps F s0 (State.faultCtx s x code detail) := by
  unfold State.faultCtx
  repeat' first
    | with_reducible assumption
    | exact wF.sub rfl
    | with_reducible apply State.clearUnits_keeps
    | with_reducible apply State.log_keeps
    | with_reducible apply State.teardown_keeps
    | with_reducible apply Keeps.ite
    | split
    | dsimp only
    | with_reducible apply Keeps.upd
    | with_reducible exact fun _ => rfl
    | exact wF.off rfl

theorem State.faultCore_keeps {s0 : State} {s : State} {c : Nat} {code : Nat} {detail : Nat} (wF : Free F [.te, .objs, .loader]) (hK : Keeps F s0 s) :
    Keeps F s0 (State.faultCore s c code detail) := by
  unfold State.faultCore
  repeat' first
    | with_reducible assumption
    | exact wF.sub rfl
    | with_reducible apply State.faultCtx_keeps
    | split
    | (with_reducible apply Keeps.of_fst; assumption)
    | (with_reducible apply Keeps.of_snd; assumption)
    | dsimp only
    | with_reducible apply Keeps.upd
    | with_reducible exact fun _ => rfl
    | exact wF.off rfl

end Sys2Proof.Machine
end

