-- ==== Sys2Proof/Laws/KeepsMemory.lean ====
section
/-! SUPPORT. What every step keeps: the functions of Machine/Memory.lean. -/

namespace Sys2Proof.Machine

open Sys2Proof

variable {F : Area → Bool}

theorem State.hbmBytesMoved_keeps {s0 : State} {s : State} {u : Nat} {rd : Nat} {wr : Nat} (wF : Free F [.regs, .pwr]) (hK : Keeps F s0 s) :
    Keeps F s0 (State.hbmBytesMoved s u rd wr) := by
  unfold State.hbmBytesMoved
  repeat' first
    | with_reducible assumption
    | exact wF.sub rfl
    | with_reducible apply State.bump_keeps
    | with_reducible apply State.reachDie_keeps
    | with_reducible apply Keeps.ite
    | split
    | dsimp only
    | with_reducible apply Keeps.upd
    | with_reducible exact fun _ => rfl
    | exact wF.off rfl

theorem State.hbmWrote_keeps {s0 : State} {s : State} {a : Nat} {rd : Nat} {wr : Nat} (wF : Free F [.regs, .pwr]) (hK : Keeps F s0 s) :
    Keeps F s0 (State.hbmWrote s a rd wr) := by
  unfold State.hbmWrote
  repeat' first
    | with_reducible assumption
    | exact wF.sub rfl
    | with_reducible apply State.hbmBytesMoved_keeps
    | with_reducible apply Keeps.ite
    | split
    | (with_reducible apply Keeps.of_fst; assumption)
    | (with_reducible apply Keeps.of_snd; assumption)
    | dsimp only
    | with_reducible apply Keeps.upd
    | with_reducible exact fun _ => rfl
    | exact wF.off rfl

theorem State.pageMoved_keeps {s0 : State} {s : State} {a : Nat} {size : Nat} {write : Bool} (wF : Free F [.regs, .pwr]) (hK : Keeps F s0 s) :
    Keeps F s0 (State.pageMoved s a size write) := by
  unfold State.pageMoved
  repeat' first
    | with_reducible assumption
    | exact wF.sub rfl
    | with_reducible apply State.hbmBytesMoved_keeps
    | with_reducible apply Keeps.ite
    | (with_reducible apply Keeps.foldl1; intro _ _ _)
    | (with_reducible apply Keeps.foldl2; intro _ _ _)
    | (with_reducible apply Keeps.foldl; intro _ _ _)
    | split
    | dsimp only
    | with_reducible apply Keeps.upd
    | with_reducible exact fun _ => rfl
    | exact wF.off rfl

theorem State.setProt_keeps {s0 : State} {s : State} {j : Nat} {p : Prot} (wF : Free F [.surv]) (hK : Keeps F s0 s) :
    Keeps F s0 (State.setProt s j p) := by
  unfold State.setProt
  repeat' first
    | with_reducible assumption
    | exact wF.sub rfl
    | dsimp only
    | with_reducible apply Keeps.upd
    | with_reducible exact fun _ => rfl
    | exact wF.off rfl

theorem State.voidOpen_keeps {s0 : State} {s : State} {j : Nat} {p : Prot} (wF : Free F [.surv, .recd]) (hK : Keeps F s0 s) :
    Keeps F s0 (State.voidOpen s j p) := by
  unfold State.voidOpen
  repeat' first
    | with_reducible assumption
    | exact wF.sub rfl
    | with_reducible apply State.raise_keeps
    | with_reducible apply State.setProt_keeps
    | split
    | (with_reducible apply Keeps.of_fst; assumption)
    | (with_reducible apply Keeps.of_snd; assumption)
    | dsimp only
    | with_reducible apply Keeps.upd
    | with_reducible exact fun _ => rfl
    | exact wF.off rfl

theorem State.touchProt_keeps {s0 : State} {s : State} {a : Nat} {j : Nat} {p : Prot} (wF : Free F [.regs, .surv, .pwr, .recd]) (hK : Keeps F s0 s) :
    Keeps F s0 (State.touchProt s a j p) := by
  unfold State.touchProt
  repeat' first
    | with_reducible assumption
    | exact wF.sub rfl
    | with_reducible apply State.bump_keeps
    | with_reducible apply State.pageMoved_keeps
    | with_reducible apply State.setProt_keeps
    | with_reducible apply State.voidOpen_keeps
    | with_reducible apply Keeps.ite
    | split
    | (with_reducible apply Keeps.of_fst; assumption)
    | (with_reducible apply Keeps.of_snd; assumption)
    | dsimp only
    | with_reducible apply Keeps.upd
    | with_reducible exact fun _ => rfl
    | exact wF.off rfl

theorem State.touch_keeps {s0 : State} {s : State} {a : Nat} (wF : Free F [.regs, .surv, .pwr, .recd]) (hK : Keeps F s0 s) :
    Keeps F s0 (State.touch s a) := by
  unfold State.touch
  repeat' first
    | with_reducible assumption
    | exact wF.sub rfl
    | with_reducible apply State.touchProt_keeps
    | (with_reducible apply Keeps.foldl1; intro _ _ _)
    | (with_reducible apply Keeps.foldl2; intro _ _ _)
    | (with_reducible apply Keeps.foldl; intro _ _ _)
    | dsimp only
    | with_reducible apply Keeps.upd
    | with_reducible exact fun _ => rfl
    | exact wF.off rfl

theorem State.holdWrite_keeps {s0 : State} {s : State} {w : HeldWrite} (wF : Free F [.surv]) (hK : Keeps F s0 s) :
    Keeps F s0 (State.holdWrite s w) := by
  unfold State.holdWrite
  repeat' first
    | with_reducible assumption
    | exact wF.sub rfl
    | dsimp only
    | with_reducible apply Keeps.upd
    | with_reducible exact fun _ => rfl
    | exact wF.off rfl

theorem State.sendMirror_keeps {s0 : State} {s : State} {j : Nat} {ln : Nat} {p : Prot} (wF : Free F [.regs, .fab, .surv]) (hK : Keeps F s0 s) :
    Keeps F s0 (State.sendMirror s j ln p) := by
  unfold State.sendMirror
  repeat' first
    | with_reducible assumption
    | exact wF.sub rfl
    | with_reducible apply State.send_keeps
    | with_reducible apply State.setProt_keeps
    | dsimp only
    | with_reducible apply Keeps.upd
    | with_reducible exact fun _ => rfl
    | exact wF.off rfl

theorem State.markLine_keeps {s0 : State} {s : State} {j : Nat} {ln : Nat} (wF : Free F [.regs, .surv]) (hK : Keeps F s0 s) :
    Keeps F s0 (State.markLine s j ln) := by
  unfold State.markLine
  repeat' first
    | with_reducible assumption
    | exact wF.sub rfl
    | with_reducible apply State.bump_keeps
    | with_reducible apply State.setProt_keeps
    | with_reducible apply Keeps.ite
    | split
    | (with_reducible apply Keeps.of_fst; assumption)
    | (with_reducible apply Keeps.of_snd; assumption)
    | dsimp only
    | with_reducible apply Keeps.upd
    | with_reducible exact fun _ => rfl
    | exact wF.off rfl

theorem State.mirrorProt_keeps {s0 : State} {s : State} {ln : Nat} {j : Nat} {p : Prot} (wF : Free F [.regs, .fab, .surv]) (hK : Keeps F s0 s) :
    Keeps F s0 (State.mirrorProt s ln j p) := by
  unfold State.mirrorProt
  repeat' first
    | with_reducible assumption
    | exact wF.sub rfl
    | with_reducible apply State.bump_keeps
    | with_reducible apply State.markLine_keeps
    | with_reducible apply State.sendMirror_keeps
    | with_reducible apply State.setProt_keeps
    | with_reducible apply Keeps.ite
    | split
    | (with_reducible apply Keeps.of_fst; assumption)
    | (with_reducible apply Keeps.of_snd; assumption)
    | dsimp only
    | with_reducible apply Keeps.upd
    | with_reducible exact fun _ => rfl
    | exact wF.off rfl

theorem State.mirror_keeps {s0 : State} {s : State} {ln : Nat} (wF : Free F [.regs, .fab, .surv]) (hK : Keeps F s0 s) :
    Keeps F s0 (State.mirror s ln) := by
  unfold State.mirror
  repeat' first
    | with_reducible assumption
    | exact wF.sub rfl
    | with_reducible apply State.mirrorProt_keeps
    | with_reducible apply Keeps.ite
    | (with_reducible apply Keeps.foldl1; intro _ _ _)
    | (with_reducible apply Keeps.foldl2; intro _ _ _)
    | (with_reducible apply Keeps.foldl; intro _ _ _)
    | split
    | dsimp only
    | with_reducible apply Keeps.upd
    | with_reducible exact fun _ => rfl
    | exact wF.off rfl

theorem State.mendHalves_keeps {s0 : State} {s : State} {a : Nat} {n : Nat} (wF : Free F [.hbm]) (hK : Keeps F s0 s) :
    Keeps F s0 (State.mendHalves s a n) := by
  unfold State.mendHalves
  repeat' first
    | with_reducible assumption
    | exact wF.sub rfl
    | (with_reducible apply Keeps.foldl1; intro _ _ _)
    | (with_reducible apply Keeps.foldl2; intro _ _ _)
    | (with_reducible apply Keeps.foldl; intro _ _ _)
    | dsimp only
    | with_reducible apply Keeps.upd
    | with_reducible exact fun _ => rfl
    | exact wF.off rfl

theorem State.hbmPut_keeps {s0 s : State} {a : Nat} {bytes : List Byte} (wF : Free F [.regs, .mem, .surv, .pwr, .recd]) (h : Keeps F s0 s) : Keeps F s0 (State.hbmPut s a bytes) :=
  Keeps.setMem (wF _ (by decide)) (State.touch_keeps (wF.sub rfl) h) fun m => cellPuts_wf m a bytes

theorem State.hbmStore_keeps {s0 s : State} {a : Nat} {bytes : List Byte} (wF : Free F [.regs, .mem, .fab, .surv, .pwr, .recd]) (h : Keeps F s0 s) : Keeps F s0 (State.hbmStore s a bytes) :=
  State.mirror_keeps (wF.sub rfl) (State.hbmPut_keeps (wF.sub rfl) h)

theorem State.hbmWrite_keeps {s0 : State} {s : State} {a : Nat} {bytes : List Byte} (wF : Free F [.regs, .mem, .hbm, .fab, .surv, .pwr, .recd]) (hK : Keeps F s0 s) :
    Keeps F s0 (State.hbmWrite s a bytes) := by
  unfold State.hbmWrite
  repeat' first
    | with_reducible assumption
    | exact wF.sub rfl
    | with_reducible apply State.hbmStore_keeps
    | with_reducible apply State.hbmWrote_keeps
    | with_reducible apply State.holdWrite_keeps
    | with_reducible apply State.mendHalves_keeps
    | with_reducible apply Keeps.ite
    | split
    | dsimp only
    | with_reducible apply Keeps.upd
    | with_reducible exact fun _ => rfl
    | exact wF.off rfl

theorem State.modLines_keeps {s0 : State} {s : State} {f : Tab Line → Tab Line} (wF : Free F [.cache]) (hK : Keeps F s0 s) :
    Keeps F s0 (State.modLines s f) := by
  unfold State.modLines
  repeat' first
    | with_reducible assumption
    | exact wF.sub rfl
    | dsimp only
    | with_reducible apply Keeps.upd
    | with_reducible exact fun _ => rfl
    | exact wF.off rfl

theorem State.writeHalf_keeps {s0 : State} {s : State} {ln : Nat} {l : Line} {h : Nat} (wF : Free F [.regs, .mem, .hbm, .surv, .pwr, .recd]) (hK : Keeps F s0 s) :
    Keeps F s0 (State.writeHalf s ln l h) := by
  unfold State.writeHalf
  repeat' first
    | with_reducible assumption
    | exact wF.sub rfl
    | with_reducible apply State.hbmPut_keeps
    | with_reducible apply State.hbmWrote_keeps
    | with_reducible apply State.mendHalves_keeps
    | with_reducible apply Keeps.ite
    | split
    | dsimp only
    | with_reducible apply Keeps.upd
    | with_reducible exact fun _ => rfl
    | exact wF.off rfl

theorem State.writeBack_keeps {s0 : State} {s : State} {ln : Nat} {l : Line} (wF : Free F [.regs, .mem, .hbm, .fab, .surv, .pwr, .recd]) (hK : Keeps F s0 s) :
    Keeps F s0 (State.writeBack s ln l) := by
  unfold State.writeBack
  repeat' first
    | with_reducible assumption
    | exact wF.sub rfl
    | with_reducible apply State.bump_keeps
    | with_reducible apply State.mirror_keeps
    | with_reducible apply State.writeHalf_keeps
    | with_reducible apply Keeps.ite
    | split
    | dsimp only
    | with_reducible apply Keeps.upd
    | with_reducible exact fun _ => rfl
    | exact wF.off rfl

theorem State.evict_keeps {s0 : State} {s : State} {ln : Nat} {l : Line} (wF : Free F [.regs, .mem, .cache, .hbm, .fab, .surv, .pwr, .recd]) (hK : Keeps F s0 s) :
    Keeps F s0 (State.evict s ln l) := by
  unfold State.evict
  repeat' first
    | with_reducible assumption
    | exact wF.sub rfl
    | with_reducible apply State.writeBack_keeps
    | dsimp only
    | with_reducible apply Keeps.upd
    | with_reducible exact fun _ => rfl
    | exact wF.off rfl

theorem State.victim_keeps {s0 : State} {s : State} {slice : Nat} {set : Nat} (wF : Free F [.free]) (hK : Keeps F s0 s) :
    Keeps F s0 (State.victim s slice set).2 := by
  unfold State.victim
  repeat' first
    | with_reducible assumption
    | exact wF.sub rfl
    | with_reducible apply State.draw_keeps
    | with_reducible apply Keeps.ite
    | split
    | (with_reducible apply Keeps.of_fst; assumption)
    | (with_reducible apply Keeps.of_snd; assumption)
    | dsimp only
    | with_reducible apply Keeps.upd
    | with_reducible exact fun _ => rfl
    | exact wF.off rfl

theorem State.install_keeps {s0 : State} {s : State} {p : Nat} {ln : Nat} {mru : Bool} (wF : Free F [.regs, .mem, .cache, .hbm, .fab, .surv, .pwr, .recd, .free]) (hK : Keeps F s0 s) :
    Keeps F s0 (State.install s p ln mru) := by
  unfold State.install
  repeat' first
    | with_reducible assumption
    | exact wF.sub rfl
    | with_reducible apply State.evict_keeps
    | with_reducible apply State.victim_keeps
    | with_reducible apply Keeps.ite
    | split
    | (with_reducible apply Keeps.of_fst; assumption)
    | (with_reducible apply Keeps.of_snd; assumption)
    | dsimp only
    | with_reducible apply Keeps.upd
    | with_reducible exact fun _ => rfl
    | exact wF.off rfl

theorem State.access_keeps {s0 : State} {s : State} {p : Nat} {ln : Nat} {hit : Bool} (wF : Free F [.regs, .cache, .pwr]) (hK : Keeps F s0 s) :
    Keeps F s0 (State.access s p ln hit) := by
  unfold State.access
  repeat' first
    | with_reducible assumption
    | exact wF.sub rfl
    | with_reducible apply State.bump_keeps
    | with_reducible apply State.reachDie_keeps
    | with_reducible apply Keeps.ite
    | split
    | dsimp only
    | with_reducible apply Keeps.upd
    | with_reducible exact fun _ => rfl
    | exact wF.off rfl

theorem State.used_keeps {s0 : State} {s : State} {ln : Nat} (wF : Free F [.cache]) (hK : Keeps F s0 s) :
    Keeps F s0 (State.used s ln) := by
  unfold State.used
  repeat' first
    | with_reducible assumption
    | exact wF.sub rfl
    | dsimp only
    | with_reducible apply Keeps.upd
    | with_reducible exact fun _ => rfl
    | exact wF.off rfl

theorem State.writeLine_keeps {s0 : State} {s : State} {p : Nat} {policy : Nat} {a : Nat} {bytes : List Byte} (wF : Free F [.regs, .mem, .cache, .hbm, .fab, .surv, .pwr, .recd, .free]) (hK : Keeps F s0 s) :
    Keeps F s0 (State.writeLine s p policy a bytes) := by
  unfold State.writeLine
  repeat' first
    | with_reducible assumption
    | exact wF.sub rfl
    | with_reducible apply State.access_keeps
    | with_reducible apply State.bump_keeps
    | with_reducible apply State.hbmWrite_keeps
    | with_reducible apply State.holdWrite_keeps
    | with_reducible apply State.install_keeps
    | with_reducible apply State.modLines_keeps
    | with_reducible apply State.used_keeps
    | with_reducible apply Keeps.ite
    | split
    | (with_reducible apply Keeps.of_fst; assumption)
    | (with_reducible apply Keeps.of_snd; assumption)
    | dsimp only
    | with_reducible apply Keeps.upd
    | with_reducible exact fun _ => rfl
    | exact wF.off rfl

theorem State.cacheWrite_keeps {s0 : State} {s : State} {p : Nat} {policy : Nat} {a : Nat} {bytes : List Byte} (wF : Free F [.regs, .mem, .cache, .hbm, .fab, .surv, .pwr, .recd, .free]) (hK : Keeps F s0 s) :
    Keeps F s0 (State.cacheWrite s p policy a bytes) := by
  unfold State.cacheWrite
  repeat' first
    | with_reducible assumption
    | exact wF.sub rfl
    | with_reducible apply State.writeLine_keeps
    | (with_reducible apply Keeps.foldl1; intro _ _ _)
    | (with_reducible apply Keeps.foldl2; intro _ _ _)
    | (with_reducible apply Keeps.foldl; intro _ _ _)
    | dsimp only
    | with_reducible apply Keeps.upd
    | with_reducible exact fun _ => rfl
    | exact wF.off rfl

theorem State.releaseWrites_keeps {s0 : State} {s : State} (wF : Free F [.regs, .mem, .cache, .hbm, .fab, .surv, .pwr, .recd, .free]) (hK : Keeps F s0 s) :
    Keeps F s0 (State.releaseWrites s) := by
  unfold State.releaseWrites
  repeat' first
    | with_reducible assumption
    | exact wF.sub rfl
    | with_reducible apply State.hbmWrite_keeps
    | with_reducible apply State.writeLine_keeps
    | (with_reducible apply Keeps.foldl1; intro _ _ _)
    | (with_reducible apply Keeps.foldl2; intro _ _ _)
    | (with_reducible apply Keeps.foldl; intro _ _ _)
    | split
    | (with_reducible apply Keeps.of_fst; assumption)
    | (with_reducible apply Keeps.of_snd; assumption)
    | dsimp only
    | with_reducible apply Keeps.upd
    | with_reducible exact fun _ => rfl
    | exact wF.off rfl

theorem State.waitForPages_keeps {s0 : State} {s : State} {t : State} (wF : Free F [.surv, .recd]) (hK : Keeps F s0 s) :
    Keeps F s0 (State.waitForPages s t) := by
  unfold State.waitForPages
  repeat' first
    | with_reducible assumption
    | exact wF.sub rfl
    | with_reducible apply State.setProt_keeps
    | with_reducible apply State.voidOpen_keeps
    | with_reducible apply Keeps.ite
    | (with_reducible apply Keeps.foldl1; intro _ _ _)
    | (with_reducible apply Keeps.foldl2; intro _ _ _)
    | (with_reducible apply Keeps.foldl; intro _ _ _)
    | split
    | dsimp only
    | with_reducible apply Keeps.upd
    | with_reducible exact fun _ => rfl
    | exact wF.off rfl

theorem State.guarded_keeps {s0 s t : State} (wF : Free F [.surv, .recd]) (h : Keeps F s0 s) (ht : Keeps F s0 t) : Keeps F s0 (State.guarded s t) := by
  unfold State.guarded
  split
  · exact State.waitForPages_keeps (wF.sub rfl) h
  · exact ht

theorem State.addMiss_keeps {s0 : State} {s : State} {m : Miss} (wF : Free F [.cache]) (hK : Keeps F s0 s) :
    Keeps F s0 (State.addMiss s m).1 := by
  unfold State.addMiss
  repeat' first
    | with_reducible assumption
    | exact wF.sub rfl
    | dsimp only
    | with_reducible apply Keeps.upd
    | with_reducible exact fun _ => rfl
    | exact wF.off rfl

theorem State.missLine_keeps {s0 : State} {s : State} {p : Nat} {ctx : Nat} {ln : Nat} {m : Miss} (wF : Free F [.regs, .cache, .objs, .pwr]) (hK : Keeps F s0 s) :
    Keeps F s0 (State.missLine s p ctx ln m).1 := by
  unfold State.missLine
  repeat' first
    | with_reducible assumption
    | exact wF.sub rfl
    | with_reducible apply State.access_keeps
    | with_reducible apply State.addMiss_keeps
    | with_reducible apply State.bump_keeps
    | with_reducible apply State.modCtx_keeps
    | with_reducible apply State.reachDie_keeps
    | with_reducible apply Keeps.ite
    | split
    | dsimp only
    | with_reducible apply Keeps.upd
    | with_reducible exact fun _ => rfl
    | exact wF.off rfl

theorem State.readServed_keeps {s0 : State} {s : State} {p : Nat} {policy : Nat} {ctx : Nat} {ln : Nat} {o : Nat} {n : Nat} {reader : Option (Nat × Nat)} (wF : Free F [.regs, .cache, .objs, .pwr]) (hK : Keeps F s0 s) :
    Keeps F s0 (State.readServed s p policy ctx ln o n reader).1 := by
  unfold State.readServed
  repeat' first
    | with_reducible assumption
    | exact wF.sub rfl
    | with_reducible apply State.access_keeps
    | with_reducible apply State.bump_keeps
    | with_reducible apply State.missLine_keeps
    | with_reducible apply State.used_keeps
    | with_reducible apply Keeps.ite
    | split
    | (with_reducible apply Keeps.of_fst; assumption)
    | (with_reducible apply Keeps.of_snd; assumption)
    | dsimp only
    | with_reducible apply Keeps.upd
    | with_reducible exact fun _ => rfl
    | exact wF.off rfl

theorem State.readLine_keeps {s0 : State} {s : State} {p : Nat} {policy : Nat} {ctx : Nat} {ln : Nat} {o : Nat} {n : Nat} {reader : Option (Nat × Nat)} (wF : Free F [.regs, .cache, .objs, .pwr]) (hK : Keeps F s0 s) :
    Keeps F s0 (State.readLine s p policy ctx ln o n reader).1 := by
  unfold State.readLine
  repeat' first
    | with_reducible assumption
    | exact wF.sub rfl
    | with_reducible apply State.addMiss_keeps
    | with_reducible apply State.reachDie_keeps
    | with_reducible apply State.readServed_keeps
    | with_reducible apply Keeps.ite
    | split
    | dsimp only
    | with_reducible apply Keeps.upd
    | with_reducible exact fun _ => rfl
    | exact wF.off rfl

theorem State.readRange_keeps {s0 : State} {s : State} {p : Nat} {policy : Nat} {ctx : Nat} {a : Nat} {n : Nat} {reader : Option (Nat × Nat)} (wF : Free F [.regs, .cache, .objs, .pwr]) (hK : Keeps F s0 s) :
    Keeps F s0 (State.readRange s p policy ctx a n reader).1 := by
  unfold State.readRange
  repeat' first
    | with_reducible assumption
    | exact wF.sub rfl
    | with_reducible apply State.readLine_keeps
    | (with_reducible apply Keeps.foldl1; intro _ _ _)
    | (with_reducible apply Keeps.foldl2; intro _ _ _)
    | (with_reducible apply Keeps.foldl; intro _ _ _)
    | dsimp only
    | with_reducible apply Keeps.upd
    | with_reducible exact fun _ => rfl
    | exact wF.off rfl

theorem State.dropLine_keeps {s0 : State} {s : State} {ln : Nat} (wF : Free F [.cache]) (hK : Keeps F s0 s) :
    Keeps F s0 (State.dropLine s ln) := by
  unfold State.dropLine
  repeat' first
    | with_reducible assumption
    | exact wF.sub rfl
    | with_reducible apply State.modLines_keeps
    | dsimp only
    | with_reducible apply Keeps.upd
    | with_reducible exact fun _ => rfl
    | exact wF.off rfl

theorem State.dropRange_keeps {s0 : State} {s : State} {a : Nat} {n : Nat} (wF : Free F [.cache]) (hK : Keeps F s0 s) :
    Keeps F s0 (State.dropRange s a n) := by
  unfold State.dropRange
  repeat' first
    | with_reducible assumption
    | exact wF.sub rfl
    | with_reducible apply State.modLines_keeps
    | dsimp only
    | with_reducible apply Keeps.upd
    | with_reducible exact fun _ => rfl
    | exact wF.off rfl

theorem State.writePieces_keeps {s0 s : State} {policy : Nat} {l : List Piece} {bytes : List Byte} (wF : Free F [.regs, .mem, .cache, .hbm, .fab, .surv, .pwr, .recd, .free]) (h : Keeps F s0 s) :
    Keeps F s0 (State.writePieces s policy l bytes) := by
  induction l generalizing s bytes with
  | nil => exact h
  | cons e l ih => exact ih (State.cacheWrite_keeps (wF.sub rfl) h)

theorem State.countUe_keeps {s0 : State} {s : State} {u : Nat} (wF : Free F [.regs]) (hK : Keeps F s0 s) :
    Keeps F s0 (State.countUe s u) := by
  unfold State.countUe
  repeat' first
    | with_reducible assumption
    | exact wF.sub rfl
    | with_reducible apply State.bump_keeps
    | with_reducible apply State.setBit_keeps
    | dsimp only
    | with_reducible apply Keeps.upd
    | with_reducible exact fun _ => rfl
    | exact wF.off rfl

theorem State.fetchLine_keeps {s0 : State} {s : State} {p : Nat} {ctx : Nat} {ln : Nat} {o : Nat} {n : Nat} (wF : Free F [.regs, .cache, .objs, .pwr]) (hK : Keeps F s0 s) :
    Keeps F s0 (State.fetchLine s p ctx ln o n) := by
  unfold State.fetchLine
  repeat' first
    | with_reducible assumption
    | exact wF.sub rfl
    | with_reducible apply State.countUe_keeps
    | with_reducible apply State.hbmBytesMoved_keeps
    | with_reducible apply State.readServed_keeps
    | with_reducible apply Keeps.ite
    | split
    | (with_reducible apply Keeps.of_fst; assumption)
    | (with_reducible apply Keeps.of_snd; assumption)
    | dsimp only
    | with_reducible apply Keeps.upd
    | with_reducible exact fun _ => rfl
    | exact wF.off rfl

theorem State.fetchPieces_keeps {s0 : State} {s : State} {ctx : Nat} {l : List Piece} (wF : Free F [.regs, .cache, .objs, .pwr]) (hK : Keeps F s0 s) :
    Keeps F s0 (State.fetchPieces s ctx l) := by
  unfold State.fetchPieces
  repeat' first
    | with_reducible assumption
    | exact wF.sub rfl
    | with_reducible apply State.fetchLine_keeps
    | (with_reducible apply Keeps.foldl1; intro _ _ _)
    | (with_reducible apply Keeps.foldl2; intro _ _ _)
    | (with_reducible apply Keeps.foldl; intro _ _ _)
    | dsimp only
    | with_reducible apply Keeps.upd
    | with_reducible exact fun _ => rfl
    | exact wF.off rfl

theorem State.reachPieces_keeps {s0 : State} {s : State} {l : List Piece} (wF : Free F [.regs, .pwr]) (hK : Keeps F s0 s) :
    Keeps F s0 (State.reachPieces s l) := by
  unfold State.reachPieces
  repeat' first
    | with_reducible assumption
    | exact wF.sub rfl
    | with_reducible apply State.reachDie_keeps
    | (with_reducible apply Keeps.foldl1; intro _ _ _)
    | (with_reducible apply Keeps.foldl2; intro _ _ _)
    | (with_reducible apply Keeps.foldl; intro _ _ _)
    | dsimp only
    | with_reducible apply Keeps.upd
    | with_reducible exact fun _ => rfl
    | exact wF.off rfl

theorem State.readPieces_keeps {s0 : State} {s : State} {policy : Nat} {ctx : Nat} {l : List Piece} {reader : Option (Nat × Nat)} (wF : Free F [.regs, .cache, .objs, .pwr]) (hK : Keeps F s0 s) :
    Keeps F s0 (State.readPieces s policy ctx l reader).1 := by
  unfold State.readPieces
  repeat' first
    | with_reducible assumption
    | exact wF.sub rfl
    | with_reducible apply State.readRange_keeps
    | (with_reducible apply Keeps.foldl1; intro _ _ _)
    | (with_reducible apply Keeps.foldl2; intro _ _ _)
    | (with_reducible apply Keeps.foldl; intro _ _ _)
    | dsimp only
    | with_reducible apply Keeps.upd
    | with_reducible exact fun _ => rfl
    | exact wF.off rfl

theorem State.lsWrite_keeps {s0 s : State} {c o : Nat} {bytes : List Byte} (wF : Free F [.mem]) (h : Keeps F s0 s) : Keeps F s0 (State.lsWrite s c o bytes) := by
  induction bytes generalizing s o with
  | nil => exact h
  | cons b bs ih => exact ih (Keeps.setMem (wF _ (by decide)) h fun m => cellPut_wf m _ b)

theorem State.startWipe_keeps {s0 : State} {s : State} {w : Wipe} (wF : Free F [.hbm]) (hK : Keeps F s0 s) :
    Keeps F s0 (State.startWipe s w) := by
  unfold State.startWipe
  repeat' first
    | with_reducible assumption
    | exact wF.sub rfl
    | split
    | (with_reducible apply Keeps.of_fst; assumption)
    | (with_reducible apply Keeps.of_snd; assumption)
    | dsimp only
    | with_reducible apply Keeps.upd
    | with_reducible exact fun _ => rfl
    | exact wF.off rfl

theorem State.setPriv_keeps {s0 : State} {s : State} {c : Nat} {l : List (Nat × List Byte)} (wF : Free F [.cache]) (hK : Keeps F s0 s) :
    Keeps F s0 (State.setPriv s c l) := by
  unfold State.setPriv
  repeat' first
    | with_reducible assumption
    | exact wF.sub rfl
    | dsimp only
    | with_reducible apply Keeps.upd
    | with_reducible exact fun _ => rfl
    | exact wF.off rfl

theorem State.privDrop_keeps {s0 : State} {s : State} {c : Nat} {lns : List Nat} (wF : Free F [.cache]) (hK : Keeps F s0 s) :
    Keeps F s0 (State.privDrop s c lns) := by
  unfold State.privDrop
  repeat' first
    | with_reducible assumption
    | exact wF.sub rfl
    | with_reducible apply State.setPriv_keeps
    | with_reducible apply Keeps.ite
    | split
    | dsimp only
    | with_reducible apply Keeps.upd
    | with_reducible exact fun _ => rfl
    | exact wF.off rfl

theorem State.dropPriv_keeps {s0 : State} {s : State} {c : Nat} {ln : Nat} (wF : Free F [.cache]) (hK : Keeps F s0 s) :
    Keeps F s0 (State.dropPriv s c ln) := by
  unfold State.dropPriv
  repeat' first
    | with_reducible assumption
    | exact wF.sub rfl
    | dsimp only
    | with_reducible apply Keeps.upd
    | with_reducible exact fun _ => rfl
    | exact wF.off rfl

theorem State.countCmUe_keeps {s0 : State} {s : State} {c : Nat} (wF : Free F [.regs]) (hK : Keeps F s0 s) :
    Keeps F s0 (State.countCmUe s c) := by
  unfold State.countCmUe
  repeat' first
    | with_reducible assumption
    | exact wF.sub rfl
    | with_reducible apply State.bump_keeps
    | with_reducible apply State.setBit_keeps
    | dsimp only
    | with_reducible apply Keeps.upd
    | with_reducible exact fun _ => rfl
    | exact wF.off rfl

theorem State.markBad_keeps {s0 : State} {s : State} {h : Nat} (wF : Free F [.hbm]) (hK : Keeps F s0 s) :
    Keeps F s0 (State.markBad s h) := by
  unfold State.markBad
  repeat' first
    | with_reducible assumption
    | exact wF.sub rfl
    | dsimp only
    | with_reducible apply Keeps.upd
    | with_reducible exact fun _ => rfl
    | exact wF.off rfl

theorem State.rowErrors_keeps {s0 : State} {s : State} {k : Nat} {thresh : Nat} {n : Nat} (wF : Free F [.hbm]) (hK : Keeps F s0 s) :
    Keeps F s0 (State.rowErrors s k thresh n) := by
  unfold State.rowErrors
  repeat' first
    | with_reducible assumption
    | exact wF.sub rfl
    | with_reducible apply Keeps.ite
    | split
    | dsimp only
    | with_reducible apply Keeps.upd
    | with_reducible exact fun _ => rfl
    | exact wF.off rfl

theorem State.eccHalf_keeps {s0 : State} {s : State} {h : Nat} {e : EccErr} (wF : Free F [.regs, .hbm]) (hK : Keeps F s0 s) :
    Keeps F s0 (State.eccHalf s h e) := by
  unfold State.eccHalf
  repeat' first
    | with_reducible assumption
    | exact wF.sub rfl
    | with_reducible apply State.bump_keeps
    | with_reducible apply State.markBad_keeps
    | with_reducible apply State.rowErrors_keeps
    | split
    | (with_reducible apply Keeps.of_fst; assumption)
    | (with_reducible apply Keeps.of_snd; assumption)
    | dsimp only
    | with_reducible apply Keeps.upd
    | with_reducible exact fun _ => rfl
    | exact wF.off rfl

theorem State.coreErr_keeps {s0 : State} {s : State} {c : Nat} {x2 : CoreErr} (wF : Free F [.regs, .cache, .cores, .te, .objs, .loader]) (hK : Keeps F s0 s) :
    Keeps F s0 (State.coreErr s c x2).1 := by
  unfold State.coreErr
  repeat' first
    | with_reducible assumption
    | exact wF.sub rfl
    | with_reducible apply State.bump_keeps
    | with_reducible apply State.countCmUe_keeps
    | with_reducible apply State.dropPriv_keeps
    | with_reducible apply State.faultCore_keeps
    | with_reducible apply State.modCore_keeps
    | with_reducible apply Keeps.ite
    | split
    | (with_reducible apply Keeps.of_fst; assumption)
    | (with_reducible apply Keeps.of_snd; assumption)
    | dsimp only
    | with_reducible apply Keeps.upd
    | with_reducible exact fun _ => rfl
    | exact wF.off rfl

end Sys2Proof.Machine
end

