-- ==== Sys2Proof/Laws/KeepsOperands.lean ====
section
/-! SUPPORT. What every step keeps: the functions of Machine/Operands.lean. -/

namespace Sys2Proof.Machine

open Sys2Proof

variable {F : Area → Bool}

theorem State.vaWrite_keeps {s0 : State} {s : State} {c : Nat} {x : Nat} {policy : Nat} {va : Nat} {bytes : List Byte} (wF : Free F [.regs, .mem, .cache, .hbm, .fab, .surv, .pwr, .recd, .free]) (hK : Keeps F s0 s) :
    Keeps F s0 (State.vaWrite s c x policy va bytes) := by
  unfold State.vaWrite
  repeat' first
    | with_reducible assumption
    | exact wF.sub rfl
    | with_reducible apply State.lsWrite_keeps
    | with_reducible apply State.writePieces_keeps
    | with_reducible apply Keeps.ite
    | split
    | (with_reducible apply Keeps.of_fst; assumption)
    | (with_reducible apply Keeps.of_snd; assumption)
    | dsimp only
    | with_reducible apply Keeps.upd
    | with_reducible exact fun _ => rfl
    | exact wF.off rfl

theorem State.readDescs_keeps {s0 : State} {s : State} {x : Nat} {hs : List Nat} (wF : Free F [.regs, .cache, .objs, .pwr]) (hK : Keeps F s0 s) :
    Keeps F s0 (State.readDescs s x hs) := by
  unfold State.readDescs
  repeat' first
    | with_reducible assumption
    | exact wF.sub rfl
    | with_reducible apply State.fetchPieces_keeps
    | with_reducible apply Keeps.ite
    | (with_reducible apply Keeps.foldl1; intro _ _ _)
    | (with_reducible apply Keeps.foldl2; intro _ _ _)
    | (with_reducible apply Keeps.foldl; intro _ _ _)
    | split
    | (with_reducible apply Keeps.of_fst; assumption)
    | (with_reducible apply Keeps.of_snd; assumption)
    | dsimp only
    | with_reducible apply Keeps.upd
    | with_reducible exact fun _ => rfl
    | exact wF.off rfl

theorem State.writeDescByte_keeps {s0 : State} {s : State} {c : Nat} {x : Nat} {h : Nat} {o : Nat} {b : Byte} (wF : Free F [.regs, .mem, .cache, .hbm, .fab, .surv, .pwr, .recd, .free]) (hK : Keeps F s0 s) :
    Keeps F s0 (State.writeDescByte s c x h o b) := by
  unfold State.writeDescByte
  repeat' first
    | with_reducible assumption
    | exact wF.sub rfl
    | with_reducible apply State.privDrop_keeps
    | with_reducible apply State.writePieces_keeps
    | split
    | (with_reducible apply Keeps.of_fst; assumption)
    | (with_reducible apply Keeps.of_snd; assumption)
    | dsimp only
    | with_reducible apply Keeps.upd
    | with_reducible exact fun _ => rfl
    | exact wF.off rfl

theorem State.setElem_keeps {s0 : State} {s : State} {c : Nat} {x : Nat} {d : Desc} {o : Nat} {code : Nat} (wF : Free F [.regs, .mem, .cache, .hbm, .fab, .surv, .pwr, .recd, .free]) (hK : Keeps F s0 s) :
    Keeps F s0 (State.setElem s c x d o code) := by
  unfold State.setElem
  repeat' first
    | with_reducible assumption
    | exact wF.sub rfl
    | with_reducible apply State.vaWrite_keeps
    | with_reducible apply Keeps.ite
    | split
    | dsimp only
    | with_reducible apply Keeps.upd
    | with_reducible exact fun _ => rfl
    | exact wF.off rfl

theorem State.setScale_keeps {s0 : State} {s : State} {c : Nat} {x : Nat} {d : Desc} {j : Nat} {code : Nat} (wF : Free F [.regs, .mem, .cache, .hbm, .fab, .surv, .pwr, .recd, .free]) (hK : Keeps F s0 s) :
    Keeps F s0 (State.setScale s c x d j code) := by
  unfold State.setScale
  repeat' first
    | with_reducible assumption
    | exact wF.sub rfl
    | with_reducible apply State.vaWrite_keeps
    | dsimp only
    | with_reducible apply Keeps.upd
    | with_reducible exact fun _ => rfl
    | exact wF.off rfl

end Sys2Proof.Machine
end

