-- ==== Sys2Proof/Laws/KeepsEngines.lean ====
section
/-! SUPPORT. What every step keeps: the functions of Machine/Engines.lean. -/

namespace Sys2Proof.Machine

open Sys2Proof

variable {F : Area → Bool}

theorem State.progress_keeps {s0 : State} {s : State} {c : Nat} (wF : Free F [.objs]) (hK : Keeps F s0 s) :
    Keeps F s0 (State.progress s c) := by
  unfold State.progress
  repeat' first
    | with_reducible assumption
    | exact wF.sub rfl
    | with_reducible apply State.modCtx_keeps
    | split
    | (with_reducible apply Keeps.of_fst; assumption)
    | (with_reducible apply Keeps.of_snd; assumption)
    | dsimp only
    | with_reducible apply Keeps.upd
    | with_reducible exact fun _ => rfl
    | exact wF.off rfl

theorem State.leaveIdle_keeps {s0 : State} {s : State} {c : Nat} (wF : Free F [.pwr]) (hK : Keeps F s0 s) :
    Keeps F s0 (State.leaveIdle s c) := by
  unfold State.leaveIdle
  repeat' first
    | with_reducible assumption
    | exact wF.sub rfl
    | with_reducible apply State.modDie_keeps
    | with_reducible apply Keeps.ite
    | split
    | dsimp only
    | with_reducible apply Keeps.upd
    | with_reducible exact fun _ => rfl
    | exact wF.off rfl

theorem State.readHead_keeps {s0 : State} {s : State} {c : Nat} {e : Engine} (wF : Free F [.regs, .cache, .objs, .pwr]) (hK : Keeps F s0 s) :
    Keeps F s0 (State.readHead s c e) := by
  unfold State.readHead
  repeat' first
    | with_reducible assumption
    | exact wF.sub rfl
    | with_reducible apply State.readDescs_keeps
    | split
    | (with_reducible apply Keeps.of_fst; assumption)
    | (with_reducible apply Keeps.of_snd; assumption)
    | dsimp only
    | with_reducible apply Keeps.upd
    | with_reducible exact fun _ => rfl
    | exact wF.off rfl

theorem State.take_keeps {s0 : State} {s : State} {c : Nat} {e : Engine} (wF : Free F [.regs, .cache, .cores, .objs, .pwr]) (hK : Keeps F s0 s) :
    Keeps F s0 (State.take s c e) := by
  unfold State.take
  repeat' first
    | with_reducible assumption
    | exact wF.sub rfl
    | with_reducible apply State.leaveIdle_keeps
    | with_reducible apply State.modCore_keeps
    | with_reducible apply State.progress_keeps
    | with_reducible apply State.readHead_keeps
    | dsimp only
    | with_reducible apply Keeps.upd
    | with_reducible exact fun _ => rfl
    | exact wF.off rfl

theorem State.newWork_keeps {s0 : State} {s : State} {c : Nat} {e : Engine} (wF : Free F [.cores]) (hK : Keeps F s0 s) :
    Keeps F s0 (State.newWork s c e).1 := by
  unfold State.newWork
  repeat' first
    | with_reducible assumption
    | exact wF.sub rfl
    | with_reducible apply State.setCore_keeps
    | dsimp only
    | with_reducible apply Keeps.upd
    | with_reducible exact fun _ => rfl
    | exact wF.off rfl

theorem State.endWork_keeps {s0 : State} {s : State} {c : Nat} {w : Nat} (wF : Free F [.cores]) (hK : Keeps F s0 s) :
    Keeps F s0 (State.endWork s c w) := by
  unfold State.endWork
  repeat' first
    | with_reducible assumption
    | exact wF.sub rfl
    | with_reducible apply State.modCore_keeps
    | dsimp only
    | with_reducible apply Keeps.upd
    | with_reducible exact fun _ => rfl
    | exact wF.off rfl

theorem State.tokenArrives_keeps {s0 : State} {s : State} {c : Nat} {ch : Nat} (wF : Free F [.regs, .cores, .te, .objs, .loader]) (hK : Keeps F s0 s) :
    Keeps F s0 (State.tokenArrives s c ch) := by
  unfold State.tokenArrives
  repeat' first
    | with_reducible assumption
    | exact wF.sub rfl
    | with_reducible apply State.bump_keeps
    | with_reducible apply State.faultCore_keeps
    | with_reducible apply State.progress_keeps
    | with_reducible apply State.setCore_keeps
    | with_reducible apply Keeps.ite
    | split
    | dsimp only
    | with_reducible apply Keeps.upd
    | with_reducible exact fun _ => rfl
    | exact wF.off rfl

theorem State.takeWait_keeps {s0 : State} {s : State} {c : Nat} {e : Engine} {ch : Nat} {n : Nat} (wF : Free F [.regs, .cache, .cores, .te, .objs, .loader, .pwr]) (hK : Keeps F s0 s) :
    Keeps F s0 (State.takeWait s c e ch n) := by
  unfold State.takeWait
  repeat' first
    | with_reducible assumption
    | exact wF.sub rfl
    | with_reducible apply State.faultCore_keeps
    | with_reducible apply State.modCore_keeps
    | with_reducible apply State.take_keeps
    | with_reducible apply Keeps.ite
    | split
    | dsimp only
    | with_reducible apply Keeps.upd
    | with_reducible exact fun _ => rfl
    | exact wF.off rfl

theorem State.takeSignal_keeps {s0 : State} {s : State} {c : Nat} {e : Engine} {ch : Nat} (wF : Free F [.regs, .cache, .cores, .te, .objs, .loader, .pwr]) (hK : Keeps F s0 s) :
    Keeps F s0 (State.takeSignal s c e ch) := by
  unfold State.takeSignal
  repeat' first
    | with_reducible assumption
    | exact wF.sub rfl
    | with_reducible apply State.faultCore_keeps
    | with_reducible apply State.modCore_keeps
    | with_reducible apply State.take_keeps
    | with_reducible apply Keeps.ite
    | split
    | dsimp only
    | with_reducible apply Keeps.upd
    | with_reducible exact fun _ => rfl
    | exact wF.off rfl

theorem State.setSeq_keeps {s0 : State} {s : State} {q : Nat} {k : Seq} (wF : Free F [.seqs]) (hK : Keeps F s0 s) :
    Keeps F s0 (State.setSeq s q k) := by
  unfold State.setSeq
  repeat' first
    | with_reducible assumption
    | exact wF.sub rfl
    | dsimp only
    | with_reducible apply Keeps.upd
    | with_reducible exact fun _ => rfl
    | exact wF.off rfl

theorem State.freeCore_keeps {s0 : State} {s : State} {c : Nat} (wF : Free F [.regs, .cores, .te, .ge]) (hK : Keeps F s0 s) :
    Keeps F s0 (State.freeCore s c) := by
  unfold State.freeCore
  repeat' first
    | with_reducible assumption
    | exact wF.sub rfl
    | with_reducible apply State.bump_keeps
    | with_reducible apply State.clearUnits_keeps
    | with_reducible apply State.modCore_keeps
    | with_reducible apply Keeps.ite
    | split
    | dsimp only
    | with_reducible apply Keeps.upd
    | with_reducible exact fun _ => rfl
    | exact wF.off rfl

theorem State.freeModule_keeps {s0 : State} {s : State} {x : Nat} {h : Nat} (wF : Free F [.loader]) (hK : Keeps F s0 s) :
    Keeps F s0 (State.freeModule s x h) := by
  unfold State.freeModule
  repeat' first
    | with_reducible assumption
    | exact wF.sub rfl
    | dsimp only
    | with_reducible apply Keeps.upd
    | with_reducible exact fun _ => rfl
    | exact wF.off rfl

theorem State.settleUnload_keeps {s0 : State} {s : State} {x : Nat} {h : Nat} (wF : Free F [.regs, .objs, .loader, .host, .fab, .surv, .recd]) (hK : Keeps F s0 s) :
    Keeps F s0 (State.settleUnload s x h) := by
  unfold State.settleUnload
  repeat' first
    | with_reducible assumption
    | exact wF.sub rfl
    | with_reducible apply State.freeModule_keeps
    | with_reducible apply State.signal_keeps
    | with_reducible apply Keeps.ite
    | split
    | (with_reducible apply Keeps.of_fst; assumption)
    | (with_reducible apply Keeps.of_snd; assumption)
    | dsimp only
    | with_reducible apply Keeps.upd
    | with_reducible exact fun _ => rfl
    | exact wF.off rfl

theorem State.signalAll_keeps {s0 : State} {s : State} {l : List (Nat × Nat)} (wF : Free F [.regs, .objs, .host, .fab, .surv, .recd]) (hK : Keeps F s0 s) :
    Keeps F s0 (State.signalAll s l) := by
  unfold State.signalAll
  repeat' first
    | with_reducible assumption
    | exact wF.sub rfl
    | with_reducible apply State.signal_keeps
    | (with_reducible apply Keeps.foldl1; intro _ _ _)
    | (with_reducible apply Keeps.foldl2; intro _ _ _)
    | (with_reducible apply Keeps.foldl; intro _ _ _)
    | dsimp only
    | with_reducible apply Keeps.upd
    | with_reducible exact fun _ => rfl
    | exact wF.off rfl

theorem State.preemptDone_keeps {s0 : State} {s : State} {x : Nat} (wF : Free F [.regs, .objs, .host, .fab, .surv, .recd]) (hK : Keeps F s0 s) :
    Keeps F s0 (State.preemptDone s x) := by
  unfold State.preemptDone
  repeat' first
    | with_reducible assumption
    | exact wF.sub rfl
    | with_reducible apply State.modCtx_keeps
    | with_reducible apply State.signalAll_keeps
    | with_reducible apply Keeps.ite
    | split
    | (with_reducible apply Keeps.of_fst; assumption)
    | (with_reducible apply Keeps.of_snd; assumption)
    | dsimp only
    | with_reducible apply Keeps.upd
    | with_reducible exact fun _ => rfl
    | exact wF.off rfl

theorem State.endKernel_keeps {s0 : State} {s : State} {sq : Nat} (wF : Free F [.regs, .cores, .te, .ge, .seqs, .objs, .loader, .host, .fab, .surv, .recd]) (hK : Keeps F s0 s) :
    Keeps F s0 (State.endKernel s sq) := by
  unfold State.endKernel
  repeat' first
    | with_reducible assumption
    | exact wF.sub rfl
    | with_reducible apply State.freeCore_keeps
    | with_reducible apply State.preemptDone_keeps
    | with_reducible apply State.settleUnload_keeps
    | with_reducible apply State.signal_keeps
    | with_reducible apply Keeps.ite
    | (with_reducible apply Keeps.foldl1; intro _ _ _)
    | (with_reducible apply Keeps.foldl2; intro _ _ _)
    | (with_reducible apply Keeps.foldl; intro _ _ _)
    | split
    | (with_reducible apply Keeps.of_fst; assumption)
    | (with_reducible apply Keeps.of_snd; assumption)
    | dsimp only
    | with_reducible apply Keeps.upd
    | with_reducible exact fun _ => rfl
    | exact wF.off rfl

theorem State.endKernelOf_keeps {s0 : State} {s : State} {c : Nat} (wF : Free F [.regs, .cores, .te, .ge, .seqs, .objs, .loader, .host, .fab, .surv, .recd]) (hK : Keeps F s0 s) :
    Keeps F s0 (State.endKernelOf s c) := by
  unfold State.endKernelOf
  repeat' first
    | with_reducible assumption
    | exact wF.sub rfl
    | with_reducible apply State.endKernel_keeps
    | split
    | (with_reducible apply Keeps.of_fst; assumption)
    | (with_reducible apply Keeps.of_snd; assumption)
    | dsimp only
    | with_reducible apply Keeps.upd
    | with_reducible exact fun _ => rfl
    | exact wF.off rfl

theorem State.finishWork_keeps {s0 : State} {s : State} {c : Nat} {w : Nat} (wF : Free F [.regs, .cores, .te, .ge, .seqs, .objs, .loader, .host, .fab, .surv, .recd]) (hK : Keeps F s0 s) :
    Keeps F s0 (State.finishWork s c w) := by
  unfold State.finishWork
  repeat' first
    | with_reducible assumption
    | exact wF.sub rfl
    | with_reducible apply State.endKernelOf_keeps
    | with_reducible apply State.endWork_keeps
    | dsimp only
    | with_reducible apply Keeps.upd
    | with_reducible exact fun _ => rfl
    | exact wF.off rfl

end Sys2Proof.Machine
end

