-- ==== Sys2Proof/Laws/KeepsRequests.lean ====
section
/-! SUPPORT. What every step keeps: the functions of Machine/Requests.lean. -/

namespace Sys2Proof.Machine

open Sys2Proof

variable {F : Area → Bool}

theorem State.modXfer_keeps {s0 : State} {s : State} {c : Nat} {slot : Nat} {f : Xfer → Xfer} (wF : Free F [.cores]) (hK : Keeps F s0 s) :
    Keeps F s0 (State.modXfer s c slot f) := by
  unfold State.modXfer
  repeat' first
    | with_reducible assumption
    | exact wF.sub rfl
    | with_reducible apply State.modCore_keeps
    | dsimp only
    | with_reducible apply Keeps.upd
    | with_reducible exact fun _ => rfl
    | exact wF.off rfl

theorem State.xferFailed_keeps {s0 : State} {s : State} {c : Nat} {slot : Nat} (wF : Free F [.regs, .cores]) (hK : Keeps F s0 s) :
    Keeps F s0 (State.xferFailed s c slot) := by
  unfold State.xferFailed
  repeat' first
    | with_reducible assumption
    | exact wF.sub rfl
    | with_reducible apply State.bump_keeps
    | with_reducible apply State.modXfer_keeps
    | with_reducible apply Keeps.ite
    | split
    | (with_reducible apply Keeps.of_fst; assumption)
    | (with_reducible apply Keeps.of_snd; assumption)
    | dsimp only
    | with_reducible apply Keeps.upd
    | with_reducible exact fun _ => rfl
    | exact wF.off rfl

theorem State.xferError_keeps {s0 : State} {s : State} {c : Nat} {slot : Nat} {code : Nat} (wF : Free F [.regs, .cores, .objs, .host, .fab]) (hK : Keeps F s0 s) :
    Keeps F s0 (State.xferError s c slot code) := by
  unfold State.xferError
  repeat' first
    | with_reducible assumption
    | exact wF.sub rfl
    | with_reducible apply State.entryError_keeps
    | with_reducible apply State.xferFailed_keeps
    | split
    | (with_reducible apply Keeps.of_fst; assumption)
    | (with_reducible apply Keeps.of_snd; assumption)
    | dsimp only
    | with_reducible apply Keeps.upd
    | with_reducible exact fun _ => rfl
    | exact wF.off rfl

theorem State.sendFor_keeps {s0 : State} {s : State} {c : Nat} {slot : Nat} {r : Req} (wF : Free F [.regs, .cores, .objs, .host, .fab]) (hK : Keeps F s0 s) :
    Keeps F s0 (State.sendFor s c slot r) := by
  unfold State.sendFor
  repeat' first
    | with_reducible assumption
    | exact wF.sub rfl
    | with_reducible apply State.bump_keeps
    | with_reducible apply State.modXfer_keeps
    | with_reducible apply State.send_keeps
    | with_reducible apply State.xferError_keeps
    | with_reducible apply Keeps.ite
    | split
    | (with_reducible apply Keeps.of_fst; assumption)
    | (with_reducible apply Keeps.of_snd; assumption)
    | dsimp only
    | with_reducible apply Keeps.upd
    | with_reducible exact fun _ => rfl
    | exact wF.off rfl

theorem State.updateRoute_keeps {s0 : State} {s : State} {t : Nat} (wF : Free F [.regs, .surv, .recd]) (hK : Keeps F s0 s) :
    Keeps F s0 (State.updateRoute s t) := by
  unfold State.updateRoute
  repeat' first
    | with_reducible assumption
    | exact wF.sub rfl
    | with_reducible apply State.raise_keeps
    | with_reducible apply State.setField_keeps
    | with_reducible apply Keeps.ite
    | split
    | dsimp only
    | with_reducible apply Keeps.upd
    | with_reducible exact fun _ => rfl
    | exact wF.off rfl

theorem State.updateRoutes_keeps {s0 : State} {s : State} (wF : Free F [.regs, .fab, .surv, .recd]) (hK : Keeps F s0 s) :
    Keeps F s0 (State.updateRoutes s) := by
  unfold State.updateRoutes
  repeat' first
    | with_reducible assumption
    | exact wF.sub rfl
    | with_reducible apply State.pumpAll_keeps
    | with_reducible apply State.updateRoute_keeps
    | (with_reducible apply Keeps.foldl1; intro _ _ _)
    | (with_reducible apply Keeps.foldl2; intro _ _ _)
    | (with_reducible apply Keeps.foldl; intro _ _ _)
    | dsimp only
    | with_reducible apply Keeps.upd
    | with_reducible exact fun _ => rfl
    | exact wF.off rfl

theorem State.dropReq_keeps {s0 : State} {s : State} {i : Nat} (wF : Free F [.regs, .fab, .surv, .recd]) (hK : Keeps F s0 s) :
    Keeps F s0 (State.dropReq s i) := by
  unfold State.dropReq
  repeat' first
    | with_reducible assumption
    | exact wF.sub rfl
    | with_reducible apply State.adopt_keeps
    | with_reducible apply State.pumpAll_keeps
    | with_reducible apply State.updateRoute_keeps
    | with_reducible apply Keeps.ite
    | split
    | (with_reducible apply Keeps.of_fst; assumption)
    | (with_reducible apply Keeps.of_snd; assumption)
    | dsimp only
    | with_reducible apply Keeps.upd
    | with_reducible exact fun _ => rfl
    | exact wF.off rfl

theorem State.dropReqs_keeps {s0 : State} {s : State} {sel : Req → Bool} (wF : Free F [.regs, .fab, .surv, .recd]) (hK : Keeps F s0 s) :
    Keeps F s0 (State.dropReqs s sel) := by
  unfold State.dropReqs
  repeat' first
    | with_reducible assumption
    | exact wF.sub rfl
    | with_reducible apply State.adopt_keeps
    | with_reducible apply State.pumpAll_keeps
    | with_reducible apply State.updateRoute_keeps
    | with_reducible apply Keeps.ite
    | (with_reducible apply Keeps.foldl1; intro _ _ _)
    | (with_reducible apply Keeps.foldl2; intro _ _ _)
    | (with_reducible apply Keeps.foldl; intro _ _ _)
    | split
    | dsimp only
    | with_reducible apply Keeps.upd
    | with_reducible exact fun _ => rfl
    | exact wF.off rfl

theorem State.reqEnded_keeps {s0 : State} {s : State} {c : Nat} {slot : Nat} {i : Nat} (wF : Free F [.cores]) (hK : Keeps F s0 s) :
    Keeps F s0 (State.reqEnded s c slot i) := by
  unfold State.reqEnded
  repeat' first
    | with_reducible assumption
    | exact wF.sub rfl
    | with_reducible apply State.modXfer_keeps
    | dsimp only
    | with_reducible apply Keeps.upd
    | with_reducible exact fun _ => rfl
    | exact wF.off rfl

theorem State.tokenToSeq_keeps {s0 : State} {s : State} {q : Seq} {rank : Nat} {ch : Nat} (wF : Free F [.regs, .cores, .te, .objs, .loader]) (hK : Keeps F s0 s) :
    Keeps F s0 (State.tokenToSeq s q rank ch) := by
  unfold State.tokenToSeq
  repeat' first
    | with_reducible assumption
    | exact wF.sub rfl
    | with_reducible apply State.bump_keeps
    | with_reducible apply State.faultCtx_keeps
    | with_reducible apply State.setCore_keeps
    | with_reducible apply State.tokenArrives_keeps
    | with_reducible apply Keeps.ite
    | split
    | dsimp only
    | with_reducible apply Keeps.upd
    | with_reducible exact fun _ => rfl
    | exact wF.off rfl

theorem State.tokenToSaved_keeps {s0 : State} {s : State} {x : Nat} {v : Saved} {rank : Nat} {ch : Nat} (wF : Free F [.te, .objs, .loader]) (hK : Keeps F s0 s) :
    Keeps F s0 (State.tokenToSaved s x v rank ch) := by
  unfold State.tokenToSaved
  repeat' first
    | with_reducible assumption
    | exact wF.sub rfl
    | with_reducible apply State.faultCtx_keeps
    | with_reducible apply State.modCtx_keeps
    | with_reducible apply Keeps.ite
    | split
    | dsimp only
    | with_reducible apply Keeps.upd
    | with_reducible exact fun _ => rfl
    | exact wF.off rfl

theorem State.discardToken_keeps {s0 : State} {s : State} {x : Nat} (wF : Free F [.regs, .free]) (hK : Keeps F s0 s) :
    Keeps F s0 (State.discardToken s x) := by
  unfold State.discardToken
  repeat' first
    | with_reducible assumption
    | exact wF.sub rfl
    | with_reducible apply State.bump_keeps
    | with_reducible apply State.draw_keeps
    | split
    | (with_reducible apply Keeps.of_fst; assumption)
    | (with_reducible apply Keeps.of_snd; assumption)
    | dsimp only
    | with_reducible apply Keeps.upd
    | with_reducible exact fun _ => rfl
    | exact wF.off rfl

theorem State.deliverToken_keeps {s0 : State} {s : State} {x : Nat} {rank : Nat} {ch : Nat} (wF : Free F [.regs, .cores, .te, .objs, .loader, .free]) (hK : Keeps F s0 s) :
    Keeps F s0 (State.deliverToken s x rank ch).1 := by
  unfold State.deliverToken
  repeat' first
    | with_reducible assumption
    | exact wF.sub rfl
    | with_reducible apply State.discardToken_keeps
    | with_reducible apply State.tokenToSaved_keeps
    | with_reducible apply State.tokenToSeq_keeps
    | with_reducible apply Keeps.ite
    | split
    | (with_reducible apply Keeps.of_fst; assumption)
    | (with_reducible apply Keeps.of_snd; assumption)
    | dsimp only
    | with_reducible apply Keeps.upd
    | with_reducible exact fun _ => rfl
    | exact wF.off rfl

end Sys2Proof.Machine
end

