-- ==== Sys2Proof/Laws/KeepsScale.lean ====
section
/-! SUPPORT. What every step keeps: the functions of Machine/Scale.lean. -/

namespace Sys2Proof.Machine

open Sys2Proof

variable {F : Area → Bool}

theorem State.fetchVa_keeps {s0 : State} {s : State} {x : Nat} {va : Nat} {n : Nat} (wF : Free F [.regs, .cache, .objs, .pwr]) (hK : Keeps F s0 s) :
    Keeps F s0 (State.fetchVa s x va n) := by
  unfold State.fetchVa
  repeat' first
    | with_reducible assumption
    | exact wF.sub rfl
    | with_reducible apply State.fetchPieces_keeps
    | with_reducible apply Keeps.ite
    | split
    | (with_reducible apply Keeps.of_fst; assumption)
    | (with_reducible apply Keeps.of_snd; assumption)
    | dsimp only
    | with_reducible apply Keeps.upd
    | with_reducible exact fun _ => rfl
    | exact wF.off rfl

theorem State.privDropVa_keeps {s0 : State} {s : State} {c : Nat} {x : Nat} {va : Nat} {n : Nat} (wF : Free F [.cache]) (hK : Keeps F s0 s) :
    Keeps F s0 (State.privDropVa s c x va n) := by
  unfold State.privDropVa
  repeat' first
    | with_reducible assumption
    | exact wF.sub rfl
    | with_reducible apply State.privDrop_keeps
    | with_reducible apply Keeps.ite
    | split
    | (with_reducible apply Keeps.of_fst; assumption)
    | (with_reducible apply Keeps.of_snd; assumption)
    | dsimp only
    | with_reducible apply Keeps.upd
    | with_reducible exact fun _ => rfl
    | exact wF.off rfl

theorem State.modStats_keeps {s0 : State} {s : State} {c : Nat} {x : Nat} {d : Desc} {f : List Byte → List Byte} (wF : Free F [.regs, .mem, .cache, .hbm, .objs, .fab, .surv, .pwr, .recd, .free]) (hK : Keeps F s0 s) :
    Keeps F s0 (State.modStats s c x d f) := by
  unfold State.modStats
  repeat' first
    | with_reducible assumption
    | exact wF.sub rfl
    | with_reducible apply State.fetchVa_keeps
    | with_reducible apply State.privDropVa_keeps
    | with_reducible apply State.vaWrite_keeps
    | with_reducible apply Keeps.ite
    | split
    | (with_reducible apply Keeps.of_fst; assumption)
    | (with_reducible apply Keeps.of_snd; assumption)
    | dsimp only
    | with_reducible apply Keeps.upd
    | with_reducible exact fun _ => rfl
    | exact wF.off rfl

theorem State.statsErr_keeps {s0 : State} {s : State} {c : Nat} {x : Nat} {d : Desc} (wF : Free F [.regs, .objs, .host, .fab]) (hK : Keeps F s0 s) :
    Keeps F s0 (State.statsErr s c x d) := by
  unfold State.statsErr
  repeat' first
    | with_reducible assumption
    | exact wF.sub rfl
    | with_reducible apply State.entryError_keeps
    | with_reducible apply Keeps.ite
    | split
    | dsimp only
    | with_reducible apply Keeps.upd
    | with_reducible exact fun _ => rfl
    | exact wF.off rfl

theorem State.setNonfinite_keeps {s0 : State} {s : State} {x : Nat} (wF : Free F [.objs]) (hK : Keeps F s0 s) :
    Keeps F s0 (State.setNonfinite s x) := by
  unfold State.setNonfinite
  repeat' first
    | with_reducible assumption
    | exact wF.sub rfl
    | split
    | (with_reducible apply Keeps.of_fst; assumption)
    | (with_reducible apply Keeps.of_snd; assumption)
    | dsimp only
    | with_reducible apply Keeps.upd
    | with_reducible exact fun _ => rfl
    | exact wF.off rfl

theorem State.kvMark_keeps {s0 : State} {s : State} {c : Nat} {x : Nat} {d : Desc} {t : Int} {js : List Nat} (wF : Free F [.objs]) (hK : Keeps F s0 s) :
    Keeps F s0 (State.kvMark s c x d t js) := by
  unfold State.kvMark
  repeat' first
    | with_reducible assumption
    | exact wF.sub rfl
    | with_reducible apply State.modCtx_keeps
    | dsimp only
    | with_reducible apply Keeps.upd
    | with_reducible exact fun _ => rfl
    | exact wF.off rfl

theorem State.kvMoved_keeps {s0 : State} {s : State} {c : Nat} {x : Nat} {d : Desc} {t : Int} {js : List Nat} (wF : Free F [.objs]) (hK : Keeps F s0 s) :
    Keeps F s0 (State.kvMoved s c x d t js) := by
  unfold State.kvMoved
  repeat' first
    | with_reducible assumption
    | exact wF.sub rfl
    | with_reducible apply State.modCtx_keeps
    | with_reducible apply Keeps.ite
    | split
    | dsimp only
    | with_reducible apply Keeps.upd
    | with_reducible exact fun _ => rfl
    | exact wF.off rfl

theorem State.shiftElems_keeps {s0 : State} {s : State} {c : Nat} {x : Nat} {d : Desc} {os : List Nat} {by_ : Int} (wF : Free F [.regs, .mem, .cache, .hbm, .fab, .surv, .pwr, .recd, .free]) (hK : Keeps F s0 s) :
    Keeps F s0 (State.shiftElems s c x d os by_).1 := by
  unfold State.shiftElems
  repeat' first
    | with_reducible assumption
    | exact wF.sub rfl
    | with_reducible apply State.setElem_keeps
    | (with_reducible apply Keeps.foldl1; intro _ _ _)
    | (with_reducible apply Keeps.foldl2; intro _ _ _)
    | (with_reducible apply Keeps.foldl; intro _ _ _)
    | dsimp only
    | with_reducible apply Keeps.upd
    | with_reducible exact fun _ => rfl
    | exact wF.off rfl

theorem State.commitBlock_keeps {s0 : State} {s : State} {c : Nat} {x : Nat} {d : Desc} {t : Int} {u : UnitStats} {p : BlockPlan} (wF : Free F [.regs, .mem, .cache, .hbm, .fab, .surv, .pwr, .recd, .free]) (hK : Keeps F s0 s) :
    Keeps F s0 (State.commitBlock s c x d t u p).1 := by
  unfold State.commitBlock
  repeat' first
    | with_reducible assumption
    | exact wF.sub rfl
    | with_reducible apply State.setElem_keeps
    | with_reducible apply State.setScale_keeps
    | with_reducible apply State.shiftElems_keeps
    | with_reducible apply Keeps.ite
    | (with_reducible apply Keeps.foldl1; intro _ _ _)
    | (with_reducible apply Keeps.foldl2; intro _ _ _)
    | (with_reducible apply Keeps.foldl; intro _ _ _)
    | split
    | (with_reducible apply Keeps.of_fst; assumption)
    | (with_reducible apply Keeps.of_snd; assumption)
    | dsimp only
    | with_reducible apply Keeps.upd
    | with_reducible exact fun _ => rfl
    | exact wF.off rfl

theorem State.rebaseBlock_keeps {s0 : State} {s : State} {c : Nat} {x : Nat} {r : Nat} {d : Desc} {told : Int} {tnew : Int} {j : Nat} (wF : Free F [.regs, .mem, .cache, .hbm, .objs, .fab, .surv, .pwr, .recd, .free]) (hK : Keeps F s0 s) :
    Keeps F s0 (State.rebaseBlock s c x r d told tnew j) := by
  unfold State.rebaseBlock
  repeat' first
    | with_reducible assumption
    | exact wF.sub rfl
    | with_reducible apply State.bump_keeps
    | with_reducible apply State.modStats_keeps
    | with_reducible apply State.setNonfinite_keeps
    | with_reducible apply State.setScale_keeps
    | with_reducible apply State.shiftElems_keeps
    | with_reducible apply Keeps.ite
    | split
    | dsimp only
    | with_reducible apply Keeps.upd
    | with_reducible exact fun _ => rfl
    | exact wF.off rfl

theorem State.rebaseRun_keeps {s0 : State} {s : State} {c : Nat} {x : Nat} {r : Nat} {d : Desc} {t : Int} {run : Run} (wF : Free F [.regs, .mem, .cache, .hbm, .objs, .fab, .surv, .pwr, .recd, .free]) (hK : Keeps F s0 s) :
    Keeps F s0 (State.rebaseRun s c x r d t run) := by
  unfold State.rebaseRun
  repeat' first
    | with_reducible assumption
    | exact wF.sub rfl
    | with_reducible apply State.rebaseBlock_keeps
    | with_reducible apply Keeps.ite
    | (with_reducible apply Keeps.foldl1; intro _ _ _)
    | (with_reducible apply Keeps.foldl2; intro _ _ _)
    | (with_reducible apply Keeps.foldl; intro _ _ _)
    | split
    | dsimp only
    | with_reducible apply Keeps.upd
    | with_reducible exact fun _ => rfl
    | exact wF.off rfl

theorem State.dropRuns_keeps {s0 : State} {s : State} {c : Nat} {d : Desc} {js : List Nat} (wF : Free F [.cores]) (hK : Keeps F s0 s) :
    Keeps F s0 (State.dropRuns s c d js) := by
  unfold State.dropRuns
  repeat' first
    | with_reducible assumption
    | exact wF.sub rfl
    | with_reducible apply State.modCore_keeps
    | (with_reducible apply Keeps.foldl1; intro _ _ _)
    | (with_reducible apply Keeps.foldl2; intro _ _ _)
    | (with_reducible apply Keeps.foldl; intro _ _ _)
    | dsimp only
    | with_reducible apply Keeps.upd
    | with_reducible exact fun _ => rfl
    | exact wF.off rfl

theorem State.addRun_keeps {s0 : State} {s : State} {c : Nat} {x : Nat} {r : Nat} {d : Desc} {t : Int} {js : List Nat} (wF : Free F [.regs, .mem, .cache, .hbm, .cores, .objs, .fab, .surv, .pwr, .recd, .free]) (hK : Keeps F s0 s) :
    Keeps F s0 (State.addRun s c x r d t js) := by
  unfold State.addRun
  repeat' first
    | with_reducible assumption
    | exact wF.sub rfl
    | with_reducible apply State.dropRuns_keeps
    | with_reducible apply State.kvMoved_keeps
    | with_reducible apply State.modCore_keeps
    | with_reducible apply State.rebaseRun_keeps
    | with_reducible apply Keeps.ite
    | (with_reducible apply Keeps.foldl1; intro _ _ _)
    | (with_reducible apply Keeps.foldl2; intro _ _ _)
    | (with_reducible apply Keeps.foldl; intro _ _ _)
    | split
    | (with_reducible apply Keeps.of_fst; assumption)
    | (with_reducible apply Keeps.of_snd; assumption)
    | dsimp only
    | with_reducible apply Keeps.upd
    | with_reducible exact fun _ => rfl
    | exact wF.off rfl

theorem State.scramble_keeps {s0 : State} {s : State} {c : Nat} {x : Nat} {r : Nat} {d : Desc} {js : List Nat} (wF : Free F [.regs, .mem, .cache, .hbm, .fab, .surv, .pwr, .recd, .free]) (hK : Keeps F s0 s) :
    Keeps F s0 (State.scramble s c x r d js) := by
  unfold State.scramble
  repeat' first
    | with_reducible assumption
    | exact wF.sub rfl
    | with_reducible apply State.draw_keeps
    | with_reducible apply State.setElem_keeps
    | (with_reducible apply Keeps.foldl1; intro _ _ _)
    | (with_reducible apply Keeps.foldl2; intro _ _ _)
    | (with_reducible apply Keeps.foldl; intro _ _ _)
    | dsimp only
    | with_reducible apply Keeps.upd
    | with_reducible exact fun _ => rfl
    | exact wF.off rfl

theorem State.outdate_keeps {s0 : State} {s : State} {sq : Nat} {x : Nat} {h : Nat} (wF : Free F [.seqs]) (hK : Keeps F s0 s) :
    Keeps F s0 (State.outdate s sq x h) := by
  unfold State.outdate
  repeat' first
    | with_reducible assumption
    | exact wF.sub rfl
    | with_reducible apply Keeps.ite
    | split
    | (with_reducible apply Keeps.of_fst; assumption)
    | (with_reducible apply Keeps.of_snd; assumption)
    | dsimp only
    | with_reducible apply Keeps.upd
    | with_reducible exact fun _ => rfl
    | exact wF.off rfl

theorem State.supersede_keeps {s0 : State} {s : State} {sq : Nat} {x : Nat} {d : Desc} {t : Int} (wF : Free F [.regs, .mem, .cache, .hbm, .seqs, .fab, .surv, .pwr, .recd, .free]) (hK : Keeps F s0 s) :
    Keeps F s0 (State.supersede s sq x d t) := by
  unfold State.supersede
  repeat' first
    | with_reducible assumption
    | exact wF.sub rfl
    | with_reducible apply State.outdate_keeps
    | with_reducible apply State.scramble_keeps
    | with_reducible apply Keeps.ite
    | (with_reducible apply Keeps.foldl1; intro _ _ _)
    | (with_reducible apply Keeps.foldl2; intro _ _ _)
    | (with_reducible apply Keeps.foldl; intro _ _ _)
    | split
    | dsimp only
    | with_reducible apply Keeps.upd
    | with_reducible exact fun _ => rfl
    | exact wF.off rfl

theorem State.superseded_keeps {s0 : State} {s : State} {c : Nat} {x : Nat} {r : Nat} {d : Desc} {t : Int} {js : List Nat} (wF : Free F [.regs, .mem, .cache, .hbm, .fab, .surv, .pwr, .recd, .free]) (hK : Keeps F s0 s) :
    Keeps F s0 (State.superseded s c x r d t js) := by
  unfold State.superseded
  repeat' first
    | with_reducible assumption
    | exact wF.sub rfl
    | with_reducible apply State.scramble_keeps
    | with_reducible apply Keeps.ite
    | split
    | (with_reducible apply Keeps.of_fst; assumption)
    | (with_reducible apply Keeps.of_snd; assumption)
    | dsimp only
    | with_reducible apply Keeps.upd
    | with_reducible exact fun _ => rfl
    | exact wF.off rfl

theorem State.raiseBias_keeps {s0 : State} {s : State} {c : Nat} {x : Nat} {d : Desc} {want : Int} (wF : Free F [.regs, .mem, .cache, .hbm, .objs, .fab, .surv, .pwr, .recd, .free]) (hK : Keeps F s0 s) :
    Keeps F s0 (State.raiseBias s c x d want).1 := by
  unfold State.raiseBias
  repeat' first
    | with_reducible assumption
    | exact wF.sub rfl
    | with_reducible apply State.bump_keeps
    | with_reducible apply State.modStats_keeps
    | with_reducible apply State.raise_keeps
    | with_reducible apply State.writeDescByte_keeps
    | with_reducible apply Keeps.ite
    | split
    | dsimp only
    | with_reducible apply Keeps.upd
    | with_reducible exact fun _ => rfl
    | exact wF.off rfl

theorem State.hitCeiling_keeps {s0 : State} {s : State} {c : Nat} {x : Nat} {h : Nat} (wF : Free F [.regs, .seqs, .surv, .recd]) (hK : Keeps F s0 s) :
    Keeps F s0 (State.hitCeiling s c x h) := by
  unfold State.hitCeiling
  repeat' first
    | with_reducible assumption
    | exact wF.sub rfl
    | with_reducible apply State.raise_keeps
    | with_reducible apply State.setBit_keeps
    | with_reducible apply Keeps.ite
    | split
    | (with_reducible apply Keeps.of_fst; assumption)
    | (with_reducible apply Keeps.of_snd; assumption)
    | dsimp only
    | with_reducible apply Keeps.upd
    | with_reducible exact fun _ => rfl
    | exact wF.off rfl

theorem State.addStats_keeps {s0 : State} {s : State} {c : Nat} {x : Nat} {d : Desc} {u : UnitStats} {again : Bool} (wF : Free F [.regs, .mem, .cache, .hbm, .objs, .host, .fab, .surv, .pwr, .recd, .free]) (hK : Keeps F s0 s) :
    Keeps F s0 (State.addStats s c x d u again) := by
  unfold State.addStats
  repeat' first
    | with_reducible assumption
    | exact wF.sub rfl
    | with_reducible apply State.entryError_keeps
    | with_reducible apply State.modStats_keeps
    | with_reducible apply State.setBit_keeps
    | with_reducible apply State.statsErr_keeps
    | split
    | (with_reducible apply Keeps.of_fst; assumption)
    | (with_reducible apply Keeps.of_snd; assumption)
    | dsimp only
    | with_reducible apply Keeps.upd
    | with_reducible exact fun _ => rfl
    | exact wF.off rfl

theorem State.narrowUnit_keeps {s0 : State} {s : State} {c : Nat} {x : Nat} {d : Desc} {es : List (Nat × Exact)} (wF : Free F [.regs, .mem, .cache, .hbm, .cores, .seqs, .objs, .host, .fab, .surv, .pwr, .recd, .free]) (hK : Keeps F s0 s) :
    Keeps F s0 (State.narrowUnit s c x d es) := by
  unfold State.narrowUnit
  repeat' first
    | with_reducible assumption
    | exact wF.sub rfl
    | with_reducible apply State.addRun_keeps
    | with_reducible apply State.addStats_keeps
    | with_reducible apply State.bump_keeps
    | with_reducible apply State.commitBlock_keeps
    | with_reducible apply State.hitCeiling_keeps
    | with_reducible apply State.kvMark_keeps
    | with_reducible apply State.modCore_keeps
    | with_reducible apply State.raiseBias_keeps
    | with_reducible apply State.setNonfinite_keeps
    | with_reducible apply State.supersede_keeps
    | with_reducible apply State.superseded_keeps
    | with_reducible apply Keeps.ite
    | (with_reducible apply Keeps.foldl1; intro _ _ _)
    | (with_reducible apply Keeps.foldl2; intro _ _ _)
    | (with_reducible apply Keeps.foldl; intro _ _ _)
    | split
    | (with_reducible apply Keeps.of_fst; assumption)
    | (with_reducible apply Keeps.of_snd; assumption)
    | dsimp only
    | with_reducible apply Keeps.upd
    | with_reducible exact fun _ => rfl
    | exact wF.off rfl

end Sys2Proof.Machine
end

