-- ==== Sys2Proof/Laws/KeepsTransfers.lean ====
section
/-! SUPPORT. What every step keeps: the functions of Machine/Transfers.lean. -/

namespace Sys2Proof.Machine

open Sys2Proof

variable {F : Area → Bool}

theorem State.privFill_keeps {s0 : State} {s : State} {c : Nat} {ln : Nat} (wF : Free F [.cache]) (hK : Keeps F s0 s) :
    Keeps F s0 (State.privFill s c ln) := by
  unfold State.privFill
  repeat' first
    | with_reducible assumption
    | exact wF.sub rfl
    | with_reducible apply State.setPriv_keeps
    | split
    | (with_reducible apply Keeps.of_fst; assumption)
    | (with_reducible apply Keeps.of_snd; assumption)
    | dsimp only
    | with_reducible apply Keeps.upd
    | with_reducible exact fun _ => rfl
    | exact wF.off rfl

theorem State.seenBy_keeps {s0 : State} {s : State} {c : Nat} {policy : Nat} (wF : Free F [.cache]) (hK : Keeps F s0 s) :
    Keeps F s0 (State.seenBy s c policy) := by
  unfold State.seenBy
  repeat' first
    | with_reducible assumption
    | exact wF.sub rfl
    | with_reducible apply Keeps.ite
    | (with_reducible apply Keeps.foldl1; intro _ _ _)
    | (with_reducible apply Keeps.foldl2; intro _ _ _)
    | (with_reducible apply Keeps.foldl; intro _ _ _)
    | split
    | dsimp only
    | with_reducible apply Keeps.upd
    | with_reducible exact fun _ => rfl
    | exact wF.off rfl

theorem State.askRead_keeps {s0 : State} {s : State} {c : Nat} {slot : Nat} {part : Nat} {policy : Nat} {ln : Nat} {o : Nat} {n : Nat} (wF : Free F [.regs, .cache, .cores, .objs, .pwr]) (hK : Keeps F s0 s) :
    Keeps F s0 (State.askRead s c slot part policy ln o n) := by
  unfold State.askRead
  repeat' first
    | with_reducible assumption
    | exact wF.sub rfl
    | with_reducible apply State.bump_keeps
    | with_reducible apply State.modXfer_keeps
    | with_reducible apply State.privFill_keeps
    | with_reducible apply State.readLine_keeps
    | with_reducible apply State.setPriv_keeps
    | with_reducible apply Keeps.ite
    | split
    | (with_reducible apply Keeps.of_fst; assumption)
    | (with_reducible apply Keeps.of_snd; assumption)
    | dsimp only
    | with_reducible apply Keeps.upd
    | with_reducible exact fun _ => rfl
    | exact wF.off rfl

theorem State.ask_keeps {s0 : State} {s : State} {c : Nat} {slot : Nat} {t : Todo} (wF : Free F [.regs, .cache, .cores, .objs, .host, .fab, .pwr]) (hK : Keeps F s0 s) :
    Keeps F s0 (State.ask s c slot t) := by
  unfold State.ask
  repeat' first
    | with_reducible assumption
    | exact wF.sub rfl
    | with_reducible apply State.askRead_keeps
    | with_reducible apply State.sendFor_keeps
    | split
    | (with_reducible apply Keeps.of_fst; assumption)
    | (with_reducible apply Keeps.of_snd; assumption)
    | dsimp only
    | with_reducible apply Keeps.upd
    | with_reducible exact fun _ => rfl
    | exact wF.off rfl

theorem State.askAll_keeps {s0 s : State} {c slot : Nat} {l : List Todo} (wF : Free F [.regs, .cache, .cores, .objs, .host, .fab, .pwr]) (h : Keeps F s0 s) : Keeps F s0 (State.askAll s c slot l) := by
  induction l generalizing s with
  | nil => exact State.modXfer_keeps (wF.sub rfl) h
  | cons t ts ih =>
    unfold State.askAll
    split
    · exact State.modXfer_keeps (wF.sub rfl) h
    · exact ih (State.ask_keeps (wF.sub rfl) h)

theorem State.askOn_keeps {s0 : State} {s : State} {c : Nat} (wF : Free F [.regs, .cache, .cores, .objs, .host, .fab, .pwr]) (hK : Keeps F s0 s) :
    Keeps F s0 (State.askOn s c) := by
  unfold State.askOn
  repeat' first
    | with_reducible assumption
    | exact wF.sub rfl
    | with_reducible apply State.askAll_keeps
    | with_reducible apply Keeps.ite
    | (with_reducible apply Keeps.foldl1; intro _ _ _)
    | (with_reducible apply Keeps.foldl2; intro _ _ _)
    | (with_reducible apply Keeps.foldl; intro _ _ _)
    | split
    | dsimp only
    | with_reducible apply Keeps.upd
    | with_reducible exact fun _ => rfl
    | exact wF.off rfl

theorem State.startXfer_keeps {s0 : State} {s : State} {c : Nat} {x : Nat} {slot : Nat} {kind : XferKind} {i : Insn} {ds : List Desc} {todo : List Todo} (wF : Free F [.regs, .cache, .cores, .objs, .host, .fab, .pwr]) (hK : Keeps F s0 s) :
    Keeps F s0 (State.startXfer s c x slot kind i ds todo) := by
  unfold State.startXfer
  repeat' first
    | with_reducible assumption
    | exact wF.sub rfl
    | with_reducible apply State.askAll_keeps
    | with_reducible apply State.modCore_keeps
    | with_reducible apply State.newWork_keeps
    | dsimp only
    | with_reducible apply Keeps.upd
    | with_reducible exact fun _ => rfl
    | exact wF.off rfl

theorem State.failEntry_keeps {s0 : State} {s : State} {c : Nat} {code : Nat} (wF : Free F [.regs, .te, .objs, .loader, .host, .fab]) (hK : Keeps F s0 s) :
    Keeps F s0 (State.failEntry s c code) := by
  unfold State.failEntry
  repeat' first
    | with_reducible assumption
    | exact wF.sub rfl
    | with_reducible apply State.bump_keeps
    | with_reducible apply State.entryError_keeps
    | with_reducible apply State.faultCore_keeps
    | with_reducible apply Keeps.ite
    | split
    | dsimp only
    | with_reducible apply Keeps.upd
    | with_reducible exact fun _ => rfl
    | exact wF.off rfl

theorem State.takeMove_keeps {s0 s : State} {c : Nat} {sel : Insn → Bool} {run : State → Nat → Nat → Insn → State} (wF : Free F [.regs, .cache, .cores, .objs, .pwr]) (h : Keeps F s0 s)
    (hr : ∀ t x slot i, Keeps F s0 t → Keeps F s0 (run t x slot i)) : Keeps F s0 (State.takeMove s c sel run) := by
  unfold State.takeMove
  repeat' first
    | with_reducible assumption
    | exact wF.sub rfl
    | with_reducible apply hr
    | with_reducible apply State.take_keeps
    | with_reducible apply State.bump_keeps
    | split

theorem State.underMaps_keeps {s0 s : State} {x : Nat} {m : List Mapping} {f : State → State} (wF : Free F [.objs]) (h : Keeps F s0 s)
    (hf : ∀ t, Keeps F s0 t → Keeps F s0 (f t)) : Keeps F s0 (State.underMaps s x m f) :=
  State.modCtx_keeps (wF.sub rfl) (hf _ (State.modCtx_keeps (wF.sub rfl) h))

theorem State.moved_keeps {s0 : State} {s : State} {c : Nat} {slot : Nat} (wF : Free F [.cores]) (hK : Keeps F s0 s) :
    Keeps F s0 (State.moved s c slot) := by
  unfold State.moved
  repeat' first
    | with_reducible assumption
    | exact wF.sub rfl
    | with_reducible apply State.modXfer_keeps
    | dsimp only
    | with_reducible apply Keeps.upd
    | with_reducible exact fun _ => rfl
    | exact wF.off rfl

theorem State.wipeStart_keeps {s0 : State} {s : State} {h : Nat} {o : MemObj} (wF : Free F [.cache, .hbm, .objs]) (hK : Keeps F s0 s) :
    Keeps F s0 (State.wipeStart s h o) := by
  unfold State.wipeStart
  repeat' first
    | with_reducible assumption
    | exact wF.sub rfl
    | with_reducible apply State.dropRange_keeps
    | with_reducible apply State.modObjs_keeps
    | with_reducible apply State.startWipe_keeps
    | with_reducible apply Keeps.ite
    | (with_reducible apply Keeps.foldl1; intro _ _ _)
    | (with_reducible apply Keeps.foldl2; intro _ _ _)
    | (with_reducible apply Keeps.foldl; intro _ _ _)
    | split
    | dsimp only
    | with_reducible apply Keeps.upd
    | with_reducible exact fun _ => rfl
    | exact wF.off rfl

theorem State.settleFreeing_keeps {s0 : State} {s : State} (wF : Free F [.cache, .hbm, .objs]) (hK : Keeps F s0 s) :
    Keeps F s0 (State.settleFreeing s) := by
  unfold State.settleFreeing
  repeat' first
    | with_reducible assumption
    | exact wF.sub rfl
    | with_reducible apply State.wipeStart_keeps
    | with_reducible apply Keeps.ite
    | (with_reducible apply Keeps.foldl1; intro _ _ _)
    | (with_reducible apply Keeps.foldl2; intro _ _ _)
    | (with_reducible apply Keeps.foldl; intro _ _ _)
    | split
    | dsimp only
    | with_reducible apply Keeps.upd
    | with_reducible exact fun _ => rfl
    | exact wF.off rfl

end Sys2Proof.Machine
end

