-- ==== Sys2Proof/Laws/KeepsCopies.lean ====
section
/-! SUPPORT. What every step keeps: the functions of Machine/Copies.lean. -/

namespace Sys2Proof.Machine

open Sys2Proof

variable {F : Area → Bool}

theorem State.writeElems_keeps {s0 : State} {s : State} {c : Nat} {slot : Nat} {x : Nat} {d : Desc} {es : List (Nat × Exact)} (wF : Free F [.regs, .mem, .cache, .hbm, .cores, .seqs, .objs, .host, .fab, .surv, .pwr, .recd, .free]) (hK : Keeps F s0 s) :
    Keeps F s0 (State.writeElems s c slot x d es) := by
  unfold State.writeElems
  repeat' first
    | with_reducible assumption
    | exact wF.sub rfl
    | with_reducible apply State.bump_keeps
    | with_reducible apply State.narrowUnit_keeps
    | with_reducible apply State.setElem_keeps
    | with_reducible apply State.xferFailed_keeps
    | with_reducible apply Keeps.ite
    | (with_reducible apply Keeps.foldl1; intro _ _ _)
    | (with_reducible apply Keeps.foldl2; intro _ _ _)
    | (with_reducible apply Keeps.foldl; intro _ _ _)
    | split
    | dsimp only
    | with_reducible apply Keeps.upd
    | with_reducible exact fun _ => rfl
    | exact wF.off rfl

theorem State.copyRaw_keeps {s0 : State} {s : State} {v : State} {c : Nat} {x : Nat} {sd : Desc} {dd : Desc} {ps : List (Nat × Nat)} (wF : Free F [.regs, .mem, .cache, .hbm, .objs, .fab, .surv, .pwr, .recd, .free]) (hK : Keeps F s0 s) :
    Keeps F s0 (State.copyRaw s v c x sd dd ps) := by
  unfold State.copyRaw
  repeat' first
    | with_reducible assumption
    | exact wF.sub rfl
    | with_reducible apply State.kvMark_keeps
    | with_reducible apply State.setElem_keeps
    | with_reducible apply State.setScale_keeps
    | with_reducible apply Keeps.ite
    | (with_reducible apply Keeps.foldl1; intro _ _ _)
    | (with_reducible apply Keeps.foldl2; intro _ _ _)
    | (with_reducible apply Keeps.foldl; intro _ _ _)
    | split
    | dsimp only
    | with_reducible apply Keeps.upd
    | with_reducible exact fun _ => rfl
    | exact wF.off rfl

theorem State.copyPlain_keeps {s0 : State} {s : State} {c : Nat} {slot : Nat} {x : Nat} {r : Nat} {sd : Desc} {dd : Desc} {bad : List Nat} (wF : Free F [.regs, .mem, .cache, .hbm, .cores, .seqs, .objs, .host, .fab, .surv, .pwr, .recd, .free]) (hK : Keeps F s0 s) :
    Keeps F s0 (State.copyPlain s c slot x r sd dd bad) := by
  unfold State.copyPlain
  repeat' first
    | with_reducible assumption
    | exact wF.sub rfl
    | with_reducible apply State.copyRaw_keeps
    | with_reducible apply State.seenBy_keeps
    | with_reducible apply State.writeElems_keeps
    | with_reducible apply Keeps.ite
    | split
    | dsimp only
    | with_reducible apply Keeps.upd
    | with_reducible exact fun _ => rfl
    | exact wF.off rfl

theorem State.setCodes_keeps {s0 : State} {s : State} {c : Nat} {x : Nat} {d : Desc} {cs : List (Nat × Nat)} (wF : Free F [.regs, .mem, .cache, .hbm, .fab, .surv, .pwr, .recd, .free]) (hK : Keeps F s0 s) :
    Keeps F s0 (State.setCodes s c x d cs) := by
  unfold State.setCodes
  repeat' first
    | with_reducible assumption
    | exact wF.sub rfl
    | with_reducible apply State.setElem_keeps
    | (with_reducible apply Keeps.foldl1; intro _ _ _)
    | (with_reducible apply Keeps.foldl2; intro _ _ _)
    | (with_reducible apply Keeps.foldl; intro _ _ _)
    | dsimp only
    | with_reducible apply Keeps.upd
    | with_reducible exact fun _ => rfl
    | exact wF.off rfl

theorem State.importBlock_keeps {s0 : State} {s : State} {c : Nat} {x : Nat} {d : Desc} {t : Int} {n : MxCount} {j : Nat} {xs : Nat} {cs : List (Nat × Nat)} (wF : Free F [.regs, .mem, .cache, .hbm, .fab, .surv, .pwr, .recd, .free]) (hK : Keeps F s0 s) :
    Keeps F s0 (State.importBlock s c x d t n j xs cs).1 := by
  unfold State.importBlock
  repeat' first
    | with_reducible assumption
    | exact wF.sub rfl
    | with_reducible apply State.setCodes_keeps
    | with_reducible apply State.setScale_keeps
    | with_reducible apply Keeps.ite
    | split
    | dsimp only
    | with_reducible apply Keeps.upd
    | with_reducible exact fun _ => rfl
    | exact wF.off rfl

theorem State.mxReport_keeps {s0 : State} {s : State} {c : Nat} {slot : Nat} {x : Nat} {d : Desc} {n : MxCount} (wF : Free F [.regs, .mem, .cache, .hbm, .cores, .objs, .host, .fab, .surv, .pwr, .recd, .free]) (hK : Keeps F s0 s) :
    Keeps F s0 (State.mxReport s c slot x d n) := by
  unfold State.mxReport
  repeat' first
    | with_reducible assumption
    | exact wF.sub rfl
    | with_reducible apply State.modStats_keeps
    | with_reducible apply State.modXfer_keeps
    | with_reducible apply State.raise_keeps
    | with_reducible apply State.setBit_keeps
    | with_reducible apply State.setNonfinite_keeps
    | with_reducible apply State.xferError_keeps
    | with_reducible apply Keeps.ite
    | split
    | dsimp only
    | with_reducible apply Keeps.upd
    | with_reducible exact fun _ => rfl
    | exact wF.off rfl

theorem State.mxImport_keeps {s0 : State} {s : State} {c : Nat} {slot : Nat} {x : Nat} {r : Nat} {derive : Bool} {sd : Desc} {dd : Desc} {sc : Desc} {bad : List Nat} (wF : Free F [.regs, .mem, .cache, .hbm, .cores, .objs, .host, .fab, .surv, .pwr, .recd, .free]) (hK : Keeps F s0 s) :
    Keeps F s0 (State.mxImport s c slot x r derive sd dd sc bad) := by
  unfold State.mxImport
  repeat' first
    | with_reducible assumption
    | exact wF.sub rfl
    | with_reducible apply State.importBlock_keeps
    | with_reducible apply State.kvMark_keeps
    | with_reducible apply State.mxReport_keeps
    | with_reducible apply State.seenBy_keeps
    | with_reducible apply State.writeDescByte_keeps
    | with_reducible apply State.xferError_keeps
    | with_reducible apply Keeps.ite
    | (with_reducible apply Keeps.foldl1; intro _ _ _)
    | (with_reducible apply Keeps.foldl2; intro _ _ _)
    | (with_reducible apply Keeps.foldl; intro _ _ _)
    | split
    | (with_reducible apply Keeps.of_fst; assumption)
    | (with_reducible apply Keeps.of_snd; assumption)
    | dsimp only
    | with_reducible apply Keeps.upd
    | with_reducible exact fun _ => rfl
    | exact wF.off rfl

theorem State.exportBlock_keeps {s0 : State} {s : State} {c : Nat} {x : Nat} {d : Desc} {sc : Desc} {so : Nat} {n : MxCount} {e : Int} {cs : List (Nat × Nat)} (wF : Free F [.regs, .mem, .cache, .hbm, .fab, .surv, .pwr, .recd, .free]) (hK : Keeps F s0 s) :
    Keeps F s0 (State.exportBlock s c x d sc so n e cs).1 := by
  unfold State.exportBlock
  repeat' first
    | with_reducible assumption
    | exact wF.sub rfl
    | with_reducible apply State.setCodes_keeps
    | with_reducible apply State.setElem_keeps
    | with_reducible apply Keeps.ite
    | split
    | dsimp only
    | with_reducible apply Keeps.upd
    | with_reducible exact fun _ => rfl
    | exact wF.off rfl

theorem State.mxExport_keeps {s0 : State} {s : State} {c : Nat} {slot : Nat} {x : Nat} {r : Nat} {sd : Desc} {dd : Desc} {sc : Desc} {bad : List Nat} (wF : Free F [.regs, .mem, .cache, .hbm, .cores, .objs, .host, .fab, .surv, .pwr, .recd, .free]) (hK : Keeps F s0 s) :
    Keeps F s0 (State.mxExport s c slot x r sd dd sc bad) := by
  unfold State.mxExport
  repeat' first
    | with_reducible assumption
    | exact wF.sub rfl
    | with_reducible apply State.exportBlock_keeps
    | with_reducible apply State.mxReport_keeps
    | with_reducible apply State.seenBy_keeps
    | with_reducible apply Keeps.ite
    | (with_reducible apply Keeps.foldl1; intro _ _ _)
    | (with_reducible apply Keeps.foldl2; intro _ _ _)
    | (with_reducible apply Keeps.foldl; intro _ _ _)
    | split
    | dsimp only
    | with_reducible apply Keeps.upd
    | with_reducible exact fun _ => rfl
    | exact wF.off rfl

theorem State.countMove_keeps {s0 : State} {s : State} {c : Nat} {x : Nat} {rd : List (Nat × Nat)} {wr : List (Nat × Nat)} (wF : Free F [.regs, .cache]) (hK : Keeps F s0 s) :
    Keeps F s0 (State.countMove s c x rd wr) := by
  unfold State.countMove
  repeat' first
    | with_reducible assumption
    | exact wF.sub rfl
    | with_reducible apply State.bump_keeps
    | with_reducible apply State.privDrop_keeps
    | dsimp only
    | with_reducible apply Keeps.upd
    | with_reducible exact fun _ => rfl
    | exact wF.off rfl

theorem State.drawRange_keeps {s0 : State} {s : State} {c : Nat} {x : Nat} {policy : Nat} {g : Nat × Nat} (wF : Free F [.regs, .mem, .cache, .hbm, .fab, .surv, .pwr, .recd, .free]) (hK : Keeps F s0 s) :
    Keeps F s0 (State.drawRange s c x policy g) := by
  unfold State.drawRange
  repeat' first
    | with_reducible assumption
    | exact wF.sub rfl
    | with_reducible apply State.drawBytes_keeps
    | with_reducible apply State.vaWrite_keeps
    | dsimp only
    | with_reducible apply Keeps.upd
    | with_reducible exact fun _ => rfl
    | exact wF.off rfl

theorem State.moveCopy_keeps {s0 : State} {s : State} {c : Nat} {slot : Nat} {x : Nat} {v : Xfer} {mx : Nat} (wF : Free F [.regs, .mem, .cache, .hbm, .cores, .seqs, .objs, .host, .fab, .surv, .pwr, .recd, .free]) (hK : Keeps F s0 s) :
    Keeps F s0 (State.moveCopy s c slot x v mx) := by
  unfold State.moveCopy
  repeat' first
    | with_reducible assumption
    | exact wF.sub rfl
    | with_reducible apply State.copyPlain_keeps
    | with_reducible apply State.countMove_keeps
    | with_reducible apply State.drawRange_keeps
    | with_reducible apply State.moved_keeps
    | with_reducible apply State.mxExport_keeps
    | with_reducible apply State.mxImport_keeps
    | with_reducible apply State.xferError_keeps
    | with_reducible apply Keeps.ite
    | (with_reducible apply Keeps.foldl1; intro _ _ _)
    | (with_reducible apply Keeps.foldl2; intro _ _ _)
    | (with_reducible apply Keeps.foldl; intro _ _ _)
    | split
    | (with_reducible apply Keeps.of_fst; assumption)
    | (with_reducible apply Keeps.of_snd; assumption)
    | dsimp only
    | with_reducible apply Keeps.upd
    | with_reducible exact fun _ => rfl
    | exact wF.off rfl

end Sys2Proof.Machine
end

