-- ==== Sys2Proof/Laws/KeepsRemote.lean ====
section
/-! SUPPORT. What every step keeps: the functions of Machine/Remote.lean. -/

namespace Sys2Proof.Machine

open Sys2Proof

variable {F : Area → Bool}

theorem State.add64_keeps {s0 : State} {s : State} {l : List Piece} {v : Nat} (wF : Free F [.regs, .mem, .cache, .hbm, .fab, .surv, .pwr, .recd, .free]) (hK : Keeps F s0 s) :
    Keeps F s0 (State.add64 s l v) := by
  unfold State.add64
  repeat' first
    | with_reducible assumption
    | exact wF.sub rfl
    | with_reducible apply State.writePieces_keeps
    | dsimp only
    | with_reducible apply Keeps.upd
    | with_reducible exact fun _ => rfl
    | exact wF.off rfl

theorem State.absentUnit_keeps {s0 : State} {s : State} {c : Nat} (wF : Free F [.regs, .te, .objs, .loader, .host, .fab]) (hK : Keeps F s0 s) :
    Keeps F s0 (State.absentUnit s c) := by
  unfold State.absentUnit
  repeat' first
    | with_reducible assumption
    | exact wF.sub rfl
    | with_reducible apply State.bump_keeps
    | with_reducible apply State.failEntry_keeps
    | dsimp only
    | with_reducible apply Keeps.upd
    | with_reducible exact fun _ => rfl
    | exact wF.off rfl

theorem State.localFlag_keeps {s0 : State} {s : State} {c : Nat} {slot : Nat} {x : Nat} {h : Nat} {rank : Nat} (wF : Free F [.regs, .mem, .cache, .hbm, .cores, .objs, .host, .fab, .surv, .pwr, .recd, .free]) (hK : Keeps F s0 s) :
    Keeps F s0 (State.localFlag s c slot x h rank) := by
  unfold State.localFlag
  repeat' first
    | with_reducible assumption
    | exact wF.sub rfl
    | with_reducible apply State.add64_keeps
    | with_reducible apply State.bump_keeps
    | with_reducible apply State.fetchPieces_keeps
    | with_reducible apply State.privDrop_keeps
    | with_reducible apply State.readDescs_keeps
    | with_reducible apply State.xferError_keeps
    | with_reducible apply Keeps.ite
    | split
    | (with_reducible apply Keeps.of_fst; assumption)
    | (with_reducible apply Keeps.of_snd; assumption)
    | dsimp only
    | with_reducible apply Keeps.upd
    | with_reducible exact fun _ => rfl
    | exact wF.off rfl

theorem State.moveOwn_keeps {s0 : State} {s : State} {c : Nat} {slot : Nat} {x : Nat} {v : Xfer} {rank : Nat} {flag : Option Nat} (wF : Free F [.regs, .mem, .cache, .hbm, .cores, .objs, .host, .fab, .surv, .pwr, .recd, .free]) (hK : Keeps F s0 s) :
    Keeps F s0 (State.moveOwn s c slot x v rank flag) := by
  unfold State.moveOwn
  repeat' first
    | with_reducible assumption
    | exact wF.sub rfl
    | with_reducible apply State.countMove_keeps
    | with_reducible apply State.localFlag_keeps
    | with_reducible apply State.moved_keeps
    | with_reducible apply State.vaWrite_keeps
    | with_reducible apply State.xferError_keeps
    | with_reducible apply Keeps.ite
    | (with_reducible apply Keeps.foldl1; intro _ _ _)
    | (with_reducible apply Keeps.foldl2; intro _ _ _)
    | (with_reducible apply Keeps.foldl; intro _ _ _)
    | split
    | (with_reducible apply Keeps.of_fst; assumption)
    | (with_reducible apply Keeps.of_snd; assumption)
    | dsimp only
    | with_reducible apply Keeps.upd
    | with_reducible exact fun _ => rfl
    | exact wF.off rfl

theorem State.startReads_keeps {s0 : State} {s : State} {c : Nat} {slot : Nat} {x : Nat} {sd : Desc} (wF : Free F [.regs, .cache, .cores, .objs, .host, .fab, .pwr]) (hK : Keeps F s0 s) :
    Keeps F s0 (State.startReads s c slot x sd) := by
  unfold State.startReads
  repeat' first
    | with_reducible assumption
    | exact wF.sub rfl
    | with_reducible apply State.askAll_keeps
    | dsimp only
    | with_reducible apply Keeps.upd
    | with_reducible exact fun _ => rfl
    | exact wF.off rfl

theorem State.remoteDesc_keeps {s0 : State} {s : State} {c : Nat} {slot : Nat} {d : Desc} (wF : Free F [.regs, .cache, .cores, .objs, .host, .fab, .pwr]) (hK : Keeps F s0 s) :
    Keeps F s0 (State.remoteDesc s c slot d) := by
  unfold State.remoteDesc
  repeat' first
    | with_reducible assumption
    | exact wF.sub rfl
    | with_reducible apply State.modXfer_keeps
    | with_reducible apply State.moved_keeps
    | with_reducible apply State.startReads_keeps
    | (with_reducible refine State.underMaps_keeps (wF.sub rfl) ?_ (fun _ _ => ?_))
    | with_reducible apply State.xferError_keeps
    | split
    | (with_reducible apply Keeps.of_fst; assumption)
    | (with_reducible apply Keeps.of_snd; assumption)
    | dsimp only
    | with_reducible apply Keeps.upd
    | with_reducible exact fun _ => rfl
    | exact wF.off rfl

theorem State.moveRemote_keeps {s0 : State} {s : State} {c : Nat} {slot : Nat} {x : Nat} {v : Xfer} {rank : Nat} {flag : Option Nat} (wF : Free F [.regs, .cache, .cores, .objs, .host, .fab, .pwr]) (hK : Keeps F s0 s) :
    Keeps F s0 (State.moveRemote s c slot x v rank flag) := by
  unfold State.moveRemote
  repeat' first
    | with_reducible assumption
    | exact wF.sub rfl
    | with_reducible apply State.askAll_keeps
    | with_reducible apply State.bump_keeps
    | with_reducible apply State.moved_keeps
    | with_reducible apply State.xferError_keeps
    | with_reducible apply Keeps.ite
    | split
    | (with_reducible apply Keeps.of_fst; assumption)
    | (with_reducible apply Keeps.of_snd; assumption)
    | dsimp only
    | with_reducible apply Keeps.upd
    | with_reducible exact fun _ => rfl
    | exact wF.off rfl

theorem State.takeOwn_keeps {s0 : State} {s : State} {c : Nat} {x : Nat} {slot : Nat} {i : Insn} {src : Nat} {dst : Nat} {rank : Nat} (wF : Free F [.regs, .cache, .cores, .te, .objs, .loader, .host, .fab, .pwr]) (hK : Keeps F s0 s) :
    Keeps F s0 (State.takeOwn s c x slot i src dst rank) := by
  unfold State.takeOwn
  repeat' first
    | with_reducible assumption
    | exact wF.sub rfl
    | with_reducible apply State.failEntry_keeps
    | with_reducible apply State.startXfer_keeps
    | with_reducible apply Keeps.ite
    | split
    | (with_reducible apply Keeps.of_fst; assumption)
    | (with_reducible apply Keeps.of_snd; assumption)
    | dsimp only
    | with_reducible apply Keeps.upd
    | with_reducible exact fun _ => rfl
    | exact wF.off rfl

theorem State.takeRemote_keeps {s0 : State} {s : State} {c : Nat} {x : Nat} {slot : Nat} {i : Insn} {src : Nat} {dst : Nat} {rank : Nat} (wF : Free F [.regs, .cache, .cores, .te, .objs, .loader, .host, .fab, .pwr]) (hK : Keeps F s0 s) :
    Keeps F s0 (State.takeRemote s c x slot i src dst rank) := by
  unfold State.takeRemote
  repeat' first
    | with_reducible assumption
    | exact wF.sub rfl
    | with_reducible apply State.failEntry_keeps
    | with_reducible apply State.startXfer_keeps
    | split
    | (with_reducible apply Keeps.of_fst; assumption)
    | (with_reducible apply Keeps.of_snd; assumption)
    | dsimp only
    | with_reducible apply Keeps.upd
    | with_reducible exact fun _ => rfl
    | exact wF.off rfl

theorem State.takeTrigger_keeps {s0 : State} {s : State} {c : Nat} {x : Nat} {slot : Nat} {i : Insn} {proc : Nat} {arg : Nat} (wF : Free F [.regs, .cache, .cores, .te, .objs, .loader, .host, .fab, .pwr]) (hK : Keeps F s0 s) :
    Keeps F s0 (State.takeTrigger s c x slot i proc arg) := by
  unfold State.takeTrigger
  repeat' first
    | with_reducible assumption
    | exact wF.sub rfl
    | with_reducible apply State.failEntry_keeps
    | with_reducible apply State.moved_keeps
    | with_reducible apply State.sendFor_keeps
    | with_reducible apply State.startXfer_keeps
    | split
    | (with_reducible apply Keeps.of_fst; assumption)
    | (with_reducible apply Keeps.of_snd; assumption)
    | dsimp only
    | with_reducible apply Keeps.upd
    | with_reducible exact fun _ => rfl
    | exact wF.off rfl

end Sys2Proof.Machine
end

