-- ==== Sys2Proof/Laws/KeepsCollectives.lean ====
section
/-! SUPPORT. What every step keeps: the functions of Machine/Collectives.lean. -/

namespace Sys2Proof.Machine

open Sys2Proof

variable {F : Area → Bool}

theorem State.modColl_keeps {s0 : State} {s : State} {i : Nat} {f : Coll → Coll} (wF : Free F [.fab]) (hK : Keeps F s0 s) :
    Keeps F s0 (State.modColl s i f) := by
  unfold State.modColl
  repeat' first
    | with_reducible assumption
    | exact wF.sub rfl
    | dsimp only
    | with_reducible apply Keeps.upd
    | with_reducible exact fun _ => rfl
    | exact wF.off rfl

theorem State.openColl_keeps {s0 : State} {s : State} {k : Coll} (wF : Free F [.fab]) (hK : Keeps F s0 s) :
    Keeps F s0 (State.openColl s k).1 := by
  unfold State.openColl
  repeat' first
    | with_reducible assumption
    | exact wF.sub rfl
    | dsimp only
    | with_reducible apply Keeps.upd
    | with_reducible exact fun _ => rfl
    | exact wF.off rfl

theorem State.loseUpd_keeps {s0 : State} {s : State} {u : Nat} {k : Upd} (wF : Free F [.regs, .cores, .objs, .host, .fab, .uu]) (hK : Keeps F s0 s) :
    Keeps F s0 (State.loseUpd s u k) := by
  unfold State.loseUpd
  repeat' first
    | with_reducible assumption
    | exact wF.sub rfl
    | with_reducible apply State.xferError_keeps
    | dsimp only
    | with_reducible apply Keeps.upd
    | with_reducible exact fun _ => rfl
    | exact wF.off rfl

theorem State.loseVote_keeps {s0 : State} {s : State} {inst : Nat} {entry : Nat} (wF : Free F [.regs, .cores, .objs, .host, .fab, .uu]) (hK : Keeps F s0 s) :
    Keeps F s0 (State.loseVote s inst entry) := by
  unfold State.loseVote
  repeat' first
    | with_reducible assumption
    | exact wF.sub rfl
    | with_reducible apply State.loseUpd_keeps
    | with_reducible apply Keeps.ite
    | (with_reducible apply Keeps.foldl1; intro _ _ _)
    | (with_reducible apply Keeps.foldl2; intro _ _ _)
    | (with_reducible apply Keeps.foldl; intro _ _ _)
    | split
    | dsimp only
    | with_reducible apply Keeps.upd
    | with_reducible exact fun _ => rfl
    | exact wF.off rfl

theorem State.leaveColl_keeps {s0 : State} {s : State} {k : Coll} (wF : Free F [.cores]) (hK : Keeps F s0 s) :
    Keeps F s0 (State.leaveColl s k) := by
  unfold State.leaveColl
  repeat' first
    | with_reducible assumption
    | exact wF.sub rfl
    | with_reducible apply State.modXfer_keeps
    | (with_reducible apply Keeps.foldl1; intro _ _ _)
    | (with_reducible apply Keeps.foldl2; intro _ _ _)
    | (with_reducible apply Keeps.foldl; intro _ _ _)
    | dsimp only
    | with_reducible apply Keeps.upd
    | with_reducible exact fun _ => rfl
    | exact wF.off rfl

theorem State.failColl_keeps {s0 : State} {s : State} {i : Nat} {code : Nat} (wF : Free F [.regs, .cores, .objs, .host, .fab, .uu]) (hK : Keeps F s0 s) :
    Keeps F s0 (State.failColl s i code) := by
  unfold State.failColl
  repeat' first
    | with_reducible assumption
    | exact wF.sub rfl
    | with_reducible apply State.leaveColl_keeps
    | with_reducible apply State.loseVote_keeps
    | with_reducible apply State.xferError_keeps
    | with_reducible apply Keeps.ite
    | (with_reducible apply Keeps.foldl1; intro _ _ _)
    | (with_reducible apply Keeps.foldl2; intro _ _ _)
    | (with_reducible apply Keeps.foldl; intro _ _ _)
    | split
    | (with_reducible apply Keeps.of_fst; assumption)
    | (with_reducible apply Keeps.of_snd; assumption)
    | dsimp only
    | with_reducible apply Keeps.upd
    | with_reducible exact fun _ => rfl
    | exact wF.off rfl

theorem State.collValues_keeps {s0 : State} {s : State} {c : Nat} {x : Nat} {r : Nat} {d : Desc} {bad : List Nat} (wF : Free F [.cache, .free]) (hK : Keeps F s0 s) :
    Keeps F s0 (State.collValues s c x r d bad).2 := by
  unfold State.collValues
  repeat' first
    | with_reducible assumption
    | exact wF.sub rfl
    | with_reducible apply State.draw_keeps
    | with_reducible apply State.seenBy_keeps
    | with_reducible apply Keeps.ite
    | (with_reducible apply Keeps.foldl1; intro _ _ _)
    | (with_reducible apply Keeps.foldl2; intro _ _ _)
    | (with_reducible apply Keeps.foldl; intro _ _ _)
    | split
    | dsimp only
    | with_reducible apply Keeps.upd
    | with_reducible exact fun _ => rfl
    | exact wF.off rfl

theorem State.flagJob_keeps {s0 : State} {s : State} {entry : Nat} {bad : Bool} (wF : Free F [.objs]) (hK : Keeps F s0 s) :
    Keeps F s0 (State.flagJob s entry bad) := by
  unfold State.flagJob
  repeat' first
    | with_reducible assumption
    | exact wF.sub rfl
    | with_reducible apply Keeps.ite
    | split
    | dsimp only
    | with_reducible apply Keeps.upd
    | with_reducible exact fun _ => rfl
    | exact wF.off rfl

theorem State.moveColl_keeps {s0 : State} {s : State} {c : Nat} {slot : Nat} {x : Nat} {v : Xfer} {i : Nat} (wF : Free F [.regs, .cache, .cores, .objs, .host, .fab, .uu, .free]) (hK : Keeps F s0 s) :
    Keeps F s0 (State.moveColl s c slot x v i) := by
  unfold State.moveColl
  repeat' first
    | with_reducible assumption
    | exact wF.sub rfl
    | with_reducible apply State.bump_keeps
    | with_reducible apply State.collValues_keeps
    | with_reducible apply State.failColl_keeps
    | with_reducible apply State.flagJob_keeps
    | with_reducible apply State.modColl_keeps
    | with_reducible apply State.moved_keeps
    | with_reducible apply State.sendFor_keeps
    | with_reducible apply State.xferError_keeps
    | with_reducible apply Keeps.ite
    | (with_reducible apply Keeps.foldl1; intro _ _ _)
    | (with_reducible apply Keeps.foldl2; intro _ _ _)
    | (with_reducible apply Keeps.foldl; intro _ _ _)
    | split
    | (with_reducible apply Keeps.of_fst; assumption)
    | (with_reducible apply Keeps.of_snd; assumption)
    | dsimp only
    | with_reducible apply Keeps.upd
    | with_reducible exact fun _ => rfl
    | exact wF.off rfl

theorem State.writeResult_keeps {s0 : State} {s : State} {k : Coll} {l : Nat × Nat × Nat} (wF : Free F [.regs, .mem, .cache, .hbm, .cores, .seqs, .objs, .host, .fab, .surv, .pwr, .recd, .free]) (hK : Keeps F s0 s) :
    Keeps F s0 (State.writeResult s k l) := by
  unfold State.writeResult
  repeat' first
    | with_reducible assumption
    | exact wF.sub rfl
    | with_reducible apply State.countMove_keeps
    | (with_reducible refine State.underMaps_keeps (wF.sub rfl) ?_ (fun _ _ => ?_))
    | with_reducible apply State.writeElems_keeps
    | split
    | (with_reducible apply Keeps.of_fst; assumption)
    | (with_reducible apply Keeps.of_snd; assumption)
    | dsimp only
    | with_reducible apply Keeps.upd
    | with_reducible exact fun _ => rfl
    | exact wF.off rfl

theorem State.countColl_keeps {s0 : State} {s : State} {entry : Nat} {id : Nat} {rank : Nat} (wF : Free F [.objs]) (hK : Keeps F s0 s) :
    Keeps F s0 (State.countColl s entry id rank).1 := by
  unfold State.countColl
  repeat' first
    | with_reducible assumption
    | exact wF.sub rfl
    | with_reducible apply State.modObjs_keeps
    | split
    | (with_reducible apply Keeps.of_fst; assumption)
    | (with_reducible apply Keeps.of_snd; assumption)
    | dsimp only
    | with_reducible apply Keeps.upd
    | with_reducible exact fun _ => rfl
    | exact wF.off rfl

theorem State.joinColl_keeps {s0 : State} {s : State} {c : Nat} {x : Nat} {slot : Nat} {i : Insn} {entry : Nat} {kind : Nat} {scope : Nat} {id : Nat} {n : Nat} {size : Nat} {nodes : List Nat} {ds : List Desc} (wF : Free F [.regs, .cache, .cores, .objs, .host, .fab, .uu, .pwr]) (hK : Keeps F s0 s) :
    Keeps F s0 (State.joinColl s c x slot i entry kind scope id n size nodes ds) := by
  unfold State.joinColl
  repeat' first
    | with_reducible assumption
    | exact wF.sub rfl
    | with_reducible apply State.askAll_keeps
    | with_reducible apply State.failColl_keeps
    | with_reducible apply State.modColl_keeps
    | with_reducible apply State.modCore_keeps
    | with_reducible apply State.modXfer_keeps
    | with_reducible apply State.openColl_keeps
    | with_reducible apply State.sendFor_keeps
    | with_reducible apply State.startXfer_keeps
    | with_reducible apply Keeps.ite
    | (with_reducible apply Keeps.foldl1; intro _ _ _)
    | (with_reducible apply Keeps.foldl2; intro _ _ _)
    | (with_reducible apply Keeps.foldl; intro _ _ _)
    | split
    | (with_reducible apply Keeps.of_fst; assumption)
    | (with_reducible apply Keeps.of_snd; assumption)
    | dsimp only
    | with_reducible apply Keeps.upd
    | with_reducible exact fun _ => rfl
    | exact wF.off rfl

theorem State.voteFails_keeps {s0 : State} {s : State} {c : Nat} {entry : Nat} {kind : Nat} {id : Nat} (wF : Free F [.regs, .cores, .objs, .host, .fab, .uu]) (hK : Keeps F s0 s) :
    Keeps F s0 (State.voteFails s c entry kind id) := by
  unfold State.voteFails
  repeat' first
    | with_reducible assumption
    | exact wF.sub rfl
    | with_reducible apply State.loseVote_keeps
    | with_reducible apply State.modCore_keeps
    | with_reducible apply Keeps.ite
    | split
    | dsimp only
    | with_reducible apply Keeps.upd
    | with_reducible exact fun _ => rfl
    | exact wF.off rfl

theorem State.takeColl_keeps {s0 : State} {s : State} {c : Nat} {x : Nat} {slot : Nat} {i : Insn} {src : Nat} {dst : Nat} {kind : Nat} {scope : Nat} {id : Nat} (wF : Free F [.regs, .cache, .cores, .te, .objs, .loader, .host, .fab, .uu, .pwr]) (hK : Keeps F s0 s) :
    Keeps F s0 (State.takeColl s c x slot i src dst kind scope id) := by
  unfold State.takeColl
  repeat' first
    | with_reducible assumption
    | exact wF.sub rfl
    | with_reducible apply State.absentUnit_keeps
    | with_reducible apply State.countColl_keeps
    | with_reducible apply State.failEntry_keeps
    | with_reducible apply State.joinColl_keeps
    | with_reducible apply State.voteFails_keeps
    | with_reducible apply Keeps.ite
    | split
    | (with_reducible apply Keeps.of_fst; assumption)
    | (with_reducible apply Keeps.of_snd; assumption)
    | dsimp only
    | with_reducible apply Keeps.upd
    | with_reducible exact fun _ => rfl
    | exact wF.off rfl

end Sys2Proof.Machine
end

