-- ==== Sys2Proof/Laws/KeepsPasses.lean ====
section
/-! SUPPORT. What every step keeps: the functions of Machine/Passes.lean. -/

namespace Sys2Proof.Machine

open Sys2Proof

variable {F : Area → Bool}

theorem State.openTensor_keeps {s0 : State} {s : State} {sq : Nat} {q : Seq} {h : Nat} (wF : Free F [.regs, .mem, .cache, .hbm, .cores, .seqs, .objs, .fab, .surv, .pwr, .recd, .free]) (hK : Keeps F s0 s) :
    Keeps F s0 (State.openTensor s sq q h) := by
  unfold State.openTensor
  repeat' first
    | with_reducible assumption
    | exact wF.sub rfl
    | with_reducible apply State.fetchVa_keeps
    | with_reducible apply State.modCore_keeps
    | with_reducible apply State.readDescs_keeps
    | with_reducible apply State.supersede_keeps
    | with_reducible apply State.writeDescByte_keeps
    | with_reducible apply Keeps.ite
    | (with_reducible apply Keeps.foldl1; intro _ _ _)
    | (with_reducible apply Keeps.foldl2; intro _ _ _)
    | (with_reducible apply Keeps.foldl; intro _ _ _)
    | split
    | (with_reducible apply Keeps.of_fst; assumption)
    | (with_reducible apply Keeps.of_snd; assumption)
    | dsimp only
    | with_reducible apply Keeps.upd
    | with_reducible exact fun _ => rfl
    | exact wF.off rfl

theorem execPassOpen_keeps {s0 : State} {sq : Nat} {s : State} (wF : Free F [.regs, .mem, .cache, .hbm, .cores, .seqs, .objs, .fab, .surv, .pwr, .recd, .free]) (hK : Keeps F s0 s) :
    KeepsRes F s0 (execPassOpen sq s) := by
  unfold execPassOpen
  repeat' first
    | with_reducible assumption
    | exact wF.sub rfl
    | with_reducible apply State.guarded_keeps
    | with_reducible apply State.openTensor_keeps
    | with_reducible apply State.setSeq_keeps
    | with_reducible apply Keeps.ite
    | with_reducible apply KeepsRes.next
    | exact KeepsRes.refused
    | (with_reducible apply Keeps.foldl1; intro _ _ _)
    | (with_reducible apply Keeps.foldl2; intro _ _ _)
    | (with_reducible apply Keeps.foldl; intro _ _ _)
    | split
    | (with_reducible apply Keeps.of_fst; assumption)
    | (with_reducible apply Keeps.of_snd; assumption)
    | dsimp only
    | with_reducible apply Keeps.upd
    | with_reducible exact fun _ => rfl
    | exact wF.off rfl

theorem execPassSettle_keeps {s0 : State} {core : Nat} {eng : Engine} {s : State} (wF : Free F [.regs, .cache, .cores, .objs, .pwr]) (hK : Keeps F s0 s) :
    KeepsRes F s0 (execPassSettle core eng s) := by
  unfold execPassSettle
  repeat' first
    | with_reducible assumption
    | exact wF.sub rfl
    | with_reducible apply State.modCore_keeps
    | with_reducible apply State.take_keeps
    | with_reducible apply KeepsRes.next
    | exact KeepsRes.refused
    | split
    | (with_reducible apply Keeps.of_fst; assumption)
    | (with_reducible apply Keeps.of_snd; assumption)
    | dsimp only
    | with_reducible apply Keeps.upd
    | with_reducible exact fun _ => rfl
    | exact wF.off rfl

theorem execPassEndCredit_keeps {s0 : State} {core : Nat} {s : State} (wF : Free F [.seqs]) (hK : Keeps F s0 s) :
    KeepsRes F s0 (execPassEndCredit core s) := by
  unfold execPassEndCredit
  repeat' first
    | with_reducible assumption
    | exact wF.sub rfl
    | with_reducible apply State.setSeq_keeps
    | with_reducible apply Keeps.ite
    | with_reducible apply KeepsRes.next
    | exact KeepsRes.refused
    | split
    | (with_reducible apply Keeps.of_fst; assumption)
    | (with_reducible apply Keeps.of_snd; assumption)
    | dsimp only
    | with_reducible apply Keeps.upd
    | with_reducible exact fun _ => rfl
    | exact wF.off rfl

theorem State.settleRuns_keeps {s0 : State} {s : State} {x : Nat} {c : Nat} {r : Nat} {d : Desc} {t : Int} (wF : Free F [.regs, .mem, .cache, .hbm, .cores, .objs, .host, .fab, .surv, .pwr, .recd, .free]) (hK : Keeps F s0 s) :
    Keeps F s0 (State.settleRuns s x c r d t) := by
  unfold State.settleRuns
  repeat' first
    | with_reducible assumption
    | exact wF.sub rfl
    | with_reducible apply State.modCore_keeps
    | with_reducible apply State.rebaseRun_keeps
    | with_reducible apply State.statsErr_keeps
    | (with_reducible apply Keeps.foldl1; intro _ _ _)
    | (with_reducible apply Keeps.foldl2; intro _ _ _)
    | (with_reducible apply Keeps.foldl; intro _ _ _)
    | dsimp only
    | with_reducible apply Keeps.upd
    | with_reducible exact fun _ => rfl
    | exact wF.off rfl

theorem State.mergeMax_keeps {s0 : State} {s : State} {x : Nat} {c : Nat} {d : Desc} (wF : Free F [.regs, .mem, .cache, .hbm, .objs, .fab, .surv, .pwr, .recd, .free]) (hK : Keeps F s0 s) :
    Keeps F s0 (State.mergeMax s x c d) := by
  unfold State.mergeMax
  repeat' first
    | with_reducible assumption
    | exact wF.sub rfl
    | with_reducible apply State.modStats_keeps
    | with_reducible apply Keeps.ite
    | split
    | (with_reducible apply Keeps.of_fst; assumption)
    | (with_reducible apply Keeps.of_snd; assumption)
    | dsimp only
    | with_reducible apply Keeps.upd
    | with_reducible exact fun _ => rfl
    | exact wF.off rfl

theorem State.settleOld_keeps {s0 : State} {s : State} {q : Seq} {p : PassInst} {d : Desc} {t : Int} (wF : Free F [.regs, .mem, .cache, .hbm, .objs, .fab, .surv, .pwr, .recd, .free]) (hK : Keeps F s0 s) :
    Keeps F s0 (State.settleOld s q p d t) := by
  unfold State.settleOld
  repeat' first
    | with_reducible assumption
    | exact wF.sub rfl
    | with_reducible apply State.rebaseBlock_keeps
    | with_reducible apply Keeps.ite
    | (with_reducible apply Keeps.foldl1; intro _ _ _)
    | (with_reducible apply Keeps.foldl2; intro _ _ _)
    | (with_reducible apply Keeps.foldl; intro _ _ _)
    | split
    | (with_reducible apply Keeps.of_fst; assumption)
    | (with_reducible apply Keeps.of_snd; assumption)
    | dsimp only
    | with_reducible apply Keeps.upd
    | with_reducible exact fun _ => rfl
    | exact wF.off rfl

theorem State.kvSettled_keeps {s0 : State} {s : State} {x : Nat} {h : Nat} {t : Int} (wF : Free F [.objs]) (hK : Keeps F s0 s) :
    Keeps F s0 (State.kvSettled s x h t) := by
  unfold State.kvSettled
  repeat' first
    | with_reducible assumption
    | exact wF.sub rfl
    | with_reducible apply State.modCtx_keeps
    | with_reducible apply Keeps.ite
    | split
    | dsimp only
    | with_reducible apply Keeps.upd
    | with_reducible exact fun _ => rfl
    | exact wF.off rfl

theorem State.settleTensor_keeps {s0 : State} {s : State} {q : Seq} {p : PassInst} {h : Nat} (wF : Free F [.regs, .mem, .cache, .hbm, .cores, .objs, .host, .fab, .surv, .pwr, .recd, .free]) (hK : Keeps F s0 s) :
    Keeps F s0 (State.settleTensor s q p h) := by
  unfold State.settleTensor
  repeat' first
    | with_reducible assumption
    | exact wF.sub rfl
    | with_reducible apply State.kvSettled_keeps
    | with_reducible apply State.mergeMax_keeps
    | with_reducible apply State.readDescs_keeps
    | with_reducible apply State.settleOld_keeps
    | with_reducible apply State.settleRuns_keeps
    | with_reducible apply Keeps.ite
    | (with_reducible apply Keeps.foldl1; intro _ _ _)
    | (with_reducible apply Keeps.foldl2; intro _ _ _)
    | (with_reducible apply Keeps.foldl; intro _ _ _)
    | split
    | (with_reducible apply Keeps.of_fst; assumption)
    | (with_reducible apply Keeps.of_snd; assumption)
    | dsimp only
    | with_reducible apply Keeps.upd
    | with_reducible exact fun _ => rfl
    | exact wF.off rfl

theorem execSettleToken_keeps {s0 : State} {sq : Nat} {s : State} (wF : Free F [.regs, .mem, .cache, .hbm, .cores, .seqs, .objs, .host, .fab, .surv, .pwr, .recd, .free]) (hK : Keeps F s0 s) :
    KeepsRes F s0 (execSettleToken sq s) := by
  unfold execSettleToken
  repeat' first
    | with_reducible assumption
    | exact wF.sub rfl
    | with_reducible apply State.guarded_keeps
    | with_reducible apply State.setSeq_keeps
    | with_reducible apply State.settleTensor_keeps
    | with_reducible apply Keeps.ite
    | with_reducible apply KeepsRes.next
    | exact KeepsRes.refused
    | (with_reducible apply Keeps.foldl1; intro _ _ _)
    | (with_reducible apply Keeps.foldl2; intro _ _ _)
    | (with_reducible apply Keeps.foldl; intro _ _ _)
    | split
    | (with_reducible apply Keeps.of_fst; assumption)
    | (with_reducible apply Keeps.of_snd; assumption)
    | dsimp only
    | with_reducible apply Keeps.upd
    | with_reducible exact fun _ => rfl
    | exact wF.off rfl

theorem State.leadTensor_keeps {s0 : State} {s : State} {q : Seq} {e : PassEnt} {h : Nat} (wF : Free F [.regs, .mem, .cache, .hbm, .objs, .host, .fab, .surv, .pwr, .recd, .free]) (hK : Keeps F s0 s) :
    Keeps F s0 (State.leadTensor s q e h).1 := by
  unfold State.leadTensor
  repeat' first
    | with_reducible assumption
    | exact wF.sub rfl
    | with_reducible apply State.bump_keeps
    | with_reducible apply State.entryError_keeps
    | with_reducible apply State.modStats_keeps
    | with_reducible apply State.raise_keeps
    | with_reducible apply State.readDescs_keeps
    | with_reducible apply State.statsErr_keeps
    | with_reducible apply State.writeDescByte_keeps
    | with_reducible apply Keeps.ite
    | split
    | (with_reducible apply Keeps.of_fst; assumption)
    | (with_reducible apply Keeps.of_snd; assumption)
    | dsimp only
    | with_reducible apply Keeps.upd
    | with_reducible exact fun _ => rfl
    | exact wF.off rfl

theorem State.leadPass_keeps {s0 : State} {s : State} {q : Seq} {e : PassEnt} (wF : Free F [.regs, .mem, .cache, .hbm, .objs, .host, .fab, .surv, .pwr, .recd, .free]) (hK : Keeps F s0 s) :
    Keeps F s0 (State.leadPass s q e).1 := by
  unfold State.leadPass
  repeat' first
    | with_reducible assumption
    | exact wF.sub rfl
    | with_reducible apply State.leadTensor_keeps
    | (with_reducible apply Keeps.foldl1; intro _ _ _)
    | (with_reducible apply Keeps.foldl2; intro _ _ _)
    | (with_reducible apply Keeps.foldl; intro _ _ _)
    | dsimp only
    | with_reducible apply Keeps.upd
    | with_reducible exact fun _ => rfl
    | exact wF.off rfl

theorem State.settledCore_keeps {s0 : State} {s : State} {c : Nat} (wF : Free F [.regs, .cores]) (hK : Keeps F s0 s) :
    Keeps F s0 (State.settledCore s c) := by
  unfold State.settledCore
  repeat' first
    | with_reducible assumption
    | exact wF.sub rfl
    | with_reducible apply State.adopt_keeps
    | with_reducible apply State.modCore_keeps
    | dsimp only
    | with_reducible apply Keeps.upd
    | with_reducible exact fun _ => rfl
    | exact wF.off rfl

theorem execSettleDoneToken_keeps {s0 : State} {sq : Nat} {s : State} (wF : Free F [.regs, .mem, .cache, .hbm, .cores, .seqs, .objs, .host, .fab, .surv, .pwr, .recd, .free]) (hK : Keeps F s0 s) :
    KeepsRes F s0 (execSettleDoneToken sq s) := by
  unfold execSettleDoneToken
  repeat' first
    | with_reducible assumption
    | exact wF.sub rfl
    | with_reducible apply State.guarded_keeps
    | with_reducible apply State.leadPass_keeps
    | with_reducible apply State.raise_keeps
    | with_reducible apply State.setSeq_keeps
    | with_reducible apply State.settledCore_keeps
    | with_reducible apply Keeps.ite
    | with_reducible apply KeepsRes.next
    | exact KeepsRes.refused
    | (with_reducible apply Keeps.foldl1; intro _ _ _)
    | (with_reducible apply Keeps.foldl2; intro _ _ _)
    | (with_reducible apply Keeps.foldl; intro _ _ _)
    | split
    | (with_reducible apply Keeps.of_fst; assumption)
    | (with_reducible apply Keeps.of_snd; assumption)
    | dsimp only
    | with_reducible apply Keeps.upd
    | with_reducible exact fun _ => rfl
    | exact wF.off rfl

end Sys2Proof.Machine
end

