-- ==== Sys2Proof/Laws/KeepsTensor.lean ====
section
/-! SUPPORT. What every step keeps: the functions of Machine/Tensor.lean. -/

namespace Sys2Proof.Machine

open Sys2Proof

variable {F : Area → Bool}

theorem State.setUnit_keeps {s0 : State} {s : State} {c : Nat} {u : Nat} {k : TeUnitSt} (wF : Free F [.te]) (hK : Keeps F s0 s) :
    Keeps F s0 (State.setUnit s c u k) := by
  unfold State.setUnit
  repeat' first
    | with_reducible assumption
    | exact wF.sub rfl
    | dsimp only
    | with_reducible apply Keeps.upd
    | with_reducible exact fun _ => rfl
    | exact wF.off rfl

theorem State.matStop_keeps {s0 : State} {s : State} {c : Nat} {x2 : MatStop} (wF : Free F [.regs, .te, .objs, .loader, .host, .fab]) (hK : Keeps F s0 s) :
    Keeps F s0 (State.matStop s c x2) := by
  unfold State.matStop
  repeat' first
    | with_reducible assumption
    | exact wF.sub rfl
    | with_reducible apply State.bump_keeps
    | with_reducible apply State.entryError_keeps
    | with_reducible apply State.faultCore_keeps
    | with_reducible apply Keeps.ite
    | split
    | (with_reducible apply Keeps.of_fst; assumption)
    | (with_reducible apply Keeps.of_snd; assumption)
    | dsimp only
    | with_reducible apply Keeps.upd
    | with_reducible exact fun _ => rfl
    | exact wF.off rfl

theorem State.countTile_keeps {s0 : State} {s : State} {c : Nat} {t0 : Tile} {t : Tile} {adds : Nat} {w : Nat × Nat} (wF : Free F [.regs]) (hK : Keeps F s0 s) :
    Keeps F s0 (State.countTile s c t0 t adds w) := by
  unfold State.countTile
  repeat' first
    | with_reducible assumption
    | exact wF.sub rfl
    | with_reducible apply State.bump_keeps
    | with_reducible apply State.setBit_keeps
    | with_reducible apply Keeps.ite
    | split
    | dsimp only
    | with_reducible apply Keeps.upd
    | with_reducible exact fun _ => rfl
    | exact wF.off rfl

theorem State.closeBlock_keeps {s0 : State} {s : State} {c : Nat} {u : Nat} {q : Seq} (wF : Free F [.regs, .te]) (hK : Keeps F s0 s) :
    Keeps F s0 (State.closeBlock s c u q) := by
  unfold State.closeBlock
  repeat' first
    | with_reducible assumption
    | exact wF.sub rfl
    | with_reducible apply State.countTile_keeps
    | with_reducible apply State.setUnit_keeps
    | with_reducible apply Keeps.ite
    | split
    | (with_reducible apply Keeps.of_fst; assumption)
    | (with_reducible apply Keeps.of_snd; assumption)
    | dsimp only
    | with_reducible apply Keeps.upd
    | with_reducible exact fun _ => rfl
    | exact wF.off rfl

theorem State.issueUnit_keeps {s0 : State} {s : State} {c : Nat} {x : Nat} {q : Seq} {f : MatF} {o : MatOps} {b : TileBox} {pos : Nat} {ordinal : Nat} {u : Nat × Nat} (wF : Free F [.regs, .te]) (hK : Keeps F s0 s) :
    Keeps F s0 (State.issueUnit s c x q f o b pos ordinal u) := by
  unfold State.issueUnit
  repeat' first
    | with_reducible assumption
    | exact wF.sub rfl
    | with_reducible apply State.adopt_keeps
    | with_reducible apply State.bump_keeps
    | with_reducible apply State.closeBlock_keeps
    | with_reducible apply State.countTile_keeps
    | with_reducible apply State.setUnit_keeps
    | with_reducible apply Keeps.ite
    | split
    | dsimp only
    | with_reducible apply Keeps.upd
    | with_reducible exact fun _ => rfl
    | exact wF.off rfl

theorem State.issueTile_keeps {s0 : State} {s : State} {c : Nat} {x : Nat} {q : Seq} {f : MatF} {o : MatOps} {b : TileBox} {pos : Nat} {ordinal : Nat} (wF : Free F [.regs, .te]) (hK : Keeps F s0 s) :
    Keeps F s0 (State.issueTile s c x q f o b pos ordinal) := by
  unfold State.issueTile
  repeat' first
    | with_reducible assumption
    | exact wF.sub rfl
    | with_reducible apply State.issueUnit_keeps
    | (with_reducible apply Keeps.foldl1; intro _ _ _)
    | (with_reducible apply Keeps.foldl2; intro _ _ _)
    | (with_reducible apply Keeps.foldl; intro _ _ _)
    | dsimp only
    | with_reducible apply Keeps.upd
    | with_reducible exact fun _ => rfl
    | exact wF.off rfl

theorem State.teErr_keeps {s0 : State} {s : State} {c : Nat} {e : CoreErr} (wF : Free F [.regs, .cache, .cores, .te, .objs, .loader]) (hK : Keeps F s0 s) :
    Keeps F s0 (State.teErr s c e).1 := by
  unfold State.teErr
  repeat' first
    | with_reducible assumption
    | exact wF.sub rfl
    | with_reducible apply State.coreErr_keeps
    | with_reducible apply State.faultCore_keeps
    | with_reducible apply State.modCore_keeps
    | with_reducible apply State.setBit_keeps
    | with_reducible apply Keeps.ite
    | split
    | dsimp only
    | with_reducible apply Keeps.upd
    | with_reducible exact fun _ => rfl
    | exact wF.off rfl

theorem State.placeTile_keeps {s0 : State} {s : State} {c : Nat} {f : MatF} {k : Nat} {o : MatOps} {pos : Nat} (wF : Free F [.cores, .te]) (hK : Keeps F s0 s) :
    Keeps F s0 (State.placeTile s c f k o pos) := by
  unfold State.placeTile
  repeat' first
    | with_reducible assumption
    | exact wF.sub rfl
    | with_reducible apply State.newWork_keeps
    | with_reducible apply State.setUnit_keeps
    | (with_reducible apply Keeps.foldl1; intro _ _ _)
    | (with_reducible apply Keeps.foldl2; intro _ _ _)
    | (with_reducible apply Keeps.foldl; intro _ _ _)
    | dsimp only
    | with_reducible apply Keeps.upd
    | with_reducible exact fun _ => rfl
    | exact wF.off rfl

theorem execMatmul_keeps {s0 : State} {core : Nat} {err : CoreErr} {s : State} (wF : Free F [.regs, .cache, .cores, .te, .objs, .loader, .host, .fab, .pwr]) (hK : Keeps F s0 s) :
    KeepsRes F s0 (execMatmul core err s) := by
  unfold execMatmul
  repeat' first
    | with_reducible assumption
    | exact wF.sub rfl
    | with_reducible apply State.issueTile_keeps
    | with_reducible apply State.matStop_keeps
    | with_reducible apply State.placeTile_keeps
    | with_reducible apply State.take_keeps
    | with_reducible apply State.teErr_keeps
    | with_reducible apply Keeps.ite
    | with_reducible apply KeepsRes.next
    | exact KeepsRes.refused
    | split
    | (with_reducible apply Keeps.of_fst; assumption)
    | (with_reducible apply Keeps.of_snd; assumption)
    | dsimp only
    | with_reducible apply Keeps.upd
    | with_reducible exact fun _ => rfl
    | exact wF.off rfl

theorem State.putDrain_keeps {s0 : State} {s : State} {c : Nat} {q : Seq} {j : DrainJob} {u : Nat} (wF : Free F [.regs, .te]) (hK : Keeps F s0 s) :
    Keeps F s0 (State.putDrain s c q j u) := by
  unfold State.putDrain
  repeat' first
    | with_reducible assumption
    | exact wF.sub rfl
    | with_reducible apply State.closeBlock_keeps
    | with_reducible apply State.setUnit_keeps
    | dsimp only
    | with_reducible apply Keeps.upd
    | with_reducible exact fun _ => rfl
    | exact wF.off rfl

theorem State.drainUnit_keeps {s0 : State} {s : State} {c : Nat} {q : Seq} {j : DrainJob} {f : MatF} {b : TileBox} {u : Nat × Nat} (wF : Free F [.regs, .te]) (hK : Keeps F s0 s) :
    Keeps F s0 (State.drainUnit s c q j f b u) := by
  unfold State.drainUnit
  repeat' first
    | with_reducible assumption
    | exact wF.sub rfl
    | with_reducible apply State.putDrain_keeps
    | with_reducible apply State.setUnit_keeps
    | split
    | (with_reducible apply Keeps.of_fst; assumption)
    | (with_reducible apply Keeps.of_snd; assumption)
    | dsimp only
    | with_reducible apply Keeps.upd
    | with_reducible exact fun _ => rfl
    | exact wF.off rfl

theorem State.startDrain_keeps {s0 : State} {s : State} {c : Nat} {q : Seq} {f : MatF} {b : TileBox} {d : Desc} {us : List (Nat × Nat)} (wF : Free F [.regs, .cores, .te]) (hK : Keeps F s0 s) :
    Keeps F s0 (State.startDrain s c q f b d us) := by
  unfold State.startDrain
  repeat' first
    | with_reducible assumption
    | exact wF.sub rfl
    | with_reducible apply State.drainUnit_keeps
    | with_reducible apply State.newWork_keeps
    | (with_reducible apply Keeps.foldl1; intro _ _ _)
    | (with_reducible apply Keeps.foldl2; intro _ _ _)
    | (with_reducible apply Keeps.foldl; intro _ _ _)
    | dsimp only
    | with_reducible apply Keeps.upd
    | with_reducible exact fun _ => rfl
    | exact wF.off rfl

theorem State.dropTile_keeps {s0 : State} {s : State} {c : Nat} {u : Nat × Nat} (wF : Free F [.cores, .te]) (hK : Keeps F s0 s) :
    Keeps F s0 (State.dropTile s c u) := by
  unfold State.dropTile
  repeat' first
    | with_reducible assumption
    | exact wF.sub rfl
    | with_reducible apply State.endWork_keeps
    | with_reducible apply State.setUnit_keeps
    | with_reducible apply Keeps.ite
    | split
    | (with_reducible apply Keeps.of_fst; assumption)
    | (with_reducible apply Keeps.of_snd; assumption)
    | dsimp only
    | with_reducible apply Keeps.upd
    | with_reducible exact fun _ => rfl
    | exact wF.off rfl

theorem State.dropTiles_keeps {s0 : State} {s : State} {c : Nat} {e : MatStop} {us : List (Nat × Nat)} (wF : Free F [.cores, .te]) (hK : Keeps F s0 s) :
    Keeps F s0 (State.dropTiles s c e us) := by
  unfold State.dropTiles
  repeat' first
    | with_reducible assumption
    | exact wF.sub rfl
    | with_reducible apply State.dropTile_keeps
    | with_reducible apply Keeps.ite
    | (with_reducible apply Keeps.foldl1; intro _ _ _)
    | (with_reducible apply Keeps.foldl2; intro _ _ _)
    | (with_reducible apply Keeps.foldl; intro _ _ _)
    | split
    | dsimp only
    | with_reducible apply Keeps.upd
    | with_reducible exact fun _ => rfl
    | exact wF.off rfl

theorem execDrain_keeps {s0 : State} {core : Nat} {s : State} (wF : Free F [.regs, .cache, .cores, .te, .ge, .seqs, .objs, .loader, .host, .fab, .surv, .pwr, .recd]) (hK : Keeps F s0 s) :
    KeepsRes F s0 (execDrain core s) := by
  unfold execDrain
  repeat' first
    | with_reducible assumption
    | exact wF.sub rfl
    | with_reducible apply State.dropTiles_keeps
    | with_reducible apply State.endKernelOf_keeps
    | with_reducible apply State.matStop_keeps
    | with_reducible apply State.startDrain_keeps
    | with_reducible apply State.take_keeps
    | with_reducible apply Keeps.ite
    | with_reducible apply KeepsRes.next
    | exact KeepsRes.refused
    | split
    | (with_reducible apply Keeps.of_fst; assumption)
    | (with_reducible apply Keeps.of_snd; assumption)
    | dsimp only
    | with_reducible apply Keeps.upd
    | with_reducible exact fun _ => rfl
    | exact wF.off rfl

theorem State.releaseTile_keeps {s0 : State} {s : State} {c : Nat} {u : Nat} (wF : Free F [.regs, .cores, .te, .ge, .seqs, .objs, .loader, .host, .fab, .surv, .recd]) (hK : Keeps F s0 s) :
    Keeps F s0 (State.releaseTile s c u) := by
  unfold State.releaseTile
  repeat' first
    | with_reducible assumption
    | exact wF.sub rfl
    | with_reducible apply State.finishWork_keeps
    | with_reducible apply State.issueTile_keeps
    | with_reducible apply State.putDrain_keeps
    | with_reducible apply State.setUnit_keeps
    | with_reducible apply Keeps.ite
    | (with_reducible apply Keeps.foldl1; intro _ _ _)
    | (with_reducible apply Keeps.foldl2; intro _ _ _)
    | (with_reducible apply Keeps.foldl; intro _ _ _)
    | split
    | (with_reducible apply Keeps.of_fst; assumption)
    | (with_reducible apply Keeps.of_snd; assumption)
    | dsimp only
    | with_reducible apply Keeps.upd
    | with_reducible exact fun _ => rfl
    | exact wF.off rfl

theorem State.swapUnit_keeps {s0 : State} {s : State} {c : Nat} {u : Nat} (wF : Free F [.regs, .cores, .te, .ge, .seqs, .objs, .loader, .host, .fab, .surv, .recd]) (hK : Keeps F s0 s) :
    Keeps F s0 (State.swapUnit s c u) := by
  unfold State.swapUnit
  repeat' first
    | with_reducible assumption
    | exact wF.sub rfl
    | with_reducible apply State.releaseTile_keeps
    | with_reducible apply State.setUnit_keeps
    | dsimp only
    | with_reducible apply Keeps.upd
    | with_reducible exact fun _ => rfl
    | exact wF.off rfl

theorem execTileSwap_keeps {s0 : State} {core : Nat} {unit : TeUnit} {s : State} (wF : Free F [.regs, .cores, .te, .ge, .seqs, .objs, .loader, .host, .fab, .surv, .recd]) (hK : Keeps F s0 s) :
    KeepsRes F s0 (execTileSwap core unit s) := by
  unfold execTileSwap
  repeat' first
    | with_reducible assumption
    | exact wF.sub rfl
    | with_reducible apply State.bump_keeps
    | with_reducible apply State.setUnit_keeps
    | with_reducible apply State.swapUnit_keeps
    | with_reducible apply Keeps.ite
    | with_reducible apply KeepsRes.next
    | exact KeepsRes.refused
    | split
    | dsimp only
    | with_reducible apply Keeps.upd
    | with_reducible exact fun _ => rfl
    | exact wF.off rfl

theorem State.writeEls_keeps {s0 : State} {s : State} {c : Nat} {x : Nat} {q : Seq} {j : DrainJob} {es : List DrainEl} (wF : Free F [.regs, .mem, .cache, .hbm, .fab, .surv, .pwr, .recd, .free]) (hK : Keeps F s0 s) :
    Keeps F s0 (State.writeEls s c x q j es) := by
  unfold State.writeEls
  repeat' first
    | with_reducible assumption
    | exact wF.sub rfl
    | with_reducible apply State.setElem_keeps
    | with_reducible apply Keeps.ite
    | (with_reducible apply Keeps.foldl1; intro _ _ _)
    | (with_reducible apply Keeps.foldl2; intro _ _ _)
    | (with_reducible apply Keeps.foldl; intro _ _ _)
    | split
    | dsimp only
    | with_reducible apply Keeps.upd
    | with_reducible exact fun _ => rfl
    | exact wF.off rfl

theorem State.clearShadow_keeps {s0 : State} {s : State} {c : Nat} {e : Nat × Tile × DrainJob} (wF : Free F [.regs, .te, .surv, .recd]) (hK : Keeps F s0 s) :
    Keeps F s0 (State.clearShadow s c e) := by
  unfold State.clearShadow
  repeat' first
    | with_reducible assumption
    | exact wF.sub rfl
    | with_reducible apply State.bump_keeps
    | with_reducible apply State.raise_keeps
    | with_reducible apply State.setUnit_keeps
    | with_reducible apply Keeps.ite
    | split
    | dsimp only
    | with_reducible apply Keeps.upd
    | with_reducible exact fun _ => rfl
    | exact wF.off rfl

theorem State.commitDrain_keeps {s0 : State} {s : State} {c : Nat} {w : Nat} (wF : Free F [.regs, .mem, .cache, .hbm, .cores, .te, .ge, .seqs, .objs, .loader, .host, .fab, .surv, .pwr, .recd, .free]) (hK : Keeps F s0 s) :
    Keeps F s0 (State.commitDrain s c w) := by
  unfold State.commitDrain
  repeat' first
    | with_reducible assumption
    | exact wF.sub rfl
    | with_reducible apply State.bump_keeps
    | with_reducible apply State.clearShadow_keeps
    | with_reducible apply State.finishWork_keeps
    | with_reducible apply State.narrowUnit_keeps
    | with_reducible apply State.writeEls_keeps
    | with_reducible apply Keeps.ite
    | (with_reducible apply Keeps.foldl1; intro _ _ _)
    | (with_reducible apply Keeps.foldl2; intro _ _ _)
    | (with_reducible apply Keeps.foldl; intro _ _ _)
    | split
    | (with_reducible apply Keeps.of_fst; assumption)
    | (with_reducible apply Keeps.of_snd; assumption)
    | dsimp only
    | with_reducible apply Keeps.upd
    | with_reducible exact fun _ => rfl
    | exact wF.off rfl

theorem execTileDrainCommit_keeps {s0 : State} {core : Nat} {unit : TeUnit} {s : State} (wF : Free F [.regs, .mem, .cache, .hbm, .cores, .te, .ge, .seqs, .objs, .loader, .host, .fab, .surv, .pwr, .recd, .free]) (hK : Keeps F s0 s) :
    KeepsRes F s0 (execTileDrainCommit core unit s) := by
  unfold execTileDrainCommit
  repeat' first
    | with_reducible assumption
    | exact wF.sub rfl
    | with_reducible apply State.commitDrain_keeps
    | with_reducible apply State.guarded_keeps
    | with_reducible apply Keeps.ite
    | with_reducible apply KeepsRes.next
    | exact KeepsRes.refused
    | split
    | (with_reducible apply Keeps.of_fst; assumption)
    | (with_reducible apply Keeps.of_snd; assumption)
    | dsimp only
    | with_reducible apply Keeps.upd
    | with_reducible exact fun _ => rfl
    | exact wF.off rfl

theorem State.swapWork_keeps {s0 : State} {s : State} {c : Nat} {w : Nat} (wF : Free F [.regs, .cores, .te, .ge, .seqs, .objs, .loader, .host, .fab, .surv, .recd]) (hK : Keeps F s0 s) :
    Keeps F s0 (State.swapWork s c w) := by
  unfold State.swapWork
  repeat' first
    | with_reducible assumption
    | exact wF.sub rfl
    | with_reducible apply State.swapUnit_keeps
    | with_reducible apply Keeps.ite
    | (with_reducible apply Keeps.foldl1; intro _ _ _)
    | (with_reducible apply Keeps.foldl2; intro _ _ _)
    | (with_reducible apply Keeps.foldl; intro _ _ _)
    | split
    | (with_reducible apply Keeps.of_fst; assumption)
    | (with_reducible apply Keeps.of_snd; assumption)
    | dsimp only
    | with_reducible apply Keeps.upd
    | with_reducible exact fun _ => rfl
    | exact wF.off rfl

theorem State.runDrains_keeps {s0 : State} {s : State} {c : Nat} (wF : Free F [.regs, .mem, .cache, .hbm, .cores, .te, .ge, .seqs, .objs, .loader, .host, .fab, .surv, .pwr, .recd, .free]) (hK : Keeps F s0 s) :
    Keeps F s0 (State.runDrains s c) := by
  unfold State.runDrains
  repeat' first
    | with_reducible assumption
    | exact wF.sub rfl
    | with_reducible apply State.commitDrain_keeps
    | with_reducible apply State.swapWork_keeps
    | (with_reducible apply Keeps.foldl1; intro _ _ _)
    | (with_reducible apply Keeps.foldl2; intro _ _ _)
    | (with_reducible apply Keeps.foldl; intro _ _ _)
    | dsimp only
    | with_reducible apply Keeps.upd
    | with_reducible exact fun _ => rfl
    | exact wF.off rfl

theorem State.acceptTile_keeps {s0 : State} {s : State} {c : Nat} {q : Seq} {f : MatF} {pos : Nat} {kt : Nat × Nat} (wF : Free F [.regs, .mem, .cache, .hbm, .cores, .te, .ge, .seqs, .objs, .loader, .host, .fab, .surv, .pwr, .recd, .free]) (hK : Keeps F s0 s) :
    KeepsOpt F s0 (State.acceptTile s c q f pos kt) := by
  unfold State.acceptTile
  repeat' first
    | with_reducible assumption
    | exact wF.sub rfl
    | with_reducible apply State.issueTile_keeps
    | with_reducible apply State.matStop_keeps
    | with_reducible apply State.runDrains_keeps
    | with_reducible apply State.startDrain_keeps
    | with_reducible apply Keeps.ite
    | with_reducible apply KeepsOpt.some
    | exact KeepsOpt.none
    | split
    | (with_reducible apply Keeps.of_fst; assumption)
    | (with_reducible apply Keeps.of_snd; assumption)
    | dsimp only
    | with_reducible apply Keeps.upd
    | with_reducible exact fun _ => rfl
    | exact wF.off rfl

theorem State.readMx_keeps {s0 : State} {s : State} {x : Nat} {f : MatF} (wF : Free F [.regs, .cache, .objs, .pwr]) (hK : Keeps F s0 s) :
    Keeps F s0 (State.readMx s x f) := by
  unfold State.readMx
  repeat' first
    | with_reducible assumption
    | exact wF.sub rfl
    | with_reducible apply State.readDescs_keeps
    | with_reducible apply Keeps.ite
    | split
    | dsimp only
    | with_reducible apply Keeps.upd
    | with_reducible exact fun _ => rfl
    | exact wF.off rfl

theorem execTxAccept_keeps {s0 : State} {core : Nat} {err : CoreErr} {s : State} (wF : Free F [.regs, .mem, .cache, .hbm, .cores, .te, .ge, .seqs, .objs, .loader, .host, .fab, .surv, .pwr, .recd, .free]) (hK : Keeps F s0 s) : KeepsRes F s0 (execTxAccept core err s) := by
  unfold execTxAccept
  refine KeepsRes.next (State.guarded_keeps (wF.sub rfl) hK ?_)
  split
  · split
    · dsimp only
      have hr : ∀ t, Keeps F s0 t → Keeps F s0 (t.teErr core err).1 := fun t k => State.teErr_keeps (wF.sub rfl) k
      split
      · refine hr _ ?_
        repeat' first
          | with_reducible assumption
          | exact wF.sub rfl
          | with_reducible apply State.take_keeps
          | with_reducible apply Keeps.upd
          | with_reducible exact fun _ => rfl
          | exact wF.off rfl
      · refine KeepsOpt.getD (KeepsOpt.foldl (fun o e ho => KeepsOpt.bind ho fun t ht => State.acceptTile_keeps (wF.sub rfl) ht)
          (KeepsOpt.some (Keeps.foldl (fun t f k => State.readMx_keeps (wF.sub rfl) k) (hr _ ?_)))) hK
        repeat' first
          | with_reducible assumption
          | exact wF.sub rfl
          | with_reducible apply State.take_keeps
          | with_reducible apply Keeps.upd
          | with_reducible exact fun _ => rfl
          | exact wF.off rfl
    · exact hK
  · exact hK

theorem execIssueRamp_keeps {s0 : State} {core : Nat} {unit : TeUnit} {workReady : Bool} {s : State} (wF : Free F [.regs, .te]) (hK : Keeps F s0 s) :
    KeepsRes F s0 (execIssueRamp core unit workReady s) := by
  unfold execIssueRamp
  repeat' first
    | with_reducible assumption
    | exact wF.sub rfl
    | with_reducible apply State.bump_keeps
    | with_reducible apply State.setUnit_keeps
    | with_reducible apply Keeps.ite
    | with_reducible apply KeepsRes.next
    | exact KeepsRes.refused
    | split
    | (with_reducible apply Keeps.of_fst; assumption)
    | (with_reducible apply Keeps.of_snd; assumption)
    | dsimp only
    | with_reducible apply Keeps.upd
    | with_reducible exact fun _ => rfl
    | exact wF.off rfl

end Sys2Proof.Machine
end

