-- ==== Sys2Proof/Laws/KeepsGroup.lean ====
section
/-! SUPPORT. What every step keeps: the functions of Machine/Group.lean. -/

namespace Sys2Proof.Machine

open Sys2Proof

variable {F : Area → Bool}

theorem State.setGe_keeps {s0 : State} {s : State} {c : Nat} {g : Ge} (wF : Free F [.ge]) (hK : Keeps F s0 s) :
    Keeps F s0 (State.setGe s c g) := by
  unfold State.setGe
  repeat' first
    | with_reducible assumption
    | exact wF.sub rfl
    | dsimp only
    | with_reducible apply Keeps.upd
    | with_reducible exact fun _ => rfl
    | exact wF.off rfl

theorem execLaunch_keeps {s0 : State} {core : Nat} {s : State} (wF : Free F [.regs, .cache, .cores, .ge, .objs, .pwr]) (hK : Keeps F s0 s) :
    KeepsRes F s0 (execLaunch core s) := by
  unfold execLaunch
  repeat' first
    | with_reducible assumption
    | exact wF.sub rfl
    | with_reducible apply State.adopt_keeps
    | with_reducible apply State.newWork_keeps
    | with_reducible apply State.setGe_keeps
    | with_reducible apply State.take_keeps
    | with_reducible apply KeepsRes.next
    | exact KeepsRes.refused
    | split
    | (with_reducible apply Keeps.of_fst; assumption)
    | (with_reducible apply Keeps.of_snd; assumption)
    | dsimp only
    | with_reducible apply Keeps.upd
    | with_reducible exact fun _ => rfl
    | exact wF.off rfl

theorem execBlockStart_keeps {s0 : State} {core : Nat} {s : State} (wF : Free F [.ge]) (hK : Keeps F s0 s) :
    KeepsRes F s0 (execBlockStart core s) := by
  unfold execBlockStart
  repeat' first
    | with_reducible assumption
    | exact wF.sub rfl
    | with_reducible apply State.setGe_keeps
    | with_reducible apply Keeps.ite
    | with_reducible apply KeepsRes.next
    | exact KeepsRes.refused
    | (with_reducible apply Keeps.foldl1; intro _ _ _)
    | (with_reducible apply Keeps.foldl2; intro _ _ _)
    | (with_reducible apply Keeps.foldl; intro _ _ _)
    | split
    | (with_reducible apply Keeps.of_fst; assumption)
    | (with_reducible apply Keeps.of_snd; assumption)
    | dsimp only
    | with_reducible apply Keeps.upd
    | with_reducible exact fun _ => rfl
    | exact wF.off rfl

theorem execLaunchComplete_keeps {s0 : State} {core : Nat} {slot : Nat} {s : State} (wF : Free F [.regs, .cores, .te, .ge, .seqs, .objs, .loader, .host, .fab, .surv, .recd]) (hK : Keeps F s0 s) :
    KeepsRes F s0 (execLaunchComplete core slot s) := by
  unfold execLaunchComplete
  repeat' first
    | with_reducible assumption
    | exact wF.sub rfl
    | with_reducible apply State.bump_keeps
    | with_reducible apply State.finishWork_keeps
    | with_reducible apply State.setGe_keeps
    | with_reducible apply Keeps.ite
    | with_reducible apply KeepsRes.next
    | exact KeepsRes.refused
    | split
    | (with_reducible apply Keeps.of_fst; assumption)
    | (with_reducible apply Keeps.of_snd; assumption)
    | dsimp only
    | with_reducible apply Keeps.upd
    | with_reducible exact fun _ => rfl
    | exact wF.off rfl

theorem State.setGroup_keeps {s0 : State} {s : State} {c : Nat} {frame : Nat} {g : Group} (wF : Free F [.ge]) (hK : Keeps F s0 s) :
    Keeps F s0 (State.setGroup s c frame g) := by
  unfold State.setGroup
  repeat' first
    | with_reducible assumption
    | exact wF.sub rfl
    | with_reducible apply State.setGe_keeps
    | dsimp only
    | with_reducible apply Keeps.upd
    | with_reducible exact fun _ => rfl
    | exact wF.off rfl

theorem State.issued_keeps {s0 : State} {s : State} {c : Nat} {frame : Nat} {g : Group} (wF : Free F [.regs, .ge]) (hK : Keeps F s0 s) :
    Keeps F s0 (State.issued s c frame g) := by
  unfold State.issued
  repeat' first
    | with_reducible assumption
    | exact wF.sub rfl
    | with_reducible apply State.bump_keeps
    | with_reducible apply State.setGroup_keeps
    | dsimp only
    | with_reducible apply Keeps.upd
    | with_reducible exact fun _ => rfl
    | exact wF.off rfl

theorem State.threadFault_keeps {s0 : State} {s : State} {c : Nat} {t : Thread} {code : Nat} {lane : Nat} (wF : Free F [.te, .objs, .loader]) (hK : Keeps F s0 s) :
    Keeps F s0 (State.threadFault s c t code lane) := by
  unfold State.threadFault
  repeat' first
    | with_reducible assumption
    | exact wF.sub rfl
    | with_reducible apply State.faultCore_keeps
    | dsimp only
    | with_reducible apply Keeps.upd
    | with_reducible exact fun _ => rfl
    | exact wF.off rfl

theorem State.groupFault_keeps {s0 : State} {s : State} {c : Nat} {t : Thread} {code : Nat} (wF : Free F [.te, .objs, .loader]) (hK : Keeps F s0 s) :
    Keeps F s0 (State.groupFault s c t code) := by
  unfold State.groupFault
  repeat' first
    | with_reducible assumption
    | exact wF.sub rfl
    | with_reducible apply State.threadFault_keeps
    | dsimp only
    | with_reducible apply Keeps.upd
    | with_reducible exact fun _ => rfl
    | exact wF.off rfl

theorem State.groupErr_keeps {s0 : State} {s : State} {c : Nat} {t : Thread} {err : CoreErr} (wF : Free F [.regs, .cache, .cores, .te, .objs, .loader]) (hK : Keeps F s0 s) :
    Keeps F s0 (State.groupErr s c t err).1 := by
  unfold State.groupErr
  repeat' first
    | with_reducible assumption
    | exact wF.sub rfl
    | with_reducible apply State.coreErr_keeps
    | with_reducible apply State.countCmUe_keeps
    | with_reducible apply State.groupFault_keeps
    | with_reducible apply State.modCore_keeps
    | split
    | (with_reducible apply Keeps.of_fst; assumption)
    | (with_reducible apply Keeps.of_snd; assumption)
    | dsimp only
    | with_reducible apply Keeps.upd
    | with_reducible exact fun _ => rfl
    | exact wF.off rfl

theorem State.frameParity_keeps {s0 : State} {s : State} {c : Nat} {t : Thread} (wF : Free F [.regs, .cache, .cores, .te, .objs, .loader]) (hK : Keeps F s0 s) :
    Keeps F s0 (State.frameParity s c t) := by
  unfold State.frameParity
  repeat' first
    | with_reducible assumption
    | exact wF.sub rfl
    | with_reducible apply State.groupErr_keeps
    | dsimp only
    | with_reducible apply Keeps.upd
    | with_reducible exact fun _ => rfl
    | exact wF.off rfl

theorem execIntegerAndCompare_keeps {s0 : State} {core : Nat} {frame : Nat} {parity : Bool} {s : State} (wF : Free F [.regs, .cache, .cores, .te, .ge, .objs, .loader]) (hK : Keeps F s0 s) :
    KeepsRes F s0 (execIntegerAndCompare core frame parity s) := by
  unfold execIntegerAndCompare
  repeat' first
    | with_reducible assumption
    | exact wF.sub rfl
    | with_reducible apply State.frameParity_keeps
    | with_reducible apply State.issued_keeps
    | with_reducible apply Keeps.ite
    | with_reducible apply KeepsRes.next
    | exact KeepsRes.refused
    | split
    | (with_reducible apply Keeps.of_fst; assumption)
    | (with_reducible apply Keeps.of_snd; assumption)
    | dsimp only
    | with_reducible apply Keeps.upd
    | with_reducible exact fun _ => rfl
    | exact wF.off rfl

theorem fpLane_keeps {s0 : State} {op : FpOp} {w : TWord} {g0 : Group} {u : List W32} {r : State × Group} {l : Nat} (wF : Free F [.free]) (h : Keeps F s0 r.1) :
    Keeps F s0 (fpLane op w g0 u r l).1 := by
  unfold fpLane
  split
  · exact h
  · exact State.draw_keeps (wF.sub rfl) h

theorem execFpArithmetic_keeps {s0 : State} {core : Nat} {frame : Nat} {op : FpOp} {parity : Bool} {s : State} (wF : Free F [.regs, .cache, .cores, .te, .ge, .objs, .loader, .host, .fab, .free]) (hK : Keeps F s0 s) :
    KeepsRes F s0 (execFpArithmetic core frame op parity s) := by
  unfold execFpArithmetic
  repeat' first
    | with_reducible assumption
    | exact wF.sub rfl
    | with_reducible apply State.entryError_keeps
    | with_reducible apply State.frameParity_keeps
    | with_reducible apply State.issued_keeps
    | with_reducible apply fpLane_keeps
    | with_reducible apply Keeps.ite
    | with_reducible apply KeepsRes.next
    | exact KeepsRes.refused
    | (with_reducible apply Keeps.foldl1; intro _ _ _)
    | (with_reducible apply Keeps.foldl2; intro _ _ _)
    | (with_reducible apply Keeps.foldl; intro _ _ _)
    | split
    | (with_reducible apply Keeps.of_fst; assumption)
    | (with_reducible apply Keeps.of_snd; assumption)
    | dsimp only
    | with_reducible apply Keeps.upd
    | with_reducible exact fun _ => rfl
    | exact wF.off rfl

theorem State.lsInsn_keeps {s0 s : State} {core frame n : Nat} {err : CoreErr} {t : Thread} {f : State → State × Group} (wF : Free F [.regs, .cache, .cores, .te, .ge, .objs, .loader]) (h : Keeps F s0 s)
    (hf : ∀ t, Keeps F s0 t → Keeps F s0 (f t).1) : Keeps F s0 (State.lsInsn s core frame n err t f) := by
  unfold State.lsInsn
  repeat' first
    | with_reducible assumption
    | exact wF.sub rfl
    | with_reducible apply State.threadFault_keeps
    | with_reducible apply State.issued_keeps
    | with_reducible apply hf
    | with_reducible apply State.groupErr_keeps
    | dsimp only
    | split

theorem execLocalStoreLoad_keeps {s0 : State} {core : Nat} {frame : Nat} {width : LsWidth} {err : CoreErr} {s : State} (wF : Free F [.regs, .cache, .cores, .te, .ge, .objs, .loader]) (hK : Keeps F s0 s) :
    KeepsRes F s0 (execLocalStoreLoad core frame width err s) := by
  unfold execLocalStoreLoad
  repeat' first
    | with_reducible assumption
    | exact wF.sub rfl
    | (with_reducible refine State.lsInsn_keeps (wF.sub rfl) ?_ (fun _ _ => ?_))
    | with_reducible apply Keeps.ite
    | with_reducible apply KeepsRes.next
    | exact KeepsRes.refused
    | split
    | (with_reducible apply Keeps.of_fst; assumption)
    | (with_reducible apply Keeps.of_snd; assumption)
    | dsimp only
    | with_reducible apply Keeps.upd
    | with_reducible exact fun _ => rfl
    | exact wF.off rfl

theorem execLocalStoreStore_keeps {s0 : State} {core : Nat} {frame : Nat} {width : LsWidth} {err : CoreErr} {s : State} (wF : Free F [.regs, .mem, .cache, .cores, .te, .ge, .objs, .loader]) (hK : Keeps F s0 s) :
    KeepsRes F s0 (execLocalStoreStore core frame width err s) := by
  unfold execLocalStoreStore
  repeat' first
    | with_reducible assumption
    | exact wF.sub rfl
    | (with_reducible refine State.lsInsn_keeps (wF.sub rfl) ?_ (fun _ _ => ?_))
    | with_reducible apply State.lsWrite_keeps
    | with_reducible apply Keeps.ite
    | with_reducible apply KeepsRes.next
    | exact KeepsRes.refused
    | (with_reducible apply Keeps.foldl1; intro _ _ _)
    | (with_reducible apply Keeps.foldl2; intro _ _ _)
    | (with_reducible apply Keeps.foldl; intro _ _ _)
    | split
    | (with_reducible apply Keeps.of_fst; assumption)
    | (with_reducible apply Keeps.of_snd; assumption)
    | dsimp only
    | with_reducible apply Keeps.upd
    | with_reducible exact fun _ => rfl
    | exact wF.off rfl

theorem atomicLane_keeps {s0 : State} {core : Nat} {op : AtomicKind} {t : Thread} {r : State × Group} {l : Nat} (wF : Free F [.mem]) (h : Keeps F s0 r.1) :
    Keeps F s0 (atomicLane core op t r l).1 := State.lsWrite_keeps (wF.sub rfl) h

theorem execLocalStoreAtomic_keeps {s0 : State} {core : Nat} {frame : Nat} {op : AtomicKind} {err : CoreErr} {s : State} (wF : Free F [.regs, .mem, .cache, .cores, .te, .ge, .objs, .loader]) (hK : Keeps F s0 s) :
    KeepsRes F s0 (execLocalStoreAtomic core frame op err s) := by
  unfold execLocalStoreAtomic
  repeat' first
    | with_reducible assumption
    | exact wF.sub rfl
    | (with_reducible refine State.lsInsn_keeps (wF.sub rfl) ?_ (fun _ _ => ?_))
    | with_reducible apply atomicLane_keeps
    | with_reducible apply Keeps.ite
    | with_reducible apply KeepsRes.next
    | exact KeepsRes.refused
    | (with_reducible apply Keeps.foldl1; intro _ _ _)
    | (with_reducible apply Keeps.foldl2; intro _ _ _)
    | (with_reducible apply Keeps.foldl; intro _ _ _)
    | split
    | (with_reducible apply Keeps.of_fst; assumption)
    | (with_reducible apply Keeps.of_snd; assumption)
    | dsimp only
    | with_reducible apply Keeps.upd
    | with_reducible exact fun _ => rfl
    | exact wF.off rfl

theorem execNarrowStore_keeps {s0 : State} {core frame : Nat} {err : CoreErr} {s : State} (wF : Free F [.regs, .mem, .cache, .hbm, .cores, .te, .ge, .seqs, .objs, .loader, .host, .fab, .surv, .pwr, .recd, .free]) (hK : Keeps F s0 s) :
    KeepsRes F s0 (execNarrowStore core frame err s) := by
  unfold execNarrowStore
  refine KeepsRes.next (State.guarded_keeps (wF.sub rfl) hK ?_)
  split
  · rename_i t q1 q h1 h2
    with_reducible apply Keeps.ite
    · extract_lets g low o next sd
      have hd : Keeps F s0 sd := State.readDescs_keeps (wF.sub rfl) hK
      have he : Keeps F s0 (sd.groupErr core t err).1 := State.groupErr_keeps (wF.sub rfl) hd
      split
      · exact State.issued_keeps (wF.sub rfl) (State.entryError_keeps (wF.sub rfl) hd)
      · with_reducible apply Keeps.ite
        · dsimp only
          split
          · exact he
          · refine State.issued_keeps (wF.sub rfl) ?_
            with_reducible apply Keeps.ite
            · exact State.narrowUnit_keeps (wF.sub rfl) he
            · exact Keeps.foldl (fun t e => State.setElem_keeps (wF.sub rfl)) he
        · exact State.groupFault_keeps (wF.sub rfl) hd
    · exact hK
  · exact hK

theorem execLaneExchange_keeps {s0 : State} {core : Nat} {frame : Nat} {parity : Bool} {s : State} (wF : Free F [.regs, .cache, .cores, .te, .ge, .objs, .loader]) (hK : Keeps F s0 s) :
    KeepsRes F s0 (execLaneExchange core frame parity s) := by
  unfold execLaneExchange
  repeat' first
    | with_reducible assumption
    | exact wF.sub rfl
    | with_reducible apply State.frameParity_keeps
    | with_reducible apply State.issued_keeps
    | with_reducible apply Keeps.ite
    | with_reducible apply KeepsRes.next
    | exact KeepsRes.refused
    | split
    | (with_reducible apply Keeps.of_fst; assumption)
    | (with_reducible apply Keeps.of_snd; assumption)
    | dsimp only
    | with_reducible apply Keeps.upd
    | with_reducible exact fun _ => rfl
    | exact wF.off rfl

theorem execRndw_keeps {s0 : State} {core : Nat} {frame : Nat} {parity : Bool} {s : State} (wF : Free F [.regs, .cache, .cores, .te, .ge, .objs, .loader]) (hK : Keeps F s0 s) :
    KeepsRes F s0 (execRndw core frame parity s) := by
  unfold execRndw
  repeat' first
    | with_reducible assumption
    | exact wF.sub rfl
    | with_reducible apply State.frameParity_keeps
    | with_reducible apply State.issued_keeps
    | with_reducible apply Keeps.ite
    | with_reducible apply KeepsRes.next
    | exact KeepsRes.refused
    | split
    | (with_reducible apply Keeps.of_fst; assumption)
    | (with_reducible apply Keeps.of_snd; assumption)
    | dsimp only
    | with_reducible apply Keeps.upd
    | with_reducible exact fun _ => rfl
    | exact wF.off rfl

theorem execRndk_keeps {s0 : State} {core : Nat} {frame : Nat} {parity : Bool} {s : State} (wF : Free F [.regs, .cache, .cores, .te, .ge, .objs, .loader]) (hK : Keeps F s0 s) :
    KeepsRes F s0 (execRndk core frame parity s) := by
  unfold execRndk
  repeat' first
    | with_reducible assumption
    | exact wF.sub rfl
    | with_reducible apply State.frameParity_keeps
    | with_reducible apply State.issued_keeps
    | with_reducible apply Keeps.ite
    | with_reducible apply KeepsRes.next
    | exact KeepsRes.refused
    | split
    | (with_reducible apply Keeps.of_fst; assumption)
    | (with_reducible apply Keeps.of_snd; assumption)
    | dsimp only
    | with_reducible apply Keeps.upd
    | with_reducible exact fun _ => rfl
    | exact wF.off rfl

theorem State.branch_keeps {s0 : State} {s : State} {c : Nat} {frame : Nat} {t : Thread} {paths : List (Nat × BitVec 32)} (wF : Free F [.regs, .te, .ge, .objs, .loader]) (hK : Keeps F s0 s) :
    Keeps F s0 (State.branch s c frame t paths) := by
  unfold State.branch
  repeat' first
    | with_reducible assumption
    | exact wF.sub rfl
    | with_reducible apply State.bump_keeps
    | with_reducible apply State.groupFault_keeps
    | with_reducible apply State.issued_keeps
    | with_reducible apply Keeps.ite
    | split
    | dsimp only
    | with_reducible apply Keeps.upd
    | with_reducible exact fun _ => rfl
    | exact wF.off rfl

theorem execBra_keeps {s0 : State} {core : Nat} {frame : Nat} {parity : Bool} {s : State} (wF : Free F [.regs, .cache, .cores, .te, .ge, .objs, .loader]) (hK : Keeps F s0 s) :
    KeepsRes F s0 (execBra core frame parity s) := by
  unfold execBra
  repeat' first
    | with_reducible assumption
    | exact wF.sub rfl
    | with_reducible apply State.branch_keeps
    | with_reducible apply State.frameParity_keeps
    | with_reducible apply Keeps.ite
    | with_reducible apply KeepsRes.next
    | exact KeepsRes.refused
    | split
    | (with_reducible apply Keeps.of_fst; assumption)
    | (with_reducible apply Keeps.of_snd; assumption)
    | dsimp only
    | with_reducible apply Keeps.upd
    | with_reducible exact fun _ => rfl
    | exact wF.off rfl

theorem execBrx_keeps {s0 : State} {core : Nat} {frame : Nat} {parity : Bool} {s : State} (wF : Free F [.regs, .cache, .cores, .te, .ge, .objs, .loader]) (hK : Keeps F s0 s) :
    KeepsRes F s0 (execBrx core frame parity s) := by
  unfold execBrx
  repeat' first
    | with_reducible assumption
    | exact wF.sub rfl
    | with_reducible apply State.branch_keeps
    | with_reducible apply State.frameParity_keeps
    | with_reducible apply State.threadFault_keeps
    | with_reducible apply Keeps.ite
    | with_reducible apply KeepsRes.next
    | exact KeepsRes.refused
    | split
    | (with_reducible apply Keeps.of_fst; assumption)
    | (with_reducible apply Keeps.of_snd; assumption)
    | dsimp only
    | with_reducible apply Keeps.upd
    | with_reducible exact fun _ => rfl
    | exact wF.off rfl

theorem State.barrier_keeps {s0 : State} {s : State} {c : Nat} {blk : Nat} (wF : Free F [.regs, .ge]) (hK : Keeps F s0 s) :
    Keeps F s0 (State.barrier s c blk) := by
  unfold State.barrier
  repeat' first
    | with_reducible assumption
    | exact wF.sub rfl
    | with_reducible apply State.bump_keeps
    | with_reducible apply State.setGe_keeps
    | with_reducible apply Keeps.ite
    | split
    | (with_reducible apply Keeps.of_fst; assumption)
    | (with_reducible apply Keeps.of_snd; assumption)
    | dsimp only
    | with_reducible apply Keeps.upd
    | with_reducible exact fun _ => rfl
    | exact wF.off rfl

theorem State.modBlock_keeps {s0 : State} {s : State} {c : Nat} {blk : Nat} {f : Block → Block} (wF : Free F [.ge]) (hK : Keeps F s0 s) :
    Keeps F s0 (State.modBlock s c blk f) := by
  unfold State.modBlock
  repeat' first
    | with_reducible assumption
    | exact wF.sub rfl
    | with_reducible apply State.setGe_keeps
    | dsimp only
    | with_reducible apply Keeps.upd
    | with_reducible exact fun _ => rfl
    | exact wF.off rfl

theorem execBar_keeps {s0 : State} {core : Nat} {frame : Nat} {parity : Bool} {s : State} (wF : Free F [.regs, .cache, .cores, .te, .ge, .objs, .loader]) (hK : Keeps F s0 s) :
    KeepsRes F s0 (execBar core frame parity s) := by
  unfold execBar
  repeat' first
    | with_reducible assumption
    | exact wF.sub rfl
    | with_reducible apply State.barrier_keeps
    | with_reducible apply State.frameParity_keeps
    | with_reducible apply State.issued_keeps
    | with_reducible apply State.modBlock_keeps
    | with_reducible apply Keeps.ite
    | with_reducible apply KeepsRes.next
    | exact KeepsRes.refused
    | split
    | (with_reducible apply Keeps.of_fst; assumption)
    | (with_reducible apply Keeps.of_snd; assumption)
    | dsimp only
    | with_reducible apply Keeps.upd
    | with_reducible exact fun _ => rfl
    | exact wF.off rfl

theorem State.leave_keeps {s0 : State} {s : State} {c : Nat} {frame : Nat} {blk : Nat} (wF : Free F [.regs, .ge]) (hK : Keeps F s0 s) :
    Keeps F s0 (State.leave s c frame blk) := by
  unfold State.leave
  repeat' first
    | with_reducible assumption
    | exact wF.sub rfl
    | with_reducible apply State.bump_keeps
    | with_reducible apply State.setGe_keeps
    | with_reducible apply Keeps.ite
    | split
    | (with_reducible apply Keeps.of_fst; assumption)
    | (with_reducible apply Keeps.of_snd; assumption)
    | dsimp only
    | with_reducible apply Keeps.upd
    | with_reducible exact fun _ => rfl
    | exact wF.off rfl

theorem execExit_keeps {s0 : State} {core : Nat} {frame : Nat} {parity : Bool} {s : State} (wF : Free F [.regs, .cache, .cores, .te, .ge, .objs, .loader]) (hK : Keeps F s0 s) :
    KeepsRes F s0 (execExit core frame parity s) := by
  unfold execExit
  repeat' first
    | with_reducible assumption
    | exact wF.sub rfl
    | with_reducible apply State.barrier_keeps
    | with_reducible apply State.frameParity_keeps
    | with_reducible apply State.issued_keeps
    | with_reducible apply State.leave_keeps
    | with_reducible apply State.modBlock_keeps
    | with_reducible apply Keeps.ite
    | with_reducible apply KeepsRes.next
    | exact KeepsRes.refused
    | split
    | (with_reducible apply Keeps.of_fst; assumption)
    | (with_reducible apply Keeps.of_snd; assumption)
    | dsimp only
    | with_reducible apply Keeps.upd
    | with_reducible exact fun _ => rfl
    | exact wF.off rfl

theorem State.stallBarrier_keeps {s0 : State} {s : State} {core : Nat} {block : Nat} (wF : Free F [.regs, .te, .objs, .loader]) (hK : Keeps F s0 s) :
    Keeps F s0 (State.stallBarrier s core block) := by
  unfold State.stallBarrier
  repeat' first
    | with_reducible assumption
    | exact wF.sub rfl
    | with_reducible apply State.faultCore_keeps
    | with_reducible apply State.setBit_keeps
    | split
    | (with_reducible apply Keeps.of_fst; assumption)
    | (with_reducible apply Keeps.of_snd; assumption)
    | dsimp only
    | with_reducible apply Keeps.upd
    | with_reducible exact fun _ => rfl
    | exact wF.off rfl

theorem execBarrierStall_keeps {s0 : State} {core : Nat} {block : Nat} {s : State} (wF : Free F [.regs, .te, .objs, .loader]) (hK : Keeps F s0 s) :
    KeepsRes F s0 (execBarrierStall core block s) := by
  unfold execBarrierStall
  repeat' first
    | with_reducible assumption
    | exact wF.sub rfl
    | with_reducible apply State.stallBarrier_keeps
    | with_reducible apply Keeps.ite
    | with_reducible apply KeepsRes.next
    | exact KeepsRes.refused
    | split
    | (with_reducible apply Keeps.of_fst; assumption)
    | (with_reducible apply Keeps.of_snd; assumption)
    | dsimp only
    | with_reducible apply Keeps.upd
    | with_reducible exact fun _ => rfl
    | exact wF.off rfl

theorem execMrBegin_keeps {s0 : State} {core : Nat} {frame : Nat} {parity : Bool} {s : State} (wF : Free F [.regs, .cache, .cores, .te, .ge, .objs, .loader]) (hK : Keeps F s0 s) :
    KeepsRes F s0 (execMrBegin core frame parity s) := by
  unfold execMrBegin
  repeat' first
    | with_reducible assumption
    | exact wF.sub rfl
    | with_reducible apply State.frameParity_keeps
    | with_reducible apply State.issued_keeps
    | with_reducible apply Keeps.ite
    | with_reducible apply KeepsRes.next
    | exact KeepsRes.refused
    | split
    | (with_reducible apply Keeps.of_fst; assumption)
    | (with_reducible apply Keeps.of_snd; assumption)
    | dsimp only
    | with_reducible apply Keeps.upd
    | with_reducible exact fun _ => rfl
    | exact wF.off rfl

theorem State.diverged_keeps {s0 : State} {s : State} {c : Nat} {t : Thread} (wF : Free F [.regs, .te, .objs, .loader]) (hK : Keeps F s0 s) :
    Keeps F s0 (State.diverged s c t) := by
  unfold State.diverged
  repeat' first
    | with_reducible assumption
    | exact wF.sub rfl
    | with_reducible apply State.groupFault_keeps
    | with_reducible apply State.setBit_keeps
    | dsimp only
    | with_reducible apply Keeps.upd
    | with_reducible exact fun _ => rfl
    | exact wF.off rfl

theorem execMrEnd_keeps {s0 : State} {core : Nat} {frame : Nat} {parity : Bool} {s : State} (wF : Free F [.regs, .cache, .cores, .te, .ge, .objs, .loader]) (hK : Keeps F s0 s) :
    KeepsRes F s0 (execMrEnd core frame parity s) := by
  unfold execMrEnd
  repeat' first
    | with_reducible assumption
    | exact wF.sub rfl
    | with_reducible apply State.diverged_keeps
    | with_reducible apply State.frameParity_keeps
    | with_reducible apply State.issued_keeps
    | with_reducible apply Keeps.ite
    | with_reducible apply KeepsRes.next
    | exact KeepsRes.refused
    | split
    | (with_reducible apply Keeps.of_fst; assumption)
    | (with_reducible apply Keeps.of_snd; assumption)
    | dsimp only
    | with_reducible apply Keeps.upd
    | with_reducible exact fun _ => rfl
    | exact wF.off rfl

theorem execMx_keeps {s0 : State} {core : Nat} {frame : Nat} {parity : Bool} {s : State} (wF : Free F [.regs, .cache, .cores, .te, .ge, .objs, .loader]) (hK : Keeps F s0 s) :
    KeepsRes F s0 (execMx core frame parity s) := by
  unfold execMx
  repeat' first
    | with_reducible assumption
    | exact wF.sub rfl
    | with_reducible apply State.bump_keeps
    | with_reducible apply State.diverged_keeps
    | with_reducible apply State.frameParity_keeps
    | with_reducible apply State.groupFault_keeps
    | with_reducible apply State.issued_keeps
    | with_reducible apply State.setGe_keeps
    | with_reducible apply Keeps.ite
    | with_reducible apply KeepsRes.next
    | exact KeepsRes.refused
    | split
    | (with_reducible apply Keeps.of_fst; assumption)
    | (with_reducible apply Keeps.of_snd; assumption)
    | dsimp only
    | with_reducible apply Keeps.upd
    | with_reducible exact fun _ => rfl
    | exact wF.off rfl

end Sys2Proof.Machine
end

