-- ==== Sys2Proof/Laws/KeepsUpdates.lean ====
section
/-! SUPPORT. What every step keeps: the functions of Machine/Updates.lean. -/

namespace Sys2Proof.Machine

open Sys2Proof

variable {F : Area → Bool}

theorem State.failRecord_keeps {s0 : State} {s : State} {c : Nat} {x : Nat} {a : Nat} {code : Nat} (wF : Free F [.regs, .mem, .cache, .hbm, .fab, .surv, .pwr, .recd, .free]) (hK : Keeps F s0 s) :
    Keeps F s0 (State.failRecord s c x a code) := by
  unfold State.failRecord
  repeat' first
    | with_reducible assumption
    | exact wF.sub rfl
    | with_reducible apply State.vaWrite_keeps
    | with_reducible apply State.writePieces_keeps
    | with_reducible apply Keeps.ite
    | split
    | (with_reducible apply Keeps.of_fst; assumption)
    | (with_reducible apply Keeps.of_snd; assumption)
    | dsimp only
    | with_reducible apply Keeps.upd
    | with_reducible exact fun _ => rfl
    | exact wF.off rfl

theorem State.lowerGrad_keeps {s0 : State} {s : State} {k : Upd} (wF : Free F [.regs, .mem, .cache, .hbm, .objs, .fab, .surv, .pwr, .recd, .free]) (hK : Keeps F s0 s) :
    Keeps F s0 (State.lowerGrad s k) := by
  unfold State.lowerGrad
  repeat' first
    | with_reducible assumption
    | exact wF.sub rfl
    | with_reducible apply State.modStats_keeps
    | with_reducible apply Keeps.ite
    | split
    | (with_reducible apply Keeps.of_fst; assumption)
    | (with_reducible apply Keeps.of_snd; assumption)
    | dsimp only
    | with_reducible apply Keeps.upd
    | with_reducible exact fun _ => rfl
    | exact wF.off rfl

theorem State.openStep_keeps {s0 : State} {s : State} {x : Nat} (wF : Free F [.surv]) (hK : Keeps F s0 s) :
    Keeps F s0 (State.openStep s x) := by
  unfold State.openStep
  repeat' first
    | with_reducible assumption
    | exact wF.sub rfl
    | split
    | (with_reducible apply Keeps.of_fst; assumption)
    | (with_reducible apply Keeps.of_snd; assumption)
    | dsimp only
    | with_reducible apply Keeps.upd
    | with_reducible exact fun _ => rfl
    | exact wF.off rfl

theorem State.readRule_keeps {s0 : State} {s : State} {x : Nat} {a : Nat} {b : List Byte} {master : Nat} {grad : Nat} {mask : Nat} {rows : Nat} (wF : Free F [.regs, .cache, .objs, .pwr]) (hK : Keeps F s0 s) :
    Keeps F s0 (State.readRule s x a b master grad mask rows) := by
  unfold State.readRule
  repeat' first
    | with_reducible assumption
    | exact wF.sub rfl
    | with_reducible apply State.fetchPieces_keeps
    | with_reducible apply State.readDescs_keeps
    | split
    | (with_reducible apply Keeps.of_fst; assumption)
    | (with_reducible apply Keeps.of_snd; assumption)
    | dsimp only
    | with_reducible apply Keeps.upd
    | with_reducible exact fun _ => rfl
    | exact wF.off rfl

theorem State.takeUpdate_keeps {s0 : State} {s : State} {c : Nat} {x : Nat} {slot : Nat} {i : Insn} {ruleH : Nat} {master : Nat} {grad : Nat} {mask : Nat} {rows : Nat} {vote : Nat} (wF : Free F [.regs, .mem, .cache, .hbm, .cores, .te, .objs, .loader, .host, .fab, .uu, .surv, .pwr, .recd, .free]) (hK : Keeps F s0 s) :
    Keeps F s0 (State.takeUpdate s c x slot i ruleH master grad mask rows vote) := by
  unfold State.takeUpdate
  repeat' first
    | with_reducible assumption
    | exact wF.sub rfl
    | with_reducible apply State.absentUnit_keeps
    | with_reducible apply State.failEntry_keeps
    | with_reducible apply State.failRecord_keeps
    | with_reducible apply State.loseUpd_keeps
    | with_reducible apply State.lowerGrad_keeps
    | with_reducible apply State.modXfer_keeps
    | with_reducible apply State.openStep_keeps
    | with_reducible apply State.readRule_keeps
    | with_reducible apply State.startXfer_keeps
    | with_reducible apply Keeps.ite
    | split
    | (with_reducible apply Keeps.of_fst; assumption)
    | (with_reducible apply Keeps.of_snd; assumption)
    | dsimp only
    | with_reducible apply Keeps.upd
    | with_reducible exact fun _ => rfl
    | exact wF.off rfl

theorem State.unitLine_keeps {s0 : State} {s : State} {a : Nat} {bytes : List Byte} (wF : Free F [.regs, .mem, .cache, .hbm, .fab, .surv, .pwr, .recd]) (hK : Keeps F s0 s) :
    Keeps F s0 (State.unitLine s a bytes) := by
  unfold State.unitLine
  repeat' first
    | with_reducible assumption
    | exact wF.sub rfl
    | with_reducible apply State.hbmWrite_keeps
    | with_reducible apply State.modLines_keeps
    | dsimp only
    | with_reducible apply Keeps.upd
    | with_reducible exact fun _ => rfl
    | exact wF.off rfl

theorem State.unitPieces_keeps {s0 s : State} {l : List Piece} {bytes : List Byte} (wF : Free F [.regs, .mem, .cache, .hbm, .fab, .surv, .pwr, .recd]) (h : Keeps F s0 s) : Keeps F s0 (State.unitPieces s l bytes) := by
  induction l generalizing s bytes with
  | nil => exact h
  | cons e l ih =>
    obtain ⟨a, k, p⟩ := e
    exact ih (Keeps.foldl (fun t e => State.unitLine_keeps (wF.sub rfl)) h)

theorem State.unitWrite_keeps {s0 : State} {s : State} {x : Nat} {va : Nat} {bytes : List Byte} (wF : Free F [.regs, .mem, .cache, .hbm, .fab, .surv, .pwr, .recd]) (hK : Keeps F s0 s) :
    Keeps F s0 (State.unitWrite s x va bytes) := by
  unfold State.unitWrite
  repeat' first
    | with_reducible assumption
    | exact wF.sub rfl
    | with_reducible apply State.unitPieces_keeps
    | split
    | (with_reducible apply Keeps.of_fst; assumption)
    | (with_reducible apply Keeps.of_snd; assumption)
    | dsimp only
    | with_reducible apply Keeps.upd
    | with_reducible exact fun _ => rfl
    | exact wF.off rfl

theorem State.unitReads_keeps {s0 : State} {s : State} {unit : Nat} {x : Nat} {sp : List (Nat × Nat)} (wF : Free F [.regs, .pwr]) (hK : Keeps F s0 s) :
    Keeps F s0 (State.unitReads s unit x sp) := by
  unfold State.unitReads
  repeat' first
    | with_reducible assumption
    | exact wF.sub rfl
    | with_reducible apply State.bump_keeps
    | with_reducible apply State.hbmBytesMoved_keeps
    | (with_reducible apply Keeps.foldl1; intro _ _ _)
    | (with_reducible apply Keeps.foldl2; intro _ _ _)
    | (with_reducible apply Keeps.foldl; intro _ _ _)
    | dsimp only
    | with_reducible apply Keeps.upd
    | with_reducible exact fun _ => rfl
    | exact wF.off rfl

theorem State.modUpd_keeps {s0 : State} {s : State} {u : Nat} {f : Upd → Upd} (wF : Free F [.uu]) (hK : Keeps F s0 s) :
    Keeps F s0 (State.modUpd s u f) := by
  unfold State.modUpd
  repeat' first
    | with_reducible assumption
    | exact wF.sub rfl
    | dsimp only
    | with_reducible apply Keeps.upd
    | with_reducible exact fun _ => rfl
    | exact wF.off rfl

theorem State.writeBlock_keeps {s0 : State} {s : State} {k : Upd} {md : Desc} {d : Desc} {j : Nat} {vs : List Exact} (wF : Free F [.regs, .mem, .cache, .hbm, .fab, .surv, .pwr, .recd]) (hK : Keeps F s0 s) :
    Keeps F s0 (State.writeBlock s k md d j vs) := by
  unfold State.writeBlock
  repeat' first
    | with_reducible assumption
    | exact wF.sub rfl
    | with_reducible apply State.unitWrite_keeps
    | dsimp only
    | with_reducible apply Keeps.upd
    | with_reducible exact fun _ => rfl
    | exact wF.off rfl

theorem State.settleUnit_keeps {s0 : State} {s : State} {k : Upd} {a : Nat} {n : Nat} (wF : Free F [.regs, .mem, .cache, .hbm, .fab, .surv, .pwr, .recd]) (hK : Keeps F s0 s) :
    Keeps F s0 (State.settleUnit s k a n) := by
  unfold State.settleUnit
  repeat' first
    | with_reducible assumption
    | exact wF.sub rfl
    | with_reducible apply State.unitLine_keeps
    | with_reducible apply Keeps.ite
    | (with_reducible apply Keeps.foldl1; intro _ _ _)
    | (with_reducible apply Keeps.foldl2; intro _ _ _)
    | (with_reducible apply Keeps.foldl; intro _ _ _)
    | split
    | (with_reducible apply Keeps.of_fst; assumption)
    | (with_reducible apply Keeps.of_snd; assumption)
    | dsimp only
    | with_reducible apply Keeps.upd
    | with_reducible exact fun _ => rfl
    | exact wF.off rfl

theorem State.writeCopy_keeps {s0 : State} {s : State} {k : Upd} {md : Desc} {j : Nat} (wF : Free F [.regs, .mem, .cache, .hbm, .cores, .seqs, .objs, .host, .fab, .surv, .pwr, .recd, .free]) (hK : Keeps F s0 s) :
    Keeps F s0 (State.writeCopy s k md j) := by
  unfold State.writeCopy
  repeat' first
    | with_reducible assumption
    | exact wF.sub rfl
    | with_reducible apply State.narrowUnit_keeps
    | with_reducible apply State.settleUnit_keeps
    | with_reducible apply State.writeBlock_keeps
    | with_reducible apply Keeps.ite
    | split
    | (with_reducible apply Keeps.of_fst; assumption)
    | (with_reducible apply Keeps.of_snd; assumption)
    | dsimp only
    | with_reducible apply Keeps.upd
    | with_reducible exact fun _ => rfl
    | exact wF.off rfl

theorem State.advanceRow_keeps {s0 : State} {s : State} {u : Nat} {unit : Nat} {k : Upd} {j : Nat} (wF : Free F [.regs, .mem, .cache, .hbm, .fab, .uu, .surv, .pwr, .recd]) (hK : Keeps F s0 s) :
    Keeps F s0 (State.advanceRow s u unit k j) := by
  unfold State.advanceRow
  repeat' first
    | with_reducible assumption
    | exact wF.sub rfl
    | with_reducible apply State.bump_keeps
    | with_reducible apply State.modUpd_keeps
    | with_reducible apply State.unitWrite_keeps
    | with_reducible apply Keeps.ite
    | split
    | (with_reducible apply Keeps.of_fst; assumption)
    | (with_reducible apply Keeps.of_snd; assumption)
    | dsimp only
    | with_reducible apply Keeps.upd
    | with_reducible exact fun _ => rfl
    | exact wF.off rfl

theorem State.unitWrote_keeps {s0 : State} {s : State} {unit : Nat} {k : Upd} {md : Desc} {j : Nat} {rs : List Nat} (wF : Free F [.regs]) (hK : Keeps F s0 s) :
    Keeps F s0 (State.unitWrote s unit k md j rs) := by
  unfold State.unitWrote
  repeat' first
    | with_reducible assumption
    | exact wF.sub rfl
    | with_reducible apply State.bump_keeps
    | dsimp only
    | with_reducible apply Keeps.upd
    | with_reducible exact fun _ => rfl
    | exact wF.off rfl

theorem State.frozenBlock_keeps {s0 : State} {s : State} {u : Nat} {unit : Nat} {k : Upd} {md : Desc} {j : Nat} (wF : Free F [.regs, .mem, .cache, .hbm, .cores, .seqs, .objs, .host, .fab, .uu, .surv, .pwr, .recd, .free]) (hK : Keeps F s0 s) :
    Keeps F s0 (State.frozenBlock s u unit k md j) := by
  unfold State.frozenBlock
  repeat' first
    | with_reducible assumption
    | exact wF.sub rfl
    | with_reducible apply State.bump_keeps
    | with_reducible apply State.modUpd_keeps
    | with_reducible apply State.unitWrote_keeps
    | with_reducible apply State.writeCopy_keeps
    | dsimp only
    | with_reducible apply Keeps.upd
    | with_reducible exact fun _ => rfl
    | exact wF.off rfl

theorem State.guardedBlock_keeps {s0 : State} {s : State} {u : Nat} {unit : Nat} {k : Upd} {md : Desc} {j : Nat} (wF : Free F [.regs, .mem, .cache, .hbm, .cores, .seqs, .objs, .host, .fab, .uu, .surv, .pwr, .recd, .free]) (hK : Keeps F s0 s) :
    Keeps F s0 (State.guardedBlock s u unit k md j) := by
  unfold State.guardedBlock
  repeat' first
    | with_reducible assumption
    | exact wF.sub rfl
    | with_reducible apply State.bump_keeps
    | with_reducible apply State.modUpd_keeps
    | with_reducible apply State.setBit_keeps
    | with_reducible apply State.unitWrote_keeps
    | with_reducible apply State.writeCopy_keeps
    | dsimp only
    | with_reducible apply Keeps.upd
    | with_reducible exact fun _ => rfl
    | exact wF.off rfl

theorem State.badBlock_keeps {s0 : State} {s : State} {u : Nat} {k : Upd} {hs : List Nat} (wF : Free F [.regs, .cores, .objs, .host, .fab, .uu]) (hK : Keeps F s0 s) :
    Keeps F s0 (State.badBlock s u k hs) := by
  unfold State.badBlock
  repeat' first
    | with_reducible assumption
    | exact wF.sub rfl
    | with_reducible apply State.countUe_keeps
    | with_reducible apply State.modUpd_keeps
    | with_reducible apply State.xferError_keeps
    | with_reducible apply Keeps.ite
    | (with_reducible apply Keeps.foldl1; intro _ _ _)
    | (with_reducible apply Keeps.foldl2; intro _ _ _)
    | (with_reducible apply Keeps.foldl; intro _ _ _)
    | split
    | dsimp only
    | with_reducible apply Keeps.upd
    | with_reducible exact fun _ => rfl
    | exact wF.off rfl

theorem State.commitUpd_keeps {s0 : State} {s : State} {u : Nat} {unit : Nat} {k : Upd} {md : Desc} {j : Nat} {es : List Elem} (wF : Free F [.regs, .mem, .cache, .hbm, .cores, .seqs, .objs, .host, .fab, .uu, .surv, .pwr, .recd, .free]) (hK : Keeps F s0 s) :
    Keeps F s0 (State.commitUpd s u unit k md j es) := by
  unfold State.commitUpd
  repeat' first
    | with_reducible assumption
    | exact wF.sub rfl
    | with_reducible apply State.advanceRow_keeps
    | with_reducible apply State.bump_keeps
    | with_reducible apply State.modUpd_keeps
    | with_reducible apply State.unitWrote_keeps
    | with_reducible apply State.writeBlock_keeps
    | with_reducible apply State.writeCopy_keeps
    | with_reducible apply Keeps.ite
    | split
    | (with_reducible apply Keeps.of_fst; assumption)
    | (with_reducible apply Keeps.of_snd; assumption)
    | dsimp only
    | with_reducible apply Keeps.upd
    | with_reducible exact fun _ => rfl
    | exact wF.off rfl

theorem State.passBlock_keeps {s0 : State} {s : State} {u : Nat} {unit : Nat} {k : Upd} {md : Desc} {j : Nat} {t : Nat} (wF : Free F [.regs, .mem, .cache, .hbm, .cores, .seqs, .objs, .host, .fab, .uu, .surv, .pwr, .recd, .free]) (hK : Keeps F s0 s) :
    Keeps F s0 (State.passBlock s u unit k md j t) := by
  unfold State.passBlock
  repeat' first
    | with_reducible assumption
    | exact wF.sub rfl
    | with_reducible apply State.badBlock_keeps
    | with_reducible apply State.commitUpd_keeps
    | with_reducible apply State.frozenBlock_keeps
    | with_reducible apply State.guardedBlock_keeps
    | with_reducible apply State.unitReads_keeps
    | with_reducible apply Keeps.ite
    | split
    | dsimp only
    | with_reducible apply Keeps.upd
    | with_reducible exact fun _ => rfl
    | exact wF.off rfl

theorem State.skipBlock_keeps {s0 : State} {s : State} {u : Nat} {unit : Nat} {k : Upd} {md : Desc} {j : Nat} (wF : Free F [.regs, .mem, .cache, .hbm, .cores, .seqs, .objs, .host, .fab, .uu, .surv, .pwr, .recd, .free]) (hK : Keeps F s0 s) :
    Keeps F s0 (State.skipBlock s u unit k md j) := by
  unfold State.skipBlock
  repeat' first
    | with_reducible assumption
    | exact wF.sub rfl
    | with_reducible apply State.badBlock_keeps
    | with_reducible apply State.unitReads_keeps
    | with_reducible apply State.unitWrote_keeps
    | with_reducible apply State.writeCopy_keeps
    | with_reducible apply Keeps.ite
    | split
    | dsimp only
    | with_reducible apply Keeps.upd
    | with_reducible exact fun _ => rfl
    | exact wF.off rfl

theorem State.adoptRate_keeps {s0 : State} {s : State} {unit : Nat} (wF : Free F [.regs]) (hK : Keeps F s0 s) :
    Keeps F s0 (State.adoptRate s unit) := by
  unfold State.adoptRate
  repeat' first
    | with_reducible assumption
    | exact wF.sub rfl
    | with_reducible apply State.adopt_keeps
    | with_reducible apply Keeps.ite
    | split
    | dsimp only
    | with_reducible apply Keeps.upd
    | with_reducible exact fun _ => rfl
    | exact wF.off rfl

theorem execUpdateBlockCommit_keeps {s0 : State} {upd : Nat} {unit : Nat} {err : UnitErr} {s : State} (wF : Free F [.regs, .mem, .cache, .hbm, .cores, .te, .seqs, .objs, .loader, .host, .fab, .uu, .surv, .pwr, .recd, .free]) (hK : Keeps F s0 s) :
    KeepsRes F s0 (execUpdateBlockCommit upd unit err s) := by
  unfold execUpdateBlockCommit
  repeat' first
    | with_reducible assumption
    | exact wF.sub rfl
    | with_reducible apply State.adoptRate_keeps
    | with_reducible apply State.eccHalf_keeps
    | with_reducible apply State.faultCtx_keeps
    | with_reducible apply State.guarded_keeps
    | with_reducible apply State.modUpd_keeps
    | with_reducible apply State.passBlock_keeps
    | with_reducible apply State.reachDie_keeps
    | with_reducible apply State.skipBlock_keeps
    | (with_reducible refine State.underMaps_keeps (wF.sub rfl) ?_ (fun _ _ => ?_))
    | with_reducible apply Keeps.ite
    | with_reducible apply KeepsRes.next
    | exact KeepsRes.refused
    | split
    | (with_reducible apply Keeps.of_fst; assumption)
    | (with_reducible apply Keeps.of_snd; assumption)
    | dsimp only
    | with_reducible apply Keeps.upd
    | with_reducible exact fun _ => rfl
    | exact wF.off rfl

theorem State.writeVector_keeps {s0 : State} {s : State} {k : Upd} {d : Desc} {vs : List Exact} (wF : Free F [.regs, .mem, .cache, .hbm, .fab, .surv, .pwr, .recd]) (hK : Keeps F s0 s) :
    Keeps F s0 (State.writeVector s k d vs) := by
  unfold State.writeVector
  repeat' first
    | with_reducible assumption
    | exact wF.sub rfl
    | with_reducible apply State.unitWrite_keeps
    | dsimp only
    | with_reducible apply Keeps.upd
    | with_reducible exact fun _ => rfl
    | exact wF.off rfl

theorem State.firstPassReads_keeps {s0 : State} {s : State} {k : Upd} {md : Desc} {rd : Desc} {cd : Desc} {sd : Desc} {n : Nat} {comb : Nat} (wF : Free F [.regs, .pwr]) (hK : Keeps F s0 s) :
    Keeps F s0 (State.firstPassReads s k md rd cd sd n comb) := by
  unfold State.firstPassReads
  repeat' first
    | with_reducible assumption
    | exact wF.sub rfl
    | with_reducible apply State.bump_keeps
    | with_reducible apply State.unitReads_keeps
    | (with_reducible apply Keeps.foldl1; intro _ _ _)
    | (with_reducible apply Keeps.foldl2; intro _ _ _)
    | (with_reducible apply Keeps.foldl; intro _ _ _)
    | dsimp only
    | with_reducible apply Keeps.upd
    | with_reducible exact fun _ => rfl
    | exact wF.off rfl

theorem State.combine_keeps {s0 : State} {s : State} {u : Nat} {k : Upd} {md : Desc} {rd : Desc} {cd : Desc} {sd : Desc} (wF : Free F [.regs, .mem, .cache, .hbm, .fab, .uu, .surv, .pwr, .recd]) (hK : Keeps F s0 s) :
    Keeps F s0 (State.combine s u k md rd cd sd) := by
  unfold State.combine
  repeat' first
    | with_reducible assumption
    | exact wF.sub rfl
    | with_reducible apply State.bump_keeps
    | with_reducible apply State.firstPassReads_keeps
    | with_reducible apply State.modUpd_keeps
    | with_reducible apply State.unitWrite_keeps
    | with_reducible apply State.writeVector_keeps
    | with_reducible apply Keeps.ite
    | (with_reducible apply Keeps.foldl1; intro _ _ _)
    | (with_reducible apply Keeps.foldl2; intro _ _ _)
    | (with_reducible apply Keeps.foldl; intro _ _ _)
    | split
    | dsimp only
    | with_reducible apply Keeps.upd
    | with_reducible exact fun _ => rfl
    | exact wF.off rfl

theorem execRule3Combine_keeps {s0 : State} {upd : Nat} {parity : Bool} {s : State} (wF : Free F [.regs, .mem, .cache, .hbm, .te, .objs, .loader, .fab, .uu, .surv, .pwr, .recd]) (hK : Keeps F s0 s) :
    KeepsRes F s0 (execRule3Combine upd parity s) := by
  unfold execRule3Combine
  repeat' first
    | with_reducible assumption
    | exact wF.sub rfl
    | with_reducible apply State.combine_keeps
    | with_reducible apply State.faultCtx_keeps
    | with_reducible apply State.guarded_keeps
    | with_reducible apply State.reachDie_keeps
    | (with_reducible refine State.underMaps_keeps (wF.sub rfl) ?_ (fun _ _ => ?_))
    | with_reducible apply Keeps.ite
    | with_reducible apply KeepsRes.next
    | exact KeepsRes.refused
    | (with_reducible apply Keeps.foldl1; intro _ _ _)
    | (with_reducible apply Keeps.foldl2; intro _ _ _)
    | (with_reducible apply Keeps.foldl; intro _ _ _)
    | split
    | (with_reducible apply Keeps.of_fst; assumption)
    | (with_reducible apply Keeps.of_snd; assumption)
    | dsimp only
    | with_reducible apply Keeps.upd
    | with_reducible exact fun _ => rfl
    | exact wF.off rfl

theorem State.endUpd_keeps {s0 : State} {s : State} {u : Nat} {k : Upd} (wF : Free F [.regs, .cache, .hbm, .cores, .te, .ge, .seqs, .objs, .loader, .host, .fab, .uu, .surv, .recd]) (hK : Keeps F s0 s) :
    Keeps F s0 (State.endUpd s u k) := by
  unfold State.endUpd
  repeat' first
    | with_reducible assumption
    | exact wF.sub rfl
    | with_reducible apply State.adoptRate_keeps
    | with_reducible apply State.bump_keeps
    | with_reducible apply State.finishWork_keeps
    | with_reducible apply State.modCore_keeps
    | with_reducible apply State.settleFreeing_keeps
    | (with_reducible apply Keeps.foldl1; intro _ _ _)
    | (with_reducible apply Keeps.foldl2; intro _ _ _)
    | (with_reducible apply Keeps.foldl; intro _ _ _)
    | dsimp only
    | with_reducible apply Keeps.upd
    | with_reducible exact fun _ => rfl
    | exact wF.off rfl

theorem execUpdateComplete_keeps {s0 : State} {upd : Nat} {s : State} (wF : Free F [.regs, .mem, .cache, .hbm, .cores, .te, .ge, .seqs, .objs, .loader, .host, .fab, .uu, .surv, .pwr, .recd, .free]) (hK : Keeps F s0 s) :
    KeepsRes F s0 (execUpdateComplete upd s) := by
  unfold execUpdateComplete
  repeat' first
    | with_reducible assumption
    | exact wF.sub rfl
    | with_reducible apply State.endUpd_keeps
    | with_reducible apply State.failRecord_keeps
    | with_reducible apply State.guarded_keeps
    | with_reducible apply State.raise_keeps
    | (with_reducible refine State.underMaps_keeps (wF.sub rfl) ?_ (fun _ _ => ?_))
    | with_reducible apply State.writePieces_keeps
    | with_reducible apply State.xferError_keeps
    | with_reducible apply Keeps.ite
    | with_reducible apply KeepsRes.next
    | exact KeepsRes.refused
    | split
    | (with_reducible apply Keeps.of_fst; assumption)
    | (with_reducible apply Keeps.of_snd; assumption)
    | dsimp only
    | with_reducible apply Keeps.upd
    | with_reducible exact fun _ => rfl
    | exact wF.off rfl

end Sys2Proof.Machine
end

