-- ==== Sys2Proof/Laws/KeepsMove.lean ====
section
/-! SUPPORT. What every step keeps: the functions of Machine/Move.lean. -/

namespace Sys2Proof.Machine

open Sys2Proof

variable {F : Area → Bool}

theorem State.putData_keeps {s0 : State} {s : State} {c : Nat} {x : Nat} {d : Desc} {bad : List Nat} (wF : Free F [.cache, .free]) (hK : Keeps F s0 s) :
    Keeps F s0 (State.putData s c x d bad).2 := by
  unfold State.putData
  repeat' first
    | with_reducible assumption
    | exact wF.sub rfl
    | with_reducible apply State.draw_keeps
    | with_reducible apply State.seenBy_keeps
    | with_reducible apply Keeps.ite
    | (with_reducible apply Keeps.foldl1; intro _ _ _)
    | (with_reducible apply Keeps.foldl2; intro _ _ _)
    | (with_reducible apply Keeps.foldl; intro _ _ _)
    | split
    | (with_reducible apply Keeps.of_fst; assumption)
    | (with_reducible apply Keeps.of_snd; assumption)
    | dsimp only
    | with_reducible apply Keeps.upd
    | with_reducible exact fun _ => rfl
    | exact wF.off rfl

theorem State.movePut_keeps {s0 : State} {s : State} {c : Nat} {slot : Nat} {x : Nat} {v : Xfer} {src : Nat} {cq : Nat} (wF : Free F [.regs, .cache, .cores, .objs, .host, .fab, .free]) (hK : Keeps F s0 s) :
    Keeps F s0 (State.movePut s c slot x v src cq) := by
  unfold State.movePut
  repeat' first
    | with_reducible assumption
    | exact wF.sub rfl
    | with_reducible apply State.bump_keeps
    | with_reducible apply State.cqPost_keeps
    | with_reducible apply State.modXfer_keeps
    | with_reducible apply State.moved_keeps
    | with_reducible apply State.putData_keeps
    | with_reducible apply State.xferError_keeps
    | with_reducible apply Keeps.ite
    | (with_reducible apply Keeps.foldl1; intro _ _ _)
    | (with_reducible apply Keeps.foldl2; intro _ _ _)
    | (with_reducible apply Keeps.foldl; intro _ _ _)
    | split
    | (with_reducible apply Keeps.of_fst; assumption)
    | (with_reducible apply Keeps.of_snd; assumption)
    | dsimp only
    | with_reducible apply Keeps.upd
    | with_reducible exact fun _ => rfl
    | exact wF.off rfl

theorem State.moveData_keeps {s0 : State} {s : State} {c : Nat} {slot : Nat} {x : Nat} {v : Xfer} (wF : Free F [.regs, .mem, .cache, .hbm, .cores, .seqs, .objs, .host, .fab, .uu, .surv, .pwr, .recd, .free]) (hK : Keeps F s0 s) :
    Keeps F s0 (State.moveData s c slot x v) := by
  unfold State.moveData
  repeat' first
    | with_reducible assumption
    | exact wF.sub rfl
    | with_reducible apply State.moveColl_keeps
    | with_reducible apply State.moveCopy_keeps
    | with_reducible apply State.moveOwn_keeps
    | with_reducible apply State.movePut_keeps
    | with_reducible apply State.moveRemote_keeps
    | with_reducible apply State.moved_keeps
    | with_reducible apply Keeps.ite
    | split
    | (with_reducible apply Keeps.of_fst; assumption)
    | (with_reducible apply Keeps.of_snd; assumption)
    | dsimp only
    | with_reducible apply Keeps.upd
    | with_reducible exact fun _ => rfl
    | exact wF.off rfl

theorem State.settleXfer_keeps {s0 : State} {s : State} {c : Nat} {slot : Nat} (wF : Free F [.regs, .mem, .cache, .hbm, .cores, .seqs, .objs, .host, .fab, .uu, .surv, .pwr, .recd, .free]) (hK : Keeps F s0 s) :
    Keeps F s0 (State.settleXfer s c slot) := by
  unfold State.settleXfer
  repeat' first
    | with_reducible assumption
    | exact wF.sub rfl
    | with_reducible apply State.moveData_keeps
    | (with_reducible refine State.underMaps_keeps (wF.sub rfl) ?_ (fun _ _ => ?_))
    | with_reducible apply Keeps.ite
    | split
    | (with_reducible apply Keeps.of_fst; assumption)
    | (with_reducible apply Keeps.of_snd; assumption)
    | dsimp only
    | with_reducible apply Keeps.upd
    | with_reducible exact fun _ => rfl
    | exact wF.off rfl

theorem State.settleAll_keeps {s0 : State} {s : State} {c : Nat} (wF : Free F [.regs, .mem, .cache, .hbm, .cores, .seqs, .objs, .host, .fab, .uu, .surv, .pwr, .recd, .free]) (hK : Keeps F s0 s) :
    Keeps F s0 (State.settleAll s c) := by
  unfold State.settleAll
  repeat' first
    | with_reducible assumption
    | exact wF.sub rfl
    | with_reducible apply State.settleXfer_keeps
    | (with_reducible apply Keeps.foldl1; intro _ _ _)
    | (with_reducible apply Keeps.foldl2; intro _ _ _)
    | (with_reducible apply Keeps.foldl; intro _ _ _)
    | dsimp only
    | with_reducible apply Keeps.upd
    | with_reducible exact fun _ => rfl
    | exact wF.off rfl

theorem State.goOn_keeps {s0 : State} {s : State} {c : Nat} (wF : Free F [.regs, .mem, .cache, .hbm, .cores, .seqs, .objs, .host, .fab, .uu, .surv, .pwr, .recd, .free]) (hK : Keeps F s0 s) :
    Keeps F s0 (State.goOn s c) := by
  unfold State.goOn
  repeat' first
    | with_reducible assumption
    | exact wF.sub rfl
    | with_reducible apply State.askOn_keeps
    | with_reducible apply State.settleAll_keeps
    | dsimp only
    | with_reducible apply Keeps.upd
    | with_reducible exact fun _ => rfl
    | exact wF.off rfl

theorem State.withErr_keeps {s0 s : State} {c slot : Nat} {err : CoreErr} {f : State → State} (wF : Free F [.regs, .cache, .cores, .te, .objs, .loader]) (h : Keeps F s0 s)
    (hf : ∀ t, Keeps F s0 t → Keeps F s0 (f t)) : Keeps F s0 (State.withErr s c slot err f) := by
  unfold State.withErr
  split
  · exact hf _ h
  · dsimp only
    split
    · exact State.coreErr_keeps (wF.sub rfl) h
    · exact hf _ (State.coreErr_keeps (wF.sub rfl) h)

theorem execCopy_keeps {s0 : State} {core : Nat} {err : CoreErr} {s : State} (wF : Free F [.regs, .mem, .cache, .hbm, .cores, .te, .seqs, .objs, .loader, .host, .fab, .uu, .surv, .pwr, .recd, .free]) (hK : Keeps F s0 s) :
    KeepsRes F s0 (execCopy core err s) := by
  unfold execCopy
  repeat' first
    | with_reducible assumption
    | exact wF.sub rfl
    | with_reducible apply State.failEntry_keeps
    | with_reducible apply State.guarded_keeps
    | with_reducible apply State.settleXfer_keeps
    | with_reducible apply State.startXfer_keeps
    | (with_reducible refine State.takeMove_keeps (wF.sub rfl) ?_ (fun _ _ _ _ _ => ?_))
    | (with_reducible refine State.withErr_keeps (wF.sub rfl) ?_ (fun _ _ => ?_))
    | with_reducible apply KeepsRes.next
    | exact KeepsRes.refused
    | split
    | (with_reducible apply Keeps.of_fst; assumption)
    | (with_reducible apply Keeps.of_snd; assumption)
    | dsimp only
    | with_reducible apply Keeps.upd
    | with_reducible exact fun _ => rfl
    | exact wF.off rfl

theorem execCopyRemote_keeps {s0 : State} {core : Nat} {err : CoreErr} {s : State} (wF : Free F [.regs, .mem, .cache, .hbm, .cores, .te, .seqs, .objs, .loader, .host, .fab, .uu, .surv, .pwr, .recd, .free]) (hK : Keeps F s0 s) :
    KeepsRes F s0 (execCopyRemote core err s) := by
  unfold execCopyRemote
  repeat' first
    | with_reducible assumption
    | exact wF.sub rfl
    | with_reducible apply State.absentUnit_keeps
    | with_reducible apply State.guarded_keeps
    | with_reducible apply State.settleXfer_keeps
    | (with_reducible refine State.takeMove_keeps (wF.sub rfl) ?_ (fun _ _ _ _ _ => ?_))
    | with_reducible apply State.takeOwn_keeps
    | with_reducible apply State.takeRemote_keeps
    | (with_reducible refine State.withErr_keeps (wF.sub rfl) ?_ (fun _ _ => ?_))
    | with_reducible apply Keeps.ite
    | with_reducible apply KeepsRes.next
    | exact KeepsRes.refused
    | split
    | (with_reducible apply Keeps.of_fst; assumption)
    | (with_reducible apply Keeps.of_snd; assumption)
    | dsimp only
    | with_reducible apply Keeps.upd
    | with_reducible exact fun _ => rfl
    | exact wF.off rfl

theorem execHintPrefetch_keeps {s0 : State} {core : Nat} {s : State} (wF : Free F [.regs, .cache, .cores, .te, .objs, .loader, .host, .fab, .pwr]) (hK : Keeps F s0 s) :
    KeepsRes F s0 (execHintPrefetch core s) := by
  unfold execHintPrefetch
  repeat' first
    | with_reducible assumption
    | exact wF.sub rfl
    | with_reducible apply State.failEntry_keeps
    | with_reducible apply State.moved_keeps
    | with_reducible apply State.startXfer_keeps
    | (with_reducible refine State.takeMove_keeps (wF.sub rfl) ?_ (fun _ _ _ _ _ => ?_))
    | with_reducible apply Keeps.ite
    | with_reducible apply KeepsRes.next
    | exact KeepsRes.refused
    | split
    | (with_reducible apply Keeps.of_fst; assumption)
    | (with_reducible apply Keeps.of_snd; assumption)
    | dsimp only
    | with_reducible apply Keeps.upd
    | with_reducible exact fun _ => rfl
    | exact wF.off rfl

theorem State.adoptCap_keeps {s0 : State} {s : State} {p : Nat} (wF : Free F [.regs]) (hK : Keeps F s0 s) :
    Keeps F s0 (State.adoptCap s p) := by
  unfold State.adoptCap
  repeat' first
    | with_reducible assumption
    | exact wF.sub rfl
    | with_reducible apply State.adopt_keeps
    | with_reducible apply Keeps.ite
    | split
    | dsimp only
    | with_reducible apply Keeps.upd
    | with_reducible exact fun _ => rfl
    | exact wF.off rfl

theorem State.pinLine_keeps {s0 : State} {s : State} {todo : List Todo} {e : Nat × Nat × Nat × Nat} (wF : Free F [.regs, .mem, .cache, .hbm, .fab, .surv, .pwr, .recd, .free]) (hK : Keeps F s0 s) :
    Keeps F s0 (State.pinLine s todo e).1 := by
  unfold State.pinLine
  repeat' first
    | with_reducible assumption
    | exact wF.sub rfl
    | with_reducible apply State.bump_keeps
    | with_reducible apply State.install_keeps
    | with_reducible apply State.modLines_keeps
    | with_reducible apply State.setBit_keeps
    | with_reducible apply Keeps.ite
    | split
    | (with_reducible apply Keeps.of_fst; assumption)
    | (with_reducible apply Keeps.of_snd; assumption)
    | dsimp only
    | with_reducible apply Keeps.upd
    | with_reducible exact fun _ => rfl
    | exact wF.off rfl

theorem execHintPin_keeps {s0 : State} {core : Nat} {s : State} (wF : Free F [.regs, .mem, .cache, .hbm, .cores, .te, .objs, .loader, .host, .fab, .surv, .pwr, .recd, .free]) (hK : Keeps F s0 s) :
    KeepsRes F s0 (execHintPin core s) := by
  unfold execHintPin
  repeat' first
    | with_reducible assumption
    | exact wF.sub rfl
    | with_reducible apply State.adoptCap_keeps
    | with_reducible apply State.failEntry_keeps
    | with_reducible apply State.guarded_keeps
    | with_reducible apply State.moved_keeps
    | with_reducible apply State.pinLine_keeps
    | with_reducible apply State.startXfer_keeps
    | (with_reducible refine State.takeMove_keeps (wF.sub rfl) ?_ (fun _ _ _ _ _ => ?_))
    | with_reducible apply Keeps.ite
    | with_reducible apply KeepsRes.next
    | exact KeepsRes.refused
    | (with_reducible apply Keeps.foldl1; intro _ _ _)
    | (with_reducible apply Keeps.foldl2; intro _ _ _)
    | (with_reducible apply Keeps.foldl; intro _ _ _)
    | split
    | (with_reducible apply Keeps.of_fst; assumption)
    | (with_reducible apply Keeps.of_snd; assumption)
    | dsimp only
    | with_reducible apply Keeps.upd
    | with_reducible exact fun _ => rfl
    | exact wF.off rfl

theorem execHintUnpin_keeps {s0 : State} {core : Nat} {s : State} (wF : Free F [.regs, .cache, .cores, .te, .objs, .loader, .host, .fab, .pwr]) (hK : Keeps F s0 s) :
    KeepsRes F s0 (execHintUnpin core s) := by
  unfold execHintUnpin
  repeat' first
    | with_reducible assumption
    | exact wF.sub rfl
    | with_reducible apply State.failEntry_keeps
    | with_reducible apply State.modLines_keeps
    | with_reducible apply State.moved_keeps
    | with_reducible apply State.startXfer_keeps
    | (with_reducible refine State.takeMove_keeps (wF.sub rfl) ?_ (fun _ _ _ _ _ => ?_))
    | with_reducible apply KeepsRes.next
    | exact KeepsRes.refused
    | (with_reducible apply Keeps.foldl1; intro _ _ _)
    | (with_reducible apply Keeps.foldl2; intro _ _ _)
    | (with_reducible apply Keeps.foldl; intro _ _ _)
    | split
    | (with_reducible apply Keeps.of_fst; assumption)
    | (with_reducible apply Keeps.of_snd; assumption)
    | dsimp only
    | with_reducible apply Keeps.upd
    | with_reducible exact fun _ => rfl
    | exact wF.off rfl

theorem State.deadLine_keeps {s0 : State} {s : State} {p : Nat} {ln : Nat} (wF : Free F [.regs, .cache]) (hK : Keeps F s0 s) :
    Keeps F s0 (State.deadLine s p ln) := by
  unfold State.deadLine
  repeat' first
    | with_reducible assumption
    | exact wF.sub rfl
    | with_reducible apply State.bump_keeps
    | with_reducible apply State.dropLine_keeps
    | dsimp only
    | with_reducible apply Keeps.upd
    | with_reducible exact fun _ => rfl
    | exact wF.off rfl

theorem execHintDead_keeps {s0 : State} {core : Nat} {s : State} (wF : Free F [.regs, .cache, .cores, .te, .objs, .loader, .host, .fab, .pwr]) (hK : Keeps F s0 s) :
    KeepsRes F s0 (execHintDead core s) := by
  unfold execHintDead
  repeat' first
    | with_reducible assumption
    | exact wF.sub rfl
    | with_reducible apply State.deadLine_keeps
    | with_reducible apply State.failEntry_keeps
    | with_reducible apply State.moved_keeps
    | with_reducible apply State.startXfer_keeps
    | (with_reducible refine State.takeMove_keeps (wF.sub rfl) ?_ (fun _ _ _ _ _ => ?_))
    | with_reducible apply KeepsRes.next
    | exact KeepsRes.refused
    | (with_reducible apply Keeps.foldl1; intro _ _ _)
    | (with_reducible apply Keeps.foldl2; intro _ _ _)
    | (with_reducible apply Keeps.foldl; intro _ _ _)
    | split
    | (with_reducible apply Keeps.of_fst; assumption)
    | (with_reducible apply Keeps.of_snd; assumption)
    | dsimp only
    | with_reducible apply Keeps.upd
    | with_reducible exact fun _ => rfl
    | exact wF.off rfl

theorem State.collHead_keeps {s0 : State} {s : State} {core : Nat} {kind : Nat} {err : CoreErr} (wF : Free F [.regs, .mem, .cache, .hbm, .cores, .te, .seqs, .objs, .loader, .host, .fab, .uu, .surv, .pwr, .recd, .free]) (hK : Keeps F s0 s) :
    Keeps F s0 (State.collHead s core kind err) := by
  unfold State.collHead
  repeat' first
    | with_reducible assumption
    | exact wF.sub rfl
    | with_reducible apply State.settleXfer_keeps
    | with_reducible apply State.takeColl_keeps
    | (with_reducible refine State.takeMove_keeps (wF.sub rfl) ?_ (fun _ _ _ _ _ => ?_))
    | (with_reducible refine State.withErr_keeps (wF.sub rfl) ?_ (fun _ _ => ?_))
    | split
    | (with_reducible apply Keeps.of_fst; assumption)
    | (with_reducible apply Keeps.of_snd; assumption)
    | dsimp only
    | with_reducible apply Keeps.upd
    | with_reducible exact fun _ => rfl
    | exact wF.off rfl

theorem execReduceScatter_keeps {s0 : State} {core : Nat} {err : CoreErr} {s : State} (wF : Free F [.regs, .mem, .cache, .hbm, .cores, .te, .seqs, .objs, .loader, .host, .fab, .uu, .surv, .pwr, .recd, .free]) (hK : Keeps F s0 s) :
    KeepsRes F s0 (execReduceScatter core err s) := by
  unfold execReduceScatter
  repeat' first
    | with_reducible assumption
    | exact wF.sub rfl
    | with_reducible apply State.collHead_keeps
    | with_reducible apply State.guarded_keeps
    | with_reducible apply KeepsRes.next
    | exact KeepsRes.refused
    | dsimp only
    | with_reducible apply Keeps.upd
    | with_reducible exact fun _ => rfl
    | exact wF.off rfl

theorem execAllGather_keeps {s0 : State} {core : Nat} {err : CoreErr} {s : State} (wF : Free F [.regs, .mem, .cache, .hbm, .cores, .te, .seqs, .objs, .loader, .host, .fab, .uu, .surv, .pwr, .recd, .free]) (hK : Keeps F s0 s) :
    KeepsRes F s0 (execAllGather core err s) := by
  unfold execAllGather
  repeat' first
    | with_reducible assumption
    | exact wF.sub rfl
    | with_reducible apply State.collHead_keeps
    | with_reducible apply State.guarded_keeps
    | with_reducible apply KeepsRes.next
    | exact KeepsRes.refused
    | dsimp only
    | with_reducible apply Keeps.upd
    | with_reducible exact fun _ => rfl
    | exact wF.off rfl

theorem execAllReduce_keeps {s0 : State} {core : Nat} {err : CoreErr} {s : State} (wF : Free F [.regs, .mem, .cache, .hbm, .cores, .te, .seqs, .objs, .loader, .host, .fab, .uu, .surv, .pwr, .recd, .free]) (hK : Keeps F s0 s) :
    KeepsRes F s0 (execAllReduce core err s) := by
  unfold execAllReduce
  repeat' first
    | with_reducible assumption
    | exact wF.sub rfl
    | with_reducible apply State.collHead_keeps
    | with_reducible apply State.guarded_keeps
    | with_reducible apply KeepsRes.next
    | exact KeepsRes.refused
    | dsimp only
    | with_reducible apply Keeps.upd
    | with_reducible exact fun _ => rfl
    | exact wF.off rfl

theorem execFinitenessVote_keeps {s0 : State} {core : Nat} {s : State} (wF : Free F [.regs, .mem, .cache, .hbm, .cores, .te, .seqs, .objs, .loader, .host, .fab, .uu, .surv, .pwr, .recd, .free]) (hK : Keeps F s0 s) :
    KeepsRes F s0 (execFinitenessVote core s) := by
  unfold execFinitenessVote
  repeat' first
    | with_reducible assumption
    | exact wF.sub rfl
    | with_reducible apply State.collHead_keeps
    | with_reducible apply KeepsRes.next
    | exact KeepsRes.refused
    | dsimp only
    | with_reducible apply Keeps.upd
    | with_reducible exact fun _ => rfl
    | exact wF.off rfl

theorem execCollComplete_keeps {s0 : State} {inst : Nat} {s : State} (wF : Free F [.regs, .mem, .cache, .hbm, .cores, .seqs, .objs, .host, .fab, .surv, .pwr, .recd, .free]) (hK : Keeps F s0 s) :
    KeepsRes F s0 (execCollComplete inst s) := by
  unfold execCollComplete
  repeat' first
    | with_reducible assumption
    | exact wF.sub rfl
    | with_reducible apply State.flagJob_keeps
    | with_reducible apply State.guarded_keeps
    | with_reducible apply State.leaveColl_keeps
    | with_reducible apply State.writeResult_keeps
    | with_reducible apply Keeps.ite
    | with_reducible apply KeepsRes.next
    | exact KeepsRes.refused
    | (with_reducible apply Keeps.foldl1; intro _ _ _)
    | (with_reducible apply Keeps.foldl2; intro _ _ _)
    | (with_reducible apply Keeps.foldl; intro _ _ _)
    | split
    | (with_reducible apply Keeps.of_fst; assumption)
    | (with_reducible apply Keeps.of_snd; assumption)
    | dsimp only
    | with_reducible apply Keeps.upd
    | with_reducible exact fun _ => rfl
    | exact wF.off rfl

theorem execUpdate_keeps {s0 : State} {core : Nat} {s : State} (wF : Free F [.regs, .mem, .cache, .hbm, .cores, .te, .objs, .loader, .host, .fab, .uu, .surv, .pwr, .recd, .free]) (hK : Keeps F s0 s) :
    KeepsRes F s0 (execUpdate core s) := by
  unfold execUpdate
  repeat' first
    | with_reducible assumption
    | exact wF.sub rfl
    | with_reducible apply State.guarded_keeps
    | (with_reducible refine State.takeMove_keeps (wF.sub rfl) ?_ (fun _ _ _ _ _ => ?_))
    | with_reducible apply State.takeUpdate_keeps
    | with_reducible apply KeepsRes.next
    | exact KeepsRes.refused
    | split
    | (with_reducible apply Keeps.of_fst; assumption)
    | (with_reducible apply Keeps.of_snd; assumption)
    | dsimp only
    | with_reducible apply Keeps.upd
    | with_reducible exact fun _ => rfl
    | exact wF.off rfl

theorem execFence_keeps {s0 : State} {core : Nat} {s : State} (wF : Free F [.regs, .cache, .cores, .te, .objs, .loader, .host, .fab, .surv, .pwr, .recd]) (hK : Keeps F s0 s) :
    KeepsRes F s0 (execFence core s) := by
  unfold execFence
  repeat' first
    | with_reducible assumption
    | exact wF.sub rfl
    | with_reducible apply State.failEntry_keeps
    | with_reducible apply State.signalFor_keeps
    | with_reducible apply State.take_keeps
    | with_reducible apply Keeps.ite
    | with_reducible apply KeepsRes.next
    | exact KeepsRes.refused
    | split
    | (with_reducible apply Keeps.of_fst; assumption)
    | (with_reducible apply Keeps.of_snd; assumption)
    | dsimp only
    | with_reducible apply Keeps.upd
    | with_reducible exact fun _ => rfl
    | exact wF.off rfl

theorem execTrigger_keeps {s0 : State} {core : Nat} {s : State} (wF : Free F [.regs, .cache, .cores, .te, .objs, .loader, .host, .fab, .pwr]) (hK : Keeps F s0 s) :
    KeepsRes F s0 (execTrigger core s) := by
  unfold execTrigger
  repeat' first
    | with_reducible assumption
    | exact wF.sub rfl
    | (with_reducible refine State.takeMove_keeps (wF.sub rfl) ?_ (fun _ _ _ _ _ => ?_))
    | with_reducible apply State.takeTrigger_keeps
    | with_reducible apply KeepsRes.next
    | exact KeepsRes.refused
    | split
    | (with_reducible apply Keeps.of_fst; assumption)
    | (with_reducible apply Keeps.of_snd; assumption)
    | dsimp only
    | with_reducible apply Keeps.upd
    | with_reducible exact fun _ => rfl
    | exact wF.off rfl

theorem execAtomic_keeps {s0 : State} {core : Nat} {s : State} (wF : Free F [.regs, .mem, .cache, .hbm, .cores, .te, .objs, .loader, .host, .fab, .surv, .pwr, .recd, .free]) (hK : Keeps F s0 s) :
    KeepsRes F s0 (execAtomic core s) := by
  unfold execAtomic
  repeat' first
    | with_reducible assumption
    | exact wF.sub rfl
    | with_reducible apply State.bump_keeps
    | with_reducible apply State.failEntry_keeps
    | with_reducible apply State.fetchPieces_keeps
    | with_reducible apply State.guarded_keeps
    | with_reducible apply State.moved_keeps
    | with_reducible apply State.privDrop_keeps
    | with_reducible apply State.startXfer_keeps
    | (with_reducible refine State.takeMove_keeps (wF.sub rfl) ?_ (fun _ _ _ _ _ => ?_))
    | with_reducible apply State.writePieces_keeps
    | with_reducible apply Keeps.ite
    | with_reducible apply KeepsRes.next
    | exact KeepsRes.refused
    | split
    | (with_reducible apply Keeps.of_fst; assumption)
    | (with_reducible apply Keeps.of_snd; assumption)
    | dsimp only
    | with_reducible apply Keeps.upd
    | with_reducible exact fun _ => rfl
    | exact wF.off rfl

theorem execHostPut_keeps {s0 : State} {core : Nat} {err : CoreErr} {s : State} (wF : Free F [.regs, .mem, .cache, .hbm, .cores, .te, .seqs, .objs, .loader, .host, .fab, .uu, .surv, .pwr, .recd, .free]) (hK : Keeps F s0 s) :
    KeepsRes F s0 (execHostPut core err s) := by
  unfold execHostPut
  repeat' first
    | with_reducible assumption
    | exact wF.sub rfl
    | with_reducible apply State.failEntry_keeps
    | with_reducible apply State.settleXfer_keeps
    | with_reducible apply State.startXfer_keeps
    | (with_reducible refine State.takeMove_keeps (wF.sub rfl) ?_ (fun _ _ _ _ _ => ?_))
    | (with_reducible refine State.withErr_keeps (wF.sub rfl) ?_ (fun _ _ => ?_))
    | with_reducible apply KeepsRes.next
    | exact KeepsRes.refused
    | split
    | (with_reducible apply Keeps.of_fst; assumption)
    | (with_reducible apply Keeps.of_snd; assumption)
    | dsimp only
    | with_reducible apply Keeps.upd
    | with_reducible exact fun _ => rfl
    | exact wF.off rfl

theorem State.pinResult_keeps {s0 : State} {s : State} {c : Nat} {x : Nat} {v : Xfer} (wF : Free F [.regs, .mem, .cache, .hbm, .fab, .surv, .pwr, .recd, .free]) (hK : Keeps F s0 s) :
    Keeps F s0 (State.pinResult s c x v) := by
  unfold State.pinResult
  repeat' first
    | with_reducible assumption
    | exact wF.sub rfl
    | with_reducible apply State.bump_keeps
    | with_reducible apply State.privDrop_keeps
    | with_reducible apply State.vaWrite_keeps
    | with_reducible apply Keeps.ite
    | split
    | (with_reducible apply Keeps.of_fst; assumption)
    | (with_reducible apply Keeps.of_snd; assumption)
    | dsimp only
    | with_reducible apply Keeps.upd
    | with_reducible exact fun _ => rfl
    | exact wF.off rfl

theorem State.endXfer_keeps {s0 : State} {s : State} {c : Nat} {slot : Nat} {x : Nat} {v : Xfer} (wF : Free F [.regs, .mem, .cache, .hbm, .cores, .te, .ge, .seqs, .objs, .loader, .host, .fab, .uu, .surv, .pwr, .recd, .free]) (hK : Keeps F s0 s) :
    Keeps F s0 (State.endXfer s c slot x v) := by
  unfold State.endXfer
  repeat' first
    | with_reducible assumption
    | exact wF.sub rfl
    | with_reducible apply State.adoptCap_keeps
    | with_reducible apply State.bump_keeps
    | with_reducible apply State.finishWork_keeps
    | with_reducible apply State.goOn_keeps
    | with_reducible apply State.modCore_keeps
    | with_reducible apply State.pinResult_keeps
    | with_reducible apply State.progress_keeps
    | with_reducible apply State.settleFreeing_keeps
    | (with_reducible refine State.underMaps_keeps (wF.sub rfl) ?_ (fun _ _ => ?_))
    | with_reducible apply Keeps.ite
    | (with_reducible apply Keeps.foldl1; intro _ _ _)
    | (with_reducible apply Keeps.foldl2; intro _ _ _)
    | (with_reducible apply Keeps.foldl; intro _ _ _)
    | split
    | dsimp only
    | with_reducible apply Keeps.upd
    | with_reducible exact fun _ => rfl
    | exact wF.off rfl

theorem execTransferComplete_keeps {s0 : State} {core : Nat} {slot : Nat} {s : State} (wF : Free F [.regs, .mem, .cache, .hbm, .cores, .te, .ge, .seqs, .objs, .loader, .host, .fab, .uu, .surv, .pwr, .recd, .free]) (hK : Keeps F s0 s) :
    KeepsRes F s0 (execTransferComplete core slot s) := by
  unfold execTransferComplete
  repeat' first
    | with_reducible assumption
    | exact wF.sub rfl
    | with_reducible apply State.deliverToken_keeps
    | with_reducible apply State.endXfer_keeps
    | with_reducible apply State.guarded_keeps
    | with_reducible apply State.modXfer_keeps
    | with_reducible apply State.sendFor_keeps
    | with_reducible apply State.xferError_keeps
    | with_reducible apply Keeps.ite
    | with_reducible apply KeepsRes.next
    | exact KeepsRes.refused
    | split
    | (with_reducible apply Keeps.of_fst; assumption)
    | (with_reducible apply Keeps.of_snd; assumption)
    | dsimp only
    | with_reducible apply Keeps.upd
    | with_reducible exact fun _ => rfl
    | exact wF.off rfl

end Sys2Proof.Machine
end

