-- ==== Sys2Proof/Laws/KeepsHbm.lean ====
section
/-! SUPPORT. What every step keeps: the functions of Machine/Hbm.lean. -/

namespace Sys2Proof.Machine

open Sys2Proof

variable {F : Area → Bool}

theorem State.fillLine_keeps {s0 : State} {s : State} {m : Miss} (wF : Free F [.regs, .mem, .cache, .hbm, .fab, .surv, .pwr, .recd, .free]) (hK : Keeps F s0 s) :
    Keeps F s0 (State.fillLine s m) := by
  unfold State.fillLine
  repeat' first
    | with_reducible assumption
    | exact wF.sub rfl
    | with_reducible apply State.install_keeps
    | with_reducible apply State.modLines_keeps
    | with_reducible apply Keeps.ite
    | split
    | dsimp only
    | with_reducible apply Keeps.upd
    | with_reducible exact fun _ => rfl
    | exact wF.off rfl

theorem State.unplace_keeps {s0 : State} {s : State} {ln : Nat} (wF : Free F [.cache]) (hK : Keeps F s0 s) :
    Keeps F s0 (State.unplace s ln) := by
  unfold State.unplace
  repeat' first
    | with_reducible assumption
    | exact wF.sub rfl
    | with_reducible apply State.dropLine_keeps
    | with_reducible apply Keeps.ite
    | split
    | (with_reducible apply Keeps.of_fst; assumption)
    | (with_reducible apply Keeps.of_snd; assumption)
    | dsimp only
    | with_reducible apply Keeps.upd
    | with_reducible exact fun _ => rfl
    | exact wF.off rfl

theorem State.serve_keeps {s0 : State} {s : State} {i : Nat} {m : Miss} {bad : Bool} (wF : Free F [.regs, .mem, .cache, .hbm, .cores, .seqs, .objs, .host, .fab, .uu, .surv, .pwr, .recd, .free]) (hK : Keeps F s0 s) :
    Keeps F s0 (State.serve s i m bad) := by
  unfold State.serve
  repeat' first
    | with_reducible assumption
    | exact wF.sub rfl
    | with_reducible apply State.goOn_keeps
    | with_reducible apply State.modXfer_keeps
    | with_reducible apply State.privFill_keeps
    | with_reducible apply State.xferError_keeps
    | with_reducible apply Keeps.ite
    | split
    | (with_reducible apply Keeps.of_fst; assumption)
    | (with_reducible apply Keeps.of_snd; assumption)
    | dsimp only
    | with_reducible apply Keeps.upd
    | with_reducible exact fun _ => rfl
    | exact wF.off rfl

theorem State.dirtyLost_keeps {s0 : State} {s : State} {ln : Nat} {l : Line} (wF : Free F [.cache, .te, .objs, .loader, .surv, .recd, .free]) (hK : Keeps F s0 s) :
    Keeps F s0 (State.dirtyLost s ln l) := by
  unfold State.dirtyLost
  repeat' first
    | with_reducible assumption
    | exact wF.sub rfl
    | with_reducible apply State.draw_keeps
    | with_reducible apply State.dropLine_keeps
    | with_reducible apply State.faultCtx_keeps
    | with_reducible apply State.raise_keeps
    | (with_reducible apply Keeps.foldl1; intro _ _ _)
    | (with_reducible apply Keeps.foldl2; intro _ _ _)
    | (with_reducible apply Keeps.foldl; intro _ _ _)
    | split
    | (with_reducible apply Keeps.of_fst; assumption)
    | (with_reducible apply Keeps.of_snd; assumption)
    | dsimp only
    | with_reducible apply Keeps.upd
    | with_reducible exact fun _ => rfl
    | exact wF.off rfl

theorem State.sliceErr_keeps {s0 : State} {s : State} {e : SliceErr} (wF : Free F [.regs, .cache, .te, .objs, .loader, .surv, .recd, .free]) (hK : Keeps F s0 s) :
    Keeps F s0 (State.sliceErr s e) := by
  unfold State.sliceErr
  repeat' first
    | with_reducible assumption
    | exact wF.sub rfl
    | with_reducible apply State.bump_keeps
    | with_reducible apply State.dirtyLost_keeps
    | with_reducible apply State.modLines_keeps
    | with_reducible apply Keeps.ite
    | split
    | (with_reducible apply Keeps.of_fst; assumption)
    | (with_reducible apply Keeps.of_snd; assumption)
    | dsimp only
    | with_reducible apply Keeps.upd
    | with_reducible exact fun _ => rfl
    | exact wF.off rfl

theorem State.releaseRead_keeps {s0 : State} {s : State} {i : Nat} {m : Miss} (wF : Free F [.regs, .mem, .cache, .hbm, .cores, .seqs, .objs, .host, .fab, .uu, .surv, .pwr, .recd, .free]) (hK : Keeps F s0 s) :
    Keeps F s0 (State.releaseRead s i m) := by
  unfold State.releaseRead
  repeat' first
    | with_reducible assumption
    | exact wF.sub rfl
    | with_reducible apply State.readServed_keeps
    | with_reducible apply State.serve_keeps
    | split
    | (with_reducible apply Keeps.of_fst; assumption)
    | (with_reducible apply Keeps.of_snd; assumption)
    | dsimp only
    | with_reducible apply Keeps.upd
    | with_reducible exact fun _ => rfl
    | exact wF.off rfl

theorem State.releaseReads_keeps {s0 : State} {s : State} {d : Nat} (wF : Free F [.regs, .mem, .cache, .hbm, .cores, .seqs, .objs, .host, .fab, .uu, .surv, .pwr, .recd, .free]) (hK : Keeps F s0 s) :
    Keeps F s0 (State.releaseReads s d) := by
  unfold State.releaseReads
  repeat' first
    | with_reducible assumption
    | exact wF.sub rfl
    | with_reducible apply State.releaseRead_keeps
    | with_reducible apply Keeps.ite
    | (with_reducible apply Keeps.foldl1; intro _ _ _)
    | (with_reducible apply Keeps.foldl2; intro _ _ _)
    | (with_reducible apply Keeps.foldl; intro _ _ _)
    | split
    | dsimp only
    | with_reducible apply Keeps.upd
    | with_reducible exact fun _ => rfl
    | exact wF.off rfl

theorem execLineFill_keeps {s0 : State} {miss : Nat} {lo : EccErr} {hi : EccErr} {slice : Option SliceErr} {s : State} (wF : Free F [.regs, .mem, .cache, .hbm, .cores, .te, .seqs, .objs, .loader, .host, .fab, .uu, .surv, .pwr, .recd, .free]) (hK : Keeps F s0 s) :
    KeepsRes F s0 (execLineFill miss lo hi slice s) := by
  unfold execLineFill
  repeat' first
    | with_reducible assumption
    | exact wF.sub rfl
    | with_reducible apply State.countUe_keeps
    | with_reducible apply State.eccHalf_keeps
    | with_reducible apply State.fillLine_keeps
    | with_reducible apply State.guarded_keeps
    | with_reducible apply State.hbmBytesMoved_keeps
    | with_reducible apply State.serve_keeps
    | with_reducible apply State.sliceErr_keeps
    | with_reducible apply State.unplace_keeps
    | with_reducible apply Keeps.ite
    | with_reducible apply KeepsRes.next
    | exact KeepsRes.refused
    | split
    | (with_reducible apply Keeps.of_fst; assumption)
    | (with_reducible apply Keeps.of_snd; assumption)
    | dsimp only
    | with_reducible apply Keeps.upd
    | with_reducible exact fun _ => rfl
    | exact wF.off rfl

theorem execCowPageWaitExpiry_keeps {s0 : State} {job : Nat} {page : Nat} {s : State} (wF : Free F [.surv, .recd]) (hK : Keeps F s0 s) :
    KeepsRes F s0 (execCowPageWaitExpiry job page s) := by
  unfold execCowPageWaitExpiry
  repeat' first
    | with_reducible assumption
    | exact wF.sub rfl
    | with_reducible apply State.raise_keeps
    | with_reducible apply State.setProt_keeps
    | with_reducible apply Keeps.ite
    | with_reducible apply KeepsRes.next
    | exact KeepsRes.refused
    | split
    | (with_reducible apply Keeps.of_fst; assumption)
    | (with_reducible apply Keeps.of_snd; assumption)
    | dsimp only
    | with_reducible apply Keeps.upd
    | with_reducible exact fun _ => rfl
    | exact wF.off rfl

theorem State.scrubFinding_keeps {s0 : State} {s : State} {u : Nat} {thresh : Nat} {f : ScrubFinding} (wF : Free F [.regs, .hbm, .surv, .pwr, .recd]) (hK : Keeps F s0 s) :
    Keeps F s0 (State.scrubFinding s u thresh f) := by
  unfold State.scrubFinding
  repeat' first
    | with_reducible assumption
    | exact wF.sub rfl
    | with_reducible apply State.bump_keeps
    | with_reducible apply State.countUe_keeps
    | with_reducible apply State.hbmBytesMoved_keeps
    | with_reducible apply State.markBad_keeps
    | with_reducible apply State.raise_keeps
    | with_reducible apply State.rowErrors_keeps
    | with_reducible apply Keeps.ite
    | split
    | (with_reducible apply Keeps.of_fst; assumption)
    | (with_reducible apply Keeps.of_snd; assumption)
    | dsimp only
    | with_reducible apply Keeps.upd
    | with_reducible exact fun _ => rfl
    | exact wF.off rfl

theorem execScrubPass_keeps {s0 : State} {unit : Nat} {findings : List ScrubFinding} {s : State} (wF : Free F [.regs, .hbm, .surv, .pwr, .recd]) (hK : Keeps F s0 s) :
    KeepsRes F s0 (execScrubPass unit findings s) := by
  unfold execScrubPass
  repeat' first
    | with_reducible assumption
    | exact wF.sub rfl
    | with_reducible apply State.adopt_keeps
    | with_reducible apply State.bump_keeps
    | with_reducible apply State.hbmBytesMoved_keeps
    | with_reducible apply State.scrubFinding_keeps
    | with_reducible apply Keeps.ite
    | with_reducible apply KeepsRes.next
    | exact KeepsRes.refused
    | (with_reducible apply Keeps.foldl1; intro _ _ _)
    | (with_reducible apply Keeps.foldl2; intro _ _ _)
    | (with_reducible apply Keeps.foldl; intro _ _ _)
    | split
    | dsimp only
    | with_reducible apply Keeps.upd
    | with_reducible exact fun _ => rfl
    | exact wF.off rfl

theorem execRowRemapDone_keeps {s0 : State} {unit : Nat} {slot : Nat} {row : Nat} {s : State} (wF : Free F [.regs, .hbm, .surv, .pwr, .recd]) (hK : Keeps F s0 s) :
    KeepsRes F s0 (execRowRemapDone unit slot row s) := by
  unfold execRowRemapDone
  repeat' first
    | with_reducible assumption
    | exact wF.sub rfl
    | with_reducible apply State.hbmBytesMoved_keeps
    | with_reducible apply State.raise_keeps
    | with_reducible apply Keeps.ite
    | with_reducible apply KeepsRes.next
    | exact KeepsRes.refused
    | split
    | dsimp only
    | with_reducible apply Keeps.upd
    | with_reducible exact fun _ => rfl
    | exact wF.off rfl

theorem State.setEvac_keeps {s0 : State} {s : State} {u : Nat} {k : Nat} {e : EvacStep} (wF : Free F [.hbm]) (hK : Keeps F s0 s) :
    Keeps F s0 (State.setEvac s u k e) := by
  unfold State.setEvac
  repeat' first
    | with_reducible assumption
    | exact wF.sub rfl
    | dsimp only
    | with_reducible apply Keeps.upd
    | with_reducible exact fun _ => rfl
    | exact wF.off rfl

theorem execEvacGo_keeps {s0 : State} {unit : Nat} {slot : Nat} {s : State} (wF : Free F [.regs, .hbm, .surv, .recd]) (hK : Keeps F s0 s) :
    KeepsRes F s0 (execEvacGo unit slot s) := by
  unfold execEvacGo
  repeat' first
    | with_reducible assumption
    | exact wF.sub rfl
    | with_reducible apply State.adopt_keeps
    | with_reducible apply State.bump_keeps
    | with_reducible apply State.raise_keeps
    | with_reducible apply State.setEvac_keeps
    | with_reducible apply Keeps.ite
    | with_reducible apply KeepsRes.next
    | exact KeepsRes.refused
    | split
    | dsimp only
    | with_reducible apply Keeps.upd
    | with_reducible exact fun _ => rfl
    | exact wF.off rfl

theorem execEvacCopyDone_keeps {s0 : State} {unit : Nat} {slot : Nat} {s : State} (wF : Free F [.regs, .hbm, .pwr]) (hK : Keeps F s0 s) :
    KeepsRes F s0 (execEvacCopyDone unit slot s) := by
  unfold execEvacCopyDone
  repeat' first
    | with_reducible assumption
    | exact wF.sub rfl
    | with_reducible apply State.hbmBytesMoved_keeps
    | with_reducible apply State.setEvac_keeps
    | with_reducible apply Keeps.ite
    | with_reducible apply KeepsRes.next
    | exact KeepsRes.refused
    | split
    | dsimp only
    | with_reducible apply Keeps.upd
    | with_reducible exact fun _ => rfl
    | exact wF.off rfl

theorem execPcRetrainDone_keeps {s0 : State} {unit : Nat} {slot : Nat} {ok : Bool} {s : State} (wF : Free F [.regs, .hbm, .surv, .recd]) (hK : Keeps F s0 s) :
    KeepsRes F s0 (execPcRetrainDone unit slot ok s) := by
  unfold execPcRetrainDone
  repeat' first
    | with_reducible assumption
    | exact wF.sub rfl
    | with_reducible apply State.raise_keeps
    | with_reducible apply State.setEvac_keeps
    | with_reducible apply State.setField_keeps
    | with_reducible apply Keeps.ite
    | with_reducible apply KeepsRes.next
    | exact KeepsRes.refused
    | split
    | dsimp only
    | with_reducible apply Keeps.upd
    | with_reducible exact fun _ => rfl
    | exact wF.off rfl

theorem execEvacCopyBackDone_keeps {s0 : State} {unit : Nat} {slot : Nat} {s : State} (wF : Free F [.regs, .hbm, .pwr]) (hK : Keeps F s0 s) :
    KeepsRes F s0 (execEvacCopyBackDone unit slot s) := by
  unfold execEvacCopyBackDone
  repeat' first
    | with_reducible assumption
    | exact wF.sub rfl
    | with_reducible apply State.hbmBytesMoved_keeps
    | with_reducible apply Keeps.ite
    | with_reducible apply KeepsRes.next
    | exact KeepsRes.refused
    | split
    | dsimp only
    | with_reducible apply Keeps.upd
    | with_reducible exact fun _ => rfl
    | exact wF.off rfl

theorem State.wipeCore_keeps {s0 s : State} {c : Nat} (wF : Free F [.mem, .cache]) (h : Keeps F s0 s) : Keeps F s0 (State.wipeCore s c) :=
  State.setPriv_keeps (wF.sub rfl) (Keeps.setMem (wF _ (by decide)) h fun m => cellWipe_wf m _ _)

theorem State.wipeObject_keeps {s0 s : State} {i : Nat} (wF : Free F [.regs, .mem, .hbm, .objs, .pwr]) (h : Keeps F s0 s) : Keeps F s0 (State.wipeObject s i) := by
  unfold State.wipeObject
  split
  · exact h
  · dsimp only
    repeat' first
      | with_reducible assumption
      | exact wF.sub rfl
      | (with_reducible apply Keeps.foldl; intro t a k)
      | with_reducible apply State.pageMoved_keeps
      | with_reducible apply State.mendHalves_keeps
      | exact Keeps.setMem (wF _ (by decide)) ‹_› fun m => cellWipe_wf m _ _
      | with_reducible apply Keeps.upd
      | with_reducible exact fun _ => rfl
      | exact wF.off rfl

theorem execWipeComplete_keeps {s0 : State} {wipe : Nat} {s : State} (wF : Free F [.regs, .mem, .cache, .hbm, .cores, .objs, .pwr]) (hK : Keeps F s0 s) :
    KeepsRes F s0 (execWipeComplete wipe s) := by
  unfold execWipeComplete
  repeat' first
    | with_reducible assumption
    | exact wF.sub rfl
    | with_reducible apply State.modCore_keeps
    | with_reducible apply State.wipeCore_keeps
    | with_reducible apply State.wipeObject_keeps
    | with_reducible apply KeepsRes.next
    | exact KeepsRes.refused
    | split
    | (with_reducible apply Keeps.of_fst; assumption)
    | (with_reducible apply Keeps.of_snd; assumption)
    | dsimp only
    | with_reducible apply Keeps.upd
    | with_reducible exact fun _ => rfl
    | exact wF.off rfl

end Sys2Proof.Machine
end

