-- ==== Sys2Proof/Laws/KeepsSurvival.lean ====
section
/-! SUPPORT. What every step keeps: the functions of Machine/Survival.lean. -/

namespace Sys2Proof.Machine

open Sys2Proof

variable {F : Area → Bool}

theorem State.modSurv_keeps {s0 : State} {s : State} {f : Surv → Surv} (wF : Free F [.surv]) (hK : Keeps F s0 s) :
    Keeps F s0 (State.modSurv s f) := by
  unfold State.modSurv
  repeat' first
    | with_reducible assumption
    | exact wF.sub rfl
    | dsimp only
    | with_reducible apply Keeps.upd
    | with_reducible exact fun _ => rfl
    | exact wF.off rfl

theorem State.modProt_keeps {s0 : State} {s : State} {e : Nat} {f : Prot → Prot} (wF : Free F [.surv]) (hK : Keeps F s0 s) :
    Keeps F s0 (State.modProt s e f) := by
  unfold State.modProt
  repeat' first
    | with_reducible assumption
    | exact wF.sub rfl
    | with_reducible apply State.modSurv_keeps
    | dsimp only
    | with_reducible apply Keeps.upd
    | with_reducible exact fun _ => rfl
    | exact wF.off rfl

theorem State.closeVote_keeps {s0 : State} {s : State} {inst : Nat} (wF : Free F [.cores, .fab]) (hK : Keeps F s0 s) :
    Keeps F s0 (State.closeVote s inst) := by
  unfold State.closeVote
  repeat' first
    | with_reducible assumption
    | exact wF.sub rfl
    | with_reducible apply State.leaveColl_keeps
    | split
    | (with_reducible apply Keeps.of_fst; assumption)
    | (with_reducible apply Keeps.of_snd; assumption)
    | dsimp only
    | with_reducible apply Keeps.upd
    | with_reducible exact fun _ => rfl
    | exact wF.off rfl

theorem State.voteSteps_keeps {s0 : State} {s : State} {inst : Nat} {entry : Nat} {pass : Bool} {held : Bool} (wF : Free F [.regs, .mem, .cache, .hbm, .cores, .objs, .fab, .uu, .surv, .pwr, .recd, .free]) (hK : Keeps F s0 s) :
    Keeps F s0 (State.voteSteps s inst entry pass held) := by
  unfold State.voteSteps
  repeat' first
    | with_reducible assumption
    | exact wF.sub rfl
    | with_reducible apply State.bump_keeps
    | with_reducible apply State.closeVote_keeps
    | with_reducible apply State.lowerGrad_keeps
    | with_reducible apply State.modProt_keeps
    | with_reducible apply State.raise_keeps
    | with_reducible apply Keeps.ite
    | (with_reducible apply Keeps.foldl1; intro _ _ _)
    | (with_reducible apply Keeps.foldl2; intro _ _ _)
    | (with_reducible apply Keeps.foldl; intro _ _ _)
    | split
    | (with_reducible apply Keeps.of_fst; assumption)
    | (with_reducible apply Keeps.of_snd; assumption)
    | dsimp only
    | with_reducible apply Keeps.upd
    | with_reducible exact fun _ => rfl
    | exact wF.off rfl

theorem State.tell_keeps {s0 : State} {s : State} {e : Nat} {job : Nat} {k : ReqKind} {msg : List Byte} (wF : Free F [.regs, .fab, .surv]) (hK : Keeps F s0 s) :
    Keeps F s0 (State.tell s e job k msg) := by
  unfold State.tell
  repeat' first
    | with_reducible assumption
    | exact wF.sub rfl
    | with_reducible apply State.modSurv_keeps
    | with_reducible apply State.send_keeps
    | with_reducible apply Keeps.ite
    | split
    | dsimp only
    | with_reducible apply Keeps.upd
    | with_reducible exact fun _ => rfl
    | exact wF.off rfl

theorem State.note_keeps {s0 : State} {s : State} {e : Nat} {job : Nat} {k : Mail} {a : Nat} {b : Nat} {rest : List Byte} (wF : Free F [.regs, .fab, .surv]) (hK : Keeps F s0 s) :
    Keeps F s0 (State.note s e job k a b rest) := by
  unfold State.note
  repeat' first
    | with_reducible assumption
    | exact wF.sub rfl
    | with_reducible apply State.tell_keeps
    | dsimp only
    | with_reducible apply Keeps.upd
    | with_reducible exact fun _ => rfl
    | exact wF.off rfl

theorem State.streamBytes_keeps {s0 : State} {s : State} {e : Nat} {job : Nat} {a : Nat} {bytes : List Byte} (wF : Free F [.regs, .fab]) (hK : Keeps F s0 s) :
    Keeps F s0 (State.streamBytes s e job a bytes) := by
  unfold State.streamBytes
  repeat' first
    | with_reducible assumption
    | exact wF.sub rfl
    | with_reducible apply State.send_keeps
    | (with_reducible apply Keeps.foldl1; intro _ _ _)
    | (with_reducible apply Keeps.foldl2; intro _ _ _)
    | (with_reducible apply Keeps.foldl; intro _ _ _)
    | dsimp only
    | with_reducible apply Keeps.upd
    | with_reducible exact fun _ => rfl
    | exact wF.off rfl

theorem State.settleSeal_keeps {s0 : State} {s : State} {e : Nat} {p : Prot} {x : Seal} (wF : Free F [.regs, .fab, .surv, .recd]) (hK : Keeps F s0 s) :
    Keeps F s0 (State.settleSeal s e p x) := by
  unfold State.settleSeal
  repeat' first
    | with_reducible assumption
    | exact wF.sub rfl
    | with_reducible apply State.bump_keeps
    | with_reducible apply State.modSurv_keeps
    | with_reducible apply State.note_keeps
    | with_reducible apply State.raise_keeps
    | with_reducible apply State.setProt_keeps
    | dsimp only
    | with_reducible apply Keeps.upd
    | with_reducible exact fun _ => rfl
    | exact wF.off rfl

theorem State.sealRules_keeps {s0 : State} {s : State} {e : Nat} {p : Prot} {pass : Bool} {req : Bool} {op : Bool} {void : Bool} (wF : Free F [.regs, .fab, .surv, .recd]) (hK : Keeps F s0 s) :
    Keeps F s0 (State.sealRules s e p pass req op void).1 := by
  unfold State.sealRules
  repeat' first
    | with_reducible assumption
    | exact wF.sub rfl
    | with_reducible apply State.modSurv_keeps
    | with_reducible apply State.note_keeps
    | with_reducible apply State.setProt_keeps
    | with_reducible apply State.settleSeal_keeps
    | with_reducible apply Keeps.ite
    | split
    | (with_reducible apply Keeps.of_fst; assumption)
    | (with_reducible apply Keeps.of_snd; assumption)
    | dsimp only
    | with_reducible apply Keeps.upd
    | with_reducible exact fun _ => rfl
    | exact wF.off rfl

theorem State.drain_keeps {s0 : State} {s : State} {e : Nat} (wF : Free F [.regs, .fab, .surv]) (hK : Keeps F s0 s) :
    Keeps F s0 (State.drain s e) := by
  unfold State.drain
  repeat' first
    | with_reducible assumption
    | exact wF.sub rfl
    | with_reducible apply State.bump_keeps
    | with_reducible apply State.sendMirror_keeps
    | with_reducible apply Keeps.ite
    | (with_reducible apply Keeps.foldl1; intro _ _ _)
    | (with_reducible apply Keeps.foldl2; intro _ _ _)
    | (with_reducible apply Keeps.foldl; intro _ _ _)
    | split
    | (with_reducible apply Keeps.of_fst; assumption)
    | (with_reducible apply Keeps.of_snd; assumption)
    | dsimp only
    | with_reducible apply Keeps.upd
    | with_reducible exact fun _ => rfl
    | exact wF.off rfl

theorem State.baseline_keeps {s0 : State} {s : State} {e : Nat} (wF : Free F [.regs, .fab, .surv]) (hK : Keeps F s0 s) :
    Keeps F s0 (State.baseline s e) := by
  unfold State.baseline
  repeat' first
    | with_reducible assumption
    | exact wF.sub rfl
    | with_reducible apply State.drain_keeps
    | with_reducible apply State.markLine_keeps
    | with_reducible apply State.setProt_keeps
    | (with_reducible apply Keeps.foldl1; intro _ _ _)
    | (with_reducible apply Keeps.foldl2; intro _ _ _)
    | (with_reducible apply Keeps.foldl; intro _ _ _)
    | split
    | (with_reducible apply Keeps.of_fst; assumption)
    | (with_reducible apply Keeps.of_snd; assumption)
    | dsimp only
    | with_reducible apply Keeps.upd
    | with_reducible exact fun _ => rfl
    | exact wF.off rfl

theorem State.baselineDone_keeps {s0 : State} {s : State} {e : Nat} (wF : Free F [.surv]) (hK : Keeps F s0 s) :
    Keeps F s0 (State.baselineDone s e) := by
  unfold State.baselineDone
  repeat' first
    | with_reducible assumption
    | exact wF.sub rfl
    | with_reducible apply State.modProt_keeps
    | with_reducible apply Keeps.ite
    | split
    | dsimp only
    | with_reducible apply Keeps.upd
    | with_reducible exact fun _ => rfl
    | exact wF.off rfl

theorem State.sendMarker_keeps {s0 : State} {s : State} {e : Nat} {p : Prot} {close : Bool} {t : Nat} (wF : Free F [.regs, .fab, .surv]) (hK : Keeps F s0 s) :
    Keeps F s0 (State.sendMarker s e p close t) := by
  unfold State.sendMarker
  repeat' first
    | with_reducible assumption
    | exact wF.sub rfl
    | with_reducible apply State.tell_keeps
    | with_reducible apply Keeps.ite
    | split
    | (with_reducible apply Keeps.of_fst; assumption)
    | (with_reducible apply Keeps.of_snd; assumption)
    | dsimp only
    | with_reducible apply Keeps.upd
    | with_reducible exact fun _ => rfl
    | exact wF.off rfl

theorem State.sealWriteback_keeps {s0 : State} {s : State} {p : Prot} (wF : Free F [.regs, .mem, .cache, .hbm, .fab, .surv, .pwr, .recd]) (hK : Keeps F s0 s) :
    Keeps F s0 (State.sealWriteback s p) := by
  unfold State.sealWriteback
  repeat' first
    | with_reducible assumption
    | exact wF.sub rfl
    | with_reducible apply State.modLines_keeps
    | with_reducible apply State.writeBack_keeps
    | (with_reducible apply Keeps.foldl1; intro _ _ _)
    | (with_reducible apply Keeps.foldl2; intro _ _ _)
    | (with_reducible apply Keeps.foldl; intro _ _ _)
    | dsimp only
    | with_reducible apply Keeps.upd
    | with_reducible exact fun _ => rfl
    | exact wF.off rfl

theorem State.holdWrites_keeps {s0 : State} {s : State} {e : Nat} {c : Close} (wF : Free F [.surv]) (hK : Keeps F s0 s) :
    Keeps F s0 (State.holdWrites s e c) := by
  unfold State.holdWrites
  repeat' first
    | with_reducible assumption
    | exact wF.sub rfl
    | with_reducible apply State.modProt_keeps
    | dsimp only
    | with_reducible apply Keeps.upd
    | with_reducible exact fun _ => rfl
    | exact wF.off rfl

theorem State.streamSeal_keeps {s0 : State} {s : State} {e : Nat} {p : Prot} {x : Seal} (wF : Free F [.regs, .fab, .surv]) (hK : Keeps F s0 s) :
    Keeps F s0 (State.streamSeal s e p x) := by
  unfold State.streamSeal
  repeat' first
    | with_reducible assumption
    | exact wF.sub rfl
    | with_reducible apply State.note_keeps
    | with_reducible apply State.streamBytes_keeps
    | with_reducible apply Keeps.ite
    | (with_reducible apply Keeps.foldl1; intro _ _ _)
    | (with_reducible apply Keeps.foldl2; intro _ _ _)
    | (with_reducible apply Keeps.foldl; intro _ _ _)
    | split
    | dsimp only
    | with_reducible apply Keeps.upd
    | with_reducible exact fun _ => rfl
    | exact wF.off rfl

theorem State.stepClosed_keeps {s0 : State} {s : State} {e : Nat} {p : Prot} {c : Close} (wF : Free F [.regs, .mem, .cache, .hbm, .cores, .objs, .fab, .uu, .surv, .pwr, .recd, .free]) (hK : Keeps F s0 s) :
    Keeps F s0 (State.stepClosed s e p c) := by
  unfold State.stepClosed
  repeat' first
    | with_reducible assumption
    | exact wF.sub rfl
    | with_reducible apply State.holdWrites_keeps
    | with_reducible apply State.sealWriteback_keeps
    | with_reducible apply State.sendMarker_keeps
    | with_reducible apply State.setProt_keeps
    | with_reducible apply State.voteSteps_keeps
    | with_reducible apply Keeps.ite
    | split
    | dsimp only
    | with_reducible apply Keeps.upd
    | with_reducible exact fun _ => rfl
    | exact wF.off rfl

theorem State.releaseHeld_keeps {s0 : State} {s : State} {e : Nat} (wF : Free F [.uu, .surv]) (hK : Keeps F s0 s) :
    Keeps F s0 (State.releaseHeld s e) := by
  unfold State.releaseHeld
  repeat' first
    | with_reducible assumption
    | exact wF.sub rfl
    | with_reducible apply State.modProt_keeps
    | with_reducible apply Keeps.ite
    | split
    | (with_reducible apply Keeps.of_fst; assumption)
    | (with_reducible apply Keeps.of_snd; assumption)
    | dsimp only
    | with_reducible apply Keeps.upd
    | with_reducible exact fun _ => rfl
    | exact wF.off rfl

theorem execVoteOutcome_keeps {s0 : State} {inst : Nat} {s : State} (wF : Free F [.regs, .mem, .cache, .hbm, .cores, .objs, .fab, .uu, .surv, .pwr, .recd, .free]) (hK : Keeps F s0 s) :
    KeepsRes F s0 (execVoteOutcome inst s) := by
  unfold execVoteOutcome
  repeat' first
    | with_reducible assumption
    | exact wF.sub rfl
    | with_reducible apply State.adopt_keeps
    | with_reducible apply State.sealRules_keeps
    | with_reducible apply State.setProt_keeps
    | with_reducible apply State.voteSteps_keeps
    | with_reducible apply Keeps.ite
    | with_reducible apply KeepsRes.next
    | exact KeepsRes.refused
    | split
    | (with_reducible apply Keeps.of_fst; assumption)
    | (with_reducible apply Keeps.of_snd; assumption)
    | dsimp only
    | with_reducible apply Keeps.upd
    | with_reducible exact fun _ => rfl
    | exact wF.off rfl

theorem execStepCloseReady_keeps {s0 : State} {entry : Nat} {s : State} (wF : Free F [.regs, .mem, .cache, .hbm, .cores, .objs, .fab, .uu, .surv, .pwr, .recd, .free]) (hK : Keeps F s0 s) :
    KeepsRes F s0 (execStepCloseReady entry s) := by
  unfold execStepCloseReady
  repeat' first
    | with_reducible assumption
    | exact wF.sub rfl
    | with_reducible apply State.guarded_keeps
    | with_reducible apply State.stepClosed_keeps
    | with_reducible apply Keeps.ite
    | with_reducible apply KeepsRes.next
    | exact KeepsRes.refused
    | split
    | (with_reducible apply Keeps.of_fst; assumption)
    | (with_reducible apply Keeps.of_snd; assumption)
    | dsimp only
    | with_reducible apply Keeps.upd
    | with_reducible exact fun _ => rfl
    | exact wF.off rfl

theorem State.sealClosed_keeps {s0 : State} {s : State} {e : Nat} {p : Prot} {c : Close} (wF : Free F [.regs, .mem, .cache, .hbm, .cores, .objs, .fab, .uu, .surv, .pwr, .recd, .free]) (hK : Keeps F s0 s) :
    Keeps F s0 (State.sealClosed s e p c) := by
  unfold State.sealClosed
  repeat' first
    | with_reducible assumption
    | exact wF.sub rfl
    | with_reducible apply State.releaseWrites_keeps
    | with_reducible apply State.setProt_keeps
    | with_reducible apply State.streamSeal_keeps
    | with_reducible apply State.voteSteps_keeps
    | with_reducible apply Keeps.ite
    | split
    | (with_reducible apply Keeps.of_fst; assumption)
    | (with_reducible apply Keeps.of_snd; assumption)
    | dsimp only
    | with_reducible apply Keeps.upd
    | with_reducible exact fun _ => rfl
    | exact wF.off rfl

theorem execSealWritebackDone_keeps {s0 : State} {entry : Nat} {s : State} (wF : Free F [.regs, .mem, .cache, .hbm, .cores, .objs, .fab, .uu, .surv, .pwr, .recd, .free]) (hK : Keeps F s0 s) :
    KeepsRes F s0 (execSealWritebackDone entry s) := by
  unfold execSealWritebackDone
  repeat' first
    | with_reducible assumption
    | exact wF.sub rfl
    | with_reducible apply State.sealClosed_keeps
    | with_reducible apply State.sendMarker_keeps
    | with_reducible apply State.setProt_keeps
    | with_reducible apply Keeps.ite
    | with_reducible apply KeepsRes.next
    | exact KeepsRes.refused
    | split
    | (with_reducible apply Keeps.of_fst; assumption)
    | (with_reducible apply Keeps.of_snd; assumption)
    | dsimp only
    | with_reducible apply Keeps.upd
    | with_reducible exact fun _ => rfl
    | exact wF.off rfl

theorem State.dropMarker_keeps {s0 : State} {s : State} {e : Nat} {close : Bool} (wF : Free F [.regs, .fab, .surv, .recd]) (hK : Keeps F s0 s) :
    Keeps F s0 (State.dropMarker s e close) := by
  unfold State.dropMarker
  repeat' first
    | with_reducible assumption
    | exact wF.sub rfl
    | with_reducible apply State.dropReq_keeps
    | split
    | (with_reducible apply Keeps.of_fst; assumption)
    | (with_reducible apply Keeps.of_snd; assumption)
    | dsimp only
    | with_reducible apply Keeps.upd
    | with_reducible exact fun _ => rfl
    | exact wF.off rfl

theorem execMarkerAck_keeps {s0 : State} {entry : Nat} {s : State} (wF : Free F [.regs, .mem, .cache, .hbm, .cores, .objs, .fab, .uu, .surv, .pwr, .recd, .free]) (hK : Keeps F s0 s) :
    KeepsRes F s0 (execMarkerAck entry s) := by
  unfold execMarkerAck
  repeat' first
    | with_reducible assumption
    | exact wF.sub rfl
    | with_reducible apply State.dropMarker_keeps
    | with_reducible apply State.releaseHeld_keeps
    | with_reducible apply State.sealClosed_keeps
    | with_reducible apply Keeps.ite
    | with_reducible apply KeepsRes.next
    | exact KeepsRes.refused
    | split
    | (with_reducible apply Keeps.of_fst; assumption)
    | (with_reducible apply Keeps.of_snd; assumption)
    | dsimp only
    | with_reducible apply Keeps.upd
    | with_reducible exact fun _ => rfl
    | exact wF.off rfl

theorem execMirrorStoreAck_keeps {s0 : State} {entry : Nat} {line : Nat} {s : State} (wF : Free F [.regs, .fab, .surv, .recd]) (hK : Keeps F s0 s) :
    KeepsRes F s0 (execMirrorStoreAck entry line s) := by
  unfold execMirrorStoreAck
  repeat' first
    | with_reducible assumption
    | exact wF.sub rfl
    | with_reducible apply State.baselineDone_keeps
    | with_reducible apply State.drain_keeps
    | with_reducible apply State.dropReq_keeps
    | with_reducible apply State.setProt_keeps
    | with_reducible apply Keeps.ite
    | with_reducible apply KeepsRes.next
    | exact KeepsRes.refused
    | split
    | (with_reducible apply Keeps.of_fst; assumption)
    | (with_reducible apply Keeps.of_snd; assumption)
    | dsimp only
    | with_reducible apply Keeps.upd
    | with_reducible exact fun _ => rfl
    | exact wF.off rfl

theorem execSealStreamAck_keeps {s0 : State} {entry : Nat} {s : State} (wF : Free F [.regs, .fab, .surv, .recd]) (hK : Keeps F s0 s) :
    KeepsRes F s0 (execSealStreamAck entry s) := by
  unfold execSealStreamAck
  repeat' first
    | with_reducible assumption
    | exact wF.sub rfl
    | with_reducible apply State.dropReqs_keeps
    | with_reducible apply State.setProt_keeps
    | with_reducible apply Keeps.ite
    | with_reducible apply KeepsRes.next
    | exact KeepsRes.refused
    | split
    | (with_reducible apply Keeps.of_fst; assumption)
    | (with_reducible apply Keeps.of_snd; assumption)
    | dsimp only
    | with_reducible apply Keeps.upd
    | with_reducible exact fun _ => rfl
    | exact wF.off rfl

theorem State.restoreStops_keeps {s0 : State} {s : State} {e : Nat} {p : Prot} {code : Nat} (wF : Free F [.surv, .recd]) (hK : Keeps F s0 s) :
    Keeps F s0 (State.restoreStops s e p code) := by
  unfold State.restoreStops
  repeat' first
    | with_reducible assumption
    | exact wF.sub rfl
    | with_reducible apply State.raise_keeps
    | with_reducible apply State.setProt_keeps
    | dsimp only
    | with_reducible apply Keeps.upd
    | with_reducible exact fun _ => rfl
    | exact wF.off rfl

theorem State.lapse_keeps {s0 : State} {s : State} {e : Nat} {p : Prot} (wF : Free F [.regs, .mem, .cache, .hbm, .cores, .objs, .fab, .uu, .surv, .pwr, .recd, .free]) (hK : Keeps F s0 s) :
    Keeps F s0 (State.lapse s e p) := by
  unfold State.lapse
  repeat' first
    | with_reducible assumption
    | exact wF.sub rfl
    | with_reducible apply State.dropReqs_keeps
    | with_reducible apply State.markLine_keeps
    | with_reducible apply State.raise_keeps
    | with_reducible apply State.releaseHeld_keeps
    | with_reducible apply State.restoreStops_keeps
    | with_reducible apply State.sealClosed_keeps
    | with_reducible apply State.setProt_keeps
    | with_reducible apply Keeps.ite
    | (with_reducible apply Keeps.foldl1; intro _ _ _)
    | (with_reducible apply Keeps.foldl2; intro _ _ _)
    | (with_reducible apply Keeps.foldl; intro _ _ _)
    | split
    | (with_reducible apply Keeps.of_fst; assumption)
    | (with_reducible apply Keeps.of_snd; assumption)
    | dsimp only
    | with_reducible apply Keeps.upd
    | with_reducible exact fun _ => rfl
    | exact wF.off rfl

theorem State.lapseAll_keeps {s0 : State} {s : State} (wF : Free F [.regs, .mem, .cache, .hbm, .cores, .objs, .fab, .uu, .surv, .pwr, .recd, .free]) (hK : Keeps F s0 s) :
    Keeps F s0 (State.lapseAll s) := by
  unfold State.lapseAll
  repeat' first
    | with_reducible assumption
    | exact wF.sub rfl
    | with_reducible apply State.lapse_keeps
    | (with_reducible apply Keeps.foldl1; intro _ _ _)
    | (with_reducible apply Keeps.foldl2; intro _ _ _)
    | (with_reducible apply Keeps.foldl; intro _ _ _)
    | dsimp only
    | with_reducible apply Keeps.upd
    | with_reducible exact fun _ => rfl
    | exact wF.off rfl

theorem State.partnerLost_keeps {s0 : State} {s : State} {slot : Nat} (wF : Free F [.regs, .mem, .cache, .hbm, .cores, .objs, .fab, .uu, .surv, .pwr, .recd, .free]) (hK : Keeps F s0 s) :
    Keeps F s0 (State.partnerLost s slot) := by
  unfold State.partnerLost
  repeat' first
    | with_reducible assumption
    | exact wF.sub rfl
    | with_reducible apply State.lapseAll_keeps
    | with_reducible apply State.modSurv_keeps
    | with_reducible apply State.raise_keeps
    | with_reducible apply Keeps.ite
    | (with_reducible apply Keeps.foldl1; intro _ _ _)
    | (with_reducible apply Keeps.foldl2; intro _ _ _)
    | (with_reducible apply Keeps.foldl; intro _ _ _)
    | split
    | dsimp only
    | with_reducible apply Keeps.upd
    | with_reducible exact fun _ => rfl
    | exact wF.off rfl

theorem State.pairRefused_keeps {s0 : State} {s : State} {code : Nat} (wF : Free F [.surv, .recd]) (hK : Keeps F s0 s) :
    Keeps F s0 (State.pairRefused s code) := by
  unfold State.pairRefused
  repeat' first
    | with_reducible assumption
    | exact wF.sub rfl
    | with_reducible apply State.modSurv_keeps
    | with_reducible apply State.raise_keeps
    | dsimp only
    | with_reducible apply Keeps.upd
    | with_reducible exact fun _ => rfl
    | exact wF.off rfl

theorem State.reserveTwin_keeps {s0 : State} {s : State} {e : Nat} (wF : Free F [.regs, .fab, .surv]) (hK : Keeps F s0 s) :
    Keeps F s0 (State.reserveTwin s e) := by
  unfold State.reserveTwin
  repeat' first
    | with_reducible assumption
    | exact wF.sub rfl
    | with_reducible apply State.note_keeps
    | with_reducible apply State.setProt_keeps
    | with_reducible apply State.streamBytes_keeps
    | split
    | (with_reducible apply Keeps.of_fst; assumption)
    | (with_reducible apply Keeps.of_snd; assumption)
    | dsimp only
    | with_reducible apply Keeps.upd
    | with_reducible exact fun _ => rfl
    | exact wF.off rfl

theorem State.tryPair_keeps {s0 : State} {s : State} {r : PairReq} (wF : Free F [.regs, .fab, .surv, .recd]) (hK : Keeps F s0 s) :
    Keeps F s0 (State.tryPair s r) := by
  unfold State.tryPair
  repeat' first
    | with_reducible assumption
    | exact wF.sub rfl
    | with_reducible apply State.baseline_keeps
    | with_reducible apply State.modSurv_keeps
    | with_reducible apply State.pairRefused_keeps
    | with_reducible apply State.raise_keeps
    | with_reducible apply State.reserveTwin_keeps
    | with_reducible apply Keeps.ite
    | (with_reducible apply Keeps.foldl1; intro _ _ _)
    | (with_reducible apply Keeps.foldl2; intro _ _ _)
    | (with_reducible apply Keeps.foldl; intro _ _ _)
    | split
    | (with_reducible apply Keeps.of_fst; assumption)
    | (with_reducible apply Keeps.of_snd; assumption)
    | dsimp only
    | with_reducible apply Keeps.upd
    | with_reducible exact fun _ => rfl
    | exact wF.off rfl

theorem execPairGo_keeps {s0 : State} {s : State} (wF : Free F [.regs, .fab, .surv, .recd]) (hK : Keeps F s0 s) :
    KeepsRes F s0 (execPairGo s) := by
  unfold execPairGo
  repeat' first
    | with_reducible assumption
    | exact wF.sub rfl
    | with_reducible apply State.modSurv_keeps
    | with_reducible apply State.pairRefused_keeps
    | with_reducible apply State.send_keeps
    | with_reducible apply State.tryPair_keeps
    | with_reducible apply Keeps.ite
    | with_reducible apply KeepsRes.next
    | exact KeepsRes.refused
    | split
    | (with_reducible apply Keeps.of_fst; assumption)
    | (with_reducible apply Keeps.of_snd; assumption)
    | dsimp only
    | with_reducible apply Keeps.upd
    | with_reducible exact fun _ => rfl
    | exact wF.off rfl

theorem execPairRequestReceived_keeps {s0 : State} {src : Nat} {req : PairReq} {s : State} (wF : Free F [.regs, .fab, .surv, .recd]) (hK : Keeps F s0 s) :
    KeepsRes F s0 (execPairRequestReceived src req s) := by
  unfold execPairRequestReceived
  repeat' first
    | with_reducible assumption
    | exact wF.sub rfl
    | with_reducible apply State.modSurv_keeps
    | with_reducible apply State.tryPair_keeps
    | with_reducible apply Keeps.ite
    | with_reducible apply KeepsRes.next
    | exact KeepsRes.refused
    | split
    | dsimp only
    | with_reducible apply Keeps.upd
    | with_reducible exact fun _ => rfl
    | exact wF.off rfl

theorem execPairTimeout_keeps {s0 : State} {s : State} (wF : Free F [.surv, .recd]) (hK : Keeps F s0 s) :
    KeepsRes F s0 (execPairTimeout s) := by
  unfold execPairTimeout
  repeat' first
    | with_reducible assumption
    | exact wF.sub rfl
    | with_reducible apply State.pairRefused_keeps
    | with_reducible apply Keeps.ite
    | with_reducible apply KeepsRes.next
    | exact KeepsRes.refused
    | split
    | dsimp only
    | with_reducible apply Keeps.upd
    | with_reducible exact fun _ => rfl
    | exact wF.off rfl

theorem execUnpair_keeps {s0 : State} {s : State} (wF : Free F [.regs, .mem, .cache, .hbm, .cores, .objs, .fab, .uu, .surv, .pwr, .recd, .free]) (hK : Keeps F s0 s) :
    KeepsRes F s0 (execUnpair s) := by
  unfold execUnpair
  repeat' first
    | with_reducible assumption
    | exact wF.sub rfl
    | with_reducible apply State.lapseAll_keeps
    | with_reducible apply State.modSurv_keeps
    | with_reducible apply Keeps.ite
    | with_reducible apply KeepsRes.next
    | exact KeepsRes.refused
    | split
    | dsimp only
    | with_reducible apply Keeps.upd
    | with_reducible exact fun _ => rfl
    | exact wF.off rfl

theorem execSwapReq_keeps {s0 : State} {s : State} (wF : Free F [.surv]) (hK : Keeps F s0 s) :
    KeepsRes F s0 (execSwapReq s) := by
  unfold execSwapReq
  repeat' first
    | with_reducible assumption
    | exact wF.sub rfl
    | with_reducible apply State.modSurv_keeps
    | with_reducible apply KeepsRes.next
    | exact KeepsRes.refused
    | dsimp only
    | with_reducible apply Keeps.upd
    | with_reducible exact fun _ => rfl
    | exact wF.off rfl

theorem execProtectEnable_keeps {s0 : State} {entry : Nat} {s : State} (wF : Free F [.regs, .fab, .surv, .free]) (hK : Keeps F s0 s) :
    KeepsRes F s0 (execProtectEnable entry s) := by
  unfold execProtectEnable
  repeat' first
    | with_reducible assumption
    | exact wF.sub rfl
    | with_reducible apply State.baseline_keeps
    | with_reducible apply State.draw_keeps
    | with_reducible apply State.modProt_keeps
    | with_reducible apply State.modSurv_keeps
    | with_reducible apply State.reserveTwin_keeps
    | with_reducible apply State.setProt_keeps
    | with_reducible apply Keeps.ite
    | with_reducible apply KeepsRes.next
    | exact KeepsRes.refused
    | split
    | (with_reducible apply Keeps.of_fst; assumption)
    | (with_reducible apply Keeps.of_snd; assumption)
    | dsimp only
    | with_reducible apply Keeps.upd
    | with_reducible exact fun _ => rfl
    | exact wF.off rfl

theorem execProtectDisable_keeps {s0 : State} {entry : Nat} {s : State} (wF : Free F [.regs, .mem, .cache, .hbm, .cores, .objs, .fab, .uu, .surv, .pwr, .recd, .free]) (hK : Keeps F s0 s) :
    KeepsRes F s0 (execProtectDisable entry s) := by
  unfold execProtectDisable
  repeat' first
    | with_reducible assumption
    | exact wF.sub rfl
    | with_reducible apply State.dropReqs_keeps
    | with_reducible apply State.note_keeps
    | with_reducible apply State.releaseHeld_keeps
    | with_reducible apply State.releaseWrites_keeps
    | with_reducible apply State.setProt_keeps
    | with_reducible apply State.voteSteps_keeps
    | with_reducible apply KeepsRes.next
    | exact KeepsRes.refused
    | split
    | (with_reducible apply Keeps.of_fst; assumption)
    | (with_reducible apply Keeps.of_snd; assumption)
    | dsimp only
    | with_reducible apply Keeps.upd
    | with_reducible exact fun _ => rfl
    | exact wF.off rfl

theorem State.restoreWith_keeps {s0 : State} {s : State} {entry : Nat} {record : List Byte} (wF : Free F [.surv]) (hK : Keeps F s0 s) :
    Keeps F s0 (State.restoreWith s entry record) := by
  unfold State.restoreWith
  repeat' first
    | with_reducible assumption
    | exact wF.sub rfl
    | with_reducible apply State.setProt_keeps
    | with_reducible apply Keeps.ite
    | split
    | (with_reducible apply Keeps.of_fst; assumption)
    | (with_reducible apply Keeps.of_snd; assumption)
    | dsimp only
    | with_reducible apply Keeps.upd
    | with_reducible exact fun _ => rfl
    | exact wF.off rfl

theorem State.restoreAsked_keeps {s0 : State} {s : State} {e : Nat} (wF : Free F [.surv]) (hK : Keeps F s0 s) :
    Keeps F s0 (State.restoreAsked s e) := by
  unfold State.restoreAsked
  repeat' first
    | with_reducible assumption
    | exact wF.sub rfl
    | with_reducible apply State.restoreWith_keeps
    | with_reducible apply Keeps.ite
    | split
    | (with_reducible apply Keeps.of_fst; assumption)
    | (with_reducible apply Keeps.of_snd; assumption)
    | dsimp only
    | with_reducible apply Keeps.upd
    | with_reducible exact fun _ => rfl
    | exact wF.off rfl

theorem execRestoreGo_keeps {s0 : State} {entry : Nat} {record : List Byte} {s : State} (wF : Free F [.surv]) (hK : Keeps F s0 s) :
    KeepsRes F s0 (execRestoreGo entry record s) := by
  unfold execRestoreGo
  repeat' first
    | with_reducible assumption
    | exact wF.sub rfl
    | with_reducible apply State.restoreWith_keeps
    | with_reducible apply KeepsRes.next
    | exact KeepsRes.refused
    | dsimp only
    | with_reducible apply Keeps.upd
    | with_reducible exact fun _ => rfl
    | exact wF.off rfl

theorem State.restorePage_keeps {s0 s : State} {g : Nat × List Byte} (wF : Free F [.regs, .mem, .cache, .hbm]) (h : Keeps F s0 s) : Keeps F s0 (State.restorePage s g) :=
  State.bump_keeps (wF.sub rfl) (State.mendHalves_keeps (wF.sub rfl) (Keeps.setMem (wF _ (by decide)) (State.dropRange_keeps (wF.sub rfl) h) fun m => cellPuts_wf m _ _))

theorem State.applySched_keeps {s0 : State} {s : State} {e : Nat} {x : Sched} (wF : Free F [.regs, .objs, .host, .fab]) (hK : Keeps F s0 s) :
    Keeps F s0 (State.applySched s e x) := by
  unfold State.applySched
  repeat' first
    | with_reducible assumption
    | exact wF.sub rfl
    | with_reducible apply State.modFence_keeps
    | with_reducible apply State.publish_keeps
    | with_reducible apply State.setQueue_keeps
    | with_reducible apply State.wake_keeps
    | (with_reducible apply Keeps.foldl1; intro _ _ _)
    | (with_reducible apply Keeps.foldl2; intro _ _ _)
    | (with_reducible apply Keeps.foldl; intro _ _ _)
    | split
    | (with_reducible apply Keeps.of_fst; assumption)
    | (with_reducible apply Keeps.of_snd; assumption)
    | dsimp only
    | with_reducible apply Keeps.upd
    | with_reducible exact fun _ => rfl
    | exact wF.off rfl

theorem State.resetHistory_keeps {s0 : State} {s : State} {x : Nat} {d : Desc} (wF : Free F [.regs, .mem, .cache, .hbm, .objs, .fab, .surv, .pwr, .recd, .free]) (hK : Keeps F s0 s) :
    Keeps F s0 (State.resetHistory s x d) := by
  unfold State.resetHistory
  repeat' first
    | with_reducible assumption
    | exact wF.sub rfl
    | with_reducible apply State.modStats_keeps
    | with_reducible apply State.raise_keeps
    | dsimp only
    | with_reducible apply Keeps.upd
    | with_reducible exact fun _ => rfl
    | exact wF.off rfl

theorem State.resetHistories_keeps {s0 : State} {s : State} {e : Nat} {p : Prot} (wF : Free F [.regs, .mem, .cache, .hbm, .objs, .fab, .surv, .pwr, .recd, .free]) (hK : Keeps F s0 s) :
    Keeps F s0 (State.resetHistories s e p) := by
  unfold State.resetHistories
  repeat' first
    | with_reducible assumption
    | exact wF.sub rfl
    | with_reducible apply State.resetHistory_keeps
    | (with_reducible apply Keeps.foldl1; intro _ _ _)
    | (with_reducible apply Keeps.foldl2; intro _ _ _)
    | (with_reducible apply Keeps.foldl; intro _ _ _)
    | split
    | (with_reducible apply Keeps.of_fst; assumption)
    | (with_reducible apply Keeps.of_snd; assumption)
    | dsimp only
    | with_reducible apply Keeps.upd
    | with_reducible exact fun _ => rfl
    | exact wF.off rfl

theorem State.restored_keeps {s0 : State} {s : State} {e : Nat} {p : Prot} {x : Sched} {digests : List (List Byte)} (wF : Free F [.regs, .mem, .cache, .hbm, .objs, .host, .fab, .surv, .pwr, .recd, .free]) (hK : Keeps F s0 s) :
    Keeps F s0 (State.restored s e p x digests) := by
  unfold State.restored
  repeat' first
    | with_reducible assumption
    | exact wF.sub rfl
    | with_reducible apply State.applySched_keeps
    | with_reducible apply State.baseline_keeps
    | with_reducible apply State.dropReqs_keeps
    | with_reducible apply State.note_keeps
    | with_reducible apply State.raise_keeps
    | with_reducible apply State.resetHistories_keeps
    | with_reducible apply State.setProt_keeps
    | with_reducible apply Keeps.ite
    | split
    | dsimp only
    | with_reducible apply Keeps.upd
    | with_reducible exact fun _ => rfl
    | exact wF.off rfl

theorem State.restorePartner_keeps {s0 : State} {s : State} {e : Nat} {p : Prot} {lost : Bool} {digests : List (List Byte)} {pages : List (Nat × List Byte)} (wF : Free F [.regs, .mem, .cache, .hbm, .objs, .host, .fab, .surv, .pwr, .recd, .free]) (hK : Keeps F s0 s) :
    Keeps F s0 (State.restorePartner s e p lost digests pages) := by
  unfold State.restorePartner
  repeat' first
    | with_reducible assumption
    | exact wF.sub rfl
    | with_reducible apply State.restorePage_keeps
    | with_reducible apply State.restoreStops_keeps
    | with_reducible apply State.restored_keeps
    | with_reducible apply State.touch_keeps
    | with_reducible apply Keeps.ite
    | (with_reducible apply Keeps.foldl1; intro _ _ _)
    | (with_reducible apply Keeps.foldl2; intro _ _ _)
    | (with_reducible apply Keeps.foldl; intro _ _ _)
    | split
    | (with_reducible apply Keeps.of_fst; assumption)
    | (with_reducible apply Keeps.of_snd; assumption)
    | dsimp only
    | with_reducible apply Keeps.upd
    | with_reducible exact fun _ => rfl
    | exact wF.off rfl

theorem State.restoreLocal_keeps {s0 : State} {s : State} {e : Nat} {p : Prot} {failed : Option Nat} (wF : Free F [.regs, .mem, .cache, .hbm, .objs, .host, .fab, .surv, .pwr, .recd, .free]) (hK : Keeps F s0 s) :
    Keeps F s0 (State.restoreLocal s e p failed) := by
  unfold State.restoreLocal
  repeat' first
    | with_reducible assumption
    | exact wF.sub rfl
    | with_reducible apply State.restorePage_keeps
    | with_reducible apply State.restoreStops_keeps
    | with_reducible apply State.restored_keeps
    | with_reducible apply Keeps.ite
    | (with_reducible apply Keeps.foldl1; intro _ _ _)
    | (with_reducible apply Keeps.foldl2; intro _ _ _)
    | (with_reducible apply Keeps.foldl; intro _ _ _)
    | split
    | (with_reducible apply Keeps.of_fst; assumption)
    | (with_reducible apply Keeps.of_snd; assumption)
    | dsimp only
    | with_reducible apply Keeps.upd
    | with_reducible exact fun _ => rfl
    | exact wF.off rfl

theorem execRestoreComplete_keeps {s0 : State} {entry : Nat} {sourceLost : Bool} {digestFailed : Option Nat} {digests : List (List Byte)} {pages : List (Nat × List Byte)} {s : State} (wF : Free F [.regs, .mem, .cache, .hbm, .objs, .host, .fab, .surv, .pwr, .recd, .free]) (hK : Keeps F s0 s) :
    KeepsRes F s0 (execRestoreComplete entry sourceLost digestFailed digests pages s) := by
  unfold execRestoreComplete
  repeat' first
    | with_reducible assumption
    | exact wF.sub rfl
    | with_reducible apply State.dropRange_keeps
    | with_reducible apply State.restoreLocal_keeps
    | with_reducible apply State.restorePartner_keeps
    | with_reducible apply Keeps.ite
    | with_reducible apply KeepsRes.next
    | exact KeepsRes.refused
    | (with_reducible apply Keeps.foldl1; intro _ _ _)
    | (with_reducible apply Keeps.foldl2; intro _ _ _)
    | (with_reducible apply Keeps.foldl; intro _ _ _)
    | split
    | (with_reducible apply Keeps.of_fst; assumption)
    | (with_reducible apply Keeps.of_snd; assumption)
    | dsimp only
    | with_reducible apply Keeps.upd
    | with_reducible exact fun _ => rfl
    | exact wF.off rfl

end Sys2Proof.Machine
end

