-- ==== Sys2Proof/Laws/KeepsPackets.lean ====
section
/-! SUPPORT. What every step keeps: the functions of Machine/Packets.lean. -/

namespace Sys2Proof.Machine

open Sys2Proof

variable {F : Area → Bool}

theorem State.rejectPacket_keeps {s0 : State} {s : State} {p : Nat} {r : Packet} (wF : Free F [.regs, .surv, .recd]) (hK : Keeps F s0 s) :
    Keeps F s0 (State.rejectPacket s p r) := by
  unfold State.rejectPacket
  repeat' first
    | with_reducible assumption
    | exact wF.sub rfl
    | with_reducible apply State.bump_keeps
    | with_reducible apply State.raise_keeps
    | dsimp only
    | with_reducible apply Keeps.upd
    | with_reducible exact fun _ => rfl
    | exact wF.off rfl

theorem State.dropPacket_keeps {s0 : State} {s : State} {p : Nat} {k : SubQueue} {r : Packet} (wF : Free F [.regs, .objs, .host, .fab]) (hK : Keeps F s0 s) :
    Keeps F s0 (State.dropPacket s p k r) := by
  unfold State.dropPacket
  repeat' first
    | with_reducible assumption
    | exact wF.sub rfl
    | with_reducible apply State.fenceError_keeps
    | with_reducible apply State.setQueue_keeps
    | with_reducible apply Keeps.ite
    | split
    | dsimp only
    | with_reducible apply Keeps.upd
    | with_reducible exact fun _ => rfl
    | exact wF.off rfl

theorem execPacketArrival_keeps {s0 : State} {port : Nat} {bytes : List Byte} {s : State} (wF : Free F [.regs, .objs, .host, .fab, .surv, .recd]) (hK : Keeps F s0 s) :
    KeepsRes F s0 (execPacketArrival port bytes s) := by
  unfold execPacketArrival
  repeat' first
    | with_reducible assumption
    | exact wF.sub rfl
    | with_reducible apply State.bump_keeps
    | with_reducible apply State.dropPacket_keeps
    | with_reducible apply State.rejectPacket_keeps
    | with_reducible apply State.setQueue_keeps
    | with_reducible apply Keeps.ite
    | with_reducible apply KeepsRes.next
    | exact KeepsRes.refused
    | split
    | (with_reducible apply Keeps.of_fst; assumption)
    | (with_reducible apply Keeps.of_snd; assumption)
    | dsimp only
    | with_reducible apply Keeps.upd
    | with_reducible exact fun _ => rfl
    | exact wF.off rfl

theorem State.headDenied_keeps {s0 : State} {s : State} {key : Nat} {k : SubQueue} {p : Packet} {code : Nat} (wF : Free F [.regs, .objs, .host, .fab]) (hK : Keeps F s0 s) :
    Keeps F s0 (State.headDenied s key k p code) := by
  unfold State.headDenied
  repeat' first
    | with_reducible assumption
    | exact wF.sub rfl
    | with_reducible apply State.consumeHead_keeps
    | with_reducible apply State.log_keeps
    | with_reducible apply Keeps.ite
    | split
    | dsimp only
    | with_reducible apply Keeps.upd
    | with_reducible exact fun _ => rfl
    | exact wF.off rfl

theorem State.headWait_keeps {s0 : State} {s : State} {key : Nat} {k : SubQueue} {p : Packet} (wF : Free F [.regs, .objs, .host, .fab]) (hK : Keeps F s0 s) :
    Keeps F s0 (State.headWait s key k p) := by
  unfold State.headWait
  repeat' first
    | with_reducible assumption
    | exact wF.sub rfl
    | with_reducible apply State.failHead_keeps
    | with_reducible apply State.runHead_keeps
    | with_reducible apply State.setQueue_keeps
    | with_reducible apply State.wake_keeps
    | with_reducible apply Keeps.ite
    | split
    | (with_reducible apply Keeps.of_fst; assumption)
    | (with_reducible apply Keeps.of_snd; assumption)
    | dsimp only
    | with_reducible apply Keeps.upd
    | with_reducible exact fun _ => rfl
    | exact wF.off rfl

theorem execPacketHead_keeps {s0 : State} {port : Nat} {queue : Nat} {s : State} (wF : Free F [.regs, .objs, .host, .fab]) (hK : Keeps F s0 s) :
    KeepsRes F s0 (execPacketHead port queue s) := by
  unfold execPacketHead
  repeat' first
    | with_reducible assumption
    | exact wF.sub rfl
    | with_reducible apply State.headDenied_keeps
    | with_reducible apply State.headWait_keeps
    | with_reducible apply Keeps.ite
    | with_reducible apply KeepsRes.next
    | exact KeepsRes.refused
    | split
    | (with_reducible apply Keeps.of_fst; assumption)
    | (with_reducible apply Keeps.of_snd; assumption)
    | dsimp only
    | with_reducible apply Keeps.upd
    | with_reducible exact fun _ => rfl
    | exact wF.off rfl

theorem State.runPacket_keeps {s0 s : State} {port q op : Nat} {cmd : SubQueue → Packet → Nat → Cmd} (wF : Free F [.regs, .objs, .host, .fab]) (h : Keeps F s0 s)
    (hc : ∀ k p x, KeepsCmd F s0 (cmd k p x)) : Keeps F s0 (State.runPacket s port q op cmd) := by
  unfold State.runPacket
  repeat' first
    | with_reducible assumption
    | exact wF.sub rfl
    | with_reducible apply State.failPacket_keeps
    | split
    | exact hc _ _ _ _ (by assumption)
    | dsimp only

theorem execPktNop_keeps {s0 : State} {port : Nat} {queue : Nat} {s : State} (wF : Free F [.regs, .objs, .host, .fab, .surv, .recd]) (hK : Keeps F s0 s) :
    KeepsRes F s0 (execPktNop port queue s) := by
  unfold execPktNop
  repeat' first
    | with_reducible assumption
    | exact wF.sub rfl
    | with_reducible apply State.completePacket_keeps
    | (with_reducible refine State.runPacket_keeps (wF.sub rfl) ?_ (fun _ _ _ => ?_))
    | with_reducible apply KeepsCmd.rightFirst
    | with_reducible apply KeepsCmd.ok
    | exact KeepsCmd.error
    | with_reducible apply KeepsRes.next
    | exact KeepsRes.refused
    | dsimp only
    | with_reducible apply Keeps.upd
    | with_reducible exact fun _ => rfl
    | exact wF.off rfl

theorem execWrite_keeps {s0 : State} {port : Nat} {queue : Nat} {s : State} (wF : Free F [.regs, .mem, .cache, .hbm, .objs, .host, .fab, .surv, .pwr, .recd, .free]) (hK : Keeps F s0 s) :
    KeepsRes F s0 (execWrite port queue s) := by
  unfold execWrite
  repeat' first
    | with_reducible assumption
    | exact wF.sub rfl
    | with_reducible apply State.completePacket_keeps
    | with_reducible apply State.guarded_keeps
    | (with_reducible refine State.runPacket_keeps (wF.sub rfl) ?_ (fun _ _ _ => ?_))
    | with_reducible apply State.writePieces_keeps
    | exact KeepsCmd.refuse
    | with_reducible apply KeepsCmd.rightFirst
    | with_reducible apply KeepsCmd.ok
    | exact KeepsCmd.error
    | with_reducible apply KeepsRes.next
    | exact KeepsRes.refused
    | split
    | (with_reducible apply Keeps.of_fst; assumption)
    | (with_reducible apply Keeps.of_snd; assumption)
    | dsimp only
    | with_reducible apply Keeps.upd
    | with_reducible exact fun _ => rfl
    | exact wF.off rfl

theorem State.postRead_keeps {s0 : State} {s : State} {port : Nat} {cq : Nat} {x : Nat} {src : Nat} {owner : CqOwner} {l : List (Nat × List Byte)} (wF : Free F [.regs, .host, .fab]) (hK : Keeps F s0 s) :
    Keeps F s0 (State.postRead s port cq x src owner l).1 := by
  unfold State.postRead
  repeat' first
    | with_reducible assumption
    | exact wF.sub rfl
    | with_reducible apply State.cqPost_keeps
    | (with_reducible apply Keeps.foldl1; intro _ _ _)
    | (with_reducible apply Keeps.foldl2; intro _ _ _)
    | (with_reducible apply Keeps.foldl; intro _ _ _)
    | dsimp only
    | with_reducible apply Keeps.upd
    | with_reducible exact fun _ => rfl
    | exact wF.off rfl

theorem execRead_keeps {s0 : State} {port : Nat} {queue : Nat} {s : State} (wF : Free F [.regs, .cache, .objs, .host, .fab, .surv, .pwr, .recd]) (hK : Keeps F s0 s) :
    KeepsRes F s0 (execRead port queue s) := by
  unfold execRead
  repeat' first
    | with_reducible assumption
    | exact wF.sub rfl
    | with_reducible apply State.endPacket_keeps
    | with_reducible apply State.failPacket_keeps
    | with_reducible apply State.fetchPieces_keeps
    | with_reducible apply State.postRead_keeps
    | with_reducible apply State.reachPieces_keeps
    | with_reducible apply State.readPieces_keeps
    | (with_reducible refine State.runPacket_keeps (wF.sub rfl) ?_ (fun _ _ _ => ?_))
    | with_reducible apply State.signal_keeps
    | exact KeepsCmd.refuse
    | with_reducible apply KeepsCmd.rightFirst
    | with_reducible apply KeepsCmd.ok
    | exact KeepsCmd.error
    | with_reducible apply Keeps.ite
    | with_reducible apply KeepsRes.next
    | exact KeepsRes.refused
    | split
    | (with_reducible apply Keeps.of_fst; assumption)
    | (with_reducible apply Keeps.of_snd; assumption)
    | dsimp only
    | with_reducible apply Keeps.upd
    | with_reducible exact fun _ => rfl
    | exact wF.off rfl

theorem execUnload_keeps {s0 : State} {port : Nat} {queue : Nat} {s : State} (wF : Free F [.regs, .objs, .loader, .host, .fab, .surv, .recd]) (hK : Keeps F s0 s) :
    KeepsRes F s0 (execUnload port queue s) := by
  unfold execUnload
  repeat' first
    | with_reducible assumption
    | exact wF.sub rfl
    | with_reducible apply State.completePacket_keeps
    | with_reducible apply State.endPacket_keeps
    | with_reducible apply State.freeModule_keeps
    | (with_reducible refine State.runPacket_keeps (wF.sub rfl) ?_ (fun _ _ _ => ?_))
    | exact KeepsCmd.refuse
    | with_reducible apply KeepsCmd.rightFirst
    | with_reducible apply KeepsCmd.ok
    | exact KeepsCmd.error
    | with_reducible apply Keeps.ite
    | with_reducible apply KeepsRes.next
    | exact KeepsRes.refused
    | split
    | (with_reducible apply Keeps.of_fst; assumption)
    | (with_reducible apply Keeps.of_snd; assumption)
    | dsimp only
    | with_reducible apply Keeps.upd
    | with_reducible exact fun _ => rfl
    | exact wF.off rfl

end Sys2Proof.Machine
end

