-- ==== Sys2Proof/Laws/KeepsLaunch.lean ====
section
/-! SUPPORT. What every step keeps: the functions of Machine/Launch.lean. -/

namespace Sys2Proof.Machine

open Sys2Proof

variable {F : Area → Bool}

theorem State.loadCells_keeps {s0 s : State} {c : Nat} {l : List Host.Cell} (wF : Free F [.mem, .cache]) (h : Keeps F s0 s) : Keeps F s0 (State.loadCells s c l) := by
  refine Keeps.setMem (wF _ (by decide)) (State.wipeCore_keeps (wF.sub rfl) h) fun v => ?_
  generalize (State.wipeCore s c).mem = m at v
  induction l generalizing m with
  | nil => exact v
  | cons e l ih => exact ih _ (cellPut_wf v _ _)

theorem State.saveStore_keeps {s0 : State} {s : State} {x : Nat} {v : Saved} {r : Nat} {c : Nat} (wF : Free F [.regs, .objs]) (hK : Keeps F s0 s) :
    Keeps F s0 (State.saveStore s x v r c) := by
  unfold State.saveStore
  repeat' first
    | with_reducible assumption
    | exact wF.sub rfl
    | with_reducible apply State.bump_keeps
    | with_reducible apply State.modCtx_keeps
    | with_reducible apply Keeps.ite
    | split
    | dsimp only
    | with_reducible apply Keeps.upd
    | with_reducible exact fun _ => rfl
    | exact wF.off rfl

theorem State.claimStore_keeps {s0 : State} {s : State} {c : Nat} {x : Nat} (wF : Free F [.regs, .hbm, .cores, .objs]) (hK : Keeps F s0 s) :
    Keeps F s0 (State.claimStore s c x) := by
  unfold State.claimStore
  repeat' first
    | with_reducible assumption
    | exact wF.sub rfl
    | with_reducible apply State.modCore_keeps
    | with_reducible apply State.saveStore_keeps
    | with_reducible apply State.startWipe_keeps
    | with_reducible apply Keeps.ite
    | split
    | (with_reducible apply Keeps.of_fst; assumption)
    | (with_reducible apply Keeps.of_snd; assumption)
    | dsimp only
    | with_reducible apply Keeps.upd
    | with_reducible exact fun _ => rfl
    | exact wF.off rfl

theorem State.joinCore_keeps {s0 : State} {s : State} {c : Nat} {x : Nat} {sq : Nat} {rank : Nat} {k : Kernel} (wF : Free F [.regs, .cache, .hbm, .cores, .ge, .objs]) (hK : Keeps F s0 s) :
    Keeps F s0 (State.joinCore s c x sq rank k) := by
  unfold State.joinCore
  repeat' first
    | with_reducible assumption
    | exact wF.sub rfl
    | with_reducible apply State.claimStore_keeps
    | with_reducible apply State.modCore_keeps
    | with_reducible apply State.setPriv_keeps
    | dsimp only
    | with_reducible apply Keeps.upd
    | with_reducible exact fun _ => rfl
    | exact wF.off rfl

theorem State.joinAll_keeps {s0 : State} {s : State} {x : Nat} {sq : Nat} {k : Kernel} {cores : List Nat} (wF : Free F [.regs, .cache, .hbm, .cores, .ge, .objs]) (hK : Keeps F s0 s) :
    Keeps F s0 (State.joinAll s x sq k cores) := by
  unfold State.joinAll
  repeat' first
    | with_reducible assumption
    | exact wF.sub rfl
    | with_reducible apply State.joinCore_keeps
    | (with_reducible apply Keeps.foldl1; intro _ _ _)
    | (with_reducible apply Keeps.foldl2; intro _ _ _)
    | (with_reducible apply Keeps.foldl; intro _ _ _)
    | dsimp only
    | with_reducible apply Keeps.upd
    | with_reducible exact fun _ => rfl
    | exact wF.off rfl

theorem execPktLaunch_keeps {s0 : State} {port : Nat} {queue : Nat} {s : State} (wF : Free F [.regs, .cache, .hbm, .cores, .ge, .seqs, .objs, .host, .fab]) (hK : Keeps F s0 s) :
    KeepsRes F s0 (execPktLaunch port queue s) := by
  unfold execPktLaunch
  repeat' first
    | with_reducible assumption
    | exact wF.sub rfl
    | with_reducible apply State.adopt_keeps
    | with_reducible apply State.bump_keeps
    | with_reducible apply State.endPacket_keeps
    | with_reducible apply State.joinAll_keeps
    | (with_reducible refine State.runPacket_keeps (wF.sub rfl) ?_ (fun _ _ _ => ?_))
    | with_reducible apply State.setSeq_keeps
    | exact KeepsCmd.refuse
    | with_reducible apply KeepsCmd.rightFirst
    | with_reducible apply KeepsCmd.ok
    | exact KeepsCmd.error
    | with_reducible apply Keeps.ite
    | with_reducible apply KeepsRes.next
    | exact KeepsRes.refused
    | split
    | (with_reducible apply Keeps.of_fst; assumption)
    | (with_reducible apply Keeps.of_snd; assumption)
    | dsimp only
    | with_reducible apply Keeps.upd
    | with_reducible exact fun _ => rfl
    | exact wF.off rfl

theorem execLocalStoreSave_keeps {s0 : State} {core : Nat} {err : CoreErr} {s : State} (wF : Free F [.regs, .mem, .cache, .cores, .te, .objs, .loader]) (hK : Keeps F s0 s) :
    KeepsRes F s0 (execLocalStoreSave core err s) := by
  unfold execLocalStoreSave
  repeat' first
    | with_reducible assumption
    | exact wF.sub rfl
    | with_reducible apply State.bump_keeps
    | with_reducible apply State.countCmUe_keeps
    | with_reducible apply State.faultCtx_keeps
    | with_reducible apply State.modCore_keeps
    | with_reducible apply State.saveStore_keeps
    | with_reducible apply State.wipeCore_keeps
    | with_reducible apply Keeps.ite
    | with_reducible apply KeepsRes.next
    | exact KeepsRes.refused
    | split
    | (with_reducible apply Keeps.of_fst; assumption)
    | (with_reducible apply Keeps.of_snd; assumption)
    | dsimp only
    | with_reducible apply Keeps.upd
    | with_reducible exact fun _ => rfl
    | exact wF.off rfl

theorem execContextPreempt_keeps {s0 : State} {port : Nat} {queue : Nat} {s : State} (wF : Free F [.regs, .seqs, .objs, .host, .fab, .surv, .recd]) (hK : Keeps F s0 s) :
    KeepsRes F s0 (execContextPreempt port queue s) := by
  unfold execContextPreempt
  repeat' first
    | with_reducible assumption
    | exact wF.sub rfl
    | with_reducible apply State.completePacket_keeps
    | with_reducible apply State.endPacket_keeps
    | with_reducible apply State.modCtx_keeps
    | (with_reducible refine State.runPacket_keeps (wF.sub rfl) ?_ (fun _ _ _ => ?_))
    | exact KeepsCmd.refuse
    | with_reducible apply KeepsCmd.rightFirst
    | with_reducible apply KeepsCmd.ok
    | exact KeepsCmd.error
    | with_reducible apply Keeps.ite
    | with_reducible apply KeepsRes.next
    | exact KeepsRes.refused
    | split
    | (with_reducible apply Keeps.of_fst; assumption)
    | (with_reducible apply Keeps.of_snd; assumption)
    | dsimp only
    | with_reducible apply Keeps.upd
    | with_reducible exact fun _ => rfl
    | exact wF.off rfl

theorem State.teRecord_keeps {s0 : State} {s : State} {x : Nat} {h : SaveHead} (wF : Free F [.free]) (hK : Keeps F s0 s) :
    Keeps F s0 (State.teRecord s x h).2 := by
  unfold State.teRecord
  repeat' first
    | with_reducible assumption
    | exact wF.sub rfl
    | with_reducible apply State.drawBytes_keeps
    | dsimp only
    | with_reducible apply Keeps.upd
    | with_reducible exact fun _ => rfl
    | exact wF.off rfl

theorem State.queueRecord_keeps {s0 : State} {s : State} {h : SaveHead} (wF : Free F [.free]) (hK : Keeps F s0 s) :
    Keeps F s0 (State.queueRecord s h).2 := by
  unfold State.queueRecord
  repeat' first
    | with_reducible assumption
    | exact wF.sub rfl
    | with_reducible apply State.drawBytes_keeps
    | dsimp only
    | with_reducible apply Keeps.upd
    | with_reducible exact fun _ => rfl
    | exact wF.off rfl

theorem State.groupRecord_keeps {s0 : State} {s : State} (wF : Free F [.free]) (hK : Keeps F s0 s) :
    Keeps F s0 (State.groupRecord s).2 := by
  unfold State.groupRecord
  repeat' first
    | with_reducible assumption
    | exact wF.sub rfl
    | with_reducible apply State.drawBytes_keeps
    | dsimp only
    | with_reducible apply Keeps.upd
    | with_reducible exact fun _ => rfl
    | exact wF.off rfl

theorem State.recordsOf_keeps {s0 : State} {s : State} {x : Nat} {heads : Tab SaveHead} (wF : Free F [.free]) (hK : Keeps F s0 s) :
    Keeps F s0 (State.recordsOf s x heads).2 := by
  unfold State.recordsOf
  repeat' first
    | with_reducible assumption
    | exact wF.sub rfl
    | with_reducible apply State.groupRecord_keeps
    | with_reducible apply State.queueRecord_keeps
    | with_reducible apply State.teRecord_keeps
    | (with_reducible apply Keeps.foldl1; intro _ _ _)
    | (with_reducible apply Keeps.foldl2; intro _ _ _)
    | (with_reducible apply Keeps.foldl; intro _ _ _)
    | dsimp only
    | with_reducible apply Keeps.upd
    | with_reducible exact fun _ => rfl
    | exact wF.off rfl

theorem State.endSave_keeps {s0 : State} {s : State} {sq : Nat} {q : Seq} (wF : Free F [.regs, .cores, .te, .ge, .seqs, .objs, .host, .fab, .surv, .recd, .free]) (hK : Keeps F s0 s) :
    Keeps F s0 (State.endSave s sq q) := by
  unfold State.endSave
  repeat' first
    | with_reducible assumption
    | exact wF.sub rfl
    | with_reducible apply State.freeCore_keeps
    | with_reducible apply State.modCtx_keeps
    | with_reducible apply State.preemptDone_keeps
    | with_reducible apply State.recordsOf_keeps
    | (with_reducible apply Keeps.foldl1; intro _ _ _)
    | (with_reducible apply Keeps.foldl2; intro _ _ _)
    | (with_reducible apply Keeps.foldl; intro _ _ _)
    | dsimp only
    | with_reducible apply Keeps.upd
    | with_reducible exact fun _ => rfl
    | exact wF.off rfl

theorem State.savedEngine_keeps {s0 : State} {s : State} {c : Nat} {e : Engine} (wF : Free F [.regs, .cores, .te, .ge, .seqs, .objs, .host, .fab, .surv, .recd, .free]) (hK : Keeps F s0 s) :
    Keeps F s0 (State.savedEngine s c e) := by
  unfold State.savedEngine
  repeat' first
    | with_reducible assumption
    | exact wF.sub rfl
    | with_reducible apply State.endSave_keeps
    | with_reducible apply State.modCore_keeps
    | with_reducible apply Keeps.ite
    | split
    | (with_reducible apply Keeps.of_fst; assumption)
    | (with_reducible apply Keeps.of_snd; assumption)
    | dsimp only
    | with_reducible apply Keeps.upd
    | with_reducible exact fun _ => rfl
    | exact wF.off rfl

theorem execTeSaveDone_keeps {s0 : State} {core : Nat} {ok : Bool} {cycles : Nat} {s : State} (wF : Free F [.regs, .cores, .te, .ge, .seqs, .objs, .loader, .host, .fab, .surv, .recd, .free]) (hK : Keeps F s0 s) :
    KeepsRes F s0 (execTeSaveDone core ok cycles s) := by
  unfold execTeSaveDone
  repeat' first
    | with_reducible assumption
    | exact wF.sub rfl
    | with_reducible apply State.bump_keeps
    | with_reducible apply State.faultCore_keeps
    | with_reducible apply State.savedEngine_keeps
    | with_reducible apply State.setReg_keeps
    | with_reducible apply Keeps.ite
    | with_reducible apply KeepsRes.next
    | exact KeepsRes.refused
    | split
    | dsimp only
    | with_reducible apply Keeps.upd
    | with_reducible exact fun _ => rfl
    | exact wF.off rfl

theorem execGeSaveDone_keeps {s0 : State} {core : Nat} {s : State} (wF : Free F [.regs, .cores, .te, .ge, .seqs, .objs, .host, .fab, .surv, .recd, .free]) (hK : Keeps F s0 s) :
    KeepsRes F s0 (execGeSaveDone core s) := by
  unfold execGeSaveDone
  repeat' first
    | with_reducible assumption
    | exact wF.sub rfl
    | with_reducible apply State.savedEngine_keeps
    | with_reducible apply Keeps.ite
    | with_reducible apply KeepsRes.next
    | exact KeepsRes.refused
    | split
    | dsimp only
    | with_reducible apply Keeps.upd
    | with_reducible exact fun _ => rfl
    | exact wF.off rfl

theorem execQueueSaveDone_keeps {s0 : State} {core : Nat} {s : State} (wF : Free F [.regs, .cores, .te, .ge, .seqs, .objs, .host, .fab, .surv, .recd, .free]) (hK : Keeps F s0 s) :
    KeepsRes F s0 (execQueueSaveDone core s) := by
  unfold execQueueSaveDone
  repeat' first
    | with_reducible assumption
    | exact wF.sub rfl
    | with_reducible apply State.savedEngine_keeps
    | with_reducible apply Keeps.ite
    | with_reducible apply KeepsRes.next
    | exact KeepsRes.refused
    | split
    | dsimp only
    | with_reducible apply Keeps.upd
    | with_reducible exact fun _ => rfl
    | exact wF.off rfl

theorem State.rebind_keeps {s0 : State} {s : State} {x : Nat} {part : Nat} {v : Saved} (wF : Free F [.regs, .cache, .hbm, .cores, .te, .ge, .seqs, .objs]) (hK : Keeps F s0 s) :
    KeepsOpt F s0 (State.rebind s x part v) := by
  unfold State.rebind
  repeat' first
    | with_reducible assumption
    | exact wF.sub rfl
    | with_reducible apply State.joinAll_keeps
    | with_reducible apply State.modCore_keeps
    | with_reducible apply State.modCtx_keeps
    | with_reducible apply State.saveStore_keeps
    | with_reducible apply State.setSeq_keeps
    | with_reducible apply KeepsOpt.some
    | exact KeepsOpt.none
    | (with_reducible apply Keeps.foldl1; intro _ _ _)
    | (with_reducible apply Keeps.foldl2; intro _ _ _)
    | (with_reducible apply Keeps.foldl; intro _ _ _)
    | split
    | (with_reducible apply Keeps.of_fst; assumption)
    | (with_reducible apply Keeps.of_snd; assumption)
    | dsimp only
    | with_reducible apply Keeps.upd
    | with_reducible exact fun _ => rfl
    | exact wF.off rfl

theorem State.rebindAll_keeps {s0 s : State} {x part : Nat} {l : List Saved} (wF : Free F [.regs, .cache, .hbm, .cores, .te, .ge, .seqs, .objs]) (h : Keeps F s0 s) : KeepsOpt F s0 (State.rebindAll s x part l) := by
  induction l generalizing s with
  | nil => exact KeepsOpt.some h
  | cons v vs ih =>
    unfold State.rebindAll
    split
    · rename_i t e
      exact ih (State.rebind_keeps (wF.sub rfl) h t e)
    · exact KeepsOpt.none

theorem execContextResume_keeps {s0 : State} {port : Nat} {queue : Nat} {s : State} (wF : Free F [.regs, .cache, .hbm, .cores, .te, .ge, .seqs, .objs, .host, .fab, .surv, .recd]) (hK : Keeps F s0 s) :
    KeepsRes F s0 (execContextResume port queue s) := by
  unfold execContextResume
  repeat' first
    | with_reducible assumption
    | exact wF.sub rfl
    | with_reducible apply State.completePacket_keeps
    | with_reducible apply State.endPacket_keeps
    | with_reducible apply State.modCtx_keeps
    | with_reducible apply State.rebindAll_keeps
    | (with_reducible refine State.runPacket_keeps (wF.sub rfl) ?_ (fun _ _ _ => ?_))
    | exact KeepsCmd.refuse
    | with_reducible apply KeepsCmd.rightFirst
    | with_reducible apply KeepsCmd.ok
    | exact KeepsCmd.error
    | refine KeepsOpt.of (by assumption) (State.rebindAll_keeps (wF.sub rfl) ?_)
    | with_reducible apply Keeps.ite
    | with_reducible apply KeepsRes.next
    | exact KeepsRes.refused
    | split
    | (with_reducible apply Keeps.of_fst; assumption)
    | (with_reducible apply Keeps.of_snd; assumption)
    | dsimp only
    | with_reducible apply Keeps.upd
    | with_reducible exact fun _ => rfl
    | exact wF.off rfl

theorem State.recordOk_keeps {s0 : State} {s : State} {v : Saved} (wF : Free F [.free]) (hK : Keeps F s0 s) :
    Keeps F s0 (State.recordOk s v).2 := by
  unfold State.recordOk
  repeat' first
    | with_reducible assumption
    | exact wF.sub rfl
    | with_reducible apply State.draw_keeps
    | with_reducible apply Keeps.ite
    | split
    | dsimp only
    | with_reducible apply Keeps.upd
    | with_reducible exact fun _ => rfl
    | exact wF.off rfl

theorem State.restart_keeps {s0 : State} {s : State} {v : Saved} (wF : Free F [.regs, .mem, .cache, .seqs]) (hK : Keeps F s0 s) :
    Keeps F s0 (State.restart s v) := by
  unfold State.restart
  repeat' first
    | with_reducible assumption
    | exact wF.sub rfl
    | with_reducible apply State.loadCells_keeps
    | with_reducible apply State.setReg_keeps
    | with_reducible apply State.setSeq_keeps
    | (with_reducible apply Keeps.foldl1; intro _ _ _)
    | (with_reducible apply Keeps.foldl2; intro _ _ _)
    | (with_reducible apply Keeps.foldl; intro _ _ _)
    | split
    | (with_reducible apply Keeps.of_fst; assumption)
    | (with_reducible apply Keeps.of_snd; assumption)
    | dsimp only
    | with_reducible apply Keeps.upd
    | with_reducible exact fun _ => rfl
    | exact wF.off rfl

theorem State.failResume_keeps {s0 : State} {s : State} {x : Nat} {code : Nat} (wF : Free F [.regs, .te, .objs, .loader]) (hK : Keeps F s0 s) :
    Keeps F s0 (State.failResume s x code) := by
  unfold State.failResume
  repeat' first
    | with_reducible assumption
    | exact wF.sub rfl
    | with_reducible apply State.faultCtx_keeps
    | with_reducible apply State.setField_keeps
    | (with_reducible apply Keeps.foldl1; intro _ _ _)
    | (with_reducible apply Keeps.foldl2; intro _ _ _)
    | (with_reducible apply Keeps.foldl; intro _ _ _)
    | dsimp only
    | with_reducible apply Keeps.upd
    | with_reducible exact fun _ => rfl
    | exact wF.off rfl

theorem execResumeDone_keeps {s0 : State} {ctx : Nat} {records : RecordRead} {s : State} (wF : Free F [.regs, .mem, .cache, .te, .seqs, .objs, .loader, .host, .fab, .surv, .recd, .free]) (hK : Keeps F s0 s) :
    KeepsRes F s0 (execResumeDone ctx records s) := by
  unfold execResumeDone
  repeat' first
    | with_reducible assumption
    | exact wF.sub rfl
    | with_reducible apply State.failResume_keeps
    | with_reducible apply State.modCtx_keeps
    | with_reducible apply State.recordOk_keeps
    | with_reducible apply State.restart_keeps
    | with_reducible apply State.signalAll_keeps
    | with_reducible apply Keeps.ite
    | with_reducible apply KeepsRes.next
    | exact KeepsRes.refused
    | (with_reducible apply Keeps.foldl1; intro _ _ _)
    | (with_reducible apply Keeps.foldl2; intro _ _ _)
    | (with_reducible apply Keeps.foldl; intro _ _ _)
    | split
    | (with_reducible apply Keeps.of_fst; assumption)
    | (with_reducible apply Keeps.of_snd; assumption)
    | dsimp only
    | with_reducible apply Keeps.upd
    | with_reducible exact fun _ => rfl
    | exact wF.off rfl

end Sys2Proof.Machine
end

