-- ==== Sys2Proof/Laws/KeepsFlash.lean ====
section
/-! SUPPORT. What every step keeps: the functions of Machine/Flash.lean. -/

namespace Sys2Proof.Machine

open Sys2Proof

variable {F : Area → Bool}

theorem State.modFw_keeps {s0 s : State} {u : Nat} {f : FwUnit → FwUnit} (wF : Free F [.sec]) (h : Keeps F s0 s) : Keeps F s0 (State.modFw s u f) := Keeps.setSec (wF _ (by decide)) h rfl rfl

theorem State.writeDir_keeps {s0 s : State} (wF : Free F [.sec]) (h : Keeps F s0 s) : Keeps F s0 (State.writeDir s) := Keeps.setSec (wF _ (by decide)) h rfl rfl

theorem State.readDir_keeps {s0 s : State} (wF : Free F [.sec]) (h : Keeps F s0 s) : Keeps F s0 (State.readDir s) := by
  unfold State.readDir
  split
  · exact h
  · exact Keeps.setSec (wF _ (by decide)) h rfl rfl

end Sys2Proof.Machine
end

