-- ==== Sys2Proof/Laws/KeepsLoader.lean ====
section
/-! SUPPORT. What every step keeps: the functions of Machine/Loader.lean. -/

namespace Sys2Proof.Machine

open Sys2Proof

variable {F : Area → Bool}

theorem execLoad_keeps {s0 : State} {port : Nat} {queue : Nat} {s : State} (wF : Free F [.regs, .objs, .loader, .host, .fab]) (hK : Keeps F s0 s) :
    KeepsRes F s0 (execLoad port queue s) := by
  unfold execLoad
  repeat' first
    | with_reducible assumption
    | exact wF.sub rfl
    | with_reducible apply State.endPacket_keeps
    | (with_reducible refine State.runPacket_keeps (wF.sub rfl) ?_ (fun _ _ _ => ?_))
    | exact KeepsCmd.refuse
    | with_reducible apply KeepsCmd.rightFirst
    | with_reducible apply KeepsCmd.ok
    | exact KeepsCmd.error
    | with_reducible apply Keeps.ite
    | with_reducible apply KeepsRes.next
    | exact KeepsRes.refused
    | split
    | (with_reducible apply Keeps.of_fst; assumption)
    | (with_reducible apply Keeps.of_snd; assumption)
    | dsimp only
    | with_reducible apply Keeps.upd
    | with_reducible exact fun _ => rfl
    | exact wF.off rfl

theorem execLoadStart_keeps {s0 : State} {s : State} (wF : Free F [.regs, .cache, .objs, .loader, .pwr]) (hK : Keeps F s0 s) :
    KeepsRes F s0 (execLoadStart s) := by
  unfold execLoadStart
  repeat' first
    | with_reducible assumption
    | exact wF.sub rfl
    | with_reducible apply State.adopt_keeps
    | with_reducible apply State.readPieces_keeps
    | with_reducible apply KeepsRes.next
    | exact KeepsRes.refused
    | split
    | (with_reducible apply Keeps.of_fst; assumption)
    | (with_reducible apply Keeps.of_snd; assumption)
    | dsimp only
    | with_reducible apply Keeps.upd
    | with_reducible exact fun _ => rfl
    | exact wF.off rfl

theorem State.rejectLoad_keeps {s0 : State} {s : State} {j : LoadJob} {code : Nat} {detail : Nat} (wF : Free F [.regs, .objs, .loader, .host, .fab]) (hK : Keeps F s0 s) :
    Keeps F s0 (State.rejectLoad s j code detail) := by
  unfold State.rejectLoad
  repeat' first
    | with_reducible assumption
    | exact wF.sub rfl
    | with_reducible apply State.bump_keeps
    | with_reducible apply State.fenceError_keeps
    | with_reducible apply State.setReg_keeps
    | with_reducible apply Keeps.ite
    | split
    | (with_reducible apply Keeps.of_fst; assumption)
    | (with_reducible apply Keeps.of_snd; assumption)
    | dsimp only
    | with_reducible apply Keeps.upd
    | with_reducible exact fun _ => rfl
    | exact wF.off rfl

theorem State.storeModule_keeps {s0 : State} {s : State} {j : LoadJob} {ks : List Kernel} {bytes : Nat} (wF : Free F [.regs, .objs, .loader, .host, .fab, .surv, .recd]) (hK : Keeps F s0 s) :
    Keeps F s0 (State.storeModule s j ks bytes) := by
  unfold State.storeModule
  repeat' first
    | with_reducible assumption
    | exact wF.sub rfl
    | with_reducible apply State.bump_keeps
    | with_reducible apply State.cqPost_keeps
    | with_reducible apply State.signal_keeps
    | split
    | (with_reducible apply Keeps.of_fst; assumption)
    | (with_reducible apply Keeps.of_snd; assumption)
    | dsimp only
    | with_reducible apply Keeps.upd
    | with_reducible exact fun _ => rfl
    | exact wF.off rfl

theorem execLoadDone_keeps {s0 : State} {s : State} (wF : Free F [.regs, .objs, .loader, .host, .fab, .surv, .recd, .free]) (hK : Keeps F s0 s) :
    KeepsRes F s0 (execLoadDone s) := by
  unfold execLoadDone
  repeat' first
    | with_reducible assumption
    | exact wF.sub rfl
    | with_reducible apply State.draw_keeps
    | with_reducible apply State.rejectLoad_keeps
    | with_reducible apply State.storeModule_keeps
    | with_reducible apply Keeps.ite
    | with_reducible apply KeepsRes.next
    | exact KeepsRes.refused
    | split
    | (with_reducible apply Keeps.of_fst; assumption)
    | (with_reducible apply Keeps.of_snd; assumption)
    | dsimp only
    | with_reducible apply Keeps.upd
    | with_reducible exact fun _ => rfl
    | exact wF.off rfl

end Sys2Proof.Machine
end

