-- ==== Sys2Proof/Laws/KeepsSpares.lean ====
section
/-! SUPPORT. What every step keeps: the functions of Machine/Spares.lean. -/

namespace Sys2Proof.Machine

open Sys2Proof

variable {F : Area → Bool}

theorem State.setKind_keeps {s0 : State} {s : State} {c : Nat} {k : CoreKind} (wF : Free F [.ident]) (h : Keeps F s0 s) : Keeps F s0 (State.setKind s c k) :=
  h.trans ⟨id, rfl, rfl, id, fun b => ⟨le_refl _, b⟩, fun p hp => by cases p <;> first | exact rfl | exact wF.off rfl hp⟩

theorem State.mapParts_keeps {s0 : State} {s : State} {f : List Nat → List Nat} (wF : Free F [.objs]) (hK : Keeps F s0 s) :
    Keeps F s0 (State.mapParts s f) := by
  unfold State.mapParts
  repeat' first
    | with_reducible assumption
    | exact wF.sub rfl
    | with_reducible apply State.modObjs_keeps
    | dsimp only
    | with_reducible apply Keeps.upd
    | with_reducible exact fun _ => rfl
    | exact wF.off rfl

theorem State.swapIn_keeps {s0 : State} {s : State} {c : Nat} {k : Nat} (wF : Free F [.ident, .regs, .objs, .surv, .recd]) (hK : Keeps F s0 s) :
    Keeps F s0 (State.swapIn s c k) := by
  unfold State.swapIn
  repeat' first
    | with_reducible assumption
    | exact wF.sub rfl
    | with_reducible apply State.bump_keeps
    | with_reducible apply State.mapParts_keeps
    | with_reducible apply State.raise_keeps
    | with_reducible apply State.setKind_keeps
    | with_reducible apply Keeps.ite
    | split
    | dsimp only
    | with_reducible apply Keeps.upd
    | with_reducible exact fun _ => rfl
    | exact wF.off rfl

theorem State.replaceDead_keeps {s0 : State} {s : State} {c : Nat} (wF : Free F [.ident, .regs, .cores, .objs, .surv, .recd]) (hK : Keeps F s0 s) :
    Keeps F s0 (State.replaceDead s c) := by
  unfold State.replaceDead
  repeat' first
    | with_reducible assumption
    | exact wF.sub rfl
    | with_reducible apply State.mapParts_keeps
    | with_reducible apply State.modCore_keeps
    | with_reducible apply State.setKind_keeps
    | with_reducible apply State.swapIn_keeps
    | split
    | (with_reducible apply Keeps.of_fst; assumption)
    | (with_reducible apply Keeps.of_snd; assumption)
    | dsimp only
    | with_reducible apply Keeps.upd
    | with_reducible exact fun _ => rfl
    | exact wF.off rfl

theorem State.startReplace_keeps {s0 : State} {s : State} {c : Nat} (wF : Free F [.cores, .surv, .recd]) (hK : Keeps F s0 s) :
    Keeps F s0 (State.startReplace s c) := by
  unfold State.startReplace
  repeat' first
    | with_reducible assumption
    | exact wF.sub rfl
    | with_reducible apply State.modCore_keeps
    | with_reducible apply State.modSurv_keeps
    | with_reducible apply State.raise_keeps
    | with_reducible apply Keeps.ite
    | split
    | (with_reducible apply Keeps.of_fst; assumption)
    | (with_reducible apply Keeps.of_snd; assumption)
    | dsimp only
    | with_reducible apply Keeps.upd
    | with_reducible exact fun _ => rfl
    | exact wF.off rfl

theorem State.nextReplace_keeps {s0 : State} {l : List Nat} {s : State} (wF : Free F [.cores, .surv, .recd]) (h : Keeps F s0 s) : Keeps F s0 (State.nextReplace l s) := by
  induction l generalizing s with
  | nil => exact State.modSurv_keeps (wF.sub rfl) h
  | cons d ds ih =>
    unfold State.nextReplace
    dsimp only
    split
    · exact State.startReplace_keeps (wF.sub rfl) (State.modSurv_keeps (wF.sub rfl) h)
    · exact ih (State.startReplace_keeps (wF.sub rfl) (State.modSurv_keeps (wF.sub rfl) h))

theorem execSpareGo_keeps {s0 : State} {core : Nat} {s : State} (wF : Free F [.regs, .cores, .surv, .recd]) (hK : Keeps F s0 s) :
    KeepsRes F s0 (execSpareGo core s) := by
  unfold execSpareGo
  repeat' first
    | with_reducible assumption
    | exact wF.sub rfl
    | with_reducible apply State.setField_keeps
    | with_reducible apply State.startReplace_keeps
    | with_reducible apply Keeps.ite
    | with_reducible apply KeepsRes.next
    | exact KeepsRes.refused
    | split
    | dsimp only
    | with_reducible apply Keeps.upd
    | with_reducible exact fun _ => rfl
    | exact wF.off rfl

theorem execReplacementTilesEnded_keeps {s0 : State} {s : State} (wF : Free F [.seqs, .surv]) (hK : Keeps F s0 s) :
    KeepsRes F s0 (execReplacementTilesEnded s) := by
  unfold execReplacementTilesEnded
  repeat' first
    | with_reducible assumption
    | exact wF.sub rfl
    | with_reducible apply State.modSurv_keeps
    | with_reducible apply State.setSeq_keeps
    | with_reducible apply Keeps.ite
    | with_reducible apply KeepsRes.next
    | exact KeepsRes.refused
    | split
    | (with_reducible apply Keeps.of_fst; assumption)
    | (with_reducible apply Keeps.of_snd; assumption)
    | dsimp only
    | with_reducible apply Keeps.upd
    | with_reducible exact fun _ => rfl
    | exact wF.off rfl

theorem State.moveRank_keeps {s0 : State} {s : State} {sq : Nat} {q : Seq} {c : Nat} {k : Nat} (wF : Free F [.mem, .cache, .cores, .te, .ge, .seqs]) (hK : Keeps F s0 s) :
    Keeps F s0 (State.moveRank s sq q c k) := by
  unfold State.moveRank
  repeat' first
    | with_reducible assumption
    | exact wF.sub rfl
    | with_reducible apply State.loadCells_keeps
    | with_reducible apply State.setCore_keeps
    | with_reducible apply State.setSeq_keeps
    | with_reducible apply State.wipeCore_keeps
    | (with_reducible apply Keeps.foldl1; intro _ _ _)
    | (with_reducible apply Keeps.foldl2; intro _ _ _)
    | (with_reducible apply Keeps.foldl; intro _ _ _)
    | split
    | (with_reducible apply Keeps.of_fst; assumption)
    | (with_reducible apply Keeps.of_snd; assumption)
    | dsimp only
    | with_reducible apply Keeps.upd
    | with_reducible exact fun _ => rfl
    | exact wF.off rfl

theorem State.resumeInPlace_keeps {s0 : State} {s : State} {sq : Nat} (wF : Free F [.cores, .te, .seqs]) (hK : Keeps F s0 s) :
    Keeps F s0 (State.resumeInPlace s sq) := by
  unfold State.resumeInPlace
  repeat' first
    | with_reducible assumption
    | exact wF.sub rfl
    | with_reducible apply State.modCore_keeps
    | with_reducible apply State.setSeq_keeps
    | with_reducible apply Keeps.ite
    | (with_reducible apply Keeps.foldl1; intro _ _ _)
    | (with_reducible apply Keeps.foldl2; intro _ _ _)
    | (with_reducible apply Keeps.foldl; intro _ _ _)
    | split
    | (with_reducible apply Keeps.of_fst; assumption)
    | (with_reducible apply Keeps.of_snd; assumption)
    | dsimp only
    | with_reducible apply Keeps.upd
    | with_reducible exact fun _ => rfl
    | exact wF.off rfl

theorem State.endReplace_keeps {s0 : State} {s : State} {c : Nat} {k : Nat} (wF : Free F [.ident, .regs, .cores, .objs, .surv, .recd]) (hK : Keeps F s0 s) :
    Keeps F s0 (State.endReplace s c k) := by
  unfold State.endReplace
  repeat' first
    | with_reducible assumption
    | exact wF.sub rfl
    | with_reducible apply State.modCore_keeps
    | with_reducible apply State.modSurv_keeps
    | with_reducible apply State.nextReplace_keeps
    | with_reducible apply State.swapIn_keeps
    | dsimp only
    | with_reducible apply Keeps.upd
    | with_reducible exact fun _ => rfl
    | exact wF.off rfl

theorem execSpareIn_keeps {s0 : State} {s : State} (wF : Free F [.ident, .regs, .mem, .cache, .cores, .te, .ge, .seqs, .objs, .surv, .recd]) (hK : Keeps F s0 s) :
    KeepsRes F s0 (execSpareIn s) := by
  unfold execSpareIn
  repeat' first
    | with_reducible assumption
    | exact wF.sub rfl
    | with_reducible apply State.endReplace_keeps
    | with_reducible apply State.moveRank_keeps
    | with_reducible apply State.resumeInPlace_keeps
    | with_reducible apply State.saveStore_keeps
    | with_reducible apply Keeps.ite
    | with_reducible apply KeepsRes.next
    | exact KeepsRes.refused
    | split
    | (with_reducible apply Keeps.of_fst; assumption)
    | (with_reducible apply Keeps.of_snd; assumption)
    | dsimp only
    | with_reducible apply Keeps.upd
    | with_reducible exact fun _ => rfl
    | exact wF.off rfl

end Sys2Proof.Machine
end

