-- ==== Sys2Proof/Laws/KeepsObjects.lean ====
section
/-! SUPPORT. What every step keeps: the functions of Machine/Objects.lean. -/

namespace Sys2Proof.Machine

open Sys2Proof

variable {F : Area → Bool}

theorem execPartCreate_keeps {s0 : State} {port : Nat} {queue : Nat} {s : State} (wF : Free F [.regs, .objs, .host, .fab, .surv, .recd]) (hK : Keeps F s0 s) :
    KeepsRes F s0 (execPartCreate port queue s) := by
  unfold execPartCreate
  repeat' first
    | with_reducible assumption
    | exact wF.sub rfl
    | with_reducible apply State.completePacket_keeps
    | with_reducible apply State.modObjs_keeps
    | (with_reducible refine State.runPacket_keeps (wF.sub rfl) ?_ (fun _ _ _ => ?_))
    | exact KeepsCmd.refuse
    | with_reducible apply KeepsCmd.rightFirst
    | with_reducible apply KeepsCmd.ok
    | exact KeepsCmd.error
    | with_reducible apply Keeps.ite
    | with_reducible apply KeepsRes.next
    | exact KeepsRes.refused
    | split
    | dsimp only
    | with_reducible apply Keeps.upd
    | with_reducible exact fun _ => rfl
    | exact wF.off rfl

theorem execPartDestroy_keeps {s0 : State} {port : Nat} {queue : Nat} {s : State} (wF : Free F [.regs, .objs, .host, .fab, .surv, .recd]) (hK : Keeps F s0 s) :
    KeepsRes F s0 (execPartDestroy port queue s) := by
  unfold execPartDestroy
  repeat' first
    | with_reducible assumption
    | exact wF.sub rfl
    | with_reducible apply State.completePacket_keeps
    | with_reducible apply State.modObjs_keeps
    | (with_reducible refine State.runPacket_keeps (wF.sub rfl) ?_ (fun _ _ _ => ?_))
    | exact KeepsCmd.refuse
    | with_reducible apply KeepsCmd.rightFirst
    | with_reducible apply KeepsCmd.ok
    | exact KeepsCmd.error
    | with_reducible apply Keeps.ite
    | with_reducible apply KeepsRes.next
    | exact KeepsRes.refused
    | split
    | dsimp only
    | with_reducible apply Keeps.upd
    | with_reducible exact fun _ => rfl
    | exact wF.off rfl

theorem execContextCreate_keeps {s0 : State} {port : Nat} {queue : Nat} {s : State} (wF : Free F [.regs, .objs, .host, .fab, .surv, .recd, .free]) (hK : Keeps F s0 s) :
    KeepsRes F s0 (execContextCreate port queue s) := by
  unfold execContextCreate
  repeat' first
    | with_reducible assumption
    | exact wF.sub rfl
    | with_reducible apply State.completeWith_keeps
    | with_reducible apply State.draw_keeps
    | with_reducible apply State.modObjs_keeps
    | (with_reducible refine State.runPacket_keeps (wF.sub rfl) ?_ (fun _ _ _ => ?_))
    | exact KeepsCmd.refuse
    | with_reducible apply KeepsCmd.rightFirst
    | with_reducible apply KeepsCmd.ok
    | exact KeepsCmd.error
    | with_reducible apply Keeps.ite
    | with_reducible apply KeepsRes.next
    | exact KeepsRes.refused
    | split
    | (with_reducible apply Keeps.of_fst; assumption)
    | (with_reducible apply Keeps.of_snd; assumption)
    | dsimp only
    | with_reducible apply Keeps.upd
    | with_reducible exact fun _ => rfl
    | exact wF.off rfl

theorem execContextKill_keeps {s0 : State} {port : Nat} {queue : Nat} {s : State} (wF : Free F [.regs, .objs, .loader, .host, .fab, .surv, .recd]) (hK : Keeps F s0 s) :
    KeepsRes F s0 (execContextKill port queue s) := by
  unfold execContextKill
  repeat' first
    | with_reducible assumption
    | exact wF.sub rfl
    | with_reducible apply State.completePacket_keeps
    | with_reducible apply State.endPacket_keeps
    | with_reducible apply State.modCtx_keeps
    | (with_reducible refine State.runPacket_keeps (wF.sub rfl) ?_ (fun _ _ _ => ?_))
    | with_reducible apply State.teardown_keeps
    | with_reducible apply KeepsCmd.rightFirst
    | with_reducible apply KeepsCmd.ok
    | exact KeepsCmd.error
    | with_reducible apply Keeps.ite
    | with_reducible apply KeepsRes.next
    | exact KeepsRes.refused
    | split
    | (with_reducible apply Keeps.of_fst; assumption)
    | (with_reducible apply Keeps.of_snd; assumption)
    | dsimp only
    | with_reducible apply Keeps.upd
    | with_reducible exact fun _ => rfl
    | exact wF.off rfl

theorem State.orphan_keeps {s0 : State} {s : State} {x : Nat} (wF : Free F [.objs]) (hK : Keeps F s0 s) :
    Keeps F s0 (State.orphan s x) := by
  unfold State.orphan
  repeat' first
    | with_reducible assumption
    | exact wF.sub rfl
    | with_reducible apply State.modObjs_keeps
    | with_reducible apply Keeps.ite
    | split
    | dsimp only
    | with_reducible apply Keeps.upd
    | with_reducible exact fun _ => rfl
    | exact wF.off rfl

theorem execContextDestroy_keeps {s0 : State} {port : Nat} {queue : Nat} {s : State} (wF : Free F [.regs, .objs, .host, .fab, .surv, .recd]) (hK : Keeps F s0 s) :
    KeepsRes F s0 (execContextDestroy port queue s) := by
  unfold execContextDestroy
  repeat' first
    | with_reducible assumption
    | exact wF.sub rfl
    | with_reducible apply State.completePacket_keeps
    | with_reducible apply State.modObjs_keeps
    | with_reducible apply State.orphan_keeps
    | (with_reducible refine State.runPacket_keeps (wF.sub rfl) ?_ (fun _ _ _ => ?_))
    | exact KeepsCmd.refuse
    | with_reducible apply KeepsCmd.rightFirst
    | with_reducible apply KeepsCmd.ok
    | exact KeepsCmd.error
    | with_reducible apply Keeps.ite
    | with_reducible apply KeepsRes.next
    | exact KeepsRes.refused
    | split
    | (with_reducible apply Keeps.of_fst; assumption)
    | (with_reducible apply Keeps.of_snd; assumption)
    | dsimp only
    | with_reducible apply Keeps.upd
    | with_reducible exact fun _ => rfl
    | exact wF.off rfl

theorem execContextQuery_keeps {s0 : State} {port : Nat} {queue : Nat} {s : State} (wF : Free F [.regs, .objs, .host, .fab, .surv, .recd]) (hK : Keeps F s0 s) :
    KeepsRes F s0 (execContextQuery port queue s) := by
  unfold execContextQuery
  repeat' first
    | with_reducible assumption
    | exact wF.sub rfl
    | with_reducible apply State.completeWith_keeps
    | (with_reducible refine State.runPacket_keeps (wF.sub rfl) ?_ (fun _ _ _ => ?_))
    | exact KeepsCmd.refuse
    | with_reducible apply KeepsCmd.rightFirst
    | with_reducible apply KeepsCmd.ok
    | exact KeepsCmd.error
    | with_reducible apply Keeps.ite
    | with_reducible apply KeepsRes.next
    | exact KeepsRes.refused
    | split
    | (with_reducible apply Keeps.of_fst; assumption)
    | (with_reducible apply Keeps.of_snd; assumption)
    | dsimp only
    | with_reducible apply Keeps.upd
    | with_reducible exact fun _ => rfl
    | exact wF.off rfl

theorem execJobCreate_keeps {s0 : State} {port : Nat} {queue : Nat} {s : State} (wF : Free F [.regs, .objs, .host, .fab, .surv, .recd]) (hK : Keeps F s0 s) :
    KeepsRes F s0 (execJobCreate port queue s) := by
  unfold execJobCreate
  repeat' first
    | with_reducible assumption
    | exact wF.sub rfl
    | with_reducible apply State.completePacket_keeps
    | with_reducible apply State.modObjs_keeps
    | (with_reducible refine State.runPacket_keeps (wF.sub rfl) ?_ (fun _ _ _ => ?_))
    | exact KeepsCmd.refuse
    | with_reducible apply KeepsCmd.rightFirst
    | with_reducible apply KeepsCmd.ok
    | exact KeepsCmd.error
    | with_reducible apply Keeps.ite
    | with_reducible apply KeepsRes.next
    | exact KeepsRes.refused
    | split
    | (with_reducible apply Keeps.of_fst; assumption)
    | (with_reducible apply Keeps.of_snd; assumption)
    | dsimp only
    | with_reducible apply Keeps.upd
    | with_reducible exact fun _ => rfl
    | exact wF.off rfl

theorem State.leaveJob_keeps {s0 : State} {s : State} {x : Nat} (wF : Free F [.objs]) (hK : Keeps F s0 s) :
    Keeps F s0 (State.leaveJob s x) := by
  unfold State.leaveJob
  repeat' first
    | with_reducible assumption
    | exact wF.sub rfl
    | with_reducible apply State.modCtx_keeps
    | with_reducible apply State.modObjs_keeps
    | dsimp only
    | with_reducible apply Keeps.upd
    | with_reducible exact fun _ => rfl
    | exact wF.off rfl

theorem execJobJoin_keeps {s0 : State} {port : Nat} {queue : Nat} {s : State} (wF : Free F [.regs, .objs, .host, .fab, .surv, .recd]) (hK : Keeps F s0 s) :
    KeepsRes F s0 (execJobJoin port queue s) := by
  unfold execJobJoin
  repeat' first
    | with_reducible assumption
    | exact wF.sub rfl
    | with_reducible apply State.completePacket_keeps
    | with_reducible apply State.leaveJob_keeps
    | with_reducible apply State.modCtx_keeps
    | with_reducible apply State.modObjs_keeps
    | (with_reducible refine State.runPacket_keeps (wF.sub rfl) ?_ (fun _ _ _ => ?_))
    | exact KeepsCmd.refuse
    | with_reducible apply KeepsCmd.rightFirst
    | with_reducible apply KeepsCmd.ok
    | exact KeepsCmd.error
    | with_reducible apply Keeps.ite
    | with_reducible apply KeepsRes.next
    | exact KeepsRes.refused
    | split
    | (with_reducible apply Keeps.of_fst; assumption)
    | (with_reducible apply Keeps.of_snd; assumption)
    | dsimp only
    | with_reducible apply Keeps.upd
    | with_reducible exact fun _ => rfl
    | exact wF.off rfl

theorem execJobDestroy_keeps {s0 : State} {port : Nat} {queue : Nat} {s : State} (wF : Free F [.regs, .cores, .objs, .host, .fab, .surv, .recd]) (hK : Keeps F s0 s) :
    KeepsRes F s0 (execJobDestroy port queue s) := by
  unfold execJobDestroy
  repeat' first
    | with_reducible assumption
    | exact wF.sub rfl
    | with_reducible apply State.completePacket_keeps
    | with_reducible apply State.modObjs_keeps
    | (with_reducible refine State.runPacket_keeps (wF.sub rfl) ?_ (fun _ _ _ => ?_))
    | exact KeepsCmd.refuse
    | with_reducible apply KeepsCmd.rightFirst
    | with_reducible apply KeepsCmd.ok
    | exact KeepsCmd.error
    | with_reducible apply Keeps.ite
    | with_reducible apply KeepsRes.next
    | exact KeepsRes.refused
    | split
    | (with_reducible apply Keeps.of_fst; assumption)
    | (with_reducible apply Keeps.of_snd; assumption)
    | dsimp only
    | with_reducible apply Keeps.upd
    | with_reducible exact fun _ => rfl
    | exact wF.off rfl

theorem execQueueCreate_keeps {s0 : State} {port : Nat} {queue : Nat} {s : State} (wF : Free F [.regs, .objs, .host, .fab, .surv, .recd]) (hK : Keeps F s0 s) :
    KeepsRes F s0 (execQueueCreate port queue s) := by
  unfold execQueueCreate
  repeat' first
    | with_reducible assumption
    | exact wF.sub rfl
    | with_reducible apply State.completePacket_keeps
    | with_reducible apply State.publish_keeps
    | (with_reducible refine State.runPacket_keeps (wF.sub rfl) ?_ (fun _ _ _ => ?_))
    | with_reducible apply State.setQueue_keeps
    | exact KeepsCmd.refuse
    | with_reducible apply KeepsCmd.rightFirst
    | with_reducible apply KeepsCmd.ok
    | exact KeepsCmd.error
    | with_reducible apply Keeps.ite
    | with_reducible apply KeepsRes.next
    | exact KeepsRes.refused
    | split
    | (with_reducible apply Keeps.of_fst; assumption)
    | (with_reducible apply Keeps.of_snd; assumption)
    | dsimp only
    | with_reducible apply Keeps.upd
    | with_reducible exact fun _ => rfl
    | exact wF.off rfl

theorem State.failQueued_keeps {s0 : State} {s : State} {port : Nat} {id : Nat} {x : Nat} {l : List Packet} (wF : Free F [.regs, .objs, .host, .fab]) (hK : Keeps F s0 s) :
    Keeps F s0 (State.failQueued s port id x l) := by
  unfold State.failQueued
  repeat' first
    | with_reducible assumption
    | exact wF.sub rfl
    | with_reducible apply State.bump_keeps
    | with_reducible apply State.fenceError_keeps
    | with_reducible apply Keeps.ite
    | (with_reducible apply Keeps.foldl1; intro _ _ _)
    | (with_reducible apply Keeps.foldl2; intro _ _ _)
    | (with_reducible apply Keeps.foldl; intro _ _ _)
    | split
    | dsimp only
    | with_reducible apply Keeps.upd
    | with_reducible exact fun _ => rfl
    | exact wF.off rfl

theorem execQueueDestroy_keeps {s0 : State} {port : Nat} {queue : Nat} {s : State} (wF : Free F [.regs, .objs, .host, .fab, .surv, .recd]) (hK : Keeps F s0 s) :
    KeepsRes F s0 (execQueueDestroy port queue s) := by
  unfold execQueueDestroy
  repeat' first
    | with_reducible assumption
    | exact wF.sub rfl
    | with_reducible apply State.endPacket_keeps
    | with_reducible apply State.failQueued_keeps
    | (with_reducible refine State.runPacket_keeps (wF.sub rfl) ?_ (fun _ _ _ => ?_))
    | with_reducible apply State.signal_keeps
    | exact KeepsCmd.refuse
    | with_reducible apply rightFirst_keeps
    | with_reducible apply KeepsCmd.rightFirst
    | with_reducible apply KeepsCmd.ok
    | exact KeepsCmd.error
    | with_reducible apply Keeps.ite
    | with_reducible apply KeepsRes.next
    | exact KeepsRes.refused
    | split
    | (with_reducible apply Keeps.of_fst; assumption)
    | (with_reducible apply Keeps.of_snd; assumption)
    | dsimp only
    | with_reducible apply Keeps.upd
    | with_reducible exact fun _ => rfl
    | exact wF.off rfl

theorem execMemAlloc_keeps {s0 : State} {port : Nat} {queue : Nat} {s : State} (wF : Free F [.regs, .objs, .host, .fab, .surv, .recd]) (hK : Keeps F s0 s) :
    KeepsRes F s0 (execMemAlloc port queue s) := by
  unfold execMemAlloc
  repeat' first
    | with_reducible assumption
    | exact wF.sub rfl
    | with_reducible apply State.completeWith_keeps
    | with_reducible apply State.modObjs_keeps
    | (with_reducible refine State.runPacket_keeps (wF.sub rfl) ?_ (fun _ _ _ => ?_))
    | exact KeepsCmd.refuse
    | with_reducible apply KeepsCmd.rightFirst
    | with_reducible apply KeepsCmd.ok
    | exact KeepsCmd.error
    | with_reducible apply Keeps.ite
    | with_reducible apply KeepsRes.next
    | exact KeepsRes.refused
    | split
    | (with_reducible apply Keeps.of_fst; assumption)
    | (with_reducible apply Keeps.of_snd; assumption)
    | dsimp only
    | with_reducible apply Keeps.upd
    | with_reducible exact fun _ => rfl
    | exact wF.off rfl

theorem execMemFree_keeps {s0 : State} {port : Nat} {queue : Nat} {s : State} (wF : Free F [.regs, .cache, .hbm, .objs, .host, .fab, .surv, .recd]) (hK : Keeps F s0 s) :
    KeepsRes F s0 (execMemFree port queue s) := by
  unfold execMemFree
  repeat' first
    | with_reducible assumption
    | exact wF.sub rfl
    | with_reducible apply State.completePacket_keeps
    | with_reducible apply State.modObjs_keeps
    | (with_reducible refine State.runPacket_keeps (wF.sub rfl) ?_ (fun _ _ _ => ?_))
    | with_reducible apply State.settleFreeing_keeps
    | with_reducible apply rightFirst_keeps
    | with_reducible apply KeepsCmd.rightFirst
    | with_reducible apply KeepsCmd.ok
    | exact KeepsCmd.error
    | with_reducible apply KeepsRes.next
    | exact KeepsRes.refused
    | split
    | (with_reducible apply Keeps.of_fst; assumption)
    | (with_reducible apply Keeps.of_snd; assumption)
    | dsimp only
    | with_reducible apply Keeps.upd
    | with_reducible exact fun _ => rfl
    | exact wF.off rfl

theorem execMemMap_keeps {s0 : State} {port : Nat} {queue : Nat} {s : State} (wF : Free F [.regs, .objs, .host, .fab, .surv, .recd]) (hK : Keeps F s0 s) :
    KeepsRes F s0 (execMemMap port queue s) := by
  unfold execMemMap
  repeat' first
    | with_reducible assumption
    | exact wF.sub rfl
    | with_reducible apply State.completePacket_keeps
    | with_reducible apply State.modCtx_keeps
    | (with_reducible refine State.runPacket_keeps (wF.sub rfl) ?_ (fun _ _ _ => ?_))
    | exact KeepsCmd.refuse
    | with_reducible apply KeepsCmd.rightFirst
    | with_reducible apply KeepsCmd.ok
    | exact KeepsCmd.error
    | with_reducible apply Keeps.ite
    | with_reducible apply KeepsRes.next
    | exact KeepsRes.refused
    | split
    | (with_reducible apply Keeps.of_fst; assumption)
    | (with_reducible apply Keeps.of_snd; assumption)
    | dsimp only
    | with_reducible apply Keeps.upd
    | with_reducible exact fun _ => rfl
    | exact wF.off rfl

theorem execMemUnmap_keeps {s0 : State} {port : Nat} {queue : Nat} {s : State} (wF : Free F [.regs, .cache, .hbm, .objs, .host, .fab, .surv, .recd]) (hK : Keeps F s0 s) :
    KeepsRes F s0 (execMemUnmap port queue s) := by
  unfold execMemUnmap
  repeat' first
    | with_reducible assumption
    | exact wF.sub rfl
    | with_reducible apply State.completePacket_keeps
    | with_reducible apply State.endPacket_keeps
    | with_reducible apply State.modCtx_keeps
    | with_reducible apply State.modObjs_keeps
    | (with_reducible refine State.runPacket_keeps (wF.sub rfl) ?_ (fun _ _ _ => ?_))
    | with_reducible apply State.settleFreeing_keeps
    | exact KeepsCmd.refuse
    | with_reducible apply KeepsCmd.rightFirst
    | with_reducible apply KeepsCmd.ok
    | exact KeepsCmd.error
    | with_reducible apply Keeps.ite
    | with_reducible apply KeepsRes.next
    | exact KeepsRes.refused
    | split
    | (with_reducible apply Keeps.of_fst; assumption)
    | (with_reducible apply Keeps.of_snd; assumption)
    | dsimp only
    | with_reducible apply Keeps.upd
    | with_reducible exact fun _ => rfl
    | exact wF.off rfl

theorem execMemUnmapComplete_keeps {s0 : State} {unmap : Nat} {s : State} (wF : Free F [.regs, .objs, .host, .fab, .surv, .recd]) (hK : Keeps F s0 s) :
    KeepsRes F s0 (execMemUnmapComplete unmap s) := by
  unfold execMemUnmapComplete
  repeat' first
    | with_reducible assumption
    | exact wF.sub rfl
    | with_reducible apply State.modObjs_keeps
    | with_reducible apply State.signal_keeps
    | with_reducible apply Keeps.ite
    | with_reducible apply KeepsRes.next
    | exact KeepsRes.refused
    | split
    | (with_reducible apply Keeps.of_fst; assumption)
    | (with_reducible apply Keeps.of_snd; assumption)
    | dsimp only
    | with_reducible apply Keeps.upd
    | with_reducible exact fun _ => rfl
    | exact wF.off rfl

theorem execMemShare_keeps {s0 : State} {port : Nat} {queue : Nat} {s : State} (wF : Free F [.regs, .objs, .host, .fab, .surv, .recd]) (hK : Keeps F s0 s) :
    KeepsRes F s0 (execMemShare port queue s) := by
  unfold execMemShare
  repeat' first
    | with_reducible assumption
    | exact wF.sub rfl
    | with_reducible apply State.completePacket_keeps
    | with_reducible apply State.modObjs_keeps
    | (with_reducible refine State.runPacket_keeps (wF.sub rfl) ?_ (fun _ _ _ => ?_))
    | with_reducible apply rightFirst_keeps
    | with_reducible apply KeepsCmd.rightFirst
    | with_reducible apply KeepsCmd.ok
    | exact KeepsCmd.error
    | with_reducible apply KeepsRes.next
    | exact KeepsRes.refused
    | split
    | (with_reducible apply Keeps.of_fst; assumption)
    | (with_reducible apply Keeps.of_snd; assumption)
    | dsimp only
    | with_reducible apply Keeps.upd
    | with_reducible exact fun _ => rfl
    | exact wF.off rfl

theorem execDescTableSet_keeps {s0 : State} {port : Nat} {queue : Nat} {s : State} (wF : Free F [.regs, .objs, .host, .fab, .surv, .recd]) (hK : Keeps F s0 s) :
    KeepsRes F s0 (execDescTableSet port queue s) := by
  unfold execDescTableSet
  repeat' first
    | with_reducible assumption
    | exact wF.sub rfl
    | with_reducible apply State.completePacket_keeps
    | with_reducible apply State.modCtx_keeps
    | (with_reducible refine State.runPacket_keeps (wF.sub rfl) ?_ (fun _ _ _ => ?_))
    | exact KeepsCmd.refuse
    | with_reducible apply KeepsCmd.rightFirst
    | with_reducible apply KeepsCmd.ok
    | exact KeepsCmd.error
    | with_reducible apply Keeps.ite
    | with_reducible apply KeepsRes.next
    | exact KeepsRes.refused
    | split
    | (with_reducible apply Keeps.of_fst; assumption)
    | (with_reducible apply Keeps.of_snd; assumption)
    | dsimp only
    | with_reducible apply Keeps.upd
    | with_reducible exact fun _ => rfl
    | exact wF.off rfl

theorem execFenceCreate_keeps {s0 : State} {port : Nat} {queue : Nat} {s : State} (wF : Free F [.regs, .objs, .host, .fab, .surv, .recd]) (hK : Keeps F s0 s) :
    KeepsRes F s0 (execFenceCreate port queue s) := by
  unfold execFenceCreate
  repeat' first
    | with_reducible assumption
    | exact wF.sub rfl
    | with_reducible apply State.completeWith_keeps
    | with_reducible apply State.modObjs_keeps
    | (with_reducible refine State.runPacket_keeps (wF.sub rfl) ?_ (fun _ _ _ => ?_))
    | exact KeepsCmd.refuse
    | with_reducible apply KeepsCmd.rightFirst
    | with_reducible apply KeepsCmd.ok
    | exact KeepsCmd.error
    | with_reducible apply Keeps.ite
    | with_reducible apply KeepsRes.next
    | exact KeepsRes.refused
    | split
    | (with_reducible apply Keeps.of_fst; assumption)
    | (with_reducible apply Keeps.of_snd; assumption)
    | dsimp only
    | with_reducible apply Keeps.upd
    | with_reducible exact fun _ => rfl
    | exact wF.off rfl

theorem State.dropFence_keeps {s0 : State} {s : State} {f : Nat} (wF : Free F [.regs, .objs, .fab]) (hK : Keeps F s0 s) :
    Keeps F s0 (State.dropFence s f) := by
  unfold State.dropFence
  repeat' first
    | with_reducible assumption
    | exact wF.sub rfl
    | with_reducible apply State.modFence_keeps
    | with_reducible apply State.noteHolders_keeps
    | with_reducible apply State.pushFence_keeps
    | with_reducible apply State.settleHeld_keeps
    | split
    | (with_reducible apply Keeps.of_fst; assumption)
    | (with_reducible apply Keeps.of_snd; assumption)
    | dsimp only
    | with_reducible apply Keeps.upd
    | with_reducible exact fun _ => rfl
    | exact wF.off rfl

theorem execFenceDestroy_keeps {s0 : State} {port : Nat} {queue : Nat} {s : State} (wF : Free F [.regs, .objs, .host, .fab, .surv, .recd]) (hK : Keeps F s0 s) :
    KeepsRes F s0 (execFenceDestroy port queue s) := by
  unfold execFenceDestroy
  repeat' first
    | with_reducible assumption
    | exact wF.sub rfl
    | with_reducible apply State.dropFence_keeps
    | with_reducible apply State.endPacket_keeps
    | with_reducible apply State.fenceError_keeps
    | (with_reducible refine State.runPacket_keeps (wF.sub rfl) ?_ (fun _ _ _ => ?_))
    | with_reducible apply State.signal_keeps
    | with_reducible apply rightFirst_keeps
    | with_reducible apply KeepsCmd.rightFirst
    | with_reducible apply KeepsCmd.ok
    | exact KeepsCmd.error
    | with_reducible apply Keeps.ite
    | with_reducible apply KeepsRes.next
    | exact KeepsRes.refused
    | split
    | (with_reducible apply Keeps.of_fst; assumption)
    | (with_reducible apply Keeps.of_snd; assumption)
    | dsimp only
    | with_reducible apply Keeps.upd
    | with_reducible exact fun _ => rfl
    | exact wF.off rfl

theorem execFenceShare_keeps {s0 : State} {port : Nat} {queue : Nat} {s : State} (wF : Free F [.regs, .objs, .host, .fab, .surv, .recd]) (hK : Keeps F s0 s) :
    KeepsRes F s0 (execFenceShare port queue s) := by
  unfold execFenceShare
  repeat' first
    | with_reducible assumption
    | exact wF.sub rfl
    | with_reducible apply State.completePacket_keeps
    | with_reducible apply State.modFence_keeps
    | (with_reducible refine State.runPacket_keeps (wF.sub rfl) ?_ (fun _ _ _ => ?_))
    | exact KeepsCmd.refuse
    | with_reducible apply rightFirst_keeps
    | with_reducible apply KeepsCmd.rightFirst
    | with_reducible apply KeepsCmd.ok
    | exact KeepsCmd.error
    | with_reducible apply Keeps.ite
    | with_reducible apply KeepsRes.next
    | exact KeepsRes.refused
    | split
    | (with_reducible apply Keeps.of_fst; assumption)
    | (with_reducible apply Keeps.of_snd; assumption)
    | dsimp only
    | with_reducible apply Keeps.upd
    | with_reducible exact fun _ => rfl
    | exact wF.off rfl

theorem execFenceImport_keeps {s0 : State} {port : Nat} {queue : Nat} {s : State} (wF : Free F [.regs, .objs, .host, .fab, .surv, .recd, .free]) (hK : Keeps F s0 s) :
    KeepsRes F s0 (execFenceImport port queue s) := by
  unfold execFenceImport
  repeat' first
    | with_reducible assumption
    | exact wF.sub rfl
    | with_reducible apply State.bump_keeps
    | with_reducible apply State.completeWith_keeps
    | with_reducible apply State.draw_keeps
    | with_reducible apply State.failPacket_keeps
    | with_reducible apply State.modObjs_keeps
    | (with_reducible refine State.runPacket_keeps (wF.sub rfl) ?_ (fun _ _ _ => ?_))
    | exact KeepsCmd.refuse
    | with_reducible apply KeepsCmd.rightFirst
    | with_reducible apply KeepsCmd.ok
    | exact KeepsCmd.error
    | with_reducible apply Keeps.ite
    | with_reducible apply KeepsRes.next
    | exact KeepsRes.refused
    | split
    | (with_reducible apply Keeps.of_fst; assumption)
    | (with_reducible apply Keeps.of_snd; assumption)
    | dsimp only
    | with_reducible apply Keeps.upd
    | with_reducible exact fun _ => rfl
    | exact wF.off rfl

theorem execFenceReset_keeps {s0 : State} {port : Nat} {queue : Nat} {s : State} (wF : Free F [.regs, .objs, .host, .fab, .surv, .recd]) (hK : Keeps F s0 s) :
    KeepsRes F s0 (execFenceReset port queue s) := by
  unfold execFenceReset
  repeat' first
    | with_reducible assumption
    | exact wF.sub rfl
    | with_reducible apply State.completePacket_keeps
    | with_reducible apply State.modFence_keeps
    | (with_reducible refine State.runPacket_keeps (wF.sub rfl) ?_ (fun _ _ _ => ?_))
    | with_reducible apply State.wake_keeps
    | with_reducible apply rightFirst_keeps
    | with_reducible apply KeepsCmd.rightFirst
    | with_reducible apply KeepsCmd.ok
    | exact KeepsCmd.error
    | with_reducible apply KeepsRes.next
    | exact KeepsRes.refused
    | split
    | (with_reducible apply Keeps.of_fst; assumption)
    | (with_reducible apply Keeps.of_snd; assumption)
    | dsimp only
    | with_reducible apply Keeps.upd
    | with_reducible exact fun _ => rfl
    | exact wF.off rfl

theorem execEventCreate_keeps {s0 : State} {port : Nat} {queue : Nat} {s : State} (wF : Free F [.regs, .objs, .host, .fab, .surv, .recd]) (hK : Keeps F s0 s) :
    KeepsRes F s0 (execEventCreate port queue s) := by
  unfold execEventCreate
  repeat' first
    | with_reducible assumption
    | exact wF.sub rfl
    | with_reducible apply State.completeWith_keeps
    | with_reducible apply State.fireEvent_keeps
    | with_reducible apply State.modObjs_keeps
    | (with_reducible refine State.runPacket_keeps (wF.sub rfl) ?_ (fun _ _ _ => ?_))
    | exact KeepsCmd.refuse
    | with_reducible apply rightFirst_keeps
    | with_reducible apply KeepsCmd.rightFirst
    | with_reducible apply KeepsCmd.ok
    | exact KeepsCmd.error
    | with_reducible apply Keeps.ite
    | with_reducible apply KeepsRes.next
    | exact KeepsRes.refused
    | split
    | (with_reducible apply Keeps.of_fst; assumption)
    | (with_reducible apply Keeps.of_snd; assumption)
    | dsimp only
    | with_reducible apply Keeps.upd
    | with_reducible exact fun _ => rfl
    | exact wF.off rfl

theorem execEventDestroy_keeps {s0 : State} {port : Nat} {queue : Nat} {s : State} (wF : Free F [.regs, .objs, .host, .fab, .surv, .recd]) (hK : Keeps F s0 s) :
    KeepsRes F s0 (execEventDestroy port queue s) := by
  unfold execEventDestroy
  repeat' first
    | with_reducible assumption
    | exact wF.sub rfl
    | with_reducible apply State.completePacket_keeps
    | with_reducible apply State.modObjs_keeps
    | (with_reducible refine State.runPacket_keeps (wF.sub rfl) ?_ (fun _ _ _ => ?_))
    | exact KeepsCmd.refuse
    | with_reducible apply rightFirst_keeps
    | with_reducible apply KeepsCmd.rightFirst
    | with_reducible apply KeepsCmd.ok
    | exact KeepsCmd.error
    | with_reducible apply Keeps.ite
    | with_reducible apply KeepsRes.next
    | exact KeepsRes.refused
    | split
    | (with_reducible apply Keeps.of_fst; assumption)
    | (with_reducible apply Keeps.of_snd; assumption)
    | dsimp only
    | with_reducible apply Keeps.upd
    | with_reducible exact fun _ => rfl
    | exact wF.off rfl

theorem State.dropWork_keeps {s0 : State} {s : State} {x : Nat} (wF : Free F [.regs, .cache, .cores, .te, .ge, .seqs, .loader, .host, .fab, .uu, .surv, .recd]) (hK : Keeps F s0 s) :
    Keeps F s0 (State.dropWork s x) := by
  unfold State.dropWork
  repeat' first
    | with_reducible assumption
    | exact wF.sub rfl
    | with_reducible apply State.adoptRate_keeps
    | with_reducible apply State.dropReqs_keeps
    | with_reducible apply State.freeCore_keeps
    | with_reducible apply Keeps.ite
    | (with_reducible apply Keeps.foldl1; intro _ _ _)
    | (with_reducible apply Keeps.foldl2; intro _ _ _)
    | (with_reducible apply Keeps.foldl; intro _ _ _)
    | split
    | (with_reducible apply Keeps.of_fst; assumption)
    | (with_reducible apply Keeps.of_snd; assumption)
    | dsimp only
    | with_reducible apply Keeps.upd
    | with_reducible exact fun _ => rfl
    | exact wF.off rfl

theorem State.dropObjects_keeps {s0 : State} {s : State} {x : Nat} (wF : Free F [.objs]) (hK : Keeps F s0 s) :
    Keeps F s0 (State.dropObjects s x) := by
  unfold State.dropObjects
  repeat' first
    | with_reducible assumption
    | exact wF.sub rfl
    | with_reducible apply State.modObjs_keeps
    | with_reducible apply State.settleHeld_keeps
    | (with_reducible apply Keeps.foldl1; intro _ _ _)
    | (with_reducible apply Keeps.foldl2; intro _ _ _)
    | (with_reducible apply Keeps.foldl; intro _ _ _)
    | dsimp only
    | with_reducible apply Keeps.upd
    | with_reducible exact fun _ => rfl
    | exact wF.off rfl

theorem State.disown_keeps {s0 : State} {s : State} {x : Nat} (wF : Free F [.cores]) (hK : Keeps F s0 s) :
    Keeps F s0 (State.disown s x) := by
  unfold State.disown
  repeat' first
    | with_reducible assumption
    | exact wF.sub rfl
    | with_reducible apply Keeps.ite
    | split
    | dsimp only
    | with_reducible apply Keeps.upd
    | with_reducible exact fun _ => rfl
    | exact wF.off rfl

theorem State.endFence_keeps {s0 : State} {s : State} {f : Nat} {code : Nat} {by_ : Option Nat} (wF : Free F [.regs, .objs, .host, .fab]) (hK : Keeps F s0 s) :
    Keeps F s0 (State.endFence s f code by_) := by
  unfold State.endFence
  repeat' first
    | with_reducible assumption
    | exact wF.sub rfl
    | with_reducible apply State.fenceError_keeps
    | with_reducible apply State.noteHolders_keeps
    | with_reducible apply State.pushFence_keeps
    | with_reducible apply Keeps.ite
    | split
    | (with_reducible apply Keeps.of_fst; assumption)
    | (with_reducible apply Keeps.of_snd; assumption)
    | dsimp only
    | with_reducible apply Keeps.upd
    | with_reducible exact fun _ => rfl
    | exact wF.off rfl

theorem execTeardownAbortDone_keeps {s0 : State} {ctx : Nat} {s : State} (wF : Free F [.ident, .regs, .cache, .hbm, .cores, .te, .ge, .seqs, .objs, .loader, .host, .fab, .uu, .surv, .recd]) (hK : Keeps F s0 s) :
    KeepsRes F s0 (execTeardownAbortDone ctx s) := by
  unfold execTeardownAbortDone
  repeat' first
    | with_reducible assumption
    | exact wF.sub rfl
    | with_reducible apply State.disown_keeps
    | with_reducible apply State.dropObjects_keeps
    | with_reducible apply State.dropWork_keeps
    | with_reducible apply State.endFence_keeps
    | with_reducible apply State.leaveJob_keeps
    | with_reducible apply State.modCtx_keeps
    | with_reducible apply State.modObjs_keeps
    | with_reducible apply State.orphan_keeps
    | with_reducible apply State.replaceDead_keeps
    | with_reducible apply State.settleFreeing_keeps
    | with_reducible apply State.signalAll_keeps
    | with_reducible apply Keeps.ite
    | with_reducible apply KeepsRes.next
    | exact KeepsRes.refused
    | (with_reducible apply Keeps.foldl1; intro _ _ _)
    | (with_reducible apply Keeps.foldl2; intro _ _ _)
    | (with_reducible apply Keeps.foldl; intro _ _ _)
    | split
    | (with_reducible apply Keeps.of_fst; assumption)
    | (with_reducible apply Keeps.of_snd; assumption)
    | dsimp only
    | with_reducible apply Keeps.upd
    | with_reducible exact fun _ => rfl
    | exact wF.off rfl

end Sys2Proof.Machine
end

