-- ==== Sys2Proof/Laws/KeepsLinks.lean ====
section
/-! SUPPORT. What every step keeps: the functions of Machine/Links.lean. -/

namespace Sys2Proof.Machine

open Sys2Proof

variable {F : Area → Bool}

theorem execKeepaliveSend_keeps {s0 : State} {link : Link} {s : State} (wF : Free F [.regs]) (hK : Keeps F s0 s) :
    KeepsRes F s0 (execKeepaliveSend link s) := by
  unfold execKeepaliveSend
  repeat' first
    | with_reducible assumption
    | exact wF.sub rfl
    | with_reducible apply State.bump_keeps
    | with_reducible apply Keeps.ite
    | with_reducible apply KeepsRes.next
    | exact KeepsRes.refused
    | split
    | dsimp only
    | with_reducible apply Keeps.upd
    | with_reducible exact fun _ => rfl
    | exact wF.off rfl

theorem State.entryWritten_keeps {s0 : State} {s : State} {e : CqEntry} (wF : Free F [.regs, .mem, .cache, .hbm, .cores, .seqs, .objs, .host, .fab, .uu, .surv, .pwr, .recd, .free]) (hK : Keeps F s0 s) :
    Keeps F s0 (State.entryWritten s e) := by
  unfold State.entryWritten
  repeat' first
    | with_reducible assumption
    | exact wF.sub rfl
    | with_reducible apply State.goOn_keeps
    | with_reducible apply State.modXfer_keeps
    | with_reducible apply State.signal_keeps
    | with_reducible apply Keeps.ite
    | split
    | (with_reducible apply Keeps.of_fst; assumption)
    | (with_reducible apply Keeps.of_snd; assumption)
    | dsimp only
    | with_reducible apply Keeps.upd
    | with_reducible exact fun _ => rfl
    | exact wF.off rfl

theorem State.cqDrain_keeps {s0 : State} {n : Nat} {s : State} {p c : Nat} (wF : Free F [.regs, .mem, .cache, .hbm, .cores, .seqs, .objs, .host, .fab, .uu, .surv, .pwr, .recd, .free]) (h : Keeps F s0 s) : Keeps F s0 (State.cqDrain n s p c) := by
  induction n generalizing s with
  | zero => exact h
  | succ n ih =>
    unfold State.cqDrain
    repeat' first
      | with_reducible assumption
      | exact wF.sub rfl
      | with_reducible apply ih
      | with_reducible apply State.entryWritten_keeps
      | with_reducible apply State.cqWrite_keeps
      | with_reducible apply State.setCq_keeps
      | split

theorem State.cqDrainPort_keeps {s0 : State} {s : State} {p : Nat} (wF : Free F [.regs, .mem, .cache, .hbm, .cores, .seqs, .objs, .host, .fab, .uu, .surv, .pwr, .recd, .free]) (hK : Keeps F s0 s) :
    Keeps F s0 (State.cqDrainPort s p) := by
  unfold State.cqDrainPort
  repeat' first
    | with_reducible assumption
    | exact wF.sub rfl
    | with_reducible apply State.cqDrain_keeps
    | (with_reducible apply Keeps.foldl1; intro _ _ _)
    | (with_reducible apply Keeps.foldl2; intro _ _ _)
    | (with_reducible apply Keeps.foldl; intro _ _ _)
    | dsimp only
    | with_reducible apply Keeps.upd
    | with_reducible exact fun _ => rfl
    | exact wF.off rfl

theorem State.ownerGone_keeps {s0 : State} {s : State} {p : Nat} (wF : Free F [.regs, .objs, .loader, .host, .fab, .surv, .recd]) (hK : Keeps F s0 s) :
    Keeps F s0 (State.ownerGone s p) := by
  unfold State.ownerGone
  repeat' first
    | with_reducible assumption
    | exact wF.sub rfl
    | with_reducible apply State.fenceError_keeps
    | with_reducible apply State.modCtx_keeps
    | with_reducible apply State.raise_keeps
    | with_reducible apply State.setBit_keeps
    | with_reducible apply State.setCq_keeps
    | with_reducible apply State.setField_keeps
    | with_reducible apply State.setPort_keeps
    | with_reducible apply State.setWire_keeps
    | with_reducible apply State.teardown_keeps
    | with_reducible apply Keeps.ite
    | (with_reducible apply Keeps.foldl1; intro _ _ _)
    | (with_reducible apply Keeps.foldl2; intro _ _ _)
    | (with_reducible apply Keeps.foldl; intro _ _ _)
    | split
    | dsimp only
    | with_reducible apply Keeps.upd
    | with_reducible exact fun _ => rfl
    | exact wF.off rfl

theorem State.burobDown_keeps {s0 : State} {s : State} {port : Nat} (wF : Free F [.regs, .host, .surv, .recd]) (hK : Keeps F s0 s) :
    Keeps F s0 (State.burobDown s port) := by
  unfold State.burobDown
  repeat' first
    | with_reducible assumption
    | exact wF.sub rfl
    | with_reducible apply State.adopt_keeps
    | with_reducible apply State.raise_keeps
    | with_reducible apply State.setPort_keeps
    | with_reducible apply Keeps.ite
    | split
    | dsimp only
    | with_reducible apply Keeps.upd
    | with_reducible exact fun _ => rfl
    | exact wF.off rfl

theorem execBurobLinkDown_keeps {s0 : State} {port : Nat} {s : State} (wF : Free F [.regs, .host, .surv, .recd]) (hK : Keeps F s0 s) :
    KeepsRes F s0 (execBurobLinkDown port s) := by
  unfold execBurobLinkDown
  repeat' first
    | with_reducible assumption
    | exact wF.sub rfl
    | with_reducible apply State.burobDown_keeps
    | with_reducible apply KeepsRes.next
    | exact KeepsRes.refused
    | dsimp only
    | with_reducible apply Keeps.upd
    | with_reducible exact fun _ => rfl
    | exact wF.off rfl

theorem State.linkRecord_keeps {s0 : State} {s : State} {p : Nat} (wF : Free F [.regs, .host, .fab]) (hK : Keeps F s0 s) :
    Keeps F s0 (State.linkRecord s p) := by
  unfold State.linkRecord
  repeat' first
    | with_reducible assumption
    | exact wF.sub rfl
    | with_reducible apply State.hostWrite_keeps
    | with_reducible apply State.setPort_keeps
    | with_reducible apply Keeps.ite
    | split
    | dsimp only
    | with_reducible apply Keeps.upd
    | with_reducible exact fun _ => rfl
    | exact wF.off rfl

theorem State.replayHeld_keeps {s0 : State} {s : State} {p : Nat} (wF : Free F [.regs, .host, .fab]) (hK : Keeps F s0 s) :
    Keeps F s0 (State.replayHeld s p) := by
  unfold State.replayHeld
  repeat' first
    | with_reducible assumption
    | exact wF.sub rfl
    | with_reducible apply State.hostWrite_keeps
    | with_reducible apply State.setPort_keeps
    | (with_reducible apply Keeps.foldl1; intro _ _ _)
    | (with_reducible apply Keeps.foldl2; intro _ _ _)
    | (with_reducible apply Keeps.foldl; intro _ _ _)
    | dsimp only
    | with_reducible apply Keeps.upd
    | with_reducible exact fun _ => rfl
    | exact wF.off rfl

theorem execBurobTrained_keeps {s0 : State} {port : Nat} {nonce : Nat} {halves : Nat} {s : State} (wF : Free F [.regs, .mem, .cache, .hbm, .cores, .seqs, .objs, .loader, .host, .fab, .uu, .surv, .pwr, .recd, .free]) (hK : Keeps F s0 s) :
    KeepsRes F s0 (execBurobTrained port nonce halves s) := by
  unfold execBurobTrained
  repeat' first
    | with_reducible assumption
    | exact wF.sub rfl
    | with_reducible apply State.bump_keeps
    | with_reducible apply State.cqDrainPort_keeps
    | with_reducible apply State.draw_keeps
    | with_reducible apply State.linkRecord_keeps
    | with_reducible apply State.ownerGone_keeps
    | with_reducible apply State.replayHeld_keeps
    | with_reducible apply State.setPort_keeps
    | with_reducible apply State.setWire_keeps
    | with_reducible apply Keeps.ite
    | with_reducible apply KeepsRes.next
    | exact KeepsRes.refused
    | split
    | dsimp only
    | with_reducible apply Keeps.upd
    | with_reducible exact fun _ => rfl
    | exact wF.off rfl

theorem execBurobTrainRetry_keeps {s0 : State} {port : Nat} {s : State} (wF : Free F [.regs, .host]) (hK : Keeps F s0 s) :
    KeepsRes F s0 (execBurobTrainRetry port s) := by
  unfold execBurobTrainRetry
  repeat' first
    | with_reducible assumption
    | exact wF.sub rfl
    | with_reducible apply State.bump_keeps
    | with_reducible apply State.setPort_keeps
    | with_reducible apply Keeps.ite
    | with_reducible apply KeepsRes.next
    | exact KeepsRes.refused
    | split
    | dsimp only
    | with_reducible apply Keeps.upd
    | with_reducible exact fun _ => rfl
    | exact wF.off rfl

theorem execGraceExpiry_keeps {s0 : State} {port : Nat} {s : State} (wF : Free F [.regs, .objs, .loader, .host, .fab, .surv, .recd]) (hK : Keeps F s0 s) :
    KeepsRes F s0 (execGraceExpiry port s) := by
  unfold execGraceExpiry
  repeat' first
    | with_reducible assumption
    | exact wF.sub rfl
    | with_reducible apply State.ownerGone_keeps
    | with_reducible apply Keeps.ite
    | with_reducible apply KeepsRes.next
    | exact KeepsRes.refused
    | split
    | dsimp only
    | with_reducible apply Keeps.upd
    | with_reducible exact fun _ => rfl
    | exact wF.off rfl

theorem State.burobRetrain_keeps {s0 : State} {s : State} {p : Nat} {half : Nat} {lane : Nat} {count : Nat} (wF : Free F [.regs, .host]) (hK : Keeps F s0 s) :
    Keeps F s0 (State.burobRetrain s p half lane count) := by
  unfold State.burobRetrain
  repeat' first
    | with_reducible assumption
    | exact wF.sub rfl
    | with_reducible apply State.bump_keeps
    | with_reducible apply State.setPort_keeps
    | dsimp only
    | with_reducible apply Keeps.upd
    | with_reducible exact fun _ => rfl
    | exact wF.off rfl

theorem State.degradeEvent_keeps {s0 : State} {s : State} {l : Link} {width : Nat} (wF : Free F [.surv, .recd]) (hK : Keeps F s0 s) :
    Keeps F s0 (State.degradeEvent s l width) := by
  unfold State.degradeEvent
  repeat' first
    | with_reducible assumption
    | exact wF.sub rfl
    | with_reducible apply State.raise_keeps
    | dsimp only
    | with_reducible apply Keeps.upd
    | with_reducible exact fun _ => rfl
    | exact wF.off rfl

theorem State.trayRetrain_keeps {s0 : State} {s : State} {k : Nat} {half : Nat} (wF : Free F [.regs, .fab, .surv, .recd]) (hK : Keeps F s0 s) :
    Keeps F s0 (State.trayRetrain s k half) := by
  unfold State.trayRetrain
  repeat' first
    | with_reducible assumption
    | exact wF.sub rfl
    | with_reducible apply State.degradeEvent_keeps
    | with_reducible apply State.setBit_keeps
    | with_reducible apply State.setField_keeps
    | dsimp only
    | with_reducible apply Keeps.upd
    | with_reducible exact fun _ => rfl
    | exact wF.off rfl

theorem State.sfOut_keeps {s0 : State} {s : State} {p : Nat} (wF : Free F [.regs]) (hK : Keeps F s0 s) :
    Keeps F s0 (State.sfOut s p) := by
  unfold State.sfOut
  repeat' first
    | with_reducible assumption
    | exact wF.sub rfl
    | with_reducible apply State.setField_keeps
    | with_reducible apply Keeps.ite
    | split
    | dsimp only
    | with_reducible apply Keeps.upd
    | with_reducible exact fun _ => rfl
    | exact wF.off rfl

theorem State.sfRetrain_keeps {s0 : State} {s : State} {p : Nat} {half : Nat} (wF : Free F [.regs, .fab, .surv, .recd]) (hK : Keeps F s0 s) :
    Keeps F s0 (State.sfRetrain s p half) := by
  unfold State.sfRetrain
  repeat' first
    | with_reducible assumption
    | exact wF.sub rfl
    | with_reducible apply State.setWire_keeps
    | with_reducible apply State.sfOut_keeps
    | with_reducible apply State.updateRoutes_keeps
    | dsimp only
    | with_reducible apply Keeps.upd
    | with_reducible exact fun _ => rfl
    | exact wF.off rfl

theorem State.nextWindow_keeps {s0 : State} {s : State} {l : Link} {half : Nat} {lane : Nat} {off : Nat} (wF : Free F [.fab]) (hK : Keeps F s0 s) :
    Keeps F s0 (State.nextWindow s l half lane off) := by
  unfold State.nextWindow
  repeat' first
    | with_reducible assumption
    | exact wF.sub rfl
    | with_reducible apply State.setWire_keeps
    | dsimp only
    | with_reducible apply Keeps.upd
    | with_reducible exact fun _ => rfl
    | exact wF.off rfl

theorem State.freshHalf_keeps {s0 : State} {s : State} {l : Link} {half : Nat} {off : Nat} (wF : Free F [.fab]) (hK : Keeps F s0 s) :
    Keeps F s0 (State.freshHalf s l half off) := by
  unfold State.freshHalf
  repeat' first
    | with_reducible assumption
    | exact wF.sub rfl
    | with_reducible apply State.setWire_keeps
    | dsimp only
    | with_reducible apply Keeps.upd
    | with_reducible exact fun _ => rfl
    | exact wF.off rfl

theorem execLaneErrorWindow_keeps {s0 : State} {link : Link} {half : Nat} {lane : Nat} {count : Nat} {s : State} (wF : Free F [.regs, .host, .fab, .surv, .recd]) (hK : Keeps F s0 s) :
    KeepsRes F s0 (execLaneErrorWindow link half lane count s) := by
  unfold execLaneErrorWindow
  repeat' first
    | with_reducible assumption
    | exact wF.sub rfl
    | with_reducible apply State.adopt_keeps
    | with_reducible apply State.burobRetrain_keeps
    | with_reducible apply State.nextWindow_keeps
    | with_reducible apply State.raise_keeps
    | with_reducible apply State.sfRetrain_keeps
    | with_reducible apply State.trayRetrain_keeps
    | with_reducible apply Keeps.ite
    | with_reducible apply KeepsRes.next
    | exact KeepsRes.refused
    | split
    | (with_reducible apply Keeps.of_fst; assumption)
    | (with_reducible apply Keeps.of_snd; assumption)
    | dsimp only
    | with_reducible apply Keeps.upd
    | with_reducible exact fun _ => rfl
    | exact wF.off rfl

theorem execHalfRetrainDone_keeps {s0 : State} {link : Link} {half : Nat} {ok : Bool} {s : State} (wF : Free F [.regs, .host, .fab, .surv, .recd]) (hK : Keeps F s0 s) :
    KeepsRes F s0 (execHalfRetrainDone link half ok s) := by
  unfold execHalfRetrainDone
  repeat' first
    | with_reducible assumption
    | exact wF.sub rfl
    | with_reducible apply State.degradeEvent_keeps
    | with_reducible apply State.freshHalf_keeps
    | with_reducible apply State.raise_keeps
    | with_reducible apply State.setField_keeps
    | with_reducible apply State.setPort_keeps
    | with_reducible apply Keeps.ite
    | with_reducible apply KeepsRes.next
    | exact KeepsRes.refused
    | split
    | (with_reducible apply Keeps.of_fst; assumption)
    | (with_reducible apply Keeps.of_snd; assumption)
    | dsimp only
    | with_reducible apply Keeps.upd
    | with_reducible exact fun _ => rfl
    | exact wF.off rfl

theorem State.halfRetry_keeps {s0 : State} {s : State} {link : Link} {half : Nat} (wF : Free F [.regs, .host, .fab, .surv, .recd]) (hK : Keeps F s0 s) :
    Keeps F s0 (State.halfRetry s link half) := by
  unfold State.halfRetry
  repeat' first
    | with_reducible assumption
    | exact wF.sub rfl
    | with_reducible apply State.setPort_keeps
    | with_reducible apply State.sfRetrain_keeps
    | with_reducible apply Keeps.ite
    | split
    | (with_reducible apply Keeps.of_fst; assumption)
    | (with_reducible apply Keeps.of_snd; assumption)
    | dsimp only
    | with_reducible apply Keeps.upd
    | with_reducible exact fun _ => rfl
    | exact wF.off rfl

theorem execHalfRetry_keeps {s0 : State} {link : Link} {half : Nat} {s : State} (wF : Free F [.regs, .host, .fab, .surv, .recd]) (hK : Keeps F s0 s) :
    KeepsRes F s0 (execHalfRetry link half s) := by
  unfold execHalfRetry
  repeat' first
    | with_reducible assumption
    | exact wF.sub rfl
    | with_reducible apply State.halfRetry_keeps
    | with_reducible apply KeepsRes.next
    | exact KeepsRes.refused
    | dsimp only
    | with_reducible apply Keeps.upd
    | with_reducible exact fun _ => rfl
    | exact wF.off rfl

theorem execCqHeadWrite_keeps {s0 : State} {port : Nat} {cq : Nat} {value : W32} {s : State} (wF : Free F [.regs, .mem, .cache, .hbm, .cores, .seqs, .objs, .host, .fab, .uu, .surv, .pwr, .recd, .free]) (hK : Keeps F s0 s) :
    KeepsRes F s0 (execCqHeadWrite port cq value s) := by
  unfold execCqHeadWrite
  repeat' first
    | with_reducible assumption
    | exact wF.sub rfl
    | with_reducible apply State.cqDrain_keeps
    | with_reducible apply State.setReg_keeps
    | with_reducible apply Keeps.ite
    | with_reducible apply KeepsRes.next
    | exact KeepsRes.refused
    | split
    | dsimp only
    | with_reducible apply Keeps.upd
    | with_reducible exact fun _ => rfl
    | exact wF.off rfl

theorem State.entryLost_keeps {s0 : State} {s : State} {port : Nat} {e : CqEntry} (wF : Free F [.regs, .mem, .cache, .hbm, .cores, .seqs, .objs, .host, .fab, .uu, .surv, .pwr, .recd, .free]) (hK : Keeps F s0 s) :
    Keeps F s0 (State.entryLost s port e) := by
  unfold State.entryLost
  repeat' first
    | with_reducible assumption
    | exact wF.sub rfl
    | with_reducible apply State.bump_keeps
    | with_reducible apply State.fenceError_keeps
    | with_reducible apply State.goOn_keeps
    | with_reducible apply State.log_keeps
    | with_reducible apply State.modXfer_keeps
    | with_reducible apply State.xferError_keeps
    | split
    | (with_reducible apply Keeps.of_fst; assumption)
    | (with_reducible apply Keeps.of_snd; assumption)
    | dsimp only
    | with_reducible apply Keeps.upd
    | with_reducible exact fun _ => rfl
    | exact wF.off rfl

theorem execCqWaitTimeout_keeps {s0 : State} {port : Nat} {cq : Nat} {s : State} (wF : Free F [.regs, .mem, .cache, .hbm, .cores, .seqs, .objs, .host, .fab, .uu, .surv, .pwr, .recd, .free]) (hK : Keeps F s0 s) :
    KeepsRes F s0 (execCqWaitTimeout port cq s) := by
  unfold execCqWaitTimeout
  repeat' first
    | with_reducible assumption
    | exact wF.sub rfl
    | with_reducible apply State.cqDrain_keeps
    | with_reducible apply State.entryLost_keeps
    | with_reducible apply State.setCq_keeps
    | with_reducible apply Keeps.ite
    | with_reducible apply KeepsRes.next
    | exact KeepsRes.refused
    | split
    | (with_reducible apply Keeps.of_fst; assumption)
    | (with_reducible apply Keeps.of_snd; assumption)
    | dsimp only
    | with_reducible apply Keeps.upd
    | with_reducible exact fun _ => rfl
    | exact wF.off rfl

end Sys2Proof.Machine
end

