-- ==== Sys2Proof/Laws/KeepsLoss.lean ====
section
/-! SUPPORT. What every step keeps: the functions of Machine/Loss.lean. -/

namespace Sys2Proof.Machine

open Sys2Proof

variable {F : Area → Bool}

theorem State.mirrorFailed_keeps {s0 : State} {s : State} {e : Nat} {line : Nat} (wF : Free F [.regs, .surv]) (hK : Keeps F s0 s) :
    Keeps F s0 (State.mirrorFailed s e line) := by
  unfold State.mirrorFailed
  repeat' first
    | with_reducible assumption
    | exact wF.sub rfl
    | with_reducible apply State.markLine_keeps
    | with_reducible apply State.setProt_keeps
    | with_reducible apply Keeps.ite
    | split
    | (with_reducible apply Keeps.of_fst; assumption)
    | (with_reducible apply Keeps.of_snd; assumption)
    | dsimp only
    | with_reducible apply Keeps.upd
    | with_reducible exact fun _ => rfl
    | exact wF.off rfl

theorem State.xferReq_keeps {s0 : State} {s : State} {c : Nat} {slot : Nat} {i : Nat} {code : Nat} {r : Req} {data : List Byte} (wF : Free F [.regs, .mem, .cache, .hbm, .cores, .seqs, .objs, .host, .fab, .uu, .surv, .pwr, .recd, .free]) (hK : Keeps F s0 s) :
    Keeps F s0 (State.xferReq s c slot i code r data) := by
  unfold State.xferReq
  repeat' first
    | with_reducible assumption
    | exact wF.sub rfl
    | with_reducible apply State.goOn_keeps
    | with_reducible apply State.modXfer_keeps
    | with_reducible apply State.remoteDesc_keeps
    | with_reducible apply State.reqEnded_keeps
    | with_reducible apply State.vaWrite_keeps
    | with_reducible apply State.xferError_keeps
    | with_reducible apply Keeps.ite
    | split
    | (with_reducible apply Keeps.of_fst; assumption)
    | (with_reducible apply Keeps.of_snd; assumption)
    | dsimp only
    | with_reducible apply Keeps.upd
    | with_reducible exact fun _ => rfl
    | exact wF.off rfl

theorem State.forwardFailed_keeps {s0 : State} {s : State} {r : Req} {code : Nat} (wF : Free F [.regs, .objs, .host, .fab]) (hK : Keeps F s0 s) :
    Keeps F s0 (State.forwardFailed s r code) := by
  unfold State.forwardFailed
  repeat' first
    | with_reducible assumption
    | exact wF.sub rfl
    | with_reducible apply State.signalFails_keeps
    | with_reducible apply Keeps.ite
    | split
    | dsimp only
    | with_reducible apply Keeps.upd
    | with_reducible exact fun _ => rfl
    | exact wF.off rfl

theorem State.pushAnswered_keeps {s0 : State} {s : State} {r : Req} {code : Nat} (wF : Free F [.objs]) (hK : Keeps F s0 s) :
    Keeps F s0 (State.pushAnswered s r code) := by
  unfold State.pushAnswered
  repeat' first
    | with_reducible assumption
    | exact wF.sub rfl
    | with_reducible apply State.modFence_keeps
    | with_reducible apply State.settleHeld_keeps
    | with_reducible apply Keeps.ite
    | split
    | (with_reducible apply Keeps.of_fst; assumption)
    | (with_reducible apply Keeps.of_snd; assumption)
    | dsimp only
    | with_reducible apply Keeps.upd
    | with_reducible exact fun _ => rfl
    | exact wF.off rfl

theorem State.resend_keeps {s0 : State} {s : State} {r : Req} (wF : Free F [.regs, .fab]) (hK : Keeps F s0 s) :
    Keeps F s0 (State.resend s r) := by
  unfold State.resend
  repeat' first
    | with_reducible assumption
    | exact wF.sub rfl
    | with_reducible apply State.send_keeps
    | with_reducible apply Keeps.ite
    | split
    | dsimp only
    | with_reducible apply Keeps.upd
    | with_reducible exact fun _ => rfl
    | exact wF.off rfl

theorem State.endReq_keeps {s0 : State} {s : State} {i : Nat} {code : Nat} {data : List Byte} (wF : Free F [.regs, .mem, .cache, .hbm, .cores, .seqs, .objs, .host, .fab, .uu, .surv, .pwr, .recd, .free]) (hK : Keeps F s0 s) :
    Keeps F s0 (State.endReq s i code data) := by
  unfold State.endReq
  repeat' first
    | with_reducible assumption
    | exact wF.sub rfl
    | with_reducible apply State.dropReq_keeps
    | with_reducible apply State.failColl_keeps
    | with_reducible apply State.forwardFailed_keeps
    | with_reducible apply State.goOn_keeps
    | with_reducible apply State.mirrorFailed_keeps
    | with_reducible apply State.pushAnswered_keeps
    | with_reducible apply State.reqEnded_keeps
    | with_reducible apply State.resend_keeps
    | with_reducible apply State.xferReq_keeps
    | with_reducible apply Keeps.ite
    | split
    | (with_reducible apply Keeps.of_fst; assumption)
    | (with_reducible apply Keeps.of_snd; assumption)
    | dsimp only
    | with_reducible apply Keeps.upd
    | with_reducible exact fun _ => rfl
    | exact wF.off rfl

theorem State.forwardResp_keeps {s0 : State} {s : State} {r : FabResp} (wF : Free F [.regs, .fab]) (hK : Keeps F s0 s) :
    Keeps F s0 (State.forwardResp s r) := by
  unfold State.forwardResp
  repeat' first
    | with_reducible assumption
    | exact wF.sub rfl
    | with_reducible apply State.putOut_keeps
    | with_reducible apply Keeps.ite
    | split
    | dsimp only
    | with_reducible apply Keeps.upd
    | with_reducible exact fun _ => rfl
    | exact wF.off rfl

theorem execFabricResponse_keeps {s0 : State} {req : Nat} {resp : FabResp} {s : State} (wF : Free F [.regs, .mem, .cache, .hbm, .cores, .seqs, .objs, .host, .fab, .uu, .surv, .pwr, .recd, .free]) (hK : Keeps F s0 s) :
    KeepsRes F s0 (execFabricResponse req resp s) := by
  unfold execFabricResponse
  repeat' first
    | with_reducible assumption
    | exact wF.sub rfl
    | with_reducible apply State.bump_keeps
    | with_reducible apply State.drain_keeps
    | with_reducible apply State.endReq_keeps
    | with_reducible apply State.forwardResp_keeps
    | with_reducible apply State.guarded_keeps
    | with_reducible apply Keeps.ite
    | with_reducible apply KeepsRes.next
    | exact KeepsRes.refused
    | split
    | (with_reducible apply Keeps.of_fst; assumption)
    | (with_reducible apply Keeps.of_snd; assumption)
    | dsimp only
    | with_reducible apply Keeps.upd
    | with_reducible exact fun _ => rfl
    | exact wF.off rfl

theorem execFabricRequestTimeout_keeps {s0 : State} {req : Nat} {s : State} (wF : Free F [.regs, .mem, .cache, .hbm, .cores, .seqs, .objs, .host, .fab, .uu, .surv, .pwr, .recd, .free]) (hK : Keeps F s0 s) :
    KeepsRes F s0 (execFabricRequestTimeout req s) := by
  unfold execFabricRequestTimeout
  repeat' first
    | with_reducible assumption
    | exact wF.sub rfl
    | with_reducible apply State.bump_keeps
    | with_reducible apply State.drain_keeps
    | with_reducible apply State.endReq_keeps
    | with_reducible apply Keeps.ite
    | with_reducible apply KeepsRes.next
    | exact KeepsRes.refused
    | split
    | (with_reducible apply Keeps.of_fst; assumption)
    | (with_reducible apply Keeps.of_snd; assumption)
    | dsimp only
    | with_reducible apply Keeps.upd
    | with_reducible exact fun _ => rfl
    | exact wF.off rfl

theorem State.lossFence_keeps {s0 : State} {s : State} {e : Nat} {code : Nat} {node : Nat} {detail : Nat} (wF : Free F [.regs, .objs, .host, .fab]) (hK : Keeps F s0 s) :
    Keeps F s0 (State.lossFence s e code node detail) := by
  unfold State.lossFence
  repeat' first
    | with_reducible assumption
    | exact wF.sub rfl
    | with_reducible apply State.fenceErrorAt_keeps
    | with_reducible apply Keeps.ite
    | split
    | (with_reducible apply Keeps.of_fst; assumption)
    | (with_reducible apply Keeps.of_snd; assumption)
    | dsimp only
    | with_reducible apply Keeps.upd
    | with_reducible exact fun _ => rfl
    | exact wF.off rfl

theorem State.failProxies_keeps {s0 : State} {s : State} {sel : Nat → Bool} {code : Nat} {prop : Bool} {node : Nat} {detail : Nat} (wF : Free F [.regs, .objs, .host, .fab]) (hK : Keeps F s0 s) :
    Keeps F s0 (State.failProxies s sel code prop node detail) := by
  unfold State.failProxies
  repeat' first
    | with_reducible assumption
    | exact wF.sub rfl
    | with_reducible apply State.attachError_keeps
    | (with_reducible apply Keeps.foldl1; intro _ _ _)
    | (with_reducible apply Keeps.foldl2; intro _ _ _)
    | (with_reducible apply Keeps.foldl; intro _ _ _)
    | split
    | (with_reducible apply Keeps.of_fst; assumption)
    | (with_reducible apply Keeps.of_snd; assumption)
    | dsimp only
    | with_reducible apply Keeps.upd
    | with_reducible exact fun _ => rfl
    | exact wF.off rfl

theorem State.dropProxies_keeps {s0 : State} {s : State} {n : Nat} (wF : Free F [.objs]) (hK : Keeps F s0 s) :
    Keeps F s0 (State.dropProxies s n) := by
  unfold State.dropProxies
  repeat' first
    | with_reducible assumption
    | exact wF.sub rfl
    | with_reducible apply State.modFence_keeps
    | with_reducible apply State.settleHeld_keeps
    | (with_reducible apply Keeps.foldl1; intro _ _ _)
    | (with_reducible apply Keeps.foldl2; intro _ _ _)
    | (with_reducible apply Keeps.foldl; intro _ _ _)
    | dsimp only
    | with_reducible apply Keeps.upd
    | with_reducible exact fun _ => rfl
    | exact wF.off rfl

theorem State.sendNotice_keeps {s0 : State} {s : State} {but : Option Link} (wF : Free F [.regs, .fab]) (hK : Keeps F s0 s) :
    Keeps F s0 (State.sendNotice s but) := by
  unfold State.sendNotice
  repeat' first
    | with_reducible assumption
    | exact wF.sub rfl
    | with_reducible apply State.putOut_keeps
    | with_reducible apply Keeps.ite
    | (with_reducible apply Keeps.foldl1; intro _ _ _)
    | (with_reducible apply Keeps.foldl2; intro _ _ _)
    | (with_reducible apply Keeps.foldl; intro _ _ _)
    | split
    | dsimp only
    | with_reducible apply Keeps.upd
    | with_reducible exact fun _ => rfl
    | exact wF.off rfl

theorem State.selfFence_keeps {s0 : State} {s : State} (wF : Free F [.regs, .mem, .cache, .hbm, .cores, .seqs, .objs, .host, .fab, .uu, .surv, .pwr, .recd, .free]) (hK : Keeps F s0 s) :
    Keeps F s0 (State.selfFence s) := by
  unfold State.selfFence
  repeat' first
    | with_reducible assumption
    | exact wF.sub rfl
    | with_reducible apply State.draw_keeps
    | with_reducible apply State.endReq_keeps
    | with_reducible apply State.failProxies_keeps
    | with_reducible apply State.lapseAll_keeps
    | with_reducible apply State.lossFence_keeps
    | with_reducible apply State.modFab_keeps
    | with_reducible apply State.raise_keeps
    | with_reducible apply State.sendNotice_keeps
    | with_reducible apply Keeps.ite
    | (with_reducible apply Keeps.foldl1; intro _ _ _)
    | (with_reducible apply Keeps.foldl2; intro _ _ _)
    | (with_reducible apply Keeps.foldl; intro _ _ _)
    | split
    | dsimp only
    | with_reducible apply Keeps.upd
    | with_reducible exact fun _ => rfl
    | exact wF.off rfl

theorem State.applyLoss_keeps {s0 : State} {s : State} {n : Nat} (wF : Free F [.regs, .mem, .cache, .hbm, .cores, .seqs, .objs, .host, .fab, .uu, .surv, .pwr, .recd, .free]) (hK : Keeps F s0 s) :
    Keeps F s0 (State.applyLoss s n) := by
  unfold State.applyLoss
  repeat' first
    | with_reducible assumption
    | exact wF.sub rfl
    | with_reducible apply State.dropProxies_keeps
    | with_reducible apply State.endReq_keeps
    | with_reducible apply State.failColl_keeps
    | with_reducible apply State.failProxies_keeps
    | with_reducible apply State.lossFence_keeps
    | with_reducible apply State.modFab_keeps
    | with_reducible apply State.partnerLost_keeps
    | with_reducible apply State.raise_keeps
    | with_reducible apply State.selfFence_keeps
    | with_reducible apply State.setField_keeps
    | with_reducible apply Keeps.ite
    | (with_reducible apply Keeps.foldl1; intro _ _ _)
    | (with_reducible apply Keeps.foldl2; intro _ _ _)
    | (with_reducible apply Keeps.foldl; intro _ _ _)
    | split
    | (with_reducible apply Keeps.of_fst; assumption)
    | (with_reducible apply Keeps.of_snd; assumption)
    | dsimp only
    | with_reducible apply Keeps.upd
    | with_reducible exact fun _ => rfl
    | exact wF.off rfl

theorem execLossNotice_keeps {s0 : State} {lost : Nat} {origin : Nat} {via : Link} {s : State} (wF : Free F [.regs, .fab]) (hK : Keeps F s0 s) :
    KeepsRes F s0 (execLossNotice lost origin via s) := by
  unfold execLossNotice
  repeat' first
    | with_reducible assumption
    | exact wF.sub rfl
    | with_reducible apply State.sendNotice_keeps
    | with_reducible apply Keeps.ite
    | with_reducible apply KeepsRes.next
    | exact KeepsRes.refused
    | split
    | dsimp only
    | with_reducible apply Keeps.upd
    | with_reducible exact fun _ => rfl
    | exact wF.off rfl

theorem execLossNoticeHoldEnd_keeps {s0 : State} {lost : Nat} {s : State} (wF : Free F [.regs, .mem, .cache, .hbm, .cores, .seqs, .objs, .host, .fab, .uu, .surv, .pwr, .recd, .free]) (hK : Keeps F s0 s) :
    KeepsRes F s0 (execLossNoticeHoldEnd lost s) := by
  unfold execLossNoticeHoldEnd
  repeat' first
    | with_reducible assumption
    | exact wF.sub rfl
    | with_reducible apply State.applyLoss_keeps
    | with_reducible apply State.raise_keeps
    | with_reducible apply KeepsRes.next
    | exact KeepsRes.refused
    | split
    | (with_reducible apply Keeps.of_fst; assumption)
    | (with_reducible apply Keeps.of_snd; assumption)
    | dsimp only
    | with_reducible apply Keeps.upd
    | with_reducible exact fun _ => rfl
    | exact wF.off rfl

theorem execTrayLinkTrained_keeps {s0 : State} {slot : Nat} {farTray : Nat} {farSlot : Nat} {halves : Nat} {s : State} (wF : Free F [.regs, .fab, .surv, .recd]) (hK : Keeps F s0 s) :
    KeepsRes F s0 (execTrayLinkTrained slot farTray farSlot halves s) := by
  unfold execTrayLinkTrained
  repeat' first
    | with_reducible assumption
    | exact wF.sub rfl
    | with_reducible apply State.raise_keeps
    | with_reducible apply State.setField_keeps
    | with_reducible apply State.setWire_keeps
    | with_reducible apply Keeps.ite
    | with_reducible apply KeepsRes.next
    | exact KeepsRes.refused
    | split
    | dsimp only
    | with_reducible apply Keeps.upd
    | with_reducible exact fun _ => rfl
    | exact wF.off rfl

theorem State.unlink_keeps {s0 : State} {s : State} {k : Nat} (wF : Free F [.regs, .fab]) (hK : Keeps F s0 s) :
    Keeps F s0 (State.unlink s k) := by
  unfold State.unlink
  repeat' first
    | with_reducible assumption
    | exact wF.sub rfl
    | with_reducible apply State.setField_keeps
    | with_reducible apply State.sweepOut_keeps
    | dsimp only
    | with_reducible apply Keeps.upd
    | with_reducible exact fun _ => rfl
    | exact wF.off rfl

theorem State.noteLoss_keeps {s0 : State} {s : State} {k : Nat} (wF : Free F [.regs, .fab]) (hK : Keeps F s0 s) :
    Keeps F s0 (State.noteLoss s k) := by
  unfold State.noteLoss
  repeat' first
    | with_reducible assumption
    | exact wF.sub rfl
    | with_reducible apply State.sendNotice_keeps
    | dsimp only
    | with_reducible apply Keeps.upd
    | with_reducible exact fun _ => rfl
    | exact wF.off rfl

theorem State.trayDown_keeps {s0 : State} {s : State} {slot : Nat} (wF : Free F [.regs, .mem, .cache, .hbm, .cores, .seqs, .objs, .host, .fab, .uu, .surv, .pwr, .recd, .free]) (hK : Keeps F s0 s) :
    Keeps F s0 (State.trayDown s slot) := by
  unfold State.trayDown
  repeat' first
    | with_reducible assumption
    | exact wF.sub rfl
    | with_reducible apply State.applyLoss_keeps
    | with_reducible apply State.noteLoss_keeps
    | with_reducible apply State.selfFence_keeps
    | with_reducible apply State.unlink_keeps
    | with_reducible apply Keeps.ite
    | split
    | dsimp only
    | with_reducible apply Keeps.upd
    | with_reducible exact fun _ => rfl
    | exact wF.off rfl

theorem execTrayLinkDown_keeps {s0 : State} {slot : Nat} {s : State} (wF : Free F [.regs, .mem, .cache, .hbm, .cores, .seqs, .objs, .host, .fab, .uu, .surv, .pwr, .recd, .free]) (hK : Keeps F s0 s) :
    KeepsRes F s0 (execTrayLinkDown slot s) := by
  unfold execTrayLinkDown
  repeat' first
    | with_reducible assumption
    | exact wF.sub rfl
    | with_reducible apply State.trayDown_keeps
    | with_reducible apply KeepsRes.next
    | exact KeepsRes.refused
    | dsimp only
    | with_reducible apply Keeps.upd
    | with_reducible exact fun _ => rfl
    | exact wF.off rfl

theorem execScaleoutPortTrained_keeps {s0 : State} {port : Nat} {node : Nat} {width4 : Bool} {s : State} (wF : Free F [.regs, .fab, .surv, .recd]) (hK : Keeps F s0 s) :
    KeepsRes F s0 (execScaleoutPortTrained port node width4 s) := by
  unfold execScaleoutPortTrained
  repeat' first
    | with_reducible assumption
    | exact wF.sub rfl
    | with_reducible apply State.raise_keeps
    | with_reducible apply State.setField_keeps
    | with_reducible apply State.setWire_keeps
    | with_reducible apply State.updateRoutes_keeps
    | with_reducible apply Keeps.ite
    | with_reducible apply KeepsRes.next
    | exact KeepsRes.refused
    | split
    | dsimp only
    | with_reducible apply Keeps.upd
    | with_reducible exact fun _ => rfl
    | exact wF.off rfl

theorem State.failStranded_keeps {s0 : State} {s : State} (wF : Free F [.regs, .mem, .cache, .hbm, .cores, .seqs, .objs, .host, .fab, .uu, .surv, .pwr, .recd, .free]) (hK : Keeps F s0 s) :
    Keeps F s0 (State.failStranded s) := by
  unfold State.failStranded
  repeat' first
    | with_reducible assumption
    | exact wF.sub rfl
    | with_reducible apply State.endReq_keeps
    | (with_reducible apply Keeps.foldl1; intro _ _ _)
    | (with_reducible apply Keeps.foldl2; intro _ _ _)
    | (with_reducible apply Keeps.foldl; intro _ _ _)
    | split
    | (with_reducible apply Keeps.of_fst; assumption)
    | (with_reducible apply Keeps.of_snd; assumption)
    | dsimp only
    | with_reducible apply Keeps.upd
    | with_reducible exact fun _ => rfl
    | exact wF.off rfl

theorem State.scaleOutDown_keeps {s0 : State} {s : State} {port : Nat} (wF : Free F [.regs, .mem, .cache, .hbm, .cores, .seqs, .objs, .host, .fab, .uu, .surv, .pwr, .recd, .free]) (hK : Keeps F s0 s) :
    Keeps F s0 (State.scaleOutDown s port) := by
  unfold State.scaleOutDown
  repeat' first
    | with_reducible assumption
    | exact wF.sub rfl
    | with_reducible apply State.failStranded_keeps
    | with_reducible apply State.setField_keeps
    | with_reducible apply State.setWire_keeps
    | with_reducible apply State.sweepOut_keeps
    | with_reducible apply State.updateRoutes_keeps
    | with_reducible apply Keeps.ite
    | split
    | dsimp only
    | with_reducible apply Keeps.upd
    | with_reducible exact fun _ => rfl
    | exact wF.off rfl

theorem execScaleoutPortDown_keeps {s0 : State} {port : Nat} {s : State} (wF : Free F [.regs, .mem, .cache, .hbm, .cores, .seqs, .objs, .host, .fab, .uu, .surv, .pwr, .recd, .free]) (hK : Keeps F s0 s) :
    KeepsRes F s0 (execScaleoutPortDown port s) := by
  unfold execScaleoutPortDown
  repeat' first
    | with_reducible assumption
    | exact wF.sub rfl
    | with_reducible apply State.scaleOutDown_keeps
    | with_reducible apply KeepsRes.next
    | exact KeepsRes.refused
    | dsimp only
    | with_reducible apply Keeps.upd
    | with_reducible exact fun _ => rfl
    | exact wF.off rfl

theorem execScaleoutWidthChangeDone_keeps {s0 : State} {port : Nat} {width4 : Bool} {s : State} (wF : Free F [.regs, .fab, .surv, .recd]) (hK : Keeps F s0 s) :
    KeepsRes F s0 (execScaleoutWidthChangeDone port width4 s) := by
  unfold execScaleoutWidthChangeDone
  repeat' first
    | with_reducible assumption
    | exact wF.sub rfl
    | with_reducible apply State.degradeEvent_keeps
    | with_reducible apply State.setField_keeps
    | with_reducible apply State.setWire_keeps
    | with_reducible apply State.updateRoutes_keeps
    | with_reducible apply Keeps.ite
    | with_reducible apply KeepsRes.next
    | exact KeepsRes.refused
    | split
    | dsimp only
    | with_reducible apply Keeps.upd
    | with_reducible exact fun _ => rfl
    | exact wF.off rfl

theorem State.linkDown_keeps {s0 : State} {s : State} {x1 : Link} (wF : Free F [.regs, .mem, .cache, .hbm, .cores, .seqs, .objs, .host, .fab, .uu, .surv, .pwr, .recd, .free]) (hK : Keeps F s0 s) :
    Keeps F s0 (State.linkDown s x1) := by
  unfold State.linkDown
  repeat' first
    | with_reducible assumption
    | exact wF.sub rfl
    | with_reducible apply State.burobDown_keeps
    | with_reducible apply State.scaleOutDown_keeps
    | with_reducible apply State.trayDown_keeps
    | split
    | (with_reducible apply Keeps.of_fst; assumption)
    | (with_reducible apply Keeps.of_snd; assumption)
    | dsimp only
    | with_reducible apply Keeps.upd
    | with_reducible exact fun _ => rfl
    | exact wF.off rfl

theorem State.afterFlit_keeps {s0 : State} {s : State} {x1 : Link} (wF : Free F [.regs, .mem, .cache, .hbm, .cores, .seqs, .objs, .host, .fab, .uu, .surv, .pwr, .recd, .free]) (hK : Keeps F s0 s) :
    Keeps F s0 (State.afterFlit s x1) := by
  unfold State.afterFlit
  repeat' first
    | with_reducible assumption
    | exact wF.sub rfl
    | with_reducible apply State.cqDrainPort_keeps
    | with_reducible apply State.pumpLink_keeps
    | with_reducible apply State.replayHeld_keeps
    | with_reducible apply State.sfOut_keeps
    | split
    | (with_reducible apply Keeps.of_fst; assumption)
    | (with_reducible apply Keeps.of_snd; assumption)
    | dsimp only
    | with_reducible apply Keeps.upd
    | with_reducible exact fun _ => rfl
    | exact wF.off rfl

theorem State.flit_keeps {s0 : State} {s : State} {l : Link} {corrected : Bool} {crcOk : Bool} {f : Flit} (wF : Free F [.regs, .mem, .cache, .hbm, .cores, .seqs, .objs, .host, .fab, .uu, .surv, .pwr, .recd, .free]) (hK : Keeps F s0 s) :
    Keeps F s0 (State.flit s l corrected crcOk f) := by
  unfold State.flit
  repeat' first
    | with_reducible assumption
    | exact wF.sub rfl
    | with_reducible apply State.afterFlit_keeps
    | with_reducible apply State.linkDown_keeps
    | with_reducible apply State.takeFlit_keeps
    | with_reducible apply Keeps.ite
    | split
    | dsimp only
    | with_reducible apply Keeps.upd
    | with_reducible exact fun _ => rfl
    | exact wF.off rfl

theorem execBurobFlit_keeps {s0 : State} {port : Nat} {corrected : Bool} {crcOk : Bool} {flit : Flit} {s : State} (wF : Free F [.regs, .mem, .cache, .hbm, .cores, .seqs, .objs, .host, .fab, .uu, .surv, .pwr, .recd, .free]) (hK : Keeps F s0 s) :
    KeepsRes F s0 (execBurobFlit port corrected crcOk flit s) := by
  unfold execBurobFlit
  repeat' first
    | with_reducible assumption
    | exact wF.sub rfl
    | with_reducible apply State.flit_keeps
    | with_reducible apply Keeps.ite
    | with_reducible apply KeepsRes.next
    | exact KeepsRes.refused
    | split
    | dsimp only
    | with_reducible apply Keeps.upd
    | with_reducible exact fun _ => rfl
    | exact wF.off rfl

theorem execTrayFlit_keeps {s0 : State} {link : Link} {corrected : Bool} {crcOk : Bool} {flit : Flit} {s : State} (wF : Free F [.regs, .mem, .cache, .hbm, .cores, .seqs, .objs, .host, .fab, .uu, .surv, .pwr, .recd, .free]) (hK : Keeps F s0 s) :
    KeepsRes F s0 (execTrayFlit link corrected crcOk flit s) := by
  unfold execTrayFlit
  repeat' first
    | with_reducible assumption
    | exact wF.sub rfl
    | with_reducible apply State.flit_keeps
    | with_reducible apply KeepsRes.next
    | exact KeepsRes.refused
    | split
    | (with_reducible apply Keeps.of_fst; assumption)
    | (with_reducible apply Keeps.of_snd; assumption)
    | dsimp only
    | with_reducible apply Keeps.upd
    | with_reducible exact fun _ => rfl
    | exact wF.off rfl

theorem execReadmit_keeps {s0 : State} {port : Nat} {slot : Nat} {s : State} (wF : Free F [.regs, .fab]) (hK : Keeps F s0 s) :
    KeepsRes F s0 (execReadmit port slot s) := by
  unfold execReadmit
  repeat' first
    | with_reducible assumption
    | exact wF.sub rfl
    | with_reducible apply State.bump_keeps
    | with_reducible apply State.setField_keeps
    | with_reducible apply Keeps.ite
    | with_reducible apply KeepsRes.next
    | exact KeepsRes.refused
    | split
    | dsimp only
    | with_reducible apply Keeps.upd
    | with_reducible exact fun _ => rfl
    | exact wF.off rfl

end Sys2Proof.Machine
end

