-- ==== Sys2Proof/Laws/KeepsRecorder.lean ====
section
/-! SUPPORT. What every step keeps: the functions of Machine/Recorder.lean. -/

namespace Sys2Proof.Machine

open Sys2Proof

variable {F : Area → Bool}

theorem State.modRecd_keeps {s0 : State} {s : State} {f : Recorder → Recorder} (wF : Free F [.recd]) (hK : Keeps F s0 s) :
    Keeps F s0 (State.modRecd s f) := by
  unfold State.modRecd
  repeat' first
    | with_reducible assumption
    | exact wF.sub rfl
    | dsimp only
    | with_reducible apply Keeps.upd
    | with_reducible exact fun _ => rfl
    | exact wF.off rfl

theorem State.setBucket_keeps {s0 : State} {s : State} {code : Nat} {b : Bucket} (wF : Free F [.recd]) (hK : Keeps F s0 s) :
    Keeps F s0 (State.setBucket s code b) := by
  unfold State.setBucket
  repeat' first
    | with_reducible assumption
    | exact wF.sub rfl
    | with_reducible apply State.modRecd_keeps
    | dsimp only
    | with_reducible apply Keeps.upd
    | with_reducible exact fun _ => rfl
    | exact wF.off rfl

theorem State.suppress_keeps {s0 : State} {s : State} {code : Nat} (wF : Free F [.regs, .recd]) (hK : Keeps F s0 s) :
    Keeps F s0 (State.suppress s code) := by
  unfold State.suppress
  repeat' first
    | with_reducible assumption
    | exact wF.sub rfl
    | with_reducible apply State.bump_keeps
    | with_reducible apply State.setBucket_keeps
    | with_reducible apply Keeps.ite
    | split
    | dsimp only
    | with_reducible apply Keeps.upd
    | with_reducible exact fun _ => rfl
    | exact wF.off rfl

theorem State.ringPut_keeps {s0 : State} {s : State} {code : Nat} {bytes : List Byte} (wF : Free F [.surv, .recd]) (hK : Keeps F s0 s) :
    Keeps F s0 (State.ringPut s code bytes) := by
  unfold State.ringPut
  repeat' first
    | with_reducible assumption
    | exact wF.sub rfl
    | with_reducible apply State.modRecd_keeps
    | with_reducible apply State.raise_keeps
    | with_reducible apply Keeps.ite
    | split
    | dsimp only
    | with_reducible apply Keeps.upd
    | with_reducible exact fun _ => rfl
    | exact wF.off rfl

theorem State.startFlush_keeps {s0 : State} {s : State} (wF : Free F [.recd]) (hK : Keeps F s0 s) :
    Keeps F s0 (State.startFlush s) := by
  unfold State.startFlush
  repeat' first
    | with_reducible assumption
    | exact wF.sub rfl
    | with_reducible apply State.modRecd_keeps
    | dsimp only
    | with_reducible apply Keeps.upd
    | with_reducible exact fun _ => rfl
    | exact wF.off rfl

theorem State.makeRecord_keeps {s0 : State} {s : State} {e : RawEvent} (wF : Free F [.pins, .regs, .surv, .recd]) (hK : Keeps F s0 s) :
    Keeps F s0 (State.makeRecord s e) := by
  unfold State.makeRecord
  repeat' first
    | with_reducible assumption
    | exact wF.sub rfl
    | with_reducible apply State.adopt_keeps
    | with_reducible apply State.bump_keeps
    | with_reducible apply State.modRecd_keeps
    | with_reducible apply State.ringPut_keeps
    | with_reducible apply State.setBucket_keeps
    | with_reducible apply State.startFlush_keeps
    | with_reducible apply Keeps.ite
    | split
    | dsimp only
    | with_reducible apply Keeps.upd
    | with_reducible exact fun _ => rfl
    | exact wF.off rfl

theorem execEventIntake_keeps {s0 : State} {s : State} (wF : Free F [.pins, .regs, .surv, .recd]) (hK : Keeps F s0 s) :
    KeepsRes F s0 (execEventIntake s) := by
  unfold execEventIntake
  repeat' first
    | with_reducible assumption
    | exact wF.sub rfl
    | with_reducible apply State.makeRecord_keeps
    | with_reducible apply State.modRecd_keeps
    | with_reducible apply State.suppress_keeps
    | with_reducible apply Keeps.ite
    | with_reducible apply KeepsRes.next
    | exact KeepsRes.refused
    | split
    | (with_reducible apply Keeps.of_fst; assumption)
    | (with_reducible apply Keeps.of_snd; assumption)
    | dsimp only
    | with_reducible apply Keeps.upd
    | with_reducible exact fun _ => rfl
    | exact wF.off rfl

theorem execFlushNow_keeps {s0 : State} {s : State} (wF : Free F [.recd]) (hK : Keeps F s0 s) :
    KeepsRes F s0 (execFlushNow s) := by
  unfold execFlushNow
  repeat' first
    | with_reducible assumption
    | exact wF.sub rfl
    | with_reducible apply State.startFlush_keeps
    | with_reducible apply Keeps.ite
    | with_reducible apply KeepsRes.next
    | exact KeepsRes.refused
    | split
    | dsimp only
    | with_reducible apply Keeps.upd
    | with_reducible exact fun _ => rfl
    | exact wF.off rfl

theorem execFlushDone_keeps {s0 : State} {ok : Bool} {s : State} (wF : Free F [.regs, .surv, .recd]) (hK : Keeps F s0 s) :
    KeepsRes F s0 (execFlushDone ok s) := by
  unfold execFlushDone
  repeat' first
    | with_reducible assumption
    | exact wF.sub rfl
    | with_reducible apply State.bump_keeps
    | with_reducible apply State.modRecd_keeps
    | with_reducible apply State.raise_keeps
    | with_reducible apply Keeps.ite
    | with_reducible apply KeepsRes.next
    | exact KeepsRes.refused
    | split
    | dsimp only
    | with_reducible apply Keeps.upd
    | with_reducible exact fun _ => rfl
    | exact wF.off rfl

theorem State.logClear_keeps {s0 : State} {s : State} (wF : Free F [.recd]) (hK : Keeps F s0 s) :
    Keeps F s0 (State.logClear s) := by
  unfold State.logClear
  repeat' first
    | with_reducible assumption
    | exact wF.sub rfl
    | with_reducible apply State.modRecd_keeps
    | with_reducible apply Keeps.ite
    | split
    | dsimp only
    | with_reducible apply Keeps.upd
    | with_reducible exact fun _ => rfl
    | exact wF.off rfl

theorem execLogClear_keeps {s0 : State} {s : State} (wF : Free F [.recd]) (hK : Keeps F s0 s) :
    KeepsRes F s0 (execLogClear s) := by
  unfold execLogClear
  repeat' first
    | with_reducible assumption
    | exact wF.sub rfl
    | with_reducible apply State.logClear_keeps
    | with_reducible apply Keeps.ite
    | with_reducible apply KeepsRes.next
    | exact KeepsRes.refused
    | split
    | dsimp only
    | with_reducible apply Keeps.upd
    | with_reducible exact fun _ => rfl
    | exact wF.off rfl

theorem State.setWindow_keeps {s0 : State} {s : State} {w : Nat} {k : Window} (wF : Free F [.recd]) (hK : Keeps F s0 s) :
    Keeps F s0 (State.setWindow s w k) := by
  unfold State.setWindow
  repeat' first
    | with_reducible assumption
    | exact wF.sub rfl
    | with_reducible apply State.modRecd_keeps
    | dsimp only
    | with_reducible apply Keeps.upd
    | with_reducible exact fun _ => rfl
    | exact wF.off rfl

theorem State.startLookup_keeps {s0 : State} {s : State} {w : Nat} {n : W64} (wF : Free F [.recd]) (hK : Keeps F s0 s) :
    Keeps F s0 (State.startLookup s w n) := by
  unfold State.startLookup
  repeat' first
    | with_reducible assumption
    | exact wF.sub rfl
    | with_reducible apply State.setWindow_keeps
    | dsimp only
    | with_reducible apply Keeps.upd
    | with_reducible exact fun _ => rfl
    | exact wF.off rfl

theorem execEvLookup_keeps {s0 : State} {window : Nat} {seq : W64} {s : State} (wF : Free F [.recd]) (hK : Keeps F s0 s) :
    KeepsRes F s0 (execEvLookup window seq s) := by
  unfold execEvLookup
  repeat' first
    | with_reducible assumption
    | exact wF.sub rfl
    | with_reducible apply State.startLookup_keeps
    | with_reducible apply Keeps.ite
    | with_reducible apply KeepsRes.next
    | exact KeepsRes.refused
    | split
    | dsimp only
    | with_reducible apply Keeps.upd
    | with_reducible exact fun _ => rfl
    | exact wF.off rfl

theorem execEvLookupDone_keeps {s0 : State} {window : Nat} {s : State} (wF : Free F [.recd]) (hK : Keeps F s0 s) :
    KeepsRes F s0 (execEvLookupDone window s) := by
  unfold execEvLookupDone
  repeat' first
    | with_reducible assumption
    | exact wF.sub rfl
    | with_reducible apply State.setWindow_keeps
    | with_reducible apply Keeps.ite
    | with_reducible apply KeepsRes.next
    | exact KeepsRes.refused
    | split
    | (with_reducible apply Keeps.of_fst; assumption)
    | (with_reducible apply Keeps.of_snd; assumption)
    | dsimp only
    | with_reducible apply Keeps.upd
    | with_reducible exact fun _ => rfl
    | exact wF.off rfl

theorem State.refill_keeps {s0 : State} {s : State} (wF : Free F [.recd]) (hK : Keeps F s0 s) :
    Keeps F s0 (State.refill s) := by
  unfold State.refill
  repeat' first
    | with_reducible assumption
    | exact wF.sub rfl
    | with_reducible apply State.modRecd_keeps
    | with_reducible apply Keeps.ite
    | split
    | dsimp only
    | with_reducible apply Keeps.upd
    | with_reducible exact fun _ => rfl
    | exact wF.off rfl

theorem State.setRisk_keeps {s0 : State} {s : State} {level : Nat} (wF : Free F [.regs, .surv, .recd]) (hK : Keeps F s0 s) :
    Keeps F s0 (State.setRisk s level) := by
  unfold State.setRisk
  repeat' first
    | with_reducible assumption
    | exact wF.sub rfl
    | with_reducible apply State.bump_keeps
    | with_reducible apply State.modSurv_keeps
    | with_reducible apply State.raise_keeps
    | with_reducible apply Keeps.ite
    | split
    | dsimp only
    | with_reducible apply Keeps.upd
    | with_reducible exact fun _ => rfl
    | exact wF.off rfl

theorem State.risk_keeps {s0 : State} {s : State} {o : MinuteObs} (wF : Free F [.regs, .surv, .recd]) (hK : Keeps F s0 s) :
    Keeps F s0 (State.risk s o) := by
  unfold State.risk
  repeat' first
    | with_reducible assumption
    | exact wF.sub rfl
    | with_reducible apply State.adopt_keeps
    | with_reducible apply State.modSurv_keeps
    | with_reducible apply State.setRisk_keeps
    | with_reducible apply Keeps.ite
    | (with_reducible apply Keeps.foldl1; intro _ _ _)
    | (with_reducible apply Keeps.foldl2; intro _ _ _)
    | (with_reducible apply Keeps.foldl; intro _ _ _)
    | split
    | dsimp only
    | with_reducible apply Keeps.upd
    | with_reducible exact fun _ => rfl
    | exact wF.off rfl

theorem State.sparing_keeps {s0 : State} {s : State} {o : MinuteObs} (wF : Free F [.regs, .cores, .surv, .recd]) (hK : Keeps F s0 s) :
    Keeps F s0 (State.sparing s o) := by
  unfold State.sparing
  repeat' first
    | with_reducible assumption
    | exact wF.sub rfl
    | with_reducible apply State.adopt_keeps
    | with_reducible apply State.startReplace_keeps
    | with_reducible apply Keeps.ite
    | (with_reducible apply Keeps.foldl1; intro _ _ _)
    | (with_reducible apply Keeps.foldl2; intro _ _ _)
    | (with_reducible apply Keeps.foldl; intro _ _ _)
    | split
    | dsimp only
    | with_reducible apply Keeps.upd
    | with_reducible exact fun _ => rfl
    | exact wF.off rfl

theorem execOperatingMinute_keeps {s0 : State} {obs : MinuteObs} {s : State} (wF : Free F [.regs, .cores, .surv, .pwr, .sec, .recd]) (hK : Keeps F s0 s) : KeepsRes F s0 (execOperatingMinute obs s) := by
  unfold execOperatingMinute
  refine KeepsRes.next (Keeps.ite hK ?_)
  refine State.startFlush_keeps (wF.sub rfl) (Keeps.trans (State.setReg_keeps (wF.sub rfl) (State.sparing_keeps (wF.sub rfl) (State.risk_keeps (wF.sub rfl) (State.modRecd_keeps (wF.sub rfl)
    (State.refill_keeps (wF.sub rfl) hK))))) ⟨id, rfl, rfl, id, fun b => ⟨le_refl _, b⟩, fun p hp => ?_⟩)
  cases p <;> first | exact rfl | exact wF.off rfl hp

end Sys2Proof.Machine
end

