-- ==== Sys2Proof/Laws/KeepsPower.lean ====
section
/-! SUPPORT. What every step keeps: the functions of Machine/Power.lean. -/

namespace Sys2Proof.Machine

open Sys2Proof

variable {F : Area → Bool}

theorem State.modPwr_keeps {s0 : State} {s : State} {f : Power → Power} (wF : Free F [.pwr]) (hK : Keeps F s0 s) :
    Keeps F s0 (State.modPwr s f) := by
  unfold State.modPwr
  repeat' first
    | with_reducible assumption
    | exact wF.sub rfl
    | dsimp only
    | with_reducible apply Keeps.upd
    | with_reducible exact fun _ => rfl
    | exact wF.off rfl

theorem State.modPins_keeps {s0 : State} {s : State} {f : Pins → Pins} (wF : Free F [.pins]) (hK : Keeps F s0 s) :
    Keeps F s0 (State.modPins s f) := by
  unfold State.modPins
  repeat' first
    | with_reducible assumption
    | exact wF.sub rfl
    | dsimp only
    | with_reducible apply Keeps.upd
    | with_reducible exact fun _ => rfl
    | exact wF.off rfl

theorem State.holdCaps_keeps {s0 s : State} (wF : Free F [.cores, .pwr]) (h : Keeps F s0 s) : Keeps F s0 (State.holdCaps s) := by
  unfold State.holdCaps
  extract_lets s1
  have h1 : Keeps F s0 s1 := Keeps.foldl (fun t e k => State.modDie_keeps (wF.sub rfl) k) h
  clear_value s1
  generalize (List.range 1088).map (fun c => (c, ({ s1.core c with cap := 8 } : Core))) = l
  exact h1.trans ⟨id, rfl, rfl, id, fun b => ⟨le_refl _, b⟩, fun p hp => by cases p <;> first | exact rfl | exact wF.off rfl hp⟩

theorem State.thermFalls_keeps {s0 : State} {s : State} {temp : Option Nat} (wF : Free F [.regs, .cores, .surv, .pwr, .recd, .free]) (hK : Keeps F s0 s) :
    Keeps F s0 (State.thermFalls s temp) := by
  unfold State.thermFalls
  repeat' first
    | with_reducible assumption
    | exact wF.sub rfl
    | with_reducible apply State.draw_keeps
    | with_reducible apply State.holdCaps_keeps
    | with_reducible apply State.raise_keeps
    | with_reducible apply State.setBit_keeps
    | dsimp only
    | with_reducible apply Keeps.upd
    | with_reducible exact fun _ => rfl
    | exact wF.off rfl

theorem State.driveTherm_keeps {s0 : State} {s : State} {low : Bool} {temp : Nat} (wF : Free F [.pins, .regs, .cores, .surv, .pwr, .recd, .free]) (hK : Keeps F s0 s) :
    Keeps F s0 (State.driveTherm s low temp) := by
  unfold State.driveTherm
  repeat' first
    | with_reducible assumption
    | exact wF.sub rfl
    | with_reducible apply State.modPins_keeps
    | with_reducible apply State.thermFalls_keeps
    | with_reducible apply Keeps.ite
    | split
    | dsimp only
    | with_reducible apply Keeps.upd
    | with_reducible exact fun _ => rfl
    | exact wF.off rfl

theorem State.dieShare_keeps {s0 : State} {s : State} {above : Nat} {demand : Nat} {total : Nat} (wF : Free F [.free]) (hK : Keeps F s0 s) :
    Keeps F s0 (State.dieShare s above demand total).2 := by
  unfold State.dieShare
  repeat' first
    | with_reducible assumption
    | exact wF.sub rfl
    | with_reducible apply State.draw_keeps
    | with_reducible apply Keeps.ite
    | split
    | dsimp only
    | with_reducible apply Keeps.upd
    | with_reducible exact fun _ => rfl
    | exact wF.off rfl

theorem State.dieBudget_keeps {s0 : State} {s : State} {d : Nat} {above : Nat} {total : Nat} {r : DieReading} (wF : Free F [.surv, .pwr, .recd, .free]) (hK : Keeps F s0 s) :
    Keeps F s0 (State.dieBudget s d above total r) := by
  unfold State.dieBudget
  repeat' first
    | with_reducible assumption
    | exact wF.sub rfl
    | with_reducible apply State.dieShare_keeps
    | with_reducible apply State.draw_keeps
    | with_reducible apply State.modDie_keeps
    | with_reducible apply State.raise_keeps
    | with_reducible apply Keeps.ite
    | split
    | dsimp only
    | with_reducible apply Keeps.upd
    | with_reducible exact fun _ => rfl
    | exact wF.off rfl

theorem State.divide_keeps {s0 : State} {s : State} {o : SlowObs} {b : Nat} (wF : Free F [.surv, .pwr, .recd, .free]) (hK : Keeps F s0 s) :
    Keeps F s0 (State.divide s o b) := by
  unfold State.divide
  repeat' first
    | with_reducible assumption
    | exact wF.sub rfl
    | with_reducible apply State.dieBudget_keeps
    | (with_reducible apply Keeps.foldl1; intro _ _ _)
    | (with_reducible apply Keeps.foldl2; intro _ _ _)
    | (with_reducible apply Keeps.foldl; intro _ _ _)
    | dsimp only
    | with_reducible apply Keeps.upd
    | with_reducible exact fun _ => rfl
    | exact wF.off rfl

theorem State.countGated_keeps {s0 : State} {s : State} (wF : Free F [.regs]) (hK : Keeps F s0 s) :
    Keeps F s0 (State.countGated s) := by
  unfold State.countGated
  repeat' first
    | with_reducible assumption
    | exact wF.sub rfl
    | with_reducible apply State.bump_keeps
    | with_reducible apply Keeps.ite
    | (with_reducible apply Keeps.foldl1; intro _ _ _)
    | (with_reducible apply Keeps.foldl2; intro _ _ _)
    | (with_reducible apply Keeps.foldl; intro _ _ _)
    | split
    | dsimp only
    | with_reducible apply Keeps.upd
    | with_reducible exact fun _ => rfl
    | exact wF.off rfl

theorem State.meter_keeps {s0 : State} {s : State} {o : SlowObs} (wF : Free F [.regs, .pwr]) (hK : Keeps F s0 s) :
    Keeps F s0 (State.meter s o) := by
  unfold State.meter
  repeat' first
    | with_reducible assumption
    | exact wF.sub rfl
    | with_reducible apply State.modPwr_keeps
    | with_reducible apply State.setReg_keeps
    | with_reducible apply Keeps.ite
    | split
    | dsimp only
    | with_reducible apply Keeps.upd
    | with_reducible exact fun _ => rfl
    | exact wF.off rfl

theorem execSlowLoop_keeps {s0 : State} {obs : SlowObs} {s : State} (wF : Free F [.pins, .regs, .cores, .surv, .pwr, .recd, .free]) (hK : Keeps F s0 s) :
    KeepsRes F s0 (execSlowLoop obs s) := by
  unfold execSlowLoop
  repeat' first
    | with_reducible assumption
    | exact wF.sub rfl
    | with_reducible apply State.adopt_keeps
    | with_reducible apply State.bump_keeps
    | with_reducible apply State.countGated_keeps
    | with_reducible apply State.divide_keeps
    | with_reducible apply State.driveTherm_keeps
    | with_reducible apply State.meter_keeps
    | with_reducible apply State.modPins_keeps
    | with_reducible apply State.modPwr_keeps
    | with_reducible apply State.raise_keeps
    | with_reducible apply Keeps.ite
    | with_reducible apply KeepsRes.next
    | exact KeepsRes.refused
    | split
    | dsimp only
    | with_reducible apply Keeps.upd
    | with_reducible exact fun _ => rfl
    | exact wF.off rfl

theorem execFastLoop_keeps {s0 : State} {die : Nat} {power : Nat} {s : State} (wF : Free F [.cores, .pwr]) (hK : Keeps F s0 s) :
    KeepsRes F s0 (execFastLoop die power s) := by
  unfold execFastLoop
  repeat' first
    | with_reducible assumption
    | exact wF.sub rfl
    | with_reducible apply State.modDie_keeps
    | with_reducible apply Keeps.ite
    | with_reducible apply KeepsRes.next
    | exact KeepsRes.refused
    | split
    | dsimp only
    | with_reducible apply Keeps.upd
    | with_reducible exact fun _ => rfl
    | exact wF.off rfl

theorem State.adoptSpread_keeps {s0 : State} {s : State} {d : Nat} (wF : Free F [.pwr]) (hK : Keeps F s0 s) :
    Keeps F s0 (State.adoptSpread s d) := by
  unfold State.adoptSpread
  repeat' first
    | with_reducible assumption
    | exact wF.sub rfl
    | with_reducible apply State.modDie_keeps
    | with_reducible apply Keeps.ite
    | split
    | dsimp only
    | with_reducible apply Keeps.upd
    | with_reducible exact fun _ => rfl
    | exact wF.off rfl

theorem State.adoptIdle_keeps {s0 : State} {s : State} {c : Nat} (wF : Free F [.pwr]) (hK : Keeps F s0 s) :
    Keeps F s0 (State.adoptIdle s c) := by
  unfold State.adoptIdle
  repeat' first
    | with_reducible assumption
    | exact wF.sub rfl
    | with_reducible apply State.modDie_keeps
    | with_reducible apply Keeps.ite
    | split
    | dsimp only
    | with_reducible apply Keeps.upd
    | with_reducible exact fun _ => rfl
    | exact wF.off rfl

theorem State.holdIdles_keeps {s0 : State} {s : State} {d : Nat} (wF : Free F [.pwr]) (hK : Keeps F s0 s) :
    Keeps F s0 (State.holdIdles s d) := by
  unfold State.holdIdles
  repeat' first
    | with_reducible assumption
    | exact wF.sub rfl
    | with_reducible apply State.adoptIdle_keeps
    | with_reducible apply Keeps.ite
    | (with_reducible apply Keeps.foldl1; intro _ _ _)
    | (with_reducible apply Keeps.foldl2; intro _ _ _)
    | (with_reducible apply Keeps.foldl; intro _ _ _)
    | split
    | dsimp only
    | with_reducible apply Keeps.upd
    | with_reducible exact fun _ => rfl
    | exact wF.off rfl

theorem execClockGate_keeps {s0 : State} {core : Nat} {s : State} (wF : Free F [.cores, .pwr]) (hK : Keeps F s0 s) :
    KeepsRes F s0 (execClockGate core s) := by
  unfold execClockGate
  repeat' first
    | with_reducible assumption
    | exact wF.sub rfl
    | with_reducible apply State.adoptIdle_keeps
    | with_reducible apply State.adoptSpread_keeps
    | with_reducible apply State.modCore_keeps
    | with_reducible apply Keeps.ite
    | with_reducible apply KeepsRes.next
    | exact KeepsRes.refused
    | split
    | dsimp only
    | with_reducible apply Keeps.upd
    | with_reducible exact fun _ => rfl
    | exact wF.off rfl

theorem execPowerGate_keeps {s0 : State} {core : Nat} {s : State} (wF : Free F [.regs, .cores]) (hK : Keeps F s0 s) :
    KeepsRes F s0 (execPowerGate core s) := by
  unfold execPowerGate
  repeat' first
    | with_reducible assumption
    | exact wF.sub rfl
    | with_reducible apply State.modCore_keeps
    | with_reducible apply State.startDieIdle_keeps
    | with_reducible apply Keeps.ite
    | with_reducible apply KeepsRes.next
    | exact KeepsRes.refused
    | split
    | dsimp only
    | with_reducible apply Keeps.upd
    | with_reducible exact fun _ => rfl
    | exact wF.off rfl

theorem State.wakeCore_keeps {s0 : State} {s : State} {c : Nat} (wF : Free F [.regs, .cores, .pwr]) (hK : Keeps F s0 s) :
    Keeps F s0 (State.wakeCore s c) := by
  unfold State.wakeCore
  repeat' first
    | with_reducible assumption
    | exact wF.sub rfl
    | with_reducible apply State.bump_keeps
    | with_reducible apply State.modCore_keeps
    | with_reducible apply State.modDie_keeps
    | with_reducible apply Keeps.ite
    | split
    | dsimp only
    | with_reducible apply Keeps.upd
    | with_reducible exact fun _ => rfl
    | exact wF.off rfl

theorem execCoreWakeRequest_keeps {s0 : State} {core : Nat} {s : State} (wF : Free F [.regs, .cores, .pwr]) (hK : Keeps F s0 s) :
    KeepsRes F s0 (execCoreWakeRequest core s) := by
  unfold execCoreWakeRequest
  repeat' first
    | with_reducible assumption
    | exact wF.sub rfl
    | with_reducible apply State.modDie_keeps
    | with_reducible apply State.wakeCore_keeps
    | with_reducible apply State.wakeDie_keeps
    | with_reducible apply Keeps.ite
    | with_reducible apply KeepsRes.next
    | exact KeepsRes.refused
    | split
    | dsimp only
    | with_reducible apply Keeps.upd
    | with_reducible exact fun _ => rfl
    | exact wF.off rfl

theorem execRampAdmitted_keeps {s0 : State} {core : Nat} {s : State} (wF : Free F [.cores, .pwr]) (hK : Keeps F s0 s) :
    KeepsRes F s0 (execRampAdmitted core s) := by
  unfold execRampAdmitted
  repeat' first
    | with_reducible assumption
    | exact wF.sub rfl
    | with_reducible apply State.modCore_keeps
    | with_reducible apply State.modDie_keeps
    | with_reducible apply Keeps.ite
    | with_reducible apply KeepsRes.next
    | exact KeepsRes.refused
    | split
    | dsimp only
    | with_reducible apply Keeps.upd
    | with_reducible exact fun _ => rfl
    | exact wF.off rfl

theorem State.deliverHeld_keeps {s0 s : State} {c : Nat} {a : HeldArrival} (wF : Free F [.regs, .mem, .cores, .te, .objs, .loader, .fab]) (hK : Keeps F s0 s) : Keeps F s0 (State.deliverHeld s c a) := by
  unfold State.deliverHeld
  repeat' first
    | with_reducible assumption
    | exact wF.sub rfl
    | with_reducible apply State.modCore_keeps
    | with_reducible apply State.tokenArrives_keeps
    | with_reducible apply State.bump_keeps
    | with_reducible apply State.respond_keeps
    | split
    | dsimp only
  rename_i h b data _
  refine Keeps.setMem (wF _ (by decide)) hK fun v => ?_
  generalize s.mem = m at v
  induction data generalizing m with
  | nil => exact v
  | cons e l ih => exact ih _ (cellPut_wf v _ _)

theorem State.coreRuns_keeps {s0 : State} {s : State} {c : Nat} (wF : Free F [.regs, .mem, .cores, .te, .objs, .loader, .fab]) (hK : Keeps F s0 s) :
    Keeps F s0 (State.coreRuns s c) := by
  unfold State.coreRuns
  repeat' first
    | with_reducible assumption
    | exact wF.sub rfl
    | with_reducible apply State.deliverHeld_keeps
    | with_reducible apply State.modCore_keeps
    | with_reducible apply Keeps.ite
    | (with_reducible apply Keeps.foldl1; intro _ _ _)
    | (with_reducible apply Keeps.foldl2; intro _ _ _)
    | (with_reducible apply Keeps.foldl; intro _ _ _)
    | split
    | dsimp only
    | with_reducible apply Keeps.upd
    | with_reducible exact fun _ => rfl
    | exact wF.off rfl

theorem State.coreFails_keeps {s0 : State} {s : State} {c : Nat} (wF : Free F [.ident, .regs, .cores, .te, .objs, .loader, .surv, .recd]) (hK : Keeps F s0 s) :
    Keeps F s0 (State.coreFails s c) := by
  unfold State.coreFails
  repeat' first
    | with_reducible assumption
    | exact wF.sub rfl
    | with_reducible apply State.faultCore_keeps
    | with_reducible apply State.modCore_keeps
    | with_reducible apply State.replaceDead_keeps
    | with_reducible apply State.setBit_keeps
    | with_reducible apply Keeps.ite
    | split
    | dsimp only
    | with_reducible apply Keeps.upd
    | with_reducible exact fun _ => rfl
    | exact wF.off rfl

theorem execCoreWakeDone_keeps {s0 : State} {core : Nat} {checkOk : Bool} {s : State} (wF : Free F [.ident, .regs, .mem, .cores, .te, .objs, .loader, .fab, .surv, .recd]) (hK : Keeps F s0 s) :
    KeepsRes F s0 (execCoreWakeDone core checkOk s) := by
  unfold execCoreWakeDone
  repeat' first
    | with_reducible assumption
    | exact wF.sub rfl
    | with_reducible apply State.coreFails_keeps
    | with_reducible apply State.coreRuns_keeps
    | with_reducible apply State.deliverHeld_keeps
    | with_reducible apply State.modCore_keeps
    | with_reducible apply Keeps.ite
    | with_reducible apply KeepsRes.next
    | exact KeepsRes.refused
    | (with_reducible apply Keeps.foldl1; intro _ _ _)
    | (with_reducible apply Keeps.foldl2; intro _ _ _)
    | (with_reducible apply Keeps.foldl; intro _ _ _)
    | split
    | dsimp only
    | with_reducible apply Keeps.upd
    | with_reducible exact fun _ => rfl
    | exact wF.off rfl

theorem execDieGate_keeps {s0 : State} {die : Nat} {s : State} (wF : Free F [.pwr]) (hK : Keeps F s0 s) :
    KeepsRes F s0 (execDieGate die s) := by
  unfold execDieGate
  repeat' first
    | with_reducible assumption
    | exact wF.sub rfl
    | with_reducible apply State.modDie_keeps
    | with_reducible apply Keeps.ite
    | with_reducible apply KeepsRes.next
    | exact KeepsRes.refused
    | split
    | dsimp only
    | with_reducible apply Keeps.upd
    | with_reducible exact fun _ => rfl
    | exact wF.off rfl

theorem execDieWakeRequest_keeps {s0 : State} {die : Nat} {s : State} (wF : Free F [.regs, .pwr]) (hK : Keeps F s0 s) :
    KeepsRes F s0 (execDieWakeRequest die s) := by
  unfold execDieWakeRequest
  repeat' first
    | with_reducible assumption
    | exact wF.sub rfl
    | with_reducible apply State.wakeDie_keeps
    | with_reducible apply Keeps.ite
    | with_reducible apply KeepsRes.next
    | exact KeepsRes.refused
    | split
    | dsimp only
    | with_reducible apply Keeps.upd
    | with_reducible exact fun _ => rfl
    | exact wF.off rfl

theorem execDieWakeDone_keeps {s0 : State} {die : Nat} {s : State} (wF : Free F [.regs, .mem, .cache, .hbm, .cores, .seqs, .objs, .host, .fab, .uu, .surv, .pwr, .recd, .free]) (hK : Keeps F s0 s) :
    KeepsRes F s0 (execDieWakeDone die s) := by
  unfold execDieWakeDone
  repeat' first
    | with_reducible assumption
    | exact wF.sub rfl
    | with_reducible apply State.modDie_keeps
    | with_reducible apply State.releaseReads_keeps
    | with_reducible apply State.startDieIdle_keeps
    | with_reducible apply State.wakeCore_keeps
    | with_reducible apply Keeps.ite
    | with_reducible apply KeepsRes.next
    | exact KeepsRes.refused
    | (with_reducible apply Keeps.foldl1; intro _ _ _)
    | (with_reducible apply Keeps.foldl2; intro _ _ _)
    | (with_reducible apply Keeps.foldl; intro _ _ _)
    | split
    | dsimp only
    | with_reducible apply Keeps.upd
    | with_reducible exact fun _ => rfl
    | exact wF.off rfl

theorem execWakeNLow_keeps {s0 : State} {s : State} (wF : Free F [.pins, .regs, .pwr]) (hK : Keeps F s0 s) :
    KeepsRes F s0 (execWakeNLow s) := by
  unfold execWakeNLow
  repeat' first
    | with_reducible assumption
    | exact wF.sub rfl
    | with_reducible apply State.modPins_keeps
    | with_reducible apply State.wakeDie_keeps
    | with_reducible apply Keeps.ite
    | with_reducible apply KeepsRes.next
    | exact KeepsRes.refused
    | (with_reducible apply Keeps.foldl1; intro _ _ _)
    | (with_reducible apply Keeps.foldl2; intro _ _ _)
    | (with_reducible apply Keeps.foldl; intro _ _ _)
    | split
    | dsimp only
    | with_reducible apply Keeps.upd
    | with_reducible exact fun _ => rfl
    | exact wF.off rfl

theorem execWakeNRelease_keeps {s0 : State} {s : State} (wF : Free F [.pins]) (hK : Keeps F s0 s) :
    KeepsRes F s0 (execWakeNRelease s) := by
  unfold execWakeNRelease
  repeat' first
    | with_reducible assumption
    | exact wF.sub rfl
    | with_reducible apply State.modPins_keeps
    | with_reducible apply KeepsRes.next
    | exact KeepsRes.refused
    | dsimp only
    | with_reducible apply Keeps.upd
    | with_reducible exact fun _ => rfl
    | exact wF.off rfl

theorem execThermNLow_keeps {s0 : State} {s : State} (wF : Free F [.pins, .regs, .cores, .surv, .pwr, .recd, .free]) (hK : Keeps F s0 s) :
    KeepsRes F s0 (execThermNLow s) := by
  unfold execThermNLow
  repeat' first
    | with_reducible assumption
    | exact wF.sub rfl
    | with_reducible apply State.modPins_keeps
    | with_reducible apply State.thermFalls_keeps
    | with_reducible apply Keeps.ite
    | with_reducible apply KeepsRes.next
    | exact KeepsRes.refused
    | split
    | dsimp only
    | with_reducible apply Keeps.upd
    | with_reducible exact fun _ => rfl
    | exact wF.off rfl

theorem execThermNRelease_keeps {s0 : State} {s : State} (wF : Free F [.pins, .pwr]) (hK : Keeps F s0 s) :
    KeepsRes F s0 (execThermNRelease s) := by
  unfold execThermNRelease
  repeat' first
    | with_reducible assumption
    | exact wF.sub rfl
    | with_reducible apply State.modPins_keeps
    | with_reducible apply State.modPwr_keeps
    | with_reducible apply Keeps.ite
    | with_reducible apply KeepsRes.next
    | exact KeepsRes.refused
    | split
    | dsimp only
    | with_reducible apply Keeps.upd
    | with_reducible exact fun _ => rfl
    | exact wF.off rfl

theorem execDuskInputLoss_keeps {s0 : State} {s : State} (wF : Free F [.regs, .surv, .pwr, .recd]) (hK : Keeps F s0 s) :
    KeepsRes F s0 (execDuskInputLoss s) := by
  unfold execDuskInputLoss
  repeat' first
    | with_reducible assumption
    | exact wF.sub rfl
    | with_reducible apply State.modPwr_keeps
    | with_reducible apply State.raise_keeps
    | with_reducible apply State.setBit_keeps
    | with_reducible apply Keeps.ite
    | with_reducible apply KeepsRes.next
    | exact KeepsRes.refused
    | split
    | dsimp only
    | with_reducible apply Keeps.upd
    | with_reducible exact fun _ => rfl
    | exact wF.off rfl

theorem execDuskInputRestored_keeps {s0 : State} {s : State} (wF : Free F [.pwr]) (hK : Keeps F s0 s) :
    KeepsRes F s0 (execDuskInputRestored s) := by
  unfold execDuskInputRestored
  repeat' first
    | with_reducible assumption
    | exact wF.sub rfl
    | with_reducible apply State.modPwr_keeps
    | with_reducible apply KeepsRes.next
    | exact KeepsRes.refused
    | dsimp only
    | with_reducible apply Keeps.upd
    | with_reducible exact fun _ => rfl
    | exact wF.off rfl

theorem State.clockLost_keeps {s0 : State} {s : State} {l : List Nat} (wF : Free F [.te, .objs, .loader]) (hK : Keeps F s0 s) :
    Keeps F s0 (State.clockLost s l) := by
  unfold State.clockLost
  repeat' first
    | with_reducible assumption
    | exact wF.sub rfl
    | with_reducible apply State.faultCtx_keeps
    | with_reducible apply Keeps.ite
    | (with_reducible apply Keeps.foldl1; intro _ _ _)
    | (with_reducible apply Keeps.foldl2; intro _ _ _)
    | (with_reducible apply Keeps.foldl; intro _ _ _)
    | split
    | dsimp only
    | with_reducible apply Keeps.upd
    | with_reducible exact fun _ => rfl
    | exact wF.off rfl

theorem execPllLossOfLock_keeps {s0 : State} {die : Nat} {control : Bool} {s : State} (wF : Free F [.regs, .te, .objs, .loader, .surv, .pwr, .recd, .free]) (hK : Keeps F s0 s) :
    KeepsRes F s0 (execPllLossOfLock die control s) := by
  unfold execPllLossOfLock
  repeat' first
    | with_reducible assumption
    | exact wF.sub rfl
    | with_reducible apply State.clockLost_keeps
    | with_reducible apply State.draw_keeps
    | with_reducible apply State.modDie_keeps
    | with_reducible apply State.raise_keeps
    | with_reducible apply State.setBit_keeps
    | with_reducible apply Keeps.ite
    | with_reducible apply KeepsRes.next
    | exact KeepsRes.refused
    | split
    | dsimp only
    | with_reducible apply Keeps.upd
    | with_reducible exact fun _ => rfl
    | exact wF.off rfl

theorem State.retireDie_keeps {s0 : State} {s : State} {d : Nat} (wF : Free F [.ident, .objs]) (hK : Keeps F s0 s) :
    Keeps F s0 (State.retireDie s d) := by
  unfold State.retireDie
  repeat' first
    | with_reducible assumption
    | exact wF.sub rfl
    | with_reducible apply State.mapParts_keeps
    | with_reducible apply State.setKind_keeps
    | (with_reducible apply Keeps.foldl1; intro _ _ _)
    | (with_reducible apply Keeps.foldl2; intro _ _ _)
    | (with_reducible apply Keeps.foldl; intro _ _ _)
    | dsimp only
    | with_reducible apply Keeps.upd
    | with_reducible exact fun _ => rfl
    | exact wF.off rfl

theorem State.retireStacks_keeps {s0 : State} {s : State} {d : Nat} (wF : Free F [.regs]) (hK : Keeps F s0 s) :
    Keeps F s0 (State.retireStacks s d) := by
  unfold State.retireStacks
  repeat' first
    | with_reducible assumption
    | exact wF.sub rfl
    | with_reducible apply State.setReg_keeps
    | dsimp only
    | with_reducible apply Keeps.upd
    | with_reducible exact fun _ => rfl
    | exact wF.off rfl

theorem State.relocked_keeps {s0 : State} {s : State} {d : Nat} {control : Bool} (wF : Free F [.pwr]) (hK : Keeps F s0 s) :
    Keeps F s0 (State.relocked s d control) := by
  unfold State.relocked
  repeat' first
    | with_reducible assumption
    | exact wF.sub rfl
    | with_reducible apply State.modDie_keeps
    | with_reducible apply Keeps.ite
    | split
    | dsimp only
    | with_reducible apply Keeps.upd
    | with_reducible exact fun _ => rfl
    | exact wF.off rfl

theorem execPllRelockDone_keeps {s0 : State} {die : Nat} {control : Bool} {ok : Bool} {s : State} (wF : Free F [.ident, .regs, .mem, .cache, .hbm, .cores, .te, .seqs, .objs, .loader, .host, .fab, .uu, .surv, .pwr, .recd, .free]) (hK : Keeps F s0 s) :
    KeepsRes F s0 (execPllRelockDone die control ok s) := by
  unfold execPllRelockDone
  repeat' first
    | with_reducible assumption
    | exact wF.sub rfl
    | with_reducible apply State.clockLost_keeps
    | with_reducible apply State.modDie_keeps
    | with_reducible apply State.releaseReads_keeps
    | with_reducible apply State.relocked_keeps
    | with_reducible apply State.retireDie_keeps
    | with_reducible apply State.retireStacks_keeps
    | with_reducible apply State.selfFence_keeps
    | with_reducible apply Keeps.ite
    | with_reducible apply KeepsRes.next
    | exact KeepsRes.refused
    | split
    | dsimp only
    | with_reducible apply Keeps.upd
    | with_reducible exact fun _ => rfl
    | exact wF.off rfl

theorem State.wipeAll_keeps {s0 s : State} (wF : Free F [.regs, .staged, .once, .mem, .cache, .hbm, .cores, .te, .ge, .seqs, .objs, .loader, .host, .fab, .uu, .surv, .pwr, .sec]) (h : Keeps F s0 s) : Keeps F s0 (State.wipeAll s) := by
  unfold State.wipeAll
  dsimp only
  split
  · refine State.holdCaps_keeps (wF.sub rfl) ?_
    exact h.trans ⟨fun _ => rfl, rfl, rfl, id, fun b => ⟨le_refl _, b⟩,
      fun p hp => by cases p <;> first | exact rfl | exact wF.off rfl hp⟩
  · exact h.trans ⟨fun _ => rfl, rfl, rfl, id, fun b => ⟨le_refl _, b⟩,
      fun p hp => by cases p <;> first | exact rfl | exact wF.off rfl hp⟩

theorem State.chooseHubs_keeps {s0 s : State} (wF : Free F [.sec, .free]) (h : Keeps F s0 s) : Keeps F s0 (State.chooseHubs s) := Keeps.setSec (wF _ (by decide)) (State.draw_keeps (wF.sub rfl) h) rfl rfl

theorem State.scReset_keeps {s0 s : State} (wF : Free F [.regs, .staged, .sec]) (h : Keeps F s0 s) : Keeps F s0 (State.scReset s) :=
  h.trans ⟨id, rfl, rfl, id, fun b => ⟨le_refl _, b⟩, fun p hp => by cases p <;> first | exact rfl | exact wF.off rfl hp⟩

theorem State.beginBoot_keeps {s0 : State} {s : State} (wF : Free F [.pins, .regs, .staged, .once, .mem, .cache, .hbm, .cores, .te, .ge, .seqs, .objs, .loader, .host, .fab, .uu, .surv, .pwr, .sec, .free]) (hK : Keeps F s0 s) :
    Keeps F s0 (State.beginBoot s) := by
  unfold State.beginBoot
  repeat' first
    | with_reducible assumption
    | exact wF.sub rfl
    | with_reducible apply State.chooseHubs_keeps
    | with_reducible apply State.modPins_keeps
    | with_reducible apply State.scReset_keeps
    | with_reducible apply State.wipeAll_keeps
    | dsimp only
    | with_reducible apply Keeps.upd
    | with_reducible exact fun _ => rfl
    | exact wF.off rfl

theorem State.tryPower_keeps {s0 : State} {s : State} (wF : Free F [.pins]) (hK : Keeps F s0 s) :
    Keeps F s0 (State.tryPower s) := by
  unfold State.tryPower
  repeat' first
    | with_reducible assumption
    | exact wF.sub rfl
    | with_reducible apply State.modPins_keeps
    | with_reducible apply Keeps.ite
    | split
    | dsimp only
    | with_reducible apply Keeps.upd
    | with_reducible exact fun _ => rfl
    | exact wF.off rfl

theorem State.dropPending_keeps {s0 : State} {s : State} (wF : Free F [.recd]) (hK : Keeps F s0 s) :
    Keeps F s0 (State.dropPending s) := by
  unfold State.dropPending
  repeat' first
    | with_reducible assumption
    | exact wF.sub rfl
    | with_reducible apply State.modRecd_keeps
    | dsimp only
    | with_reducible apply Keeps.upd
    | with_reducible exact fun _ => rfl
    | exact wF.off rfl

theorem State.powerDown_keeps {s0 : State} {s : State} (wF : Free F [.pins, .regs, .staged, .once, .mem, .cache, .hbm, .cores, .te, .ge, .seqs, .objs, .loader, .host, .fab, .uu, .surv, .pwr, .sec, .recd]) (hK : Keeps F s0 s) :
    Keeps F s0 (State.powerDown s) := by
  unfold State.powerDown
  repeat' first
    | with_reducible assumption
    | exact wF.sub rfl
    | with_reducible apply State.dropPending_keeps
    | with_reducible apply State.modPins_keeps
    | with_reducible apply State.startFlush_keeps
    | with_reducible apply State.wipeAll_keeps
    | with_reducible apply Keeps.ite
    | split
    | dsimp only
    | with_reducible apply Keeps.upd
    | with_reducible exact fun _ => rfl
    | exact wF.off rfl

theorem execInputRise_keeps {s0 : State} {s : State} (wF : Free F [.pins, .recd, .ticks]) (hK : Keeps F s0 s) :
    KeepsRes F s0 (execInputRise s) := by
  unfold execInputRise
  repeat' first
    | with_reducible assumption
    | exact wF.sub rfl
    | with_reducible apply State.modPins_keeps
    | with_reducible apply State.modRecd_keeps
    | with_reducible apply Keeps.ite
    | with_reducible apply KeepsRes.next
    | exact KeepsRes.refused
    | split
    | dsimp only
    | with_reducible apply Keeps.upd
    | with_reducible exact fun _ => rfl
    | exact wF.off rfl

theorem execDuskReady_keeps {s0 : State} {clean : Bool} {s : State} (wF : Free F [.pins, .recd]) (hK : Keeps F s0 s) :
    KeepsRes F s0 (execDuskReady clean s) := by
  unfold execDuskReady
  repeat' first
    | with_reducible assumption
    | exact wF.sub rfl
    | with_reducible apply State.modPins_keeps
    | with_reducible apply State.modRecd_keeps
    | with_reducible apply State.tryPower_keeps
    | with_reducible apply Keeps.ite
    | with_reducible apply KeepsRes.next
    | exact KeepsRes.refused
    | split
    | dsimp only
    | with_reducible apply Keeps.upd
    | with_reducible exact fun _ => rfl
    | exact wF.off rfl

theorem execPwrEnAssert_keeps {s0 : State} {s : State} (wF : Free F [.pins]) (hK : Keeps F s0 s) :
    KeepsRes F s0 (execPwrEnAssert s) := by
  unfold execPwrEnAssert
  repeat' first
    | with_reducible assumption
    | exact wF.sub rfl
    | with_reducible apply State.modPins_keeps
    | with_reducible apply State.tryPower_keeps
    | with_reducible apply KeepsRes.next
    | exact KeepsRes.refused
    | dsimp only
    | with_reducible apply Keeps.upd
    | with_reducible exact fun _ => rfl
    | exact wF.off rfl

theorem execInputOperatingRange_keeps {s0 : State} {milliVolts : Nat} {s : State} (wF : Free F [.pins]) (hK : Keeps F s0 s) :
    KeepsRes F s0 (execInputOperatingRange milliVolts s) := by
  unfold execInputOperatingRange
  repeat' first
    | with_reducible assumption
    | exact wF.sub rfl
    | with_reducible apply State.modPins_keeps
    | with_reducible apply State.tryPower_keeps
    | with_reducible apply Keeps.ite
    | with_reducible apply KeepsRes.next
    | exact KeepsRes.refused
    | split
    | dsimp only
    | with_reducible apply Keeps.upd
    | with_reducible exact fun _ => rfl
    | exact wF.off rfl

theorem execPowerGood_keeps {s0 : State} {s : State} (wF : Free F [.pins, .regs, .staged, .once, .mem, .cache, .hbm, .cores, .te, .ge, .seqs, .objs, .loader, .host, .fab, .uu, .surv, .pwr, .sec, .free]) (hK : Keeps F s0 s) :
    KeepsRes F s0 (execPowerGood s) := by
  unfold execPowerGood
  repeat' first
    | with_reducible assumption
    | exact wF.sub rfl
    | with_reducible apply State.beginBoot_keeps
    | with_reducible apply State.modPins_keeps
    | with_reducible apply Keeps.ite
    | with_reducible apply KeepsRes.next
    | exact KeepsRes.refused
    | split
    | dsimp only
    | with_reducible apply Keeps.upd
    | with_reducible exact fun _ => rfl
    | exact wF.off rfl

theorem execPwrEnDeassert_keeps {s0 : State} {s : State} (wF : Free F [.pins, .regs, .staged, .once, .mem, .cache, .hbm, .cores, .te, .ge, .seqs, .objs, .loader, .host, .fab, .uu, .surv, .pwr, .sec, .recd]) (hK : Keeps F s0 s) :
    KeepsRes F s0 (execPwrEnDeassert s) := by
  unfold execPwrEnDeassert
  repeat' first
    | with_reducible assumption
    | exact wF.sub rfl
    | with_reducible apply State.modPins_keeps
    | with_reducible apply State.powerDown_keeps
    | with_reducible apply KeepsRes.next
    | exact KeepsRes.refused
    | dsimp only
    | with_reducible apply Keeps.upd
    | with_reducible exact fun _ => rfl
    | exact wF.off rfl

theorem execInputFault_keeps {s0 : State} {cause : FaultCause} {milliVolts : Nat} {s : State} (wF : Free F [.pins, .regs, .staged, .once, .mem, .cache, .hbm, .cores, .te, .ge, .seqs, .objs, .loader, .host, .fab, .uu, .surv, .pwr, .sec, .recd, .free]) (hK : Keeps F s0 s) :
    KeepsRes F s0 (execInputFault cause milliVolts s) := by
  unfold execInputFault
  repeat' first
    | with_reducible assumption
    | exact wF.sub rfl
    | with_reducible apply State.draw_keeps
    | with_reducible apply State.modPins_keeps
    | with_reducible apply State.powerDown_keeps
    | with_reducible apply State.raise_keeps
    | with_reducible apply Keeps.ite
    | with_reducible apply KeepsRes.next
    | exact KeepsRes.refused
    | split
    | (with_reducible apply Keeps.of_fst; assumption)
    | (with_reducible apply Keeps.of_snd; assumption)
    | dsimp only
    | with_reducible apply Keeps.upd
    | with_reducible exact fun _ => rfl
    | exact wF.off rfl

theorem execResetNAssert_keeps {s0 : State} {s : State} (wF : Free F [.pins, .regs, .staged, .once, .mem, .cache, .hbm, .cores, .te, .ge, .seqs, .objs, .loader, .host, .fab, .uu, .surv, .pwr, .sec]) (hK : Keeps F s0 s) :
    KeepsRes F s0 (execResetNAssert s) := by
  unfold execResetNAssert
  repeat' first
    | with_reducible assumption
    | exact wF.sub rfl
    | with_reducible apply State.modPins_keeps
    | with_reducible apply State.scReset_keeps
    | with_reducible apply State.wipeAll_keeps
    | with_reducible apply Keeps.ite
    | with_reducible apply KeepsRes.next
    | exact KeepsRes.refused
    | split
    | dsimp only
    | with_reducible apply Keeps.upd
    | with_reducible exact fun _ => rfl
    | exact wF.off rfl

theorem execResetNRelease_keeps {s0 : State} {s : State} (wF : Free F [.pins, .regs, .staged, .once, .mem, .cache, .hbm, .cores, .te, .ge, .seqs, .objs, .loader, .host, .fab, .uu, .surv, .pwr, .sec, .free]) (hK : Keeps F s0 s) :
    KeepsRes F s0 (execResetNRelease s) := by
  unfold execResetNRelease
  repeat' first
    | with_reducible assumption
    | exact wF.sub rfl
    | with_reducible apply State.beginBoot_keeps
    | with_reducible apply State.modPins_keeps
    | with_reducible apply Keeps.ite
    | with_reducible apply KeepsRes.next
    | exact KeepsRes.refused
    | split
    | dsimp only
    | with_reducible apply Keeps.upd
    | with_reducible exact fun _ => rfl
    | exact wF.off rfl

theorem execInputFall_keeps {s0 : State} {s : State} (wF : Free F [.pins, .regs, .staged, .once, .mem, .cache, .hbm, .cores, .te, .ge, .seqs, .objs, .loader, .host, .fab, .uu, .surv, .pwr, .sec, .recd, .smb]) (hK : Keeps F s0 s) :
    KeepsRes F s0 (execInputFall s) := by
  unfold execInputFall
  repeat' first
    | with_reducible assumption
    | exact wF.sub rfl
    | with_reducible apply State.modPins_keeps
    | with_reducible apply State.modRecd_keeps
    | with_reducible apply State.wipeAll_keeps
    | with_reducible apply Keeps.ite
    | with_reducible apply KeepsRes.next
    | exact KeepsRes.refused
    | split
    | dsimp only
    | with_reducible apply Keeps.upd
    | with_reducible exact fun _ => rfl
    | exact wF.off rfl

end Sys2Proof.Machine
end

