-- ==== Sys2Proof/Laws/KeepsSecurity.lean ====
section
/-! SUPPORT. What every step keeps: the functions of Machine/Security.lean. -/

namespace Sys2Proof.Machine

open Sys2Proof

variable {F : Area → Bool}

theorem State.modSec_keeps {s0 s : State} {f : Sec → Sec} (wF : Free F [.sec]) (h : Keeps F s0 s) (hf : ∀ c, (f c).lc = c.lc ∧ (f c).lcCount = c.lcCount) :
    Keeps F s0 (State.modSec s f) := Keeps.setSec (wF _ (by decide)) h (hf s.sec).1 (hf s.sec).2

theorem State.burobHalfOut_keeps {s0 : State} {s : State} {p : Nat} {half : Nat} (wF : Free F [.regs, .host, .surv, .recd]) (hK : Keeps F s0 s) :
    Keeps F s0 (State.burobHalfOut s p half) := by
  unfold State.burobHalfOut
  repeat' first
    | with_reducible assumption
    | exact wF.sub rfl
    | with_reducible apply State.bump_keeps
    | with_reducible apply State.burobDown_keeps
    | with_reducible apply State.setPort_keeps
    | with_reducible apply Keeps.ite
    | split
    | dsimp only
    | with_reducible apply Keeps.upd
    | with_reducible exact fun _ => rfl
    | exact wF.off rfl

theorem State.trayHalfOut_keeps {s0 : State} {s : State} {k : Nat} {half : Nat} (wF : Free F [.regs, .mem, .cache, .hbm, .cores, .seqs, .objs, .host, .fab, .uu, .surv, .pwr, .recd, .free]) (hK : Keeps F s0 s) :
    Keeps F s0 (State.trayHalfOut s k half) := by
  unfold State.trayHalfOut
  repeat' first
    | with_reducible assumption
    | exact wF.sub rfl
    | with_reducible apply State.degradeEvent_keeps
    | with_reducible apply State.setField_keeps
    | with_reducible apply State.trayDown_keeps
    | with_reducible apply Keeps.ite
    | split
    | dsimp only
    | with_reducible apply Keeps.upd
    | with_reducible exact fun _ => rfl
    | exact wF.off rfl

theorem State.scaleHalfOut_keeps {s0 : State} {s : State} {p : Nat} {half : Nat} (wF : Free F [.regs, .mem, .cache, .hbm, .cores, .seqs, .objs, .host, .fab, .uu, .surv, .pwr, .recd, .free]) (hK : Keeps F s0 s) :
    Keeps F s0 (State.scaleHalfOut s p half) := by
  unfold State.scaleHalfOut
  repeat' first
    | with_reducible assumption
    | exact wF.sub rfl
    | with_reducible apply State.scaleOutDown_keeps
    | with_reducible apply State.sfRetrain_keeps
    | with_reducible apply Keeps.ite
    | split
    | dsimp only
    | with_reducible apply Keeps.upd
    | with_reducible exact fun _ => rfl
    | exact wF.off rfl

theorem State.hubLanesOut_keeps {s0 : State} {s : State} {h : Nat} (wF : Free F [.regs, .mem, .cache, .hbm, .cores, .seqs, .objs, .host, .fab, .uu, .surv, .pwr, .recd, .free]) (hK : Keeps F s0 s) :
    Keeps F s0 (State.hubLanesOut s h) := by
  unfold State.hubLanesOut
  repeat' first
    | with_reducible assumption
    | exact wF.sub rfl
    | with_reducible apply State.burobHalfOut_keeps
    | with_reducible apply State.scaleHalfOut_keeps
    | with_reducible apply State.trayHalfOut_keeps
    | dsimp only
    | with_reducible apply Keeps.upd
    | with_reducible exact fun _ => rfl
    | exact wF.off rfl

theorem State.hubLanesBack_keeps {s0 : State} {s : State} {h : Nat} (wF : Free F [.regs, .host, .fab, .surv, .recd]) (hK : Keeps F s0 s) :
    Keeps F s0 (State.hubLanesBack s h) := by
  unfold State.hubLanesBack
  repeat' first
    | with_reducible assumption
    | exact wF.sub rfl
    | with_reducible apply State.halfRetry_keeps
    | dsimp only
    | with_reducible apply Keeps.upd
    | with_reducible exact fun _ => rfl
    | exact wF.off rfl

theorem State.failover_keeps {s0 : State} {s : State} {h : Nat} (wF : Free F [.regs, .mem, .cache, .hbm, .cores, .seqs, .objs, .host, .fab, .uu, .surv, .pwr, .sec, .recd, .free]) (hK : Keeps F s0 s) :
    Keeps F s0 (State.failover s h) := by
  unfold State.failover
  repeat' first
    | with_reducible assumption
    | exact wF.sub rfl
    | with_reducible apply State.hubLanesOut_keeps
    | with_reducible refine State.modSec_keeps (wF.sub rfl) ?_ (fun _ => ⟨rfl, rfl⟩)
    | with_reducible apply State.raise_keeps
    | with_reducible apply Keeps.ite
    | split
    | dsimp only
    | with_reducible apply Keeps.upd
    | with_reducible exact fun _ => rfl
    | exact wF.off rfl

theorem State.hubGo_keeps {s0 : State} {s : State} {h : Nat} (wF : Free F [.regs, .mem, .cache, .hbm, .cores, .seqs, .objs, .host, .fab, .uu, .surv, .pwr, .sec, .recd, .free]) (hK : Keeps F s0 s) :
    Keeps F s0 (State.hubGo s h) := by
  unfold State.hubGo
  repeat' first
    | with_reducible assumption
    | exact wF.sub rfl
    | with_reducible apply State.failover_keeps
    | with_reducible refine State.modSec_keeps (wF.sub rfl) ?_ (fun _ => ⟨rfl, rfl⟩)
    | with_reducible apply Keeps.ite
    | split
    | dsimp only
    | with_reducible apply Keeps.upd
    | with_reducible exact fun _ => rfl
    | exact wF.off rfl

theorem execHubGo_keeps {s0 : State} {port : Nat} {hub : Nat} {s : State} (wF : Free F [.regs, .mem, .cache, .hbm, .cores, .seqs, .objs, .host, .fab, .uu, .surv, .pwr, .sec, .recd, .free]) (hK : Keeps F s0 s) :
    KeepsRes F s0 (execHubGo port hub s) := by
  unfold execHubGo
  repeat' first
    | with_reducible assumption
    | exact wF.sub rfl
    | with_reducible apply State.bump_keeps
    | with_reducible apply State.hubGo_keeps
    | with_reducible apply State.setField_keeps
    | with_reducible apply Keeps.ite
    | with_reducible apply KeepsRes.next
    | exact KeepsRes.refused
    | split
    | dsimp only
    | with_reducible apply Keeps.upd
    | with_reducible exact fun _ => rfl
    | exact wF.off rfl

theorem execHubFailureDetected_keeps {s0 : State} {hub : Nat} {s : State} (wF : Free F [.regs, .mem, .cache, .hbm, .cores, .seqs, .objs, .host, .fab, .uu, .surv, .pwr, .sec, .recd, .free]) (hK : Keeps F s0 s) :
    KeepsRes F s0 (execHubFailureDetected hub s) := by
  unfold execHubFailureDetected
  repeat' first
    | with_reducible assumption
    | exact wF.sub rfl
    | with_reducible apply State.failover_keeps
    | with_reducible apply State.raise_keeps
    | with_reducible apply Keeps.ite
    | with_reducible apply KeepsRes.next
    | exact KeepsRes.refused
    | split
    | dsimp only
    | with_reducible apply Keeps.upd
    | with_reducible exact fun _ => rfl
    | exact wF.off rfl

theorem execHubSelfTestDone_keeps {s0 : State} {hub : Nat} {pass : Bool} {s : State} (wF : Free F [.regs, .host, .fab, .surv, .sec, .recd]) (hK : Keeps F s0 s) :
    KeepsRes F s0 (execHubSelfTestDone hub pass s) := by
  unfold execHubSelfTestDone
  repeat' first
    | with_reducible assumption
    | exact wF.sub rfl
    | with_reducible apply State.hubLanesBack_keeps
    | with_reducible refine State.modSec_keeps (wF.sub rfl) ?_ (fun _ => ⟨rfl, rfl⟩)
    | with_reducible apply State.raise_keeps
    | with_reducible apply Keeps.ite
    | with_reducible apply KeepsRes.next
    | exact KeepsRes.refused
    | split
    | dsimp only
    | with_reducible apply Keeps.upd
    | with_reducible exact fun _ => rfl
    | exact wF.off rfl

/-- No token changes a RETIRED device: R505 has no transition out of that state. -/
theorem State.checkToken_retired {s : State} {t : List Byte} {r : LcState × Bool} (h : s.checkToken t = .ok r) : s.sec.lc ≠ .retired := by
  intro e
  unfold State.checkToken at h
  simp only [e] at h
  split at h
  · cases h
  · split at h
    · cases h
    · cases h

theorem State.lcGo_keeps {s0 s : State} (wF : Free F [.pins, .regs, .staged, .once, .mem, .cache, .hbm, .cores, .te, .ge, .seqs, .objs, .loader, .host, .fab, .uu, .surv, .pwr, .sec]) (hK : Keeps F s0 s) : Keeps F s0 (State.lcGo s) := by
  unfold State.lcGo
  with_reducible apply Keeps.ite
  · exact State.modSec_keeps (wF.sub rfl) hK fun _ => ⟨rfl, rfl⟩
  · extract_lets t
    split
    · exact State.modSec_keeps (wF.sub rfl) hK fun _ => ⟨rfl, rfl⟩
    · rename_i to_ record e
      refine State.modPins_keeps (wF.sub rfl) (State.writeDir_keeps (wF.sub rfl) (State.wipeAll_keeps (wF.sub rfl) (hK.trans ⟨id, rfl, rfl, fun r => ?_, fun b => ?_,
        fun p hp => by cases p <;> first | exact rfl | exact wF.off rfl hp⟩)))
      · exact absurd r (State.checkToken_retired e)
      · exact ⟨le_min b (Nat.le_succ _), min_le_left _ _⟩

theorem execLcGo_keeps {s0 : State} {s : State} (wF : Free F [.pins, .regs, .staged, .once, .mem, .cache, .hbm, .cores, .te, .ge, .seqs, .objs, .loader, .host, .fab, .uu, .surv, .pwr, .sec]) (hK : Keeps F s0 s) :
    KeepsRes F s0 (execLcGo s) := by
  unfold execLcGo
  repeat' first
    | with_reducible assumption
    | exact wF.sub rfl
    | with_reducible apply State.lcGo_keeps
    | with_reducible apply Keeps.ite
    | with_reducible apply KeepsRes.next
    | exact KeepsRes.refused
    | split
    | dsimp only
    | with_reducible apply Keeps.upd
    | with_reducible exact fun _ => rfl
    | exact wF.off rfl

theorem State.regsReset_keeps {s0 s : State} (wF : Free F [.regs, .staged, .surv, .pwr, .sec, .recd]) (h : Keeps F s0 s) : Keeps F s0 (State.regsReset s) :=
  (State.scReset_keeps (wF.sub rfl) h).trans ⟨id, rfl, rfl, id, fun b => ⟨le_refl _, b⟩, fun p hp => by cases p <;> first | exact rfl | exact wF.off rfl hp⟩

theorem State.unwrapKey_keeps {s0 s : State} (wF : Free F [.sec]) (h : Keeps F s0 s) : Keeps F s0 (State.unwrapKey s) := Keeps.setSec (wF _ (by decide)) h rfl rfl

theorem State.finishChange_keeps {s0 : State} {s : State} (wF : Free F [.regs, .staged, .once, .mem, .cache, .hbm, .cores, .te, .ge, .seqs, .objs, .loader, .host, .fab, .uu, .surv, .pwr, .sec, .recd, .free]) (hK : Keeps F s0 s) :
    Keeps F s0 (State.finishChange s) := by
  unfold State.finishChange
  repeat' first
    | with_reducible assumption
    | exact wF.sub rfl
    | with_reducible apply State.drawBytes_keeps
    | with_reducible refine State.modSec_keeps (wF.sub rfl) ?_ (fun _ => ⟨rfl, rfl⟩)
    | with_reducible apply State.raise_keeps
    | with_reducible apply State.regsReset_keeps
    | with_reducible apply State.wipeAll_keeps
    | with_reducible apply State.writeDir_keeps
    | with_reducible apply Keeps.ite
    | split
    | (with_reducible apply Keeps.of_fst; assumption)
    | (with_reducible apply Keeps.of_snd; assumption)
    | dsimp only
    | with_reducible apply Keeps.upd
    | with_reducible exact fun _ => rfl
    | exact wF.off rfl

theorem execLifeCycleChangeDone_keeps {s0 : State} {s : State} (wF : Free F [.pins, .regs, .staged, .once, .mem, .cache, .hbm, .cores, .te, .ge, .seqs, .objs, .loader, .host, .fab, .uu, .surv, .pwr, .sec, .recd, .free]) (hK : Keeps F s0 s) :
    KeepsRes F s0 (execLifeCycleChangeDone s) := by
  unfold execLifeCycleChangeDone
  repeat' first
    | with_reducible assumption
    | exact wF.sub rfl
    | with_reducible apply State.beginBoot_keeps
    | with_reducible apply State.finishChange_keeps
    | with_reducible apply Keeps.ite
    | with_reducible apply KeepsRes.next
    | exact KeepsRes.refused
    | split
    | dsimp only
    | with_reducible apply Keeps.upd
    | with_reducible exact fun _ => rfl
    | exact wF.off rfl

theorem State.dropTrials_keeps {s0 : State} {s : State} {u : Nat} (wF : Free F [.surv, .sec, .recd]) (hK : Keeps F s0 s) :
    Keeps F s0 (State.dropTrials s u) := by
  unfold State.dropTrials
  repeat' first
    | with_reducible assumption
    | exact wF.sub rfl
    | with_reducible apply State.modFw_keeps
    | with_reducible apply State.raise_keeps
    | with_reducible apply Keeps.ite
    | (with_reducible apply Keeps.foldl1; intro _ _ _)
    | (with_reducible apply Keeps.foldl2; intro _ _ _)
    | (with_reducible apply Keeps.foldl; intro _ _ _)
    | split
    | dsimp only
    | with_reducible apply Keeps.upd
    | with_reducible exact fun _ => rfl
    | exact wF.off rfl

theorem State.trySlots_keeps {s0 : State} {l : List Bool} {u : Nat} {s : State} (wF : Free F [.surv, .sec, .recd]) (h : Keeps F s0 s) : Keeps F s0 (State.trySlots l u s) := by
  induction l generalizing s with
  | nil => exact State.modFw_keeps (wF.sub rfl) h
  | cons b bs ih =>
    unfold State.trySlots
    dsimp only
    split
    · exact State.modFw_keeps (wF.sub rfl) h
    · exact ih (State.raise_keeps (wF.sub rfl) (State.modSec_keeps (wF.sub rfl) (State.modFw_keeps (wF.sub rfl) h) (fun _ => ⟨rfl, rfl⟩)))

theorem State.bootUnit_keeps {s0 : State} {s : State} {u : Nat} (wF : Free F [.surv, .sec, .recd]) (hK : Keeps F s0 s) :
    Keeps F s0 (State.bootUnit s u) := by
  unfold State.bootUnit
  repeat' first
    | with_reducible assumption
    | exact wF.sub rfl
    | with_reducible apply State.dropTrials_keeps
    | with_reducible apply State.modFw_keeps
    | with_reducible apply State.trySlots_keeps
    | with_reducible apply Keeps.ite
    | split
    | dsimp only
    | with_reducible apply Keeps.upd
    | with_reducible exact fun _ => rfl
    | exact wF.off rfl

theorem State.keepDir_keeps {s0 s t : State} (wF : Free F [.sec]) (h : Keeps F s0 t) : Keeps F s0 (State.keepDir s t) := by
  unfold State.keepDir
  split
  · exact h
  · exact State.writeDir_keeps (wF.sub rfl) h

theorem State.slotBytesNow_keeps {s0 : State} {l : List Nat} {s : State} (wF : Free F [.free]) (h : Keeps F s0 s) : Keeps F s0 (State.slotBytesNow l s).2 := by
  induction l generalizing s with
  | nil => exact h
  | cons u us ih =>
    unfold State.slotBytesNow
    dsimp only
    split
    · exact ih h
    · exact ih (State.drawBytes_keeps (wF.sub rfl) h)

theorem State.startTraining_keeps {s0 : State} {s : State} (wF : Free F [.host]) (hK : Keeps F s0 s) :
    Keeps F s0 (State.startTraining s) := by
  unfold State.startTraining
  repeat' first
    | with_reducible assumption
    | exact wF.sub rfl
    | with_reducible apply State.setPort_keeps
    | with_reducible apply Keeps.ite
    | (with_reducible apply Keeps.foldl1; intro _ _ _)
    | (with_reducible apply Keeps.foldl2; intro _ _ _)
    | (with_reducible apply Keeps.foldl; intro _ _ _)
    | split
    | dsimp only
    | with_reducible apply Keeps.upd
    | with_reducible exact fun _ => rfl
    | exact wF.off rfl

theorem execBootDone_keeps {s0 : State} {flash : FlashParams} {s : State} (wF : Free F [.pins, .regs, .staged, .once, .mem, .cache, .hbm, .cores, .te, .ge, .seqs, .objs, .loader, .host, .fab, .uu, .surv, .pwr, .sec, .recd, .free]) (hK : Keeps F s0 s) :
    KeepsRes F s0 (execBootDone flash s) := by
  unfold execBootDone
  repeat' first
    | with_reducible assumption
    | exact wF.sub rfl
    | with_reducible apply State.bootUnit_keeps
    | with_reducible apply State.bump_keeps
    | with_reducible apply State.finishChange_keeps
    | with_reducible apply State.keepDir_keeps
    | with_reducible apply State.modPins_keeps
    | with_reducible refine State.modSec_keeps (wF.sub rfl) ?_ (fun _ => ⟨rfl, rfl⟩)
    | with_reducible apply State.raise_keeps
    | with_reducible apply State.readDir_keeps
    | with_reducible apply State.slotBytesNow_keeps
    | with_reducible apply State.startTraining_keeps
    | with_reducible apply State.unwrapKey_keeps
    | with_reducible apply Keeps.ite
    | with_reducible apply KeepsRes.next
    | exact KeepsRes.refused
    | (with_reducible apply Keeps.foldl1; intro _ _ _)
    | (with_reducible apply Keeps.foldl2; intro _ _ _)
    | (with_reducible apply Keeps.foldl; intro _ _ _)
    | split
    | dsimp only
    | with_reducible apply Keeps.upd
    | with_reducible exact fun _ => rfl
    | exact wF.off rfl

theorem State.modHot_keeps {s0 : State} {s : State} {f : UpdState → UpdState} (wF : Free F [.sec]) (hK : Keeps F s0 s) :
    Keeps F s0 (State.modHot s f) := by
  unfold State.modHot
  repeat' first
    | with_reducible assumption
    | exact wF.sub rfl
    | with_reducible refine State.modSec_keeps (wF.sub rfl) ?_ (fun _ => ⟨rfl, rfl⟩)
    | dsimp only
    | with_reducible apply Keeps.upd
    | with_reducible exact fun _ => rfl
    | exact wF.off rfl

theorem State.updFails_keeps {s0 : State} {s : State} {code : Nat} (wF : Free F [.sec]) (hK : Keeps F s0 s) :
    Keeps F s0 (State.updFails s code) := by
  unfold State.updFails
  repeat' first
    | with_reducible assumption
    | exact wF.sub rfl
    | with_reducible apply State.modHot_keeps
    | dsimp only
    | with_reducible apply Keeps.upd
    | with_reducible exact fun _ => rfl
    | exact wF.off rfl

theorem State.eraseSlot_keeps {s0 : State} {s : State} {u : Nat} {b : Bool} (wF : Free F [.sec]) (hK : Keeps F s0 s) :
    Keeps F s0 (State.eraseSlot s u b) := by
  unfold State.eraseSlot
  repeat' first
    | with_reducible assumption
    | exact wF.sub rfl
    | with_reducible apply State.modFw_keeps
    | with_reducible refine State.modSec_keeps (wF.sub rfl) ?_ (fun _ => ⟨rfl, rfl⟩)
    | dsimp only
    | with_reducible apply Keeps.upd
    | with_reducible exact fun _ => rfl
    | exact wF.off rfl

theorem State.updStart_keeps {s0 : State} {s : State} {u : Nat} {b : Bool} {image : List Byte} {inPlace : Bool} (wF : Free F [.sec]) (hK : Keeps F s0 s) :
    Keeps F s0 (State.updStart s u b image inPlace) := by
  unfold State.updStart
  repeat' first
    | with_reducible assumption
    | exact wF.sub rfl
    | with_reducible apply State.eraseSlot_keeps
    | with_reducible apply State.modHot_keeps
    | with_reducible apply Keeps.ite
    | split
    | dsimp only
    | with_reducible apply Keeps.upd
    | with_reducible exact fun _ => rfl
    | exact wF.off rfl

theorem State.updGo_keeps {s0 : State} {s : State} (wF : Free F [.sec]) (hK : Keeps F s0 s) :
    Keeps F s0 (State.updGo s) := by
  unfold State.updGo
  repeat' first
    | with_reducible assumption
    | exact wF.sub rfl
    | with_reducible apply State.modHot_keeps
    | with_reducible apply State.updFails_keeps
    | with_reducible apply State.updStart_keeps
    | with_reducible apply Keeps.ite
    | split
    | (with_reducible apply Keeps.of_fst; assumption)
    | (with_reducible apply Keeps.of_snd; assumption)
    | dsimp only
    | with_reducible apply Keeps.upd
    | with_reducible exact fun _ => rfl
    | exact wF.off rfl

theorem execUpdGo_keeps {s0 : State} {s : State} (wF : Free F [.sec]) (hK : Keeps F s0 s) :
    KeepsRes F s0 (execUpdGo s) := by
  unfold execUpdGo
  repeat' first
    | with_reducible assumption
    | exact wF.sub rfl
    | with_reducible apply State.updGo_keeps
    | with_reducible apply Keeps.ite
    | with_reducible apply KeepsRes.next
    | exact KeepsRes.refused
    | split
    | dsimp only
    | with_reducible apply Keeps.upd
    | with_reducible exact fun _ => rfl
    | exact wF.off rfl

theorem execUpdWriteDone_keeps {s0 : State} {ok : Bool} {s : State} (wF : Free F [.sec]) (hK : Keeps F s0 s) :
    KeepsRes F s0 (execUpdWriteDone ok s) := by
  unfold execUpdWriteDone
  repeat' first
    | with_reducible assumption
    | exact wF.sub rfl
    | with_reducible apply State.modFw_keeps
    | with_reducible apply State.modHot_keeps
    | with_reducible refine State.modSec_keeps (wF.sub rfl) ?_ (fun _ => ⟨rfl, rfl⟩)
    | with_reducible apply State.updFails_keeps
    | with_reducible apply State.writeDir_keeps
    | with_reducible apply Keeps.ite
    | with_reducible apply KeepsRes.next
    | exact KeepsRes.refused
    | split
    | (with_reducible apply Keeps.of_fst; assumption)
    | (with_reducible apply Keeps.of_snd; assumption)
    | dsimp only
    | with_reducible apply Keeps.upd
    | with_reducible exact fun _ => rfl
    | exact wF.off rfl

theorem State.duskMoves_keeps {s0 : State} {s : State} (wF : Free F [.sec]) (hK : Keeps F s0 s) :
    Keeps F s0 (State.duskMoves s) := by
  unfold State.duskMoves
  repeat' first
    | with_reducible assumption
    | exact wF.sub rfl
    | with_reducible refine State.modSec_keeps (wF.sub rfl) ?_ (fun _ => ⟨rfl, rfl⟩)
    | split
    | (with_reducible apply Keeps.of_fst; assumption)
    | (with_reducible apply Keeps.of_snd; assumption)
    | dsimp only
    | with_reducible apply Keeps.upd
    | with_reducible exact fun _ => rfl
    | exact wF.off rfl

theorem State.activate_keeps {s0 : State} {s : State} (wF : Free F [.regs, .surv, .sec, .recd]) (hK : Keeps F s0 s) :
    Keeps F s0 (State.activate s) := by
  unfold State.activate
  repeat' first
    | with_reducible assumption
    | exact wF.sub rfl
    | with_reducible apply State.bump_keeps
    | with_reducible apply State.duskMoves_keeps
    | with_reducible apply State.modFw_keeps
    | with_reducible apply State.modHot_keeps
    | with_reducible apply State.raise_keeps
    | with_reducible apply Keeps.ite
    | split
    | dsimp only
    | with_reducible apply Keeps.upd
    | with_reducible exact fun _ => rfl
    | exact wF.off rfl

theorem execUnitActivation_keeps {s0 : State} {s : State} (wF : Free F [.regs, .surv, .sec, .recd]) (hK : Keeps F s0 s) :
    KeepsRes F s0 (execUnitActivation s) := by
  unfold execUnitActivation
  repeat' first
    | with_reducible assumption
    | exact wF.sub rfl
    | with_reducible apply State.activate_keeps
    | with_reducible apply State.modHot_keeps
    | with_reducible apply Keeps.ite
    | with_reducible apply KeepsRes.next
    | exact KeepsRes.refused
    | split
    | dsimp only
    | with_reducible apply Keeps.upd
    | with_reducible exact fun _ => rfl
    | exact wF.off rfl

theorem State.updCommit_keeps {s0 : State} {s : State} {raiseMin : Bool} (wF : Free F [.surv, .sec, .recd]) (hK : Keeps F s0 s) :
    Keeps F s0 (State.updCommit s raiseMin) := by
  unfold State.updCommit
  repeat' first
    | with_reducible assumption
    | exact wF.sub rfl
    | with_reducible apply State.modFw_keeps
    | with_reducible apply State.modHot_keeps
    | with_reducible apply State.raise_keeps
    | with_reducible apply State.writeDir_keeps
    | with_reducible apply Keeps.ite
    | split
    | dsimp only
    | with_reducible apply Keeps.upd
    | with_reducible exact fun _ => rfl
    | exact wF.off rfl

theorem execUpdCommit_keeps {s0 : State} {raiseMin : Bool} {s : State} (wF : Free F [.surv, .sec, .recd]) (hK : Keeps F s0 s) :
    KeepsRes F s0 (execUpdCommit raiseMin s) := by
  unfold execUpdCommit
  repeat' first
    | with_reducible assumption
    | exact wF.sub rfl
    | with_reducible apply State.updCommit_keeps
    | with_reducible apply KeepsRes.next
    | exact KeepsRes.refused
    | dsimp only
    | with_reducible apply Keeps.upd
    | with_reducible exact fun _ => rfl
    | exact wF.off rfl

theorem State.updAbort_keeps {s0 : State} {s : State} (wF : Free F [.surv, .sec, .recd]) (hK : Keeps F s0 s) :
    Keeps F s0 (State.updAbort s) := by
  unfold State.updAbort
  repeat' first
    | with_reducible assumption
    | exact wF.sub rfl
    | with_reducible apply State.modFw_keeps
    | with_reducible apply State.modHot_keeps
    | with_reducible apply State.raise_keeps
    | with_reducible apply State.writeDir_keeps
    | with_reducible apply Keeps.ite
    | split
    | dsimp only
    | with_reducible apply Keeps.upd
    | with_reducible exact fun _ => rfl
    | exact wF.off rfl

theorem execUpdAbort_keeps {s0 : State} {s : State} (wF : Free F [.surv, .sec, .recd]) (hK : Keeps F s0 s) :
    KeepsRes F s0 (execUpdAbort s) := by
  unfold execUpdAbort
  repeat' first
    | with_reducible assumption
    | exact wF.sub rfl
    | with_reducible apply State.updAbort_keeps
    | with_reducible apply KeepsRes.next
    | exact KeepsRes.refused
    | dsimp only
    | with_reducible apply Keeps.upd
    | with_reducible exact fun _ => rfl
    | exact wF.off rfl

theorem State.flashGo_keeps {s0 : State} {s : State} {erase : Bool} (wF : Free F [.sec]) (hK : Keeps F s0 s) :
    Keeps F s0 (State.flashGo s erase) := by
  unfold State.flashGo
  repeat' first
    | with_reducible assumption
    | exact wF.sub rfl
    | with_reducible refine State.modSec_keeps (wF.sub rfl) ?_ (fun _ => ⟨rfl, rfl⟩)
    | with_reducible apply Keeps.ite
    | split
    | dsimp only
    | with_reducible apply Keeps.upd
    | with_reducible exact fun _ => rfl
    | exact wF.off rfl

theorem execFlashErase_keeps {s0 : State} {s : State} (wF : Free F [.sec]) (hK : Keeps F s0 s) :
    KeepsRes F s0 (execFlashErase s) := by
  unfold execFlashErase
  repeat' first
    | with_reducible assumption
    | exact wF.sub rfl
    | with_reducible apply State.flashGo_keeps
    | with_reducible apply Keeps.ite
    | with_reducible apply KeepsRes.next
    | exact KeepsRes.refused
    | split
    | dsimp only
    | with_reducible apply Keeps.upd
    | with_reducible exact fun _ => rfl
    | exact wF.off rfl

theorem execFlashProgram_keeps {s0 : State} {s : State} (wF : Free F [.sec]) (hK : Keeps F s0 s) :
    KeepsRes F s0 (execFlashProgram s) := by
  unfold execFlashProgram
  repeat' first
    | with_reducible assumption
    | exact wF.sub rfl
    | with_reducible apply State.flashGo_keeps
    | with_reducible apply Keeps.ite
    | with_reducible apply KeepsRes.next
    | exact KeepsRes.refused
    | split
    | dsimp only
    | with_reducible apply Keeps.upd
    | with_reducible exact fun _ => rfl
    | exact wF.off rfl

theorem State.slotChanged_keeps {s0 : State} {s : State} {o : Nat} (wF : Free F [.sec]) (hK : Keeps F s0 s) :
    Keeps F s0 (State.slotChanged s o) := by
  unfold State.slotChanged
  repeat' first
    | with_reducible assumption
    | exact wF.sub rfl
    | with_reducible apply State.modFw_keeps
    | split
    | (with_reducible apply Keeps.of_fst; assumption)
    | (with_reducible apply Keeps.of_snd; assumption)
    | dsimp only
    | with_reducible apply Keeps.upd
    | with_reducible exact fun _ => rfl
    | exact wF.off rfl

theorem execFlashOpDone_keeps {s0 : State} {ok : Bool} {s : State} (wF : Free F [.regs, .sec]) (hK : Keeps F s0 s) :
    KeepsRes F s0 (execFlashOpDone ok s) := by
  unfold execFlashOpDone
  repeat' first
    | with_reducible assumption
    | exact wF.sub rfl
    | with_reducible refine State.modSec_keeps (wF.sub rfl) ?_ (fun _ => ⟨rfl, rfl⟩)
    | with_reducible apply State.setField_keeps
    | with_reducible apply State.slotChanged_keeps
    | with_reducible apply Keeps.ite
    | with_reducible apply KeepsRes.next
    | exact KeepsRes.refused
    | split
    | (with_reducible apply Keeps.of_fst; assumption)
    | (with_reducible apply Keeps.of_snd; assumption)
    | dsimp only
    | with_reducible apply Keeps.upd
    | with_reducible exact fun _ => rfl
    | exact wF.off rfl

theorem State.setMailbox_keeps {s0 : State} {s : State} {p : Nat} {m : Mailbox} (wF : Free F [.sec]) (hK : Keeps F s0 s) :
    Keeps F s0 (State.setMailbox s p m) := by
  unfold State.setMailbox
  repeat' first
    | with_reducible assumption
    | exact wF.sub rfl
    | with_reducible refine State.modSec_keeps (wF.sub rfl) ?_ (fun _ => ⟨rfl, rfl⟩)
    | dsimp only
    | with_reducible apply Keeps.upd
    | with_reducible exact fun _ => rfl
    | exact wF.off rfl

theorem State.attGo_keeps {s0 : State} {s : State} {p : Nat} (wF : Free F [.sec]) (hK : Keeps F s0 s) :
    Keeps F s0 (State.attGo s p) := by
  unfold State.attGo
  repeat' first
    | with_reducible assumption
    | exact wF.sub rfl
    | with_reducible refine State.modSec_keeps (wF.sub rfl) ?_ (fun _ => ⟨rfl, rfl⟩)
    | with_reducible apply State.setMailbox_keeps
    | with_reducible apply Keeps.ite
    | split
    | dsimp only
    | with_reducible apply Keeps.upd
    | with_reducible exact fun _ => rfl
    | exact wF.off rfl

theorem execAttGo_keeps {s0 : State} {port : Nat} {s : State} (wF : Free F [.sec]) (hK : Keeps F s0 s) :
    KeepsRes F s0 (execAttGo port s) := by
  unfold execAttGo
  repeat' first
    | with_reducible assumption
    | exact wF.sub rfl
    | with_reducible apply State.attGo_keeps
    | with_reducible apply Keeps.ite
    | with_reducible apply KeepsRes.next
    | exact KeepsRes.refused
    | split
    | dsimp only
    | with_reducible apply Keeps.upd
    | with_reducible exact fun _ => rfl
    | exact wF.off rfl

theorem State.reportUnit_keeps {s0 : State} {s : State} {u : Nat} (wF : Free F [.free]) (hK : Keeps F s0 s) :
    Keeps F s0 (State.reportUnit s u).2 := by
  unfold State.reportUnit
  repeat' first
    | with_reducible assumption
    | exact wF.sub rfl
    | with_reducible apply State.drawBytes_keeps
    | with_reducible apply Keeps.ite
    | split
    | (with_reducible apply Keeps.of_fst; assumption)
    | (with_reducible apply Keeps.of_snd; assumption)
    | dsimp only
    | with_reducible apply Keeps.upd
    | with_reducible exact fun _ => rfl
    | exact wF.off rfl

theorem State.reportUnits_keeps {s0 : State} {l : List Nat} {s : State} (wF : Free F [.free]) (h : Keeps F s0 s) : Keeps F s0 (State.reportUnits l s).2 := by
  induction l generalizing s with
  | nil => exact h
  | cons u us ih => exact ih (State.reportUnit_keeps (wF.sub rfl) h)

theorem State.report_keeps {s0 s : State} {p : Nat} (wF : Free F [.free]) (hK : Keeps F s0 s) : Keeps F s0 (State.report s p).2 := by
  unfold State.report
  extract_lets u body d
  have h : Keeps F s0 d.2 := State.drawBytes_keeps (wF.sub rfl) (State.reportUnits_keeps (wF.sub rfl) hK)
  clear_value d body
  exact h

theorem execAttReportDone_keeps {s0 : State} {s : State} (wF : Free F [.regs, .surv, .sec, .recd, .free]) (hK : Keeps F s0 s) :
    KeepsRes F s0 (execAttReportDone s) := by
  unfold execAttReportDone
  repeat' first
    | with_reducible assumption
    | exact wF.sub rfl
    | with_reducible apply State.activate_keeps
    | with_reducible refine State.modSec_keeps (wF.sub rfl) ?_ (fun _ => ⟨rfl, rfl⟩)
    | with_reducible apply State.report_keeps
    | with_reducible apply State.setMailbox_keeps
    | with_reducible apply Keeps.ite
    | with_reducible apply KeepsRes.next
    | exact KeepsRes.refused
    | split
    | (with_reducible apply Keeps.of_fst; assumption)
    | (with_reducible apply Keeps.of_snd; assumption)
    | dsimp only
    | with_reducible apply Keeps.upd
    | with_reducible exact fun _ => rfl
    | exact wF.off rfl

end Sys2Proof.Machine
end

