-- ==== Sys2Proof/Laws/KeepsRegs.lean ====
section
/-! SUPPORT. What every step keeps: the functions of Machine/Regs.lean. -/

namespace Sys2Proof.Machine

open Sys2Proof

variable {F : Area → Bool}

theorem after_keeps {s0 : State} {r : Res} {s : State} (wF : Free F []) (hr : KeepsRes F s0 r) (hK : Keeps F s0 s) : Keeps F s0 (after r s) := by
  unfold after
  split
  · exact hr _ rfl
  · exact hK

theorem State.cqSet_keeps {s0 : State} {s : State} {p : Nat} {c : Nat} {was : Bool} (wF : Free F [.regs, .host]) (hK : Keeps F s0 s) :
    Keeps F s0 (State.cqSet s p c was) := by
  unfold State.cqSet
  repeat' first
    | with_reducible assumption
    | exact wF.sub rfl
    | with_reducible apply State.setCq_keeps
    | with_reducible apply State.setField_keeps
    | with_reducible apply State.setReg_keeps
    | with_reducible apply Keeps.ite
    | split
    | dsimp only
    | with_reducible apply Keeps.upd
    | with_reducible exact fun _ => rfl
    | exact wF.off rfl

theorem State.poolSet_keeps {s0 : State} {s : State} (wF : Free F [.surv]) (hK : Keeps F s0 s) :
    Keeps F s0 (State.poolSet s) := by
  unfold State.poolSet
  repeat' first
    | with_reducible assumption
    | exact wF.sub rfl
    | with_reducible apply State.modSurv_keeps
    | with_reducible apply Keeps.ite
    | split
    | dsimp only
    | with_reducible apply Keeps.upd
    | with_reducible exact fun _ => rfl
    | exact wF.off rfl

theorem State.pairCtl_keeps {s0 : State} {s : State} {v : Nat} (wF : Free F [.regs, .mem, .cache, .hbm, .cores, .objs, .fab, .uu, .surv, .pwr, .recd, .free]) (hK : Keeps F s0 s) :
    Keeps F s0 (State.pairCtl s v) := by
  unfold State.pairCtl
  repeat' first
    | with_reducible assumption
    | exact wF.sub rfl
    | with_reducible apply after_keeps
    | with_reducible apply execPairGo_keeps
    | with_reducible apply execSwapReq_keeps
    | with_reducible apply execUnpair_keeps
    | with_reducible apply Keeps.ite
    | split
    | dsimp only
    | with_reducible apply Keeps.upd
    | with_reducible exact fun _ => rfl
    | exact wF.off rfl

theorem State.updCtl_keeps {s0 : State} {s : State} {v : Nat} (wF : Free F [.surv, .sec, .recd]) (hK : Keeps F s0 s) :
    Keeps F s0 (State.updCtl s v) := by
  unfold State.updCtl
  repeat' first
    | with_reducible assumption
    | exact wF.sub rfl
    | with_reducible apply State.updAbort_keeps
    | with_reducible apply State.updCommit_keeps
    | with_reducible apply State.updGo_keeps
    | with_reducible apply Keeps.ite
    | split
    | dsimp only
    | with_reducible apply Keeps.upd
    | with_reducible exact fun _ => rfl
    | exact wF.off rfl

theorem State.rateSet_keeps {s0 : State} {s : State} {v : Nat} (wF : Free F [.recd]) (hK : Keeps F s0 s) :
    Keeps F s0 (State.rateSet s v) := by
  unfold State.rateSet
  repeat' first
    | with_reducible assumption
    | exact wF.sub rfl
    | with_reducible apply State.setBucket_keeps
    | with_reducible apply Keeps.ite
    | split
    | dsimp only
    | with_reducible apply Keeps.upd
    | with_reducible exact fun _ => rfl
    | exact wF.off rfl

theorem State.evCtl_keeps {s0 : State} {s : State} {v : Nat} (wF : Free F [.recd]) (hK : Keeps F s0 s) :
    Keeps F s0 (State.evCtl s v) := by
  unfold State.evCtl
  repeat' first
    | with_reducible assumption
    | exact wF.sub rfl
    | with_reducible apply State.logClear_keeps
    | with_reducible apply State.startFlush_keeps
    | with_reducible apply Keeps.ite
    | split
    | dsimp only
    | with_reducible apply Keeps.upd
    | with_reducible exact fun _ => rfl
    | exact wF.off rfl

theorem State.wrote_keeps {s0 : State} {s : State} {p : Nat} {w : Win} {o : Nat} {v : Nat} {was : Nat} (wF : Free F [.pins, .regs, .staged, .once, .mem, .cache, .hbm, .cores, .te, .ge, .seqs, .objs, .loader, .host, .fab, .uu, .surv, .pwr, .sec, .recd, .free]) (hK : Keeps F s0 s) :
    Keeps F s0 (State.wrote s p w o v was) := by
  unfold State.wrote
  repeat' first
    | with_reducible assumption
    | exact wF.sub rfl
    | with_reducible apply State.adopt_keeps
    | with_reducible apply State.adoptCap_keeps
    | with_reducible apply State.adoptRate_keeps
    | with_reducible apply State.adoptSpread_keeps
    | with_reducible apply State.attGo_keeps
    | with_reducible apply State.cqDrain_keeps
    | with_reducible apply State.cqSet_keeps
    | with_reducible apply State.evCtl_keeps
    | with_reducible apply State.flashGo_keeps
    | with_reducible apply State.hubGo_keeps
    | with_reducible apply State.lcGo_keeps
    | with_reducible apply State.modRecd_keeps
    | with_reducible apply State.pairCtl_keeps
    | with_reducible apply State.poolSet_keeps
    | with_reducible apply State.pumpAll_keeps
    | with_reducible apply State.rateSet_keeps
    | with_reducible apply State.restoreAsked_keeps
    | with_reducible apply State.setRisk_keeps
    | with_reducible apply State.startLookup_keeps
    | with_reducible apply State.startReplace_keeps
    | with_reducible apply State.sweepOut_keeps
    | with_reducible apply State.updCtl_keeps
    | with_reducible apply State.updateRoute_keeps
    | with_reducible apply after_keeps
    | with_reducible apply execEvacGo_keeps
    | with_reducible apply execProtectDisable_keeps
    | with_reducible apply execProtectEnable_keeps
    | with_reducible apply execReadmit_keeps
    | with_reducible apply Keeps.ite
    | (with_reducible apply Keeps.foldl1; intro _ _ _)
    | (with_reducible apply Keeps.foldl2; intro _ _ _)
    | (with_reducible apply Keeps.foldl; intro _ _ _)
    | split
    | (with_reducible apply Keeps.of_fst; assumption)
    | (with_reducible apply Keeps.of_snd; assumption)
    | dsimp only
    | with_reducible apply Keeps.upd
    | with_reducible exact fun _ => rfl
    | exact wF.off rfl

theorem State.writeFields_keeps {s0 : State} {s : State} {off : Nat} {w : Win} {o : Nat} {r : RegSpec} {v : Nat} (wF : Free F [.regs, .staged]) (hK : Keeps F s0 s) :
    Keeps F s0 (State.writeFields s off w o r v) := by
  unfold State.writeFields
  repeat' first
    | with_reducible assumption
    | exact wF.sub rfl
    | with_reducible apply State.setBit_keeps
    | with_reducible apply State.setReg_keeps
    | with_reducible apply Keeps.ite
    | split
    | (with_reducible apply Keeps.of_fst; assumption)
    | (with_reducible apply Keeps.of_snd; assumption)
    | dsimp only
    | with_reducible apply Keeps.upd
    | with_reducible exact fun _ => rfl
    | exact wF.off rfl

theorem State.keySet_keeps {s0 : State} {s : State} {off : Nat} {v : Nat} (wF : Free F [.regs, .once]) (hK : Keeps F s0 s) :
    Keeps F s0 (State.keySet s off v) := by
  unfold State.keySet
  repeat' first
    | with_reducible assumption
    | exact wF.sub rfl
    | with_reducible apply State.setReg_keeps
    | with_reducible apply Keeps.ite
    | split
    | dsimp only
    | with_reducible apply Keeps.upd
    | with_reducible exact fun _ => rfl
    | exact wF.off rfl

theorem State.byteWinWrite_keeps {s0 : State} {s : State} {b : ByteWin} {k : Nat} {bytes : List Byte} (wF : Free F [.sec]) (hK : Keeps F s0 s) :
    Keeps F s0 (State.byteWinWrite s b k bytes) := by
  unfold State.byteWinWrite
  repeat' first
    | with_reducible assumption
    | exact wF.sub rfl
    | with_reducible refine State.modSec_keeps (wF.sub rfl) ?_ (fun _ => ⟨rfl, rfl⟩)
    | with_reducible apply State.setMailbox_keeps
    | with_reducible apply Keeps.ite
    | split
    | (with_reducible apply Keeps.of_fst; assumption)
    | (with_reducible apply Keeps.of_snd; assumption)
    | dsimp only
    | with_reducible apply Keeps.upd
    | with_reducible exact fun _ => rfl
    | exact wF.off rfl

theorem State.writeCtl_keeps {s0 : State} {s : State} {p : Nat} {off : Nat} {width : Nat} {v : Nat} (wF : Free F [.pins, .regs, .staged, .once, .mem, .cache, .hbm, .cores, .te, .ge, .seqs, .objs, .loader, .host, .fab, .uu, .surv, .pwr, .sec, .recd, .free]) (hK : Keeps F s0 s) :
    Keeps F s0 (State.writeCtl s p off width v) := by
  unfold State.writeCtl
  repeat' first
    | with_reducible assumption
    | exact wF.sub rfl
    | with_reducible apply State.byteWinWrite_keeps
    | with_reducible apply State.holdIdles_keeps
    | with_reducible apply State.keySet_keeps
    | with_reducible refine State.modSec_keeps (wF.sub rfl) ?_ (fun _ => ⟨rfl, rfl⟩)
    | with_reducible apply State.writeFields_keeps
    | with_reducible apply State.wrote_keeps
    | with_reducible apply Keeps.ite
    | split
    | (with_reducible apply Keeps.of_fst; assumption)
    | (with_reducible apply Keeps.of_snd; assumption)
    | dsimp only
    | with_reducible apply Keeps.upd
    | with_reducible exact fun _ => rfl
    | exact wF.off rfl

theorem State.writePort_keeps {s0 : State} {s : State} {p : Nat} {off : Nat} {width : Nat} {v : Nat} (wF : Free F [.pins, .regs, .staged, .once, .mem, .cache, .hbm, .cores, .te, .ge, .seqs, .objs, .loader, .host, .fab, .uu, .surv, .pwr, .sec, .recd, .free]) (hK : Keeps F s0 s) :
    Keeps F s0 (State.writePort s p off width v) := by
  unfold State.writePort
  repeat' first
    | with_reducible assumption
    | exact wF.sub rfl
    | with_reducible apply State.bump_keeps
    | with_reducible apply State.writeCtl_keeps
    | with_reducible apply Keeps.ite
    | split
    | (with_reducible apply Keeps.of_fst; assumption)
    | (with_reducible apply Keeps.of_snd; assumption)
    | dsimp only
    | with_reducible apply Keeps.upd
    | with_reducible exact fun _ => rfl
    | exact wF.off rfl

theorem execRegisterWrite_keeps {s0 : State} {port : Nat} {offset : Nat} {width : Nat} {value : W64} {s : State} (wF : Free F [.pins, .regs, .staged, .once, .mem, .cache, .hbm, .cores, .te, .ge, .seqs, .objs, .loader, .host, .fab, .uu, .surv, .pwr, .sec, .recd, .free]) (hK : Keeps F s0 s) :
    KeepsRes F s0 (execRegisterWrite port offset width value s) := by
  unfold execRegisterWrite
  repeat' first
    | with_reducible assumption
    | exact wF.sub rfl
    | with_reducible apply State.writePort_keeps
    | with_reducible apply Keeps.ite
    | with_reducible apply KeepsRes.next
    | exact KeepsRes.refused
    | split
    | dsimp only
    | with_reducible apply Keeps.upd
    | with_reducible exact fun _ => rfl
    | exact wF.off rfl

theorem State.modSmb_keeps {s0 : State} {s : State} {f : Smb → Smb} (wF : Free F [.smb]) (hK : Keeps F s0 s) :
    Keeps F s0 (State.modSmb s f) := by
  unfold State.modSmb
  repeat' first
    | with_reducible assumption
    | exact wF.sub rfl
    | dsimp only
    | with_reducible apply Keeps.upd
    | with_reducible exact fun _ => rfl
    | exact wF.off rfl

theorem State.smbNote_keeps {s0 : State} {s : State} {refused : Bool} {unpowered : Bool} {n : Nat} (wF : Free F [.smb]) (hK : Keeps F s0 s) :
    Keeps F s0 (State.smbNote s refused unpowered n) := by
  unfold State.smbNote
  repeat' first
    | with_reducible assumption
    | exact wF.sub rfl
    | with_reducible apply State.modSmb_keeps
    | dsimp only
    | with_reducible apply Keeps.upd
    | with_reducible exact fun _ => rfl
    | exact wF.off rfl

theorem State.smbRead_keeps {s0 : State} {s : State} {width : Nat} (wF : Free F [.smb]) (hK : Keeps F s0 s) :
    Keeps F s0 (State.smbRead s width) := by
  unfold State.smbRead
  repeat' first
    | with_reducible assumption
    | exact wF.sub rfl
    | with_reducible apply State.modSmb_keeps
    | with_reducible apply State.smbNote_keeps
    | with_reducible apply Keeps.ite
    | split
    | dsimp only
    | with_reducible apply Keeps.upd
    | with_reducible exact fun _ => rfl
    | exact wF.off rfl

theorem State.smbWrite_keeps {s0 : State} {s : State} {width : Nat} {v : Nat} (wF : Free F [.pins, .regs, .staged, .once, .mem, .cache, .hbm, .cores, .te, .ge, .seqs, .objs, .loader, .host, .fab, .uu, .surv, .pwr, .sec, .recd, .smb, .free]) (hK : Keeps F s0 s) :
    Keeps F s0 (State.smbWrite s width v) := by
  unfold State.smbWrite
  repeat' first
    | with_reducible assumption
    | exact wF.sub rfl
    | with_reducible apply State.smbNote_keeps
    | with_reducible apply State.writeCtl_keeps
    | with_reducible apply Keeps.ite
    | split
    | dsimp only
    | with_reducible apply Keeps.upd
    | with_reducible exact fun _ => rfl
    | exact wF.off rfl

theorem execAddr_keeps {s0 : State} {offset : W32} {pecOk : Bool} {s : State} (wF : Free F [.smb]) (hK : Keeps F s0 s) :
    KeepsRes F s0 (execAddr offset pecOk s) := by
  unfold execAddr
  repeat' first
    | with_reducible assumption
    | exact wF.sub rfl
    | with_reducible apply State.modSmb_keeps
    | with_reducible apply Keeps.ite
    | with_reducible apply KeepsRes.next
    | exact KeepsRes.refused
    | split
    | dsimp only
    | with_reducible apply Keeps.upd
    | with_reducible exact fun _ => rfl
    | exact wF.off rfl

theorem execRd32_keeps {s0 : State} {s : State} (wF : Free F [.smb]) (hK : Keeps F s0 s) :
    KeepsRes F s0 (execRd32 s) := by
  unfold execRd32
  repeat' first
    | with_reducible assumption
    | exact wF.sub rfl
    | with_reducible apply State.smbRead_keeps
    | with_reducible apply KeepsRes.next
    | exact KeepsRes.refused
    | dsimp only
    | with_reducible apply Keeps.upd
    | with_reducible exact fun _ => rfl
    | exact wF.off rfl

theorem execRd64_keeps {s0 : State} {s : State} (wF : Free F [.smb]) (hK : Keeps F s0 s) :
    KeepsRes F s0 (execRd64 s) := by
  unfold execRd64
  repeat' first
    | with_reducible assumption
    | exact wF.sub rfl
    | with_reducible apply State.smbRead_keeps
    | with_reducible apply KeepsRes.next
    | exact KeepsRes.refused
    | dsimp only
    | with_reducible apply Keeps.upd
    | with_reducible exact fun _ => rfl
    | exact wF.off rfl

theorem execWr32_keeps {s0 : State} {value : W32} {pecOk : Bool} {s : State} (wF : Free F [.pins, .regs, .staged, .once, .mem, .cache, .hbm, .cores, .te, .ge, .seqs, .objs, .loader, .host, .fab, .uu, .surv, .pwr, .sec, .recd, .smb, .free]) (hK : Keeps F s0 s) :
    KeepsRes F s0 (execWr32 value pecOk s) := by
  unfold execWr32
  repeat' first
    | with_reducible assumption
    | exact wF.sub rfl
    | with_reducible apply State.smbWrite_keeps
    | with_reducible apply Keeps.ite
    | with_reducible apply KeepsRes.next
    | exact KeepsRes.refused
    | split
    | dsimp only
    | with_reducible apply Keeps.upd
    | with_reducible exact fun _ => rfl
    | exact wF.off rfl

theorem execWr64_keeps {s0 : State} {value : W64} {pecOk : Bool} {s : State} (wF : Free F [.pins, .regs, .staged, .once, .mem, .cache, .hbm, .cores, .te, .ge, .seqs, .objs, .loader, .host, .fab, .uu, .surv, .pwr, .sec, .recd, .smb, .free]) (hK : Keeps F s0 s) :
    KeepsRes F s0 (execWr64 value pecOk s) := by
  unfold execWr64
  repeat' first
    | with_reducible assumption
    | exact wF.sub rfl
    | with_reducible apply State.smbWrite_keeps
    | with_reducible apply Keeps.ite
    | with_reducible apply KeepsRes.next
    | exact KeepsRes.refused
    | split
    | dsimp only
    | with_reducible apply Keeps.upd
    | with_reducible exact fun _ => rfl
    | exact wF.off rfl

theorem execStatus_keeps {s0 : State} {s : State} (wF : Free F [.smb]) (hK : Keeps F s0 s) :
    KeepsRes F s0 (execStatus s) := by
  unfold execStatus
  repeat' first
    | with_reducible assumption
    | exact wF.sub rfl
    | with_reducible apply State.modSmb_keeps
    | with_reducible apply Keeps.ite
    | with_reducible apply KeepsRes.next
    | exact KeepsRes.refused
    | split
    | dsimp only
    | with_reducible apply Keeps.upd
    | with_reducible exact fun _ => rfl
    | exact wF.off rfl

theorem execAlertResponse_keeps {s0 : State} {s : State} (wF : Free F [.pins, .smb]) (hK : Keeps F s0 s) :
    KeepsRes F s0 (execAlertResponse s) := by
  unfold execAlertResponse
  repeat' first
    | with_reducible assumption
    | exact wF.sub rfl
    | with_reducible apply State.modPins_keeps
    | with_reducible apply State.modSmb_keeps
    | with_reducible apply Keeps.ite
    | with_reducible apply KeepsRes.next
    | exact KeepsRes.refused
    | split
    | dsimp only
    | with_reducible apply Keeps.upd
    | with_reducible exact fun _ => rfl
    | exact wF.off rfl

theorem State.capturePins_keeps {s0 : State} {s : State} {drive : Bool} (wF : Free F [.smb, .free]) (hK : Keeps F s0 s) :
    Keeps F s0 (State.capturePins s drive) := by
  unfold State.capturePins
  repeat' first
    | with_reducible assumption
    | exact wF.sub rfl
    | with_reducible apply State.draw_keeps
    | with_reducible apply State.modSmb_keeps
    | dsimp only
    | with_reducible apply Keeps.upd
    | with_reducible exact fun _ => rfl
    | exact wF.off rfl

theorem execTapInstruction_keeps {s0 : State} {op : TapOp} {s : State} (wF : Free F [.smb, .free]) (hK : Keeps F s0 s) :
    KeepsRes F s0 (execTapInstruction op s) := by
  unfold execTapInstruction
  repeat' first
    | with_reducible assumption
    | exact wF.sub rfl
    | with_reducible apply State.capturePins_keeps
    | with_reducible apply State.modSmb_keeps
    | with_reducible apply Keeps.ite
    | with_reducible apply KeepsRes.next
    | exact KeepsRes.refused
    | split
    | (with_reducible apply Keeps.of_fst; assumption)
    | (with_reducible apply Keeps.of_snd; assumption)
    | dsimp only
    | with_reducible apply Keeps.upd
    | with_reducible exact fun _ => rfl
    | exact wF.off rfl

end Sys2Proof.Machine
end

