-- ==== Sys2Proof/Laws/KeepsTwins.lean ====
section
/-! SUPPORT. What every step keeps: the functions of Machine/Twins.lean. -/

namespace Sys2Proof.Machine

open Sys2Proof

variable {F : Area → Bool}

theorem State.twinTouch_keeps {s0 : State} {s : State} {a : Nat} (wF : Free F [.surv]) (hK : Keeps F s0 s) :
    Keeps F s0 (State.twinTouch s a) := by
  unfold State.twinTouch
  repeat' first
    | with_reducible assumption
    | exact wF.sub rfl
    | with_reducible apply State.modSurv_keeps

theorem State.modTwin_keeps {s0 : State} {s : State} {slot : Nat} {job : Nat} {f : Twin → Twin} (wF : Free F [.surv]) (hK : Keeps F s0 s) :
    Keeps F s0 (State.modTwin s slot job f) := by
  unfold State.modTwin
  repeat' first
    | with_reducible assumption
    | exact wF.sub rfl
    | with_reducible apply State.modSurv_keeps

theorem State.reserveHere_keeps {s0 : State} {s : State} {slot : Nat} {m : List Byte} (wF : Free F [.surv]) (hK : Keeps F s0 s) :
    KeepsOpt F s0 (State.reserveHere s slot m) := by
  unfold State.reserveHere
  repeat' first
    | with_reducible assumption
    | exact wF.sub rfl
    | with_reducible apply State.modSurv_keeps
    | with_reducible apply Keeps.ite
    | with_reducible apply KeepsOpt.some
    | exact KeepsOpt.none
    | split
    | dsimp only

theorem State.rewindPage_keeps {s0 s : State} {w : Twin} {v : Nat × List Byte} (wF : Free F [.regs, .mem, .cache, .hbm, .pwr]) (h : Keeps F s0 s) : Keeps F s0 (State.rewindPage s w v) := by
  unfold State.rewindPage
  split
  · exact State.pageMoved_keeps (wF.sub rfl) (State.mendHalves_keeps (wF.sub rfl) (Keeps.setMem (wF _ (by decide)) (State.dropRange_keeps (wF.sub rfl) h) fun m => cellPuts_wf m _ _))
  · exact h

theorem State.rewindTwin_keeps {s0 : State} {s : State} {slot : Nat} {job : Nat} (wF : Free F [.regs, .mem, .cache, .hbm, .surv, .pwr]) (hK : Keeps F s0 s) :
    Keeps F s0 (State.rewindTwin s slot job) := by
  unfold State.rewindTwin
  repeat' first
    | with_reducible assumption
    | exact wF.sub rfl
    | with_reducible apply State.modTwin_keeps
    | with_reducible apply State.rewindPage_keeps
    | (with_reducible apply Keeps.foldl; intro _ _ _)
    | split

theorem State.discardTwin_keeps {s0 : State} {s : State} {slot : Nat} {job : Nat} (wF : Free F [.surv]) (hK : Keeps F s0 s) :
    Keeps F s0 (State.discardTwin s slot job) := by
  unfold State.discardTwin
  repeat' first
    | with_reducible assumption
    | exact wF.sub rfl
    | with_reducible apply State.modSurv_keeps

theorem State.takeMail_keeps {s0 : State} {s : State} {slot : Nat} {m : List Byte} (wF : Free F [.regs, .mem, .cache, .hbm, .surv, .pwr]) (hK : Keeps F s0 s) :
    KeepsOpt F s0 (State.takeMail s slot m) := by
  unfold State.takeMail
  repeat' first
    | with_reducible assumption
    | exact wF.sub rfl
    | with_reducible apply State.discardTwin_keeps
    | with_reducible apply State.modTwin_keeps
    | with_reducible apply State.reserveHere_keeps
    | with_reducible apply State.rewindTwin_keeps
    | refine KeepsOpt.of (by assumption) (State.reserveHere_keeps (wF.sub rfl) ?_)
    | with_reducible apply KeepsOpt.some
    | exact KeepsOpt.none
    | split

theorem State.mailHere_keeps {s0 s : State} {slot a : Nat} (wF : Free F [.regs, .mem, .cache, .hbm, .fab, .surv, .pwr, .recd]) (h : Keeps F s0 s) : KeepsOpt F s0 (State.mailHere s slot a) := by
  unfold State.mailHere
  split
  · exact KeepsOpt.map (State.takeMail_keeps (wF.sub rfl) h) fun t k => State.hbmWrite_keeps (wF.sub rfl) k
  · exact KeepsOpt.some h

end Sys2Proof.Machine
end

