-- ==== Sys2Proof/Laws/KeepsFabric.lean ====
section
/-! SUPPORT. What every step keeps: the functions of Machine/Fabric.lean. -/

namespace Sys2Proof.Machine

open Sys2Proof

variable {F : Area → Bool}

theorem State.forward_keeps {s0 : State} {s : State} {h : FabHdr} (wF : Free F [.regs, .fab]) (hK : Keeps F s0 s) :
    Keeps F s0 (State.forward s h) := by
  unfold State.forward
  repeat' first
    | with_reducible assumption
    | exact wF.sub rfl
    | with_reducible apply State.bump_keeps
    | with_reducible apply State.putOut_keeps
    | with_reducible apply State.respond_keeps
    | with_reducible apply Keeps.ite
    | split

theorem State.reject_keeps {s0 : State} {s : State} {h : FabHdr} {code : Nat} (wF : Free F [.regs, .fab, .surv, .recd]) (hK : Keeps F s0 s) :
    Keeps F s0 (State.reject s h code) := by
  unfold State.reject
  repeat' first
    | with_reducible assumption
    | exact wF.sub rfl
    | with_reducible apply State.bump_keeps
    | with_reducible apply State.raise_keeps
    | with_reducible apply State.respond_keeps
    | with_reducible apply Keeps.ite

theorem State.receive_keeps {s0 s : State} {op : Nat} {h : FabHdr} {own : State → State} (wF : Free F [.regs, .fab]) (k : Keeps F s0 s)
    (hf : ∀ t, Keeps F s0 t → Keeps F s0 (own t)) : Keeps F s0 (State.receive s op h own) := by
  unfold State.receive
  repeat' first
    | with_reducible assumption
    | exact wF.sub rfl
    | with_reducible apply State.forward_keeps
    | with_reducible apply hf
    | split

theorem State.heldRead_keeps {s0 : State} {s : State} {slot : Nat} {g : Held} {n : Nat} (wF : Free F [.free]) (hK : Keeps F s0 s) :
    Keeps F s0 (State.heldRead s slot g n).2 := by
  unfold State.heldRead
  repeat' first
    | with_reducible assumption
    | exact wF.sub rfl
    | with_reducible apply State.draw_keeps
    | (with_reducible apply Keeps.foldl2; intro _ _ _)
    | split

theorem State.controlWrite_keeps {s0 : State} {s : State} {off : Nat} {l : List (Nat × Byte)} (wF : Free F [.pins, .regs, .staged, .once, .mem, .cache, .hbm, .cores, .te, .ge, .seqs, .objs, .loader, .host, .fab, .uu, .surv, .pwr, .sec, .recd, .free]) (hK : Keeps F s0 s) :
    Keeps F s0 (State.controlWrite s off l) := by
  unfold State.controlWrite
  repeat' first
    | with_reducible assumption
    | exact wF.sub rfl
    | with_reducible apply State.writeCtl_keeps
    | with_reducible apply Keeps.ite
    | (with_reducible apply Keeps.foldl; intro _ _ _)
    | split
    | dsimp only

theorem State.heldWrite_keeps {s0 s : State} {g : Held} {l : List (Nat × Byte)} (wF : Free F [.pins, .regs, .staged, .once, .mem, .cache, .hbm, .cores, .te, .ge, .seqs, .objs, .loader, .host, .fab, .uu, .surv, .pwr, .sec, .recd, .free]) (hK : Keeps F s0 s) : Keeps F s0 (State.heldWrite s g l) := by
  unfold State.heldWrite
  split
  · exact Keeps.foldl (fun t e k => State.hbmWrite_keeps (wF.sub rfl) (State.twinTouch_keeps (wF.sub rfl) k)) hK
  · refine Keeps.setMem (wF _ (by decide)) hK fun v => ?_
    generalize s.mem = m at v
    induction cutStores l generalizing m with
    | nil => exact v
    | cons e l ih => exact ih _ (cellPuts_wf v _ _)
  · exact State.controlWrite_keeps (wF.sub rfl) hK
  · exact hK

theorem State.holdRequest_keeps {s0 : State} {s : State} {c : Nat} {load : Bool} {h : FabHdr} {a : Nat} {l : List (Nat × Byte)} (wF : Free F [.cores]) (hK : Keeps F s0 s) :
    Keeps F s0 (State.holdRequest s c load h a l) := by
  unfold State.holdRequest
  repeat' first
    | with_reducible assumption
    | exact wF.sub rfl
    | with_reducible apply State.modCore_keeps

theorem State.noteStore_keeps {s0 : State} {s : State} {h : FabHdr} {code : Nat} (wF : Free F [.fab]) (hK : Keeps F s0 s) :
    Keeps F s0 (State.noteStore s h code) := by
  unfold State.noteStore
  repeat' first
    | with_reducible assumption
    | exact wF.sub rfl
    | with_reducible apply State.modFab_keeps

theorem State.storeLine_keeps {s0 : State} {s : State} {l : List Piece} {bytes : List (Nat × Byte)} (wF : Free F [.regs, .mem, .cache, .hbm, .fab, .surv, .pwr, .recd, .free]) (hK : Keeps F s0 s) :
    Keeps F s0 (State.storeLine s l bytes) := by
  unfold State.storeLine
  repeat' first
    | with_reducible assumption
    | exact wF.sub rfl
    | with_reducible apply State.cacheWrite_keeps
    | (with_reducible apply Keeps.foldl; intro _ _ _)
    | split

theorem State.storeHere_keeps {s0 : State} {s : State} {h : FabHdr} {bytes : List (Nat × Byte)} (wF : Free F [.pins, .regs, .staged, .once, .mem, .cache, .hbm, .cores, .te, .ge, .seqs, .objs, .loader, .host, .fab, .uu, .surv, .pwr, .sec, .recd, .free]) (hK : Keeps F s0 s) :
    Keeps F s0 (State.storeHere s h bytes) := by
  unfold State.storeHere
  repeat' first
    | with_reducible assumption
    | exact wF.sub rfl
    | with_reducible apply State.heldWrite_keeps
    | with_reducible apply State.holdRequest_keeps
    | with_reducible apply State.noteStore_keeps
    | with_reducible apply State.reject_keeps
    | with_reducible apply State.respond_keeps
    | with_reducible apply State.storeLine_keeps
    | with_reducible apply Keeps.ite
    | split

theorem execLineStore_keeps {s0 : State} {hdr : FabHdr} {mask : BitVec 128} {data : List Byte} {s : State} (wF : Free F [.pins, .regs, .staged, .once, .mem, .cache, .hbm, .cores, .te, .ge, .seqs, .objs, .loader, .host, .fab, .uu, .surv, .pwr, .sec, .recd, .free]) (hK : Keeps F s0 s) :
    KeepsRes F s0 (execLineStore hdr mask data s) := by
  unfold execLineStore
  repeat' first
    | with_reducible assumption
    | exact wF.sub rfl
    | with_reducible apply State.guarded_keeps
    | (with_reducible refine State.receive_keeps (wF.sub rfl) ?_ (fun _ _ => ?_))
    | with_reducible apply State.storeHere_keeps
    | with_reducible apply KeepsRes.next

theorem State.loadHere_keeps {s0 : State} {s : State} {h : FabHdr} {mask : BitVec 128} {uncorrectable : Bool} (wF : Free F [.regs, .cache, .cores, .objs, .fab, .surv, .pwr, .recd, .free]) (hK : Keeps F s0 s) :
    Keeps F s0 (State.loadHere s h mask uncorrectable) := by
  unfold State.loadHere
  repeat' first
    | with_reducible assumption
    | exact wF.sub rfl
    | with_reducible apply State.heldRead_keeps
    | with_reducible apply State.holdRequest_keeps
    | with_reducible apply State.readPieces_keeps
    | with_reducible apply State.reject_keeps
    | with_reducible apply State.respond_keeps
    | with_reducible apply Keeps.ite
    | split

theorem execLineLoad_keeps {s0 : State} {hdr : FabHdr} {mask : BitVec 128} {uncorrectable : Bool} {s : State} (wF : Free F [.regs, .cache, .cores, .objs, .fab, .surv, .pwr, .recd, .free]) (hK : Keeps F s0 s) :
    KeepsRes F s0 (execLineLoad hdr mask uncorrectable s) := by
  unfold execLineLoad
  repeat' first
    | with_reducible assumption
    | exact wF.sub rfl
    | with_reducible apply State.loadHere_keeps
    | (with_reducible refine State.receive_keeps (wF.sub rfl) ?_ (fun _ _ => ?_))
    | with_reducible apply KeepsRes.next

theorem State.fetchHere_keeps {s0 : State} {s : State} {h : FabHdr} (wF : Free F [.regs, .cache, .objs, .fab, .surv, .pwr, .recd]) (hK : Keeps F s0 s) :
    Keeps F s0 (State.fetchHere s h) := by
  unfold State.fetchHere
  repeat' first
    | with_reducible assumption
    | exact wF.sub rfl
    | with_reducible apply State.readDescs_keeps
    | with_reducible apply State.reject_keeps
    | with_reducible apply State.respond_keeps
    | with_reducible apply Keeps.ite
    | split
    | dsimp only

theorem execDescFetch_keeps {s0 : State} {hdr : FabHdr} {s : State} (wF : Free F [.regs, .cache, .objs, .fab, .surv, .pwr, .recd]) (hK : Keeps F s0 s) :
    KeepsRes F s0 (execDescFetch hdr s) := by
  unfold execDescFetch
  repeat' first
    | with_reducible assumption
    | exact wF.sub rfl
    | with_reducible apply State.fetchHere_keeps
    | (with_reducible refine State.receive_keeps (wF.sub rfl) ?_ (fun _ _ => ?_))
    | with_reducible apply KeepsRes.next

theorem State.atomicAt_keeps {s0 : State} {s : State} {l : List Piece} {op : AtomicKind} {v : Nat} (wF : Free F [.regs, .mem, .cache, .hbm, .fab, .surv, .pwr, .recd, .free]) (hK : Keeps F s0 s) :
    Keeps F s0 (State.atomicAt s l op v) := by
  unfold State.atomicAt
  repeat' first
    | with_reducible assumption
    | exact wF.sub rfl
    | with_reducible apply State.writePieces_keeps

theorem State.atomicHere_keeps {s0 : State} {s : State} {h : FabHdr} {op : AtomicKind} {v : Nat} (wF : Free F [.regs, .mem, .cache, .hbm, .objs, .fab, .surv, .pwr, .recd, .free]) (hK : Keeps F s0 s) :
    Keeps F s0 (State.atomicHere s h op v) := by
  unfold State.atomicHere
  repeat' first
    | with_reducible assumption
    | exact wF.sub rfl
    | with_reducible apply State.atomicAt_keeps
    | with_reducible apply State.fetchPieces_keeps
    | with_reducible apply State.noteStore_keeps
    | with_reducible apply State.reject_keeps
    | with_reducible apply State.respond_keeps
    | with_reducible apply Keeps.ite
    | split

theorem execFabricAtomic_keeps {s0 : State} {hdr : FabHdr} {op : AtomicKind} {operand : W64} {s : State} (wF : Free F [.regs, .mem, .cache, .hbm, .objs, .fab, .surv, .pwr, .recd, .free]) (hK : Keeps F s0 s) :
    KeepsRes F s0 (execFabricAtomic hdr op operand s) := by
  unfold execFabricAtomic
  repeat' first
    | with_reducible assumption
    | exact wF.sub rfl
    | with_reducible apply State.atomicHere_keeps
    | with_reducible apply State.guarded_keeps
    | (with_reducible refine State.receive_keeps (wF.sub rfl) ?_ (fun _ _ => ?_))
    | with_reducible apply KeepsRes.next

theorem State.flagWaits_keeps {s0 : State} {s : State} {h : FabHdr} (wF : Free F [.fab]) (hK : Keeps F s0 s) :
    Keeps F s0 (State.flagWaits s h) := by
  unfold State.flagWaits
  repeat' first
    | with_reducible assumption
    | exact wF.sub rfl
    | with_reducible apply State.modFab_keeps

theorem execFlag_keeps {s0 : State} {hdr : FabHdr} {s : State} (wF : Free F [.regs, .cache, .objs, .fab, .surv, .pwr, .recd]) (hK : Keeps F s0 s) :
    KeepsRes F s0 (execFlag hdr s) := by
  unfold execFlag
  repeat' first
    | with_reducible assumption
    | exact wF.sub rfl
    | with_reducible apply State.flagWaits_keeps
    | with_reducible apply State.readDescs_keeps
    | (with_reducible refine State.receive_keeps (wF.sub rfl) ?_ (fun _ _ => ?_))
    | with_reducible apply State.reject_keeps
    | with_reducible apply Keeps.ite
    | with_reducible apply KeepsRes.next
    | exact KeepsRes.refused
    | split
    | dsimp only

theorem State.markerHere_keeps {s0 : State} {s : State} {h : FabHdr} (wF : Free F [.regs, .mem, .cache, .hbm, .objs, .fab, .surv, .pwr, .recd]) (hK : Keeps F s0 s) :
    Keeps F s0 (State.markerHere s h) := by
  unfold State.markerHere
  repeat' first
    | with_reducible assumption
    | exact wF.sub rfl
    | with_reducible apply State.fetchLine_keeps
    | with_reducible apply State.hbmWrite_keeps
    | with_reducible apply State.mailHere_keeps
    | with_reducible apply State.reject_keeps
    | with_reducible apply State.respond_keeps
    | refine KeepsOpt.of (by assumption) (State.mailHere_keeps (wF.sub rfl) ?_)
    | with_reducible apply Keeps.ite
    | split
    | dsimp only

theorem State.flagHere_keeps {s0 : State} {s : State} {h : FabHdr} (wF : Free F [.regs, .mem, .cache, .hbm, .objs, .fab, .surv, .pwr, .recd, .free]) (hK : Keeps F s0 s) :
    Keeps F s0 (State.flagHere s h) := by
  unfold State.flagHere
  repeat' first
    | with_reducible assumption
    | exact wF.sub rfl
    | with_reducible apply State.add64_keeps
    | with_reducible apply State.fetchPieces_keeps
    | with_reducible apply State.reject_keeps
    | with_reducible apply State.respond_keeps
    | with_reducible apply Keeps.ite
    | split

theorem execFlagApplied_keeps {s0 : State} {idx : Nat} {s : State} (wF : Free F [.regs, .mem, .cache, .hbm, .objs, .fab, .surv, .pwr, .recd, .free]) (hK : Keeps F s0 s) :
    KeepsRes F s0 (execFlagApplied idx s) := by
  unfold execFlagApplied
  repeat' first
    | with_reducible assumption
    | exact wF.sub rfl
    | with_reducible apply State.flagHere_keeps
    | with_reducible apply State.guarded_keeps
    | with_reducible apply State.markerHere_keeps
    | with_reducible apply State.modFab_keeps
    | with_reducible apply State.respond_keeps
    | with_reducible apply Keeps.ite
    | with_reducible apply KeepsRes.next
    | exact KeepsRes.refused
    | split

theorem execToken_keeps {s0 : State} {hdr : FabHdr} {rank : Nat} {channel : Nat} {s : State} (wF : Free F [.regs, .cores, .te, .objs, .loader, .fab, .surv, .recd, .free]) (hK : Keeps F s0 s) :
    KeepsRes F s0 (execToken hdr rank channel s) := by
  unfold execToken
  repeat' first
    | with_reducible assumption
    | exact wF.sub rfl
    | with_reducible apply State.deliverToken_keeps
    | (with_reducible refine State.receive_keeps (wF.sub rfl) ?_ (fun _ _ => ?_))
    | with_reducible apply State.reject_keeps
    | with_reducible apply State.respond_keeps
    | with_reducible apply Keeps.ite
    | with_reducible apply KeepsRes.next
    | exact KeepsRes.refused
    | split

theorem State.readTrig_keeps {s0 : State} {s : State} {x : Nat} {proc : Nat} (wF : Free F [.regs, .cache, .objs, .pwr]) (hK : Keeps F s0 s) :
    Keeps F s0 (State.readTrig s x proc) := by
  unfold State.readTrig
  repeat' first
    | with_reducible assumption
    | exact wF.sub rfl
    | with_reducible apply State.fetchPieces_keeps
    | split

theorem State.setTrig_keeps {s0 : State} {s : State} {x : Nat} {a : Nat} {v : Nat} (wF : Free F [.regs, .mem, .cache, .hbm, .fab, .surv, .pwr, .recd, .free]) (hK : Keeps F s0 s) :
    Keeps F s0 (State.setTrig s x a v) := by
  unfold State.setTrig
  repeat' first
    | with_reducible assumption
    | exact wF.sub rfl
    | with_reducible apply State.writePieces_keeps
    | split

theorem State.takeTrig_keeps {s0 : State} {s : State} {h : FabHdr} {e : Nat} {x : Nat} {proc : Nat} {arg : W32} {base : Nat} {k : TrigBlock} (wF : Free F [.regs, .mem, .cache, .hbm, .cores, .te, .objs, .loader, .fab, .surv, .pwr, .recd, .free]) (hK : Keeps F s0 s) :
    Keeps F s0 (State.takeTrig s h e x proc arg base k) := by
  unfold State.takeTrig
  repeat' first
    | with_reducible assumption
    | exact wF.sub rfl
    | with_reducible apply State.bump_keeps
    | with_reducible apply State.deliverToken_keeps
    | with_reducible apply State.reject_keeps
    | with_reducible apply State.respond_keeps
    | with_reducible apply State.setTrig_keeps
    | with_reducible apply State.writePieces_keeps
    | with_reducible apply Keeps.ite
    | split

theorem execFabricTrigger_keeps {s0 : State} {hdr : FabHdr} {proc : Nat} {argument : W32} {s : State} (wF : Free F [.regs, .mem, .cache, .hbm, .cores, .te, .objs, .loader, .fab, .surv, .pwr, .recd, .free]) (hK : Keeps F s0 s) :
    KeepsRes F s0 (execFabricTrigger hdr proc argument s) := by
  unfold execFabricTrigger
  repeat' first
    | with_reducible assumption
    | exact wF.sub rfl
    | with_reducible apply State.guarded_keeps
    | with_reducible apply State.readDescs_keeps
    | with_reducible apply State.readTrig_keeps
    | (with_reducible refine State.receive_keeps (wF.sub rfl) ?_ (fun _ _ => ?_))
    | with_reducible apply State.reject_keeps
    | with_reducible apply State.takeTrig_keeps
    | with_reducible apply Keeps.ite
    | with_reducible apply KeepsRes.next
    | exact KeepsRes.refused
    | split
    | dsimp only

theorem State.collHere_keeps {s0 : State} {s : State} {h : FabHdr} {e : Nat} {m : CollMsg} (wF : Free F [.regs, .cores, .objs, .host, .fab, .uu]) (hK : Keeps F s0 s) :
    Keeps F s0 (State.collHere s h e m) := by
  unfold State.collHere
  repeat' first
    | with_reducible assumption
    | exact wF.sub rfl
    | with_reducible apply State.failColl_keeps
    | with_reducible apply State.modColl_keeps
    | with_reducible apply State.openColl_keeps
    | with_reducible apply State.respond_keeps
    | with_reducible apply Keeps.ite
    | split

theorem execFabricColl_keeps {s0 : State} {hdr : FabHdr} {msg : CollMsg} {s : State} (wF : Free F [.regs, .cores, .objs, .host, .fab, .uu, .surv, .recd]) (hK : Keeps F s0 s) :
    KeepsRes F s0 (execFabricColl hdr msg s) := by
  unfold execFabricColl
  repeat' first
    | with_reducible assumption
    | exact wF.sub rfl
    | with_reducible apply State.collHere_keeps
    | (with_reducible refine State.receive_keeps (wF.sub rfl) ?_ (fun _ _ => ?_))
    | with_reducible apply State.reject_keeps
    | with_reducible apply Keeps.ite
    | with_reducible apply KeepsRes.next
    | exact KeepsRes.refused
    | split

theorem State.pushProxy_keeps {s0 : State} {s : State} {f : Nat} {node : Nat} {value : Nat} {code : Nat} {cause : Option Nat} (wF : Free F [.regs, .objs, .host, .fab]) (hK : Keeps F s0 s) :
    Keeps F s0 (State.pushProxy s f node value code cause) := by
  unfold State.pushProxy
  repeat' first
    | with_reducible assumption
    | exact wF.sub rfl
    | with_reducible apply State.modCtx_keeps
    | with_reducible apply State.modFence_keeps
    | with_reducible apply State.setFenceErr_keeps
    | with_reducible apply State.wake_keeps
    | with_reducible apply Keeps.ite
    | split

theorem execFencePush_keeps {s0 : State} {hdr : FabHdr} {homeFence : Nat} {value : W64} {code : Nat} {cause : Option Nat} {s : State} (wF : Free F [.regs, .objs, .host, .fab, .surv, .recd]) (hK : Keeps F s0 s) :
    KeepsRes F s0 (execFencePush hdr homeFence value code cause s) := by
  unfold execFencePush
  repeat' first
    | with_reducible assumption
    | exact wF.sub rfl
    | with_reducible apply State.pushProxy_keeps
    | (with_reducible refine State.receive_keeps (wF.sub rfl) ?_ (fun _ _ => ?_))
    | with_reducible apply State.reject_keeps
    | with_reducible apply State.respond_keeps
    | with_reducible apply Keeps.ite
    | with_reducible apply KeepsRes.next
    | exact KeepsRes.refused
    | (with_reducible apply Keeps.foldl; intro _ _ _)
    | split

theorem execFenceForward_keeps {s0 : State} {hdr : FabHdr} {fence : Nat} {value : W64} {s : State} (wF : Free F [.regs, .objs, .host, .fab, .surv, .recd]) (hK : Keeps F s0 s) :
    KeepsRes F s0 (execFenceForward hdr fence value s) := by
  unfold execFenceForward
  repeat' first
    | with_reducible assumption
    | exact wF.sub rfl
    | with_reducible apply State.modFence_keeps
    | (with_reducible refine State.receive_keeps (wF.sub rfl) ?_ (fun _ _ => ?_))
    | with_reducible apply State.reject_keeps
    | with_reducible apply State.respond_keeps
    | with_reducible apply State.signal_keeps
    | with_reducible apply Keeps.ite
    | with_reducible apply KeepsRes.next
    | exact KeepsRes.refused
    | split

end Sys2Proof.Machine
end

