-- ==== Sys2Proof/Laws/KeepsQuery.lean ====
section
/-! SUPPORT. What every step keeps: the functions of Machine/Query.lean. -/

namespace Sys2Proof.Machine

open Sys2Proof

variable {F : Area → Bool}

theorem execQuery_keeps {s0 : State} {port : Nat} {queue : Nat} {s : State} (wF : Free F [.regs, .objs, .host, .fab, .surv, .recd]) (hK : Keeps F s0 s) :
    KeepsRes F s0 (execQuery port queue s) := by
  unfold execQuery
  repeat' first
    | with_reducible assumption
    | exact wF.sub rfl
    | with_reducible apply State.completeWith_keeps
    | (with_reducible refine State.runPacket_keeps (wF.sub rfl) ?_ (fun _ _ _ => ?_))
    | exact KeepsCmd.refuse
    | with_reducible apply KeepsCmd.rightFirst
    | with_reducible apply KeepsCmd.ok
    | exact KeepsCmd.error
    | with_reducible apply Keeps.ite
    | with_reducible apply KeepsRes.next
    | exact KeepsRes.refused
    | split

end Sys2Proof.Machine
end

