-- ==== Sys2Proof/Laws/KeepsStreams.lean ====
section
/-! SUPPORT. What every step keeps: the functions of Machine/Streams.lean. -/

namespace Sys2Proof.Machine

open Sys2Proof

variable {F : Area → Bool}

theorem execNop_keeps {s0 : State} {core : Nat} {eng : Engine} {s : State} (wF : Free F [.regs, .cache, .cores, .te, .objs, .loader, .pwr]) (hK : Keeps F s0 s) :
    KeepsRes F s0 (execNop core eng s) := by
  unfold execNop
  repeat' first
    | with_reducible assumption
    | exact wF.sub rfl
    | with_reducible apply State.takeSignal_keeps
    | with_reducible apply State.takeWait_keeps
    | with_reducible apply KeepsRes.next
    | exact KeepsRes.refused
    | split
    | dsimp only

theorem execSeqBroadcast_keeps {s0 : State} {sq : Nat} {eng : Engine} {imageBad : Bool} {s : State} (wF : Free F [.regs, .cores, .te, .seqs, .objs, .loader]) (hK : Keeps F s0 s) :
    KeepsRes F s0 (execSeqBroadcast sq eng imageBad s) := by
  unfold execSeqBroadcast
  repeat' first
    | with_reducible assumption
    | exact wF.sub rfl
    | with_reducible apply State.bump_keeps
    | with_reducible apply State.faultCtx_keeps
    | with_reducible apply State.modCore_keeps
    | with_reducible apply State.setSeq_keeps
    | with_reducible apply Keeps.ite
    | with_reducible apply KeepsRes.next
    | exact KeepsRes.refused
    | (with_reducible apply Keeps.foldl; intro _ _ _)
    | split

theorem execWaitEntry_keeps {s0 : State} {core : Nat} {eng : Engine} {s : State} (wF : Free F [.regs, .cache, .cores, .te, .objs, .loader, .pwr]) (hK : Keeps F s0 s) :
    KeepsRes F s0 (execWaitEntry core eng s) := by
  unfold execWaitEntry
  repeat' first
    | with_reducible assumption
    | exact wF.sub rfl
    | with_reducible apply State.takeWait_keeps
    | with_reducible apply KeepsRes.next
    | exact KeepsRes.refused
    | split

theorem execSignalEntry_keeps {s0 : State} {core : Nat} {eng : Engine} {s : State} (wF : Free F [.regs, .cache, .cores, .te, .objs, .loader, .pwr]) (hK : Keeps F s0 s) :
    KeepsRes F s0 (execSignalEntry core eng s) := by
  unfold execSignalEntry
  repeat' first
    | with_reducible assumption
    | exact wF.sub rfl
    | with_reducible apply State.takeSignal_keeps
    | with_reducible apply KeepsRes.next
    | exact KeepsRes.refused
    | split

theorem execTokenVisible_keeps {s0 : State} {core : Nat} {eng : Engine} {s : State} (wF : Free F [.regs, .cores, .te, .objs, .loader]) (hK : Keeps F s0 s) :
    KeepsRes F s0 (execTokenVisible core eng s) := by
  unfold execTokenVisible
  repeat' first
    | with_reducible assumption
    | exact wF.sub rfl
    | with_reducible apply State.setCore_keeps
    | with_reducible apply State.tokenArrives_keeps
    | with_reducible apply Keeps.ite
    | with_reducible apply KeepsRes.next
    | exact KeepsRes.refused
    | split

theorem execWaitCycle_keeps {s0 : State} {core : Nat} {s : State} (wF : Free F [.regs, .te, .objs, .loader]) (hK : Keeps F s0 s) :
    KeepsRes F s0 (execWaitCycle core s) := by
  unfold execWaitCycle
  repeat' first
    | with_reducible assumption
    | exact wF.sub rfl
    | with_reducible apply State.faultCore_keeps
    | with_reducible apply State.setBit_keeps
    | with_reducible apply Keeps.ite
    | with_reducible apply KeepsRes.next

theorem execWaitStall_keeps {s0 : State} {ctx : Nat} {s : State} (wF : Free F [.regs, .te, .objs, .loader]) (hK : Keeps F s0 s) :
    KeepsRes F s0 (execWaitStall ctx s) := by
  unfold execWaitStall
  repeat' first
    | with_reducible assumption
    | exact wF.sub rfl
    | with_reducible apply State.faultCtx_keeps
    | with_reducible apply State.stallBarrier_keeps
    | with_reducible apply Keeps.ite
    | with_reducible apply KeepsRes.next
    | exact KeepsRes.refused
    | split

theorem execEndStream_keeps {s0 : State} {core : Nat} {eng : Engine} {s : State} (wF : Free F [.regs, .cache, .cores, .te, .ge, .seqs, .objs, .loader, .host, .fab, .surv, .pwr, .recd]) (hK : Keeps F s0 s) :
    KeepsRes F s0 (execEndStream core eng s) := by
  unfold execEndStream
  repeat' first
    | with_reducible assumption
    | exact wF.sub rfl
    | with_reducible apply State.endKernelOf_keeps
    | with_reducible apply State.faultCore_keeps
    | with_reducible apply State.modCore_keeps
    | with_reducible apply State.take_keeps
    | with_reducible apply Keeps.ite
    | with_reducible apply KeepsRes.next
    | exact KeepsRes.refused
    | split

end Sys2Proof.Machine
end

