-- ==== Sys2Proof/Laws/KeepsTick.lean ====
section
/-! SUPPORT. What every step keeps: the functions of Machine/Tick.lean. -/

namespace Sys2Proof.Machine

open Sys2Proof

variable {F : Area → Bool}

theorem State.holdTime_keeps {s0 : State} {s : State} (wF : Free F [.regs]) (hK : Keeps F s0 s) :
    Keeps F s0 (State.holdTime s) := by
  unfold State.holdTime
  repeat' first
    | with_reducible assumption
    | exact wF.sub rfl
    | with_reducible apply State.bump_keeps
    | (with_reducible apply Keeps.foldl; intro _ _ _)

theorem tick_keeps {s0 : State} {s : State} (wF : Free F [.regs, .ge, .objs, .ticks]) (hK : Keeps F s0 s) :
    Keeps F s0 (tick s) := by
  unfold tick
  repeat' first
    | with_reducible assumption
    | exact wF.sub rfl
    | with_reducible apply State.holdTime_keeps
    | with_reducible apply Keeps.ite
    | split
    | dsimp only
    | with_reducible apply Keeps.upd
    | with_reducible exact fun _ => rfl
    | exact wF.off rfl

end Sys2Proof.Machine
end

