-- ==== Sys2Proof/Laws/KeepsStep.lean ====
section
/-! SUPPORT. What every step keeps: every command with the areas of the state that it may touch, the tick, and the step. -/

namespace Sys2Proof.Machine

open Sys2Proof

variable {F : Area → Bool}

/-- The areas of the state that a command may change. -/
def touches : Instr → List Area
  | .nop _ _ => [.regs, .cache, .cores, .te, .objs, .loader, .pwr]
  | .seqBroadcast _ _ _ => [.regs, .cores, .te, .seqs, .objs, .loader]
  | .waitEntry _ _ => [.regs, .cache, .cores, .te, .objs, .loader, .pwr]
  | .signalEntry _ _ => [.regs, .cache, .cores, .te, .objs, .loader, .pwr]
  | .tokenVisible _ _ => [.regs, .cores, .te, .objs, .loader]
  | .waitCycle _ => [.regs, .te, .objs, .loader]
  | .waitStall _ => [.regs, .te, .objs, .loader]
  | .passOpen _ => [.regs, .mem, .cache, .hbm, .cores, .seqs, .objs, .fab, .surv, .pwr, .recd, .free]
  | .passSettle _ _ => [.regs, .cache, .cores, .objs, .pwr]
  | .passEndCredit _ => [.seqs]
  | .settleToken _ => [.regs, .mem, .cache, .hbm, .cores, .seqs, .objs, .host, .fab, .surv, .pwr, .recd, .free]
  | .settleDoneToken _ => [.regs, .mem, .cache, .hbm, .cores, .seqs, .objs, .host, .fab, .surv, .pwr, .recd, .free]
  | .endStream _ _ => [.regs, .cache, .cores, .te, .ge, .seqs, .objs, .loader, .host, .fab, .surv, .pwr, .recd]
  | .matmul _ _ => [.regs, .cache, .cores, .te, .objs, .loader, .host, .fab, .pwr]
  | .drain _ => [.regs, .cache, .cores, .te, .ge, .seqs, .objs, .loader, .host, .fab, .surv, .pwr, .recd]
  | .tileSwap _ _ => [.regs, .cores, .te, .ge, .seqs, .objs, .loader, .host, .fab, .surv, .recd]
  | .tileDrainCommit _ _ => [.regs, .mem, .cache, .hbm, .cores, .te, .ge, .seqs, .objs, .loader, .host, .fab, .surv, .pwr,
      .recd, .free]
  | .txAccept _ _ => [.regs, .mem, .cache, .hbm, .cores, .te, .ge, .seqs, .objs, .loader, .host, .fab, .surv, .pwr, .recd, .free]
  | .launch _ => [.regs, .cache, .cores, .ge, .objs, .pwr]
  | .blockStart _ => [.ge]
  | .launchComplete _ _ => [.regs, .cores, .te, .ge, .seqs, .objs, .loader, .host, .fab, .surv, .recd]
  | .integerAndCompare _ _ _ => [.regs, .cache, .cores, .te, .ge, .objs, .loader]
  | .fpArithmetic _ _ _ _ => [.regs, .cache, .cores, .te, .ge, .objs, .loader, .host, .fab, .free]
  | .localStoreLoad _ _ _ _ => [.regs, .cache, .cores, .te, .ge, .objs, .loader]
  | .localStoreStore _ _ _ _ => [.regs, .mem, .cache, .cores, .te, .ge, .objs, .loader]
  | .localStoreAtomic _ _ _ _ => [.regs, .mem, .cache, .cores, .te, .ge, .objs, .loader]
  | .narrowStore _ _ _ => [.regs, .mem, .cache, .hbm, .cores, .te, .ge, .seqs, .objs, .loader, .host, .fab, .surv, .pwr, .recd,
      .free]
  | .laneExchange _ _ _ => [.regs, .cache, .cores, .te, .ge, .objs, .loader]
  | .rndw _ _ _ => [.regs, .cache, .cores, .te, .ge, .objs, .loader]
  | .rndk _ _ _ => [.regs, .cache, .cores, .te, .ge, .objs, .loader]
  | .bra _ _ _ => [.regs, .cache, .cores, .te, .ge, .objs, .loader]
  | .brx _ _ _ => [.regs, .cache, .cores, .te, .ge, .objs, .loader]
  | .exit _ _ _ => [.regs, .cache, .cores, .te, .ge, .objs, .loader]
  | .bar _ _ _ => [.regs, .cache, .cores, .te, .ge, .objs, .loader]
  | .barrierStall _ _ => [.regs, .te, .objs, .loader]
  | .mrBegin _ _ _ => [.regs, .cache, .cores, .te, .ge, .objs, .loader]
  | .mrEnd _ _ _ => [.regs, .cache, .cores, .te, .ge, .objs, .loader]
  | .mx _ _ _ => [.regs, .cache, .cores, .te, .ge, .objs, .loader]
  | .copy _ _ => [.regs, .mem, .cache, .hbm, .cores, .te, .seqs, .objs, .loader, .host, .fab, .uu, .surv, .pwr, .recd, .free]
  | .copyRemote _ _ => [.regs, .mem, .cache, .hbm, .cores, .te, .seqs, .objs, .loader, .host, .fab, .uu, .surv, .pwr, .recd,
      .free]
  | .hintPrefetch _ => [.regs, .cache, .cores, .te, .objs, .loader, .host, .fab, .pwr]
  | .hintPin _ => [.regs, .mem, .cache, .hbm, .cores, .te, .objs, .loader, .host, .fab, .surv, .pwr, .recd, .free]
  | .hintUnpin _ => [.regs, .cache, .cores, .te, .objs, .loader, .host, .fab, .pwr]
  | .hintDead _ => [.regs, .cache, .cores, .te, .objs, .loader, .host, .fab, .pwr]
  | .reduceScatter _ _ => [.regs, .mem, .cache, .hbm, .cores, .te, .seqs, .objs, .loader, .host, .fab, .uu, .surv, .pwr, .recd,
      .free]
  | .allGather _ _ => [.regs, .mem, .cache, .hbm, .cores, .te, .seqs, .objs, .loader, .host, .fab, .uu, .surv, .pwr, .recd, .free]
  | .allReduce _ _ => [.regs, .mem, .cache, .hbm, .cores, .te, .seqs, .objs, .loader, .host, .fab, .uu, .surv, .pwr, .recd, .free]
  | .finitenessVote _ => [.regs, .mem, .cache, .hbm, .cores, .te, .seqs, .objs, .loader, .host, .fab, .uu, .surv, .pwr, .recd,
      .free]
  | .collComplete _ => [.regs, .mem, .cache, .hbm, .cores, .seqs, .objs, .host, .fab, .surv, .pwr, .recd, .free]
  | .update _ => [.regs, .mem, .cache, .hbm, .cores, .te, .objs, .loader, .host, .fab, .uu, .surv, .pwr, .recd, .free]
  | .voteOutcome _ => [.regs, .mem, .cache, .hbm, .cores, .objs, .fab, .uu, .surv, .pwr, .recd, .free]
  | .updateBlockCommit _ _ _ => [.regs, .mem, .cache, .hbm, .cores, .te, .seqs, .objs, .loader, .host, .fab, .uu, .surv, .pwr,
      .recd, .free]
  | .rule3Combine _ _ => [.regs, .mem, .cache, .hbm, .te, .objs, .loader, .fab, .uu, .surv, .pwr, .recd]
  | .updateComplete _ => [.regs, .mem, .cache, .hbm, .cores, .te, .ge, .seqs, .objs, .loader, .host, .fab, .uu, .surv, .pwr,
      .recd, .free]
  | .fence _ => [.regs, .cache, .cores, .te, .objs, .loader, .host, .fab, .surv, .pwr, .recd]
  | .trigger _ => [.regs, .cache, .cores, .te, .objs, .loader, .host, .fab, .pwr]
  | .atomic _ => [.regs, .mem, .cache, .hbm, .cores, .te, .objs, .loader, .host, .fab, .surv, .pwr, .recd, .free]
  | .hostPut _ _ => [.regs, .mem, .cache, .hbm, .cores, .te, .seqs, .objs, .loader, .host, .fab, .uu, .surv, .pwr, .recd, .free]
  | .transferComplete _ _ => [.regs, .mem, .cache, .hbm, .cores, .te, .ge, .seqs, .objs, .loader, .host, .fab, .uu, .surv, .pwr,
      .recd, .free]
  | .lineFill _ _ _ _ => [.regs, .mem, .cache, .hbm, .cores, .te, .seqs, .objs, .loader, .host, .fab, .uu, .surv, .pwr, .recd,
      .free]
  | .cowPageWaitExpiry _ _ => [.surv, .recd]
  | .scrubPass _ _ => [.regs, .hbm, .surv, .pwr, .recd]
  | .rowRemapDone _ _ _ => [.regs, .hbm, .surv, .pwr, .recd]
  | .evacGo _ _ => [.regs, .hbm, .surv, .recd]
  | .evacCopyDone _ _ => [.regs, .hbm, .pwr]
  | .pcRetrainDone _ _ _ => [.regs, .hbm, .surv, .recd]
  | .evacCopyBackDone _ _ => [.regs, .hbm, .pwr]
  | .wipeComplete _ => [.regs, .mem, .cache, .hbm, .cores, .objs, .pwr]
  | .packetArrival _ _ => [.regs, .objs, .host, .fab, .surv, .recd]
  | .packetHead _ _ => [.regs, .objs, .host, .fab]
  | .pktNop _ _ => [.regs, .objs, .host, .fab, .surv, .recd]
  | .write _ _ => [.regs, .mem, .cache, .hbm, .objs, .host, .fab, .surv, .pwr, .recd, .free]
  | .read _ _ => [.regs, .cache, .objs, .host, .fab, .surv, .pwr, .recd]
  | .load _ _ => [.regs, .objs, .loader, .host, .fab]
  | .loadStart => [.regs, .cache, .objs, .loader, .pwr]
  | .loadDone => [.regs, .objs, .loader, .host, .fab, .surv, .recd, .free]
  | .unload _ _ => [.regs, .objs, .loader, .host, .fab, .surv, .recd]
  | .pktLaunch _ _ => [.regs, .cache, .hbm, .cores, .ge, .seqs, .objs, .host, .fab]
  | .query _ _ => [.regs, .objs, .host, .fab, .surv, .recd]
  | .partCreate _ _ => [.regs, .objs, .host, .fab, .surv, .recd]
  | .partDestroy _ _ => [.regs, .objs, .host, .fab, .surv, .recd]
  | .contextCreate _ _ => [.regs, .objs, .host, .fab, .surv, .recd, .free]
  | .contextKill _ _ => [.regs, .objs, .loader, .host, .fab, .surv, .recd]
  | .teardownAbortDone _ => [.ident, .regs, .cache, .hbm, .cores, .te, .ge, .seqs, .objs, .loader, .host, .fab, .uu, .surv, .recd]
  | .contextDestroy _ _ => [.regs, .objs, .host, .fab, .surv, .recd]
  | .contextQuery _ _ => [.regs, .objs, .host, .fab, .surv, .recd]
  | .contextPreempt _ _ => [.regs, .seqs, .objs, .host, .fab, .surv, .recd]
  | .teSaveDone _ _ _ => [.regs, .cores, .te, .ge, .seqs, .objs, .loader, .host, .fab, .surv, .recd, .free]
  | .geSaveDone _ => [.regs, .cores, .te, .ge, .seqs, .objs, .host, .fab, .surv, .recd, .free]
  | .queueSaveDone _ => [.regs, .cores, .te, .ge, .seqs, .objs, .host, .fab, .surv, .recd, .free]
  | .localStoreSave _ _ => [.regs, .mem, .cache, .cores, .te, .objs, .loader]
  | .contextResume _ _ => [.regs, .cache, .hbm, .cores, .te, .ge, .seqs, .objs, .host, .fab, .surv, .recd]
  | .resumeDone _ _ => [.regs, .mem, .cache, .te, .seqs, .objs, .loader, .host, .fab, .surv, .recd, .free]
  | .jobCreate _ _ => [.regs, .objs, .host, .fab, .surv, .recd]
  | .jobJoin _ _ => [.regs, .objs, .host, .fab, .surv, .recd]
  | .jobDestroy _ _ => [.regs, .cores, .objs, .host, .fab, .surv, .recd]
  | .queueCreate _ _ => [.regs, .objs, .host, .fab, .surv, .recd]
  | .queueDestroy _ _ => [.regs, .objs, .host, .fab, .surv, .recd]
  | .memAlloc _ _ => [.regs, .objs, .host, .fab, .surv, .recd]
  | .memFree _ _ => [.regs, .cache, .hbm, .objs, .host, .fab, .surv, .recd]
  | .memMap _ _ => [.regs, .objs, .host, .fab, .surv, .recd]
  | .memUnmap _ _ => [.regs, .cache, .hbm, .objs, .host, .fab, .surv, .recd]
  | .memUnmapComplete _ => [.regs, .objs, .host, .fab, .surv, .recd]
  | .memShare _ _ => [.regs, .objs, .host, .fab, .surv, .recd]
  | .descTableSet _ _ => [.regs, .objs, .host, .fab, .surv, .recd]
  | .fenceCreate _ _ => [.regs, .objs, .host, .fab, .surv, .recd]
  | .fenceDestroy _ _ => [.regs, .objs, .host, .fab, .surv, .recd]
  | .fenceShare _ _ => [.regs, .objs, .host, .fab, .surv, .recd]
  | .fenceImport _ _ => [.regs, .objs, .host, .fab, .surv, .recd, .free]
  | .fenceReset _ _ => [.regs, .objs, .host, .fab, .surv, .recd]
  | .eventCreate _ _ => [.regs, .objs, .host, .fab, .surv, .recd]
  | .eventDestroy _ _ => [.regs, .objs, .host, .fab, .surv, .recd]
  | .burobFlit _ _ _ _ => [.regs, .mem, .cache, .hbm, .cores, .seqs, .objs, .host, .fab, .uu, .surv, .pwr, .recd, .free]
  | .keepaliveSend _ => [.regs]
  | .burobLinkDown _ => [.regs, .host, .surv, .recd]
  | .burobTrained _ _ _ => [.regs, .mem, .cache, .hbm, .cores, .seqs, .objs, .loader, .host, .fab, .uu, .surv, .pwr, .recd, .free]
  | .burobTrainRetry _ => [.regs, .host]
  | .laneErrorWindow _ _ _ _ => [.regs, .host, .fab, .surv, .recd]
  | .halfRetrainDone _ _ _ => [.regs, .host, .fab, .surv, .recd]
  | .halfRetry _ _ => [.regs, .host, .fab, .surv, .recd]
  | .graceExpiry _ => [.regs, .objs, .loader, .host, .fab, .surv, .recd]
  | .cqHeadWrite _ _ _ => [.regs, .mem, .cache, .hbm, .cores, .seqs, .objs, .host, .fab, .uu, .surv, .pwr, .recd, .free]
  | .cqWaitTimeout _ _ => [.regs, .mem, .cache, .hbm, .cores, .seqs, .objs, .host, .fab, .uu, .surv, .pwr, .recd, .free]
  | .trayFlit _ _ _ _ => [.regs, .mem, .cache, .hbm, .cores, .seqs, .objs, .host, .fab, .uu, .surv, .pwr, .recd, .free]
  | .trayLinkTrained _ _ _ _ => [.regs, .fab, .surv, .recd]
  | .trayLinkDown _ => [.regs, .mem, .cache, .hbm, .cores, .seqs, .objs, .host, .fab, .uu, .surv, .pwr, .recd, .free]
  | .scaleoutPortTrained _ _ _ => [.regs, .fab, .surv, .recd]
  | .scaleoutPortDown _ => [.regs, .mem, .cache, .hbm, .cores, .seqs, .objs, .host, .fab, .uu, .surv, .pwr, .recd, .free]
  | .scaleoutWidthChangeDone _ _ => [.regs, .fab, .surv, .recd]
  | .lineStore _ _ _ => [.pins, .regs, .staged, .once, .mem, .cache, .hbm, .cores, .te, .ge, .seqs, .objs, .loader, .host, .fab,
      .uu, .surv, .pwr, .sec, .recd, .free]
  | .lineLoad _ _ _ => [.regs, .cache, .cores, .objs, .fab, .surv, .pwr, .recd, .free]
  | .descFetch _ => [.regs, .cache, .objs, .fab, .surv, .pwr, .recd]
  | .fabricAtomic _ _ _ => [.regs, .mem, .cache, .hbm, .objs, .fab, .surv, .pwr, .recd, .free]
  | .flag _ => [.regs, .cache, .objs, .fab, .surv, .pwr, .recd]
  | .flagApplied _ => [.regs, .mem, .cache, .hbm, .objs, .fab, .surv, .pwr, .recd, .free]
  | .token _ _ _ => [.regs, .cores, .te, .objs, .loader, .fab, .surv, .recd, .free]
  | .fabricTrigger _ _ _ => [.regs, .mem, .cache, .hbm, .cores, .te, .objs, .loader, .fab, .surv, .pwr, .recd, .free]
  | .fabricColl _ _ => [.regs, .cores, .objs, .host, .fab, .uu, .surv, .recd]
  | .fencePush _ _ _ _ _ => [.regs, .objs, .host, .fab, .surv, .recd]
  | .fenceForward _ _ _ => [.regs, .objs, .host, .fab, .surv, .recd]
  | .lossNotice _ _ _ => [.regs, .fab]
  | .lossNoticeHoldEnd _ => [.regs, .mem, .cache, .hbm, .cores, .seqs, .objs, .host, .fab, .uu, .surv, .pwr, .recd, .free]
  | .fabricResponse _ _ => [.regs, .mem, .cache, .hbm, .cores, .seqs, .objs, .host, .fab, .uu, .surv, .pwr, .recd, .free]
  | .fabricRequestTimeout _ => [.regs, .mem, .cache, .hbm, .cores, .seqs, .objs, .host, .fab, .uu, .surv, .pwr, .recd, .free]
  | .readmit _ _ => [.regs, .fab]
  | .pairGo => [.regs, .fab, .surv, .recd]
  | .pairRequestReceived _ _ => [.regs, .fab, .surv, .recd]
  | .pairTimeout => [.surv, .recd]
  | .unpair => [.regs, .mem, .cache, .hbm, .cores, .objs, .fab, .uu, .surv, .pwr, .recd, .free]
  | .swapReq => [.surv]
  | .protectEnable _ => [.regs, .fab, .surv, .free]
  | .protectDisable _ => [.regs, .mem, .cache, .hbm, .cores, .objs, .fab, .uu, .surv, .pwr, .recd, .free]
  | .mirrorStoreAck _ _ => [.regs, .fab, .surv, .recd]
  | .stepCloseReady _ => [.regs, .mem, .cache, .hbm, .cores, .objs, .fab, .uu, .surv, .pwr, .recd, .free]
  | .markerAck _ => [.regs, .mem, .cache, .hbm, .cores, .objs, .fab, .uu, .surv, .pwr, .recd, .free]
  | .sealWritebackDone _ => [.regs, .mem, .cache, .hbm, .cores, .objs, .fab, .uu, .surv, .pwr, .recd, .free]
  | .sealStreamAck _ => [.regs, .fab, .surv, .recd]
  | .restoreGo _ _ => [.surv]
  | .restoreComplete _ _ _ _ _ => [.regs, .mem, .cache, .hbm, .objs, .host, .fab, .surv, .pwr, .recd, .free]
  | .spareGo _ => [.regs, .cores, .surv, .recd]
  | .replacementTilesEnded => [.seqs, .surv]
  | .spareIn => [.ident, .regs, .mem, .cache, .cores, .te, .ge, .seqs, .objs, .surv, .recd]
  | .operatingMinute _ => [.regs, .cores, .surv, .pwr, .sec, .recd]
  | .slowLoop _ => [.pins, .regs, .cores, .surv, .pwr, .recd, .free]
  | .fastLoop _ _ => [.cores, .pwr]
  | .clockGate _ => [.cores, .pwr]
  | .powerGate _ => [.regs, .cores]
  | .coreWakeRequest _ => [.regs, .cores, .pwr]
  | .rampAdmitted _ => [.cores, .pwr]
  | .coreWakeDone _ _ => [.ident, .regs, .mem, .cores, .te, .objs, .loader, .fab, .surv, .recd]
  | .dieGate _ => [.pwr]
  | .dieWakeRequest _ => [.regs, .pwr]
  | .dieWakeDone _ => [.regs, .mem, .cache, .hbm, .cores, .seqs, .objs, .host, .fab, .uu, .surv, .pwr, .recd, .free]
  | .inputRise => [.pins, .recd, .ticks]
  | .duskReady _ => [.pins, .recd]
  | .pwrEnAssert => [.pins]
  | .powerGood => [.pins, .regs, .staged, .once, .mem, .cache, .hbm, .cores, .te, .ge, .seqs, .objs, .loader, .host, .fab, .uu,
      .surv, .pwr, .sec, .free]
  | .pwrEnDeassert => [.pins, .regs, .staged, .once, .mem, .cache, .hbm, .cores, .te, .ge, .seqs, .objs, .loader, .host, .fab,
      .uu, .surv, .pwr, .sec, .recd]
  | .inputFault _ _ => [.pins, .regs, .staged, .once, .mem, .cache, .hbm, .cores, .te, .ge, .seqs, .objs, .loader, .host, .fab,
      .uu, .surv, .pwr, .sec, .recd, .free]
  | .resetNAssert => [.pins, .regs, .staged, .once, .mem, .cache, .hbm, .cores, .te, .ge, .seqs, .objs, .loader, .host, .fab,
      .uu, .surv, .pwr, .sec]
  | .resetNRelease => [.pins, .regs, .staged, .once, .mem, .cache, .hbm, .cores, .te, .ge, .seqs, .objs, .loader, .host, .fab,
      .uu, .surv, .pwr, .sec, .free]
  | .bootDone _ => [.pins, .regs, .staged, .once, .mem, .cache, .hbm, .cores, .te, .ge, .seqs, .objs, .loader, .host, .fab, .uu,
      .surv, .pwr, .sec, .recd, .free]
  | .wakeNLow => [.pins, .regs, .pwr]
  | .wakeNRelease => [.pins]
  | .thermNLow => [.pins, .regs, .cores, .surv, .pwr, .recd, .free]
  | .thermNRelease => [.pins, .pwr]
  | .pllLossOfLock _ _ => [.regs, .te, .objs, .loader, .surv, .pwr, .recd, .free]
  | .pllRelockDone _ _ _ => [.ident, .regs, .mem, .cache, .hbm, .cores, .te, .seqs, .objs, .loader, .host, .fab, .uu, .surv,
      .pwr, .recd, .free]
  | .duskInputLoss => [.regs, .surv, .pwr, .recd]
  | .duskInputRestored => [.pwr]
  | .hubGo _ _ => [.regs, .mem, .cache, .hbm, .cores, .seqs, .objs, .host, .fab, .uu, .surv, .pwr, .sec, .recd, .free]
  | .hubFailureDetected _ => [.regs, .mem, .cache, .hbm, .cores, .seqs, .objs, .host, .fab, .uu, .surv, .pwr, .sec, .recd, .free]
  | .hubSelfTestDone _ _ => [.regs, .host, .fab, .surv, .sec, .recd]
  | .lcGo => [.pins, .regs, .staged, .once, .mem, .cache, .hbm, .cores, .te, .ge, .seqs, .objs, .loader, .host, .fab, .uu,
      .surv, .pwr, .sec]
  | .lifeCycleChangeDone => [.pins, .regs, .staged, .once, .mem, .cache, .hbm, .cores, .te, .ge, .seqs, .objs, .loader, .host,
      .fab, .uu, .surv, .pwr, .sec, .recd, .free]
  | .updGo => [.sec]
  | .updWriteDone _ => [.sec]
  | .unitActivation => [.regs, .surv, .sec, .recd]
  | .updCommit _ => [.surv, .sec, .recd]
  | .updAbort => [.surv, .sec, .recd]
  | .flashErase => [.sec]
  | .flashProgram => [.sec]
  | .flashOpDone _ => [.regs, .sec]
  | .attGo _ => [.sec]
  | .attReportDone => [.regs, .surv, .sec, .recd, .free]
  | .eventIntake => [.pins, .regs, .surv, .recd]
  | .flushNow => [.recd]
  | .logClear => [.recd]
  | .evLookup _ _ => [.recd]
  | .evLookupDone _ => [.recd]
  | .addr _ _ => [.smb]
  | .rd32 => [.smb]
  | .rd64 => [.smb]
  | .wr32 _ _ => [.pins, .regs, .staged, .once, .mem, .cache, .hbm, .cores, .te, .ge, .seqs, .objs, .loader, .host, .fab, .uu,
      .surv, .pwr, .sec, .recd, .smb, .free]
  | .wr64 _ _ => [.pins, .regs, .staged, .once, .mem, .cache, .hbm, .cores, .te, .ge, .seqs, .objs, .loader, .host, .fab, .uu,
      .surv, .pwr, .sec, .recd, .smb, .free]
  | .status => [.smb]
  | .alertResponse => [.pins, .smb]
  | .tapInstruction _ => [.smb, .free]
  | .registerWrite _ _ _ _ => [.pins, .regs, .staged, .once, .mem, .cache, .hbm, .cores, .te, .ge, .seqs, .objs, .loader, .host,
      .fab, .uu, .surv, .pwr, .sec, .recd, .free]
  | .issueRamp _ _ _ => [.regs, .te]
  | .inputFall => [.pins, .regs, .staged, .once, .mem, .cache, .hbm, .cores, .te, .ge, .seqs, .objs, .loader, .host, .fab, .uu,
      .surv, .pwr, .sec, .recd, .smb]
  | .inputOperatingRange _ => [.pins]
  | .flushDone _ => [.regs, .surv, .recd]

/-- Every command keeps what `Keeps` says, in whatever state it runs, for areas it does not touch. -/
theorem exec_keeps {s0 s : State} (c : Instr) (w : Free F (touches c)) (h : Keeps F s0 s) : KeepsRes F s0 (exec c s) := by
  cases c with
  | nop _ _ => exact execNop_keeps w h
  | seqBroadcast _ _ _ => exact execSeqBroadcast_keeps w h
  | waitEntry _ _ => exact execWaitEntry_keeps w h
  | signalEntry _ _ => exact execSignalEntry_keeps w h
  | tokenVisible _ _ => exact execTokenVisible_keeps w h
  | waitCycle _ => exact execWaitCycle_keeps w h
  | waitStall _ => exact execWaitStall_keeps w h
  | passOpen _ => exact execPassOpen_keeps w h
  | passSettle _ _ => exact execPassSettle_keeps w h
  | passEndCredit _ => exact execPassEndCredit_keeps w h
  | settleToken _ => exact execSettleToken_keeps w h
  | settleDoneToken _ => exact execSettleDoneToken_keeps w h
  | endStream _ _ => exact execEndStream_keeps w h
  | matmul _ _ => exact execMatmul_keeps w h
  | drain _ => exact execDrain_keeps w h
  | tileSwap _ _ => exact execTileSwap_keeps w h
  | tileDrainCommit _ _ => exact execTileDrainCommit_keeps w h
  | txAccept _ _ => exact execTxAccept_keeps w h
  | launch _ => exact execLaunch_keeps w h
  | blockStart _ => exact execBlockStart_keeps w h
  | launchComplete _ _ => exact execLaunchComplete_keeps w h
  | integerAndCompare _ _ _ => exact execIntegerAndCompare_keeps w h
  | fpArithmetic _ _ _ _ => exact execFpArithmetic_keeps w h
  | localStoreLoad _ _ _ _ => exact execLocalStoreLoad_keeps w h
  | localStoreStore _ _ _ _ => exact execLocalStoreStore_keeps w h
  | localStoreAtomic _ _ _ _ => exact execLocalStoreAtomic_keeps w h
  | narrowStore _ _ _ => exact execNarrowStore_keeps w h
  | laneExchange _ _ _ => exact execLaneExchange_keeps w h
  | rndw _ _ _ => exact execRndw_keeps w h
  | rndk _ _ _ => exact execRndk_keeps w h
  | bra _ _ _ => exact execBra_keeps w h
  | brx _ _ _ => exact execBrx_keeps w h
  | exit _ _ _ => exact execExit_keeps w h
  | bar _ _ _ => exact execBar_keeps w h
  | barrierStall _ _ => exact execBarrierStall_keeps w h
  | mrBegin _ _ _ => exact execMrBegin_keeps w h
  | mrEnd _ _ _ => exact execMrEnd_keeps w h
  | mx _ _ _ => exact execMx_keeps w h
  | copy _ _ => exact execCopy_keeps w h
  | copyRemote _ _ => exact execCopyRemote_keeps w h
  | hintPrefetch _ => exact execHintPrefetch_keeps w h
  | hintPin _ => exact execHintPin_keeps w h
  | hintUnpin _ => exact execHintUnpin_keeps w h
  | hintDead _ => exact execHintDead_keeps w h
  | reduceScatter _ _ => exact execReduceScatter_keeps w h
  | allGather _ _ => exact execAllGather_keeps w h
  | allReduce _ _ => exact execAllReduce_keeps w h
  | finitenessVote _ => exact execFinitenessVote_keeps w h
  | collComplete _ => exact execCollComplete_keeps w h
  | update _ => exact execUpdate_keeps w h
  | voteOutcome _ => exact execVoteOutcome_keeps w h
  | updateBlockCommit _ _ _ => exact execUpdateBlockCommit_keeps w h
  | rule3Combine _ _ => exact execRule3Combine_keeps w h
  | updateComplete _ => exact execUpdateComplete_keeps w h
  | fence _ => exact execFence_keeps w h
  | trigger _ => exact execTrigger_keeps w h
  | atomic _ => exact execAtomic_keeps w h
  | hostPut _ _ => exact execHostPut_keeps w h
  | transferComplete _ _ => exact execTransferComplete_keeps w h
  | lineFill _ _ _ _ => exact execLineFill_keeps w h
  | cowPageWaitExpiry _ _ => exact execCowPageWaitExpiry_keeps w h
  | scrubPass _ _ => exact execScrubPass_keeps w h
  | rowRemapDone _ _ _ => exact execRowRemapDone_keeps w h
  | evacGo _ _ => exact execEvacGo_keeps w h
  | evacCopyDone _ _ => exact execEvacCopyDone_keeps w h
  | pcRetrainDone _ _ _ => exact execPcRetrainDone_keeps w h
  | evacCopyBackDone _ _ => exact execEvacCopyBackDone_keeps w h
  | wipeComplete _ => exact execWipeComplete_keeps w h
  | packetArrival _ _ => exact execPacketArrival_keeps w h
  | packetHead _ _ => exact execPacketHead_keeps w h
  | pktNop _ _ => exact execPktNop_keeps w h
  | write _ _ => exact execWrite_keeps w h
  | read _ _ => exact execRead_keeps w h
  | load _ _ => exact execLoad_keeps w h
  | loadStart => exact execLoadStart_keeps w h
  | loadDone => exact execLoadDone_keeps w h
  | unload _ _ => exact execUnload_keeps w h
  | pktLaunch _ _ => exact execPktLaunch_keeps w h
  | query _ _ => exact execQuery_keeps w h
  | partCreate _ _ => exact execPartCreate_keeps w h
  | partDestroy _ _ => exact execPartDestroy_keeps w h
  | contextCreate _ _ => exact execContextCreate_keeps w h
  | contextKill _ _ => exact execContextKill_keeps w h
  | teardownAbortDone _ => exact execTeardownAbortDone_keeps w h
  | contextDestroy _ _ => exact execContextDestroy_keeps w h
  | contextQuery _ _ => exact execContextQuery_keeps w h
  | contextPreempt _ _ => exact execContextPreempt_keeps w h
  | teSaveDone _ _ _ => exact execTeSaveDone_keeps w h
  | geSaveDone _ => exact execGeSaveDone_keeps w h
  | queueSaveDone _ => exact execQueueSaveDone_keeps w h
  | localStoreSave _ _ => exact execLocalStoreSave_keeps w h
  | contextResume _ _ => exact execContextResume_keeps w h
  | resumeDone _ _ => exact execResumeDone_keeps w h
  | jobCreate _ _ => exact execJobCreate_keeps w h
  | jobJoin _ _ => exact execJobJoin_keeps w h
  | jobDestroy _ _ => exact execJobDestroy_keeps w h
  | queueCreate _ _ => exact execQueueCreate_keeps w h
  | queueDestroy _ _ => exact execQueueDestroy_keeps w h
  | memAlloc _ _ => exact execMemAlloc_keeps w h
  | memFree _ _ => exact execMemFree_keeps w h
  | memMap _ _ => exact execMemMap_keeps w h
  | memUnmap _ _ => exact execMemUnmap_keeps w h
  | memUnmapComplete _ => exact execMemUnmapComplete_keeps w h
  | memShare _ _ => exact execMemShare_keeps w h
  | descTableSet _ _ => exact execDescTableSet_keeps w h
  | fenceCreate _ _ => exact execFenceCreate_keeps w h
  | fenceDestroy _ _ => exact execFenceDestroy_keeps w h
  | fenceShare _ _ => exact execFenceShare_keeps w h
  | fenceImport _ _ => exact execFenceImport_keeps w h
  | fenceReset _ _ => exact execFenceReset_keeps w h
  | eventCreate _ _ => exact execEventCreate_keeps w h
  | eventDestroy _ _ => exact execEventDestroy_keeps w h
  | burobFlit _ _ _ _ => exact execBurobFlit_keeps w h
  | keepaliveSend _ => exact execKeepaliveSend_keeps w h
  | burobLinkDown _ => exact execBurobLinkDown_keeps w h
  | burobTrained _ _ _ => exact execBurobTrained_keeps w h
  | burobTrainRetry _ => exact execBurobTrainRetry_keeps w h
  | laneErrorWindow _ _ _ _ => exact execLaneErrorWindow_keeps w h
  | halfRetrainDone _ _ _ => exact execHalfRetrainDone_keeps w h
  | halfRetry _ _ => exact execHalfRetry_keeps w h
  | graceExpiry _ => exact execGraceExpiry_keeps w h
  | cqHeadWrite _ _ _ => exact execCqHeadWrite_keeps w h
  | cqWaitTimeout _ _ => exact execCqWaitTimeout_keeps w h
  | trayFlit _ _ _ _ => exact execTrayFlit_keeps w h
  | trayLinkTrained _ _ _ _ => exact execTrayLinkTrained_keeps w h
  | trayLinkDown _ => exact execTrayLinkDown_keeps w h
  | scaleoutPortTrained _ _ _ => exact execScaleoutPortTrained_keeps w h
  | scaleoutPortDown _ => exact execScaleoutPortDown_keeps w h
  | scaleoutWidthChangeDone _ _ => exact execScaleoutWidthChangeDone_keeps w h
  | lineStore _ _ _ => exact execLineStore_keeps w h
  | lineLoad _ _ _ => exact execLineLoad_keeps w h
  | descFetch _ => exact execDescFetch_keeps w h
  | fabricAtomic _ _ _ => exact execFabricAtomic_keeps w h
  | flag _ => exact execFlag_keeps w h
  | flagApplied _ => exact execFlagApplied_keeps w h
  | token _ _ _ => exact execToken_keeps w h
  | fabricTrigger _ _ _ => exact execFabricTrigger_keeps w h
  | fabricColl _ _ => exact execFabricColl_keeps w h
  | fencePush _ _ _ _ _ => exact execFencePush_keeps w h
  | fenceForward _ _ _ => exact execFenceForward_keeps w h
  | lossNotice _ _ _ => exact execLossNotice_keeps w h
  | lossNoticeHoldEnd _ => exact execLossNoticeHoldEnd_keeps w h
  | fabricResponse _ _ => exact execFabricResponse_keeps w h
  | fabricRequestTimeout _ => exact execFabricRequestTimeout_keeps w h
  | readmit _ _ => exact execReadmit_keeps w h
  | pairGo => exact execPairGo_keeps w h
  | pairRequestReceived _ _ => exact execPairRequestReceived_keeps w h
  | pairTimeout => exact execPairTimeout_keeps w h
  | unpair => exact execUnpair_keeps w h
  | swapReq => exact execSwapReq_keeps w h
  | protectEnable _ => exact execProtectEnable_keeps w h
  | protectDisable _ => exact execProtectDisable_keeps w h
  | mirrorStoreAck _ _ => exact execMirrorStoreAck_keeps w h
  | stepCloseReady _ => exact execStepCloseReady_keeps w h
  | markerAck _ => exact execMarkerAck_keeps w h
  | sealWritebackDone _ => exact execSealWritebackDone_keeps w h
  | sealStreamAck _ => exact execSealStreamAck_keeps w h
  | restoreGo _ _ => exact execRestoreGo_keeps w h
  | restoreComplete _ _ _ _ _ => exact execRestoreComplete_keeps w h
  | spareGo _ => exact execSpareGo_keeps w h
  | replacementTilesEnded => exact execReplacementTilesEnded_keeps w h
  | spareIn => exact execSpareIn_keeps w h
  | operatingMinute _ => exact execOperatingMinute_keeps w h
  | slowLoop _ => exact execSlowLoop_keeps w h
  | fastLoop _ _ => exact execFastLoop_keeps w h
  | clockGate _ => exact execClockGate_keeps w h
  | powerGate _ => exact execPowerGate_keeps w h
  | coreWakeRequest _ => exact execCoreWakeRequest_keeps w h
  | rampAdmitted _ => exact execRampAdmitted_keeps w h
  | coreWakeDone _ _ => exact execCoreWakeDone_keeps w h
  | dieGate _ => exact execDieGate_keeps w h
  | dieWakeRequest _ => exact execDieWakeRequest_keeps w h
  | dieWakeDone _ => exact execDieWakeDone_keeps w h
  | inputRise => exact execInputRise_keeps w h
  | duskReady _ => exact execDuskReady_keeps w h
  | pwrEnAssert => exact execPwrEnAssert_keeps w h
  | powerGood => exact execPowerGood_keeps w h
  | pwrEnDeassert => exact execPwrEnDeassert_keeps w h
  | inputFault _ _ => exact execInputFault_keeps w h
  | resetNAssert => exact execResetNAssert_keeps w h
  | resetNRelease => exact execResetNRelease_keeps w h
  | bootDone _ => exact execBootDone_keeps w h
  | wakeNLow => exact execWakeNLow_keeps w h
  | wakeNRelease => exact execWakeNRelease_keeps w h
  | thermNLow => exact execThermNLow_keeps w h
  | thermNRelease => exact execThermNRelease_keeps w h
  | pllLossOfLock _ _ => exact execPllLossOfLock_keeps w h
  | pllRelockDone _ _ _ => exact execPllRelockDone_keeps w h
  | duskInputLoss => exact execDuskInputLoss_keeps w h
  | duskInputRestored => exact execDuskInputRestored_keeps w h
  | hubGo _ _ => exact execHubGo_keeps w h
  | hubFailureDetected _ => exact execHubFailureDetected_keeps w h
  | hubSelfTestDone _ _ => exact execHubSelfTestDone_keeps w h
  | lcGo => exact execLcGo_keeps w h
  | lifeCycleChangeDone => exact execLifeCycleChangeDone_keeps w h
  | updGo => exact execUpdGo_keeps w h
  | updWriteDone _ => exact execUpdWriteDone_keeps w h
  | unitActivation => exact execUnitActivation_keeps w h
  | updCommit _ => exact execUpdCommit_keeps w h
  | updAbort => exact execUpdAbort_keeps w h
  | flashErase => exact execFlashErase_keeps w h
  | flashProgram => exact execFlashProgram_keeps w h
  | flashOpDone _ => exact execFlashOpDone_keeps w h
  | attGo _ => exact execAttGo_keeps w h
  | attReportDone => exact execAttReportDone_keeps w h
  | eventIntake => exact execEventIntake_keeps w h
  | flushNow => exact execFlushNow_keeps w h
  | logClear => exact execLogClear_keeps w h
  | evLookup _ _ => exact execEvLookup_keeps w h
  | evLookupDone _ => exact execEvLookupDone_keeps w h
  | addr _ _ => exact execAddr_keeps w h
  | rd32 => exact execRd32_keeps w h
  | rd64 => exact execRd64_keeps w h
  | wr32 _ _ => exact execWr32_keeps w h
  | wr64 _ _ => exact execWr64_keeps w h
  | status => exact execStatus_keeps w h
  | alertResponse => exact execAlertResponse_keeps w h
  | tapInstruction _ => exact execTapInstruction_keeps w h
  | registerWrite _ _ _ _ => exact execRegisterWrite_keeps w h
  | issueRamp _ _ _ => exact execIssueRamp_keeps w h
  | inputFall => exact execInputFall_keeps w h
  | inputOperatingRange _ => exact execInputOperatingRange_keeps w h
  | flushDone _ => exact execFlushDone_keeps w h

/-- An area that a command does not touch is the same after it. -/
theorem exec_same {c : Instr} {s t : State} (e : exec c s = .next t) (p : Area) (hp : (touches c).contains p = false) : p.same s t :=
  (exec_keeps (F := fun q => !(touches c).contains q) c (fun q hq => by simpa using hq) (Keeps.refl s) t e).same p (by simp only [hp]; rfl)

/-- What every command keeps. -/
theorem exec_next {c : Instr} {s t : State} (e : exec c s = .next t) : Keeps (fun _ => false) s t :=
  exec_keeps c (fun _ _ => rfl) (Keeps.refl s) t e

/-- A step keeps what `Keeps` says of the state without the command it takes from the queue. -/
theorem step_keeps {s t : State} (e : step s = .next t) : Keeps (fun _ => false) { s with pending := s.pending.tail } t := by
  unfold step at e
  split at e
  · rename_i h
    cases e
    have k : Keeps (fun _ => false) s (tick s) := tick_keeps (fun _ _ => rfl) (Keeps.refl s)
    exact ⟨k.wf, k.pending.trans (by simp [h]), k.grade, k.retired, k.count, fun _ hp => absurd hp Bool.false_ne_true⟩
  · rename_i c rest h
    have k := exec_next e
    exact ⟨k.wf, k.pending.trans (by simp [h]), k.grade, k.retired, k.count, fun _ hp => absurd hp Bool.false_ne_true⟩

end Sys2Proof.Machine
end

