-- ==== Sys2Proof/Laws/State.lean ====
section
/-! SUPPORT. The named updates of the state, one lemma for each field that an update leaves as it is. -/

namespace Sys2Proof.Machine

open Sys2Proof

/-! ### State.setReg -/

@[simp] theorem State.setReg_ident (s : State) (off : Nat) (v : Nat) : (s.setReg off v).ident = s.ident := rfl
@[simp] theorem State.setReg_pins (s : State) (off : Nat) (v : Nat) : (s.setReg off v).pins = s.pins := rfl
@[simp] theorem State.setReg_staged (s : State) (off : Nat) (v : Nat) : (s.setReg off v).staged = s.staged := rfl
@[simp] theorem State.setReg_once (s : State) (off : Nat) (v : Nat) : (s.setReg off v).once = s.once := rfl
@[simp] theorem State.setReg_mem (s : State) (off : Nat) (v : Nat) : (s.setReg off v).mem = s.mem := rfl
@[simp] theorem State.setReg_cache (s : State) (off : Nat) (v : Nat) : (s.setReg off v).cache = s.cache := rfl
@[simp] theorem State.setReg_hbm (s : State) (off : Nat) (v : Nat) : (s.setReg off v).hbm = s.hbm := rfl
@[simp] theorem State.setReg_cores (s : State) (off : Nat) (v : Nat) : (s.setReg off v).cores = s.cores := rfl
@[simp] theorem State.setReg_te (s : State) (off : Nat) (v : Nat) : (s.setReg off v).te = s.te := rfl
@[simp] theorem State.setReg_ge (s : State) (off : Nat) (v : Nat) : (s.setReg off v).ge = s.ge := rfl
@[simp] theorem State.setReg_seqs (s : State) (off : Nat) (v : Nat) : (s.setReg off v).seqs = s.seqs := rfl
@[simp] theorem State.setReg_objs (s : State) (off : Nat) (v : Nat) : (s.setReg off v).objs = s.objs := rfl
@[simp] theorem State.setReg_loader (s : State) (off : Nat) (v : Nat) : (s.setReg off v).loader = s.loader := rfl
@[simp] theorem State.setReg_host (s : State) (off : Nat) (v : Nat) : (s.setReg off v).host = s.host := rfl
@[simp] theorem State.setReg_fab (s : State) (off : Nat) (v : Nat) : (s.setReg off v).fab = s.fab := rfl
@[simp] theorem State.setReg_uu (s : State) (off : Nat) (v : Nat) : (s.setReg off v).uu = s.uu := rfl
@[simp] theorem State.setReg_surv (s : State) (off : Nat) (v : Nat) : (s.setReg off v).surv = s.surv := rfl
@[simp] theorem State.setReg_pwr (s : State) (off : Nat) (v : Nat) : (s.setReg off v).pwr = s.pwr := rfl
@[simp] theorem State.setReg_sec (s : State) (off : Nat) (v : Nat) : (s.setReg off v).sec = s.sec := rfl
@[simp] theorem State.setReg_recd (s : State) (off : Nat) (v : Nat) : (s.setReg off v).recd = s.recd := rfl
@[simp] theorem State.setReg_smb (s : State) (off : Nat) (v : Nat) : (s.setReg off v).smb = s.smb := rfl
@[simp] theorem State.setReg_ticks (s : State) (off : Nat) (v : Nat) : (s.setReg off v).ticks = s.ticks := rfl
@[simp] theorem State.setReg_free (s : State) (off : Nat) (v : Nat) : (s.setReg off v).free = s.free := rfl
@[simp] theorem State.setReg_pending (s : State) (off : Nat) (v : Nat) : (s.setReg off v).pending = s.pending := rfl

/-! ### State.bump -/

@[simp] theorem State.bump_ident (s : State) (off : Nat) (n : Nat) : (s.bump off n).ident = s.ident := rfl
@[simp] theorem State.bump_pins (s : State) (off : Nat) (n : Nat) : (s.bump off n).pins = s.pins := rfl
@[simp] theorem State.bump_staged (s : State) (off : Nat) (n : Nat) : (s.bump off n).staged = s.staged := rfl
@[simp] theorem State.bump_once (s : State) (off : Nat) (n : Nat) : (s.bump off n).once = s.once := rfl
@[simp] theorem State.bump_mem (s : State) (off : Nat) (n : Nat) : (s.bump off n).mem = s.mem := rfl
@[simp] theorem State.bump_cache (s : State) (off : Nat) (n : Nat) : (s.bump off n).cache = s.cache := rfl
@[simp] theorem State.bump_hbm (s : State) (off : Nat) (n : Nat) : (s.bump off n).hbm = s.hbm := rfl
@[simp] theorem State.bump_cores (s : State) (off : Nat) (n : Nat) : (s.bump off n).cores = s.cores := rfl
@[simp] theorem State.bump_te (s : State) (off : Nat) (n : Nat) : (s.bump off n).te = s.te := rfl
@[simp] theorem State.bump_ge (s : State) (off : Nat) (n : Nat) : (s.bump off n).ge = s.ge := rfl
@[simp] theorem State.bump_seqs (s : State) (off : Nat) (n : Nat) : (s.bump off n).seqs = s.seqs := rfl
@[simp] theorem State.bump_objs (s : State) (off : Nat) (n : Nat) : (s.bump off n).objs = s.objs := rfl
@[simp] theorem State.bump_loader (s : State) (off : Nat) (n : Nat) : (s.bump off n).loader = s.loader := rfl
@[simp] theorem State.bump_host (s : State) (off : Nat) (n : Nat) : (s.bump off n).host = s.host := rfl
@[simp] theorem State.bump_fab (s : State) (off : Nat) (n : Nat) : (s.bump off n).fab = s.fab := rfl
@[simp] theorem State.bump_uu (s : State) (off : Nat) (n : Nat) : (s.bump off n).uu = s.uu := rfl
@[simp] theorem State.bump_surv (s : State) (off : Nat) (n : Nat) : (s.bump off n).surv = s.surv := rfl
@[simp] theorem State.bump_pwr (s : State) (off : Nat) (n : Nat) : (s.bump off n).pwr = s.pwr := rfl
@[simp] theorem State.bump_sec (s : State) (off : Nat) (n : Nat) : (s.bump off n).sec = s.sec := rfl
@[simp] theorem State.bump_recd (s : State) (off : Nat) (n : Nat) : (s.bump off n).recd = s.recd := rfl
@[simp] theorem State.bump_smb (s : State) (off : Nat) (n : Nat) : (s.bump off n).smb = s.smb := rfl
@[simp] theorem State.bump_ticks (s : State) (off : Nat) (n : Nat) : (s.bump off n).ticks = s.ticks := rfl
@[simp] theorem State.bump_free (s : State) (off : Nat) (n : Nat) : (s.bump off n).free = s.free := rfl
@[simp] theorem State.bump_pending (s : State) (off : Nat) (n : Nat) : (s.bump off n).pending = s.pending := rfl

/-! ### State.setBit -/

@[simp] theorem State.setBit_ident (s : State) (off : Nat) (k : Nat) : (s.setBit off k).ident = s.ident := rfl
@[simp] theorem State.setBit_pins (s : State) (off : Nat) (k : Nat) : (s.setBit off k).pins = s.pins := rfl
@[simp] theorem State.setBit_staged (s : State) (off : Nat) (k : Nat) : (s.setBit off k).staged = s.staged := rfl
@[simp] theorem State.setBit_once (s : State) (off : Nat) (k : Nat) : (s.setBit off k).once = s.once := rfl
@[simp] theorem State.setBit_mem (s : State) (off : Nat) (k : Nat) : (s.setBit off k).mem = s.mem := rfl
@[simp] theorem State.setBit_cache (s : State) (off : Nat) (k : Nat) : (s.setBit off k).cache = s.cache := rfl
@[simp] theorem State.setBit_hbm (s : State) (off : Nat) (k : Nat) : (s.setBit off k).hbm = s.hbm := rfl
@[simp] theorem State.setBit_cores (s : State) (off : Nat) (k : Nat) : (s.setBit off k).cores = s.cores := rfl
@[simp] theorem State.setBit_te (s : State) (off : Nat) (k : Nat) : (s.setBit off k).te = s.te := rfl
@[simp] theorem State.setBit_ge (s : State) (off : Nat) (k : Nat) : (s.setBit off k).ge = s.ge := rfl
@[simp] theorem State.setBit_seqs (s : State) (off : Nat) (k : Nat) : (s.setBit off k).seqs = s.seqs := rfl
@[simp] theorem State.setBit_objs (s : State) (off : Nat) (k : Nat) : (s.setBit off k).objs = s.objs := rfl
@[simp] theorem State.setBit_loader (s : State) (off : Nat) (k : Nat) : (s.setBit off k).loader = s.loader := rfl
@[simp] theorem State.setBit_host (s : State) (off : Nat) (k : Nat) : (s.setBit off k).host = s.host := rfl
@[simp] theorem State.setBit_fab (s : State) (off : Nat) (k : Nat) : (s.setBit off k).fab = s.fab := rfl
@[simp] theorem State.setBit_uu (s : State) (off : Nat) (k : Nat) : (s.setBit off k).uu = s.uu := rfl
@[simp] theorem State.setBit_surv (s : State) (off : Nat) (k : Nat) : (s.setBit off k).surv = s.surv := rfl
@[simp] theorem State.setBit_pwr (s : State) (off : Nat) (k : Nat) : (s.setBit off k).pwr = s.pwr := rfl
@[simp] theorem State.setBit_sec (s : State) (off : Nat) (k : Nat) : (s.setBit off k).sec = s.sec := rfl
@[simp] theorem State.setBit_recd (s : State) (off : Nat) (k : Nat) : (s.setBit off k).recd = s.recd := rfl
@[simp] theorem State.setBit_smb (s : State) (off : Nat) (k : Nat) : (s.setBit off k).smb = s.smb := rfl
@[simp] theorem State.setBit_ticks (s : State) (off : Nat) (k : Nat) : (s.setBit off k).ticks = s.ticks := rfl
@[simp] theorem State.setBit_free (s : State) (off : Nat) (k : Nat) : (s.setBit off k).free = s.free := rfl
@[simp] theorem State.setBit_pending (s : State) (off : Nat) (k : Nat) : (s.setBit off k).pending = s.pending := rfl

/-! ### State.setField -/

@[simp] theorem State.setField_ident (s : State) (off : Nat) (lo : Nat) (w : Nat) (v : Nat) : (s.setField off lo w v).ident = s.ident := rfl
@[simp] theorem State.setField_pins (s : State) (off : Nat) (lo : Nat) (w : Nat) (v : Nat) : (s.setField off lo w v).pins = s.pins := rfl
@[simp] theorem State.setField_staged (s : State) (off : Nat) (lo : Nat) (w : Nat) (v : Nat) : (s.setField off lo w v).staged = s.staged := rfl
@[simp] theorem State.setField_once (s : State) (off : Nat) (lo : Nat) (w : Nat) (v : Nat) : (s.setField off lo w v).once = s.once := rfl
@[simp] theorem State.setField_mem (s : State) (off : Nat) (lo : Nat) (w : Nat) (v : Nat) : (s.setField off lo w v).mem = s.mem := rfl
@[simp] theorem State.setField_cache (s : State) (off : Nat) (lo : Nat) (w : Nat) (v : Nat) : (s.setField off lo w v).cache = s.cache := rfl
@[simp] theorem State.setField_hbm (s : State) (off : Nat) (lo : Nat) (w : Nat) (v : Nat) : (s.setField off lo w v).hbm = s.hbm := rfl
@[simp] theorem State.setField_cores (s : State) (off : Nat) (lo : Nat) (w : Nat) (v : Nat) : (s.setField off lo w v).cores = s.cores := rfl
@[simp] theorem State.setField_te (s : State) (off : Nat) (lo : Nat) (w : Nat) (v : Nat) : (s.setField off lo w v).te = s.te := rfl
@[simp] theorem State.setField_ge (s : State) (off : Nat) (lo : Nat) (w : Nat) (v : Nat) : (s.setField off lo w v).ge = s.ge := rfl
@[simp] theorem State.setField_seqs (s : State) (off : Nat) (lo : Nat) (w : Nat) (v : Nat) : (s.setField off lo w v).seqs = s.seqs := rfl
@[simp] theorem State.setField_objs (s : State) (off : Nat) (lo : Nat) (w : Nat) (v : Nat) : (s.setField off lo w v).objs = s.objs := rfl
@[simp] theorem State.setField_loader (s : State) (off : Nat) (lo : Nat) (w : Nat) (v : Nat) : (s.setField off lo w v).loader = s.loader := rfl
@[simp] theorem State.setField_host (s : State) (off : Nat) (lo : Nat) (w : Nat) (v : Nat) : (s.setField off lo w v).host = s.host := rfl
@[simp] theorem State.setField_fab (s : State) (off : Nat) (lo : Nat) (w : Nat) (v : Nat) : (s.setField off lo w v).fab = s.fab := rfl
@[simp] theorem State.setField_uu (s : State) (off : Nat) (lo : Nat) (w : Nat) (v : Nat) : (s.setField off lo w v).uu = s.uu := rfl
@[simp] theorem State.setField_surv (s : State) (off : Nat) (lo : Nat) (w : Nat) (v : Nat) : (s.setField off lo w v).surv = s.surv := rfl
@[simp] theorem State.setField_pwr (s : State) (off : Nat) (lo : Nat) (w : Nat) (v : Nat) : (s.setField off lo w v).pwr = s.pwr := rfl
@[simp] theorem State.setField_sec (s : State) (off : Nat) (lo : Nat) (w : Nat) (v : Nat) : (s.setField off lo w v).sec = s.sec := rfl
@[simp] theorem State.setField_recd (s : State) (off : Nat) (lo : Nat) (w : Nat) (v : Nat) : (s.setField off lo w v).recd = s.recd := rfl
@[simp] theorem State.setField_smb (s : State) (off : Nat) (lo : Nat) (w : Nat) (v : Nat) : (s.setField off lo w v).smb = s.smb := rfl
@[simp] theorem State.setField_ticks (s : State) (off : Nat) (lo : Nat) (w : Nat) (v : Nat) : (s.setField off lo w v).ticks = s.ticks := rfl
@[simp] theorem State.setField_free (s : State) (off : Nat) (lo : Nat) (w : Nat) (v : Nat) : (s.setField off lo w v).free = s.free := rfl
@[simp] theorem State.setField_pending (s : State) (off : Nat) (lo : Nat) (w : Nat) (v : Nat) : (s.setField off lo w v).pending = s.pending := rfl

/-! ### State.setCore -/

@[simp] theorem State.setCore_ident (s : State) (c : Nat) (k : Core) : (s.setCore c k).ident = s.ident := rfl
@[simp] theorem State.setCore_pins (s : State) (c : Nat) (k : Core) : (s.setCore c k).pins = s.pins := rfl
@[simp] theorem State.setCore_regs (s : State) (c : Nat) (k : Core) : (s.setCore c k).regs = s.regs := rfl
@[simp] theorem State.setCore_staged (s : State) (c : Nat) (k : Core) : (s.setCore c k).staged = s.staged := rfl
@[simp] theorem State.setCore_once (s : State) (c : Nat) (k : Core) : (s.setCore c k).once = s.once := rfl
@[simp] theorem State.setCore_mem (s : State) (c : Nat) (k : Core) : (s.setCore c k).mem = s.mem := rfl
@[simp] theorem State.setCore_cache (s : State) (c : Nat) (k : Core) : (s.setCore c k).cache = s.cache := rfl
@[simp] theorem State.setCore_hbm (s : State) (c : Nat) (k : Core) : (s.setCore c k).hbm = s.hbm := rfl
@[simp] theorem State.setCore_te (s : State) (c : Nat) (k : Core) : (s.setCore c k).te = s.te := rfl
@[simp] theorem State.setCore_ge (s : State) (c : Nat) (k : Core) : (s.setCore c k).ge = s.ge := rfl
@[simp] theorem State.setCore_seqs (s : State) (c : Nat) (k : Core) : (s.setCore c k).seqs = s.seqs := rfl
@[simp] theorem State.setCore_objs (s : State) (c : Nat) (k : Core) : (s.setCore c k).objs = s.objs := rfl
@[simp] theorem State.setCore_loader (s : State) (c : Nat) (k : Core) : (s.setCore c k).loader = s.loader := rfl
@[simp] theorem State.setCore_host (s : State) (c : Nat) (k : Core) : (s.setCore c k).host = s.host := rfl
@[simp] theorem State.setCore_fab (s : State) (c : Nat) (k : Core) : (s.setCore c k).fab = s.fab := rfl
@[simp] theorem State.setCore_uu (s : State) (c : Nat) (k : Core) : (s.setCore c k).uu = s.uu := rfl
@[simp] theorem State.setCore_surv (s : State) (c : Nat) (k : Core) : (s.setCore c k).surv = s.surv := rfl
@[simp] theorem State.setCore_pwr (s : State) (c : Nat) (k : Core) : (s.setCore c k).pwr = s.pwr := rfl
@[simp] theorem State.setCore_sec (s : State) (c : Nat) (k : Core) : (s.setCore c k).sec = s.sec := rfl
@[simp] theorem State.setCore_recd (s : State) (c : Nat) (k : Core) : (s.setCore c k).recd = s.recd := rfl
@[simp] theorem State.setCore_smb (s : State) (c : Nat) (k : Core) : (s.setCore c k).smb = s.smb := rfl
@[simp] theorem State.setCore_ticks (s : State) (c : Nat) (k : Core) : (s.setCore c k).ticks = s.ticks := rfl
@[simp] theorem State.setCore_free (s : State) (c : Nat) (k : Core) : (s.setCore c k).free = s.free := rfl
@[simp] theorem State.setCore_pending (s : State) (c : Nat) (k : Core) : (s.setCore c k).pending = s.pending := rfl

/-! ### State.modCore -/

@[simp] theorem State.modCore_ident (s : State) (c : Nat) (f : Core → Core) : (s.modCore c f).ident = s.ident := rfl
@[simp] theorem State.modCore_pins (s : State) (c : Nat) (f : Core → Core) : (s.modCore c f).pins = s.pins := rfl
@[simp] theorem State.modCore_regs (s : State) (c : Nat) (f : Core → Core) : (s.modCore c f).regs = s.regs := rfl
@[simp] theorem State.modCore_staged (s : State) (c : Nat) (f : Core → Core) : (s.modCore c f).staged = s.staged := rfl
@[simp] theorem State.modCore_once (s : State) (c : Nat) (f : Core → Core) : (s.modCore c f).once = s.once := rfl
@[simp] theorem State.modCore_mem (s : State) (c : Nat) (f : Core → Core) : (s.modCore c f).mem = s.mem := rfl
@[simp] theorem State.modCore_cache (s : State) (c : Nat) (f : Core → Core) : (s.modCore c f).cache = s.cache := rfl
@[simp] theorem State.modCore_hbm (s : State) (c : Nat) (f : Core → Core) : (s.modCore c f).hbm = s.hbm := rfl
@[simp] theorem State.modCore_te (s : State) (c : Nat) (f : Core → Core) : (s.modCore c f).te = s.te := rfl
@[simp] theorem State.modCore_ge (s : State) (c : Nat) (f : Core → Core) : (s.modCore c f).ge = s.ge := rfl
@[simp] theorem State.modCore_seqs (s : State) (c : Nat) (f : Core → Core) : (s.modCore c f).seqs = s.seqs := rfl
@[simp] theorem State.modCore_objs (s : State) (c : Nat) (f : Core → Core) : (s.modCore c f).objs = s.objs := rfl
@[simp] theorem State.modCore_loader (s : State) (c : Nat) (f : Core → Core) : (s.modCore c f).loader = s.loader := rfl
@[simp] theorem State.modCore_host (s : State) (c : Nat) (f : Core → Core) : (s.modCore c f).host = s.host := rfl
@[simp] theorem State.modCore_fab (s : State) (c : Nat) (f : Core → Core) : (s.modCore c f).fab = s.fab := rfl
@[simp] theorem State.modCore_uu (s : State) (c : Nat) (f : Core → Core) : (s.modCore c f).uu = s.uu := rfl
@[simp] theorem State.modCore_surv (s : State) (c : Nat) (f : Core → Core) : (s.modCore c f).surv = s.surv := rfl
@[simp] theorem State.modCore_pwr (s : State) (c : Nat) (f : Core → Core) : (s.modCore c f).pwr = s.pwr := rfl
@[simp] theorem State.modCore_sec (s : State) (c : Nat) (f : Core → Core) : (s.modCore c f).sec = s.sec := rfl
@[simp] theorem State.modCore_recd (s : State) (c : Nat) (f : Core → Core) : (s.modCore c f).recd = s.recd := rfl
@[simp] theorem State.modCore_smb (s : State) (c : Nat) (f : Core → Core) : (s.modCore c f).smb = s.smb := rfl
@[simp] theorem State.modCore_ticks (s : State) (c : Nat) (f : Core → Core) : (s.modCore c f).ticks = s.ticks := rfl
@[simp] theorem State.modCore_free (s : State) (c : Nat) (f : Core → Core) : (s.modCore c f).free = s.free := rfl
@[simp] theorem State.modCore_pending (s : State) (c : Nat) (f : Core → Core) : (s.modCore c f).pending = s.pending := rfl

/-! ### State.modDie -/

@[simp] theorem State.modDie_ident (s : State) (d : Nat) (f : Die → Die) : (s.modDie d f).ident = s.ident := rfl
@[simp] theorem State.modDie_pins (s : State) (d : Nat) (f : Die → Die) : (s.modDie d f).pins = s.pins := rfl
@[simp] theorem State.modDie_regs (s : State) (d : Nat) (f : Die → Die) : (s.modDie d f).regs = s.regs := rfl
@[simp] theorem State.modDie_staged (s : State) (d : Nat) (f : Die → Die) : (s.modDie d f).staged = s.staged := rfl
@[simp] theorem State.modDie_once (s : State) (d : Nat) (f : Die → Die) : (s.modDie d f).once = s.once := rfl
@[simp] theorem State.modDie_mem (s : State) (d : Nat) (f : Die → Die) : (s.modDie d f).mem = s.mem := rfl
@[simp] theorem State.modDie_cache (s : State) (d : Nat) (f : Die → Die) : (s.modDie d f).cache = s.cache := rfl
@[simp] theorem State.modDie_hbm (s : State) (d : Nat) (f : Die → Die) : (s.modDie d f).hbm = s.hbm := rfl
@[simp] theorem State.modDie_cores (s : State) (d : Nat) (f : Die → Die) : (s.modDie d f).cores = s.cores := rfl
@[simp] theorem State.modDie_te (s : State) (d : Nat) (f : Die → Die) : (s.modDie d f).te = s.te := rfl
@[simp] theorem State.modDie_ge (s : State) (d : Nat) (f : Die → Die) : (s.modDie d f).ge = s.ge := rfl
@[simp] theorem State.modDie_seqs (s : State) (d : Nat) (f : Die → Die) : (s.modDie d f).seqs = s.seqs := rfl
@[simp] theorem State.modDie_objs (s : State) (d : Nat) (f : Die → Die) : (s.modDie d f).objs = s.objs := rfl
@[simp] theorem State.modDie_loader (s : State) (d : Nat) (f : Die → Die) : (s.modDie d f).loader = s.loader := rfl
@[simp] theorem State.modDie_host (s : State) (d : Nat) (f : Die → Die) : (s.modDie d f).host = s.host := rfl
@[simp] theorem State.modDie_fab (s : State) (d : Nat) (f : Die → Die) : (s.modDie d f).fab = s.fab := rfl
@[simp] theorem State.modDie_uu (s : State) (d : Nat) (f : Die → Die) : (s.modDie d f).uu = s.uu := rfl
@[simp] theorem State.modDie_surv (s : State) (d : Nat) (f : Die → Die) : (s.modDie d f).surv = s.surv := rfl
@[simp] theorem State.modDie_sec (s : State) (d : Nat) (f : Die → Die) : (s.modDie d f).sec = s.sec := rfl
@[simp] theorem State.modDie_recd (s : State) (d : Nat) (f : Die → Die) : (s.modDie d f).recd = s.recd := rfl
@[simp] theorem State.modDie_smb (s : State) (d : Nat) (f : Die → Die) : (s.modDie d f).smb = s.smb := rfl
@[simp] theorem State.modDie_ticks (s : State) (d : Nat) (f : Die → Die) : (s.modDie d f).ticks = s.ticks := rfl
@[simp] theorem State.modDie_free (s : State) (d : Nat) (f : Die → Die) : (s.modDie d f).free = s.free := rfl
@[simp] theorem State.modDie_pending (s : State) (d : Nat) (f : Die → Die) : (s.modDie d f).pending = s.pending := rfl

/-! ### State.raise -/

@[simp] theorem State.raise_ident (s : State) (code : Nat) (payload : List Byte) : (s.raise code payload).ident = s.ident := rfl
@[simp] theorem State.raise_pins (s : State) (code : Nat) (payload : List Byte) : (s.raise code payload).pins = s.pins := rfl
@[simp] theorem State.raise_regs (s : State) (code : Nat) (payload : List Byte) : (s.raise code payload).regs = s.regs := rfl
@[simp] theorem State.raise_staged (s : State) (code : Nat) (payload : List Byte) : (s.raise code payload).staged = s.staged := rfl
@[simp] theorem State.raise_once (s : State) (code : Nat) (payload : List Byte) : (s.raise code payload).once = s.once := rfl
@[simp] theorem State.raise_mem (s : State) (code : Nat) (payload : List Byte) : (s.raise code payload).mem = s.mem := rfl
@[simp] theorem State.raise_cache (s : State) (code : Nat) (payload : List Byte) : (s.raise code payload).cache = s.cache := rfl
@[simp] theorem State.raise_hbm (s : State) (code : Nat) (payload : List Byte) : (s.raise code payload).hbm = s.hbm := rfl
@[simp] theorem State.raise_cores (s : State) (code : Nat) (payload : List Byte) : (s.raise code payload).cores = s.cores := rfl
@[simp] theorem State.raise_te (s : State) (code : Nat) (payload : List Byte) : (s.raise code payload).te = s.te := rfl
@[simp] theorem State.raise_ge (s : State) (code : Nat) (payload : List Byte) : (s.raise code payload).ge = s.ge := rfl
@[simp] theorem State.raise_seqs (s : State) (code : Nat) (payload : List Byte) : (s.raise code payload).seqs = s.seqs := rfl
@[simp] theorem State.raise_objs (s : State) (code : Nat) (payload : List Byte) : (s.raise code payload).objs = s.objs := rfl
@[simp] theorem State.raise_loader (s : State) (code : Nat) (payload : List Byte) : (s.raise code payload).loader = s.loader := rfl
@[simp] theorem State.raise_host (s : State) (code : Nat) (payload : List Byte) : (s.raise code payload).host = s.host := rfl
@[simp] theorem State.raise_fab (s : State) (code : Nat) (payload : List Byte) : (s.raise code payload).fab = s.fab := rfl
@[simp] theorem State.raise_uu (s : State) (code : Nat) (payload : List Byte) : (s.raise code payload).uu = s.uu := rfl
@[simp] theorem State.raise_pwr (s : State) (code : Nat) (payload : List Byte) : (s.raise code payload).pwr = s.pwr := rfl
@[simp] theorem State.raise_sec (s : State) (code : Nat) (payload : List Byte) : (s.raise code payload).sec = s.sec := rfl
@[simp] theorem State.raise_smb (s : State) (code : Nat) (payload : List Byte) : (s.raise code payload).smb = s.smb := rfl
@[simp] theorem State.raise_ticks (s : State) (code : Nat) (payload : List Byte) : (s.raise code payload).ticks = s.ticks := rfl
@[simp] theorem State.raise_free (s : State) (code : Nat) (payload : List Byte) : (s.raise code payload).free = s.free := rfl
@[simp] theorem State.raise_pending (s : State) (code : Nat) (payload : List Byte) : (s.raise code payload).pending = s.pending := rfl

/-! ### State.setPort -/

@[simp] theorem State.setPort_ident (s : State) (p : Nat) (k : Port) : (s.setPort p k).ident = s.ident := rfl
@[simp] theorem State.setPort_pins (s : State) (p : Nat) (k : Port) : (s.setPort p k).pins = s.pins := rfl
@[simp] theorem State.setPort_regs (s : State) (p : Nat) (k : Port) : (s.setPort p k).regs = s.regs := rfl
@[simp] theorem State.setPort_staged (s : State) (p : Nat) (k : Port) : (s.setPort p k).staged = s.staged := rfl
@[simp] theorem State.setPort_once (s : State) (p : Nat) (k : Port) : (s.setPort p k).once = s.once := rfl
@[simp] theorem State.setPort_mem (s : State) (p : Nat) (k : Port) : (s.setPort p k).mem = s.mem := rfl
@[simp] theorem State.setPort_cache (s : State) (p : Nat) (k : Port) : (s.setPort p k).cache = s.cache := rfl
@[simp] theorem State.setPort_hbm (s : State) (p : Nat) (k : Port) : (s.setPort p k).hbm = s.hbm := rfl
@[simp] theorem State.setPort_cores (s : State) (p : Nat) (k : Port) : (s.setPort p k).cores = s.cores := rfl
@[simp] theorem State.setPort_te (s : State) (p : Nat) (k : Port) : (s.setPort p k).te = s.te := rfl
@[simp] theorem State.setPort_ge (s : State) (p : Nat) (k : Port) : (s.setPort p k).ge = s.ge := rfl
@[simp] theorem State.setPort_seqs (s : State) (p : Nat) (k : Port) : (s.setPort p k).seqs = s.seqs := rfl
@[simp] theorem State.setPort_objs (s : State) (p : Nat) (k : Port) : (s.setPort p k).objs = s.objs := rfl
@[simp] theorem State.setPort_loader (s : State) (p : Nat) (k : Port) : (s.setPort p k).loader = s.loader := rfl
@[simp] theorem State.setPort_fab (s : State) (p : Nat) (k : Port) : (s.setPort p k).fab = s.fab := rfl
@[simp] theorem State.setPort_uu (s : State) (p : Nat) (k : Port) : (s.setPort p k).uu = s.uu := rfl
@[simp] theorem State.setPort_surv (s : State) (p : Nat) (k : Port) : (s.setPort p k).surv = s.surv := rfl
@[simp] theorem State.setPort_pwr (s : State) (p : Nat) (k : Port) : (s.setPort p k).pwr = s.pwr := rfl
@[simp] theorem State.setPort_sec (s : State) (p : Nat) (k : Port) : (s.setPort p k).sec = s.sec := rfl
@[simp] theorem State.setPort_recd (s : State) (p : Nat) (k : Port) : (s.setPort p k).recd = s.recd := rfl
@[simp] theorem State.setPort_smb (s : State) (p : Nat) (k : Port) : (s.setPort p k).smb = s.smb := rfl
@[simp] theorem State.setPort_ticks (s : State) (p : Nat) (k : Port) : (s.setPort p k).ticks = s.ticks := rfl
@[simp] theorem State.setPort_free (s : State) (p : Nat) (k : Port) : (s.setPort p k).free = s.free := rfl
@[simp] theorem State.setPort_pending (s : State) (p : Nat) (k : Port) : (s.setPort p k).pending = s.pending := rfl

/-! ### State.setCq -/

@[simp] theorem State.setCq_ident (s : State) (p : Nat) (c : Nat) (k : CqState) : (s.setCq p c k).ident = s.ident := rfl
@[simp] theorem State.setCq_pins (s : State) (p : Nat) (c : Nat) (k : CqState) : (s.setCq p c k).pins = s.pins := rfl
@[simp] theorem State.setCq_regs (s : State) (p : Nat) (c : Nat) (k : CqState) : (s.setCq p c k).regs = s.regs := rfl
@[simp] theorem State.setCq_staged (s : State) (p : Nat) (c : Nat) (k : CqState) : (s.setCq p c k).staged = s.staged := rfl
@[simp] theorem State.setCq_once (s : State) (p : Nat) (c : Nat) (k : CqState) : (s.setCq p c k).once = s.once := rfl
@[simp] theorem State.setCq_mem (s : State) (p : Nat) (c : Nat) (k : CqState) : (s.setCq p c k).mem = s.mem := rfl
@[simp] theorem State.setCq_cache (s : State) (p : Nat) (c : Nat) (k : CqState) : (s.setCq p c k).cache = s.cache := rfl
@[simp] theorem State.setCq_hbm (s : State) (p : Nat) (c : Nat) (k : CqState) : (s.setCq p c k).hbm = s.hbm := rfl
@[simp] theorem State.setCq_cores (s : State) (p : Nat) (c : Nat) (k : CqState) : (s.setCq p c k).cores = s.cores := rfl
@[simp] theorem State.setCq_te (s : State) (p : Nat) (c : Nat) (k : CqState) : (s.setCq p c k).te = s.te := rfl
@[simp] theorem State.setCq_ge (s : State) (p : Nat) (c : Nat) (k : CqState) : (s.setCq p c k).ge = s.ge := rfl
@[simp] theorem State.setCq_seqs (s : State) (p : Nat) (c : Nat) (k : CqState) : (s.setCq p c k).seqs = s.seqs := rfl
@[simp] theorem State.setCq_objs (s : State) (p : Nat) (c : Nat) (k : CqState) : (s.setCq p c k).objs = s.objs := rfl
@[simp] theorem State.setCq_loader (s : State) (p : Nat) (c : Nat) (k : CqState) : (s.setCq p c k).loader = s.loader := rfl
@[simp] theorem State.setCq_fab (s : State) (p : Nat) (c : Nat) (k : CqState) : (s.setCq p c k).fab = s.fab := rfl
@[simp] theorem State.setCq_uu (s : State) (p : Nat) (c : Nat) (k : CqState) : (s.setCq p c k).uu = s.uu := rfl
@[simp] theorem State.setCq_surv (s : State) (p : Nat) (c : Nat) (k : CqState) : (s.setCq p c k).surv = s.surv := rfl
@[simp] theorem State.setCq_pwr (s : State) (p : Nat) (c : Nat) (k : CqState) : (s.setCq p c k).pwr = s.pwr := rfl
@[simp] theorem State.setCq_sec (s : State) (p : Nat) (c : Nat) (k : CqState) : (s.setCq p c k).sec = s.sec := rfl
@[simp] theorem State.setCq_recd (s : State) (p : Nat) (c : Nat) (k : CqState) : (s.setCq p c k).recd = s.recd := rfl
@[simp] theorem State.setCq_smb (s : State) (p : Nat) (c : Nat) (k : CqState) : (s.setCq p c k).smb = s.smb := rfl
@[simp] theorem State.setCq_ticks (s : State) (p : Nat) (c : Nat) (k : CqState) : (s.setCq p c k).ticks = s.ticks := rfl
@[simp] theorem State.setCq_free (s : State) (p : Nat) (c : Nat) (k : CqState) : (s.setCq p c k).free = s.free := rfl
@[simp] theorem State.setCq_pending (s : State) (p : Nat) (c : Nat) (k : CqState) : (s.setCq p c k).pending = s.pending := rfl

/-! ### State.modCtx -/

@[simp] theorem State.modCtx_ident (s : State) (x : Nat) (f : Ctx → Ctx) : (s.modCtx x f).ident = s.ident := rfl
@[simp] theorem State.modCtx_pins (s : State) (x : Nat) (f : Ctx → Ctx) : (s.modCtx x f).pins = s.pins := rfl
@[simp] theorem State.modCtx_regs (s : State) (x : Nat) (f : Ctx → Ctx) : (s.modCtx x f).regs = s.regs := rfl
@[simp] theorem State.modCtx_staged (s : State) (x : Nat) (f : Ctx → Ctx) : (s.modCtx x f).staged = s.staged := rfl
@[simp] theorem State.modCtx_once (s : State) (x : Nat) (f : Ctx → Ctx) : (s.modCtx x f).once = s.once := rfl
@[simp] theorem State.modCtx_mem (s : State) (x : Nat) (f : Ctx → Ctx) : (s.modCtx x f).mem = s.mem := rfl
@[simp] theorem State.modCtx_cache (s : State) (x : Nat) (f : Ctx → Ctx) : (s.modCtx x f).cache = s.cache := rfl
@[simp] theorem State.modCtx_hbm (s : State) (x : Nat) (f : Ctx → Ctx) : (s.modCtx x f).hbm = s.hbm := rfl
@[simp] theorem State.modCtx_cores (s : State) (x : Nat) (f : Ctx → Ctx) : (s.modCtx x f).cores = s.cores := rfl
@[simp] theorem State.modCtx_te (s : State) (x : Nat) (f : Ctx → Ctx) : (s.modCtx x f).te = s.te := rfl
@[simp] theorem State.modCtx_ge (s : State) (x : Nat) (f : Ctx → Ctx) : (s.modCtx x f).ge = s.ge := rfl
@[simp] theorem State.modCtx_seqs (s : State) (x : Nat) (f : Ctx → Ctx) : (s.modCtx x f).seqs = s.seqs := rfl
@[simp] theorem State.modCtx_loader (s : State) (x : Nat) (f : Ctx → Ctx) : (s.modCtx x f).loader = s.loader := rfl
@[simp] theorem State.modCtx_host (s : State) (x : Nat) (f : Ctx → Ctx) : (s.modCtx x f).host = s.host := rfl
@[simp] theorem State.modCtx_fab (s : State) (x : Nat) (f : Ctx → Ctx) : (s.modCtx x f).fab = s.fab := rfl
@[simp] theorem State.modCtx_uu (s : State) (x : Nat) (f : Ctx → Ctx) : (s.modCtx x f).uu = s.uu := rfl
@[simp] theorem State.modCtx_surv (s : State) (x : Nat) (f : Ctx → Ctx) : (s.modCtx x f).surv = s.surv := rfl
@[simp] theorem State.modCtx_pwr (s : State) (x : Nat) (f : Ctx → Ctx) : (s.modCtx x f).pwr = s.pwr := rfl
@[simp] theorem State.modCtx_sec (s : State) (x : Nat) (f : Ctx → Ctx) : (s.modCtx x f).sec = s.sec := rfl
@[simp] theorem State.modCtx_recd (s : State) (x : Nat) (f : Ctx → Ctx) : (s.modCtx x f).recd = s.recd := rfl
@[simp] theorem State.modCtx_smb (s : State) (x : Nat) (f : Ctx → Ctx) : (s.modCtx x f).smb = s.smb := rfl
@[simp] theorem State.modCtx_ticks (s : State) (x : Nat) (f : Ctx → Ctx) : (s.modCtx x f).ticks = s.ticks := rfl
@[simp] theorem State.modCtx_free (s : State) (x : Nat) (f : Ctx → Ctx) : (s.modCtx x f).free = s.free := rfl
@[simp] theorem State.modCtx_pending (s : State) (x : Nat) (f : Ctx → Ctx) : (s.modCtx x f).pending = s.pending := rfl

/-! ### State.modFence -/

@[simp] theorem State.modFence_ident (s : State) (f : Nat) (g : Fence → Fence) : (s.modFence f g).ident = s.ident := rfl
@[simp] theorem State.modFence_pins (s : State) (f : Nat) (g : Fence → Fence) : (s.modFence f g).pins = s.pins := rfl
@[simp] theorem State.modFence_regs (s : State) (f : Nat) (g : Fence → Fence) : (s.modFence f g).regs = s.regs := rfl
@[simp] theorem State.modFence_staged (s : State) (f : Nat) (g : Fence → Fence) : (s.modFence f g).staged = s.staged := rfl
@[simp] theorem State.modFence_once (s : State) (f : Nat) (g : Fence → Fence) : (s.modFence f g).once = s.once := rfl
@[simp] theorem State.modFence_mem (s : State) (f : Nat) (g : Fence → Fence) : (s.modFence f g).mem = s.mem := rfl
@[simp] theorem State.modFence_cache (s : State) (f : Nat) (g : Fence → Fence) : (s.modFence f g).cache = s.cache := rfl
@[simp] theorem State.modFence_hbm (s : State) (f : Nat) (g : Fence → Fence) : (s.modFence f g).hbm = s.hbm := rfl
@[simp] theorem State.modFence_cores (s : State) (f : Nat) (g : Fence → Fence) : (s.modFence f g).cores = s.cores := rfl
@[simp] theorem State.modFence_te (s : State) (f : Nat) (g : Fence → Fence) : (s.modFence f g).te = s.te := rfl
@[simp] theorem State.modFence_ge (s : State) (f : Nat) (g : Fence → Fence) : (s.modFence f g).ge = s.ge := rfl
@[simp] theorem State.modFence_seqs (s : State) (f : Nat) (g : Fence → Fence) : (s.modFence f g).seqs = s.seqs := rfl
@[simp] theorem State.modFence_loader (s : State) (f : Nat) (g : Fence → Fence) : (s.modFence f g).loader = s.loader := rfl
@[simp] theorem State.modFence_host (s : State) (f : Nat) (g : Fence → Fence) : (s.modFence f g).host = s.host := rfl
@[simp] theorem State.modFence_fab (s : State) (f : Nat) (g : Fence → Fence) : (s.modFence f g).fab = s.fab := rfl
@[simp] theorem State.modFence_uu (s : State) (f : Nat) (g : Fence → Fence) : (s.modFence f g).uu = s.uu := rfl
@[simp] theorem State.modFence_surv (s : State) (f : Nat) (g : Fence → Fence) : (s.modFence f g).surv = s.surv := rfl
@[simp] theorem State.modFence_pwr (s : State) (f : Nat) (g : Fence → Fence) : (s.modFence f g).pwr = s.pwr := rfl
@[simp] theorem State.modFence_sec (s : State) (f : Nat) (g : Fence → Fence) : (s.modFence f g).sec = s.sec := rfl
@[simp] theorem State.modFence_recd (s : State) (f : Nat) (g : Fence → Fence) : (s.modFence f g).recd = s.recd := rfl
@[simp] theorem State.modFence_smb (s : State) (f : Nat) (g : Fence → Fence) : (s.modFence f g).smb = s.smb := rfl
@[simp] theorem State.modFence_ticks (s : State) (f : Nat) (g : Fence → Fence) : (s.modFence f g).ticks = s.ticks := rfl
@[simp] theorem State.modFence_free (s : State) (f : Nat) (g : Fence → Fence) : (s.modFence f g).free = s.free := rfl
@[simp] theorem State.modFence_pending (s : State) (f : Nat) (g : Fence → Fence) : (s.modFence f g).pending = s.pending := rfl

/-! ### State.setQueue -/

@[simp] theorem State.setQueue_ident (s : State) (p : Nat) (q : Nat) (k : SubQueue) : (s.setQueue p q k).ident = s.ident := rfl
@[simp] theorem State.setQueue_pins (s : State) (p : Nat) (q : Nat) (k : SubQueue) : (s.setQueue p q k).pins = s.pins := rfl
@[simp] theorem State.setQueue_regs (s : State) (p : Nat) (q : Nat) (k : SubQueue) : (s.setQueue p q k).regs = s.regs := rfl
@[simp] theorem State.setQueue_staged (s : State) (p : Nat) (q : Nat) (k : SubQueue) : (s.setQueue p q k).staged = s.staged := rfl
@[simp] theorem State.setQueue_once (s : State) (p : Nat) (q : Nat) (k : SubQueue) : (s.setQueue p q k).once = s.once := rfl
@[simp] theorem State.setQueue_mem (s : State) (p : Nat) (q : Nat) (k : SubQueue) : (s.setQueue p q k).mem = s.mem := rfl
@[simp] theorem State.setQueue_cache (s : State) (p : Nat) (q : Nat) (k : SubQueue) : (s.setQueue p q k).cache = s.cache := rfl
@[simp] theorem State.setQueue_hbm (s : State) (p : Nat) (q : Nat) (k : SubQueue) : (s.setQueue p q k).hbm = s.hbm := rfl
@[simp] theorem State.setQueue_cores (s : State) (p : Nat) (q : Nat) (k : SubQueue) : (s.setQueue p q k).cores = s.cores := rfl
@[simp] theorem State.setQueue_te (s : State) (p : Nat) (q : Nat) (k : SubQueue) : (s.setQueue p q k).te = s.te := rfl
@[simp] theorem State.setQueue_ge (s : State) (p : Nat) (q : Nat) (k : SubQueue) : (s.setQueue p q k).ge = s.ge := rfl
@[simp] theorem State.setQueue_seqs (s : State) (p : Nat) (q : Nat) (k : SubQueue) : (s.setQueue p q k).seqs = s.seqs := rfl
@[simp] theorem State.setQueue_loader (s : State) (p : Nat) (q : Nat) (k : SubQueue) : (s.setQueue p q k).loader = s.loader := rfl
@[simp] theorem State.setQueue_host (s : State) (p : Nat) (q : Nat) (k : SubQueue) : (s.setQueue p q k).host = s.host := rfl
@[simp] theorem State.setQueue_fab (s : State) (p : Nat) (q : Nat) (k : SubQueue) : (s.setQueue p q k).fab = s.fab := rfl
@[simp] theorem State.setQueue_uu (s : State) (p : Nat) (q : Nat) (k : SubQueue) : (s.setQueue p q k).uu = s.uu := rfl
@[simp] theorem State.setQueue_surv (s : State) (p : Nat) (q : Nat) (k : SubQueue) : (s.setQueue p q k).surv = s.surv := rfl
@[simp] theorem State.setQueue_pwr (s : State) (p : Nat) (q : Nat) (k : SubQueue) : (s.setQueue p q k).pwr = s.pwr := rfl
@[simp] theorem State.setQueue_sec (s : State) (p : Nat) (q : Nat) (k : SubQueue) : (s.setQueue p q k).sec = s.sec := rfl
@[simp] theorem State.setQueue_recd (s : State) (p : Nat) (q : Nat) (k : SubQueue) : (s.setQueue p q k).recd = s.recd := rfl
@[simp] theorem State.setQueue_smb (s : State) (p : Nat) (q : Nat) (k : SubQueue) : (s.setQueue p q k).smb = s.smb := rfl
@[simp] theorem State.setQueue_ticks (s : State) (p : Nat) (q : Nat) (k : SubQueue) : (s.setQueue p q k).ticks = s.ticks := rfl
@[simp] theorem State.setQueue_free (s : State) (p : Nat) (q : Nat) (k : SubQueue) : (s.setQueue p q k).free = s.free := rfl
@[simp] theorem State.setQueue_pending (s : State) (p : Nat) (q : Nat) (k : SubQueue) : (s.setQueue p q k).pending = s.pending := rfl

/-! ### State.modObjs -/

@[simp] theorem State.modObjs_ident (s : State) (f : Objects → Objects) : (s.modObjs f).ident = s.ident := rfl
@[simp] theorem State.modObjs_pins (s : State) (f : Objects → Objects) : (s.modObjs f).pins = s.pins := rfl
@[simp] theorem State.modObjs_regs (s : State) (f : Objects → Objects) : (s.modObjs f).regs = s.regs := rfl
@[simp] theorem State.modObjs_staged (s : State) (f : Objects → Objects) : (s.modObjs f).staged = s.staged := rfl
@[simp] theorem State.modObjs_once (s : State) (f : Objects → Objects) : (s.modObjs f).once = s.once := rfl
@[simp] theorem State.modObjs_mem (s : State) (f : Objects → Objects) : (s.modObjs f).mem = s.mem := rfl
@[simp] theorem State.modObjs_cache (s : State) (f : Objects → Objects) : (s.modObjs f).cache = s.cache := rfl
@[simp] theorem State.modObjs_hbm (s : State) (f : Objects → Objects) : (s.modObjs f).hbm = s.hbm := rfl
@[simp] theorem State.modObjs_cores (s : State) (f : Objects → Objects) : (s.modObjs f).cores = s.cores := rfl
@[simp] theorem State.modObjs_te (s : State) (f : Objects → Objects) : (s.modObjs f).te = s.te := rfl
@[simp] theorem State.modObjs_ge (s : State) (f : Objects → Objects) : (s.modObjs f).ge = s.ge := rfl
@[simp] theorem State.modObjs_seqs (s : State) (f : Objects → Objects) : (s.modObjs f).seqs = s.seqs := rfl
@[simp] theorem State.modObjs_loader (s : State) (f : Objects → Objects) : (s.modObjs f).loader = s.loader := rfl
@[simp] theorem State.modObjs_host (s : State) (f : Objects → Objects) : (s.modObjs f).host = s.host := rfl
@[simp] theorem State.modObjs_fab (s : State) (f : Objects → Objects) : (s.modObjs f).fab = s.fab := rfl
@[simp] theorem State.modObjs_uu (s : State) (f : Objects → Objects) : (s.modObjs f).uu = s.uu := rfl
@[simp] theorem State.modObjs_surv (s : State) (f : Objects → Objects) : (s.modObjs f).surv = s.surv := rfl
@[simp] theorem State.modObjs_pwr (s : State) (f : Objects → Objects) : (s.modObjs f).pwr = s.pwr := rfl
@[simp] theorem State.modObjs_sec (s : State) (f : Objects → Objects) : (s.modObjs f).sec = s.sec := rfl
@[simp] theorem State.modObjs_recd (s : State) (f : Objects → Objects) : (s.modObjs f).recd = s.recd := rfl
@[simp] theorem State.modObjs_smb (s : State) (f : Objects → Objects) : (s.modObjs f).smb = s.smb := rfl
@[simp] theorem State.modObjs_ticks (s : State) (f : Objects → Objects) : (s.modObjs f).ticks = s.ticks := rfl
@[simp] theorem State.modObjs_free (s : State) (f : Objects → Objects) : (s.modObjs f).free = s.free := rfl
@[simp] theorem State.modObjs_pending (s : State) (f : Objects → Objects) : (s.modObjs f).pending = s.pending := rfl

/-! ### State.setSeq -/

@[simp] theorem State.setSeq_ident (s : State) (q : Nat) (k : Seq) : (s.setSeq q k).ident = s.ident := rfl
@[simp] theorem State.setSeq_pins (s : State) (q : Nat) (k : Seq) : (s.setSeq q k).pins = s.pins := rfl
@[simp] theorem State.setSeq_regs (s : State) (q : Nat) (k : Seq) : (s.setSeq q k).regs = s.regs := rfl
@[simp] theorem State.setSeq_staged (s : State) (q : Nat) (k : Seq) : (s.setSeq q k).staged = s.staged := rfl
@[simp] theorem State.setSeq_once (s : State) (q : Nat) (k : Seq) : (s.setSeq q k).once = s.once := rfl
@[simp] theorem State.setSeq_mem (s : State) (q : Nat) (k : Seq) : (s.setSeq q k).mem = s.mem := rfl
@[simp] theorem State.setSeq_cache (s : State) (q : Nat) (k : Seq) : (s.setSeq q k).cache = s.cache := rfl
@[simp] theorem State.setSeq_hbm (s : State) (q : Nat) (k : Seq) : (s.setSeq q k).hbm = s.hbm := rfl
@[simp] theorem State.setSeq_cores (s : State) (q : Nat) (k : Seq) : (s.setSeq q k).cores = s.cores := rfl
@[simp] theorem State.setSeq_te (s : State) (q : Nat) (k : Seq) : (s.setSeq q k).te = s.te := rfl
@[simp] theorem State.setSeq_ge (s : State) (q : Nat) (k : Seq) : (s.setSeq q k).ge = s.ge := rfl
@[simp] theorem State.setSeq_objs (s : State) (q : Nat) (k : Seq) : (s.setSeq q k).objs = s.objs := rfl
@[simp] theorem State.setSeq_loader (s : State) (q : Nat) (k : Seq) : (s.setSeq q k).loader = s.loader := rfl
@[simp] theorem State.setSeq_host (s : State) (q : Nat) (k : Seq) : (s.setSeq q k).host = s.host := rfl
@[simp] theorem State.setSeq_fab (s : State) (q : Nat) (k : Seq) : (s.setSeq q k).fab = s.fab := rfl
@[simp] theorem State.setSeq_uu (s : State) (q : Nat) (k : Seq) : (s.setSeq q k).uu = s.uu := rfl
@[simp] theorem State.setSeq_surv (s : State) (q : Nat) (k : Seq) : (s.setSeq q k).surv = s.surv := rfl
@[simp] theorem State.setSeq_pwr (s : State) (q : Nat) (k : Seq) : (s.setSeq q k).pwr = s.pwr := rfl
@[simp] theorem State.setSeq_sec (s : State) (q : Nat) (k : Seq) : (s.setSeq q k).sec = s.sec := rfl
@[simp] theorem State.setSeq_recd (s : State) (q : Nat) (k : Seq) : (s.setSeq q k).recd = s.recd := rfl
@[simp] theorem State.setSeq_smb (s : State) (q : Nat) (k : Seq) : (s.setSeq q k).smb = s.smb := rfl
@[simp] theorem State.setSeq_ticks (s : State) (q : Nat) (k : Seq) : (s.setSeq q k).ticks = s.ticks := rfl
@[simp] theorem State.setSeq_free (s : State) (q : Nat) (k : Seq) : (s.setSeq q k).free = s.free := rfl
@[simp] theorem State.setSeq_pending (s : State) (q : Nat) (k : Seq) : (s.setSeq q k).pending = s.pending := rfl

/-! ### State.setGe -/

@[simp] theorem State.setGe_ident (s : State) (c : Nat) (g : Ge) : (s.setGe c g).ident = s.ident := rfl
@[simp] theorem State.setGe_pins (s : State) (c : Nat) (g : Ge) : (s.setGe c g).pins = s.pins := rfl
@[simp] theorem State.setGe_regs (s : State) (c : Nat) (g : Ge) : (s.setGe c g).regs = s.regs := rfl
@[simp] theorem State.setGe_staged (s : State) (c : Nat) (g : Ge) : (s.setGe c g).staged = s.staged := rfl
@[simp] theorem State.setGe_once (s : State) (c : Nat) (g : Ge) : (s.setGe c g).once = s.once := rfl
@[simp] theorem State.setGe_mem (s : State) (c : Nat) (g : Ge) : (s.setGe c g).mem = s.mem := rfl
@[simp] theorem State.setGe_cache (s : State) (c : Nat) (g : Ge) : (s.setGe c g).cache = s.cache := rfl
@[simp] theorem State.setGe_hbm (s : State) (c : Nat) (g : Ge) : (s.setGe c g).hbm = s.hbm := rfl
@[simp] theorem State.setGe_cores (s : State) (c : Nat) (g : Ge) : (s.setGe c g).cores = s.cores := rfl
@[simp] theorem State.setGe_te (s : State) (c : Nat) (g : Ge) : (s.setGe c g).te = s.te := rfl
@[simp] theorem State.setGe_seqs (s : State) (c : Nat) (g : Ge) : (s.setGe c g).seqs = s.seqs := rfl
@[simp] theorem State.setGe_objs (s : State) (c : Nat) (g : Ge) : (s.setGe c g).objs = s.objs := rfl
@[simp] theorem State.setGe_loader (s : State) (c : Nat) (g : Ge) : (s.setGe c g).loader = s.loader := rfl
@[simp] theorem State.setGe_host (s : State) (c : Nat) (g : Ge) : (s.setGe c g).host = s.host := rfl
@[simp] theorem State.setGe_fab (s : State) (c : Nat) (g : Ge) : (s.setGe c g).fab = s.fab := rfl
@[simp] theorem State.setGe_uu (s : State) (c : Nat) (g : Ge) : (s.setGe c g).uu = s.uu := rfl
@[simp] theorem State.setGe_surv (s : State) (c : Nat) (g : Ge) : (s.setGe c g).surv = s.surv := rfl
@[simp] theorem State.setGe_pwr (s : State) (c : Nat) (g : Ge) : (s.setGe c g).pwr = s.pwr := rfl
@[simp] theorem State.setGe_sec (s : State) (c : Nat) (g : Ge) : (s.setGe c g).sec = s.sec := rfl
@[simp] theorem State.setGe_recd (s : State) (c : Nat) (g : Ge) : (s.setGe c g).recd = s.recd := rfl
@[simp] theorem State.setGe_smb (s : State) (c : Nat) (g : Ge) : (s.setGe c g).smb = s.smb := rfl
@[simp] theorem State.setGe_ticks (s : State) (c : Nat) (g : Ge) : (s.setGe c g).ticks = s.ticks := rfl
@[simp] theorem State.setGe_free (s : State) (c : Nat) (g : Ge) : (s.setGe c g).free = s.free := rfl
@[simp] theorem State.setGe_pending (s : State) (c : Nat) (g : Ge) : (s.setGe c g).pending = s.pending := rfl

/-! ### State.setUnit -/

@[simp] theorem State.setUnit_ident (s : State) (c : Nat) (u : Nat) (k : TeUnitSt) : (s.setUnit c u k).ident = s.ident := rfl
@[simp] theorem State.setUnit_pins (s : State) (c : Nat) (u : Nat) (k : TeUnitSt) : (s.setUnit c u k).pins = s.pins := rfl
@[simp] theorem State.setUnit_regs (s : State) (c : Nat) (u : Nat) (k : TeUnitSt) : (s.setUnit c u k).regs = s.regs := rfl
@[simp] theorem State.setUnit_staged (s : State) (c : Nat) (u : Nat) (k : TeUnitSt) : (s.setUnit c u k).staged = s.staged := rfl
@[simp] theorem State.setUnit_once (s : State) (c : Nat) (u : Nat) (k : TeUnitSt) : (s.setUnit c u k).once = s.once := rfl
@[simp] theorem State.setUnit_mem (s : State) (c : Nat) (u : Nat) (k : TeUnitSt) : (s.setUnit c u k).mem = s.mem := rfl
@[simp] theorem State.setUnit_cache (s : State) (c : Nat) (u : Nat) (k : TeUnitSt) : (s.setUnit c u k).cache = s.cache := rfl
@[simp] theorem State.setUnit_hbm (s : State) (c : Nat) (u : Nat) (k : TeUnitSt) : (s.setUnit c u k).hbm = s.hbm := rfl
@[simp] theorem State.setUnit_cores (s : State) (c : Nat) (u : Nat) (k : TeUnitSt) : (s.setUnit c u k).cores = s.cores := rfl
@[simp] theorem State.setUnit_ge (s : State) (c : Nat) (u : Nat) (k : TeUnitSt) : (s.setUnit c u k).ge = s.ge := rfl
@[simp] theorem State.setUnit_seqs (s : State) (c : Nat) (u : Nat) (k : TeUnitSt) : (s.setUnit c u k).seqs = s.seqs := rfl
@[simp] theorem State.setUnit_objs (s : State) (c : Nat) (u : Nat) (k : TeUnitSt) : (s.setUnit c u k).objs = s.objs := rfl
@[simp] theorem State.setUnit_loader (s : State) (c : Nat) (u : Nat) (k : TeUnitSt) : (s.setUnit c u k).loader = s.loader := rfl
@[simp] theorem State.setUnit_host (s : State) (c : Nat) (u : Nat) (k : TeUnitSt) : (s.setUnit c u k).host = s.host := rfl
@[simp] theorem State.setUnit_fab (s : State) (c : Nat) (u : Nat) (k : TeUnitSt) : (s.setUnit c u k).fab = s.fab := rfl
@[simp] theorem State.setUnit_uu (s : State) (c : Nat) (u : Nat) (k : TeUnitSt) : (s.setUnit c u k).uu = s.uu := rfl
@[simp] theorem State.setUnit_surv (s : State) (c : Nat) (u : Nat) (k : TeUnitSt) : (s.setUnit c u k).surv = s.surv := rfl
@[simp] theorem State.setUnit_pwr (s : State) (c : Nat) (u : Nat) (k : TeUnitSt) : (s.setUnit c u k).pwr = s.pwr := rfl
@[simp] theorem State.setUnit_sec (s : State) (c : Nat) (u : Nat) (k : TeUnitSt) : (s.setUnit c u k).sec = s.sec := rfl
@[simp] theorem State.setUnit_recd (s : State) (c : Nat) (u : Nat) (k : TeUnitSt) : (s.setUnit c u k).recd = s.recd := rfl
@[simp] theorem State.setUnit_smb (s : State) (c : Nat) (u : Nat) (k : TeUnitSt) : (s.setUnit c u k).smb = s.smb := rfl
@[simp] theorem State.setUnit_ticks (s : State) (c : Nat) (u : Nat) (k : TeUnitSt) : (s.setUnit c u k).ticks = s.ticks := rfl
@[simp] theorem State.setUnit_free (s : State) (c : Nat) (u : Nat) (k : TeUnitSt) : (s.setUnit c u k).free = s.free := rfl
@[simp] theorem State.setUnit_pending (s : State) (c : Nat) (u : Nat) (k : TeUnitSt) : (s.setUnit c u k).pending = s.pending := rfl

/-! ### State.setPriv -/

@[simp] theorem State.setPriv_ident (s : State) (c : Nat) (l : List (Nat × List Byte)) : (s.setPriv c l).ident = s.ident := rfl
@[simp] theorem State.setPriv_pins (s : State) (c : Nat) (l : List (Nat × List Byte)) : (s.setPriv c l).pins = s.pins := rfl
@[simp] theorem State.setPriv_regs (s : State) (c : Nat) (l : List (Nat × List Byte)) : (s.setPriv c l).regs = s.regs := rfl
@[simp] theorem State.setPriv_staged (s : State) (c : Nat) (l : List (Nat × List Byte)) : (s.setPriv c l).staged = s.staged := rfl
@[simp] theorem State.setPriv_once (s : State) (c : Nat) (l : List (Nat × List Byte)) : (s.setPriv c l).once = s.once := rfl
@[simp] theorem State.setPriv_mem (s : State) (c : Nat) (l : List (Nat × List Byte)) : (s.setPriv c l).mem = s.mem := rfl
@[simp] theorem State.setPriv_hbm (s : State) (c : Nat) (l : List (Nat × List Byte)) : (s.setPriv c l).hbm = s.hbm := rfl
@[simp] theorem State.setPriv_cores (s : State) (c : Nat) (l : List (Nat × List Byte)) : (s.setPriv c l).cores = s.cores := rfl
@[simp] theorem State.setPriv_te (s : State) (c : Nat) (l : List (Nat × List Byte)) : (s.setPriv c l).te = s.te := rfl
@[simp] theorem State.setPriv_ge (s : State) (c : Nat) (l : List (Nat × List Byte)) : (s.setPriv c l).ge = s.ge := rfl
@[simp] theorem State.setPriv_seqs (s : State) (c : Nat) (l : List (Nat × List Byte)) : (s.setPriv c l).seqs = s.seqs := rfl
@[simp] theorem State.setPriv_objs (s : State) (c : Nat) (l : List (Nat × List Byte)) : (s.setPriv c l).objs = s.objs := rfl
@[simp] theorem State.setPriv_loader (s : State) (c : Nat) (l : List (Nat × List Byte)) : (s.setPriv c l).loader = s.loader := rfl
@[simp] theorem State.setPriv_host (s : State) (c : Nat) (l : List (Nat × List Byte)) : (s.setPriv c l).host = s.host := rfl
@[simp] theorem State.setPriv_fab (s : State) (c : Nat) (l : List (Nat × List Byte)) : (s.setPriv c l).fab = s.fab := rfl
@[simp] theorem State.setPriv_uu (s : State) (c : Nat) (l : List (Nat × List Byte)) : (s.setPriv c l).uu = s.uu := rfl
@[simp] theorem State.setPriv_surv (s : State) (c : Nat) (l : List (Nat × List Byte)) : (s.setPriv c l).surv = s.surv := rfl
@[simp] theorem State.setPriv_pwr (s : State) (c : Nat) (l : List (Nat × List Byte)) : (s.setPriv c l).pwr = s.pwr := rfl
@[simp] theorem State.setPriv_sec (s : State) (c : Nat) (l : List (Nat × List Byte)) : (s.setPriv c l).sec = s.sec := rfl
@[simp] theorem State.setPriv_recd (s : State) (c : Nat) (l : List (Nat × List Byte)) : (s.setPriv c l).recd = s.recd := rfl
@[simp] theorem State.setPriv_smb (s : State) (c : Nat) (l : List (Nat × List Byte)) : (s.setPriv c l).smb = s.smb := rfl
@[simp] theorem State.setPriv_ticks (s : State) (c : Nat) (l : List (Nat × List Byte)) : (s.setPriv c l).ticks = s.ticks := rfl
@[simp] theorem State.setPriv_free (s : State) (c : Nat) (l : List (Nat × List Byte)) : (s.setPriv c l).free = s.free := rfl
@[simp] theorem State.setPriv_pending (s : State) (c : Nat) (l : List (Nat × List Byte)) : (s.setPriv c l).pending = s.pending := rfl

/-! ### State.modLines -/

@[simp] theorem State.modLines_ident (s : State) (f : Tab Line → Tab Line) : (s.modLines f).ident = s.ident := rfl
@[simp] theorem State.modLines_pins (s : State) (f : Tab Line → Tab Line) : (s.modLines f).pins = s.pins := rfl
@[simp] theorem State.modLines_regs (s : State) (f : Tab Line → Tab Line) : (s.modLines f).regs = s.regs := rfl
@[simp] theorem State.modLines_staged (s : State) (f : Tab Line → Tab Line) : (s.modLines f).staged = s.staged := rfl
@[simp] theorem State.modLines_once (s : State) (f : Tab Line → Tab Line) : (s.modLines f).once = s.once := rfl
@[simp] theorem State.modLines_mem (s : State) (f : Tab Line → Tab Line) : (s.modLines f).mem = s.mem := rfl
@[simp] theorem State.modLines_hbm (s : State) (f : Tab Line → Tab Line) : (s.modLines f).hbm = s.hbm := rfl
@[simp] theorem State.modLines_cores (s : State) (f : Tab Line → Tab Line) : (s.modLines f).cores = s.cores := rfl
@[simp] theorem State.modLines_te (s : State) (f : Tab Line → Tab Line) : (s.modLines f).te = s.te := rfl
@[simp] theorem State.modLines_ge (s : State) (f : Tab Line → Tab Line) : (s.modLines f).ge = s.ge := rfl
@[simp] theorem State.modLines_seqs (s : State) (f : Tab Line → Tab Line) : (s.modLines f).seqs = s.seqs := rfl
@[simp] theorem State.modLines_objs (s : State) (f : Tab Line → Tab Line) : (s.modLines f).objs = s.objs := rfl
@[simp] theorem State.modLines_loader (s : State) (f : Tab Line → Tab Line) : (s.modLines f).loader = s.loader := rfl
@[simp] theorem State.modLines_host (s : State) (f : Tab Line → Tab Line) : (s.modLines f).host = s.host := rfl
@[simp] theorem State.modLines_fab (s : State) (f : Tab Line → Tab Line) : (s.modLines f).fab = s.fab := rfl
@[simp] theorem State.modLines_uu (s : State) (f : Tab Line → Tab Line) : (s.modLines f).uu = s.uu := rfl
@[simp] theorem State.modLines_surv (s : State) (f : Tab Line → Tab Line) : (s.modLines f).surv = s.surv := rfl
@[simp] theorem State.modLines_pwr (s : State) (f : Tab Line → Tab Line) : (s.modLines f).pwr = s.pwr := rfl
@[simp] theorem State.modLines_sec (s : State) (f : Tab Line → Tab Line) : (s.modLines f).sec = s.sec := rfl
@[simp] theorem State.modLines_recd (s : State) (f : Tab Line → Tab Line) : (s.modLines f).recd = s.recd := rfl
@[simp] theorem State.modLines_smb (s : State) (f : Tab Line → Tab Line) : (s.modLines f).smb = s.smb := rfl
@[simp] theorem State.modLines_ticks (s : State) (f : Tab Line → Tab Line) : (s.modLines f).ticks = s.ticks := rfl
@[simp] theorem State.modLines_free (s : State) (f : Tab Line → Tab Line) : (s.modLines f).free = s.free := rfl
@[simp] theorem State.modLines_pending (s : State) (f : Tab Line → Tab Line) : (s.modLines f).pending = s.pending := rfl

/-! ### State.setEvac -/

@[simp] theorem State.setEvac_ident (s : State) (u : Nat) (k : Nat) (e : EvacStep) : (s.setEvac u k e).ident = s.ident := rfl
@[simp] theorem State.setEvac_pins (s : State) (u : Nat) (k : Nat) (e : EvacStep) : (s.setEvac u k e).pins = s.pins := rfl
@[simp] theorem State.setEvac_regs (s : State) (u : Nat) (k : Nat) (e : EvacStep) : (s.setEvac u k e).regs = s.regs := rfl
@[simp] theorem State.setEvac_staged (s : State) (u : Nat) (k : Nat) (e : EvacStep) : (s.setEvac u k e).staged = s.staged := rfl
@[simp] theorem State.setEvac_once (s : State) (u : Nat) (k : Nat) (e : EvacStep) : (s.setEvac u k e).once = s.once := rfl
@[simp] theorem State.setEvac_mem (s : State) (u : Nat) (k : Nat) (e : EvacStep) : (s.setEvac u k e).mem = s.mem := rfl
@[simp] theorem State.setEvac_cache (s : State) (u : Nat) (k : Nat) (e : EvacStep) : (s.setEvac u k e).cache = s.cache := rfl
@[simp] theorem State.setEvac_cores (s : State) (u : Nat) (k : Nat) (e : EvacStep) : (s.setEvac u k e).cores = s.cores := rfl
@[simp] theorem State.setEvac_te (s : State) (u : Nat) (k : Nat) (e : EvacStep) : (s.setEvac u k e).te = s.te := rfl
@[simp] theorem State.setEvac_ge (s : State) (u : Nat) (k : Nat) (e : EvacStep) : (s.setEvac u k e).ge = s.ge := rfl
@[simp] theorem State.setEvac_seqs (s : State) (u : Nat) (k : Nat) (e : EvacStep) : (s.setEvac u k e).seqs = s.seqs := rfl
@[simp] theorem State.setEvac_objs (s : State) (u : Nat) (k : Nat) (e : EvacStep) : (s.setEvac u k e).objs = s.objs := rfl
@[simp] theorem State.setEvac_loader (s : State) (u : Nat) (k : Nat) (e : EvacStep) : (s.setEvac u k e).loader = s.loader := rfl
@[simp] theorem State.setEvac_host (s : State) (u : Nat) (k : Nat) (e : EvacStep) : (s.setEvac u k e).host = s.host := rfl
@[simp] theorem State.setEvac_fab (s : State) (u : Nat) (k : Nat) (e : EvacStep) : (s.setEvac u k e).fab = s.fab := rfl
@[simp] theorem State.setEvac_uu (s : State) (u : Nat) (k : Nat) (e : EvacStep) : (s.setEvac u k e).uu = s.uu := rfl
@[simp] theorem State.setEvac_surv (s : State) (u : Nat) (k : Nat) (e : EvacStep) : (s.setEvac u k e).surv = s.surv := rfl
@[simp] theorem State.setEvac_pwr (s : State) (u : Nat) (k : Nat) (e : EvacStep) : (s.setEvac u k e).pwr = s.pwr := rfl
@[simp] theorem State.setEvac_sec (s : State) (u : Nat) (k : Nat) (e : EvacStep) : (s.setEvac u k e).sec = s.sec := rfl
@[simp] theorem State.setEvac_recd (s : State) (u : Nat) (k : Nat) (e : EvacStep) : (s.setEvac u k e).recd = s.recd := rfl
@[simp] theorem State.setEvac_smb (s : State) (u : Nat) (k : Nat) (e : EvacStep) : (s.setEvac u k e).smb = s.smb := rfl
@[simp] theorem State.setEvac_ticks (s : State) (u : Nat) (k : Nat) (e : EvacStep) : (s.setEvac u k e).ticks = s.ticks := rfl
@[simp] theorem State.setEvac_free (s : State) (u : Nat) (k : Nat) (e : EvacStep) : (s.setEvac u k e).free = s.free := rfl
@[simp] theorem State.setEvac_pending (s : State) (u : Nat) (k : Nat) (e : EvacStep) : (s.setEvac u k e).pending = s.pending := rfl

/-! ### State.modUpd -/

@[simp] theorem State.modUpd_ident (s : State) (u : Nat) (f : Upd → Upd) : (s.modUpd u f).ident = s.ident := rfl
@[simp] theorem State.modUpd_pins (s : State) (u : Nat) (f : Upd → Upd) : (s.modUpd u f).pins = s.pins := rfl
@[simp] theorem State.modUpd_regs (s : State) (u : Nat) (f : Upd → Upd) : (s.modUpd u f).regs = s.regs := rfl
@[simp] theorem State.modUpd_staged (s : State) (u : Nat) (f : Upd → Upd) : (s.modUpd u f).staged = s.staged := rfl
@[simp] theorem State.modUpd_once (s : State) (u : Nat) (f : Upd → Upd) : (s.modUpd u f).once = s.once := rfl
@[simp] theorem State.modUpd_mem (s : State) (u : Nat) (f : Upd → Upd) : (s.modUpd u f).mem = s.mem := rfl
@[simp] theorem State.modUpd_cache (s : State) (u : Nat) (f : Upd → Upd) : (s.modUpd u f).cache = s.cache := rfl
@[simp] theorem State.modUpd_hbm (s : State) (u : Nat) (f : Upd → Upd) : (s.modUpd u f).hbm = s.hbm := rfl
@[simp] theorem State.modUpd_cores (s : State) (u : Nat) (f : Upd → Upd) : (s.modUpd u f).cores = s.cores := rfl
@[simp] theorem State.modUpd_te (s : State) (u : Nat) (f : Upd → Upd) : (s.modUpd u f).te = s.te := rfl
@[simp] theorem State.modUpd_ge (s : State) (u : Nat) (f : Upd → Upd) : (s.modUpd u f).ge = s.ge := rfl
@[simp] theorem State.modUpd_seqs (s : State) (u : Nat) (f : Upd → Upd) : (s.modUpd u f).seqs = s.seqs := rfl
@[simp] theorem State.modUpd_objs (s : State) (u : Nat) (f : Upd → Upd) : (s.modUpd u f).objs = s.objs := rfl
@[simp] theorem State.modUpd_loader (s : State) (u : Nat) (f : Upd → Upd) : (s.modUpd u f).loader = s.loader := rfl
@[simp] theorem State.modUpd_host (s : State) (u : Nat) (f : Upd → Upd) : (s.modUpd u f).host = s.host := rfl
@[simp] theorem State.modUpd_fab (s : State) (u : Nat) (f : Upd → Upd) : (s.modUpd u f).fab = s.fab := rfl
@[simp] theorem State.modUpd_surv (s : State) (u : Nat) (f : Upd → Upd) : (s.modUpd u f).surv = s.surv := rfl
@[simp] theorem State.modUpd_pwr (s : State) (u : Nat) (f : Upd → Upd) : (s.modUpd u f).pwr = s.pwr := rfl
@[simp] theorem State.modUpd_sec (s : State) (u : Nat) (f : Upd → Upd) : (s.modUpd u f).sec = s.sec := rfl
@[simp] theorem State.modUpd_recd (s : State) (u : Nat) (f : Upd → Upd) : (s.modUpd u f).recd = s.recd := rfl
@[simp] theorem State.modUpd_smb (s : State) (u : Nat) (f : Upd → Upd) : (s.modUpd u f).smb = s.smb := rfl
@[simp] theorem State.modUpd_ticks (s : State) (u : Nat) (f : Upd → Upd) : (s.modUpd u f).ticks = s.ticks := rfl
@[simp] theorem State.modUpd_free (s : State) (u : Nat) (f : Upd → Upd) : (s.modUpd u f).free = s.free := rfl
@[simp] theorem State.modUpd_pending (s : State) (u : Nat) (f : Upd → Upd) : (s.modUpd u f).pending = s.pending := rfl

/-! ### State.modFab -/

@[simp] theorem State.modFab_ident (s : State) (f : Fabric → Fabric) : (s.modFab f).ident = s.ident := rfl
@[simp] theorem State.modFab_pins (s : State) (f : Fabric → Fabric) : (s.modFab f).pins = s.pins := rfl
@[simp] theorem State.modFab_regs (s : State) (f : Fabric → Fabric) : (s.modFab f).regs = s.regs := rfl
@[simp] theorem State.modFab_staged (s : State) (f : Fabric → Fabric) : (s.modFab f).staged = s.staged := rfl
@[simp] theorem State.modFab_once (s : State) (f : Fabric → Fabric) : (s.modFab f).once = s.once := rfl
@[simp] theorem State.modFab_mem (s : State) (f : Fabric → Fabric) : (s.modFab f).mem = s.mem := rfl
@[simp] theorem State.modFab_cache (s : State) (f : Fabric → Fabric) : (s.modFab f).cache = s.cache := rfl
@[simp] theorem State.modFab_hbm (s : State) (f : Fabric → Fabric) : (s.modFab f).hbm = s.hbm := rfl
@[simp] theorem State.modFab_cores (s : State) (f : Fabric → Fabric) : (s.modFab f).cores = s.cores := rfl
@[simp] theorem State.modFab_te (s : State) (f : Fabric → Fabric) : (s.modFab f).te = s.te := rfl
@[simp] theorem State.modFab_ge (s : State) (f : Fabric → Fabric) : (s.modFab f).ge = s.ge := rfl
@[simp] theorem State.modFab_seqs (s : State) (f : Fabric → Fabric) : (s.modFab f).seqs = s.seqs := rfl
@[simp] theorem State.modFab_objs (s : State) (f : Fabric → Fabric) : (s.modFab f).objs = s.objs := rfl
@[simp] theorem State.modFab_loader (s : State) (f : Fabric → Fabric) : (s.modFab f).loader = s.loader := rfl
@[simp] theorem State.modFab_host (s : State) (f : Fabric → Fabric) : (s.modFab f).host = s.host := rfl
@[simp] theorem State.modFab_uu (s : State) (f : Fabric → Fabric) : (s.modFab f).uu = s.uu := rfl
@[simp] theorem State.modFab_surv (s : State) (f : Fabric → Fabric) : (s.modFab f).surv = s.surv := rfl
@[simp] theorem State.modFab_pwr (s : State) (f : Fabric → Fabric) : (s.modFab f).pwr = s.pwr := rfl
@[simp] theorem State.modFab_sec (s : State) (f : Fabric → Fabric) : (s.modFab f).sec = s.sec := rfl
@[simp] theorem State.modFab_recd (s : State) (f : Fabric → Fabric) : (s.modFab f).recd = s.recd := rfl
@[simp] theorem State.modFab_smb (s : State) (f : Fabric → Fabric) : (s.modFab f).smb = s.smb := rfl
@[simp] theorem State.modFab_ticks (s : State) (f : Fabric → Fabric) : (s.modFab f).ticks = s.ticks := rfl
@[simp] theorem State.modFab_free (s : State) (f : Fabric → Fabric) : (s.modFab f).free = s.free := rfl
@[simp] theorem State.modFab_pending (s : State) (f : Fabric → Fabric) : (s.modFab f).pending = s.pending := rfl

/-! ### State.modColl -/

@[simp] theorem State.modColl_ident (s : State) (i : Nat) (f : Coll → Coll) : (s.modColl i f).ident = s.ident := rfl
@[simp] theorem State.modColl_pins (s : State) (i : Nat) (f : Coll → Coll) : (s.modColl i f).pins = s.pins := rfl
@[simp] theorem State.modColl_regs (s : State) (i : Nat) (f : Coll → Coll) : (s.modColl i f).regs = s.regs := rfl
@[simp] theorem State.modColl_staged (s : State) (i : Nat) (f : Coll → Coll) : (s.modColl i f).staged = s.staged := rfl
@[simp] theorem State.modColl_once (s : State) (i : Nat) (f : Coll → Coll) : (s.modColl i f).once = s.once := rfl
@[simp] theorem State.modColl_mem (s : State) (i : Nat) (f : Coll → Coll) : (s.modColl i f).mem = s.mem := rfl
@[simp] theorem State.modColl_cache (s : State) (i : Nat) (f : Coll → Coll) : (s.modColl i f).cache = s.cache := rfl
@[simp] theorem State.modColl_hbm (s : State) (i : Nat) (f : Coll → Coll) : (s.modColl i f).hbm = s.hbm := rfl
@[simp] theorem State.modColl_cores (s : State) (i : Nat) (f : Coll → Coll) : (s.modColl i f).cores = s.cores := rfl
@[simp] theorem State.modColl_te (s : State) (i : Nat) (f : Coll → Coll) : (s.modColl i f).te = s.te := rfl
@[simp] theorem State.modColl_ge (s : State) (i : Nat) (f : Coll → Coll) : (s.modColl i f).ge = s.ge := rfl
@[simp] theorem State.modColl_seqs (s : State) (i : Nat) (f : Coll → Coll) : (s.modColl i f).seqs = s.seqs := rfl
@[simp] theorem State.modColl_objs (s : State) (i : Nat) (f : Coll → Coll) : (s.modColl i f).objs = s.objs := rfl
@[simp] theorem State.modColl_loader (s : State) (i : Nat) (f : Coll → Coll) : (s.modColl i f).loader = s.loader := rfl
@[simp] theorem State.modColl_host (s : State) (i : Nat) (f : Coll → Coll) : (s.modColl i f).host = s.host := rfl
@[simp] theorem State.modColl_uu (s : State) (i : Nat) (f : Coll → Coll) : (s.modColl i f).uu = s.uu := rfl
@[simp] theorem State.modColl_surv (s : State) (i : Nat) (f : Coll → Coll) : (s.modColl i f).surv = s.surv := rfl
@[simp] theorem State.modColl_pwr (s : State) (i : Nat) (f : Coll → Coll) : (s.modColl i f).pwr = s.pwr := rfl
@[simp] theorem State.modColl_sec (s : State) (i : Nat) (f : Coll → Coll) : (s.modColl i f).sec = s.sec := rfl
@[simp] theorem State.modColl_recd (s : State) (i : Nat) (f : Coll → Coll) : (s.modColl i f).recd = s.recd := rfl
@[simp] theorem State.modColl_smb (s : State) (i : Nat) (f : Coll → Coll) : (s.modColl i f).smb = s.smb := rfl
@[simp] theorem State.modColl_ticks (s : State) (i : Nat) (f : Coll → Coll) : (s.modColl i f).ticks = s.ticks := rfl
@[simp] theorem State.modColl_free (s : State) (i : Nat) (f : Coll → Coll) : (s.modColl i f).free = s.free := rfl
@[simp] theorem State.modColl_pending (s : State) (i : Nat) (f : Coll → Coll) : (s.modColl i f).pending = s.pending := rfl

/-! ### State.modSurv -/

@[simp] theorem State.modSurv_ident (s : State) (f : Surv → Surv) : (s.modSurv f).ident = s.ident := rfl
@[simp] theorem State.modSurv_pins (s : State) (f : Surv → Surv) : (s.modSurv f).pins = s.pins := rfl
@[simp] theorem State.modSurv_regs (s : State) (f : Surv → Surv) : (s.modSurv f).regs = s.regs := rfl
@[simp] theorem State.modSurv_staged (s : State) (f : Surv → Surv) : (s.modSurv f).staged = s.staged := rfl
@[simp] theorem State.modSurv_once (s : State) (f : Surv → Surv) : (s.modSurv f).once = s.once := rfl
@[simp] theorem State.modSurv_mem (s : State) (f : Surv → Surv) : (s.modSurv f).mem = s.mem := rfl
@[simp] theorem State.modSurv_cache (s : State) (f : Surv → Surv) : (s.modSurv f).cache = s.cache := rfl
@[simp] theorem State.modSurv_hbm (s : State) (f : Surv → Surv) : (s.modSurv f).hbm = s.hbm := rfl
@[simp] theorem State.modSurv_cores (s : State) (f : Surv → Surv) : (s.modSurv f).cores = s.cores := rfl
@[simp] theorem State.modSurv_te (s : State) (f : Surv → Surv) : (s.modSurv f).te = s.te := rfl
@[simp] theorem State.modSurv_ge (s : State) (f : Surv → Surv) : (s.modSurv f).ge = s.ge := rfl
@[simp] theorem State.modSurv_seqs (s : State) (f : Surv → Surv) : (s.modSurv f).seqs = s.seqs := rfl
@[simp] theorem State.modSurv_objs (s : State) (f : Surv → Surv) : (s.modSurv f).objs = s.objs := rfl
@[simp] theorem State.modSurv_loader (s : State) (f : Surv → Surv) : (s.modSurv f).loader = s.loader := rfl
@[simp] theorem State.modSurv_host (s : State) (f : Surv → Surv) : (s.modSurv f).host = s.host := rfl
@[simp] theorem State.modSurv_fab (s : State) (f : Surv → Surv) : (s.modSurv f).fab = s.fab := rfl
@[simp] theorem State.modSurv_uu (s : State) (f : Surv → Surv) : (s.modSurv f).uu = s.uu := rfl
@[simp] theorem State.modSurv_pwr (s : State) (f : Surv → Surv) : (s.modSurv f).pwr = s.pwr := rfl
@[simp] theorem State.modSurv_sec (s : State) (f : Surv → Surv) : (s.modSurv f).sec = s.sec := rfl
@[simp] theorem State.modSurv_recd (s : State) (f : Surv → Surv) : (s.modSurv f).recd = s.recd := rfl
@[simp] theorem State.modSurv_smb (s : State) (f : Surv → Surv) : (s.modSurv f).smb = s.smb := rfl
@[simp] theorem State.modSurv_ticks (s : State) (f : Surv → Surv) : (s.modSurv f).ticks = s.ticks := rfl
@[simp] theorem State.modSurv_free (s : State) (f : Surv → Surv) : (s.modSurv f).free = s.free := rfl
@[simp] theorem State.modSurv_pending (s : State) (f : Surv → Surv) : (s.modSurv f).pending = s.pending := rfl

/-! ### State.setProt -/

@[simp] theorem State.setProt_ident (s : State) (j : Nat) (p : Prot) : (s.setProt j p).ident = s.ident := rfl
@[simp] theorem State.setProt_pins (s : State) (j : Nat) (p : Prot) : (s.setProt j p).pins = s.pins := rfl
@[simp] theorem State.setProt_regs (s : State) (j : Nat) (p : Prot) : (s.setProt j p).regs = s.regs := rfl
@[simp] theorem State.setProt_staged (s : State) (j : Nat) (p : Prot) : (s.setProt j p).staged = s.staged := rfl
@[simp] theorem State.setProt_once (s : State) (j : Nat) (p : Prot) : (s.setProt j p).once = s.once := rfl
@[simp] theorem State.setProt_mem (s : State) (j : Nat) (p : Prot) : (s.setProt j p).mem = s.mem := rfl
@[simp] theorem State.setProt_cache (s : State) (j : Nat) (p : Prot) : (s.setProt j p).cache = s.cache := rfl
@[simp] theorem State.setProt_hbm (s : State) (j : Nat) (p : Prot) : (s.setProt j p).hbm = s.hbm := rfl
@[simp] theorem State.setProt_cores (s : State) (j : Nat) (p : Prot) : (s.setProt j p).cores = s.cores := rfl
@[simp] theorem State.setProt_te (s : State) (j : Nat) (p : Prot) : (s.setProt j p).te = s.te := rfl
@[simp] theorem State.setProt_ge (s : State) (j : Nat) (p : Prot) : (s.setProt j p).ge = s.ge := rfl
@[simp] theorem State.setProt_seqs (s : State) (j : Nat) (p : Prot) : (s.setProt j p).seqs = s.seqs := rfl
@[simp] theorem State.setProt_objs (s : State) (j : Nat) (p : Prot) : (s.setProt j p).objs = s.objs := rfl
@[simp] theorem State.setProt_loader (s : State) (j : Nat) (p : Prot) : (s.setProt j p).loader = s.loader := rfl
@[simp] theorem State.setProt_host (s : State) (j : Nat) (p : Prot) : (s.setProt j p).host = s.host := rfl
@[simp] theorem State.setProt_fab (s : State) (j : Nat) (p : Prot) : (s.setProt j p).fab = s.fab := rfl
@[simp] theorem State.setProt_uu (s : State) (j : Nat) (p : Prot) : (s.setProt j p).uu = s.uu := rfl
@[simp] theorem State.setProt_pwr (s : State) (j : Nat) (p : Prot) : (s.setProt j p).pwr = s.pwr := rfl
@[simp] theorem State.setProt_sec (s : State) (j : Nat) (p : Prot) : (s.setProt j p).sec = s.sec := rfl
@[simp] theorem State.setProt_recd (s : State) (j : Nat) (p : Prot) : (s.setProt j p).recd = s.recd := rfl
@[simp] theorem State.setProt_smb (s : State) (j : Nat) (p : Prot) : (s.setProt j p).smb = s.smb := rfl
@[simp] theorem State.setProt_ticks (s : State) (j : Nat) (p : Prot) : (s.setProt j p).ticks = s.ticks := rfl
@[simp] theorem State.setProt_free (s : State) (j : Nat) (p : Prot) : (s.setProt j p).free = s.free := rfl
@[simp] theorem State.setProt_pending (s : State) (j : Nat) (p : Prot) : (s.setProt j p).pending = s.pending := rfl

/-! ### State.modPwr -/

@[simp] theorem State.modPwr_ident (s : State) (f : Power → Power) : (s.modPwr f).ident = s.ident := rfl
@[simp] theorem State.modPwr_pins (s : State) (f : Power → Power) : (s.modPwr f).pins = s.pins := rfl
@[simp] theorem State.modPwr_regs (s : State) (f : Power → Power) : (s.modPwr f).regs = s.regs := rfl
@[simp] theorem State.modPwr_staged (s : State) (f : Power → Power) : (s.modPwr f).staged = s.staged := rfl
@[simp] theorem State.modPwr_once (s : State) (f : Power → Power) : (s.modPwr f).once = s.once := rfl
@[simp] theorem State.modPwr_mem (s : State) (f : Power → Power) : (s.modPwr f).mem = s.mem := rfl
@[simp] theorem State.modPwr_cache (s : State) (f : Power → Power) : (s.modPwr f).cache = s.cache := rfl
@[simp] theorem State.modPwr_hbm (s : State) (f : Power → Power) : (s.modPwr f).hbm = s.hbm := rfl
@[simp] theorem State.modPwr_cores (s : State) (f : Power → Power) : (s.modPwr f).cores = s.cores := rfl
@[simp] theorem State.modPwr_te (s : State) (f : Power → Power) : (s.modPwr f).te = s.te := rfl
@[simp] theorem State.modPwr_ge (s : State) (f : Power → Power) : (s.modPwr f).ge = s.ge := rfl
@[simp] theorem State.modPwr_seqs (s : State) (f : Power → Power) : (s.modPwr f).seqs = s.seqs := rfl
@[simp] theorem State.modPwr_objs (s : State) (f : Power → Power) : (s.modPwr f).objs = s.objs := rfl
@[simp] theorem State.modPwr_loader (s : State) (f : Power → Power) : (s.modPwr f).loader = s.loader := rfl
@[simp] theorem State.modPwr_host (s : State) (f : Power → Power) : (s.modPwr f).host = s.host := rfl
@[simp] theorem State.modPwr_fab (s : State) (f : Power → Power) : (s.modPwr f).fab = s.fab := rfl
@[simp] theorem State.modPwr_uu (s : State) (f : Power → Power) : (s.modPwr f).uu = s.uu := rfl
@[simp] theorem State.modPwr_surv (s : State) (f : Power → Power) : (s.modPwr f).surv = s.surv := rfl
@[simp] theorem State.modPwr_sec (s : State) (f : Power → Power) : (s.modPwr f).sec = s.sec := rfl
@[simp] theorem State.modPwr_recd (s : State) (f : Power → Power) : (s.modPwr f).recd = s.recd := rfl
@[simp] theorem State.modPwr_smb (s : State) (f : Power → Power) : (s.modPwr f).smb = s.smb := rfl
@[simp] theorem State.modPwr_ticks (s : State) (f : Power → Power) : (s.modPwr f).ticks = s.ticks := rfl
@[simp] theorem State.modPwr_free (s : State) (f : Power → Power) : (s.modPwr f).free = s.free := rfl
@[simp] theorem State.modPwr_pending (s : State) (f : Power → Power) : (s.modPwr f).pending = s.pending := rfl

/-! ### State.modPins -/

@[simp] theorem State.modPins_ident (s : State) (f : Pins → Pins) : (s.modPins f).ident = s.ident := rfl
@[simp] theorem State.modPins_regs (s : State) (f : Pins → Pins) : (s.modPins f).regs = s.regs := rfl
@[simp] theorem State.modPins_staged (s : State) (f : Pins → Pins) : (s.modPins f).staged = s.staged := rfl
@[simp] theorem State.modPins_once (s : State) (f : Pins → Pins) : (s.modPins f).once = s.once := rfl
@[simp] theorem State.modPins_mem (s : State) (f : Pins → Pins) : (s.modPins f).mem = s.mem := rfl
@[simp] theorem State.modPins_cache (s : State) (f : Pins → Pins) : (s.modPins f).cache = s.cache := rfl
@[simp] theorem State.modPins_hbm (s : State) (f : Pins → Pins) : (s.modPins f).hbm = s.hbm := rfl
@[simp] theorem State.modPins_cores (s : State) (f : Pins → Pins) : (s.modPins f).cores = s.cores := rfl
@[simp] theorem State.modPins_te (s : State) (f : Pins → Pins) : (s.modPins f).te = s.te := rfl
@[simp] theorem State.modPins_ge (s : State) (f : Pins → Pins) : (s.modPins f).ge = s.ge := rfl
@[simp] theorem State.modPins_seqs (s : State) (f : Pins → Pins) : (s.modPins f).seqs = s.seqs := rfl
@[simp] theorem State.modPins_objs (s : State) (f : Pins → Pins) : (s.modPins f).objs = s.objs := rfl
@[simp] theorem State.modPins_loader (s : State) (f : Pins → Pins) : (s.modPins f).loader = s.loader := rfl
@[simp] theorem State.modPins_host (s : State) (f : Pins → Pins) : (s.modPins f).host = s.host := rfl
@[simp] theorem State.modPins_fab (s : State) (f : Pins → Pins) : (s.modPins f).fab = s.fab := rfl
@[simp] theorem State.modPins_uu (s : State) (f : Pins → Pins) : (s.modPins f).uu = s.uu := rfl
@[simp] theorem State.modPins_surv (s : State) (f : Pins → Pins) : (s.modPins f).surv = s.surv := rfl
@[simp] theorem State.modPins_pwr (s : State) (f : Pins → Pins) : (s.modPins f).pwr = s.pwr := rfl
@[simp] theorem State.modPins_sec (s : State) (f : Pins → Pins) : (s.modPins f).sec = s.sec := rfl
@[simp] theorem State.modPins_recd (s : State) (f : Pins → Pins) : (s.modPins f).recd = s.recd := rfl
@[simp] theorem State.modPins_smb (s : State) (f : Pins → Pins) : (s.modPins f).smb = s.smb := rfl
@[simp] theorem State.modPins_ticks (s : State) (f : Pins → Pins) : (s.modPins f).ticks = s.ticks := rfl
@[simp] theorem State.modPins_free (s : State) (f : Pins → Pins) : (s.modPins f).free = s.free := rfl
@[simp] theorem State.modPins_pending (s : State) (f : Pins → Pins) : (s.modPins f).pending = s.pending := rfl

/-! ### State.modSmb -/

@[simp] theorem State.modSmb_ident (s : State) (f : Smb → Smb) : (s.modSmb f).ident = s.ident := rfl
@[simp] theorem State.modSmb_pins (s : State) (f : Smb → Smb) : (s.modSmb f).pins = s.pins := rfl
@[simp] theorem State.modSmb_regs (s : State) (f : Smb → Smb) : (s.modSmb f).regs = s.regs := rfl
@[simp] theorem State.modSmb_staged (s : State) (f : Smb → Smb) : (s.modSmb f).staged = s.staged := rfl
@[simp] theorem State.modSmb_once (s : State) (f : Smb → Smb) : (s.modSmb f).once = s.once := rfl
@[simp] theorem State.modSmb_mem (s : State) (f : Smb → Smb) : (s.modSmb f).mem = s.mem := rfl
@[simp] theorem State.modSmb_cache (s : State) (f : Smb → Smb) : (s.modSmb f).cache = s.cache := rfl
@[simp] theorem State.modSmb_hbm (s : State) (f : Smb → Smb) : (s.modSmb f).hbm = s.hbm := rfl
@[simp] theorem State.modSmb_cores (s : State) (f : Smb → Smb) : (s.modSmb f).cores = s.cores := rfl
@[simp] theorem State.modSmb_te (s : State) (f : Smb → Smb) : (s.modSmb f).te = s.te := rfl
@[simp] theorem State.modSmb_ge (s : State) (f : Smb → Smb) : (s.modSmb f).ge = s.ge := rfl
@[simp] theorem State.modSmb_seqs (s : State) (f : Smb → Smb) : (s.modSmb f).seqs = s.seqs := rfl
@[simp] theorem State.modSmb_objs (s : State) (f : Smb → Smb) : (s.modSmb f).objs = s.objs := rfl
@[simp] theorem State.modSmb_loader (s : State) (f : Smb → Smb) : (s.modSmb f).loader = s.loader := rfl
@[simp] theorem State.modSmb_host (s : State) (f : Smb → Smb) : (s.modSmb f).host = s.host := rfl
@[simp] theorem State.modSmb_fab (s : State) (f : Smb → Smb) : (s.modSmb f).fab = s.fab := rfl
@[simp] theorem State.modSmb_uu (s : State) (f : Smb → Smb) : (s.modSmb f).uu = s.uu := rfl
@[simp] theorem State.modSmb_surv (s : State) (f : Smb → Smb) : (s.modSmb f).surv = s.surv := rfl
@[simp] theorem State.modSmb_pwr (s : State) (f : Smb → Smb) : (s.modSmb f).pwr = s.pwr := rfl
@[simp] theorem State.modSmb_sec (s : State) (f : Smb → Smb) : (s.modSmb f).sec = s.sec := rfl
@[simp] theorem State.modSmb_recd (s : State) (f : Smb → Smb) : (s.modSmb f).recd = s.recd := rfl
@[simp] theorem State.modSmb_ticks (s : State) (f : Smb → Smb) : (s.modSmb f).ticks = s.ticks := rfl
@[simp] theorem State.modSmb_free (s : State) (f : Smb → Smb) : (s.modSmb f).free = s.free := rfl
@[simp] theorem State.modSmb_pending (s : State) (f : Smb → Smb) : (s.modSmb f).pending = s.pending := rfl

/-! ### State.modRecd -/

@[simp] theorem State.modRecd_ident (s : State) (f : Recorder → Recorder) : (s.modRecd f).ident = s.ident := rfl
@[simp] theorem State.modRecd_pins (s : State) (f : Recorder → Recorder) : (s.modRecd f).pins = s.pins := rfl
@[simp] theorem State.modRecd_regs (s : State) (f : Recorder → Recorder) : (s.modRecd f).regs = s.regs := rfl
@[simp] theorem State.modRecd_staged (s : State) (f : Recorder → Recorder) : (s.modRecd f).staged = s.staged := rfl
@[simp] theorem State.modRecd_once (s : State) (f : Recorder → Recorder) : (s.modRecd f).once = s.once := rfl
@[simp] theorem State.modRecd_mem (s : State) (f : Recorder → Recorder) : (s.modRecd f).mem = s.mem := rfl
@[simp] theorem State.modRecd_cache (s : State) (f : Recorder → Recorder) : (s.modRecd f).cache = s.cache := rfl
@[simp] theorem State.modRecd_hbm (s : State) (f : Recorder → Recorder) : (s.modRecd f).hbm = s.hbm := rfl
@[simp] theorem State.modRecd_cores (s : State) (f : Recorder → Recorder) : (s.modRecd f).cores = s.cores := rfl
@[simp] theorem State.modRecd_te (s : State) (f : Recorder → Recorder) : (s.modRecd f).te = s.te := rfl
@[simp] theorem State.modRecd_ge (s : State) (f : Recorder → Recorder) : (s.modRecd f).ge = s.ge := rfl
@[simp] theorem State.modRecd_seqs (s : State) (f : Recorder → Recorder) : (s.modRecd f).seqs = s.seqs := rfl
@[simp] theorem State.modRecd_objs (s : State) (f : Recorder → Recorder) : (s.modRecd f).objs = s.objs := rfl
@[simp] theorem State.modRecd_loader (s : State) (f : Recorder → Recorder) : (s.modRecd f).loader = s.loader := rfl
@[simp] theorem State.modRecd_host (s : State) (f : Recorder → Recorder) : (s.modRecd f).host = s.host := rfl
@[simp] theorem State.modRecd_fab (s : State) (f : Recorder → Recorder) : (s.modRecd f).fab = s.fab := rfl
@[simp] theorem State.modRecd_uu (s : State) (f : Recorder → Recorder) : (s.modRecd f).uu = s.uu := rfl
@[simp] theorem State.modRecd_surv (s : State) (f : Recorder → Recorder) : (s.modRecd f).surv = s.surv := rfl
@[simp] theorem State.modRecd_pwr (s : State) (f : Recorder → Recorder) : (s.modRecd f).pwr = s.pwr := rfl
@[simp] theorem State.modRecd_sec (s : State) (f : Recorder → Recorder) : (s.modRecd f).sec = s.sec := rfl
@[simp] theorem State.modRecd_smb (s : State) (f : Recorder → Recorder) : (s.modRecd f).smb = s.smb := rfl
@[simp] theorem State.modRecd_ticks (s : State) (f : Recorder → Recorder) : (s.modRecd f).ticks = s.ticks := rfl
@[simp] theorem State.modRecd_free (s : State) (f : Recorder → Recorder) : (s.modRecd f).free = s.free := rfl
@[simp] theorem State.modRecd_pending (s : State) (f : Recorder → Recorder) : (s.modRecd f).pending = s.pending := rfl

/-! ### State.modSec -/

@[simp] theorem State.modSec_ident (s : State) (f : Sec → Sec) : (s.modSec f).ident = s.ident := rfl
@[simp] theorem State.modSec_pins (s : State) (f : Sec → Sec) : (s.modSec f).pins = s.pins := rfl
@[simp] theorem State.modSec_regs (s : State) (f : Sec → Sec) : (s.modSec f).regs = s.regs := rfl
@[simp] theorem State.modSec_staged (s : State) (f : Sec → Sec) : (s.modSec f).staged = s.staged := rfl
@[simp] theorem State.modSec_once (s : State) (f : Sec → Sec) : (s.modSec f).once = s.once := rfl
@[simp] theorem State.modSec_mem (s : State) (f : Sec → Sec) : (s.modSec f).mem = s.mem := rfl
@[simp] theorem State.modSec_cache (s : State) (f : Sec → Sec) : (s.modSec f).cache = s.cache := rfl
@[simp] theorem State.modSec_hbm (s : State) (f : Sec → Sec) : (s.modSec f).hbm = s.hbm := rfl
@[simp] theorem State.modSec_cores (s : State) (f : Sec → Sec) : (s.modSec f).cores = s.cores := rfl
@[simp] theorem State.modSec_te (s : State) (f : Sec → Sec) : (s.modSec f).te = s.te := rfl
@[simp] theorem State.modSec_ge (s : State) (f : Sec → Sec) : (s.modSec f).ge = s.ge := rfl
@[simp] theorem State.modSec_seqs (s : State) (f : Sec → Sec) : (s.modSec f).seqs = s.seqs := rfl
@[simp] theorem State.modSec_objs (s : State) (f : Sec → Sec) : (s.modSec f).objs = s.objs := rfl
@[simp] theorem State.modSec_loader (s : State) (f : Sec → Sec) : (s.modSec f).loader = s.loader := rfl
@[simp] theorem State.modSec_host (s : State) (f : Sec → Sec) : (s.modSec f).host = s.host := rfl
@[simp] theorem State.modSec_fab (s : State) (f : Sec → Sec) : (s.modSec f).fab = s.fab := rfl
@[simp] theorem State.modSec_uu (s : State) (f : Sec → Sec) : (s.modSec f).uu = s.uu := rfl
@[simp] theorem State.modSec_surv (s : State) (f : Sec → Sec) : (s.modSec f).surv = s.surv := rfl
@[simp] theorem State.modSec_pwr (s : State) (f : Sec → Sec) : (s.modSec f).pwr = s.pwr := rfl
@[simp] theorem State.modSec_recd (s : State) (f : Sec → Sec) : (s.modSec f).recd = s.recd := rfl
@[simp] theorem State.modSec_smb (s : State) (f : Sec → Sec) : (s.modSec f).smb = s.smb := rfl
@[simp] theorem State.modSec_ticks (s : State) (f : Sec → Sec) : (s.modSec f).ticks = s.ticks := rfl
@[simp] theorem State.modSec_free (s : State) (f : Sec → Sec) : (s.modSec f).free = s.free := rfl
@[simp] theorem State.modSec_pending (s : State) (f : Sec → Sec) : (s.modSec f).pending = s.pending := rfl

/-! ### State.modFw -/

@[simp] theorem State.modFw_ident (s : State) (u : Nat) (f : FwUnit → FwUnit) : (s.modFw u f).ident = s.ident := rfl
@[simp] theorem State.modFw_pins (s : State) (u : Nat) (f : FwUnit → FwUnit) : (s.modFw u f).pins = s.pins := rfl
@[simp] theorem State.modFw_regs (s : State) (u : Nat) (f : FwUnit → FwUnit) : (s.modFw u f).regs = s.regs := rfl
@[simp] theorem State.modFw_staged (s : State) (u : Nat) (f : FwUnit → FwUnit) : (s.modFw u f).staged = s.staged := rfl
@[simp] theorem State.modFw_once (s : State) (u : Nat) (f : FwUnit → FwUnit) : (s.modFw u f).once = s.once := rfl
@[simp] theorem State.modFw_mem (s : State) (u : Nat) (f : FwUnit → FwUnit) : (s.modFw u f).mem = s.mem := rfl
@[simp] theorem State.modFw_cache (s : State) (u : Nat) (f : FwUnit → FwUnit) : (s.modFw u f).cache = s.cache := rfl
@[simp] theorem State.modFw_hbm (s : State) (u : Nat) (f : FwUnit → FwUnit) : (s.modFw u f).hbm = s.hbm := rfl
@[simp] theorem State.modFw_cores (s : State) (u : Nat) (f : FwUnit → FwUnit) : (s.modFw u f).cores = s.cores := rfl
@[simp] theorem State.modFw_te (s : State) (u : Nat) (f : FwUnit → FwUnit) : (s.modFw u f).te = s.te := rfl
@[simp] theorem State.modFw_ge (s : State) (u : Nat) (f : FwUnit → FwUnit) : (s.modFw u f).ge = s.ge := rfl
@[simp] theorem State.modFw_seqs (s : State) (u : Nat) (f : FwUnit → FwUnit) : (s.modFw u f).seqs = s.seqs := rfl
@[simp] theorem State.modFw_objs (s : State) (u : Nat) (f : FwUnit → FwUnit) : (s.modFw u f).objs = s.objs := rfl
@[simp] theorem State.modFw_loader (s : State) (u : Nat) (f : FwUnit → FwUnit) : (s.modFw u f).loader = s.loader := rfl
@[simp] theorem State.modFw_host (s : State) (u : Nat) (f : FwUnit → FwUnit) : (s.modFw u f).host = s.host := rfl
@[simp] theorem State.modFw_fab (s : State) (u : Nat) (f : FwUnit → FwUnit) : (s.modFw u f).fab = s.fab := rfl
@[simp] theorem State.modFw_uu (s : State) (u : Nat) (f : FwUnit → FwUnit) : (s.modFw u f).uu = s.uu := rfl
@[simp] theorem State.modFw_surv (s : State) (u : Nat) (f : FwUnit → FwUnit) : (s.modFw u f).surv = s.surv := rfl
@[simp] theorem State.modFw_pwr (s : State) (u : Nat) (f : FwUnit → FwUnit) : (s.modFw u f).pwr = s.pwr := rfl
@[simp] theorem State.modFw_recd (s : State) (u : Nat) (f : FwUnit → FwUnit) : (s.modFw u f).recd = s.recd := rfl
@[simp] theorem State.modFw_smb (s : State) (u : Nat) (f : FwUnit → FwUnit) : (s.modFw u f).smb = s.smb := rfl
@[simp] theorem State.modFw_ticks (s : State) (u : Nat) (f : FwUnit → FwUnit) : (s.modFw u f).ticks = s.ticks := rfl
@[simp] theorem State.modFw_free (s : State) (u : Nat) (f : FwUnit → FwUnit) : (s.modFw u f).free = s.free := rfl
@[simp] theorem State.modFw_pending (s : State) (u : Nat) (f : FwUnit → FwUnit) : (s.modFw u f).pending = s.pending := rfl

/-! ### State.setKind -/

@[simp] theorem State.setKind_pins (s : State) (c : Nat) (k : CoreKind) : (s.setKind c k).pins = s.pins := rfl
@[simp] theorem State.setKind_regs (s : State) (c : Nat) (k : CoreKind) : (s.setKind c k).regs = s.regs := rfl
@[simp] theorem State.setKind_staged (s : State) (c : Nat) (k : CoreKind) : (s.setKind c k).staged = s.staged := rfl
@[simp] theorem State.setKind_once (s : State) (c : Nat) (k : CoreKind) : (s.setKind c k).once = s.once := rfl
@[simp] theorem State.setKind_mem (s : State) (c : Nat) (k : CoreKind) : (s.setKind c k).mem = s.mem := rfl
@[simp] theorem State.setKind_cache (s : State) (c : Nat) (k : CoreKind) : (s.setKind c k).cache = s.cache := rfl
@[simp] theorem State.setKind_hbm (s : State) (c : Nat) (k : CoreKind) : (s.setKind c k).hbm = s.hbm := rfl
@[simp] theorem State.setKind_cores (s : State) (c : Nat) (k : CoreKind) : (s.setKind c k).cores = s.cores := rfl
@[simp] theorem State.setKind_te (s : State) (c : Nat) (k : CoreKind) : (s.setKind c k).te = s.te := rfl
@[simp] theorem State.setKind_ge (s : State) (c : Nat) (k : CoreKind) : (s.setKind c k).ge = s.ge := rfl
@[simp] theorem State.setKind_seqs (s : State) (c : Nat) (k : CoreKind) : (s.setKind c k).seqs = s.seqs := rfl
@[simp] theorem State.setKind_objs (s : State) (c : Nat) (k : CoreKind) : (s.setKind c k).objs = s.objs := rfl
@[simp] theorem State.setKind_loader (s : State) (c : Nat) (k : CoreKind) : (s.setKind c k).loader = s.loader := rfl
@[simp] theorem State.setKind_host (s : State) (c : Nat) (k : CoreKind) : (s.setKind c k).host = s.host := rfl
@[simp] theorem State.setKind_fab (s : State) (c : Nat) (k : CoreKind) : (s.setKind c k).fab = s.fab := rfl
@[simp] theorem State.setKind_uu (s : State) (c : Nat) (k : CoreKind) : (s.setKind c k).uu = s.uu := rfl
@[simp] theorem State.setKind_surv (s : State) (c : Nat) (k : CoreKind) : (s.setKind c k).surv = s.surv := rfl
@[simp] theorem State.setKind_pwr (s : State) (c : Nat) (k : CoreKind) : (s.setKind c k).pwr = s.pwr := rfl
@[simp] theorem State.setKind_sec (s : State) (c : Nat) (k : CoreKind) : (s.setKind c k).sec = s.sec := rfl
@[simp] theorem State.setKind_recd (s : State) (c : Nat) (k : CoreKind) : (s.setKind c k).recd = s.recd := rfl
@[simp] theorem State.setKind_smb (s : State) (c : Nat) (k : CoreKind) : (s.setKind c k).smb = s.smb := rfl
@[simp] theorem State.setKind_ticks (s : State) (c : Nat) (k : CoreKind) : (s.setKind c k).ticks = s.ticks := rfl
@[simp] theorem State.setKind_free (s : State) (c : Nat) (k : CoreKind) : (s.setKind c k).free = s.free := rfl
@[simp] theorem State.setKind_pending (s : State) (c : Nat) (k : CoreKind) : (s.setKind c k).pending = s.pending := rfl
/-- A free value drawn leaves every part but the counter of free values. -/
theorem State.draw_snd (s : State) : s.draw.2 = { s with free := s.free + 1 } := rfl

end Sys2Proof.Machine
end

