-- ==== Sys2Proof/Laws/Tables.lean ====
section
/-! SUPPORT. Tables and registers: what is read after what was written. -/

namespace Sys2Proof.Machine

open Sys2Proof

variable {α : Type}

@[simp] theorem look_put_self (t : Tab α) (k : Nat) (v : α) : look (put t k v) k = some v := by
  induction t with
  | nil => simp [put, look]
  | cons e t ih =>
    obtain ⟨a, w⟩ := e
    unfold put
    split_ifs with h1 h2
    · simp [look]
    · simp [look]
    · simp [look, h2, ih]

theorem look_put_ne (t : Tab α) {k j : Nat} (v : α) (h : j ≠ k) : look (put t k v) j = look t j := by
  induction t with
  | nil => simp [put, look, Ne.symm h]
  | cons e t ih =>
    obtain ⟨a, w⟩ := e
    unfold put
    split_ifs with h1 h2
    · simp [look, Ne.symm h]
    · subst h2; simp [look, Ne.symm h]
    · simp [look, ih]

/-- Any entry read after one was set. -/
theorem look_put (t : Tab α) (k j : Nat) (v : α) : look (put t k v) j = if j = k then some v else look t j := by
  by_cases h : j = k
  · subst h; simp
  · rw [look_put_ne t v h, if_neg h]

@[simp] theorem lookD_put_self (t : Tab α) (k : Nat) (v d : α) : lookD (put t k v) k d = v := by simp [lookD]

theorem lookD_put_ne (t : Tab α) {k j : Nat} (v d : α) (h : j ≠ k) : lookD (put t k v) j d = lookD t j d := by
  simp [lookD, look_put_ne t v h]

@[simp] theorem look_del_self (t : Tab α) (k : Nat) : look (del t k) k = none := by
  induction t with
  | nil => rfl
  | cons e t ih =>
    obtain ⟨a, w⟩ := e
    by_cases h : a = k
    · simpa [del, h] using ih
    · simp only [del, ne_eq, h, not_false_eq_true, List.filter_cons_of_pos, bne_iff_ne, look, if_false] at ih ⊢
      exact ih

theorem look_del_ne (t : Tab α) {k j : Nat} (h : j ≠ k) : look (del t k) j = look t j := by
  induction t with
  | nil => rfl
  | cons e t ih =>
    obtain ⟨a, w⟩ := e
    by_cases hk : a = k
    · have hj : ¬ a = j := fun e => h (e ▸ hk)
      simp only [look, hj, if_false, ← ih]
      simp [del, hk]
    · simp only [del, ne_eq, hk, not_false_eq_true, List.filter_cons_of_pos, bne_iff_ne, look] at ih ⊢
      split
      · rfl
      · exact ih

theorem look_upd (t : Tab α) (k j : Nat) (f : α → α) : look (upd t k f) j = (look t j).map fun v => if j = k then f v else v := by
  induction t with
  | nil => rfl
  | cons e t ih =>
    obtain ⟨a, w⟩ := e
    simp only [upd, List.map_cons] at ih ⊢
    by_cases hk : a = k <;> by_cases hj : a = j <;> simp_all [look]

/-- A register reads the value set, modulo 2^64. -/
@[simp] theorem State.reg_setReg_self (s : State) (off v : Nat) : (s.setReg off v).reg off = v % 2 ^ 64 := by
  simp [State.reg, State.setReg]

/-- Setting one register leaves every other as it is. -/
theorem State.reg_setReg_ne (s : State) {off o : Nat} (v : Nat) (h : o ≠ off) : (s.setReg off v).reg o = s.reg o := by
  simp [State.reg, State.setReg, look_put_ne _ _ h]

/-- A counter raised reads its sum modulo 2^64. -/
theorem State.reg_bump_self (s : State) (off n : Nat) : (s.bump off n).reg off = (s.reg off + n) % 2 ^ 64 := by
  simp [State.bump]

theorem State.reg_bump_ne (s : State) {off o : Nat} (n : Nat) (h : o ≠ off) : (s.bump off n).reg o = s.reg o :=
  s.reg_setReg_ne _ h

@[simp] theorem State.core_setCore_self (s : State) (c : Nat) (k : Core) : (s.setCore c k).core c = k := by
  simp [State.core, State.setCore]

theorem State.core_setCore_ne (s : State) {c d : Nat} (k : Core) (h : d ≠ c) : (s.setCore c k).core d = s.core d := by
  simp [State.core, State.setCore, lookD_put_ne _ _ _ h]

@[simp] theorem State.core_modCore_self (s : State) (c : Nat) (f : Core → Core) : (s.modCore c f).core c = f (s.core c) := by
  simp [State.modCore]

theorem State.core_modCore_ne (s : State) {c d : Nat} (f : Core → Core) (h : d ≠ c) : (s.modCore c f).core d = s.core d :=
  s.core_setCore_ne _ h

@[simp] theorem State.die_modDie_self (s : State) (d : Nat) (f : Die → Die) : (s.modDie d f).die d = f (s.die d) := by
  simp [State.die, State.modDie]

theorem State.die_modDie_ne (s : State) {d e : Nat} (f : Die → Die) (h : e ≠ d) : (s.modDie d f).die e = s.die e := by
  simp [State.die, State.modDie, lookD_put_ne _ _ _ h]

/-- Any register read after one was set. -/
theorem State.reg_setReg (s : State) (off o v : Nat) : (s.setReg off v).reg o = if o = off then v % 2 ^ 64 else s.reg o := by
  by_cases h : o = off
  · subst h; simp
  · rw [State.reg_setReg_ne s v h, if_neg h]

end Sys2Proof.Machine
end

