-- ==== Sys2Proof/Tests/Slice0.lean ====
section
/-! SUPPORT. Tests: the refusals of WellFormed, and for every statement a small state and operands that meet its hypotheses together. -/

namespace Sys2Proof.Tests

open Sys2Proof Sys2Proof.Machine

set_option Elab.async false

/-! ### WellFormed -/

/-- A LINE_STORE header that R388 allows. -/
def hdr : FabHdr := ⟨1, 1, false, false, false, 9, 1, 0, 0x12, 16, 0, 0x80⟩

/-- The same of another op. -/
def hdrOf (op : Nat) : FabHdr := { hdr with op := op }

/-- Each check refuses a command just past its range. -/
theorem test_wellFormed_units :
    (Instr.nop 1088 .te).wf = false ∧ (Instr.seqBroadcast 256 .te false).wf = false ∧ (Instr.waitStall 4096).wf = false ∧
    (Instr.cowPageWaitExpiry 256 0).wf = false ∧ (Instr.updateBlockCommit 0 32 .none).wf = false ∧ (Instr.evacGo 32 0).wf = false ∧
    (Instr.evacGo 0 32).wf = false ∧ (Instr.dieGate 16).wf = false ∧ (Instr.burobLinkDown 4).wf = false ∧
    (Instr.packetHead 4 0).wf = false ∧ (Instr.packetHead 0 8192).wf = false ∧ (Instr.tileSwap 0 (.array 16)).wf = false ∧
    (Instr.tileSwap 0 (.quad 0 4)).wf = false ∧ (Instr.launchComplete 0 2).wf = false ∧ (Instr.mx 0 64 false).wf = false ∧
    (Instr.localStoreAtomic 0 0 .or .none).wf = false ∧ (Instr.transferComplete 0 64).wf = false ∧
    (Instr.scrubPass 0 [⟨32, 0, 0, none⟩]).wf = false ∧ (Instr.packetArrival 0 []).wf = false ∧
    (Instr.lineFill 0 .none .none (some ⟨0, 16, true⟩)).wf = false := by decide

theorem test_wellFormed_links :
    (Instr.keepaliveSend (.burob 4)).wf = false ∧ (Instr.keepaliveSend (.tray 8)).wf = false ∧
    (Instr.keepaliveSend (.scaleOut 4)).wf = false ∧ (Instr.burobTrained 0 65536 3).wf = false ∧ (Instr.burobTrained 0 0 0).wf = false ∧
    (Instr.burobTrained 0 0 4).wf = false ∧ (Instr.laneErrorWindow (.tray 0) 2 0 0).wf = false ∧
    (Instr.laneErrorWindow (.tray 0) 0 32 0).wf = false ∧ (Instr.cqHeadWrite 0 256 0).wf = false ∧ (Instr.trayLinkTrained 8 0 0 3).wf = false ∧
    (Instr.trayLinkTrained 0 128 0 3).wf = false ∧ (Instr.trayLinkTrained 0 0 8 3).wf = false ∧ (Instr.trayLinkDown 8).wf = false ∧
    (Instr.scaleoutPortTrained 0 1024 false).wf = false ∧ (Instr.readmit 0 8).wf = false := by decide

theorem test_wellFormed_rest :
    (Instr.lineStore { hdr with src := 1024 } 0 (List.replicate 128 0)).wf = false ∧ (Instr.lineStore hdr 0 []).wf = false ∧
    (Instr.lineLoad { hdrOf 2 with hops := 32 } 0 false).wf = false ∧ (Instr.lineLoad hdr 0 false).wf = false ∧
    (Instr.descFetch { hdrOf 3 with tag := 2 ^ 20 }).wf = false ∧ (Instr.fabricAtomic { hdrOf 4 with dst := 1024 } .add 0).wf = false ∧
    (Instr.flag { hdrOf 5 with seq := 65536 }).wf = false ∧ (Instr.token (hdrOf 6) 0 32).wf = false ∧
    (Instr.fabricTrigger (hdrOf 7) 65536 0).wf = false ∧ (Instr.fencePush (hdrOf 9) 0 0 65536 none).wf = false ∧
    (Instr.fenceForward (hdrOf 9) 0 0).wf = false ∧ (Instr.lossNotice 1024 0 (.tray 1)).wf = false ∧
    (Instr.lossNotice 0 0 (.tray 8)).wf = false ∧ (Instr.lossNoticeHoldEnd 1024).wf = false ∧
    (Instr.fabricResponse 0 ⟨0, 0, false, 65536, []⟩).wf = false ∧ (Instr.slowLoop ⟨0, 0, 0, 0, []⟩).wf = false ∧ (Instr.hubGo 0 4).wf = false ∧
    (Instr.hubFailureDetected 4).wf = false ∧ (Instr.evLookup 5 0).wf = false ∧ (Instr.registerWrite 4 0 32 0).wf = false := by decide

/-! ### Small states -/

/-- A descriptor's 64 bytes: base, the attribute word, sizes and strides (R156). -/
def descBytes (base attr : Nat) (sizes strides : List Nat) : List Byte :=
  leBytes 8 base ++ leBytes 4 0x1_0000 ++ leBytes 4 0x2_0000 ++ leBytes 4 0 ++ leBytes 4 attr ++
    leBytes 18 ((sizes ++ List.replicate (6 - sizes.length) 1).zipIdx.map fun (e : Nat × Nat) => (e.1 - 1) * 2 ^ (24 * e.2)).sum ++ leBytes 2 0 ++
    (strides ++ List.replicate (5 - strides.length) 0).flatMap fun t => leBytes 4 t

/-- Attributes: format, valid, writable, partition 0, dimensions. -/
def attrs (fmt dims : Nat) : Nat := fmt + 128 + 2 ^ 26 + dims * 2 ^ 27

/-- The local-store window (R284). -/
def win : Nat := 2 ^ 56

/-- Descriptors 1 to 5 of the table at 0: FP8 operands, an FP32 output, a pass tensor, an HBM source; a BF16 tensor in local store. -/
def table : List Byte :=
  descBytes (win + 0x1000) (attrs 2 2) [16, 16] [16] ++ descBytes (win + 0x2000) (attrs 2 2) [16, 16] [16] ++
    descBytes (win + 0x4000) (attrs 0 2) [16, 16] [16] ++ descBytes 0x1_0000 (attrs 0 1) [16] [] ++ descBytes (win + 0x8000) (attrs 0 1) [16] []

/-- A kernel of one pass over descriptor 3. -/
def kern : Kernel := ⟨1, 8, [], [⟨7, true, [3]⟩], [⟨.passOpen 7, none, none, 0⟩, ⟨.fin, none, none, 8⟩], [], [], none, none⟩

/-- A constellation of core 5 alone in context 1. -/
def sq : Seq := ⟨1, 0, kern, [5], ⟨0, 0, []⟩, ⟨0, 0, []⟩, ⟨0, 0, []⟩, none, 0, 0, 0, 0, none, 20, false, 0, [], 0⟩

/-- Its core. -/
def core5 : Core := { Core.idle with member := some (0, 0), lsEighths := 8, lsHeld := some 1, chans := List.replicate 32 ⟨2, ⟨0, 2, 1⟩⟩ }

/-- Context 1 of partition 0, with the first 16 MiB of a memory object mapped at 0 and its descriptors there. -/
def ctx1 : Ctx := { newCtx 0 7 false with maps := [⟨0, 8, 0, 1, 0, true, true⟩], descTable := some 0 }

/-- Partition 0 of port 0 with cores and a slice. -/
def part0 : Part := ⟨0, true, 128, [5, 6], [0], []⟩

/-- The 2 MiB pages of memory object 1. -/
def mem1 : MemObj := ⟨1, 0, 0, (List.range 8).map fun i => i * 0x20_0000, .live, []⟩

/-- A device with one constellation bound, and the table in HBM. -/
def s0 : State :=
  { State.reset with
    mem := cellPuts [] 0x40 table, seqs := [(0, sq)], cores := [(5, core5)],
    objs := { State.reset.objs with parts := [(0, part0)], ctxs := [(1, ctx1)], mems := [(1, mem1)] } }

/-- The core of `s0` changed. -/
def at5 (f : Core → Core) : State := s0.modCore 5 f

/-! ### Streams and passes -/

theorem test_WaitAndSignalEntries :
    (let s := at5 fun k => { k with teQ := [.wait 1 2 false] }
     s.headOf 5 .te = some (.wait 1 2 false) ∧ ((s.core 5).chan 1).bind.producer ≠ 0 ∧ ((s.core 5).chan 1).bind.consumer = engCode .te ∧
       2 ≤ ((s.core 5).chan 1).count) ∧
    (let s := at5 fun k => { k with teQ := [.wait 1 3 false] }
     s.headOf 5 .te = some (.wait 1 3 false) ∧ ((s.core 5).chan 1).count < 3) ∧
    (let s := at5 fun k => { k with geQ := [.wait 1 2 false] }
     s.headOf 5 .ge = some (.wait 1 2 false) ∧ ((s.core 5).chan 1).bind.consumer ≠ engCode .ge) ∧
    (let s := at5 fun k => { k with geQ := [.signal 1 false] }
     s.headOf 5 .ge = some (.signal 1 false) ∧ ((s.core 5).chan 1).bind.producer = engCode .ge) ∧
    (let s := at5 fun k => { k with teQ := [.signal 1 false] }
     s.headOf 5 .te = some (.signal 1 false) ∧ ((s.core 5).chan 1).bind.producer ≠ engCode .te) := by decide

theorem test_NopEntries :
    (let s := at5 fun k => { k with geQ := [.signal 1 true] }
     s.headOf 5 .ge = some (.signal 1 true) ∧ ((s.core 5).chan 1).bind.producer = engCode .ge) ∧
    (let s := at5 fun k => { k with teQ := [.wait 1 2 true] }
     s.headOf 5 .te = some (.wait 1 2 true) ∧ 2 ≤ ((s.core 5).chan 1).count ∧
       ((s.core 5).take .te).head .te = none) ∧
    (let s := at5 fun k => { k with teQ := [.wait 1 3 true] }
     s.headOf 5 .te = some (.wait 1 3 true) ∧ ((s.core 5).chan 1).count < 3) ∧
    (let s := at5 fun k => { k with geQ := [.wait 2 0 true, .signal 1 true], chans := [⟨0, ⟨0, 0, 0⟩⟩, ⟨0, ⟨0, 2, 1⟩⟩, ⟨0, ⟨0, 3, 2⟩⟩] }
     s.headOf 5 .ge = some (.wait 2 0 true) ∧ ((s.core 5).chan 2).bind.consumer = engCode .ge ∧
       ((s.core 5).take .ge).head .ge = some (.signal 1 true) ∧ ((s.core 5).chan 1).bind.producer = engCode .ge) ∧
    (let s := at5 fun k => { k with teQ := [.wait 1 2 true, .signal 1 true] }
     ((s.core 5).take .te).head .te = some (.signal 1 true) ∧ ((s.core 5).chan 1).bind.producer ≠ engCode .te) := by decide

theorem test_BroadcastDelivers :
    let q := { sq with kernel := { kern with te := [⟨.fin, none, none, 0⟩] } }
    let s := { s0 with seqs := [(0, q)] }
    look s.seqs 0 = some q ∧ q.next .te = some (.body .fin 0) ∧ s.live q.ctx = true ∧ q.preempting = false ∧
      q.mayBroadcast .te (.body .fin 0) = true ∧ s.credits q .te = true ∧ q.members.Nodup ∧ (s.core 5).clk = .running ∧
      (s.modCore 5 fun k => { k with teQ := List.replicate 256 (.body .fin 0) }).credits q .te = false := by decide +kernel

theorem test_TokensAndStalls :
    (let s := at5 fun k => { k with inflight := [⟨.ge, 1, []⟩] }
     s.coreCtx 5 = some 1 ∧ ((s.core 5).inflight.find? fun g => g.eng == .ge) = some ⟨.ge, 1, []⟩ ∧ 1 < (s.core 5).chans.length ∧
       ((s.core 5).chan 1).count < 255) ∧
    (let s := at5 fun k => { k with inflight := [⟨.ge, 1, []⟩], chans := [⟨0, ⟨0, 0, 0⟩⟩, ⟨255, ⟨0, 2, 1⟩⟩] }
     s.coreCtx 5 = some 1 ∧ ((s.core 5).chan 1).count = 255) ∧
    (let s := at5 fun k => { k with teQ := [.wait 1 3 false], chans := [⟨0, ⟨0, 0, 0⟩⟩, ⟨0, ⟨0, 1, 1⟩⟩] }
     s.coreCtx 5 = some 1 ∧ (s.core 5).waitCycle = true) ∧
    (let y := { ctx1 with stall := 2 ^ 20 }
     let s := { s0 with objs := { s0.objs with ctxs := [(1, y)] } }
     s.ctx 1 = some y ∧ y.state = .live ∧ s.stallLimit 1 = some 20 ∧ 2 ^ 20 ≤ y.stall ∧
       (∀ m ∈ (s.seqs.filter fun q => q.2.ctx == 1).flatMap (fun q => q.2.members), s.overdue m = none) ∧
       (let u : State := { s with ge := [(5, ⟨[(0, ⟨0, 1, 1, [], 1, 0, 12, 0⟩)], [(0, ⟨0, 0, 1, 0, 1, 0, 0, 2 ^ 12, 0⟩)], [], [], 1⟩)] }
        ((u.seqs.filter fun q => q.2.ctx == 1).flatMap fun q => q.2.members).findSome? (fun m => (u.overdue m).map fun b => (m, b)) =
          some (5, 0))) := by decide

/-- An instance of the pass. -/
def inst (g : PassStage) : PassInst := ⟨7, g, [], [], [5], [5], [], [], [], [], 0⟩

theorem test_PassesOpenSettleAndEnd :
    (look s0.seqs 0 = some sq ∧ s0.live 1 = true ∧ sq.opening = some (⟨7, true, [3]⟩, 0)) ∧
    (at5 fun k => { k with teQ := [.body (.passSettle 7) 0] }).headOf 5 .te = some (.body (.passSettle 7) 0) ∧
    (let q := { sq with pass := some (inst .opened) }
     let s := { at5 fun k => { k with settled := [.te, .ge, .me] } with seqs := [(0, q)] }
     s.coreSeq 5 = some (0, q) ∧ s.live q.ctx = true ∧ (s.core 5).settled.length = 3 ∧ (s.core 5).work = []) ∧
    (let q := { sq with pass := some (inst .opened) }
     q.kernel.passOf 7 = some ⟨7, true, [3]⟩ ∧ (q.members.all fun c => (inst .opened).credits.contains c) = true ∧
       (q.members.all fun c => (inst .settled).settleCredits.contains c) = true) ∧
    (at5 fun k => { k with teQ := [.body .fin 0] }).headOf 5 .te = some (.body .fin 0) ∧ look s0.ge 5 = none ∧
    look { s0 with ge := [(5, ⟨[], [], [], [⟨.full, 0, 0, 0, .none, 1, 1, 2, 3, 0, 16, 16, 16, 0⟩], 0⟩)] }.ge 5 =
      some ⟨[], [], [], [⟨.full, 0, 0, 0, .none, 1, 1, 2, 3, 0, 16, 16, 16, 0⟩], 0⟩ := by decide

/-- An FP8 tensor in local store with a statistics record whose relative error of 1 is above its limit of one half, and calibration on. -/
def worn (maxRetry : Nat) : State :=
  let s : State := { s0 with mem := cellPuts [] 0x40 (leBytes 8 (win + 0x1000) ++ leBytes 4 0x400 ++ leBytes 4 0x800 ++ leBytes 4 0 ++
    leBytes 4 (attrs 2 1) ++ leBytes 18 15 ++ leBytes 22 0) }
  (s.vaWrite 5 1 0 (win + 0x2_1000) (leBytes 0x16 0 ++ leBytes 2 1 ++ leBytes 4 0x3F80_0000 ++ leBytes 4 0x3F80_0000 ++ leBytes 4 0x3F00_0000)).setReg
    (offTe 5 0x400) (0x30 + 64 * maxRetry)

theorem test_leader_verdicts :
    (s0.leadPass sq ⟨7, true, [3]⟩).2 = false ∧ ((worn 1).leadPass sq ⟨7, true, [1]⟩).2 = true ∧ (inst .settled).reruns < fld ((worn 1).scaleCtl sq) 6 2 ∧
    ((worn 0).leadPass sq ⟨7, true, [1]⟩).2 = true ∧ fld ((worn 0).scaleCtl sq) 6 2 ≤ (inst .settled).reruns := by decide +kernel

/-! ### The tensor engine -/

/-- A 16 x 16 x 16 tile of array 0 of descriptors 1 and 2 into 3. -/
def mat : MatF := ⟨.full, 0, 0, 0, .final, 1, 1, 2, 3, 0, 16, 16, 16, 0⟩

/-- The constellation with the pass of descriptor 3 open. -/
def sqOpen : Seq := { sq with pass := some (inst .opened) }

/-- A tile as an entry at position 0 opened it. -/
def tile : Tile := ⟨.full, 0, [(0, 0)], [], 1, 1, false, 16, false, false, 0, 0, 0, 0, 0⟩

/-- The state with the pass open and entries at the tensor queue; `p` is its position. -/
def teAt (p : Nat) (l : List Entry) : State := { at5 fun k => { k with teQ := l, tePos := p } with seqs := [(0, sqOpen)] }

/-- One array with the tile. -/
def tiled (s : State) : State := s.setUnit 5 0 { TeUnitSt.empty with active := some tile }

theorem test_MatmulHypotheses :
    (let s := teAt 0 [.body (.matmul mat) 0]
     s.coreSeq 5 = some (0, sqOpen) ∧ s.headOf 5 .te = some (.body (.matmul mat) 0) ∧ s.mayIssue 5 mat = true ∧
       (s.core 5).noNewTile = false ∧ (s.checkMat 5 1 mat (mat.box 0)).toOption.isSome = true ∧
       (s.checkMat 5 1 { mat with k := 0 } (mat.box 0)).toOption.isSome = false ∧ ((s.take 5 .te).teErr 5 .none).2 = false ∧
       ((s.take 5 .te).teErr 5 .parity).2 = true ∧ s.startsTile 5 mat = true) ∧
    (let s := (teAt 0 [.body (.matmul mat) 0]).setUnit 5 0 { TeUnitSt.empty with active := some tile, pendingDrain := some ⟨.final, parseDesc 3 [], 0, 0, 1, 1, 1, 0⟩, stalled := true }
     s.mayIssue 5 mat = true ∧ s.stalledOn 5 mat = true ∧
       (s.setUnit 5 0 { s.unit 5 0 with next := some tile, nextDrain := some ⟨.final, parseDesc 3 [], 0, 0, 1, 1, 1, 0⟩ }).mayIssue 5 mat = false) := by decide +kernel

theorem test_DrainHypotheses :
    (let s := tiled (teAt 1 [.tileDrain mat 0])
     s.headOf 5 .te = some (.tileDrain mat 0) ∧ s.placeFree 5 mat = true ∧ s.drainsOf 5 mat (some 0) = [(0, 0)] ∧
       (s.checkOut 5 1 mat mat.span (mat.box 0)).toOption.isSome = true ∧
       (s.checkOut 5 1 { mat with out := 4 } mat.span (mat.box 0)).toOption.isSome = false ∧
       (teAt 1 [.tileDrain mat 0]).drainsOf 5 mat (some 0) = []) ∧
    (let s := tiled (teAt 1 [.body (.drain mat) 0])
     s.headOf 5 .te = some (.body (.drain mat) 0) ∧ s.placeFree 5 mat = true ∧ s.modeReady 5 mat = true ∧ s.drainsOf 5 mat none = [(0, 0)] ∧
       (s.checkOut 5 1 mat (mat.spanOf (s.openBox 5 mat [(0, 0)]).cols) (s.openBox 5 mat [(0, 0)])).toOption.isSome = true ∧
       (s.checkOut 5 1 { mat with out := 4 } 1 (s.openBox 5 mat [(0, 0)])).toOption.isSome = false ∧
       s.modeReady 5 { mat with mode := .thin } = false) ∧
    (let d : DrainJob := ⟨.final, parseDesc 3 [], 0, 0, 1, 1, 1, 0⟩
     let s := (teAt 1 [.tileDrain mat 0]).setUnit 5 0 { TeUnitSt.empty with active := some tile, pendingDrain := some d, next := some tile, nextDrain := some d }
     s.placeFree 5 mat = false) ∧
    (let w : WaitMat := ⟨mat, 0, 0, parseDesc 1 [], parseDesc 2 [], none, 0, none⟩
     let s := (teAt 1 [.tileDrain mat 0]).setUnit 5 0 { TeUnitSt.empty with active := some tile, stalled := true, waiting := some w }
     s.waitsOf 5 mat (((s.core 5).headPos .te + (2 ^ 64 - 1)) % 2 ^ 64) = [(0, 0)] ∧ s.placeFree 5 mat = false) := by decide +kernel

theorem test_TxAcceptHypotheses :
    let g : Ge := { Ge.empty with port := [mat] }
    let s := { teAt 0 [.body (.txAccept 1) 0] with ge := [(5, g)] }
    let s1 := { s.take 5 .te with ge := put s.ge 5 { g with port := g.port.drop 1 } }
    s.headOf 5 .te = some (.body (.txAccept 1) 0) ∧ look s.ge 5 = some g ∧ (s.core 5).noNewTile = false ∧
      (s1.teErr 5 .none).2 = false ∧ (s1.teErr 5 .uncorrectable).2 = true ∧
      ((acceptTiles (g.port.take 1)).foldl (fun (u : Option State) e => u.bind fun v => v.acceptTile 5 sqOpen e.1 ((s.core 5).headPos .te) e.2)
        (some ((g.port.take 1).foldl (fun (u : State) f => u.readMx 1 f) (s1.teErr 5 .none).1))).isSome = true := by decide +kernel

theorem test_TilesSwapAndRatesRamp :
    (let d : DrainJob := ⟨.final, parseDesc 3 [], 0, 0, 1, 1, 1, 0⟩
     let u : TeUnitSt := { TeUnitSt.empty with active := some tile, pendingDrain := some d }
     let s := s0.setUnit 5 0 u
     let s' := s0.setUnit 5 0 { u with shadow := some (tile, d) }
     s.coreCtx 5 = some 1 ∧ s.teRuns 5 = true ∧ s.teRuns 6 = false ∧ (s.unit 5 0).waiting = none ∧ (s.unit 5 0).active = some tile ∧ (s.unit 5 0).pendingDrain = some d ∧ s.swapFree 5 0 = true ∧
       s'.swapFree 5 0 = false ∧ (s'.unit 5 0).shadow = some (tile, d) ∧ s'.swapsLeft 5 0 = true ∧
       (s0.setUnit 5 0 { TeUnitSt.empty with shadow := some (tile, d) }).swapsLeft 5 0 = false ∧ (s'.unit 5 0).stalled = false ∧
       ((s0.setUnit 5 0 { u with shadow := some (tile, d), stalled := true }).unit 5 0).stalled = true ∧
       (s0.unit 5 0).pendingDrain = none ∧ (s0.unit 5 0).shadow = none) ∧
    (s0.core 5).clk = .running ∧ ((at5 fun k => { k with clk := .clockGated }).core 5).clk ≠ .running ∧ unitCode (.array 15) < 128 ∧
      unitCode (.quad 15 3) < 128 ∧ unitCode .path < 128 := by decide +kernel

/-! ### The group engine -/

/-- Word 0 of a thread instruction (R185). -/
def tw (op words dst a b guard imm : Nat) : Nat := op + (words - 1) * 2 ^ 8 + dst * 2 ^ 10 + a * 2 ^ 16 + b * 2 ^ 22 + guard * 2 ^ 28 + imm * 2 ^ 33

/-- A group in frame 0 of block 0 at the start of a program of one word, its lanes all active. -/
def grp : Group := { Group.start 0 0 0 0 0 with v := [] }

/-- A launch with its block resident, one of two started. -/
def launch1 : Launch := ⟨0, 1, 2, List.replicate 16 0, 1, 0, 12, 0⟩

/-- The group engine with it. -/
def ge1 (g : Group) : Ge := ⟨[(0, launch1)], [(0, ⟨0, 0, 1, 0, 0, 0, 0, 0, 0⟩)], [(0, g)], [], 1⟩

/-- The constellation running a program. -/
def sqProg (words : List Nat) : Seq := { sq with kernel := { kern with program := some (words.flatMap fun w => leBytes 8 w), const := some [] } }

/-- A state whose group is about to issue the program's first word. -/
def onGroup (g : Group) (words : List Nat) : State := { s0 with seqs := [(0, sqProg words)], ge := [(5, ge1 g)] }

theorem test_LaunchesAndBlocks :
    (let s := { at5 fun k => { k with geQ := [.body (.launch 0 1 2 0) 0] } with seqs := [(0, sqProg [0])] }
     s.coreSeq 5 = some (0, sqProg [0]) ∧ s.headOf 5 .ge = some (.body (.launch 0 1 2 0) 0) ∧
       firstFree (fun i => (look (s.groupEngine 5).launches i).isSome) 2 = some 0) ∧
    (let s := onGroup grp [0]
     (s.groupEngine 5).starting = some (0, launch1) ∧ s.takes 5 = true ∧
       launch1.groups ≤ ((List.range (frameBytes (sqProg [0]).kernel / 0x2000)).filter fun f =>
         (look (s.groupEngine 5).groups f).isNone).length) ∧
    (let l := { launch1 with nextBlock := 2, ended := 2 }
     let s := { s0 with ge := [(5, { Ge.empty with launches := [(1, l)] })] }
     s.coreCtx 5 = some 1 ∧ look (s.groupEngine 5).launches 1 = some l ∧ l.ended = l.blocks ∧ launch1.ended ≠ launch1.blocks) ∧
    (let s := { onGroup grp [0] with ge := [(5, { ge1 grp with launches := [(0, launch1), (1, launch1)], groups := (List.range 64).map fun f => (f, grp) })] }
     firstFree (fun i => (look (s.groupEngine 5).launches i).isSome) 2 = none ∧ s.takes 5 = true ∧
       ((List.range (frameBytes (sqProg [0]).kernel / 0x2000)).filter fun f => (look (s.groupEngine 5).groups f).isNone).length < launch1.groups) := by
  decide +kernel

/-- The group may issue a word of an opcode. -/
def issues (op : Nat) (imm : Nat) : Bool := ((onGroup grp [tw op 1 1 2 3 7 imm]).thread 5 0).any fun t => t.word.op == op && t.word.imm == imm

theorem test_ThreadArithmetic :
    issues 0 5 = true ∧ issues 0x1D 0 = true ∧ issues 0x20 0 = true ∧ issues 0x3F 1 = true ∧ issues 0x3F 15 = true ∧ issues 0x3F 7 = true ∧ issues 0x3F 2 = true ∧ issues 0x20 9 = true ∧ issues 0x20 7 = true ∧ issues 0x20 8 = true ∧ issues 0x50 0 = true ∧
    issues 0x5F 0 = true ∧ issues 0x1E 3 = true ∧ issues 0x1F 3 = true ∧ isNarrow 2 = true ∧ grp.p.length = 7 ∧
    (onGroup grp [tw 0x1E 1 1 2 3 7 0]).coreSeq 5 = some (0, sqProg [tw 0x1E 1 1 2 3 7 0]) := by decide +kernel

theorem test_ThreadMemory :
    (let s := onGroup grp [tw 0x40 1 1 2 3 7 64]
     (s.thread 5 0).any (fun t => (s.lsFault 5 t 4).isNone && t.word.op == 0x40) = true) ∧
    (let s := onGroup grp [tw 0x4F 1 1 2 3 7 2]
     (s.thread 5 0).any (fun t => s.lsFault 5 t 4 == some (0x3014, 0) && (s.lsFault 5 t 2).isNone) = true) ∧
    (let s := onGroup grp [tw 0x40 1 1 2 3 7 0x80_0000]
     (s.thread 5 0).any (fun t => s.lsFault 5 t 1 == some (0x3013, 0)) = true) ∧ Memory.wf s0.mem = true ∧
    (let s := onGroup grp [tw 0x40 1 1 2 3 7 64]
     (s.thread 5 0).any (fun t => (s.groupErr 5 t .parity).2 && (s.groupErr 5 t .uncorrectable).2 && !(s.groupErr 5 t .corrected).2) = true) := by
  decide +kernel

theorem test_NarrowStore :
    let w := [tw 0x40 1 1 2 3 7 5]
    let k : Kernel := { (sqProg w).kernel with passes := [⟨7, true, [5]⟩] }
    let t0 : State := onGroup grp w
    let s := { t0 with seqs := [(0, { sqProg w with kernel := k, pass := some (inst .opened) })],
                       mem := cellPuts t0.mem 0x140 (descBytes (win + 0x8000) (attrs 0 1) [32] []) }
    (s.thread 5 0).any (fun t => (s.narrowTarget 5 1 t 0).toOption.any fun d => s.inLs 5 d.base (d.spanEnd 31 - d.base) && d.fmt == 0 && !(s.inLs 5 (d.base + 2 ^ 23) 4)) = true ∧
    isNarrow 2 = true ∧
    ((onGroup grp w).thread 5 0).any (fun t => ((onGroup grp w).narrowTarget 5 1 t 0).toOption.isNone) = true := by decide +kernel

theorem test_ThreadControl :
    (let s := onGroup { grp with p := List.replicate 7 1 } [tw 0x60 1 0 0 0 0 0, 0]
     (s.thread 5 0).any (fun t => let m := t.group.guarded t.word
       t.word.op == 0x60 && m != 0 && t.group.active &&& ~~~m != 0 && decide (t.group.stack.length < 32)) = true) ∧
    issues 0x60 0 = true ∧ grp.stack.length ≤ 32 ∧
    (let s := onGroup grp [tw 0x60 1 0 0 0 0 0]
     (s.thread 5 0).any (fun t => t.group.guarded t.word == 0 && t.group.guarded { t.word with guard := 7 } == t.group.active) = true) ∧
    (let s := onGroup grp [tw 0x61 1 0 2 0 7 0]
     (s.thread 5 0).any (fun t => t.word.op == 0x61 && (starts t.prog).contains 0 && !((starts t.prog).contains 4)) = true) ∧
    (let s := onGroup { grp with v := [(2 * 32 + 3, 4)] } [tw 0x61 1 0 2 0 7 0]
     (s.thread 5 0).any (fun t => let m := t.group.guarded t.word
       ((lanesOf t.group.active).map fun l => (l, (t.group.rd t.launch.u t.word.a l).toNat)).any fun e => m.getLsbD e.1 && !((starts t.prog).contains e.2)) = true) ∧
    issues 0x62 0 = true ∧ issues 0x63 0 = true ∧
    (let s : State := { onGroup grp [0] with ge := [(5, { ge1 grp with blocks := [(0, ⟨0, 0, 1, 0, 1, 0, 0, 2 ^ 12, 0⟩)] })] }
     (look (s.groupEngine 5).blocks 0).any (fun b => b.arrived != 0 && decide (2 ^ launch1.barLog2 ≤ b.ticks)) = true ∧ s.coreCtx 5 = some 1) ∧
    (let g := { grp with stack := List.replicate 32 ⟨1, 0, [], false⟩, p := List.replicate 7 1 }
     32 ≤ g.stack.length ∧ ((onGroup g [tw 0x60 1 0 0 0 0 0, 0]).thread 5 0).isSome = true) := by decide +kernel

theorem test_MatrixRegions :
    issues 0x64 0 = true ∧
    (let g := { grp with region := some (0, BitVec.allOnes 32) }
     let s := onGroup g [tw 0x66 4 0 0 0 7 0, 0, 0, 0]
     (s.thread 5 0).any (fun t => t.word.op == 0x66 && t.group.active == BitVec.allOnes 32 && (mxFields t.prog 0 t.word).isSome &&
       (t.group.guarded t.word).getLsbD 0 && decide (t.ge.port.length < 16) && !((t.group.guarded { t.word with guard := 0 }).getLsbD 0)) = true ∧
     Engine.te ∉ (s.core 5).ended ∧ g.sameLanes = true ∧ { g with active := 1 }.sameLanes = false ∧
     Engine.te ∈ ((s.modCore 5 fun k => { k with ended := [.te] }).core 5).ended) ∧ issues 0x65 0 = true ∧
    (let g := { grp with region := some (0, BitVec.allOnes 32) }
     let w := [tw 0x66 4 0 0 0 7 0, 0, 0, 0]
     let s : State := { onGroup g w with ge := [(5, { ge1 g with port := List.replicate 16 mat })] }
     (s.thread 5 0).any (fun t => decide (16 ≤ t.ge.port.length)) = true) := by decide +kernel

/-! ### The move engine -/

/-- An entry at the move engine's head, with 64 slots free. -/
def meAt (i : Insn) : State := at5 fun k => { k with meQ := [.body i 0] }

/-- A transfer that waits for nothing. -/
def xfer0 (i : Insn) : Xfer := ⟨0, .copy, i, [], [], [], [], [], 0, none, none, true, [], false, false, none⟩

theorem moveReady {s : State} {c : Nat} {i : Insn} {x slot : Nat} (a : s.headOf c .me = some (.body i 0)) (b : s.coreCtx c = some x)
    (d : s.freeSlot c = some slot) : MoveReady s c i x slot := ⟨⟨0, a⟩, b, d⟩

/-- The state after the entry has been taken. -/
def took (i : Insn) : State := (meAt i).take 5 .me

theorem test_CopiesAndHintsAct :
    MoveReady (meAt (.copy 4 5 0)) 5 (.copy 4 5 0) 1 0 ∧ MoveReady (meAt (.copyRemote 4 5 0 1 1 1 1 false false 0)) 5
      (.copyRemote 4 5 0 1 1 1 1 false false 0) 1 0 ∧ MoveReady (meAt (.hint 4 3)) 5 (.hint 4 3) 1 0 ∧
    ((took (.copy 4 5 0)).planCopy 5 1 4 5 0).toOption.map List.length = some 2 ∧
    ((took (.copy 4 9 0)).planCopy 5 1 4 9 0).toOption = none ∧ (took (.copy 4 5 0)).ident.grade = .full ∧
    ((took (.hint 4 0)).hintLines 5 1 4).toOption.map (fun e => e.2.length) = some 1 ∧ (took (.hint 4 1)).pinIdle 0 = true ∧
    ((took (.copy 4 5 0)).coreErr 5 .none).2 = false ∧ ((took (.copy 4 5 0)).coreErr 5 .uncorrectable).2 = true ∧
    ((took (.hint 9 0)).hintLines 5 1 9).toOption = none ∧
    ((took (.hint 4 1)).hintLines 5 1 4).toOption.all (fun e => (took (.hint 4 1)).vaCheck 5 1 e.1.statsBase 8 false true == none) = true :=
  ⟨moveReady (by decide) (by decide) (by decide), moveReady (by decide) (by decide) (by decide), moveReady (by decide) (by decide) (by decide), by decide +kernel⟩

/-- A job of context 1 with both classes of operations enabled, and peers 1 and 2 up. -/
def job9 : Job := ⟨9, 0, 3, 0, 0, [0, 1], false, none, false, []⟩

/-- A state whose context is of that job and whose peers are up. -/
def inJob (s : State) : State :=
  (({ s with objs := { s.objs with jobs := [(2, job9)], ctxs := [(1, { ctx1 with job := some 2 })] } }).setReg (offPeer 1 0) 1).setReg
    (offPeer 2 0) 1

theorem test_MoveEntriesStartOrWait :
    MoveReady (meAt (.coll 4 5 0 0 1)) 5 (.coll 4 5 0 0 1) 1 0 ∧ MoveReady (meAt (.update 4 5 5 0 0 1)) 5 (.update 4 5 5 0 0 1) 1 0 ∧
    MoveReady (meAt (.atomic 4 .add 1)) 5 (.atomic 4 .add 1) 1 0 ∧ MoveReady (meAt (.hostPut 5 3)) 5 (.hostPut 5 3) 1 0 ∧
    ((took (.atomic 4 .add 1)).atomicTarget 5 1 4).toOption.isSome = true ∧
    (let s := inJob (meAt (.trigger 1 0 7))
     (∃ k, s.headOf 5 .me = some (.body (.trigger 1 0 7) k)) ∧ s.coreCtx 5 = some 1 ∧ s.freeSlot 5 = some 0 ∧
       ((s.take 5 .me).senderJob 1 true).toOption.isSome = true ∧ (s.take 5 .me).unreachable 1 = none ∧
       ((s.take 5 .me).unreachable 3).isSome = true ∧ ((took (.trigger 1 0 7)).senderJob 1 true).toOption = none) ∧
    ((took (.atomic 9 .add 1)).atomicTarget 5 1 9).toOption.isNone = true ∧ ((took (.hostPut 5 3)).putFault 1 3).isSome = true ∧
    (let s := (((meAt (.hostPut 5 3)).setReg (offCq 0 3 0) (1 + 6 * 2 + 64)).setReg (offBl 0 0x100) 1).setReg (offBl 0 0x108) 16
     (s.take 5 .me).putFault 1 3 = none ∧ ((s.take 5 .me).desc 1 5 false).toOption.all (fun d =>
       (s.take 5 .me).vaCheck 5 1 (d.range 0).1 (d.range 0).2 true false == none) = true ∧ ((s.take 5 .me).desc 1 5 false).toOption.isSome = true) ∧
    (let s := (meAt (.atomic 4 .add 1)).modCore 5 fun k => { k with xfers := (List.range 64).map fun i => (i, xfer0 .nop) }
     s.headOf 5 .me = some (.body (.atomic 4 .add 1) 0) ∧ s.coreCtx 5 = some 1 ∧ s.freeSlot 5 = none) :=
  ⟨moveReady (by decide) (by decide) (by decide), moveReady (by decide) (by decide) (by decide), moveReady (by decide) (by decide) (by decide),
    moveReady (by decide) (by decide) (by decide), by decide +kernel, ⟨⟨0, by decide +kernel⟩, by decide +kernel⟩, by decide +kernel⟩

/-- A fence of a context. -/
def fence1 (owner : Nat) : Fence := ⟨owner, 5, 0, false, [], none, [], none, none⟩

theorem test_FencesAndTransfersEnd :
    (let s := { meAt (.fence 0x100 9) with objs := { s0.objs with fences := [(0x100, fence1 1), (0x101, fence1 2)] } }
     s.coreCtx 5 = some 1 ∧ s.headOf 5 .me = some (.body (.fence 0x100 9) 0) ∧ (∀ w ∈ (s.core 5).work, w.1 ≠ .me) ∧
       (s.take 5 .me).maySignal 1 0x100 = true ∧ (s.take 5 .me).maySignal 1 0x101 = false) ∧
    (let s := at5 fun k => { k with xfers := [(63, xfer0 .nop)] }
     s.xfer 5 63 = some (xfer0 .nop) ∧ (xfer0 .nop).quiet = true ∧ (xfer0 .nop).tokenDue = none) ∧
    (let i : Insn := .copyRemote 4 5 0 1 1 0 1 true false 0
     let v : Xfer := { xfer0 i with descs := [parseDesc 4 [], parseDesc 5 []] }
     let s := at5 fun k => { k with xfers := [(0, v)], work := [(.me, 0)] }
     s.xfer 5 0 = some v ∧ v.quiet = true ∧ v.tokenDue = some (0, 1, 0) ∧ (∀ w ∈ (s.core 5).work, w.1 = .me → v.work ≤ w.2) ∧
       ((s.modXfer 5 0 fun y => { y with tokenSent := true }).deliverToken 1 0 1).2 = true) ∧
    (let v : Xfer := { xfer0 .nop with misses := [3] }
     v.quiet = false ∧ (∃ w ∈ [(Engine.me, 0)], w.1 = .me ∧ w.2 < { v with work := 1 }.work)) ∧
    { xfer0 (.copyRemote 4 5 0 1 1 1 1 true false 0) with descs := [parseDesc 4 [], parseDesc 5 []] }.tokenDue = some (0, 1, 1) := by decide +kernel

/-! ### Collectives, updates, memory -/

/-- A full instance with node 0 its one member. -/
def coll (kind : Nat) : Coll := ⟨2, 1, 0, kind, 0, [0], 0, 16, 1, [(0, ⟨1, 0, kind, 0, 16, 0, 1, [0], [], false, false, false, false⟩)], [], 1⟩

theorem test_CollectivesAndVotesEnd :
    (let s := { inJob s0 with fab := { s0.fab with colls := [(4, coll 2)] } }
     look s.fab.colls 4 = some (coll 2) ∧ (coll 2).full = true ∧ (coll 2).kind ≠ 3) ∧
    (let s := { inJob s0 with fab := { s0.fab with colls := [(4, coll 3)] } }
     look s.fab.colls 4 = some (coll 3) ∧ (coll 3).full = true ∧ s.prot (coll 3).entry = none ∧
       look s.objs.jobs (coll 3).entry = some job9) ∧ { coll 3 with size := 2 }.full = false := by decide +kernel

/-- An UPDATE of a rule with its vote's outcome and one block left to unit 31. -/
def upd (rule : Nat) (pass : Bool) : Upd :=
  ⟨5, 1, 0, 0, 0, 4, 0x1_0000, leBytes 8 rule, ctx1.maps, [(0, parseDesc 4 []), (3, parseDesc 4 []), (4, parseDesc 4 []), (5, parseDesc 4 [])], 0,
    some ⟨pass, 1, 1⟩, false, false, [(31, [0])], false, false, 0, [], [], 0, 0, 0, 0, 0⟩

theorem test_UpdatesCommit :
    (let s := { s0 with uu := { s0.uu with updates := [(0, upd 1 true)] } }
     look s.uu.updates 0 = some (upd 1 true) ∧ s.live (upd 1 true).ctx = true) ∧
    (upd 1 true).outcome = some ⟨true, 1, 1⟩ ∧ (upd 1 true).ten 0 = some (parseDesc 4 []) ∧ lookD (upd 1 true).left 31 [] = [0] ∧
    (upd 1 true).lost = false ∧ (upd 1 true).held = false ∧ leAt (upd 1 true).rule 0 1 ≠ 3 ∧ (upd 0 false).outcome = some ⟨false, 1, 1⟩ ∧
    (leAt (upd 3 true).rule 0 1 = 3 ∧ (upd 3 true).secondPass = false ∧ (upd 3 true).ten 3 = some (parseDesc 4 []) ∧
      (upd 3 true).ten 4 = some (parseDesc 4 []) ∧ (upd 3 true).ten 5 = some (parseDesc 4 [])) ∧ { upd 1 true with lost := true }.lost = true ∧
    (let k := { upd 1 true with left := [(31, [])] }
     (∀ e ∈ k.left, e.2 = []) ∧ k.guarded = 0 ∧
       ((s0.modCtx 1 fun c => { c with maps := k.maps }).translate 1 (k.base + 0x40) 64 false false).toOption.isSome = true) ∧
    { upd 1 true with guarded := 1 }.guarded ≠ 0 ∧ { upd 1 true with held := true }.held = true ∧
    (∃ e ∈ (upd 1 true).left, e.2 ≠ []) ∧ s0.dieServes 15 = true ∧ (s0.modDie 15 fun k => { k with gated := true }).dieServes 15 = false ∧
    (List.range dieCount).all s0.dieServes = true ∧ 2 ∉ s0.hbmHalves 1 [] := by decide +kernel

/-- A protected job with nothing outstanding. -/
def prot9 : Prot := { protOff 9 0 with state := .guarded, entries := [⟨1, 1, 0, 0, 1⟩], reserved := 3 }

/-- A seal. -/
def seal1 : Seal := ⟨1, false, ⟨1, 0, 0, 0, [], []⟩, [], true, false, 0, [], []⟩

theorem test_ProtectedVote :
    (let s := { inJob s0 with surv := { s0.surv with prots := [(2, prot9)] }, fab := { s0.fab with colls := [(4, coll 3)] } }
     s.prot (coll 3).entry = some prot9 ∧ prot9.closing = none ∧
       (let r := (s.adopt (offDk 0x810) 0 64).sealRules 2 prot9 true false false false
        (lookD r.1.surv.prots 2 prot9).stepOpen = false ∧ r.2 = false)) ∧
    (let p := { prot9 with stepOpen := true }
     let s := { inJob s0 with surv := { s0.surv with prots := [(2, p)] }, fab := { s0.fab with colls := [(4, coll 3)] } }
     s.prot (coll 3).entry = some p ∧
       (lookD ((s.adopt (offDk 0x810) 0 64).sealRules 2 p true false false false).1.surv.prots 2 p).stepOpen = true) ∧
    { prot9 with closing := some ⟨4, true, false, .step⟩ }.closing ≠ none := by decide +kernel

theorem test_FillsAndWaits :
    (let m : Miss := ⟨0x200, 0, 1, none, true, true, false, none⟩
     let s := { s0 with cache := { s0.cache with misses := [(3, m)] } }
     look s.cache.misses 3 = some m ∧ (m.held.isNone && s.dieServes (stackOf (m.line * 128) / 2) && s.dieServes ((s.placeOf m.part m.line).1 / 32)) = true ∧
       ({ m with held := some (0, 0, 128) }).held.isNone = false ∧ s.badLine m.line = false ∧ (s.eccHalf (2 * m.line) .uncorrectable).badLine m.line = true ∧
       2 * m.line ∉ s.hbm.bad ∧ 2 * m.line + 1 ∉ s.hbm.bad ∧
       2 * m.line + 1 ∈ { s.hbm with bad := [0x401] }.bad ∧ 2 * m.line ∉ (s.sliceErr ⟨0x200, 15, true⟩).hbm.bad) ∧
    (let p := { prot9 with entries := [], settled := some { seal1 with versions := [(0, 1, [0])] }, cowWaits := [2 ^ 33] }
     let s := { s0 with surv := { s0.surv with prots := [(2, p)] } }
     look s.surv.prots 2 = some p ∧ p.settled.isSome = true ∧ 2 ^ 33 ∈ p.cowWaits ∧ s.roomCame p (2 ^ 33) = false ∧
       ({ s with surv := { s.surv with poolFree := 9 } } : State).roomCame p (2 ^ 33) = true) := by decide +kernel

theorem test_WipesClear :
    (let o := { mem1 with state := .wiping }
     let s := { s0 with hbm := { s0.hbm with wipes := [(0, .pages 1), (1, .core 5)] }, objs := { s0.objs with mems := [(1, o)] } }
     Memory.wf s.mem = true ∧ look s.hbm.wipes 0 = some (.pages 1) ∧ look s.objs.mems 1 = some o ∧ look s.hbm.wipes 1 = some (.core 5)) := by
  decide +kernel

theorem test_ScrubsAndEvacuations :
    s0.alive = true ∧ spareRows ≤ lookD [(31 * 32 + 31, spareRows)] (31 * 32 + 31) 0 ∧
    (let s := { s0 with hbm := { s0.hbm with remapping := [rowOf 31 31 7] } }
     rowOf 31 31 7 ∈ s.hbm.remapping ∧ lookD s.hbm.spareUsed (31 * 32 + 31) 0 < spareRows) ∧
    (look s0.hbm.evac (31 * 32 + 31) = none ∧ s0.slotRetired 31 31 = false ∧ s0.slotsOut 31 < 2) ∧
    (let s := { s0 with hbm := { s0.hbm with evac := [(31 * 32, .copying), (31 * 32 + 1, .retraining), (31 * 32 + 2, .copyingBack)] } }
     2 ≤ s.slotsOut 31 ∧ look s.hbm.evac (31 * 32 + 31) = none ∧ s.slotRetired 31 31 = false ∧ look s.hbm.evac (31 * 32 + 0) = some .copying ∧
       look s.hbm.evac (31 * 32 + 1) = some .retraining ∧ look s.hbm.evac (31 * 32 + 2) = some .copyingBack) := by decide +kernel

/-! ### Packets and objects -/

/-- A packet of context 1 with its completions in queue 3. -/
def pk (op a0 a1 a2 : Nat) : Packet := ⟨op, false, false, 0, 1, 1, 7, 3, 0, 0, 0, 0, 0, a0, a1, a2, false, []⟩

/-- Port 0 up, host pages 0 to 15 in a window, completion queue 3 of context 1 and 4 of the admin queue enabled. -/
def linked (s : State) : State :=
  (((({ s with host := { s.host with ports := [(0, ⟨true, false, false, 3, 0, [], some 1, 1, 1, false, [], true⟩)] } }.setReg (offBl 0 0x100) 1).setReg
    (offBl 0 0x108) 16).setReg (offCq 0 3 0) (1 + 6 * 2 + 64)).setReg (offCq 0 4 0) (1 + 6 * 2 + 2 ^ 18)).setReg (offBl 0 0x10) 7

/-- A queue that runs a packet. -/
def subq (owner : Option Nat) (p : Packet) : SubQueue := ⟨owner, 64, [], some p, false, 1, 0, 0⟩

/-- A state in which a packet of context 1's queue runs. -/
def runs (s : State) (p : Packet) : State := { linked s with objs := { s.objs with queues := [(1, subq (some 1) p)] } }

/-- The same on the admin queue of port 0. -/
def runsAdmin (s : State) (p : Packet) : State := { linked s with objs := { s.objs with queues := [(0, subq none { p with queue := 0, cq := 4 })] } }

/-- What Admitted says of it. -/
def adm (s : State) (p : Packet) (c : Ctx) : Bool :=
  (runs s p).runningPacket 0 1 == some (subq (some 1) p, p) && (runs s p).packetFault 0 1 1 p == none &&
    (runs s p).ctx 1 == some c && (runs s p).ctxPort 1 == some 0 && c.state == .live

theorem admitted {s : State} {p : Packet} {c : Ctx} (h : adm s p c = true) : Admitted (runs s p) 0 1 p.opcode (subq (some 1) p) p c := by
  simp only [adm, Bool.and_eq_true, beq_iff_eq] at h
  exact ⟨h.1.1.1.1, rfl, h.1.1.1.2, h.1.1.2, h.1.2, h.2⟩

/-- An admin packet runs past its checks. -/
def admAdmin (s : State) (p : Packet) : Bool :=
  let r := { p with queue := 0, cq := 4 }
  (runsAdmin s p).runningPacket 0 0 == some (subq none r, r) && (runsAdmin s p).packetFault 0 0 (packetCtx (subq none r) r) r == none

theorem test_PacketArrives :
    (let b := leBytes 1 1 ++ leBytes 1 0 ++ leBytes 2 8 ++ leBytes 2 1 ++ leBytes 2 1 ++ leBytes 4 7 ++ List.replicate 60 0
     let r := parsePacket b
     let s := { linked s0 with objs := { s0.objs with queues := [(1, ⟨some 1, 1, [], none, false, 0, 0, 0⟩)] } }
     wholePacket b = true ∧ (s.port 0).up = true ∧ r.queue = 1 ∧ (s.queue 0 1).any (fun k => s.packetTrusted 0 k r && decide (k.packets.length < k.depth) &&
       !(s.packetTrusted 0 k { r with key := 8 })) = true ∧
       (let k : SubQueue := ⟨some 1, 1, [r], none, false, 0, 0, 0⟩; s.packetTrusted 0 k r = true ∧ k.depth ≤ k.packets.length)) := by decide +kernel

theorem test_PacketStarts :
    let p := { pk 0 0 0 0 with waitEn := true, waitId := 0x100, waitValue := 5 }
    let k : SubQueue := ⟨some 1, 64, [p], none, false, 0, 0, 0⟩
    let at_ (f : Fence) : State := { linked s0 with objs := { s0.objs with queues := [(1, k)], fences := [(0x100, f)] } }
    (at_ (fence1 1)).queue 0 1 = some k ∧ (fence1 1).mayWait 1 = true ∧ (fence1 1).err = 0 ∧ p.waitValue ≤ (fence1 1).value.toNat ∧
      { fence1 1 with value := 4 }.value.toNat < p.waitValue ∧ (at_ (fence1 1)).packetBar 0 1 p = none ∧
      { fence1 1 with err := 1 }.err ≠ 0 ∧ (at_ (fence1 2)).mayWait 1 p.waitId = false ∧
      (at_ (fence1 2)).maySignal (packetCtx k { p with fenceEn := true, fenceId := 0x100 }) 0x100 = false ∧
      (at_ (fence1 1)).maySignal (packetCtx k { p with fenceEn := true, fenceId := 0x100 }) 0x100 = true ∧
      (at_ (fence1 1)).ctxPort (packetCtx { k with owner := none } { p with ctx := 9 }) ≠ some 0 ∧ (at_ (fence1 1)).ctxPort 1 = some 0 ∧
      ((at_ (fence1 1)).packetBar 0 1 { p with opcode := 3 }).isSome = true := by decide +kernel

/-- Every opcode of R335 and R350 can fail a check: each takes no payload of 3 bytes. -/
theorem test_PacketChecksFail :
    ([0x00, 0x01, 0x02, 0x10, 0x11, 0x12, 0x18] ++ (List.range 26).map (· + 0x20)).all (fun op =>
      let p := { pk op 0 0 0 with payloadLen := 3 }
      (runs s0 p).runningPacket 0 1 == some (subq (some 1) p, p) && ((runs s0 p).packetFault 0 1 1 p).isSome) = true := by decide +kernel

/-- A module of context 1 whose kernel has one core. -/
def module1 : Module := ⟨1, 8, [{ kern with size := 1 }], 64, none⟩

theorem test_DataPackets :
    adm s0 { pk 1 0x1_0000 0 0 with payload := List.replicate 8 1, payloadLen := 8 } ctx1 ∧ (s0.translate 1 0x1_0000 8 false true).toOption.isSome = true ∧
    adm s0 (pk 2 0x1_0000 64 0) ctx1 ∧ ((runs s0 (pk 2 0x1_0000 64 0)).translate 1 0x1_0000 64 true false).toOption.any (fun l =>
      !((runs s0 (pk 2 0x1_0000 64 0)).badPieces l) && (runs s0 (pk 2 0x1_0000 64 0)).served l &&
        ({ runs s0 (pk 2 0x1_0000 64 0) with hbm := { s0.hbm with bad := [0x200] } } : State).badPieces [(0x8000, 64, 0)] &&
        !(((List.range 16).foldl (fun (t : State) d => t.modDie d fun k => { k with gated := true }) (runs s0 (pk 2 0x1_0000 64 0))).served l)) = true ∧ (runs s0 (pk 2 0x1_0000 64 0)).ringOk 0 (pk 2 0x1_0000 64 0) = true ∧
    adm s0 (pk 0x10 0x1_0000 128 0) ctx1 ∧ s0.modulesOf 1 < 64 ∧ s0.fileFault ⟨0, 1, 1, 3, 0x1_0000, 128, none, 0, none⟩ = none ∧
    (let s := { s0 with loader := { s0.loader with modules := [module1] }, seqs := [], cores := [] }
     adm s (pk 0x11 8 0 0) ctx1 ∧ s.moduleRuns 1 8 = false ∧ { s with seqs := [(0, { sq with module := 8 })] }.moduleRuns 1 8 = true ∧
       adm s (pk 0x12 8 0 0) ctx1 ∧ (s.pick false 0 1).toOption = some (0, [5]) ∧
       (let u : State := { s with hbm := { s.hbm with wipes := [(0, .core 5), (1, .core 6)] } }
        (u.pick false 0 1).toOption = none ∧ (u.pick true 0 1).toOption.isSome = true) ∧ (s.pick true 0 3).toOption = none) ∧
    (let r := { pk 0x18 0 0 0 with queue := 0, cq := 4 }
     admAdmin s0 (pk 0x18 0 0 0) ∧ (runsAdmin s0 (pk 0x18 0 0 0)).ringOk 0 r = true) ∧ adm s0 (pk 0 0 0 0) ctx1 := by decide +kernel

theorem test_PartitionPackets :
    (let b := leBytes 136 (2 ^ 100) ++ leBytes 64 2 ++ leBytes 8 0x4000_0000 ++ leBytes 8 0x20_0000
     let p := { pk 0x20 1 0 0 with payload := b, payloadLen := 216 }
     admAdmin s0 p ∧ s0.partFree 1 (bitsOf (sliceBytes b 0 136)) (bitsOf (sliceBytes b 136 64)) (payloadRanges b) = true) ∧
    (let s := { s0 with objs := { s0.objs with ctxs := [], mems := [] } }
     admAdmin s (pk 0x21 0 0 0) ∧ look s.objs.parts 0 = some part0 ∧ (s.objs.ctxs.all fun e => e.2.part != 0) = true ∧
       (s.objs.mems.all fun e => e.2.part != 0) = true) ∧
    (admAdmin s0 (pk 0x22 0 0 0) ∧ s0.runsContexts = true ∧ part0.port = 0 ∧
       firstFree (fun k => (s0.ctx k).isSome) (min 4096 (s0.objs.ctxs.length + 1)) = some 0 ∧
       (runsAdmin s0 (pk 0x22 0 0 0)).ringOk 0 { pk 0x22 0 0 0 with queue := 0, cq := 4 } = true) := by decide +kernel

theorem test_ContextPackets :
    adm s0 (pk 0x23 1 0 0) ctx1 ∧ ((runs s0 (pk 0x23 1 0 0)).subject 0 1 1 (pk 0x23 1 0 0)).toOption = some (1, ctx1) ∧
    (let d := { ctx1 with state := .dead }
     let s := { s0 with objs := { s0.objs with ctxs := [(1, d)] } }
     admAdmin s (pk 0x24 1 0 0) ∧ ((runsAdmin s (pk 0x24 1 0 0)).subject 0 0 1 (pk 0x24 1 0 0)).toOption = some (1, d)) ∧
    adm s0 (pk 0x25 1 0 0) ctx1 ∧ adm s0 (pk 0x25 1 1 0) ctx1 ∧ adm s0 (pk 0x25 1 2 0x100) ctx1 ∧
    (let p := pk 0x2B (2 + 6 * 2 ^ 13) 0 0
     adm s0 p ctx1 ∧ (runs s0 p).queue 0 2 = none ∧ (runs s0 p).queueCount < 16384 ∧ (runs s0 p).inWindow 0 0 16 = true) ∧
    (let p := pk 0x2C 1 0 0
     adm s0 p ctx1 ∧ ((runs s0 p).queue 0 1).any (fun k => k.owner == some 1) = true) := by decide +kernel

theorem test_Preemption :
    (let c := { ctx1 with state := .teardown }
     let s := { s0 with objs := { s0.objs with ctxs := [(1, c)] } }
     s.ctx 1 = some c ∧ c.ownerGone = false) ∧
    (admAdmin s0 (pk 0x26 1 0 0) ∧ ((runsAdmin s0 (pk 0x26 1 0 0)).subject 0 0 1 (pk 0x26 1 0 0)).toOption = some (1, ctx1) ∧
      s0.boundOf 1 = [(0, sq)] ∧ s0.heldForSpare sq = false ∧ { s0 with seqs := [] }.boundOf 1 = [] ∧ ctx1.resumes = []) ∧
    (let v : Saved := ⟨sq, [(0, core5)], [], [], [(0, [])], [], []⟩
     let c := { ctx1 with saved := [v] }
     let s := { s0 with seqs := [], cores := [], objs := { s0.objs with ctxs := [(1, c)] } }
     admAdmin s (pk 0x27 1 0 0) ∧ c.saved ≠ [] ∧ (((runsAdmin s (pk 0x27 1 0 0)).endPacket 0 0).rebindAll 1 0 [v]).isSome = true ∧
       (let u : State := { s with hbm := { s.hbm with wipes := [(0, .core 5), (1, .core 6)] } }
        (((runsAdmin u (pk 0x27 1 0 0)).endPacket 0 0).rebindAll 1 0 [v]).isNone = true ∧ u.partWiping 0 = true) ∧
       (let w : Saved := { v with seq := { sq with members := [5, 6, 7] } }
        (((runsAdmin s (pk 0x27 1 0 0)).endPacket 0 0).rebindAll 1 0 [w]).isNone = true ∧ s.partWiping 0 = false)) := by
  decide +kernel

theorem test_Saves :
    (let s := { s0 with seqs := [(0, { sq with preempting := true })] }
     s.saves 5 .te = true ∧ (∀ e ∈ s.te, e.1 / 128 = 5 → e.2.shadow = none) ∧ s.saves 5 .ge = true ∧ s.saves 5 .me = true ∧
       (s.core 5).xfers = [] ∧ (∀ f ∈ (s.core 5).inflight, f.eng ≠ .me)) ∧
    (let v : Saved := ⟨sq, [], [], [], [], [], []⟩
     let s : State := { s0 with seqs := [(0, { sq with ctx := 2 })], objs := { s0.objs with ctxs := [(1, { ctx1 with saved := [v] }), (2, ctx1)] } }
     s.storeOwner 5 = some (1, v, 0) ∧ (s.coreSeq 5).any (fun b => b.2.ctx == 2) = true ∧ (s.core 5).lsHeld ≠ some 2 ∧ Memory.wf s.mem = true) ∧
    (let v : Saved := ⟨sq, [(0, core5)], [], [], [(0, [])], [(0, ⟨5, 0, 0, 0, s0.zenithVersion, .full, 1, 0⟩)], []⟩
     let c := { ctx1 with resumes := [v] }
     let s := { s0 with objs := { s0.objs with ctxs := [(1, c)] } }
     s.ctx 1 = some c ∧ (∀ e ∈ s.boundOf 1, ∀ m ∈ e.2.members, (s.core m).lsHeld = some 1) ∧ (s.recordOk v).1 = true ∧
       (s.recordOk { v with heads := [(0, ⟨5, 0, 0, 0, s0.zenithVersion, .tray, 1, 0⟩)] }).1 = false ∧
       (s.recordOk { v with heads := [(0, ⟨5, 0, 0, 0, s0.zenithVersion, .full, 2, 0⟩)] }).1 = false) := by decide +kernel

theorem test_Jobs :
    (admAdmin s0 (pk 0x28 9 1 0) ∧ s0.runsContexts = true ∧ (s0.objs.jobs.all fun e => e.2.id != 9) = true ∧
      firstFree (fun k => (look s0.objs.jobs k).isSome) (min 256 (s0.objs.jobs.length + 1)) = some 0) ∧
    (let s := { s0 with seqs := [], objs := { s0.objs with jobs := [(2, job9)] } }
     let p := pk 0x29 (1 + 9 * 2 ^ 12) 0 0
     admAdmin s p ∧ s.jobEntry (fld p.arg0 12 16) = some (2, job9) ∧ s.boundOf 1 = [] ∧ ctx1.saved = [] ∧ bit p.arg0 28 = false ∧
       ctx1.job = none ∧ ((runsAdmin s p).subject 0 0 1 p).toOption = some (1, ctx1)) ∧
    (let s := { s0 with seqs := [], objs := { s0.objs with jobs := [(2, { job9 with members := [] })] } }
     admAdmin s (pk 0x2A 9 0 0) ∧ (s.jobEntry 9).any (fun e => e.2.members == []) = true ∧ admAdmin (inJob s) (pk 0x29 (1 + 9 * 2 ^ 12 + 2 ^ 28) 0 0)) := by
  decide +kernel

theorem test_MemoryPackets :
    (let g := { part0 with ranges := [(0x100_0000, 0x20_0000)] }
     let s := { s0 with objs := { s0.objs with parts := [(0, g)] } }
     adm s (pk 0x2D 0 1 0) ctx1 ∧ freePages g ((s.objs.mems.map (·.2)).filter fun o => o.part == 0) 0 1 = some [0x100_0000] ∧
       (runs s (pk 0x2D 0 1 0)).ringOk 0 (pk 0x2D 0 1 0) = true) ∧
    (let g := { part0 with ranges := [(0x100_0000, 0x20_0000)] }
     let o : MemObj := ⟨1, 0, 0, [0x100_0000], .wiping, []⟩
     let s := { s0 with objs := { s0.objs with parts := [(0, g)], mems := [(1, o)] } }
     freePages g ((s.objs.mems.map (·.2)).filter fun o => o.part == 0) 0 1 = none ∧
       (freePages g (((s.objs.mems.map (·.2)).filter fun o => o.part == 0).filter fun o => o.state != .wiping) 0 1).isSome = true) ∧
    (adm s0 (pk 0x2E 1 0 0) ctx1 ∧ ((runs s0 (pk 0x2E 1 0 0)).ownMem 1 1).toOption = some mem1) ∧
    (let p := pk 0x2F (1 + 2 ^ 32) 0x200_0000 (8 * 2 ^ 32)
     adm s0 p ctx1 ∧ mem1.owner = 1 ∧ 0x200_0000 % pageBytes mem1.pageSize = 0 ∧ fld p.arg2 32 32 = 8 ∧ fld p.arg2 32 32 ≤ mem1.pages.length ∧
       (ctx1.maps.any fun n => overlaps (n.va, n.bytes) (0x200_0000, 0x100_0000)) = false) ∧
    (let p := pk 0x30 0 0 8
     adm s0 p ctx1 ∧ (ctx1.mapAt 0).isSome = true ∧ unmapFault ctx1 0 0 (8 * 0x20_0000) = none ∧
       (runs s0 p).translators 1 (0, 8 * 0x20_0000) = []) ∧
    (let s := { s0 with objs := { s0.objs with unmaps := [(0, ⟨[(5, 9)], some (0x100, 6)⟩)] } }
     look s.objs.unmaps 0 = some ⟨[(5, 9)], some (0x100, 6)⟩ ∧ (∀ e ∈ (s.core 5).work, e.2 ≠ 9) ∧ (∃ e ∈ ((s.modCore 5 fun k => { k with work := [(.me, 9)] }).core 5).work, e.2 = 9)) ∧
    (adm s0 (pk 0x31 1 1 0) ctx1 ∧ (runs s0 (pk 0x31 1 1 0)).shareRights 0 1 1 1 = none ∧ ((runs s0 (pk 0x31 1 1 0)).ownMem 1 1).toOption = some mem1 ∧ ((runs s0 (pk 0x31 1 1 0)).actor 0 1).toOption = some ctx1) ∧
    (let s := { s0 with seqs := [] }
     adm s (pk 0x32 0 0 0) ctx1 ∧ s.boundOf 1 = [] ∧ ctx1.saved = [] ∧ (s.translate 1 0 0x40_0000 true true).toOption.isSome = true) := by decide +kernel

theorem test_UnmapWaits :
    let v := { xfer0 (.copy 4 5 0) with descs := [parseDesc 4 (s0.see 0x100 64), parseDesc 5 (s0.see 0x140 64)], moved := false }
    let s := s0.modCore 5 fun k => { k with xfers := [(0, v)] }
    s.translators 1 (0, 8 * 0x20_0000) = [(5, 0)] ∧ firstFree (fun k => (look s.objs.unmaps k).isSome) (s.objs.unmaps.length + 1) = some 0 := by
  decide +kernel

theorem test_FencePackets :
    (let s := { s0 with objs := { s0.objs with fences := [(0x100, fence1 1)] } }
     adm s (pk 0x33 0 0 5) ctx1 ∧ s.fenceId = some 0 ∧ adm s (pk 0x34 0x100 0 0) ctx1 ∧ ((runs s (pk 0x34 0x100 0 0)).ownFence 1 0x100).toOption = some (fence1 1) ∧
       ((runs s (pk 0x34 0x100 0 0)).endPacket 0 1).waitingOn 0x100 = [] ∧ adm s (pk 0x35 0x100 (2 ^ 13) 0) ctx1 ∧ adm s (pk 0x35 0x100 1 0) ctx1 ∧
       s.live 1 = true ∧ adm s (pk 0x37 0x100 0 3) ctx1 ∧ adm s (pk 0x38 0x100 9 3) ctx1 ∧ (runs s (pk 0x38 0x100 9 3)).mayWait 1 0x100 = true ∧
       (runs s (pk 0x38 0x100 9 3)).ringOk 0 (pk 0x38 0x100 9 3) = true) ∧
    (let s := { inJob s0 with seqs := [] }
     let p := pk 0x36 0x77 1 0
     adm s p { ctx1 with job := some 2 } ∧ (runs s p).fenceId = some 0 ∧ ((runs s p).senderJob 1 false).toOption.isSome = true ∧ (runs s p).unreachable 1 = none ∧ (runs s p).ringOk 0 p = true) ∧
    (let s := { s0 with objs := { s0.objs with events := [(4, ⟨1, 0, 0x100, 9, 3, false⟩)] } }
     adm s (pk 0x39 4 0 0) ctx1 ∧ look s.objs.events 4 = some ⟨1, 0, 0x100, 9, 3, false⟩) ∧
    (let p := { pk 0 0 0 0 with waitEn := true, waitId := 0x100 }
     let k : SubQueue := ⟨some 1, 64, [p], none, true, 0, 0, 0⟩
     { s0 with objs := { s0.objs with queues := [(2, k)] } }.waitingOn 0x100 ≠ []) := by decide +kernel

theorem test_LoaderRuns :
    let j : LoadJob := ⟨0, 1, 1, 3, 0x1_0000, 128, none, 0, none⟩
    (let s := { s0 with loader := { s0.loader with queue := [j] } }
     s.loader.running = none ∧ (s.loadFile j).toOption.isSome = true ∧ (s.loadFile { j with address := 2 ^ 40 }).toOption = none ∧
       (match checkModule .full 0 20 128 (List.replicate 128 0) with | .error (c, _) => c == 0x9001 | .ok _ => false) = true) ∧
    (let w := { j with verdict := some (0, 0, []) }
     let s := { s0 with loader := { s0.loader with running := some w } }
     s.loader.running = some w ∧ w.verdict = some (0, 0, []) ∧ s.modulesOf w.ctx < 64) := by decide +kernel


/-! ### Links and the fabric -/

/-- A state whose links train: booted, with the dusk and link units running. -/
def booted (s : State) : State :=
  { s with sec := { s.sec with bootDone := true, units := s.sec.units.map fun u => { u with running := some false } } }

/-- A completion entry of a packet that signals fence 0x100. -/
def entry1 : CqEntry := ⟨0, 1, 0, [], [], 0, true, .packet (some (0x100, 7)) 0 1, 0⟩

/-- A link's next flit. -/
def flit0 : Flit := ⟨0, 0, [], false⟩

theorem test_FlitsCountedAndQueuesDrained :
    ((linked s0).linkUp (.burob 0) = true ∧ ((linked s0).wire (.burob 0)).rxTries < 64 ∧ ((linked s0).wire (.burob 0)).txTries ≤ 64 ∧
      flit0.seq = ((linked s0).wire (.burob 0)).received ∧ flit0.resend = false ∧
      (let k : Wire := { Wire.rest with rxTries := 64 }
       let s := (linked s0).setWire (.burob 0) k
       s.linkUp (.burob 0) = true ∧ s.wire (.burob 0) = k ∧ 64 ≤ k.rxTries ∧ k.txTries ≤ 64 ∧ k.received < { flit0 with seq := 1 }.seq ∧ 0 < k.rxTries)) ∧
    ((linked s0).port 0).up = true ∧ 7 ∈ { s0 with fab := { s0.fab with linkUp := [7] } }.fab.linkUp ∧
    fld ((s0.setReg (offSfPort 3 0) 2).reg (offSfPort 3 0)) 0 2 = 2 ∧ s0.linkUp (.burob 0) = false ∧ ((linked s0).cq 0 255).waiting = [] ∧
    (let s := { (linked s0).setCq 0 255 ⟨0, [entry1]⟩ with objs := { s0.objs with fences := [(0x100, fence1 1)] } }
     (s.port 0).up = true ∧ (s.cq 0 255).waiting = [entry1] ∧ entry1.owner = .packet (some (0x100, 7)) 0 1 ∧ s.fence 0x100 = some (fence1 1) ∧
       (fence1 1).err = 0 ∧ s.objs.events = [] ∧ s.objs.queues = [] ∧ (fence1 1).proxies = []) := by decide +kernel

theorem test_PortsTrainAndFail :
    ((linked s0).port 0).up = true ∧
    (let s := (booted s0).setPort 3 { s0.port 3 with up := false, nonce := some 5, grace := true }
     s0.linksTrain = false ∧ andHalves (0 % 4) (s.servedHalves 3) = 0 ∧ (s.port 3).up = false ∧ s.linksTrain = true ∧ andHalves (3 % 4) (s.servedHalves 3) = 3 ∧ (s.port 3).nonce = some 5 ∧ (s.port 3).grace = true) ∧
    (let s := (booted s0).setPort 3 { s0.port 3 with up := false, nonce := none, grace := false, training := true }
     (s.port 3).up = false ∧ s.linksTrain = true ∧ (s.port 3).nonce = none ∧ (s.port 3).training = true ∧ (s.port 3).retry = false ∧
       (s.setPort 3 { s.port 3 with retry := true }).linksTrain = true ∧ (s.port 3).grace = false) := by decide +kernel

theorem test_HalvesRetrain :
    (let s := linked s0
     (s.port 0).up = true ∧ bit (s.port 0).halves 1 = true ∧ (s.port 0).halves = 3 ∧
       crosses (fld (s.reg (offBl 0 0)) 0 2) 0 = false ∧
       crosses (fld (s.reg (offBl 0 0)) 0 2) (2 ^ 32) = true) ∧
    (let s := (linked s0).setPort 0 { (linked s0).port 0 with halves := 1, retraining := 2, cause := [(1, 4, 9)] }
     ((s.port 0).cause.find? fun c => c.1 == 1) = some (1, 4, 9) ∧ (s.port 0).up = true ∧ bit (s.port 0).retraining 1 = true ∧ bit (s.servedHalves 0) 1 = true ∧ (s.port 0).halves ≠ 3) ∧
    (let s := (linked s0).setPort 0 { (linked s0).port 0 with halves := 1 }
     bit (s.port 0).halves 1 = false ∧ bit (s.port 0).retraining 1 = false ∧ bit (s.servedHalves 0) 1 = true) ∧
    (let s := { s0 with fab := { s0.fab with linkUp := [7] } }.setField (offPeer 7 0) 2 2 3
     7 ∈ s.fab.linkUp ∧ s.trayHalves 7 = 3 ∧ bit (s.trayHalves 7) 1 = true ∧ crosses (fld (s.reg (offTf 0)) 0 2) 0 = false ∧
       crosses (fld (s.reg (offTf 0)) 0 2) (2 ^ 32) = true) ∧
    (let s := { s0 with fab := { s0.fab with linkUp := [7], halfOut := [(7, 1)] } }.setField (offPeer 7 0) 2 2 1
     7 ∈ s.fab.linkUp ∧ (7, 1) ∈ s.fab.halfOut ∧ s.trayHalves 7 ≠ 3 ∧ bit (s.trayHalves 7) 0 = true ∧ bit (s.trayHalves 7) 1 = false ∧
       bit (s.servedHalves 7) 1 = true) ∧
    (let s := s0.setReg (offSfPort 3 0) 2
     s.sfState 3 = 2 ∧ s.portServes 3 = true ∧ bit (s.reg (offSfPort 3 0)) 2 = false ∧ crosses (fld (s.reg (offTf 0)) 0 2) (2 ^ 32) = true ∧
       crosses (fld (s.reg (offTf 0)) 0 2) 0 = false) ∧
    (let s := s0.setReg (offSfPort 3 0) 6
     s.sfState 3 = 2 ∧ s.portServes 3 = true ∧ bit (s.reg (offSfPort 3 0)) 2 = true ∧ s.servedHalves 3 = 3) := by decide +kernel

theorem test_FabricLinksComeAndGo :
    (let s := booted s0
     7 ≠ s.pins.strapSlot ∧ 7 ∉ s.fab.linkUp ∧ s.linksTrain = true ∧ andHalves (3 % 4) (s.servedHalves 7) ≠ 0 ∧ s.peerState 7 = 0) ∧
    (let s := ({ s0 with fab := { s0.fab with linkUp := [7] } }).setReg (offPeer 7 0) 1
     7 ∈ s.fab.linkUp ∧ s.peerState 7 = 1 ∧ (((s.unlink 7).noteLoss 7).applyLoss (s.pins.strapTray * 8 + 7)).fab.recentLoss.length < 4 ∧
       (let r := { s with fab := { s.fab with recentLoss := [(1, 0), (2, 0), (3, 0)] } }
        4 ≤ (((r.unlink 7).noteLoss 7).applyLoss (r.pins.strapTray * 8 + 7)).fab.recentLoss.length) ∧
       (s.setReg (offPeer 7 0) 2).peerState 7 ≠ 1) ∧
    (let s := booted s0
     s.ident.grade = .full ∧ s.sfState 3 ≠ 2 ∧ s.sfState 3 ≠ 1 ∧ s.servedHalves 3 = 3 ∧ 1016 % 8 = s.pins.strapSlot ∧ 1023 % 8 ≠ s.pins.strapSlot) ∧
    (let s := s0.setReg (offSfPort 3 0) 1
     s.portUp 3 = true ∧ s.sfState 3 = 1 ∧ s.servedHalves 3 = 3 ∧ bit (s.reg (offSfPort 3 0)) 2 = false) ∧
    (let s := (linked s0).setReg (offPeer 7 0) 2
     (s.port 0).up = true ∧ 0 = s.mgmtPort ∧ s.pins.strapSlot = 0 ∧ s.peerState 7 = 2 ∧
       (s.setPort 1 (s.port 0)).mgmtPort = 0 ∧ ((s.setPort 1 (s.port 0)).port 1).up = true) := by decide +kernel

/-- A request of job 9 from node 1. -/
def hdr9 (op a : Nat) : FabHdr := ⟨op, 1, false, false, false, 9, 1, 0, 0x12, 16, 1, a⟩

/-- The serving state: the job has node 1 in its member list, and its context is 1. -/
def served : State := (inJob s0).setReg (offTfJob 2 0) 2

/-- The same with the half at 0x1_0000 of context 1 uncorrectable. -/
def servedBad : State := { served with hbm := { served.hbm with bad := [0, 1, 2, 3] ++ (List.range 4).map (· + 0x400) } }

theorem test_FabricRequestsServed :
    ([1, 2, 3, 4, 5, 6].all fun op => (hdr9 op 0x1_0000).wf op) = true ∧ served.arrives 1 = true ∧ 0 = served.node ∧
    served.admission (hdr9 1 0x1_0000) false = .ok (2, 1) ∧ (served.targetRange 1 0x1_0000 128 false true).toOption.isSome = true ∧
    (served.targetRange 1 (2 ^ 40) 128 false true).toOption = none ∧
    (served.targetRange 1 (loadRange (hdr9 2 0x1_0000)).1 (loadRange (hdr9 2 0x1_0000)).2 true false).toOption.any
      (fun l => !served.badPieces l && servedBad.badPieces l) = true ∧
    (served.targetRange 1 (loadRange (hdr9 2 (2 ^ 40))).1 128 true false).toOption = none ∧
    (served.fetched 1 4).toOption.any (fun e => served.rangesFault 1 e.2 == none &&
      (served.translate 1 (served.descAddr 1 e.1) 64 true false).toOption.isSome) = true ∧
    (hdr9 4 3).address % 8 ≠ 0 ∧ (served.targetRange 1 0x1_0000 8 false true).toOption.any
      (fun l => !served.badPieces l && servedBad.badPieces l) = true ∧
    (served.flagWord 1 4).toOption = some 0x1_0000 ∧ (served.flagWord 1 9).toOption = none ∧ (served.deliverToken 1 0 31).2 = true ∧
    (served.deliverToken 1 1 0).2 = false ∧ served.admission { hdr9 1 0 with job := 8 } false = .error 0x7002 ∧ served.node ≠ 1023 ∧
    ([1, 2, 3, 4, 5, 6].all fun op => { hdr9 op 0 with dst := 1023 }.wf op) = true ∧
    (let f (n : Nat) (d : Bool) : State := { served with fab := { served.fab with flags := [(2, ⟨{ hdr9 5 0x1_0000 with deviceHeld := d }, n⟩)] } }
     look (f 0 false).fab.flags 2 = some ⟨hdr9 5 0x1_0000, 0⟩ ∧ (look (f 0 true).fab.flags 2).any (fun w => w.hdr.deviceHeld) = true ∧
       (look (f 0x4003 false).fab.flags 2).any (fun w => w.failed != 0) = true) := by decide +kernel

/-- The proxies of job 2 for fence 0x77 of node 1. -/
def found (t : State) : Tab Fence := t.objs.fences.filter fun f => match f.2.home with
  | some (n, k, _) => n == (hdr9 9 0).src && k == 0x77 && (match t.ctx f.2.owner with | some c => c.job == some 2 | none => false)
  | none => false

theorem test_TriggersFencesAndLosses :
    (∀ n l, ReqKind.load 0 128 ≠ .mirror n l) ∧ (([7, 8, 9, 10].all fun op => (hdr9 op 0).wf op) = true ∧ served.admission (hdr9 7 0) true = .ok (2, 1) ∧
    (served.trigBlock 1 4).toOption.map (·.1) = some 0x1_0000 ∧ (served.trigBlock 1 9).toOption.isNone = true ∧
    (let g := { fence1 1 with exported := some true }
     let p := { fence1 1 with home := some (1, 0x77, true) }
     let s := { served with objs := { served.objs with fences := [(0x100, g)] } }
     s.fence 0x100 = some g ∧ g.exported = some true ∧ g.home = none ∧ s.ctx g.owner = some { ctx1 with job := some 2 } ∧
       (fence1 1).exported ≠ some true ∧ s.admission (hdr9 10 0) false = .ok (2, 1) ∧
       (let d := { g with held := true, owner := 9, proxies := [(1, 0x100)] }; d.held = true ∧ (∃ q ∈ d.proxies, q.1 = (hdr9 10 0).src) ∧ d.exported = some true) ∧
       found { s with objs := { s.objs with fences := [(0x100, p)] } } = [(0x100, p)] ∧ found s = []) ∧
    served.admission { hdr9 7 0 with job := 8 } true = .error 0x7002 ∧ served.arrives 1 = true ∧ s0.alive = true ∧ (1023, 7) ∉ s0.fab.seen) ∧
    (let o (op a : Nat) : FabHdr := { hdr9 op a with deviceHeld := true }
     let k := 0x1000_0000_0000
     let s := { served with sec := { served.sec with lc := .service }, fab := { served.fab with svcPeer := 1 } }
     let z := s.modCore 0 fun c => { c with clk := .clockGated }
     let b := ({ served with surv := { served.surv with pair := .paired, partner := 1 } }).setReg (offTf 0x8018) 2
     (o 1 0).wf 1 = true ∧ (o 2 0).wf 2 = true ∧ served.held (o 1 k) k 128 = none ∧ s.held (o 1 k) k 128 = some (.core k) ∧
       s.sleeping (.core k) = none ∧ z.held (o 1 k) k 128 = some (.core k) ∧ z.sleeping (.core k) = some 0 ∧
       served.held (o 2 k) (loadRange (o 2 k)).1 (loadRange (o 2 k)).2 = none ∧
       (let a := b.poolBase
        b.held (o 2 a) (loadRange (o 2 a)).1 128 = some (.hbm a) ∧ b.held (o 5 a) (o 5 a).address 8 = some (.hbm a) ∧ served.held (o 5 a) (o 5 a).address 8 = none ∧ b.badPieces [(a, 128, 0)] = false ∧
          { b with hbm := { b.hbm with bad := [a / 64] } }.badPieces [(a, 128, 0)] = true)) ∧
    (let s := { s0 with fab := { s0.fab with notices := [(1023, 7)], seen := [(1023, 7)] } }
     (1023, 7) ∈ s.fab.notices ∧ (1023, 7) ∈ s.fab.seen ∧ ∀ n ∈ s.fab.notices, n.1 = 1023 → s.holdsNotice n.2 1023 = false) ∧
    { s0 with fab := { s0.fab with notices := [(1023, 7), (7, 1023)] } }.fab.notices = [(1023, 7), (7, 1023)] ∧
    (let r : Req := ⟨1, .load 0 128, none, 1, none, 2, 0x1_0000, [], 0, false, 0, none⟩
     let s := { served with fab := { served.fab with reqs := [(3, r)] } }
     look s.fab.reqs 3 = some r ∧ r.waiting = false ∧ s.fab.selfFenced = false ∧ r.kind.timed = true ∧ r.dst / 8 = s.pins.strapTray ∧
       (⟨1, 0, false, 0, []⟩ : FabResp).src = r.dst ∧ (⟨1, 0, false, 0, []⟩ : FabResp).dst = s.node ∧
       (⟨1, 1016, false, 0, []⟩ : FabResp).dst ≠ s.node ∧ { r with dst := 1023 }.dst / 8 ≠ s.pins.strapTray) :=
  ⟨fun n l h => (by cases h), by decide +kernel, by decide +kernel⟩

/-! ### Survival and the recorder -/

theorem test_PairingRuns :
    (let s := (s0.setReg (offTf 0x8000) 7).setReg (offPeer 7 0) 1
     s.surv.pair ≠ .pairing ∧ s.surv.pair ≠ .paired ∧ s.peerState (fld (s.reg (offTf 0x8000)) 0 3) = 1 ∧ look s.surv.requests 7 = none ∧ look (s.modSurv fun v => { v with requests := [(7, ⟨7, 0, 1, 64, 0, false, true⟩)] }).surv.requests 7 = some ⟨7, 0, 1, 64, 0, false, true⟩ ∧
       7 / 8 = s.pins.strapTray ∧ s.peerState (7 % 8) = 1 ∧
       (let t := s.modSurv fun v => { v with pair := .pairing, partner := 7 }
        t.surv.pair = .pairing ∧ t.surv.partner = 7 % 8 ∧ (⟨0, 7, 1, 64, 0, false, true⟩ : PairReq).names = t.pins.strapSlot)) ∧
    s0.peerState (fld (s0.reg (offTf 0x8000)) 0 3) ≠ 1 ∧ (s0.modSurv fun v => { v with pair := .partnerLost }).surv.pair = .partnerLost ∧
    (s0.modSurv fun v => { v with pair := .paired }).surv.pair = .paired := by decide +kernel

/-- A device with a pool of `n` pages. -/
def pooled (n : Nat) : State := s0.setReg (offTf 0x8018) n

/-- A peer's request with a pool of `n` pages and a feed. -/
def ask7 (n feed : Nat) (force ok : Bool) : PairReq := ⟨0, 7, feed, n, 0, force, ok⟩

theorem test_PairingChecks :
    (pooled 64).surv.prots = [] ∧ (pooled 63).poolPages < 64 ∧ (ask7 63 1 true true).poolPages < 64 ∧ (ask7 64 1 true false).poolOk = false ∧
    { pooled 64 with objs := { s0.objs with parts := [(0, { part0 with ranges := [(0, 0x20_0000)] })] } }.poolOverlaps = true ∧
    64 ≤ (pooled 64).poolPages ∧ 64 ≤ (ask7 64 1 false true).poolPages ∧ (pooled 64).poolOverlaps = false ∧
    (ask7 64 1 false true).feed ≠ (pooled 64).pins.strapFeed ∧ (ask7 64 0 false true).feed = (pooled 64).pins.strapFeed ∧
    (bit ((pooled 64).reg (offTf 0x8000)) 3 && (ask7 64 0 true true).force) = false ∧
    (bit (((pooled 64).setReg (offTf 0x8000) 8).reg (offTf 0x8000)) 3 && (ask7 64 0 true true).force) = true := by decide +kernel

/-- A state whose job 9 is protected as `p`. -/
def protectedBy (p : Prot) : State := { inJob s0 with surv := { s0.surv with prots := [(2, p)] } }

theorem test_ProtectionRuns :
    (let s := (((inJob s0).setReg (offSurv 2 0) 1).setReg (offSurv 2 8) 0x2_0000).modSurv fun v => { v with poolFree := 8 }
     let t := { s with mem := cellPuts s.mem 0x2_0000 (leBytes 4 1 ++ leBytes 2 1 ++ leBytes 2 0 ++ leBytes 4 0 ++ leBytes 4 1) }
     look t.objs.jobs 2 = some job9 ∧ t.prot 2 = none ∧ (t.protTable 2).any (fun es =>
       decide (t.localShare { protOff 9 0 with entries := es, state := .lapsed } ≤ t.surv.poolFree)) = true ∧ t.surv.pair ≠ .paired) ∧
    ((protectedBy prot9).prot 2 = some prot9 ∧ prot9.closing = none) ∧
    (let p := { prot9 with mirrors := [(5, true)] }
     let r : Req := ⟨7, .mirror 2 5, none, 1, none, 2, 5 * 128, [], 0, false, 0, none⟩
     let s := protectedBy p
     s.prot 2 = some p ∧ (p.mirrors.find? fun m => m.1 == 5) = some (5, true) ∧
       (s.fab.reqs.find? fun r => r.2.kind == ReqKind.mirror 2 5) = none ∧
       ({ s with fab := { s.fab with reqs := [(3, r)] } }.fab.reqs.find? fun r => r.2.kind == ReqKind.mirror 2 5) = some (3, r)) ∧
    (let c : Close := ⟨1, true, true, .step⟩
     let p := { prot9 with closing := some c }
     (protectedBy p).prot 2 = some p ∧ c.phase = .step ∧ (protectedBy p).updatesOpen 2 = false ∧ p.drained = true ∧
       { protectedBy p with uu := { s0.uu with updates := [(0, upd 1 true)] } }.updatesOpen 2 = true ∧
       { c with phase := .marker }.phase = .marker ∧ (∀ r ∈ (protectedBy p).fab.reqs, r.2.kind ≠ .marker 2 true) ∧
       (let r : Req := ⟨7, .marker 2 true, none, 1, none, 9, 0, [], 0, false, 0, none⟩
        ({ protectedBy p with fab := { s0.fab with reqs := [(3, r)] } }.fab.reqs.find? fun r =>
          r.2.kind == ReqKind.marker 2 true) = some (3, r) ∧ { prot9 with markerSent := true }.closing = none) ∧
       { c with phase := .writeback }.phase = .writeback ∧ (protectedBy p).mirroring p = false ∧ { c with phase := .marker }.phase ≠ .step ∧
       ((protectedBy p).modSurv fun v => { v with pair := .paired }).mirroring p = true ∧ p.journal = [] ∧ { p with journal := [5] }.journal ≠ [] ∧
       (let m : MemObj := ⟨1, 0, 1, [0x2_0000], .live, []⟩
        let t := { s0 with objs := { s0.objs with mems := [(1, m)] } }
        (t.protPage p true false (0x400 * 128)).isSome = true)) ∧
    (let p := { prot9 with stage := .streaming }
     let s := (protectedBy p).modSurv fun v => { v with pair := .paired }
     s.prot 2 = some p ∧ p.stage = .streaming ∧ s.surv.pair = .paired) := by decide +kernel

/-- The seal record of an empty table, with a page digest list of no entries. -/
def record9 : List Byte := (protectedBy prot9).sealRecord { prot9 with entries := [] } seal1 []

theorem test_Records :
    (protectedBy prot9).recordFault { prot9 with entries := [] } record9 = none ∧ (protectedBy prot9).recordFault prot9 [] = some 0x7026 ∧
    sha384 [] = sliceBytes record9 0x70 48 ∧ sha384 (seal1.sched.bytes 9) = sliceBytes record9 0xA0 48 ∧
    sha384 [1] ≠ sliceBytes record9 0xA0 48 ∧ sha384 [1] ≠ sliceBytes record9 0x70 48 := by decide +kernel

theorem test_RestoresRun :
    (let p := { prot9 with settled := some seal1 }
     let s := { protectedBy p with seqs := [] }
     look s.surv.prots 2 = some p ∧ (protectedBy p).jobBusy 2 = true ∧ p.state ≠ .off ∧ p.state ≠ .restoring ∧ s.jobBusy 2 = false ∧
       bit (s.reg (offSurv 2 0x20)) 1 = false ∧ p.settled = some seal1 ∧ seal1.intact = true ∧ { seal1 with intact := false }.intact = false ∧
       prot9.settled = none ∧ bit ((s.setReg (offSurv 2 0x20) 2).reg (offSurv 2 0x20)) 1 = true ∧ s.surv.pair ≠ .paired ∧
       (s.modSurv fun v => { v with pair := .paired }).surv.pair = .paired) ∧
    (let p := { prot9 with settled := some seal1, state := .restoring }
     (protectedBy p).prot 2 = some p ∧ p.state = .restoring ∧ p.fromPartner = false ∧ p.settled = some seal1 ∧ (protectedBy p).localPages p seal1 = [] ∧
       sha384 (seal1.sched.bytes 9) ≠ sliceBytes seal1.record 0xA0 48 ∧ (protectedBy p).localPages p { seal1 with versions := [(0, 1, [5])] } = [(0, [5])] ∧
       (protectedBy p).pageMatches p [] (0, [5]) = false ∧ (protectedBy p).pageMatches p [sha384 [5]] (0, [5]) = true) ∧
    look s0.surv.prots 2 = none ∧
    { prot9 with state := .restoring }.settled = none ∧
    (let p := { prot9 with entries := [], state := .restoring, fromPartner := true }
     (protectedBy p).prot 2 = some p ∧ p.fromPartner = true ∧ (protectedBy p).sealPages p = [] ∧ look [(schedAddr, [1])] schedAddr = some [1]) ∧
    (protectedBy prot9).prot 2 = some prot9 ∧ prot9.state ≠ .restoring := by decide +kernel

theorem test_SparesAndMinutes :
    (let s1 := s0.setField (offDk 0x820) 13 11 1087
     (s1.kind 5 = .enabled ∧ 5 ∉ s1.surv.spareDue ∧ ((s1.spareFor 5).isSome && s1.surv.spare.isNone) = true) ∧
       (let t := { s1 with ident := { s1.ident with kinds := (List.range 68).map fun i => (i, CoreKind.enabled) } }; t.kind 5 = .enabled ∧ t.spareFor 5 = none) ∧
       (let t := s1.modSurv fun v => { v with spare := some (6, 66, 0) }; (t.spareFor 5).isSome = true ∧ t.surv.spare = some (6, 66, 0) ∧ 6 ≠ 5)) ∧
    (let s := s0.modSurv fun v => { v with spare := some (5, 65, 0) }
     s.surv.spare = some (5, 65, 0) ∧ s.sealHolds = false ∧ s.coreSeq 5 = some (0, sq) ∧ sq.preempting = false ∧ s.coreSeq 6 = none ∧
       { sq with preempting := true }.preempting = true ∧
       (s.modSurv fun v => { v with prots := [(2, { prot9 with closing := some ⟨1, true, true, .marker⟩ })] }).sealHolds = true) ∧
    (let s := (s0.modSurv fun v => { v with spare := some (5, 65, 1) }).modCore 5 fun k => { k with saved := [.te, .ge, .me] }
     s.surv.spare = some (5, 65, 1) ∧ s.coreSeq 5 = some (0, sq) ∧ (sq.members.all fun m => (s.core m).saved.length == 3) = true ∧
       (sq.members.all fun m => (s0.core m).saved.length == 3) = false ∧ s.coreSeq 6 = none ∧ s.storeOwner 6 = none) ∧
    (let v : Saved := ⟨sq, [], [], [], [], [], []⟩
     let s : State := { s0 with seqs := [], objs := { s0.objs with ctxs := [(1, { ctx1 with saved := [v] })] } }
     s.coreSeq 5 = none ∧ s.storeOwner 5 = some (1, v, 0)) ∧
    s0.pins.duskReady = true ∧ (s0.modPins fun p => { p with duskReady := false }).pins.duskReady = false ∧ s0.surv.riskLevel < 4 := by decide +kernel

theorem test_RecorderCommands :
    s0.pins.duskReady = true ∧
    (let e : RawEvent := ⟨0xA809, [1], 0, 1, 0⟩
     let s := s0.modRecd fun r => { r with intake := [e], marks := [(0, 1)] }
     s.recd.intake = [e] ∧ s.recd.seqNext < s.recd.lastMark) ∧
    ((bucketDefault 0x8801).isSome = true ∧ 0 < (s0.bucket 0x8801).tokens ∧
      ((s0.setBucket 0x8801 { s0.bucket 0x8801 with tokens := 0 }).bucket 0x8801).tokens = 0) ∧
    (s0.modRecd fun r => { r with flushing := true, flushFails := 1 }).recd.flushing = true ∧ s0.recd.flushFails ≠ 1 ∧
    (s0.modRecd fun r => { r with flushing := true, flushFails := 1 }).recd.flushFails = 1 ∧ s0.recd.flushing = false ∧ s0.recd.intake = [] ∧
    (s0.window 4).busy = false ∧ (bucketDefault 0xA809).isSome = false ∧ ((linked s0).port 0).up = true ∧
    ((s0.setWindow 4 { s0.window 4 with busy := true }).window 4).busy = true ∧
    (let r : Record := ⟨7, 0xA809, [], 0, false⟩
     let s := (s0.modRecd fun k => { k with ring := [r] }).setWindow 4 { s0.window 4 with seq := 7, busy := true }
     (s.window 4).seq.toNat ≤ r.seq ∧ r ∈ s.recd.ring ++ s.recd.flash ∧ ¬ r.seq < (s.window 4).seq.toNat) := by decide +kernel

theorem test_SequenceNumbers :
    (match exec .eventIntake (s0.modRecd fun r => { r with intake := [⟨0xA809, [1], 0, 1, 0⟩], marks := [(0, 1)] }) with
      | .next t => t.recd.seqNext == 1
      | _ => false) = true := by decide +kernel

/-- Job 9's protection with its one page frozen, in a close that holds writes where `c` says. -/
def protPaged (c : Option Close) (x : Option Seal) : Prot := { prot9 with frozen := [0], closing := c, settled := x }

/-- A settled seal whose one version has `n` bytes. -/
def bigSeal (n : Nat) : Seal := { seal1 with versions := [(0, 1, List.replicate n 0)] }

/-- It takes so many pages, whatever the page's bytes would add. -/
theorem bigSeal_pages (n vid : Nat) (bytes : List Byte) :
    versionPages { protPaged none (some (bigSeal n)) with settled := (some (bigSeal n)).map (addVersion 0 vid bytes) } = (n + 0x1F_FFFF) / 0x20_0000 := by
  have v : addVersion 0 vid bytes (bigSeal n) = bigSeal n := rfl
  simp only [Option.map_some, v]
  simp [versionPages, bigSeal, protPaged, prot9, protOff]

theorem test_WritesWait :
    (let p := protPaged none none
     let s := protectedBy p
     let t := protectedBy { p with cowWaits := [0] }
     s.mustWait t = true ∧ s.mustWait s = false ∧ s.waitsMade t 2 = [0] ∧ look s.surv.prots 2 = some p ∧ look t.surv.prots 2 = some { p with cowWaits := [0] } ∧
       p.cowWaits.count 0 < [0].count 0) ∧
    (protectedBy (protPaged (some ⟨1, true, true, .marker⟩) none)).holdsAt 0x100 = true ∧
    (let p := protPaged none none
     let s := protectedBy p
     s.protPage p true true 0x100 = some (0, 0) ∧ 0 ∈ p.frozen ∧ 0 ∉ prot9.frozen ∧
       versionPages { p with frozen := drop1 p.frozen 0, settled := p.settled.map (addVersion 0 s.surv.nextVersion []) } ≤ s.versionRoom p) := by
  decide +kernel

/-- The third clause's other case: with no page free, the page waits for one. -/
theorem test_WaitsForPage (n : Nat) (h : n = 0x80_0000) :
    let p := protPaged none (some (bigSeal n))
    let s := protectedBy p
    s.protPage p true true 0x100 = some (0, 0) ∧ p.openSeal = none ∧ p.settled ≠ none ∧ ∀ bytes,
      s.versionRoom p < versionPages { p with settled := p.settled.map (addVersion 0 s.surv.nextVersion bytes) } := by
  refine ⟨rfl, rfl, by simp [protPaged], fun bytes => ?_⟩
  have r : (protectedBy (protPaged none (some (bigSeal n)))).versionRoom (protPaged none (some (bigSeal n))) = 2 := by
    have e : (protectedBy (protPaged none (some (bigSeal n)))).versionRoom (protPaged none (some (bigSeal n))) =
      (protectedBy (protPaged none none)).versionRoom (protPaged none none) := rfl
    rw [e]; decide +kernel
  have b := bigSeal_pages n (protectedBy (protPaged none (some (bigSeal n)))).surv.nextVersion bytes
  simp only [r]
  exact (by omega : 2 < (n + 0x1F_FFFF) / 0x20_0000).trans_eq b.symm

/-! ### Power, security, registers, the machine -/

theorem test_BudgetsAndCapsMove :
    s0.pins.duskReady = true ∧ s0.thermLow = false ∧ (slowAlarm ⟨70000, 48000, 0, 109, []⟩).1 = false ∧ s0.staged = [] ∧ s0.alive = true ∧
    (s0.die 15).gated = false ∧ ((s0.modDie 15 fun d => { d with gated := true }).die 15).gated = true ∧ { s0 with pins := { s0.pins with thermBoard := true } }.thermLow = true ∧
    (let k := { s0.die 15 with budget := 1000 }; k.budget < 1001 ∧ 979 ≤ k.budget ∧ 979 * 100 < k.budget * 98 ∧ 980 ≤ k.budget ∧
      k.budget * 98 ≤ 980 * 100) := by decide +kernel

theorem test_GovernorRuns :
    (let k := { s0.pwr with gov := .peak, overN := 98 }; k.gov = .peak ∧ min 70000 (currentWatts 48000) < 80000 ∧ k.overN = 98 ∧ 97 < 98) ∧
    (let k := { s0.pwr with gov := .cool, cool := 900 }; k.gov = .cool ∧ 1 < k.cool ∧ k.cool ≤ 900 ∧ { k with cool := 1 }.cool = 1) ∧
    s0.pwr.gov = .normal := by decide +kernel

theorem test_GatingFollowsIdleness :
    s0.alive = true ∧ s0.kind 1083 = .enabled ∧ (s0.core 1083).clk = .running ∧ (s0.core 1083).waking = false ∧ (s0.core 1083).idleNow = true ∧
    s0.coreSaving 1083 = false ∧
    (let s := s0.modCore 1087 fun k => { k with clk := .clockGated }
     (s.core 1087).clk = .clockGated ∧ (s.core 1087).waking = false ∧ (s.die (1087 / 68)).gated = false) ∧
    (let s := (s0.modCore 1087 fun k => { k with clk := .powerGated, waking := true, rampPhase := 1 }).modDie 15 fun d => { d with rampWait := [1087] }
     (s.die (1087 / 68)).rampWait = [1087] ∧ s.ramps 15 < 8 ∧ (s.core 1087).clk = .powerGated ∧
       ({ s0 with cores := (List.range 8).map fun i => (1020 + i, { Core.idle with rampPhase := 2 }) }).ramps 15 = 8) ∧
    (s0.modCore 1087 fun k => { k with clk := .powerGated }).core 1087 = { Core.idle with clk := .powerGated } ∧
    (let s := s0.modCore 1087 fun k => { k with clk := .powerGated, waking := true, rampPhase := 2 }
     (s.core 1087).waking = true ∧ (s.core 1087).clk = .powerGated ∧ (s.core 1087).rampPhase = 2) ∧
    (s0.modCore 1087 fun k => { k with clk := .clockGated, waking := true }).core 1087 = { Core.idle with clk := .clockGated, waking := true } ∧
    { s0 with pins := { s0.pins with wakeLow := true } }.pins.wakeLow = true ∧
    (let s := ({ s0 with cores := (List.range 68).map fun i => (1020 + i, { Core.idle with clk := .powerGated }) }).setReg (offPgDie 15 0) (2 ^ 13)
     s.pins.wakeLow = false ∧ (s.die 15).gated = false ∧ s.dieAsked 15 = false ∧
       { s with cache := { s.cache with misses := [(0, ⟨0, 0, 1, none, true, true, false, none⟩)] } }.dieAsked (stackOf 0 / 2) = true ∧ bit (s.reg (offPgDie 15 0)) 13 = true ∧
       ∀ x ∈ s.enabledOn 15, (s.core x).clk = .powerGated ∧ (s.core x).waking = false) ∧
    (let s := s0.modDie 15 fun d => { d with gated := true }
     (s.die 15).gated = true ∧ (s.die 15).waking = false ∧ ((s.modCore 1087 fun k => { k with clk := .powerGated }).core 1087).clk ≠ .running) ∧
    (let s := s0.modDie 15 fun d => { d with gated := true, waking := true }
     (s.die 15).waking = true ∧ (s.die 15).unlocked = false) ∧ ((s0.modDie 15 fun d => { d with pllLost := true }).die 15).unlocked = true ∧
    ((s0.modDie 15 fun d => { d with ctlLost := true }).die 15).unlocked = true := by
  decide +kernel

/-- The pins changed. -/
def pinned (f : Pins → Pins) : State := { s0 with pins := f s0.pins }

theorem test_PowerSequences :
    (pinned fun p => { p with inputUp := false }).pins.inputUp = false ∧
    (pinned fun p => { p with duskReady := false }).pins.inputUp = true ∧ (pinned fun p => { p with duskReady := false }).pins.duskReady = false ∧
    s0.pins.inputUp = true ∧ (pinned fun p => { p with pg := false }).pins.railsOn = true ∧ (pinned fun p => { p with pg := false }).pins.pg = false ∧
    (pinned fun p => { p with pg := false }).pins.resetN = true ∧ (pinned fun p => { p with pg := false, resetN := false }).pins.resetN = false ∧
    s0.pins.pg = true ∧ s0.pins.railsOn = true ∧ s0.pins.resetN = true ∧ (pinned fun p => { p with resetN := false }).pins.pg = true ∧
    (pinned fun p => { p with railsOn := false }).pins.railsOn = false ∧ (pinned fun p => { p with railsOn := false }).pins.duskReady = true := by decide +kernel

theorem test_PinsAndClocksAct :
    s0.alive = true ∧ ((s0.modDie 15 fun d => { d with gated := true }).die 15).gated = true ∧ s0.thermLow = false ∧ s0.pins.duskReady = true ∧
    (pinned fun p => { p with thermBoard := true }).pins.thermBoard = true ∧ (pinned fun p => { p with thermBoard := true }).pins.thermModule = false ∧
    s0.pwr.gov ≠ .cool ∧
    (let s := s0.modDie 15 fun d => { d with pllLost := true, relocksArith := 2, relocksCtl := 1 }
     (s.die 15).pllLost = true ∧ (s.die 15).relocksArith = 2 ∧ (s.die 15).relocksCtl ≠ 2) ∧
    (let s := s0.modDie 15 fun d => { d with pllLost := true, ctlLost := true, relocksArith := 0, relocksCtl := 2 }
     (s.die 15).pllLost = true ∧ (s.die 15).ctlLost = true ∧ (s.die 15).relocksArith ≠ 2 ∧ (s.die 15).relocksCtl = 2) ∧ (s0.die 15).pllLost = false ∧ (s0.die 15).ctlLost = false ∧
    (let s := s0.modDie 15 fun d => { d with ctlLost := true, relocksCtl := 1 }; (s.die 15).ctlLost = true ∧ (s.die 15).relocksCtl ≠ 2) ∧
    ((s0.modDie 15 fun d => { d with gated := true, waking := true }).die 15).waking = true ∧ (s0.die 15).waking = false ∧ (s0.die 15).gated = false ∧
    s0.pins.inputUp = true ∧ s0.pwr.oscBackup = false := by decide +kernel

theorem test_BootsAndHubsChange :
    s0.alive = true ∧ s0.pins.booting = true ∧ ((linked s0).port 0).up = true ∧ 0 = (linked s0).mgmtPort ∧
    (let s := (linked s0).setPort 3 { (linked s0).port 0 with up := true }; (s.port 3).up = true ∧ 3 ≠ s.mgmtPort) ∧
    ({ linked s0 with sec := { s0.sec with hubStandby := none } }.loneHub 0) = true ∧
    (s0.sec.hubs[0]? = some .active ∧ s0.sec.hubActive = 0 ∧ s0.sec.hubStandby = some 1 ∧ s0.sec.hubs.length = 4 ∧ s0.sec.hubs[1]? = some .standby ∧
      s0.sec.hubActive ≠ 1) ∧ flashOk ⟨256, true, true, true⟩ = false ∧ s0.sec.units.length = 6 ∧ s0.loneHub 0 = false ∧
    { s0 with sec := { s0.sec with hubs := s0.sec.hubs.set 3 .resetting } }.sec.hubs[3]? = some .resetting := by decide +kernel

/-- A token to SERVICE for device id 0 and a first change, reason 2. -/
def token1 : List Byte :=
  leBytes 4 0x4E4B_434C ++ [3, 0x10, 2, 0] ++ leBytes 120 0 ++ leBytes 48 (beNat (sha384 (leBytes 4 0x4E4B_434C ++ [3, 0x10, 2, 0] ++ leBytes 120 0)) % ecQ) ++
    leBytes 48 (beNat (sha384 (leBytes 4 0x4E4B_434C ++ [3, 0x10, 2, 0] ++ leBytes 120 0)) % ecQ) ++ leBytes 32 0

/-- The operator's key under which both scalars of that signature's check are 1: the point whose x is the signature's r, less the base point. -/
def operatorKey : List Byte :=
  [0x04] ++ beBytes 48 0x60ae57691136453e8c9b1343cb135f1eb13463aa3906c568a4ced03f4245d3ff68055fa4b0b7e3eafcf1f27f8a81250f ++
    beBytes 48 0x48d17fd77e63c0428bb2028c171af1a096d4a9ac1d299b257c66df2a4b6d80a6b89aa3dfaf75ab75fb923a79cbb04169

/-- A deployed device with a token staged. -/
def tokened (b : List Byte) : State :=
  { s0 with sec := { s0.sec with
      deviceId := List.replicate 16 0, provRecord := List.replicate 8 0 ++ operatorKey, token := b.zipIdx.map fun e => (e.2, e.1) } }

/-- A token that passes every check, and one to no state. -/
theorem test_Tokens :
    (tokened token1).checkToken (tabBytes (tokened token1).sec.token 256) = .ok (.service, false) ∧
    (tokened token1).checkToken (token1.set 4 9) = .error 0xA00A ∧ (tokened token1).changing = false := by decide +kernel

theorem test_LifeCycleChanges :
    s0.alive = true ∧ s0.changing = false ∧ s0.checkToken (tabBytes s0.sec.token 256) = .error 0xA008 ∧
    { s0 with sec := { s0.sec with changeStage := 1 } }.changing = true ∧
    (let s := { s0 with sec := { s0.sec with changeStage := 2, changePending := some (.deployed, .provisioned) }, pins := { s0.pins with booting := false } }
     s.alive = true ∧ s.sec.changeStage = 2 ∧ s.pins.booting = false ∧ s.sec.changePending = some (.deployed, .provisioned)) ∧
    (let s := { s0 with sec := { s0.sec with lc := .retired } }
     s.sec.lc = .retired ∧ s.sec.token = [] ∧ s.alive = true ∧ s.changing = false) := by decide +kernel

/-- An image of unit 5 with no payload. -/
def image5 : List Byte :=
  leBytes 4 0x5746_4853 ++ [5, 1, 0, 0] ++ leBytes 56 0 ++ sha384 [] ++ leBytes 16 0 ++ operatorKey ++ leBytes 159 0

/-- It passes the checks of a device with its key fused, wherever its signature verifies. -/
theorem test_Images (h : ecdsaVerify operatorKey (image5.take 0x100) (sliceBytes image5 0x100 96) = true) :
    { s0 with sec := { s0.sec with vendorHashes := [sha384 operatorKey] } }.checkImage 5 0 image5 = 0 := by
  have k : sliceBytes image5 0x80 97 = operatorKey := by decide +kernel
  have a : (image5.length < 384 ∨ leAt image5 0 4 ≠ 0x5746_4853 ∨ leAt image5 4 1 ≠ 5 ∨ !(bit (leAt image5 5 1) 0) ∨ s0.ident.revision < leAt image5 6 2 ∨
      slotBytes 5 < 384 + leAt image5 16 4 ∨ image5.length < 384 + leAt image5 16 4) = False := eq_false (by decide +kernel)
  have b : (sha384 (sliceBytes image5 384 (leAt image5 16 4)) != sliceBytes image5 0x40 48) = false := by decide +kernel
  have c : { s0 with sec := { s0.sec with vendorHashes := [sha384 operatorKey] } }.vendorKey (leAt image5 0x14 1) operatorKey = true := by
    decide +kernel
  have d : ¬ leAt image5 12 1 < 0 := by omega
  have g : s0.ident.grade = .full := rfl
  simp only [State.checkImage, k, g, a, b, c, d, h, if_false]
  rfl

/-- An update of unit 5 at a stage. -/
def updating (g : UpdStage) : State := { s0 with sec := { s0.sec with upd := { s0.sec.upd with stage := g, unit := 5 } } }

theorem test_UpdatesOfFirmwareRun :
    s0.alive = true ∧ s0.changing = false ∧ s0.updSource = none ∧ (updating .trial).changing = true ∧
    (let s := ((s0.setReg (offSc 0x38) (2 ^ 16)).setReg (offSc 0x40) 0x8_0000).setReg (offSc 0x48) 8
     s.updSource.any (fun e => e.2 == none && decide (6 ≤ leAt e.1 4 1)) = true ∧
       (let u := { s with sec := { s.sec with flash := [(0x8_0004, 5)] } }
        u.updSource.any (fun e => e.2 == none && decide (leAt e.1 4 1 < 6) && u.checkImage 5 (u.fwUnit 5).minSecVer e.1 != 0) = true) ∧
       (let u := { s.setReg (offSc 0x40) (slotBase 5 true) with sec := { s.sec with flash := [(slotBase 5 true + 4, 5)] } }
        u.updSource.any (fun e => e.2 == some (5, true) && u.checkImage 5 (u.fwUnit 5).minSecVer e.1 != 0) = true ∧
          ((u.fwUnit 5).slot true).delivered = false)) ∧ (updating .writing).sec.upd.stage = .writing ∧ 5 < (updating .writing).sec.units.length ∧
    (updating .activating).sec.upd.stage = .activating ∧ (updating .activating).switchPoint 5 = true ∧
    { updating .activating with uu := { s0.uu with updates := [(0, upd 1 true)] } }.switchPoint 5 = false ∧
    (s0.fwUnit 5).fuses = BitVec.ofNat 32 (2 ^ 0 - 1) ∧ (updating .activating).sec.attQueue = [] ∧
    (updating .activating).sec.upd.rollback = false ∧
    { s0.sec.upd with rollback := true }.rollback = true ∧ { s0 with sec := { s0.sec with attQueue := [3] } }.sec.attQueue ≠ [] ∧
    s0.sec.upd.stage ≠ .trial ∧ (updating .trial).sec.upd.stage = .trial := by decide +kernel

theorem test_FlashAndReports :
    s0.alive = true ∧ s0.sec.flashOp = none ∧ s0.flashAllowed 0x8_0000 = true ∧ (s0.setReg (offSc 0x600) 0x8_0000).flashOffset = 0x8_0000 ∧
    s0.flashAllowed s0.flashOffset = false ∧
    { s0 with sec := { s0.sec with flashOp := some (true, 0x17_0000, []) } }.sec.flashOp = some (true, 0x17_0000, []) ∧
    { s0 with sec := { s0.sec with flashOp := some (false, 0x17_0000, [7]) } }.sec.flashOp = some (false, 0x17_0000, [7]) ∧
    { s0.sec with lc := .retired }.lc = .retired ∧
    ((linked s0).port 0).up = true ∧ ((linked s0).mailbox 0).busy = false ∧ (linked s0).sec.lc ≠ .blank ∧ (linked s0).sec.lc ≠ .retired ∧
    (((linked s0).setMailbox 0 { (linked s0).mailbox 0 with busy := true }).mailbox 0).busy = true ∧
    (let s := { s0 with sec := { s0.sec with attQueue := [3] } }; s.sec.attQueue = [3] ∧ s.sec.upd.due = false) ∧
    (let s := { s0 with sec := { s0.sec with attQueue := [3], upd := { s0.sec.upd with due := true, stage := .activating, unit := 5 } } }
     s.sec.attQueue = [3] ∧ s.sec.upd.due = true ∧ s.sec.upd.stage = .activating ∧ s.switchPoint s.sec.upd.unit = true ∧ s.sec.upd.rollback = false) := by decide +kernel

theorem test_RegistersAreAccessed :
    (let s := linked s0
     (s.port 0).up = true ∧ s.pins.duskReady = true ∧ (winAt (offDk 0)).isSome = true ∧
       (winAt (offBl 1 0)).any (fun e => !(s.mayWrite 0 e.1)) = true ∧ s.meets (offBl 1 0x40) 64 = true ∧
       (winAt (offBl 0 0)).any (fun e => s.mayWrite 0 e.1) = true ∧ winAt 0xFF_FFF8 = none) ∧
    s0.hasPower s0.smb.offset.toNat = true ∧
    (let s := { s0 with smb := { s0.smb with offset := BitVec.ofNat 32 (offDk 0) } }
     s.smbReads s.smb.offset.toNat = true ∧ s.smbWrites s.smb.offset.toNat = true ∧ s.hasPower s.smb.offset.toNat = true) ∧
    (let s := { s0 with smb := { s0.smb with offset := 0x100_0000 }, pins := { s0.pins with pg := false } }
     s.hasPower s.smb.offset.toNat = false ∧ s.smbReads s.smb.offset.toNat = true) ∧
    (let s := { s0 with smb := { s0.smb with offset := 0x100_0000 } }
     s.smbWrites s.smb.offset.toNat = false ∧ s.hasPower s.smb.offset.toNat = true) ∧
    (let s := { s0 with smb := { s0.smb with offset := 0x5_1400 } }
     s.smbReads s.smb.offset.toNat = false ∧ s.hasPower s.smb.offset.toNat = true) ∧
    (pinned fun p => { p with alertLow := true }).pins.alertLow = true := by decide +kernel

theorem test_TapAnswers :
    s0.sec.lc ≠ .blank ∧ s0.sec.lc ≠ .service ∧ { s0 with sec := { s0.sec with lc := .blank } }.sec.lc = .blank ∧ { s0 with sec := { s0.sec with lc := .service } }.sec.lc = .service := by decide +kernel

theorem test_StepTakesTheFront :
    { s0 with pending := [.wakeNRelease, .swapReq] }.pending = .wakeNRelease :: [.swapReq] ∧ s0.pending = [] := by decide +kernel

/-- The invariant's premises hold at reset and a step answers there. -/
theorem test_EveryStep_premises :
    Memory.wf State.reset.mem = true ∧ State.reset.sec.lcCount ≤ 255 ∧
    (match step { s0 with pending := [.wakeNRelease] } with | .next t => t.pending.isEmpty && !t.pins.wakeLow | _ => false) = true := by
  decide +kernel

theorem test_LifeCycle_premises :
    s0.sec.lcCount ≤ 255 ∧ { s0 with sec := { s0.sec with lcCount := 255, lc := .retired } }.sec.lcCount = 255 ∧
    (match step { s0 with pending := [.swapReq] } with | .next t => decide (t.surv.swapPending = true) | _ => false) = true := by decide +kernel

theorem test_Stores_premises :
    (hdr9 1 0x1_0000).wf 1 = true ∧ (hdr9 4 0x1_0000).wf 4 = true ∧ served.arrives 1 = true ∧ (hdr9 1 0x1_0000).dst = served.node ∧ (hdr9 1 0x1_0000).deviceHeld = false ∧
    served.admission (hdr9 1 0x1_0000) false = .ok (2, 1) ∧
    (served.targetRange 1 (0x1_0000 / 128 * 128) 128 false true).toOption.any (fun l => l.length == 1) = true ∧
    (match exec (.lineStore (hdr9 1 0x1_0000) 0 (List.replicate 128 7)) served with | .next _ => true | _ => false) = true ∧
    (match exec (.fabricAtomic (hdr9 4 0x1_0000) .add 5) served with | .next _ => true | _ => false) = true ∧ Memory.wf s0.mem = true ∧
    s0.cache.lines = [] ∧ s0.holdsAt 0x8000 = false := by decide +kernel

theorem test_Commands_premises :
    (match exec .wakeNRelease s0 with | .next _ => true | _ => false) = true ∧ Instr.wakeNRelease.changesMemory = false ∧
    Instr.wakeNRelease.changesSecurity = false ∧ Instr.wakeNRelease.changesSmb = false ∧ Instr.swapReq.changesPins = false ∧
    Instr.swapReq.changesIdentity = false ∧ Instr.swapReq.changesPower = false ∧ Instr.swapReq.changesTensorUnits = false ∧
    Instr.swapReq.changesGroupEngines = false ∧ Instr.swapReq.wipesOrWritesControl = false := by decide +kernel

theorem test_NodeId_premises :
    (let s := pinned fun p => { p with duskReady := false, boardTray := 127, boardSlot := 7 }
     s.pins.inputUp = true ∧ s.pins.duskReady = false ∧
       (match exec (.duskReady true) s with | .next t => t.node == 1023 | _ => false) = true) := by decide +kernel

theorem test_Registers_premises :
    (winAt (offDk 0)).any (fun e => (winReg e.1 e.2).any fun r => r.width == 32) = true ∧ s0.noSf (offDk 0) = false ∧ 64 ≠ 32 ∧
    (winAt (offBl 0 0x40)).any (fun e => (winReg e.1 e.2).any fun r => r.width == 64) = true := by decide +kernel

theorem test_Signals_premises :
    (let s := { s0 with objs := { s0.objs with fences := [(0x100, fence1 1)] } }
     s.fence 0x100 = some (fence1 1) ∧ (fence1 1).home = none ∧ (fence1 1).value.toNat = 5 ∧ 2 ^ 64 - 1 < 2 ^ 64 ∧ 5 < 2 ^ 64 - 1 ∧ 5 ≤ 5) := by
  decide +kernel
end Sys2Proof.Tests
end

section
/-! PROOFS. What every step and every run keep (R1, R504, R505). -/

namespace Sys2Proof.Machine

open Sys2Proof

/-- What a step keeps, in the words of the invariant: `step_keeps` read at the state before the step. -/
theorem step_keeps_invariant {s t : State} (e : step s = .next t) (hm : MemCanonical s) (hc : s.sec.lcCount ≤ 255) :
    MemCanonical t ∧ t.sec.lcCount ≤ 255 ∧ t.pending = s.pending.tail ∧ t.ident.grade = s.ident.grade :=
  have k := step_keeps e
  ⟨k.wf hm, (k.count hc).2, k.pending, k.grade⟩

/-- A run keeps the invariant and takes some number of commands from the front of the queue. -/
theorem Reaches.keeps_invariant {s t : State} (r : Reaches s t) (hm : MemCanonical s) (hc : s.sec.lcCount ≤ 255) :
    MemCanonical t ∧ t.sec.lcCount ≤ 255 ∧ t.ident.grade = s.ident.grade ∧ ∃ n, t.pending = s.pending.drop n := by
  induction r with
  | refl => exact ⟨hm, hc, rfl, 0, rfl⟩
  | step _ e ih =>
    obtain ⟨htm, htc, htg, n, htp⟩ := ih
    obtain ⟨hum, huc, hup, hug⟩ := step_keeps_invariant e htm htc
    exact ⟨hum, huc, hug.trans htg, n + 1, by rw [hup, htp, List.tail_drop]⟩

/-- Settles O54: every command keeps the invariant (`step_keeps`), so every step does, and every run by induction on its steps. -/
theorem everyStepKeepsTheInvariant : Obligations.EveryStepKeepsTheInvariant :=
  ⟨fun _ _ => step_keeps_invariant, fun _ _ => Reaches.keeps_invariant⟩

end Sys2Proof.Machine
end

section
/-! PROOFS. The registers of the control space: their widths and places, and an access of another width (R10). -/

namespace Sys2Proof.Machine

open Sys2Proof

/-- An entry that a lookup finds stands in the table. -/
theorem mem_of_look {α : Type} {t : Tab α} {k : Nat} {v : α} (h : look t k = some v) : (k, v) ∈ t := by
  induction t with
  | nil => cases h
  | cons e t ih =>
    obtain ⟨a, w⟩ := e
    by_cases ha : a = k
    · simp only [look, ha, if_true, Option.some.injEq] at h
      simp [ha, h]
    · rw [look, if_neg ha] at h
      exact List.mem_cons_of_mem _ (ih h)

/-- A register of a width that R10 allows, at a place where 64 bits are aligned. -/
def RegSpec.placed (r : RegSpec) (o : Nat) : Bool := (r.width == 32 || r.width == 64) && o % 8 == 0

theorem RegSpec.placed_iff {r : RegSpec} {o : Nat} : r.placed o = true ↔ (r.width = 32 ∨ r.width = 64) ∧ o % 8 = 0 := by
  simp [RegSpec.placed]

/-- What one check of a table says of the registers found in it: each is placed, and in no byte window. -/
theorem placed_of_look {w : Win} {t : Tab RegSpec} {o : Nat} {r : RegSpec} (h : look t o = some r)
    (ht : t.all (fun e => e.2.placed e.1 && (byteWin w e.1).isNone) = true) : r.placed o = true ∧ byteWin w o = none := by
  have hr := List.all_eq_true.mp ht _ (mem_of_look h)
  simpa using hr

/-- The windows and the completion queues of a port repeat every 16 and 32 bytes, which keeps the alignment. -/
theorem blReg_placed {o : Nat} {r : RegSpec} (h : blReg o = some r) : r.placed o = true := by
  have repeats {n : Nat} (hn : 8 ∣ n) (ho : r.placed (o % n) = true) : r.placed o = true := by
    rw [RegSpec.placed_iff, Nat.mod_mod_of_dvd _ hn] at ho
    exact RegSpec.placed_iff.mpr ho
  unfold blReg at h
  split_ifs at h
  · exact repeats (by decide) (placed_of_look (w := .port 0) h rfl).1
  · exact repeats (by decide) (placed_of_look (w := .port 0) h rfl).1
  · exact (placed_of_look (w := .port 0) h rfl).1

/-- Every register has 32 or 64 bits, stands at a multiple of 8, and is no part of a byte window. -/
theorem winReg_placed {w : Win} {o : Nat} {r : RegSpec} (h : winReg w o = some r) : r.placed o = true ∧ byteWin w o = none := by
  cases w with
  | port p => exact ⟨blReg_placed h, rfl⟩
  | route t =>
    obtain ⟨rfl, rfl⟩ : o = 0 ∧ stgReg 32 0xFF = r := by simpa [winReg] using h
    exact ⟨rfl, rfl⟩
  | _ => exact placed_of_look h rfl

/-- Registers are naturally aligned. -/
theorem RegSpec.aligned_of_placed {r : RegSpec} {o : Nat} (h : r.placed o = true) : o % (r.width / 8) = 0 := by
  obtain ⟨hw | hw, ho⟩ := RegSpec.placed_iff.mp h
  · rw [hw]; omega
  · rw [hw]; omega

/-- A read of a width that is not the register's returns all ones. -/
theorem State.readCtl_otherWidth {s : State} {off width : Nat} {w : Win} {o : Nat} {r : RegSpec} (ha : winAt off = some (w, o))
    (hr : winReg w o = some r) (hs : s.noSf off = false) (hw : width ≠ r.width) : s.readCtl off width = 2 ^ width - 1 := by
  obtain ⟨-, hb⟩ := winReg_placed hr
  cases hok : accessOk off width <;> simp [State.readCtl, allOnes, hok, hs, ha, hb, hr, Ne.symm hw]

/-- A write of a width that is not the register's is ignored. -/
theorem State.writeCtl_otherWidth {s : State} {off width : Nat} {w : Win} {o : Nat} {r : RegSpec} (p v : Nat)
    (ha : winAt off = some (w, o)) (hr : winReg w o = some r) (hw : width ≠ r.width) : s.writeCtl p off width v = s := by
  obtain ⟨-, hb⟩ := winReg_placed hr
  simp [State.writeCtl, ha, hb, hr, Ne.symm hw]

/-- Settles O59: the tables of registers checked once (`winReg_placed`), then a read and a write that meet a register of another
width. That such a read returns all ones and such a write does nothing is log 20. -/
theorem registersHaveTwoWidths : Obligations.RegistersHaveTwoWidths := by
  refine ⟨fun w o r h => ?_, fun s p off width v w o r ha hr hs hw => ?_⟩
  · obtain ⟨hp, -⟩ := winReg_placed h
    exact ⟨(RegSpec.placed_iff.mp hp).1, RegSpec.aligned_of_placed hp⟩
  · exact ⟨State.readCtl_otherWidth ha hr hs hw, State.writeCtl_otherWidth p v ha hr hw⟩

end Sys2Proof.Machine
end

section
/-! PROOFS. Register access through a port's window and over SMBus (R10, R330, R491, R553, R554), and test access (R16, R504, R555). -/

namespace Sys2Proof.Machine

open Sys2Proof

/-! ### A port's window -/

/-- REGISTER_WRITE at a port that is up is a write through its configuration window. -/
theorem exec_registerWrite_up {s : State} {p : Nat} (hp : p < 4) (hu : (s.port p).up = true) (off w : Nat) (v : W64) :
    exec (.registerWrite p off w v) s = .next (s.writePort p off w (v.toNat % 2 ^ w)) := by
  show execRegisterWrite p off w v s = _
  simp [execRegisterWrite, hp, hu]

theorem State.writePort_denied {s : State} {p off w : Nat} {win : Win} {o : Nat} (v : Nat) (ha : winAt off = some (win, o))
    (hm : s.meets off w = true) (hr : s.mayWrite p win = false) : s.writePort p off w v = s.bump (offBl p 0x78) 1 := by
  simp [State.writePort, ha, hm, hr]

theorem State.writePort_allowed {s : State} {p off : Nat} {win : Win} {o : Nat} (w v : Nat) (ha : winAt off = some (win, o))
    (hr : s.mayWrite p win = true) : s.writePort p off w v = s.writeCtl p off w v := by
  simp [State.writePort, ha, hr]

theorem State.writePort_reserved {off : Nat} (s : State) (p w v : Nat) (ha : winAt off = none) : s.writePort p off w v = s := by
  simp [State.writePort, ha]

/-- A reserved offset reads 0 at an aligned access of 32 or 64 bits, and all ones at any other. -/
theorem State.readCtl_reserved {off : Nat} (s : State) (w : Nat) (ha : winAt off = none) :
    s.readCtl off w = if accessOk off w = true then 0 else 2 ^ w - 1 := by
  cases hok : accessOk off w <;> simp [State.readCtl, allOnes, hok, ha]

/-! ### SMBus -/

/-- A read command while the dusk domain runs: 0 where it meets no power or no right, both noted for STATUS. -/
theorem State.smbRead_dusk {s : State} (hd : s.pins.duskReady = true) (w : Nat) :
    s.smbRead w = s.modSmb fun k =>
      { k with
        readData := BitVec.ofNat 64 (if !(s.hasPower k.offset.toNat) || !(s.smbReads k.offset.toNat) then 0 else s.readCtl k.offset.toNat w),
        refused := !(s.smbReads k.offset.toNat), unpowered := !(s.hasPower k.offset.toNat), offset := k.offset + BitVec.ofNat 32 (w / 8) } := by
  simp [State.smbRead, State.smbNote, State.modSmb, hd]

/-- A write command that SMBus has no right to is noted and changes nothing else. -/
theorem State.smbWrite_refused {s : State} (hd : s.pins.duskReady = true) (hr : s.smbWrites s.smb.offset.toNat = false) (w v : Nat) :
    s.smbWrite w v = s.smbNote true (!(s.hasPower s.smb.offset.toNat)) (w / 8) := by
  simp [State.smbWrite, hd, hr]

/-- A write command with power and rights writes with the rights of the management port. -/
theorem State.smbWrite_allowed {s : State} (hd : s.pins.duskReady = true) (hr : s.smbWrites s.smb.offset.toNat = true)
    (hp : s.hasPower s.smb.offset.toNat = true) (w v : Nat) :
    s.smbWrite w v = (s.writeCtl s.mgmtPort s.smb.offset.toNat w v).smbNote false false (w / 8) := by
  simp [State.smbWrite, hd, hr, hp]

theorem exec_addr (offset : W32) (pecOk : Bool) (s : State) : exec (.addr offset pecOk) s = execAddr offset pecOk s := rfl
theorem exec_rd32 (s : State) : exec .rd32 s = .next (s.smbRead 32) := rfl
theorem exec_rd64 (s : State) : exec .rd64 s = .next (s.smbRead 64) := rfl
theorem exec_wr32_ok (v : W32) (s : State) : exec (.wr32 v true) s = .next (s.smbWrite 32 v.toNat) := rfl
theorem exec_wr64_ok (v : W64) (s : State) : exec (.wr64 v true) s = .next (s.smbWrite 64 v.toNat) := rfl

theorem exec_status_dusk {s : State} (hd : s.pins.duskReady = true) :
    exec .status s = .next (s.modSmb fun k =>
      { k with readData := BitVec.ofNat 64 (b2n k.refused + 2 * b2n k.unpowered), refused := false, unpowered := false }) := by
  show execStatus s = _
  simp [execStatus, hd]

theorem exec_alertResponse_low {s : State} (hd : s.pins.duskReady = true) (ha : s.pins.alertLow = true) :
    exec .alertResponse s = .next ((s.modSmb fun k => { k with readData := BitVec.ofNat 64 (0x48 + s.pins.strapSlot) }).modPins fun p =>
      { p with alertLow := false }) := by
  show execAlertResponse s = _
  simp [execAlertResponse, hd, ha]

/-- Settles O50: the accesses through a port's window, then those over SMBus, each by the lemma for its case. -/
theorem registersAreAccessed : Obligations.RegistersAreAccessed := by
  intro s p w o off win v v32
  refine ⟨fun hp hu ha => ?window, fun hp hu ha => ?reserved, ?badPec, rfl, rfl, fun hd => ⟨?address, ?transfers, ?status, fun hl => ?alert⟩⟩
  case window =>
    rw [exec_registerWrite_up hp hu]
    exact ⟨fun hm hr => by rw [State.writePort_denied _ ha hm hr], fun hr => by rw [State.writePort_allowed _ _ ha hr]⟩
  case reserved =>
    rw [exec_registerWrite_up hp hu, State.writePort_reserved _ _ _ _ ha, State.readCtl_reserved _ _ ha]
    exact ⟨rfl, by split_ifs <;> rfl⟩
  case badPec => simp [exec_addr, execAddr]
  case address => simp [exec_addr, execAddr, hd]
  case transfers =>
    refine ⟨fun hp hr => ⟨?_, ?_⟩, fun hp hr => ?_, fun hp hr => ?_, fun hw hp => ⟨?_, ?_⟩, fun hw hp => ⟨?_, ?_⟩⟩
    · simp [exec_rd32, State.smbRead_dusk hd, State.modSmb, hp, hr]
    · simp [exec_rd64, State.smbRead_dusk hd, State.modSmb, hp, hr]
    · simp [exec_rd32, State.smbRead_dusk hd, State.modSmb, hp, hr]
    · simp [exec_rd64, State.smbRead_dusk hd, State.modSmb, hp, hr]
    · simp [exec_wr32_ok, State.smbWrite_refused hd hw, State.smbNote, hp]
    · simp [exec_wr64_ok, State.smbWrite_refused hd hw, State.smbNote, hp]
    · rw [exec_wr32_ok, State.smbWrite_allowed hd hw hp]
    · rw [exec_wr64_ok, State.smbWrite_allowed hd hw hp]
  case status => exact exec_status_dusk hd
  case alert => exact ⟨_, exec_alertResponse_low hd hl, rfl, rfl, rfl, rfl⟩

/-! ### Test access -/

theorem exec_tapInstruction (op : TapOp) (s : State) : exec (.tapInstruction op) s = execTapInstruction op s := rfl

theorem State.tapOpen_iff (s : State) : s.tapOpen = true ↔ s.sec.lc = .blank ∨ s.sec.lc = .service := by
  simp [State.tapOpen]

/-- Settles O51: IDCODE, BYPASS and SAMPLE in every state; EXTEST and the rest by whether the life cycle opens test access (log 9). -/
theorem tapAnswers : Obligations.TapAnswers := by
  refine fun s n => ⟨rfl, rfl, ⟨_, rfl⟩, fun hlc => ?_, fun hb hs => ?_⟩
  · have ho : s.tapOpen = true := s.tapOpen_iff.mpr hlc
    exact ⟨⟨s.draw.1.setWidth 32, by simp [exec_tapInstruction, execTapInstruction, ho, State.capturePins]⟩,
      by simp [exec_tapInstruction, execTapInstruction, ho]⟩
  · have ho : ¬ s.tapOpen = true := by simp [s.tapOpen_iff, hb, hs]
    simp [exec_tapInstruction, execTapInstruction, ho]

end Sys2Proof.Machine
end

section
/-! PROOFS. The state that reset leaves (R13, R311, R352, R420, R497, R513). -/

namespace Sys2Proof.Machine

open Sys2Proof

/-- A cache without a line agrees with any canonical memory. -/
theorem CacheSound.of_no_lines {s : State} (hm : MemCanonical s) (hl : s.cache.lines = []) : CacheSound s where
  canonical := hm
  rising := by simp [hl]
  whole := by simp [hl]
  dirtyValid := by simp [hl]
  clean := by simp [hl]

/-- Settles O53: reset lists no register, core, unit or port, so each reads as its default; the rest is read off `State.reset` (log 3
for the active hub die and the SMBus offset). -/
theorem resetLeaves : Obligations.ResetLeaves := by
  have hs : CacheSound State.reset := CacheSound.of_no_lines rfl rfl
  exact ⟨rfl, rfl, hs, by decide, fun _ => rfl, rfl, rfl, rfl, rfl, rfl, rfl, fun _ _ => ⟨rfl, rfl, rfl⟩, fun _ => ⟨rfl, rfl, rfl⟩,
    fun _ => rfl, rfl, rfl, rfl, rfl, rfl, rfl⟩

end Sys2Proof.Machine
end

section
/-! PROOFS. Passes: the open, the settle and its verdict, and END (R55, R56, R58 to R66, R182, R190). -/

namespace Sys2Proof.Machine

open Sys2Proof

theorem exec_passOpen (sq : Nat) (s : State) : exec (.passOpen sq) s = execPassOpen sq s := rfl
theorem exec_passSettle (c : Nat) (e : Engine) (s : State) : exec (.passSettle c e) s = execPassSettle c e s := rfl
theorem exec_passEndCredit (c : Nat) (s : State) : exec (.passEndCredit c) s = execPassEndCredit c s := rfl
theorem exec_settleToken (sq : Nat) (s : State) : exec (.settleToken sq) s = execSettleToken sq s := rfl
theorem exec_settleDoneToken (sq : Nat) (s : State) : exec (.settleDoneToken sq) s = execSettleDoneToken sq s := rfl
theorem exec_endStream (c : Nat) (e : Engine) (s : State) : exec (.endStream c e) s = execEndStream c e s := rfl

/-! ### The settle -/

/-- With every member's credit the cores settle each listed tensor in turn (R56 steps 2 to 4). -/
theorem exec_settleToken_credited {s : State} {sq : Nat} {q : Seq} {p : PassInst} {ent : PassEnt} (hq : look s.seqs sq = some q)
    (hp : q.pass = some p) (he : q.kernel.passOf p.id = some ent) (hl : s.live q.ctx = true) (hg : p.stage = .opened)
    (hc : (q.members.all fun c => p.credits.contains c) = true) :
    exec (.settleToken sq) s = .next (s.guarded ((ent.tensors.foldl (fun t h => t.settleTensor q p h) s).setSeq sq
      { q with pass := some { p with stage := .settled, settleCredits := q.members } })) := by
  have hgo : (s.live q.ctx && p.stage == .opened && q.members.all fun c => p.credits.contains c) = true := by rw [hl, hg, hc]; rfl
  simp only [exec_settleToken, execSettleToken, hq, hp, he, if_pos hgo]

/-- What the leader's verdict leaves of the instance (R66): closed where no tensor calls for a re-run, back at its PASS_OPEN where one
does below the limit, and closed with the event CALIB_RERUN_LIMIT at it. -/
def State.verdict (s : State) (sq : Nat) (q : Seq) (p : PassInst) (ent : PassEnt) : State :=
  let led := s.leadPass q ent
  if led.2 = false then led.1.setSeq sq { q with pass := none }
  else if p.reruns < fld (s.scaleCtl q) 6 2 then led.1.setSeq sq (q.restart p)
  else (led.1.raise 0x1806 (leBytes 2 q.ctx ++ leBytes 2 p.id)).setSeq sq { q with pass := none }

/-- Once every core has settled, the leader's verdict is given and every core passes the boundary of TE_SCALE_CTL. -/
theorem exec_settleDoneToken_settled {s : State} {sq : Nat} {q : Seq} {p : PassInst} {ent : PassEnt} (hq : look s.seqs sq = some q)
    (hp : q.pass = some p) (he : q.kernel.passOf p.id = some ent) (hl : s.live q.ctx = true) (hg : p.stage = .settled)
    (hc : (q.members.all fun c => p.settleCredits.contains c) = true) :
    exec (.settleDoneToken sq) s = .next (s.guarded (q.members.foldl (fun t c => t.settledCore c) (s.verdict sq q p ent))) := by
  have hgo : (s.live q.ctx && p.stage == .settled && q.members.all fun c => p.settleCredits.contains c) = true := by
    rw [hl, hg, hc]; rfl
  simp only [exec_settleDoneToken, execSettleDoneToken, hq, hp, he, if_pos hgo, State.verdict]
  cases hr : (s.leadPass q ent).2 with
  | false => simp
  | true => by_cases hn : p.reruns < fld (s.scaleCtl q) 6 2 <;> simp [hn]

/-! ### END -/

/-- An END that meets no MX in the tensor engine's port is taken, and ends the kernel where it is the last. -/
theorem exec_endStream_portEmpty {s : State} {c k : Nat} {e : Engine} (h : s.headOf c e = some (.body .fin k))
    (hp : e = .te → ∀ g, look s.ge c = some g → g.port = []) :
    exec (.endStream c e) s = .next (((s.take c e).modCore c fun k => { k with ended := addNew k.ended e }).endKernelOf c) := by
  cases hg : look s.ge c with
  | none => simp [exec_endStream, execEndStream, h, hg]
  | some g =>
    have hport : e = .te → g.port = [] := fun he => hp he g hg
    simpa [exec_endStream, execEndStream, h, hg] using fun he hne => absurd (hport he) hne

/-- The tensor stream's END with an MX in the port faults the context with MX_UNACCEPTED (R190). -/
theorem exec_endStream_mxInPort {s : State} {c k : Nat} {g : Ge} (h : s.headOf c .te = some (.body .fin k))
    (hg : look s.ge c = some g) (hp : g.port ≠ []) :
    exec (.endStream c .te) s =
      .next (((s.take c .te).modCore c fun k => { k with ended := addNew k.ended .te }).faultCore c 0x9040 0) := by
  simp [exec_endStream, execEndStream, h, hg, hp]

/-- Settles O4: each command's guard is met, by the lemma for its case; the three ends of the settle are the branches of
`State.verdict`. -/
theorem passesOpenSettleAndEnd : Obligations.PassesOpenSettleAndEnd := by
  intro s sq c e q p ent
  refine ⟨fun reruns hq hl hpre ho => ?opens, fun i k h => ?marks, fun hs hp hl hg hn hw => ?credits,
    fun hq hp he hl => ⟨fun hg hc => exec_settleToken_credited hq hp he hl hg hc, fun hg hc => ?verdicts⟩,
    fun k h => ⟨fun hport => exec_endStream_portEmpty h hport, fun g he hg hport => ?unaccepted⟩⟩
  case opens => simp [exec_passOpen, execPassOpen, hq, ho, hl, hpre]
  case marks => simp [exec_passSettle, execPassSettle, h]
  case credits => simp [exec_passEndCredit, execPassEndCredit, hs, hp, hl, hg, hn, hw]
  case verdicts =>
    rw [exec_settleDoneToken_settled hq hp he hl hg hc, State.verdict]
    refine ⟨fun hr => ?_, fun hr hlim => ?_, fun hr hlim => ?_⟩
    · rw [if_pos hr]
    · rw [if_neg (by simp [hr]), if_pos hlim]
    · rw [if_neg (by simp [hr]), if_neg (Nat.not_lt.mpr hlim)]
  case unaccepted =>
    subst he
    exact exec_endStream_mxInPort h hg hport

end Sys2Proof.Machine
end

section
/-! PROOFS. The tensor engine's entries: MATMUL, DRAIN and TX_ACCEPT (R80, R88, R89, R103, R106, R120, R131, R177, R189, R563). -/

namespace Sys2Proof.Machine

open Sys2Proof

theorem exec_matmul (c : Nat) (err : CoreErr) (s : State) : exec (.matmul c err) s = execMatmul c err s := rfl
theorem exec_drain (c : Nat) (s : State) : exec (.drain c) s = execDrain c s := rfl
theorem exec_txAccept (c : Nat) (err : CoreErr) (s : State) : exec (.txAccept c err) s = execTxAccept c err s := rfl

section
variable {s : State} {c sq : Nat} {q : Seq} {f : MatF} {k : Nat} {err : CoreErr}

/-! ### MATMUL -/

/-- The guard of MATMUL: free places on arrays in the instruction's mode, and no tile started on a core that is to start none. -/
def State.takesTile (s : State) (c : Nat) (f : MatF) : Bool := s.mayIssue c f && !((s.core c).noNewTile && s.startsTile c f)

theorem State.takesTile_iff :
    s.takesTile c f = true ↔ s.mayIssue c f = true ∧ ((s.core c).noNewTile = true → s.startsTile c f = false) := by
  by_cases hn : (s.core c).noNewTile = true <;> simp [State.takesTile, hn]

theorem State.takesTile_eq_false_iff :
    s.takesTile c f = false ↔ s.mayIssue c f = false ∨ (s.core c).noNewTile = true ∧ s.startsTile c f = true := by
  rw [State.takesTile]
  cases s.mayIssue c f <;> simp

/-- An instruction that its units cannot take stays at the head (R106, R120). -/
theorem exec_matmul_held (hs : s.coreSeq c = some (sq, q)) (h : s.headOf c .te = some (.body (.matmul f) k))
    (ht : s.takesTile c f = false) : exec (.matmul c err) s = .next s := by
  rw [State.takesTile] at ht
  simp only [exec_matmul, execMatmul, h, hs, ht, Bool.false_eq_true, if_false]

/-- A tile that fails a check is taken and stops with its code (R80, R103). -/
theorem exec_matmul_failed {e : MatStop} (hs : s.coreSeq c = some (sq, q)) (h : s.headOf c .te = some (.body (.matmul f) k))
    (ht : s.takesTile c f = true) (he : s.checkMat c q.ctx f (f.box k) = .error e) :
    exec (.matmul c err) s = .next ((s.take c .te).matStop c e) := by
  rw [State.takesTile] at ht
  simp only [exec_matmul, execMatmul, h, hs, if_pos ht, he]

/-- A tile whose operands pass is issued, or takes its place behind a stalled swap, unless the engine's own checks stop it (R120, R131). -/
theorem exec_matmul_checked {o : MatOps} (hs : s.coreSeq c = some (sq, q)) (h : s.headOf c .te = some (.body (.matmul f) k))
    (ht : s.takesTile c f = true) (ho : s.checkMat c q.ctx f (f.box k) = .ok o) :
    exec (.matmul c err) s =
      let r := (s.take c .te).teErr c err
      .next (if r.2 then r.1
        else if r.1.stalledOn c f then r.1.placeTile c f k o ((s.core c).headPos .te)
        else r.1.issueTile c q.ctx q f o (f.box k) ((s.core c).headPos .te) 0) := by
  rw [State.takesTile] at ht
  simp only [exec_matmul, execMatmul, h, hs, if_pos ht, ho]

/-! ### DRAIN -/

/-- The units that the drain entry of a MATMUL ends the tile of: those where it still waits behind a stalled swap, else those its own
body issued to (R120, R563). -/
def State.ownDrains (s : State) (c : Nat) (f : MatF) (pos : Nat) : List (Nat × Nat) :=
  let waits := s.waitsOf c f pos
  if waits.isEmpty then s.drainsOf c f (some pos) else waits

/-- The position of the body that the drain entry at the head follows. -/
def State.drainedPos (s : State) (c : Nat) : Nat := ((s.core c).headPos .te + (2 ^ 64 - 1)) % 2 ^ 64

/-- The guard of a drain entry, as `execDrain` decides it. -/
theorem drainGuard_iff {ws : List (Nat × Nat)} {p : Bool} : (!ws.isEmpty || p) = true ↔ ws ≠ [] ∨ p = true := by simp

/-- A drain entry stays at the head while a unit has no free place and no tile of its body waits. -/
theorem exec_tileDrain_held (hs : s.coreSeq c = some (sq, q)) (h : s.headOf c .te = some (.tileDrain f k))
    (hw : s.waitsOf c f (s.drainedPos c) = []) (hp : s.placeFree c f = false) : exec (.drain c) s = .next s := by
  have hgo : ¬(s.waitsOf c f (s.drainedPos c) ≠ [] ∨ s.placeFree c f = true) := by simp [hw, hp]
  simp only [exec_drain, execDrain, h, hs]
  exact congrArg _ (if_neg (mt drainGuard_iff.mp hgo))

/-- A drain entry that no unit holds a tile for is taken all the same (R563). -/
theorem exec_tileDrain_none (hs : s.coreSeq c = some (sq, q)) (h : s.headOf c .te = some (.tileDrain f k))
    (hg : s.waitsOf c f (s.drainedPos c) ≠ [] ∨ s.placeFree c f = true) (hn : s.ownDrains c f (s.drainedPos c) = []) :
    exec (.drain c) s = .next ((s.take c .te).endKernelOf c) := by
  replace hn := List.isEmpty_iff.mpr hn
  rw [State.ownDrains] at hn
  simp only [exec_drain, execDrain, h, hs]
  exact congrArg _ ((if_pos (drainGuard_iff.mpr hg)).trans (if_pos hn))

/-- A drain entry whose output passes its checks starts its drain on its units. -/
theorem exec_tileDrain_started {d : Desc} (hs : s.coreSeq c = some (sq, q)) (h : s.headOf c .te = some (.tileDrain f k))
    (hg : s.waitsOf c f (s.drainedPos c) ≠ [] ∨ s.placeFree c f = true) (hn : s.ownDrains c f (s.drainedPos c) ≠ [])
    (hd : s.checkOut c q.ctx f f.span (f.box k) = .ok d) :
    exec (.drain c) s = .next ((s.take c .te).startDrain c q f (f.box k) d (s.ownDrains c f (s.drainedPos c))) := by
  replace hn := mt List.isEmpty_iff.mp hn
  rw [State.ownDrains] at hn
  simp only [exec_drain, execDrain, h, hs, hd]
  exact congrArg _ ((if_pos (drainGuard_iff.mpr hg)).trans (if_neg hn))

/-- A drain entry that fails a check drops its tiles and stops with its code (R103, R132). -/
theorem exec_tileDrain_failed {e : MatStop} (hs : s.coreSeq c = some (sq, q)) (h : s.headOf c .te = some (.tileDrain f k))
    (hg : s.waitsOf c f (s.drainedPos c) ≠ [] ∨ s.placeFree c f = true) (hn : s.ownDrains c f (s.drainedPos c) ≠ [])
    (he : s.checkOut c q.ctx f f.span (f.box k) = .error e) :
    exec (.drain c) s = .next (((s.take c .te).dropTiles c e (s.ownDrains c f (s.drainedPos c))).matStop c e) := by
  replace hn := mt List.isEmpty_iff.mp hn
  rw [State.ownDrains] at hn
  simp only [exec_drain, execDrain, h, hs, he]
  exact congrArg _ ((if_pos (drainGuard_iff.mpr hg)).trans (if_neg hn))

/-- A DRAIN stays at the head while a unit has no free place or an array holds a tile of another mode (R106, R120). -/
theorem exec_drain_held (hs : s.coreSeq c = some (sq, q)) (h : s.headOf c .te = some (.body (.drain f) k))
    (hg : s.placeFree c f = false ∨ s.modeReady c f = false) : exec (.drain c) s = .next s := by
  have hgo : (s.placeFree c f && s.modeReady c f) = false := by rcases hg with hg | hg <;> simp [hg]
  simp [exec_drain, execDrain, h, hs, hgo]

/-- A DRAIN on units that hold no tile is taken all the same (R563). -/
theorem exec_drain_none (hs : s.coreSeq c = some (sq, q)) (h : s.headOf c .te = some (.body (.drain f) k))
    (hp : s.placeFree c f = true) (hm : s.modeReady c f = true) (hn : s.drainsOf c f none = []) :
    exec (.drain c) s = .next ((s.take c .te).endKernelOf c) := by
  simp [exec_drain, execDrain, h, hs, hp, hm, hn]

/-- A DRAIN whose output passes its checks starts on the units that hold a tile. -/
theorem exec_drain_started {d : Desc} (hs : s.coreSeq c = some (sq, q)) (h : s.headOf c .te = some (.body (.drain f) k))
    (hp : s.placeFree c f = true) (hm : s.modeReady c f = true) (hn : s.drainsOf c f none ≠ [])
    (hd : s.checkOut c q.ctx f (f.spanOf (s.openBox c f (s.drainsOf c f none)).cols) (s.openBox c f (s.drainsOf c f none)) = .ok d) :
    exec (.drain c) s =
      .next ((s.take c .te).startDrain c q f (s.openBox c f (s.drainsOf c f none)) d (s.drainsOf c f none)) := by
  simp [exec_drain, execDrain, h, hs, hp, hm, hn, hd]

/-- A DRAIN that fails a check stops with its code (R103, R132). -/
theorem exec_drain_failed {e : MatStop} (hs : s.coreSeq c = some (sq, q)) (h : s.headOf c .te = some (.body (.drain f) k))
    (hp : s.placeFree c f = true) (hm : s.modeReady c f = true) (hn : s.drainsOf c f none ≠ [])
    (he : s.checkOut c q.ctx f (f.spanOf (s.openBox c f (s.drainsOf c f none)).cols) (s.openBox c f (s.drainsOf c f none)) =
      .error e) : exec (.drain c) s = .next ((s.take c .te).matStop c e) := by
  simp [exec_drain, execDrain, h, hs, hp, hm, hn, he]

/-! ### TX_ACCEPT -/

variable {n : Nat} {g : Ge}

/-- A TX_ACCEPT stays at the head while the port holds too few MX, or the core is to start no new tile. -/
theorem exec_txAccept_held (hs : s.coreSeq c = some (sq, q)) (h : s.headOf c .te = some (.body (.txAccept n) k))
    (hg : look s.ge c = some g) (hw : g.port.length < n ∨ (s.core c).noNewTile = true) : exec (.txAccept c err) s = .next s := by
  have hgo : (decide (n ≤ g.port.length) && !(s.core c).noNewTile) = false := by
    rcases hw with hw | hw
    · simp [Nat.not_le.mpr hw]
    · simp [hw]
  simp only [exec_txAccept, execTxAccept, h, hs, hg, hgo, Bool.false_eq_true, if_false, State.guarded_self]

/-- The state with a TX_ACCEPT taken and its MX out of the port. -/
def State.takeMx (s : State) (c n : Nat) (g : Ge) : State :=
  { s.take c .te with ge := put s.ge c { g with port := g.port.drop n } }

/-- The tiles of the MX taken, in order, from a state in which nothing stops the engine; none where one of them has to wait. -/
def State.acceptMx (s : State) (c : Nat) (q : Seq) (ms : List MatF) (pos : Nat) : Option State :=
  (acceptTiles ms).foldl (fun (u : Option State) e => u.bind fun v => v.acceptTile c q e.1 pos e.2)
    (some (ms.foldl (fun (u : State) f => u.readMx q.ctx f) s))

/-- A TX_ACCEPT with its MX in the port takes them and issues their tiles, unless the engine's own checks stop it (R131, R189). -/
theorem exec_txAccept_taken (hs : s.coreSeq c = some (sq, q)) (h : s.headOf c .te = some (.body (.txAccept n) k))
    (hg : look s.ge c = some g) (hn : n ≤ g.port.length) (hw : (s.core c).noNewTile = false) :
    exec (.txAccept c err) s =
      let r := (s.takeMx c n g).teErr c err
      .next (s.guarded (if r.2 then r.1 else (r.1.acceptMx c q (g.port.take n) ((s.core c).headPos .te)).getD s)) := by
  have hgo : (decide (n ≤ g.port.length) && !(s.core c).noNewTile) = true := by simp [hn, hw]
  simp only [exec_txAccept, execTxAccept, h, hs, hg, if_pos hgo]
  rfl

end

/-- Settles O5: each entry at the head under its guard (`State.takesTile` for a MATMUL, the places of a drain's units, the MX in the
port), by the lemma for its case. -/
theorem matrixEntriesIssue : Obligations.MatrixEntriesIssue := by
  intro s c sq q f k err hs
  refine ⟨fun h => ⟨fun hm hn => ?matmul, fun hw => exec_matmul_held hs h (State.takesTile_eq_false_iff.mpr hw)⟩,
    fun h => ⟨fun hg => ?tileDrain, fun hw hp => exec_tileDrain_held hs h hw hp⟩,
    fun h => ⟨fun hp hm => ?drain, fun hw => exec_drain_held hs h hw⟩,
    fun n g h hg => ⟨fun hn hw => ?txAccept, fun hw => exec_txAccept_held hs h hg hw⟩⟩
  case matmul =>
    have ht := State.takesTile_iff.mpr ⟨hm, hn⟩
    refine ⟨fun o ho => ⟨fun hr => ?_, fun hr => ?_⟩, fun e he => exec_matmul_failed hs h ht he⟩
    · simp [exec_matmul_checked hs h ht ho, hr]
    · simp [exec_matmul_checked hs h ht ho, hr]
  case tileDrain =>
    exact ⟨fun hn => exec_tileDrain_none hs h hg hn, fun d hn hd => exec_tileDrain_started hs h hg hn hd,
      fun e hn he => exec_tileDrain_failed hs h hg hn he⟩
  case drain =>
    exact ⟨fun hn => exec_drain_none hs h hp hm hn, fun d hn hd => exec_drain_started hs h hp hm hn hd,
      fun e hn he => exec_drain_failed hs h hp hm hn he⟩
  case txAccept =>
    have htaken := exec_txAccept_taken (err := err) hs h hg hn hw
    refine ⟨fun hr => ?_, fun hr => ?_⟩
    · exact htaken.trans (congrArg (fun t => Host.Outcome.next (s.guarded t)) (if_pos hr))
    · exact htaken.trans (congrArg (fun t => Host.Outcome.next (s.guarded t)) (if_neg (Bool.eq_false_iff.mp hr)))

end Sys2Proof.Machine
end

section
/-! PROOFS. Swaps of a unit's sets, the commit of a drain, and the issue rate (R88, R90, R118, R120 to R124, R126). -/

namespace Sys2Proof.Machine

open Sys2Proof

theorem exec_tileSwap (c : Nat) (un : TeUnit) (s : State) : exec (.tileSwap c un) s = execTileSwap c un s := rfl
theorem exec_tileDrainCommit (c : Nat) (un : TeUnit) (s : State) :
    exec (.tileDrainCommit c un) s = execTileDrainCommit c un s := rfl
theorem exec_issueRamp (c : Nat) (un : TeUnit) (ready : Bool) (s : State) :
    exec (.issueRamp c un ready) s = execIssueRamp c un ready s := rfl

/-! ### A unit read after one was set -/

@[simp] theorem State.unit_setUnit_self (s : State) (c u : Nat) (k : TeUnitSt) : (s.setUnit c u k).unit c u = k := by
  simp [State.unit, State.setUnit]

/-- Setting a unit leaves every other unit of every core as it is: a core has fewer than 128. -/
theorem State.unit_setUnit_ne (s : State) {c u c' u' : Nat} (k : TeUnitSt) (hu : u < 128) (hu' : u' < 128) (h : (c', u') ≠ (c, u)) :
    (s.setUnit c u k).unit c' u' = s.unit c' u' := by
  refine lookD_put_ne _ _ _ fun hk => h ?_
  obtain ⟨rfl, rfl⟩ : c' = c ∧ u' = u := by omega
  rfl

/-! ### Swaps -/

/-- The swap of a unit whose active tile has its drain waiting (R88). -/
theorem TeUnitSt.swap_of_drain {k : TeUnitSt} {t : Tile} {j : DrainJob} (ha : k.active = some t) (hj : k.pendingDrain = some j) :
    k.swap = { k with shadow := some (t, j), active := k.next, pendingDrain := k.nextDrain, next := none, nextDrain := none,
                      stalled := false } := by
  simp [TeUnitSt.swap, ha, hj]

/-- A swap changes nothing of what waits behind it. -/
@[simp] theorem TeUnitSt.swap_waiting (k : TeUnitSt) : k.swap.waiting = k.waiting := by
  unfold TeUnitSt.swap
  split <;> rfl

/-- Where nothing waits behind a stalled swap, nothing is released. -/
theorem State.releaseTile_of_none {s : State} {c u : Nat} (h : (s.unit c u).waiting = none) : s.releaseTile c u = s := by
  simp [State.releaseTile, h]

/-- The swap of a unit that no tile waits behind changes that unit alone. -/
theorem State.swapUnit_of_none {s : State} {c u : Nat} (h : (s.unit c u).waiting = none) :
    s.swapUnit c u = s.setUnit c u (s.unit c u).swap :=
  State.releaseTile_of_none (by simp [h])

section
variable {s : State} {c : Nat} {un : TeUnit} {t : Tile} {j : DrainJob}

/-- With no drain waiting, or while the engine does not run, nothing swaps. -/
theorem exec_tileSwap_idle (h : (s.unit c (unitCode un)).pendingDrain = none ∨ s.teRuns c = false) :
    exec (.tileSwap c un) s = .next s := by
  rw [exec_tileSwap, execTileSwap]
  rcases h with h | h <;> simp [h]

/-- A drain that waits swaps the sets once the shadow set is free (R88). -/
theorem exec_tileSwap_free (hr : s.teRuns c = true) (hj : (s.unit c (unitCode un)).pendingDrain = some j)
    (hf : s.swapFree c (unitCode un) = true) : exec (.tileSwap c un) s = .next (s.swapUnit c (unitCode un)) := by
  simp [exec_tileSwap, execTileSwap, hr, hj, hf]

/-- While the shadow set is not free the unit waits, and its stall is counted at the first attempt (R90). -/
theorem exec_tileSwap_waits (hr : s.teRuns c = true) (hj : (s.unit c (unitCode un)).pendingDrain = some j)
    (hf : s.swapFree c (unitCode un) = false) :
    exec (.tileSwap c un) s = .next (if (s.unit c (unitCode un)).stalled then s
      else (s.setUnit c (unitCode un) { s.unit c (unitCode un) with stalled := true }).bump (offTe c 0x538) 1) := by
  simp [exec_tileSwap, execTileSwap, hr, hj, hf]

/-! ### Commits -/

/-- With nothing in the shadow set, or while the engine does not run, nothing commits. -/
theorem exec_tileDrainCommit_idle (h : (s.unit c (unitCode un)).shadow = none ∨ s.teRuns c = false) :
    exec (.tileDrainCommit c un) s = .next s := by
  rw [exec_tileDrainCommit, execTileDrainCommit]
  rcases h with h | h
  · simp [h]
  · cases hs : (s.unit c (unitCode un)).shadow <;> simp [h]

/-- A drain commits once every unit of its set has swapped, and waits until then (R118, R121). -/
theorem exec_tileDrainCommit_shadow (hr : s.teRuns c = true) (hs : (s.unit c (unitCode un)).shadow = some (t, j)) :
    exec (.tileDrainCommit c un) s = .next (s.guarded (if s.swapsLeft c j.work then s else s.commitDrain c j.work)) := by
  simp [exec_tileDrainCommit, execTileDrainCommit, hr, hs]

end

/-! ### A counter raised where a condition holds -/

/-- A counter raised by 1 where a condition holds. -/
def State.tally (s : State) (off : Nat) (b : Bool) : State := if b then s.bump off 1 else s

section
variable (s : State) (off : Nat) (b : Bool)

/-- A tally changes the registers alone. -/
theorem State.tally_eq : s.tally off b = { s with regs := (s.tally off b).regs } := by cases b <;> rfl

@[simp] theorem State.tally_te : (s.tally off b).te = s.te := by rw [State.tally_eq]
@[simp] theorem State.tally_cores : (s.tally off b).cores = s.cores := by rw [State.tally_eq]
@[simp] theorem State.tally_mem : (s.tally off b).mem = s.mem := by rw [State.tally_eq]
@[simp] theorem State.tally_objs : (s.tally off b).objs = s.objs := by rw [State.tally_eq]
@[simp] theorem State.tally_recd : (s.tally off b).recd = s.recd := by rw [State.tally_eq]
@[simp] theorem State.unit_tally (c u : Nat) : (s.tally off b).unit c u = s.unit c u := by simp [State.unit]

theorem State.reg_tally_ne {o : Nat} (h : o ≠ off) : (s.tally off b).reg o = s.reg o := by
  cases b
  · rfl
  · exact s.reg_bump_ne 1 h

/-- A tally as the counter of 64 bits that the register is. -/
theorem State.ofNat_reg_tally_self :
    BitVec.ofNat 64 ((s.tally off b).reg off) = BitVec.ofNat 64 (s.reg off) + (if b then 1 else 0) := by
  cases b
  · simp [State.tally]
  · rw [State.tally, if_pos rfl, if_pos rfl, State.reg_bump_self]
    exact BitVec.eq_of_toNat_eq (by simp)

end

@[simp] theorem State.reg_setUnit (s : State) (c u o : Nat) (k : TeUnitSt) : (s.setUnit c u k).reg o = s.reg o := rfl

@[simp] theorem offTe_inj {c r r' : Nat} : offTe c r = offTe c r' ↔ r = r' := by simp [offTe]

/-! ### The issue rate -/

/-- The rate after a cycle: by 1 towards the cap with work ready, towards 0 without (R122). -/
def rampRate (cap rate : Nat) (ready : Bool) : Nat :=
  if ready then (if rate < cap then rate + 1 else if cap < rate then rate - 1 else rate) else rate - 1

/-- What a cycle brings the credit to, before a slot is taken from it. -/
def rampCredit (cap rate credit : Nat) (ready : Bool) : Nat := min (credit + rampRate cap rate ready) 127

/-- A cycle of the ramp: the new rate, the credit less 64 where a slot is issued, and whether one is. -/
theorem rampStep_eq (cap rate credit : Nat) (ready : Bool) :
    rampStep cap rate credit ready =
      (rampRate cap rate ready,
        if 64 ≤ rampCredit cap rate credit ready then rampCredit cap rate credit ready - 64 else rampCredit cap rate credit ready,
        decide (64 ≤ rampCredit cap rate credit ready)) := by
  have hrate : (if rate < (if ready then cap else 0) then rate + 1 else if (if ready then cap else 0) < rate then rate - 1 else rate) =
      rampRate cap rate ready := by
    cases ready
    · simp only [rampRate, Bool.false_eq_true, if_false, Nat.not_lt_zero]
      split <;> omega
    · rfl
  have hcredit : min (credit + rampRate cap rate ready) 127 = rampCredit cap rate credit ready := rfl
  simp only [rampStep, hrate, hcredit]
  split <;> simp [*]

section
variable {s : State} {c : Nat} {un : TeUnit} {ready : Bool}

/-- A quadrant has no rate of its own. -/
theorem exec_issueRamp_quad (s : State) (c a q : Nat) (ready : Bool) : exec (.issueRamp c (.quad a q) ready) s = .next s := rfl

/-- A core whose clock does not run has no cycle. -/
theorem exec_issueRamp_stopped (h : (s.core c).clk ≠ .running) : exec (.issueRamp c un ready) s = .next s := by
  cases un with
  | quad a q => rfl
  | array a => simp [exec_issueRamp, execIssueRamp, h]
  | path => simp [exec_issueRamp, execIssueRamp, h]

/-- The state after an arithmetic cycle of a unit: its rate and credit, and the three counters of R122 to R124 in the order slot
without work, cycle without a slot, cycle throttled. -/
def State.ramped (s : State) (c u : Nat) (ready : Bool) : State :=
  let k := s.unit c u
  let cap := (s.core c).cap
  let r := rampRate cap k.rate ready
  let cr := rampCredit cap k.rate k.credit ready
  (((s.setUnit c u { k with rate := r, credit := if 64 ≤ cr then cr - 64 else cr, ready := ready }).tally (offTe c 0x120)
    (decide (64 ≤ cr) && !ready)).tally (offTe c 0x118) (ready && decide (cr < 64) && decide (r < cap))).tally (offTe c 0x128)
      (ready && decide (cap ≤ r) && decide (r < 64))

/-- An array or the path of a running core ramps. -/
theorem exec_issueRamp_running (h : (s.core c).clk = .running) (hq : ∀ a q, un ≠ .quad a q) :
    exec (.issueRamp c un ready) s = .next (s.ramped c (unitCode un) ready) := by
  cases un with
  | quad a q => exact absurd rfl (hq a q)
  | array a => simp only [exec_issueRamp, execIssueRamp, if_pos h, rampStep_eq, ← decide_not, Nat.not_le]; rfl
  | path => simp only [exec_issueRamp, execIssueRamp, if_pos h, rampStep_eq, ← decide_not, Nat.not_le]; rfl

end

/-- Settles O6: the swap and the commit by the lemma for each case of their guards, and the ramp by `State.ramped`, whose counters
stand at three places of the core's window. -/
theorem tilesSwapAndRatesRamp : Obligations.TilesSwapAndRatesRamp := by
  refine ⟨fun s c un hu => ⟨exec_tileSwap_idle, fun t j hr ha hj =>
      ⟨exec_tileSwap_free hr hj, fun hf hw => ?swapped, fun hf hst => ?waits, fun hf hst => ?stalls⟩,
      exec_tileDrainCommit_idle, fun t j hr hs => ⟨fun hl => ?commits, fun hl => ?uncommitted⟩⟩,
    fun s c un ready hu => ⟨fun a q hq => hq ▸ exec_issueRamp_quad s c a q ready, exec_issueRamp_stopped, fun h hq => ?ramps⟩⟩
  case swapped =>
    refine ⟨_, exec_tileSwap_free hr hj hf, ?_⟩
    rw [State.swapUnit_of_none hw, TeUnitSt.swap_of_drain ha hj]
    exact ⟨State.unit_setUnit_self .., fun c' u' hne hu' => State.unit_setUnit_ne s _ hu hu' hne, rfl, rfl, rfl, rfl, rfl, rfl⟩
  case waits => rw [exec_tileSwap_waits hr hj hf, if_pos hst]
  case stalls => rw [exec_tileSwap_waits hr hj hf, if_neg (by simp [hst])]
  case commits => rw [exec_tileDrainCommit_shadow hr hs, if_neg (by simp [hl])]
  case uncommitted => rw [exec_tileDrainCommit_shadow hr hs, if_pos hl, State.guarded_self]
  case ramps =>
    refine ⟨_, exec_issueRamp_running h hq, by simp [State.ramped, rampRate, rampCredit], fun c' u' hne hu' => ?others,
      ?idleSlots, ?missedSlots, ?throttled, fun o h118 h120 h128 => ?registers, ?cores, ?mem, ?objs, ?recd⟩
    case others => simp [State.ramped, State.unit_setUnit_ne s _ hu hu' hne]
    case idleSlots =>
      rw [State.ramped, State.reg_tally_ne _ _ _ (by simp), State.reg_tally_ne _ _ _ (by simp), State.ofNat_reg_tally_self, Bool.and_comm]
      rfl
    case missedSlots =>
      rw [State.ramped, State.reg_tally_ne _ _ _ (by simp), State.ofNat_reg_tally_self, State.reg_tally_ne _ _ _ (by simp)]
      rfl
    case throttled =>
      rw [State.ramped, State.ofNat_reg_tally_self, State.reg_tally_ne _ _ _ (by simp), State.reg_tally_ne _ _ _ (by simp)]
      rfl
    case registers =>
      rw [State.ramped, State.reg_tally_ne _ _ _ h128, State.reg_tally_ne _ _ _ h118, State.reg_tally_ne _ _ _ h120, State.reg_setUnit]
    all_goals simp [State.ramped]

end Sys2Proof.Machine
end

section
/-! PROOFS. A packet put through the checks of R564, and memory read after a wipe (R311). -/

namespace Sys2Proof.Machine

open Sys2Proof

section
variable {s t : State} {port q op : Nat} {k : SubQueue} {p : Packet} {cmd : SubQueue → Packet → Nat → Cmd}
variable (hr : s.runningPacket port q = some (k, p)) (ho : p.opcode = op) (hf : s.packetFault port q (packetCtx k p) p = none)
include hr ho hf

/-- A packet that passes steps 5 to 8 has what its command makes of the state. -/
theorem State.runPacket_ok (hc : cmd k p (packetCtx k p) = .ok t) : s.runPacket port q op cmd = t := by
  simp [State.runPacket, hr, ho, hf, hc]

/-- A packet that passes steps 5 to 8 fails with what its command refuses it for. -/
theorem State.runPacket_error {code detail : Nat} (hc : cmd k p (packetCtx k p) = .error (code, detail)) :
    s.runPacket port q op cmd = s.failPacket port q (packetCtx k p) code detail p := by
  simp [State.runPacket, hr, ho, hf, hc]

end

/-- The end of a packet changes the queues alone. -/
theorem State.endPacket_eq (s : State) (port q : Nat) :
    s.endPacket port q = s.modObjs fun o => { o with queues := (s.endPacket port q).objs.queues } := by
  unfold State.endPacket
  split <;> rfl

@[simp] theorem State.endPacket_seqs (s : State) (port q : Nat) : (s.endPacket port q).seqs = s.seqs := by
  rw [State.endPacket_eq]; rfl
@[simp] theorem State.endPacket_cores (s : State) (port q : Nat) : (s.endPacket port q).cores = s.cores := by
  rw [State.endPacket_eq]; rfl
@[simp] theorem State.endPacket_mem (s : State) (port q : Nat) : (s.endPacket port q).mem = s.mem := by
  rw [State.endPacket_eq]; rfl
@[simp] theorem State.endPacket_fences (s : State) (port q : Nat) : (s.endPacket port q).objs.fences = s.objs.fences := by
  rw [State.endPacket_eq]; rfl
@[simp] theorem State.modCtx_fences (s : State) (x : Nat) (f : Ctx → Ctx) : (s.modCtx x f).objs.fences = s.objs.fences := rfl

/-- A wiped range reads 0. -/
theorem cellGet_cellWipe_inside (m : List Host.Cell) {a n i : Nat} (ha : a ≤ i) (hn : i < a + n) : cellGet (cellWipe m a n) i = 0 := by
  induction m with
  | nil => rfl
  | cons x m ih =>
    obtain ⟨b, v⟩ := x
    rw [cellWipe] at ih ⊢
    rw [List.filter_cons]
    split_ifs with hb
    · have hne : b ≠ i := by rintro rfl; simp only [Bool.or_eq_true, decide_eq_true_eq] at hb; omega
      simp only [cellGet, if_neg hne, ih, ite_self]
    · exact ih

/-- Every other address of a canonical memory reads as before the wipe. -/
theorem cellGet_cellWipe_outside {m : List Host.Cell} (h : Memory.wf m = true) {a n i : Nat} (hi : i < a ∨ a + n ≤ i) :
    cellGet (cellWipe m a n) i = cellGet m i := by
  replace h := ((Memory.wf_iff m).mp h).1
  induction m with
  | nil => rfl
  | cons x m ih =>
    obtain ⟨b, v⟩ := x
    obtain ⟨hlow, hrest⟩ := List.pairwise_cons.mp h
    specialize ih hrest
    rw [cellWipe] at ih ⊢
    rw [List.filter_cons]
    split_ifs with hb
    · simp only [cellGet, ih]
    · have hne : b ≠ i := by rintro rfl; simp only [Bool.or_eq_true, decide_eq_true_eq] at hb; omega
      rw [ih, cellGet, if_neg hne]
      split_ifs with hlt
      · exact cellGet_below fun e he => lt_trans hlt (hlow e he)
      · rfl

end Sys2Proof.Machine
end

section
/-! PROOFS. The end of a teardown, pre-emption, the saves of the engines and of local stores, and resume (R126, R128, R160, R230, R288,
R355, R374). -/

namespace Sys2Proof.Machine

open Sys2Proof

theorem exec_teardownAbortDone (x : Nat) (s : State) : exec (.teardownAbortDone x) s = execTeardownAbortDone x s := rfl
theorem exec_teSaveDone (n : Nat) (ok : Bool) (cycles : Nat) (s : State) :
    exec (.teSaveDone n ok cycles) s = execTeSaveDone n ok cycles s := rfl
theorem exec_geSaveDone (n : Nat) (s : State) : exec (.geSaveDone n) s = execGeSaveDone n s := rfl
theorem exec_queueSaveDone (n : Nat) (s : State) : exec (.queueSaveDone n) s = execQueueSaveDone n s := rfl
theorem exec_localStoreSave (n : Nat) (err : CoreErr) (s : State) : exec (.localStoreSave n err) s = execLocalStoreSave n err s := rfl
theorem exec_resumeDone (x : Nat) (records : RecordRead) (s : State) : exec (.resumeDone x records) s = execResumeDone x records s := rfl

@[simp] theorem State.mem_boundOf {s : State} {x : Nat} {e : Nat × Seq} : e ∈ s.boundOf x ↔ e ∈ s.seqs ∧ e.2.ctx = x := by
  simp [State.boundOf]

theorem any_eq_false_of_forall {α : Type} {l : List α} {f : α → Bool} (h : ∀ e ∈ l, f e = false) : l.any f = false :=
  List.any_eq_false.mpr fun e he => Bool.eq_false_iff.mp (h e he)

/-! ### CONTEXT_PREEMPT and CONTEXT_RESUME -/

/-- The state in which every constellation of a context is to be saved. -/
def State.preemptAll (s : State) (x : Nat) : State :=
  { s with seqs := s.seqs.map fun e => if e.2.ctx = x then (e.1, { e.2 with preempting := true }) else e }

/-- A packet that pre-empts or resumes a context leaves it the fence to signal at the end. -/
def State.keepFence (s : State) (x : Nat) (p : Packet) : State :=
  s.modCtx x fun k => { k with preemptFences := if p.fenceEn then k.preemptFences ++ [(p.fenceId, p.fenceValue)] else k.preemptFences }

theorem State.preempting_of_mem_preemptAll {s : State} {x : Nat} {e : Nat × Seq} (h : e ∈ (s.preemptAll x).seqs) (hx : e.2.ctx = x) :
    e.2.preempting = true := by
  obtain ⟨d, -, rfl⟩ := List.mem_map.mp h
  by_cases hd : d.2.ctx = x
  · simp [hd]
  · simp [hd] at hx

theorem State.mem_preemptAll_of_ne {s : State} {x : Nat} {e : Nat × Seq} (h : e ∈ s.seqs) (hx : e.2.ctx ≠ x) :
    e ∈ (s.preemptAll x).seqs :=
  List.mem_map.mpr ⟨e, h, if_neg hx⟩

section
variable {s t : State} {port q y : Nat} {k : SubQueue} {p : Packet} {c : Ctx}
variable (hr : s.runningPacket port q = some (k, p)) (hf : s.packetFault port q (packetCtx k p) p = none)
  (hs : s.subject port q (packetCtx k p) p = .ok (y, c)) (hl : c.state = .live)
include hr hf hs hl

/-- A pre-emption waits while a resume or the replacement of a member runs (log 42). -/
theorem exec_contextPreempt_waits (ho : p.opcode = 0x26) (hw : c.resumes ≠ [] ∨ ∃ e ∈ s.boundOf y, s.heldForSpare e.2 = true) :
    exec (.contextPreempt port q) s = .next s := by
  have hwait : (!c.resumes.isEmpty || (s.boundOf y).any fun e => s.heldForSpare e.2) = true := by
    simpa only [Bool.or_eq_true, Bool.not_eq_true', List.isEmpty_eq_false_iff, List.any_eq_true] using hw
  refine congrArg Host.Outcome.next (State.runPacket_ok hr ho hf ?_)
  simp only [hs, hl, hwait, ne_eq, not_true_eq_false, if_false, if_true]

/-- With no constellation bound a pre-emption completes at once. -/
theorem exec_contextPreempt_unbound (ho : p.opcode = 0x26) (hn : c.resumes = []) (hb : s.boundOf y = []) :
    exec (.contextPreempt port q) s = .next (s.completePacket port q p) := by
  refine congrArg Host.Outcome.next (State.runPacket_ok hr ho hf ?_)
  simp [hs, hl, hn, hb]

/-- A pre-emption that begins holds every constellation of the context. -/
theorem exec_contextPreempt_begins (ho : p.opcode = 0x26) (hn : c.resumes = []) (hb : s.boundOf y ≠ [])
    (hh : ∀ e ∈ s.boundOf y, s.heldForSpare e.2 = false) :
    exec (.contextPreempt port q) s = .next (((s.preemptAll y).endPacket port q).keepFence y p) := by
  have hgo : (!c.resumes.isEmpty || (s.boundOf y).any fun e => s.heldForSpare e.2) = false := by
    rw [hn, any_eq_false_of_forall hh]
    rfl
  refine congrArg Host.Outcome.next (State.runPacket_ok hr ho hf ?_)
  simp only [hs, hl, hgo, List.isEmpty_eq_false_iff.mpr hb, ne_eq, not_true_eq_false, Bool.false_eq_true, if_false]
  rfl

/-- A resume waits while a member is being saved. -/
theorem exec_contextResume_waits (ho : p.opcode = 0x27) (hp : ∃ e ∈ s.boundOf y, e.2.preempting = true) :
    exec (.contextResume port q) s = .next s := by
  refine congrArg Host.Outcome.next (State.runPacket_ok hr ho hf ?_)
  simp only [hs, hl, List.any_eq_true.mpr hp, ne_eq, not_true_eq_false, if_false, if_true]

section
variable (ho : p.opcode = 0x27) (hp : ∀ e ∈ s.boundOf y, e.2.preempting = false)
include ho hp

/-- With nothing saved a resume completes at once. -/
theorem exec_contextResume_unsaved (hn : c.saved = []) :
    exec (.contextResume port q) s = .next (s.completePacket port q p) := by
  have hgo := any_eq_false_of_forall hp
  refine congrArg Host.Outcome.next (State.runPacket_ok hr ho hf ?_)
  simp only [hs, hl, hgo, hn, List.isEmpty_nil, ne_eq, not_true_eq_false, Bool.false_eq_true, if_false, if_true]

/-- A resume that finds too few cores waits while cores of the partition are being wiped (R311). -/
theorem exec_contextResume_wiping (hn : c.saved ≠ []) (hb : (s.endPacket port q).rebindAll y c.part c.saved = none)
    (hw : s.partWiping c.part = true) : exec (.contextResume port q) s = .next s := by
  have hgo := any_eq_false_of_forall hp
  refine congrArg Host.Outcome.next (State.runPacket_ok hr ho hf ?_)
  simp only [hs, hl, hgo, List.isEmpty_eq_false_iff.mpr hn, hb, hw, ne_eq, not_true_eq_false, Bool.false_eq_true, if_false, if_true]

/-- A resume that finds too few cores fails with OBJ_BUSY. -/
theorem exec_contextResume_busy (hn : c.saved ≠ []) (hb : (s.endPacket port q).rebindAll y c.part c.saved = none)
    (hw : s.partWiping c.part = false) :
    exec (.contextResume port q) s = .next (s.failPacket port q (packetCtx k p) 0x600A 0 p) := by
  have hgo := any_eq_false_of_forall hp
  refine congrArg Host.Outcome.next (State.runPacket_error hr ho hf ?_)
  simp only [hs, hl, hgo, List.isEmpty_eq_false_iff.mpr hn, hb, hw, ne_eq, not_true_eq_false, Bool.false_eq_true, if_false]
  rfl

/-- A resume binds every saved constellation again. -/
theorem exec_contextResume_bound (hn : c.saved ≠ []) (hb : (s.endPacket port q).rebindAll y c.part c.saved = some t) :
    exec (.contextResume port q) s = .next (t.keepFence y p) := by
  have hgo := any_eq_false_of_forall hp
  refine congrArg Host.Outcome.next (State.runPacket_ok hr ho hf ?_)
  simp only [hs, hl, hgo, List.isEmpty_eq_false_iff.mpr hn, hb, ne_eq, not_true_eq_false, Bool.false_eq_true, if_false]
  rfl

end
end

/-! ### The saves of the engines -/

section
variable {s : State} {n : Nat}

/-- The tensor engine's save ends once its core has no drain in progress (R126). -/
theorem exec_teSaveDone_drained {ok : Bool} {cycles : Nat} (h : s.saves n .te = true)
    (hd : ∀ e ∈ s.te, e.1 / 128 = n → e.2.shadow = none) :
    exec (.teSaveDone n ok cycles) s =
      let t := s.setReg (offTe n 0x28) (b2n ok * 4 + min cycles 0xFFFF * 2 ^ 16)
      .next (if ok then (t.bump (offTe n 0x138) 1).savedEngine n .te else t.faultCore n 0x2012 0) := by
  have hdrained : (s.te.all fun e => e.1 / 128 != n || e.2.shadow.isNone) = true :=
    List.all_eq_true.mpr fun e he => by
      simpa only [Bool.or_eq_true, bne_iff_ne, Option.isNone_iff_eq_none] using Decidable.imp_iff_not_or.mp (hd e he)
  simp only [exec_teSaveDone, execTeSaveDone, h, hdrained, Bool.and_self, if_true]

theorem exec_geSaveDone_saves (h : s.saves n .ge = true) : exec (.geSaveDone n) s = .next (s.savedEngine n .ge) := by
  rw [exec_geSaveDone, execGeSaveDone, if_pos h]

/-- The move engine's save ends once its core has no transfer and nothing in flight (R160). -/
theorem exec_queueSaveDone_idle (h : s.saves n .me = true) (hx : (s.core n).xfers = []) (hi : ∀ f ∈ (s.core n).inflight, f.eng ≠ .me) :
    exec (.queueSaveDone n) s = .next (s.savedEngine n .me) := by
  have hidle : ((s.core n).inflight.all fun f => f.eng != .me) = true := List.all_eq_true.mpr fun f hf => bne_iff_ne.mpr (hi f hf)
  simp only [exec_queueSaveDone, execQueueSaveDone, h, hx, hidle, List.isEmpty_nil, Bool.and_self, if_true]

end

/-! ### LOCAL_STORE_SAVE -/

/-- A core wiped for a context, whose local store it holds from then on (R311). -/
def State.handStore (s : State) (n x : Nat) : State := (s.wipeCore n).modCore n fun k => { k with lsHeld := some x }

section
variable (s : State) (n x : Nat)

@[simp] theorem State.handStore_lsHeld : ((s.handStore n x).core n).lsHeld = some x := by simp [State.handStore]

@[simp] theorem State.handStore_mem : (s.handStore n x).mem = cellWipe s.mem (coreMem n) 0x80_0000 := rfl

end

/-- A fault of a context leaves device memory. -/
@[simp] theorem State.faultCtx_mem (s : State) (x code detail : Nat) : (s.faultCtx x code detail).mem = s.mem :=
  (State.faultCtx_keeps (F := fun a => a == .mem) (by simp [Free]) (Keeps.refl s)).same .mem rfl

section
variable {s : State} {n sq : Nat} {b : Seq} {err : CoreErr}
variable (hs : s.coreSeq n = some (sq, b)) (hh : (s.core n).lsHeld ≠ some b.ctx) (hw : s.wiping n = false)
include hs hh hw

/-- A local store that a saved constellation left is saved, and the core handed over (R288). -/
theorem exec_localStoreSave_saved {z r : Nat} {v : Saved} (ho : s.storeOwner n = some (z, v, r)) (he : err ≠ .uncorrectable) :
    exec (.localStoreSave n err) s =
      .next (((if err = .corrected then s.bump (offCm n 0x20) 1 else s).saveStore z v r n).handStore n b.ctx) := by
  cases err with
  | uncorrectable => exact absurd rfl he
  | _ => simp [exec_localStoreSave, execLocalStoreSave, hs, hh, hw, ho, State.handStore]

/-- A local store that cannot be read kills the context it belongs to (R287). -/
theorem exec_localStoreSave_lost {z r : Nat} {v : Saved} (ho : s.storeOwner n = some (z, v, r)) :
    exec (.localStoreSave n .uncorrectable) s =
      .next ((((s.countCmUe n).modCore n fun k => { k with faulty := true }).faultCtx z 0x4011 0).handStore n b.ctx) := by
  simp [exec_localStoreSave, execLocalStoreSave, hs, hh, hw, ho, State.handStore]

/-- Where the old context has gone, only the wipe is left to do. -/
theorem exec_localStoreSave_unowned (ho : s.storeOwner n = none) : exec (.localStoreSave n err) s = .next (s.handStore n b.ctx) := by
  simp [exec_localStoreSave, execLocalStoreSave, hs, hh, hw, ho, State.handStore]

/-- The core is handed over in every case, by a state that has written nothing to device memory. -/
theorem exec_localStoreSave_hands : ∃ t : State, t.mem = s.mem ∧ exec (.localStoreSave n err) s = .next (t.handStore n b.ctx) := by
  cases ho : s.storeOwner n with
  | none => exact ⟨s, rfl, exec_localStoreSave_unowned hs hh hw ho⟩
  | some o =>
    by_cases he : err = .uncorrectable
    · subst he
      exact ⟨_, by simp [State.countCmUe], exec_localStoreSave_lost hs hh hw ho⟩
    · refine ⟨_, ?_, exec_localStoreSave_saved hs hh hw ho he⟩
      split <;> rfl

end

/-! ### RESUME_DONE -/

/-- The records of resumed constellations checked in turn (R128): whether all pass. -/
def State.checkRecords (s : State) (l : List Saved) : Bool × State :=
  l.foldl (fun (t : Bool × State) v => let w := t.2.recordOk v; (t.1 && w.1, w.2)) (true, s)

section
variable {s : State} {x : Nat} {c : Ctx}
variable (hc : s.ctx x = some c) (hl : c.state = .live) (hn : c.resumes ≠ [])
  (hm : ∀ e ∈ s.boundOf x, ∀ m ∈ e.2.members, (s.core m).lsHeld = some x)
include hl hn hm

/-- A resume of a live context may end once every member's local store is the context's. -/
theorem resume_ready : (decide (c.state ≠ .live) || c.resumes.isEmpty ||
    (s.boundOf x).any fun e => e.2.members.any fun m => (s.core m).lsHeld != some x) = false := by
  have hstores : ∀ e ∈ s.boundOf x, (e.2.members.any fun m => (s.core m).lsHeld != some x) = false := fun e he =>
    any_eq_false_of_forall fun m hmem => bne_eq_false_iff_eq.mpr (hm e he m hmem)
  rw [any_eq_false_of_forall hstores, List.isEmpty_eq_false_iff.mpr hn, hl]
  rfl

include hc

/-- Records that read uncorrectable kill the context (R307). -/
theorem exec_resumeDone_uncorrectable : exec (.resumeDone x .uncorrectable) s = .next (s.failResume x 0x4012) := by
  simp only [exec_resumeDone, execResumeDone, hc, resume_ready hl hn hm, Bool.false_eq_true, if_false]

/-- Records whose digest fails kill the context (R128). -/
theorem exec_resumeDone_badDigest : exec (.resumeDone x .badDigest) s = .next (s.failResume x 0x2012) := by
  simp only [exec_resumeDone, execResumeDone, hc, resume_ready hl hn hm, Bool.false_eq_true, if_false]

/-- Records that pass their checks are restored and the fences kept for the end are signalled; one that fails kills the context. -/
theorem exec_resumeDone_sound :
    exec (.resumeDone x .sound) s =
      let r := s.checkRecords c.resumes
      .next (if r.1 then
        ((c.resumes.foldl State.restart r.2).modCtx x fun k => { k with resumes := [], preemptFences := [] }).signalAll c.preemptFences
      else r.2.failResume x 0x2012) := by
  simp only [exec_resumeDone, execResumeDone, hc, resume_ready hl hn hm, Bool.false_eq_true, if_false]
  rfl

end

/-- Settles O23: each command by the lemma for its case; a local store is handed over in every case (`exec_localStoreSave_hands`), so
what memory then reads is what a wiped memory reads. -/
theorem preemptionAndTeardown : Obligations.PreemptionAndTeardown := by
  intro s port q k p c x y n
  refine ⟨fun hc ht => ?teardown, fun hc ht => ?notTorn, fun hr hf hs hl => ?packets, fun cycles h hd => ?te, exec_geSaveDone_saves,
    exec_queueSaveDone_idle, fun sq b err hs hh hw hm => ⟨fun z v r ho he => exec_localStoreSave_saved hs hh hw ho he, ?store⟩,
    fun hc hl hn hm => ?resumed⟩
  case teardown =>
    refine ⟨fun hg => ?_, fun hg => ?_⟩
    · simp only [exec_teardownAbortDone, execTeardownAbortDone, hc, ht, hg, ne_eq, not_true_eq_false, if_false, Bool.false_eq_true]
    · simp only [exec_teardownAbortDone, execTeardownAbortDone, hc, ht, hg, ne_eq, not_true_eq_false, if_false, if_true]
  case notTorn => simp only [exec_teardownAbortDone, execTeardownAbortDone, hc, if_pos ht]
  case packets =>
    refine ⟨exec_contextPreempt_waits hr hf hs hl, exec_contextPreempt_unbound hr hf hs hl, fun ho hn hb hh => ?begins,
      exec_contextResume_waits hr hf hs hl, fun ho hp hn hb => ⟨exec_contextResume_wiping hr hf hs hl ho hp hn hb,
        exec_contextResume_busy hr hf hs hl ho hp hn hb⟩, exec_contextResume_unsaved hr hf hs hl,
      fun t ho hp hn hb => exec_contextResume_bound hr hf hs hl ho hp hn hb⟩
    case begins =>
      refine ⟨_, exec_contextPreempt_begins hr hf hs hl ho hn hb hh, fun e he => ?_, fun e he hne => ?_, ?_, ?_, ?_⟩
      · obtain ⟨he, hx⟩ := State.mem_boundOf.mp he
        exact State.preempting_of_mem_preemptAll (by simpa [State.keepFence] using he) hx
      · simpa [State.keepFence] using State.mem_preemptAll_of_ne he hne
      all_goals simp [State.keepFence, State.preemptAll]
  case te => exact ⟨by simp [exec_teSaveDone_drained h hd, b2n], by simp [exec_teSaveDone_drained h hd, b2n]⟩
  case store =>
    obtain ⟨t, hmem, ht⟩ := exec_localStoreSave_hands (err := err) hs hh hw
    refine ⟨_, ht, t.handStore_lsHeld n b.ctx, fun i hi => ?_, fun a ha => ?_⟩
    · exact cellGet_cellWipe_inside _ (Nat.le_add_right ..) (Nat.add_lt_add_left hi _)
    · rw [State.handStore_mem, hmem, cellGet_cellWipe_outside hm ha]
  case resumed =>
    have hsound := exec_resumeDone_sound hc hl hn hm
    exact ⟨exec_resumeDone_uncorrectable hc hl hn hm, exec_resumeDone_badDigest hc hl hn hm,
      fun hok => hsound.trans (congrArg Host.Outcome.next (if_pos hok)),
      fun hbad => hsound.trans (congrArg Host.Outcome.next (if_neg (Bool.eq_false_iff.mp hbad)))⟩

end Sys2Proof.Machine
end

section
/-! PROOFS. An entry taken, a fault of a context, and the wait and signal entries (R141, R142, R145, R146, R175, R374). -/

namespace Sys2Proof.Machine

open Sys2Proof

/-! ### Contexts -/

/-- Any context read after one was changed. -/
theorem State.ctx_modCtx (s : State) (x y : Nat) (f : Ctx → Ctx) :
    (s.modCtx x f).ctx y = (s.ctx y).map fun c => if y = x then f c else c :=
  look_upd ..

theorem State.live_iff {s : State} {x : Nat} : s.live x = true ↔ ∃ c, s.ctx x = some c ∧ c.state = .live := by
  unfold State.live
  cases s.ctx x <;> simp

/-- A change that keeps a context's state leaves the same contexts live. -/
theorem State.live_modCtx_of_state (s : State) {f : Ctx → Ctx} (h : ∀ c, (f c).state = c.state) (x y : Nat) :
    (s.modCtx x f).live y = s.live y := by
  rw [State.live, State.ctx_modCtx, State.live]
  cases s.ctx y with
  | none => rfl
  | some c => by_cases hy : y = x <;> simp [hy, h]

/-- What an operation keeps under every choice of parts outside a list is the same for each part outside it. -/
theorem Area.same_of_keeps {s t : State} {l : List Area} (h : ∀ F, Free F l → Keeps F s t) (p : Area) (hp : p ∉ l) : p.same s t :=
  (h (fun a => a == p) fun _ ha => beq_eq_false_iff_ne.mpr fun e => hp (e ▸ ha)).same p (beq_self_eq_true p)

/-! ### A fault of a context (R374) -/

section
variable (s : State) (x code detail : Nat)

theorem State.faultCtx_same {s : State} {x code detail : Nat} (p : Area) (h : p ∉ [Area.te, .objs, .loader]) :
    p.same s (s.faultCtx x code detail) :=
  Area.same_of_keeps (fun _ w => State.faultCtx_keeps w (Keeps.refl s)) p h

@[simp] theorem State.faultCtx_cores : (s.faultCtx x code detail).cores = s.cores := State.faultCtx_same .cores (by decide)
@[simp] theorem State.faultCtx_seqs : (s.faultCtx x code detail).seqs = s.seqs := State.faultCtx_same .seqs (by decide)

/-- A live context that faults is torn down with the fault's code. -/
theorem State.ctx_faultCtx {y : Ctx} (hy : s.ctx x = some y) (hl : y.state = .live) :
    ((s.faultCtx x code detail).ctx x).map (fun c => (c.state, c.cause)) = some (.teardown, code) := by
  have hlive : s.live x = true := State.live_iff.mpr ⟨y, hy, hl⟩
  set t := (s.log x code true false noFence detail srcStream).clearUnits fun c => (s.ctxCores x).contains c with ht
  have htx : t.ctx x = some (logPush y code true false noFence x s.node detail srcStream) := by
    show (s.modCtx x _).ctx x = _
    simp [State.ctx_modCtx, hy]
  have htl : t.live x = true := State.live_iff.mpr ⟨_, htx, hl⟩
  rw [State.faultCtx, if_pos hlive, ← ht, State.teardown, if_pos htl]
  simp only [State.ctx_modCtx]
  show (((t.ctx x).map _).map _) = _
  simp [htx]

/-- A context that faults is live no longer. -/
theorem State.live_faultCtx (h : s.live x = true) : (s.faultCtx x code detail).live x = false := by
  obtain ⟨y, hy, hl⟩ := State.live_iff.mp h
  obtain ⟨c, hc, hstate⟩ := Option.map_eq_some_iff.mp (s.ctx_faultCtx x code detail hy hl)
  simp_all [State.live]

end

/-! ### The core that takes entries -/

section
variable {s t : State} {c : Nat}

theorem State.coreSeq_congr (hm : (t.core c).member = (s.core c).member) (hs : t.seqs = s.seqs) : t.coreSeq c = s.coreSeq c := by
  rw [State.coreSeq, State.coreSeq, hm, hs]

/-- Whether a core takes entries is read off its sequencer, its clocks, its local store, its context and its die's PLLs. -/
theorem State.takes_congr (hm : (t.core c).member = (s.core c).member) (hs : t.seqs = s.seqs) (hx : ∀ x, t.live x = s.live x)
    (hk : (t.core c).clk = (s.core c).clk) (hw : (t.core c).waking = (s.core c).waking) (hl : (t.core c).lsHeld = (s.core c).lsHeld)
    (hd : (t.die (c / 68)).unlocked = (s.die (c / 68)).unlocked) : t.takes c = s.takes c := by
  simp only [State.takes, State.coreSeq_congr hm hs, hx, hk, hw, hl, hd]

/-- A core that takes entries is bound to a sequencer of a live context. -/
theorem State.coreSeq_of_takes (h : s.takes c = true) : ∃ e, s.coreSeq c = some e ∧ s.live e.2.ctx = true := by
  rw [State.takes] at h
  split at h
  next e q hq => exact ⟨_, hq, by simp_all⟩
  next => cases h

theorem State.takes_of_headOf {e : Engine} {x : Entry} (h : s.headOf c e = some x) : s.takes c = true := by
  by_contra hn
  simp [State.headOf, hn] at h

theorem State.head_of_headOf {e : Engine} {x : Entry} (h : s.headOf c e = some x) : (s.core c).head e = some x := by
  rwa [State.headOf, if_pos (State.takes_of_headOf h)] at h

/-- A core whose context has faulted has no entry to take. -/
theorem State.headOf_faultCore (e : Engine) (code detail : Nat) (h : s.takes c = true) :
    (s.faultCore c code detail).headOf c e = none := by
  obtain ⟨⟨n, q⟩, hq, hl⟩ := State.coreSeq_of_takes h
  have hf : s.faultCore c code detail = s.faultCtx q.ctx code detail := by rw [State.faultCore, hq]
  have hseq : (s.faultCtx q.ctx code detail).coreSeq c = some (n, q) := by
    rw [← hq]
    exact State.coreSeq_congr (by simp [State.core]) (by simp)
  simp [State.headOf, State.takes, hf, hseq, State.live_faultCtx _ _ _ _ hl]

end

/-! ### An entry taken -/

section
variable (s : State) (c : Nat) (e : Engine)

/-- An entry that names no descriptor reads none. -/
theorem State.readHead_of_no_handles {s : State} {c : Nat} {e : Engine} {x : Entry} (h : (s.core c).head e = some x) (hx : x.handles = []) :
    s.readHead c e = s := by
  rw [State.readHead, h]
  cases s.coreCtx c with
  | none => rfl
  | some y =>
    show s.readDescs y x.handles = s
    rw [hx, State.readDescs]
    cases (s.ctx y).bind fun k => k.descTable <;> rfl

theorem State.leaveIdle_eq : s.leaveIdle c = { s with pwr := (s.leaveIdle c).pwr } := by
  unfold State.leaveIdle
  split <;> rfl

theorem State.progress_eq : s.progress c = { s with objs := (s.progress c).objs } := by
  unfold State.progress
  split <;> rfl

@[simp] theorem State.leaveIdle_cores : (s.leaveIdle c).cores = s.cores := by rw [State.leaveIdle_eq]
@[simp] theorem State.leaveIdle_seqs : (s.leaveIdle c).seqs = s.seqs := by rw [State.leaveIdle_eq]
@[simp] theorem State.leaveIdle_objs : (s.leaveIdle c).objs = s.objs := by rw [State.leaveIdle_eq]
@[simp] theorem State.progress_cores : (s.progress c).cores = s.cores := by rw [State.progress_eq]
@[simp] theorem State.progress_seqs : (s.progress c).seqs = s.seqs := by rw [State.progress_eq]
@[simp] theorem State.progress_pwr : (s.progress c).pwr = s.pwr := by rw [State.progress_eq]

theorem State.live_progress (x : Nat) : (s.progress c).live x = s.live x := by
  unfold State.progress
  split
  · exact State.live_modCtx_of_state s (f := fun k => { k with progress := true }) (fun _ => rfl) _ x
  · rfl

theorem State.die_leaveIdle_unlocked (d : Nat) : ((s.leaveIdle c).die d).unlocked = (s.die d).unlocked := by
  unfold State.leaveIdle
  split
  · by_cases hd : d = c / 68
    · subst hd
      simp [Die.unlocked]
    · rw [State.die_modDie_ne _ _ hd]
  · rfl

/-- The core that has taken its head. -/
theorem State.core_take {s : State} {c : Nat} {e : Engine} (h : s.readHead c e = s) :
    (s.take c e).core c = { (s.core c).take e with cap := (s.die (c / 68)).cap } := by
  simp [State.take, h, State.core, State.modCore, State.setCore]

/-- Taking an entry leaves the core taking entries. -/
theorem State.takes_take {s : State} {c : Nat} {e : Engine} (h : s.readHead c e = s) : (s.take c e).takes c = s.takes c := by
  have hcore := State.core_take h
  have hlive (x : Nat) : (s.take c e).live x = s.live x := by
    rw [State.take, h, State.live_progress]
    simp [State.live, State.ctx]
  have hdie : ((s.take c e).die (c / 68)).unlocked = (s.die (c / 68)).unlocked := by
    rw [State.take, h, State.die, State.progress_pwr]
    exact State.die_leaveIdle_unlocked ..
  refine State.takes_congr ?_ (by simp [State.take, h]) hlive ?_ ?_ ?_ hdie
  all_goals rw [hcore]; cases e <;> rfl

end

/-! ### Channels -/

section
variable (k : Core) (ch n j : Nat)

@[simp] theorem Core.bind_chan_setCount : ((k.setCount ch n).chan j).bind = (k.chan j).bind := by
  by_cases hj : ch = j
  · subst hj
    by_cases hl : ch < k.chans.length <;> simp [Core.setCount, Core.chan, hl]
  · simp [Core.setCount, Core.chan, List.getElem?_set_ne hj]

@[simp] theorem Core.chan_take (e : Engine) : (k.take e).chan j = k.chan j := by cases e <;> rfl

end

/-! ### Waits and signals -/

theorem exec_waitEntry (c : Nat) (e : Engine) (s : State) : exec (.waitEntry c e) s = execWaitEntry c e s := rfl
theorem exec_signalEntry (c : Nat) (e : Engine) (s : State) : exec (.signalEntry c e) s = execSignalEntry c e s := rfl
theorem exec_nop (c : Nat) (e : Engine) (s : State) : exec (.nop c e) s = execNop c e s := rfl

/-- The state with a wait taken and its count off the channel. -/
def State.waited (s : State) (c : Nat) (e : Engine) (ch n : Nat) : State :=
  (s.take c e).modCore c fun k => k.setCount ch (((s.core c).chan ch).count - n)

/-- The state with a signal taken and its token in flight behind the engine's outstanding work. -/
def State.signalled (s : State) (c : Nat) (e : Engine) (ch : Nat) : State :=
  (s.take c e).modCore c fun k =>
    { k with inflight := k.inflight ++ [⟨e, ch, (k.work.filter fun w => w.1 == e).map (·.2)⟩] }

section
variable {s : State} {c : Nat} {e : Engine} {ch n : Nat}

theorem State.takeWait_met (hp : ((s.core c).chan ch).bind.producer ≠ 0) (hc : ((s.core c).chan ch).bind.consumer = engCode e)
    (hn : n ≤ ((s.core c).chan ch).count) : s.takeWait c e ch n = s.waited c e ch n := by
  simp [State.takeWait, State.waited, hp, hc, hn]

theorem State.takeWait_unmet (hp : ((s.core c).chan ch).bind.producer ≠ 0) (hc : ((s.core c).chan ch).bind.consumer = engCode e)
    (hn : ((s.core c).chan ch).count < n) : s.takeWait c e ch n = s := by
  simp [State.takeWait, hp, hc, hn]

theorem State.takeWait_unbound (h : ((s.core c).chan ch).bind.producer = 0 ∨ ((s.core c).chan ch).bind.consumer ≠ engCode e) :
    s.takeWait c e ch n = s.faultCore c 0x6013 0 := by
  rw [State.takeWait]
  exact if_pos h

theorem State.takeSignal_bound (h : ((s.core c).chan ch).bind.producer = engCode e) : s.takeSignal c e ch = s.signalled c e ch := by
  simp [State.takeSignal, State.signalled, h]

theorem State.takeSignal_unbound (h : ((s.core c).chan ch).bind.producer ≠ engCode e) :
    s.takeSignal c e ch = s.faultCore c 0x6013 0 := by
  rw [State.takeSignal]
  exact if_pos h

/-- After a wait, the engine's head is the next entry of its queue, since the core still takes entries. -/
theorem State.headOf_waited {b : Bool} (h : s.headOf c e = some (.wait ch n b)) :
    (s.waited c e ch n).headOf c e = ((s.core c).take e).head e := by
  have hread := State.readHead_of_no_handles (State.head_of_headOf h) rfl
  have hcore : (s.waited c e ch n).core c = ((s.take c e).core c).setCount ch (((s.core c).chan ch).count - n) :=
    State.core_modCore_self ..
  have htakes : (s.waited c e ch n).takes c = true := by
    rw [← State.takes_of_headOf h, ← State.takes_take hread]
    refine State.takes_congr ?_ rfl (fun _ => rfl) ?_ ?_ ?_ rfl
    all_goals rw [hcore]; rfl
  rw [State.headOf, if_pos htakes, hcore, State.core_take hread]
  cases e <;> rfl

/-- A wait leaves every channel's binding. -/
theorem State.bind_chan_waited {b : Bool} (h : s.headOf c e = some (.wait ch n b)) (j : Nat) :
    (((s.waited c e ch n).core c).chan j).bind = ((s.core c).chan j).bind := by
  have hread := State.readHead_of_no_handles (State.head_of_headOf h) rfl
  rw [State.waited, State.core_modCore_self, Core.bind_chan_setCount, State.core_take hread]
  exact congrArg Chan.bind (Core.chan_take ..)

theorem exec_waitEntry_head (h : s.headOf c e = some (.wait ch n false)) :
    exec (.waitEntry c e) s = .next (s.takeWait c e ch n) := by
  simp only [exec_waitEntry, execWaitEntry, h]

theorem exec_signalEntry_head (h : s.headOf c e = some (.signal ch false)) :
    exec (.signalEntry c e) s = .next (s.takeSignal c e ch) := by
  simp only [exec_signalEntry, execSignalEntry, h]

theorem exec_nop_signal (h : s.headOf c e = some (.signal ch true)) : exec (.nop c e) s = .next (s.takeSignal c e ch) := by
  simp only [exec_nop, execNop, h]

/-- A NOP's wait alone: what is at the head after it is no signal of a NOP. -/
theorem exec_nop_wait (h : s.headOf c e = some (.wait ch n true))
    (hn : ∀ j, (s.takeWait c e ch n).headOf c e ≠ some (.signal j true)) : exec (.nop c e) s = .next (s.takeWait c e ch n) := by
  simp only [exec_nop, execNop, h]

/-- A NOP's wait and then its signal. -/
theorem exec_nop_waitSignal {j : Nat} (h : s.headOf c e = some (.wait ch n true))
    (hj : (s.takeWait c e ch n).headOf c e = some (.signal j true)) :
    exec (.nop c e) s = .next ((s.takeWait c e ch n).takeSignal c e j) := by
  simp only [exec_nop, execNop, h, hj]

end

/-- Settles O1: each entry at the head by the lemma for its channel's binding and count. A NOP's second half looks at the head after its
wait: the next entry where the wait is taken, the same wait where it is not, none where the context has faulted. -/
theorem waitAndSignalEntries : Obligations.WaitAndSignalEntries := by
  intro s c e ch n
  refine ⟨fun h => ?wait, fun h => ?signal, fun h => ?nopSignal, fun h => ⟨fun hp hc => ⟨fun hn => ?nopUnmet, fun hn => ?nopMet⟩,
    fun hb => ?nopUnbound⟩⟩
  case wait =>
    rw [exec_waitEntry_head h]
    exact ⟨fun hp hc => ⟨fun hn => congrArg _ (State.takeWait_met hp hc hn), fun hn => congrArg _ (State.takeWait_unmet hp hc hn)⟩,
      fun hb => congrArg _ (State.takeWait_unbound hb)⟩
  case signal =>
    rw [exec_signalEntry_head h]
    exact ⟨fun hb => congrArg _ (State.takeSignal_bound hb), fun hb => congrArg _ (State.takeSignal_unbound hb)⟩
  case nopSignal =>
    rw [exec_nop_signal h]
    exact ⟨fun hb => congrArg _ (State.takeSignal_bound hb), fun hb => congrArg _ (State.takeSignal_unbound hb)⟩
  case nopUnmet =>
    have ht := State.takeWait_unmet hp hc hn
    rw [exec_nop_wait h (by simp [ht, h]), ht]
  case nopMet =>
    have ht := State.takeWait_met hp hc hn
    have hhead := State.headOf_waited h
    rw [← ht] at hhead
    refine ⟨fun hno => ?_, fun j hj hb => ?_, fun j hj hb => ?_⟩
    · rw [exec_nop_wait h (by simpa only [hhead] using hno), ht]
      rfl
    · rw [exec_nop_waitSignal h (hhead.trans hj), ht, State.takeSignal_bound (by rw [State.bind_chan_waited h, hb])]
      rfl
    · rw [exec_nop_waitSignal h (hhead.trans hj), ht, State.takeSignal_unbound (by rwa [State.bind_chan_waited h])]
      rfl
  case nopUnbound =>
    have ht : s.takeWait c e ch n = s.faultCore c 0x6013 0 := State.takeWait_unbound hb
    have hnone := State.headOf_faultCore e 0x6013 0 (State.takes_of_headOf h)
    rw [exec_nop_wait h (by simp [ht, hnone]), ht]

end Sys2Proof.Machine
end

section
/-! PROOFS. The broadcast of a stream's next entry (R136, R137, R180, R307). -/

namespace Sys2Proof.Machine

open Sys2Proof

theorem exec_seqBroadcast (sq : Nat) (e : Engine) (b : Bool) (s : State) :
    exec (.seqBroadcast sq e b) s = execSeqBroadcast sq e b s := rfl

/-! ### Several cores changed -/

/-- The same change made to the cores of a list. -/
def State.modCores (s : State) (l : List Nat) (f : Core → Core) : State := l.foldl (fun t c => t.modCore c f) s

section
variable (s : State) (l : List Nat) (f : Core → Core)

theorem State.modCores_eq : s.modCores l f = { s with cores := (s.modCores l f).cores } := by
  induction l generalizing s with
  | nil => rfl
  | cons c l ih => exact ih (s.modCore c f)

@[simp] theorem State.modCores_regs : (s.modCores l f).regs = s.regs := by rw [State.modCores_eq]
@[simp] theorem State.modCores_seqs : (s.modCores l f).seqs = s.seqs := by rw [State.modCores_eq]
@[simp] theorem State.modCores_objs : (s.modCores l f).objs = s.objs := by rw [State.modCores_eq]
@[simp] theorem State.modCores_mem : (s.modCores l f).mem = s.mem := by rw [State.modCores_eq]
@[simp] theorem State.reg_modCores (o : Nat) : (s.modCores l f).reg o = s.reg o := by rw [State.modCores_eq]; rfl

variable {s l f}

theorem State.core_modCores_of_not_mem {c : Nat} (h : c ∉ l) : (s.modCores l f).core c = s.core c := by
  induction l generalizing s with
  | nil => rfl
  | cons d l ih =>
    obtain ⟨hd, hl⟩ := not_or.mp (mt List.mem_cons.mpr h)
    exact (ih hl).trans (s.core_modCore_ne f hd)

/-- Each core that is listed once is changed once. -/
theorem State.core_modCores_of_mem {c : Nat} (hn : l.Nodup) (h : c ∈ l) : (s.modCores l f).core c = f (s.core c) := by
  induction l generalizing s with
  | nil => cases h
  | cons d l ih =>
    obtain ⟨hd, hl⟩ := List.nodup_cons.mp hn
    rcases List.mem_cons.mp h with rfl | hc
    · exact (State.core_modCores_of_not_mem hd).trans (s.core_modCore_self c f)
    · have hne : c ≠ d := fun e => hd (e ▸ hc)
      exact (ih hl hc).trans (congrArg f (s.core_modCore_ne f hne))

end

/-! ### Delivery -/

theorem Core.queue_setQueue (k : Core) (e : Engine) (l : List Entry) (p : Nat) : (k.setQueue e l p).queue e = l := by cases e <;> rfl

/-- An entry goes to the end of the queue of a core that runs. -/
theorem Core.queue_deliver_running {k : Core} (e : Engine) (x : Entry) (h : k.clk = .running) :
    (k.deliver e x).queue e = k.queue e ++ [x] := by
  rw [Core.deliver, if_pos h, Core.queue_setQueue]

/-- An entry goes behind what the wake port of a core holds that does not run. -/
theorem Core.deliver_sleeping {k : Core} (e : Engine) (x : Entry) (h : k.clk ≠ .running) :
    k.deliver e x = { k with held := k.held ++ [.entry e x] } := by
  rw [Core.deliver, if_neg h]

theorem Seq.fetch_setFetch (q : Seq) (e : Engine) (f : Fetch) : (q.setFetch e f).fetch e = f := by cases e <;> rfl

/-! ### The broadcast -/

/-- A sequencer that has broadcast an entry: it has moved past it, and is held no longer. -/
def Seq.broadcasted (q : Seq) (e : Engine) (x : Entry) : Seq :=
  { q with pass := q.pass.map fun (p : PassInst) => p.broadcast e (q.settled e) x, creditHeld := drop1 q.creditHeld e }.setFetch e
    (q.advance e)

section
variable {s : State} {sq : Nat} {e : Engine} {q : Seq} {x : Entry} (hq : look s.seqs sq = some q) (hx : q.next e = some x)
  (hl : s.live q.ctx = true) (hp : q.preempting = false) (hm : q.mayBroadcast e x = true)
include hq hx hl hp hm

theorem exec_seqBroadcast_credited (hc : s.credits q e = true) :
    exec (.seqBroadcast sq e false) s = .next
      (((s.setSeq sq (q.broadcasted e x)).modCores q.members fun k => k.deliver e x).bump (offSeq sq 0x20) 1) := by
  simp [exec_seqBroadcast, execSeqBroadcast, hq, hx, hl, hp, hm, hc, Seq.broadcasted, State.modCores]

theorem exec_seqBroadcast_held (hc : s.credits q e = false) :
    exec (.seqBroadcast sq e false) s =
      .next ((s.setSeq sq { q with creditHeld := addNew q.creditHeld e }).bump (offSeq sq 0x28) 1) := by
  simp [exec_seqBroadcast, execSeqBroadcast, hq, hx, hl, hp, hm, hc]

theorem exec_seqBroadcast_imageBad : exec (.seqBroadcast sq e true) s = .next (s.faultCtx q.ctx 0x4012 0) := by
  simp [exec_seqBroadcast, execSeqBroadcast, hq, hx, hl, hp, hm]

end

/-- Settles O2: the three outcomes of a broadcast that may be made; delivery changes each member once (`State.core_modCores_of_mem`). -/
theorem broadcastDelivers : Obligations.BroadcastDelivers := by
  intro s sq e q x hq hx hl hp hm
  refine ⟨fun hc hn => ?delivers, exec_seqBroadcast_held hq hx hl hp hm, ?imageBad⟩
  case delivers =>
    have hcore (c : Nat) (h : c ∈ q.members) :
        ((((s.setSeq sq (q.broadcasted e x)).modCores q.members fun k => k.deliver e x).bump (offSeq sq 0x20) 1).core c) =
          (s.core c).deliver e x :=
      State.core_modCores_of_mem (s := s.setSeq sq (q.broadcasted e x)) hn h
    refine ⟨_, exec_seqBroadcast_credited hq hx hl hp hm hc, fun c h hr => ?_, fun c h hr => ?_, fun c h => ?_,
      ⟨q.broadcasted e x, ?_, ?_⟩, ?_, ?_, ?_⟩
    · rw [hcore c h, Core.queue_deliver_running e x hr]
    · rw [hcore c h, Core.deliver_sleeping e x hr]
      exact ⟨rfl, by cases e <;> rfl⟩
    · exact State.core_modCores_of_not_mem (s := s.setSeq sq (q.broadcasted e x)) h
    · simp [State.setSeq]
    · exact Seq.fetch_setFetch ..
    · rw [State.bump, State.setReg, State.reg_modCores, State.modCores_regs]
      rfl
    · simp
    · simp
  case imageBad =>
    refine ⟨_, exec_seqBroadcast_imageBad hq hx hl hp hm, fun y hy => State.ctx_faultCtx _ _ _ _ hy ?_⟩
    obtain ⟨c, hc, hlive⟩ := State.live_iff.mp hl
    rwa [Option.some.inj (hy.symm.trans hc)]

end Sys2Proof.Machine
end

section
/-! PROOFS. Wait stalls (R149, R229): a core that its sequencer lists and that is bound to none. -/

namespace Sys2Proof.Machine

open Sys2Proof

/-- A constellation of context 1 that lists core 0, with a stall limit of 1. -/
def listingSeq : Seq :=
  { ctx := 1, module := 0, kernel := ⟨1, 0, [], [], [], [], [], none, none⟩, members := [0], teF := ⟨0, 0, []⟩, geF := ⟨0, 0, []⟩,
    meF := ⟨0, 0, []⟩, pass := none, step := 0, attempt := 0, jobKey := 0, tag := 0, fence := none, stallLog2 := 0, preempting := false,
    order := 0, creditHeld := [], fw := 0 }

/-- A group engine with block 0 at a barrier at its limit. -/
def overdueGe : Ge :=
  { launches := [(0, { entry := 0, groups := 1, blocks := 1, u := [], nextBlock := 1, ended := 0, barLog2 := 0, work := 0 })],
    blocks := [(0, { slot := 0, idx := 0, groups := 1, firstFrame := 0, arrived := 1, exited := 0, phase := 0, ticks := 1, left := 0 })],
    groups := [], port := [], nextBlock := 1 }

/-- Context 1 is at its stall limit and core 0 has a barrier at its limit, but core 0, which the sequencer lists, is bound to no
sequencer: it is as reset leaves it. -/
def unboundMember : State :=
  { State.reset with
    seqs := [(0, listingSeq)], ge := [(0, overdueGe)],
    objs := { State.reset.objs with ctxs := [(1, { newCtx 0 0 false with stall := 1 })] } }

/-- WAIT_STALL reports the barrier in the group engine's status. -/
theorem exec_waitStall_unboundMember : exec (.waitStall 1) unboundMember = .next (unboundMember.setBit (offGe 0 8) 22) := rfl

/-- BARRIER_STALL of a core without a context changes nothing. -/
theorem exec_barrierStall_unboundMember : exec (.barrierStall 0 0) unboundMember = .next unboundMember := rfl

/-- Refutes O3: the last clause sets WAIT_STALL equal to BARRIER_STALL of the first overdue core that the context's sequencers list, for
every state. BARRIER_STALL takes only a core that is itself bound to a sequencer; in `unboundMember` the listed core is not, so the one
command reports the barrier and the other does nothing. -/
theorem not_tokensAndStalls : ¬ Obligations.TokensAndStalls := by
  intro h
  obtain ⟨-, -, -, hstall⟩ := h unboundMember 0 .te 1 ⟨.te, 0, []⟩
  obtain ⟨-, hbarrier⟩ := hstall { newCtx 0 0 false with stall := 1 } 0 rfl rfl rfl (by decide)
  have heq := hbarrier 0 0 rfl
  rw [exec_waitStall_unboundMember, exec_barrierStall_unboundMember] at heq
  have hregs : (unboundMember.setBit (offGe 0 8) 22).regs = unboundMember.regs := by
    injection heq with heq
    rw [heq]
  exact absurd hregs (by decide)

end Sys2Proof.Machine
end

section
/-! PROOFS. A FENCE, and the end of a transfer with its remote token (R143, R144, R197, R289, R364, R367, R394). -/

namespace Sys2Proof.Machine

open Sys2Proof

theorem exec_fence (c : Nat) (s : State) : exec (.fence c) s = execFence c s := rfl
theorem exec_transferComplete (c slot : Nat) (s : State) : exec (.transferComplete c slot) s = execTransferComplete c slot s := rfl

section
variable {s : State} {c x : Nat} (hx : s.coreCtx c = some x)
include hx

/-! ### FENCE -/

section
variable {id v k : Nat} (h : s.headOf c .me = some (.body (.fence id v) k))
include h

/-- A FENCE stays at the head while its engine has work outstanding. -/
theorem exec_fence_waits (hw : ∃ w ∈ (s.core c).work, w.1 = .me) : exec (.fence c) s = .next s := by
  have hwork : ((s.core c).work.any fun w => w.1 == .me) = true := by simpa using hw
  simp only [exec_fence, execFence, h, hx, hwork, if_true]

/-- A FENCE with no work of its engine before it is taken, and signals where its context may. -/
theorem exec_fence_taken (hw : ∀ w ∈ (s.core c).work, w.1 ≠ .me) :
    exec (.fence c) s = .next (if (s.take c .me).maySignal x id = true then (s.take c .me).signalFor id v ((s.take c .me).launchFence c)
      else (s.take c .me).failEntry c 0x6004) := by
  have hwork : ((s.core c).work.any fun w => w.1 == .me) = false := any_eq_false_of_forall fun w hmem => beq_eq_false_iff_ne.mpr (hw w hmem)
  simp only [exec_fence, execFence, h, hx, hwork, Bool.false_eq_true, if_false]

end

/-! ### TRANSFER_COMPLETE -/

section
variable {slot : Nat} {v : Xfer} (hv : s.xfer c slot = some v)
include hv

/-- A transfer that waits for something goes on. -/
theorem exec_transferComplete_busy (hq : v.quiet = false) : exec (.transferComplete c slot) s = .next s := by
  simp [exec_transferComplete, execTransferComplete, hv, hx, hq]

/-- A transfer with no token to send ends. -/
theorem exec_transferComplete_tokenless (hq : v.quiet = true) (ht : v.tokenDue = none) :
    exec (.transferComplete c slot) s = .next (s.guarded (s.endXfer c slot x v)) := by
  simp [exec_transferComplete, execTransferComplete, hv, hx, hq, ht]

section
variable {rank ch kind : Nat} (hq : v.quiet = true) (ht : v.tokenDue = some (rank, ch, kind))
include hq ht

/-- A token waits for the earlier work of its engine. -/
theorem exec_transferComplete_tokenWaits (hw : ∃ w ∈ (s.core c).work, w.1 = .me ∧ w.2 < v.work) :
    exec (.transferComplete c slot) s = .next s := by
  have hwork : ((s.core c).work.any fun w => w.1 == .me && decide (w.2 < v.work)) = true := by simpa using hw
  simp only [exec_transferComplete, execTransferComplete, hv, hx, hq, ht, hwork, Bool.not_true, Bool.false_eq_true, if_true, if_false,
    State.guarded_self]

/-- A token that goes out: to a channel of this device, or to its node. -/
theorem exec_transferComplete_token (hw : ∀ w ∈ (s.core c).work, w.1 = .me → v.work ≤ w.2) :
    exec (.transferComplete c slot) s =
      let s0 := s.modXfer c slot fun y => { y with tokenSent := true }
      let r := s0.deliverToken x rank ch
      .next (s.guarded (if kind = 0 then (if r.2 then r.1 else r.1.xferError c slot 0x7003).endXfer c slot x v
        else s0.sendFor c slot
          ⟨v.insn.node s.pins.strapTray, .token, some (c, slot), x, none, s.jobId x, tokenAddr rank ch, [], 0, false, 0, none⟩)) := by
  have hwork : ((s.core c).work.any fun w => w.1 == .me && decide (w.2 < v.work)) = false :=
    any_eq_false_of_forall fun w hmem => by simpa using hw w hmem
  simp only [exec_transferComplete, execTransferComplete, hv, hx, hq, ht, hwork, Bool.not_true, Bool.false_eq_true, if_false]

end
end
end

/-- Settles O14: a FENCE by whether its engine has work and its context may signal; a transfer by what it still waits for and, with a token
due, by whether the token may go out and where to. -/
theorem fencesAndTransfersEnd : Obligations.FencesAndTransfersEnd := by
  intro s c x hx
  refine ⟨fun id v k h => ⟨exec_fence_waits hx h, fun hw => ?fence⟩,
    fun slot v hv => ⟨exec_transferComplete_busy hx hv, exec_transferComplete_tokenless hx hv, fun rank ch kind hq ht =>
      ⟨exec_transferComplete_tokenWaits hx hv hq ht, fun hw => ?token⟩⟩⟩
  case fence =>
    rw [exec_fence_taken hx h hw]
    exact ⟨fun hm => congrArg _ (if_pos hm), fun hm => congrArg _ (if_neg (Bool.eq_false_iff.mp hm))⟩
  case token =>
    rw [exec_transferComplete_token hx hv hq ht hw]
    exact ⟨fun hk hr => by simp only [hk, hr, if_true], fun hk hr => by simp only [hk, hr, if_true, Bool.false_eq_true, if_false],
      fun hk => by simp only [hk, if_false]⟩

end Sys2Proof.Machine
end

section
/-! PROOFS. Copies and hints at the move engine's head (R143, R202, R242, R287, R289 to R291, R298, R301, R302, R315, R319, R390, R392). -/

namespace Sys2Proof.Machine

open Sys2Proof

theorem exec_copy (c : Nat) (err : CoreErr) (s : State) : exec (.copy c err) s = execCopy c err s := rfl
theorem exec_copyRemote (c : Nat) (err : CoreErr) (s : State) : exec (.copyRemote c err) s = execCopyRemote c err s := rfl

/-- An entry of the command's kind at the head, with a slot free, is taken and runs. -/
theorem State.takeMove_ready {s : State} {c x slot : Nat} {i : Insn} (h : MoveReady s c i x slot) {sel : Insn → Bool} (hs : sel i = true)
    (run : State → Nat → Nat → Insn → State) : s.takeMove c sel run = run (s.take c .me) x slot i := by
  obtain ⟨⟨k, hhead⟩, hctx, hfree⟩ := h
  simp only [State.takeMove, hhead, hctx, hs, hfree, if_true]

/-- Where the engine's own checks report nothing, the entry runs. -/
theorem State.withErr_none (s : State) (c slot : Nat) (f : State → State) : s.withErr c slot .none f = f s := by
  simp [State.withErr, State.coreErr]

/-! ### COPY -/

section
variable {s : State} {c x slot : Nat} {err : CoreErr}

section
variable {src dst mx : Nat} (h : MoveReady s c (.copy src dst mx) x slot)
include h

/-- A copy whose checks pass starts its transfer, unless the checks of core memory stop it. -/
theorem exec_copy_planned {sd dd : Desc} {sc : List Desc} (hp : (s.take c .me).planCopy c x src dst mx = .ok (sd :: dd :: sc)) :
    exec (.copy c err) s = .next (s.guarded ((s.take c .me).withErr c slot err fun u =>
      (u.startXfer c x slot .copy (.copy src dst mx) (sd :: dd :: sc) (u.copyTodo c x mx sd sc)).settleXfer c slot)) := by
  simp only [exec_copy, execCopy, State.takeMove_ready h (sel := Insn.isCopy) rfl, hp]

/-- A copy that fails a check ends with its code. -/
theorem exec_copy_failed {e : Nat} (hp : (s.take c .me).planCopy c x src dst mx = .error e) :
    exec (.copy c err) s = .next (s.guarded ((s.take c .me).failEntry c e)) := by
  simp only [exec_copy, execCopy, State.takeMove_ready h (sel := Insn.isCopy) rfl, hp]

end

/-! ### COPY_REMOTE -/

section
variable {src dst rank sl node kind ch fh : Nat} {tok flag : Bool}
  (h : MoveReady s c (.copyRemote src dst rank sl node kind ch tok flag fh) x slot)
include h

/-- A remote copy of this device is taken like a copy (R392). -/
theorem exec_copyRemote_own (hk : kind = 0) :
    exec (.copyRemote c err) s = .next (s.guarded ((s.take c .me).withErr c slot err fun u =>
      (u.takeOwn c x slot (.copyRemote src dst rank sl node kind ch tok flag fh) src dst rank).settleXfer c slot)) := by
  simp only [exec_copyRemote, execCopyRemote, State.takeMove_ready h (sel := Insn.isRemote) rfl, if_pos hk]

/-- A remote copy to a node that this grade reaches asks for its target's descriptor. -/
theorem exec_copyRemote_far (hk : kind = 1 ∨ kind = 2 ∧ (s.take c .me).ident.grade = .full) :
    exec (.copyRemote c err) s = .next (s.guarded ((s.take c .me).withErr c slot err fun u =>
      u.takeRemote c x slot (.copyRemote src dst rank sl node kind ch tok flag fh) src dst rank)) := by
  have hfar : kind ≠ 0 := by omega
  have hreach : ¬(kind ≠ 1 ∧ (s.take c .me).ident.grade = .tray) := by
    rintro ⟨hne, htray⟩
    obtain hk | ⟨-, hfull⟩ := hk
    · exact hne hk
    · exact absurd (hfull.symm.trans htray) (by decide)
  simp only [exec_copyRemote, execCopyRemote, State.takeMove_ready h (sel := Insn.isRemote) rfl, if_neg hfar, if_neg hreach]

/-- A remote copy out of the tray on a device of the tray grade reaches an absent unit (R319). -/
theorem exec_copyRemote_absent (hk : kind = 2) (hg : (s.take c .me).ident.grade = .tray) :
    exec (.copyRemote c err) s = .next (s.guarded (((s.take c .me).bump (offLr 0x30) 1).failEntry c 0x9010)) := by
  have hfar : kind ≠ 0 := by omega
  have habsent : kind ≠ 1 ∧ (s.take c .me).ident.grade = .tray := ⟨by omega, hg⟩
  simp only [exec_copyRemote, execCopyRemote, State.takeMove_ready h (sel := Insn.isRemote) rfl, if_neg hfar, if_pos habsent]
  rfl

end

end

/-! ### HINT -/

/-- What a hint does with its descriptor and the lines of its range. -/
abbrev HintRun : Type := State → Nat → Nat → Insn → Desc → List (Nat × Nat × Nat × Nat) → State

/-- A hint of a kind at the head: taken, and run on the lines of its range, or ended with the code that its range fails with. -/
def State.takeHint (s : State) (c k : Nat) (run : HintRun) : State :=
  s.takeMove c (Insn.isHint k) fun t x slot i => match i with
    | .hint h _ => match t.hintLines c x h with
      | .error e => t.failEntry c e
      | .ok (d, l) => run t x slot i d l
    | _ => t

section
variable {s : State} {c x slot n k : Nat} {run : HintRun} (h : MoveReady s c (.hint n k) x slot)
include h

theorem State.takeHint_failed {e : Nat} (hl : (s.take c .me).hintLines c x n = .error e) :
    s.takeHint c k run = (s.take c .me).failEntry c e := by
  simp only [State.takeHint, State.takeMove_ready h (sel := Insn.isHint k) (beq_self_eq_true k), hl]

theorem State.takeHint_mapped {d : Desc} {l : List (Nat × Nat × Nat × Nat)} (hl : (s.take c .me).hintLines c x n = .ok (d, l)) :
    s.takeHint c k run = run (s.take c .me) x slot (.hint n k) d l := by
  simp only [State.takeHint, State.takeMove_ready h (sel := Insn.isHint k) (beq_self_eq_true k), hl]

end

theorem exec_hintPrefetch (c : Nat) (s : State) :
    exec (.hintPrefetch c) s = .next (s.takeHint c 0 fun t x slot i d l =>
      (t.startXfer c x slot .hint i [d] (if d.policy = 2 then [] else t.fetchLines (if d.policy = 1 then 1 else 0) l)).moved c slot) := rfl

/-- A pin whose result field may be written: the caps of its partitions taken, and its lines pinned in turn (R302). -/
def State.pinHint (t : State) (c x slot : Nat) (i : Insn) (d : Desc) (l : List (Nat × Nat × Nat × Nat)) : State :=
  let t1 := (l.foldl (fun ps e => addNew ps e.1) []).foldl (fun (u : State) p => u.adoptCap p) t
  let r := l.foldl (fun (u : State × List Todo) e => u.1.pinLine u.2 e) (t1, [])
  (r.1.startXfer c x slot .hint i [d] r.2).moved c slot

theorem exec_hintPin (c : Nat) (s : State) :
    exec (.hintPin c) s = .next (s.guarded (s.takeHint c 1 fun t x slot i d l =>
      match (if d.statsOff = 0 then none else t.vaCheck c x d.statsBase 8 false true) with
      | some e => t.failEntry c e
      | none => t.pinHint c x slot i d l)) := rfl

theorem exec_hintUnpin (c : Nat) (s : State) :
    exec (.hintUnpin c) s = .next (s.takeHint c 2 fun t x slot i d l =>
      ((t.modLines fun tab => l.foldl (fun w e => upd w e.2.1 fun y => { y with pinned := false }) tab).startXfer
        c x slot .hint i [d] []).moved c slot) := rfl

theorem exec_hintDead (c : Nat) (s : State) :
    exec (.hintDead c) s = .next (s.takeHint c 3 fun t x slot i d l =>
      (((l.filter fun e => e.2.2.1 == 0 && e.2.2.2 == 128).foldl (fun u e => u.deadLine e.1 e.2.1) t).startXfer
        c x slot .hint i [d] []).moved c slot) := rfl

/-- Settles O12: copies by the outcome of their checks, where without an error of core memory the engine's own checks let them run
(`State.withErr_none`); hints by whether their range maps (`State.takeHint_mapped`), a pin also by whether its result field may be written. -/
theorem copiesAndHintsAct : Obligations.CopiesAndHintsAct := by
  refine ⟨fun s c x slot i err h => ⟨fun src dst mx hi => ?copy, fun src dst rank sl node kind ch tok flag fh hi => ?remote⟩,
    fun s c x slot n k h => ⟨fun e hl => ?failed, fun d l hl => ⟨?prefetch, fun e hk hs hv => ?unwritable, fun hk hv => ?pin, ?unpin,
      ?dead⟩⟩⟩
  case copy =>
    subst hi
    refine ⟨fun sd dd sc hp => ⟨fun he => ?_, exec_copy_planned h hp⟩, fun e hp => exec_copy_failed h hp⟩
    rw [he, exec_copy_planned h hp, State.withErr_none]
  case remote =>
    subst hi
    refine ⟨fun hk => ⟨exec_copyRemote_own h hk, ?_⟩, fun hk => ⟨exec_copyRemote_far h hk, ?_⟩, exec_copyRemote_absent h⟩
    · rw [exec_copyRemote_own h hk, State.withErr_none]
    · rw [exec_copyRemote_far h hk, State.withErr_none]
  case failed =>
    refine ⟨?_, ?_, ?_, ?_⟩ <;> rintro rfl
    · rw [exec_hintPrefetch, State.takeHint_failed h hl]
    · rw [exec_hintPin, State.takeHint_failed h hl]
    · rw [exec_hintUnpin, State.takeHint_failed h hl]
    · rw [exec_hintDead, State.takeHint_failed h hl]
  case prefetch =>
    rintro rfl
    rw [exec_hintPrefetch, State.takeHint_mapped h hl]
  case unwritable =>
    subst hk
    rw [exec_hintPin, State.takeHint_mapped h hl]
    simp only [if_neg hs, hv]
  case pin =>
    subst hk
    have hcheck : (if d.statsOff = 0 then none else (s.take c .me).vaCheck c x d.statsBase 8 false true) = none := by
      split
      next => rfl
      next hs => exact hv hs
    rw [exec_hintPin, State.takeHint_mapped h hl]
    simp only [hcheck]
    rfl
  case unpin =>
    rintro rfl
    rw [exec_hintUnpin, State.takeHint_mapped h hl]
  case dead =>
    rintro rfl
    rw [exec_hintDead, State.takeHint_mapped h hl]

end Sys2Proof.Machine
end

section
/-! PROOFS. Packets as they arrive, and the head of a queue (R154, R334, R336, R337, R338, R366, R564). -/

namespace Sys2Proof.Machine

open Sys2Proof

theorem exec_packetArrival (port : Nat) (bytes : List Byte) (s : State) :
    exec (.packetArrival port bytes) s = execPacketArrival port bytes s := rfl
theorem exec_packetHead (port q : Nat) (s : State) : exec (.packetHead port q) s = execPacketHead port q s := rfl

/-! ### PACKET_ARRIVAL -/

section
variable {s : State} {port : Nat} {bytes : List Byte}

/-- A port that is down takes nothing, and bytes that are no whole packet leave the state as it is. -/
theorem exec_packetArrival_none (h : 4 ≤ port ∨ (s.port port).up = false ∨ wholePacket bytes = false) :
    exec (.packetArrival port bytes) s = .next s := by
  have hno : (decide (4 ≤ port) || !(s.port port).up || !wholePacket bytes) = true := by
    simpa only [Bool.or_eq_true, decide_eq_true_eq, Bool.not_eq_true', or_assoc] using h
  simp only [exec_packetArrival, execPacketArrival, hno, if_true]

section
variable (hp : port < 4) (hu : (s.port port).up = true) (hw : wholePacket bytes = true)
include hp hu hw

theorem arrives_whole : ¬((decide (4 ≤ port) || !(s.port port).up || !wholePacket bytes) = true) := by
  simp [hu, hw, hp]

/-- A packet that names no queue is rejected. -/
theorem exec_packetArrival_noQueue (hq : s.queue port (parsePacket bytes).queue = none) :
    exec (.packetArrival port bytes) s = .next (s.rejectPacket port (parsePacket bytes)) := by
  simp only [exec_packetArrival, execPacketArrival, if_neg (arrives_whole hp hu hw), hq]

/-- A packet for a queue is rejected where it is not trusted, dropped where the queue is full, and else queued. -/
theorem exec_packetArrival_queue {k : SubQueue} (hq : s.queue port (parsePacket bytes).queue = some k) :
    exec (.packetArrival port bytes) s = .next
      (if (!s.packetTrusted port k (parsePacket bytes)) = true then s.rejectPacket port (parsePacket bytes)
      else if k.depth ≤ k.packets.length then s.dropPacket port k (parsePacket bytes)
      else (s.setQueue port (parsePacket bytes).queue { k with packets := k.packets ++ [parsePacket bytes] }).bump (offBl port 0x60) 1) := by
  simp only [exec_packetArrival, execPacketArrival, if_neg (arrives_whole hp hu hw), hq]

end
end

/-! ### PACKET_HEAD -/

/-- The head packet fails with a code: consumed, and what its fence's error wakes. -/
def State.headFails (s : State) (key : Nat) (k : SubQueue) (code : Nat) (prop : Bool) (detail : Nat) : State :=
  (s.failHead key k code prop detail).1.wake (s.failHead key k code prop detail).2

section
variable {s : State} {port q : Nat} {k : SubQueue} {p : Packet} {rest : List Packet}

/-- The number of a queue in the table names its port and its queue id. -/
theorem queueKey_div (port : Nat) (h : q < 8192) : (port * 8192 + q) / 8192 = port := by omega
theorem queueKey_mod (port : Nat) (h : q < 8192) : (port * 8192 + q) % 8192 = q := by omega

/-- A packet with its wait met starts to run where it may. -/
theorem State.runHead_runs (hq : q < 8192) (hb : s.packetBar port q p = none) :
    s.runHead (port * 8192 + q) k p = (s.startHead (port * 8192 + q) k, []) := by
  simp only [State.runHead, queueKey_div port hq, queueKey_mod port hq, hb]

/-- A packet with its wait met fails with the code for which it may not run. -/
theorem State.runHead_barred (hq : q < 8192) {code : Nat} (hb : s.packetBar port q p = some code) :
    s.runHead (port * 8192 + q) k p = s.failHead (port * 8192 + q) k code false 0 := by
  simp only [State.runHead, queueKey_div port hq, queueKey_mod port hq, hb]

section
variable {key : Nat}

theorem State.headWait_free (hw : p.waitEn = false) : s.headWait key k p = (s.runHead key k p).1.wake (s.runHead key k p).2 := by
  simp [State.headWait, hw]

/-- A packet that may not wait on its wait fence, or whose wait fence does not exist, fails with FENCE_ACCESS. -/
theorem State.headWait_denied (hw : p.waitEn = true) (hm : s.mayWait (packetCtx k p) p.waitId = false) :
    s.headWait key k p = s.headFails key k 0x6004 false 0 := by
  rw [State.mayWait] at hm
  cases hf : s.fence p.waitId with
  | none => simp [State.headWait, State.headFails, hw, hf]
  | some f =>
    rw [hf] at hm
    simp only [State.headWait, State.headFails, hw, hf, hm, if_true, Bool.not_false]

section
variable {f : Fence} (hw : p.waitEn = true) (hf : s.fence p.waitId = some f) (hm : f.mayWait (packetCtx k p) = true)
include hw hf hm

/-- A packet whose wait fence is in the error state fails with its code as detail (R366). -/
theorem State.headWait_error (he : f.err ≠ 0) :
    s.headWait key k p = s.headFails key k 0x6003 true (p.waitId + f.err * 2 ^ 32) := by
  simp only [State.headWait, State.headFails, depDetail, hw, hf, hm, he, if_true, Bool.not_true, Bool.false_eq_true, if_false, ne_eq,
    not_false_eq_true]

theorem State.headWait_unmet (he : f.err = 0) (hv : f.value.toNat < p.waitValue) :
    s.headWait key k p = s.setQueue (key / 8192) (key % 8192) { k with headWaits := true } := by
  simp [State.headWait, hw, hf, hm, he, hv]

theorem State.headWait_met (he : f.err = 0) (hv : p.waitValue ≤ f.value.toNat) :
    s.headWait key k p = (s.runHead key k p).1.wake (s.runHead key k p).2 := by
  simp [State.headWait, hw, hf, hm, he, hv]

end
end

/-! The head of a queue that runs none. -/

section
variable (hk : s.queue port q = some k) (hp : k.packets = p :: rest) (hr : k.running = none)
include hk hp hr

/-- A head that waits goes on waiting. -/
theorem exec_packetHead_waits (hw : k.headWaits = true) : exec (.packetHead port q) s = .next s := by
  simp only [exec_packetHead, execPacketHead, hk, hp, hr, hw, if_true]

/-- A head that does not wait is put to its checks in turn: its context's port, its fence, its wait. -/
theorem exec_packetHead_checked (hw : k.headWaits = false) :
    exec (.packetHead port q) s = .next
      (if (k.owner.isNone && (p.fenceEn || p.waitEn) && !s.onPort port (packetCtx k p)) = true then s.headDenied (port * 8192 + q) k p 0x600B
      else if (p.fenceEn && !s.maySignal (packetCtx k p) p.fenceId) = true then s.headDenied (port * 8192 + q) k p 0x6004
      else s.headWait (port * 8192 + q) k p) := by
  simp only [exec_packetHead, execPacketHead, hk, hp, hr, hw, Bool.false_eq_true, if_false]

end
end

section
variable (s : State) (port : Nat) (k : SubQueue) (p : Packet)

/-- On a port's own queue, a packet with a fence whose context is of another port (R337). -/
theorem stranger_iff : (k.owner.isNone && (p.fenceEn || p.waitEn) && !s.onPort port (packetCtx k p)) = true ↔
    k.owner = none ∧ (p.fenceEn = true ∨ p.waitEn = true) ∧ s.ctxPort (packetCtx k p) ≠ some port := by
  simp [State.onPort, and_assoc]

/-- A packet that may not signal its fence (R338). -/
theorem denied_iff : (p.fenceEn && !s.maySignal (packetCtx k p) p.fenceId) = true ↔
    p.fenceEn = true ∧ s.maySignal (packetCtx k p) p.fenceId = false := by
  simp

end

/-- Settles O19: an arrival by the checks of its port and queue, and a head by the three checks of `exec_packetHead_checked`, the third
being its wait (`State.headWait`). -/
theorem packetsArriveAndStart : Obligations.PacketsArriveAndStart := by
  intro s port
  refine ⟨fun bytes => exec_packetArrival_none, fun bytes hp hu hw => exec_packetArrival_noQueue hp hu hw,
    fun bytes k hp hu hw hq => ?arrives, fun q k p rest hk hp hr hq => ⟨exec_packetHead_waits hk hp hr, fun hw hs => ?stranger,
      fun hw hs hd => ?denied, fun hw hs hd => ?admitted⟩⟩
  case arrives =>
    rw [exec_packetArrival_queue hp hu hw hq]
    exact ⟨fun ht hl => by rw [if_neg (by simp [ht]), if_neg (Nat.not_le.mpr hl)], fun ht hl => by rw [if_neg (by simp [ht]), if_pos hl],
      fun ht => by rw [if_pos (by simp [ht])]⟩
  case stranger =>
    rw [exec_packetHead_checked hk hp hr hw, if_pos ((stranger_iff ..).mpr hs), State.headDenied, queueKey_mod port hq]
    rfl
  case denied =>
    rw [exec_packetHead_checked hk hp hr hw, if_neg (mt (stranger_iff ..).mp hs), if_pos ((denied_iff ..).mpr hd), State.headDenied,
      queueKey_mod port hq]
    rfl
  case admitted =>
    rw [exec_packetHead_checked hk hp hr hw, if_neg (mt (stranger_iff ..).mp hs), if_neg (mt (denied_iff ..).mp hd)]
    refine ⟨fun hn hb => ?_, fun code hn hb => ?_, fun f hn hf hm he => ⟨fun hv => ?_, fun hv hb => ?_, fun code hv hb => ?_⟩,
      fun f hn hf hm he => congrArg _ (State.headWait_error hn hf hm he), fun hn hm => congrArg _ (State.headWait_denied hn hm)⟩
    · rw [State.headWait_free hn, State.runHead_runs hq hb]
    · rw [State.headWait_free hn, State.runHead_barred hq hb]
    · rw [State.headWait_unmet hn hf hm he hv, queueKey_div port hq, queueKey_mod port hq]
    · rw [State.headWait_met hn hf hm he hv, State.runHead_runs hq hb]
    · rw [State.headWait_met hn hf hm he hv, State.runHead_barred hq hb]

end Sys2Proof.Machine
end

section
/-! PROOFS. Cores and dies as they gate and wake (R151, R152, R475 to R477, R485 to R487). -/

namespace Sys2Proof.Machine

open Sys2Proof

theorem exec_clockGate (c : Nat) (s : State) : exec (.clockGate c) s = execClockGate c s := rfl
theorem exec_powerGate (c : Nat) (s : State) : exec (.powerGate c) s = execPowerGate c s := rfl
theorem exec_coreWakeRequest (c : Nat) (s : State) : exec (.coreWakeRequest c) s = execCoreWakeRequest c s := rfl
theorem exec_rampAdmitted (c : Nat) (s : State) : exec (.rampAdmitted c) s = execRampAdmitted c s := rfl
theorem exec_coreWakeDone (c : Nat) (ok : Bool) (s : State) : exec (.coreWakeDone c ok) s = execCoreWakeDone c ok s := rfl
theorem exec_dieGate (d : Nat) (s : State) : exec (.dieGate d) s = execDieGate d s := rfl
theorem exec_dieWakeRequest (d : Nat) (s : State) : exec (.dieWakeRequest d) s = execDieWakeRequest d s := rfl
theorem exec_dieWakeDone (d : Nat) (s : State) : exec (.dieWakeDone d) s = execDieWakeDone d s := rfl

/-! ### Dies and registers after an update of something else -/

section
variable (s : State)

@[simp] theorem State.die_modCore (c d : Nat) (f : Core → Core) : (s.modCore c f).die d = s.die d := rfl
@[simp] theorem State.die_bump (o n d : Nat) : (s.bump o n).die d = s.die d := rfl
-- `(rfl)`: `simp` is to rewrite by it and not to reduce, which the kernel would check by unfolding the tables.
@[simp] theorem State.core_modDie (d c : Nat) (f : Die → Die) : (s.modDie d f).core c = s.core c := (rfl)
@[simp] theorem State.core_bump (o n c : Nat) : (s.bump o n).core c = s.core c := rfl
@[simp] theorem State.reg_modCore (c o : Nat) (f : Core → Core) : (s.modCore c f).reg o = s.reg o := rfl

end

/-! ### The thresholds and the spread that a die takes (R485, R487) -/

section
variable (s : State) (c d : Nat)

theorem State.adoptIdle_eq : s.adoptIdle c = { s with pwr := (s.adoptIdle c).pwr } := by
  unfold State.adoptIdle
  split_ifs <;> rfl

theorem State.adoptSpread_eq : s.adoptSpread d = { s with pwr := (s.adoptSpread d).pwr } := by
  unfold State.adoptSpread
  split_ifs <;> rfl

@[simp] theorem State.adoptIdle_objs : (s.adoptIdle c).objs = s.objs := by rw [State.adoptIdle_eq]
@[simp] theorem State.adoptIdle_seqs : (s.adoptIdle c).seqs = s.seqs := by rw [State.adoptIdle_eq]
@[simp] theorem State.adoptIdle_mem : (s.adoptIdle c).mem = s.mem := by rw [State.adoptIdle_eq]
@[simp] theorem State.adoptIdle_regs : (s.adoptIdle c).regs = s.regs := by rw [State.adoptIdle_eq]
@[simp] theorem State.adoptSpread_objs : (s.adoptSpread d).objs = s.objs := by rw [State.adoptSpread_eq]
@[simp] theorem State.adoptSpread_seqs : (s.adoptSpread d).seqs = s.seqs := by rw [State.adoptSpread_eq]
@[simp] theorem State.adoptSpread_mem : (s.adoptSpread d).mem = s.mem := by rw [State.adoptSpread_eq]
@[simp] theorem State.adoptSpread_regs : (s.adoptSpread d).regs = s.regs := by rw [State.adoptSpread_eq]

theorem State.core_adoptIdle (x : Nat) : (s.adoptIdle c).core x = s.core x := by rw [State.adoptIdle_eq]; rfl
theorem State.core_adoptSpread (x : Nat) : (s.adoptSpread d).core x = s.core x := by rw [State.adoptSpread_eq]; rfl

/-- A core's idle thresholds as registers state them, in one number (R487). -/
def State.idleThresholds (s : State) (c : Nat) : Nat :=
  max 1 (fld (s.written (offPgDie (c / 68) 0)) 0 8) + 256 * clamp 4 24 (fld (s.written (offPgDie (c / 68) 0)) 8 5)

/-- A core that goes idle keeps the thresholds that it has, or takes those that were written. -/
theorem State.die_adoptIdle :
    ∃ l, (s.adoptIdle c).die (c / 68) = { s.die (c / 68) with idles := l } ∧
      look l c = some (lookD (s.die (c / 68)).idles c (s.idleThresholds c)) := by
  by_cases h : (look (s.die (c / 68)).idles c).isSome = true
  · obtain ⟨v, hv⟩ := Option.isSome_iff_exists.mp h
    exact ⟨(s.die (c / 68)).idles, by simp only [State.adoptIdle, if_pos h], by rw [lookD, hv, Option.getD_some]⟩
  · have hn := Option.not_isSome_iff_eq_none.mp h
    refine ⟨put (s.die (c / 68)).idles c (s.idleThresholds c), ?_, by rw [look_put_self, lookD, hn, Option.getD_none]⟩
    simp only [State.adoptIdle, if_neg h]
    exact State.die_modDie_self ..

theorem State.die_adoptIdle_ne {e : Nat} (h : e ≠ c / 68) : (s.adoptIdle c).die e = s.die e := by
  unfold State.adoptIdle
  split_ifs
  · rfl
  · exact s.die_modDie_ne _ h

/-- The spread taken changes nothing else of its die. -/
theorem State.die_adoptSpread : ∃ n, (s.adoptSpread d).die d = { s.die d with spread := n } := by
  unfold State.adoptSpread
  split_ifs
  · exact ⟨_, State.die_modDie_self ..⟩
  · exact ⟨_, rfl⟩

theorem State.die_adoptSpread_ne {e : Nat} (h : e ≠ d) : (s.adoptSpread d).die e = s.die e := by
  unfold State.adoptSpread
  split_ifs
  · exact s.die_modDie_ne _ h
  · rfl

/-! ### The idle period of a die (R477, R487) -/

theorem State.adopt_eq (o lo w : Nat) : s.adopt o lo w = { s with regs := (s.adopt o lo w).regs } := by
  unfold State.adopt
  split <;> rfl

theorem State.reg_adopt_ne {o r : Nat} (lo w : Nat) (h : r ≠ o) : (s.adopt o lo w).reg r = s.reg r := by
  unfold State.adopt
  split
  · rfl
  · exact s.reg_setReg_ne _ h

theorem State.startDieIdle_eq : s.startDieIdle d = { s with regs := (s.startDieIdle d).regs } := by
  unfold State.startDieIdle
  split_ifs
  · rw [State.adopt_eq]
  · rfl

@[simp] theorem State.startDieIdle_cores : (s.startDieIdle d).cores = s.cores := by rw [State.startDieIdle_eq]
@[simp] theorem State.startDieIdle_objs : (s.startDieIdle d).objs = s.objs := by rw [State.startDieIdle_eq]
@[simp] theorem State.startDieIdle_seqs : (s.startDieIdle d).seqs = s.seqs := by rw [State.startDieIdle_eq]
@[simp] theorem State.startDieIdle_mem : (s.startDieIdle d).mem = s.mem := by rw [State.startDieIdle_eq]
@[simp] theorem State.startDieIdle_cache : (s.startDieIdle d).cache = s.cache := by rw [State.startDieIdle_eq]
@[simp] theorem State.startDieIdle_pwr : (s.startDieIdle d).pwr = s.pwr := by rw [State.startDieIdle_eq]

theorem State.core_startDieIdle (x : Nat) : (s.startDieIdle d).core x = s.core x := by rw [State.core, State.startDieIdle_cores, State.core]
theorem State.die_startDieIdle (e : Nat) : (s.startDieIdle d).die e = s.die e := by rw [State.die, State.startDieIdle_pwr, State.die]

/-- An idle period that starts takes its thresholds in one register of its die. -/
theorem State.reg_startDieIdle_ne {r : Nat} (h : r ≠ offPgDie d 0) : (s.startDieIdle d).reg r = s.reg r := by
  unfold State.startDieIdle
  split_ifs
  · exact s.reg_adopt_ne _ _ h
  · rfl

end

/-! ### Gating of a core -/

section
variable {s : State} {c : Nat}

/-- The guard of CLOCK_GATE: an enabled core that runs, has nothing to do, and is not being saved (R151, R475). -/
def State.mayClockGate (s : State) (c : Nat) : Prop :=
  s.kind c = .enabled ∧ (s.core c).clk = .running ∧ (s.core c).waking = false ∧ (s.core c).idleNow = true ∧ s.coreSaving c = false

theorem clockGate_guard (hc : c < 1088) (ha : s.alive = true) :
    (decide (1088 ≤ c) || !s.alive || s.kind c != .enabled || (s.core c).clk != .running || (s.core c).waking || !(s.core c).idleNow ||
      s.coreSaving c) = true ↔ ¬s.mayClockGate c := by
  simp only [State.mayClockGate, ha, Nat.not_le.mpr hc, decide_false, Bool.not_true, Bool.false_or, Bool.or_eq_true, bne_iff_ne,
    Bool.not_eq_true', not_and_or, Bool.not_eq_true, Bool.not_eq_false, or_assoc, ne_eq]

/-- A core that may not be gated keeps its clocks. -/
theorem exec_clockGate_stays (hc : c < 1088) (ha : s.alive = true) (h : ¬s.mayClockGate c) : exec (.clockGate c) s = .next s := by
  rw [exec_clockGate, execClockGate]
  exact congrArg _ (if_pos ((clockGate_guard hc ha).mpr h))

/-- A core that may be gated takes its idle thresholds and stops its clocks; its die may take a spread. -/
theorem exec_clockGate_gates (hc : c < 1088) (ha : s.alive = true) (h : s.mayClockGate c) :
    exec (.clockGate c) s =
      .next (((s.adoptIdle c).modCore c fun k => { k with clk := .clockGated }).adoptSpread (c / 68)) := by
  rw [exec_clockGate, execClockGate]
  exact congrArg _ (if_neg fun hg => (clockGate_guard hc ha).mp hg h)

theorem exec_powerGate_gates (hc : c < 1088) (ha : s.alive = true) (hk : (s.core c).clk = .clockGated) (hw : (s.core c).waking = false) :
    exec (.powerGate c) s = .next ((s.modCore c fun k => { k with clk := .powerGated }).startDieIdle (c / 68)) := by
  simp [exec_powerGate, execPowerGate, ha, Nat.not_le.mpr hc, hk, hw]

/-! ### Waking of a core -/

theorem exec_coreWakeRequest_dieAwake (hc : c < 1088) (ha : s.alive = true) (hk : (s.core c).clk ≠ .running)
    (hd : (s.die (c / 68)).gated = false) : exec (.coreWakeRequest c) s = .next (s.wakeCore c) := by
  simp [exec_coreWakeRequest, execCoreWakeRequest, ha, Nat.not_le.mpr hc, hk, hd]

theorem exec_coreWakeRequest_dieGated (hc : c < 1088) (ha : s.alive = true) (hk : (s.core c).clk ≠ .running)
    (hd : (s.die (c / 68)).gated = true) :
    exec (.coreWakeRequest c) s =
      .next ((s.wakeDie (c / 68)).modDie (c / 68) fun k => { k with coreReqs := addNew k.coreReqs c }) := by
  simp [exec_coreWakeRequest, execCoreWakeRequest, ha, Nat.not_le.mpr hc, hk, hd]

/-- A clock-gated core wakes at once (R475). -/
theorem State.wakeCore_clockGated (hk : (s.core c).clk = .clockGated) (hw : (s.core c).waking = false) :
    s.wakeCore c = ((s.bump (offZs c 0x58) 1).bump (offPgDie (c / 68) 0x20) 1).modCore c fun k => { k with waking := true } := by
  simp [State.wakeCore, hk, hw]

/-- A power-gated core waits for one of its die's ramps (R476). -/
theorem State.wakeCore_powerGated (hk : (s.core c).clk = .powerGated) (hw : (s.core c).waking = false) :
    s.wakeCore c = (((s.bump (offZs c 0x58) 1).bump (offPgDie (c / 68) 0x28) 1).modCore c fun k =>
      { k with waking := true, rampPhase := 1 }).modDie (c / 68) fun k => { k with rampWait := k.rampWait ++ [c] } := by
  simp [State.wakeCore, hk, hw]

theorem exec_rampAdmitted_first {w : List Nat} (ha : s.alive = true) (hw : (s.die (c / 68)).rampWait = c :: w)
    (hr : s.ramps (c / 68) < 8) :
    exec (.rampAdmitted c) s = .next ((s.modDie (c / 68) fun k => { k with rampWait := k.rampWait.drop 1 }).modCore c fun k =>
      { k with rampPhase := 2 }) := by
  simp [exec_rampAdmitted, execRampAdmitted, ha, hw, Nat.not_le.mpr hr]

/-- All 8 ramps of a die taken, no wake gets one. -/
theorem exec_rampAdmitted_full (hr : 8 ≤ s.ramps (c / 68)) : exec (.rampAdmitted c) s = .next s := by
  simp [exec_rampAdmitted, execRampAdmitted, hr]

/-- A core with its clocks on, its wake over and its wake port empty. -/
def Core.awake (k : Core) : Core := { k with clk := .running, waking := false, rampPhase := 0, held := [] }

/-- The tensor units of a core at rest (R122). -/
def State.restUnits (s : State) (c : Nat) : State :=
  { s with te := s.te.map fun (e : Nat × TeUnitSt) =>
      if e.1 / 128 = c then (e.1, { e.2 with rate := 0, credit := 0, ready := false }) else e }

/-- The units of a core at rest issue nothing. -/
theorem State.restUnits_rest {u : Nat} {v : TeUnitSt} (hu : u / 128 = c) (h : look (s.restUnits c).te u = some v) :
    v.rate = 0 ∧ v.credit = 0 ∧ v.ready = false := by
  obtain ⟨⟨n, k⟩, -, he⟩ := List.mem_map.mp (mem_of_look h)
  split at he
  next =>
    obtain ⟨-, rfl⟩ := Prod.mk.inj he
    exact ⟨rfl, rfl, rfl⟩
  next hn =>
    obtain ⟨rfl, -⟩ := Prod.mk.inj he
    exact absurd hu hn

/-- The wake of a core that is clock-gated, or whose ramp and check have ended well, is over: its units are at rest, and what its wake port
held is delivered in order (R152). -/
theorem exec_coreWakeDone_runs {ok : Bool} (ha : s.alive = true) (hw : (s.core c).waking = true)
    (h : (s.core c).clk ≠ .powerGated ∨ (s.core c).rampPhase = 2 ∧ ok = true) :
    exec (.coreWakeDone c ok) s =
      .next ((s.core c).held.foldl (fun (t : State) a => t.deliverHeld c a) ((s.modCore c Core.awake).restUnits c)) := by
  have hgo : (!s.alive || !(s.core c).waking || ((s.core c).clk == .powerGated && (s.core c).rampPhase != 2)) = false := by
    rcases h with h | ⟨h, -⟩ <;> simp [ha, hw, h]
  have hok : ¬((s.core c).clk = .powerGated ∧ (!ok) = true) := by
    rintro ⟨hk, ho⟩
    rcases h with h | ⟨-, rfl⟩
    · exact h hk
    · cases ho
  simp only [exec_coreWakeDone, execCoreWakeDone, hgo, if_neg hok, Bool.false_eq_true, if_false]
  rfl

/-- A core that fails its check is replaced, and what its wake port held is delivered all the same (R455). -/
theorem exec_coreWakeDone_fails (ha : s.alive = true) (hw : (s.core c).waking = true) (hk : (s.core c).clk = .powerGated)
    (hr : (s.core c).rampPhase = 2) :
    exec (.coreWakeDone c false) s =
      .next ((s.core c).held.foldl (fun (t : State) a => t.deliverHeld c a) ((s.modCore c Core.awake).coreFails c)) := by
  have hgo : (!s.alive || !(s.core c).waking || ((s.core c).clk == .powerGated && (s.core c).rampPhase != 2)) = false := by
    simp [ha, hw, hr]
  have hfails : (s.core c).clk = .powerGated ∧ (!false) = true := ⟨hk, rfl⟩
  simp only [exec_coreWakeDone, execCoreWakeDone, hgo, if_pos hfails, Bool.false_eq_true, if_false]
  rfl

end

/-! ### Dies -/

section
variable {s : State} {d : Nat}

theorem exec_dieGate_gates (hd : d < 16) (ha : s.alive = true) (hw : s.pins.wakeLow = false) (hg : (s.die d).gated = false)
    (hq : s.dieAsked d = false) (hb : bit (s.reg (offPgDie d 0)) 13 = true)
    (hc : ∀ x ∈ s.enabledOn d, (s.core x).clk = .powerGated ∧ (s.core x).waking = false) :
    exec (.dieGate d) s = .next (s.modDie d fun k => { k with gated := true }) := by
  have hcores : ((s.enabledOn d).any fun c => (s.core c).clk != .powerGated || (s.core c).waking) = false :=
    any_eq_false_of_forall fun x hx => by simp [hc x hx]
  have hrange : ¬dieCount ≤ d := Nat.not_le.mpr hd
  simp [exec_dieGate, execDieGate, hrange, ha, hw, hg, hq, hb, hcores]

/-- A die stays as it is while WAKE_N is low, a request is at it, die gating is off, or one of its cores is not power-gated. -/
theorem exec_dieGate_stays (h : s.pins.wakeLow = true ∨ s.dieAsked d = true ∨ bit (s.reg (offPgDie d 0)) 13 = false ∨
    ∃ x ∈ s.enabledOn d, (s.core x).clk ≠ .powerGated) : exec (.dieGate d) s = .next s := by
  rw [exec_dieGate, execDieGate]
  refine congrArg _ (if_pos ?_)
  rcases h with h | h | h | ⟨x, hx, hk⟩
  · simp [h]
  · simp [h]
  · simp [h]
  · have hcores : ((s.enabledOn d).any fun c => (s.core c).clk != .powerGated || (s.core c).waking) = true :=
      List.any_eq_true.mpr ⟨x, hx, by simp [hk]⟩
    rw [hcores, Bool.or_true]

theorem State.wakeDie_gated (hg : (s.die d).gated = true) (hw : (s.die d).waking = false) :
    s.wakeDie d = (s.bump (offPgDie d 0x38) 1).modDie d fun k => { k with waking := true } := by
  simp [State.wakeDie, hg, hw]

theorem State.wakeDie_waking (hw : (s.die d).waking = true) : s.wakeDie d = s := by
  simp [State.wakeDie, hw]

theorem exec_dieWakeRequest_alive (hd : d < 16) (ha : s.alive = true) : exec (.dieWakeRequest d) s = .next (s.wakeDie d) := by
  have hrange : ¬dieCount ≤ d := Nat.not_le.mpr hd
  simp [exec_dieWakeRequest, execDieWakeRequest, hrange, ha]

/-- A die with its PLLs in lock serves again: its idle period starts, its cores wake and the reads that waited go on. -/
theorem exec_dieWakeDone_locked (ha : s.alive = true) (hw : (s.die d).waking = true) (hu : (s.die d).unlocked = false) :
    exec (.dieWakeDone d) s = .next (((s.die d).coreReqs.foldl (fun (t : State) c => t.wakeCore c)
      ((s.modDie d fun k => { k with gated := false, waking := false, coreReqs := [] }).startDieIdle d)).releaseReads d) := by
  simp [exec_dieWakeDone, execDieWakeDone, ha, hw, hu]

/-- While a PLL is out of lock the die's wake goes on. -/
theorem exec_dieWakeDone_unlocked (hu : (s.die d).unlocked = true) : exec (.dieWakeDone d) s = .next s := by
  simp [exec_dieWakeDone, execDieWakeDone, hu]

end

/-- Settles O43: each command under its guard, by the lemma for its case; what a die takes as a core gates changes its thresholds and its
spread alone (`State.die_adoptIdle`, `State.die_adoptSpread`), and an idle period that starts changes one register
(`State.reg_startDieIdle_ne`). -/
theorem gatingFollowsIdleness : Obligations.GatingFollowsIdleness := by
  intro s c d
  refine ⟨fun hc ha => ⟨fun hn hr hw hi hs => ?clockGates, fun h => ?clockStays, fun hk hw => ?powerGates, fun hk hw hd => ?wakesAtOnce,
      fun hk hw hd => ?wakesByRamp, fun hk hd => ?wakesDie, fun w hw hr => ?admits, exec_rampAdmitted_full, fun ok hw h => ?runs,
      fun hw hk hr => ?fails⟩,
    fun hd ha => ⟨fun hw hg hq hb hx => ?dieGates, exec_dieGate_stays, fun hg hw => ?dieWakes, fun hw hu => ?dieServes,
      exec_dieWakeDone_unlocked⟩⟩
  case clockGates =>
    refine ⟨_, exec_clockGate_gates hc ha ⟨hn, hr, hw, hi, hs⟩, ?_⟩
    obtain ⟨l, hl, hidle⟩ := s.die_adoptIdle c
    obtain ⟨n, hspread⟩ := ((s.adoptIdle c).modCore c fun k => { k with clk := .clockGated }).die_adoptSpread (c / 68)
    rw [State.die_modCore, hl] at hspread
    refine ⟨?_, fun c' hne => ?_, by simp, by simp, by simp, by simp, fun e he => ?_, by rw [hspread], by rw [hspread],
      by rw [hspread]; exact hidle⟩
    · rw [State.core_adoptSpread, State.core_modCore_self, State.core_adoptIdle]
    · rw [State.core_adoptSpread, State.core_modCore_ne _ _ hne, State.core_adoptIdle]
    · rw [State.die_adoptSpread_ne _ _ he, State.die_modCore, State.die_adoptIdle_ne _ _ he]
  case clockStays =>
    refine exec_clockGate_stays hc ha ?_
    rintro ⟨hn, hr, hw, hi, hs⟩
    simp [hn, hr, hw, hi, hs] at h
  case powerGates =>
    refine ⟨_, exec_powerGate_gates hc ha hk hw, ?_, fun c' hne => ?_, by simp, by simp, by simp, by simp, fun r hr => ?_⟩
    · rw [State.core_startDieIdle, State.core_modCore_self]
    · rw [State.core_startDieIdle, State.core_modCore_ne _ _ hne]
    · rw [State.reg_startDieIdle_ne _ _ hr, State.reg_modCore]
  case wakesAtOnce =>
    refine ⟨_, exec_coreWakeRequest_dieAwake hc ha (by simp [hk]) hd, ?_⟩
    rw [State.wakeCore_clockGated hk hw]
    simp
  case wakesByRamp =>
    refine ⟨_, exec_coreWakeRequest_dieAwake hc ha (by simp [hk]) hd, ?_⟩
    rw [State.wakeCore_powerGated hk hw]
    simp
  case wakesDie =>
    refine ⟨_, exec_coreWakeRequest_dieGated hc ha hk hd, ?_⟩
    by_cases hw : (s.die (c / 68)).waking = true
    · rw [State.wakeDie_waking hw]
      refine ⟨rfl, rfl, rfl, fun e he => s.die_modDie_ne _ he, ?_⟩
      rw [State.die_modDie_self, ← hw]
    · rw [State.wakeDie_gated hd (Bool.eq_false_iff.mpr hw)]
      refine ⟨rfl, rfl, rfl, fun e he => ?_, ?_⟩
      · rw [State.die_modDie_ne _ _ he, State.die_modDie_ne _ _ he, State.die_bump]
      · rw [State.die_modDie_self, State.die_modDie_self, State.die_bump]
  case admits =>
    refine ⟨_, exec_rampAdmitted_first ha hw hr, ?_⟩
    simp [hw]
  case runs =>
    refine ⟨_, exec_coreWakeDone_runs ha hw h, ?_, fun c' hne => ?_, fun u v => State.restUnits_rest, rfl, rfl, rfl, rfl, rfl⟩
    · exact s.core_modCore_self c Core.awake
    · exact s.core_modCore_ne Core.awake hne
  case fails =>
    refine ⟨_, exec_coreWakeDone_fails ha hw hk hr, ?_, fun c' hne => ?_, rfl, rfl, rfl, rfl⟩
    · exact s.core_modCore_self c Core.awake
    · exact s.core_modCore_ne Core.awake hne
  case dieGates =>
    exact ⟨_, exec_dieGate_gates hd ha hw hg hq hb hx, s.die_modDie_self .., fun e he => s.die_modDie_ne _ he, rfl, rfl, rfl, rfl⟩
  case dieWakes =>
    refine ⟨_, exec_dieWakeRequest_alive hd ha, ?_⟩
    rw [State.wakeDie_gated hg hw]
    simp
  case dieServes =>
    refine ⟨_, exec_dieWakeDone_locked ha hw hu, ?_, by simp, fun r hr => ?_, by simp, by simp⟩
    · rw [State.die_startDieIdle, State.die_modDie_self]
    · rw [State.reg_startDieIdle_ne _ _ hr]
      rfl

end Sys2Proof.Machine
end

section
/-! PROOFS. Packets put out on the links, and a loss notice passed on (R401, R405, R410). -/

namespace Sys2Proof.Machine

open Sys2Proof

/-! ### Flits formed -/

/-- Flits are formed and counted: each link has formed as many as before or more, and what waits, which links are up and which losses are
noted stay as they are. -/
structure FormsFlits (s t : State) : Prop where
  formed : ∀ l, (s.wire l).formed ≤ (t.wire l).formed
  up : ∀ l, t.linkUp l = s.linkUp l
  out : t.fab.out = s.fab.out
  notices : t.fab.notices = s.fab.notices
  seen : t.fab.seen = s.fab.seen
  lostNodes : t.fab.lostNodes = s.fab.lostNodes

theorem FormsFlits.refl (s : State) : FormsFlits s s := ⟨fun _ => le_rfl, fun _ => rfl, rfl, rfl, rfl, rfl⟩

theorem FormsFlits.trans {s t u : State} (a : FormsFlits s t) (b : FormsFlits t u) : FormsFlits s u where
  formed l := (a.formed l).trans (b.formed l)
  up l := (b.up l).trans (a.up l)
  out := b.out.trans a.out
  notices := b.notices.trans a.notices
  seen := b.seen.trans a.seen
  lostNodes := b.lostNodes.trans a.lostNodes

section
variable (s : State) (l : Link)

theorem State.wire_setWire_of_key {l' : Link} (k : Wire) (h : linkKey l' = linkKey l) : (s.setWire l k).wire l' = k := by
  simp [State.wire, State.setWire, h]

theorem State.wire_setWire_ne {l' : Link} (k : Wire) (h : linkKey l' ≠ linkKey l) : (s.setWire l k).wire l' = s.wire l' :=
  lookD_put_ne _ _ _ h

theorem State.wire_of_key {l l' : Link} (h : linkKey l' = linkKey l) : s.wire l' = s.wire l := by rw [State.wire, h, State.wire]

/-- The end of a link set to one that has formed no fewer flits. -/
theorem State.setWire_formsFlits (k : Wire) (h : (s.wire l).formed ≤ k.formed) : FormsFlits s (s.setWire l k) where
  formed l' := by
    by_cases hk : linkKey l' = linkKey l
    · rwa [State.wire_setWire_of_key s l k hk, State.wire_of_key s hk]
    · rw [State.wire_setWire_ne s l k hk]
  up l' := by cases l' <;> rfl
  out := rfl
  notices := rfl
  seen := rfl
  lostNodes := rfl

/-- The register of a scale-out port's state stands at a multiple of 0x80, and no counter of a link does. -/
theorem State.linkUp_bump {o : Nat} (n : Nat) (h : o % 0x80 ≠ 0) : (s.bump o n).linkUp l = s.linkUp l := by
  cases l with
  | burob p => rfl
  | tray k => rfl
  | scaleOut p =>
    have hne : offSfPort p 0 ≠ o := by
      rintro rfl
      exact h (by unfold offSfPort; omega)
    rw [State.linkUp, State.sfState, State.reg_bump_ne s n hne]
    rfl

theorem State.bump_formsFlits {o : Nat} (n : Nat) (h : o % 0x80 ≠ 0) : FormsFlits s (s.bump o n) :=
  ⟨fun _ => le_rfl, fun l => s.linkUp_bump l n h, rfl, rfl, rfl, rfl⟩

theorem linkRegs_sent_mod (l : Link) : (linkRegs l).2.1 % 0x80 ≠ 0 := by
  cases l <;> simp only [linkRegs, offBl, offPeer, offSfPort] <;> omega

theorem State.formFlits_formsFlits (n : Nat) : FormsFlits s (s.formFlits l n) :=
  (s.setWire_formsFlits l _ (Nat.le_add_right ..)).trans (State.bump_formsFlits _ _ (linkRegs_sent_mod l))

theorem State.formed_formFlits (n : Nat) : ((s.formFlits l n).wire l).formed = (s.wire l).formed + n :=
  congrArg Wire.formed (s.wire_setWire_of_key l { s.wire l with formed := (s.wire l).formed + n } rfl)

/-! ### Packets that leave -/

/-- A packet gone from those that wait. -/
def State.dropOut (p : OutPkt) : State := s.modFab fun f => { f with out := drop1 f.out p }

/-- A credit used on a link, of the channel that a packet takes if it takes one (R405). -/
def State.useCredit (ch : Option Nat) : State := match ch with | some n => s.setWire l ((s.wire l).use n) | none => s

theorem State.useCredit_formsFlits (ch : Option Nat) : FormsFlits s (s.useCredit l ch) := by
  cases ch with
  | none => exact .refl s
  | some n => exact s.setWire_formsFlits l _ le_rfl

theorem State.goOut_notice (k : Link) : s.goOut l (.notice k) = (s.dropOut (.notice k)).formFlits l 1 := by cases l <;> rfl

theorem State.goOut_resp (d vc n : Nat) :
    s.goOut l (.resp d vc n) = ((s.dropOut (.resp d vc n)).useCredit l (s.outChannel l (.resp d vc n))).formFlits l n := by
  cases l <;> rfl

/-- A request one hop further leaves its port, which counts it (R404). -/
theorem State.goOut_fwd (q : Nat) (h : FabHdr) (n : Nat) :
    s.goOut (.scaleOut q) (.fwd h n) =
      ((((s.dropOut (.fwd h n)).modFab fun f => { f with fwd := some (q, { h with
          hops := h.hops + 1, vc := s.outChannel (.scaleOut q) (.fwd h n) == some 1 }) }).bump (offSfPort q 0x28) 1).useCredit
        (.scaleOut q) (s.outChannel (.scaleOut q) (.fwd h n))).formFlits (.scaleOut q) n := rfl

/-- A packet that leaves forms its flits; only it is gone from what waits. -/
theorem State.goOut_formsFlits (p : OutPkt) : FormsFlits (s.dropOut p) (s.goOut l p) := by
  cases p with
  | notice k =>
    rw [State.goOut_notice]
    exact State.formFlits_formsFlits ..
  | resp d vc n =>
    rw [State.goOut_resp]
    exact (State.useCredit_formsFlits ..).trans (State.formFlits_formsFlits ..)
  | fwd h n =>
    cases l with
    | burob q => exact .refl _
    | tray q => exact .refl _
    | scaleOut q =>
      have hport : offSfPort q 0x28 % 0x80 ≠ 0 := by
        unfold offSfPort
        omega
      rw [State.goOut_fwd]
      refine FormsFlits.trans ?_ ((State.bump_formsFlits _ 1 hport).trans
        ((State.useCredit_formsFlits ..).trans (State.formFlits_formsFlits ..)))
      exact ⟨fun _ => le_rfl, fun k => by cases k <;> rfl, rfl, rfl, rfl, rfl⟩

theorem State.formed_goOut_notice (k : Link) : ((s.goOut l (.notice k)).wire l).formed = (s.wire l).formed + 1 := by
  rw [State.goOut_notice, State.formed_formFlits]
  rfl

end

/-! ### What a flush leaves -/

/-- Packets that wait have had their chance to leave: a notice still waits, or its link has formed more flits. -/
structure Flushes (s t : State) : Prop where
  formed : ∀ l, (s.wire l).formed ≤ (t.wire l).formed
  up : ∀ l, t.linkUp l = s.linkUp l
  sent : ∀ l, .notice l ∈ s.fab.out → (s.wire l).formed < (t.wire l).formed ∨ .notice l ∈ t.fab.out
  notices : t.fab.notices = s.fab.notices
  seen : t.fab.seen = s.fab.seen
  lostNodes : t.fab.lostNodes = s.fab.lostNodes

theorem Flushes.refl (s : State) : Flushes s s := ⟨fun _ => le_rfl, fun _ => rfl, fun _ => .inr, rfl, rfl, rfl⟩

/-- A notice that has been sent stays sent, and one that waits is sent or waits. -/
theorem Flushes.trans {s t u : State} (a : Flushes s t) (b : Flushes t u) : Flushes s u where
  formed l := (a.formed l).trans (b.formed l)
  up l := (b.up l).trans (a.up l)
  sent l h := by
    rcases a.sent l h with hl | hl
    · exact .inl (hl.trans_le (b.formed l))
    · exact (b.sent l hl).imp_left (a.formed l).trans_lt
  notices := b.notices.trans a.notices
  seen := b.seen.trans a.seen
  lostNodes := b.lostNodes.trans a.lostNodes

section
variable (s : State) (l : Link)

/-- A packet leaves on its own link: where it is a notice that link forms a flit, and every other notice waits on. -/
theorem State.goOut_flushes {p : OutPkt} (h : s.outLink p = some l) : Flushes s (s.goOut l p) := by
  have hforms := s.goOut_formsFlits l p
  refine ⟨hforms.formed, fun k => (hforms.up k).trans (by cases k <;> rfl), fun k hk => ?_, hforms.notices, hforms.seen, hforms.lostNodes⟩
  by_cases hp : .notice k = p
  · subst hp
    have hkl : k = l := by
      rw [State.outLink] at h
      split at h
      · exact Option.some.inj h
      · cases h
    subst hkl
    rw [State.formed_goOut_notice]
    exact .inl (Nat.lt_succ_self _)
  · rw [hforms.out]
    exact .inr (List.mem_filter.mpr ⟨hk, by simpa using hp⟩)

/-- The packet that leaves next on a link takes that link. -/
theorem State.outLink_of_nextOut {p : OutPkt} (h : s.nextOut l = some p) : s.outLink p = some l := by
  obtain ⟨r, -, hr⟩ := List.exists_of_findSome?_eq_some h
  have hgo := List.find?_some hr
  simp only [State.mayGo, Bool.and_eq_true, beq_iff_eq, and_assoc] at hgo
  exact hgo.2.1

theorem State.flush_flushes (n : Nat) : Flushes s (s.flush n l) := by
  induction n generalizing s with
  | zero => exact .refl s
  | succ n ih =>
    rw [State.flush]
    cases hp : s.nextOut l with
    | none => exact .refl s
    | some p => exact (s.goOut_flushes l (s.outLink_of_nextOut l hp)).trans (ih _)

/-- A packet put out: what waits is as before, but for it. -/
theorem State.putOut_flushes (p : OutPkt) : Flushes s (s.putOut p) := by
  rw [State.putOut]
  cases s.outLink p with
  | none => exact .refl s
  | some l =>
    refine Flushes.trans ?_ (State.flush_flushes ..)
    exact ⟨fun _ => le_rfl, fun k => by cases k <;> rfl, fun k hk => .inr (List.mem_append_left _ hk), rfl, rfl, rfl⟩

/-- A notice put out on a link that is up waits at it or has been sent. -/
theorem State.putOut_notice_sent (h : s.linkUp l = true) :
    (s.wire l).formed < ((s.putOut (.notice l)).wire l).formed ∨ .notice l ∈ (s.putOut (.notice l)).fab.out := by
  have hlink : s.outLink (.notice l) = some l := if_pos h
  rw [State.putOut, hlink]
  exact (State.flush_flushes (s.modFab fun f => { f with out := f.out ++ [.notice l] }) l _).sent l
    (List.mem_append_right _ (List.mem_singleton_self _))

/-! ### Loss notices (R410) -/

/-- A notice sent over the links of a list: each that is up, but for one, has it waiting or sent. -/
theorem State.sendNotices_flushes (ls : List Link) (but : Option Link) :
    let t := ls.foldl (fun (t : State) l => if t.linkUp l && but != some l then t.putOut (.notice l) else t) s
    Flushes s t ∧
      ∀ l ∈ ls, s.linkUp l = true → but ≠ some l → (s.wire l).formed < (t.wire l).formed ∨ .notice l ∈ t.fab.out := by
  induction ls generalizing s with
  | nil => exact ⟨.refl s, fun l hl => absurd hl List.not_mem_nil⟩
  | cons k ls ih =>
    set u := if s.linkUp k && but != some k then s.putOut (.notice k) else s with hu
    have hflush : Flushes s u := by
      rw [hu]
      split
      · exact s.putOut_flushes _
      · exact .refl s
    obtain ⟨hrest, hsent⟩ := ih u
    refine ⟨hflush.trans hrest, fun l hl hup hbut => ?_⟩
    rcases List.mem_cons.mp hl with rfl | hl
    · have hput : u = s.putOut (.notice l) := if_pos (by simp [hup, hbut])
      rcases s.putOut_notice_sent l hup with h | h
      · exact .inl (h.trans_le (hput ▸ hrest.formed l))
      · exact (hrest.sent l (hput ▸ h)).imp_left (hflush.formed l).trans_lt
    · exact (hsent l hl ((hflush.up l).trans hup) hbut).imp_left (hflush.formed l).trans_lt

theorem State.sendNotice_same {but : Option Link} (p : Area) (h : p ∉ [Area.regs, .fab]) : p.same s (s.sendNotice but) :=
  Area.same_of_keeps (fun _ w => State.sendNotice_keeps w (Keeps.refl s)) p h

end

theorem exec_lossNotice (lost origin : Nat) (via : Link) (s : State) :
    exec (.lossNotice lost origin via) s = execLossNotice lost origin via s := rfl
theorem exec_lossNoticeHoldEnd (lost : Nat) (s : State) : exec (.lossNoticeHoldEnd lost) s = execLossNoticeHoldEnd lost s := rfl

section
variable {s : State} {lost origin : Nat}

/-- A loss noted as seen and held. -/
def State.recordNotice (s : State) (lost origin : Nat) : State :=
  s.modFab fun f => { f with seen := f.seen ++ [(lost, origin)], notices := f.notices ++ [(lost, origin)] }

theorem exec_lossNotice_seen {via : Link} (h : (lost, origin) ∈ s.fab.seen) : exec (.lossNotice lost origin via) s = .next s := by
  simp [exec_lossNotice, execLossNotice, h]

theorem exec_lossNotice_new {via : Link} (ha : s.alive = true) (h : (lost, origin) ∉ s.fab.seen) :
    exec (.lossNotice lost origin via) s = .next ((s.recordNotice lost origin).sendNotice (some via)) := by
  simp [exec_lossNotice, execLossNotice, ha, h, State.recordNotice, State.modFab]

/-- With no node that the named one names in turn, the end of the hold applies the loss. -/
theorem exec_lossNoticeHoldEnd_applies (h : (lost, origin) ∈ s.fab.notices)
    (hn : ∀ n ∈ s.fab.notices, n.1 = lost → s.holdsNotice n.2 lost = false) :
    exec (.lossNoticeHoldEnd lost) s = .next
      (({ s with fab := { s.fab with notices := s.fab.notices.filter fun n => n.1 != lost } } : State).applyLoss lost) := by
  have hheld : (s.fab.notices.find? fun n => n.1 == lost).isSome = true := List.find?_isSome.mpr ⟨_, h, beq_self_eq_true lost⟩
  obtain ⟨m, hm⟩ := Option.isSome_iff_exists.mp hheld
  have hnone : ((s.fab.notices.filter fun n => n.1 == lost).find? fun n => s.holdsNotice n.2 lost) = none := by
    rw [List.find?_eq_none]
    intro n hmem
    obtain ⟨hmem, hlost⟩ := List.mem_filter.mp hmem
    simp [hn n hmem (eq_of_beq hlost)]
  simp only [exec_lossNoticeHoldEnd, execLossNoticeHoldEnd, hm, hnone]

/-- Of two nodes that name each other the higher is lost. -/
theorem exec_lossNoticeHoldEnd_mutual {other : Nat} (h : s.fab.notices = [(lost, other), (other, lost)]) (hne : lost ≠ other) :
    exec (.lossNoticeHoldEnd lost) s = .next
      ((({ s with fab := { s.fab with notices := [] } } : State).raise 0x7805
        (leBytes 2 (max lost other) ++ leBytes 2 (min lost other))).applyLoss (max lost other)) := by
  have hheld : s.holdsNotice other lost = true := by simp [State.holdsNotice, h]
  have hmine : (s.fab.notices.filter fun n => n.1 == lost) = [(lost, other)] := by simp [h, hne.symm]
  have hgone : (s.fab.notices.filter fun m => m != (min lost other, max lost other) && m != (max lost other, min lost other)) = [] := by
    rcases le_total lost other with hle | hle
    · simp [h, hle]
    · simp [h, hle]
  simp only [exec_lossNoticeHoldEnd, execLossNoticeHoldEnd, hmine, List.find?_cons_of_pos, hheld, hgone]
  simp [h]

end
end Sys2Proof.Machine
end

section
/-! PROOFS. Fabric requests that arrive, and the end of this device's own (R144, R152, R369, R387, R388, R395, R397, R400,
R401, R407, R412). -/

namespace Sys2Proof.Machine

open Sys2Proof

theorem exec_lineStore (h : FabHdr) (mask : BitVec 128) (data : List Byte) (s : State) :
    exec (.lineStore h mask data) s = execLineStore h mask data s := rfl
theorem exec_lineLoad (h : FabHdr) (mask : BitVec 128) (bad : Bool) (s : State) :
    exec (.lineLoad h mask bad) s = execLineLoad h mask bad s := rfl
theorem exec_flag (h : FabHdr) (s : State) : exec (.flag h) s = execFlag h s := rfl
theorem exec_fabricResponse (i : Nat) (r : FabResp) (s : State) : exec (.fabricResponse i r) s = execFabricResponse i r s := rfl
theorem exec_fabricRequestTimeout (i : Nat) (s : State) :
    exec (.fabricRequestTimeout i) s = execFabricRequestTimeout i s := rfl

section
variable {s : State} {h : FabHdr}

/-- A well-formed request of a node that may reach this device, for this device, is taken here. -/
theorem State.receive_here {op : Nat} (hw : h.wf op = true) (ha : s.arrives h.src = true) (hd : h.dst = s.node) (own : State → State) :
    s.receive op h own = own s := by
  simp [State.receive, hw, ha, hd]

end

/-! ### Requests of a job -/

/-- A request of a job (R389): rejected where it names a device-held range or is not admitted, and else served for its job-table entry and
context. -/
def State.jobRequest (s : State) (op : Nat) (h : FabHdr) (trigger : Bool) (own : State → Nat → Nat → State) : State :=
  s.receive op h fun t =>
    if h.deviceHeld then t.reject h 0x7003
    else match t.admission h trigger with
      | .error e => t.reject h e
      | .ok (e, x) => own t e x

section
variable {s : State} {h : FabHdr} {op : Nat} {trigger : Bool} {own : State → Nat → Nat → State}
  (ha : s.arrives h.src = true) (hd : h.dst = s.node) (hj : h.deviceHeld = false) (hw : h.wf op = true)
include ha hd hj hw

theorem State.jobRequest_admitted {e x : Nat} (hx : s.admission h trigger = .ok (e, x)) : s.jobRequest op h trigger own = own s e x := by
  simp only [State.jobRequest, State.receive_here hw ha hd, hj, hx, Bool.false_eq_true, if_false]

theorem State.jobRequest_rejected {c : Nat} (hx : s.admission h trigger = .error c) :
    s.jobRequest op h trigger own = s.reject h c := by
  simp only [State.jobRequest, State.receive_here hw ha hd, hj, hx, Bool.false_eq_true, if_false]

end

/-- A trigger with its block read. -/
def State.triggered (s : State) (h : FabHdr) (proc : Nat) (arg : W32) (e x : Nat) : State :=
  let u := (s.readDescs x [proc]).readTrig x proc
  match u.trigBlock x proc with
  | .error c => u.reject h c
  | .ok (base, k) => u.takeTrig h e x proc arg base k

/-- The proxies on this device of a fence of a node, in contexts of a job (R369). -/
def State.proxiesOf (s : State) (node hf e : Nat) : List (Nat × Fence) :=
  s.objs.fences.filter fun f => match f.2.home with
    | some (n, k, _) => n == node && k == hf && (match s.ctx f.2.owner with | some c => c.job == some e | none => false)
    | none => false

/-- A push to every proxy of the job. -/
def State.pushed (s : State) (h : FabHdr) (hf : Nat) (v : W64) (code : Nat) (cause : Option Nat) (e : Nat) : State :=
  if (s.proxiesOf h.src hf e).isEmpty then s.respond h 0x7003 []
  else ((s.proxiesOf h.src hf e).foldl (fun (t : State) f => t.pushProxy f.1 h.src v.toNat (code % 2 ^ 16) cause) s).respond h 0 []

/-- Whether a fence's context is of a job, or the fence is held for a proxy on a node (R352, R369). -/
def State.fenceOfJob (s : State) (k : Fence) (e src : Nat) : Bool :=
  (match s.ctx k.owner with | some c => c.job == some e | none => false) || k.held && k.proxies.any fun q => q.1 == src

theorem State.fenceOfJob_iff (s : State) (k : Fence) (e src : Nat) :
    s.fenceOfJob k e src = true ↔
      (∃ c, s.ctx k.owner = some c ∧ c.job = some e) ∨ k.held = true ∧ ∃ q ∈ k.proxies, q.1 = src := by
  rw [State.fenceOfJob]
  cases s.ctx k.owner <;> simp

/-- A signal forwarded to a fence here, which is taken where the fence is exported, at home, and of the job (R369, log 31). -/
def State.forwarded (s : State) (h : FabHdr) (f : Nat) (v : W64) (e : Nat) : State :=
  match s.fence f with
  | none => s.respond h 0x6004 []
  | some k =>
    if k.exported == some true && k.home.isNone && s.fenceOfJob k e h.src then
      ((s.modFence f fun k => { k with proxies := addNew k.proxies (h.src, f) }).signal f v.toNat).respond h 0 []
    else s.respond h 0x6004 []

theorem exec_fabricTrigger (h : FabHdr) (proc : Nat) (arg : W32) (s : State) :
    exec (.fabricTrigger h proc arg) s = .next (s.guarded (s.jobRequest 7 h true fun t e x => t.triggered h proc arg e x)) := rfl

theorem exec_fabricColl (h : FabHdr) (msg : CollMsg) (s : State) :
    exec (.fabricColl h msg) s = .next (s.jobRequest 8 h false fun t e _ => t.collHere h e msg) := rfl

theorem exec_fencePush (h : FabHdr) (hf : Nat) (v : W64) (code : Nat) (cause : Option Nat) (s : State) :
    exec (.fencePush h hf v code cause) s = .next (s.jobRequest 9 h false fun t e _ => t.pushed h hf v code cause e) := rfl

theorem exec_fenceForward (h : FabHdr) (f : Nat) (v : W64) (s : State) :
    exec (.fenceForward h f v) s = .next (s.jobRequest 10 h false fun t e _ => t.forwarded h f v e) := rfl

/-! ### Device-held ranges -/

section
variable {s : State} {h : FabHdr} (hj : h.deviceHeld = true)
include hj

section
variable {bytes : List (Nat × Byte)}

theorem State.storeHere_unheld (hg : s.held h (h.address / 128 * 128) 128 = none) : s.storeHere h bytes = s.reject h 0x7003 := by
  simp only [State.storeHere, hj, hg, if_true]

theorem State.storeHere_held {g : Held} (hg : s.held h (h.address / 128 * 128) 128 = some g) (hs : s.sleeping g = none) :
    s.storeHere h bytes = (s.heldWrite g bytes).respond h 0 [] := by
  simp only [State.storeHere, hj, hg, hs, if_true]

/-- A store to a core that sleeps is held by its wake port (R152). -/
theorem State.storeHere_sleeping {g : Held} {c : Nat} (hg : s.held h (h.address / 128 * 128) 128 = some g) (hs : s.sleeping g = some c) :
    s.storeHere h bytes = s.holdRequest c false h (h.address / 128 * 128) bytes := by
  simp only [State.storeHere, hj, hg, hs, if_true]

end

section
variable {mask : BitVec 128}

theorem State.loadHere_unheld (hg : s.held h (loadRange h).1 (loadRange h).2 = none) : s.loadHere h mask false = s.reject h 0x7003 := by
  simp only [State.loadHere, hj, hg, if_true]

section
variable {a : Nat} (hg : s.held h (loadRange h).1 (loadRange h).2 = some (.hbm a))
include hg

theorem State.loadHere_hbm (hb : s.badPieces [(a, (loadRange h).2, 0)] = false) :
    s.loadHere h mask false =
      s.respond h 0 (loadData h mask ((s.twinView (h.src % 8) a (loadRange h).2).getD (s.see a (loadRange h).2))) := by
  simp only [State.loadHere, hj, hg, hb, State.sleeping, State.heldRead, Bool.or_self, Bool.false_eq_true, if_true, if_false]

theorem State.loadHere_hbm_bad (hb : s.badPieces [(a, (loadRange h).2, 0)] = true) : s.loadHere h mask false = s.respond h 0x4003 [] := by
  simp only [State.loadHere, hj, hg, hb, State.sleeping, Bool.or_true, if_true]

end
end

/-! A flag in a device-held range. -/

section
variable (ha : s.arrives h.src = true) (hd : h.dst = s.node) (hw : h.wf 5 = true)
include ha hd hw

theorem exec_flag_hbm {a : Nat} (hg : s.held h h.address 8 = some (.hbm a)) : exec (.flag h) s = .next (s.flagWaits h) := by
  simp only [exec_flag, execFlag, State.receive_here hw ha hd, hj, hg, if_true]

theorem exec_flag_unheld (hg : s.held h h.address 8 = none) : exec (.flag h) s = .next (s.reject h 0x7003) := by
  simp only [exec_flag, execFlag, State.receive_here hw ha hd, hj, hg, if_true]

end
end

/-! ### Responses and time-outs -/

section
variable {s : State} {i : Nat} {resp : FabResp}

/-- A self-fenced device takes no response (R412). -/
theorem exec_fabricResponse_selfFenced (h : s.fab.selfFenced = true) : exec (.fabricResponse i resp) s = .next s := by
  simp only [exec_fabricResponse, execFabricResponse, h, if_true, State.guarded_self]

theorem exec_fabricResponse_elsewhere (h : s.fab.selfFenced = false) (hd : resp.dst ≠ s.node) :
    exec (.fabricResponse i resp) s = .next (s.guarded (s.forwardResp resp)) := by
  simp only [exec_fabricResponse, execFabricResponse, h, if_pos hd, Bool.false_eq_true, if_false]

section
variable {r : Req} (hr : look s.fab.reqs i = some r) (hw : r.waiting = false) (hk : ∀ n l, r.kind ≠ .mirror n l)
include hr hw hk

/-- The response of the node asked ends the request. -/
theorem exec_fabricResponse_ends (h : s.fab.selfFenced = false) (hd : resp.dst = s.node) (hsrc : resp.src = r.dst) :
    exec (.fabricResponse i resp) s = .next (s.guarded (s.endReq i (resp.code % 2 ^ 16) resp.data)) := by
  have hgo : (r.waiting || r.dst != resp.src) = false := by simp [hw, hsrc]
  simp only [exec_fabricResponse, execFabricResponse, h, hd, hr, hgo, ne_eq, not_true_eq_false, Bool.false_eq_true, if_false]

/-- A request timed out ends with FAB_TIMEOUT; the window of a tray peer counts it (R407, R414). -/
theorem exec_fabricRequestTimeout_ends (ht : r.kind.timed = true) :
    exec (.fabricRequestTimeout i) s = .next
      ((if r.dst / 8 = s.pins.strapTray then s.bump (offPeer (r.dst % 8) 0x30) 1 else s).endReq i 0x7005 []) := by
  have hgo : (r.waiting || !r.kind.timed) = false := by simp [hw, ht]
  simp only [exec_fabricRequestTimeout, execFabricRequestTimeout, hr, hgo, Bool.false_eq_true, if_false]

end
end

/-- Settles O33: the requests of an admitted job and those that are rejected (`State.jobRequest`), device-held ranges by what the sender
holds, notices by what a flush leaves of them (`State.sendNotices_flushes`), and the end of this device's own requests. -/
theorem triggersFencesAndLosses : Obligations.TriggersFencesAndLosses := by
  intro s h e x i
  refine ⟨fun ha hd hj => ⟨fun proc arg hw hx => ⟨fun base k hb => ?trigger, fun c hb => ?noBlock⟩, fun msg hw hx => ?coll,
      fun hf v code cause hw hx => ⟨fun hp => ?proxies, fun hp => ?noProxy⟩,
      fun f v k hw hx hk => ⟨fun he hh hm => ?forward, fun hn => ?notTaken⟩,
      fun code proc arg msg hf v cause => ⟨fun hw hx => ?triggerRejected,
        fun hx => ⟨fun hw => ?collRejected, fun hw => ?pushRejected, fun hw => ?forwardRejected⟩⟩⟩,
    fun ha hd hj => ⟨fun mask data hw => ?store, fun hw => ⟨fun a hg => exec_flag_hbm hj ha hd hw hg, exec_flag_unheld hj ha hd hw⟩,
      fun mask hw => ?load⟩,
    fun lost origin via ha hs => ?notice, fun lost origin via hs => exec_lossNotice_seen hs,
    fun lost origin hn hh => exec_lossNoticeHoldEnd_applies hn hh, fun lost other hn hne => exec_lossNoticeHoldEnd_mutual hn hne,
    fun r hr hw hk => ⟨fun resp => exec_fabricResponse_selfFenced, fun resp hs hd hsrc => exec_fabricResponse_ends hr hw hk hs hd hsrc,
      fun resp => exec_fabricResponse_elsewhere, fun ht hn => ?near, fun ht hn => ?far⟩⟩
  case trigger =>
    rw [exec_fabricTrigger, State.jobRequest_admitted ha hd hj hw hx]
    simp only [State.triggered, hb]
  case noBlock =>
    rw [exec_fabricTrigger, State.jobRequest_admitted ha hd hj hw hx]
    simp only [State.triggered, hb]
  case coll => rw [exec_fabricColl, State.jobRequest_admitted ha hd hj hw hx]
  case proxies =>
    rw [exec_fencePush, State.jobRequest_admitted ha hd hj hw hx]
    exact congrArg _ (if_neg (mt List.isEmpty_iff.mp hp))
  case noProxy =>
    rw [exec_fencePush, State.jobRequest_admitted ha hd hj hw hx]
    exact congrArg _ (if_pos (List.isEmpty_iff.mpr hp))
  case forward =>
    have hmine := (s.fenceOfJob_iff k e h.src).mpr hm
    rw [exec_fenceForward, State.jobRequest_admitted ha hd hj hw hx]
    simp [State.forwarded, hk, he, hh, hmine]
  case notTaken =>
    have hno : (k.exported == some true && k.home.isNone && s.fenceOfJob k e h.src) = false := by
      rw [Bool.eq_false_iff, ne_eq, Bool.and_eq_true, Bool.and_eq_true, beq_iff_eq, Option.isNone_iff_eq_none, s.fenceOfJob_iff]
      rintro ⟨⟨he, hh⟩, hm⟩
      rcases hn with hn | hn | hn
      exacts [hn he, hn hh, hn hm]
    rw [exec_fenceForward, State.jobRequest_admitted ha hd hj hw hx]
    simp [State.forwarded, hk, hno]
  case triggerRejected => rw [exec_fabricTrigger, State.jobRequest_rejected ha hd hj hw hx]
  case collRejected => rw [exec_fabricColl, State.jobRequest_rejected ha hd hj hw hx]
  case pushRejected => rw [exec_fencePush, State.jobRequest_rejected ha hd hj hw hx]
  case forwardRejected => rw [exec_fenceForward, State.jobRequest_rejected ha hd hj hw hx]
  case store =>
    rw [exec_lineStore, execLineStore, State.receive_here hw ha hd]
    exact ⟨fun hg => by rw [State.storeHere_unheld hj hg], fun g hg hs => by rw [State.storeHere_held hj hg hs],
      fun g c hg hs => by rw [State.storeHere_sleeping hj hg hs]⟩
  case load =>
    rw [exec_lineLoad, execLineLoad, State.receive_here hw ha hd]
    exact ⟨fun hg => by rw [State.loadHere_unheld hj hg], fun a hg hb => by rw [State.loadHere_hbm hj hg hb],
      fun a hg hb => by rw [State.loadHere_hbm_bad hj hg hb]⟩
  case notice =>
    obtain ⟨hflush, hsent⟩ := (s.recordNotice lost origin).sendNotices_flushes fabricLinks (some via)
    refine ⟨_, exec_lossNotice_new ha hs, hflush.notices, hflush.seen, fun l hl hu hv => ?_, hflush.lostNodes,
      State.sendNotice_same _ .objs (by decide), State.sendNotice_same _ .mem (by decide), State.sendNotice_same _ .recd (by decide)⟩
    exact hsent l hl (by cases l <;> exact hu) fun e => hv (Option.some.inj e).symm
  case near => rw [exec_fabricRequestTimeout_ends hr hw hk ht, if_pos hn]
  case far => rw [exec_fabricRequestTimeout_ends hr hw hk ht, if_neg hn]

end Sys2Proof.Machine
end

section
/-! PROOFS. Thread instructions: those that a group may issue, what a thread result changes, and arithmetic, exchange and draws in guarded
lanes (R185, R209, R210, R211, R234, R277). -/

namespace Sys2Proof.Machine

open Sys2Proof

/-! ### An instruction that a group may issue -/

/-- A thread instruction of some opcodes: where the group in the frame may issue one it has its effect, and where an uncorrectable error in
the frame or the group's state is met the context faults with GE_FRAME_PARITY (R234). -/
def State.onThread (s : State) (c f : Nat) (parity : Bool) (mine : Nat → Prop) [DecidablePred mine] (own : Thread → State) : State :=
  match s.thread c f with
  | some t => if mine t.word.op then if parity then s.frameParity c t else own t else s
  | none => s

section
variable {s : State} {c f : Nat} {t : Thread} {mine : Nat → Prop} [DecidablePred mine] {own : Thread → State}
  (ht : s.thread c f = some t) (hop : mine t.word.op)
include ht hop

theorem State.onThread_parity :
    s.onThread c f true mine own = (s.modCore c fun k => { k with faulty := true }).groupFault c t 0x3016 := by
  simp only [State.onThread, ht, hop, if_true]
  rfl

theorem State.onThread_issues : s.onThread c f false mine own = own t := by
  simp only [State.onThread, ht, hop, if_true, Bool.false_eq_true, if_false]

end

/-! ### Positions (R213) -/

/-- A group that goes on by its stack keeps its registers and predicates. -/
theorem Group.settle_registers (n : Nat) (g : Group) : (g.settle n).v = g.v ∧ (g.settle n).p = g.p := by
  fun_induction Group.settle n g with
  | case1 => exact ⟨rfl, rfl⟩
  | case2 _ _ _ _ _ ih => exact ih
  | case3 => exact ⟨rfl, rfl⟩
  | case4 => exact ⟨rfl, rfl⟩
  | case5 => assumption
  | case6 => assumption
  | case7 => exact ⟨rfl, rfl⟩

theorem Group.goto_registers (g : Group) (pos : Nat) : (g.goto pos).v = g.v ∧ (g.goto pos).p = g.p :=
  Group.settle_registers ..

/-! ### A register result (R185, R209) -/

theorem mem_lanesOf {m : BitVec 32} {l : Nat} : l ∈ lanesOf m ↔ m.getLsbD l = true := by
  simp only [lanesOf, List.mem_filter, List.mem_range, and_iff_right_iff_imp]
  exact BitVec.lt_of_getLsbD

theorem lanesOf_nodup (m : BitVec 32) : (lanesOf m).Nodup := List.nodup_range.filter _

theorem Group.rd_wr (g : Group) (u : List W32) (x : W32) (k r : Nat) {l m : Nat} (hl : l < 32) (hm : m < 32) :
    (g.wr r m x).rd u k l = if k = r ∧ k < 48 ∧ l = m then x else g.rd u k l := by
  unfold Group.wr Group.rd
  by_cases hr : r < 48
  · rw [if_pos hr]
    by_cases hk : k < 48
    · have hkey : k * 32 + l = r * 32 + m ↔ k = r ∧ l = m := by omega
      by_cases h : k * 32 + l = r * 32 + m
      · obtain ⟨rfl, rfl⟩ := hkey.mp h
        simp [hk]
      · have hn := mt hkey.mpr h
        simp [hk, lookD_put_ne _ _ _ h, hn]
    · simp [hk]
  · have hk : ¬(k = r ∧ k < 48 ∧ l = m) := by omega
    rw [if_neg hr, if_neg hk]

/-- A register result over a list of lanes reaches those lanes' register and no other. -/
theorem Group.rd_foldl_wr (u : List W32) (f : Nat → W32) (r k : Nat) {l : Nat} (hl : l < 32) (ls : List Nat) (hls : ∀ m ∈ ls, m < 32)
    (g : Group) :
    (ls.foldl (fun h m => h.wr r m (f m)) g).rd u k l = if k = r ∧ k < 48 ∧ l ∈ ls then f l else g.rd u k l := by
  induction ls generalizing g with
  | nil => simp
  | cons m ls ih =>
    rw [List.foldl_cons, ih (fun n hn => hls n (List.mem_cons_of_mem m hn)), Group.rd_wr g u _ _ _ hl (hls m List.mem_cons_self)]
    by_cases hm : l = m
    · subst hm
      simp only [List.mem_cons, true_or]
      split_ifs <;> tauto
    · simp only [List.mem_cons, hm, false_or, and_false, if_false]

theorem Group.rd_each (g : Group) (w : TWord) (u : List W32) (f : Nat → W32) (r : Nat) {l : Nat} (hl : l < 32) :
    (g.each w f).rd u r l = if r = w.dst ∧ r < 48 ∧ (g.guarded w).getLsbD l = true then f l else g.rd u r l := by
  simp only [Group.each, Group.rd_foldl_wr u f w.dst r hl _ (fun m hm => BitVec.lt_of_getLsbD (mem_lanesOf.mp hm)), mem_lanesOf]

/-- A register result leaves all but the v registers as they were. -/
theorem Group.each_frame (g : Group) (w : TWord) (f : Nat → W32) : { g.each w f with v := g.v } = g := by
  refine List.foldlRecOn (motive := fun h : Group => { h with v := g.v } = g) _ _ rfl fun h hh m _ => ?_
  unfold Group.wr
  split_ifs
  · exact hh
  · exact hh

/-! ### A predicate result (R185) -/

/-- A sum of distinct powers of two below 2^n. -/
theorem maskSum_lt (p : Nat → Bool) (n : Nat) : ((List.range n).map fun l => b2n (p l) * 2 ^ l).sum < 2 ^ n := by
  induction n with
  | zero => simp
  | succ n ih =>
    have hbit : b2n (p n) ≤ 1 := by cases p n <;> decide
    have hmul : b2n (p n) * 2 ^ n ≤ 1 * 2 ^ n := Nat.mul_le_mul_right _ hbit
    rw [List.range_succ, List.map_append, List.sum_append, Nat.pow_succ]
    simp only [List.map_cons, List.map_nil, List.sum_cons, List.sum_nil]
    omega

theorem testBit_maskSum (p : Nat → Bool) (n : Nat) {l : Nat} (h : l < n) :
    (((List.range n).map fun l => b2n (p l) * 2 ^ l).sum).testBit l = p l := by
  induction n with
  | zero => cases h
  | succ n ih =>
    rw [List.range_succ, List.map_append, List.sum_append]
    simp only [List.map_cons, List.map_nil, List.sum_cons, List.sum_nil, Nat.add_zero]
    rw [Nat.add_comm, Nat.mul_comm, Nat.testBit_two_pow_mul_add _ (maskSum_lt p n)]
    by_cases hl : l < n
    · rw [if_pos hl, ih hl]
    · have hln : l = n := by omega
      subst hln
      cases hp : p l <;> simp [b2n]

theorem getLsbD_laneMask (p : Nat → Bool) {l : Nat} (h : l < 32) : (laneMask p).getLsbD l = p l := by
  rw [laneMask, BitVec.getLsbD_ofNat, testBit_maskSum p 32 h]
  simp [h]

theorem Group.getLsbD_pred_seven (g : Group) {l : Nat} (h : l < 32) : (g.pred 7).getLsbD l = true := by
  rw [Group.pred, if_pos rfl, BitVec.getLsbD_allOnes]
  exact decide_eq_true h

/-- A predicate written takes the new value in the lanes written. -/
theorem Group.pred_setPred_self {g : Group} {n : Nat} (hp : n < g.p.length) (hn : n ≠ 7) (m : BitVec 32) (p : Nat → Bool) :
    (g.setPred n m p).pred n = g.pred n &&& ~~~m ||| laneMask p &&& m := by
  simp [Group.setPred, Group.pred, hn, hp]

/-- Every other predicate keeps its value, and p7 is not written. -/
theorem Group.pred_setPred_ne (g : Group) {k n : Nat} (h : k ≠ n ∨ n = 7) (m : BitVec 32) (p : Nat → Bool) :
    (g.setPred n m p).pred k = g.pred k := by
  by_cases hn : n = 7
  · rw [Group.setPred, if_pos hn]
  · rw [Group.setPred, if_neg hn]
    simp [Group.pred, List.getElem?_set_ne (Ne.symm (h.resolve_right hn))]

theorem Group.getLsbD_pred_setPred {g : Group} (hp : g.p.length = 7) {n : Nat} (hn : n < 8) (m : BitVec 32) (p : Nat → Bool) (k : Nat)
    {l : Nat} (hl : l < 32) :
    ((g.setPred n m p).pred k).getLsbD l = if k = n ∧ n < 7 ∧ m.getLsbD l = true then p l else (g.pred k).getLsbD l := by
  by_cases h : k ≠ n ∨ n = 7
  · rw [Group.pred_setPred_ne g h, if_neg (by omega)]
  · obtain ⟨hk, h7⟩ := not_or.mp h
    obtain rfl : k = n := not_ne_iff.mp hk
    have hlt : k < 7 := by omega
    rw [Group.pred_setPred_self (by omega) h7, BitVec.getLsbD_or, BitVec.getLsbD_and, BitVec.getLsbD_and, BitVec.getLsbD_not,
      getLsbD_laneMask p hl]
    cases m.getLsbD l <;> simp [hl, hlt]

/-! ### Floating-point results (R211) -/

theorem fpResult_isSome {o : FpOp} (h : o ≠ .convert) (fmt : Nat) (a b c : W32) : (fpResult o fmt a b c).isSome = true := by
  cases o with
  | convert => exact absurd rfl h
  | _ => rfl

theorem fpResult_convert_isSome {fmt : Nat} (h : fmt = 0 ∨ fmt = 1 ∨ isNarrow fmt = true) (a b c : W32) :
    (fpResult .convert fmt a b c).isSome = true := by
  simp only [fpResult]
  split_ifs <;> simp_all

/-- A40 and E8M0 have no element code in a register. -/
theorem fpResult_convert_none {fmt : Nat} (h : fmt = 7 ∨ fmt = 8) (a b c : W32) : fpResult .convert fmt a b c = none := by
  rcases h with rfl | rfl <;> rfl

section
variable {o : FpOp} {w : TWord} {g0 : Group} {u : List W32}

/-- Stated results draw no free value. -/
theorem foldl_fpLane_some (h : ∀ a b c, (fpResult o (w.imm % 16) a b c).isSome = true) (s : State) (ls : List Nat) (g : Group) :
    ls.foldl (fpLane o w g0 u) (s, g) = (s, ls.foldl (fun h l => h.wr w.dst l
      ((fpResult o (w.imm % 16) (g0.rd u w.a l) (g0.rd u w.b l) (g0.rd u (w.imm % 64) l)).getD 0)) g) := by
  induction ls generalizing g with
  | nil => rfl
  | cons l ls ih =>
    obtain ⟨x, hx⟩ := Option.isSome_iff_exists.mp (h (g0.rd u w.a l) (g0.rd u w.b l) (g0.rd u (w.imm % 64) l))
    have hstep : fpLane o w g0 u (s, g) l = (s, g.wr w.dst l x) := by simp only [fpLane, hx]
    simp only [List.foldl_cons, hstep, hx, Option.getD_some, ih]

/-- Results that are not stated are free values, one for each lane. -/
theorem foldl_fpLane_none (h : ∀ a b c, fpResult o (w.imm % 16) a b c = none) {ls : List Nat} (hls : ls.Nodup) (s : State) (g : Group) :
    ∃ (n : Nat) (f : Nat → W32), ls.foldl (fpLane o w g0 u) (s, g) =
      ({ s with free := n }, ls.foldl (fun h l => h.wr w.dst l (f l)) g) := by
  induction ls generalizing s g with
  | nil => exact ⟨s.free, fun _ => 0, rfl⟩
  | cons l ls ih =>
    obtain ⟨hl, hls⟩ := List.nodup_cons.mp hls
    obtain ⟨n, f, hrest⟩ := ih hls s.draw.2 (g.wr w.dst l (s.draw.1.truncate 32))
    have hstep : fpLane o w g0 u (s, g) l = (s.draw.2, g.wr w.dst l (s.draw.1.truncate 32)) := by simp only [fpLane, h]
    refine ⟨n, Function.update f l (s.draw.1.truncate 32), ?_⟩
    rw [List.foldl_cons, hstep, hrest, List.foldl_cons, Function.update_self]
    refine Prod.ext rfl (List.foldl_ext _ _ _ fun k m hm => ?_)
    have hne : m ≠ l := fun e => hl (e ▸ hm)
    rw [Function.update_of_ne hne]

end

/-! ### The commands -/

theorem exec_integerAndCompare (c f : Nat) (parity : Bool) (s : State) :
    exec (.integerAndCompare c f parity) s = .next (s.onThread c f parity (· < 0x1E) fun t =>
      s.issued c f ((if Config.isCompare (BitVec.ofNat 8 t.word.op) then
          t.group.setPred (t.word.dst % 8) (t.group.guarded t.word) fun l => Config.cmpOp (BitVec.ofNat 8 t.word.op)
            (t.group.rd t.launch.u t.word.a l) (t.group.rd t.launch.u t.word.b l) (BitVec.ofNat 31 t.word.imm)
        else t.group.each t.word fun l => Config.intOp (BitVec.ofNat 8 t.word.op)
            (t.group.rd t.launch.u t.word.a l) (t.group.rd t.launch.u t.word.b l) (BitVec.ofNat 31 t.word.imm)).goto
        (t.group.pos + 8))) := rfl

theorem exec_fpArithmetic (c f : Nat) (o : FpOp) (parity : Bool) (s : State) :
    exec (.fpArithmetic c f o parity) s = .next (s.onThread c f parity (fun op => 0x20 ≤ op ∧ op < 0x40) fun t =>
      if o = .convert ∧ 9 ≤ t.word.imm % 16 then (s.entryError c 0x1001 0).issued c f (t.group.goto (t.group.pos + 8))
      else
        let r := (lanesOf (t.group.guarded t.word)).foldl (fpLane o t.word t.group t.launch.u) (s, t.group)
        r.1.issued c f (r.2.goto (t.group.pos + 8))) := rfl

theorem exec_laneExchange (c f : Nat) (parity : Bool) (s : State) :
    exec (.laneExchange c f parity) s = .next (s.onThread c f parity (fun op => 0x50 ≤ op ∧ op < 0x60) fun t =>
      s.issued c f ((t.group.each t.word fun l => Config.laneOp (BitVec.ofNat 8 t.word.op)
        ((List.range 32).map fun l => t.group.rd t.launch.u t.word.a l) ((List.range 32).map fun l => t.group.rd t.launch.u t.word.b l)
        (t.group.guarded t.word) l).goto (t.group.pos + 8))) := rfl

section
variable {s : State} {c sq : Nat} {q : Seq} (hq : s.coreSeq c = some (sq, q))
include hq

theorem exec_rndw (f : Nat) (parity : Bool) : exec (.rndw c f parity) s = .next (s.onThread c f parity (· = 0x1E) fun t =>
    s.issued c f ((t.group.each t.word fun l => BitVec.ofNat 32 (t.draw q l)).goto (t.group.pos + 8))) := by
  show execRndw c f parity s = _
  rw [execRndw, hq, State.onThread]
  cases s.thread c f <;> rfl

theorem exec_rndk (f : Nat) (parity : Bool) : exec (.rndk c f parity) s = .next (s.onThread c f parity (· = 0x1F) fun t =>
    s.issued c f ((t.group.setPred (t.word.dst % 8) (t.group.guarded t.word) fun l =>
      decide (fld t.word.imm 16 15 ≤ t.draw q l / 2 ^ 17)).goto (t.group.pos + 8))) := by
  show execRndk c f parity s = _
  rw [execRndk, hq, State.onThread]
  cases s.thread c f <;> rfl

end

section
variable {s : State} {c f : Nat} {t : Thread} (ht : s.thread c f = some t) (hop : 0x20 ≤ t.word.op ∧ t.word.op < 0x40)
include ht hop

/-- An operation whose results are stated gives them to the guarded lanes. -/
theorem exec_fpArithmetic_stated {o : FpOp} (hr : ¬(o = .convert ∧ 9 ≤ t.word.imm % 16))
    (h : ∀ a b c, (fpResult o (t.word.imm % 16) a b c).isSome = true) :
    exec (.fpArithmetic c f o false) s = .next (s.issued c f ((t.group.each t.word fun l =>
      (fpResult o (t.word.imm % 16) (t.group.rd t.launch.u t.word.a l) (t.group.rd t.launch.u t.word.b l)
        (t.group.rd t.launch.u (t.word.imm % 64) l)).getD 0).goto (t.group.pos + 8))) := by
  rw [exec_fpArithmetic, State.onThread_issues ht hop, if_neg hr, foldl_fpLane_some h]
  rfl

/-- A conversion to a reserved format code (R17, R42). -/
theorem exec_convert_reserved (h : 9 ≤ t.word.imm % 16) :
    exec (.fpArithmetic c f .convert false) s = .next ((s.entryError c 0x1001 0).issued c f (t.group.goto (t.group.pos + 8))) := by
  rw [exec_fpArithmetic, State.onThread_issues ht hop, if_pos ⟨rfl, h⟩]

/-- A conversion to a format whose result the spec does not state gives the guarded lanes free values. -/
theorem exec_convert_unstated (h : t.word.imm % 16 = 7 ∨ t.word.imm % 16 = 8) : ∃ (n : Nat) (v : Nat → W32),
    exec (.fpArithmetic c f .convert false) s =
      .next (({ s with free := n }).issued c f ((t.group.each t.word v).goto (t.group.pos + 8))) := by
  have hr : ¬(FpOp.convert = .convert ∧ 9 ≤ t.word.imm % 16) := by omega
  obtain ⟨n, v, hfold⟩ := foldl_fpLane_none (g0 := t.group) (u := t.launch.u) (fpResult_convert_none h)
    (lanesOf_nodup (t.group.guarded t.word)) s t.group
  refine ⟨n, v, ?_⟩
  rw [exec_fpArithmetic, State.onThread_issues ht hop, if_neg hr, hfold]
  rfl

end

/-- Settles O8: each command by what a thread instruction does (`State.onThread`), floating point by whether the lanes' results are stated
(`exec_fpArithmetic_stated`, `exec_convert_unstated`), and the results by `Group.rd_each` and `Group.getLsbD_pred_setPred`. -/
theorem threadArithmeticInGuardedLanes : Obligations.ThreadArithmeticInGuardedLanes := by
  refine ⟨fun s c f t ht => ⟨⟨fun h => ?intParity, fun o h h' => ?fpParity, fun h h' => ?laneParity⟩, fun h hc => ?compare,
      fun h hc => ?integer, fun o h h' ho => ?fp, fun h h' hf => ?convert, fun h h' => exec_convert_reserved ht ⟨h, h'⟩,
      fun h h' hf => ?unstated, fun h h' => ?lane,
      fun sq q hq => ⟨fun h => ?rndwParity, fun h => ?rndkParity, fun h => ?rndw, fun h => ?rndk⟩⟩,
    fun g w u f n m p => ⟨fun r l => Group.rd_each g w u f r, fun hp hn k l _ => Group.getLsbD_pred_setPred hp hn m p k,
      fun l => g.getLsbD_pred_seven, g.goto_registers⟩⟩
  case intParity => rw [exec_integerAndCompare, State.onThread_parity ht h]
  case fpParity => rw [exec_fpArithmetic, State.onThread_parity ht ⟨h, h'⟩]
  case laneParity => rw [exec_laneExchange, State.onThread_parity ht ⟨h, h'⟩]
  case compare => rw [exec_integerAndCompare, State.onThread_issues ht h, if_pos hc]
  case integer => rw [exec_integerAndCompare, State.onThread_issues ht h, if_neg (by rw [hc]; decide)]
  case fp => exact exec_fpArithmetic_stated ht ⟨h, h'⟩ (fun hr => ho hr.1) (fpResult_isSome ho _)
  case convert =>
    have hr : ¬(FpOp.convert = .convert ∧ 9 ≤ t.word.imm % 16) := by
      rintro ⟨-, h9⟩
      rcases hf with hf | hf | hf
      · omega
      · omega
      · simp only [isNarrow, Bool.and_eq_true, decide_eq_true_eq] at hf
        omega
    exact exec_fpArithmetic_stated ht ⟨h, h'⟩ hr (fpResult_convert_isSome hf)
  case unstated =>
    obtain ⟨n, v, hexec⟩ := exec_convert_unstated ht ⟨h, h'⟩ hf
    exact ⟨n, t.group.each t.word v, hexec, fun r l hl hn => by rw [Group.rd_each _ _ _ _ _ hl, if_neg hn], t.group.each_frame t.word v⟩
  case lane => rw [exec_laneExchange, State.onThread_issues ht ⟨h, h'⟩]
  case rndwParity => rw [exec_rndw hq, State.onThread_parity ht h]
  case rndkParity => rw [exec_rndk hq, State.onThread_parity ht h]
  case rndw => rw [exec_rndw hq, State.onThread_issues ht h]; rfl
  case rndk => rw [exec_rndk hq, State.onThread_issues ht h]; rfl

end Sys2Proof.Machine
end

section
/-! PROOFS. Matrix regions and the group port (R188 to R190, R223 to R226, R234). -/

namespace Sys2Proof.Machine

open Sys2Proof

/-! ### The group engine after an instruction has issued -/

@[simp] theorem State.groupEngine_setGe (s : State) (c : Nat) (g : Ge) : (s.setGe c g).groupEngine c = g := by
  simp [State.groupEngine, State.setGe]

@[simp] theorem State.groupEngine_bump (s : State) (o n c : Nat) : (s.bump o n).groupEngine c = s.groupEngine c :=
  congrArg (lookD · c Ge.empty) (s.bump_ge o n)

theorem State.groupEngine_issued (s : State) (c f : Nat) (g : Group) :
    (s.issued c f g).groupEngine c =
      { s.groupEngine c with groups := put (s.groupEngine c).groups f { g with last := (s.groupEngine c).clock + 1 } } := by
  simp only [State.issued, State.setGroup, State.groupEngine_bump, State.groupEngine_setGe]

/-! ### Regions -/

section
variable {g : Group} {lane : Nat} {lanes : BitVec 32} (h : g.region = some (lane, lanes))
include h

theorem Group.issuer_of_region : g.issuer = lane := by
  rw [Group.issuer, h]

theorem Group.sameLanes_of_region (ha : g.active = lanes) : g.sameLanes = true := by
  rw [Group.sameLanes, h]
  exact beq_iff_eq.mpr ha

end

/-- The state after an MX has entered the port: issued, and counted as an MX (R223). -/
def State.mxEnters (s : State) (c f : Nat) (t : Thread) (i : MatF) : State :=
  let u := s.issued c f (t.group.goto (t.group.pos + 32))
  (u.setGe c { u.groupEngine c with port := t.ge.port ++ [i] }).bump (offGe c 0x40) 1

theorem State.groupEngine_mxEnters (s : State) (c f : Nat) (t : Thread) (i : MatF) :
    (s.mxEnters c f t i).groupEngine c =
      { s.groupEngine c with
        groups := put (s.groupEngine c).groups f { t.group.goto (t.group.pos + 32) with last := (s.groupEngine c).clock + 1 },
        port := t.ge.port ++ [i] } := by
  simp only [State.mxEnters, State.groupEngine_bump, State.groupEngine_setGe, State.groupEngine_issued]

/-- What an MX does of a group that has the lanes of its region: the issuer lane's enters the port where it has room and the tensor
engine has not taken END, the others' does nothing (R189, R190, R223, R224). -/
def State.mxIssues (s : State) (c f : Nat) (t : Thread) : State :=
  match (t.group.guarded t.word).getLsbD t.group.issuer, mxFields t.prog t.group.pos t.word with
  | true, some i =>
    if 16 ≤ t.ge.port.length then s.bump (offGe c 0x48) 1
    else if (s.core c).ended.contains .te then s.groupFault c t 0x9040
    else s.mxEnters c f t i
  | _, _ => s.issued c f (t.group.goto (t.group.pos + 32))

theorem exec_mrBegin (c f : Nat) (parity : Bool) (s : State) :
    exec (.mrBegin c f parity) s = .next (s.onThread c f parity (· = 0x64) fun t =>
      s.issued c f
        (({ t.group with region := some (((lanesOf t.group.active).head?).getD 0, t.group.active) }).goto (t.group.pos + 8))) := rfl

theorem exec_mrEnd (c f : Nat) (parity : Bool) (s : State) :
    exec (.mrEnd c f parity) s = .next (s.onThread c f parity (· = 0x65) fun t =>
      if t.group.sameLanes then s.issued c f (({ t.group with region := none }).goto (t.group.pos + 8)) else s.diverged c t) := rfl

theorem exec_mx (c f : Nat) (parity : Bool) (s : State) :
    exec (.mx c f parity) s = .next (s.onThread c f parity (· = 0x66) fun t =>
      if !t.group.sameLanes then s.diverged c t else s.mxIssues c f t) := rfl

/-! ### The port -/

section
variable {s : State} {c f : Nat} {t : Thread}

/-- The MX of a lane that is not the issuer, or whose guard is false, does nothing. -/
theorem State.mxIssues_other (h : (t.group.guarded t.word).getLsbD t.group.issuer = false) :
    s.mxIssues c f t = s.issued c f (t.group.goto (t.group.pos + 32)) := by
  rw [State.mxIssues, h]

section
variable {i : MatF} (h : (t.group.guarded t.word).getLsbD t.group.issuer = true) (hi : mxFields t.prog t.group.pos t.word = some i)
include h hi

theorem State.mxIssues_full (hp : 16 ≤ t.ge.port.length) : s.mxIssues c f t = s.bump (offGe c 0x48) 1 := by
  simp only [State.mxIssues, h, hi, hp, if_true]

theorem State.mxIssues_ended (hp : t.ge.port.length < 16) (he : Engine.te ∈ (s.core c).ended) :
    s.mxIssues c f t = s.groupFault c t 0x9040 := by
  simp only [State.mxIssues, h, hi, Nat.not_le.mpr hp, List.contains_iff_mem.mpr he, if_true, if_false]

theorem State.mxIssues_enters (hp : t.ge.port.length < 16) (he : Engine.te ∉ (s.core c).ended) :
    s.mxIssues c f t = s.mxEnters c f t i := by
  have hends : ¬(s.core c).ended.contains .te = true := mt List.contains_iff_mem.mp he
  simp only [State.mxIssues, h, hi, if_neg (Nat.not_le.mpr hp), if_neg hends]

end
end

/-- Settles O11: each command by what a thread instruction does (`State.onThread`), MX of a region's lanes by `State.mxIssues`. -/
theorem matrixRegions : Obligations.MatrixRegions := by
  intro s c f t ht
  refine ⟨⟨fun h => ?beginParity, fun h => ?endParity, fun h => ?mxParity⟩, fun h => ?begins, fun h hs => ?ends,
    fun h hs => ?endDiverged, fun h hs => ?mxDiverged, fun lane lanes i h hr ha hi => ?mx⟩
  case beginParity => rw [exec_mrBegin, State.onThread_parity ht h]
  case endParity => rw [exec_mrEnd, State.onThread_parity ht h]
  case mxParity => rw [exec_mx, State.onThread_parity ht h]
  case begins => rw [exec_mrBegin, State.onThread_issues ht h]
  case ends => rw [exec_mrEnd, State.onThread_issues ht h, if_pos hs]
  case endDiverged =>
    rw [exec_mrEnd, State.onThread_issues ht h, if_neg (by rw [hs]; decide)]
    rfl
  case mxDiverged =>
    rw [exec_mx, State.onThread_issues ht h, hs]
    rfl
  case mx =>
    have hexec : exec (.mx c f false) s = .next (s.mxIssues c f t) := by
      rw [exec_mx, State.onThread_issues ht h, Group.sameLanes_of_region hr ha]
      rfl
    obtain rfl := Group.issuer_of_region hr
    refine ⟨fun hg hp => by rw [hexec, State.mxIssues_full hg hi hp], fun hg hp he => by rw [hexec, State.mxIssues_ended hg hi hp he],
      fun hg hp he => ?enters, fun hg => by rw [hexec, State.mxIssues_other hg]⟩
    refine ⟨s.mxEnters c f t i, by rw [hexec, State.mxIssues_enters hg hi hp he], ?_, ?_, fun f' hf => ?_, rfl, rfl, rfl⟩
    · rw [State.groupEngine_mxEnters]
    · rw [State.groupEngine_mxEnters, look_put_self]
    · rw [State.groupEngine_mxEnters, look_put_ne _ _ hf]

end Sys2Proof.Machine
end

section
/-! PROOFS. Loads as the loader takes and ends them (R194, R195, R205). -/

namespace Sys2Proof.Machine

open Sys2Proof

/-! ### Fences after reads through the slices

A read can count a reread for its context (R302); it changes no other object. -/

section
variable (s : State) (p policy ctx : Nat)

theorem State.access_fences (ln : Nat) (hit : Bool) : (s.access p ln hit).objs.fences = s.objs.fences :=
  congrArg Objects.fences (Area.same_of_keeps (fun _ w => State.access_keeps w (Keeps.refl s)) .objs (by decide))

theorem State.reachDie_fences (d : Nat) : (s.reachDie d).objs.fences = s.objs.fences :=
  congrArg Objects.fences (Area.same_of_keeps (fun _ w => State.reachDie_keeps w (Keeps.refl s)) .objs (by decide))

theorem State.missLine_fences (ln : Nat) (m : Miss) : (s.missLine p ctx ln m).1.objs.fences = s.objs.fences := by
  have hreach : ((s.access p ln false).reachDie (stackOf (ln * 128) / 2)).objs.fences = s.objs.fences := by
    rw [State.reachDie_fences, State.access_fences]
  simp only [State.missLine, State.addMiss]
  split_ifs <;> exact hreach

theorem State.readServed_fences (ln o n : Nat) (reader : Option (Nat × Nat)) :
    (s.readServed p policy ctx ln o n reader).1.objs.fences = s.objs.fences := by
  unfold State.readServed
  dsimp only
  split
  · split_ifs
    · exact s.access_fences p ln true
    · exact State.missLine_fences ..
    · exact State.missLine_fences ..
  · exact State.missLine_fences ..

theorem State.readLine_fences (ln o n : Nat) (reader : Option (Nat × Nat)) :
    (s.readLine p policy ctx ln o n reader).1.objs.fences = s.objs.fences := by
  unfold State.readLine
  dsimp only
  split_ifs
  · exact State.readServed_fences ..
  · exact s.reachDie_fences _

theorem State.readRange_fences (a n : Nat) (reader : Option (Nat × Nat)) :
    (s.readRange p policy ctx a n reader).1.objs.fences = s.objs.fences :=
  List.foldlRecOn (motive := fun t : State × List Nat => t.1.objs.fences = s.objs.fences) _ _ rfl
    fun t ht _ _ => (t.1.readLine_fences ..).trans ht

theorem State.readPieces_fences (l : List Piece) (reader : Option (Nat × Nat)) :
    (s.readPieces policy ctx l reader).1.objs.fences = s.objs.fences :=
  List.foldlRecOn (motive := fun t : State × List Nat => t.1.objs.fences = s.objs.fences) _ _ rfl
    fun t ht _ _ => (t.1.readRange_fences ..).trans ht

theorem State.readPieces_seqs (l : List Piece) (reader : Option (Nat × Nat)) :
    (s.readPieces policy ctx l reader).1.seqs = s.seqs :=
  Area.same_of_keeps (fun _ w => State.readPieces_keeps w (Keeps.refl s)) .seqs (by decide)

end

/-! ### LOAD_START -/

/-- What the checks of a load's file answer (R194), under the limit on a stream's entries that takes effect as the load starts. -/
def State.checkFile (s : State) (j : LoadJob) (b : List Byte) : Except Fail (List Kernel) :=
  checkModule s.ident.grade s.loaderVersion.1 (2 ^ clamp 16 24 (fld ((s.adopt (offLr 0) 0 5).reg (offLr 0)) 0 5)) j.bytes b

/-- The verdict of the checks of a file: code 0 and its kernels, or the first failure. -/
def verdictOf : Except Fail (List Kernel) → Nat × Nat × List Kernel
  | .ok ks => (0, 0, ks)
  | .error (code, detail) => (code, detail, [])

/-- A load taken by the loader, with its verdict. -/
def State.loading (s : State) (j : LoadJob) (rest : List LoadJob) (v : Nat × Nat × List Kernel) : State :=
  { s with loader := { s.loader with running := some { j with verdict := some v }, queue := rest } }

theorem exec_loadStart (s : State) : exec .loadStart s = execLoadStart s := rfl
theorem exec_loadDone (s : State) : exec .loadDone s = execLoadDone s := rfl

theorem exec_loadStart_idle {s : State} (h : s.loader.running ≠ none ∨ s.loader.queue = []) : exec .loadStart s = .next s := by
  rw [exec_loadStart, execLoadStart]
  split
  next hr hq => simp [hr, hq] at h
  next => rfl

section
variable {s : State} {j : LoadJob} {rest : List LoadJob} (hr : s.loader.running = none) (hq : s.loader.queue = j :: rest)
include hr hq

theorem exec_loadStart_unread {e : Nat} (h : (s.adopt (offLr 0) 0 5).loadFile j = .error e) :
    exec .loadStart s = .next ((s.adopt (offLr 0) 0 5).loading j rest (e, 0, [])) := by
  simp only [exec_loadStart, execLoadStart, hr, hq, h, State.loading]

/-- A file that could be read gets the verdict of the checks. -/
theorem exec_loadStart_read {b : List Byte} {l : List Piece} (h : (s.adopt (offLr 0) 0 5).loadFile j = .ok (b, l)) :
    exec .loadStart s =
      .next (((s.adopt (offLr 0) 0 5).readPieces 0 j.ctx l none).1.loading j rest (verdictOf (s.checkFile j b))) := by
  simp only [exec_loadStart, execLoadStart, hr, hq, h, State.loading, State.checkFile]
  split
  next he => rw [he]; rfl
  next ho => rw [ho]; rfl

end

/-! ### LOAD_DONE -/

section
variable {s : State} {j : LoadJob} (hr : s.loader.running = some j)
include hr

theorem exec_loadDone_rejected {code detail : Nat} {ks : List Kernel} (hv : j.verdict = some (code, detail, ks)) (hc : code ≠ 0) :
    exec .loadDone s = .next (s.rejectLoad j code detail) := by
  cases code with
  | zero => exact absurd rfl hc
  | succ n => simp only [exec_loadDone, execLoadDone, hr, hv]

/-- A load whose module the loader accepted ends by the room for its image (R195). -/
theorem exec_loadDone_accepted {detail : Nat} {ks : List Kernel} (hv : j.verdict = some (0, detail, ks)) :
    exec .loadDone s = .next (if 64 ≤ s.modulesOf j.ctx then s.rejectLoad j 0x9021 0
      else if 2 ^ 26 < (Config.freeValue s.free).toNat then
        ({ s with free := s.free + 1 } : State).rejectLoad j 0x900B (where_ noIdx 0 noIdx)
      else ({ s with free := s.free + 1 } : State).storeModule j ks (Config.freeValue s.free).toNat) := by
  simp only [exec_loadDone, execLoadDone, hr, hv]
  rfl

end

/-- Settles O27: a load's start by whether its file can be read, its end by its verdict and the room for its image. -/
theorem loaderRuns : Obligations.LoaderRuns := by
  intro s j rest
  refine ⟨exec_loadStart_idle, fun hr hq => ⟨fun e he => exec_loadStart_unread hr hq he, fun b l hf => ?read⟩,
    fun code detail ks hr hv => ⟨exec_loadDone_rejected hr hv, ?stored, ?large, ?full⟩⟩
  case read =>
    have hadopt := s.adopt_eq (offLr 0) 0 5
    have hfences : (s.adopt (offLr 0) 0 5).objs.fences = s.objs.fences := by rw [hadopt]
    have hseqs : (s.adopt (offLr 0) 0 5).seqs = s.seqs := by rw [hadopt]
    refine ⟨_, _, exec_loadStart_read hr hq hf, rfl, rfl, rfl, rfl, (State.readPieces_fences ..).trans hfences,
      (State.readPieces_seqs ..).trans hseqs, fun ks hk => congrArg (some <| verdictOf ·) hk,
      fun code detail hk => congrArg (some <| verdictOf ·) hk⟩
  case stored =>
    rintro rfl hm hb
    rw [exec_loadDone_accepted hr hv, if_neg (Nat.not_le.mpr hm), if_neg (Nat.not_lt.mpr hb)]
  case large =>
    rintro rfl hm hb
    rw [exec_loadDone_accepted hr hv, if_neg (Nat.not_le.mpr hm), if_pos hb]
  case full =>
    rintro rfl hm
    rw [exec_loadDone_accepted hr hv, if_pos hm]

end Sys2Proof.Machine
end

section
/-! PROOFS. Launches of the group engine and their blocks (R207, R215, R216, R218, R233). -/

namespace Sys2Proof.Machine

open Sys2Proof

theorem exec_launch (c : Nat) (s : State) : exec (.launch c) s = execLaunch c s := rfl
theorem exec_blockStart (c : Nat) (s : State) : exec (.blockStart c) s = execBlockStart c s := rfl
theorem exec_launchComplete (c slot : Nat) (s : State) : exec (.launchComplete c slot) s = execLaunchComplete c slot s := rfl

/-! ### LAUNCH -/

/-- The head of the group engine taken, and with it the limit of a barrier phase last written (R13, R222). -/
def State.takeLaunch (s : State) (c : Nat) : State := (s.take c .ge).adopt (offGe c 0) 0 5

/-- The core that has taken a launch. -/
theorem State.core_takeLaunch {s : State} {c : Nat} (h : s.readHead c .ge = s) :
    (s.takeLaunch c).core c = { (s.core c).take .ge with cap := (s.die (c / 68)).cap } := by
  rw [← State.core_take h, State.takeLaunch, State.adopt_eq]
  rfl

/-- A launch as it is taken: none of its blocks started, its work the core's next, the limit of its barrier phases that of GE_CTL
within its range. -/
def State.launchOf (s : State) (c : Nat) (q : Seq) (entry groups blocks const : Nat) : Launch :=
  ⟨entry, groups, blocks, constWords q.kernel const, 0, 0, clamp 12 28 (fld ((s.takeLaunch c).reg (offGe c 0)) 0 5),
    ((s.takeLaunch c).core c).nextWork⟩

/-- The state with a launch in a slot, as outstanding work of the group engine. -/
def State.launched (s : State) (c slot : Nat) (l : Launch) : State :=
  ((s.takeLaunch c).newWork c .ge).1.setGe c { s.groupEngine c with launches := put (s.groupEngine c).launches slot l }

theorem le_clamp (lo hi v : Nat) : lo ≤ clamp lo hi v := le_max_left ..

theorem clamp_le {lo hi : Nat} (h : lo ≤ hi) (v : Nat) : clamp lo hi v ≤ hi := max_le h (min_le_left ..)

theorem exec_launch_taken {s : State} {c sq entry groups blocks const k slot : Nat} {q : Seq} (hs : s.coreSeq c = some (sq, q))
    (h : s.headOf c .ge = some (.body (.launch entry groups blocks const) k))
    (hf : firstFree (fun i => (look (s.groupEngine c).launches i).isSome) 2 = some slot) :
    exec (.launch c) s = .next (s.launched c slot (s.launchOf c q entry groups blocks const)) := by
  simp only [exec_launch, execLaunch, h, hs, hf]
  rfl

theorem exec_launch_waits {s : State} {c : Nat} (hf : firstFree (fun i => (look (s.groupEngine c).launches i).isSome) 2 = none) :
    exec (.launch c) s = .next s := by
  simp only [exec_launch, execLaunch, hf]
  split
  next hslot => cases hslot
  next => rfl

/-- What taking a launch leaves as it is, the launch in its slot leaves so too. -/
theorem State.launched_same (s : State) (c slot : Nat) (l : Launch) {p : Area} (h : p ∉ [Area.regs, .cache, .cores, .ge, .objs, .pwr]) :
    p.same s (s.launched c slot l) :=
  Area.same_of_keeps (fun _ w => State.setGe_keeps (w.sub rfl) (State.newWork_keeps (w.sub rfl)
    (State.adopt_keeps (w.sub rfl) (State.take_keeps (w.sub rfl) (Keeps.refl s))))) p h

/-- A launch taken adds its work to the core's. -/
theorem State.work_launched {s : State} {c : Nat} (h : s.readHead c .ge = s) (slot : Nat) (l : Launch) :
    ((s.launched c slot l).core c).work = (s.core c).work ++ [(.ge, (s.core c).nextWork)] := by
  show ((((s.takeLaunch c).setCore c _).core c).work) = _
  rw [State.core_setCore_self, State.core_takeLaunch h]
  rfl

theorem State.launchOf_work {s : State} {c : Nat} (h : s.readHead c .ge = s) (q : Seq) (entry groups blocks const : Nat) :
    (s.launchOf c q entry groups blocks const).work = (s.core c).nextWork := by
  rw [State.launchOf, State.core_takeLaunch h]
  rfl

theorem State.launchOf_barLog2 (s : State) (c : Nat) (q : Seq) (entry groups blocks const : Nat) :
    12 ≤ (s.launchOf c q entry groups blocks const).barLog2 ∧ (s.launchOf c q entry groups blocks const).barLog2 ≤ 28 :=
  ⟨le_clamp .., clamp_le (by decide) _⟩

/-! ### BLOCK_START -/

/-- A table with several entries set keeps those at other keys. -/
theorem look_foldl_put_of_ne {α : Type} {es : List (Nat × α)} {k : Nat} (h : ∀ e ∈ es, e.1 ≠ k) (t : Tab α) :
    look (es.foldl (fun t e => put t e.1 e.2) t) k = look t k :=
  List.foldlRecOn (motive := fun u : Tab α => look u k = look t k) _ _ rfl
    fun u hu e he => (look_put_ne u e.2 (h e he).symm).trans hu

/-- A table with entries set at distinct keys holds each of them. -/
theorem look_foldl_put_of_mem {α : Type} {es : List (Nat × α)} (hn : (es.map Prod.fst).Nodup) {e : Nat × α} (h : e ∈ es) (t : Tab α) :
    look (es.foldl (fun t e => put t e.1 e.2) t) e.1 = some e.2 := by
  induction es generalizing t with
  | nil => cases h
  | cons d es ih =>
    obtain ⟨hd, hes⟩ := List.nodup_cons.mp hn
    rcases List.mem_cons.mp h with rfl | he
    · have hne : ∀ x ∈ es, x.1 ≠ e.1 := fun x hx hxe => hd (List.mem_map.mpr ⟨x, hx, hxe⟩)
      rw [List.foldl_cons, look_foldl_put_of_ne hne, look_put_self]
    · exact ih hes he _

/-- The frames of a core that hold no group, ascending (R216). -/
def Ge.freeFrames (g : Ge) (k : Kernel) : List Nat := (List.range (frameBytes k / 0x2000)).filter fun f => (look g.groups f).isNone

theorem Ge.freeFrames_nodup (g : Ge) (k : Kernel) : (g.freeFrames k).Nodup := List.nodup_range.filter _

/-- Groups by the frames they start in, in order. -/
def inFrames (frames : List Nat) (start : Nat → Group) : List (Nat × Group) := frames.zipIdx.map fun e => (e.1, start e.2)

section
variable (frames : List Nat) (start : Nat → Group)

theorem inFrames_keys : (inFrames frames start).map Prod.fst = frames := by
  simp [inFrames, Function.comp_def]

theorem mem_inFrames {i f : Nat} (h : frames[i]? = some f) : (f, start i) ∈ inFrames frames start :=
  List.mem_map.mpr ⟨(f, i), List.mk_mem_zipIdx_iff_getElem?.mpr h, rfl⟩

end

/-- The group engine with the next block of a launch started in frames (R208, R216, R218). -/
def Ge.startBlock (g : Ge) (slot : Nat) (l : Launch) (rank : Nat) (free : List Nat) : Ge :=
  { g with launches := put g.launches slot { l with nextBlock := l.nextBlock + 1 },
           blocks := put g.blocks g.nextBlock ⟨slot, l.nextBlock, l.groups, (free.head?).getD 0, 0, 0, 0, 0, 0⟩,
           groups := (inFrames (free.take l.groups) fun i => Group.start g.nextBlock i l.nextBlock rank l.entry).foldl
             (fun t e => put t e.1 e.2) g.groups,
           nextBlock := g.nextBlock + 1 }

section
variable {g : Ge} {slot rank : Nat} {l : Launch} {free : List Nat}

/-- Each group of a block starts in the next of the free frames. -/
theorem Ge.look_groups_startBlock (hn : free.Nodup) {i f : Nat} (hi : i < l.groups) (hf : free[i]? = some f) :
    look (g.startBlock slot l rank free).groups f = some (Group.start g.nextBlock i l.nextBlock rank l.entry) := by
  have hkeys : (free.take l.groups).Nodup := hn.sublist (List.take_sublist ..)
  have htake : (free.take l.groups)[i]? = some f := by rw [List.getElem?_take_of_lt hi, hf]
  exact look_foldl_put_of_mem (by rwa [inFrames_keys]) (mem_inFrames _ _ htake) _

/-- No other frame changes. -/
theorem Ge.look_groups_startBlock_of_not_mem {f : Nat} (hf : f ∉ free.take l.groups) :
    look (g.startBlock slot l rank free).groups f = look g.groups f := by
  refine look_foldl_put_of_ne (fun e he hef => hf ?_) _
  have hkey := List.mem_map_of_mem (f := Prod.fst) he
  rwa [inFrames_keys, hef] at hkey

end

section
variable {s : State} {c sq slot : Nat} {q : Seq} {l : Launch} (hs : s.coreSeq c = some (sq, q))
  (hl : (s.groupEngine c).starting = some (slot, l))
include hs hl

theorem exec_blockStart_waits (hf : ((s.groupEngine c).freeFrames q.kernel).length < l.groups) : exec (.blockStart c) s = .next s := by
  rw [Ge.freeFrames] at hf
  simp [exec_blockStart, execBlockStart, hs, hl, hf]

theorem exec_blockStart_starts (ht : s.takes c = true) (hf : l.groups ≤ ((s.groupEngine c).freeFrames q.kernel).length) :
    exec (.blockStart c) s =
      .next (s.setGe c ((s.groupEngine c).startBlock slot l (s.coreRank c) ((s.groupEngine c).freeFrames q.kernel))) := by
  rw [Ge.freeFrames] at hf
  simp only [exec_blockStart, execBlockStart, hs, hl, ht, hf, decide_true, Bool.and_self, if_true]
  rfl

end

/-! ### LAUNCH_COMPLETE -/

section
variable {s : State} {c x slot : Nat} {l : Launch} (hx : s.coreCtx c = some x) (hl : look (s.groupEngine c).launches slot = some l)
include hx hl

theorem exec_launchComplete_ends (h : l.ended = l.blocks) : exec (.launchComplete c slot) s = .next
    (((s.setGe c { s.groupEngine c with launches := del (s.groupEngine c).launches slot }).bump (offGe c 0x18) 1).finishWork c l.work) := by
  simp only [exec_launchComplete, execLaunchComplete, hl, hx, if_pos h]

theorem exec_launchComplete_goesOn (h : l.ended ≠ l.blocks) : exec (.launchComplete c slot) s = .next s := by
  simp only [exec_launchComplete, execLaunchComplete, hl, hx, if_neg h]

end

/-- Settles O7: a launch by whether a slot is free (`State.launched`), a block by whether its groups' frames are (`Ge.startBlock`), and the
end of a launch by whether all its blocks have ended. -/
theorem launchesAndBlocks : Obligations.LaunchesAndBlocks := by
  intro s c sq q hs
  refine ⟨fun entry groups blocks const k slot h hf => ?taken, exec_launch_waits, fun slot l hl ht => ⟨exec_blockStart_waits hs hl,
    fun hf => ?starts⟩, fun x slot l hx hl => ⟨exec_launchComplete_ends hx hl, exec_launchComplete_goesOn hx hl⟩⟩
  case taken =>
    have hread := State.readHead_of_no_handles (State.head_of_headOf h) rfl
    have hwork := State.launchOf_work hread q entry groups blocks const
    obtain ⟨hlow, hhigh⟩ := s.launchOf_barLog2 c q entry groups blocks const
    refine ⟨_, s.launchOf c q entry groups blocks const, exec_launch_taken hs h hf, ?_, rfl, rfl, rfl, rfl, rfl, rfl, hlow, hhigh,
      hwork, ?_, ?_, ?_, ?_, ?_⟩
    · rw [State.launched, State.groupEngine_setGe, look_put_self]
    · rw [State.work_launched hread, hwork]
    · rw [State.launched, State.groupEngine_setGe]
    · exact s.launched_same c slot _ (p := .mem) (by decide)
    · exact s.launched_same c slot _ (p := .seqs) (by decide)
    · exact s.launched_same c slot _ (p := .te) (by decide)
  case starts =>
    refine ⟨_, exec_blockStart_starts hs hl ht hf, ?_, ?_, fun i f hi hfree => ?_, fun f hfree => ?_, rfl, rfl, rfl, rfl⟩
    all_goals rw [State.groupEngine_setGe]
    · exact look_put_self ..
    · exact look_put_self ..
    · exact Ge.look_groups_startBlock (Ge.freeFrames_nodup ..) hi hfree
    · exact Ge.look_groups_startBlock_of_not_mem hfree

end Sys2Proof.Machine
end

section
/-! PROOFS. Thread access to local store, and narrow stores (R211, R212, R227, R234, R287). -/

namespace Sys2Proof.Machine

open Sys2Proof

theorem exec_narrowStore (c f : Nat) (err : CoreErr) (s : State) : exec (.narrowStore c f err) s = execNarrowStore c f err s := rfl

/-! ### The errors that the checks report (R234, R287) -/

/-- An error that does not stop a thread instruction changes registers and the cache alone. -/
theorem State.groupErr_runs {s : State} {c : Nat} {t : Thread} {err : CoreErr} (h : (s.groupErr c t err).2 = false) :
    (s.groupErr c t err).1 = { s with regs := (s.groupErr c t err).1.regs, cache := (s.groupErr c t err).1.cache } := by
  cases err with
  | none => rfl
  | corrected => rfl
  | uncorrectable => cases h
  | parity => cases h
  | privLine ln =>
    simp only [State.groupErr, State.coreErr]
    split
    · rfl
    · rfl

/-! ### A local-store instruction (R211) -/

section
variable {s : State} {c f n : Nat} {t : Thread} {err : CoreErr} {own : State → State × Group}

theorem State.lsInsn_faults {code l : Nat} (h : s.lsFault c t n = some (code, l)) :
    s.lsInsn c f n err t own = s.threadFault c t code l := by
  rw [State.lsInsn, h]

section
variable (h : s.lsFault c t n = none)
include h

theorem State.lsInsn_stops (hs : (s.groupErr c t err).2 = true) : s.lsInsn c f n err t own = (s.groupErr c t err).1 := by
  simp only [State.lsInsn, h, if_pos hs]

theorem State.lsInsn_runs (hs : (s.groupErr c t err).2 = false) : s.lsInsn c f n err t own =
    (own (s.groupErr c t err).1).1.issued c f ((own (s.groupErr c t err).1).2.goto (t.group.pos + 8)) := by
  simp only [State.lsInsn, h, hs, Bool.false_eq_true, if_false]

end
end

/-- The lanes' values stored, lane after lane (R212). -/
def State.storeLanes (s : State) (c n : Nat) (t : Thread) (lanes : List Nat) : State :=
  lanes.foldl (fun (v : State) l => v.lsWrite c (t.address l) (leBytes n (t.group.rd t.launch.u t.word.dst l).toNat)) s

section
variable {s : State} {c f : Nat} {t : Thread} (ht : s.thread c f = some t) (hop : 0x40 ≤ t.word.op ∧ t.word.op < 0x50)
include ht hop

theorem exec_localStoreLoad (width : LsWidth) (err : CoreErr) :
    exec (.localStoreLoad c f width err) s = .next (s.lsInsn c f (lsBytes width) err t fun u =>
      (u, t.group.each t.word fun l => BitVec.ofNat 32 (leNat (u.lsRead c (t.address l) (lsBytes width))))) := by
  show execLocalStoreLoad c f width err s = _
  simp only [execLocalStoreLoad, ht, if_pos hop]

theorem exec_localStoreStore (width : LsWidth) (err : CoreErr) :
    exec (.localStoreStore c f width err) s = .next (s.lsInsn c f (lsBytes width) err t fun u =>
      (u.storeLanes c (lsBytes width) t (lanesOf (t.group.guarded t.word)), t.group)) := by
  show execLocalStoreStore c f width err s = _
  simp only [execLocalStoreStore, ht, if_pos hop]
  rfl

theorem exec_localStoreAtomic {op : AtomicKind} (ho : op ≠ .or) (err : CoreErr) :
    exec (.localStoreAtomic c f op err) s = .next (s.lsInsn c f 4 err t fun u =>
      (lanesOf (t.group.guarded t.word)).foldl (atomicLane c op t) (u, t.group)) := by
  show execLocalStoreAtomic c f op err s = _
  obtain ⟨hlow, hhigh⟩ := hop
  simp only [execLocalStoreAtomic, ht, if_pos (And.intro hlow (And.intro hhigh ho))]

end

/-! ### Stores (R212, R283) -/

theorem length_leBytes (n v : Nat) : (leBytes n v).length = n := by
  induction n generalizing v with
  | zero => rfl
  | succ n ih => rw [leBytes, List.length_cons, ih]

/-- What writes to some places leave: every part but memory, its canonical form, and in a canonical memory every byte elsewhere. -/
structure WritesWithin (at_ : Nat → Prop) (s t : State) : Prop where
  eq : t = { s with mem := t.mem }
  canonical : MemCanonical s → MemCanonical t
  byte : MemCanonical s → ∀ a, ¬at_ a → cellGet t.mem a = cellGet s.mem a

theorem WritesWithin.refl (at_ : Nat → Prop) (s : State) : WritesWithin at_ s s := ⟨rfl, id, fun _ _ _ => rfl⟩

theorem WritesWithin.trans {at_ : Nat → Prop} {s t u : State} (a : WritesWithin at_ s t) (b : WritesWithin at_ t u) : WritesWithin at_ s u where
  eq := by rw [b.eq, a.eq]
  canonical h := b.canonical (a.canonical h)
  byte h x hx := (b.byte (a.canonical h) x hx).trans (a.byte h x hx)

theorem WritesWithin.core {at_ : Nat → Prop} {s t : State} (h : WritesWithin at_ s t) (c : Nat) : t.core c = s.core c := by
  rw [h.eq]
  rfl

/-- Bytes written into a core's local store. -/
theorem State.lsWrite_writesWithin {at_ : Nat → Prop} (s : State) (c o : Nat) (bs : List Byte)
    (h : ∀ i, i < bs.length → at_ (localAddr c (s.core c).lsEighths (o + i))) : WritesWithin at_ s (s.lsWrite c o bs) := by
  induction bs generalizing s o with
  | nil => exact .refl at_ s
  | cons b bs ih =>
    have hbyte : WritesWithin at_ s { s with mem := cellPut s.mem (localAddr c (s.core c).lsEighths o) b } :=
      ⟨rfl, fun hm => cellPut_wf hm _ b, fun hm a ha => cellGet_cellPut_ne hm b fun he => ha (he ▸ h 0 (Nat.zero_lt_succ _))⟩
    refine hbyte.trans (ih _ (o + 1) fun i hi => ?_)
    have hnext := h (i + 1) (Nat.succ_lt_succ hi)
    rwa [Nat.add_comm i 1, ← Nat.add_assoc] at hnext

/-- The places of local store that some lanes of an instruction access. -/
def State.laneBytes (s : State) (c n : Nat) (t : Thread) (lanes : List Nat) (a : Nat) : Prop :=
  ∃ l ∈ lanes, ∃ i < n, a = localAddr c (s.core c).lsEighths (t.address l + i)

/-- Stores of lanes write those lanes' bytes alone. -/
theorem State.storeLanes_writesWithin (s : State) (c n : Nat) (t : Thread) (lanes : List Nat) :
    WritesWithin (s.laneBytes c n t lanes) s (s.storeLanes c n t lanes) := by
  refine List.foldlRecOn (motive := WritesWithin (s.laneBytes c n t lanes) s) _ _ (.refl _ s) fun v hv l hl => ?_
  refine hv.trans (v.lsWrite_writesWithin c (t.address l) _ fun i hi => ⟨l, hl, i, ?_, ?_⟩)
  · rwa [length_leBytes] at hi
  · rw [hv.core]

/-! ### Narrow stores (R227) -/

/-- Where the bytes of a narrow store's elements start. -/
def Desc.unitStart (d : Desc) (first : Nat) : Nat := if d.fmt = 4 ∨ d.fmt = 5 then d.base + first / 4 * 3 else d.byteOf first

/-- Whether the elements that a narrow store writes, and their scales, lie in the local store. -/
def State.unitFits (s : State) (c : Nat) (d : Desc) (first : Nat) : Bool :=
  s.inLs c (d.unitStart first) (d.spanEnd (first + 31) - d.unitStart first) &&
    (!(isNarrow d.fmt) || s.inLs c (d.scaleSpan first (first + 31)).1 (d.scaleSpan first (first + 31)).2)

theorem State.unitFits_iff {s : State} {c : Nat} {d : Desc} {first : Nat} : s.unitFits c d first = true ↔
    s.inLs c (d.unitStart first) (d.spanEnd (first + 31) - d.unitStart first) = true ∧
      (isNarrow d.fmt = true → s.inLs c (d.scaleSpan first (first + 31)).1 (d.scaleSpan first (first + 31)).2 = true) := by
  rw [State.unitFits]
  cases isNarrow d.fmt <;> simp

/-- The elements that the lanes of a narrow store give, from an index on. -/
def Thread.elements (t : Thread) (first : Nat) : List (Nat × Exact) :=
  (List.range 32).map fun l => (first + l, decF32 (t.group.rd t.launch.u t.word.dst l))

/-- Elements written as one unit, or one by one in a wide format. -/
def State.writeUnit (s : State) (c x : Nat) (d : Desc) (es : List (Nat × Exact)) : State :=
  if isNarrow d.fmt then s.narrowUnit c x d es else es.foldl (fun (u : State) e => u.setElem c x d e.1 (encWide d.fmt e.2)) s

section
variable {s : State} {c x : Nat} {d : Desc} {es : List (Nat × Exact)}

theorem State.writeUnit_narrow (h : isNarrow d.fmt = true) : s.writeUnit c x d es = s.narrowUnit c x d es := if_pos h

theorem State.writeUnit_wide (h : isNarrow d.fmt = false) :
    s.writeUnit c x d es = es.foldl (fun (u : State) e => u.setElem c x d e.1 (encWide d.fmt e.2)) s :=
  if_neg (by rw [h]; decide)

end

section
variable {s : State} {c f sq : Nat} {q : Seq} {t : Thread} (ht : s.thread c f = some t) (hop : 0x40 ≤ t.word.op ∧ t.word.op < 0x50)
  (hq : s.coreSeq c = some (sq, q)) (err : CoreErr)
include ht hop hq

/-- A narrow store that its descriptor does not allow errs the kernel's fence, and the group goes on. -/
theorem exec_narrowStore_refused {x : Nat}
    (h : s.narrowTarget c q.ctx t (t.group.rd t.launch.u t.word.a (((lanesOf (t.group.guarded t.word)).head?).getD 0)).toNat = .error x) :
    exec (.narrowStore c f err) s = .next (s.guarded
      (((s.readDescs q.ctx [t.word.imm % 2 ^ 16]).entryError c x 0).issued c f (t.group.goto (t.group.pos + 8)))) := by
  simp only [exec_narrowStore, execNarrowStore, ht, hq, if_pos hop, h]

section
variable {o : Nat} {d : Desc} (ho : (t.group.rd t.launch.u t.word.a (((lanesOf (t.group.guarded t.word)).head?).getD 0)).toNat = o)
  (h : s.narrowTarget c q.ctx t o = .ok d)
include ho h

/-- A narrow store that its descriptor allows, by where its unit lies and what the checks report. -/
theorem exec_narrowStore_allowed : exec (.narrowStore c f err) s =
    let s0 := s.readDescs q.ctx [t.word.imm % 2 ^ 16]
    let e := s0.groupErr c t err
    let first := d.rankStride * s.coreRank c + o
    .next (s.guarded (if s.unitFits c d first = true then
        if e.2 = true then e.1 else (e.1.writeUnit c q.ctx d (t.elements first)).issued c f (t.group.goto (t.group.pos + 8))
      else s0.groupFault c t 0x3013)) := by
  subst ho
  simp only [exec_narrowStore, execNarrowStore, ht, hq, if_pos hop, h]
  rfl

theorem exec_narrowStore_outside (hf : ¬s.unitFits c d (d.rankStride * s.coreRank c + o) = true) :
    exec (.narrowStore c f err) s = .next (s.guarded ((s.readDescs q.ctx [t.word.imm % 2 ^ 16]).groupFault c t 0x3013)) := by
  simp only [exec_narrowStore_allowed ht hop hq err ho h, if_neg hf]

section
variable (hf : s.unitFits c d (d.rankStride * s.coreRank c + o) = true)
include hf

theorem exec_narrowStore_stops (hs : ((s.readDescs q.ctx [t.word.imm % 2 ^ 16]).groupErr c t err).2 = true) :
    exec (.narrowStore c f err) s = .next (s.guarded ((s.readDescs q.ctx [t.word.imm % 2 ^ 16]).groupErr c t err).1) := by
  simp only [exec_narrowStore_allowed ht hop hq err ho h, if_pos hf, if_pos hs]

theorem exec_narrowStore_writes (hs : ((s.readDescs q.ctx [t.word.imm % 2 ^ 16]).groupErr c t err).2 = false) :
    exec (.narrowStore c f err) s = .next (s.guarded
      ((((s.readDescs q.ctx [t.word.imm % 2 ^ 16]).groupErr c t err).1.writeUnit c q.ctx d
        (t.elements (d.rankStride * s.coreRank c + o))).issued c f (t.group.goto (t.group.pos + 8)))) := by
  simp only [exec_narrowStore_allowed ht hop hq err ho h, if_pos hf, hs, Bool.false_eq_true, if_false]

end
end
end

/-- Settles O9: loads, stores and atomics by what a local-store instruction does (`State.lsInsn`), a store's frame by
`State.storeLanes_writesWithin`, a narrow store by its descriptor, its place and what the checks report. -/
theorem threadMemory : Obligations.ThreadMemory := by
  intro s c f t err ht hlow hhigh
  have hop := And.intro hlow hhigh
  refine ⟨?none, fun width h => ⟨fun hs => ?load, fun hs => ?store, fun hs hm u hu => ?frame, fun hs => ?stops⟩,
    fun width code l h => ?faults, fun op ho => ⟨fun code l h => ?atomicFaults, fun h hs => ?atomicStops, fun h hs => ?atomic⟩,
    fun sq q hq => ⟨fun x hx => exec_narrowStore_refused ht hop hq err hx, fun d hd => ?narrow⟩⟩
  case none => rintro rfl; exact ⟨rfl, rfl⟩
  case load => rw [exec_localStoreLoad ht hop, State.lsInsn_runs h hs]
  case store => rw [exec_localStoreStore ht hop, State.lsInsn_runs h hs]; rfl
  case frame =>
    rw [exec_localStoreStore ht hop, State.lsInsn_runs h hs] at hu
    obtain rfl := Host.Outcome.next.inj hu
    have hchecks := State.groupErr_runs hs
    set e := (s.groupErr c t err).1
    have hmem : e.mem = s.mem := by rw [hchecks]
    have hcore : e.core c = s.core c := by rw [hchecks]; rfl
    have hstore := e.storeLanes_writesWithin c (lsBytes width) t (lanesOf (t.group.guarded t.word))
    have hme : MemCanonical e := by rwa [MemCanonical, hmem]
    refine ⟨hstore.canonical hme, fun a ha => ?_, ?_, ?_, ?_⟩
    · rw [← hmem]
      refine hstore.byte hme a ?_
      rintro ⟨l, hl, i, hi, rfl⟩
      exact ha l hl i hi (by rw [hcore])
    · exact (congrArg State.cache hstore.eq).trans rfl
    · exact (congrArg State.objs hstore.eq).trans (by rw [hchecks])
    · exact (congrArg State.seqs hstore.eq).trans (by rw [hchecks])
  case stops =>
    rw [exec_localStoreLoad ht hop, exec_localStoreStore ht hop, State.lsInsn_stops h hs, State.lsInsn_stops h hs]
    exact ⟨rfl, rfl⟩
  case faults =>
    rw [exec_localStoreLoad ht hop, exec_localStoreStore ht hop, State.lsInsn_faults h, State.lsInsn_faults h]
    exact ⟨rfl, rfl⟩
  case atomicFaults => rw [exec_localStoreAtomic ht hop ho, State.lsInsn_faults h]
  case atomicStops => rw [exec_localStoreAtomic ht hop ho, State.lsInsn_stops h hs]
  case atomic => rw [exec_localStoreAtomic ht hop ho, State.lsInsn_runs h hs]
  case narrow =>
    refine ⟨fun hf hs => exec_narrowStore_stops ht hop hq err rfl hd (State.unitFits_iff.mpr hf) hs, fun hf hs => ?writes,
      fun hf => exec_narrowStore_outside ht hop hq err rfl hd (mt State.unitFits_iff.mp hf)⟩
    have hexec := exec_narrowStore_writes ht hop hq err rfl hd (State.unitFits_iff.mpr hf) hs
    exact ⟨fun hn => by rw [hexec, State.writeUnit_narrow hn]; rfl, fun hn => by rw [hexec, State.writeUnit_wide hn]; rfl⟩

end Sys2Proof.Machine
end

section
/-! PROOFS. Branches, exits and barriers of a group (R213, R214, R215, R220 to R222, R234). -/

namespace Sys2Proof.Machine

open Sys2Proof

/-! ### Branches (R213, R214) -/

/-- A group that may issue has a lane that runs. -/
theorem State.thread_active {s : State} {c f : Nat} {t : Thread} (h : s.thread c f = some t) : t.group.active ≠ 0 := by
  simp only [State.thread] at h
  split at h
  next =>
    split at h
    next =>
      split at h
      next =>
        split at h
        next hready =>
          obtain rfl := Option.some.inj h
          simp only [Bool.and_eq_true, bne_iff_ne] at hready
          obtain ⟨⟨-, hactive⟩, -⟩ := hready
          exact hactive
        next => cases h
      next => cases h
    next => cases h
  next => cases h

section
variable {s : State} {c f : Nat} {t : Thread}

/-- A branch of one path keeps the group together. -/
theorem State.branch_single (pos : Nat) (m : BitVec 32) :
    s.branch c f t [(pos, m)] = s.issued c f { t.group with pos := pos, active := m }.settled := rfl

/-- A branch into two paths divides the group where its stack has room. -/
theorem State.branch_divides (a b : Nat × BitVec 32) (h : t.group.stack.length < 32) :
    s.branch c f t [a, b] = (s.issued c f (t.group.split (postDom t.prog t.group.pos) [a, b]).settled).bump (offGe c 0x30) 1 := by
  have hroom : ¬(1 < [a, b].length ∧ 32 < t.group.stack.length + ([a, b].length - 1)) := by
    simp only [List.length_cons, List.length_nil]
    omega
  rw [State.branch, if_neg hroom]
  exact if_pos (by simp)

theorem State.branch_deep (a b : Nat × BitVec 32) (h : 32 ≤ t.group.stack.length) : s.branch c f t [a, b] = s.groupFault c t 0x3012 :=
  if_pos ⟨by simp, by simp only [List.length_cons, List.length_nil]; omega⟩

end

/-- The paths of a BRA: the lanes taken, then those that go on, each where there are any (R213). -/
def Thread.braPaths (t : Thread) : List (Nat × BitVec 32) :=
  (if t.group.guarded t.word = 0 then [] else [((braTarget t.group.pos t.word).toNat, t.group.guarded t.word)]) ++
    (if t.group.active &&& ~~~t.group.guarded t.word = 0 then []
      else [(t.group.pos + 8, t.group.active &&& ~~~t.group.guarded t.word)])

section
variable {t : Thread}

theorem Thread.braPaths_all (ha : t.group.active ≠ 0) (h : t.group.guarded t.word = t.group.active) :
    t.braPaths = [((braTarget t.group.pos t.word).toNat, t.group.active)] := by
  rw [Thread.braPaths, h, if_neg ha, if_pos (BitVec.and_not_self _)]
  rfl

theorem Thread.braPaths_none (ha : t.group.active ≠ 0) (h : t.group.guarded t.word = 0) :
    t.braPaths = [(t.group.pos + 8, t.group.active)] := by
  have h0 : t.group.active &&& ~~~0 = t.group.active := BitVec.and_allOnes
  rw [Thread.braPaths, h, if_pos rfl, h0, if_neg ha]
  rfl

theorem Thread.braPaths_both (h : t.group.guarded t.word ≠ 0) (hr : t.group.active &&& ~~~t.group.guarded t.word ≠ 0) :
    t.braPaths = [((braTarget t.group.pos t.word).toNat, t.group.guarded t.word),
      (t.group.pos + 8, t.group.active &&& ~~~t.group.guarded t.word)] := by
  rw [Thread.braPaths, if_neg h, if_neg hr]
  rfl

end

/-- Where each active lane of a BRX goes: to the target in its register, or on (R214). -/
def Thread.brxTargets (t : Thread) : List (Nat × Nat) :=
  (lanesOf t.group.active).map fun l =>
    (l, if (t.group.guarded t.word).getLsbD l then (t.group.rd t.launch.u t.word.a l).toNat else t.group.pos + 8)

/-- The first lane of a BRX whose target starts no instruction (R214). -/
def Thread.brxBad (t : Thread) : Option (Nat × Nat) :=
  t.brxTargets.find? fun e => (t.group.guarded t.word).getLsbD e.1 && !((starts t.prog).contains e.2)

theorem exec_bra (c f : Nat) (parity : Bool) (s : State) :
    exec (.bra c f parity) s = .next (s.onThread c f parity (· = 0x60) fun t => s.branch c f t t.braPaths) := rfl

theorem exec_brx (c f : Nat) (parity : Bool) (s : State) :
    exec (.brx c f parity) s = .next (s.onThread c f parity (· = 0x61) fun t =>
      match t.brxBad with
      | some e => s.threadFault c t 0x3015 e.1
      | none => s.branch c f t (brxPaths t.brxTargets)) := rfl

/-! ### Barriers and exits (R215, R220, R221) -/

/-- The guarded lanes of a BAR parked. -/
def Thread.parked (t : Thread) : Group := if t.group.guarded t.word = 0 then t.group else t.group.park (t.group.guarded t.word)

/-- The guarded lanes of an EXIT ended. -/
def Thread.exited (t : Thread) : Group :=
  { t.group with active := t.group.active &&& ~~~t.group.guarded t.word, exited := t.group.exited ||| t.group.guarded t.word }

/-- The guarded lanes of an EXIT counted at the barrier of their block. -/
def State.exits (s : State) (c f : Nat) (t : Thread) : State :=
  ((s.issued c f t.exited.onward).modBlock c t.group.block fun b =>
    { b with exited := b.exited + (lanesOf (t.group.guarded t.word)).length }).barrier c t.group.block

theorem exec_bar (c f : Nat) (parity : Bool) (s : State) :
    exec (.bar c f parity) s = .next (s.onThread c f parity (· = 0x63) fun t =>
      ((s.issued c f t.parked.onward).modBlock c t.group.block fun b =>
        { b with arrived := b.arrived + (lanesOf (t.group.guarded t.word)).length }).barrier c t.group.block) := rfl

theorem exec_exit (c f : Nat) (parity : Bool) (s : State) :
    exec (.exit c f parity) s = .next (s.onThread c f parity (· = 0x62) fun t =>
      if t.exited.exited = BitVec.allOnes 32 then (s.exits c f t).leave c f t.group.block else s.exits c f t) := rfl

/-! ### BARRIER_STALL (R222) -/

theorem bit_eq_testBit (v k : Nat) : bit v k = v.testBit k := by
  rw [Nat.testBit_eq_decide_div_mod_eq]
  rfl

/-- A bit set in a number reads set. -/
theorem bit_setFld_one (v k : Nat) : bit (setFld v k 1 1) k = true := by
  have hk : 0 < 2 ^ k := Nat.two_pow_pos k
  have hle : v / 2 ^ k % 2 * 2 ^ k ≤ v := (Nat.mul_le_mul_right _ (Nat.mod_le ..)).trans (Nat.div_mul_le_self ..)
  have hdiv : setFld v k 1 1 / 2 ^ k = v / 2 ^ k - v / 2 ^ k % 2 + 1 := by
    show (v - v / 2 ^ k % 2 * 2 ^ k + 1 * 2 ^ k) / 2 ^ k = _
    rw [Nat.add_mul_div_right _ _ hk, Nat.mul_comm, Nat.sub_mul_div_of_le _ _ _ (by rwa [Nat.mul_comm])]
  rw [bit, hdiv, beq_iff_eq]
  omega

theorem State.bit_reg_setBit (s : State) (off : Nat) {k : Nat} (hk : k < 64) : bit ((s.setBit off k).reg off) k = true := by
  rw [State.setBit, State.reg_setReg_self, bit_eq_testBit, Nat.testBit_mod_two_pow, decide_eq_true hk, Bool.true_and, ← bit_eq_testBit,
    bit_setFld_one]

/-- The running context of a core is the live one of its sequencer. -/
theorem State.coreSeq_of_coreCtx {s : State} {c x : Nat} (h : s.coreCtx c = some x) :
    ∃ sq q, s.coreSeq c = some (sq, q) ∧ q.ctx = x ∧ s.live x = true := by
  unfold State.coreCtx at h
  split at h
  next sq q hq =>
    split at h
    next hlive =>
      obtain rfl := Option.some.inj h
      exact ⟨sq, q, hq, rfl, hlive⟩
    next => cases h
  next => cases h

theorem State.reg_faultCore (s : State) (c code detail o : Nat) : (s.faultCore c code detail).reg o = s.reg o := by
  have hsame (p : Area) (hp : p ∉ [Area.te, .objs, .loader]) : p.same s (s.faultCore c code detail) :=
    Area.same_of_keeps (fun _ w => State.faultCore_keeps w (Keeps.refl s)) p hp
  have hregs : (s.faultCore c code detail).regs = s.regs := hsame .regs (by decide)
  have hident : (s.faultCore c code detail).ident = s.ident := hsame .ident (by decide)
  rw [State.reg, hregs, hident, State.reg]

/-- A fault of a core tears its running context down with the fault's code. -/
theorem State.faultCore_running {s : State} {c x : Nat} (h : s.coreCtx c = some x) (code detail : Nat) :
    (((s.faultCore c code detail).ctx x).map fun y => (y.state, y.cause)) = some (.teardown, code) := by
  obtain ⟨sq, q, hq, rfl, hlive⟩ := State.coreSeq_of_coreCtx h
  obtain ⟨y, hy, hstate⟩ := State.live_iff.mp hlive
  have hfault : s.faultCore c code detail = s.faultCtx q.ctx code detail := by rw [State.faultCore, hq]
  rw [hfault]
  exact State.ctx_faultCtx _ _ _ _ hy hstate

theorem State.coreCtx_setBit (s : State) (off k c : Nat) : (s.setBit off k).coreCtx c = s.coreCtx c := rfl

theorem Ge.atLimit_iff {g : Ge} {b : Block} {l : Launch} (h : look g.launches b.slot = some l) :
    g.atLimit b = true ↔ b.arrived ≠ 0 ∧ 2 ^ l.barLog2 ≤ b.ticks := by
  simp [Ge.atLimit, h]

theorem exec_barrierStall (c blk : Nat) (s : State) : exec (.barrierStall c blk) s = execBarrierStall c blk s := rfl

section
variable {s : State} {c blk x : Nat} {b : Block} (hb : look (s.groupEngine c).blocks blk = some b) (hx : s.coreCtx c = some x)
include hb hx

theorem exec_barrierStall_overdue (h : (s.groupEngine c).atLimit b = true) :
    exec (.barrierStall c blk) s = .next (s.stallBarrier c blk) := by
  simp only [exec_barrierStall, execBarrierStall, hb, hx, if_pos h]

theorem exec_barrierStall_below (h : ¬(s.groupEngine c).atLimit b = true) : exec (.barrierStall c blk) s = .next s := by
  simp only [exec_barrierStall, execBarrierStall, hb, hx, if_neg h]

end

/-- A barrier at its limit tears the running context down and sets its bit. -/
theorem State.stallBarrier_running {s : State} {c x : Nat} (h : s.coreCtx c = some x) (blk : Nat) :
    (((s.stallBarrier c blk).ctx x).map fun y => (y.state, y.cause)) = some (.teardown, 0x3010) ∧
      bit ((s.stallBarrier c blk).reg (offGe c 8)) 22 = true := by
  refine ⟨State.faultCore_running ((s.coreCtx_setBit (offGe c 8) 22 c).trans h) 0x3010 _, ?_⟩
  rw [State.stallBarrier, State.reg_faultCore, State.bit_reg_setBit s _ (by decide)]

/-- Settles O10: each command by what a thread instruction does (`State.onThread`), BRA by whether it has one path or two
(`Thread.braPaths`, `State.branch`), and BARRIER_STALL by whether the phase is at its limit, where `State.stallBarrier_running` gives
the fault. -/
theorem threadControl : Obligations.ThreadControl := by
  intro s c f
  refine ⟨fun t ht => ⟨⟨fun h => ?braParity, fun h => ?brxParity, fun h => ?exitParity, fun h => ?barParity⟩, fun h hm => ?together,
      fun h hm => ?untaken, fun h hm hr hroom => ?divides, fun h hm hr hdeep => ?deep, fun h => ⟨fun hb => ?brx, fun e hb => ?brxBad⟩,
      fun h => ?bar, fun h => ⟨fun hall => ?exit, fun hall => ?leaves⟩⟩,
    fun blk b l x hb hl hx => ⟨fun ha hlim => ?overdue, fun hlim => exec_barrierStall_below hb hx fun h => ?below⟩⟩
  case braParity => rw [exec_bra, State.onThread_parity ht h]
  case brxParity => rw [exec_brx, State.onThread_parity ht h]
  case exitParity => rw [exec_exit, State.onThread_parity ht h]
  case barParity => rw [exec_bar, State.onThread_parity ht h]
  case together =>
    rw [exec_bra, State.onThread_issues ht h, Thread.braPaths_all (State.thread_active ht) hm, State.branch_single]
    rfl
  case untaken =>
    rw [exec_bra, State.onThread_issues ht h, Thread.braPaths_none (State.thread_active ht) hm, State.branch_single]
    rfl
  case divides => rw [exec_bra, State.onThread_issues ht h, Thread.braPaths_both hm hr, State.branch_divides _ _ hroom]
  case deep => rw [exec_bra, State.onThread_issues ht h, Thread.braPaths_both hm hr, State.branch_deep _ _ hdeep]
  case brx =>
    have hbad : t.brxBad = none := hb
    rw [exec_brx, State.onThread_issues ht h, hbad]
    rfl
  case brxBad =>
    have hbad : t.brxBad = some e := hb
    rw [exec_brx, State.onThread_issues ht h, hbad]
  case bar =>
    rw [exec_bar, State.onThread_issues ht h]
    rfl
  case exit =>
    rw [exec_exit, State.onThread_issues ht h]
    exact congrArg _ (if_neg hall)
  case leaves =>
    rw [exec_exit, State.onThread_issues ht h]
    exact congrArg _ (if_pos hall)
  case overdue =>
    exact ⟨_, exec_barrierStall_overdue hb hx ((Ge.atLimit_iff hl).mpr ⟨ha, hlim⟩), State.stallBarrier_running hx blk⟩
  case below =>
    obtain ⟨ha, hticks⟩ := (Ge.atLimit_iff hl).mp h
    rcases hlim with hnone | hlt
    · exact ha hnone
    · exact absurd hticks (Nat.not_le.mpr hlt)

end Sys2Proof.Machine
end

section
/-! PROOFS. A failed vote whose gradient's statistics record lies on a line that a HINT has declared dead (R257, R258, R261, R302). -/

namespace Sys2Proof.Machine

open Sys2Proof

/-- The one contribution to a full vote of this device: a flag that is not finite. -/
def nonfiniteFlag : CollMsg :=
  { collId := 1, inst := 0, kind := 3, format := 0, elems := 0, rank := 0, size := 1, members := [0], values := [], nonfinite := true,
    sealReq := false, sealOpen := false, sealVoid := false }

/-- The full vote of the job at entry 2. -/
def failingVote : Coll :=
  { entry := 2, collId := 1, index := 0, kind := 3, scope := 0, nodes := [0], format := 0, elems := 0, size := 1,
    parts := [(0, nonfiniteFlag)], locals := [], ctx := 1 }

/-- A job of context 1, without protection. -/
def plainJob : Job :=
  { id := 9, key := 0, ops := 3, step := 0, attempt := 0, members := [1], nonfinite := true, vote := none, lastLost := false, colls := [] }

/-- A FP8 gradient whose statistics record lies on line 1. -/
def deadRecordGrad : Desc :=
  { handle := 4, base := 0x1_0000, scaleOff := 0, statsOff := -0x3FE, rankStride := 0, fmt := 2, blk := 16, ovf := false, valid := true,
    bias := 0, policy := 0, part := 0, writable := true, dims := 1, sizes := [32], strides := [], reserved := false }

/-- An UPDATE of context 1 with that gradient, bound to vote 4. -/
def boundUpdate : Upd :=
  { core := 5, ctx := 1, rank := 0, slot := 0, work := 0, ruleHandle := 4, base := 0x1_0000, rule := leBytes 8 0, maps := [],
    tens := [(1, deadRecordGrad)], inst := 4, outcome := none, lost := false, held := false, left := [], secondPass := false,
    voided := false, rtot := 0, rowN := [], rowDone := [], rowsTouched := 0, updated := 0, frozen := 0, guarded := 0, err := 0 }

/-- Context 1 of that job, with one 2 MiB page mapped at 0. -/
def mappedCtx : Ctx := { newCtx 0 0 false with job := some 2, maps := [⟨0, 1, 0, 1, 0, true, true⟩] }

/-- A device at which that vote is full, and line 1 stands in the ring of dead lines of slice 0 (R302). -/
def deadRecord : State :=
  { State.reset with
    cache := { State.reset.cache with dead := [(0, [1])] },
    fab := { State.reset.fab with colls := [(4, failingVote)] },
    uu := { State.reset.uu with updates := [(0, boundUpdate)] },
    objs := { State.reset.objs with
      parts := [(0, ⟨0, true, 128, [5], [0], []⟩)], mems := [(1, ⟨1, 0, 0, [0], .live, []⟩)], ctxs := [(1, mappedCtx)],
      jobs := [(2, plainJob)] } }

/-- VOTE_OUTCOME of a full vote of a job without protection goes straight to the steps of the outcome (R258). -/
theorem exec_voteOutcome_unprotected {s : State} {i : Nat} {k : Coll} (hk : look s.fab.colls i = some k) (hkind : k.kind = 3)
    (hfull : k.full = true) (hp : s.prot k.entry = none) :
    exec (.voteOutcome i) s =
      .next ((s.adopt (offDk 0x810) 0 64).voteSteps i k.entry (!(k.inOrder.any fun m => m.nonfinite)) false) := by
  have hexec : exec (.voteOutcome i) s = execVoteOutcome i s := rfl
  simp only [hexec, execVoteOutcome, hk, hkind, hfull, hp, and_self, if_true]

/-- The vote fails. -/
theorem exec_voteOutcome_deadRecord :
    exec (.voteOutcome 4) deadRecord = .next ((deadRecord.adopt (offDk 0x810) 0 64).voteSteps 4 2 false false) :=
  exec_voteOutcome_unprotected (k := failingVote) rfl rfl rfl rfl

/-- The skipped UPDATE's record is read from its dead line, and context 1 counts the reread (R302). -/
theorem rereads_voteSteps_deadRecord :
    (((deadRecord.adopt (offDk 0x810) 0 64).voteSteps 4 2 false false).ctx 1).map (·.rereads) = some 1 := rfl

/-- Refutes O15: its third clause has every context as it was. A failed vote also lowers the bias of a skipped UPDATE's gradient (R261), and
reads its statistics record through the slices; where the record's line is one that a HINT declared dead, its context counts a reread
(R302), as context 1 does in `deadRecord`. -/
theorem not_collectivesAndVotesEnd : ¬ Obligations.CollectivesAndVotesEnd := by
  intro h
  obtain ⟨-, -, hvote, -⟩ := h deadRecord 4 failingVote rfl
  obtain ⟨t, ht, -, -, -, -, -, hctxs, -, -⟩ := hvote plainJob rfl rfl rfl rfl
  rw [exec_voteOutcome_deadRecord] at ht
  injection ht with hsteps
  have hreread := rereads_voteSteps_deadRecord
  rw [hsteps, State.ctx, hctxs] at hreread
  exact absurd hreread (by decide)

end Sys2Proof.Machine
end

section
/-! PROOFS. What an UPDATE's units commit, the combination of rule 3, and its end (R244 to R256, R259, R261, R266, R269, R272, R307). -/

namespace Sys2Proof.Machine

open Sys2Proof

theorem exec_updateBlockCommit (u unit : Nat) (err : UnitErr) (s : State) :
    exec (.updateBlockCommit u unit err) s = execUpdateBlockCommit u unit err s := rfl
theorem exec_rule3Combine (u : Nat) (parity : Bool) (s : State) : exec (.rule3Combine u parity) s = execRule3Combine u parity s := rfl
theorem exec_updateComplete (u : Nat) (s : State) : exec (.updateComplete u) s = execUpdateComplete u s := rfl

/-- What the check code reports of a half that a block's unit reads (R307, R309). -/
def State.blockReport (s : State) (k : Upd) (md : Desc) (j : Nat) (err : UnitErr) : State :=
  match err with
  | .hbm h e => if h ∈ s.hbmHalves k.ctx (k.spans md j [8, 0, 1, 2, 3, 7]) then s.eccHalf h e else s
  | _ => s

/-- The next block of a unit under its vote's outcome: after a passed vote by the rule, after a failed one its working copy alone; the unit
takes its staged rate where it then holds no block (R246 to R256, R261, R269). -/
def State.commitNext (s : State) (u unit : Nat) (k : Upd) (err : UnitErr) (rec : VoteRec) (md : Desc) (j : Nat) (rest : List Nat) : State :=
  ((s.modUpd u fun y => { y with left := put y.left unit rest }).underMaps k.ctx k.maps fun t =>
    if rec.pass then (t.blockReport k md j err).passBlock u unit k md j rec.t
    else (t.blockReport k md j err).skipBlock u unit k md j).adoptRate unit

/-- Whether an UPDATE with an outcome commits blocks: rule 3 after a passed vote does in its second pass only (R248). -/
def Upd.commitsAt (k : Upd) (rec : VoteRec) : Prop := rec.pass = true → leAt k.rule 0 1 = 3 → k.secondPass = true

theorem Upd.commitsAt_iff (k : Upd) (rec : VoteRec) :
    k.commitsAt rec ↔ (!rec.pass || leAt k.rule 0 1 != 3 || k.secondPass) = true := by
  unfold Upd.commitsAt
  cases rec.pass <;> cases k.secondPass <;> simp

section
variable {s : State} {u : Nat} {k : Upd} (hk : look s.uu.updates u = some k)
include hk

/-! ### UPDATE_BLOCK_COMMIT -/

/-- Before its vote an UPDATE commits nothing, nor where the vote was lost or a marker holds it. -/
theorem exec_updateBlockCommit_barred (unit : Nat) (err : UnitErr) (h : k.outcome = none ∨ k.lost = true ∨ k.held = true) :
    exec (.updateBlockCommit u unit err) s = .next s := by
  rw [exec_updateBlockCommit, execUpdateBlockCommit]
  rcases h with hnone | hbarred
  · simp only [hk, hnone, State.guarded_self]
  · have hshut (b : Bool) : (s.live k.ctx && !k.lost && !k.held && b) = false := by rcases hbarred with h | h <;> simp [h]
    simp only [hk, hshut, Bool.false_eq_true, if_false]
    split <;> rw [State.guarded_self]

section
variable {unit j : Nat} {rec : VoteRec} {md : Desc} {rest : List Nat} (err : UnitErr) (hout : k.outcome = some rec)
  (hten : k.ten 0 = some md) (hleft : lookD k.left unit [] = j :: rest)
include hout hten hleft

/-- A unit with a block left under an outcome: its die has to serve, and its pipelines and buffers to be sound (R272, R474, R477). -/
theorem exec_updateBlockCommit_commits (hl : s.live k.ctx = true) (hlost : k.lost = false) (hheld : k.held = false)
    (h : k.commitsAt rec) :
    exec (.updateBlockCommit u unit err) s = .next (s.guarded (
      if s.dieServes (unit / 2) = false then s.reachDie (unit / 2)
      else if err = .parity then s.faultCtx k.ctx 0x5010 0
      else s.commitNext u unit k err rec md j rest)) := by
  have hgo := (k.commitsAt_iff rec).mp h
  simp only [exec_updateBlockCommit, execUpdateBlockCommit, hk, hout, hten, hleft, hl, hlost, hheld, hgo, Bool.not_false, Bool.and_self,
    if_true, Bool.not_eq_true']
  cases err with
  | none => rfl
  | parity => rfl
  | hbm h e => simp only [State.commitNext, State.blockReport, List.contains_iff_mem]

/-- The second pass of rule 3 waits for the combination. -/
theorem exec_updateBlockCommit_firstPass (h : ¬k.commitsAt rec) : exec (.updateBlockCommit u unit err) s = .next s := by
  have hstay := Bool.eq_false_iff.mpr (mt (k.commitsAt_iff rec).mpr h)
  simp only [exec_updateBlockCommit, execUpdateBlockCommit, hk, hout, hten, hleft, hstay, Bool.and_false, Bool.false_eq_true, if_false,
    State.guarded_self]

end

/-! ### RULE3_COMBINE -/

/-- The combination of a passed vote between the passes of rule 3, once every die serves (R248, R272, R474, R477). -/
theorem exec_rule3Combine_combines {rec : VoteRec} {md rd cd sd : Desc} (parity : Bool) (hl : s.live k.ctx = true)
    (hout : k.outcome = some rec) (hpass : rec.pass = true) (hrule : leAt k.rule 0 1 = 3) (hfirst : k.secondPass = false)
    (hlost : k.lost = false) (hheld : k.held = false) (hm : k.ten 0 = some md) (hr : k.ten 3 = some rd) (hc : k.ten 4 = some cd)
    (hs : k.ten 5 = some sd) :
    exec (.rule3Combine u parity) s = .next (s.guarded (
      if (List.range dieCount).all s.dieServes = false then (List.range dieCount).foldl State.reachDie s
      else if parity = true then s.faultCtx k.ctx 0x5010 0
      else s.underMaps k.ctx k.maps fun t => t.combine u k md rd cd sd)) := by
  simp only [exec_rule3Combine, execRule3Combine, hk, hl, hout, hpass, hrule, hfirst, hlost, hheld, hm, hr, hc, hs, Bool.not_false,
    Bool.and_self, beq_self_eq_true, if_true, Bool.not_eq_true']

/-! ### UPDATE_COMPLETE -/

section
variable (hl : s.live k.ctx = true)
include hl

theorem exec_updateComplete_lost (hlost : k.lost = true) : exec (.updateComplete u) s =
    .next (s.guarded ((s.underMaps k.ctx k.maps fun t => t.failRecord k.core k.ctx k.base k.err).endUpd u k)) := by
  simp only [exec_updateComplete, execUpdateComplete, hk, hl, hlost, Bool.not_true, Bool.false_eq_true, if_false, if_true]

/-- An UPDATE goes on before its vote, while it is held, and while a unit has a block left. -/
theorem exec_updateComplete_open (hlost : k.lost = false) (h : k.outcome = none ∨ k.held = true ∨ ∃ e ∈ k.left, e.2 ≠ []) :
    exec (.updateComplete u) s = .next s := by
  simp only [exec_updateComplete, execUpdateComplete, hk, hl, hlost, Bool.not_true, Bool.false_eq_true, if_false]
  rcases h with hnone | hbarred
  · simp only [hnone, State.guarded_self]
  · have hshut : (!k.held && k.left.all fun e => e.2.isEmpty) = false := by
      rcases hbarred with hheld | ⟨e, he, hne⟩
      · rw [hheld, Bool.not_true, Bool.false_and]
      · rw [List.all_eq_false.mpr ⟨e, he, by simpa using hne⟩, Bool.and_false]
    simp only [hshut, Bool.false_eq_true, if_false]
    split <;> rw [State.guarded_self]

/-- An UPDATE with no block left writes its record where its rule block is mapped, and ends; guarded blocks are reported before (R256, R266). -/
theorem exec_updateComplete_ends {rec : VoteRec} {l : List Piece} (hlost : k.lost = false) (hout : k.outcome = some rec)
    (hheld : k.held = false) (hleft : ∀ e ∈ k.left, e.2 = [])
    (hrec : (s.modCtx k.ctx fun c => { c with maps := k.maps }).translate k.ctx (k.base + 0x40) 64 false false = .ok l) :
    let s1 := s.underMaps k.ctx k.maps fun t => t.writePieces 0 l (k.record rec (t.seePieces l))
    exec (.updateComplete u) s = .next (s.guarded ((
      if 0 < k.guarded then
        (s1.raise 0x5802 (leBytes 2 k.ctx ++ leBytes 2 k.ruleHandle ++ leBytes 8 k.guarded)).xferError k.core k.slot 0x5007
      else s1).endUpd u k)) := by
  have hdone : (k.left.all fun e => e.2.isEmpty) = true := List.all_eq_true.mpr fun e he => by rw [hleft e he]; rfl
  simp only [exec_updateComplete, execUpdateComplete, hk, hl, hlost, hout, hheld, hdone, State.underMaps, hrec, Bool.not_true, Bool.not_false,
    Bool.and_self, Bool.false_eq_true, if_false, if_true]

end
end

/-- Settles O16: a block by whether the UPDATE may commit it and its unit can (`exec_updateBlockCommit_commits`), the combination by whether
every die serves, the end by whether the vote was lost, a block is left, or blocks were guarded. -/
theorem updatesCommit : Obligations.UpdatesCommit := by
  intro s u k err hk hl
  refine ⟨fun unit => exec_updateBlockCommit_barred hk unit err,
    fun unit rec md j rest hout hten hleft hlost hheld => ⟨fun hgo => ?commits, fun hpass hrule hfirst =>
      exec_updateBlockCommit_firstPass hk err hout hten hleft fun hgo => ?waits⟩,
    fun rec md rd cd sd hout hpass hrule hfirst hlost hheld hm hr hc hs => ?combine,
    exec_updateComplete_lost hk hl, exec_updateComplete_open hk hl, fun rec l hlost hout hheld hleft hrec => ?ends⟩
  case commits =>
    rw [exec_updateBlockCommit_commits hk err hout hten hleft hl hlost hheld hgo]
    refine ⟨fun hd => by rw [if_pos hd], fun hd => ?serves⟩
    rw [if_neg (ne_false_of_eq_true hd)]
    refine ⟨fun hp => by rw [if_pos hp], fun hpass hp => ?passed, fun hpass hp => ?failed⟩
    case passed =>
      rw [if_neg hp, State.commitNext, hpass]
      rfl
    case failed =>
      rw [if_neg hp, State.commitNext, hpass]
      rfl
  case waits => exact absurd (hgo hpass hrule) (Bool.eq_false_iff.mp hfirst)
  case combine =>
    have hexec parity := exec_rule3Combine_combines hk parity hl hout hpass hrule hfirst hlost hheld hm hr hc hs
    refine ⟨fun parity hd => by rw [hexec, if_pos hd], fun hd => ?_⟩
    have hserves := ne_false_of_eq_true hd
    exact ⟨by rw [hexec, if_neg hserves, if_pos rfl], by rw [hexec, if_neg hserves, if_neg Bool.false_ne_true]⟩
  case ends =>
    rw [exec_updateComplete_ends hk hl hlost hout hheld hleft hrec]
    exact ⟨fun hg => by rw [if_neg (Nat.not_lt.mpr hg.le)], fun hg => by rw [if_pos (Nat.pos_of_ne_zero hg)]⟩

end Sys2Proof.Machine
end

section
/-! PROOFS. The job table: a job is created, joined, left and destroyed (R274, R352, R357). -/

namespace Sys2Proof.Machine

open Sys2Proof

theorem exec_jobCreate (port q : Nat) (s : State) : exec (.jobCreate port q) s = execJobCreate port q s := rfl
theorem exec_jobJoin (port q : Nat) (s : State) : exec (.jobJoin port q) s = execJobJoin port q s := rfl
theorem exec_jobDestroy (port q : Nat) (s : State) : exec (.jobDestroy port q) s = execJobDestroy port q s := rfl

/-- The job that JOB_CREATE writes into its entry: no members and no votes yet, the counters the payload's (R274, R357). -/
def createdJob (p : Packet) : Job :=
  ⟨p.arg0 % 2 ^ 16, BitVec.ofNat 64 p.arg1, fld p.arg0 16 2, leAt p.payload 0 8, leAt p.payload 8 8, [], false, none, false, []⟩

/-- A context becomes a member of the job at an entry (R357). -/
def State.joinJob (s : State) (y e : Nat) : State :=
  (s.modObjs fun o => { o with jobs := upd o.jobs e fun j => { j with members := j.members ++ [y] } }).modCtx y fun k =>
    { k with job := some e }

/-- What the cores remember of the votes of the job at an entry is forgotten. -/
def State.forgetVotes (s : State) (e : Nat) : State :=
  { s with cores := s.cores.map fun (k : Nat × Core) => (k.1, { k.2 with lastVote := k.2.lastVote.filter fun v => v.1 / 2 ^ 16 != e }) }

section
variable {s : State} {port q e : Nat} {k : SubQueue} {p : Packet}
variable (hr : s.runningPacket port q = some (k, p)) (hf : s.packetFault port q (packetCtx k p) p = none)
include hr hf

/-- JOB_CREATE of an unused id, in a life cycle that runs contexts, fills the lowest free entry (log 41). -/
theorem exec_jobCreate_creates (ho : p.opcode = 0x28) (hlc : s.runsContexts = true)
    (hid : (s.objs.jobs.all fun e => e.2.id != p.arg0 % 2 ^ 16) = true)
    (he : firstFree (fun k => (look s.objs.jobs k).isSome) (min 256 (s.objs.jobs.length + 1)) = some e) :
    exec (.jobCreate port q) s =
      .next ((s.modObjs fun o => { o with jobs := put o.jobs e (createdJob p) }).completePacket port q p) := by
  have hunused : (s.objs.jobs.any fun e => e.2.id == p.arg0 % 2 ^ 16) = false := by
    rw [← Bool.not_eq_true', List.not_any_eq_all_not]
    exact hid
  rw [exec_jobCreate, execJobCreate, State.runPacket_ok hr ho hf]
  simp only [hlc, hunused, he, Bool.not_true, Bool.false_eq_true, if_false]
  rfl

section
variable {y : Nat} {c : Ctx} {j : Job} (ho : p.opcode = 0x29) (hs : s.subject port q (packetCtx k p) p = .ok (y, c))
  (hj : s.jobEntry (fld p.arg0 12 16) = some (e, j)) (hl : c.state = .live) (hb : s.boundOf y = []) (hv : c.saved = [])
include ho hs hj hl hb hv

/-- JOB_JOIN makes a context of no job a member. -/
theorem exec_jobJoin_joins (hjoin : bit p.arg0 28 = false) (hfree : c.job = none) :
    exec (.jobJoin port q) s = .next ((s.joinJob y e).completePacket port q p) := by
  rw [exec_jobJoin, execJobJoin, State.runPacket_ok hr ho hf]
  simp only [hs, hj, hjoin, hfree, hl, hb, hv, ne_eq, not_true_eq_false, decide_false, Option.isSome_none, List.isEmpty_nil,
    Bool.not_true, Bool.or_self, Bool.false_eq_true, if_false]
  rfl

/-- JOB_JOIN with its leave bit takes a context out of the job that it names. -/
theorem exec_jobJoin_leaves (hleave : bit p.arg0 28 = true) (hin : c.job = some e) :
    exec (.jobJoin port q) s = .next ((s.leaveJob y).completePacket port q p) := by
  rw [exec_jobJoin, execJobJoin, State.runPacket_ok hr ho hf]
  simp only [hs, hj, hleave, hin, hl, hb, hv, ne_eq, not_true_eq_false, decide_false, bne_self_eq_false, List.isEmpty_nil,
    Bool.not_true, Bool.or_self, Bool.false_eq_true, if_false, if_true]

end

/-- JOB_DESTROY of a job without members frees its entry, and the cores forget its votes. -/
theorem exec_jobDestroy_destroys {j : Job} (ho : p.opcode = 0x2A) (hj : s.jobEntry (p.arg0 % 2 ^ 16) = some (e, j))
    (hm : j.members = []) :
    exec (.jobDestroy port q) s =
      .next (((s.forgetVotes e).modObjs fun o => { o with jobs := del o.jobs e }).completePacket port q p) := by
  rw [exec_jobDestroy, execJobDestroy, State.runPacket_ok hr ho hf]
  simp only [hj, hm, List.isEmpty_nil, Bool.not_true, Bool.false_eq_true, if_false]
  rfl

end

/-- Settles O24: one lemma for each change of the job table, whose conditions are those under which the command's checks pass. -/
theorem jobsAreKept : Obligations.JobsAreKept := by
  intro s port q e k p c hr hf
  exact ⟨exec_jobCreate_creates hr hf, fun y j ho hs hj hl hb hv =>
      ⟨exec_jobJoin_joins hr hf ho hs hj hl hb hv, exec_jobJoin_leaves hr hf ho hs hj hl hb hv⟩,
    fun j => exec_jobDestroy_destroys hr hf⟩

end Sys2Proof.Machine
end

section
/-! PROOFS. Bytes in cells and in cached lines: what is read after a run of bytes was written, and what a table lists after an entry was
set, dropped or changed. -/

namespace Sys2Proof.Machine

open Sys2Proof

/-! ### Cells -/

/-- A run of bytes written reads back, and every other byte reads as before. -/
theorem cellGet_cellPuts {m : List Host.Cell} (h : Memory.wf m = true) (a : Nat) (bs : List Byte) (b : Nat) :
    cellGet (cellPuts m a bs) b = if a ≤ b ∧ b < a + bs.length then (bs[b - a]?).getD 0 else cellGet m b := by
  induction bs generalizing m a with
  | nil => rw [cellPuts, if_neg (by simp only [List.length_nil]; omega)]
  | cons v bs ih =>
    rw [cellPuts, ih (cellPut_wf h a v), List.length_cons]
    obtain hlt | rfl | hgt := Nat.lt_trichotomy b a
    · rw [if_neg (by omega), if_neg (by omega), cellGet_cellPut_ne h v hlt.ne]
    · rw [if_neg (by omega), if_pos (by omega), cellGet_cellPut_self h, Nat.sub_self, List.getElem?_cons_zero, Option.getD_some]
    · obtain ⟨n, rfl⟩ := Nat.exists_eq_add_of_lt hgt
      rw [cellGet_cellPut_ne h v hgt.ne', show a + n + 1 - a = n + 1 by omega, List.getElem?_cons_succ, show a + n + 1 - (a + 1) = n by omega]
      exact if_congr (by omega) rfl rfl

/-! ### Tables -/

section
variable {α : Type}

theorem mem_put {t : Tab α} {k : Nat} {v : α} {e : Nat × α} (h : e ∈ put t k v) : e ∈ t ∨ e = (k, v) := by
  induction t with
  | nil => exact .inr (by simpa [put] using h)
  | cons x t ih =>
    obtain ⟨a, w⟩ := x
    unfold put at h
    split_ifs at h with hlt heq
    · exact (List.mem_cons.mp h).symm
    · exact ((List.mem_cons.mp h).imp id (List.mem_cons_of_mem _)).symm
    · obtain rfl | h := List.mem_cons.mp h
      · exact .inl List.mem_cons_self
      · exact (ih h).imp_left (List.mem_cons_of_mem _)

theorem mem_del {t : Tab α} {k : Nat} {e : Nat × α} : e ∈ del t k ↔ e ∈ t ∧ e.1 ≠ k := by simp [del]

theorem mem_upd {t : Tab α} {k : Nat} {f : α → α} {e : Nat × α} (h : e ∈ upd t k f) :
    ∃ w, (e.1, w) ∈ t ∧ e.2 = if e.1 = k then f w else w := by
  obtain ⟨⟨a, w⟩, hmem, rfl⟩ := List.mem_map.mp h
  by_cases ha : a = k
  · exact ⟨w, by simpa [ha] using hmem, by simp [ha]⟩
  · exact ⟨w, by simpa [ha] using hmem, by simp [ha]⟩

/-- The keys of a table rise. -/
def Rising (t : Tab α) : Prop := t.Pairwise fun a b => a.1 < b.1

theorem Rising.put {t : Tab α} (h : Rising t) (k : Nat) (v : α) : Rising (put t k v) := by
  induction t with
  | nil => exact List.pairwise_singleton ..
  | cons x t ih =>
    obtain ⟨a, w⟩ := x
    obtain ⟨hlow, hrest⟩ := List.pairwise_cons.mp h
    unfold Machine.put
    split_ifs with hlt heq
    · refine List.pairwise_cons.mpr ⟨fun e he => ?_, h⟩
      obtain rfl | he := List.mem_cons.mp he
      · exact hlt
      · exact hlt.trans (hlow e he)
    · exact List.pairwise_cons.mpr ⟨fun e he => heq ▸ hlow e he, hrest⟩
    · refine List.pairwise_cons.mpr ⟨fun e he => ?_, ih hrest⟩
      obtain he | rfl := mem_put he
      · exact hlow e he
      · exact lt_of_le_of_ne (not_lt.mp hlt) heq

theorem Rising.del {t : Tab α} (h : Rising t) (k : Nat) : Rising (del t k) := h.sublist List.filter_sublist

theorem Rising.upd {t : Tab α} (h : Rising t) (k : Nat) (f : α → α) : Rising (upd t k f) := by
  refine List.pairwise_map.mpr (h.imp fun {x y} hxy => ?_)
  have key (e : Nat × α) : (if e.1 = k then (e.1, f e.2) else e).1 = e.1 := by split <;> rfl
  rwa [key, key]

/-- With rising keys, an entry of the table is the one that a lookup finds. -/
theorem Rising.look_of_mem {t : Tab α} (h : Rising t) {e : Nat × α} (he : e ∈ t) : look t e.1 = some e.2 := by
  induction t with
  | nil => cases he
  | cons x t ih =>
    obtain ⟨hlow, hrest⟩ := List.pairwise_cons.mp h
    obtain rfl | he := List.mem_cons.mp he
    · exact if_pos rfl
    · exact (if_neg (hlow e he).ne).trans (ih hrest he)

end

/-! ### Lines -/

/-- Places `o` to `o + n` of a line are those of its mask. -/
theorem getLsbD_lineMask (o n : Nat) {i : Nat} (hi : i < 128) : (lineMask o n).getLsbD i = decide (o ≤ i ∧ i < o + n) := by
  rw [lineMask, BitVec.getLsbD_ofNat, Nat.testBit_mul_two_pow, Nat.testBit_two_pow_sub_one, Bool.eq_iff_iff]
  simp only [hi, Bool.and_eq_true, decide_eq_true_eq, true_and]
  omega

theorem length_patch {data bytes : List Byte} {o : Nat} (hd : data.length = 128) (h : o + bytes.length ≤ 128) :
    (patch data o bytes).length = 128 := by
  simp only [patch, List.length_append, List.length_take, List.length_drop, hd]
  omega

/-- A patched line has the new bytes at their places and the old ones elsewhere. -/
theorem getElem?_patch {data bytes : List Byte} {o : Nat} (hd : data.length = 128) (h : o + bytes.length ≤ 128) (i : Nat) :
    (patch data o bytes)[i]? = if o ≤ i ∧ i < o + bytes.length then bytes[i - o]? else data[i]? := by
  have ho : (data.take o).length = o := by rw [List.length_take]; omega
  rw [patch, List.append_assoc]
  by_cases hlo : i < o
  · rw [List.getElem?_append_left (by omega), List.getElem?_take_of_lt hlo, if_neg (by omega)]
  rw [List.getElem?_append_right (by omega), ho]
  by_cases hhi : i < o + bytes.length
  · rw [List.getElem?_append_left (by omega), if_pos ⟨by omega, hhi⟩]
  · rw [List.getElem?_append_right (by omega), List.getElem?_drop, if_neg (by omega)]
    exact congrArg (data[·]?) (by omega)

/-- Bytes taken from within a list are those of the list. -/
theorem getElem?_sliceBytes {bs : List Byte} {o n : Nat} (h : o + n ≤ bs.length) {i : Nat} (hi : i < n) :
    (sliceBytes bs o n)[i]? = bs[o + i]? := by
  have hl : ((bs.drop o).take n).length = n := by rw [List.length_take, List.length_drop]; omega
  rw [sliceBytes, List.getElem?_append_left (by omega), List.getElem?_take_of_lt hi, List.getElem?_drop]

theorem length_sliceBytes (bs : List Byte) (o n : Nat) : (sliceBytes bs o n).length = n := by
  have hl : ((bs.drop o).take n).length ≤ n := List.length_take_le ..
  rw [sliceBytes, List.length_append, List.length_replicate]
  omega

end Sys2Proof.Machine
end

section
/-! PROOFS. The memory-side cache and memory: what every agent sees, and which of it an operation changes (R295, R297). -/

namespace Sys2Proof.Machine

open Sys2Proof

/-! ### A line and its memory -/

/-- A line that agrees with memory: whole, its dirty bytes among the valid ones, its valid bytes that are not dirty those of HBM. -/
structure LineSound (m : List Host.Cell) (ln : Nat) (l : Line) : Prop where
  whole : l.data.length = 128
  dirtyValid : ∀ i < 128, l.dirty.getLsbD i = true → l.valid.getLsbD i = true
  clean : ∀ i < 128, l.valid.getLsbD i = true → l.dirty.getLsbD i = false → l.data[i]? = some (cellGet m (ln * 128 + i))

theorem cacheSound_iff {s : State} :
    CacheSound s ↔ MemCanonical s ∧ Rising s.cache.lines ∧ ∀ e ∈ s.cache.lines, LineSound s.mem e.1 e.2 :=
  ⟨fun h => ⟨h.canonical, h.rising, fun e he => ⟨h.whole e he, h.dirtyValid e he, h.clean e he⟩⟩,
    fun ⟨hm, hr, hl⟩ => ⟨hm, hr, fun e he => (hl e he).whole, fun e he => (hl e he).dirtyValid, fun e he => (hl e he).clean⟩⟩

theorem CacheSound.lineSound {s : State} (h : CacheSound s) {ln : Nat} {l : Line} (hl : s.line ln = some l) : LineSound s.mem ln l :=
  (cacheSound_iff.mp h).2.2 _ (mem_of_look hl)

theorem CacheSound.line_of_mem {s : State} (h : CacheSound s) {e : Nat × Line} (he : e ∈ s.cache.lines) : s.line e.1 = some e.2 :=
  Rising.look_of_mem h.rising he

/-- A line agrees with any memory that has the same bytes at its places. -/
theorem LineSound.of_bytes {m m' : List Host.Cell} {ln : Nat} {l : Line} (h : LineSound m ln l)
    (hm : ∀ b, b / 128 = ln → cellGet m' b = cellGet m b) : LineSound m' ln l :=
  ⟨h.whole, h.dirtyValid, fun i hi hv hd => by rw [hm _ (by omega)]; exact h.clean i hi hv hd⟩

/-- Only the bytes of a line and which of them are valid and dirty decide whether it agrees with memory. -/
theorem LineSound.of_eq {m : List Host.Cell} {ln : Nat} {l k : Line} (h : LineSound m ln l) (hdata : k.data = l.data)
    (hvalid : k.valid = l.valid) (hdirty : k.dirty = l.dirty) : LineSound m ln k :=
  ⟨hdata ▸ h.whole, hdirty ▸ hvalid ▸ h.dirtyValid, hdata ▸ hdirty ▸ hvalid ▸ h.clean⟩

/-- A line without a valid byte agrees with every memory. -/
theorem LineSound.of_invalid (m : List Host.Cell) (ln : Nat) {l : Line} (hw : l.data.length = 128) (hv : l.valid = 0) (hd : l.dirty = 0) :
    LineSound m ln l :=
  ⟨hw, fun i _ h => by simp [hd] at h, fun i _ h => by simp [hv] at h⟩

/-- Bytes written into a line are valid and dirty, and leave its other bytes. -/
theorem LineSound.write {m : List Host.Cell} {ln o : Nat} {l : Line} {bytes : List Byte} (h : LineSound m ln l)
    (hfit : o + bytes.length ≤ 128) : LineSound m ln (l.write o bytes) where
  whole := length_patch h.whole hfit
  dirtyValid i hi hd := by
    simp only [Line.write, BitVec.getLsbD_or, Bool.or_eq_true] at hd ⊢
    exact hd.imp_left (h.dirtyValid i hi)
  clean i hi hv hd := by
    simp only [Line.write, BitVec.getLsbD_or, Bool.or_eq_true, Bool.or_eq_false_iff] at hv hd
    have hout : ¬(o ≤ i ∧ i < o + bytes.length) := by simpa [getLsbD_lineMask _ _ hi] using hd.2
    have hvalid : l.valid.getLsbD i = true := hv.resolve_right (by simp [hd.2])
    exact (getElem?_patch h.whole hfit i).trans ((if_neg hout).trans (h.clean i hi hvalid hd.1))

/-- The byte at place `i` that is seen of a cached line, over the byte of HBM. -/
def Line.seen (l : Line) (i : Nat) (v : Byte) : Byte := if l.valid.getLsbD i then (l.data[i]?).getD 0 else v

theorem State.seeByte_cached {s : State} {b : Nat} {l : Line} (h : s.line (b / 128) = some l) :
    s.seeByte b = l.seen (b % 128) (cellGet s.mem b) := by
  rw [State.seeByte, h]
  rfl

theorem State.seeByte_absent {s : State} {b : Nat} (h : s.line (b / 128) = none) : s.seeByte b = cellGet s.mem b := by
  rw [State.seeByte, h]

/-- What is seen at an address is decided by its line and its byte of HBM. -/
theorem State.seeByte_congr {s t : State} {b : Nat} (hl : t.line (b / 128) = s.line (b / 128)) (hm : cellGet t.mem b = cellGet s.mem b) :
    t.seeByte b = s.seeByte b := by
  rw [State.seeByte, State.seeByte, hl, hm]

/-- A line shows its dirty bytes, and of the rest what HBM holds. -/
theorem LineSound.seen_eq {m : List Host.Cell} {ln : Nat} {l : Line} (h : LineSound m ln l) {b : Nat} (hb : b / 128 = ln) :
    l.seen (b % 128) (cellGet m b) = if l.dirty.getLsbD (b % 128) then (l.data[b % 128]?).getD 0 else cellGet m b := by
  have hi : b % 128 < 128 := Nat.mod_lt _ (by decide)
  rw [Line.seen]
  by_cases hd : l.dirty.getLsbD (b % 128) = true
  · rw [if_pos hd, if_pos (h.dirtyValid _ hi hd)]
  rw [if_neg hd]
  split
  next hv => rw [h.clean _ hi hv (by simpa using hd), Option.getD_some, ← hb, Nat.mul_comm, Nat.div_add_mod]
  next => rfl

/-- A line shows the bytes written into it, and of the rest what it showed before. -/
theorem Line.seen_write {l : Line} {o i : Nat} {bytes : List Byte} (hw : l.data.length = 128) (hfit : o + bytes.length ≤ 128) (hi : i < 128)
    (v : Byte) : (l.write o bytes).seen i v = if o ≤ i ∧ i < o + bytes.length then (bytes[i - o]?).getD 0 else l.seen i v := by
  have hpatch : (l.write o bytes).data[i]? = _ := getElem?_patch hw hfit i
  have hvalid : (l.write o bytes).valid.getLsbD i = (l.valid.getLsbD i || decide (o ≤ i ∧ i < o + bytes.length)) := by
    rw [← getLsbD_lineMask o _ hi]
    exact BitVec.getLsbD_or
  rw [Line.seen, hpatch, hvalid]
  split_ifs with h1 h2 h2
  all_goals simp_all [Line.seen]

/-! ### What an operation changes of what is seen -/

/-- An operation that leaves cache and memory in agreement, and every byte that is seen outside some places as it was. -/
structure SeesOnly (at_ : Nat → Prop) (s t : State) : Prop where
  sound : CacheSound s → CacheSound t
  byte : CacheSound s → ∀ b, ¬at_ b → t.seeByte b = s.seeByte b

/-- An operation that changes no byte that is seen. -/
abbrev Unseen (s t : State) : Prop := SeesOnly (fun _ => False) s t

section
variable {at_ : Nat → Prop} {s t u : State}

theorem SeesOnly.refl (at_ : Nat → Prop) (s : State) : SeesOnly at_ s s := ⟨id, fun _ _ _ => rfl⟩

theorem SeesOnly.trans (a : SeesOnly at_ s t) (b : SeesOnly at_ t u) : SeesOnly at_ s u :=
  ⟨fun h => b.sound (a.sound h), fun h x hx => (b.byte (a.sound h) x hx).trans (a.byte h x hx)⟩

theorem SeesOnly.mono {p : Nat → Prop} (h : SeesOnly p s t) (hp : ∀ b, p b → at_ b) : SeesOnly at_ s t :=
  ⟨h.sound, fun hs b hb => h.byte hs b fun hpb => hb (hp b hpb)⟩

theorem Unseen.within (h : Unseen s t) : SeesOnly at_ s t := h.mono fun _ => False.elim

theorem Unseen.trans (a : Unseen s t) (b : Unseen t u) : Unseen s u := SeesOnly.trans a b

theorem Unseen.see (h : Unseen s t) (hs : CacheSound s) (b : Nat) : t.seeByte b = s.seeByte b := h.byte hs b not_false

theorem SeesOnly.foldl {α : Type} {l : List α} {f : State → α → State} (hf : ∀ v, ∀ e ∈ l, SeesOnly at_ v (f v e)) (s : State) :
    SeesOnly at_ s (l.foldl f s) :=
  List.foldlRecOn (motive := SeesOnly at_ s) l f (.refl at_ s) fun v hv e he => hv.trans (hf v e he)

/-- An operation on neither memory nor the cached lines. -/
theorem Unseen.of_eq (hm : t.mem = s.mem) (hl : t.cache.lines = s.cache.lines) : Unseen s t where
  sound h := by rw [cacheSound_iff, MemCanonical, hm, hl]; exact cacheSound_iff.mp h
  byte _ b _ := State.seeByte_congr (by rw [State.line, State.line, hl]) (by rw [hm])

/-- An operation that keeps memory and cache whatever else it may change. -/
theorem Unseen.of_keeps {l : List Area} (h : ∀ F, Free F l → Keeps F s t) (hm : .mem ∉ l) (hc : .cache ∉ l) : Unseen s t :=
  .of_eq (Area.same_of_keeps h .mem hm) (congrArg Cache.lines (Area.same_of_keeps h .cache hc : t.cache = s.cache))

end

/-- A line changed in a way that its memory agrees with. -/
theorem CacheSound.modLine {s t : State} {ln : Nat} {f : Line → Line} (h : CacheSound s) (hm : t.mem = s.mem)
    (hl : t.cache.lines = upd s.cache.lines ln f) (hf : ∀ l, s.line ln = some l → LineSound s.mem ln (f l)) : CacheSound t := by
  obtain ⟨hmem, hrise, hlines⟩ := cacheSound_iff.mp h
  rw [cacheSound_iff, MemCanonical, hm, hl]
  refine ⟨hmem, hrise.upd ln f, fun ⟨k, l⟩ he => ?_⟩
  obtain ⟨w, hw, hlw⟩ := mem_upd he
  simp only at hw hlw ⊢
  split at hlw
  next hk =>
    subst hk hlw
    exact hf w (h.line_of_mem hw)
  next => exact hlw ▸ hlines _ hw

theorem State.line_upd {s t : State} {ln : Nat} {f : Line → Line} (hl : t.cache.lines = upd s.cache.lines ln f) (k : Nat) :
    t.line k = (s.line k).map fun l => if k = ln then f l else l := by
  rw [State.line, hl, look_upd, State.line]

/-- A line marked, with its bytes as they were. -/
theorem Unseen.modLine {s t : State} {ln : Nat} {f : Line → Line} (hm : t.mem = s.mem) (hl : t.cache.lines = upd s.cache.lines ln f)
    (hdata : ∀ l, (f l).data = l.data) (hvalid : ∀ l, (f l).valid = l.valid) (hdirty : ∀ l, (f l).dirty = l.dirty) : Unseen s t where
  sound h := h.modLine hm hl fun l he => (h.lineSound he).of_eq (hdata l) (hvalid l) (hdirty l)
  byte _ b _ := by
    have hline := State.line_upd hl (b / 128)
    cases hs : s.line (b / 128) with
    | none => rw [State.seeByte_absent (hline.trans (by rw [hs]; rfl)), State.seeByte_absent hs, hm]
    | some l =>
      rw [State.seeByte_cached (hline.trans (by rw [hs]; rfl)), State.seeByte_cached hs, hm]
      split
      next => rw [Line.seen, Line.seen, hdata, hvalid]
      next => rfl

end Sys2Proof.Machine
end

section
/-! PROOFS. The memory-side cache is transparent: write-back, eviction, installation and reads change no byte that is seen, and bytes
written through the slices change their own (R294, R295, R297). -/

namespace Sys2Proof.Machine

open Sys2Proof

/-- The `n` bytes from an address. -/
def Within (a n b : Nat) : Prop := a ≤ b ∧ b < a + n

/-! ### Memory and cache under the operations on HBM -/

section
variable (s : State)

@[simp] theorem State.touch_mem (a : Nat) : (s.touch a).mem = s.mem :=
  Area.same_of_keeps (fun _ w => State.touch_keeps w (Keeps.refl s)) .mem (by decide)
@[simp] theorem State.mirror_mem (ln : Nat) : (s.mirror ln).mem = s.mem :=
  Area.same_of_keeps (fun _ w => State.mirror_keeps w (Keeps.refl s)) .mem (by decide)
@[simp] theorem State.hbmWrote_mem (a rd wr : Nat) : (s.hbmWrote a rd wr).mem = s.mem :=
  Area.same_of_keeps (fun _ w => State.hbmWrote_keeps w (Keeps.refl s)) .mem (by decide)
@[simp] theorem State.mendHalves_mem (a n : Nat) : (s.mendHalves a n).mem = s.mem := rfl
@[simp] theorem State.hbmPut_mem (a : Nat) (bytes : List Byte) : (s.hbmPut a bytes).mem = cellPuts s.mem a bytes := by
  rw [State.hbmPut, State.touch_mem]
@[simp] theorem State.hbmStore_mem (a : Nat) (bytes : List Byte) : (s.hbmStore a bytes).mem = cellPuts s.mem a bytes := by
  rw [State.hbmStore, State.mirror_mem, State.hbmPut_mem]
@[simp] theorem State.writeBack_cache (ln : Nat) (l : Line) : (s.writeBack ln l).cache = s.cache :=
  Area.same_of_keeps (fun _ w => State.writeBack_keeps w (Keeps.refl s)) .cache (by decide)
@[simp] theorem State.hbmWrite_cache (a : Nat) (bytes : List Byte) : (s.hbmWrite a bytes).cache = s.cache :=
  Area.same_of_keeps (fun _ w => State.hbmWrite_keeps w (Keeps.refl s)) .cache (by decide)
@[simp] theorem State.reachDie_cache (d : Nat) : (s.reachDie d).cache = s.cache :=
  Area.same_of_keeps (fun _ w => State.reachDie_keeps w (Keeps.refl s)) .cache (by decide)
@[simp] theorem State.access_mem (p ln : Nat) (hit : Bool) : (s.access p ln hit).mem = s.mem :=
  Area.same_of_keeps (fun _ w => State.access_keeps w (Keeps.refl s)) .mem (by decide)
@[simp] theorem State.access_lines (p ln : Nat) (hit : Bool) : (s.access p ln hit).cache.lines = s.cache.lines := by
  unfold State.access
  dsimp only
  split <;> simp
@[simp] theorem State.victim_mem (slice set : Nat) : (s.victim slice set).2.mem = s.mem :=
  Area.same_of_keeps (fun _ w => State.victim_keeps w (Keeps.refl s)) .mem (by decide)
@[simp] theorem State.victim_cache (slice set : Nat) : (s.victim slice set).2.cache = s.cache :=
  Area.same_of_keeps (fun _ w => State.victim_keeps w (Keeps.refl s)) .cache (by decide)

end

/-! ### Write-back and eviction (R295, R300) -/

/-- One half of a line written back: its dirty bytes reach HBM, and no other byte changes. -/
theorem State.cellGet_writeHalf {s : State} {ln h : Nat} {l : Line} (hm : MemCanonical s) (hw : l.data.length = 128) (hh : h < 2) (b : Nat) :
    cellGet (s.writeHalf ln l h).mem b =
      if b / 64 = 2 * ln + h ∧ l.dirty.getLsbD (b % 128) = true then (l.data[b % 128]?).getD 0 else cellGet s.mem b := by
  have hplace : b / 64 = 2 * ln + h → b % 128 = h * 64 + b % 64 := by omega
  have hrange : (ln * 128 + h * 64 ≤ b ∧ b < ln * 128 + h * 64 + 64) ↔ b / 64 = 2 * ln + h := by omega
  have hoff : b / 64 = 2 * ln + h → b - (ln * 128 + h * 64) = b % 64 := by omega
  have hlt : b % 64 < 64 := Nat.mod_lt _ (by decide)
  unfold State.writeHalf
  extract_lets a d merged
  by_cases hnone : (!(List.range 64).any d) = true
  · rw [if_pos hnone, if_neg]
    rintro ⟨hb, hd⟩
    exact List.any_eq_false.mp (by simpa using hnone) (b % 64) (List.mem_range.mpr hlt) (by rwa [hplace hb] at hd)
  rw [if_neg hnone]
  by_cases hall : (List.range 64).all d = true
  · rw [if_pos hall, State.hbmWrote_mem, State.mendHalves_mem, State.hbmPut_mem, cellGet_cellPuts hm, length_sliceBytes]
    refine if_ctx_congr (hrange.trans (iff_self_and.mpr fun hb => ?_)) (fun hb => ?_) fun _ => rfl
    · exact hplace hb ▸ List.all_eq_true.mp hall _ (List.mem_range.mpr hlt)
    · rw [hoff hb.1, getElem?_sliceBytes (by omega) hlt, hplace hb.1]
  · rw [if_neg hall, State.hbmWrote_mem, State.hbmPut_mem, cellGet_cellPuts hm, List.length_map, List.length_range]
    by_cases hb : b / 64 = 2 * ln + h
    · have hget : merged[b % 64]? = some (if d (b % 64) then (l.data[b % 128]?).getD 0 else cellGet s.mem b) := by
        rw [List.getElem?_map, List.getElem?_range hlt, Option.map_some, hplace hb, show a + b % 64 = b by omega]
      rw [if_pos (hrange.mpr hb), hoff hb, hget, Option.getD_some]
      exact if_congr (by rw [hplace hb]; exact (and_iff_right hb).symm) rfl rfl
    · rw [if_neg (mt hrange.mp hb), if_neg fun h => hb h.1]

/-- A line written back: its dirty bytes reach HBM, and no other byte changes. -/
theorem State.cellGet_writeBack {s : State} {ln : Nat} {l : Line} (hm : MemCanonical s) (hw : l.data.length = 128) (b : Nat) :
    cellGet (s.writeBack ln l).mem b =
      if b / 128 = ln ∧ l.dirty.getLsbD (b % 128) = true then (l.data[b % 128]?).getD 0 else cellGet s.mem b := by
  unfold State.writeBack
  by_cases hd : l.dirty = 0
  · rw [if_pos hd, if_neg (by simp [hd])]
  · have hm1 : MemCanonical (s.writeHalf ln l 0) := (State.writeHalf_keeps (F := fun _ => false) (fun _ _ => rfl) (Keeps.refl s)).wf hm
    rw [if_neg hd, State.bump_mem, State.mirror_mem, State.cellGet_writeHalf hm1 hw (by decide),
      State.cellGet_writeHalf hm hw (by decide), ← ite_or]
    refine if_congr ?_ rfl rfl
    rw [← or_and_right]
    exact and_congr_left' (by omega)

/-- A line evicted goes on showing the bytes that it showed. -/
theorem State.evict_unseen {s : State} {ln : Nat} {l : Line} (hl : s.line ln = some l) : Unseen s (s.evict ln l) := by
  have hlines : (s.evict ln l).cache.lines = del s.cache.lines ln := by rw [State.evict, State.writeBack_cache]
  have hcell (h : CacheSound s) (b : Nat) : cellGet (s.evict ln l).mem b = _ := State.cellGet_writeBack h.canonical (h.lineSound hl).whole b
  refine ⟨fun h => ?_, fun h b _ => ?_⟩
  · obtain ⟨hm, hrise, hsound⟩ := cacheSound_iff.mp h
    refine cacheSound_iff.mpr ⟨(State.evict_keeps (F := fun _ => false) (fun _ _ => rfl) (Keeps.refl s)).wf hm, hlines ▸ hrise.del ln,
      fun e he => ?_⟩
    obtain ⟨hmem, hne⟩ := mem_del.mp (hlines ▸ he)
    exact (hsound e hmem).of_bytes fun b hb => by rw [hcell h, if_neg fun hln => hne (hb.symm.trans hln.1)]
  · have hline : (s.evict ln l).line (b / 128) = look (del s.cache.lines ln) (b / 128) := by rw [State.line, hlines]
    by_cases hb : b / 128 = ln
    · subst hb
      rw [State.seeByte_absent (hline.trans (look_del_self ..)), hcell h, State.seeByte_cached hl, (h.lineSound hl).seen_eq rfl]
      exact if_congr (and_iff_right rfl) rfl rfl
    · exact State.seeByte_congr (hline.trans (look_del_ne _ hb)) (by rw [hcell h, if_neg fun hln => hb hln.1])

/-! ### Installation (R294) -/

/-- A victim is a line of the cache. -/
theorem State.victim_cached {s : State} {slice set : Nat} {e : Nat × Line} (h : (s.victim slice set).1 = some e) : e ∈ s.cache.lines := by
  unfold State.victim at h
  extract_lets ways open_ at h
  split_ifs at h
  split at h
  next hf =>
    cases h
    exact List.mem_of_mem_filter (List.mem_of_mem_filter (List.mem_of_find?_eq_some hf))
  next => exact List.mem_of_mem_filter (List.mem_of_mem_filter (List.mem_of_getElem? h))

/-- Room made for a line in its set: the victim evicted, where the set is full (R294). -/
def State.makeRoom (s : State) (p ln : Nat) : State :=
  let v := s.victim (s.placeOf p ln).1 (s.placeOf p ln).2
  match v.1 with
  | some e => v.2.evict e.1 e.2
  | none => v.2

/-- A line as it is installed: no byte valid. -/
def State.emptyLine (s : State) (p ln age : Nat) : Line :=
  ⟨(s.placeOf p ln).1, (s.placeOf p ln).2, p, 0, 0, List.replicate 128 0, false, age⟩

/-- An absent line is placed in the room made for it. -/
theorem State.install_absent {s : State} {p ln : Nat} (h : s.line ln = none) (mru : Bool) :
    s.install p ln mru = { s.makeRoom p ln with cache := { (s.makeRoom p ln).cache with
      lines := put (s.makeRoom p ln).cache.lines ln (s.emptyLine p ln (if mru then (s.makeRoom p ln).cache.clock + 1 else 0)),
      clock := (s.makeRoom p ln).cache.clock + 1 } } := by
  rw [State.install, h]
  rfl

/-- Making room changes no byte that is seen, and brings no line into the cache. -/
theorem State.makeRoom_unseen {s : State} (h : CacheSound s) (p ln : Nat) :
    Unseen s (s.makeRoom p ln) ∧ (s.line ln = none → (s.makeRoom p ln).line ln = none) := by
  have hdraw : Unseen s (s.victim (s.placeOf p ln).1 (s.placeOf p ln).2).2 := .of_eq (State.victim_mem ..) (by rw [State.victim_cache])
  unfold State.makeRoom
  extract_lets v
  split
  next e he =>
    have hline : v.2.line e.1 = some e.2 := by
      rw [State.line, State.victim_cache]
      exact h.line_of_mem (State.victim_cached he)
    refine ⟨hdraw.trans (State.evict_unseen hline), fun hl => ?_⟩
    rw [State.line, State.evict, State.writeBack_cache, State.victim_cache]
    by_cases hk : ln = e.1
    · rw [hk, look_del_self]
    · rw [look_del_ne _ hk]
      exact hl
  next => exact ⟨hdraw, fun hl => by rw [State.line, State.victim_cache]; exact hl⟩

/-- An absent line placed without a valid byte shows what memory holds. -/
theorem Unseen.place {s t : State} {ln : Nat} {l : Line} (hm : t.mem = s.mem) (hl : t.cache.lines = put s.cache.lines ln l)
    (habs : s.line ln = none) (hw : l.data.length = 128) (hv : l.valid = 0) (hd : l.dirty = 0) : Unseen s t where
  sound h := by
    obtain ⟨hmem, hrise, hsound⟩ := cacheSound_iff.mp h
    rw [cacheSound_iff, MemCanonical, hm, hl]
    refine ⟨hmem, hrise.put ln l, fun e he => ?_⟩
    obtain he | rfl := mem_put he
    · exact hsound e he
    · exact .of_invalid _ _ hw hv hd
  byte _ b _ := by
    have hline : t.line (b / 128) = if b / 128 = ln then some l else s.line (b / 128) := by rw [State.line, hl, look_put, State.line]
    by_cases hb : b / 128 = ln
    · rw [State.seeByte_cached (hline.trans (if_pos hb)), State.seeByte_absent (hb ▸ habs), hm, Line.seen, hv]
      exact if_neg (by simp)
    · exact State.seeByte_congr (hline.trans (if_neg hb)) (by rw [hm])

/-- Installing a line changes no byte that is seen. -/
theorem State.install_unseen (s : State) (p ln : Nat) (mru : Bool) : Unseen s (s.install p ln mru) := by
  cases hl : s.line ln with
  | some l => rw [State.install, hl]; exact .refl _ s
  | none =>
    have hplaced (h : CacheSound s) : Unseen s (s.install p ln mru) := by
      obtain ⟨hroom, habs⟩ := State.makeRoom_unseen h p ln
      rw [State.install_absent hl]
      exact hroom.trans (Unseen.place rfl rfl (habs hl) (List.length_replicate ..) rfl rfl)
    exact ⟨fun h => (hplaced h).sound h, fun h => (hplaced h).byte h⟩

/-- An absent line is in the cache once it is installed. -/
theorem State.install_line {s : State} {p ln : Nat} (h : s.line ln = none) (mru : Bool) :
    ∃ l, (s.install p ln mru).line ln = some l := by
  rw [State.install_absent h]
  exact ⟨_, look_put_self ..⟩

/-! ### Bytes written -/

/-- An operation after which the bytes from an address are seen as given, and every other byte as before. -/
structure Written (a : Nat) (bytes : List Byte) (s t : State) : Prop where
  sound : CacheSound s → CacheSound t
  byte : CacheSound s → ∀ b, t.seeByte b = if a ≤ b ∧ b < a + bytes.length then (bytes[b - a]?).getD 0 else s.seeByte b

section
variable {a : Nat} {bytes : List Byte} {s t u : State}

theorem Written.seesOnly (h : Written a bytes s t) : SeesOnly (Within a bytes.length) s t :=
  ⟨h.sound, fun hs b hb => (h.byte hs b).trans (if_neg hb)⟩

theorem Written.nil (a : Nat) (s : State) : Written a [] s s :=
  ⟨id, fun _ b => (if_neg (by simp only [List.length_nil]; omega)).symm⟩

theorem Written.after (h : Written a bytes t u) (hu : Unseen s t) : Written a bytes s u :=
  ⟨fun hs => h.sound (hu.sound hs), fun hs b => by rw [h.byte (hu.sound hs), hu.see hs]⟩

theorem Written.before (h : Written a bytes s t) (hu : Unseen t u) : Written a bytes s u :=
  ⟨fun hs => hu.sound (h.sound hs), fun hs b => by rw [hu.see (h.sound hs), h.byte hs]⟩

/-- Two runs of bytes, one behind the other, are one run. -/
theorem Written.append {cs : List Byte} (h : Written a bytes s t) (hc : Written (a + bytes.length) cs t u) : Written a (bytes ++ cs) s u := by
  refine ⟨fun hs => hc.sound (h.sound hs), fun hs b => ?_⟩
  rw [hc.byte (h.sound hs), h.byte hs, List.length_append]
  by_cases hlo : b < a + bytes.length
  · rw [if_neg (by omega)]
    by_cases ha : a ≤ b
    · rw [if_pos ⟨ha, hlo⟩, if_pos (by omega), List.getElem?_append_left (by omega)]
    · rw [if_neg (by omega), if_neg (by omega)]
  · rw [if_neg (show ¬(a ≤ b ∧ b < a + bytes.length) by omega)]
    by_cases hhi : b < a + bytes.length + cs.length
    · rw [if_pos (by omega), if_pos (by omega), List.getElem?_append_right (by omega), Nat.sub_sub]
    · rw [if_neg (by omega), if_neg (by omega)]

/-- Bytes within a cached line, written into it. -/
theorem Written.of_line {l : Line} (hm : t.mem = s.mem) (hl : t.cache.lines = upd s.cache.lines (a / 128) fun l => l.write (a % 128) bytes)
    (hline : s.line (a / 128) = some l) (hfit : a % 128 + bytes.length ≤ 128) : Written a bytes s t := by
  refine ⟨fun h => h.modLine hm hl fun k hk => (h.lineSound hk).write hfit, fun h b => ?_⟩
  have hupd := State.line_upd hl (b / 128)
  by_cases hb : b / 128 = a / 128
  · rw [← hb] at hline
    rw [hline, Option.map_some, if_pos hb] at hupd
    rw [State.seeByte_cached hupd, State.seeByte_cached hline, hm,
      Line.seen_write (h.lineSound hline).whole hfit (Nat.mod_lt _ (by decide))]
    refine if_ctx_congr (by omega) (fun _ => ?_) fun _ => rfl
    rw [show b % 128 - a % 128 = b - a by omega]
  · rw [if_neg (by omega)]
    refine State.seeByte_congr (hupd.trans ?_) (by rw [hm])
    simp only [if_neg hb, Option.map_id']

/-- Bytes within a line that is not cached, put in HBM. -/
theorem Written.of_cells (hm : t.mem = cellPuts s.mem a bytes) (hl : t.cache.lines = s.cache.lines) (habs : s.line (a / 128) = none)
    (hfit : a % 128 + bytes.length ≤ 128) : Written a bytes s t := by
  have hcell (h : CacheSound s) (b : Nat) :
      cellGet t.mem b = if a ≤ b ∧ b < a + bytes.length then (bytes[b - a]?).getD 0 else cellGet s.mem b := by
    rw [hm, cellGet_cellPuts h.canonical]
  have hline (k : Nat) : t.line k = s.line k := by rw [State.line, State.line, hl]
  refine ⟨fun h => ?_, fun h b => ?_⟩
  · obtain ⟨hmem, hrise, hsound⟩ := cacheSound_iff.mp h
    refine cacheSound_iff.mpr ⟨?_, hl ▸ hrise, fun e he => ?_⟩
    · rw [MemCanonical, hm]
      exact cellPuts_wf hmem a bytes
    · rw [hl] at he
      have hne : e.1 ≠ a / 128 := fun hk => by
        have hfound := h.line_of_mem he
        rw [hk, habs] at hfound
        cases hfound
      exact (hsound e he).of_bytes fun b hb => by rw [hcell h, if_neg (by omega)]
  · by_cases hb : a ≤ b ∧ b < a + bytes.length
    · have hk : b / 128 = a / 128 := by omega
      rw [State.seeByte_absent (by rw [hline, hk, habs]), hcell h, if_pos hb, if_pos hb]
    · rw [if_neg hb]
      exact State.seeByte_congr (hline _) (by rw [hcell h, if_neg hb])

end

/-! ### Writes through the slices -/

theorem State.holdsAt_congr {s t : State} (hs : t.surv = s.surv) (ho : t.objs = s.objs) (a : Nat) : t.holdsAt a = s.holdsAt a := by
  have hpage (p : Prot) : t.protPage p true true a = s.protPage p true true a := by
    simp only [State.protPage, State.entryPages, ho]
  simp only [State.holdsAt, hs, hpage]

/-- Bytes within an absent line, written to HBM where no close holds them. -/
theorem State.hbmWrite_written {s : State} {a : Nat} {bytes : List Byte} (habs : s.line (a / 128) = none)
    (hfit : a % 128 + bytes.length ≤ 128) (hfree : s.holdsAt a = false) : Written a bytes s (s.hbmWrite a bytes) := by
  refine .of_cells ?_ (by rw [State.hbmWrite_cache]) habs hfit
  simp [State.hbmWrite, hfree]

/-- A line used stays as it is seen. -/
theorem State.used_unseen (s : State) (ln : Nat) : Unseen s (s.used ln) :=
  .modLine (f := fun l => { l with age := s.cache.clock + 1 }) rfl rfl (fun _ => rfl) (fun _ => rfl) fun _ => rfl

theorem State.access_unseen (s : State) (p ln : Nat) (hit : Bool) : Unseen s (s.access p ln hit) := .of_eq (by simp) (by simp)

/-- A write that misses in the cache, counted; a repeat of an outstanding miss is counted so too (R296). -/
def State.missed (s : State) (p ln : Nat) : State :=
  if s.missing ln then (s.access p ln false).bump (offMcPart p 0x30) 1 else s.access p ln false

theorem State.missed_keeps {F : Area → Bool} {s : State} {p ln : Nat} (w : Free F [.regs, .cache, .pwr]) : Keeps F s (s.missed p ln) :=
  .ite (State.bump_keeps (w.sub rfl) (State.access_keeps (w.sub rfl) (.refl s))) (State.access_keeps (w.sub rfl) (.refl s))

@[simp] theorem State.missed_mem (s : State) (p ln : Nat) : (s.missed p ln).mem = s.mem :=
  Area.same_of_keeps (fun _ w => State.missed_keeps w) .mem (by decide)
@[simp] theorem State.missed_surv (s : State) (p ln : Nat) : (s.missed p ln).surv = s.surv :=
  Area.same_of_keeps (fun _ w => State.missed_keeps w) .surv (by decide)
@[simp] theorem State.missed_objs (s : State) (p ln : Nat) : (s.missed p ln).objs = s.objs :=
  Area.same_of_keeps (fun _ w => State.missed_keeps w) .objs (by decide)
@[simp] theorem State.missed_lines (s : State) (p ln : Nat) : (s.missed p ln).cache.lines = s.cache.lines := by
  unfold State.missed
  split <;> simp

theorem State.missed_unseen (s : State) (p ln : Nat) : Unseen s (s.missed p ln) := .of_eq (by simp) (by simp)

section
variable {s : State} {p policy a : Nat} {bytes : List Byte}

theorem State.writeLine_held (h : s.holdsAt a = true) : s.writeLine p policy a bytes = s.holdWrite ⟨some (p, policy), a, bytes⟩ := by
  rw [State.writeLine, if_pos h]

theorem State.writeLine_hit {l : Line} (h : s.holdsAt a = false) (hl : s.line (a / 128) = some l) : s.writeLine p policy a bytes =
    ((s.access p (a / 128) true).modLines fun t => upd t (a / 128) fun l => l.write (a % 128) bytes).used (a / 128) := by
  simp [State.writeLine, h, hl]

theorem State.writeLine_miss (h : s.holdsAt a = false) (hl : s.line (a / 128) = none) : s.writeLine p policy a bytes =
    if policy = 2 then (s.missed p (a / 128)).hbmWrite a bytes
    else ((s.missed p (a / 128)).install p (a / 128) (policy != 1)).modLines fun t => upd t (a / 128) fun l => l.write (a % 128) bytes := by
  simp [State.writeLine, h, hl, State.missed]

/-- Bytes within one line that no close holds, written through the slices: into the cached line, past the cache, or into a line installed
for them. -/
theorem State.writeLine_written (h : s.holdsAt a = false) (hfit : a % 128 + bytes.length ≤ 128) :
    Written a bytes s (s.writeLine p policy a bytes) := by
  cases hl : s.line (a / 128) with
  | some l =>
    rw [State.writeLine_hit h hl]
    have hline : (s.access p (a / 128) true).line (a / 128) = some l := by
      rw [State.line, State.access_lines]
      exact hl
    have hwrite := Written.of_line (s := s.access p (a / 128) true)
      (t := (s.access p (a / 128) true).modLines fun t => upd t (a / 128) fun l => l.write (a % 128) bytes) rfl rfl hline hfit
    exact (hwrite.after (s.access_unseen p (a / 128) true)).before (State.used_unseen ..)
  | none =>
    rw [State.writeLine_miss h hl]
    have habs : (s.missed p (a / 128)).line (a / 128) = none := by
      rw [State.line, State.missed_lines]
      exact hl
    refine .after ?_ (s.missed_unseen p (a / 128))
    split
    next =>
      refine State.hbmWrite_written habs hfit ?_
      rw [State.holdsAt_congr (State.missed_surv ..) (State.missed_objs ..), h]
    next =>
      obtain ⟨l, hline⟩ := State.install_line habs (p := p) (policy != 1)
      exact .after (Written.of_line (s := (s.missed p (a / 128)).install p (a / 128) (policy != 1)) rfl rfl hline hfit)
        (State.install_unseen ..)

/-- Bytes within one line written through the slices change no other byte, whether or not a close holds them. -/
theorem State.writeLine_seesOnly (hfit : a % 128 + bytes.length ≤ 128) :
    SeesOnly (Within a bytes.length) s (s.writeLine p policy a bytes) := by
  cases h : s.holdsAt a with
  | true =>
    rw [State.writeLine_held h]
    exact Unseen.within (.of_eq rfl rfl)
  | false => exact (State.writeLine_written h hfit).seesOnly

end

/-! ### Bytes cut at lines -/

@[simp] theorem lineCuts_nil (n a : Nat) : lineCuts n a [] = [] := by cases n <;> rfl

/-- The pieces that bytes are cut into lie among them, each within one line. -/
theorem lineCuts_within {n a : Nat} {bytes : List Byte} {e : Nat × List Byte} (h : e ∈ lineCuts n a bytes) :
    e.1 % 128 + e.2.length ≤ 128 ∧ a ≤ e.1 ∧ e.1 + e.2.length ≤ a + bytes.length := by
  induction n generalizing a bytes with
  | zero => cases h
  | succ n ih =>
    cases bytes with
    | nil => cases h
    | cons v bytes =>
      rw [lineCuts] at h
      obtain rfl | h := List.mem_cons.mp h
      · simp only [List.length_take]
        omega
      · have hlong : 128 - a % 128 < (v :: bytes).length := by
          by_contra hshort
          rw [List.drop_eq_nil_of_le (not_lt.mp hshort), lineCuts_nil] at h
          cases h
        obtain ⟨hfit, hlo, hhi⟩ := ih h
        rw [List.length_drop] at hhi
        exact ⟨hfit, by omega, by omega⟩

/-- Bytes written through the slices change no other byte, whether or not a close holds them. -/
theorem State.cacheWrite_seesOnly (s : State) (p policy a : Nat) (bytes : List Byte) :
    SeesOnly (Within a bytes.length) s (s.cacheWrite p policy a bytes) := by
  refine SeesOnly.foldl (fun v e he => ?_) s
  obtain ⟨hfit, hlo, hhi⟩ := lineCuts_within he
  exact (State.writeLine_seesOnly hfit).mono fun b hb => ⟨hlo.trans hb.1, hb.2.trans_le hhi⟩

/-! ### Closes under writes (R440)

A write may copy a page on its first touch and may be mirrored; neither begins or ends a close, or moves a protected page. -/

/-- A protection has the close and the pages of one that a state lists. -/
def State.listsClose (s : State) (p : Prot) : Prop := ∃ e ∈ s.surv.prots, p.closing = e.2.closing ∧ p.entries = e.2.entries

/-- Every protection has its close and its pages from an earlier state. -/
structure NoNewClose (s t : State) : Prop where
  lists : ∀ e ∈ t.surv.prots, s.listsClose e.2

section
variable {s t : State}

theorem NoNewClose.refl (s : State) : NoNewClose s s := ⟨fun e he => ⟨e, he, rfl, rfl⟩⟩

theorem NoNewClose.trans {u : State} (a : NoNewClose s t) (b : NoNewClose t u) : NoNewClose s u := ⟨fun e he => by
  obtain ⟨g, hg, hclose, hpages⟩ := b.lists e he
  obtain ⟨k, hk, hclose', hpages'⟩ := a.lists g hg
  exact ⟨k, hk, hclose.trans hclose', hpages.trans hpages'⟩⟩

theorem NoNewClose.of_prots {u : State} (h : NoNewClose s t) (hp : u.surv.prots = t.surv.prots) : NoNewClose s u :=
  ⟨fun e he => h.lists e (hp ▸ he)⟩

/-- An operation on parts other than the protections. -/
theorem NoNewClose.of_keeps {u : State} {l : List Area} (h : NoNewClose s t) (hk : ∀ F, Free F l → Keeps F t u) (hl : .surv ∉ l) :
    NoNewClose s u :=
  h.of_prots (congrArg Surv.prots (Area.same_of_keeps hk .surv hl : u.surv = t.surv))

/-- A protection changed in neither its close nor its pages. -/
theorem NoNewClose.setProt (h : NoNewClose s t) {p q : Prot} (hp : s.listsClose p) (j : Nat) (hclose : q.closing = p.closing := by rfl)
    (hpages : q.entries = p.entries := by rfl) : NoNewClose s (t.setProt j q) := ⟨fun e he => by
  obtain he | rfl := mem_put he
  · exact h.lists e he
  · obtain ⟨g, hg, hclose', hpages'⟩ := hp
    exact ⟨g, hg, hclose.trans hclose', hpages.trans hpages'⟩⟩

theorem NoNewClose.look (h : NoNewClose s t) {j : Nat} {p : Prot} (hp : s.listsClose p) : s.listsClose (lookD t.surv.prots j p) := by
  rw [lookD]
  cases hl : Machine.look t.surv.prots j with
  | none => exact hp
  | some q => exact h.lists _ (mem_of_look hl)

theorem NoNewClose.voidOpen (h : NoNewClose s t) {p : Prot} (hp : s.listsClose p) (j : Nat) : NoNewClose s (t.voidOpen j p) := by
  unfold State.voidOpen
  split
  · exact h
  · exact NoNewClose.of_prots (h.setProt hp j) rfl

/-- A copy on first touch changes versions alone. -/
theorem NoNewClose.touchProt (h : NoNewClose s t) {p : Prot} (hp : s.listsClose p) (a j : Nat) : NoNewClose s (t.touchProt a j p) := by
  unfold State.touchProt
  split
  · exact h
  next page size _ =>
    split
    · extract_lets bytes vid p0 p1 room surv s0 s1 p2
      have h0 : NoNewClose s s0 :=
        NoNewClose.of_keeps (h.of_prots (u := { t with surv := { surv with nextVersion := vid + 1 } }) rfl)
          (fun _ w => State.pageMoved_keeps w (Keeps.refl _)) (by decide)
      have hp0 : s.listsClose p0 := hp
      have h1 : NoNewClose s s1 := NoNewClose.voidOpen (h0.setProt hp j) hp0 j
      split
      · exact NoNewClose.of_prots (h0.setProt hp j) rfl
      · split
        · exact h1.setProt (h1.look hp0) j
        · exact h1.of_prots rfl
    · exact h

theorem NoNewClose.touch (t : State) (a : Nat) : NoNewClose t (t.touch a) :=
  List.foldlRecOn (motive := NoNewClose t) _ _ (.refl t) fun _ hv e he => hv.touchProt (hv.look ⟨e, he, rfl, rfl⟩) a e.1

theorem NoNewClose.markLine (h : NoNewClose s t) (j ln : Nat) : NoNewClose s (t.markLine j ln) := by
  unfold State.markLine
  split
  · exact h
  next p hp =>
    split
    · exact h
    · exact NoNewClose.of_prots (h.setProt (h.lists _ (mem_of_look hp)) j) rfl

/-- A line mirrored changes what is outstanding and the journal alone. -/
theorem NoNewClose.mirrorProt (h : NoNewClose s t) {p : Prot} (hp : s.listsClose p) (ln j : Nat) : NoNewClose s (t.mirrorProt ln j p) := by
  unfold State.mirrorProt
  split
  · exact h
  · extract_lets u out
    split
    · exact NoNewClose.of_keeps (h.setProt (q := { p with mirrors := p.mirrors ++ [(ln, false)] }) hp j)
        (fun _ w => State.bump_keeps (w.sub rfl) (State.bump_keeps (w.sub rfl) (State.send_keeps w (Keeps.refl _)))) (by decide)
    · exact NoNewClose.markLine (h.setProt hp j) j ln

theorem NoNewClose.mirror (t : State) (ln : Nat) : NoNewClose t (t.mirror ln) := by
  refine List.foldlRecOn (motive := NoNewClose t) _ _ (.refl t) fun v hv e he => ?_
  split
  · exact hv
  · exact hv.mirrorProt (hv.look ⟨e, he, rfl, rfl⟩) ln e.1

theorem NoNewClose.writeHalf (t : State) (ln : Nat) (l : Line) (h : Nat) : NoNewClose t (t.writeHalf ln l h) := by
  have put (a : Nat) (bytes : List Byte) : NoNewClose t (t.hbmPut a bytes) := (NoNewClose.touch t a).of_prots rfl
  unfold State.writeHalf
  extract_lets a d merged
  split
  · exact .refl t
  · split
    · exact (put a _).of_keeps (fun _ w => State.hbmWrote_keeps (w.sub rfl) (State.mendHalves_keeps (w.sub rfl) (Keeps.refl _)))
        (l := [.regs, .hbm, .pwr]) (by decide)
    · exact (put a _).of_keeps (fun _ w => State.hbmWrote_keeps w (Keeps.refl _)) (by decide)

theorem NoNewClose.evict (t : State) (ln : Nat) (l : Line) : NoNewClose t (t.evict ln l) := by
  refine NoNewClose.of_prots (t := t.writeBack ln l) ?_ rfl
  unfold State.writeBack
  split
  · exact .refl t
  · exact (((NoNewClose.writeHalf t ln l 0).trans (.writeHalf _ ln l 1)).trans (.mirror _ ln)).of_prots rfl

theorem NoNewClose.install (t : State) (p ln : Nat) (mru : Bool) : NoNewClose t (t.install p ln mru) := by
  cases hl : t.line ln with
  | some l => rw [State.install, hl]; exact .refl t
  | none =>
    rw [State.install_absent hl]
    refine NoNewClose.of_prots (t := t.makeRoom p ln) ?_ rfl
    have hdraw : NoNewClose t (t.victim (t.placeOf p ln).1 (t.placeOf p ln).2).2 :=
      (NoNewClose.refl t).of_keeps (fun _ w => State.victim_keeps w (Keeps.refl t)) (by decide)
    unfold State.makeRoom
    extract_lets v
    split
    · exact hdraw.trans (.evict ..)
    · exact hdraw

theorem NoNewClose.hbmWrite (t : State) (a : Nat) (bytes : List Byte) : NoNewClose t (t.hbmWrite a bytes) := by
  unfold State.hbmWrite
  extract_lets h
  split
  · exact (NoNewClose.refl t).of_prots rfl
  · have hput : NoNewClose t (t.hbmPut a bytes) := (NoNewClose.touch t a).of_prots rfl
    exact NoNewClose.of_keeps (t := t.hbmStore a bytes) (hput.trans (.mirror _ _)) (fun _ w => State.hbmWrote_keeps (w.sub rfl) 
      (State.mendHalves_keeps (w.sub rfl) (Keeps.refl _))) (l := [.regs, .hbm, .pwr]) (by decide)

theorem NoNewClose.writeLine (t : State) (p policy a : Nat) (bytes : List Byte) : NoNewClose t (t.writeLine p policy a bytes) := by
  cases h : t.holdsAt a with
  | true => rw [State.writeLine_held h]; exact (NoNewClose.refl t).of_prots rfl
  | false =>
    cases hl : t.line (a / 128) with
    | some l =>
      rw [State.writeLine_hit h hl]
      have haccess : NoNewClose t (t.access p (a / 128) true) :=
        (NoNewClose.refl t).of_keeps (fun _ w => State.access_keeps w (Keeps.refl t)) (by decide)
      exact haccess.of_prots rfl
    | none =>
      rw [State.writeLine_miss h hl]
      have hmiss : NoNewClose t (t.missed p (a / 128)) := (NoNewClose.refl t).of_prots (by rw [State.missed_surv])
      split
      · exact hmiss.trans (.hbmWrite ..)
      · exact (hmiss.trans (.install ..)).of_prots rfl

/-- Where no close is new, none holds an address that none held before. -/
theorem NoNewClose.holdsAt (h : NoNewClose s t) (ho : t.objs = s.objs) {a : Nat} (ha : s.holdsAt a = false) : t.holdsAt a = false := by
  refine any_eq_false_of_forall fun e he => ?_
  obtain ⟨g, hg, hclose, hpages⟩ := h.lists e he
  have hpage : t.protPage e.2 true true a = s.protPage g.2 true true a := by
    simp only [State.protPage, State.entryPages, ho, hpages]
  rw [hpage, Prot.holds, hclose]
  exact eq_false_of_ne_true (List.any_eq_false.mp ha g hg)

end

/-- Bytes that no close holds, written through the slices, are seen at their addresses, and every other byte as before. -/
theorem State.cacheWrite_written {s : State} {p policy a : Nat} {bytes : List Byte}
    (hfree : ∀ i, i < bytes.length → s.holdsAt (a + i) = false) : Written a bytes s (s.cacheWrite p policy a bytes) := by
  have cuts (n : Nat) : ∀ (s : State) (a : Nat) (bytes : List Byte), a % 128 + bytes.length ≤ 128 * n →
      (∀ i, i < bytes.length → s.holdsAt (a + i) = false) →
      Written a bytes s ((lineCuts n a bytes).foldl (fun t c => t.writeLine p policy c.1 c.2) s) := by
    induction n with
    | zero =>
      intro s a bytes hn _
      obtain rfl := List.length_eq_zero_iff.mp (by omega : bytes.length = 0)
      exact .nil a s
    | succ n ih =>
      intro s a bytes hn hfree
      cases bytes with
      | nil => exact .nil a s
      | cons v bytes =>
        rw [lineCuts, List.foldl_cons]
        generalize hk : 128 - a % 128 = k
        have hlen : ((v :: bytes).take k).length = min k (v :: bytes).length := List.length_take
        have hhead : Written a ((v :: bytes).take k) s (s.writeLine p policy a ((v :: bytes).take k)) :=
          State.writeLine_written (hfree 0 (Nat.succ_pos _)) (by omega)
        by_cases hlong : k ≤ (v :: bytes).length
        · rw [min_eq_left hlong] at hlen
          have hrest := ih (s.writeLine p policy a ((v :: bytes).take k)) (a + k) ((v :: bytes).drop k)
            (by rw [List.length_drop]; omega) fun i hi => ?_
          · have hall := hhead.append (by rw [hlen]; exact hrest)
            rwa [List.take_append_drop] at hall
          · rw [List.length_drop] at hi
            refine (NoNewClose.writeLine s p policy a _).holdsAt ?_ (Nat.add_assoc a k i ▸ hfree (k + i) (by omega))
            exact Area.same_of_keeps (fun _ w => State.writeLine_keeps w (Keeps.refl s)) .objs (by decide)
        · have hall : (v :: bytes).length ≤ k := by omega
          rw [List.drop_eq_nil_of_le hall, lineCuts_nil]
          rwa [List.take_of_length_le hall] at hhead ⊢
  exact cuts _ s a bytes (by omega) hfree

end Sys2Proof.Machine
end

section
/-! PROOFS. Stores of the fabric and of WRITE packets change their own bytes alone (R295, R297, R390, R393). -/

namespace Sys2Proof.Machine

open Sys2Proof

theorem exec_fabricAtomic (h : FabHdr) (op : AtomicKind) (v : W64) (s : State) :
    exec (.fabricAtomic h op v) s = execFabricAtomic h op v s := rfl

section
variable {at_ : Nat → Prop} {s t : State}

/-- A command whose writes wait for pages changes nothing that is seen. -/
theorem SeesOnly.guarded (h : SeesOnly at_ s t) : SeesOnly at_ s (s.guarded t) := by
  cases hw : s.mustWait t with
  | false => rwa [State.guarded_of_free hw]
  | true =>
    rw [State.guarded_of_held hw]
    exact Unseen.within (.of_keeps (fun _ w => State.waitForPages_keeps w (Keeps.refl s)) (by decide) (by decide))

end

/-! ### Reads of the device for itself -/

theorem State.bump_unseen (s : State) (off n : Nat) : Unseen s (s.bump off n) := .of_eq rfl rfl

theorem State.missLine_unseen (s : State) (p ctx ln : Nat) (m : Miss) : Unseen s (s.missLine p ctx ln m).1 := by
  refine .of_eq (Area.same_of_keeps (fun _ w => State.missLine_keeps w (Keeps.refl s)) .mem (by decide)) ?_
  simp only [State.missLine, State.addMiss]
  split <;> split <;> simp

theorem State.readServed_unseen (s : State) (p policy ctx ln o n : Nat) (reader : Option (Nat × Nat)) :
    Unseen s (s.readServed p policy ctx ln o n reader).1 := by
  unfold State.readServed
  extract_lets mask
  split
  · split
    · exact (s.access_unseen p ln true).trans (State.used_unseen _ ln)
    · split
      · exact State.missLine_unseen ..
      · exact (State.bump_unseen ..).trans (State.missLine_unseen ..)
  · exact State.missLine_unseen ..

theorem State.fetchLine_unseen (s : State) (p ctx ln o n : Nat) : Unseen s (s.fetchLine p ctx ln o n) := by
  refine (s.readServed_unseen p 2 ctx ln o n none).trans ?_
  unfold State.fetchLine
  extract_lets r
  split
  · exact .refl _ _
  next i _ =>
    have hread : Unseen r.1 ({ r.1 with cache := { r.1.cache with misses := del r.1.cache.misses i } }.hbmBytesMoved
        (stackOf (ln * 128)) 128 0) :=
      Unseen.trans (t := { r.1 with cache := { r.1.cache with misses := del r.1.cache.misses i } }) (.of_eq rfl rfl)
      (.of_keeps (fun _ w => State.hbmBytesMoved_keeps w (Keeps.refl _)) (by decide) (by decide))
    dsimp only
    split
    · exact hread.trans (.of_eq rfl rfl)
    · exact hread

theorem State.fetchPieces_unseen (s : State) (ctx : Nat) (l : List Piece) : Unseen s (s.fetchPieces ctx l) :=
  SeesOnly.foldl (fun _ _ _ => SeesOnly.foldl (fun _ _ _ => State.fetchLine_unseen ..) _) s

/-! ### Stores -/

/-- The bytes of translated pieces. -/
def InPieces (l : List Piece) (b : Nat) : Prop := ∃ g ∈ l, g.1 ≤ b ∧ b < g.1 + g.2.1

/-- Bytes written to pieces change no byte outside them. -/
theorem State.writePieces_seesOnly (s : State) (policy : Nat) (l : List Piece) (bytes : List Byte) :
    SeesOnly (InPieces l) s (s.writePieces policy l bytes) := by
  induction l generalizing s bytes with
  | nil => exact .refl _ s
  | cons e l ih =>
    refine SeesOnly.trans ((s.cacheWrite_seesOnly e.2.2 policy e.1 (bytes.take e.2.1)).mono fun b hb => ⟨e, List.mem_cons_self, hb.1, ?_⟩)
      ((ih _ _).mono fun b ⟨g, hg, hb⟩ => ⟨g, List.mem_cons_of_mem _ hg, hb⟩)
    exact hb.2.trans_le (Nat.add_le_add_left (List.length_take_le ..) _)

/-- A byte put behind the newest of the runs that bytes are put together into, or at the start of a new one. -/
def addStore (acc : List (Nat × List Byte)) (e : Nat × Byte) : List (Nat × List Byte) :=
  match acc with
  | (a, bs) :: t => if e.1 = a + bs.length ∧ e.1 / 128 = a / 128 then (a, bs ++ [e.2]) :: t else (e.1, [e.2]) :: acc
  | [] => [(e.1, [e.2])]

theorem cutStores_eq (l : List (Nat × Byte)) : cutStores l = (l.foldl addStore []).reverse := rfl

/-- Every byte of a run stands at a place that holds. -/
def PlacedRuns (at_ : Nat → Prop) (acc : List (Nat × List Byte)) : Prop := ∀ e ∈ acc, ∀ k < e.2.length, at_ (e.1 + k)

theorem PlacedRuns.addStore {at_ : Nat → Prop} {acc : List (Nat × List Byte)} (h : PlacedRuns at_ acc) {e : Nat × Byte} (he : at_ e.1) :
    PlacedRuns at_ (addStore acc e) := by
  have hnew : ∀ k < [e.2].length, at_ (e.1 + k) := fun k hk => by
    obtain rfl : k = 0 := by simpa using hk
    exact he
  unfold Machine.addStore
  split
  next a bs t =>
    obtain ⟨hrun, hrest⟩ := List.forall_mem_cons.mp h
    split
    next hnext =>
      refine List.forall_mem_cons.mpr ⟨fun k hk => ?_, hrest⟩
      simp only [List.length_append, List.length_singleton] at hk
      obtain hlt | rfl := Nat.lt_succ_iff_lt_or_eq.mp hk
      · exact hrun k hlt
      · exact hnext.1 ▸ he
    next => exact List.forall_mem_cons.mpr ⟨hnew, h⟩
  next => exact List.forall_mem_cons.mpr ⟨hnew, h⟩

/-- The runs that bytes are put together into hold each byte at its place. -/
theorem cutStores_placed (l : List (Nat × Byte)) : PlacedRuns (fun b => ∃ g ∈ l, b = g.1) (cutStores l) := fun e he => by
  have hruns : PlacedRuns (fun b => ∃ g ∈ l, b = g.1) (l.foldl addStore []) :=
    List.foldlRecOn _ _ (fun _ h => absurd h List.not_mem_nil) fun _ hacc g hg => hacc.addStore ⟨g, hg, rfl⟩
  exact hruns e (List.mem_reverse.mp (cutStores_eq l ▸ he))

/-- Bytes of a line stored change no byte but those of their places. -/
theorem State.storeLine_seesOnly (s : State) (a k p : Nat) (l : List Piece) (bytes : List (Nat × Byte)) :
    SeesOnly (fun b => ∃ i ∈ bytes, b = a + i.1) s (s.storeLine ((a, k, p) :: l) bytes) := by
  refine SeesOnly.foldl (fun v e he => (v.cacheWrite_seesOnly p 0 (a + e.1) e.2).mono fun b hb => ?_) s
  obtain ⟨j, rfl⟩ := Nat.exists_eq_add_of_le hb.1
  obtain ⟨g, hg, hj⟩ := cutStores_placed bytes e he j (by have := hb.2; omega)
  exact ⟨g, hg, by omega⟩

/-! ### Answers -/

theorem State.respond_unseen (s : State) (h : FabHdr) (code : Nat) (data : List Byte) : Unseen s (s.respond h code data) :=
  .of_keeps (fun _ w => State.respond_keeps w (Keeps.refl s)) (by decide) (by decide)

/-- A store answered, and its end noted (R394). -/
theorem SeesOnly.answered {at_ : Nat → Prop} {s t : State} (h : SeesOnly at_ s t) (hdr : FabHdr) (code : Nat) :
    SeesOnly at_ s ((t.respond hdr code []).noteStore hdr code) :=
  h.trans (Unseen.within (Unseen.trans (t.respond_unseen hdr code []) (.of_eq rfl rfl)))

section
variable {s : State} {h : FabHdr} {e x : Nat} (ha : s.arrives h.src = true) (hd : h.dst = s.node) (hj : h.deviceHeld = false)
  (hx : s.admission h false = .ok (e, x))
include ha hd hj hx

/-- A LINE_STORE of a job changes the bytes that it stores alone. -/
theorem exec_lineStore_seesOnly {mask : BitVec 128} {data : List Byte} {a k p : Nat} {l : List Piece} {t : State} (hw : h.wf 1 = true)
    (hl : s.targetRange x (h.address / 128 * 128) 128 false true = .ok ((a, k, p) :: l)) (ht : exec (.lineStore h mask data) s = .next t) :
    SeesOnly (fun b => ∃ i ∈ storeBytes h mask data, b = a + i.1) s t := by
  rw [exec_lineStore, execLineStore, State.receive_here hw ha hd] at ht
  cases ht
  simp only [State.storeHere, hj, hx, hl, Bool.false_eq_true, if_false]
  exact SeesOnly.guarded (SeesOnly.answered (State.storeLine_seesOnly ..) h 0)

/-- A fabric atomic of a job changes the bytes of its target alone. -/
theorem exec_fabricAtomic_seesOnly {op : AtomicKind} {v : W64} {l : List Piece} {t : State} (hw : h.wf 4 = true)
    (hl : s.targetRange x h.address 8 false true = .ok l) (ht : exec (.fabricAtomic h op v) s = .next t) :
    SeesOnly (InPieces l) s t := by
  rw [exec_fabricAtomic, execFabricAtomic, State.receive_here hw ha hd] at ht
  cases ht
  have hfetch : SeesOnly (InPieces l) s (s.fetchPieces x l) := Unseen.within (s.fetchPieces_unseen x l)
  simp only [State.atomicHere, hj, hx, hl, Bool.false_eq_true, if_false]
  refine SeesOnly.guarded ?_
  split
  · exact Unseen.within (.of_keeps (fun _ w => State.noteStore_keeps (w.sub rfl) (State.reject_keeps w (Keeps.refl s))) (by decide)
      (by decide))
  · split
    · exact hfetch.answered h 0x4003
    · exact (hfetch.trans (State.writePieces_seesOnly ..)).answered h 0

end

section
variable {s t : State} {port q : Nat} {k : SubQueue} {p : Packet} {c : Ctx} {l : List Piece} (h : Admitted s port q 1 k p c)
  (hl : s.translate (packetCtx k p) p.arg0 p.payload.length false true = .ok l)
include h hl

/-- A WRITE to a mapped range writes its payload there and completes. -/
theorem exec_write_admitted :
    exec (.write port q) s = .next (s.guarded ((s.writePieces 0 l p.payload).completePacket port q p)) := by
  obtain ⟨hr, ho, hf, hctx, hport, hlive⟩ := h
  have hactor : s.actor port (packetCtx k p) = .ok c := by simp [State.actor, hctx, State.onPort, hport, hlive]
  refine congrArg Host.Outcome.next (congrArg s.guarded (State.runPacket_ok hr ho hf ?_))
  simp only [hactor, hl]

/-- A WRITE packet changes the bytes of its target alone. -/
theorem exec_write_seesOnly (ht : exec (.write port q) s = .next t) : SeesOnly (InPieces l) s t := by
  rw [exec_write_admitted h hl] at ht
  cases ht
  exact SeesOnly.guarded ((s.writePieces_seesOnly 0 l p.payload).trans
    (Unseen.within (.of_keeps (fun _ w => State.completePacket_keeps w (Keeps.refl _)) (by decide) (by decide))))

end

/-- Settles O56: bytes written through the slices by the rule of each (`State.cacheWrite_written`), and the three stores by what each changes
of what is seen (`SeesOnly`). -/
theorem storesChangeOnlyTheirBytes : Obligations.StoresChangeOnlyTheirBytes := by
  intro s hs
  refine ⟨fun p policy a bytes => ⟨(s.cacheWrite_seesOnly p policy a bytes).sound hs,
      fun hfree => (State.cacheWrite_written hfree).byte hs⟩,
    fun h e x mask data a k p l t hw ha hd hj hx hl ht b hb => ?store, fun h e x op v l t hw ha hd hj hx hl ht b hb => ?atomic,
    fun port q k p c l t h hl ht b hb => ?write⟩
  case store => exact (exec_lineStore_seesOnly ha hd hj hx hw hl ht).byte hs b fun ⟨i, hi, hbi⟩ => hb i hi hbi
  case atomic =>
    refine (exec_fabricAtomic_seesOnly ha hd hj hx hw hl ht).byte hs b fun ⟨g, hg, hlo, hhi⟩ => ?_
    have hout := hb g hg
    omega
  case write =>
    refine (exec_write_seesOnly h hl ht).byte hs b fun ⟨g, hg, hlo, hhi⟩ => ?_
    have hout := hb g hg
    omega

end Sys2Proof.Machine
end

section
/-! PROOFS. Collectives, updates, triggers, atomics and puts at the move engine's head, and every entry of that engine while no transfer slot
is free (R134, R238, R287, R289, R307, R341, R389, R393, R395, R397, R398). -/

namespace Sys2Proof.Machine

open Sys2Proof

/-- A command that leaves the protections and the held writes as they are need not wait. -/
theorem State.guarded_of_surv {s t : State} (h : t.surv = s.surv) : s.guarded t = t := by
  have hself : s.mustWait t = s.mustWait s := by simp only [State.mustWait, State.waitsMade, h]
  exact State.guarded_of_free (hself.trans s.mustWait_self)

/-! ### COLL -/

theorem exec_reduceScatter (c : Nat) (err : CoreErr) (s : State) :
    exec (.reduceScatter c err) s = .next (s.guarded (s.collHead c 0 err)) := rfl
theorem exec_allGather (c : Nat) (err : CoreErr) (s : State) : exec (.allGather c err) s = .next (s.guarded (s.collHead c 1 err)) := rfl
theorem exec_allReduce (c : Nat) (err : CoreErr) (s : State) : exec (.allReduce c err) s = .next (s.guarded (s.collHead c 2 err)) := rfl
theorem exec_finitenessVote (c : Nat) (s : State) : exec (.finitenessVote c) s = .next (s.collHead c 3 .none) := rfl

section
variable {s : State} {c x slot : Nat}

/-- A COLL at the head joins its collective, unless the checks of core memory stop its reads. -/
theorem State.collHead_ready {src dst kind scope id : Nat} (h : MoveReady s c (.coll src dst kind scope id) x slot) (err : CoreErr) :
    s.collHead c kind err = (s.take c .me).withErr c slot err fun u =>
      (u.takeColl c x slot (.coll src dst kind scope id) src dst kind scope id).settleXfer c slot := by
  rw [State.collHead, State.takeMove_ready h (sel := Insn.isColl kind) (beq_self_eq_true kind)]

/-! ### UPDATE and TRIGGER -/

/-- An UPDATE is taken with the vote that it names (R238). -/
theorem exec_update_ready {rule master grad mask rows vote : Nat} (h : MoveReady s c (.update rule master grad mask rows vote) x slot) :
    exec (.update c) s = .next (s.guarded ((s.take c .me).takeUpdate c x slot (.update rule master grad mask rows vote)
      rule master grad mask rows vote)) :=
  congrArg Host.Outcome.next (congrArg s.guarded (State.takeMove_ready h rfl _))

section
variable {sl proc arg : Nat} (h : MoveReady s c (.trigger sl proc arg) x slot)
include h

theorem exec_trigger_ready :
    exec (.trigger c) s = .next ((s.take c .me).takeTrigger c x slot (.trigger sl proc arg) proc arg) :=
  congrArg Host.Outcome.next (State.takeMove_ready h rfl _)

/-- A TRIGGER of a context without a job ends with its code. -/
theorem exec_trigger_jobless {e : Nat} (hj : (s.take c .me).senderJob x true = .error e) :
    exec (.trigger c) s = .next ((s.take c .me).failEntry c e) := by
  rw [exec_trigger_ready h, State.takeTrigger, hj]

/-- A TRIGGER to a node that is out of reach ends with its code. -/
theorem exec_trigger_unreachable {j : Nat × Job} {e : Nat} (hj : (s.take c .me).senderJob x true = .ok j)
    (hn : (s.take c .me).unreachable ((Insn.trigger sl proc arg).node (s.take c .me).pins.strapTray) = some e) :
    exec (.trigger c) s = .next ((s.take c .me).failEntry c e) := by
  rw [exec_trigger_ready h, State.takeTrigger, hj]
  simp only [hn]

/-- A TRIGGER that may go out sends its request. -/
theorem exec_trigger_sent {j : Nat × Job} (hj : (s.take c .me).senderJob x true = .ok j)
    (hn : (s.take c .me).unreachable ((Insn.trigger sl proc arg).node (s.take c .me).pins.strapTray) = none) :
    let t := s.take c .me
    exec (.trigger c) s = .next (((t.startXfer c x slot .trigger (.trigger sl proc arg) [] []).moved c slot).sendFor c slot
      ⟨(Insn.trigger sl proc arg).node t.pins.strapTray, .trigger, some (c, slot), x, none, t.jobId x, proc, leBytes 4 arg, 0, false, 0,
        none⟩) := by
  rw [exec_trigger_ready h, State.takeTrigger, hj]
  simp only [hn]

end

/-! ### ATOMIC (R393) -/

section
variable {n v : Nat} {op : AtomicKind} (h : MoveReady s c (.atomic n op v) x slot)
include h

theorem exec_atomic_unmapped {e : Nat} (hl : (s.take c .me).atomicTarget c x n = .error e) :
    exec (.atomic c) s = .next (s.guarded ((s.take c .me).failEntry c e)) := by
  refine congrArg Host.Outcome.next (congrArg s.guarded ((State.takeMove_ready h rfl _).trans ?_))
  simp only [hl]

/-- An ATOMIC on a word that reads uncorrectable writes nothing. -/
theorem exec_atomic_bad {l : List Piece} (hl : (s.take c .me).atomicTarget c x n = .ok l)
    (hbad : ((s.take c .me).fetchPieces x l).badPieces l = true) :
    exec (.atomic c) s = .next (s.guarded (((s.take c .me).fetchPieces x l).failEntry c 0x4003)) := by
  refine congrArg Host.Outcome.next (congrArg s.guarded ((State.takeMove_ready h rfl _).trans ?_))
  simp only [hl, hbad, if_true]

/-- An ATOMIC writes its result where it read its word, and its core's copy of the line is dropped. -/
theorem exec_atomic_writes {l : List Piece} (hl : (s.take c .me).atomicTarget c x n = .ok l)
    (hbad : ((s.take c .me).fetchPieces x l).badPieces l = false) :
    let t0 := (s.take c .me).fetchPieces x l
    exec (.atomic c) s = .next (s.guarded
      ((((((t0.writePieces 0 l (leBytes 8 (atomicOp op 64 (leNat (t0.seePieces l)) v))).privDrop c (pieceLines l)).bump
        (offMe c 0x20) 1).bump (offMe c 0x18) 8).startXfer c x slot .atomic (.atomic n op v) [] []).moved c slot)) := by
  refine congrArg Host.Outcome.next (congrArg s.guarded ((State.takeMove_ready h rfl _).trans ?_))
  simp only [hl, hbad, Bool.false_eq_true, if_false]

end

/-! ### HOST_PUT (R341) -/

section
variable {src cq : Nat} (h : MoveReady s c (.hostPut src cq) x slot) (err : CoreErr)
include h

theorem exec_hostPut_queueless {e : Nat} (hq : (s.take c .me).putFault x cq = some e) :
    exec (.hostPut c err) s = .next ((s.take c .me).failEntry c e) := by
  refine congrArg Host.Outcome.next ((State.takeMove_ready h rfl _).trans ?_)
  simp only [hq]

theorem exec_hostPut_undescribed {e : Nat} (hq : (s.take c .me).putFault x cq = none) (hd : (s.take c .me).desc x src false = .error e) :
    exec (.hostPut c err) s = .next ((s.take c .me).failEntry c e) := by
  refine congrArg Host.Outcome.next ((State.takeMove_ready h rfl _).trans ?_)
  simp only [hq, hd]

section
variable {d : Desc} (hq : (s.take c .me).putFault x cq = none) (hd : (s.take c .me).desc x src false = .ok d)
include hq hd

theorem exec_hostPut_unreadable {e : Nat} (hv : let g := d.range ((s.take c .me).coreRank c)
      (s.take c .me).vaCheck c x g.1 g.2 true false = some e) :
    exec (.hostPut c err) s = .next ((s.take c .me).failEntry c e) := by
  refine congrArg Host.Outcome.next ((State.takeMove_ready h rfl _).trans ?_)
  simp only [hq, hd, hv]

/-- A HOST_PUT that passes its checks reads its source, unless the checks of core memory stop it. -/
theorem exec_hostPut_reads (hv : let g := d.range ((s.take c .me).coreRank c)
      (s.take c .me).vaCheck c x g.1 g.2 true false = none) :
    exec (.hostPut c err) s = .next ((s.take c .me).withErr c slot err fun u =>
      (u.startXfer c x slot .hostPut (.hostPut src cq) [d]
        (u.readTodo c x d.policy [d.range ((s.take c .me).coreRank c)])).settleXfer c slot) := by
  refine congrArg Host.Outcome.next ((State.takeMove_ready h rfl _).trans ?_)
  simp only [hq, hd, hv]

end
end

/-! ### No transfer slot (R134, R289) -/

section
variable {k : Nat} {i : Insn} (h : s.headOf c .me = some (.body i k)) (hx : s.coreCtx c = some x) (hf : s.freeSlot c = none)
include h hx hf

/-- While no slot is free an entry stays at the head, and the wait is counted. -/
theorem State.takeMove_held {sel : Insn → Bool} (hs : sel i = true) (run : State → Nat → Nat → Insn → State) :
    s.takeMove c sel run = s.bump (offMe c 0x28) 1 := by
  simp only [State.takeMove, h, hx, hs, hf, if_true]

theorem State.guarded_takeMove_held {sel : Insn → Bool} (hs : sel i = true) (run : State → Nat → Nat → Insn → State) :
    s.guarded (s.takeMove c sel run) = s.bump (offMe c 0x28) 1 := by
  rw [State.takeMove_held h hx hf hs, State.guarded_of_surv (State.bump_surv ..)]

end
end

/-- Settles O13: each entry by the outcome of its checks once it is taken (`State.takeMove_ready`), and every entry alike while no slot is
free (`State.takeMove_held`). -/
theorem moveEntriesStartOrWait : Obligations.MoveEntriesStartOrWait := by
  refine ⟨fun s c x slot i err h => ⟨fun src dst kind scope id hi => ?coll, fun rule master grad mask rows vote hi => ?update,
    fun sl proc arg hi => ?trigger, fun n op v hi => ?atomic, fun src cq hi => ?hostPut⟩, fun s c x k i err h hx hf => ?held⟩
  case coll =>
    subst hi
    refine ⟨fun he => by rw [he, State.withErr_none], ?_, ?_, ?_, ?_⟩ <;> rintro rfl
    · rw [exec_reduceScatter, State.collHead_ready h]
    · rw [exec_allGather, State.collHead_ready h]
    · rw [exec_allReduce, State.collHead_ready h]
    · rw [exec_finitenessVote, State.collHead_ready h, State.withErr_none]
  case update =>
    subst hi
    exact exec_update_ready h
  case trigger =>
    subst hi
    exact ⟨fun e => exec_trigger_jobless h, fun j e => exec_trigger_unreachable h, fun j => exec_trigger_sent h⟩
  case atomic =>
    subst hi
    exact ⟨fun e => exec_atomic_unmapped h, fun l hl => ⟨exec_atomic_bad h hl, exec_atomic_writes h hl⟩⟩
  case hostPut =>
    subst hi
    exact ⟨fun e => exec_hostPut_queueless h err, fun e => exec_hostPut_undescribed h err, fun d hq hd =>
      ⟨fun e => exec_hostPut_unreadable h err hq hd, fun hv => ⟨exec_hostPut_reads h err hq hd hv,
        (exec_hostPut_reads h .none hq hd hv).trans (congrArg _ (State.withErr_none ..))⟩⟩⟩
  case held =>
    have hold {sel : Insn → Bool} (hs : sel i = true) run := congrArg (Host.Outcome.next (φ := Fault) (ρ := Refusal))
      (State.takeMove_held h hx hf hs run)
    have holdGuarded {sel : Insn → Bool} (hs : sel i = true) run := congrArg (Host.Outcome.next (φ := Fault) (ρ := Refusal))
      (State.guarded_takeMove_held h hx hf hs run)
    refine ⟨?copy, ?remote, ?prefetch, ?pin, ?unpin, ?dead, ?scatter, ?gather, ?reduce, ?vote, ?update, ?trigger, ?atomic, ?put⟩
    case copy => rintro a b m rfl; exact holdGuarded rfl _
    case remote => rintro a b r l n o ch tok f g rfl; exact holdGuarded rfl _
    case prefetch => rintro n rfl; exact hold rfl _
    case pin => rintro n rfl; exact holdGuarded rfl _
    case unpin => rintro n rfl; exact hold rfl _
    case dead => rintro n rfl; exact hold rfl _
    case scatter => rintro a b d e rfl; exact holdGuarded rfl _
    case gather => rintro a b d e rfl; exact holdGuarded rfl _
    case reduce => rintro a b d e rfl; exact holdGuarded rfl _
    case vote => rintro a b d e rfl; exact hold rfl _
    case update => rintro r m g a w v rfl; exact holdGuarded rfl _
    case trigger => rintro a b d rfl; exact hold rfl _
    case atomic => rintro a o b rfl; exact holdGuarded rfl _
    case put => rintro a b rfl; exact hold rfl _

end Sys2Proof.Machine
end

section
/-! PROOFS. Scrub passes, row remaps and evacuations of the stacks (R309, R310, R316, R317). -/

namespace Sys2Proof.Machine

open Sys2Proof

theorem exec_rowRemapDone (u k row : Nat) (s : State) : exec (.rowRemapDone u k row) s = execRowRemapDone u k row s := rfl
theorem exec_evacGo (u k : Nat) (s : State) : exec (.evacGo u k) s = execEvacGo u k s := rfl
theorem exec_evacCopyDone (u k : Nat) (s : State) : exec (.evacCopyDone u k) s = execEvacCopyDone u k s := rfl
theorem exec_pcRetrainDone (u k : Nat) (ok : Bool) (s : State) : exec (.pcRetrainDone u k ok) s = execPcRetrainDone u k ok s := rfl
theorem exec_evacCopyBackDone (u k : Nat) (s : State) : exec (.evacCopyBackDone u k) s = execEvacCopyBackDone u k s := rfl

/-- An event raised after other parts have changed stands behind the intake, with the time that it had before. -/
theorem State.raise_intake {s t : State} (hr : t.recd = s.recd) (ht : t.ticks = s.ticks) (code : Nat) (payload : List Byte) :
    (t.raise code payload).recd.intake = s.recd.intake ++ [s.eventNow code payload] := by
  simp only [State.raise, State.eventNow, hr, ht]

section
variable (s : State) (u rd wr : Nat)

@[simp] theorem State.hbmBytesMoved_mem : (s.hbmBytesMoved u rd wr).mem = s.mem :=
  Area.same_of_keeps (fun _ w => State.hbmBytesMoved_keeps w (Keeps.refl s)) .mem (by decide)
@[simp] theorem State.hbmBytesMoved_recd : (s.hbmBytesMoved u rd wr).recd = s.recd :=
  Area.same_of_keeps (fun _ w => State.hbmBytesMoved_keeps w (Keeps.refl s)) .recd (by decide)
@[simp] theorem State.hbmBytesMoved_ticks : (s.hbmBytesMoved u rd wr).ticks = s.ticks :=
  Area.same_of_keeps (fun _ w => State.hbmBytesMoved_keeps w (Keeps.refl s)) .ticks (by decide)

end

/-! ### Scrub passes (R309, R317) -/

/-- The state in which a pass finds what it finds: its staged fields in effect, and no findings of the last interval (R309). -/
def State.scrubStart (s : State) (u : Nat) : State :=
  { s.adopt (offHc u 0) 0 12 with
    hbm := { (s.adopt (offHc u 0) 0 12).hbm with
      rowErr := (s.adopt (offHc u 0) 0 12).hbm.rowErr.filter fun e => e.1 / 2 ^ 24 / 32 != u } }

theorem exec_scrubPass (u : Nat) (fs : List ScrubFinding) (s : State) : exec (.scrubPass u fs) s =
    .next (if u < 32 && s.alive && s.dieServes (u / 2) then
      ((fs.foldl (fun t f => t.scrubFinding u ((s.adopt (offHc u 0) 0 12).rowThresh u) f) (s.scrubStart u)).bump
        (offHc u 0x30) 1).hbmBytesMoved u ((s.scrubStart u).scrubBytes u) 0 else s) := rfl

theorem exec_scrubPass_idle {s : State} {u : Nat} (h : 32 ≤ u ∨ s.alive = false ∨ s.dieServes (u / 2) = false)
    (fs : List ScrubFinding) : exec (.scrubPass u fs) s = .next s := by
  rw [exec_scrubPass, if_neg]
  intro hrun
  simp only [Bool.and_eq_true, decide_eq_true_eq] at hrun
  obtain ⟨⟨hu, ha⟩, hd⟩ := hrun
  obtain h | h | h := h
  · exact absurd hu (Nat.not_lt.mpr h)
  · exact Bool.false_ne_true (h.symm.trans ha)
  · exact Bool.false_ne_true (h.symm.trans hd)

/-! ### Row remaps (R309) -/

section
variable {s : State} {u k row : Nat} (hrow : rowOf u k row ∈ s.hbm.remapping)
include hrow

/-- A remapped row takes the next spare row of its slot. -/
theorem exec_rowRemapDone_spare (hs : lookD s.hbm.spareUsed (u * 32 + k) 0 < spareRows) :
    let used := lookD s.hbm.spareUsed (u * 32 + k) 0
    exec (.rowRemapDone u k row) s = .next (({ s.hbmBytesMoved u 1024 1024 with
      hbm := { s.hbm with
        remapping := drop1 s.hbm.remapping (rowOf u k row)
        rowMap := put s.hbm.rowMap (rowOf u k row) used
        spareUsed := put s.hbm.spareUsed (u * 32 + k) (used + 1) } } : State).raise 0x4801
        (leBytes 1 u ++ leBytes 1 k ++ leBytes 4 row)) := by
  simp only [exec_rowRemapDone, execRowRemapDone, if_pos hrow, if_pos hs]

/-- With no spare row left the stack's repairs take the row: in SERVICE its hard repair, else its soft one. -/
theorem exec_rowRemapDone_repair (hs : spareRows ≤ lookD s.hbm.spareUsed (u * 32 + k) 0) :
    let h := { s.hbm with remapping := drop1 s.hbm.remapping (rowOf u k row) }
    exec (.rowRemapDone u k row) s = .next { s with
      hbm := if s.sec.lc = .service then { h with hardRep := addNew h.hardRep (rowOf u k row) }
        else { h with softRep := addNew h.softRep (rowOf u k row) } } := by
  simp only [exec_rowRemapDone, execRowRemapDone, if_pos hrow, if_neg (Nat.not_lt.mpr hs)]

end

theorem not_mem_drop1 {α : Type} [DecidableEq α] (l : List α) (x : α) : x ∉ drop1 l x := by simp [drop1]

/-! ### Evacuation (R310) -/

section
variable {s : State} {u k : Nat}

/-- A slot in its place starts to move away, unless two slots of its stack are out. -/
theorem exec_evacGo_placed (hu : u < 32) (hk : k < 32) (ha : s.alive = true) (he : look s.hbm.evac (u * 32 + k) = none)
    (hr : s.slotRetired u k = false) : exec (.evacGo u k) s = .next (
      if 2 ≤ s.slotsOut u then s.raise 0x4803 (leBytes 1 u ++ leBytes 1 k ++ leBytes 1 1)
      else (((s.adopt (offHc u 0) 12 2).setEvac u k .copying).bump (offHc u 0x48) 1).raise 0x4802 (leBytes 1 u ++ leBytes 1 k)) := by
  rw [exec_evacGo, execEvacGo, if_neg]
  simp [hu, hk, ha, he, hr]

theorem exec_evacCopyDone_copying (he : look s.hbm.evac (u * 32 + k) = some .copying) :
    exec (.evacCopyDone u k) s = .next ((s.setEvac u k .retraining).hbmBytesMoved u pcSlotBytes pcSlotBytes) := by
  rw [exec_evacCopyDone, execEvacCopyDone, if_pos he]

theorem exec_pcRetrainDone_retraining (he : look s.hbm.evac (u * 32 + k) = some .retraining) (ok : Bool) :
    exec (.pcRetrainDone u k ok) s = .next (if ok then s.setEvac u k .copyingBack
      else (({ s with hbm := { s.hbm with evac := del s.hbm.evac (u * 32 + k) } }).setField (offHc u 0x10) (2 * k) 2 3).raise
        0x4803 (leBytes 1 u ++ leBytes 1 k ++ leBytes 1 0)) := by
  rw [exec_pcRetrainDone, execPcRetrainDone, if_pos he]

theorem exec_evacCopyBackDone_copyingBack (he : look s.hbm.evac (u * 32 + k) = some .copyingBack) :
    exec (.evacCopyBackDone u k) s = .next
      ({ s with hbm := { s.hbm with evac := del s.hbm.evac (u * 32 + k) } }.hbmBytesMoved u pcSlotBytes pcSlotBytes) := by
  rw [exec_evacCopyBackDone, execEvacCopyBackDone, if_pos he]

end

/-- Settles O18: a pass by whether its controller runs, a remap by whether a spare row is left, an evacuation by the step that its slot
is in. -/
theorem scrubsAndEvacuations : Obligations.ScrubsAndEvacuations := by
  intro s u k
  refine ⟨fun fs h => exec_scrubPass_idle h fs, fun fs hu ha hd => ?scrub, fun row hrow hs => ?spare, fun row hrow hs => ?repair,
    fun hu hk ha he hr => ⟨fun ho => ?starts, fun ho => ?refused⟩, exec_evacCopyDone_copying, fun he =>
      ⟨exec_pcRetrainDone_retraining he true, exec_pcRetrainDone_retraining he false⟩, exec_evacCopyBackDone_copyingBack⟩
  case scrub =>
    rw [exec_scrubPass, if_pos (by simp [hu, ha, hd])]
    rfl
  case spare =>
    exact ⟨_, exec_rowRemapDone_spare hrow hs, look_put_self .., look_put_self .., not_mem_drop1 _ _,
      State.raise_intake (State.hbmBytesMoved_recd ..) (State.hbmBytesMoved_ticks ..) _ _, State.hbmBytesMoved_mem .., rfl⟩
  case repair =>
    rw [exec_rowRemapDone_repair hrow hs]
    exact ⟨fun hlc => by rw [if_pos hlc], fun hlc => by rw [if_neg hlc]⟩
  case starts =>
    rw [exec_evacGo_placed hu hk ha he hr, if_neg (Nat.not_le.mpr ho), State.adopt_eq]
    exact ⟨_, rfl, look_put_self .., State.raise_intake rfl rfl _ _, rfl, rfl⟩
  case refused => rw [exec_evacGo_placed hu hk ha he hr, if_pos ho]

end Sys2Proof.Machine
end

section
/-! PROOFS. Fills, waits for a version page, and wipes (R295, R296, R307, R308, R311, R316, R445, R474, R477). -/

namespace Sys2Proof.Machine

open Sys2Proof

theorem exec_lineFill (i : Nat) (lo hi : EccErr) (e : Option SliceErr) (s : State) :
    exec (.lineFill i lo hi e) s = execLineFill i lo hi e s := rfl
theorem exec_cowPageWaitExpiry (j page : Nat) (s : State) : exec (.cowPageWaitExpiry j page) s = execCowPageWaitExpiry j page s := rfl
theorem exec_wipeComplete (w : Nat) (s : State) : exec (.wipeComplete w) s = execWipeComplete w s := rfl

/-! ### Fills (R296, R307, R308) -/

theorem mem_addNew {α : Type} [DecidableEq α] {l : List α} {x y : α} : x ∈ addNew l y ↔ x ∈ l ∨ x = y := by
  unfold addNew
  split
  next h => exact (or_iff_left_of_imp fun e => e ▸ h).symm
  next => simp

/-- What the check code reports of a half mends none. -/
theorem State.bad_eccHalf {s : State} {x : Nat} (hx : x ∈ s.hbm.bad) (h : Nat) (e : EccErr) : x ∈ (s.eccHalf h e).hbm.bad := by
  cases e with
  | none => exact hx
  | corrected => exact hx
  | uncorrectable => exact mem_addNew.mpr (.inl hx)

theorem State.bad_eccHalf_self (s : State) (h : Nat) : h ∈ (s.eccHalf h .uncorrectable).hbm.bad := mem_addNew.mpr (.inr rfl)

/-- The two halves of a line as its fill reads them. -/
def State.eccLine (s : State) (ln : Nat) (lo hi : EccErr) : State := (s.eccHalf (2 * ln) lo).eccHalf (2 * ln + 1) hi

/-- A line with an uncorrectable half is bad. -/
theorem State.badLine_eccLine (s : State) (ln : Nat) {lo hi : EccErr} (h : lo = .uncorrectable ∨ hi = .uncorrectable) :
    (s.eccLine ln lo hi).badLine ln = true := by
  simp only [State.badLine, Bool.or_eq_true, List.contains_iff_mem]
  obtain rfl | rfl := h
  · exact .inl (State.bad_eccHalf (State.bad_eccHalf_self ..) _ _)
  · exact .inr (State.bad_eccHalf_self ..)

/-- The fill of an outstanding miss that returns: what the slice's SRAM and the check code report takes its effect. -/
def State.fillRead (s : State) (i : Nat) (m : Miss) (lo hi : EccErr) (slice : Option SliceErr) : State :=
  let s0 := { s with cache := { s.cache with misses := del s.cache.misses i } }
  ((match slice with | some e => s0.sliceErr e | none => s0).hbmBytesMoved (stackOf (m.line * 128)) 128 0).eccLine m.line lo hi

/-- Whether the controller and the slice of an outstanding miss serve it. -/
def State.fillServes (s : State) (m : Miss) : Bool :=
  m.held.isNone && s.dieServes (stackOf (m.line * 128) / 2) && s.dieServes ((s.placeOf m.part m.line).1 / 32)

section
variable {s : State} {i : Nat} {m : Miss} (hm : look s.cache.misses i = some m) (lo hi : EccErr) (slice : Option SliceErr)
include hm

theorem exec_lineFill_unserved (hs : s.fillServes m = false) : exec (.lineFill i lo hi slice) s = .next s := by
  have hstop : (m.held.isSome || !s.dieServes (stackOf (m.line * 128) / 2) || !s.dieServes ((s.placeOf m.part m.line).1 / 32)) = true := by
    rw [← Option.not_isNone, ← Bool.not_and, ← Bool.not_and, Bool.not_eq_true']
    exact hs
  simp only [exec_lineFill, execLineFill, hm, hstop, if_true, State.guarded_self]

theorem exec_lineFill_served (hs : s.fillServes m = true) : exec (.lineFill i lo hi slice) s = .next (s.guarded (
    let s2 := s.fillRead i m lo hi slice
    if s2.badLine m.line then ((s2.countUe (stackOf (m.line * 128))).unplace m.line).serve i m true
    else (s2.fillLine m).serve i m false)) := by
  have hgo : (m.held.isSome || !s.dieServes (stackOf (m.line * 128) / 2) || !s.dieServes ((s.placeOf m.part m.line).1 / 32)) = false := by
    rw [← Option.not_isNone, ← Bool.not_and, ← Bool.not_and, Bool.not_eq_false']
    exact hs
  simp only [exec_lineFill, execLineFill, hm, hgo, Bool.false_eq_true, if_false]
  rfl

end

/-! ### Copies on first touch (R445) -/

/-- A wait for a version page that expires: over where a page has come free, and else at the cost of the settled seal's versions. -/
theorem exec_cowPageWaitExpiry_waiting {s : State} {j page : Nat} {p : Prot} {x : Seal} (hp : look s.surv.prots j = some p)
    (hx : p.settled = some x) (hw : page ∈ p.cowWaits) : exec (.cowPageWaitExpiry j page) s = .next (
      if s.roomCame p page then s.setProt j { p with cowWaits := p.cowWaits.filter fun g => g != page }
      else (s.setProt j { p with cowWaits := [], settled := some { x with versions := [], intact := false } }).raise 0x7814
        (leBytes 2 p.job ++ leBytes 4 x.generation)) := by
  simp only [exec_cowPageWaitExpiry, execCowPageWaitExpiry, hp, hx, hw, if_true]

/-! ### Wipes (R311) -/

/-- Pages cleared one after the other. -/
def cellWipes (m : List Host.Cell) (pages : List Nat) (n : Nat) : List Host.Cell := pages.foldl (fun m a => cellWipe m a n) m

section
variable {m : List Host.Cell} (h : Memory.wf m = true) {pages : List Nat} {n : Nat}
include h

theorem cellWipes_wf (pages : List Nat) (n : Nat) : Memory.wf (cellWipes m pages n) = true :=
  List.foldlRecOn (motive := fun m => Memory.wf m = true) _ _ h fun _ hm a _ => cellWipe_wf hm a n

/-- Every address outside the pages reads as before. -/
theorem cellGet_cellWipes_outside {b : Nat} (hb : ∀ a ∈ pages, b < a ∨ a + n ≤ b) :
    cellGet (cellWipes m pages n) b = cellGet m b := by
  induction pages generalizing m with
  | nil => rfl
  | cons a pages ih =>
    obtain ⟨ha, hrest⟩ := List.forall_mem_cons.mp hb
    exact (ih (cellWipe_wf h a n) hrest).trans (cellGet_cellWipe_outside h ha)

/-- Every byte of the pages reads 0. -/
theorem cellGet_cellWipes_inside {a i : Nat} (ha : a ∈ pages) (hi : i < n) : cellGet (cellWipes m pages n) (a + i) = 0 := by
  have zero {m : List Host.Cell} (hm : Memory.wf m = true) (hz : cellGet m (a + i) = 0) (g : Nat) :
      cellGet (cellWipe m g n) (a + i) = 0 := by
    by_cases hg : g ≤ a + i ∧ a + i < g + n
    · exact cellGet_cellWipe_inside m hg.1 hg.2
    · rw [cellGet_cellWipe_outside hm (by omega), hz]
  obtain ⟨before, after, rfl⟩ := List.append_of_mem ha
  rw [cellWipes, List.foldl_append, List.foldl_cons]
  have hwf := cellWipes_wf h before n
  refine (List.foldlRecOn (motive := fun m => Memory.wf m = true ∧ cellGet m (a + i) = 0) after _
    ⟨cellWipe_wf hwf a n, cellGet_cellWipe_inside _ (Nat.le_add_right ..) (Nat.add_lt_add_left hi _)⟩ ?_).2
  exact fun m hm g _ => ⟨cellWipe_wf hm.1 g n, zero hm.1 hm.2 g⟩

end

/-- A page of a freed object set to zero, and its bytes counted (R311, R316). -/
def State.wipePage (size : Nat) (t : State) (a : Nat) : State :=
  (({ t with mem := cellWipe t.mem a (pageBytes size) }).mendHalves a (pageBytes size)).pageMoved a size true

theorem State.wipeObject_eq {s : State} {i : Nat} {o : MemObj} (h : look s.objs.mems i = some o) :
    s.wipeObject i = (o.pages.foldl (State.wipePage o.pageSize) s).modObjs fun b => { b with mems := del b.mems i } := by
  rw [State.wipeObject, h]
  rfl

section
variable (size : Nat) (s : State)

@[simp] theorem State.pageMoved_mem (a : Nat) (write : Bool) : (s.pageMoved a size write).mem = s.mem :=
  Area.same_of_keeps (fun _ w => State.pageMoved_keeps w (Keeps.refl s)) .mem (by decide)
@[simp] theorem State.pageMoved_hbm (a : Nat) (write : Bool) : (s.pageMoved a size write).hbm = s.hbm :=
  Area.same_of_keeps (fun _ w => State.pageMoved_keeps w (Keeps.refl s)) .hbm (by decide)

@[simp] theorem State.wipePage_mem (a : Nat) : (s.wipePage size a).mem = cellWipe s.mem a (pageBytes size) := by
  rw [State.wipePage, State.pageMoved_mem, State.mendHalves_mem]
@[simp] theorem State.wipePage_wipes (a : Nat) : (s.wipePage size a).hbm.wipes = s.hbm.wipes := by
  rw [State.wipePage, State.pageMoved_hbm]
  rfl

/-- The pages of an object wiped in turn: memory loses their bytes, and the wipes under way stay. -/
theorem State.wipePages (pages : List Nat) :
    let t := pages.foldl (State.wipePage size) s
    t.mem = cellWipes s.mem pages (pageBytes size) ∧ t.hbm.wipes = s.hbm.wipes := by
  induction pages generalizing s with
  | nil => exact ⟨rfl, rfl⟩
  | cons a pages ih => simpa [cellWipes] using ih (s.wipePage size a)

end

/-- A wipe that ends is under way no longer. -/
def State.wiped (s : State) (w : Nat) : State := { s with hbm := { s.hbm with wipes := del s.hbm.wipes w } }

theorem exec_wipeComplete_pages {s : State} {w i : Nat} (hw : look s.hbm.wipes w = some (.pages i)) :
    exec (.wipeComplete w) s = .next ((s.wiped w).wipeObject i) := by
  simp only [exec_wipeComplete, execWipeComplete, hw]
  rfl

theorem exec_wipeComplete_core {s : State} {w c : Nat} (hw : look s.hbm.wipes w = some (.core c)) :
    exec (.wipeComplete w) s =
      .next (((s.wiped w).wipeCore c).modCore c fun k => { k with lsHeld := (s.coreSeq c).map fun q => q.2.ctx }) := by
  simp only [exec_wipeComplete, execWipeComplete, hw]
  rfl

/-- Settles O17: a fill by whether its dies serve and its line is bad, a wait by whether a page came free, a wipe by what it clears
(`State.wipePages`, `State.wipeCore`). -/
theorem fillsWaitsAndWipes : Obligations.FillsWaitsAndWipes := by
  refine ⟨fun s => ⟨fun i m lo hi slice hm =>
      ⟨exec_lineFill_unserved hm lo hi slice, State.badLine_eccLine _ m.line, fun hs => ?fill⟩,
    fun e page p x hp hx hw => ⟨fun hr => ?came, fun hr => ?lapsed⟩⟩, fun s w hm => ⟨fun i o hw ho => ?object, fun c hw => ?core⟩⟩
  case fill =>
    rw [exec_lineFill_served hm lo hi slice hs]
    exact ⟨fun hb => congrArg _ (congrArg s.guarded (if_neg (ne_true_of_eq_false hb))),
      fun hb => congrArg _ (congrArg s.guarded (if_pos hb))⟩
  case came => rw [exec_cowPageWaitExpiry_waiting hp hx hw, if_pos hr]
  case lapsed =>
    rw [exec_cowPageWaitExpiry_waiting hp hx hw, if_neg (ne_true_of_eq_false hr)]
    exact ⟨_, rfl, look_put_self .., State.raise_intake rfl rfl _ _, rfl, rfl, rfl, rfl⟩
  case object =>
    obtain ⟨hmem, hwipes⟩ := State.wipePages o.pageSize (s.wiped w) o.pages
    refine ⟨_, exec_wipeComplete_pages hw, ?_⟩
    rw [State.wipeObject_eq (s := s.wiped w) ho]
    refine ⟨look_del_self .., fun a ha n hn => ?_, fun b hb => ?_, ?_, ?_⟩
    · rw [State.modObjs_mem, hmem]
      exact cellGet_cellWipes_inside hm ha hn
    · rw [State.modObjs_mem, hmem]
      exact cellGet_cellWipes_outside hm hb
    · rw [State.modObjs_hbm, hwipes]
      exact look_del_self ..
    · rw [MemCanonical, State.modObjs_mem, hmem]
      exact cellWipes_wf hm ..
  case core =>
    refine ⟨_, exec_wipeComplete_core hw, fun n hn => ?_, fun b hb => ?_, ?_, look_del_self .., cellWipe_wf hm ..⟩
    · exact cellGet_cellWipe_inside _ (Nat.le_add_right ..) (Nat.add_lt_add_left hn _)
    · exact cellGet_cellWipe_outside hm hb
    · rw [State.core_modCore_self]

end Sys2Proof.Machine
end

section
/-! PROOFS. Packets that fail a check of steps 5 to 8 (R334, R335, R339, R350, R351, R564). -/

namespace Sys2Proof.Machine

open Sys2Proof

/-- A packet that fails a check of steps 5 to 8 fails with that check's code, whatever its command. -/
theorem State.runPacket_fault {s : State} {port q op code : Nat} {k : SubQueue} {p : Packet} (cmd : SubQueue → Packet → Nat → Cmd)
    (hr : s.runningPacket port q = some (k, p)) (ho : p.opcode = op) (hf : s.packetFault port q (packetCtx k p) p = some code) :
    s.runPacket port q op cmd = s.failPacket port q (packetCtx k p) code 0 p := by
  simp [State.runPacket, hr, ho, hf]

/-- How an instruction runs the packet of its opcode: steps 5 to 8 stand before its command, and a WRITE may have to wait whole. -/
inductive RunsPacket (s : State) (port q : Nat) : Nat × Instr → Prop
  | plain {op : Nat} {i : Instr} {cmd : SubQueue → Packet → Nat → Cmd} (hop : op ≠ 1) (h : exec i s = .next (s.runPacket port q op cmd)) :
      RunsPacket s port q (op, i)
  | guarded {i : Instr} {cmd : SubQueue → Packet → Nat → Cmd} (h : exec i s = .next (s.guarded (s.runPacket port q 1 cmd))) :
      RunsPacket s port q (1, i)

/-- An instruction that runs its packet fails it with the code of the check that it fails. -/
theorem RunsPacket.fails {s : State} {port q code : Nat} {k : SubQueue} {p : Packet} {e : Nat × Instr} (h : RunsPacket s port q e)
    (hr : s.runningPacket port q = some (k, p)) (ho : p.opcode = e.1) (hf : s.packetFault port q (packetCtx k p) p = some code) :
    let t := s.failPacket port q (packetCtx k p) code 0 p
    exec e.2 s = .next (if e.1 = 1 then s.guarded t else t) := by
  cases h with
  | plain hop h =>
    rw [h, State.runPacket_fault _ hr ho hf]
    exact congrArg Host.Outcome.next (if_neg hop).symm
  | guarded h =>
    rw [h, State.runPacket_fault _ hr ho hf]
    rfl

/-- Settles O20: every packet instruction runs its packet (`RunsPacket`), so that a check that fails comes before its command. -/
theorem packetChecksFail : Obligations.PacketChecksFail := by
  intro s port q code k p e he hr ho hf
  have hruns : RunsPacket s port q e := by
    rcases List.mem_cons.mp he with rfl | he
    · exact .plain (by decide) rfl
    · rcases List.mem_cons.mp he with rfl | he
      · exact .guarded rfl
      · fin_cases he
        all_goals exact .plain (by decide) rfl
  exact hruns.fails hr ho hf

end Sys2Proof.Machine
end

section
/-! PROOFS. The packets that move data: PKT_NOP, READ, LOAD, UNLOAD and QUERY (R194, R205, R291, R335, R336, R340, R375). -/

namespace Sys2Proof.Machine

open Sys2Proof

/-- The context of an admitted packet acts. -/
theorem Admitted.actor {s : State} {port q op : Nat} {k : SubQueue} {p : Packet} {c : Ctx} (h : Admitted s port q op k p c) :
    s.actor port (packetCtx k p) = .ok c := by
  obtain ⟨-, -, -, hctx, hport, hlive⟩ := h
  simp [State.actor, hctx, State.onPort, hport, hlive]

section
variable {s t : State} {port q op : Nat} {k : SubQueue} {p : Packet} {c : Ctx} {cmd : SubQueue → Packet → Nat → Cmd}
variable (h : Admitted s port q op k p c)
include h

/-- An admitted packet has what its command makes of the state. -/
theorem Admitted.runPacket_ok (hc : cmd k p (packetCtx k p) = .ok t) : s.runPacket port q op cmd = t := by
  obtain ⟨hr, ho, hf, -⟩ := h
  exact State.runPacket_ok hr ho hf hc

/-- An admitted packet fails with what its command refuses it for. -/
theorem Admitted.runPacket_error {code detail : Nat} (hc : cmd k p (packetCtx k p) = .error (code, detail)) :
    s.runPacket port q op cmd = s.failPacket port q (packetCtx k p) code detail p := by
  obtain ⟨hr, ho, hf, -⟩ := h
  exact State.runPacket_error hr ho hf hc

end

/-- The fence that a packet signals and the value, where it carries one (R336). -/
def Packet.fence (p : Packet) : Option (Nat × Nat) := if p.fenceEn then some (p.fenceId, p.fenceValue) else none

theorem Packet.fence_of_en {p : Packet} (h : p.fenceEn = true) : p.fence = some (p.fenceId, p.fenceValue) := if_pos h
theorem Packet.fence_of_not_en {p : Packet} (h : p.fenceEn = false) : p.fence = none := if_neg (ne_true_of_eq_false h)

@[simp] theorem State.endPacket_loader (s : State) (port q : Nat) : (s.endPacket port q).loader = s.loader := by
  rw [State.endPacket_eq]; rfl
@[simp] theorem State.endPacket_regs (s : State) (port q : Nat) : (s.endPacket port q).regs = s.regs := by
  rw [State.endPacket_eq]; rfl

/-! ### READ -/

/-- The entries of a READ posted to its completion queue, and whether the last of them is written. -/
def State.readPosted (s : State) (port q x : Nat) (p : Packet) (l : List Piece) : State × Bool :=
  ((s.readPieces 0 x l none).1.endPacket port q).postRead port p.cq x p.arg0 (.packet p.fence 2 q)
    (Machine.readPieces (p.arg1 / 16384 + 1) 0 (s.seePieces l))

/-- A packet's fence signalled, where it carries one. -/
def State.signalIf (s : State) : Option (Nat × Nat) → State
  | some (i, v) => s.signal i v
  | none => s

/-- The number of the next transfer of completion entries taken. -/
def State.takeXid (s : State) : State := { s with host := { s.host with nextXid := s.host.nextXid + 1 } }

section
variable {s : State} {port q : Nat} {k : SubQueue} {p : Packet} {c : Ctx} {l : List Piece}
variable (h : Admitted s port q 2 k p c) (hl : s.translate (packetCtx k p) p.arg0 p.arg1 true false = .ok l) (hw : s.ringOk port p = true)
include h hl hw

/-- A READ of bytes that a die holds which does not serve waits, and the request has reached that die. -/
theorem exec_read_unserved (hs : s.served l = false) : exec (.read port q) s = .next (s.reachPieces l) := by
  refine congrArg Host.Outcome.next (h.runPacket_ok ?_)
  simp only [h.actor, hl, hw, hs, Bool.not_true, Bool.not_false, Bool.false_eq_true, if_false, if_true]

/-- A READ that meets an uncorrectable half fails, and writes no piece (R307). -/
theorem exec_read_bad (hs : s.served l = true) (hb : s.badPieces l = true) :
    exec (.read port q) s = .next ((s.fetchPieces (packetCtx k p) l).failPacket port q (packetCtx k p) 0x4003 0 p) := by
  refine congrArg Host.Outcome.next (h.runPacket_ok ?_)
  simp only [h.actor, hl, hw, hs, hb, Bool.not_true, Bool.false_eq_true, if_false, if_true]

/-- A READ posts its pieces, and signals its fence where the last is written at once. -/
theorem exec_read_posts (hs : s.served l = true) (hb : s.badPieces l = false) :
    exec (.read port q) s =
      let t := s.readPosted port q (packetCtx k p) p l
      .next (if t.2 then t.1.takeXid.signalIf p.fence else t.1.takeXid) := by
  have hop : p.opcode = 2 := h.2.1
  refine congrArg Host.Outcome.next (h.runPacket_ok ?_)
  simp only [h.actor, hl, hw, hs, hb, hop, Bool.not_true, Bool.false_eq_true, if_false]
  rfl

end

/-! ### LOAD, UNLOAD and QUERY -/

/-- The load that a LOAD queues. -/
def loadOf (port q x : Nat) (p : Packet) : LoadJob :=
  { port := port, ctx := x, queue := q, cq := p.cq, address := p.arg0, bytes := p.arg1, fence := p.fence, source := p.fenceId, verdict := none }

/-- A load at the end of the loader's queue. -/
def State.queueLoad (s : State) (j : LoadJob) : State := { s with loader := { s.loader with queue := s.loader.queue ++ [j] } }

/-- The images of a module of a context, each to be freed once no kernel of it runs, with a fence to signal. -/
def State.unloading (s : State) (x h : Nat) (f : Option (Nat × Nat)) : State :=
  { s with loader := { s.loader with modules := s.loader.modules.map fun (m : Module) =>
      if m.ctx == x && m.handle == h then { m with unloading := some f } else m } }

section
variable {s : State} {port q : Nat} {k : SubQueue} {p : Packet} {c : Ctx}

theorem exec_load_queued (h : Admitted s port q 0x10 k p c) (hq : s.loader.queue.length < 16) (hm : s.modulesOf (packetCtx k p) < 64)
    (hf : s.fileFault (loadOf port q (packetCtx k p) p) = none) (hw : s.ringOk port p = true) :
    exec (.load port q) s = .next ((s.endPacket port q).queueLoad (loadOf port q (packetCtx k p) p)) := by
  rw [loadOf, Packet.fence] at hf
  refine congrArg Host.Outcome.next (h.runPacket_ok ?_)
  simp only [h.actor, hw, hf, if_neg (Nat.not_le.mpr hq), if_neg (Nat.not_le.mpr hm), Bool.not_true, Bool.false_eq_true, if_false]
  rfl

section
variable (h : Admitted s port q 0x11 k p c)
  (hm : (s.loader.modules.any fun m => m.ctx == packetCtx k p && m.handle == p.arg0 && m.unloading.isNone) = true)
include h hm

/-- An UNLOAD of an image of which no kernel runs frees it. -/
theorem exec_unload_frees (hr : s.moduleRuns (packetCtx k p) p.arg0 = false) :
    exec (.unload port q) s = .next ((s.freeModule (packetCtx k p) p.arg0).completePacket port q p) := by
  refine congrArg Host.Outcome.next (h.runPacket_ok ?_)
  simp only [h.actor, hm, hr, Bool.not_true, Bool.false_eq_true, if_false]

/-- An UNLOAD of an image of which kernels run waits for them. -/
theorem exec_unload_waits (hr : s.moduleRuns (packetCtx k p) p.arg0 = true) :
    exec (.unload port q) s = .next ((s.unloading (packetCtx k p) p.arg0 p.fence).endPacket port q) := by
  refine congrArg Host.Outcome.next (h.runPacket_ok ?_)
  simp only [h.actor, hm, hr, Bool.not_true, Bool.false_eq_true, if_false, if_true]
  rfl

end

/-- Every image of the module is to be freed. -/
theorem State.unloading_modules {x h : Nat} {f : Option (Nat × Nat)} {m : Module} (hm : m ∈ (s.unloading x h f).loader.modules)
    (hx : m.ctx = x) (hh : m.handle = h) : m.unloading ≠ none := by
  obtain ⟨n, -, rfl⟩ := List.mem_map.mp hm
  by_cases hn : (n.ctx == x && n.handle == h) = true
  · simp [hn]
  · rw [if_neg hn] at hx hh
    simp [hx, hh] at hn

end

end Sys2Proof.Machine
end

section
/-! PROOFS. The launch of a kernel by a packet, and all packets that move data or kernels (R135, R140, R194, R196, R205, R276, R286, R291, R292,
R311, R335, R336, R340, R375). -/

namespace Sys2Proof.Machine

open Sys2Proof

/-! ### Cores joining a constellation -/

section
variable (s : State) (c x sq rank : Nat) (kn : Kernel)

theorem State.startWipe_eq (w : Wipe) : s.startWipe w = { s with hbm := (s.startWipe w).hbm } := by
  unfold State.startWipe
  split <;> rfl

/-- A local store that is claimed changes no more of the cores than whose it is. -/
theorem State.member_claimStore (d : Nat) : ((s.claimStore c x).core d).member = (s.core d).member := by
  have hheld (t : State) : ((t.modCore c fun k => { k with lsHeld := some x }).core d).member = (t.core d).member := by
    by_cases hd : d = c
    · subst hd
      rw [State.core_modCore_self]
    · rw [State.core_modCore_ne _ _ hd]
  unfold State.claimStore
  split
  · exact hheld s
  · split
    · split_ifs
      · exact hheld _
      · rfl
    · split_ifs
      · rfl
      · rw [State.startWipe_eq]
        rfl

theorem State.claimStore_fences : (s.claimStore c x).objs.fences = s.objs.fences := by
  unfold State.claimStore
  split
  · rfl
  · split
    · split_ifs <;> rfl
    · split_ifs
      · rfl
      · rw [State.startWipe_eq]

/-- A core that has joined a constellation. -/
def Core.joined (o : Core) (sq rank : Nat) (kn : Kernel) : Core :=
  { o.freed with member := some (sq, rank), lsEighths := kn.lsEighths, chans := kn.channels, lsHeld := o.lsHeld }

theorem State.core_joinCore (d : Nat) :
    (s.joinCore c x sq rank kn).core d = ((s.claimStore c x).modCore c fun o => o.joined sq rank kn).core d := rfl

/-- A core that joins is a member at its rank. -/
theorem State.member_joinCore_self : ((s.joinCore c x sq rank kn).core c).member = some (sq, rank) := by
  rw [State.core_joinCore, State.core_modCore_self]
  rfl

theorem State.member_joinCore_ne {d : Nat} (h : d ≠ c) : ((s.joinCore c x sq rank kn).core d).member = (s.core d).member := by
  rw [State.core_joinCore, State.core_modCore_ne _ _ h, State.member_claimStore]

/-- Cores that join in turn, each at the rank listed with it. -/
def State.joinCores (s : State) (x sq : Nat) (kn : Kernel) (l : List (Nat × Nat)) : State :=
  l.foldl (fun (t : State) e => t.joinCore e.1 x sq e.2 kn) s

theorem State.member_joinCores_of_not_mem {l : List (Nat × Nat)} {d : Nat} (h : d ∉ l.map Prod.fst) :
    ((s.joinCores x sq kn l).core d).member = (s.core d).member := by
  induction l generalizing s with
  | nil => rfl
  | cons e l ih =>
    obtain ⟨hd, hl⟩ := not_or.mp (mt List.mem_cons.mpr h)
    exact (ih _ hl).trans (s.member_joinCore_ne e.1 x sq e.2 kn hd)

/-- A core that is listed once is a member at the rank listed with it. -/
theorem State.member_joinCores {l : List (Nat × Nat)} (hn : (l.map Prod.fst).Nodup) {e : Nat × Nat} (he : e ∈ l) :
    ((s.joinCores x sq kn l).core e.1).member = some (sq, e.2) := by
  induction l generalizing s with
  | nil => cases he
  | cons d l ih =>
    obtain ⟨hd, hl⟩ := List.nodup_cons.mp hn
    rcases List.mem_cons.mp he with rfl | he
    · exact (State.member_joinCores_of_not_mem _ x sq kn hd).trans (s.member_joinCore_self e.1 x sq e.2 kn)
    · exact ih _ hl he

variable {cores : List Nat}

/-- Each core of a constellation is the member of its rank (R135). -/
theorem State.member_joinAll (hn : cores.Nodup) {i d : Nat} (hd : cores[i]? = some d) :
    ((s.joinAll x sq kn cores).core d).member = some (sq, i) := by
  refine s.member_joinCores (e := (d, i)) x sq kn ?_ (List.mk_mem_zipIdx_iff_getElem?.mpr hd)
  simpa using hn

theorem State.joinAll_fences : (s.joinAll x sq kn cores).objs.fences = s.objs.fences :=
  List.foldlRecOn (motive := fun t : State => t.objs.fences = s.objs.fences) _ _ rfl
    fun t ht e _ => (t.claimStore_fences e.1 x).trans ht

theorem State.joinAll_same (a : Area) (h : a ∉ [Area.regs, .cache, .hbm, .cores, .ge, .objs]) : a.same s (s.joinAll x sq kn cores) :=
  Area.same_of_keeps (fun _ w => State.joinAll_keeps w (Keeps.refl s)) a h

end

/-! ### PKT_LAUNCH -/

/-- The constellation that a launch binds (R196, R276): it takes the counters of its context's job. -/
def State.launchSeq (s : State) (x stall : Nat) (c : Ctx) (p : Packet) (m : Module) (kn : Kernel) (cores : List Nat) : Seq :=
  let j := c.job.bind fun e => look s.objs.jobs e
  { ctx := x, module := m.handle, kernel := kn, members := cores, teF := ⟨0, 0, []⟩, geF := ⟨0, 0, []⟩, meF := ⟨0, 0, []⟩, pass := none,
    step := (j.map (·.step)).getD 0, attempt := (j.map (·.attempt)).getD 0, jobKey := (j.map (·.key)).getD 0, tag := p.tag,
    fence := p.fence, stallLog2 := clampStall stall, preempting := false, order := s.objs.launches, creditHeld := [],
    fw := s.zenithVersion }

/-- A constellation bound to a sequencer and its cores, and the launch counted. -/
def State.bindSeq (s : State) (sq : Nat) (b : Seq) : State :=
  (((s.setSeq sq b).joinAll b.ctx sq b.kernel b.members).bump (offLr 0x28) 1).modObjs fun o => { o with launches := o.launches + 1 }

section
variable (s : State) (sq : Nat) (b : Seq)

/-- A constellation that is bound stands at its sequencer. -/
theorem State.look_seqs_bindSeq : look (s.bindSeq sq b).seqs sq = some b := by
  have hseqs : (s.bindSeq sq b).seqs = (s.setSeq sq b).seqs := State.joinAll_same _ _ _ _ .seqs (by decide)
  rw [hseqs]
  exact look_put_self ..

theorem State.bindSeq_mem : (s.bindSeq sq b).mem = s.mem := State.joinAll_same (s.setSeq sq b) _ _ _ .mem (by decide)
theorem State.bindSeq_fences : (s.bindSeq sq b).objs.fences = s.objs.fences := State.joinAll_fences (s.setSeq sq b) ..

end

section
variable {s : State} {port q : Nat} {k : SubQueue} {p : Packet} {c : Ctx} {m : Module} {kn : Kernel}
variable (h : Admitted s port q 0x12 k p c)
  (hm : (s.loader.modules.find? fun m => m.ctx == packetCtx k p && m.handle == p.arg0 % 2 ^ 32 && m.unloading.isNone) = some m)
  (hk : m.kernels[p.arg0 / 2 ^ 32]? = some kn)
include h hm hk

/-- A launch that finds a sequencer and cores binds its kernel to them. -/
theorem exec_pktLaunch_binds {sq : Nat} {cores : List Nat} (hp : s.pick false c.part kn.size = .ok (sq, cores)) :
    exec (.pktLaunch port q) s =
      let s1 := (s.endPacket port q).adopt (offSeq sq 0) 0 5
      .next (s1.bindSeq sq (s.launchSeq (packetCtx k p) (fld (s1.reg (offSeq sq 0)) 0 5) c p m kn cores)) := by
  refine congrArg Host.Outcome.next (h.runPacket_ok ?_)
  simp only [h.actor, hm, hk, hp]
  rfl

section
variable {e : Nat} (hp : s.pick false c.part kn.size = .error e)
include hp

/-- A launch waits where only cores with a wipe outstanding would suffice (R311). -/
theorem exec_pktLaunch_waits {r : Nat × List Nat} (hs : s.pick true c.part kn.size = .ok r) : exec (.pktLaunch port q) s = .next s := by
  refine congrArg Host.Outcome.next (h.runPacket_ok ?_)
  simp only [h.actor, hm, hk, hp, hs]

theorem exec_pktLaunch_fails {code : Nat} (hs : s.pick true c.part kn.size = .error code) :
    exec (.pktLaunch port q) s = .next (s.failPacket port q (packetCtx k p) code 0 p) := by
  refine congrArg Host.Outcome.next (h.runPacket_error ?_)
  simp only [h.actor, hm, hk, hp, hs]
  rfl

end
end

/-- Settles O21: each packet by what its command makes of the state once it is admitted (`Admitted.runPacket_ok`); of a launch, what
the constellation bound is (`State.launchSeq`) and where its members stand (`State.member_joinAll`). -/
theorem dataPacketsComplete : Obligations.DataPacketsComplete := by
  intro s port q k p c x
  refine ⟨fun hr ho hf => congrArg Host.Outcome.next (State.runPacket_ok hr ho hf rfl), fun l h hl => exec_write_admitted h hl,
    fun l h hl hw => ⟨exec_read_unserved h hl hw, exec_read_bad h hl hw, fun hs hb => ?read⟩, fun h hq hm hf hw => ?load,
    fun h hm => ⟨exec_unload_frees h hm, fun hr => ?unload⟩, fun m kn sq cores h hm hk hp hn => ?launch,
    fun m kn e h hm hk hp => ⟨fun r => exec_pktLaunch_waits h hm hk hp, fun code => exec_pktLaunch_fails h hm hk hp⟩,
    fun hr ho hf hw => ?query⟩
  case read =>
    have hposts := exec_read_posts h hl hw hs hb
    refine ⟨fun hlast => hposts.trans (congrArg _ (if_neg (ne_true_of_eq_false hlast))), fun hlast hf => hposts.trans (congrArg _ ?_),
      fun hf => hposts.trans (congrArg _ ?_)⟩
    · rw [Packet.fence_of_en hf]
      exact if_pos hlast
    · rw [Packet.fence_of_not_en hf]
      exact ite_self _
  case load =>
    refine ⟨_, exec_load_queued h hq hm hf hw, ?_, State.endPacket_mem .., State.endPacket_regs .., State.endPacket_fences ..⟩
    simp [State.queueLoad, loadOf, Packet.fence, x]
  case unload =>
    refine ⟨_, exec_unload_waits h hm hr, State.endPacket_fences .., fun m hmem => ?_⟩
    rw [State.endPacket_loader] at hmem
    exact State.unloading_modules hmem
  case launch =>
    refine ⟨_, _, exec_pktLaunch_binds h hm hk hp, State.look_seqs_bindSeq .., rfl, rfl, rfl, rfl, rfl, rfl, rfl, rfl, rfl, rfl, rfl, rfl,
      fun i d hd => State.member_joinAll _ _ _ _ hn hd, (State.bindSeq_mem ..).trans ?_, (State.bindSeq_fences ..).trans ?_⟩
    · rw [State.adopt_eq]
      exact State.endPacket_mem ..
    · rw [State.adopt_eq]
      exact State.endPacket_fences ..
  case query =>
    refine congrArg Host.Outcome.next (State.runPacket_ok hr ho hf ?_)
    simp only [hw, Bool.not_true, Bool.false_eq_true, if_false]
    rfl

end Sys2Proof.Machine
end

section
/-! PROOFS. Burob ports that go down, train and lose their owner (R325, R326, R333, R342, R343, R345). -/

namespace Sys2Proof.Machine

open Sys2Proof

theorem exec_burobTrained (p nonce halves : Nat) (s : State) :
    exec (.burobTrained p nonce halves) s = execBurobTrained p nonce halves s := rfl
theorem exec_burobTrainRetry (p : Nat) (s : State) : exec (.burobTrainRetry p) s = execBurobTrainRetry p s := rfl

/-! ### A port read after another state was made -/

section
variable (s : State) (p : Nat) (k : Port)

@[simp] theorem State.port_setPort_self : (s.setPort p k).port p = k := lookD_put_self ..
theorem State.port_setPort_ne {r : Nat} (h : r ≠ p) : (s.setPort p k).port r = s.port r := lookD_put_ne _ _ _ h
@[simp] theorem State.port_adopt (o lo w : Nat) : (s.adopt o lo w).port p = s.port p := by
  rw [State.adopt_eq]; rfl

end

/-! ### Down, and the grace -/

/-- A port that goes down keeps its nonce and its session, and its grace runs (R325, R342). -/
def Port.down (k : Port) : Port := { k with up := false, training := false, halves := 0, retraining := 0, cause := [], grace := true }

section
variable {s : State} {p : Nat}

/-- A port that is up goes down, under the grace time as last written, and is recorded. -/
theorem State.burobDown_of_up (hp : p < 4) (hu : (s.port p).up = true) :
    s.burobDown p = ((s.adopt (offBl p 0) 2 5).setPort p (s.port p).down).raise 0x8801 (leBytes 1 p) := by
  have hgo : ¬(decide (4 ≤ p) || !(s.port p).up) = true := by simp [hp, hu]
  simp only [State.burobDown, if_neg hgo, State.port_adopt]
  rfl

theorem State.burobDown_of_down (hu : (s.port p).up = false) : s.burobDown p = s := if_pos (by simp [hu])

theorem exec_graceExpiry_gone (hp : p < 4) (hu : (s.port p).up = false) (hg : (s.port p).grace = true) :
    exec (.graceExpiry p) s = .next (s.ownerGone p) :=
  congrArg Host.Outcome.next (if_pos (by simp [hp, hu, hg]))

theorem exec_graceExpiry_none (h : (s.port p).up = true ∨ (s.port p).grace = false) : exec (.graceExpiry p) s = .next s := by
  refine congrArg Host.Outcome.next (if_neg ?_)
  rcases h with h | h <;> simp [h]

end

/-! ### Training -/

/-- A port that has trained comes up: its link is fresh but for what the replay buffer holds, which is sent again and counted, and what was
held is written behind it (R326, R333, R342, R345). -/
def State.comesUp (s : State) (p nonce halves code device : Nat) : State :=
  let w := s.wire (.burob p)
  let resent :=
    (s.setWire (.burob p) { Wire.fresh code with formed := w.formed - w.acked }).bump (linkRegs (.burob p)).2.2.2 (w.sent - w.acked)
  (((resent.setPort p { s.port p with
      up := true, training := false, retry := false, halves := halves, retraining := 0, grace := false, nonce := some nonce,
      deviceNonce := device % 2 ^ 32 }).replayHeld p).cqDrainPort p).linkRecord p

section
variable {s : State} {p nonce halves : Nat}

/-- A port that is up, links that do not train, or no half that trained: nothing happens. -/
theorem exec_burobTrained_none
    (h : (s.port p).up = true ∨ s.linksTrain = false ∨ andHalves (halves % 4) (s.servedHalves p) = 0) :
    exec (.burobTrained p nonce halves) s = .next s := by
  refine congrArg Host.Outcome.next (if_pos ?_)
  rcases h with h | h | h <;> simp [h]

section
variable (hp : p < 4) (hu : (s.port p).up = false) (ht : s.linksTrain = true)
include hp hu ht

/-- A port that trains: with its owner gone where the nonce is another in the grace, and with a device nonce drawn where it has none. -/
theorem exec_burobTrained_trains (hn : nonce < 2 ^ 32) (hh : andHalves (halves % 4) (s.servedHalves p) ≠ 0) :
    exec (.burobTrained p nonce halves) s =
      let t := if (s.port p).grace ∧ (s.port p).nonce ≠ some nonce then s.ownerGone p else s
      let d := if (s.port p).nonce.isNone then t.draw else (BitVec.ofNat 64 (s.port p).deviceNonce, t)
      .next (d.2.comesUp p nonce (andHalves (halves % 4) (s.servedHalves p)) (fld (s.written (offBl p 0)) 0 2) d.1.toNat) := by
  have hgo : ¬(decide (4 ≤ p) || (s.port p).up || !s.linksTrain || andHalves (halves % 4) (s.servedHalves p) == 0) = true := by
    simp [hp, hu, ht, hh]
  simp only [exec_burobTrained, execBurobTrained, if_neg hgo, Nat.mod_eq_of_lt hn]
  rfl

/-- A retry of a port that is down begins, and one that ends without training is counted (R326). -/
theorem exec_burobTrainRetry_begins :
    exec (.burobTrainRetry p) s =
      .next ((if (s.port p).training = true ∧ (s.port p).retry = true then s.bump (offBl p 0x80) 1 else s).setPort p
        { s.port p with training := true, retry := true }) := by
  have hgo : ¬(decide (4 ≤ p) || (s.port p).up || !s.linksTrain) = true := by simp [hp, hu, ht]
  simp only [exec_burobTrainRetry, execBurobTrainRetry, if_neg hgo, Bool.and_eq_true]

end

theorem exec_burobTrainRetry_none (h : (s.port p).up = true ∨ s.linksTrain = false) : exec (.burobTrainRetry p) s = .next s := by
  refine congrArg Host.Outcome.next (if_pos ?_)
  rcases h with h | h <;> simp [h]

end

/-- Settles O29: a port that is up goes down as `State.burobDown_of_up` says; one that is down trains as `State.comesUp` says, after its
owner is gone or a device nonce is drawn by what nonce it has. -/
theorem portsTrainAndFail : Obligations.PortsTrainAndFail := by
  intro s p hp
  refine ⟨fun hu => ?down, fun hu => congrArg Host.Outcome.next (State.burobDown_of_down hu), fun nonce halves => exec_burobTrained_none,
    fun nonce halves hu ht hn hh => ?trains, exec_burobTrainRetry_begins hp, exec_burobTrainRetry_none, exec_graceExpiry_gone hp,
    exec_graceExpiry_none⟩
  case down =>
    refine ⟨_, congrArg Host.Outcome.next (State.burobDown_of_up hp hu), State.port_setPort_self .., fun r hr => ?_, ?_, ?_, ?_, ?_, ?_⟩
    · exact (State.port_setPort_ne _ _ _ hr).trans (State.port_adopt ..)
    all_goals rw [State.adopt_eq]; rfl
  case trains =>
    have hexec := exec_burobTrained_trains hp hu ht hn hh
    refine ⟨fun n hs hg => hexec.trans ?same, fun n hs hg hne => hexec.trans ?other, fun hs hg => hexec.trans ?first⟩
    case same =>
      have hkept : ¬((s.port p).grace = true ∧ (s.port p).nonce ≠ some nonce) := fun ⟨h, hne⟩ => hne (hg h ▸ hs)
      rw [if_neg hkept, hs]
      rfl
    case other =>
      have hgone : (s.port p).grace = true ∧ (s.port p).nonce ≠ some nonce := ⟨hg, by simp [hs, hne]⟩
      rw [if_pos hgone, hs]
      rfl
    case first =>
      have hkept : ¬((s.port p).grace = true ∧ (s.port p).nonce ≠ some nonce) := by simp [hg]
      rw [if_neg hkept, hs]
      rfl

end Sys2Proof.Machine
end

section
/-! PROOFS. Lane windows and live retrains of halves (R327, R328, R345, R385, R415). -/

namespace Sys2Proof.Machine

open Sys2Proof

theorem exec_laneErrorWindow (l : Link) (half lane count : Nat) (s : State) :
    exec (.laneErrorWindow l half lane count) s = execLaneErrorWindow l half lane count s := rfl
theorem exec_halfRetrainDone (l : Link) (half : Nat) (ok : Bool) (s : State) :
    exec (.halfRetrainDone l half ok) s = execHalfRetrainDone l half ok s := rfl
theorem exec_halfRetry (l : Link) (half : Nat) (s : State) : exec (.halfRetry l half) s = .next (s.halfRetry l half) := rfl

/-! ### Halves -/

theorem halfBit_of_lt {half : Nat} (h : half < 2) : halfBit half = 2 ^ half := by rw [halfBit, Nat.mod_eq_of_lt h]

/-- What a mask shares with one half's bit. -/
theorem andHalves_two_pow (m : Nat) {half : Nat} (h : half < 2) : andHalves m (2 ^ half) = if bit m half then 2 ^ half else 0 := by
  interval_cases half
  · have h0 : bit 1 0 = true := rfl
    have h1 : bit 1 1 = false := rfl
    cases hb : bit m 0 <;> simp [andHalves, b2n, h0, h1, hb]
  · have h0 : bit 2 0 = false := rfl
    have h1 : bit 2 1 = true := rfl
    cases hb : bit m 1 <;> simp [andHalves, b2n, h0, h1, hb]

theorem bit_three {half : Nat} (h : half < 2) : bit 3 half = true := by interval_cases half <;> rfl

/-- The end of a lane's window: the threshold as last written is that of its next, and in effect in the register of the link. -/
def State.endWindow (s : State) (l : Link) (half lane off : Nat) : State := (s.nextWindow l half lane off).adopt off 0 2

/-! ### Burob ports -/

section
variable {s : State} {p half lane count : Nat}

theorem State.port_endWindow (l : Link) (off r : Nat) : (s.endWindow l half lane off).port r = s.port r := State.port_adopt ..

/-- A port whose half has left service for a live retrain, beside the halves that retrained and their causes before (R327, R328). -/
def Port.halfOut (k : Port) (half lane count retraining : Nat) (cause : List (Nat × Nat × Nat)) : Port :=
  { k with halves := 3 - 2 ^ half, retraining := retraining + 2 ^ half,
           cause := (cause.filter fun c => c.1 != half) ++ [(half, lane, count)] }

/-- A port of which a half's live retrain has ended. -/
def Port.retrained (k : Port) (half : Nat) : Port :=
  { k with retraining := k.retraining - 2 ^ half, cause := k.cause.filter fun c => c.1 != half }

/-- A live retrain that fails is recorded with the lane and the count that started it. -/
def State.retrainFails (s : State) (p half : Nat) (c : Nat × Nat) : State :=
  (s.setPort p ((s.port p).retrained half)).raise 0x8802 (leBytes 1 p ++ leBytes 1 half ++ leBytes 1 c.1 ++ leBytes 4 c.2)

/-- With both halves in service, the half leaves it; each retrain is counted. -/
theorem State.burobRetrain_of_full (hh : half < 2) (hf : (s.port p).halves = 3) (hr : bit (s.port p).retraining half = false) :
    s.burobRetrain p half lane count =
      (s.setPort p ((s.port p).halfOut half lane count (s.port p).retraining (s.port p).cause)).bump (offBl p 0x88) 1 := by
  simp only [State.burobRetrain, Port.halfOut, hf, halfBit_of_lt hh, andHalves_two_pow _ hh, bit_three hh, hr, if_true, Bool.false_eq_true,
    if_false, Nat.sub_zero]

section
variable (hp : p < 4) (hh : half < 2) (hu : (s.port p).up = true)
include hp hh hu

section
variable (hb : bit (s.port p).halves half = true)
include hb

/-- A lane's window on a half in service ends. -/
theorem exec_laneErrorWindow_burob :
    exec (.laneErrorWindow (.burob p) half lane count) s =
      let t := s.endWindow (.burob p) half lane (offBl p 0)
      .next (if crosses (s.laneCode (.burob p) half lane) count = false then t
        else if (s.port p).halves = 3 then t.burobRetrain p half lane count
        else t.raise 0x8802 (leBytes 1 p ++ leBytes 1 half ++ leBytes 1 lane ++ leBytes 4 count)) := by
  have hgo : ¬(decide (4 ≤ p) || !(s.port p).up || !bit (s.port p).halves half || decide (2 ≤ half)) = true := by simp [hp, hh, hu, hb]
  simp only [exec_laneErrorWindow, execLaneErrorWindow, if_neg hgo, Bool.not_eq_true']
  rfl

theorem exec_laneErrorWindow_burob_within (hc : crosses (s.laneCode (.burob p) half lane) count = false) :
    exec (.laneErrorWindow (.burob p) half lane count) s = .next (s.endWindow (.burob p) half lane (offBl p 0)) :=
  (exec_laneErrorWindow_burob hp hh hu hb).trans (congrArg _ (if_pos hc))

variable (hc : crosses (s.laneCode (.burob p) half lane) count = true)
include hc

/-- Beyond the threshold the half leaves service where the other serves. -/
theorem exec_laneErrorWindow_burob_retrains (hf : (s.port p).halves = 3) (hr : bit (s.port p).retraining half = false) :
    let t := s.endWindow (.burob p) half lane (offBl p 0)
    exec (.laneErrorWindow (.burob p) half lane count) s =
      .next ((t.setPort p ((t.port p).halfOut half lane count (s.port p).retraining (s.port p).cause)).bump (offBl p 0x88) 1) := by
  have hport := s.port_endWindow (half := half) (lane := lane) (.burob p) (offBl p 0) p
  rw [exec_laneErrorWindow_burob hp hh hu hb]
  simp only [hc, Bool.true_eq_false, if_false, hf, if_true]
  rw [State.burobRetrain_of_full hh (hport ▸ hf) (hport ▸ hr), hport]

/-- Where the other half does not serve, the lane is recorded. -/
theorem exec_laneErrorWindow_burob_recorded (hf : (s.port p).halves ≠ 3) :
    exec (.laneErrorWindow (.burob p) half lane count) s = .next ((s.endWindow (.burob p) half lane (offBl p 0)).raise 0x8802
      (leBytes 1 p ++ leBytes 1 half ++ leBytes 1 lane ++ leBytes 4 count)) := by
  rw [exec_laneErrorWindow_burob hp hh hu hb]
  simp only [hc, Bool.true_eq_false, if_false, hf]

end

section
variable (hr : bit (s.port p).retraining half = true)
include hr

/-- A retrain that ends brings the half back, or is recorded with the lane and count that started it. -/
theorem exec_halfRetrainDone_burob (ok : Bool) :
    exec (.halfRetrainDone (.burob p) half ok) s = .next
      (if ok && bit (s.servedHalves p) half then
        (s.freshHalf (.burob p) half (offBl p 0)).setPort p { (s.port p).retrained half with halves := (s.port p).halves + 2 ^ half }
      else s.retrainFails p half ((((s.port p).cause.find? fun c => c.1 == half).map (·.2)).getD (0, 0))) := by
  have hgo : ¬(decide (4 ≤ p) || decide (2 ≤ half) || !(s.port p).up || !bit (s.port p).retraining half) = true := by
    simp [hp, hh, hu, hr]
  simp only [exec_halfRetrainDone, execHalfRetrainDone, if_neg hgo, halfBit_of_lt hh]
  rfl

theorem exec_halfRetrainDone_burob_back (hs : bit (s.servedHalves p) half = true) :
    exec (.halfRetrainDone (.burob p) half true) s = .next
      ((s.freshHalf (.burob p) half (offBl p 0)).setPort p { (s.port p).retrained half with halves := (s.port p).halves + 2 ^ half }) :=
  (exec_halfRetrainDone_burob hp hh hu hr true).trans (congrArg _ (if_pos hs))

theorem exec_halfRetrainDone_burob_fails {l n : Nat} (hc : ((s.port p).cause.find? fun c => c.1 == half) = some (half, l, n)) :
    exec (.halfRetrainDone (.burob p) half false) s = .next (s.retrainFails p half (l, n)) := by
  rw [exec_halfRetrainDone_burob hp hh hu hr, hc]
  rfl

end

/-- A half that is out and that a hub die serves is retrained again. -/
theorem exec_halfRetry_burob (hb : bit (s.port p).halves half = false) (hr : bit (s.port p).retraining half = false)
    (hs : bit (s.servedHalves p) half = true) :
    exec (.halfRetry (.burob p) half) s = .next (s.setPort p { s.port p with retraining := (s.port p).retraining + 2 ^ half }) := by
  have hgo : ¬(decide (4 ≤ p) || decide (2 ≤ half) || !(s.port p).up || bit (s.port p).halves half || bit (s.port p).retraining half ||
      !bit (s.servedHalves p) half) = true := by simp [hp, hh, hu, hb, hr, hs]
  simp only [exec_halfRetry, State.halfRetry, if_neg hgo, halfBit_of_lt hh]

end

theorem exec_laneErrorWindow_burob_out (hb : bit (s.port p).halves half = false) :
    exec (.laneErrorWindow (.burob p) half lane count) s = .next s :=
  congrArg Host.Outcome.next (if_pos (by simp [hb]))

theorem exec_halfRetrainDone_burob_none {ok : Bool} (hr : bit (s.port p).retraining half = false) :
    exec (.halfRetrainDone (.burob p) half ok) s = .next s :=
  congrArg Host.Outcome.next (if_pos (by simp [hr]))

theorem exec_halfRetry_burob_none
    (h : bit (s.port p).halves half = true ∨ bit (s.port p).retraining half = true ∨ bit (s.servedHalves p) half = false) :
    exec (.halfRetry (.burob p) half) s = .next s := by
  refine congrArg Host.Outcome.next (if_pos ?_)
  rcases h with h | h | h <;> simp [h]

end

/-! ### Tray links -/

/-- A half of a tray link counted as out for a live retrain. -/
def State.trayHalfLeaves (s : State) (j half : Nat) : State := s.modFab fun f => { f with halfOut := addNew f.halfOut (j, half) }

/-- A half of a tray link out for a live retrain no longer. -/
def State.trayHalfReturns (s : State) (j half : Nat) : State := s.modFab fun f => { f with halfOut := drop1 f.halfOut (j, half) }

section
variable {s : State} {j half lane count : Nat}

theorem offPeer_ne_offTf (j : Nat) : offPeer j 0 ≠ offTf 0 := by
  unfold offPeer offTf
  omega

theorem State.trayHalves_endWindow (l : Link) : (s.endWindow l half lane (offTf 0)).trayHalves j = s.trayHalves j :=
  congrArg (fld · 2 2) (State.reg_adopt_ne _ 0 2 (offPeer_ne_offTf j))

/-- A half of a tray link that leaves service, with the change of width recorded (R385). -/
def State.trayHalfLost (s : State) (j half : Nat) : State :=
  (((s.setField (offPeer j 0) 2 2 (3 - 2 ^ half)).setBit (offPeer j 0) 4).trayHalfLeaves j half).raise 0x7801
    (leBytes 1 (0x10 + j) ++ leBytes 1 8)

theorem State.trayRetrain_of_full (hh : half < 2) (hf : s.trayHalves j = 3) : s.trayRetrain j half = s.trayHalfLost j half := by
  simp only [State.trayRetrain, hf, halfBit_of_lt hh, andHalves_two_pow _ hh, bit_three hh, if_true]
  rfl

/-- A half of a tray link back in service, with the change of width recorded (R385). -/
def State.trayWidens (s : State) (j half : Nat) : State :=
  ((s.freshHalf (.tray j) half (offTf 0)).setField (offPeer j 0) 2 2
    (s.trayHalves j + halfBit half - andHalves (s.trayHalves j) (halfBit half))).raise 0x7801 (leBytes 1 (0x10 + j) ++ leBytes 1 16)

section
variable (hj : j < 8) (hh : half < 2) (hu : j ∈ s.fab.linkUp)
include hu

theorem State.linkUp_tray : s.linkUp (.tray j) = true := List.contains_iff_mem.mpr hu

include hj

section
include hh
variable (hb : bit (s.trayHalves j) half = true)
include hb

/-- A lane's window on a half in service ends. -/
theorem exec_laneErrorWindow_tray :
    exec (.laneErrorWindow (.tray j) half lane count) s =
      let t := s.endWindow (.tray j) half lane (offTf 0)
      .next (if crosses (s.laneCode (.tray j) half lane) count = true ∧ s.trayHalves j = 3 then t.trayRetrain j half else t) := by
  have hgo : ¬(decide (8 ≤ j) || !s.linkUp (.tray j) || !bit (s.trayHalves j) half || decide (2 ≤ half)) = true := by
    simp [hj, hh, State.linkUp_tray hu, hb]
  simp only [exec_laneErrorWindow, execLaneErrorWindow, if_neg hgo, Bool.and_eq_true, beq_iff_eq]
  rfl

/-- Beyond the threshold the half leaves service where the other serves. -/
theorem exec_laneErrorWindow_tray_retrains (hc : crosses (s.laneCode (.tray j) half lane) count = true) (hf : s.trayHalves j = 3) :
    exec (.laneErrorWindow (.tray j) half lane count) s =
      .next ((s.endWindow (.tray j) half lane (offTf 0)).trayHalfLost j half) := by
  rw [exec_laneErrorWindow_tray hj hh hu hb]
  simp only [hc, hf, and_self, if_true, State.trayRetrain_of_full hh ((State.trayHalves_endWindow _).trans hf)]

/-- A lane within the threshold, or on the one half that serves, costs nothing. -/
theorem exec_laneErrorWindow_tray_stays (h : crosses (s.laneCode (.tray j) half lane) count = false ∨ s.trayHalves j ≠ 3) :
    exec (.laneErrorWindow (.tray j) half lane count) s = .next (s.endWindow (.tray j) half lane (offTf 0)) := by
  rw [exec_laneErrorWindow_tray hj hh hu hb]
  exact congrArg Host.Outcome.next (if_neg fun ⟨hc, hf⟩ => h.elim (ne_false_of_eq_true hc) (· hf))

end

section
variable (ho : (j, half) ∈ s.fab.halfOut)
include ho

theorem exec_halfRetrainDone_tray (ok : Bool) :
    exec (.halfRetrainDone (.tray j) half ok) s = .next
      (if ok && bit (s.servedHalves j) half then (s.trayHalfReturns j half).trayWidens j half else s.trayHalfReturns j half) := by
  have hgo : ¬(!s.fab.halfOut.contains (j, half) || !s.linkUp (.tray j) || decide (8 ≤ j)) = true := by
    simp [hj, State.linkUp_tray hu, ho]
  simp only [exec_halfRetrainDone, execHalfRetrainDone, if_neg hgo]
  rfl

/-- A retrain that succeeds brings the half back where a hub die serves it, and the change of width is recorded. -/
theorem exec_halfRetrainDone_tray_back (hh : half < 2) (hb : bit (s.trayHalves j) half = false) (hs : bit (s.servedHalves j) half = true) :
    exec (.halfRetrainDone (.tray j) half true) s = .next
      ((((s.trayHalfReturns j half).freshHalf (.tray j) half (offTf 0)).setField (offPeer j 0) 2 2 (s.trayHalves j + 2 ^ half)).raise 0x7801
        (leBytes 1 (0x10 + j) ++ leBytes 1 16)) := by
  have hsum : s.trayHalves j + halfBit half - andHalves (s.trayHalves j) (halfBit half) = s.trayHalves j + 2 ^ half := by
    simp [halfBit_of_lt hh, andHalves_two_pow _ hh, hb]
  rw [exec_halfRetrainDone_tray hj hu ho, Bool.true_and, if_pos hs, ← hsum]
  rfl

end

include hh in
theorem exec_halfRetry_tray (hb : bit (s.trayHalves j) half = false) (hs : bit (s.servedHalves j) half = true) :
    exec (.halfRetry (.tray j) half) s = .next (s.trayHalfLeaves j half) := by
  have hgo : ¬(decide (8 ≤ j) || decide (2 ≤ half) || !s.linkUp (.tray j) || bit (s.trayHalves j) half ||
      !bit (s.servedHalves j) half) = true := by
    simp [hj, hh, State.linkUp_tray hu, hb, hs]
  simp only [exec_halfRetry, State.halfRetry, if_neg hgo]
  rfl

end
end

/-! ### Scale-out ports -/

section
variable {s : State} {p half lane count : Nat} (hp : p < 4) (hu : s.sfState p = 2)
include hp hu

/-- A lane's window on a scale-out port ends: one beyond the threshold starts the change of width of a port at full width (R385). -/
theorem exec_laneErrorWindow_scaleOut :
    exec (.laneErrorWindow (.scaleOut p) half lane count) s =
      let t := s.endWindow (.scaleOut p) half lane (offTf 0)
      .next (if crosses (s.laneCode (.scaleOut p) half lane) count = true ∧ bit (s.reg (offSfPort p 0)) 2 = false ∧
          s.portServes p = true then t.sfRetrain p half
        else t) := by
  have hgo : ¬(decide (4 ≤ p) || s.sfState p != 2) = true := by simp [hp, hu]
  simp only [exec_laneErrorWindow, execLaneErrorWindow, if_neg hgo, Bool.and_eq_true, Bool.not_eq_true', and_assoc]
  rfl

theorem exec_laneErrorWindow_scaleOut_stays
    (h : crosses (s.laneCode (.scaleOut p) half lane) count = false ∨ bit (s.reg (offSfPort p 0)) 2 = true ∨ s.portServes p = false) :
    exec (.laneErrorWindow (.scaleOut p) half lane count) s = .next (s.endWindow (.scaleOut p) half lane (offTf 0)) := by
  refine (exec_laneErrorWindow_scaleOut hp hu).trans (congrArg _ (if_neg fun ⟨hc, hw, hs⟩ => ?_))
  rcases h with h | h | h
  · exact ne_false_of_eq_true hc h
  · exact ne_false_of_eq_true h hw
  · exact ne_false_of_eq_true hs h

theorem exec_halfRetry_scaleOut (hb : bit (s.reg (offSfPort p 0)) 2 = true) (hs : s.servedHalves p = 3) (hl : s.portServes p = true) :
    exec (.halfRetry (.scaleOut p) half) s = .next (s.sfRetrain p half) :=
  congrArg Host.Outcome.next (if_neg (by simp [hp, hu, hb, hs, hl]))

end

/-- Settles O30: on each kind of link a lane's window by its threshold, then a half's retrain by how it ends, and a retry. -/
theorem halvesRetrain : Obligations.HalvesRetrain := by
  refine ⟨fun s p half lane count hp hh hu => ⟨fun hb => ⟨exec_laneErrorWindow_burob_within hp hh hu hb,
        exec_laneErrorWindow_burob_retrains hp hh hu hb, exec_laneErrorWindow_burob_recorded hp hh hu hb⟩,
      exec_laneErrorWindow_burob_out,
      fun hr => ⟨exec_halfRetrainDone_burob_back hp hh hu hr, fun l n => exec_halfRetrainDone_burob_fails hp hh hu hr⟩,
      fun hr ok => exec_halfRetrainDone_burob_none hr, exec_halfRetry_burob hp hh hu, exec_halfRetry_burob_none⟩,
    fun s j half lane count hj hh hu => ⟨fun hb => ⟨exec_laneErrorWindow_tray_retrains hj hh hu hb,
        exec_laneErrorWindow_tray_stays hj hh hu hb⟩,
      fun ho => ⟨exec_halfRetrainDone_tray_back hj hu ho hh, exec_halfRetrainDone_tray hj hu ho false⟩, exec_halfRetry_tray hj hh hu⟩,
    fun s p half lane count hp hu => ⟨fun hc hw hs => ?sfRetrains, exec_laneErrorWindow_scaleOut_stays hp hu, fun ok => rfl,
      exec_halfRetry_scaleOut hp hu⟩⟩
  case sfRetrains => exact (exec_laneErrorWindow_scaleOut hp hu).trans (congrArg _ (if_pos ⟨hc, hw, hs⟩))

end Sys2Proof.Machine
end

section
/-! PROOFS. Flits as they arrive, and keepalives (R324, R325, R383, R384). -/

namespace Sys2Proof.Machine

open Sys2Proof

theorem exec_keepaliveSend_up {s : State} {l : Link} (h : s.linkUp l = true) :
    exec (.keepaliveSend l) s = .next (s.bump (linkRegs l).2.1 1) := congrArg Host.Outcome.next (if_pos h)

theorem exec_keepaliveSend_down {s : State} {l : Link} (h : s.linkUp l = false) : exec (.keepaliveSend l) s = .next s :=
  congrArg Host.Outcome.next (if_neg (ne_true_of_eq_false h))

/-! ### The end of a link -/

section
variable (s : State) (l : Link)

@[simp] theorem State.wire_setWire_self (k : Wire) : (s.setWire l k).wire l = k := s.wire_setWire_of_key l k rfl
@[simp] theorem State.wire_bump (o n : Nat) : (s.bump o n).wire l = s.wire l := rfl

theorem Wire.hopeless_iff (k : Wire) : k.hopeless = true ↔ 64 < k.rxTries ∨ 64 < k.txTries := by simp [Wire.hopeless]

/-- An acknowledgement that asks for nothing again leaves the flits tried again for the far end no more in number, and those of this end
as they were. -/
theorem State.acknowledged_tries {f : Flit} (hf : f.resend = false) :
    ((s.acknowledged l f).wire l).rxTries = (s.wire l).rxTries ∧ ((s.acknowledged l f).wire l).txTries ≤ (s.wire l).txTries := by
  simp only [State.acknowledged, hf, State.advance, Bool.false_eq_true, if_false, State.wire_bump, State.wire_setWire_self, true_and]
  split_ifs
  · exact Nat.zero_le _
  · exact le_rfl

end

/-! ### A flit -/

section
variable {s : State} {l : Link} {fixed ok : Bool} {f : Flit}

/-- A link that is down takes no flit. -/
theorem State.flit_of_down (h : s.linkUp l = false) : s.flit l fixed ok f = s := if_pos (by simp [h])

section
variable (hu : s.linkUp l = true)
include hu

theorem State.flit_taken (h : ((s.takeFlit l fixed ok f).wire l).hopeless = false) :
    s.flit l fixed ok f = (s.takeFlit l fixed ok f).afterFlit l := by
  simp [State.flit, hu, h]

theorem State.flit_hopeless (h : ((s.takeFlit l fixed ok f).wire l).hopeless = true) :
    s.flit l fixed ok f = (s.takeFlit l fixed ok f).linkDown l := by
  simp [State.flit, hu, h]

/-- A flit whose CRC fails is counted as resent, and one try more. -/
def State.crcFails (s : State) (l : Link) : State :=
  (s.setWire l { s.wire l with rxTries := (s.wire l).rxTries + 1 }).bump (linkRegs l).2.2.2 1

omit hu in
theorem State.takeFlit_bad : s.takeFlit l fixed false f = s.crcFails l := rfl

theorem State.flit_bad (hr : (s.wire l).rxTries < 64) (ht : (s.wire l).txTries ≤ 64) :
    s.flit l fixed false f = (s.crcFails l).afterFlit l := by
  refine State.flit_taken hu ?_
  simp only [State.takeFlit_bad, State.crcFails, State.wire_bump, State.wire_setWire_self, Wire.hopeless, Bool.or_eq_false_iff,
    decide_eq_false_iff_not]
  omega

/-- A flit that has failed more than 64 times takes its link down (R325, R384). -/
theorem State.flit_bad_hopeless (hr : 64 ≤ (s.wire l).rxTries) : s.flit l fixed false f = (s.crcFails l).linkDown l := by
  refine State.flit_hopeless hu ?_
  simp only [State.takeFlit_bad, State.crcFails, State.wire_bump, State.wire_setWire_self, Wire.hopeless_iff]
  omega

omit hu

/-- A flit that passes its CRC is counted, and counted as corrected where it was. -/
def State.flitCounted (s : State) (l : Link) (fixed : Bool) : State :=
  if fixed then (s.bump (linkRegs l).1 1).bump (linkRegs l).2.2.1 1 else s.bump (linkRegs l).1 1

theorem State.wire_flitCounted (m : Link) : (s.flitCounted l fixed).wire m = s.wire m := by
  unfold State.flitCounted
  split <;> rfl

theorem State.takeFlit_good :
    s.takeFlit l fixed true f =
      (if f.seq = (s.wire l).received then
        (s.flitCounted l fixed).setWire l { s.wire l with received := (s.wire l).received + 1, rxTries := 0 }
      else if (s.wire l).received < f.seq ∧ 0 < (s.wire l).rxTries then (s.flitCounted l fixed).bump (linkRegs l).2.2.2 1
      else s.flitCounted l fixed).acknowledged l f := rfl

include hu
variable (ht : (s.wire l).txTries ≤ 64) (hf : f.resend = false)
include ht hf

/-- The next flit in order is received (R324, R383). -/
theorem State.flit_next (hq : f.seq = (s.wire l).received) :
    s.flit l fixed true f = (((s.flitCounted l fixed).setWire l
      { s.wire l with received := (s.wire l).received + 1, rxTries := 0 }).acknowledged l f).afterFlit l := by
  have htake := State.takeFlit_good (s := s) (l := l) (fixed := fixed) (f := f)
  rw [if_pos hq] at htake
  refine (State.flit_taken hu ?_).trans (congrArg (State.afterFlit · l) htake)
  obtain ⟨hrx, htx⟩ := State.acknowledged_tries ((s.flitCounted l fixed).setWire l
    { s.wire l with received := (s.wire l).received + 1, rxTries := 0 }) l hf
  rw [State.wire_setWire_self] at hrx htx
  rw [htake, Wire.hopeless, hrx]
  simpa using htx.trans ht

/-- A flit behind a discarded one is discarded, and counted as resent too (R324, R383). -/
theorem State.flit_behind (hq : (s.wire l).received < f.seq) (hr : 0 < (s.wire l).rxTries) (h64 : (s.wire l).rxTries ≤ 64) :
    s.flit l fixed true f = (((s.flitCounted l fixed).bump (linkRegs l).2.2.2 1).acknowledged l f).afterFlit l := by
  have htake := State.takeFlit_good (s := s) (l := l) (fixed := fixed) (f := f)
  rw [if_neg hq.ne', if_pos ⟨hq, hr⟩] at htake
  refine (State.flit_taken hu ?_).trans (congrArg (State.afterFlit · l) htake)
  obtain ⟨hrx, htx⟩ := State.acknowledged_tries ((s.flitCounted l fixed).bump (linkRegs l).2.2.2 1) l hf
  rw [State.wire_bump, State.wire_flitCounted] at hrx htx
  rw [htake, Wire.hopeless, hrx]
  simpa using ⟨h64, htx.trans ht⟩

end
end

end Sys2Proof.Machine
end

section
/-! PROOFS. Completion queues at the link: the host's head, and entries that wait for room (R339 to R342, R365). -/

namespace Sys2Proof.Machine

open Sys2Proof

theorem exec_cqWaitTimeout (p c : Nat) (s : State) : exec (.cqWaitTimeout p c) s = execCqWaitTimeout p c s := rfl

theorem State.cq_of_host {s t : State} (h : t.host = s.host) (p c : Nat) : t.cq p c = s.cq p c := by rw [State.cq, h, State.cq]
@[simp] theorem State.cq_setCq_self (s : State) (p c : Nat) (k : CqState) : (s.setCq p c k).cq p c = k := lookD_put_self ..

/-! ### An error on a fence that nothing waits on -/

section
variable {s : State} {f : Nat} {k : Fence}

@[simp] theorem State.pushFence_objs : (s.pushFence f k).objs = s.objs :=
  Area.same_of_keeps (fun _ w => State.pushFence_keeps w (Keeps.refl s)) .objs (by decide)
@[simp] theorem State.pushFence_host : (s.pushFence f k).host = s.host :=
  Area.same_of_keeps (fun _ w => State.pushFence_keeps w (Keeps.refl s)) .host (by decide)

/-- A change of a fence that no event and no queue waits on is pushed to its proxies, and nothing follows it. -/
theorem State.wake_quiet (hf : s.fence f = some k) (he : s.objs.events = []) (hq : s.objs.queues = []) : s.wake [f] = s.pushFence f k := by
  have hfuel : s.wakeFuel [f] = 1 := by simp [State.wakeFuel, hq]
  have hdue : (s.pushFence f k).dueEvents f k = [] := by simp [State.dueEvents, he]
  have hwait : (s.pushFence f k).waitingOn f = [] := by simp [State.waitingOn, hq]
  have hwake : s.wakeFence f = (s.pushFence f k, []) := by simp only [State.wakeFence, hf, hdue, hwait, List.foldl_nil]
  simp only [State.wake, hfuel, State.wakeAll, hwake]

theorem State.fence_modFence (s : State) (f h : Nat) (g : Fence → Fence) :
    (s.modFence f g).fence h = (s.fence h).map fun k => if h = f then g k else k :=
  look_upd ..

/-- The log entries of an error change contexts alone. -/
theorem State.logFenceErr_eq (s : State) (f code : Nat) (by_ : Option Nat) (prop : Bool) (node detail : Nat) (src : LogSrc) :
    s.logFenceErr f code by_ prop node detail src =
      s.modObjs fun o => { o with ctxs := (s.logFenceErr f code by_ prop node detail src).objs.ctxs } := by
  unfold State.logFenceErr
  split
  · dsimp only
    split_ifs <;> rfl
  · rfl
  · rfl

/-- A fence that was not in error and that an error is attached to. -/
def Fence.failed (k : Fence) (code : Nat) (by_ : Option Nat) : Fence :=
  { k with err := code, value := BitVec.ofNat 64 errorValue, origin := by_ }

/-- An error attached to a fence that nothing waits on puts it into the error state, and leaves the host's side as it is. -/
theorem State.fenceError_quiet {code detail : Nat} {by_ : Option Nat} {src : LogSrc} (hf : s.fence f = some k) (hk : k.err = 0)
    (he : s.objs.events = []) (hq : s.objs.queues = []) :
    (s.fenceError f code by_ detail src).fence f = some (k.failed code by_) ∧ (s.fenceError f code by_ detail src).host = s.host := by
  set t := (s.setFenceErr f code by_).logFenceErr f code by_ false s.node detail src with ht
  have hobjs := State.logFenceErr_eq (s.setFenceErr f code by_) f code by_ false s.node detail src
  rw [← ht] at hobjs
  have htf : t.fence f = some (k.failed code by_) := by
    have hset : (s.setFenceErr f code by_).fence f = some (k.failed code by_) := by
      rw [State.setFenceErr, State.fence_modFence, hf, Option.map_some, if_pos rfl, if_pos hk]
      rfl
    rw [hobjs]
    exact hset
  have hwake : s.fenceError f code by_ detail src = t.pushFence f (k.failed code by_) := by
    rw [← State.wake_quiet htf (by rw [hobjs]; exact he) (by rw [hobjs]; exact hq)]
    simp only [State.fenceError, State.fenceErrorAt, State.attachError, hf, hk, beq_self_eq_true, if_true]
    rw [ht]
  rw [hwake]
  refine ⟨?_, ?_⟩
  · rw [State.fence, State.pushFence_objs]
    exact htf
  · rw [State.pushFence_host, hobjs]
    rfl

end

/-! ### CQ_HEAD_WRITE and CQ_WAIT_TIMEOUT -/

section
variable {s : State} {p c : Nat}

theorem exec_cqHeadWrite_up (hp : p < 4) (hc : c < 256) (hu : (s.port p).up = true) (v : W32) :
    exec (.cqHeadWrite p c v) s = .next ((s.setReg (offCq p c 8) v.toNat).cqDrain (s.cq p c).waiting.length p c) :=
  congrArg Host.Outcome.next (if_neg (by simp [hp, hc, hu]))

theorem exec_cqWaitTimeout_empty (h : (s.cq p c).waiting = []) : exec (.cqWaitTimeout p c) s = .next s := by
  simp only [exec_cqWaitTimeout, execCqWaitTimeout, h]

section
variable {e : CqEntry} {rest : List CqEntry} (hw : (s.cq p c).waiting = e :: rest)
include hw

/-- The wait of the first entry ends, but for a result at a port that is down and for an entry that has room. -/
theorem exec_cqWaitTimeout_waiting :
    exec (.cqWaitTimeout p c) s = .next
      (if (!(s.port p).up && e.kind == 3 || (s.cqRoom p c e.data.length).isSome) = true then s
      else ((s.setCq p c { s.cq p c with waiting := rest.filter fun w => w.xid != e.xid }).entryLost p e).cqDrain rest.length p c) := by
  simp only [exec_cqWaitTimeout, execCqWaitTimeout, hw]

/-- A result waits for a port that is down without limit (R342). -/
theorem exec_cqWaitTimeout_held (hu : (s.port p).up = false) (hk : e.kind = 3) : exec (.cqWaitTimeout p c) s = .next s :=
  (exec_cqWaitTimeout_waiting hw).trans (congrArg _ (if_pos (by simp [hu, hk])))

/-- An entry that has room waits for the replay buffer alone. -/
theorem exec_cqWaitTimeout_room (hr : (s.cqRoom p c e.data.length).isSome = true) : exec (.cqWaitTimeout p c) s = .next s :=
  (exec_cqWaitTimeout_waiting hw).trans (congrArg _ (if_pos (by simp [hr])))

/-- The transfer of an entry without room is dropped (R341). -/
theorem exec_cqWaitTimeout_drops (hu : (s.port p).up = true) (hr : s.cqRoom p c e.data.length = none) :
    exec (.cqWaitTimeout p c) s = .next
      (((s.setCq p c { s.cq p c with waiting := rest.filter fun w => w.xid != e.xid }).entryLost p e).cqDrain rest.length p c) :=
  (exec_cqWaitTimeout_waiting hw).trans (congrArg _ (if_neg (by simp [hu, hr])))

end

/-- The entry of a packet that is lost puts the packet's fence into the error state with CQ_FULL. -/
theorem State.entryLost_packet {e : CqEntry} {f n op q : Nat} {g : Fence} (ho : e.owner = .packet (some (f, n)) op q)
    (hf : s.fence f = some g) (hg : g.err = 0) (he : s.objs.events = []) (hq : s.objs.queues = []) :
    (s.entryLost p e).fence f = some (g.failed 0x8004 (some e.ctx)) ∧ (s.entryLost p e).host = s.host := by
  have hlost : s.entryLost p e = (s.bump (offBl p 0x68) 1).fenceError f 0x8004 (some e.ctx) 0 (op, q) := by
    simp only [State.entryLost, ho]
  rw [hlost]
  exact State.fenceError_quiet (s := s.bump (offBl p 0x68) 1) hf hg he hq

end

/-- Settles O28: a flit by whether its CRC passes and where it stands in order (`State.flit_next`, `State.flit_behind`); a wait at its
limit by whether its entry has room. -/
theorem flitsCountedAndQueuesDrained : Obligations.FlitsCountedAndQueuesDrained := by
  refine ⟨fun s l fixed ok f => ?flits, fun s p c hp hc hu => ⟨exec_cqHeadWrite_up hp hc hu, fun v hw => ?head, exec_cqWaitTimeout_empty,
    fun e rest hw => exec_cqWaitTimeout_room hw, fun e rest hw hr => exec_cqWaitTimeout_drops hw hu hr,
    fun f g n op q rest e hw ho hf hg hr hev hqu _ hrest => ?full⟩, fun s p c e rest hu hw => exec_cqWaitTimeout_held hw hu⟩
  case flits =>
    intro arrive k r hl
    have harrive (fixed ok : Bool) : arrive fixed ok = .next (s.flit l fixed ok f) := by
      cases l with
      | burob p => exact congrArg Host.Outcome.next (if_pos (hl p rfl))
      | tray j => rfl
      | scaleOut p => rfl
    refine ⟨fun hd => ⟨(harrive ..).trans (congrArg _ (State.flit_of_down hd)), exec_keepaliveSend_down hd⟩,
      fun hu => ⟨exec_keepaliveSend_up hu, ⟨fun hr ht => (harrive ..).trans (congrArg _ (State.flit_bad hu hr ht)),
          fun hr => (harrive ..).trans (congrArg _ (State.flit_bad_hopeless hu hr))⟩,
        fun hq ht hf => (harrive ..).trans (congrArg _ (State.flit_next hu ht hf hq)),
        fun hq hr h64 ht hf => (harrive ..).trans (congrArg _ (State.flit_behind hu ht hf hq hr h64))⟩⟩
  case head =>
    have hdrain := exec_cqHeadWrite_up hp hc hu v
    rw [hw] at hdrain
    refine ⟨_, hdrain, ?_, rfl, rfl, rfl, fun o ho => State.reg_setReg_ne _ _ ho⟩
    exact (State.reg_setReg_self ..).trans (Nat.mod_eq_of_lt (by omega))
  case full =>
    subst hrest
    obtain ⟨hfence, hhost⟩ := State.entryLost_packet (p := p) (s := s.setCq p c { s.cq p c with waiting := [] }) ho hf hg hev hqu
    exact ⟨_, exec_cqWaitTimeout_drops hw hu hr, (congrArg (Option.map _) hfence).trans rfl,
      congrArg CqState.waiting ((State.cq_of_host hhost p c).trans (State.cq_setCq_self ..))⟩

end Sys2Proof.Machine
end

section
/-! PROOFS. A step is the command at the front of the queue. -/

namespace Sys2Proof.Machine

open Sys2Proof

/-- Settles O52: `step` matches on the queue. -/
theorem stepRunsTheFrontCommand : Obligations.StepRunsTheFrontCommand := by
  intro s
  constructor
  · intro c rest h
    simp only [step, h]
  · intro h
    simp only [step, h]

end Sys2Proof.Machine
end

section
/-! PROOFS. What a command leaves as it is: the parts that Safety does not name for it (95_what_each_step_holds.md). -/

namespace Sys2Proof.Machine

open Sys2Proof

/-- A part that a set of commands is named for: each command that touches the part is in the set. -/
def Area.NamedBy (p : Area) (named : Instr → Bool) : Prop := ∀ c, (!(touches c).contains p || named c) = true

theorem mem_namedBy : Area.mem.NamedBy Instr.changesMemory := fun c => by cases c <;> rfl
theorem cache_namedBy : Area.cache.NamedBy Instr.changesMemory := fun c => by cases c <;> rfl
theorem hbm_namedBy : Area.hbm.NamedBy Instr.changesMemory := fun c => by cases c <;> rfl
theorem pins_namedBy : Area.pins.NamedBy Instr.changesPins := fun c => by cases c <;> rfl
theorem sec_namedBy : Area.sec.NamedBy Instr.changesSecurity := fun c => by cases c <;> rfl
theorem smb_namedBy : Area.smb.NamedBy Instr.changesSmb := fun c => by cases c <;> rfl
theorem ident_namedBy : Area.ident.NamedBy Instr.changesIdentity := fun c => by cases c <;> rfl
theorem pwr_namedBy : Area.pwr.NamedBy Instr.changesPower := fun c => by cases c <;> rfl
theorem te_namedBy : Area.te.NamedBy Instr.changesTensorUnits := fun c => by cases c <;> rfl
theorem ge_namedBy : Area.ge.NamedBy Instr.changesGroupEngines := fun c => by cases c <;> rfl
theorem staged_namedBy : Area.staged.NamedBy Instr.wipesOrWritesControl := fun c => by cases c <;> rfl
theorem once_namedBy : Area.once.NamedBy Instr.wipesOrWritesControl := fun c => by cases c <;> rfl

/-- A command that is not named for a part leaves it. -/
theorem Area.NamedBy.same {p : Area} {named : Instr → Bool} (hp : p.NamedBy named) {c : Instr} {s t : State} (e : exec c s = .next t)
    (hn : named c = false) : p.same s t :=
  exec_same e p (by simpa [hn] using hp c)

/-- What an agent sees is decided by memory and the cache over it. -/
theorem State.seeByte_of_same {s t : State} (hm : t.mem = s.mem) (hc : t.cache = s.cache) (a : Nat) : t.seeByte a = s.seeByte a := by
  simp only [State.seeByte, State.line, hm, hc]

/-- Settles O57: each part is touched by the commands named for it alone (`Area.NamedBy`), so `exec_same` holds of every other command. -/
theorem commandsLeaveTheRest : Obligations.CommandsLeaveTheRest := by
  intro c s t e
  refine ⟨(exec_next e).pending, fun h => ?memory, fun h => ?pins, sec_namedBy.same e, smb_namedBy.same e, ident_namedBy.same e,
    pwr_namedBy.same e, te_namedBy.same e, ge_namedBy.same e, fun h => ⟨staged_namedBy.same e h, once_namedBy.same e h⟩⟩
  case memory =>
    have hm : t.mem = s.mem := mem_namedBy.same e h
    have hc : t.cache = s.cache := cache_namedBy.same e h
    exact ⟨hm, hc, hbm_namedBy.same e h, State.seeByte_of_same hm hc⟩
  case pins =>
    have hp : t.pins = s.pins := pins_namedBy.same e h
    exact ⟨hp, by rw [State.node, State.node, hp], by rw [State.alive, State.alive, hp]⟩

end Sys2Proof.Machine
end

section
/-! PROOFS. What only a life-cycle change and the dusk domain's start move: the life-cycle state with its count (R504, R505), and the straps
that give the node id (R386, R551). -/

namespace Sys2Proof.Machine

open Sys2Proof

/-- The life-cycle state, the count of its changes, and the sampled slot and tray straps. -/
def State.standing (s : State) : (LcState × Nat) × Nat × Nat :=
  ((s.sec.lc, s.sec.lcCount), s.pins.strapSlot, s.pins.strapTray)

/-- An operation that may touch neither the security block nor the pins leaves what stands. -/
theorem State.standing_of_keeps {s t : State} {l : List Area} (h : ∀ F, Free F l → Keeps F s t)
    (hl : (!l.contains .sec && !l.contains .pins) = true) : t.standing = s.standing := by
  simp only [Bool.and_eq_true, Bool.not_eq_true', List.contains_eq_mem, decide_eq_false_iff_not] at hl
  have hs : t.sec = s.sec := Area.same_of_keeps h .sec hl.1
  have hp : t.pins = s.pins := Area.same_of_keeps h .pins hl.2
  simp only [State.standing, hs, hp]

theorem State.standing_foldl {α : Type} {f : State → α → State} (h : ∀ t e, (f t e).standing = t.standing) (l : List α) (s : State) :
    (l.foldl f s).standing = s.standing := by
  induction l generalizing s with
  | nil => rfl
  | cons e l ih => exact (ih (f s e)).trans (h s e)

@[simp] theorem State.standing_ite {c : Prop} [Decidable c] (a b : State) :
    (if c then a else b).standing = if c then a.standing else b.standing := apply_ite State.standing ..

/-! ### Operations that touch neither the security block nor the pins -/

section
variable (s : State)

@[simp] theorem State.standing_raise (code : Nat) (payload : List Byte) : (s.raise code payload).standing = s.standing := rfl
@[simp] theorem State.standing_bump (off : Nat) (n : Nat) : (s.bump off n).standing = s.standing := rfl
@[simp] theorem State.standing_setField (off : Nat) (lo : Nat) (w : Nat) (v : Nat) : (s.setField off lo w v).standing = s.standing := rfl
@[simp] theorem State.standing_setBit (off : Nat) (k : Nat) : (s.setBit off k).standing = s.standing := rfl
@[simp] theorem State.standing_setReg (off : Nat) (v : Nat) : (s.setReg off v).standing = s.standing := rfl
@[simp] theorem State.standing_modRecd (f : Recorder → Recorder) : (s.modRecd f).standing = s.standing := rfl
@[simp] theorem State.standing_modPwr (f : Power → Power) : (s.modPwr f).standing = s.standing := rfl
@[simp] theorem State.standing_adopt (off : Nat) (lo : Nat) (w : Nat) : (s.adopt off lo w).standing = s.standing :=
  State.standing_of_keeps (fun _ w => State.adopt_keeps w (Keeps.refl s)) rfl
@[simp] theorem State.standing_holdCaps : (s.holdCaps).standing = s.standing :=
  State.standing_of_keeps (fun _ w => State.holdCaps_keeps w (Keeps.refl s)) rfl
@[simp] theorem State.standing_thermFalls (temp : Option Nat) : (s.thermFalls temp).standing = s.standing :=
  State.standing_of_keeps (fun _ w => State.thermFalls_keeps w (Keeps.refl s)) rfl
@[simp] theorem State.standing_setBucket (code : Nat) (b : Bucket) : (s.setBucket code b).standing = s.standing := rfl
@[simp] theorem State.standing_ringPut (code : Nat) (bytes : List Byte) : (s.ringPut code bytes).standing = s.standing :=
  State.standing_of_keeps (fun _ w => State.ringPut_keeps w (Keeps.refl s)) rfl
@[simp] theorem State.standing_startFlush : (s.startFlush).standing = s.standing :=
  State.standing_of_keeps (fun _ w => State.startFlush_keeps w (Keeps.refl s)) rfl
@[simp] theorem State.standing_suppress (code : Nat) : (s.suppress code).standing = s.standing :=
  State.standing_of_keeps (fun _ w => State.suppress_keeps w (Keeps.refl s)) rfl
@[simp] theorem State.standing_refill : (s.refill).standing = s.standing :=
  State.standing_of_keeps (fun _ w => State.refill_keeps w (Keeps.refl s)) rfl
@[simp] theorem State.standing_risk (o : MinuteObs) : (s.risk o).standing = s.standing :=
  State.standing_of_keeps (fun _ w => State.risk_keeps w (Keeps.refl s)) rfl
@[simp] theorem State.standing_sparing (o : MinuteObs) : (s.sparing o).standing = s.standing :=
  State.standing_of_keeps (fun _ w => State.sparing_keeps w (Keeps.refl s)) rfl
@[simp] theorem State.standing_wakeDie (d : Nat) : (s.wakeDie d).standing = s.standing :=
  State.standing_of_keeps (fun _ w => State.wakeDie_keeps w (Keeps.refl s)) rfl
@[simp] theorem State.standing_countGated : (s.countGated).standing = s.standing :=
  State.standing_of_keeps (fun _ w => State.countGated_keeps w (Keeps.refl s)) rfl
@[simp] theorem State.standing_divide (o : SlowObs) (b : Nat) : (s.divide o b).standing = s.standing :=
  State.standing_of_keeps (fun _ w => State.divide_keeps w (Keeps.refl s)) rfl
@[simp] theorem State.standing_meter (o : SlowObs) : (s.meter o).standing = s.standing :=
  State.standing_of_keeps (fun _ w => State.meter_keeps w (Keeps.refl s)) rfl
@[simp] theorem State.standing_dropPending : (s.dropPending).standing = s.standing :=
  State.standing_of_keeps (fun _ w => State.dropPending_keeps w (Keeps.refl s)) rfl
@[simp] theorem State.standing_hubLanesOut (h : Nat) : (s.hubLanesOut h).standing = s.standing :=
  State.standing_of_keeps (fun _ w => State.hubLanesOut_keeps w (Keeps.refl s)) rfl
@[simp] theorem State.standing_hubLanesBack (h : Nat) : (s.hubLanesBack h).standing = s.standing :=
  State.standing_of_keeps (fun _ w => State.hubLanesBack_keeps w (Keeps.refl s)) rfl
@[simp] theorem State.standing_startTraining : (s.startTraining).standing = s.standing :=
  State.standing_of_keeps (fun _ w => State.startTraining_keeps w (Keeps.refl s)) rfl
@[simp] theorem State.standing_writeFields (off : Nat) (w : Win) (o : Nat) (r : RegSpec) (v : Nat) : (s.writeFields off w o r v).standing = s.standing :=
  State.standing_of_keeps (fun _ w => State.writeFields_keeps w (Keeps.refl s)) rfl
@[simp] theorem State.standing_keySet (off : Nat) (v : Nat) : (s.keySet off v).standing = s.standing :=
  State.standing_of_keeps (fun _ w => State.keySet_keeps w (Keeps.refl s)) rfl
@[simp] theorem State.standing_holdIdles (d : Nat) : (s.holdIdles d).standing = s.standing :=
  State.standing_of_keeps (fun _ w => State.holdIdles_keeps w (Keeps.refl s)) rfl
@[simp] theorem State.standing_smbNote (refused : Bool) (unpowered : Bool) (n : Nat) : (s.smbNote refused unpowered n).standing = s.standing :=
  State.standing_of_keeps (fun _ w => State.smbNote_keeps w (Keeps.refl s)) rfl
@[simp] theorem State.standing_waitForPages (t : State) : (s.waitForPages t).standing = s.standing :=
  State.standing_of_keeps (fun _ w => State.waitForPages_keeps w (Keeps.refl s)) rfl
@[simp] theorem State.standing_twinTouch (a : Nat) : (s.twinTouch a).standing = s.standing :=
  State.standing_of_keeps (fun _ w => State.twinTouch_keeps w (Keeps.refl s)) rfl
@[simp] theorem State.standing_hbmWrite (a : Nat) (bytes : List Byte) : (s.hbmWrite a bytes).standing = s.standing :=
  State.standing_of_keeps (fun _ w => State.hbmWrite_keeps w (Keeps.refl s)) rfl
@[simp] theorem State.standing_respond (h : FabHdr) (code : Nat) (data : List Byte) : (s.respond h code data).standing = s.standing :=
  State.standing_of_keeps (fun _ w => State.respond_keeps w (Keeps.refl s)) rfl
@[simp] theorem State.standing_reject (h : FabHdr) (code : Nat) : (s.reject h code).standing = s.standing :=
  State.standing_of_keeps (fun _ w => State.reject_keeps w (Keeps.refl s)) rfl
@[simp] theorem State.standing_noteStore (h : FabHdr) (code : Nat) : (s.noteStore h code).standing = s.standing :=
  State.standing_of_keeps (fun _ w => State.noteStore_keeps w (Keeps.refl s)) rfl
@[simp] theorem State.standing_holdRequest (c : Nat) (load : Bool) (h : FabHdr) (a : Nat) (l : List (Nat × Byte)) : (s.holdRequest c load h a l).standing = s.standing :=
  State.standing_of_keeps (fun _ w => State.holdRequest_keeps w (Keeps.refl s)) rfl
@[simp] theorem State.standing_storeLine (l : List Piece) (bytes : List (Nat × Byte)) : (s.storeLine l bytes).standing = s.standing :=
  State.standing_of_keeps (fun _ w => State.storeLine_keeps w (Keeps.refl s)) rfl
@[simp] theorem State.standing_cqSet (p : Nat) (c : Nat) (was : Bool) : (s.cqSet p c was).standing = s.standing :=
  State.standing_of_keeps (fun _ w => State.cqSet_keeps w (Keeps.refl s)) rfl
@[simp] theorem State.standing_cqDrain (n : Nat) (p : Nat) (c : Nat) : (s.cqDrain n p c).standing = s.standing :=
  State.standing_of_keeps (fun _ w => State.cqDrain_keeps w (Keeps.refl s)) rfl
@[simp] theorem State.standing_setRisk (level : Nat) : (s.setRisk level).standing = s.standing :=
  State.standing_of_keeps (fun _ w => State.setRisk_keeps w (Keeps.refl s)) rfl
@[simp] theorem State.standing_startReplace (c : Nat) : (s.startReplace c).standing = s.standing :=
  State.standing_of_keeps (fun _ w => State.startReplace_keeps w (Keeps.refl s)) rfl
@[simp] theorem State.standing_adoptSpread (d : Nat) : (s.adoptSpread d).standing = s.standing :=
  State.standing_of_keeps (fun _ w => State.adoptSpread_keeps w (Keeps.refl s)) rfl
@[simp] theorem State.standing_pumpAll : (s.pumpAll).standing = s.standing :=
  State.standing_of_keeps (fun _ w => State.pumpAll_keeps w (Keeps.refl s)) rfl
@[simp] theorem State.standing_sweepOut : (s.sweepOut).standing = s.standing :=
  State.standing_of_keeps (fun _ w => State.sweepOut_keeps w (Keeps.refl s)) rfl
@[simp] theorem State.standing_updateRoute (t : Nat) : (s.updateRoute t).standing = s.standing :=
  State.standing_of_keeps (fun _ w => State.updateRoute_keeps w (Keeps.refl s)) rfl
@[simp] theorem State.standing_pairCtl (v : Nat) : (s.pairCtl v).standing = s.standing :=
  State.standing_of_keeps (fun _ w => State.pairCtl_keeps w (Keeps.refl s)) rfl
@[simp] theorem State.standing_poolSet : (s.poolSet).standing = s.standing :=
  State.standing_of_keeps (fun _ w => State.poolSet_keeps w (Keeps.refl s)) rfl
@[simp] theorem State.standing_restoreAsked (e : Nat) : (s.restoreAsked e).standing = s.standing :=
  State.standing_of_keeps (fun _ w => State.restoreAsked_keeps w (Keeps.refl s)) rfl
@[simp] theorem State.standing_evCtl (v : Nat) : (s.evCtl v).standing = s.standing :=
  State.standing_of_keeps (fun _ w => State.evCtl_keeps w (Keeps.refl s)) rfl
@[simp] theorem State.standing_rateSet (v : Nat) : (s.rateSet v).standing = s.standing :=
  State.standing_of_keeps (fun _ w => State.rateSet_keeps w (Keeps.refl s)) rfl
@[simp] theorem State.standing_startLookup (w : Nat) (n : W64) : (s.startLookup w n).standing = s.standing :=
  State.standing_of_keeps (fun _ w => State.startLookup_keeps w (Keeps.refl s)) rfl
@[simp] theorem State.standing_adoptRate (unit : Nat) : (s.adoptRate unit).standing = s.standing :=
  State.standing_of_keeps (fun _ w => State.adoptRate_keeps w (Keeps.refl s)) rfl
@[simp] theorem State.standing_adoptCap (p : Nat) : (s.adoptCap p).standing = s.standing :=
  State.standing_of_keeps (fun _ w => State.adoptCap_keeps w (Keeps.refl s)) rfl
@[simp] theorem State.standing_modSmb (f : Smb → Smb) : (s.modSmb f).standing = s.standing := rfl
@[simp] theorem State.standing_draw : s.draw.2.standing = s.standing := rfl
@[simp] theorem State.standing_drawBytes (n : Nat) : (s.drawBytes n).2.standing = s.standing :=
  State.standing_of_keeps (fun _ w => State.drawBytes_keeps w (Keeps.refl s)) rfl

end

/-! ### Operations on the pins -/

section
variable (s : State)

@[simp] theorem State.standing_modPins {f : Pins → Pins} (h : ∀ p, (f p).strapSlot = p.strapSlot ∧ (f p).strapTray = p.strapTray) :
    (s.modPins f).standing = s.standing := by
  simp only [State.standing, State.modPins, h]

@[simp] theorem State.standing_tryPower : s.tryPower.standing = s.standing := by
  unfold State.tryPower
  dsimp only
  split
  · exact s.standing_modPins fun _ => ⟨rfl, rfl⟩
  · rfl

@[simp] theorem State.standing_driveTherm (low : Bool) (temp : Nat) : (s.driveTherm low temp).standing = s.standing := by
  have hm := s.standing_modPins (f := fun p => { p with thermModule := low }) fun _ => ⟨rfl, rfl⟩
  unfold State.driveTherm
  dsimp only
  split
  · exact (State.standing_thermFalls ..).trans hm
  · exact hm

@[simp] theorem State.standing_makeRecord (e : RawEvent) : (s.makeRecord e).standing = s.standing := by
  unfold State.makeRecord
  dsimp only
  rw [apply_ite State.standing, State.standing_startFlush, ite_self, apply_ite State.standing, State.standing_modRecd, ite_self,
    apply_ite State.standing]
  split <;> exact (State.standing_adopt ..).trans (by simp)

end

/-! ### Operations on the security block -/

section
variable (s : State)

@[simp] theorem State.standing_modSec {f : Sec → Sec} (h : ∀ c, (f c).lc = c.lc ∧ (f c).lcCount = c.lcCount) : (s.modSec f).standing = s.standing := by
  simp only [State.standing, State.modSec, h]

@[simp] theorem State.standing_modFw (u : Nat) (f : FwUnit → FwUnit) : (s.modFw u f).standing = s.standing := rfl

@[simp] theorem State.standing_writeDir : s.writeDir.standing = s.standing := rfl

@[simp] theorem State.standing_readDir : s.readDir.standing = s.standing := by
  unfold State.readDir
  split <;> rfl

@[simp] theorem State.standing_modHot (f : UpdState → UpdState) : (s.modHot f).standing = s.standing := rfl

@[simp] theorem State.standing_wipeAll : s.wipeAll.standing = s.standing := by
  unfold State.wipeAll
  split
  · exact State.standing_holdCaps _
  · rfl

@[simp] theorem State.standing_scReset : s.scReset.standing = s.standing := rfl

@[simp] theorem State.standing_regsReset : s.regsReset.standing = s.standing := rfl

@[simp] theorem State.standing_unwrapKey : s.unwrapKey.standing = s.standing := rfl

@[simp] theorem State.standing_chooseHubs : s.chooseHubs.standing = s.standing := rfl

@[simp] theorem State.standing_beginBoot : s.beginBoot.standing = s.standing := by
  simp [State.beginBoot]

@[simp] theorem State.standing_powerDown : s.powerDown.standing = s.standing := by
  unfold State.powerDown
  split
  · simp only [State.standing_startFlush, State.standing_dropPending, State.standing_modPins, State.standing_wipeAll, implies_true, and_self]
    rfl
  · rfl

@[simp] theorem State.standing_failover (h : Nat) : (s.failover h).standing = s.standing := by
  unfold State.failover
  simp

@[simp] theorem State.standing_hubGo (h : Nat) : (s.hubGo h).standing = s.standing := by
  unfold State.hubGo
  split
  · exact s.standing_modSec fun _ => ⟨rfl, rfl⟩
  · simp

@[simp] theorem State.standing_finishChange : s.finishChange.standing = s.standing := by
  unfold State.finishChange
  dsimp only
  split
  · rfl
  · rw [State.standing_raise, State.standing_writeDir]
    split
    · simp
    · split <;> simp

@[simp] theorem State.standing_dropTrials (u : Nat) : (s.dropTrials u).standing = s.standing := by
  refine State.standing_foldl (fun t b => ?_) ..
  dsimp only
  split <;> simp

theorem State.standing_trySlots (l : List Bool) (u : Nat) : (State.trySlots l u s).standing = s.standing := by
  induction l generalizing s with
  | nil => rfl
  | cons b bs ih =>
    unfold State.trySlots
    extract_lets code s1
    split
    · rfl
    · exact (ih _).trans (State.standing_raise ..)

@[simp] theorem State.standing_bootUnit (u : Nat) : (s.bootUnit u).standing = s.standing := by
  unfold State.bootUnit
  split
  · rfl
  · exact (State.standing_trySlots ..).trans (s.standing_dropTrials u)

/-- The units boot one after another. -/
@[simp] theorem State.standing_bootUnits (l : List Nat) : (l.foldl (fun (t : State) u => t.bootUnit u) s).standing = s.standing :=
  State.standing_foldl State.standing_bootUnit l s

@[simp] theorem State.standing_keepDir (t : State) : (s.keepDir t).standing = t.standing := by
  unfold State.keepDir
  split <;> rfl

@[simp] theorem State.standing_slotBytesNow (l : List Nat) : (State.slotBytesNow l s).2.standing = s.standing :=
  State.standing_of_keeps (fun _ w => State.slotBytesNow_keeps w (Keeps.refl s)) rfl

@[simp] theorem State.standing_report (p : Nat) : (s.report p).2.standing = s.standing :=
  State.standing_of_keeps (fun _ w => State.report_keeps w (Keeps.refl s)) rfl

@[simp] theorem State.standing_updFails (code : Nat) : (s.updFails code).standing = s.standing := rfl

@[simp] theorem State.standing_updStart (u : Nat) (b : Bool) (image : List Byte) (inPlace : Bool) :
    (s.updStart u b image inPlace).standing = s.standing := by
  unfold State.updStart
  split <;> rfl

@[simp] theorem State.standing_updGo : s.updGo.standing = s.standing := by
  unfold State.updGo
  split
  · rfl
  · split <;> simp

@[simp] theorem State.standing_duskMoves : s.duskMoves.standing = s.standing := by
  unfold State.duskMoves
  split <;> rfl

@[simp] theorem State.standing_activate : s.activate.standing = s.standing := by
  have h1 : (if s.sec.upd.unit = 0 then s.duskMoves else s).standing = s.standing := by split <;> simp
  unfold State.activate
  dsimp only
  split <;> simp [h1]

@[simp] theorem State.standing_updCommit (raiseMin : Bool) : (s.updCommit raiseMin).standing = s.standing := by
  unfold State.updCommit
  dsimp only
  split <;> simp

@[simp] theorem State.standing_updAbort : s.updAbort.standing = s.standing := by
  unfold State.updAbort
  dsimp only
  split <;> simp

@[simp] theorem State.standing_updCtl (v : Nat) : (s.updCtl v).standing = s.standing := by
  have h1 : (if bit v 0 then s.updGo else s).standing = s.standing := by split <;> simp
  have h2 (t : State) : (if bit v 1 then t.updCommit (bit v 2) else t).standing = t.standing := by split <;> simp
  unfold State.updCtl
  dsimp only
  split <;> simp [h2, h1]

@[simp] theorem State.standing_flashGo (erase : Bool) : (s.flashGo erase).standing = s.standing := by
  unfold State.flashGo
  split
  · rfl
  · split <;> rfl

@[simp] theorem State.standing_slotChanged (o : Nat) : (s.slotChanged o).standing = s.standing := by
  unfold State.slotChanged
  split <;> rfl

@[simp] theorem State.standing_setMailbox (p : Nat) (m : Mailbox) : (s.setMailbox p m).standing = s.standing := rfl

@[simp] theorem State.standing_attGo (p : Nat) : (s.attGo p).standing = s.standing := by
  unfold State.attGo
  dsimp only
  split
  · rfl
  · split <;> rfl

@[simp] theorem State.standing_byteWinWrite (b : ByteWin) (k : Nat) (bytes : List Byte) : (s.byteWinWrite b k bytes).standing = s.standing := by
  cases b with
  | flashData =>
    unfold State.byteWinWrite
    dsimp only
    split <;> rfl
  | _ => rfl

end

end Sys2Proof.Machine
end

section
/-! PROOFS. The life cycle and the straps over every command: a change of the life cycle is one that LC_GO makes (R504 to R506), and the
straps are sampled by DUSK_READY alone (R386, R551). -/

namespace Sys2Proof.Machine

open Sys2Proof

/-- What changes of the life cycle make of a state: the straps stay, BLANK is not entered, the count rises with a change up to 255, and at 255
only RETIRED is entered. -/
structure Moves (s t : State) : Prop where
  straps : t.pins.strapSlot = s.pins.strapSlot ∧ t.pins.strapTray = s.pins.strapTray
  blank : t.sec.lc = .blank → s.sec.lc = .blank
  count : s.sec.lcCount ≤ 255 → s.sec.lcCount ≤ t.sec.lcCount ∧ t.sec.lcCount ≤ 255
  counted : s.sec.lcCount ≤ 255 → t.sec.lc ≠ s.sec.lc → s.sec.lcCount < t.sec.lcCount ∨ t.sec.lcCount = 255
  spent : s.sec.lcCount = 255 → t.sec.lc = s.sec.lc ∨ t.sec.lc = .retired

theorem State.standing_iff {s t : State} : t.standing = s.standing ↔ (t.sec.lc = s.sec.lc ∧ t.sec.lcCount = s.sec.lcCount) ∧
    t.pins.strapSlot = s.pins.strapSlot ∧ t.pins.strapTray = s.pins.strapTray := by
  simp only [State.standing, Prod.mk.injEq]

theorem Moves.of_standing {s t : State} (h : t.standing = s.standing) : Moves s t := by
  obtain ⟨⟨hl, hn⟩, hp⟩ := State.standing_iff.mp h
  exact ⟨hp, fun e => hl ▸ e, fun b => by omega, fun _ ne => absurd hl ne, fun _ => .inl hl⟩

theorem Moves.refl (s : State) : Moves s s := Moves.of_standing rfl

theorem Moves.trans {s t u : State} (a : Moves s t) (b : Moves t u) : Moves s u where
  straps := ⟨b.straps.1.trans a.straps.1, b.straps.2.trans a.straps.2⟩
  blank e := a.blank (b.blank e)
  count h := ⟨(a.count h).1.trans (b.count (a.count h).2).1, (b.count (a.count h).2).2⟩
  counted h ne := by
    obtain ⟨hst, ht⟩ := a.count h
    obtain ⟨htu, hu⟩ := b.count ht
    by_cases hl : t.sec.lc = s.sec.lc
    · have := b.counted ht (hl ▸ ne)
      omega
    · have := a.counted h hl
      omega
  spent h := by
    obtain ⟨hst, ht⟩ := a.count h.le
    have htop : t.sec.lcCount = 255 := by omega
    rcases b.spent htop with hu | hu
    · exact hu ▸ a.spent h
    · exact .inr hu

theorem Moves.ite {s a b : State} {c : Prop} [Decidable c] (ha : Moves s a) (hb : Moves s b) : Moves s (if c then a else b) := by
  split <;> assumption

theorem Moves.foldl {α : Type} {f : State → α → State} (h : ∀ t e, Moves t (f t e)) (l : List α) (s : State) : Moves s (l.foldl f s) := by
  induction l generalizing s with
  | nil => exact Moves.refl s
  | cons e l ih => exact (h s e).trans (ih (f s e))

/-! ### The change that a token makes (R505, R506) -/

/-- No transition enters BLANK. -/
theorem transition_blank (a : LcState) : transition a .blank = none := by cases a <;> rfl

/-- A check passed: what comes after it decides. -/
theorem ite_error_eq_ok {ε α : Type} {c : Prop} [Decidable c] {e : ε} {r : Except ε α} {a : α} :
    (if c then .error e else r) = .ok a ↔ ¬c ∧ r = .ok a := by
  split <;> simp [*]

/-- A token that passes its checks names a transition of R505; at 255 changes, one to RETIRED. -/
theorem State.checkToken_ok {s : State} {t : List Byte} {to_ : LcState} {record : Bool} (h : s.checkToken t = .ok (to_, record)) :
    transition s.sec.lc to_ ≠ none ∧ (s.sec.lcCount = 255 → to_ = .retired) := by
  simp only [State.checkToken] at h
  split at h
  · cases h
  · split at h
    · cases h
    · split at h
      · cases h
      · rename_i to' _ o r htr
        simp only [ite_error_eq_ok] at h
        obtain ⟨hret, -, -, -, -, he⟩ := h
        cases he
        exact ⟨by simp [htr], fun hc => by_contra fun hn => hret ⟨hc, hn⟩⟩

/-- A token that is taken writes the state it names and raises the count up to 255. -/
theorem State.standing_lcGo {s : State} {to_ : LcState} {record : Bool} (hc : s.changing = false)
    (h : s.checkToken (tabBytes s.sec.token 256) = .ok (to_, record)) :
    s.lcGo.standing = ((to_, min 255 (s.sec.lcCount + 1)), s.pins.strapSlot, s.pins.strapTray) := by
  simp only [State.lcGo, hc, h, Bool.false_eq_true, if_false, State.standing_modPins, State.standing_writeDir, State.standing_wipeAll,
    implies_true, and_self]
  rfl

/-- A token that is not taken leaves what stands. -/
theorem State.standing_lcGo_refused {s : State} (h : s.changing = true ∨ ∃ code, s.checkToken (tabBytes s.sec.token 256) = .error code) :
    s.lcGo.standing = s.standing := by
  unfold State.lcGo
  split
  · rfl
  · next hc =>
    obtain ⟨code, he⟩ := h.resolve_left hc
    simp only [he]
    rfl

theorem State.lcGo_moves (s : State) : Moves s s.lcGo := by
  cases hc : s.changing with
  | true => exact Moves.of_standing (State.standing_lcGo_refused (.inl hc))
  | false =>
    cases ht : s.checkToken (tabBytes s.sec.token 256) with
    | error code => exact Moves.of_standing (State.standing_lcGo_refused (.inr ⟨code, ht⟩))
    | ok e =>
      obtain ⟨htr, hret⟩ := State.checkToken_ok ht
      have hst := State.standing_lcGo hc ht
      simp only [State.standing, Prod.mk.injEq] at hst
      obtain ⟨⟨hl, hn⟩, hp⟩ := hst
      exact
        { straps := hp
          blank := fun hb => absurd (hl.symm.trans hb ▸ transition_blank _) htr
          count := by omega
          counted := by omega
          spent := fun h => .inr (hl.trans (hret h)) }

/-! ### Writes of the control space (R10, R506) -/

/-- A command that may touch neither the security block nor the pins, given by a register's write. -/
theorem State.standing_after {s : State} {r : Res} {l : List Area} (h : ∀ F, Free F l → KeepsRes F s r)
    (hl : (!l.contains .sec && !l.contains .pins) = true) : (after r s).standing = s.standing := by
  cases r with
  | next t => exact State.standing_of_keeps (fun F w => h F w t rfl) hl
  | fault _ => rfl
  | refused _ => rfl

/-- What a register's write sets going moves the life cycle where it is lc_go, and nothing that stands elsewhere. -/
theorem State.wrote_moves (s : State) (p : Nat) (w : Win) (o v was : Nat) : Moves s (s.wrote p w o v was) := by
  have readmits := State.standing_after (fun _ wF => execReadmit_keeps (port := p) (slot := fld v 3 3) wF (Keeps.refl s)) rfl
  have enables e := State.standing_after (fun _ wF => execProtectEnable_keeps (entry := e) wF (Keeps.refl s)) rfl
  have disables e := State.standing_after (fun _ wF => execProtectDisable_keeps (entry := e) wF (Keeps.refl s)) rfl
  have evacuates u := State.standing_after (fun _ wF => execEvacGo_keeps (unit := u) (slot := fld v 15 5) wF (Keeps.refl s)) rfl
  have spreads := State.standing_foldl (f := fun t d => t.adoptSpread d) (fun t d => State.standing_adoptSpread t d) (List.range dieCount) s
  have programs (t : State) : (if bit v 33 then t.flashGo false else t).standing = t.standing := by split <;> simp
  unfold State.wrote
  split
  case h_11 => exact Moves.ite s.lcGo_moves (Moves.refl s)
  all_goals refine Moves.of_standing ?_
  case h_1 => rw [apply_ite State.standing, readmits, ite_self]
  case h_4 => split <;> [exact enables _; exact disables _]
  case h_9 => exact spreads
  case h_10 => rw [apply_ite State.standing, evacuates, ite_self]
  all_goals simp

theorem State.writeCtl_moves (s : State) (p off width v : Nat) : Moves s (s.writeCtl p off width v) := by
  unfold State.writeCtl
  refine Moves.ite (Moves.refl s) ?_
  split
  · exact Moves.refl s
  · split
    · exact Moves.of_standing (State.standing_byteWinWrite ..)
    · split
      · exact Moves.refl s
      · refine Moves.ite (Moves.refl s) (Moves.ite (Moves.of_standing (State.standing_keySet ..)) (Moves.ite (Moves.of_standing rfl) ?_))
        dsimp only
        split
        · exact (Moves.of_standing (by simp)).trans (State.wrote_moves ..)
        · exact (Moves.of_standing (by simp)).trans (State.wrote_moves ..)

theorem State.writePort_moves (s : State) (p off width v : Nat) : Moves s (s.writePort p off width v) := by
  unfold State.writePort
  split
  · exact Moves.ite (Moves.of_standing (State.standing_bump ..)) (State.writeCtl_moves ..)
  · exact Moves.refl s

theorem State.smbWrite_moves (s : State) (width v : Nat) : Moves s (s.smbWrite width v) := by
  unfold State.smbWrite
  refine Moves.ite (Moves.refl s) ?_
  exact (Moves.ite (State.writeCtl_moves ..) (Moves.refl s)).trans (Moves.of_standing (State.standing_smbNote ..))

/-- A store into the control window is a write of each register that its bytes cover. -/
theorem State.controlWrite_moves (s : State) (off : Nat) (l : List (Nat × Byte)) : Moves s (s.controlWrite off l) := by
  refine Moves.foldl (fun t i => ?_) ..
  dsimp only
  split
  · exact Moves.ite (State.writeCtl_moves ..) ((State.writeCtl_moves ..).trans (State.writeCtl_moves ..))
  · exact State.writeCtl_moves ..
  · exact State.writeCtl_moves ..
  · exact Moves.refl t

theorem State.heldWrite_moves (s : State) (g : Held) (l : List (Nat × Byte)) : Moves s (s.heldWrite g l) := by
  cases g with
  | hbm a => exact Moves.of_standing (State.standing_foldl (fun t e => by simp) ..)
  | core a => exact Moves.of_standing rfl
  | control off => exact s.controlWrite_moves off l
  | slice => exact Moves.refl s

theorem State.storeHere_moves (s : State) (h : FabHdr) (bytes : List (Nat × Byte)) : Moves s (s.storeHere h bytes) := by
  unfold State.storeHere
  dsimp only
  split
  · split
    · exact Moves.of_standing (State.standing_reject ..)
    · split
      · exact Moves.of_standing (State.standing_holdRequest ..)
      · exact (State.heldWrite_moves ..).trans (Moves.of_standing (State.standing_respond ..))
  · split
    · exact Moves.of_standing (by simp)
    · split <;> exact Moves.of_standing (by simp)


/-! ### Every command -/

/-- The commands that may move what stands: a token taken, directly or by a write of lc_go, and the dusk domain's start. -/
def Instr.movesStanding : Instr → Bool
  | .lcGo | .duskReady .. | .registerWrite .. | .wr32 .. | .wr64 .. | .lineStore .. => true
  | _ => false

theorem standing_of_next {s t u : State} {r : Res} (e : r = .next t) (hr : r = .next u) (h : u.standing = s.standing) :
    t.standing = s.standing := by
  rw [hr] at e
  cases e
  exact h

/-- A command that touches neither the security block nor the pins leaves what stands. -/
theorem standing_of_untouched {c : Instr} {s t : State} (e : exec c s = .next t)
    (h : (!(touches c).contains .sec && !(touches c).contains .pins) = true) : t.standing = s.standing :=
  State.standing_of_keeps (fun _ w => exec_keeps c w (Keeps.refl s) t e) h

theorem exec_eventIntake_standing {s t : State} (e : exec .eventIntake s = .next t) : t.standing = s.standing := by
  refine standing_of_next e rfl ?_
  split
  · rfl
  · simp

theorem exec_operatingMinute_standing {o : MinuteObs} {s t : State} (e : exec (.operatingMinute o) s = .next t) : t.standing = s.standing := by
  refine standing_of_next e rfl ?_
  have h : (((s.refill.modRecd fun r => { r with opMinutes := r.opMinutes + 1 }).risk o).sparing o).standing = s.standing := by simp
  rw [State.standing_ite, State.standing_startFlush]
  split
  · rfl
  · exact h

theorem exec_slowLoop_standing {o : SlowObs} {s t : State} (e : exec (.slowLoop o) s = .next t) : t.standing = s.standing := by
  refine standing_of_next e rfl ?_
  simp

theorem exec_inputRise_standing {s t : State} (e : exec .inputRise s = .next t) : t.standing = s.standing := by
  refine standing_of_next e rfl ?_
  rw [State.standing_ite]
  exact ite_self _

theorem exec_inputFall_standing {s t : State} (e : exec .inputFall s = .next t) : t.standing = s.standing := by
  refine standing_of_next e rfl ?_
  rw [State.standing_ite]
  split
  · rfl
  · exact State.standing_wipeAll s

theorem exec_flashOpDone_standing {ok : Bool} {s t : State} (e : exec (.flashOpDone ok) s = .next t) : t.standing = s.standing := by
  refine standing_of_next e rfl ?_
  split
  · rfl
  · simp

theorem exec_attReportDone_standing {s t : State} (e : exec .attReportDone s = .next t) : t.standing = s.standing := by
  refine standing_of_next e rfl ?_
  split
  · rfl
  · simp

/-- Every other command leaves what stands: those that touch the security block or the pins one by one, the rest by what they touch. -/
theorem exec_standing {c : Instr} {s t : State} (e : exec c s = .next t) (hc : Instr.movesStanding c = false) : t.standing = s.standing := by
  cases c with
  | lcGo | duskReady | registerWrite | wr32 | wr64 | lineStore => cases hc
  | eventIntake => exact exec_eventIntake_standing e
  | operatingMinute => exact exec_operatingMinute_standing e
  | slowLoop => exact exec_slowLoop_standing e
  | inputRise => exact exec_inputRise_standing e
  | inputFall => exact exec_inputFall_standing e
  | flashOpDone => exact exec_flashOpDone_standing e
  | attReportDone => exact exec_attReportDone_standing e
  | hubGo | hubFailureDetected | hubSelfTestDone => exact standing_of_next e rfl (by simp)
  | pwrEnAssert | inputOperatingRange | powerGood | pwrEnDeassert | inputFault => exact standing_of_next e rfl (by simp)
  | resetNAssert | resetNRelease | bootDone | lifeCycleChangeDone => exact standing_of_next e rfl (by simp)
  | wakeNLow => exact standing_of_next e rfl (by simp [State.standing_foldl])
  | wakeNRelease | thermNLow | thermNRelease | alertResponse => exact standing_of_next e rfl (by simp)
  | updGo | updWriteDone | unitActivation | updCommit | updAbort => exact standing_of_next e rfl (by simp)
  | flashErase | flashProgram | attGo => exact standing_of_next e rfl (by simp)
  | _ => exact standing_of_untouched e rfl

/-- DUSK_READY samples the straps of the board, where the domain comes up, and leaves the life cycle. -/
theorem exec_duskReady_standing {clean : Bool} {s t : State} (e : exec (.duskReady clean) s = .next t) :
    t.standing.1 = s.standing.1 ∧
      (s.pins.inputUp = true → s.pins.duskReady = false → t.standing.2 = (s.pins.boardSlot, s.pins.boardTray)) := by
  have ht := (Host.Outcome.next.inj e).symm
  split at ht
  · next h =>
    rw [ht]
    exact ⟨rfl, fun hi hd => absurd h (by simp [hi, hd])⟩
  · rw [ht, State.standing_tryPower, State.standing_modRecd]
    exact ⟨rfl, fun _ _ => rfl⟩

theorem exec_lineStore_moves {h : FabHdr} {m : BitVec 128} {d : List Byte} {s t : State} (e : exec (.lineStore h m d) s = .next t) :
    Moves s t := by
  have hown : ∀ u : State, Moves u (u.storeHere h (storeBytes h m d)) := fun u => State.storeHere_moves ..
  rw [← Host.Outcome.next.inj e]
  unfold State.guarded
  refine Moves.ite (Moves.of_standing (State.standing_waitForPages ..)) ?_
  unfold State.receive
  refine Moves.ite (Moves.refl s) (Moves.ite (Moves.of_standing ?_) (hown s))
  exact State.standing_of_keeps (fun _ w => State.forward_keeps w (Keeps.refl s)) rfl

/-- Every command but DUSK_READY moves what stands as changes of the life cycle do. -/
theorem exec_moves {c : Instr} {s t : State} (e : exec c s = .next t) (hc : ∀ clean, c ≠ .duskReady clean) : Moves s t := by
  cases hm : Instr.movesStanding c with
  | false => exact Moves.of_standing (exec_standing e hm)
  | true =>
    cases c with
    | lcGo => exact Host.Outcome.next.inj e ▸ Moves.ite s.lcGo_moves (Moves.refl s)
    | duskReady clean => exact absurd rfl (hc clean)
    | registerWrite p o w v => exact Host.Outcome.next.inj e ▸ Moves.ite (State.writePort_moves ..) (Moves.refl s)
    | wr32 v ok => exact Host.Outcome.next.inj e ▸ Moves.ite (State.smbWrite_moves ..) (Moves.refl s)
    | wr64 v ok => exact Host.Outcome.next.inj e ▸ Moves.ite (State.smbWrite_moves ..) (Moves.refl s)
    | lineStore => exact exec_lineStore_moves e
    | _ => cases hm

/-- Settles O58: what stands holds the straps (`State.standing`); every command but DUSK_READY moves it as a change of the life cycle does,
which leaves them. -/
theorem nodeIdIsTheStraps : Obligations.NodeIdIsTheStraps := by
  refine ⟨fun _ => rfl, fun s t clean e hi hd => ?samples, fun c s t e hc => ?keeps⟩
  case samples =>
    exact Prod.mk.inj ((exec_duskReady_standing e).2 hi hd)
  case keeps =>
    obtain ⟨hs, ht⟩ := (exec_moves e hc).straps
    exact ⟨hs, ht, by rw [State.node, State.node, hs, ht]⟩

/-- The life cycle over a step: a change that `Moves` allows, or none. -/
structure LifeMoves (s t : State) : Prop where
  blank : t.sec.lc = .blank → s.sec.lc = .blank
  counted : s.sec.lcCount ≤ 255 → t.sec.lc ≠ s.sec.lc → s.sec.lcCount < t.sec.lcCount ∨ t.sec.lcCount = 255
  spent : s.sec.lcCount = 255 → t.sec.lc = s.sec.lc ∨ t.sec.lc = .retired

theorem Moves.life {s t : State} (h : Moves s t) : LifeMoves s t := ⟨h.blank, h.counted, h.spent⟩

theorem exec_lifeMoves {c : Instr} {s t : State} (e : exec c s = .next t) : LifeMoves s t := by
  by_cases hc : ∃ clean, c = .duskReady clean
  · obtain ⟨clean, rfl⟩ := hc
    have hl : t.sec.lc = s.sec.lc := (Prod.mk.inj (exec_duskReady_standing e).1).1
    exact ⟨fun hb => hl ▸ hb, fun _ ne => absurd hl ne, fun _ => .inl hl⟩
  · exact (exec_moves e (not_exists.mp hc)).life

theorem step_lifeMoves {s t : State} (e : step s = .next t) : LifeMoves s t := by
  unfold step at e
  split at e
  · rw [← Host.Outcome.next.inj e]
    exact (Moves.of_standing (State.standing_of_keeps (fun _ w => tick_keeps w (Keeps.refl s)) rfl)).life
  · next c rest _ =>
    obtain ⟨hb, hn, hs⟩ := exec_lifeMoves e
    exact ⟨hb, hn, hs⟩

/-- Settles O55: RETIRED and the count by `step_keeps`; BLANK and what a change does to the count by `step_lifeMoves`. -/
theorem lifeCycleNeverGoesBack : Obligations.LifeCycleNeverGoesBack := by
  intro s t e hc
  have k := step_keeps e
  have m := step_lifeMoves e
  exact ⟨k.retired, m.blank, (k.count hc).1, (k.count hc).2, m.counted hc, m.spent⟩

end Sys2Proof.Machine
end

section
/-! PROOFS. Signals (R336, R364, R366): a fence whose rise starts a packet that fails on the same fence. -/

namespace Sys2Proof.Machine

open Sys2Proof

/-- A packet of an unlisted opcode that waits for fence 0x100 to reach 6 and has the same fence as its own. -/
def selfWaiter : Packet :=
  { opcode := 0xFF, fenceEn := true, waitEn := true, payloadLen := 0, queue := 0, ctx := 1, key := 0, cq := 0, tag := 0, fenceId := 0x100,
    waitId := 0x100, fenceValue := 7, waitValue := 6, arg0 := 0, arg1 := 0, arg2 := 0, reserved := false, payload := [] }

/-- Fence 0x100 of context 1, at home on this device. -/
def waitedFence : Fence :=
  { owner := 1, value := 5, err := 0, held := false, shares := [], exported := none, proxies := [], home := none, origin := none }

/-- The packet is the head of the admin queue of port 0, and waits. -/
def selfWaiting : State :=
  { State.reset with
    objs := { State.reset.objs with
      fences := [(0x100, waitedFence)],
      queues := [(0, { owner := none, depth := 64, packets := [selfWaiter], running := none, headWaits := true, consumed := 0,
                       dropped := 0, record := 0 })] } }

/-- The signal of 6 meets the packet's wait; the packet fails, and its fence takes the value of the error state (R363, R366). -/
theorem signal_selfWaiting : ((selfWaiting.signal 0x100 6).fence 0x100).map (·.value.toNat) = some (2 ^ 64 - 1) := by rfl

/-- Refutes O60: the first clause has the fence at the signal's value whatever waits on it. In `selfWaiting` a packet with an opcode that is
not listed waits on the fence and has it as its own, so the signal of 6 that meets its wait leaves the fence in the error state. -/
theorem not_signalsRaiseFences : ¬ Obligations.SignalsRaiseFences := by
  intro h
  obtain ⟨hraise, -, -⟩ := h selfWaiting 0x100 6 6 waitedFence rfl rfl (by decide) (by decide)
  obtain ⟨k, hk, hv⟩ := hraise (by decide)
  have hval := signal_selfWaiting
  rw [hk, Option.map_some, hv] at hval
  exact absurd hval (by decide)

end Sys2Proof.Machine
end

section
/-! PROOFS. The power sequences (R311, R465, R481 to R483, R522, R550, R557). -/

namespace Sys2Proof.Machine

open Sys2Proof

/-! ### What holding the caps, the reset wipe and the rails' fall leave -/

section
variable (s : State)

theorem State.holdCaps_same (p : Area) (h : p ∉ [Area.cores, .pwr]) : p.same s s.holdCaps :=
  Area.same_of_keeps (fun _ w => State.holdCaps_keeps w (Keeps.refl s)) p h

@[simp] theorem State.wipeAll_mem : s.wipeAll.mem = [] := by
  unfold State.wipeAll
  split
  · exact State.holdCaps_same _ .mem (by decide)
  · rfl

@[simp] theorem State.wipeAll_objs : s.wipeAll.objs = State.reset.objs := by
  unfold State.wipeAll
  split
  · exact State.holdCaps_same _ .objs (by decide)
  · rfl

theorem State.wipeAll_same (p : Area) (h : p ∉ [Area.regs, .staged, .once, .mem, .cache, .hbm, .cores, .te, .ge, .seqs, .objs, .loader, .host, .fab, .uu, .surv, .pwr, .sec]) :
    p.same s s.wipeAll :=
  Area.same_of_keeps (fun _ w => State.wipeAll_keeps w (Keeps.refl s)) p h

@[simp] theorem State.wipeAll_pins : s.wipeAll.pins = s.pins := s.wipeAll_same .pins (by decide)
@[simp] theorem State.wipeAll_recd : s.wipeAll.recd = s.recd := s.wipeAll_same .recd (by decide)
@[simp] theorem State.wipeAll_ident : s.wipeAll.ident = s.ident := s.wipeAll_same .ident (by decide)
@[simp] theorem State.wipeAll_ticks : s.wipeAll.ticks = s.ticks := s.wipeAll_same .ticks (by decide)

/-- Where the rails are off a power-down has nothing to do. -/
theorem State.powerDown_off {s : State} (h : s.pins.railsOn = false) : s.powerDown = s := if_neg (by simp [h])

/-- The rails go off with PG, what R311 lists is wiped, and the recorder starts to flush (R482). -/
theorem State.powerDown_on {s : State} (h : s.pins.railsOn = true) :
    s.powerDown.pins = { s.pins with railsOn := false, pg := false, booting := false } ∧ s.powerDown.mem = [] ∧
      s.powerDown.objs = State.reset.objs ∧ s.powerDown.recd.flushing = true ∧ s.powerDown.recd.flash = s.recd.flash ∧
      s.powerDown.recd.intake = s.recd.intake := by
  rw [State.powerDown, if_pos h]
  simp [State.startFlush, State.dropPending, State.modRecd, State.modPins]

@[simp] theorem State.powerDown_ident : s.powerDown.ident = s.ident :=
  Area.same_of_keeps (fun _ w => State.powerDown_keeps w (Keeps.refl s)) .ident (by decide)
@[simp] theorem State.powerDown_ticks : s.powerDown.ticks = s.ticks :=
  Area.same_of_keeps (fun _ w => State.powerDown_keeps w (Keeps.refl s)) .ticks (by decide)

/-- An event raised after a power-down is the one that would have been raised before it. -/
@[simp] theorem State.powerDown_eventNow (code : Nat) (b : List Byte) : s.powerDown.eventNow code b = s.eventNow code b := by
  have hr : s.powerDown.recd.opMinutes = s.recd.opMinutes ∧ s.powerDown.recd.powerCycles = s.recd.powerCycles := by
    unfold State.powerDown
    split
    · simp [State.startFlush, State.dropPending, State.modRecd, State.modPins]
    · exact ⟨rfl, rfl⟩
  simp only [State.eventNow, hr, State.powerDown_ticks]

/-- The rails ramp where nothing holds them off, and are otherwise as they were (R481, R483). -/
theorem State.tryPower_eq : s.tryPower =
    s.modPins fun p => { p with railsOn := p.railsOn || (p.pwrEn && p.duskReady && p.inRange && !p.faultLatch) } := by
  simp only [State.tryPower]
  split
  · next h => simp only [State.modPins, h, Bool.or_true]
  · next h => simp only [State.modPins, Bool.eq_false_iff.mpr h, Bool.or_false]

end

/-! ### The commands -/

section
variable {s : State} {mv : Nat}

theorem exec_pwrEnAssert (s : State) : exec .pwrEnAssert s = .next (s.modPins fun p => { p with pwrEn := true }).tryPower := rfl

theorem exec_inputRise_low (h : s.pins.inputUp = false) : exec .inputRise s =
    .next { (s.modPins fun p => { p with inputUp := true }).modRecd (fun r => { r with powerCycles := (r.powerCycles + 1) % 2 ^ 32 }) with
      ticks := 0 } :=
  congrArg _ (if_neg (by simp [h]))

theorem exec_duskReady_starts {clean : Bool} (hi : s.pins.inputUp = true) (hd : s.pins.duskReady = false) : exec (.duskReady clean) s =
    .next ((s.modPins fun p => { p with duskReady := true, strapFeed := p.boardFeed, strapSlot := p.boardSlot, strapTray := p.boardTray }).modRecd
      fun r => r.ready clean s.ticks).tryPower :=
  congrArg _ (if_neg (by simp [hi, hd]))

theorem exec_inputOperatingRange_within (hi : s.pins.inputUp = true) (hl : 40000 ≤ mv) (hh : mv ≤ 60000) :
    exec (.inputOperatingRange mv) s = .next (s.modPins fun p => { p with inRange := true }).tryPower :=
  congrArg _ (if_pos (by simp [hi, hl, hh]))

theorem exec_inputOperatingRange_outside (h : mv < 40000 ∨ 60000 < mv) : exec (.inputOperatingRange mv) s = .next s :=
  congrArg _ (if_neg (by simp; omega))

theorem exec_powerGood_rises (hr : s.pins.railsOn = true) (hp : s.pins.pg = false) : exec .powerGood s =
    .next (if s.pins.resetN then (s.modPins fun p => { p with pg := true }).beginBoot else s.modPins fun p => { p with pg := true }) :=
  congrArg _ (if_neg (by simp [hr, hp]))

theorem exec_pwrEnDeassert (s : State) :
    exec .pwrEnDeassert s = .next (s.modPins fun p => { p with pwrEn := false, faultLatch := false }).powerDown := rfl

/-- The pins at an input fault: it latches where PWR_EN is asserted, and one of the input takes it out of its range (R465, R483). -/
def State.latchFault (s : State) (cause : FaultCause) : State :=
  s.draw.2.modPins fun p => { p with faultLatch := p.faultLatch || p.pwrEn, inRange := p.inRange && cause != .input }

/-- An input fault takes the rails down and is recorded with a free byte for its cause. -/
theorem exec_inputFault_dusk {cause : FaultCause} (hd : s.pins.duskReady = true) :
    ∃ v, exec (.inputFault cause mv) s = .next ((s.latchFault cause).powerDown.raise 0xB805 (leBytes 2 mv ++ leBytes 1 v)) :=
  ⟨_, congrArg Host.Outcome.next (if_neg (by simp [hd]))⟩

theorem exec_inputFall_up (hi : s.pins.inputUp = true) : ∃ t, exec .inputFall s = .next t ∧ t.pins.inputUp = false ∧
    t.pins.duskReady = false ∧ t.pins.pg = false ∧ t.regs = [] ∧ t.recd.ring = [] ∧ t.recd.intake = [] ∧ t.recd.flash = s.recd.flash ∧
    t.mem = [] ∧ t.ident = s.ident := by
  refine ⟨_, congrArg Host.Outcome.next (if_neg (by simp [hi])), ?_⟩
  simp [State.modRecd, State.modPins]

end

/-- Settles O44: each command under its guard, by what the rails' ramp (`State.tryPower_eq`), their fall (`State.powerDown_on`) and the
wipe leave. -/
theorem powerSequences : Obligations.PowerSequences := by
  intro s clean mv cause
  refine ⟨fun h => ⟨_, exec_inputRise_low h, rfl, rfl, rfl, rfl, rfl, rfl⟩, fun hi hd => ⟨_, exec_duskReady_starts hi hd, ?dusk⟩,
    ⟨_, exec_pwrEnAssert s, ?assert⟩, fun hi hl hh => ⟨_, exec_inputOperatingRange_within hi hl hh, ?range⟩, fun hr hp => ?good,
    fun hr => ⟨_, exec_pwrEnDeassert s, ?deassert⟩, fun hd => ?fault, fun hp hn => congrArg _ (if_pos (by simp [hp, hn])),
    fun hp hn => congrArg _ (if_pos (by simp [hp, hn])), fun hp => ?reset, fun hr => ?off, exec_inputOperatingRange_outside,
    exec_inputFall_up⟩
  case dusk => simp [State.tryPower_eq, State.modPins, State.modRecd]
  case assert => simp [State.tryPower_eq, State.modPins]
  case range => simp [State.tryPower_eq, State.modPins]
  case good => exact ⟨fun hn => (exec_powerGood_rises hr hp).trans (by rw [if_pos hn]),
    fun hn => (exec_powerGood_rises hr hp).trans (by rw [if_neg (ne_true_of_eq_false hn)])⟩
  case deassert =>
    obtain ⟨hpins, hmem, hobjs, hflush, hflash, -⟩ :=
      State.powerDown_on (s := s.modPins fun p => { p with pwrEn := false, faultLatch := false }) hr
    rw [hpins]
    exact ⟨rfl, rfl, rfl, rfl, hflush, hmem, hobjs, hflash, State.powerDown_ident _⟩
  case fault =>
    obtain ⟨v, hv⟩ := exec_inputFault_dusk (cause := cause) (mv := mv) hd
    refine ⟨_, v, hv, ?_⟩
    have hrange : cause = .input → (s.latchFault cause).pins.inRange = false := by rintro rfl; simp [State.latchFault, State.modPins]
    cases hr : s.pins.railsOn with
    | true =>
      obtain ⟨hpins, hmem, -, hflush, -, hintake⟩ := State.powerDown_on (s := s.latchFault cause) hr
      refine ⟨congrArg Pins.faultLatch hpins, congrArg₂ (fun l e => l ++ [e]) hintake (State.powerDown_eventNow ..), fun h => ?_,
        congrArg Pins.railsOn hpins, fun _ => ⟨congrArg Pins.pg hpins, hmem, hflush⟩, fun h => absurd h (by decide)⟩
      exact (congrArg Pins.inRange hpins).trans (hrange h)
    | false =>
      rw [State.powerDown_off (s := s.latchFault cause) hr]
      exact ⟨rfl, rfl, hrange, hr, fun h => absurd h (by decide), fun _ => ⟨rfl, rfl, rfl⟩⟩
  case reset => exact ⟨congrArg Host.Outcome.next (if_neg (by simp [hp])), congrArg Host.Outcome.next (if_neg (by simp [hp]))⟩
  case off => exact (exec_pwrEnDeassert s).trans (congrArg _ (State.powerDown_off hr))

end Sys2Proof.Machine
end

section
/-! PROOFS. The pins and the clocks (R470, R473, R474, R477, R489, R490, R550, R552). -/

namespace Sys2Proof.Machine

open Sys2Proof

/-! ### Contexts that a loss of lock kills -/

/-- A fault of one context makes no other live. -/
theorem State.live_of_live_faultCtx {s : State} {x code detail y : Nat} (h : (s.faultCtx x code detail).live y = true) : s.live y = true := by
  have hlog : (s.log x code true false noFence detail srcStream).live y = s.live y := 
    State.live_modCtx_of_state s (f := fun c => logPush c code true false noFence x s.node detail srcStream) (fun _ => rfl) x y
  rw [State.faultCtx] at h
  split at h
  · rw [State.teardown] at h
    set u := (s.log x code true false noFence detail srcStream).clearUnits fun c => (s.ctxCores x).contains c
    split at h
    · obtain ⟨c, hc, hl⟩ := State.live_iff.mp h
      rw [State.ctx_modCtx] at hc
      obtain ⟨c', hc', hif⟩ := Option.map_eq_some_iff.mp hc
      rw [← hlog]
      refine State.live_iff.mpr ⟨c', hc', ?_⟩
      split at hif
      · rw [← hif] at hl
        cases hl
      · exact hif ▸ hl
    · exact hlog ▸ h
  · exact hlog ▸ h

section
variable (s : State) (l : List Nat)

theorem State.clockLost_same (p : Area) (h : p ∉ [Area.te, .objs, .loader]) : p.same s (s.clockLost l) :=
  Area.same_of_keeps (fun _ w => State.clockLost_keeps w (Keeps.refl s)) p h

theorem State.live_of_live_clockLost {y : Nat} (h : (s.clockLost l).live y = true) : s.live y = true := by
  induction l generalizing s with
  | nil => exact h
  | cons x l ih =>
    have h1 : (if s.live x then s.faultCtx x 0xB010 0 else s).live y = true := ih _ h
    split at h1
    · exact State.live_of_live_faultCtx h1
    · exact h1

/-- No context of the list is live after the loss. -/
theorem State.live_clockLost {y : Nat} (hy : y ∈ l) : (s.clockLost l).live y = false := by
  induction l generalizing s with
  | nil => cases hy
  | cons x l ih =>
    rcases List.mem_cons.mp hy with rfl | hy
    · refine Bool.eq_false_iff.mpr fun h => ?_
      have h1 : (if s.live y then s.faultCtx y 0xB010 0 else s).live y = true := State.live_of_live_clockLost _ l h
      split at h1
      · next hx => exact Bool.false_ne_true ((s.live_faultCtx y _ _ hx).symm.trans h1)
      · next hx => exact hx h1
    · exact ih _ hy

end

/-! ### Dies whose cores are retired -/

theorem State.kind_setKind (s : State) (c d : Nat) (k : CoreKind) : (s.setKind c k).kind d = if d = c then k else s.kind d := by
  by_cases h : d = c
  · subst h; simp [State.kind, State.setKind]
  · simp [State.kind, State.setKind, lookD_put_ne _ _ _ h, h]

/-- Cores of a list retired. -/
theorem State.kind_foldl_retired (l : List Nat) (s : State) (c : Nat) :
    (l.foldl (fun (t : State) c => t.setKind c .retired) s).kind c = if c ∈ l then .retired else s.kind c := by
  induction l generalizing s with
  | nil => rfl
  | cons x l ih =>
    rw [List.foldl_cons, ih, State.kind_setKind]
    by_cases hx : c = x <;> simp [hx]

theorem mem_coresOf {c d : Nat} : c ∈ coresOf d ↔ c / 68 = d := by
  simp only [coresOf, List.mem_map, List.mem_range]
  constructor
  · rintro ⟨i, hi, rfl⟩
    omega
  · intro h
    exact ⟨c % 68, Nat.mod_lt _ (by decide), by omega⟩

section
variable (s : State) (d : Nat)

theorem State.retireDie_same (p : Area) (h : p ∉ [Area.ident, .objs]) : p.same s (s.retireDie d) :=
  Area.same_of_keeps (fun _ w => State.retireDie_keeps w (Keeps.refl s)) p h

/-- The cores that a retired die loses. -/
theorem State.kind_retireDie (c : Nat) :
    (s.retireDie d).kind c = if c / 68 = d ∧ (s.kind c = .enabled ∨ s.kind c = .spare) then .retired else s.kind c := by
  refine (State.kind_foldl_retired _ s c).trans (if_congr ?_ rfl rfl)
  simp [mem_coresOf]

/-- Contexts are not what a retired die changes. -/
theorem State.live_retireDie (x : Nat) : (s.retireDie d).live x = s.live x := by
  have hctxs : ∀ (l : List Nat) (t : State), (l.foldl (fun (t : State) c => t.setKind c .retired) t).objs = t.objs := by
    intro l
    induction l with
    | nil => exact fun _ => rfl
    | cons c l ih => exact fun t => ih _
  unfold State.retireDie State.mapParts State.live State.ctx
  simp only [State.modObjs, hctxs]

end

theorem offHc_ne {u v r : Nat} (h : u ≠ v) : offHc u r ≠ offHc v r := by
  unfold offHc
  omega

/-! ### WAKE_N and THERM_N -/

section
variable {s : State}

theorem State.gated_wakeDie (s : State) (e d : Nat) : ((s.wakeDie e).die d).gated = (s.die d).gated := by
  unfold State.wakeDie
  split
  · by_cases h : d = e
    · subst h; simp
    · simp [State.die_modDie_ne _ _ h]
  · rfl

/-- A wake of one die ends no wake of another. -/
theorem State.waking_wakeDie {d : Nat} (e : Nat) (h : (s.die d).waking = true) : ((s.wakeDie e).die d).waking = true := by
  by_cases he : e = d
  · subst he
    rw [State.wakeDie_waking h]
    exact h
  · unfold State.wakeDie
    split
    · simp [State.die_modDie_ne _ _ (Ne.symm he), h]
    · exact h

theorem State.waking_wakeDie_self {d : Nat} (h : (s.die d).gated = true) : ((s.wakeDie d).die d).waking = true := by
  cases hw : (s.die d).waking with
  | true => exact State.waking_wakeDie d hw
  | false => simp [State.wakeDie_gated h hw]

/-- Each gated die of a list wakes. -/
theorem State.waking_foldl_wakeDie {d : Nat} (l : List Nat) (hg : (s.die d).gated = true) (h : (s.die d).waking = true ∨ d ∈ l) :
    ((l.foldl (fun (t : State) e => t.wakeDie e) s).die d).waking = true := by
  induction l generalizing s with
  | nil => exact h.resolve_right List.not_mem_nil
  | cons e l ih =>
    refine ih ((s.gated_wakeDie e d).trans hg) ?_
    rcases h with hw | hd
    · exact .inl (State.waking_wakeDie e hw)
    · rcases List.mem_cons.mp hd with rfl | hd
      · exact .inl (State.waking_wakeDie_self hg)
      · exact .inr hd

/-- WAKE_N falls: every gated die wakes, and nothing else but the pin and the counts of wakes changes. -/
theorem exec_wakeNLow_alive (ha : s.alive = true) : ∃ t, exec .wakeNLow s = .next t ∧ t.pins = { s.pins with wakeLow := true } ∧
    t.cores = s.cores ∧ t.objs = s.objs ∧ ∀ d, d < 16 → (s.die d).gated = true → (t.die d).waking = true := by
  have hw (u : State) (p : Area) (hp : p ∉ [Area.regs, .pwr]) : p.same u ((List.range dieCount).foldl (fun (t : State) e => t.wakeDie e) u) :=
    Area.same_of_keeps (fun _ w => Keeps.foldl (fun _ _ h => State.wakeDie_keeps w h) (Keeps.refl u)) p hp
  refine ⟨_, congrArg Host.Outcome.next (if_pos ha), ?_⟩
  exact ⟨hw _ .pins (by decide), hw _ .cores (by decide), hw _ .objs (by decide),
    fun d hd hg => State.waking_foldl_wakeDie _ hg (.inr (List.mem_range.mpr hd))⟩

/-- Each die of a list is held at a cap of 8. -/
theorem State.cap_foldl_hold {d : Nat} (l : List Nat) (h : (s.die d).cap = 8 ∨ d ∈ l) :
    ((l.foldl (fun (t : State) e => t.modDie e fun k => { k with cap := 8 }) s).die d).cap = 8 := by
  induction l generalizing s with
  | nil => exact h.resolve_right List.not_mem_nil
  | cons e l ih =>
    refine ih ?_
    by_cases he : d = e
    · subst he; simp
    · rw [State.die_modDie_ne _ _ he]
      simpa [he] using h

/-- A table with an entry for each number below a bound. -/
theorem lookD_map_range {α : Type} (f : Nat → α) (v : α) {n c : Nat} (h : c < n) : lookD ((List.range n).map fun c => (c, f c)) c v = f c := by
  have hlook (l : List Nat) (hc : c ∈ l) : look (l.map fun c => (c, f c)) c = some (f c) := by
    induction l with
    | nil => cases hc
    | cons e l ih =>
      by_cases he : e = c
      · subst he; simp [look]
      · simpa [look, he] using ih ((List.mem_cons.mp hc).resolve_left (Ne.symm he))
  simp [lookD, hlook _ (List.mem_range.mpr h)]

/-- While THERM_N is low every cap is 8 (R470). -/
theorem State.holdCaps_caps (s : State) : (∀ d, d < 16 → (s.holdCaps.die d).cap = 8) ∧ ∀ c, c < 1088 → (s.holdCaps.core c).cap = 8 := by
  constructor
  · intro d hd
    have h := State.cap_foldl_hold (s := s) (List.range dieCount) (.inr (List.mem_range.mpr hd))
    rw [State.die] at h ⊢
    rw [State.holdCaps]
    exact h
  · intro c hc
    unfold State.holdCaps State.core
    rw [lookD_map_range _ _ hc]

/-- THERM_N falls: therm_seen is set, the event is recorded with two free bytes, and every cap is held (R470, R489). -/
theorem exec_thermNLow_falls (ht : s.thermLow = false) (hd : s.pins.duskReady = true) : ∃ t, exec .thermNLow s = .next t ∧
    t.pins = { s.pins with thermBoard := true } ∧ (∀ d, d < 16 → (t.die d).cap = 8) ∧ (∀ c, c < 1088 → (t.core c).cap = 8) ∧
    bit (t.reg (offPg 8)) 3 = true ∧ (∃ a b, t.recd.intake = s.recd.intake ++ [s.eventNow 0xB802 (leBytes 1 a ++ leBytes 1 b)]) := by
  refine ⟨_, congrArg Host.Outcome.next (if_pos (by simp [ht, hd])), ?_⟩
  unfold State.thermFalls
  dsimp only
  refine ⟨State.holdCaps_same _ .pins (by decide), (State.holdCaps_caps _).1, (State.holdCaps_caps _).2, ?_, _, _,
    congrArg Recorder.intake (State.holdCaps_same _ .recd (by decide))⟩
  rw [State.reg, show ∀ u : State, u.holdCaps.regs = u.regs from fun u => u.holdCaps_same .regs (by decide),
    show ∀ u : State, u.holdCaps.ident = u.ident from fun u => u.holdCaps_same .ident (by decide)]
  exact State.bit_reg_setBit _ _ (by decide)

/-- The board lets go of THERM_N: the governor cools down for 900 intervals (R467, R470). -/
theorem exec_thermNRelease_cools (hb : s.pins.thermBoard = true) (hm : s.pins.thermModule = false) (hg : s.pwr.gov ≠ .cool) :
    ∃ t, exec .thermNRelease s = .next t ∧ t.pins = { s.pins with thermBoard := false } ∧ t.pwr.gov = .cool ∧ t.pwr.cool = 900 ∧
      t.regs = s.regs ∧ t.recd = s.recd :=
  ⟨_, congrArg Host.Outcome.next (if_neg (by simp [hb, hg, State.thermLow, State.modPins, hm])), rfl, rfl, rfl, rfl, rfl⟩

end

/-! ### Loss of lock (R474) -/

section
variable {s : State} {die : Nat}

/-- A PLL of a die is out of lock. -/
def Die.unlock (k : Die) (ctl : Bool) : Die := if ctl then { k with ctlLost := true } else { k with pllLost := true }

theorem exec_pllLossOfLock_gated {ctl : Bool} (hg : (s.die die).gated = true) (hw : (s.die die).waking = false) :
    exec (.pllLossOfLock die ctl) s = .next s :=
  congrArg Host.Outcome.next (if_pos (by simp [hg, hw]))

/-- A die that serves or wakes loses lock: the event is recorded with a free byte; the contexts of a die that serves are killed. -/
theorem exec_pllLossOfLock_loses {ctl : Bool} (hd : die < 16) (ha : s.alive = true) (hg : (s.die die).gated = false ∨ (s.die die).waking = true) :
    ∃ b, exec (.pllLossOfLock die ctl) s =
      .next (((if (s.die die).gated then s.draw.2.modDie die fun k => k.unlock ctl
        else (s.draw.2.modDie die fun k => k.unlock ctl).clockLost (s.ctxsOn die)).setBit (offPgDie die 8) 14).raise 0xB804
          (leBytes 1 die ++ leBytes 1 b)) :=
  have hrange : ¬dieCount ≤ die := Nat.not_le.mpr hd
  ⟨_, congrArg Host.Outcome.next (if_neg (by rcases hg with h | h <;> simp [ha, h, hrange]))⟩

/-- What a loss of lock leaves. -/
theorem exec_pllLossOfLock_leaves {ctl : Bool} (hd : die < 16) (ha : s.alive = true)
    (hg : (s.die die).gated = false ∨ (s.die die).waking = true) :
    ∃ t b, exec (.pllLossOfLock die ctl) s = .next t ∧ (t.die die).ctlLost = (ctl || (s.die die).ctlLost) ∧
      (t.die die).pllLost = (!ctl || (s.die die).pllLost) ∧ bit (t.reg (offPgDie die 8)) 14 = true ∧
      t.recd.intake = s.recd.intake ++ [s.eventNow 0xB804 (leBytes 1 die ++ leBytes 1 b)] ∧
      ((s.die die).gated = false → ∀ x ∈ s.ctxsOn die, t.live x = false) ∧ ((s.die die).gated = true → t.objs = s.objs ∧ t.cores = s.cores) := by
  obtain ⟨b, hb⟩ := exec_pllLossOfLock_loses (ctl := ctl) hd ha hg
  refine ⟨_, b, hb, ?_⟩
  set u := s.draw.2.modDie die fun k => k.unlock ctl with hu
  set v := if (s.die die).gated then u else u.clockLost (s.ctxsOn die) with hv
  have hdie : v.die die = (s.die die).unlock ctl := by
    have hud : u.die die = (s.die die).unlock ctl := State.die_modDie_self ..
    have hp : v.pwr = u.pwr := by
      rw [hv]
      split
      · rfl
      · exact State.clockLost_same _ _ .pwr (by decide)
    rw [← hud, State.die, hp, State.die]
  have hrecd : v.recd = s.recd := by
    rw [hv]
    split
    · rfl
    · exact State.clockLost_same _ _ .recd (by decide)
  have hticks : v.ticks = s.ticks := by
    rw [hv]
    split
    · rfl
    · exact State.clockLost_same _ _ .ticks (by decide)
  refine ⟨?_, ?_, State.bit_reg_setBit _ _ (by decide), ?_, fun h x hx => ?_, fun h => ?_⟩
  · refine (congrArg Die.ctlLost hdie).trans ?_
    cases ctl <;> rfl
  · refine (congrArg Die.pllLost hdie).trans ?_
    cases ctl <;> rfl
  · simp [State.raise, State.eventNow, hrecd, hticks]
  · rw [hv, h]
    exact State.live_clockLost u _ hx
  · rw [hv, h]
    exact ⟨rfl, rfl⟩

/-- A relock of a PLL that is not out of lock changes nothing. -/
theorem exec_pllRelockDone_locked {ctl : Bool} (h : (if ctl = true then (s.die die).ctlLost else (s.die die).pllLost) = false) (ok : Bool) :
    exec (.pllRelockDone die ctl ok) s = .next s :=
  congrArg Host.Outcome.next (if_pos (by simp [h]))

theorem exec_pllRelockDone_lost {ctl : Bool} (hd : die < 16) (ha : s.alive = true)
    (h : (if ctl = true then (s.die die).ctlLost else (s.die die).pllLost) = true) (ok : Bool) :
    exec (.pllRelockDone die ctl ok) s = .next (
      if ok then (s.relocked die ctl).releaseReads die
      else if ctl then
        let s1 := s.modDie die fun k => { k with relocksCtl := k.relocksCtl + 1 }
        if (s1.die die).relocksCtl = 3 then (((s1.clockLost (s1.objs.ctxs.map (·.1))).retireDie die).retireStacks die).selfFence else s1
      else
        let s1 := s.modDie die fun k => { k with relocksArith := k.relocksArith + 1 }
        if (s1.die die).relocksArith = 3 then ((s1.retireDie die).relocked die false).releaseReads die else s1) :=
  have hrange : ¬dieCount ≤ die := Nat.not_le.mpr hd
  congrArg Host.Outcome.next (if_neg (by simp [h, ha, hrange]))

/-- One more failed relock of the arithmetic PLL; the third retires the die's cores, and the rest of it serves (R474). -/
theorem exec_pllRelockDone_arithFails (hd : die < 16) (ha : s.alive = true) (h : (s.die die).pllLost = true) :
    ((s.die die).relocksArith ≠ 2 →
      exec (.pllRelockDone die false false) s = .next (s.modDie die fun k => { k with relocksArith := k.relocksArith + 1 })) ∧
    ((s.die die).relocksArith = 2 → ∃ b : State, exec (.pllRelockDone die false false) s = .next (b.releaseReads die) ∧
      (b.die die).pllLost = false ∧ b.regs = s.regs ∧ b.mem = s.mem ∧ b.cache = s.cache ∧
      ∀ c, c < 1088 → b.kind c = if c / 68 = die ∧ (s.kind c = .enabled ∨ s.kind c = .spare) then .retired else s.kind c) := by
  have he := exec_pllRelockDone_lost (ctl := false) hd ha h false
  simp only [Bool.false_eq_true, if_false, State.die_modDie_self] at he
  refine ⟨fun hn => ?_, fun h2 => ?_⟩
  · rw [he, if_neg (by omega)]
  · rw [if_pos (by omega)] at he
    set u := s.modDie die fun k => { k with relocksArith := k.relocksArith + 1 }
    exact ⟨_, he, by simp [State.relocked], u.retireDie_same die .regs (by decide), u.retireDie_same die .mem (by decide),
      u.retireDie_same die .cache (by decide), fun c _ => u.kind_retireDie die c⟩

/-- One more failed relock of the control PLL; the third retires the die with its stacks and fences the device (R474). -/
theorem exec_pllRelockDone_ctlFails (hd : die < 16) (ha : s.alive = true) (h : (s.die die).ctlLost = true) :
    ((s.die die).relocksCtl ≠ 2 →
      exec (.pllRelockDone die true false) s = .next (s.modDie die fun k => { k with relocksCtl := k.relocksCtl + 1 })) ∧
    ((s.die die).relocksCtl = 2 → ∃ b : State, exec (.pllRelockDone die true false) s = .next b.selfFence ∧
      b.reg (offHc (2 * die) 0x10) = 2 ^ 64 - 1 ∧ b.reg (offHc (2 * die + 1) 0x10) = 2 ^ 64 - 1 ∧ (∀ x, b.live x = false) ∧
      ∀ c, c < 1088 → b.kind c = if c / 68 = die ∧ (s.kind c = .enabled ∨ s.kind c = .spare) then .retired else s.kind c) := by
  have he := exec_pllRelockDone_lost (ctl := true) hd ha h false
  simp only [Bool.false_eq_true, if_false, if_true, State.die_modDie_self] at he
  refine ⟨fun hn => ?_, fun h2 => ?_⟩
  · rw [he, if_neg (by omega)]
  · rw [if_pos (by omega)] at he
    set u := s.modDie die fun k => { k with relocksCtl := k.relocksCtl + 1 }
    set v := u.clockLost (u.objs.ctxs.map (·.1)) with hv
    refine ⟨_, he, ?_, State.reg_setReg_self .., fun x => ?_, fun c _ => ?_⟩
    · exact (State.reg_setReg_ne _ _ (offHc_ne (by omega))).trans (State.reg_setReg_self ..)
    · refine (v.live_retireDie die x).trans (Bool.eq_false_iff.mpr fun hl => ?_)
      obtain ⟨c, hc, -⟩ := State.live_iff.mp (State.live_of_live_clockLost _ _ hl)
      exact Bool.false_ne_true ((State.live_clockLost u _ (List.mem_map_of_mem (mem_of_look hc))).symm.trans hl)
    · have hi : v.ident = s.ident := u.clockLost_same _ .ident (by decide)
      have hk : v.kind c = s.kind c := by rw [State.kind, hi, State.kind]
      exact hk ▸ v.kind_retireDie die c

/-- The 25 MHz input stops: the backup oscillator takes over, and it is recorded (R473). -/
theorem exec_duskInputLoss_stops (hi : s.pins.inputUp = true) (ho : s.pwr.oscBackup = false) : ∃ t, exec .duskInputLoss s = .next t ∧
    t.pwr = { s.pwr with oscBackup := true } ∧ bit (t.reg (offDk 0)) 3 = true ∧
    t.recd.intake = s.recd.intake ++ [s.eventNow 0xB803 []] ∧ t.mem = s.mem :=
  ⟨_, congrArg Host.Outcome.next (if_neg (by simp [hi, ho])), rfl, State.bit_reg_setBit _ _ (by decide), rfl, rfl⟩

end

/-- Settles O45: the pins' commands, then loss and recovery of lock by what the die does (`exec_pllRelockDone_arithFails`,
`exec_pllRelockDone_ctlFails`). -/
theorem pinsAndClocksAct : Obligations.PinsAndClocksAct := by
  intro s die ctl
  refine ⟨exec_wakeNLow_alive, rfl, exec_thermNLow_falls, exec_thermNRelease_cools,
    fun hd ha => ⟨exec_pllLossOfLock_leaves hd ha, exec_pllLossOfLock_gated⟩,
    fun hd ha => ⟨fun h => ⟨exec_pllRelockDone_lost (ctl := false) hd ha h true, exec_pllRelockDone_arithFails hd ha h⟩,
      fun h => ⟨exec_pllRelockDone_lost (ctl := true) hd ha h true, exec_pllRelockDone_ctlFails hd ha h⟩⟩,
    exec_pllRelockDone_locked, exec_duskInputLoss_stops, rfl⟩

end Sys2Proof.Machine
end

section
/-! PROOFS. Fields of registers, and the bytes of the flash after a program or an erase. -/

namespace Sys2Proof.Machine

open Sys2Proof

/-! ### Fields -/

/-- A field read after it was set. -/
theorem fld_setFld (v lo w x : Nat) : fld (setFld v lo w x) lo w = x % 2 ^ w := by
  have hlo : 0 < 2 ^ lo := Nat.two_pow_pos lo
  have hle : v / 2 ^ lo % 2 ^ w * 2 ^ lo ≤ v := (Nat.mul_le_mul_right _ (Nat.mod_le ..)).trans (Nat.div_mul_le_self ..)
  have hdiv : setFld v lo w x / 2 ^ lo = v / 2 ^ lo - v / 2 ^ lo % 2 ^ w + x % 2 ^ w := by
    show (v - v / 2 ^ lo % 2 ^ w * 2 ^ lo + x % 2 ^ w * 2 ^ lo) / 2 ^ lo = _
    rw [Nat.add_mul_div_right _ _ hlo, Nat.mul_comm, Nat.sub_mul_div_of_le _ _ _ (by rwa [Nat.mul_comm])]
  have hsub : v / 2 ^ lo - v / 2 ^ lo % 2 ^ w = 2 ^ w * (v / 2 ^ lo / 2 ^ w) := by
    have := Nat.div_add_mod (v / 2 ^ lo) (2 ^ w)
    omega
  rw [fld, hdiv, hsub, Nat.mul_add_mod, Nat.mod_mod]

/-- A field within a 64-bit register does not see that the register holds its value modulo 2^64. -/
theorem fld_mod_two_pow {lo w : Nat} (h : lo + w ≤ 64) (v : Nat) : fld (v % 2 ^ 64) lo w = fld v lo w := by
  unfold fld
  refine Nat.eq_of_testBit_eq fun i => ?_
  simp only [Nat.testBit_mod_two_pow, Nat.testBit_div_two_pow]
  by_cases hi : i < w
  · simp [show i + lo < 64 by omega]
  · simp [hi]

theorem State.fld_reg_setField (s : State) (off v : Nat) {lo w : Nat} (h : lo + w ≤ 64) :
    fld ((s.setField off lo w v).reg off) lo w = v % 2 ^ w := by
  rw [State.setField, State.reg_setReg_self, fld_mod_two_pow h, fld_setFld]

/-! ### Flash bytes -/

/-- An entry read from those that a test on their numbers keeps. -/
theorem look_filter {α : Type} (t : Tab α) (p : Nat → Bool) (k : Nat) : look (t.filter fun e => p e.1) k = if p k then look t k else none := by
  induction t with
  | nil => simp [look]
  | cons e t ih =>
    obtain ⟨a, v⟩ := e
    by_cases ha : a = k
    · subst ha
      cases hp : p a <;> simp [look, hp, ih]
    · cases hp : p a <;> simp [look, hp, ha, ih]

theorem look_flashWipe (t : Tab Byte) (o n a : Nat) : look (flashWipe t o n) a = if a < o ∨ o + n ≤ a then look t a else none := by
  refine (look_filter t (fun a => a < o || o + n ≤ a) a).trans (if_congr ?_ rfl rfl)
  simp

/-- An erase of 64 KiB clears its sector alone. -/
theorem look_flashWipe_sector (t : Tab Byte) (o a : Nat) :
    look (flashWipe t (o / 2 ^ 16 * 2 ^ 16) (2 ^ 16)) a = if a / 2 ^ 16 = o / 2 ^ 16 then none else look t a := by
  rw [look_flashWipe, ← ite_not]
  exact if_congr (by omega) rfl rfl

/-- Bytes outside a program stay. -/
theorem look_flashPut_ne (l : List Byte) (t : Tab Byte) {o a : Nat} (h : a < o ∨ o + l.length ≤ a) : look (flashPut t o l) a = look t a := by
  induction l generalizing t o with
  | nil => rfl
  | cons b l ih =>
    simp only [List.length_cons] at h
    have hne : a ≠ o := by omega
    rw [flashPut, ih _ (by omega)]
    split
    · exact look_del_ne _ hne
    · exact look_put_ne _ _ hne

/-- A byte programmed reads back; one of 0xFF is an erased one. -/
theorem lookD_flashPut (l : List Byte) (t : Tab Byte) (o i : Nat) (h : i < l.length) : lookD (flashPut t o l) (o + i) 0xFF = l[i] := by
  induction l generalizing t o i with
  | nil => cases h
  | cons b l ih =>
    cases i with
    | zero =>
      rw [flashPut, lookD, look_flashPut_ne l _ (.inl (by omega))]
      split <;> simp [*]
    | succ i =>
      rw [flashPut, show o + (i + 1) = o + 1 + i by omega, ih _ _ _ (Nat.lt_of_succ_lt_succ h)]
      rfl

end Sys2Proof.Machine
end

section
/-! PROOFS. The flash window and the reports (R500, R502, R503, R516). -/

namespace Sys2Proof.Machine

open Sys2Proof

section
variable {s : State}

/-! ### The flash window -/

/-- An operation at an allowed offset is taken. -/
theorem State.flashGo_taken (hn : s.sec.flashOp = none) (ha : s.flashAllowed s.flashOffset = true) (erase : Bool) :
    s.flashGo erase = s.modSec fun c => { c with flashOp := some (erase, s.flashOffset, tabBytes c.flashData 256) } := by
  simp [State.flashGo, hn, ha]

/-- At another offset it shows its code alone. -/
theorem State.flashGo_refused (hn : s.sec.flashOp = none) (ha : s.flashAllowed s.flashOffset = false) (erase : Bool) :
    s.flashGo erase = s.modSec fun c => { c with flashCode := 0xA006 } := by
  simp [State.flashGo, hn, ha]

theorem exec_flashErase_alive (h : s.alive = true) : exec .flashErase s = .next (s.flashGo true) := congrArg Host.Outcome.next (if_pos h)
theorem exec_flashProgram_alive (h : s.alive = true) : exec .flashProgram s = .next (s.flashGo false) := congrArg Host.Outcome.next (if_pos h)

/-- A slot's note that its bytes have changed lies in the firmware units. -/
theorem State.slotChanged_leaves (s : State) (o : Nat) : (s.slotChanged o).sec.flash = s.sec.flash ∧
    (s.slotChanged o).sec.flashOp = s.sec.flashOp ∧ (s.slotChanged o).mem = s.mem ∧ (s.slotChanged o).objs = s.objs ∧
    (s.slotChanged o).regs = s.regs := by
  unfold State.slotChanged
  split <;> exact ⟨rfl, rfl, rfl, rfl, rfl⟩

/-- The flash after an operation on it has ended. -/
def State.flashed (s : State) (fl : Tab Byte) : State := (s.modSec fun c => { c with flashOp := none }).modSec fun c => { c with flash := fl }

theorem State.flashed_leaves (s : State) (fl : Tab Byte) : (s.flashed fl).sec.flash = fl ∧ (s.flashed fl).sec.flashOp = none ∧
    (s.flashed fl).mem = s.mem ∧ (s.flashed fl).objs = s.objs ∧ (s.flashed fl).regs = s.regs := ⟨rfl, rfl, rfl, rfl, rfl⟩

theorem exec_flashOpDone_fails {e : Bool} {o : Nat} {data : List Byte} (h : s.sec.flashOp = some (e, o, data)) :
    exec (.flashOpDone false) s = .next (s.modSec fun c => { c with flashOp := none, flashCode := 0xA006 }) := by
  show execFlashOpDone false s = _
  rw [execFlashOpDone, h]
  rfl

theorem exec_flashOpDone_erases {o : Nat} {data : List Byte} (h : s.sec.flashOp = some (true, o, data)) : exec (.flashOpDone true) s =
    .next ((s.flashed (flashWipe s.sec.flash (o / 2 ^ 16 * 2 ^ 16) (2 ^ 16))).slotChanged o) := by
  show execFlashOpDone true s = _
  rw [execFlashOpDone, h]
  dsimp only
  rw [if_neg (by decide), if_pos rfl]
  rfl

theorem exec_flashOpDone_programs {o : Nat} {data : List Byte} (h : s.sec.flashOp = some (false, o, data)) : exec (.flashOpDone true) s =
    .next (((s.flashed (flashPut s.sec.flash o data)).slotChanged o).setField (offSc 0x600) 0 32 (o + 256)) := by
  show execFlashOpDone true s = _
  rw [execFlashOpDone, h]
  dsimp only
  rw [if_neg (by decide), if_neg (by decide)]
  rfl

/-! ### Reports -/

@[simp] theorem State.mailbox_setMailbox_self (s : State) (p : Nat) (m : Mailbox) : (s.setMailbox p m).mailbox p = m := lookD_put_self ..
theorem State.mailbox_setMailbox_ne (s : State) {p q : Nat} (m : Mailbox) (h : q ≠ p) : (s.setMailbox p m).mailbox q = s.mailbox q :=
  lookD_put_ne _ _ _ h

theorem exec_attGo_up {p : Nat} (hp : p < 4) (hu : (s.port p).up = true) : exec (.attGo p) s = .next (s.attGo p) :=
  congrArg Host.Outcome.next (if_pos (by simp [hp, hu]))

theorem State.attGo_busy {p : Nat} (hb : (s.mailbox p).busy = true) : s.attGo p = s.setMailbox p { s.mailbox p with lastCode := 0xA00C } := by
  simp [State.attGo, hb]

theorem State.attGo_noReport {p : Nat} (hb : (s.mailbox p).busy = false) (hl : s.sec.lc = .blank ∨ s.sec.lc = .retired) :
    s.attGo p = s.setMailbox p { s.mailbox p with done := false, lastCode := 0xA00B } := by
  simp [State.attGo, hb, hl]

theorem State.attGo_queued {p : Nat} (hb : (s.mailbox p).busy = false) (hl : s.sec.lc ≠ .blank) (hr : s.sec.lc ≠ .retired) : s.attGo p =
    (s.setMailbox p { s.mailbox p with busy := true, done := false }).modSec fun c => { c with attQueue := c.attQueue ++ [p] } := by
  simp [State.attGo, hb, hl, hr]

/-- An activation changes no mailbox and no build order, and touches none of the memories. -/
theorem State.activate_leaves (s : State) : s.activate.sec.mailboxes = s.sec.mailboxes ∧ s.activate.sec.attQueue = s.sec.attQueue ∧
    s.activate.mem = s.mem := by
  have h1 : (if s.sec.upd.unit = 0 then s.duskMoves else s).sec.mailboxes = s.sec.mailboxes ∧
      (if s.sec.upd.unit = 0 then s.duskMoves else s).sec.attQueue = s.sec.attQueue ∧
      (if s.sec.upd.unit = 0 then s.duskMoves else s).mem = s.mem := by
    split
    · unfold State.duskMoves
      split <;> exact ⟨rfl, rfl, rfl⟩
    · exact ⟨rfl, rfl, rfl⟩
  unfold State.activate
  dsimp only
  generalize (if s.sec.upd.unit = 0 then s.duskMoves else s) = u at h1 ⊢
  split <;> exact h1

/-- A unit that switches to its trial slot counts (R510). -/
theorem State.activate_trial (h : s.sec.upd.rollback = false) :
    s.activate.sec.upd.stage = .trial ∧ s.activate.reg (offSc 0xC8) = (s.reg (offSc 0xC8) + 1) % 2 ^ 64 := by
  have h1 : (if s.sec.upd.unit = 0 then s.duskMoves else s).reg (offSc 0xC8) = s.reg (offSc 0xC8) := by
    split
    · unfold State.duskMoves
      split <;> rfl
    · rfl
  unfold State.activate
  dsimp only
  rw [h]
  exact ⟨rfl, (State.reg_bump_self ..).trans (congrArg (fun n => (n + 1) % 2 ^ 64) h1)⟩

/-- A report in its mailbox, and the build order's rest. -/
def State.reported (s : State) (p : Nat) (m : Mailbox) (rest : List Nat) : State :=
  (s.setMailbox p m).modSec fun c => { c with attQueue := rest }

@[simp] theorem State.reported_upd (s : State) (p : Nat) (m : Mailbox) (rest : List Nat) : (s.reported p m rest).sec.upd = s.sec.upd := rfl
@[simp] theorem State.reported_switchPoint (s : State) (p : Nat) (m : Mailbox) (rest : List Nat) (u : Nat) :
    (s.reported p m rest).switchPoint u = s.switchPoint u := rfl
@[simp] theorem State.reported_reg (s : State) (p : Nat) (m : Mailbox) (rest : List Nat) (o : Nat) : (s.reported p m rest).reg o = s.reg o := rfl
theorem State.mailbox_reported_self (s : State) (p : Nat) (m : Mailbox) (rest : List Nat) : (s.reported p m rest).mailbox p = m :=
  s.mailbox_setMailbox_self p m
theorem State.mailbox_reported_ne (s : State) {p q : Nat} (m : Mailbox) (rest : List Nat) (h : q ≠ p) :
    (s.reported p m rest).mailbox q = s.mailbox q := s.mailbox_setMailbox_ne m h

theorem State.report_same (s : State) (p : Nat) (a : Area) (h : a ∉ [Area.free]) : a.same s (s.report p).2 :=
  Area.same_of_keeps (fun _ w => State.report_keeps w (Keeps.refl s)) a h

/-- The end of the report at the front of the build order: an activation that waited for it follows (R516). -/
theorem exec_attReportDone_front {p : Nat} {rest : List Nat} (h : s.sec.attQueue = p :: rest) : ∃ t : State,
    t = (s.report p).2.reported p { s.mailbox p with busy := false, done := true, report := (s.report p).1 } rest ∧
      exec .attReportDone s =
        .next (if t.sec.upd.due && t.sec.upd.stage == .activating && t.switchPoint t.sec.upd.unit then t.activate else t) := by
  refine ⟨_, rfl, ?_⟩
  show execAttReportDone s = _
  rw [execAttReportDone, h]
  rfl

end

/-- Settles O49: an operation by whether its offset is allowed, its end by what the flash then holds (`look_flashWipe_sector`,
`lookD_flashPut`), and a report by whether an activation waited for it. -/
theorem flashAndReports : Obligations.FlashAndReports := by
  intro s e o data p rest
  refine ⟨fun ha hn => ⟨fun hok => ?taken, fun hok => ?refused⟩, fun hop => ⟨exec_flashOpDone_fails hop, ?done⟩,
    fun hp hu => ⟨fun hb => ?busy, fun hb hl => ?noReport, fun hb hl hr => ?queued⟩, fun hq => ?report⟩
  case taken => simp only [exec_flashErase_alive ha, exec_flashProgram_alive ha, State.flashGo_taken hn hok, and_self]
  case refused => simp only [exec_flashErase_alive ha, exec_flashProgram_alive ha, State.flashGo_refused hn hok, and_self]
  case done =>
    cases e with
    | true =>
      refine ⟨_, exec_flashOpDone_erases hop, ?_⟩
      obtain ⟨hflash, hfop, hmem, hobjs, hregs⟩ := (s.flashed (flashWipe s.sec.flash (o / 2 ^ 16 * 2 ^ 16) (2 ^ 16))).slotChanged_leaves o
      obtain ⟨hflash', hfop', hmem', hobjs', hregs'⟩ := s.flashed_leaves (flashWipe s.sec.flash (o / 2 ^ 16 * 2 ^ 16) (2 ^ 16))
      rw [hfop, hfop', hmem, hmem', hobjs, hobjs', hregs, hregs', hflash, hflash']
      refine ⟨rfl, rfl, rfl, fun _ => ⟨rfl, fun a h => ?_, fun a h => ?_⟩, fun h => by cases h⟩
      · rw [look_flashWipe_sector, if_pos h]
      · rw [look_flashWipe_sector, if_neg h]
    | false =>
      refine ⟨_, exec_flashOpDone_programs hop, ?_⟩
      obtain ⟨hflash, hfop, hmem, hobjs, -⟩ := (s.flashed (flashPut s.sec.flash o data)).slotChanged_leaves o
      obtain ⟨hflash', hfop', hmem', hobjs', -⟩ := s.flashed_leaves (flashPut s.sec.flash o data)
      rw [State.setField_sec, State.setField_mem, State.setField_objs, hfop, hfop', hmem, hmem', hobjs, hobjs', hflash, hflash']
      exact ⟨rfl, rfl, rfl, fun h => (by cases h), fun _ => ⟨State.fld_reg_setField _ _ _ (by decide),
        lookD_flashPut data s.sec.flash o, fun a h => look_flashPut_ne data s.sec.flash h⟩⟩
  case busy => rw [exec_attGo_up hp hu, State.attGo_busy hb]
  case noReport => rw [exec_attGo_up hp hu, State.attGo_noReport hb hl]
  case queued =>
    refine ⟨_, (exec_attGo_up hp hu).trans (congrArg _ (State.attGo_queued hb hl hr)), ?_⟩
    exact ⟨State.mailbox_setMailbox_self .., rfl, fun q h => State.mailbox_setMailbox_ne _ _ h, rfl, rfl⟩
  case report =>
    obtain ⟨t, ht, hexec⟩ := exec_attReportDone_front hq
    have hsame := State.report_same s p
    generalize (s.report p).2 = u at ht hsame
    generalize (s.report p).1 = bytes at ht ⊢
    have hsec : u.sec = s.sec := hsame .sec (by decide)
    have hregs : u.regs = s.regs := hsame .regs (by decide)
    have hreg : t.reg (offSc 0xC8) = s.reg (offSc 0xC8) := by
      rw [ht, State.reported_reg, State.reg, hregs, show u.ident = s.ident from hsame .ident (by decide), State.reg]
    have hmem : u.mem = s.mem := hsame .mem (by decide)
    have hupd : t.sec.upd = s.sec.upd := by rw [ht, State.reported_upd, hsec]
    have hswitch : t.switchPoint s.sec.upd.unit = s.switchPoint s.sec.upd.unit := by
      rw [ht, State.reported_switchPoint, State.switchPoint, show u.loader = s.loader from hsame .loader (by decide),
        show u.uu = s.uu from hsame .uu (by decide), State.switchPoint]
    have hown : t.mailbox p = { s.mailbox p with busy := false, done := true, report := bytes } := by rw [ht, State.mailbox_reported_self]
    have hother (q : Nat) (h : q ≠ p) : t.mailbox q = s.mailbox q := by
      rw [ht, State.mailbox_reported_ne _ _ _ h, State.mailbox, hsec, State.mailbox]
    have hqueue : t.sec.attQueue = rest := by rw [ht]; rfl
    have htm : t.mem = s.mem := by rw [ht]; exact hmem
    have htr : t.regs = s.regs := by rw [ht]; exact hregs
    refine ⟨_, hexec, ?_⟩
    rw [hupd, hswitch]
    split
    · next hact =>
      obtain ⟨hboxes, hqueueA, hmemA⟩ := State.activate_leaves t
      have hbox (q : Nat) : t.activate.mailbox q = t.mailbox q := by rw [State.mailbox, hboxes, State.mailbox]
      simp only [Bool.and_eq_true, beq_iff_eq] at hact
      rw [hbox, hown]
      refine ⟨hqueueA.trans hqueue, rfl, rfl, rfl, rfl, fun q h => (hbox q).trans (hother q h), hmemA.trans htm,
        fun h => absurd hact.1.1 (by simp [h]), fun _ _ _ hr => ?_⟩
      obtain ⟨hstage, hcount⟩ := State.activate_trial (s := t) (hupd ▸ hr)
      exact ⟨hstage, hcount.trans (by rw [hreg])⟩
    · next hact =>
      rw [hown]
      exact ⟨hqueue, rfl, rfl, rfl, rfl, hother, htm, fun _ => ⟨htr, hupd⟩, fun h1 h2 h3 _ => absurd (by simp [h1, h2, h3]) hact⟩

end Sys2Proof.Machine
end

section
/-! PROOFS. Changes of the life cycle: the token, the wipe, and what the change's end writes (R501, R504 to R507, R512). -/

namespace Sys2Proof.Machine

open Sys2Proof

/-! ### The security block through a wipe and the begin of a boot -/

/-- What the reset wipe leaves of the security block (R311). -/
def Sec.wiped (c : Sec) : Sec :=
  { c with bootDone := false, privKey := 0, token := [], prov := [], flashData := [], flashOp := none, mailboxes := [], attQueue := [],
           upd := { State.reset.sec.upd with lastCode := c.upd.lastCode } }

section
variable (s : State)

@[simp] theorem State.wipeAll_sec : s.wipeAll.sec = s.sec.wiped := by
  unfold State.wipeAll
  split
  · exact State.holdCaps_same _ .sec (by decide)
  · rfl

/-- The begin of a boot leaves the device's identity, its slots and its flash. -/
theorem State.beginBoot_sec : s.beginBoot.sec.lc = s.sec.lc ∧ s.beginBoot.sec.lcCount = s.sec.lcCount ∧
    s.beginBoot.sec.changePending = s.sec.changePending ∧ s.beginBoot.sec.units = s.sec.units ∧ s.beginBoot.sec.dir = s.sec.dir ∧
    s.beginBoot.sec.flash = s.sec.flash ∧ s.beginBoot.sec.pubKey = s.sec.pubKey ∧ s.beginBoot.sec.wrappedKey = s.sec.wrappedKey ∧
    s.beginBoot.sec.deviceId = s.sec.deviceId ∧ s.beginBoot.sec.certs = s.sec.certs ∧ s.beginBoot.sec.keys = s.sec.keys ∧
    s.beginBoot.sec.privKey = 0 := by
  simp [State.beginBoot, State.modPins, State.chooseHubs, State.scReset, State.draw_snd, Sec.wiped]

theorem State.beginBoot_mem : s.beginBoot.mem = [] := s.wipeAll_mem

theorem State.beginBoot_recd : s.beginBoot.recd = s.recd :=
  Area.same_of_keeps (fun _ w => State.beginBoot_keeps w (Keeps.refl s)) .recd (by decide)

theorem State.beginBoot_booting : s.beginBoot.pins.booting = true := rfl

/-- A boot that begins with no register set sets none. -/
theorem State.beginBoot_regs (h : s.regs = []) : s.beginBoot.regs = [] := by
  have hw : s.wipeAll.regs = s.regs.filter fun e => keptOff e.1 := by
    unfold State.wipeAll
    split
    · exact State.holdCaps_same _ .regs (by decide)
    · rfl
  show (s.wipeAll.regs.filter _) = []
  rw [hw, h]
  rfl

end

/-- What the directory holds is decided by the slots, the life-cycle state and the pending change. -/
theorem State.dirContents_congr {s t : State} (hu : t.sec.units = s.sec.units) (hl : t.sec.lc = s.sec.lc)
    (hp : t.sec.changePending = s.sec.changePending) : t.dirContents = s.dirContents := by
  simp only [State.dirContents, hu, hl, hp]

/-- The directory's other copy after a write. -/
theorem State.look_writeDir (s : State) : look s.writeDir.sec.dir ((s.dirCount + 1) % 2) =
    some ⟨s.dirContents, sha384 s.dirContents, s.dirCount + 1⟩ := look_put_self ..

/-! ### LC_GO -/

section
variable {s : State} {b : LcState} {r : Bool}

theorem exec_lcGo_alive (h : s.alive = true) : exec .lcGo s = .next s.lcGo := congrArg Host.Outcome.next (if_pos h)

theorem State.lcGo_changing (hc : s.changing = true) : s.lcGo = s.modSec fun c => { c with lastCode := 0xA004 } := if_pos hc

theorem State.lcGo_refused {code : Nat} (hc : s.changing = false) (h : s.checkToken (tabBytes s.sec.token 256) = .error code) :
    s.lcGo = s.modSec fun c => { c with lastCode := code } := by
  simp [State.lcGo, hc, h]

/-- The state and its count as a token that is taken leaves them, before the wipe (R507 steps 1 and 2). -/
def State.tokenTaken (s : State) (b : LcState) (r : Bool) : State :=
  let rec_ := if r then tabBytes s.sec.prov 1024 else s.sec.provRecord
  let s1 := s.modSec fun c => { c with
    lcCount := min 255 (c.lcCount + 1), changePending := some (c.lc, b), changeStage := 2, lc := b, provRecord := rec_,
    mgmtPort := if r then leAt rec_ 6 1 else c.mgmtPort }
  { s1 with fab := { s1.fab with svcPeer := leAt (tabBytes s.sec.token 256) 6 1 } }

theorem State.lcGo_taken (hc : s.changing = false) (h : s.checkToken (tabBytes s.sec.token 256) = .ok (b, r)) :
    s.lcGo = (s.tokenTaken b r).wipeAll.writeDir.modPins fun p => { p with booting := false } := by
  simp only [State.lcGo, hc, h, Bool.false_eq_true, if_false]
  rfl

/-- A token that is taken: the new state, its count, the wipe and the directory's other copy. -/
theorem exec_lcGo_taken (ha : s.alive = true) (hc : s.changing = false) (h : s.checkToken (tabBytes s.sec.token 256) = .ok (b, r)) :
    ∃ t, exec .lcGo s = .next t ∧ t.sec.lc = b ∧ t.sec.lcCount = min 255 (s.sec.lcCount + 1) ∧
      t.sec.changePending = some (s.sec.lc, b) ∧ t.sec.provRecord = (if r = true then tabBytes s.sec.prov 1024 else s.sec.provRecord) ∧
      t.mem = [] ∧ t.objs = State.reset.objs ∧
      look t.sec.dir ((s.dirCount + 1) % 2) = some ⟨t.dirContents, sha384 t.dirContents, s.dirCount + 1⟩ ∧
      t.pins = { s.pins with booting := false } ∧ t.recd = s.recd := by
  refine ⟨_, (exec_lcGo_alive ha).trans (congrArg _ (State.lcGo_taken hc h)), ?_⟩
  set u := (s.tokenTaken b r).wipeAll with hu
  have hsec : u.sec = (s.tokenTaken b r).sec.wiped := State.wipeAll_sec _
  have hcount : u.dirCount = s.dirCount := by rw [State.dirCount, hsec]; rfl
  have hdir := u.look_writeDir
  rw [hcount] at hdir
  show u.sec.lc = b ∧ u.sec.lcCount = _ ∧ u.sec.changePending = _ ∧ u.sec.provRecord = _ ∧ u.mem = [] ∧ u.objs = _ ∧ _ ∧
    { u.pins with booting := false } = _ ∧ u.recd = s.recd
  rw [hsec]
  refine ⟨rfl, rfl, rfl, rfl, State.wipeAll_mem _, State.wipeAll_objs _, hdir, ?_, State.wipeAll_recd _⟩
  rw [hu, State.wipeAll_pins]
  rfl

/-! ### LIFE_CYCLE_CHANGE_DONE -/

/-- The registers reset, the operator's flash erased and the change no longer pending (R507 steps 4 and 5). -/
def State.changeErased (s : State) : State :=
  s.wipeAll.regsReset.modSec fun c => { c with flash := flashWipe c.flash 0x8_0000 0x10_0000, changePending := none, changeStage := 0 }

/-- The keys of a change: made anew for PROVISIONED, erased for RETIRED (R501, R507). -/
def State.changeKeys (s : State) (b : LcState) : State :=
  if b = .provisioned then
    let d := s.drawBytes 60
    let k := ecSecret (d.1.take 48)
    d.2.modSec fun c => { c with pubKey := ecKey k, wrappedKey := wrapKey (d.1.drop 48) k, deviceId := (sha384 (ecKey k)).take 16, certs := [],
                                 keys := c.keys + 1 }
  else if b = .retired then
    let d := s.drawBytes 16
    d.2.modSec fun c => { c with pubKey := [], wrappedKey := [], deviceId := d.1, certs := [] }
  else s

theorem State.finishChange_pending {a : LcState} (h : s.sec.changePending = some (a, b)) : s.finishChange =
    (s.changeErased.changeKeys b).writeDir.raise 0xA804
      (leBytes 1 (lcCode a) ++ leBytes 1 (lcCode b) ++ leBytes 1 (s.changeErased.changeKeys b).sec.lcCount) := by
  rw [State.finishChange, h]
  rfl

/-- The keys alone change with the keys, and a free value is drawn. -/
theorem State.changeKeys_leaves (s : State) (b : LcState) : (s.changeKeys b).sec.lc = s.sec.lc ∧ (s.changeKeys b).sec.lcCount = s.sec.lcCount ∧
    (s.changeKeys b).sec.changePending = s.sec.changePending ∧ (s.changeKeys b).sec.dir = s.sec.dir ∧
    (s.changeKeys b).sec.flash = s.sec.flash ∧ (s.changeKeys b).sec.flashBad = s.sec.flashBad ∧ (s.changeKeys b).regs = s.regs ∧ (s.changeKeys b).recd = s.recd ∧
    (s.changeKeys b).ticks = s.ticks := by
  by_cases hp : b = .provisioned
  · rw [State.changeKeys, if_pos hp]
    obtain ⟨l, hd⟩ : ∃ l, s.drawBytes 60 = (l, { s with free := s.free + 60 }) := ⟨_, rfl⟩
    rw [hd]
    exact ⟨rfl, rfl, rfl, rfl, rfl, rfl, rfl, rfl, rfl⟩
  · by_cases hr : b = .retired
    · rw [State.changeKeys, if_neg hp, if_pos hr]
      obtain ⟨l, hd⟩ : ∃ l, s.drawBytes 16 = (l, { s with free := s.free + 16 }) := ⟨_, rfl⟩
      rw [hd]
      exact ⟨rfl, rfl, rfl, rfl, rfl, rfl, rfl, rfl, rfl⟩
    · rw [State.changeKeys, if_neg hp, if_neg hr]
      exact ⟨rfl, rfl, rfl, rfl, rfl, rfl, rfl, rfl, rfl⟩

theorem State.changeKeys_provisioned (s : State) : ∃ iv k, (s.changeKeys .provisioned).sec.pubKey = ecKey k ∧
    (s.changeKeys .provisioned).sec.wrappedKey = wrapKey iv k ∧ iv.length = 12 ∧
    (s.changeKeys .provisioned).sec.deviceId = (sha384 (ecKey k)).take 16 ∧ (s.changeKeys .provisioned).sec.keys = s.sec.keys + 1 := by
  refine ⟨(s.drawBytes 60).1.drop 48, ecSecret ((s.drawBytes 60).1.take 48), ?_⟩
  rw [State.changeKeys, if_pos rfl]
  simp [State.modSec, State.drawBytes]

theorem State.changeKeys_retired (s : State) : (s.changeKeys .retired).sec.pubKey = [] ∧ (s.changeKeys .retired).sec.wrappedKey = [] ∧
    (s.changeKeys .retired).sec.certs = [] := ⟨rfl, rfl, rfl⟩

/-- The state as the registers, the flash and the pending flag leave it. -/
theorem State.changeErased_leaves (s : State) : s.changeErased.sec.lc = s.sec.lc ∧ s.changeErased.sec.lcCount = s.sec.lcCount ∧
    s.changeErased.sec.changePending = none ∧ s.changeErased.sec.flashBad = s.sec.flashBad ∧ s.changeErased.sec.dir = s.sec.dir ∧ s.changeErased.sec.keys = s.sec.keys ∧
    s.changeErased.sec.flash = flashWipe s.sec.flash 0x8_0000 0x10_0000 ∧ s.changeErased.regs = [] ∧
    s.changeErased.recd.intake = s.recd.intake ∧
    (∀ code bytes, s.changeErased.eventNow code bytes = s.eventNow code bytes) := by
  simp [State.changeErased, State.modSec, State.regsReset, State.scReset, Sec.wiped, State.eventNow]

theorem exec_lifeCycleChangeDone_pending (ha : s.alive = true) (hs : s.sec.changeStage = 2) (hb : s.pins.booting = false) :
    exec .lifeCycleChangeDone s = .next s.finishChange.beginBoot := congrArg Host.Outcome.next (if_pos (by simp [ha, hs, hb]))

theorem State.checkToken_empty (s : State) : s.checkToken (tabBytes [] 256) = .error 0xA008 := by
  have hmagic : leAt (tabBytes [] 256) 0 4 ≠ 0x4E4B_434C := by decide
  rw [State.checkToken, if_pos hmagic]

end

/-- Settles O47: a token by its checks, then the end of the change by what it erases (`State.changeErased`), the keys it makes
(`State.changeKeys`) and the boot it begins. -/
theorem lifeCycleChanges : Obligations.LifeCycleChanges := by
  intro s code b r
  refine ⟨fun ha => ⟨fun hc => (exec_lcGo_alive ha).trans (congrArg _ (State.lcGo_changing hc)),
    fun hc h => (exec_lcGo_alive ha).trans (congrArg _ (State.lcGo_refused hc h)), exec_lcGo_taken ha, fun a hs hb hp => ?done⟩,
    fun _ ht ha hc => (exec_lcGo_alive ha).trans (congrArg _ (State.lcGo_refused hc (ht ▸ s.checkToken_empty)))⟩
  case done =>
    refine ⟨_, exec_lifeCycleChangeDone_pending ha hs hb, ?_⟩
    obtain ⟨hlc, hn, hpend, -, hdir, hkeys, hflash, hregs, hintake, hevent⟩ := s.changeErased_leaves
    obtain ⟨hlc', hn', hpend', hdir', hflash', -, hregs', hrecd', hticks'⟩ := s.changeErased.changeKeys_leaves b
    have hmade := s.changeErased.changeKeys_provisioned
    have herased := s.changeErased.changeKeys_retired
    have hraised (payload : List Byte) : (s.changeErased.changeKeys b).eventNow 0xA804 payload = s.eventNow 0xA804 payload := by
      rw [← hevent, State.eventNow, hrecd', hticks', State.eventNow]
    have hcount : (s.changeErased.changeKeys b).dirCount = s.dirCount := by rw [State.dirCount, hdir', hdir, State.dirCount]
    rw [State.finishChange_pending hp, State.beginBoot_recd, State.beginBoot_mem, State.beginBoot_booting]
    generalize hk : s.changeErased.changeKeys b = k at *
    generalize hpay : leBytes 1 (lcCode a) ++ leBytes 1 (lcCode b) ++ leBytes 1 k.sec.lcCount = payload
    have hcopy := k.look_writeDir
    obtain ⟨blc, bn, bpend, bunits, bdir, bflash, bpub, bwrap, bid, bcerts, bkeys, bpriv⟩ := (k.writeDir.raise 0xA804 payload).beginBoot_sec
    refine ⟨bpend.trans (hpend'.trans hpend), blc.trans (hlc'.trans hlc), bn.trans (hn'.trans hn), rfl, rfl,
      State.beginBoot_regs _ (hregs'.trans hregs), ?flash, ?made, ?erased, bpriv, ?copy, ?event⟩
    case flash =>
      intro o hlow hhigh
      rw [bflash]
      show look k.sec.flash o = none
      rw [hflash', hflash, look_flashWipe, if_neg (by omega)]
    case made =>
      rintro rfl
      obtain ⟨iv, secret, hpub, hwrap, hiv, hid, hmore⟩ := hk ▸ hmade
      exact ⟨bkeys.trans (hmore.trans (congrArg (· + 1) hkeys)), by rw [bid, bpub]; exact hid.trans (by rw [← hpub]; rfl),
        iv, secret, bpub.trans hpub, bwrap.trans hwrap, hiv⟩
    case erased =>
      rintro rfl
      obtain ⟨hpub, hwrap, hcerts⟩ := hk ▸ herased
      exact ⟨bpub.trans hpub, bwrap.trans hwrap, bcerts.trans hcerts⟩
    case copy =>
      rw [bdir, State.dirContents_congr (s := k) bunits blc bpend]
      exact hcount ▸ hcopy
    case event =>
      have hcnt : k.sec.lcCount = s.sec.lcCount := hn'.trans hn
      show k.recd.intake ++ [k.eventNow 0xA804 payload] = _
      rw [hrecd', hintake, hraised, ← hpay, hcnt]

end Sys2Proof.Machine
end

section
/-! PROOFS. The end of a boot, and the hub dies that fail, hand over and come back (R492, R497 to R499, R514 to R517). -/

namespace Sys2Proof.Machine

open Sys2Proof

/-! ### The boot -/

/-- The security block but for the slots, the directory and the code shown, which a boot's units change. -/
def Sec.unbooted (c : Sec) : Sec := { c with units := [], dir := [], lastCode := 0 }

section
variable (s : State)

theorem State.unbooted_dropTrials (u : Nat) : (s.dropTrials u).sec.unbooted = s.sec.unbooted :=
  List.foldlRecOn (motive := fun t : State => t.sec.unbooted = s.sec.unbooted) [false, true] _ rfl fun t ht b _ => by
    dsimp only
    split
    · exact ht
    · exact ht

theorem State.unbooted_trySlots (l : List Bool) (u : Nat) : (State.trySlots l u s).sec.unbooted = s.sec.unbooted := by
  induction l generalizing s with
  | nil => rfl
  | cons b bs ih =>
    unfold State.trySlots
    extract_lets code s1
    split
    · rfl
    · exact ih _

theorem State.unbooted_bootUnit (u : Nat) : (s.bootUnit u).sec.unbooted = s.sec.unbooted := by
  unfold State.bootUnit
  split
  · rfl
  · exact (State.unbooted_trySlots ..).trans (s.unbooted_dropTrials u)

/-- The units booted one after another. -/
def State.bootUnits (l : List Nat) : State := l.foldl (fun (t : State) u => t.bootUnit u) s

theorem State.unbooted_bootUnits (l : List Nat) : (s.bootUnits l).sec.unbooted = s.sec.unbooted :=
  List.foldlRecOn (motive := fun t : State => t.sec.unbooted = s.sec.unbooted) l _ rfl fun t ht u _ => (t.unbooted_bootUnit u).trans ht

end

theorem State.fwUnit_modFw (s : State) {u v : Nat} (f : FwUnit → FwUnit) (hu : u < s.sec.units.length) :
    (s.modFw u f).fwUnit v = if u = v then f (s.fwUnit u) else s.fwUnit v := by
  by_cases h : u = v
  · subst h
    simp [State.fwUnit, State.modFw, hu]
  · simp [State.fwUnit, State.modFw, h]

/-- From a flash outside the limits each unit that boots does not run (R492). -/
theorem State.bootUnits_running_none (l : List Nat) {s : State} (hb : s.sec.flashBad = true) (hl : ∀ u ∈ l, u < s.sec.units.length)
    {v : Nat} (hv : v ∈ l ∨ (s.fwUnit v).running = none) : ((s.bootUnits l).fwUnit v).running = none := by
  induction l generalizing s with
  | nil => exact hv.resolve_left List.not_mem_nil
  | cons u us ih =>
    have hu : s.bootUnit u = s.modFw u fun w => { w with running := none } := if_pos hb
    have hlen : (s.bootUnit u).sec.units.length = s.sec.units.length := by rw [hu]; exact List.length_set ..
    refine ih (s := s.bootUnit u) (by rw [hu]; exact hb) (fun k hk => hlen ▸ hl k (List.mem_cons_of_mem _ hk)) ?_
    rw [hu, State.fwUnit_modFw s _ (hl u List.mem_cons_self)]
    by_cases huv : u = v
    · exact Or.inr (by rw [if_pos huv])
    · rw [if_neg huv]
      exact hv.imp_left fun h => (List.mem_cons.mp h).resolve_left fun e => huv e.symm

/-- The slots chosen, the directory written where a slot was marked, and the identity key unwrapped. -/
def State.bootSlots (c : State) : State := (c.keepDir (c.bootUnits (List.range 6))).unwrapKey

theorem State.bootSlots_units (c : State) : c.bootSlots.sec.units = (c.bootUnits (List.range 6)).sec.units := by
  simp only [State.bootSlots, State.unwrapKey, State.keepDir, apply_ite State.sec, apply_ite Sec.units]
  exact ite_self _

/-- What a boot's slots leave of the security block: all but the slots, the directory, the code shown and the key unwrapped. -/
theorem State.bootSlots_sec (c : State) : c.bootSlots.sec.unbooted = { c.sec.unbooted with privKey := c.unwrapKey.sec.privKey } := by
  have hu := c.unbooted_bootUnits (List.range 6)
  generalize hk : c.keepDir (c.bootUnits (List.range 6)) = k
  have hkeep : k.sec.unbooted = c.sec.unbooted := by
    rw [← hk, State.keepDir]
    split
    · exact hu
    · exact hu
  have hwrap := congrArg Sec.wrappedKey hkeep
  rw [State.bootSlots, hk, ← hkeep]
  simp only [State.unwrapKey, Sec.unbooted] at hwrap ⊢
  rw [hwrap]

/-- The boot from its slots to the trained links: with the units without an image recorded (R498, R499), and the bytes of BOOT_DONE. -/
def State.bootRun (c : State) : State × List Byte :=
  let s1 := c.bootSlots
  let mask := s1.noImage
  let s2 := if mask = 0 then s1 else (s1.modSec fun c => { c with lastCode := 0xA00E }).raise 0xA803 (leBytes 1 mask)
  let b := State.slotBytesNow (List.range 6) s2
  (((b.2.modPins fun p => { p with booting := false }).modSec fun c => { c with bootDone := true }).startTraining, b.1)

theorem exec_bootDone_booting {s d c : State} {f : FlashParams} (ha : s.alive = true) (hb : s.pins.booting = true)
    (hd : (s.modSec fun c => { c with flashBad := !flashOk f }).readDir = d)
    (hc : (if d.sec.changeStage = 2 then d.finishChange else d) = c) :
    exec (.bootDone f) s = .next ((c.bootRun.1.bump (offSc 0xC0) 1).raise 0xA801 c.bootRun.2) := by
  refine (congrArg Host.Outcome.next (if_neg (by simp [ha, hb]))).trans ?_
  dsimp only
  rw [hd, hc]
  unfold State.bootRun State.bootSlots State.bootUnits
  with_reducible rfl

/-- What a boot leaves: all but the slots, the directory, the key unwrapped, the ports that train and what is recorded. -/
theorem State.bootRun_leaves (c : State) : c.bootRun.1.sec.unbooted = { c.bootSlots.sec.unbooted with bootDone := true } ∧
    c.bootRun.1.sec.units = c.bootSlots.sec.units ∧ c.bootRun.1.pins.booting = false ∧ c.bootRun.1.regs = c.regs ∧
    c.bootRun.1.ident = c.ident ∧ c.bootRun.1.objs = c.objs := by
  have hslots (a : Area) (h : a ∉ [Area.surv, .sec, .recd]) : a.same c c.bootSlots :=
    Area.same_of_keeps (fun _ w => State.unwrapKey_keeps (w.sub rfl) (State.keepDir_keeps (w.sub rfl)
      (Keeps.foldl (fun _ _ h => State.bootUnit_keeps w h) (Keeps.refl c)))) a h
  unfold State.bootRun
  extract_lets s1 mask s2 b
  have hs2 : s2.sec.unbooted = s1.sec.unbooted ∧ s2.sec.units = s1.sec.units ∧ s2.regs = s1.regs ∧ s2.ident = s1.ident ∧ s2.objs = s1.objs := by
    dsimp only [s2]
    split <;> exact ⟨rfl, rfl, rfl, rfl, rfl⟩
  obtain ⟨hsec, hunits, hregs, hident, hobjs⟩ := hs2
  have hb (a : Area) (h : a ∉ [Area.free]) : a.same s2 b.2 := Area.same_of_keeps (fun _ w => State.slotBytesNow_keeps w (Keeps.refl s2)) a h
  clear_value b
  generalize hu : ((b.2.modPins fun p => { p with booting := false }).modSec fun c => { c with bootDone := true }) = u
  have ht (a : Area) (h : a ∉ [Area.host]) : a.same u u.startTraining :=
    Area.same_of_keeps (fun _ w => State.startTraining_keeps w (Keeps.refl u)) a h
  have hbsec : b.2.sec = s2.sec := hb .sec (by decide)
  have husec : u.sec = { s2.sec with bootDone := true } := by rw [← hu, ← hbsec]; rfl
  dsimp only
  rw [show u.startTraining.sec = _ from ht .sec (by decide), husec]
  refine ⟨?_, hunits, ?_, ?_, ?_, ?_⟩
  · exact congrArg (fun x : Sec => { x with bootDone := true }) hsec
  · rw [show u.startTraining.pins = _ from ht .pins (by decide), ← hu]; rfl
  · rw [show u.startTraining.regs = _ from ht .regs (by decide), ← hu]
    exact (hb .regs (by decide)).trans (hregs.trans (hslots .regs (by decide)))
  · rw [show u.startTraining.ident = _ from ht .ident (by decide), ← hu]
    exact (hb .ident (by decide)).trans (hident.trans (hslots .ident (by decide)))
  · rw [show u.startTraining.objs = _ from ht .objs (by decide), ← hu]
    exact (hb .objs (by decide)).trans (hobjs.trans (hslots .objs (by decide)))


/-- What the completion of a change left pending leaves of the flash's finding. -/
theorem State.finishChange_flashBad (s : State) : s.finishChange.sec.flashBad = s.sec.flashBad := by
  rcases hp : s.sec.changePending with _ | ⟨a, b⟩
  · rw [State.finishChange, hp]
  · obtain ⟨-, -, -, hbad, -⟩ := s.changeErased_leaves
    obtain ⟨-, -, -, -, -, hbad', -⟩ := s.changeErased.changeKeys_leaves b
    rw [State.finishChange_pending hp]
    generalize s.changeErased.changeKeys b = k at *
    exact hbad'.trans hbad

theorem State.readDir_flashBad (s : State) : s.readDir.sec.flashBad = s.sec.flashBad := by
  unfold State.readDir
  split <;> rfl

/-! ### The hub dies -/

section
variable {s : State} {h sb : Nat}

/-- The two lanes of a hub die taken out change nothing of the security block. -/
theorem State.hubLanesOut_same (s : State) (h : Nat) (a : Area)
    (ha : a ∉ [Area.regs, .mem, .cache, .hbm, .cores, .seqs, .objs, .host, .fab, .uu, .surv, .pwr, .recd, .free]) : a.same s (s.hubLanesOut h) :=
  Area.same_of_keeps (fun _ w => State.hubLanesOut_keeps w (Keeps.refl s)) a ha

/-- A failover of a die that is active or standby: who is active after it, and what the failed die becomes (R514, R515). -/
theorem State.failover_moves {na : Nat} (hs : s.sec.hubs[h]? = some .active ∨ s.sec.hubs[h]? = some .standby)
    (hna : (if h = s.sec.hubActive then s.sec.hubStandby.getD s.sec.hubActive else s.sec.hubActive) = na) (hne : na ≠ h) :
    (s.failover h).sec.hubActive = na ∧
    (s.failover h).sec.hubs = (s.sec.hubs.set h (if 3 ≤ lookD s.sec.hubFails h 0 + 1 then .retired else .resetting)).set na .active ∧
    (s.failover h).sec.hubFails = put s.sec.hubFails h (lookD s.sec.hubFails h 0 + 1) ∧ (s.failover h).sec.lc = s.sec.lc ∧
    (s.failover h).sec.units = s.sec.units ∧ (s.failover h).pins = s.pins := by
  unfold State.failover
  dsimp only
  rw [hna, if_neg (by rintro (⟨h1, h2⟩ | h1); exacts [hs.elim h1 h2, hne h1])]
  generalize hu : State.modSec s _ = u
  have hsec : (u.hubLanesOut h).sec = u.sec := u.hubLanesOut_same h .sec (by decide)
  have hpins : (u.hubLanesOut h).pins = u.pins := u.hubLanesOut_same h .pins (by decide)
  simp only [apply_ite State.sec, apply_ite State.pins, State.raise_sec, State.raise_pins, ite_self, hsec, hpins]
  subst hu
  exact ⟨rfl, rfl, rfl, rfl, rfl, rfl⟩

/-- The same of the state as the failure or the command finds it: the failed die resets, or is retired at its third failover. -/
theorem State.failover_dies {na : Nat} (hs : s.sec.hubs[h]? = some .active ∨ s.sec.hubs[h]? = some .standby)
    (hna : (if h = s.sec.hubActive then s.sec.hubStandby.getD s.sec.hubActive else s.sec.hubActive) = na) (hne : na ≠ h)
    (hh : h < 4) (hlen : s.sec.hubs.length = 4) :
    (s.failover h).sec.hubActive = na ∧
    (s.failover h).sec.hubs[h]? = some (if 2 ≤ lookD s.sec.hubFails h 0 then .retired else .resetting) ∧
    (na < 4 → (s.failover h).sec.hubs[na]? = some .active) ∧
    lookD (s.failover h).sec.hubFails h 0 = lookD s.sec.hubFails h 0 + 1 ∧ (s.failover h).sec.lc = s.sec.lc ∧
    (s.failover h).sec.units = s.sec.units ∧ (s.failover h).pins = s.pins := by
  obtain ⟨hactive, hhubs, hfails, hlc, hunits, hpins⟩ := s.failover_moves hs hna hne
  refine ⟨hactive, ?_, fun hlt => ?_, ?_, hlc, hunits, hpins⟩
  · rw [hhubs, List.getElem?_set_ne hne, List.getElem?_set_self (hlen.symm ▸ hh)]
    exact congrArg some (if_congr Nat.succ_le_succ_iff rfl rfl)
  · rw [hhubs, List.getElem?_set_self (by rwa [List.length_set, hlen])]
  · rw [hfails, lookD_put_self]

theorem exec_hubFailureDetected_alive (hh : h < 4) (ha : s.alive = true) : exec (.hubFailureDetected h) s =
    .next (if s.loneHub h then s.raise 0xA809 (leBytes 1 h) else s.failover h) :=
  congrArg Host.Outcome.next (if_neg (by simp [ha]; omega))

theorem exec_hubGo_up {p : Nat} (hp : p < 4) (hh : h < 4) (hu : (s.port p).up = true) : exec (.hubGo p h) s =
    .next (if p ≠ s.mgmtPort then s.bump (offBl p 0x78) 1 else (s.setField (offSc 0x18) 0 2 h).hubGo h) :=
  congrArg Host.Outcome.next (if_neg (by simp [hu]; omega))

theorem State.loneHub_of_standby (hs : s.sec.hubStandby = some sb) : s.loneHub h = false := by simp [State.loneHub, hs]

theorem State.loneHub_of_ne (hn : s.sec.hubActive ≠ h) : s.loneHub h = false := by simp [State.loneHub, hn.symm]

theorem exec_hubSelfTestDone_resetting (hr : s.sec.hubs[h]? = some .resetting) (pass : Bool) : exec (.hubSelfTestDone h pass) s =
    .next (if pass then
      (s.modSec fun c => { c with hubs := c.hubs.set h .standby,
                                  hubStandby := if c.hubStandby.isNone then some h else c.hubStandby }).hubLanesBack h
    else (s.modSec fun c => { c with hubs := c.hubs.set h .retired }).raise 0xA80A (leBytes 1 h)) :=
  congrArg Host.Outcome.next (if_neg (not_not.mpr hr))

end

/-- Settles O46: the boot from its slots to its ports (`State.bootRun_leaves`), and the hub dies by their failover (`State.failover_dies`). -/
theorem bootsAndHubsChange : Obligations.BootsAndHubsChange := by
  intro s p h sb f
  refine ⟨fun ha hb => ?boot, fun hp hh hu => ⟨fun hne => ?other, fun he hl => ?lone, fun he hl => ?taken⟩, fun hh ha hl => ?refused,
    fun hh ha hs hactive hst hne hsb hlen => ?active, fun hh ha hs hactive hlen => ?standby, fun hr => ⟨?back, ?retired⟩⟩
  case boot =>
    extract_lets d c
    refine ⟨_, exec_bootDone_booting (d := d) (c := c) ha hb rfl rfl, ?_⟩
    have hbad : c.sec.flashBad = !flashOk f := by
      have hd : d.sec.flashBad = !flashOk f := State.readDir_flashBad _
      rw [show c = if d.sec.changeStage = 2 then d.finishChange else d from rfl, apply_ite State.sec, apply_ite Sec.flashBad,
        d.finishChange_flashBad, ite_self, hd]
    clear_value c
    obtain ⟨hsec, hunits, hpins, hregs, hident, hobjs⟩ := c.bootRun_leaves
    rw [c.bootSlots_sec] at hsec
    generalize c.bootRun = r at *
    have hreg (o : Nat) : r.1.reg o = c.reg o := by rw [State.reg, hregs, hident, State.reg]
    have hfield {β : Type} (p : Sec → β) := congrArg p hsec
    refine ⟨hpins, hfield Sec.bootDone, (hfield Sec.flashBad).trans hbad, ?_, hobjs, hfield Sec.lc, hfield Sec.keys,
      hfield Sec.wrappedKey, hfield Sec.privKey, fun hf hlen u hu => ?_, ?_⟩
    · exact (r.1.reg_bump_self _ 1).trans (by rw [hreg])
    · have hall (v : Nat) (hv : v ∈ List.range 6) : v < c.sec.units.length := hlen.symm ▸ List.mem_range.mp hv
      have hnone := State.bootUnits_running_none (List.range 6) (hbad.trans (by rw [hf]; rfl)) hall (Or.inl (List.mem_range.mpr hu))
      rw [← hnone]
      exact congrArg (fun l : List FwUnit => ((l[u]?).getD FwUnit.delivered).running) (hunits.trans c.bootSlots_units)
    · exact congrArg (Option.map fun x : RawEvent => x.code) List.getLast?_concat
  case other => exact (exec_hubGo_up hp hh hu).trans (congrArg _ (if_pos hne))
  case lone =>
    refine ⟨_, (exec_hubGo_up hp hh hu).trans (congrArg _ ((if_neg (not_not.mpr he)).trans (if_pos hl))), rfl, rfl, rfl⟩
  case taken =>
    refine (exec_hubGo_up hp hh hu).trans (congrArg _ ((if_neg (not_not.mpr he)).trans (if_neg ?_)))
    exact Bool.eq_false_iff.mp hl
  case refused => exact (exec_hubFailureDetected_alive hh ha).trans (congrArg _ (if_pos hl))
  case active =>
    obtain ⟨hto, hfrom, hnew, hfails, hlc, hunits, hpins⟩ := s.failover_dies (h := h) (na := sb) (Or.inl hs)
      (by rw [if_pos hactive.symm, hst]; rfl) hne hh hlen
    exact ⟨_, (exec_hubFailureDetected_alive hh ha).trans (congrArg _ (if_neg (Bool.eq_false_iff.mp (State.loneHub_of_standby hst)))),
      hto, hnew hsb, hfrom, hfails, hlc, hunits, hpins⟩
  case standby =>
    obtain ⟨hto, hfrom, -, hfails, hlc, hunits, hpins⟩ := s.failover_dies (h := h) (na := s.sec.hubActive) (Or.inr hs)
      (if_neg hactive.symm) hactive hh hlen
    exact ⟨_, (exec_hubFailureDetected_alive hh ha).trans (congrArg _ (if_neg (Bool.eq_false_iff.mp (State.loneHub_of_ne hactive)))),
      hto, hfrom, hfails, hlc, hunits, hpins⟩
  case back =>
    refine ⟨_, (exec_hubSelfTestDone_resetting hr true).trans (congrArg _ (if_pos rfl)), ?_⟩
    generalize hu : State.modSec s _ = u
    have hsec : (u.hubLanesBack h).sec = u.sec :=
      Area.same_of_keeps (fun _ w => State.hubLanesBack_keeps w (Keeps.refl u)) .sec (by decide)
    rw [hsec, ← hu]
    exact ⟨rfl, rfl, rfl⟩
  case retired => exact (exec_hubSelfTestDone_resetting hr false).trans (congrArg _ (if_neg Bool.false_ne_true))

end Sys2Proof.Machine
end

section
/-! PROOFS. The update of a firmware unit: its start, its writing, its trial, its commit or its abort (R500, R508 to R512). -/

namespace Sys2Proof.Machine

open Sys2Proof

/-! ### Slots and fuses -/

section
variable (w : FwUnit) (b : Bool) (k : FwSlot)

@[simp] theorem FwUnit.slot_setSlot_self : (w.setSlot b k).slot b = k := by cases b <;> rfl
@[simp] theorem FwUnit.slot_setSlot_not : (w.setSlot b k).slot (!b) = w.slot (!b) := by cases b <;> rfl
@[simp] theorem FwUnit.running_setSlot : (w.setSlot b k).running = w.running := by cases b <;> rfl
@[simp] theorem FwUnit.fuses_setSlot : (w.setSlot b k).fuses = w.fuses := by cases b <;> rfl

end

/-- Fuses burnt one after another from the first: the value of `n` of them. -/
def burnt (n : Nat) : BitVec 32 := BitVec.ofNat 32 (2 ^ n - 1)

theorem getLsbD_burnt (n i : Nat) : (burnt n).getLsbD i = (decide (i < 32) && decide (i < n)) := by
  rw [burnt, BitVec.getLsbD_ofNat, Nat.testBit_two_pow_sub_one]

theorem burnt_or_burnt (m n : Nat) : burnt m ||| burnt n = burnt (max m n) := by
  ext i hi
  rw [← BitVec.getLsbD_eq_getElem, ← BitVec.getLsbD_eq_getElem, BitVec.getLsbD_or, getLsbD_burnt, getLsbD_burnt, getLsbD_burnt]
  simp [hi]

/-- The least version that a unit of `n` fuses accepts is `n` (R508). -/
theorem FwUnit.minSecVer_of_burnt {w : FwUnit} {n : Nat} (hn : n ≤ 32) (h : w.fuses = burnt n) : w.minSecVer = n := by
  have hlt : (List.range 32).filter (fun i => w.fuses.getLsbD i) = List.range n := by
    have hsplit : List.range 32 = List.range n ++ (List.range (32 - n)).map (n + ·) := by
      rw [← List.range_add, Nat.add_sub_cancel' hn]
    rw [hsplit, List.filter_append, List.filter_eq_self.mpr, List.filter_eq_nil_iff.mpr, List.append_nil]
    · simp [h, getLsbD_burnt]
    · intro i hi
      have hi := List.mem_range.mp hi
      simp [h, getLsbD_burnt, hi, lt_of_lt_of_le hi hn]
  rw [FwUnit.minSecVer, hlt, List.length_range]

/-! ### The commands -/

section
variable {s : State}

theorem State.fwUnit_modFw_self {u : Nat} (f : FwUnit → FwUnit) (hu : u < s.sec.units.length) : (s.modFw u f).fwUnit u = f (s.fwUnit u) :=
  (s.fwUnit_modFw f hu).trans (if_pos rfl)

theorem State.fwUnit_modFw_ne {u v : Nat} (f : FwUnit → FwUnit) (hu : u < s.sec.units.length) (h : v ≠ u) :
    (s.modFw u f).fwUnit v = s.fwUnit v := (s.fwUnit_modFw f hu).trans (if_neg h.symm)

theorem exec_updGo_alive (h : s.alive = true) : exec .updGo s = .next s.updGo := congrArg Host.Outcome.next (if_pos h)

/-- An event raised by a state that recorded no more and is no later than `s`. -/
theorem State.intake_raise {t : State} (hr : t.recd = s.recd) (ht : t.ticks = s.ticks) (code : Nat) (bytes : List Byte) :
    (t.raise code bytes).recd.intake = s.recd.intake ++ [s.eventNow code bytes] := by
  rw [State.eventNow, ← hr, ← ht]
  rfl

/-- A slot changed, the directory written behind it, the stage set and what is recorded. -/
def State.slotKept (s : State) (f : FwUnit → FwUnit) (g : UpdState → UpdState) : State := (s.modFw s.sec.upd.unit f).writeDir.modHot g

theorem State.slotKept_leaves (s : State) (f : FwUnit → FwUnit) (g : UpdState → UpdState) (hu : s.sec.upd.unit < s.sec.units.length) :
    (s.slotKept f g).sec.upd = g s.sec.upd ∧ (s.slotKept f g).fwUnit s.sec.upd.unit = f (s.fwUnit s.sec.upd.unit) ∧
    (∀ v, v ≠ s.sec.upd.unit → (s.slotKept f g).fwUnit v = s.fwUnit v) ∧
    look (s.slotKept f g).sec.dir ((s.dirCount + 1) % 2) =
      some ⟨(s.slotKept f g).dirContents, sha384 (s.slotKept f g).dirContents, s.dirCount + 1⟩ ∧
    (s.slotKept f g).mem = s.mem ∧ (s.slotKept f g).regs = s.regs ∧ (s.slotKept f g).recd = s.recd ∧ (s.slotKept f g).ticks = s.ticks := by
  refine ⟨rfl, State.fwUnit_modFw_self f hu, fun v hv => State.fwUnit_modFw_ne f hu hv, ?_, rfl, rfl, rfl, rfl⟩
  have hdir := (s.modFw s.sec.upd.unit f).look_writeDir
  rwa [State.dirContents_congr (t := s.slotKept f g) rfl rfl rfl]

/-- The dusk unit's move leaves the slots, the registers, the memories and what is recorded (R510). -/
theorem State.duskMoves_leaves (s : State) : s.duskMoves.sec.units = s.sec.units ∧ s.duskMoves.regs = s.regs ∧ s.duskMoves.ident = s.ident ∧
    s.duskMoves.mem = s.mem ∧ s.duskMoves.recd = s.recd ∧ s.duskMoves.ticks = s.ticks := by
  unfold State.duskMoves
  split <;> exact ⟨rfl, rfl, rfl, rfl, rfl, rfl⟩

/-- The state that an activation finds once the dusk unit's roles have moved where it is that unit's own. -/
def State.readyToSwitch (s : State) : State := if s.sec.upd.unit = 0 then s.duskMoves else s

theorem State.readyToSwitch_leaves (s : State) : s.readyToSwitch.sec.units = s.sec.units ∧ s.readyToSwitch.regs = s.regs ∧
    s.readyToSwitch.ident = s.ident ∧ s.readyToSwitch.mem = s.mem ∧ s.readyToSwitch.recd = s.recd ∧ s.readyToSwitch.ticks = s.ticks := by
  unfold State.readyToSwitch
  split
  · exact s.duskMoves_leaves
  · exact ⟨rfl, rfl, rfl, rfl, rfl, rfl⟩

theorem State.activate_back (h : s.sec.upd.rollback = true) : s.activate =
    (s.readyToSwitch.modFw s.sec.upd.unit fun w => { w with running := w.order.head? }).modHot fun u =>
      { u with stage := .idle, rollback := false, due := false } := if_pos h

theorem State.activate_forth (h : s.sec.upd.rollback = false) : s.activate =
    (((s.readyToSwitch.modFw s.sec.upd.unit fun w => { w with running := some s.sec.upd.slotB }).modHot fun u =>
      { u with stage := .trial, due := false }).bump (offSc 0xC8) 1).raise 0xA805 (leBytes 1 s.sec.upd.unit ++
        leBytes 1 (b2n s.sec.upd.slotB) ++ leBytes 4 ((s.readyToSwitch.fwUnit s.sec.upd.unit).slot s.sec.upd.slotB).version) :=
  if_neg (Bool.eq_false_iff.mp h)

theorem exec_unitActivation_reached (ha : s.sec.upd.stage = .activating) (hs : s.switchPoint s.sec.upd.unit = true) : exec .unitActivation s =
    .next (if s.sec.attQueue ≠ [] then s.modHot fun u => { u with due := true } else s.activate) :=
  congrArg Host.Outcome.next (if_neg (by simp [ha, hs]))

theorem exec_unitActivation_not (h : s.sec.upd.stage ≠ .activating ∨ s.switchPoint s.sec.upd.unit = false) : exec .unitActivation s = .next s :=
  congrArg Host.Outcome.next (if_pos (h.imp_right fun h => by simp [h]))

theorem exec_unitActivation_now (ha : s.sec.upd.stage = .activating) (hs : s.switchPoint s.sec.upd.unit = true) (hq : s.sec.attQueue = []) :
    exec .unitActivation s = .next s.activate :=
  (exec_unitActivation_reached ha hs).trans (congrArg _ (if_neg (not_not.mpr hq)))

/-- The image of an update in the flash, where it was not there already (R510). -/
def State.programmed (s : State) : State :=
  if s.sec.upd.noProgram then s
  else s.modSec fun c => { c with flash := flashPut c.flash (slotBase s.sec.upd.unit s.sec.upd.slotB) s.sec.upd.image }

theorem State.programmed_leaves (s : State) : s.programmed.sec.units = s.sec.units ∧ s.programmed.sec.upd = s.sec.upd ∧
    s.programmed.sec.dir = s.sec.dir ∧ s.programmed.mem = s.mem ∧ s.programmed.regs = s.regs := by
  unfold State.programmed
  split <;> exact ⟨rfl, rfl, rfl, rfl, rfl⟩

/-- What the directory holds of the slot that an update has written: on trial, newer than the slot that runs. -/
def State.trialSlot (s : State) : FwSlot :=
  let w := s.fwUnit s.sec.upd.unit
  let o := w.slot s.sec.upd.slotB
  let seq := match w.order with | b :: _ => (w.slot b).seq + 1 | [] => 1
  if o.delivered then { o with state := .trial, seq := seq } else ⟨.trial, seq, leAt s.sec.upd.image 8 4, leAt s.sec.upd.image 12 1, false⟩

theorem State.trialSlot_state (s : State) : s.trialSlot.state = .trial := by
  unfold State.trialSlot
  extract_lets w o seq
  split <;> rfl

/-- A write that ends well: the image in the flash, the slot on trial. -/
theorem exec_updWriteDone_ends (h : s.sec.upd.stage = .writing) : exec (.updWriteDone true) s = .next
    (s.programmed.slotKept (fun w => w.setSlot s.sec.upd.slotB s.trialSlot) fun u => { u with stage := .activating, image := [] }) := by
  have hunit : s.programmed.sec.upd.unit = s.sec.upd.unit := by rw [s.programmed_leaves.2.1]
  rw [State.slotKept, hunit]
  exact congrArg Host.Outcome.next ((if_neg (not_not.mpr h)).trans (if_neg Bool.false_ne_true))

/-- What a commit does to its unit: the slot committed, its version fused where that is asked (R512). -/
def FwUnit.commitSlot (w : FwUnit) (b m : Bool) (o : FwSlot) : FwUnit :=
  let w1 := w.setSlot b { o with state := .committed }
  if m then { w1 with fuses := w1.fuses ||| burnt (min 32 o.secVer) } else w1

theorem FwUnit.commitSlot_slot (w : FwUnit) (b m : Bool) (o : FwSlot) : (w.commitSlot b m o).slot b = { o with state := .committed } := by
  cases m
  · exact FwUnit.slot_setSlot_self ..
  · exact FwUnit.slot_setSlot_self w b _

theorem FwUnit.commitSlot_fuses (w : FwUnit) (b m : Bool) (o : FwSlot) : (w.commitSlot b m o).fuses =
    if m = true then w.fuses ||| burnt (min 32 o.secVer) else w.fuses := by
  cases m
  · exact FwUnit.fuses_setSlot ..
  · exact congrArg (· ||| burnt (min 32 o.secVer)) (FwUnit.fuses_setSlot ..)

theorem FwUnit.commitSlot_minSecVer {w : FwUnit} {n : Nat} (b m : Bool) (o : FwSlot) (hn : n ≤ 32) (h : w.fuses = burnt n) :
    (w.commitSlot b m o).minSecVer = if m = true then max n (min 32 o.secVer) else n := by
  have hf := w.commitSlot_fuses b m o
  cases m
  · exact FwUnit.minSecVer_of_burnt hn (hf.trans h)
  · exact FwUnit.minSecVer_of_burnt (max_le hn (min_le_left ..)) (hf.trans ((congrArg (· ||| burnt _) h).trans (burnt_or_burnt ..)))

/-- What a commit and an abort record of the trial slot. -/
def State.trialBytes (s : State) : List Byte :=
  leBytes 1 s.sec.upd.unit ++ leBytes 1 (b2n s.sec.upd.slotB) ++ leBytes 4 ((s.fwUnit s.sec.upd.unit).slot s.sec.upd.slotB).version

theorem exec_updCommit_trial (h : s.sec.upd.stage = .trial) (m : Bool) : exec (.updCommit m) s = .next
    ((s.slotKept (fun w => w.commitSlot s.sec.upd.slotB m ((s.fwUnit s.sec.upd.unit).slot s.sec.upd.slotB)) fun u => { u with stage := .idle }).raise
      0xA806 s.trialBytes) := congrArg Host.Outcome.next (if_neg (not_not.mpr h))

theorem exec_updAbort_trial (h : s.sec.upd.stage = .trial) : exec .updAbort s = .next
    ((s.slotKept (fun w => w.setSlot s.sec.upd.slotB { (s.fwUnit s.sec.upd.unit).slot s.sec.upd.slotB with state := .invalid }) fun u =>
      { u with stage := .activating, rollback := true }).raise 0xA807 s.trialBytes) := congrArg Host.Outcome.next (if_neg (not_not.mpr h))

/-! ### The start of an update -/

theorem State.updGo_changing (hc : s.changing = true) : s.updGo = s.modHot fun u => { u with lastCode := 0xA004 } := if_pos hc

theorem State.updGo_noSource (hc : s.changing = false) (h : s.updSource = none) : s.updGo = s.updFails 0xA005 := by
  simp [State.updGo, hc, h]

theorem State.updGo_inSlot {image : List Byte} {u : Nat} {b : Bool} (hc : s.changing = false) (h : s.updSource = some (image, some (u, b)))
    (hd : ((s.fwUnit u).slot b).delivered = false) : s.updGo =
      if s.checkImage u (s.fwUnit u).minSecVer image = 0 then s.updStart u b image true
      else s.updFails (s.checkImage u (s.fwUnit u).minSecVer image) := by
  simp [State.updGo, hc, h, hd]

theorem State.updGo_fromMemory {image : List Byte} (hc : s.changing = false) (h : s.updSource = some (image, none)) : s.updGo =
    let u := leAt image 4 1
    let code := if 6 ≤ u then 0xA001 else s.checkImage u (s.fwUnit u).minSecVer image
    if code = 0 then s.updStart u (s.fwUnit u).target image false else s.updFails code := by
  simp only [State.updGo, hc, h, Bool.false_eq_true, if_false]

end

/-- Settles O48: the start by where its image lies, then each stage by what it does to the unit's slot (`State.slotKept_leaves`). -/
theorem updatesOfFirmwareRun : Obligations.UpdatesOfFirmwareRun := by
  intro s image m u b k o
  refine ⟨fun ha => ⟨fun hc => ?changing, fun hc h => ?none, fun hc h h6 => ?notOne, fun hc h hd => ⟨fun hk => ?inSlot, fun hk => ?inSlotFails⟩,
      fun hc h h6 => ⟨fun hk => ?memory, fun hk => ?memoryFails⟩⟩, fun h => ?writeFails, fun h hu => ?writeEnds, fun h hs hq hr hu => ?forth,
    fun h hs hq hr hu => ?back, fun h hs hq => ?due, fun h => exec_unitActivation_not h, fun h => ⟨?noCommit, ?noAbort⟩, fun h hu => ?commit,
    fun h hu => ?abort⟩
  case changing => rw [exec_updGo_alive ha, State.updGo_changing hc]
  case none => rw [exec_updGo_alive ha, State.updGo_noSource hc h]
  case notOne =>
    rw [exec_updGo_alive ha, State.updGo_fromMemory hc h]
    dsimp only
    rw [if_pos h6, if_neg (by decide)]
  case inSlot => rw [exec_updGo_alive ha, State.updGo_inSlot hc h hd, if_pos hk]
  case inSlotFails => rw [exec_updGo_alive ha, State.updGo_inSlot hc h hd, if_neg hk]
  case memory =>
    rw [exec_updGo_alive ha, State.updGo_fromMemory hc h]
    dsimp only
    rw [if_neg (Nat.not_le.mpr h6), if_pos hk]
  case memoryFails =>
    rw [exec_updGo_alive ha, State.updGo_fromMemory hc h]
    dsimp only
    rw [if_neg (Nat.not_le.mpr h6), if_neg hk]
  case writeFails => exact congrArg Host.Outcome.next ((if_neg (not_not.mpr h)).trans (if_pos rfl))
  case writeEnds =>
    obtain ⟨hunits, hupd, hdir, hmem, hregs⟩ := s.programmed_leaves
    have hone (v : Nat) : s.programmed.fwUnit v = s.fwUnit v := by rw [State.fwUnit, hunits, State.fwUnit]
    have hcount : s.programmed.dirCount = s.dirCount := by rw [State.dirCount, hdir, State.dirCount]
    refine ⟨_, exec_updWriteDone_ends h, ?_⟩
    generalize s.programmed = t at *
    obtain ⟨tupd, tunit, tothers, tdir, tmem, tregs, -, -⟩ := t.slotKept_leaves (fun w => w.setSlot s.sec.upd.slotB s.trialSlot)
      (fun u => { u with stage := .activating, image := [] }) (by rw [hupd, hunits]; exact hu)
    rw [hupd, hone] at tunit
    rw [hcount] at tdir
    refine ⟨congrArg UpdState.stage tupd, ?_, ?_, ?_, tdir, fun v hv => (tothers v (by rwa [hupd])).trans (hone v), tmem.trans hmem,
      tregs.trans hregs⟩
    · rw [tunit, FwUnit.slot_setSlot_self, s.trialSlot_state]
    · rw [tunit, FwUnit.slot_setSlot_not]
    · rw [tunit, FwUnit.running_setSlot]
  case forth =>
    obtain ⟨hunits, hregs, hident, hmem, hrecd, hticks⟩ := s.readyToSwitch_leaves
    obtain ⟨hstage, hreg⟩ := State.activate_trial hr
    obtain ⟨-, -, hkept⟩ := s.activate_leaves
    have hone : s.readyToSwitch.fwUnit k.unit = s.fwUnit k.unit := by rw [State.fwUnit, hunits, State.fwUnit]
    refine ⟨_, exec_unitActivation_now h hs hq, hstage, ?_, hreg, ?_, hkept⟩
    · rw [State.activate_forth hr]
      exact congrArg FwUnit.running (State.fwUnit_modFw_self (fun w => { w with running := some k.slotB }) (hunits ▸ hu))
    · rw [State.activate_forth hr, hone]
      generalize hv : State.bump _ _ _ = v
      exact State.intake_raise (t := v) (by rw [← hv]; exact hrecd) (by rw [← hv]; exact hticks) ..
  case back =>
    obtain ⟨hunits, hregs, -, hmem, hrecd, -⟩ := s.readyToSwitch_leaves
    refine ⟨_, exec_unitActivation_now h hs hq, ?_⟩
    have hone : s.readyToSwitch.fwUnit k.unit = s.fwUnit k.unit := by rw [State.fwUnit, hunits, State.fwUnit]
    rw [State.activate_back hr]
    refine ⟨rfl, ?_, hrecd, hregs, hmem⟩
    rw [← hone]
    exact congrArg FwUnit.running (State.fwUnit_modFw_self (fun w => { w with running := w.order.head? }) (hunits ▸ hu))
  case due => exact (exec_unitActivation_reached h hs).trans (congrArg _ (if_pos hq))
  case noCommit => exact congrArg Host.Outcome.next (if_pos h)
  case noAbort => exact congrArg Host.Outcome.next (if_pos h)
  case commit =>
    obtain ⟨tupd, tunit, -, tdir, tmem, tregs, trecd, tticks⟩ := s.slotKept_leaves (fun w => w.commitSlot k.slotB m o)
      (fun u => { u with stage := .idle }) hu
    refine ⟨_, exec_updCommit_trial h m, congrArg UpdState.stage tupd, ?_, ?_, ?_, tdir, ?_, tmem, tregs⟩
    · rw [← FwUnit.commitSlot_slot (s.fwUnit k.unit) k.slotB m o, ← tunit]; rfl
    · rw [← burnt, ← FwUnit.commitSlot_fuses (s.fwUnit k.unit) k.slotB m o, ← tunit]; rfl
    · intro n hn hf
      rw [← FwUnit.commitSlot_minSecVer k.slotB m o hn hf, ← tunit]; rfl
    · exact State.intake_raise trecd tticks ..
  case abort =>
    obtain ⟨tupd, tunit, -, tdir, tmem, tregs, trecd, tticks⟩ := s.slotKept_leaves (fun w => w.setSlot k.slotB { o with state := .invalid })
      (fun u => { u with stage := .activating, rollback := true }) hu
    refine ⟨_, exec_updAbort_trial h, congrArg UpdState.stage tupd, congrArg UpdState.rollback tupd, ?_, ?_, tdir, State.intake_raise trecd tticks ..,
      tmem, tregs⟩
    · exact (congrArg (fun w : FwUnit => w.slot k.slotB) tunit).trans (FwUnit.slot_setSlot_self ..)
    · exact (congrArg FwUnit.fuses tunit).trans (FwUnit.fuses_setSlot ..)

end Sys2Proof.Machine
end

section
/-! PROOFS. The event recorder: the intake, the flush and the lookups (R522 to R528). -/

namespace Sys2Proof.Machine

open Sys2Proof

/-! ### The record with the smallest number -/

/-- One step of the search for the smallest number: the earlier record stays where it is no greater. -/
def lesser (b : Option Record) (k : Record) : Option Record :=
  match b with | none => some k | some m => if k.seq < m.seq then some k else b

/-- The search ends with a record that it began with or met, and none that it met is smaller. -/
theorem foldl_lesser (l : List Record) (m : Record) : ∃ r, l.foldl lesser (some m) = some r ∧ r ∈ m :: l ∧ ∀ k ∈ m :: l, r.seq ≤ k.seq := by
  induction l generalizing m with
  | nil => exact ⟨m, rfl, List.mem_singleton_self m, fun k hk => (List.mem_singleton.mp hk) ▸ le_refl _⟩
  | cons a l ih =>
    have hstep : lesser (some m) a = some (if a.seq < m.seq then a else m) := (apply_ite some ..).symm
    obtain ⟨r, hr, hmem, hle⟩ := ih (if a.seq < m.seq then a else m)
    have hhead : r.seq ≤ m.seq ∧ r.seq ≤ a.seq := by
      have h := hle _ List.mem_cons_self
      split at h <;> omega
    refine ⟨r, (congrArg (l.foldl lesser) hstep).trans hr, ?_, ?_⟩
    · rcases List.mem_cons.mp hmem with h | h
      · rw [h]
        split <;> simp
      · simp [h]
    · intro k hk
      rcases List.mem_cons.mp hk with rfl | hk
      · exact hhead.1
      · rcases List.mem_cons.mp hk with rfl | hk
        · exact hhead.2
        · exact hle k (List.mem_cons_of_mem _ hk)

theorem firstFrom_eq (l : List Record) (n : Nat) : firstFrom l n = (l.filter fun k => decide (n ≤ k.seq)).foldl lesser none := rfl

theorem firstFrom_none {l : List Record} {n : Nat} (h : firstFrom l n = none) : ∀ k ∈ l, k.seq < n := by
  rw [firstFrom_eq] at h
  rcases hf : l.filter (fun k => decide (n ≤ k.seq)) with _ | ⟨a, t⟩
  · intro k hk
    simpa using List.filter_eq_nil_iff.mp hf k hk
  · rw [hf] at h
    obtain ⟨r, hr, -⟩ := foldl_lesser t a
    exact absurd (hr.symm.trans h) (by simp)

theorem firstFrom_some {l : List Record} {n : Nat} {r : Record} (h : firstFrom l n = some r) :
    r ∈ l ∧ n ≤ r.seq ∧ ∀ k ∈ l, n ≤ k.seq → r.seq ≤ k.seq := by
  rw [firstFrom_eq] at h
  rcases hf : l.filter (fun k => decide (n ≤ k.seq)) with _ | ⟨a, t⟩
  · rw [hf] at h
    exact absurd h (by simp)
  · rw [hf] at h
    obtain ⟨r', hr, hmem, hle⟩ := foldl_lesser t a
    obtain rfl : r' = r := Option.some.inj (hr.symm.trans h)
    rw [← hf] at hmem hle
    obtain ⟨hl, hn⟩ := List.mem_filter.mp hmem
    exact ⟨hl, of_decide_eq_true hn, fun k hk hkn => hle k (List.mem_filter.mpr ⟨hk, decide_eq_true hkn⟩)⟩

/-! ### The lookup -/

/-- What a lookup finds: the record, and whether it lies in the flash (R528). -/
def Recorder.found (r : Recorder) (n : Nat) : Option (Record × Bool) :=
  match firstFrom r.ring n, firstFrom r.flash n with
  | some a, some b => if b.seq < a.seq then some (b, true) else some (a, false)
  | some a, none => some (a, false)
  | none, some b => some (b, true)
  | none, none => none

theorem Recorder.found_none {r : Recorder} {n : Nat} (h : r.found n = none) : ∀ k ∈ r.ring ++ r.flash, k.seq < n := by
  unfold Recorder.found at h
  rcases ha : firstFrom r.ring n with _ | a <;> rcases hb : firstFrom r.flash n with _ | b <;> rw [ha, hb] at h
  · intro k hk
    exact (List.mem_append.mp hk).elim (firstFrom_none ha k) (firstFrom_none hb k)
  · exact absurd h (by simp)
  · exact absurd h (by simp)
  · dsimp only at h
    split at h <;> exact absurd h (by simp)

theorem Recorder.found_some {r : Recorder} {n : Nat} {k : Record} {f : Bool} (h : r.found n = some (k, f)) :
    k ∈ r.ring ++ r.flash ∧ n ≤ k.seq ∧ ∀ j ∈ r.ring ++ r.flash, n ≤ j.seq → k.seq ≤ j.seq := by
  unfold Recorder.found at h
  rcases ha : firstFrom r.ring n with _ | a <;> rcases hb : firstFrom r.flash n with _ | b <;> rw [ha, hb] at h
  · exact absurd h (by simp)
  · obtain rfl : b = k := congrArg Prod.fst (Option.some.inj h)
    obtain ⟨hmem, hn, hle⟩ := firstFrom_some hb
    refine ⟨List.mem_append_right _ hmem, hn, fun j hj hjn => (List.mem_append.mp hj).elim (fun hj => ?_) fun hj => hle j hj hjn⟩
    exact absurd hjn (Nat.not_le.mpr (firstFrom_none ha j hj))
  · obtain rfl : a = k := congrArg Prod.fst (Option.some.inj h)
    obtain ⟨hmem, hn, hle⟩ := firstFrom_some ha
    refine ⟨List.mem_append_left _ hmem, hn, fun j hj hjn => (List.mem_append.mp hj).elim (fun hj => hle j hj hjn) fun hj => ?_⟩
    exact absurd hjn (Nat.not_le.mpr (firstFrom_none hb j hj))
  · obtain ⟨amem, an, ale⟩ := firstFrom_some ha
    obtain ⟨bmem, bn, ble⟩ := firstFrom_some hb
    by_cases hlt : b.seq < a.seq
    · obtain rfl : b = k := congrArg Prod.fst (Option.some.inj ((if_pos hlt).symm.trans h))
      exact ⟨List.mem_append_right _ bmem, bn, fun j hj hjn =>
        (List.mem_append.mp hj).elim (fun hj => hlt.le.trans (ale j hj hjn)) fun hj => ble j hj hjn⟩
    · obtain rfl : a = k := congrArg Prod.fst (Option.some.inj ((if_neg hlt).symm.trans h))
      exact ⟨List.mem_append_left _ amem, an, fun j hj hjn =>
        (List.mem_append.mp hj).elim (fun hj => ale j hj hjn) fun hj => (Nat.not_lt.mp hlt).trans (ble j hj hjn)⟩

section
variable {s : State}

@[simp] theorem State.window_setWindow_self (s : State) (w : Nat) (k : Window) : (s.setWindow w k).window w = k := lookD_put_self ..
theorem State.window_setWindow_ne (s : State) {w v : Nat} (k : Window) (h : v ≠ w) : (s.setWindow w k).window v = s.window v :=
  lookD_put_ne _ _ _ h

/-- A lookup's end: the window holds what was found. -/
theorem exec_evLookupDone_busy {w : Nat} (hd : s.pins.duskReady = true) (hb : (s.window w).busy = true) : exec (.evLookupDone w) s =
    .next (match s.recd.found (s.window w).seq.toNat with
      | some (r, f) => s.setWindow w ⟨(s.window w).seq, false, true, f, decide ((s.window w).seq.toNat < r.seq), r.bytes⟩
      | none => s.setWindow w ⟨(s.window w).seq, false, false, false, false, []⟩) :=
  congrArg Host.Outcome.next (if_neg (by simp [hd, hb]))

theorem exec_evLookupDone_finds {w : Nat} {r : Record} {f : Bool} (hd : s.pins.duskReady = true) (hb : (s.window w).busy = true)
    (h : s.recd.found (s.window w).seq.toNat = some (r, f)) : exec (.evLookupDone w) s =
    .next (s.setWindow w ⟨(s.window w).seq, false, true, f, decide ((s.window w).seq.toNat < r.seq), r.bytes⟩) := by
  rw [exec_evLookupDone_busy hd hb, h]

theorem exec_evLookupDone_misses {w : Nat} (hd : s.pins.duskReady = true) (hb : (s.window w).busy = true)
    (h : s.recd.found (s.window w).seq.toNat = none) : exec (.evLookupDone w) s =
    .next (s.setWindow w ⟨(s.window w).seq, false, false, false, false, []⟩) := by
  rw [exec_evLookupDone_busy hd hb, h]

/-! ### The intake and the flush -/

/-- The first event at the intake: suppressed where its code's bucket is empty, else recorded, while a number below the last mark is left. -/
theorem exec_eventIntake_cons {e : RawEvent} {rest : List RawEvent} (hd : s.pins.duskReady = true) (h : s.recd.intake = e :: rest) :
    exec .eventIntake s = .next (let s1 := s.modRecd fun r => { r with intake := rest }
      if (bucketDefault e.code).isSome && (s1.bucket e.code).tokens == 0 then s1.suppress e.code
      else
        let s2 := if s1.recd.lastMark ≤ s1.recd.seqNext then s1.modRecd Recorder.mark else s1
        if s2.recd.lastMark ≤ s2.recd.seqNext then s2.suppress e.code else s2.makeRecord e) := by
  show execEventIntake s = _
  rw [execEventIntake, h]
  exact congrArg Host.Outcome.next (if_neg (by simp [hd]))

theorem exec_eventIntake_nil (h : s.recd.intake = []) : exec .eventIntake s = .next s := by
  show execEventIntake s = _
  rw [execEventIntake, h]

theorem exec_flushDone_flushing (hd : s.pins.duskReady = true) (hf : s.recd.flushing = true) (ok : Bool) : exec (.flushDone ok) s =
    .next (if ok then
      (s.modRecd fun r => { r.flushAll with flushing := false, flushFails := 0, cleanNow := !s.pins.railsOn }).bump (offEv 0x38) 1
    else
      let s1 := s.bump (offEv 0x40) 1
      if s.recd.flushFails = 1 then s1.modRecd fun r => { r with flushing := false, flushFails := 2 }
      else (s1.modRecd fun r => { (r.room 0x1_0000) with flushFails := 1, flashFail := true }).raise 0xB80B (leBytes 1 (s.recd.block % 128))) :=
  congrArg Host.Outcome.next (if_neg (by simp [hd, hf]))

theorem Recorder.room_same (r : Recorder) (n : Nat) : (r.room n).ring = r.ring ∧ (r.room n).seqNext = r.seqNext := by
  unfold Recorder.room
  dsimp only
  split_ifs <;> exact ⟨rfl, rfl⟩

theorem Recorder.append_same (r : Recorder) (k : Record) : (r.append k).ring = r.ring ∧ (r.append k).seqNext = r.seqNext :=
  r.room_same k.bytes.length

/-- A flush leaves the ring's records, all flushed, and the next number (R525). -/
theorem Recorder.flushAll_same (r : Recorder) : r.flushAll.ring = r.ring.map (fun k => { k with flushed := true }) ∧
    r.flushAll.seqNext = r.seqNext := by
  have h := List.foldlRecOn (motive := fun t : Recorder => t.ring = r.ring ∧ t.seqNext = r.seqNext) (r.ring.filter fun k => !k.flushed)
    (fun (t : Recorder) k => t.append k) ⟨rfl, rfl⟩ fun t ht k _ =>
      ⟨(t.append_same k).1.trans ht.1, (t.append_same k).2.trans ht.2⟩
  exact ⟨congrArg _ h.1, h.2⟩

end

/-- Settles O39: the intake by its bucket and the last mark, the flush by whether its program failed before, and a lookup by
`Recorder.found`. -/
theorem recorderCommands : Obligations.RecorderCommands := by
  intro s hd
  refine ⟨fun e rest h => ⟨fun hb ht => ?suppressed, fun hb hm => ?recorded⟩, congrArg Host.Outcome.next (if_pos hd),
    fun hf => ⟨?flushed, fun hn => ?retried, fun hn => ?given⟩, fun hf ok => ?idle, exec_eventIntake_nil, fun w hw => ?notBusy,
    ⟨_, congrArg Host.Outcome.next (if_pos hd), rfl, rfl, rfl, rfl, rfl, rfl⟩, fun w n hw => ?lookup, fun w hw => ?done⟩
  case suppressed =>
    rw [exec_eventIntake_cons hd h]
    exact congrArg Host.Outcome.next (if_pos (by rw [hb]; exact beq_iff_eq.mpr ht))
  case recorded =>
    have hbucket : ¬((bucketDefault e.code).isSome && (s.bucket e.code).tokens == 0) = true := by
      rcases hb with hb | hb
      · simp [hb]
      · simp [hb.ne']
    rw [exec_eventIntake_cons hd h]
    refine congrArg Host.Outcome.next ((if_neg hbucket).trans ?_)
    generalize hs1 : s.modRecd _ = s1
    have hmark : ¬s1.recd.lastMark ≤ s1.recd.seqNext := by rw [← hs1]; exact Nat.not_le.mpr hm
    dsimp only
    rw [if_neg hmark, if_neg hmark]
  case flushed =>
    obtain ⟨hring, hseq⟩ := s.recd.flushAll_same
    refine ⟨_, (exec_flushDone_flushing hd hf true).trans (congrArg _ (if_pos rfl)), rfl, rfl, fun k hk => ?_, hseq, ?_, rfl, rfl, rfl⟩
    · obtain ⟨j, -, rfl⟩ := List.mem_map.mp (hring ▸ hk)
      rfl
    · exact (congrArg List.length hring).trans (List.length_map ..)
  case retried => exact (exec_flushDone_flushing hd hf false).trans (congrArg _ ((if_neg Bool.false_ne_true).trans (if_neg hn)))
  case given => exact (exec_flushDone_flushing hd hf false).trans (congrArg _ ((if_neg Bool.false_ne_true).trans (if_pos hn)))
  case idle => exact congrArg Host.Outcome.next (if_pos (by simp [hf]))
  case notBusy => exact congrArg Host.Outcome.next (if_pos (by simp [hw]))
  case lookup => exact congrArg Host.Outcome.next (if_pos (by rcases hw with rfl | ⟨hlt, hup⟩ <;> simp [*]))
  case done =>
    rcases hfound : s.recd.found (s.window w).seq.toNat with _ | ⟨r, f⟩
    · refine ⟨_, exec_evLookupDone_misses hd hw hfound, by simp, by simp, fun v => s.window_setWindow_ne _, fun _ => by simp, ?_⟩
      rintro ⟨r, hr, hle⟩
      exact absurd hle (Nat.not_le.mpr (Recorder.found_none hfound r hr))
    · obtain ⟨hmem, hle, hleast⟩ := Recorder.found_some hfound
      refine ⟨_, exec_evLookupDone_finds hd hw hfound, by simp, by simp, fun v => s.window_setWindow_ne _, fun hall => ?_, fun _ => ⟨by simp, ?_⟩⟩
      · exact absurd hle (Nat.not_le.mpr (hall r hmem))
      · exact ⟨r, hmem, by simp, hle, hleast⟩

end Sys2Proof.Machine
end

section
/-! PROOFS. The slow loop's budget and the fast loop's cap (R467 to R470, R484, R485). -/

namespace Sys2Proof.Machine

open Sys2Proof

/-! ### The governor -/

/-- The power state but for what the dies hold. -/
def Power.central (k : Power) : Power := { k with dies := [] }

/-- What the governor reads and moves. -/
def Power.governed (k : Power) : Power :=
  { k with budget := 0, currentLimited := false, dies := [], oscBackup := false, minuteLowMv := 0, energy := 0, capped := 0 }

/-- The governor's move is decided by what it reads. -/
theorem Power.governed_interval (k : Power) (limit p mv : Nat) (therm peak : Bool) :
    (k.interval limit p mv therm peak).1.governed = (k.governed.interval limit p mv therm peak).1 := by
  obtain ⟨gov, overN, cool, excess, bCool, budget, currentLimited, dies, oscBackup, minuteLowMv, energy, capped⟩ := k
  cases therm
  · cases gov <;> simp only [Power.interval, Power.governed, Bool.false_eq_true, if_false] <;> split_ifs <;> rfl
  · simp only [Power.interval, Power.governed, if_true]
    split_ifs <;> rfl

/-- So is whether a peak starts. -/
theorem Power.peaks_governed (k : Power) (limit p mv : Nat) (therm peak : Bool) :
    (k.interval limit p mv therm peak).2 = (k.governed.interval limit p mv therm peak).2 := by
  obtain ⟨gov, overN, cool, excess, bCool, budget, currentLimited, dies, oscBackup, minuteLowMv, energy, capped⟩ := k
  cases therm
  · cases gov <;> simp only [Power.interval, Power.governed, Bool.false_eq_true, if_false]
    split_ifs <;> rfl
  · simp only [Power.interval, Power.governed, if_true]

/-- An interval of the governor adds no energy. -/
theorem Power.energy_interval (k : Power) (limit p mv : Nat) (therm peak : Bool) : (k.interval limit p mv therm peak).1.energy = k.energy := by
  obtain ⟨gov, overN, cool, excess, bCool, budget, currentLimited, dies, oscBackup, minuteLowMv, energy, capped⟩ := k
  cases therm
  · cases gov <;> simp only [Power.interval, Bool.false_eq_true, if_false] <;> split_ifs <;> rfl
  · simp only [Power.interval, if_true]
    split_ifs <;> rfl

theorem Power.moduleBudget_governed (k : Power) (limit mv : Nat) (peak : Bool) : k.governed.moduleBudget limit mv peak = k.moduleBudget limit mv peak := rfl

/-! ### The dies -/

section
variable (s : State)

theorem State.central_modDie (d : Nat) (f : Die → Die) : (s.modDie d f).pwr.central = s.pwr.central := rfl

theorem State.central_holdCaps : s.holdCaps.pwr.central = s.pwr.central :=
  List.foldlRecOn (motive := fun t : State => t.pwr.central = s.pwr.central) (List.range dieCount) _ rfl fun _ ht _ _ => ht

theorem State.central_dieShare (above demand total : Nat) : (s.dieShare above demand total).2.pwr = s.pwr := by
  unfold State.dieShare
  split <;> rfl

theorem State.central_dieBudget (d above total : Nat) (r : DieReading) : (s.dieBudget d above total r).pwr.central = s.pwr.central := by
  unfold State.dieBudget
  extract_lets sh share hot n s1 f
  have hshare : sh.2.pwr = s.pwr := by
    dsimp only [sh]
    split
    · exact s.central_dieShare ..
    · rfl
  have hdie : s1.pwr.central = s.pwr.central :=
    (State.central_modDie ..).trans (congrArg Power.central hshare)
  split
  · exact hdie
  · exact hdie

theorem State.central_divide (o : SlowObs) (b : Nat) : (s.divide o b).pwr.central = s.pwr.central :=
  List.foldlRecOn (motive := fun t : State => t.pwr.central = s.pwr.central) (slowEach o) _ rfl fun t ht _ _ =>
    (t.central_dieBudget ..).trans ht

/-- The cycles of gated cores are counted in the registers of the dies alone. -/
theorem State.reg_countGated {r : Nat} (h : ∀ d, r ≠ offPgDie d 0x30) : s.countGated.reg r = s.reg r :=
  List.foldlRecOn (motive := fun t : State => t.reg r = s.reg r) (List.range dieCount) _ rfl fun t ht d _ => by
    dsimp only
    split
    · exact ht
    · exact (t.reg_bump_ne _ (h d)).trans ht

/-- THERM_N as the readings leave it: its pin, and where it falls the alarm's record and the caps (R470, R489). -/
theorem State.driveTherm_leaves (low : Bool) (temp : Nat) : (s.driveTherm low temp).pins = { s.pins with thermModule := low } ∧
    (s.driveTherm low temp).pwr.central = s.pwr.central ∧ (s.driveTherm low temp).ident = s.ident ∧
    (∀ r, r ≠ offPg 8 → (s.driveTherm low temp).reg r = s.reg r) := by
  unfold State.driveTherm
  dsimp only
  split
  · unfold State.thermFalls
    extract_lets d d2 t
    generalize hu : State.raise _ _ _ = u
    have hp (p : Area) (h : p ∉ [Area.cores, .pwr]) : p.same u u.holdCaps := State.holdCaps_same u p h
    refine ⟨(hp .pins (by decide)).trans (by rw [← hu]; rfl), u.central_holdCaps.trans (by rw [← hu]; rfl),
      (hp .ident (by decide)).trans (by rw [← hu]; rfl), fun r hr => ?_⟩
    rw [State.reg, show u.holdCaps.regs = u.regs from hp .regs (by decide), show u.holdCaps.ident = u.ident from hp .ident (by decide)]
    show u.reg r = _
    rw [← hu]
    exact State.reg_setReg_ne _ _ hr
  · exact ⟨rfl, rfl, rfl, fun _ _ => rfl⟩

/-! ### The slow loop -/

/-- The interval's readings taken: the limit adopted, the means and the energy kept, the input in range or out of it, THERM_N driven. -/
def State.metered (o : SlowObs) : State :=
  (((s.adopt (offPg 0) 0 8).meter o).modPins fun p =>
    { p with inRange := p.inRange && (decide (40000 ≤ o.milliVolts) && decide (o.milliVolts ≤ 60000)) }).driveTherm (slowAlarm o).1 (slowAlarm o).2

theorem State.adopt_leaves (off lo w : Nat) : (s.adopt off lo w).pwr = s.pwr ∧ (s.adopt off lo w).pins = s.pins ∧
    (s.adopt off lo w).ident = s.ident := by
  unfold State.adopt
  split <;> exact ⟨rfl, rfl, rfl⟩

theorem State.metered_leaves (o : SlowObs) :
    (s.metered o).pins = {
      s.pins with
      thermModule := (slowAlarm o).1
      inRange := s.pins.inRange && (decide (40000 ≤ o.milliVolts) && decide (o.milliVolts ≤ 60000))
    } ∧
    (s.metered o).pwr.governed = s.pwr.governed ∧ (s.metered o).pwr.energy = s.pwr.energy + o.watts ∧
    (s.metered o).powerLimit = (s.adopt (offPg 0) 0 8).powerLimit ∧ (s.metered o).peakEn = (s.adopt (offPg 0) 0 8).peakEn ∧
    (s.metered o).reg (offPg 0x10) = o.milliVolts % 2 ^ 16 + o.watts * 10000 / max 1 o.milliVolts % 2 ^ 16 * 2 ^ 16 ∧
    (s.metered o).reg (offPg 0x28) = s.reg (offPg 0x28) := by
  obtain ⟨apwr, apins, aident⟩ := s.adopt_leaves (offPg 0) 0 8
  have a28 : (s.adopt (offPg 0) 0 8).reg (offPg 0x28) = s.reg (offPg 0x28) := State.reg_adopt_ne s 0 8 (by decide)
  unfold State.metered
  generalize s.adopt (offPg 0) 0 8 = a at *
  generalize hu : State.modPins _ _ = u
  obtain ⟨dpins, dpwr, dident, dreg⟩ := u.driveTherm_leaves (slowAlarm o).1 (slowAlarm o).2
  generalize u.driveTherm (slowAlarm o).1 (slowAlarm o).2 = v at *
  have hupwr : u.pwr.governed = s.pwr.governed ∧ u.pwr.energy = s.pwr.energy + o.watts := by
    rw [← hu, ← apwr]
    exact ⟨rfl, rfl⟩
  have hureg (r : Nat) (h : r ≠ offPg 0x10) : u.reg r = a.reg r := by
    rw [← hu]
    exact State.reg_setReg_ne _ _ h
  have hreg0 : v.reg (offPg 0) = a.reg (offPg 0) := (dreg _ (by decide)).trans (hureg _ (by decide))
  refine ⟨?_, (congrArg Power.governed dpwr).trans hupwr.1, (congrArg Power.energy dpwr).trans hupwr.2, ?_, ?_, ?_, ?_⟩
  · rw [dpins, ← hu, ← apins]
    rfl
  · rw [State.powerLimit, hreg0, dident, ← hu]
    rfl
  · rw [State.peakEn, hreg0, State.peakEn]
  · rw [dreg _ (by decide), ← hu]
    refine (State.reg_setReg_self ..).trans (Nat.mod_eq_of_lt ?_)
    omega
  · exact (dreg _ (by decide)).trans ((hureg _ (by decide)).trans a28)

/-- The governor moved over the interval, a peak that starts counted, and the budget divided among the dies. -/
def State.budgeted (o : SlowObs) : State :=
  let r := s.pwr.interval s.powerLimit o.watts o.milliVolts s.thermLow s.peakEn
  let b := r.1.moduleBudget s.powerLimit o.milliVolts s.peakEn
  let v := s.modPwr fun _ => { r.1 with budget := b.1, currentLimited := b.2 }
  let w := if r.2 then (v.bump (offPg 0x28) 1).raise 0xB801 (leBytes 2 s.powerLimit ++ leBytes 2 o.milliVolts) else v
  (w.divide o b.1).countGated

theorem State.budgeted_leaves (o : SlowObs) {k : Power} {peaks : Bool}
    (hk : s.pwr.interval s.powerLimit o.watts o.milliVolts s.thermLow s.peakEn = (k, peaks)) :
    (s.budgeted o).pwr.central =
      { k.central with budget := (k.moduleBudget s.powerLimit o.milliVolts s.peakEn).1,
                       currentLimited := (k.moduleBudget s.powerLimit o.milliVolts s.peakEn).2 } ∧
    (s.budgeted o).pins = s.pins ∧ (s.budgeted o).reg (offPg 0x10) = s.reg (offPg 0x10) ∧
    (s.budgeted o).reg (offPg 0x28) = if peaks then (s.reg (offPg 0x28) + 1) % 2 ^ 64 else s.reg (offPg 0x28) := by
  unfold State.budgeted
  rw [hk]
  dsimp only
  generalize k.moduleBudget s.powerLimit o.milliVolts s.peakEn = b
  generalize hv : s.modPwr _ = v
  generalize hw : (if peaks = true then State.raise _ _ _ else v) = w
  have hdie (r : Nat) (hr : r < 0x100_0000) (d : Nat) : r ≠ offPgDie d 0x30 := by
    unfold offPgDie offDie
    omega
  have hdivide (p : Area) (h : p ∉ [Area.surv, .pwr, .recd, .free]) : p.same w (w.divide o b.1) :=
    Area.same_of_keeps (fun _ wF => State.divide_keeps wF (Keeps.refl w)) p h
  have hreg (r : Nat) (hr : r < 0x100_0000) : (w.divide o b.1).countGated.reg r = w.reg r := by
    rw [State.reg_countGated _ (hdie r hr), State.reg, show (w.divide o b.1).regs = w.regs from hdivide .regs (by decide),
      show (w.divide o b.1).ident = w.ident from hdivide .ident (by decide), State.reg]
  have hcount (p : Area) (h : p ∉ [Area.regs]) : p.same (w.divide o b.1) (w.divide o b.1).countGated :=
    Area.same_of_keeps (fun _ wF => State.countGated_keeps wF (Keeps.refl _)) p h
  have hw : w.pwr = v.pwr ∧ w.pins = s.pins ∧ w.reg (offPg 0x10) = s.reg (offPg 0x10) ∧
      w.reg (offPg 0x28) = if peaks then (s.reg (offPg 0x28) + 1) % 2 ^ 64 else s.reg (offPg 0x28) := by
    rw [← hw, ← hv]
    cases peaks
    · exact ⟨rfl, rfl, rfl, rfl⟩
    · exact ⟨rfl, rfl, State.reg_bump_ne _ 1 (by decide), State.reg_bump_self _ _ 1⟩
  obtain ⟨hpwr, hpins, h10, h28⟩ := hw
  refine ⟨?_, (hcount .pins (by decide)).trans ((hdivide .pins (by decide)).trans hpins), (hreg _ (by decide)).trans h10,
    (hreg _ (by decide)).trans h28⟩
  rw [show (w.divide o b.1).countGated.pwr = _ from hcount .pwr (by decide), State.central_divide, hpwr, ← hv]
  rfl

theorem exec_slowLoop_ready {s : State} {o : SlowObs} (h : s.pins.duskReady = true) : exec (.slowLoop o) s = .next ((s.metered o).budgeted o) :=
  congrArg Host.Outcome.next (if_neg (by simp [h]))

/-! ### The fast loop -/

/-- A table whose entries are each changed in place. -/
theorem lookD_map_entries {α : Type} (t : Tab α) (p : Nat → α → Bool) (f : α → α) (k : Nat) (v : α) (hv : p k v = false) :
    lookD (t.map fun e => if p e.1 e.2 then (e.1, f e.2) else e) k v = if p k (lookD t k v) then f (lookD t k v) else lookD t k v := by
  induction t with
  | nil => simp [lookD, look, hv]
  | cons e t ih =>
    obtain ⟨j, w⟩ := e
    by_cases hj : j = k
    · subst hj
      by_cases hp : p j w <;> simp [lookD, look, hp]
    · have hk : lookD ((j, w) :: t) k v = lookD t k v := by simp [lookD, look, hj]
      rw [hk, ← ih, List.map_cons]
      by_cases hp : p j w <;> simp [lookD, look, hp, hj]

/-- The cap that a fast loop gives a die (R468, R470). -/
def State.nextCap (s : State) (die power : Nat) : Nat :=
  if s.thermLow then 8
  else if (s.die die).budget < power then max 8 ((s.die die).cap - 4)
  else if power * 100 < (s.die die).budget * 98 then min 64 ((s.die die).cap + 1)
  else (s.die die).cap

/-- A die's cap given to it and to its cores that hold work. -/
def State.capDie (s : State) (die cap : Nat) : State :=
  let s1 := s.modDie die fun k => { k with cap := cap }
  { s1 with cores := s1.cores.map fun e => if e.1 / 68 = die ∧ e.2.holdsWork then (e.1, { e.2 with cap := cap }) else e }

theorem exec_fastLoop_awake {s : State} {die power : Nat} (hd : die < 16) (ha : s.alive = true) (hg : (s.die die).gated = false) :
    exec (.fastLoop die power) s = .next (s.capDie die (s.nextCap die power)) :=
  congrArg Host.Outcome.next (if_neg (by
    have hrange : ¬dieCount ≤ die := Nat.not_le.mpr hd
    simp [ha, hg, hrange]))

theorem State.die_capDie (die cap d : Nat) : (s.capDie die cap).die d = if d = die then { s.die die with cap := cap } else s.die d := by
  show (s.modDie die fun k => { k with cap := cap }).die d = _
  by_cases h : d = die
  · subst h; simp
  · rw [if_neg h, State.die_modDie_ne _ _ h]

theorem State.core_capDie (die cap c : Nat) : (s.capDie die cap).core c =
    if c / 68 = die ∧ (s.core c).holdsWork = true then { s.core c with cap := cap } else s.core c := by
  have h := lookD_map_entries s.cores (fun c k => decide (c / 68 = die ∧ k.holdsWork = true)) (fun k => { k with cap := cap }) c Core.idle
    (by simp [Core.holdsWork, Core.idle])
  simp only [decide_eq_true_eq] at h
  exact h

end

/-- Settles O41: a slow loop by the readings it takes (`State.metered_leaves`) and the governor's move (`Power.governed_interval`), a fast loop by
the cap it gives. -/
theorem budgetsAndCapsMove : Obligations.BudgetsAndCapsMove := by
  intro s o die power
  refine ⟨fun hd => ?slow, fun hd ha hg => ?fast, fun hg => congrArg Host.Outcome.next (if_pos (by simp [hg]))⟩
  case slow =>
    have e := exec_slowLoop_ready (o := o) hd
    obtain ⟨upins, ugov, uenergy, ulimit, upeak, ureg10, ureg28⟩ := s.metered_leaves o
    generalize s.metered o = u at *
    have htherm : u.thermLow = (s.pins.thermBoard || (slowAlarm o).1) := by rw [State.thermLow, upins]
    have hgov := u.pwr.governed_interval u.powerLimit o.watts o.milliVolts u.thermLow u.peakEn
    have hpeak := u.pwr.peaks_governed u.powerLimit o.watts o.milliVolts u.thermLow u.peakEn
    rw [ugov, ← Power.governed_interval, htherm, ulimit, upeak] at hgov
    rw [ugov, ← Power.peaks_governed, htherm, ulimit, upeak] at hpeak
    have henergy := u.pwr.energy_interval u.powerLimit o.watts o.milliVolts u.thermLow u.peakEn
    obtain ⟨k, peaks, hk⟩ : ∃ k peaks, u.pwr.interval u.powerLimit o.watts o.milliVolts u.thermLow u.peakEn = (k, peaks) := ⟨_, _, rfl⟩
    obtain ⟨tpwr, tpins, t10, t28⟩ := u.budgeted_leaves o hk
    have hfield {β : Type} (p : Power → β) := congrArg p tpwr
    rw [hk] at henergy
    rw [htherm, ulimit, upeak] at hk
    rw [hk] at hgov hpeak
    generalize u.budgeted o = t at *
    refine ⟨t, e, exec_same e .objs rfl, exec_same e .mem rfl, exec_same e .fab rfl, exec_same e .seqs rfl,
      (hfield Power.energy).trans (henergy.trans uenergy), t10.trans ureg10, by rw [tpins, upins], by rw [tpins, upins], ?_⟩
    extract_lets a k'
    have hmoved {β : Type} (p : Power → β) : p k.governed = p k'.1.governed := congrArg p hgov
    have hpeaks : peaks = k'.2 := hpeak
    refine ⟨(hfield Power.gov).trans (hmoved Power.gov), (hfield Power.overN).trans (hmoved Power.overN),
      (hfield Power.cool).trans (hmoved Power.cool), (hfield Power.excess).trans (hmoved Power.excess), (hfield Power.budget).trans ?_,
      fun h => ?_, fun h => ?_⟩
    · rw [ulimit, upeak, ← k.moduleBudget_governed, show k.governed = k'.1.governed from hgov]
      rfl
    · rw [t28, hpeaks, h, ureg28]
      rfl
    · rw [t28, hpeaks, h, ureg28]
      rfl
  case fast =>
    refine ⟨_, exec_fastLoop_awake hd ha hg, rfl, rfl, rfl, rfl, fun ht => ?_, fun ht => ⟨fun hp => ?_, fun hp hq => ?_, fun hp hq => ?_⟩, ?_,
      fun d hne => ?_, fun c => ?_⟩
    · simp [State.die_capDie, State.nextCap, ht]
    · simp [State.die_capDie, State.nextCap, ht, hp]
    · simp [State.die_capDie, State.nextCap, ht, Nat.not_lt.mpr hp, hq]
    · simp [State.die_capDie, State.nextCap, ht, Nat.not_lt.mpr hp, Nat.not_lt.mpr hq]
    · simp [State.die_capDie]
    · rw [State.die_capDie, if_neg hne]
    · rw [State.core_capDie, State.die_capDie, if_pos rfl]

end Sys2Proof.Machine
end

section
/-! PROOFS. The replacement of a core by a spare, and the operating minute (R446, R447, R455, R456, R461). -/

namespace Sys2Proof.Machine

open Sys2Proof

/-! ### The trigger -/

section
variable {s : State} {c k : Nat}

theorem exec_spareGo_named (h : c < 2048) : exec (.spareGo c) s = .next ((s.setField (offDk 0x820) 13 11 c).startReplace c) :=
  congrArg Host.Outcome.next (if_pos h)

theorem State.startReplace_noCore (h : 1088 ≤ c) : s.startReplace c = s := if_pos (by simp [h])

/-- A live trigger for an enabled core that no replacement names yet. -/
theorem State.startReplace_live (hc : c < 1088) (hk : s.kind c = .enabled) (hd : c ∉ s.surv.spareDue) (hs : ∀ r n, s.surv.spare ≠ some (c, r, n)) :
    s.startReplace c = match s.spareFor c, s.surv.spare with
      | none, _ => s.raise 0xB808 (leBytes 2 c)
      | some k, none => (s.modSurv fun v => { v with spare := some (c, k, 0) }).modCore c fun o => { o with noNewTile := true }
      | some _, some _ => s.modSurv fun v => { v with spareDue := v.spareDue ++ [c] } := by
  unfold State.startReplace
  extract_lets going
  have hgoing : going = false := by
    dsimp only [going]
    rcases hsp : s.surv.spare with _ | ⟨d, r, n⟩
    · rfl
    · exact beq_eq_false_iff_ne.mpr fun e => hs r n (e ▸ hsp)
  exact if_neg (by simp [Nat.not_le.mpr hc, hk, hd, hgoing])

/-- A trigger leaves the risk level and the minutes counted. -/
theorem State.startReplace_leaves (s : State) (c : Nat) : (s.startReplace c).surv.riskLevel = s.surv.riskLevel ∧
    (s.startReplace c).recd.opMinutes = s.recd.opMinutes := by
  unfold State.startReplace
  extract_lets going
  split
  · exact ⟨rfl, rfl⟩
  · split <;> exact ⟨rfl, rfl⟩

/-! ### The operating minute -/

theorem levelOf_le (n : Nat) (l : List Nat) : levelOf n l ≤ l.length := List.length_filter_le ..

/-- No input of the risk is above 3 (R461). -/
theorem State.riskInputsNow_le (s : State) (o : MinuteObs) : ∀ n ∈ s.riskInputsNow o, n ≤ 3 := by
  have hb (b : Bool) : b2n b ≤ 3 := by cases b <;> decide
  have hl (n : Nat) {l : List Nat} (h : l.length ≤ 3) : levelOf n l ≤ 3 := (levelOf_le n l).trans h
  have hif (p : Prop) [Decidable p] {a b : Nat} (ha : a ≤ 3) (hb : b ≤ 3) : (if p then a else b) ≤ 3 := by split <;> assumption
  unfold State.riskInputsNow
  extract_lets ev fewest narrow
  simp only [List.forall_mem_cons]
  exact ⟨hl _ (by decide), hif _ (by decide) (hif _ (by decide) (hb _)), hif _ (by decide) (hl _ (by decide)), hif _ (by decide) (hb _),
    hif _ (by decide) (hb _), hl _ (by decide), hif _ (by decide) (hif _ (by decide) (hb _)), hif _ (by decide) (by decide),
    hif _ (by decide) (hif _ (by decide) (by decide)), fun _ h => absurd h List.not_mem_nil⟩

theorem foldl_max_le {l : List Nat} {n m : Nat} (hm : m ≤ n) (h : ∀ x ∈ l, x ≤ n) : l.foldl max m ≤ n :=
  List.foldlRecOn (motive := fun y => y ≤ n) l _ hm fun _ hy x hx => max_le hy (h x hx)

theorem State.setRisk_leaves (s : State) (level : Nat) : (s.setRisk level).surv.riskLevel = level ∧ (s.setRisk level).pwr = s.pwr ∧
    (s.setRisk level).recd.opMinutes = s.recd.opMinutes := by
  unfold State.setRisk
  split
  · exact ⟨by symm; assumption, rfl, rfl⟩
  · exact ⟨rfl, rfl, rfl⟩

/-- The risk evaluated is below 4, and an evaluation counts no minute and changes no voltage (R461). -/
theorem State.risk_leaves (s : State) (o : MinuteObs) : (s.surv.riskLevel < 4 → (s.risk o).surv.riskLevel < 4) ∧ (s.risk o).pwr = s.pwr ∧
    (s.risk o).recd.opMinutes = s.recd.opMinutes := by
  have htop : (s.riskInputsNow o).foldl max 0 ≤ 3 := foldl_max_le (by decide) (s.riskInputsNow_le o)
  unfold State.risk
  extract_lets inputs top s1 ctl
  have hs1 : s1.surv.riskLevel = s.surv.riskLevel ∧ s1.pwr = s.pwr ∧ s1.recd = s.recd := by
    dsimp only [s1]
    rw [State.adopt_eq]
    exact ⟨rfl, rfl, rfl⟩
  obtain ⟨hlevel, hpwr, hrecd⟩ := hs1
  have hset (n : Nat) : (s1.setRisk n).surv.riskLevel = n ∧ (s1.setRisk n).pwr = s.pwr ∧ (s1.setRisk n).recd.opMinutes = s.recd.opMinutes := by
    obtain ⟨h1, h2, h3⟩ := s1.setRisk_leaves n
    exact ⟨h1, h2.trans hpwr, h3.trans (by rw [hrecd])⟩
  split_ifs
  · obtain ⟨h1, h2, h3⟩ := hset (ctl % 4)
    exact ⟨fun _ => h1.symm ▸ Nat.mod_lt _ (by decide), h2, h3⟩
  · obtain ⟨h1, h2, h3⟩ := hset top
    exact ⟨fun _ => h1.symm ▸ Nat.lt_succ_of_le htop, h2, h3⟩
  · obtain ⟨h1, h2, h3⟩ := hset (s1.surv.riskLevel - 1)
    exact ⟨fun h => h1.symm ▸ (Nat.sub_le ..).trans_lt (hlevel.symm ▸ h), h2, h3⟩
  · exact ⟨fun h => hlevel.symm ▸ h, hpwr, by rw [hrecd]⟩

/-- The triggers of a minute leave the risk level, the minutes counted and the power state. -/
theorem State.sparing_leaves (s : State) (o : MinuteObs) : (s.sparing o).surv.riskLevel = s.surv.riskLevel ∧
    (s.sparing o).recd.opMinutes = s.recd.opMinutes ∧ (s.sparing o).pwr = s.pwr := by
  have hpwr : (s.sparing o).pwr = s.pwr := Area.same_of_keeps (fun _ w => State.sparing_keeps w (Keeps.refl s)) .pwr (by decide)
  have hs1 : (s.adopt (offDk 0x820) 0 12).surv = s.surv ∧ (s.adopt (offDk 0x820) 0 12).recd = s.recd := by
    rw [State.adopt_eq]
    exact ⟨rfl, rfl⟩
  have hall : (s.sparing o).surv.riskLevel = s.surv.riskLevel ∧ (s.sparing o).recd.opMinutes = s.recd.opMinutes := by
    unfold State.sparing
    generalize s.adopt (offDk 0x820) 0 12 = s1 at hs1 ⊢
    dsimp only
    rw [← hs1.1, ← hs1.2]
    split
    · exact ⟨rfl, rfl⟩
    · exact List.foldlRecOn (motive := fun t : State => t.surv.riskLevel = s1.surv.riskLevel ∧ t.recd.opMinutes = s1.recd.opMinutes) _ _
        ⟨rfl, rfl⟩ fun t ht e _ => ⟨(t.startReplace_leaves e.1).1.trans ht.1, (t.startReplace_leaves e.1).2.trans ht.2⟩
  exact ⟨hall.1, hall.2, hpwr⟩

/-- The minute counted, its risk evaluated and its triggers followed. -/
def State.minuteRun (s : State) (o : MinuteObs) : State := ((s.refill.modRecd fun r => { r with opMinutes := r.opMinutes + 1 }).risk o).sparing o

theorem State.minuteRun_leaves (s : State) (o : MinuteObs) : (s.minuteRun o).recd.opMinutes = s.recd.opMinutes + 1 ∧
    (s.minuteRun o).pwr = s.pwr ∧ (s.surv.riskLevel < 4 → (s.minuteRun o).surv.riskLevel < 4) := by
  unfold State.minuteRun
  generalize hu : State.modRecd _ _ = u
  have hrecd : u.recd.opMinutes = s.recd.opMinutes + 1 := by rw [← hu]; rfl
  have hpwr : u.pwr = s.pwr := by rw [← hu]; rfl
  have hsurv : u.surv = s.surv := by rw [← hu]; rfl
  obtain ⟨hrisk, hriskPwr, hriskRecd⟩ := u.risk_leaves o
  obtain ⟨hlevel, hmin, hsparePwr⟩ := (u.risk o).sparing_leaves o
  exact ⟨hmin.trans (hriskRecd.trans hrecd), hsparePwr.trans (hriskPwr.trans hpwr), fun h => hlevel.symm ▸ hrisk (hsurv.symm ▸ h)⟩

theorem exec_operatingMinute_ready (o : MinuteObs) (h : s.pins.duskReady = true) : exec (.operatingMinute o) s =
    .next (let u := (s.minuteRun o).setReg (offPg 0x38) s.pwr.minuteLowMv
      let pwr : Power := { u.pwr with minuteLowMv := 0, dies := u.pwr.dies.map fun e => (e.1, { e.2 with relocksArith := 0, relocksCtl := 0 }) }
      { u with pwr := pwr, sec := { u.sec with hubFails := [] } }.startFlush) :=
  congrArg Host.Outcome.next (if_neg (by simp [h]))

/-! ### The pre-emption and the spare's entry -/

theorem exec_replacementTilesEnded_pending (h : s.surv.spare = some (c, k, 0)) : exec .replacementTilesEnded s =
    .next (let go (t : State) : State := t.modSurv fun v => { v with spare := some (c, k, 1) }
      if s.sealHolds then s
      else match s.coreSeq c with
        | some (sq, q) => if q.preempting then s else go (s.setSeq sq { q with preempting := true })
        | none => go s) := by
  show execReplacementTilesEnded s = _
  rw [execReplacementTilesEnded, h]
  rfl

theorem exec_spareIn_pending (h : s.surv.spare = some (c, k, 1)) : exec .spareIn s =
    .next (match s.coreSeq c with
      | some (sq, q) =>
        if q.members.all fun m => (s.core m).saved.length == 3 then ((s.moveRank sq q c k).resumeInPlace sq).endReplace c k else s
      | none => (match s.storeOwner c with | some (z, v, r) => s.saveStore z v r c | none => s).endReplace c k) := by
  show execSpareIn s = _
  rw [execSpareIn, h]
  rfl

end

/-- Settles O38: a trigger by what its core and its spare are, a replacement by its stage, and a minute by its risk (`State.risk_leaves`). -/
theorem sparesAndMinutes : Obligations.SparesAndMinutes := by
  intro s c k
  refine ⟨fun hc => ?trigger, fun h hh => ?held, fun h hh => ⟨fun hq => ?alone, fun sq q hq hp => ?again, fun sq q hq hp => ?preempts⟩,
    fun h => ⟨fun sq q hq hm => ?moves, fun sq q hq hm => ?waits, fun z v r hq hz => ?stores, fun hq hz => ?plain⟩,
    fun o hd => congrArg Host.Outcome.next (if_pos (by simp [hd])), fun o hd => ?minute⟩
  case trigger =>
    intro s1
    refine ⟨fun h => (exec_spareGo_named hc).trans (congrArg _ (State.startReplace_noCore h)), fun hlt hk hd hs => ?_⟩
    have e := (exec_spareGo_named hc).trans (congrArg Host.Outcome.next (State.startReplace_live hlt hk hd hs))
    refine ⟨fun hn => ?_, fun hf hn => ?_, fun d r n hf hn _ => ?_⟩
    · rw [e, hn]
    · rw [hf, hn] at e
      refine ⟨_, e, rfl, ?_, fun d hd => ?_, rfl, rfl, rfl⟩
      · simp
      · exact State.core_modCore_ne _ _ hd
    · rw [e, hf, hn]
  case held =>
    rw [exec_replacementTilesEnded_pending h]
    exact congrArg _ (if_pos hh)
  case alone =>
    rw [exec_replacementTilesEnded_pending h, hq]
    exact congrArg _ (if_neg (Bool.eq_false_iff.mp hh))
  case again =>
    rw [exec_replacementTilesEnded_pending h, hq]
    exact congrArg _ ((if_neg (Bool.eq_false_iff.mp hh)).trans (if_pos hp))
  case preempts =>
    rw [exec_replacementTilesEnded_pending h, hq]
    exact congrArg _ ((if_neg (Bool.eq_false_iff.mp hh)).trans (if_neg (Bool.eq_false_iff.mp hp)))
  case moves =>
    rw [exec_spareIn_pending h, hq]
    exact congrArg _ (if_pos hm)
  case waits =>
    rw [exec_spareIn_pending h, hq]
    exact congrArg _ (if_neg (Bool.eq_false_iff.mp hm))
  case stores => rw [exec_spareIn_pending h, hq, hz]
  case plain => rw [exec_spareIn_pending h, hq, hz]
  case minute =>
    have e := exec_operatingMinute_ready o hd
    obtain ⟨hmin, hpwr, hrisk⟩ := s.minuteRun_leaves o
    generalize s.minuteRun o = u at *
    exact ⟨_, e, hmin, rfl, rfl, rfl, hrisk, State.reg_setReg_self .., exec_same e .mem rfl, exec_same e .objs rfl, exec_same e .seqs rfl⟩

end Sys2Proof.Machine
end

section
/-! PROOFS. Partitions, contexts and queues: created, queried, killed and destroyed (R349, R350, R353, R356, R358, R373, R374). -/

namespace Sys2Proof.Machine

open Sys2Proof

section
variable {s : State} {port q : Nat} {k : SubQueue} {p : Packet}
variable (hr : s.runningPacket port q = some (k, p)) (hf : s.packetFault port q (packetCtx k p) p = none)
include hr hf

/-! ### Partitions -/

theorem exec_partCreate_creates (ho : p.opcode = 0x20)
    (hfree : s.partFree (p.arg0 % 128) (bitsOf (sliceBytes p.payload 0 136)) (bitsOf (sliceBytes p.payload 136 64)) (payloadRanges p.payload) = true) :
    exec (.partCreate port q) s = .next ((s.modObjs fun o => { o with
      parts := put o.parts (p.arg0 % 128) ⟨fld p.arg0 7 2, bit p.arg0 9, fld p.arg0 10 8, bitsOf (sliceBytes p.payload 0 136),
        bitsOf (sliceBytes p.payload 136 64), payloadRanges p.payload⟩ }).completePacket port q p) :=
  congrArg Host.Outcome.next (State.runPacket_ok hr ho hf (if_neg (by simp [hfree])))

theorem exec_partDestroy_destroys {g : Part} (ho : p.opcode = 0x21) (hg : look s.objs.parts (p.arg0 % 128) = some g)
    (hc : (s.objs.ctxs.all fun e => e.2.part != p.arg0 % 128) = true) (hm : (s.objs.mems.all fun e => e.2.part != p.arg0 % 128) = true) :
    exec (.partDestroy port q) s =
      .next ((s.modObjs fun o => { o with parts := del o.parts (p.arg0 % 128) }).completePacket port q p) := by
  have hctxs : (s.objs.ctxs.any fun e => e.2.part == p.arg0 % 128) = false := by
    rwa [← Bool.not_eq_true', List.not_any_eq_all_not]
  have hmems : (s.objs.mems.any fun e => e.2.part == p.arg0 % 128) = false := by
    rwa [← Bool.not_eq_true', List.not_any_eq_all_not]
  exact congrArg Host.Outcome.next (State.runPacket_ok hr ho hf (if_neg (by simp [hg, hctxs, hmems])))

/-! ### Contexts -/

theorem exec_contextCreate_creates {g : Part} {y : Nat} (ho : p.opcode = 0x22) (hg : look s.objs.parts (p.arg0 % 128) = some g)
    (hp : g.port = port) (hl : s.runsContexts = true) (hd : bit p.arg0 7 = true → g.debugAllowed = true)
    (hy : firstFree (fun k => (s.ctx k).isSome) (min 4096 (s.objs.ctxs.length + 1)) = some y) (hw : s.ringOk port p = true) :
    exec (.contextCreate port q) s = .next
      ((({ s with free := s.free + 1 } : State).modObjs fun o => { o with
        ctxs := put o.ctxs y (newCtx (p.arg0 % 128) ((Config.freeValue s.free).setWidth 32) (bit p.arg0 7)) }).completeWith
          port q p.ctx p 3 p.fenceId [] (leBytes 2 y ++ leBytes 2 0 ++ leBytes 4 ((Config.freeValue s.free).setWidth 32).toNat)) := by
  have hdebug : (bit p.arg0 7 && !g.debugAllowed) = false := by
    cases hb : bit p.arg0 7
    · rfl
    · simp [hd hb]
  refine congrArg Host.Outcome.next (State.runPacket_ok hr ho hf ?_)
  simp only [hg, hp, hl, hdebug, hy, hw, ne_eq, not_true_eq_false, Bool.not_true, Bool.false_eq_true, if_false]
  rfl

section
variable {y : Nat} {c : Ctx} (hs : s.subject port q (packetCtx k p) p = .ok (y, c))
include hs

theorem exec_contextKill_live (ho : p.opcode = 0x23) (hl : c.state = .live) : exec (.contextKill port q) s =
    .next (let s1 := (s.endPacket port q).teardown y 0x6002 false
      if p.fenceEn then s1.modCtx y fun k => { k with killFences := k.killFences ++ [(p.fenceId, p.fenceValue)] } else s1) := by
  refine congrArg Host.Outcome.next (State.runPacket_ok hr ho hf ?_)
  simp only [hs, hl, ne_eq, not_true_eq_false, if_false]

theorem exec_contextKill_notLive (ho : p.opcode = 0x23) (hl : c.state ≠ .live) :
    exec (.contextKill port q) s = .next (s.completePacket port q p) := by
  refine congrArg Host.Outcome.next (State.runPacket_ok hr ho hf ?_)
  simp only [hs, hl, ne_eq, not_false_eq_true, if_true]

theorem exec_contextDestroy_dead (ho : p.opcode = 0x24) (hd : c.state = .dead) : exec (.contextDestroy port q) s =
    .next (((s.orphan y).modObjs fun o => { o with ctxs := del o.ctxs y }).completePacket port q p) := by
  refine congrArg Host.Outcome.next (State.runPacket_ok hr ho hf ?_)
  simp only [hs, hd, ne_eq, not_true_eq_false, if_false]

variable (ho : p.opcode = 0x25) (hw : s.ringOk port p = true)
include ho hw

theorem exec_contextQuery_status (h : p.arg1 % 4 = 0) :
    exec (.contextQuery port q) s = .next (s.completeWith port q (packetCtx k p) p 3 p.fenceId [] (s.statusPart y c)) := by
  refine congrArg Host.Outcome.next (State.runPacket_ok hr ho hf ?_)
  simp only [hs, hw, h, if_true]

theorem exec_contextQuery_log (h : p.arg1 % 4 = 1) : exec (.contextQuery port q) s = .next (s.completeWith port q (packetCtx k p) p 3 p.fenceId []
    ((c.log.filter fun e => decide (fld p.arg1 8 32 ≤ e.seq)).flatMap logBytes)) := by
  refine congrArg Host.Outcome.next (State.runPacket_ok hr ho hf ?_)
  simp only [hs, hw, h, one_ne_zero, if_true, if_false]

theorem exec_contextQuery_fence {f : Fence} (h : p.arg1 % 4 = 2) (hfe : s.fence p.arg2 = some f) (hm : f.mayWait y = true) :
    exec (.contextQuery port q) s = .next (s.completeWith port q (packetCtx k p) p 3 p.fenceId []
      (leBytes 8 f.value.toNat ++ leBytes 2 f.err ++ leBytes 2 (f.owner % 4096) ++ leBytes 4 0)) := by
  refine congrArg Host.Outcome.next (State.runPacket_ok hr ho hf ?_)
  simp only [hs, hw, h, hfe, hm, if_true]
  rfl

end
end

/-! ### Queues -/

section
variable {s : State} {port q : Nat} {k : SubQueue} {p : Packet} {c : Ctx}

theorem exec_queueCreate_creates (h : Admitted s port q 0x2B k p c) (hn : s.queue port (p.arg0 % 8192) = none) (hc : s.queueCount < 16384)
    (hw : s.inWindow port p.arg1 16 = true) :
    exec (.queueCreate port q) s = .next (((s.setQueue port (p.arg0 % 8192)
      ⟨some (packetCtx k p), fld p.arg0 13 13, [], none, false, 0, 0, p.arg1⟩).publish port (p.arg0 % 8192)).completePacket port q p) := by
  refine congrArg Host.Outcome.next (h.runPacket_ok ?_)
  simp only [h.actor, hn, hw, Nat.not_le.mpr hc, Option.isSome_none, Bool.not_true, Bool.false_eq_true, if_false]

/-- A queue goes with its packets, the one that runs in it among them; each fails with QUEUE_DESTROYED (R353). -/
theorem exec_queueDestroy_destroys {d r : SubQueue} (h : Admitted s port q 0x2C k p c) (hd : s.queue port p.arg0 = some d)
    (hown : d.owner = some (packetCtx k p)) (hleft : (s.endPacket port q).queue port p.arg0 = some r) :
    exec (.queueDestroy port q) s = .next (
      let t := ((s.endPacket port q).modObjs fun o => { o with queues := del o.queues (port * 8192 + p.arg0) }).failQueued port p.arg0
        (packetCtx k p) (r.running.toList ++ r.packets)
      if p.fenceEn then t.signal p.fenceId p.fenceValue else t) := by
  refine congrArg Host.Outcome.next (h.runPacket_ok ?_)
  simp only [h.actor, hd, hown, hleft, rightFirst, ne_eq, not_true_eq_false, if_true, if_false]
  rfl

end

/-- Settles O22: each command by what it makes of the state once it is admitted and its own checks pass. -/
theorem partitionsContextsAndQueues : Obligations.PartitionsContextsAndQueues := by
  intro s port q k p c x
  refine ⟨fun hr hf => ⟨exec_partCreate_creates hr hf, fun g => exec_partDestroy_destroys hr hf, fun g y => exec_contextCreate_creates hr hf,
      fun y hs => ⟨fun ho hl hn => ?kill, fun ho hl hn => ?killFence, exec_contextKill_notLive hr hf hs, exec_contextDestroy_dead hr hf hs,
        fun ho hm hw => exec_contextQuery_status hr hf hs ho hw hm, fun ho hm hw => exec_contextQuery_log hr hf hs ho hw hm,
        fun f ho hm hfe hmay hw => exec_contextQuery_fence hr hf hs ho hw hm hfe hmay⟩⟩,
    exec_queueCreate_creates, fun d r => exec_queueDestroy_destroys⟩
  case kill => exact (exec_contextKill_live hr hf hs ho hl).trans (congrArg _ (if_neg (Bool.eq_false_iff.mp hn)))
  case killFence => exact (exec_contextKill_live hr hf hs ho hl).trans (congrArg _ (if_pos hn))

end Sys2Proof.Machine
end

section
/-! PROOFS. Memory objects: allocated, mapped, unmapped, shared and freed (R349, R352, R359 to R361, R156). -/

namespace Sys2Proof.Machine

open Sys2Proof

section
variable {s : State} {port q : Nat} {k : SubQueue} {p : Packet} {c : Ctx}

/-! ### Allocation -/

section
variable {g : Part} (h : Admitted s port q 0x2D k p c) (hg : look s.objs.parts c.part = some g) (hn : s.objs.mems.length < 262144)
include h hg hn

theorem exec_memAlloc_takes {pages : List Nat} (hp : freePages g ((s.objs.mems.map (·.2)).filter fun o => o.part == c.part) (p.arg0 % 2) p.arg1 = some pages)
    (hw : s.ringOk port p = true) : exec (.memAlloc port q) s = .next ((s.modObjs fun o => { o with
      mems := put o.mems s.objs.nextMem ⟨packetCtx k p, c.part, p.arg0 % 2, pages, .live, []⟩, nextMem := s.objs.nextMem + 1 }).completeWith
        port q (packetCtx k p) p 3 p.fenceId [] (leBytes 4 s.objs.nextMem)) := by
  refine congrArg Host.Outcome.next (h.runPacket_ok ?_)
  simp only [h.actor, hg, Nat.not_le.mpr hn, hp, hw, Bool.not_true, Bool.false_eq_true, if_false]

/-- An allocation waits where only pages being wiped would do (log 39). -/
theorem exec_memAlloc_waits (hp : freePages g ((s.objs.mems.map (·.2)).filter fun o => o.part == c.part) (p.arg0 % 2) p.arg1 = none)
    (hw : (freePages g (((s.objs.mems.map (·.2)).filter fun o => o.part == c.part).filter fun o => o.state != .wiping) (p.arg0 % 2)
      p.arg1).isSome = true) : exec (.memAlloc port q) s = .next s := by
  refine congrArg Host.Outcome.next (h.runPacket_ok ?_)
  simp only [h.actor, hg, Nat.not_le.mpr hn, hp, hw, if_false, if_true]

end

/-! ### Mapping -/

/-- Who maps an object for writing owns it or holds a share with the write right (R361). -/
theorem exec_memMap_maps {o : MemObj} {m : Mapping} (h : Admitted s port q 0x2F k p c)
    (hm : m = ⟨p.arg1, fld p.arg2 32 32, o.pageSize, p.arg0 % 2 ^ 32, p.arg2 % 2 ^ 32, bit p.arg0 32, bit p.arg0 33⟩)
    (ho : look s.objs.mems (p.arg0 % 2 ^ 32) = some o) (hl : o.state = .live)
    (hr : o.owner = packetCtx k p ∨ ∃ w, (packetCtx k p, w) ∈ o.shares)
    (hw : m.write = true → o.owner = packetCtx k p ∨ (o.shares.find? fun t => t.1 == packetCtx k p) = some (packetCtx k p, true))
    (ha : m.va % pageBytes o.pageSize = 0) (hlen : m.first + m.pages ≤ o.pages.length) (hva : m.va + m.bytes ≤ 2 ^ 56)
    (hover : (c.maps.any fun n => overlaps (n.va, n.bytes) (m.va, m.bytes)) = false) : exec (.memMap port q) s =
      .next ((s.modCtx (packetCtx k p) fun k => { k with maps := k.maps ++ [m] }).completePacket port q p) := by
  subst hm
  dsimp only at hw ha hlen hva hover
  have hshare : ¬(o.owner ≠ packetCtx k p ∧ (o.shares.find? fun t => t.1 == packetCtx k p).isNone = true) := by
    rintro ⟨hne, hnone⟩
    obtain ⟨w, hmem⟩ := hr.resolve_left hne
    rw [Option.isNone_iff_eq_none, List.find?_eq_none] at hnone
    exact hnone _ hmem (beq_self_eq_true _)
  have hright : (bit p.arg0 33 && o.owner != packetCtx k p && !((o.shares.find? fun t => t.1 == packetCtx k p).any fun t => t.2)) = false := by
    cases hb : bit p.arg0 33
    · rfl
    · rcases hw hb with hown | hfind
      · simp [hown]
      · simp [hfind]
  refine congrArg Host.Outcome.next (h.runPacket_ok ?_)
  simp only [ho, h.actor, ha, hl, hover, hright, ne_eq, not_true_eq_false, false_or, Bool.false_eq_true, if_false]
  rw [if_neg (not_or.mpr ⟨Nat.not_lt.mpr hlen, Nat.not_lt.mpr hva⟩), if_neg hshare]

/-! ### Freeing and sharing -/

theorem Admitted.onPort {op : Nat} (h : Admitted s port q op k p c) : s.onPort port (packetCtx k p) = true := by
  obtain ⟨-, -, -, -, hport, -⟩ := h
  simp [State.onPort, hport]

/-- A packet of the context that owns an object has the right to it. -/
theorem Admitted.memRight {op a : Nat} {o : MemObj} (h : Admitted s port q op k p c) (ho : s.ownMem (packetCtx k p) a = .ok o) :
    s.memRight port (packetCtx k p) a = none := by
  unfold State.ownMem at ho
  simp only [State.memRight, h.onPort, Bool.not_true, Bool.and_false, Bool.false_eq_true, if_false]
  split at ho
  · exact absurd ho (by simp)
  · rename_i w hw
    rw [hw]
    split_ifs at ho with hown hlive
    exact if_pos (not_not.mp hown)

theorem exec_memFree_frees {o : MemObj} (h : Admitted s port q 0x2E k p c) (ho : s.ownMem (packetCtx k p) p.arg0 = .ok o) :
    exec (.memFree port q) s = .next
      ((s.modObjs fun k => { k with mems := upd k.mems p.arg0 fun o => { o with state := .freeing } }).settleFreeing.completePacket port q p) := by
  refine congrArg Host.Outcome.next (h.runPacket_ok ?_)
  simp only [h.memRight ho, rightFirst, h.actor, ho]

theorem exec_memShare_shares {o : MemObj} {d : Ctx} (h : Admitted s port q 0x31 k p c)
    (hr : s.shareRights port (packetCtx k p) p.arg0 (p.arg1 % 4096) = none) (ho : s.ownMem (packetCtx k p) p.arg0 = .ok o)
    (hd : s.actor port (p.arg1 % 4096) = .ok d) : exec (.memShare port q) s = .next
      ((s.modObjs fun k => { k with mems := upd k.mems p.arg0 fun o =>
        { o with shares := (o.shares.filter fun h => h.1 != p.arg1 % 4096) ++ [(p.arg1 % 4096, bit p.arg1 12)] } }).completePacket port q p) := by
  refine congrArg Host.Outcome.next (h.runPacket_ok ?_)
  simp only [hr, rightFirst, h.actor, ho, hd]

/-! ### Unmapping -/

section
variable {m : Mapping} (h : Admitted s port q 0x30 k p c) (hm : c.mapAt p.arg1 = some m) (ha : p.arg1 % pageBytes m.pageSize = 0)
  (hf : unmapFault c m.pageSize p.arg1 (p.arg2 * pageBytes m.pageSize) = none)
include h hm ha hf

/-- The range unmapped: its pages leave the context's mappings, and objects that waited for that are freed. -/
theorem exec_memUnmap_now (hw : s.translators (packetCtx k p) (p.arg1, p.arg2 * pageBytes m.pageSize) = []) :
    exec (.memUnmap port q) s = .next (((s.modCtx (packetCtx k p) fun k => { k with
      maps := k.maps.flatMap fun n => n.without p.arg1 (p.arg2 * pageBytes m.pageSize) }).settleFreeing).completePacket port q p) := by
  refine congrArg Host.Outcome.next (h.runPacket_ok ?_)
  simp only [h.actor, hm, ha, hf, hw, ne_eq, not_true_eq_false, List.isEmpty_nil, if_false, if_true]

theorem exec_memUnmap_later {s1 : State} {i : Nat} (hw : s.translators (packetCtx k p) (p.arg1, p.arg2 * pageBytes m.pageSize) ≠ [])
    (hs : s1 = (s.modCtx (packetCtx k p) fun k => { k with
      maps := k.maps.flatMap fun n => n.without p.arg1 (p.arg2 * pageBytes m.pageSize) }).settleFreeing)
    (hi : firstFree (fun k => (look s1.objs.unmaps k).isSome) (s1.objs.unmaps.length + 1) = some i) :
    exec (.memUnmap port q) s = .next ((s1.modObjs fun o => { o with
      unmaps := put o.unmaps i ⟨s.translators (packetCtx k p) (p.arg1, p.arg2 * pageBytes m.pageSize),
        if p.fenceEn then some (p.fenceId, p.fenceValue) else none⟩ }).endPacket port q) := by
  subst hs
  have hwork : (s.translators (packetCtx k p) (p.arg1, p.arg2 * pageBytes m.pageSize)).isEmpty = false := by simpa using hw
  refine congrArg Host.Outcome.next (h.runPacket_ok ?_)
  simp only [h.actor, hm, ha, hf, hwork, hi, ne_eq, not_true_eq_false, Bool.false_eq_true, if_false]

end

/-- No transfer that an unmap waits for is left. -/
theorem UnmapWait.work_ended {u : UnmapWait} (h : ∀ w ∈ u.work, ∀ e ∈ (s.core w.1).work, e.2 ≠ w.2) :
    (u.work.any fun w => (s.core w.1).work.any fun k => k.2 == w.2) = false :=
  List.any_eq_false.mpr fun w hw => ne_true_of_eq_false (List.any_eq_false.mpr fun e he => mt beq_iff_eq.mp (h w hw e he))

section
variable {i : Nat} {u : UnmapWait} (hu : look s.objs.unmaps i = some u)
include hu

theorem exec_memUnmapComplete_waits (h : ∃ w ∈ u.work, ∃ e ∈ (s.core w.1).work, e.2 = w.2) : exec (.memUnmapComplete i) s = .next s := by
  obtain ⟨w, hw, e, he, heq⟩ := h
  have hany : (u.work.any fun w => (s.core w.1).work.any fun k => k.2 == w.2) = true :=
    List.any_eq_true.mpr ⟨w, hw, List.any_eq_true.mpr ⟨e, he, beq_iff_eq.mpr heq⟩⟩
  show execMemUnmapComplete i s = _
  simp only [execMemUnmapComplete, hu, hany, if_true]

section
variable (h : ∀ w ∈ u.work, ∀ e ∈ (s.core w.1).work, e.2 ≠ w.2)
include h

theorem exec_memUnmapComplete_signals {f v : Nat} (hf : u.fence = some (f, v)) : exec (.memUnmapComplete i) s =
    .next ((s.modObjs fun o => { o with unmaps := del o.unmaps i }).signal f v) := by
  show execMemUnmapComplete i s = _
  simp only [execMemUnmapComplete, hu, UnmapWait.work_ended h, hf, Bool.false_eq_true, if_false]

theorem exec_memUnmapComplete_quiet (hf : u.fence = none) : exec (.memUnmapComplete i) s =
    .next (s.modObjs fun o => { o with unmaps := del o.unmaps i }) := by
  show execMemUnmapComplete i s = _
  simp only [execMemUnmapComplete, hu, UnmapWait.work_ended h, hf, Bool.false_eq_true, if_false]

end

end

theorem exec_descTableSet_sets {l : List Piece} (h : Admitted s port q 0x32 k p c) (hb : s.boundOf (packetCtx k p) = []) (hv : c.saved = [])
    (hl : s.translate (packetCtx k p) p.arg1 0x40_0000 true true = .ok l) : exec (.descTableSet port q) s =
      .next ((s.modCtx (packetCtx k p) fun k => { k with descTable := some p.arg1 }).completePacket port q p) := by
  refine congrArg Host.Outcome.next (h.runPacket_ok ?_)
  simp only [h.actor, hb, hv, hl, List.isEmpty_nil, Bool.not_true, Bool.or_self, Bool.false_eq_true, if_false]

end

/-- Settles O25: each command by what it makes of the state once it is admitted and its own checks pass. -/
theorem memoryObjects : Obligations.MemoryObjects := by
  intro s port q k p c x
  refine ⟨fun g pages h hg hn => exec_memAlloc_takes h hg hn, fun g h hg hn => exec_memAlloc_waits h hg hn, fun o => exec_memFree_frees,
    ?map, ?unmap, fun i u => exec_memUnmapComplete_waits,
    fun i u f v hu hw => ⟨exec_memUnmapComplete_signals hu hw, exec_memUnmapComplete_quiet hu hw⟩, fun o d => exec_memShare_shares,
    fun l => exec_descTableSet_sets⟩
  case map =>
    intro o m h
    exact exec_memMap_maps h rfl
  case unmap =>
    intro m h hm ha n hf s1
    exact ⟨exec_memUnmap_now h hm ha hf, fun i hw hi => exec_memUnmap_later h hm ha hf hw rfl hi⟩

end Sys2Proof.Machine
end

section
/-! PROOFS. Fences and events: created, shared, imported, reset and destroyed (R363 to R369, R371). -/

namespace Sys2Proof.Machine

open Sys2Proof

section
variable {s : State} {port q : Nat} {k : SubQueue} {p : Packet} {c : Ctx} {d : Fence}

/-- A packet of the context that owns a fence has the right to it. -/
theorem Admitted.fenceRight {op f : Nat} (h : Admitted s port q op k p c) (hd : s.ownFence (packetCtx k p) f = .ok d) :
    s.fenceRight port (packetCtx k p) f = none := by
  simp only [State.fenceRight, h.onPort, hd, Bool.not_true, Bool.and_false, Bool.false_eq_true, if_false]

theorem exec_fenceCreate_creates {f : Nat} (h : Admitted s port q 0x33 k p c) (hf : s.fenceId = some f) (hw : s.ringOk port p = true) :
    exec (.fenceCreate port q) s = .next ((s.modObjs fun o => { o with
      fences := put o.fences f (newFence (packetCtx k p) (BitVec.ofNat 64 p.arg2) none) }).completeWith
        port q (packetCtx k p) p 3 p.fenceId [] (leBytes 4 f)) := by
  refine congrArg Host.Outcome.next (h.runPacket_ok ?_)
  simp only [h.actor, hf, hw, Bool.not_true, Bool.false_eq_true, if_false]

/-- A fence destroyed: one that is waited on enters the error state before it goes (R367). -/
theorem exec_fenceDestroy_destroys (h : Admitted s port q 0x34 k p c) (hd : s.ownFence (packetCtx k p) p.arg0 = .ok d) :
    exec (.fenceDestroy port q) s = .next (let s1 := s.endPacket port q
      let s2 := if (s1.waitingOn p.arg0).isEmpty then s1 else s1.fenceError p.arg0 0x6005 (some (packetCtx k p)) 0 (0x34, q)
      if p.fenceEn then (s2.dropFence p.arg0).signal p.fenceId p.fenceValue else s2.dropFence p.arg0) := by
  have ho : p.opcode = 0x34 := h.2.1
  refine congrArg Host.Outcome.next (h.runPacket_ok ?_)
  simp only [h.fenceRight hd, rightFirst, h.actor, hd, ho]

section
variable (h : Admitted s port q 0x35 k p c) (hd : s.ownFence (packetCtx k p) p.arg0 = .ok d)
include h hd

theorem exec_fenceShare_exports (hb : bit p.arg1 13 = true) : exec (.fenceShare port q) s =
    .next ((s.modFence p.arg0 fun k => { k with exported := some (bit p.arg1 12) }).completePacket port q p) := by
  refine congrArg Host.Outcome.next (h.runPacket_ok ?_)
  simp only [h.fenceRight hd, rightFirst, h.actor, hd, hb, if_true]

theorem exec_fenceShare_shares (hb : bit p.arg1 13 = false) (hl : s.live (p.arg1 % 4096) = true) : exec (.fenceShare port q) s =
    .next ((s.modFence p.arg0 fun k => { k with
      shares := (k.shares.filter fun h => h.1 != p.arg1 % 4096) ++ [(p.arg1 % 4096, bit p.arg1 12)] }).completePacket port q p) := by
  refine congrArg Host.Outcome.next (h.runPacket_ok ?_)
  simp only [h.fenceRight hd, rightFirst, h.actor, hd, hb, hl, Bool.not_true, Bool.false_eq_true, if_false]

end

section
variable {f node : Nat} {j : Nat × Job} (h : Admitted s port q 0x36 k p c) (hj : c.job ≠ none) (hs : s.senderJob (packetCtx k p) false = .ok j)
  (hf : s.fenceId = some f) (hn : node = if bit p.arg1 13 then fld p.arg1 3 10 else s.pins.strapTray * 8 + p.arg1 % 8)
  (hg : bit p.arg1 13 = true → s.ident.grade = .full) (hu : s.unreachable node = none) (hw : s.ringOk port p = true)
include h hj hs hf hn hg hu hw

/-- An import whose checks pass, by the home's free answer (log 31). -/
theorem exec_fenceImport_asks : exec (.fenceImport port q) s = .next (
    if (Config.freeValue s.free).getLsbD 0 then
      (({ s with free := s.free + 1 + 1 } : State).modObjs fun o => { o with
        fences := put o.fences f (newFence (packetCtx k p) (Config.freeValue (s.free + 1))
          (some (node, p.arg0, (Config.freeValue s.free).getLsbD 1))) }).completeWith port q (packetCtx k p) p 3 p.fenceId [] (leBytes 4 f)
    else ({ s with free := s.free + 1 } : State).failPacket port q (packetCtx k p) 0x6004 0 p) := by
  have htray : (bit p.arg1 13 && s.ident.grade == .tray) = false := by
    cases hb : bit p.arg1 13
    · rfl
    · simp [hg hb]
  have hjob : c.job.isNone = false := Option.isNone_eq_false_iff.mpr (Option.isSome_iff_ne_none.mpr hj)
  subst hn
  refine congrArg Host.Outcome.next (h.runPacket_ok ?_)
  simp only [h.actor, htray, hjob, hs, hf, hu, hw, State.draw, Bool.not_true, Bool.false_eq_true, if_false]
  cases (Config.freeValue s.free).getLsbD 0
  · rfl
  · rfl

end

theorem exec_fenceReset_resets (h : Admitted s port q 0x37 k p c) (hd : s.ownFence (packetCtx k p) p.arg0 = .ok d) :
    exec (.fenceReset port q) s = .next
      (((s.modFence p.arg0 fun k => { k with value := BitVec.ofNat 64 p.arg2, err := 0, origin := none }).wake [p.arg0]).completePacket port q p) := by
  refine congrArg Host.Outcome.next (h.runPacket_ok ?_)
  simp only [h.fenceRight hd, rightFirst, h.actor, hd]

/-! ### Events -/

/-- An event created: it fires at once where its fence has reached its target or is in the error state (R371). -/
theorem exec_eventCreate_creates {e : Event} {s1 : State} {f : Fence} (h : Admitted s port q 0x38 k p c)
    (hm : s.mayWait (packetCtx k p) p.arg0 = true) (hn : s.objs.events.length < 65536) (hw : s.ringOk port p = true)
    (he : e = ⟨packetCtx k p, port, p.arg0, BitVec.ofNat 64 p.arg1, p.arg2, false⟩)
    (hs : s1 = (s.modObjs fun o => { o with events := put o.events s.objs.nextEvent e, nextEvent := s.objs.nextEvent + 1 }).completeWith
      port q (packetCtx k p) p 3 p.fenceId [] (leBytes 4 s.objs.nextEvent)) (hf : s1.fence p.arg0 = some f) :
    exec (.eventCreate port q) s =
      .next (if f.err ≠ 0 ∨ e.target.toNat ≤ f.value.toNat then s1.fireEvent s.objs.nextEvent e f else s1) := by
  subst he hs
  refine congrArg Host.Outcome.next (h.runPacket_ok ?_)
  simp only [h.onPort, hm, rightFirst, h.actor, Nat.not_le.mpr hn, hw, hf, Bool.not_true, Bool.and_false, Bool.false_eq_true, if_false, if_true]

theorem exec_eventDestroy_destroys {e : Event} (h : Admitted s port q 0x39 k p c) (he : look s.objs.events p.arg0 = some e)
    (hown : e.owner = packetCtx k p) : exec (.eventDestroy port q) s =
      .next ((s.modObjs fun o => { o with events := del o.events p.arg0 }).completePacket port q p) := by
  refine congrArg Host.Outcome.next (h.runPacket_ok ?_)
  simp only [he, hown, rightFirst, h.actor, ne_eq, not_true_eq_false, if_true, if_false]

end

/-- Settles O26: each command by what it makes of the state once it is admitted and its own checks pass. -/
theorem fencesAndEvents : Obligations.FencesAndEvents := by
  intro s port q k p c d x
  refine ⟨fun f => exec_fenceCreate_creates, fun h hd => ?destroy, fun h hd => ⟨exec_fenceShare_exports h hd, exec_fenceShare_shares h hd⟩,
    ?imported, exec_fenceReset_resets, ?event, fun e => exec_eventDestroy_destroys⟩
  case destroy =>
    refine ⟨fun hw => (exec_fenceDestroy_destroys h hd).trans ?_, fun hw => (exec_fenceDestroy_destroys h hd).trans ?_⟩
    · simp only [hw, List.isEmpty_nil, if_true]
    · simp only [List.isEmpty_iff, hw, if_false, x]
  case imported =>
    intro f j h hj hs hf node hg hu hw
    have e := exec_fenceImport_asks h hj hs hf rfl hg hu hw
    exact ⟨fun ha => e.trans (congrArg _ (if_pos ha)), fun ha => e.trans (congrArg _ (if_neg (Bool.eq_false_iff.mp ha)))⟩
  case event =>
    intro h hm hn hw e s1 f hf
    have hexec := exec_eventCreate_creates h hm hn hw rfl rfl hf
    refine ⟨fun h0 hlt => hexec.trans (congrArg _ (if_neg ?_)), fun hfire => hexec.trans (congrArg _ (if_pos hfire))⟩
    exact not_or.mpr ⟨not_not.mpr h0, Nat.not_le.mpr hlt⟩

end Sys2Proof.Machine
end

section
/-! PROOFS. The links of the fabric as they train, go down and change their width, and a peer readmitted (R378 to R385, R402 to R412). -/

namespace Sys2Proof.Machine

open Sys2Proof

/-! ### A peer's register: its state and its link's halves -/

theorem fld_peerState_setHalves (v x : Nat) : fld (setFld v 2 2 x) 0 2 = fld v 0 2 := by
  unfold fld setFld fld
  omega

theorem fld_halves_setPeerState (v x : Nat) : fld (setFld v 0 2 x) 2 2 = fld v 2 2 := by
  unfold fld setFld fld
  omega

theorem andHalves_lt (a b : Nat) : andHalves a b < 4 := by
  unfold andHalves b2n
  split_ifs <;> decide

section
variable (s : State) (k v : Nat)

@[simp] theorem State.trayHalves_setHalves : (s.setField (offPeer k 0) 2 2 v).trayHalves k = v % 4 :=
  State.fld_reg_setField s (offPeer k 0) v (by decide)

@[simp] theorem State.peerState_setHalves : (s.setField (offPeer k 0) 2 2 v).peerState k = s.peerState k := by
  unfold State.peerState State.setField
  rw [State.reg_setReg_self, fld_mod_two_pow (by decide), fld_peerState_setHalves]
  rfl

@[simp] theorem State.trayHalves_setPeerState : (s.setField (offPeer k 0) 0 2 v).trayHalves k = s.trayHalves k := by
  unfold State.trayHalves State.setField
  rw [State.reg_setReg_self, fld_mod_two_pow (by decide), fld_halves_setPeerState]

theorem State.peerState_setPeerState (h : k ≠ s.pins.strapSlot) : (s.setField (offPeer k 0) 0 2 v).peerState k = v % 4 :=
  (if_neg h).trans (State.fld_reg_setField s (offPeer k 0) v (by decide))

end

section
variable {s : State} {k halves : Nat}

/-! ### Tray links -/

/-- A link that trains in both halves' hub dies: up to the right peer, else recorded (R378, R379, R384; the payload's 0x10 + slot is log 33). -/
theorem exec_trayLinkTrained_trains (ft fs : Nat) (hk : k < 8) (hs : k ≠ s.pins.strapSlot) (hu : k ∉ s.fab.linkUp) (hl : s.linksTrain = true)
    (hh : andHalves (halves % 4) (s.servedHalves k) ≠ 0) : exec (.trayLinkTrained k ft fs halves) s = .next (
      if ft ≠ s.pins.strapTray ∨ fs ≠ k then s.raise 0x7803 (leBytes 1 (0x10 + k) ++ leBytes 2 (ft * 8 + fs))
      else
        let s1 := { s with fab := { s.fab with linkUp := addNew s.fab.linkUp k } }.setWire (.tray k) (Wire.fresh (fld (s.written (offTf 0)) 0 2))
        let s2 := s1.setField (offPeer k 0) 2 2 (andHalves (halves % 4) (s.servedHalves k))
        if s2.peerState k = 0 then s2.setField (offPeer k 0) 0 2 1 else s2) :=
  congrArg Host.Outcome.next (if_neg (by simp [Nat.not_le.mpr hk, hs, hu, hl, hh]))

theorem State.trayDown_unlinked (h : k ∉ s.fab.linkUp) : s.trayDown k = s := if_pos (by simp [h])

theorem State.trayDown_linked (hk : k < 8) (h : k ∈ s.fab.linkUp) : s.trayDown k =
    if s.peerState k = 1 then
      let t := ((s.unlink k).noteLoss k).applyLoss (s.pins.strapTray * 8 + k)
      if 4 ≤ t.fab.recentLoss.length then t.selfFence else t
    else s.unlink k := by
  have hgo : ¬(decide (8 ≤ k) || !(s.fab.linkUp.contains k)) = true := by simp [Nat.not_le.mpr hk, h]
  rw [State.trayDown, if_neg hgo]
  by_cases hp : s.peerState k = 1 <;> simp [hp]

/-! ### Scale-out ports -/

theorem exec_scaleoutPortTrained_trains {node : Nat} {w4 : Bool} (hk : k < 4) (hg : s.ident.grade = .full) (h2 : s.sfState k ≠ 2)
    (h1 : s.sfState k ≠ 1) (hl : s.linksTrain = true) (hn : node < 1024) (hh : s.servedHalves k ≠ 0) (hw : s.servedHalves k = 3 ∨ w4 = true) :
    exec (.scaleoutPortTrained k node w4) s = .next (
      let s1 := (s.setField (offSfPort k 0) 3 10 node).setWire (.scaleOut k) (Wire.fresh (fld (s.written (offTf 0)) 0 2))
      if node % 8 ≠ s.pins.strapSlot then (s1.setField (offSfPort k 0) 0 2 3).raise 0x7803 (leBytes 1 k ++ leBytes 2 node)
      else ((s1.setField (offSfPort k 0) 0 2 2).setField (offSfPort k 0) 2 1 (b2n w4)).updateRoutes) := by
  have hnarrow : (s.servedHalves k != 3 && !w4) = false := by rcases hw with h | h <;> simp [h]
  exact congrArg Host.Outcome.next (if_neg (by simp [Nat.not_le.mpr hk, hg, h2, h1, hl, Nat.not_le.mpr hn, hh, hnarrow]))

theorem exec_scaleoutWidthChangeDone_widens (w : Bool) (hk : k < 4) (h1 : s.sfState k = 1) : exec (.scaleoutWidthChangeDone k w) s = .next (
    let w4 := w || s.servedHalves k != 3
    let s1 := { s with fab := { s.fab with halfOut := s.fab.halfOut.filter fun h => h.1 != 8 + k } }.setWire (.scaleOut k)
      (Wire.fresh (fld (s.written (offTf 0)) 0 2))
    let s2 := (s1.setField (offSfPort k 0) 0 2 2).setField (offSfPort k 0) 2 1 (b2n w4)
    (if w4 = bit (s.reg (offSfPort k 0)) 2 then s2 else s2.degradeEvent (.scaleOut k) (if w4 then 4 else 8)).updateRoutes) :=
  congrArg Host.Outcome.next (if_neg (by simp [Nat.not_le.mpr hk, h1]))

/-! ### A peer readmitted -/

/-- The command's register, and the fabric without what it kept of the peer's loss (R385). -/
def State.readmitted (s : State) (slot : Nat) : State :=
  let s1 := s.setField (offTf 0) 3 3 slot
  let n := s.pins.strapTray * 8 + slot
  let fab : Fabric := { s1.fab with lostNodes := drop1 s1.fab.lostNodes n, seen := s1.fab.seen.filter fun m => m.1 != n,
                                    recentLoss := s1.fab.recentLoss.filter fun r => r.1 != slot }
  { s1 with fab := fab }

theorem State.readmitted_lostNodes (s : State) (slot : Nat) : s.pins.strapTray * 8 + slot ∉ (s.readmitted slot).fab.lostNodes := by
  simp [State.readmitted, drop1]

theorem exec_readmit_up {slot : Nat} (hk : k < 4) (hs : slot < 8) (hu : (s.port k).up = true) : exec (.readmit k slot) s = .next (
    if k ≠ s.mgmtPort then s.bump (offBl k 0x78) 1
    else if slot = s.pins.strapSlot then
      { s.setField (offTf 0) 3 3 slot with fab := { (s.setField (offTf 0) 3 3 slot).fab with selfFenced := false } }
    else if s.peerState slot = 2 then (s.readmitted slot).setField (offPeer slot 0) 0 2 (b2n (s.fab.linkUp.contains slot))
    else s.setField (offTf 0) 3 3 slot) :=
  congrArg Host.Outcome.next (if_neg (by simp [Nat.not_le.mpr hk, Nat.not_le.mpr hs, hu]))

end

/-- Settles O31: each command by what it finds of its link, its port or its peer. -/
theorem fabricLinksComeAndGo : Obligations.FabricLinksComeAndGo := by
  intro s k halves
  refine ⟨fun hk hs hu hl hh => ⟨?right, fun ft fs hf => ?other⟩, fun hk hu hp => ?downQuiet, fun hk hu hp => ?downLost, fun hu => ?unlinked,
    fun node w4 hk hg h2 h1 hl hn hh hw => ?scale, ⟨fun hk hu => ?portDown, fun hk hu => ?portDownAlready, fun w hk h1 => ?width⟩,
    fun slot hk hs hu => ⟨fun hm => ?stranger, fun hm he => ?self, fun hm hne hp => ?peer⟩⟩
  case right =>
    refine ⟨_, (exec_trayLinkTrained_trains s.pins.strapTray k hk hs hu hl hh).trans (congrArg _ (if_neg (by simp))), ?_⟩
    dsimp only
    generalize hs1 : State.setWire _ _ _ = s1
    have hpins : k ≠ s1.pins.strapSlot := by rw [← hs1]; exact hs
    have hmem : k ∈ s1.fab.linkUp := by rw [← hs1]; exact mem_addNew.mpr (.inr rfl)
    have hpeer : s1.peerState k = s.peerState k := by rw [← hs1]; rfl
    have hwire : s1.wire (.tray k) = Wire.fresh (fld (s.written (offTf 0)) 0 2) := by rw [← hs1]; exact State.wire_setWire_self ..
    have hrest : s1.recd = s.recd ∧ s1.objs = s.objs ∧ s1.mem = s.mem := by rw [← hs1]; exact ⟨rfl, rfl, rfl⟩
    have hhalves := (s1.trayHalves_setHalves k (andHalves (halves % 4) (s.servedHalves k))).trans (Nat.mod_eq_of_lt (andHalves_lt ..))
    rw [State.peerState_setHalves, hpeer]
    by_cases h0 : s.peerState k = 0
    · rw [if_pos h0, if_pos h0]
      exact ⟨hmem, State.peerState_setPeerState _ _ _ hpins, (State.trayHalves_setPeerState ..).trans hhalves, hwire, hrest⟩
    · rw [if_neg h0, if_neg h0]
      exact ⟨hmem, (State.peerState_setHalves ..).trans hpeer, hhalves, hwire, hrest⟩
  case other => exact (exec_trayLinkTrained_trains ft fs hk hs hu hl hh).trans (congrArg _ (if_pos hf))
  case downQuiet => exact congrArg Host.Outcome.next ((State.trayDown_linked hk hu).trans (if_neg hp))
  case downLost =>
    have e : exec (.trayLinkDown k) s = .next _ := congrArg Host.Outcome.next ((State.trayDown_linked hk hu).trans (if_pos hp))
    exact ⟨fun hl => e.trans (congrArg _ (if_neg (Nat.not_le.mpr hl))), fun hl => e.trans (congrArg _ (if_pos hl))⟩
  case unlinked => exact congrArg Host.Outcome.next (State.trayDown_unlinked hu)
  case scale =>
    have e := exec_scaleoutPortTrained_trains hk hg h2 h1 hl hn hh hw
    exact ⟨fun he => e.trans (congrArg _ (if_neg (not_not.mpr he))), fun hne => e.trans (congrArg _ (if_pos hne))⟩
  case portDown => exact congrArg Host.Outcome.next (if_neg (by simp [Nat.not_le.mpr hk, hu]))
  case portDownAlready => exact congrArg Host.Outcome.next (if_pos (by simp [hu]))
  case width =>
    have e := exec_scaleoutWidthChangeDone_widens w hk h1
    refine ⟨fun he => e.trans (congrArg _ ?_), fun hne => e.trans (congrArg _ ?_)⟩
    · exact congrArg State.updateRoutes (if_pos he.symm)
    · exact congrArg State.updateRoutes (if_neg (Ne.symm hne))
  case stranger => exact (exec_readmit_up hk hs hu).trans (congrArg _ (if_pos hm))
  case self =>
    exact ⟨_, (exec_readmit_up hk hs hu).trans (congrArg _ ((if_neg (not_not.mpr hm)).trans (if_pos he))), rfl, rfl, rfl⟩
  case peer =>
    refine ⟨_, (exec_readmit_up hk hs hu).trans (congrArg _ ((if_neg (not_not.mpr hm)).trans ((if_neg hne).trans (if_pos hp)))),
      s.readmitted_lostNodes slot, fun hl => ?_, fun hl => ?_, rfl, rfl⟩
    · rw [State.peerState_setPeerState (s.readmitted slot) slot _ hne, show s.fab.linkUp.contains slot = true from List.contains_iff_mem.mpr hl]
      rfl
    · rw [State.peerState_setPeerState (s.readmitted slot) slot _ hne, show s.fab.linkUp.contains slot = false by simpa using hl]
      rfl

end Sys2Proof.Machine
end

section
/-! PROOFS. The requests of the fabric to targets of the serving context, and flags (R388 to R396, R403, R404). -/

namespace Sys2Proof.Machine

open Sys2Proof

section
variable {s : State} {h : FabHdr}

/-- A request for another node is forwarded. -/
theorem State.receive_elsewhere {op : Nat} (hw : h.wf op = true) (ha : s.arrives h.src = true) (hd : h.dst ≠ s.node) (own : State → State) :
    s.receive op h own = s.forward h := by
  simp [State.receive, hw, ha, hd]

/-- A flag that waits for the stores it counts (log 29). -/
theorem State.flagWaits_leaves (s : State) (h : FabHdr) :
    look (s.flagWaits h).fab.flags s.fab.nextFlag = some ⟨h, s.failedAmong h h.seq⟩ ∧ (s.flagWaits h).fab.nextFlag = s.fab.nextFlag + 1 ∧
    (s.flagWaits h).fab.reqs = s.fab.reqs ∧ (s.flagWaits h).mem = s.mem ∧ (s.flagWaits h).cache = s.cache ∧ (s.flagWaits h).objs = s.objs :=
  ⟨look_put_self .., rfl, rfl, rfl, rfl, rfl⟩

section
variable (hj : h.deviceHeld = false)
include hj

/-! ### Requests of a job that is admitted, to a target of its context -/

section
variable {e x : Nat} (hx : s.admission h false = .ok (e, x))
include hx

section
variable {bytes : List (Nat × Byte)}

theorem State.storeHere_ok {l : List Piece} (hl : s.targetRange x (h.address / 128 * 128) 128 false true = .ok l) :
    s.storeHere h bytes = ((s.storeLine l bytes).respond h 0 []).noteStore h 0 := by
  simp only [State.storeHere, hj, hx, hl, Bool.false_eq_true, if_false]

theorem State.storeHere_error {c : Nat} (hl : s.targetRange x (h.address / 128 * 128) 128 false true = .error c) :
    s.storeHere h bytes = (s.reject h c).noteStore h c := by
  simp only [State.storeHere, hj, hx, hl, Bool.false_eq_true, if_false]

end

section
variable {mask : BitVec 128} {err : Bool}

theorem State.loadHere_ok {l : List Piece} (hl : s.targetRange x (loadRange h).1 (loadRange h).2 true false = .ok l) :
    s.loadHere h mask err = if err || s.badPieces l then (s.readPieces 0 x l none).1.respond h 0x4003 []
      else (s.readPieces 0 x l none).1.respond h 0 (loadData h mask (s.seePieces l)) := by
  simp only [State.loadHere, hj, hx, hl, Bool.false_eq_true, if_false]

theorem State.loadHere_error {c : Nat} (hl : s.targetRange x (loadRange h).1 (loadRange h).2 true false = .error c) :
    s.loadHere h mask err = s.reject h c := by
  simp only [State.loadHere, hj, hx, hl, Bool.false_eq_true, if_false]

end

section
variable {r : State} (hr : s.readDescs x [h.address % 2 ^ 16] = r)
include hr

theorem State.fetchHere_unfetched {c : Nat} (hf : r.fetched x h.address = .error c) : s.fetchHere h = r.reject h c := by
  simp only [State.fetchHere, hj, hx, hr, hf, Bool.false_eq_true, if_false]

theorem State.fetchHere_unranged {k c : Nat} {l : List (Nat × Nat)} (hf : r.fetched x h.address = .ok (k, l)) (hl : r.rangesFault x l = some c) :
    s.fetchHere h = r.reject h c := by
  simp only [State.fetchHere, hj, hx, hr, hf, hl, Bool.false_eq_true, if_false]

theorem State.fetchHere_ok {k : Nat} {l : List (Nat × Nat)} {g : List Piece} (hf : r.fetched x h.address = .ok (k, l))
    (hl : r.rangesFault x l = none) (hg : r.translate x (r.descAddr x k) 64 true false = .ok g) :
    s.fetchHere h = r.respond h 0 (r.seePieces g) := by
  simp only [State.fetchHere, hj, hx, hr, hf, hl, hg, Bool.false_eq_true, if_false]

end

section
variable {op : AtomicKind} {v : Nat}

theorem State.atomicHere_unaligned (ha : h.address % 8 ≠ 0) : s.atomicHere h op v = (s.reject h 0x4021).noteStore h 0x4021 := by
  simp only [State.atomicHere, hj, hx, if_pos ha, Bool.false_eq_true, if_false]

theorem State.atomicHere_error {c : Nat} (ha : h.address % 8 = 0) (hl : s.targetRange x h.address 8 false true = .error c) :
    s.atomicHere h op v = (s.reject h c).noteStore h c := by
  simp only [State.atomicHere, hj, hx, ha, hl, ne_eq, not_true_eq_false, Bool.false_eq_true, if_false]

theorem State.atomicHere_ok {l : List Piece} (ha : h.address % 8 = 0) (hl : s.targetRange x h.address 8 false true = .ok l) :
    s.atomicHere h op v = if (s.fetchPieces x l).badPieces l then ((s.fetchPieces x l).respond h 0x4003 []).noteStore h 0x4003
      else (((s.fetchPieces x l).atomicAt l op v).respond h 0 []).noteStore h 0 := by
  simp only [State.atomicHere, hj, hx, ha, hl, ne_eq, not_true_eq_false, Bool.false_eq_true, if_false]

end
end

/-! ### Requests of a job that is not admitted -/

section
variable {code : Nat} (hx : s.admission h false = .error code)
include hx

theorem State.storeHere_rejected (bytes : List (Nat × Byte)) : s.storeHere h bytes = (s.reject h code).noteStore h code := by
  simp only [State.storeHere, hj, hx, Bool.false_eq_true, if_false]

theorem State.loadHere_rejected (mask : BitVec 128) (err : Bool) : s.loadHere h mask err = s.reject h code := by
  simp only [State.loadHere, hj, hx, Bool.false_eq_true, if_false]

theorem State.fetchHere_rejected : s.fetchHere h = s.reject h code := by
  simp only [State.fetchHere, hj, hx, Bool.false_eq_true, if_false]

theorem State.atomicHere_rejected (op : AtomicKind) (v : Nat) : s.atomicHere h op v = (s.reject h code).noteStore h code := by
  simp only [State.atomicHere, hj, hx, Bool.false_eq_true, if_false]

end

/-! ### Flags and tokens -/

/-- A flag of an admitted job, once its handle's word is found (R393; the handle is the address modulo 2^16, log 15). -/
def State.flagOf (s : State) (h : FabHdr) (x : Nat) : State :=
  let u := s.readDescs x [h.address % 2 ^ 16]
  match u.flagWord x h.address with
  | .error e => u.reject h e
  | .ok a => u.flagWaits { h with address := a }

/-- A token of an admitted job, by whether a core took it (R396). -/
def State.tokenOf (s : State) (h : FabHdr) (x rank channel : Nat) : State :=
  if (s.deliverToken x rank (channel % 32)).2 then (s.deliverToken x rank (channel % 32)).1.respond h 0 []
  else (s.deliverToken x rank (channel % 32)).1.respond h 0x7003 []

end

theorem exec_flag_context (hj : h.deviceHeld = false) (ha : s.arrives h.src = true) (hd : h.dst = s.node) (hw : h.wf 5 = true) :
    exec (.flag h) s = .next (s.jobRequest 5 h false fun t _ x => t.flagOf h x) := by
  have hctx : ¬h.deviceHeld = true := Bool.eq_false_iff.mp hj
  rw [exec_flag, execFlag, State.jobRequest, State.receive_here hw ha hd, State.receive_here hw ha hd, if_neg hctx, if_neg hctx]
  rfl

theorem exec_token (rank ch : Nat) (s : State) : exec (.token h rank ch) s = .next (s.jobRequest 6 h false fun t _ x => t.tokenOf h x rank ch) := rfl

theorem exec_descFetch (s : State) : exec (.descFetch h) s = .next (s.receive 3 h fun t => t.fetchHere h) := rfl
theorem exec_fabricAtomic_receives (op : AtomicKind) (v : W64) (s : State) :
    exec (.fabricAtomic h op v) s = .next (s.guarded (s.receive 4 h fun t => t.atomicHere h op v.toNat)) := rfl

/-- A flag applied: answered with the failure of a store that it counted, else where its target is. -/
theorem exec_flagApplied_waiting {i : Nat} {w : WaitFlag} (hw : look s.fab.flags i = some w) : exec (.flagApplied i) s = .next (s.guarded (
    let s1 := s.modFab fun f => { f with flags := del f.flags i }
    if w.failed ≠ 0 then s1.respond w.hdr w.failed [] else if w.hdr.deviceHeld then s1.markerHere w.hdr else s1.flagHere w.hdr)) := by
  show execFlagApplied i s = _
  simp only [execFlagApplied, hw]

end

/-- Settles O32: each request by whether it is for this node, admitted, and to a target of its context. -/
theorem fabricRequestsServed : Obligations.FabricRequestsServed := by
  intro s h e x ha
  refine ⟨fun hd mask data err op v rank ch => ?elsewhere, fun hd hj hx => ?here, fun code mask data err op v rank ch hd hj hx => ?rejected,
    fun i w hw => ?applied⟩
  case elsewhere =>
    refine ⟨fun hw => ?_, fun hw => ?_, fun hw => ?_, fun hw => ?_, fun hw => ?_, fun hw => ?_⟩
    · rw [exec_lineStore, execLineStore, State.receive_elsewhere hw ha hd]
    · rw [exec_lineLoad, execLineLoad, State.receive_elsewhere hw ha hd]
    · rw [exec_descFetch, State.receive_elsewhere hw ha hd]
    · rw [exec_fabricAtomic_receives, State.receive_elsewhere hw ha hd]
    · rw [exec_flag, execFlag, State.receive_elsewhere hw ha hd]
    · rw [exec_token, State.jobRequest, State.receive_elsewhere hw ha hd]
  case here =>
    refine ⟨fun mask data hw => ?store, fun mask err hw => ?load, ?descs, fun op v hw => ?atomic, fun rank ch hw => ?token⟩
    case store =>
      rw [exec_lineStore, execLineStore, State.receive_here hw ha hd]
      exact ⟨fun l hl => by rw [State.storeHere_ok hj hx hl], fun c hl => by rw [State.storeHere_error hj hx hl]⟩
    case load =>
      rw [exec_lineLoad, execLineLoad, State.receive_here hw ha hd]
      refine ⟨fun l hl => ⟨fun he hb => ?_, fun hb => ?_⟩, fun c hl => by rw [State.loadHere_error hj hx hl]⟩
      · rw [State.loadHere_ok hj hx hl, he, hb]
        rfl
      · rw [State.loadHere_ok hj hx hl, if_pos (by simpa using hb)]
    case descs =>
      intro r
      refine ⟨fun k l g hw hf hl hg => ?_, fun c hw hf => ?_, fun k l c hw hf hl => ?_, fun a hw hf => ?_, fun c hw hf => ?_⟩
      · rw [exec_descFetch, State.receive_here hw ha hd, State.fetchHere_ok hj hx rfl hf hl hg]
      · rw [exec_descFetch, State.receive_here hw ha hd, State.fetchHere_unfetched hj hx rfl hf]
      · rw [exec_descFetch, State.receive_here hw ha hd, State.fetchHere_unranged hj hx rfl hf hl]
      · refine ⟨_, ?_, r.flagWaits_leaves { h with address := a }⟩
        rw [exec_flag_context hj ha hd hw, State.jobRequest_admitted ha hd hj hw hx]
        simp only [State.flagOf, show s.readDescs x [h.address % 2 ^ 16] = r from rfl, hf]
      · rw [exec_flag_context hj ha hd hw, State.jobRequest_admitted ha hd hj hw hx]
        simp only [State.flagOf, show s.readDescs x [h.address % 2 ^ 16] = r from rfl, hf]
    case atomic =>
      rw [exec_fabricAtomic_receives, State.receive_here hw ha hd]
      refine ⟨fun h8 => by rw [State.atomicHere_unaligned hj hx h8], fun l h8 hl => ⟨fun hb => ?_, fun hb => ?_⟩,
        fun c h8 hl => by rw [State.atomicHere_error hj hx h8 hl]⟩
      · rw [State.atomicHere_ok hj hx h8 hl, hb]
        rfl
      · rw [State.atomicHere_ok hj hx h8 hl, hb]
        rfl
    case token =>
      rw [exec_token, State.jobRequest_admitted ha hd hj hw hx]
      exact ⟨fun ht => congrArg _ (if_pos ht), fun ht => congrArg _ (if_neg (Bool.eq_false_iff.mp ht))⟩
  case rejected =>
    refine ⟨fun hw => ?_, fun hw => ?_, fun hw => ?_, fun hw => ?_, fun hw => ?_, fun hw => ?_⟩
    · rw [exec_lineStore, execLineStore, State.receive_here hw ha hd, State.storeHere_rejected hj hx]
    · rw [exec_lineLoad, execLineLoad, State.receive_here hw ha hd, State.loadHere_rejected hj hx]
    · rw [exec_descFetch, State.receive_here hw ha hd, State.fetchHere_rejected hj hx]
    · rw [exec_fabricAtomic_receives, State.receive_here hw ha hd, State.atomicHere_rejected hj hx]
    · rw [exec_flag_context hj ha hd hw, State.jobRequest_rejected ha hd hj hw hx]
    · rw [exec_token, State.jobRequest_rejected ha hd hj hw hx]
  case applied =>
    rw [exec_flagApplied_waiting hw]
    exact ⟨fun hf => by simp only [if_pos hf], fun hf hj => by simp only [hf, hj, ne_eq, not_true_eq_false, Bool.false_eq_true, if_false],
      fun hf hj => by simp only [hf, hj, ne_eq, not_true_eq_false, if_false, if_true]⟩

end Sys2Proof.Machine
end

section
/-! PROOFS. Pairing: asked for, refused, made and ended (R420 to R424, R438). -/

namespace Sys2Proof.Machine

open Sys2Proof

/-! ### A request sent -/

/-- A request but for how it leaves: what is asked of whom. -/
def Req.asked (r : Req) : Req := { r with waiting := false, vc := 0, via := none }

/-- What is asked by the request of an id. -/
def State.asked (s : State) (i : Nat) : Option Req := (look s.fab.reqs i).map Req.asked

section
variable (s : State) (l : Link)

theorem State.formFlits_reqs (n : Nat) : (s.formFlits l n).fab.reqs = s.fab.reqs := rfl

theorem State.useCredit_reqs (ch : Option Nat) : (s.useCredit l ch).fab.reqs = s.fab.reqs := by cases ch <;> rfl

/-- A packet that leaves is no request of this device. -/
theorem State.goOut_reqs (p : OutPkt) : (s.goOut l p).fab.reqs = s.fab.reqs := by
  cases p with
  | notice k => rw [State.goOut_notice]; rfl
  | resp d vc n =>
    rw [State.goOut_resp, State.formFlits_reqs, State.useCredit_reqs]
    rfl
  | fwd h n =>
    cases l with
    | scaleOut q =>
      rw [State.goOut_fwd, State.formFlits_reqs, State.useCredit_reqs]
      rfl
    | burob q => rfl
    | tray q => rfl

theorem State.flush_reqs (n : Nat) : (s.flush n l).fab.reqs = s.fab.reqs := by
  induction n generalizing s with
  | zero => rfl
  | succ n ih =>
    unfold State.flush
    split
    · rfl
    · exact (ih _).trans (s.goOut_reqs l _)

theorem State.sendOff_reqs (i : Nat) (r : Req) : (s.sendOff l i r).fab.reqs =
    upd s.fab.reqs i fun q => { q with waiting := false, vc := s.firstChannel l r.dst, via := some l } := by
  unfold State.sendOff
  dsimp only
  split <;> rfl

/-- A request that leaves asks what it asked. -/
theorem State.asked_sendOff (i : Nat) (r : Req) (j : Nat) : (s.sendOff l i r).asked j = s.asked j := by
  rw [State.asked, State.sendOff_reqs, look_upd, Option.map_map, State.asked]
  congr 1
  funext q
  dsimp only [Function.comp_apply]
  split <;> rfl

theorem State.asked_pump (n : Nat) (j : Nat) : (State.pump n s l).asked j = s.asked j := by
  induction n generalizing s with
  | zero => rfl
  | succ n ih =>
    unfold State.pump
    dsimp only
    split
    · rfl
    · split
      · rfl
      · exact (ih _).trans (State.asked_sendOff ..)

theorem State.asked_pumpLink (j : Nat) : (s.pumpLink l).asked j = s.asked j := by
  unfold State.pumpLink
  dsimp only
  rw [State.asked_pump, State.asked, State.flush_reqs, State.asked]

/-- A request sent stands under the next id, whether or not it has left. -/
theorem State.asked_send (r : Req) : (s.send r).asked s.fab.nextReq = some r.asked := by
  have hput : look (put s.fab.reqs s.fab.nextReq { r with waiting := true }) s.fab.nextReq = some { r with waiting := true } := look_put_self ..
  unfold State.send
  dsimp only
  split
  · rw [State.asked_pumpLink, State.asked]
    dsimp only
    rw [hput]
    rfl
  · rw [State.asked]
    dsimp only
    rw [hput]
    rfl

end

/-! ### PAIR_GO -/

/-- The request that a device stores at the peer it names: its grade, node, feed and pool (R422; its bytes' places are log 30). -/
def State.pairRequest (s : State) (k : Nat) : Req :=
  ⟨s.pins.strapTray * 8 + k, .store, none, 0, none, 0, 0, leBytes 1 (b2n (s.ident.grade == .tray)) ++ leBytes 2 s.node ++
    leBytes 1 s.pins.strapFeed ++ leBytes 4 s.poolPages, 0, false, 0, none⟩

/-- A device that pairs with the peer in a slot has sent its request. -/
def State.pairing (s : State) (k : Nat) : State := (s.modSurv fun v => { v with pair := .pairing, partner := k }).send (s.pairRequest k)

theorem State.pairing_same (s : State) (k : Nat) (a : Area) (h : a ∉ [Area.regs, .fab, .surv]) : a.same s (s.pairing k) :=
  Area.same_of_keeps (fun _ w => State.send_keeps (w.sub rfl) (State.modSurv_keeps (w.sub rfl) (Keeps.refl s))) a h

theorem State.pairing_surv (s : State) (k : Nat) : (s.pairing k).surv = { s.surv with pair := .pairing, partner := k } := by
  have h (t : State) (r : Req) : (t.send r).surv = t.surv :=
    Area.same_of_keeps (fun _ w => State.send_keeps w (Keeps.refl t)) .surv (by decide)
  rw [State.pairing, h]
  rfl

/-- The request stands among those of the device (log 16, log 30). -/
theorem State.pairing_asks (s : State) (k : Nat) : ∃ q, look (s.pairing k).fab.reqs s.fab.nextReq = some q ∧
    q.dst = s.pins.strapTray * 8 + k ∧ q.kind = .store ∧ q.data = (s.pairRequest k).data := by
  have h := State.asked_send (s.modSurv fun v => { v with pair := .pairing, partner := k }) (s.pairRequest k)
  obtain ⟨q, hq, hasked⟩ := Option.map_eq_some_iff.mp h
  have hfield {β : Type} (p : Req → β) := congrArg p hasked
  exact ⟨q, hq, hfield Req.dst, hfield Req.kind, hfield Req.data⟩

section
variable {s : State}

theorem exec_pairGo_free (h1 : s.surv.pair ≠ .pairing) (h2 : s.surv.pair ≠ .paired) : exec .pairGo s = .next (
    let k := fld (s.reg (offTf 0x8000)) 0 3
    if s.peerState k ≠ 1 then s.pairRefused 0x7021
    else match look (s.pairing k).surv.requests k with
      | some r => if r.names = s.pins.strapSlot then (s.pairing k).tryPair r else s.pairing k
      | none => s.pairing k) :=
  congrArg Host.Outcome.next (if_neg (by simp [h1, h2]))

theorem exec_pairRequestReceived_up {src : Nat} (r : PairReq) (ht : src / 8 = s.pins.strapTray) (hp : s.peerState (src % 8) = 1) :
    exec (.pairRequestReceived src r) s = .next (
      if s.surv.pair = .pairing ∧ s.surv.partner = src % 8 ∧ r.names = s.pins.strapSlot then s.tryPair { r with node := src }
      else s.modSurv fun v => { v with requests := put v.requests (src % 8) { r with node := src } }) :=
  congrArg Host.Outcome.next (if_neg (by simp [ht, hp]))

/-! ### The pairing tried -/

/-- The pools that a pairing asks for (R422). -/
def State.poolsFit (s : State) (r : PairReq) : Prop := 64 ≤ s.poolPages ∧ 64 ≤ r.poolPages ∧ s.poolOverlaps = false ∧ r.poolOk = true

/-- A pairing made, before the twins of its protected jobs are reserved. -/
def State.madePair (s : State) (r : PairReq) : State :=
  let ctl := s.reg (offTf 0x8000)
  let weak := r.feed == s.pins.strapFeed
  let s1 := s.modSurv fun v => { v with pair := .paired, weak := weak, partner := fld ctl 0 3, partnerFeed := r.feed,
                                        requests := del v.requests (r.node % 8) }
  if weak then s1.raise 0x7811 (leBytes 1 (fld ctl 0 3) ++ leBytes 1 r.feed) else s1

section
variable {r : PairReq}

theorem State.tryPair_unfit (h : s.poolPages < 64 ∨ r.poolPages < 64 ∨ s.poolOverlaps = true ∨ r.poolOk = false) :
    s.tryPair r = s.pairRefused 0x7022 := by
  refine if_pos ?_
  rcases h with h | h | h | h
  · exact .inl h
  · exact .inr (.inl h)
  · exact .inr (.inr (.inl h))
  · exact .inr (.inr (.inr (.inl (by rw [h]; rfl))))

theorem State.madePair_prots : (s.madePair r).surv.prots = s.surv.prots := by
  unfold State.madePair
  dsimp only
  split <;> rfl

/-- With pools that fit and no protected job, the pairing is refused or made by the feeds and the force bits alone. -/
theorem State.tryPair_fit (hp : s.surv.prots = []) (h : s.poolsFit r) : s.tryPair r =
    if r.feed = s.pins.strapFeed ∧ (bit (s.reg (offTf 0x8000)) 3 && r.force) = false then s.pairRefused 0x7020 else s.madePair r := by
  obtain ⟨hmine, hpeer, hover, hok⟩ := h
  have hfit : ¬(s.poolPages < 64 ∨ r.poolPages < 64 ∨ s.poolOverlaps = true ∨ (!r.poolOk) = true ∨
      r.poolPages < (s.surv.prots.map fun e => if e.2.state = .off then 0 else s.partnerShare e.2).sum + 1) := by
    simp [hover, hok, hp]
    omega
  have hprots := (State.madePair_prots (r := r)).trans hp
  refine (if_neg hfit).trans (if_congr (and_congr_right fun _ => Bool.not_eq_eq_eq_not) rfl ?_)
  show (s.madePair r).surv.prots.foldl _ (s.madePair r) = s.madePair r
  rw [hprots]
  rfl

end

theorem exec_unpair_ends (h : s.surv.pair = .paired ∨ s.surv.pair = .partnerLost) : exec .unpair s = .next (
    let s1 := s.modSurv fun v => { v with pair := .unpaired, weak := false, twins := v.twins.filter fun t => t.promoted,
                                          poolFree := v.poolFree + ((s.surv.twins.filter fun t => !t.promoted).map fun t => t.reserved).sum }
    if s.surv.pair == .paired then s1.lapseAll else s1) := congrArg Host.Outcome.next (if_pos h)

end

/-- Settles O34: PAIR_GO by the peer it names and the request it holds, and a pairing by the pools and the feeds (`State.tryPair_fit`). -/
theorem pairingRuns : Obligations.PairingRuns := by
  intro s src r
  refine ⟨fun h1 h2 => ⟨fun hp => ?down, fun r' hp hr hn => ?held, fun hp hr => ?asks⟩, fun ht hp => ⟨fun hn => ?kept, fun hpair hpart hn => ?tried⟩,
    fun h => ?timeout, fun h => ?lost, fun h => ?ends, ⟨_, rfl, rfl, rfl, rfl, rfl⟩,
    fun hp => ⟨fun h => ?unfit, fun hmine hpeer hover hok => ⟨fun hf hforce => ?feeds, fun hf => ?pairs, fun hf hforce => ?weak⟩⟩⟩
  case down => exact (exec_pairGo_free h1 h2).trans (congrArg _ (if_pos hp))
  case held =>
    have hsurv := s.pairing_surv (fld (s.reg (offTf 0x8000)) 0 3)
    refine ⟨s.pairing (fld (s.reg (offTf 0x8000)) 0 3), ?_, by rw [hsurv], by rw [hsurv], by rw [hsurv]⟩
    rw [exec_pairGo_free h1 h2]
    dsimp only
    rw [if_neg (not_not.mpr hp), hsurv]
    dsimp only
    rw [hr]
    exact congrArg _ (if_pos hn)
  case asks =>
    have hsurv := s.pairing_surv (fld (s.reg (offTf 0x8000)) 0 3)
    obtain ⟨q, hq, hdst, hkind, hdata⟩ := s.pairing_asks (fld (s.reg (offTf 0x8000)) 0 3)
    refine ⟨s.pairing (fld (s.reg (offTf 0x8000)) 0 3), q, ?_, by rw [hsurv], by rw [hsurv], hq, hdst, hkind, hdata, by rw [hsurv],
      s.pairing_same _ .objs (by decide), s.pairing_same _ .mem (by decide)⟩
    rw [exec_pairGo_free h1 h2]
    dsimp only
    rw [if_neg (not_not.mpr hp), hsurv]
    dsimp only
    rw [hr]
  case kept => exact (exec_pairRequestReceived_up r ht hp).trans (congrArg _ (if_neg fun h => hn h.1))
  case tried => exact (exec_pairRequestReceived_up r ht hp).trans (congrArg _ (if_pos ⟨hpair, hpart, hn⟩))
  case timeout => exact ⟨_, congrArg Host.Outcome.next (if_pos h), rfl, rfl, rfl, rfl, rfl, rfl⟩
  case lost =>
    have hlost : ¬(s.surv.pair == .paired) = true := by rw [h]; decide
    exact ⟨_, (exec_unpair_ends (.inr h)).trans (congrArg _ (if_neg hlost)), rfl, rfl, rfl, rfl, rfl, rfl⟩
  case ends => exact (exec_unpair_ends (.inl h)).trans (congrArg _ (if_pos (beq_iff_eq.mpr h)))
  case unfit =>
    rw [State.tryPair_unfit h]
    exact ⟨rfl, rfl, rfl⟩
  case feeds =>
    rw [State.tryPair_fit hp ⟨hmine, hpeer, hover, hok⟩, if_pos ⟨hf, hforce⟩]
    exact ⟨rfl, rfl⟩
  case pairs =>
    have hweak : (r.feed == s.pins.strapFeed) = false := beq_eq_false_iff_ne.mpr hf
    rw [State.tryPair_fit hp ⟨hmine, hpeer, hover, hok⟩, if_neg fun h => hf h.1, State.madePair, hweak]
    exact ⟨rfl, rfl, rfl, rfl, rfl⟩
  case weak =>
    have hweak : (r.feed == s.pins.strapFeed) = true := beq_iff_eq.mpr hf
    rw [State.tryPair_fit hp ⟨hmine, hpeer, hover, hok⟩, if_neg fun h => ne_true_of_eq_false h.2 hforce, State.madePair, hweak]
    exact ⟨rfl, rfl, rfl⟩

end Sys2Proof.Machine
end

section
/-! PROOFS. First touches (R441, R445): a page that waits for a version page and is touched again. -/

namespace Sys2Proof.Machine

open Sys2Proof

/-- What a first touch leaves of a protection before its copy has a place: the page is no longer frozen, the settled seal has the version. -/
def Prot.touched (p : Prot) (page vid : Nat) (bytes : List Byte) : Prot :=
  { p with frozen := drop1 p.frozen page, settled := p.settled.map (addVersion page vid bytes), cowWaits := p.cowWaits.filter fun g => g != page }

/-- The page that a first touch reads, its version numbered. -/
def State.copyRead (s : State) (page size : Nat) : State :=
  { s with surv := { s.surv with nextVersion := s.surv.nextVersion + 1 } }.pageMoved page size false

section
variable {s : State} {a j page size : Nat} {p : Prot}

theorem State.touchProt_frozen (hp : s.protPage p true true a = some (page, size)) (hf : page ∈ p.frozen) : s.touchProt a j p =
    let bytes := cellGets s.mem page (pageBytes size)
    let p0 := p.touched page s.surv.nextVersion bytes
    let p1 := { p0 with openSeal := if p.opening then p.openSeal else p.openSeal.map (addVersion page s.surv.nextVersion bytes) }
    if versionPages p1 ≤ s.versionRoom p then ((s.copyRead page size).setProt j p1).bump (offTf 0x8040) 1
    else
      let s1 := ((s.copyRead page size).setProt j p0).voidOpen j p0
      let p2 := (look s1.surv.prots j).getD p0
      if p2.settled.isSome ∧ s.versionRoom p < versionPages p2 then s1.setProt j { p2 with cowWaits := p.cowWaits ++ [page] }
      else s1.bump (offTf 0x8040) 1 := by
  rw [State.touchProt, hp]
  exact if_pos hf

/-- A first touch that only the settled seal needs and that finds no version page: the page waits behind those that wait (R445). -/
theorem State.touchProt_waits {p0 : Prot} (hp : s.protPage p true true a = some (page, size)) (hf : page ∈ p.frozen) (ho : p.openSeal = none)
    (hs : p.settled ≠ none) (h0 : p.touched page s.surv.nextVersion (cellGets s.mem page (pageBytes size)) = p0)
    (hroom : s.versionRoom p < versionPages p0) :
    s.touchProt a j p = ((s.copyRead page size).setProt j p0).setProt j { p0 with cowWaits := p.cowWaits ++ [page] } := by
  have hopen : p0.openSeal = none := by rw [← h0]; exact ho
  have hsettled : p0.settled.isSome = true := by
    rw [← h0]
    exact (Option.isSome_map ..).trans (Option.isSome_iff_ne_none.mpr hs)
  have hvoid (t : State) : t.voidOpen j p0 = t := by rw [State.voidOpen, hopen]
  have hsame : { p0 with openSeal := none } = p0 := by rw [← hopen]
  have hlook : look ((s.copyRead page size).setProt j p0).surv.prots j = some p0 := look_put_self ..
  rw [State.touchProt_frozen hp hf]
  dsimp only
  rw [h0, ho, Option.map_none, ite_self, hsame, if_neg (Nat.not_le.mpr hroom), hvoid, hlook, Option.getD_some, if_pos ⟨hsettled, hroom⟩]

end

/-- The contents of a version larger than two version pages. -/
def largeVersion : List Byte := List.replicate 0x40_0001 0

theorem length_largeVersion : largeVersion.length = 0x40_0001 := List.length_replicate

/-- One page of 64 KiB, more version pages than its reserve of two, and the page among those that wait. -/
def waitedProt : Prot :=
  { job := 9, entries := [⟨1, 0, 0, 0, 1⟩], state := .guarded, journal := [], mirrors := [], stepOpen := false, markerSent := false,
    settled := some ⟨1, false, ⟨0, 0, 0, 0, [], []⟩, [(0x1_0000, 0, largeVersion)], true, false, 0, [], []⟩,
    openSeal := none, stage := .none, closing := none, lastGen := 1, frozen := [0x1_0000], sealReq := false, sealVoid := false,
    cowWaits := [0x1_0000], reserved := 0, fromPartner := false, fetched := [], lastCode := 0, share := 0, twinBase := 0, twinHas := false,
    needsRestore := false, stopped := false }

/-- The page is that of object 1. -/
def touchedAgain : State :=
  { State.reset with
    objs := { State.reset.objs with mems := [(1, ⟨1, 0, 1, [0x1_0000], .live, []⟩)] },
    surv := { State.reset.surv with prots := [(5, waitedProt)] } }

theorem versionRoom_touchedAgain : touchedAgain.versionRoom waitedProt = 2 := by decide

theorem protPage_touchedAgain : touchedAgain.protPage waitedProt true true 0x1_0000 = some (0x1_0000, 1) := by decide

/-- The settled seal has the page's version already, so the touch adds none. -/
theorem versionPages_waitedProt (vid : Nat) (bytes : List Byte) : versionPages (waitedProt.touched 0x1_0000 vid bytes) = 3 := by
  have hsettled : (waitedProt.touched 0x1_0000 vid bytes).settled = waitedProt.settled := rfl
  have hopen : (waitedProt.touched 0x1_0000 vid bytes).openSeal = none := rfl
  have hversions : waitedProt.settled.map (·.versions) = some [(0x1_0000, 0, largeVersion)] := rfl
  obtain ⟨x, hx, hv⟩ := Option.map_eq_some_iff.mp hversions
  rw [versionPages, hsettled, hopen, hx]
  simp [hv, length_largeVersion]

/-- Refutes O35: its last clause has the page wait once, whatever waited. In `touchedAgain` the page already waits, and the second touch that
finds no version page puts it behind itself: it waits twice. -/
theorem not_writesWaitForVersionPages : ¬ Obligations.WritesWaitForVersionPages := by
  rintro ⟨-, -, h⟩
  obtain ⟨-, hfrozen⟩ := h touchedAgain 0x1_0000 5 0x1_0000 1 waitedProt protPage_touchedAgain
  have hf : 0x1_0000 ∈ waitedProt.frozen := by decide
  obtain ⟨-, hwaits⟩ := hfrozen hf
  have hroom : touchedAgain.versionRoom waitedProt <
      versionPages (waitedProt.touched 0x1_0000 touchedAgain.surv.nextVersion (cellGets touchedAgain.mem 0x1_0000 (pageBytes 1))) := by
    rw [versionRoom_touchedAgain, versionPages_waitedProt]
    decide
  have hsettled : waitedProt.settled ≠ none := Option.some_ne_none _
  obtain ⟨hlook, -⟩ := hwaits hroom rfl hsettled
  have htouch := State.touchProt_waits (j := 5) protPage_touchedAgain hf rfl hsettled rfl hroom
  have htwice : (look (touchedAgain.touchProt 0x1_0000 5 waitedProt).surv.prots 5).map (·.cowWaits) = some [0x1_0000, 0x1_0000] := by
    rw [htouch]
    exact congrArg (Option.map fun q : Prot => q.cowWaits) (look_put_self ..)
  rw [hlook] at htwice
  have honce : some [0x1_0000] = some [0x1_0000, 0x1_0000] := htwice
  exact absurd honce (by decide)

end Sys2Proof.Machine
end

section
/-! PROOFS. Protection of a job's pages: begun and ended, its mirror stores, its closes and its seal's record (R426 to R443, R451). -/

namespace Sys2Proof.Machine

open Sys2Proof

/-! ### The seal record -/

theorem length_beBytes (n v : Nat) : (beBytes n v).length = n := by
  rw [beBytes, List.length_reverse, length_leBytes]

theorem length_sha384 (m : List Byte) : (sha384 m).length = 48 := by
  simp [sha384, length_beBytes]

/-- A run of bytes of a list, where the list is given by its parts. -/
theorem sliceBytes_append {a b c : List Byte} {o n : Nat} (ha : a.length = o) (hb : b.length = n) : sliceBytes (a ++ (b ++ c)) o n = b := by
  subst ha hb
  simp [sliceBytes]

/-- The record's bytes before its protection table's digest (R451). -/
def State.sealHead (s : State) (p : Prot) (x : Seal) (n : Nat) : List Byte :=
  leBytes 4 0x4C41_4553 ++ leBytes 2 1 ++ leBytes 2 (b2n s.surv.weak + 2 * b2n x.baseline) ++ leBytes 4 x.generation ++
    leBytes 2 p.job ++ leBytes 2 0 ++ leBytes 2 s.node ++ leBytes 2 (s.pins.strapTray * 8 + s.surv.partner) ++ leBytes 1 s.pins.strapFeed ++
    leBytes 1 s.surv.partnerFeed ++ leBytes 2 0 ++ leBytes 8 x.sched.step ++ leBytes 8 x.sched.attempt ++ leBytes 4 x.hours ++
    leBytes 4 s.recd.powerCycles ++ leBytes 4 p.entries.length ++ leBytes 4 n ++ leBytes 4 (x.sched.bytes p.job).length ++ leBytes 4 0

section
variable (s : State) (p : Prot) (x : Seal) (ds : List (List Byte))

theorem State.length_sealHead (n : Nat) : (s.sealHead p x n).length = 0x40 := by
  simp [State.sealHead, length_leBytes]

theorem State.length_tableDigest : (s.tableDigest p).length = 48 := length_sha384 _

/-- The record up to its own digest. -/
def State.sealBody : List Byte := s.sealHead p x ds.length ++ s.tableDigest p ++ sha384 ds.flatten ++ sha384 (x.sched.bytes p.job)

theorem State.length_sealBody : (s.sealBody p x ds).length = 0xD0 := by
  simp [State.sealBody, State.length_sealHead, State.length_tableDigest, length_sha384]

theorem State.sealRecord_eq : s.sealRecord p x ds = s.sealBody p x ds ++ sha384 (s.sealBody p x ds) := rfl

theorem State.length_sealRecord : (s.sealRecord p x ds).length = 0x100 := by
  rw [State.sealRecord_eq, List.length_append, State.length_sealBody, length_sha384]

/-- A record that the device builds passes the checks of R451 against the same protection table. -/
theorem State.recordFault_sealRecord : s.recordFault p (s.sealRecord p x ds) = none := by
  have hnonempty : ¬(s.sealRecord p x ds).isEmpty = true := by
    have hlen := s.length_sealRecord p x ds
    intro h
    rw [List.isEmpty_iff.mp h] at hlen
    exact absurd hlen (by decide)
  have hbody : (s.sealRecord p x ds).take 0xD0 = s.sealBody p x ds := by
    rw [State.sealRecord_eq, List.take_left' (s.length_sealBody p x ds)]
  have hown : sliceBytes (s.sealRecord p x ds) 0xD0 48 = sha384 (s.sealBody p x ds) := by
    have h := sliceBytes_append (c := []) (s.length_sealBody p x ds) (length_sha384 (s.sealBody p x ds))
    rwa [List.append_nil] at h
  have htable : sliceBytes (s.sealRecord p x ds) 0x40 48 = s.tableDigest p := by
    rw [State.sealRecord_eq, State.sealBody, List.append_assoc, List.append_assoc, List.append_assoc,
      sliceBytes_append (s.length_sealHead p x ds.length) (s.length_tableDigest p)]
  rw [State.recordFault, if_neg hnonempty, hbody, hown, if_neg (not_not.mpr rfl), htable, if_neg (not_not.mpr rfl)]

end

/-! ### Requests dropped and sent -/

/-- What the device asks of others is of some kinds alone. -/
def State.Asks (s : State) (P : ReqKind → Prop) : Prop := ∀ r ∈ s.fab.reqs, P r.2.kind

section
variable {s : State} {P : ReqKind → Prop} (h : s.Asks P)
include h

theorem State.Asks.of_reqs {t : State} (e : t.fab.reqs = s.fab.reqs) : t.Asks P := fun r hr => h r (e ▸ hr)

theorem State.Asks.sendOff (l : Link) (i : Nat) (r : Req) : (s.sendOff l i r).Asks P := by
  intro q hq
  rw [State.sendOff_reqs] at hq
  obtain ⟨w, hw, he⟩ := mem_upd hq
  rw [he]
  split
  · exact h _ hw
  · exact h _ hw

theorem State.Asks.pump (n : Nat) (l : Link) : (State.pump n s l).Asks P := by
  induction n generalizing s with
  | zero => exact h
  | succ n ih =>
    unfold State.pump
    dsimp only
    split
    · exact h
    · split
      · exact h
      · refine ih (State.Asks.sendOff ?_ _ _ _)
        exact h

theorem State.Asks.pumpLink (l : Link) : (s.pumpLink l).Asks P := by
  refine State.Asks.pump ?_ _ _
  exact h.of_reqs (State.flush_reqs ..)

theorem State.Asks.pumpAll : s.pumpAll.Asks P := by
  unfold State.pumpAll
  split
  · exact List.foldlRecOn (motive := fun t : State => t.Asks P) fabricLinks _ h fun _ ht l _ => ht.pumpLink l
  · exact h

theorem State.Asks.send {r : Req} (hr : P r.kind) : (s.send r).Asks P := by
  have hput : State.Asks { s with fab := { s.fab with reqs := put s.fab.reqs s.fab.nextReq { r with waiting := true }, nextReq := s.fab.nextReq + 1 } } P := by
    intro q hq
    rcases mem_put hq with hq | rfl
    · exact h q hq
    · exact hr
  unfold State.send
  dsimp only
  split
  · exact hput.pumpLink _
  · exact hput

/-- A message to the partner is two requests of its entry. -/
theorem State.Asks.tell {e job : Nat} {k : ReqKind} {msg : List Byte} (hk : P k) (ht : P (.twin e false)) : (s.tell e job k msg).Asks P := by
  unfold State.tell
  split
  · exact h
  · refine State.Asks.send (State.Asks.send ?_ ht) hk
    exact h

end

/-- The survival state but for the minute's events and the messages sent. -/
def Surv.kept (v : Surv) : Surv := { v with minuteEvents := [], mails := 0 }

section
variable (s : State)

theorem State.send_surv (r : Req) : (s.send r).surv = s.surv :=
  Area.same_of_keeps (fun _ w => State.send_keeps w (Keeps.refl s)) .surv (by decide)

theorem State.pumpAll_surv : s.pumpAll.surv = s.surv :=
  Area.same_of_keeps (fun _ w => State.pumpAll_keeps w (Keeps.refl s)) .surv (by decide)

theorem State.kept_tell (e job : Nat) (k : ReqKind) (msg : List Byte) : (s.tell e job k msg).surv.kept = s.surv.kept := by
  unfold State.tell
  dsimp only
  split
  · rfl
  · rw [State.send_surv, State.send_surv]
    rfl

/-- A route moved changes its register and records it. -/
theorem State.updateRoute_leaves (y : Nat) : (s.updateRoute y).surv.kept = s.surv.kept ∧ (s.updateRoute y).fab = s.fab := by
  unfold State.updateRoute
  dsimp only
  split <;> exact ⟨rfl, rfl⟩

/-- The routes of some trays moved where no request is left for them. -/
def State.routesMoved (trays : List Nat) : State :=
  trays.foldl (fun (t : State) y => if t.fab.reqs.any fun e => e.2.dst / 8 == y then t else (t.adopt (offRoute y) 0 8).updateRoute y) s

theorem State.routesMoved_leaves (trays : List Nat) : (s.routesMoved trays).surv.kept = s.surv.kept ∧ (s.routesMoved trays).fab = s.fab :=
  List.foldlRecOn (motive := fun t : State => t.surv.kept = s.surv.kept ∧ t.fab = s.fab) trays _ ⟨rfl, rfl⟩ fun t ht y _ => by
    split
    · exact ht
    · obtain ⟨h1, h2⟩ := (t.adopt (offRoute y) 0 8).updateRoute_leaves y
      have ha : (t.adopt (offRoute y) 0 8).surv = t.surv ∧ (t.adopt (offRoute y) 0 8).fab = t.fab := by
        rw [State.adopt_eq]
        exact ⟨rfl, rfl⟩
      exact ⟨(h1.trans (congrArg Surv.kept ha.1)).trans ht.1, h2.trans (ha.2.trans ht.2)⟩

/-- The requests that a test does not name. -/
def State.dropped (sel : Req → Bool) : State := { s with fab := { s.fab with reqs := s.fab.reqs.filter fun e => !(sel e.2) } }

theorem State.dropReqs_eq (sel : Req → Bool) : s.dropReqs sel =
    ((s.dropped sel).routesMoved ((s.fab.reqs.filter fun e => sel e.2).foldl (fun l e => addNew l (e.2.dst / 8)) [])).pumpAll := rfl

theorem State.kept_dropReqs (sel : Req → Bool) : (s.dropReqs sel).surv.kept = s.surv.kept := by
  rw [State.dropReqs_eq, State.pumpAll_surv, (State.routesMoved_leaves ..).1]
  rfl

/-- Of the requests that a test names none is left. -/
theorem State.asks_dropReqs {sel : Req → Bool} {P : ReqKind → Prop} (h : ∀ r ∈ s.fab.reqs, sel r.2 = false → P r.2.kind) :
    (s.dropReqs sel).Asks P := by
  rw [State.dropReqs_eq]
  refine State.Asks.pumpAll fun r hr => ?_
  rw [(State.routesMoved_leaves ..).2] at hr
  obtain ⟨hmem, hsel⟩ := List.mem_filter.mp hr
  exact h r hmem (by simpa using hsel)

end

/-! ### PROTECT_DISABLE -/

section
variable {s : State} {e : Nat} {p : Prot}

/-- The protection off, and its share of the pool given back (R437). -/
def State.protectionOff (s : State) (e : Nat) (p : Prot) : State :=
  { s with surv := { s.surv with prots := put s.surv.prots e (protOff p.job 0), poolFree := s.surv.poolFree + p.reserved } }

/-- The protection off, its requests dropped and the partner told to discard its twin. -/
def State.unprotected (s : State) (e : Nat) (p : Prot) : State :=
  (((s.releaseHeld e).dropReqs fun r => r.kind.ofJob e).protectionOff e p).note e p.job .discard 0 0 []

theorem exec_protectDisable_settled (hp : s.prot e = some p) (hc : p.closing = none) :
    exec (.protectDisable e) s = .next (s.unprotected e p).releaseWrites := by
  show execProtectDisable e s = _
  simp only [execProtectDisable, hp, hc]
  rfl

theorem State.protectionOff_keeps {F : Area → Bool} {s0 : State} (w : Free F [.surv]) (h : Keeps F s0 s) : Keeps F s0 (s.protectionOff e p) :=
  State.modSurv_keeps w h (f := fun v => { v with prots := put v.prots e (protOff p.job 0), poolFree := v.poolFree + p.reserved })

theorem State.unprotected_keeps {F : Area → Bool} (w : Free F [.regs, .fab, .uu, .surv, .recd]) : Keeps F s (s.unprotected e p) := by
  have hheld : Keeps F s (s.releaseHeld e) := State.releaseHeld_keeps (w.sub rfl) (Keeps.refl s)
  have hdrop := State.dropReqs_keeps (sel := fun r => r.kind.ofJob e) (w.sub rfl) hheld
  exact State.note_keeps (w.sub rfl) (State.protectionOff_keeps (w.sub rfl) hdrop)

theorem State.unprotected_same (a : Area) (h : a ∉ [Area.regs, .fab, .uu, .surv, .recd]) : a.same s (s.unprotected e p) :=
  Area.same_of_keeps (fun _ w => State.unprotected_keeps w) a h

theorem State.releaseHeld_leaves (s : State) (e : Nat) : (s.releaseHeld e).surv.poolFree = s.surv.poolFree ∧
    (s.releaseHeld e).surv.heldWrites = s.surv.heldWrites ∧ (s.releaseHeld e).fab = s.fab := ⟨rfl, rfl, rfl⟩

theorem State.kept_note (s : State) (e job : Nat) (m : Mail) (a n : Nat) (data : List Byte) :
    (s.note e job m a n data).surv.kept = s.surv.kept := s.kept_tell e job _ _

theorem State.Asks.note {P : ReqKind → Prop} (h : s.Asks P) {e job : Nat} {m : Mail} {a n : Nat} {data : List Byte}
    (hk : ∀ final, P (.twin e final)) : (s.note e job m a n data).Asks P := h.tell (hk true) (hk false)

theorem State.unprotected_leaves (s : State) (e : Nat) (p : Prot) : look (s.unprotected e p).surv.prots e = some (protOff p.job 0) ∧
    (s.unprotected e p).surv.poolFree = s.surv.poolFree + p.reserved ∧ (s.unprotected e p).surv.heldWrites = s.surv.heldWrites ∧
    (s.unprotected e p).Asks fun k => ∀ ln, k ≠ .mirror e ln := by
  have hdrop := (s.releaseHeld e).kept_dropReqs fun r => r.kind.ofJob e
  have hasks : ((s.releaseHeld e).dropReqs fun r => r.kind.ofJob e).Asks fun k => ∀ ln, k ≠ .mirror e ln :=
    State.asks_dropReqs _ fun r _ hsel ln hk => by
      rw [hk] at hsel
      exact absurd hsel (by simp [ReqKind.ofJob])
  obtain ⟨hfree0, hheld0, -⟩ := s.releaseHeld_leaves e
  unfold State.unprotected
  generalize ((s.releaseHeld e).dropReqs fun r => r.kind.ofJob e) = u at *
  have hpool : u.surv.poolFree = s.surv.poolFree := (congrArg (fun v : Surv => v.poolFree) hdrop).trans hfree0
  have hheld : u.surv.heldWrites = s.surv.heldWrites := (congrArg (fun v : Surv => v.heldWrites) hdrop).trans hheld0
  have hoff : (u.protectionOff e p).Asks fun k => ∀ ln, k ≠ .mirror e ln := hasks
  have hprots : look (u.protectionOff e p).surv.prots e = some (protOff p.job 0) := look_put_self ..
  have hfree : (u.protectionOff e p).surv.poolFree = u.surv.poolFree + p.reserved := rfl
  have hwrites : (u.protectionOff e p).surv.heldWrites = u.surv.heldWrites := rfl
  generalize u.protectionOff e p = t at *
  have hnote := t.kept_note e p.job .discard 0 0 []
  have hnoted {β : Type} (f : Surv → β) := congrArg f hnote
  have hsent := hoff.note (e := e) (job := p.job) (m := .discard) (a := 0) (n := 0) (data := []) fun _ _ => by simp
  generalize t.note e p.job .discard 0 0 [] = w at *
  have hp : w.surv.prots = t.surv.prots := hnoted fun v => v.prots
  have hf : w.surv.poolFree = t.surv.poolFree := hnoted fun v => v.poolFree
  have hw : w.surv.heldWrites = t.surv.heldWrites := hnoted fun v => v.heldWrites
  refine ⟨?_, ?_, ?_, hsent⟩
  · rw [hp, hprots]
  · rw [hf, hfree, hpool]
  · rw [hw, hwrites, hheld]

theorem State.releaseWrites_none (h : s.surv.heldWrites = []) : s.releaseWrites = s := by
  have hsame : { s with surv := { s.surv with heldWrites := [] } } = s := by rw [← h]
  rw [State.releaseWrites, h]
  exact hsame

/-! ### PROTECT_ENABLE -/

theorem exec_protectEnable_unlisted {j : Job} (hj : look s.objs.jobs e = some j) (hp : s.prot e = none) (ht : s.protTable e = none) :
    exec (.protectEnable e) s = .next (s.setProt e (protOff j.id 0x7023)) := by
  show execProtectEnable e s = _
  simp only [execProtectEnable, hj, hp, ht]

/-- A protection with its share taken from the pool. -/
def State.shareTaken (s : State) (e : Nat) (p0 : Prot) (share : Nat) : State :=
  (s.setProt e { p0 with reserved := share }).modSurv fun v => { v with poolFree := v.poolFree - share }

theorem State.shareTaken_leaves (s : State) (e : Nat) (p0 : Prot) (share : Nat) :
    look (s.shareTaken e p0 share).surv.prots e = some { p0 with reserved := share } ∧
    (s.shareTaken e p0 share).surv.poolFree = s.surv.poolFree - share ∧ (s.shareTaken e p0 share).objs = s.objs ∧
    (s.shareTaken e p0 share).mem = s.mem ∧ (s.shareTaken e p0 share).regs = s.regs ∧ (s.shareTaken e p0 share).fab = s.fab :=
  ⟨look_put_self .., rfl, rfl, rfl, rfl, rfl⟩

/-- Without a pair a protection that finds its share of the pool lapses at once (R426, R437). -/
theorem exec_protectEnable_unpaired {j : Job} {es : List ProtEnt} {p0 : Prot} (hj : look s.objs.jobs e = some j) (hp : s.prot e = none)
    (ht : s.protTable e = some es) (hpair : s.surv.pair ≠ .paired)
    (h0 : p0 = { protOff j.id 0 with entries := es, state := .lapsed, share := fld (s.written (offTf 0x8028)) 0 2 }) :
    exec (.protectEnable e) s = .next (if s.surv.poolFree < s.localShare p0 then s.setProt e (protOff j.id 0x7028)
      else s.shareTaken e p0 (s.localShare p0)) := by
  subst h0
  show execProtectEnable e s = _
  simp only [execProtectEnable, hj, hp, ht, if_neg hpair]
  rfl

/-! ### Mirror stores, closes and markers -/

section
variable {line : Nat} {m : Nat × Bool} {p1 : Prot} (hp : s.prot e = some p) (hm : (p.mirrors.find? fun m => m.1 == line) = some m)
  (h1 : p1 = { p with mirrors := p.mirrors.filter fun m => m.1 != line, journal := if m.2 then p.journal else drop1 p.journal line })
include hp hm h1

theorem exec_mirrorStoreAck_unasked (hr : (s.fab.reqs.find? fun r => r.2.kind == ReqKind.mirror e line) = none) :
    exec (.mirrorStoreAck e line) s = .next (((s.setProt e p1).drain e).baselineDone e) := by
  subst h1
  show execMirrorStoreAck e line s = _
  simp only [execMirrorStoreAck, hp, hm, hr, Option.map_none]

theorem exec_mirrorStoreAck_asked {i : Nat} {r : Req} (hr : (s.fab.reqs.find? fun r => r.2.kind == ReqKind.mirror e line) = some (i, r)) :
    exec (.mirrorStoreAck e line) s = .next ((((s.setProt e p1).dropReq i).drain e).baselineDone e) := by
  subst h1
  show execMirrorStoreAck e line s = _
  simp only [execMirrorStoreAck, hp, hm, hr, Option.map_some]

end

section
variable {c : Close} (hp : s.prot e = some p) (hc : p.closing = some c)
include hp hc

theorem exec_stepCloseReady_closing : exec (.stepCloseReady e) s = .next (
    if c.phase == .step && !(s.updatesOpen e) && (p.drained || !s.mirroring p) then s.guarded (s.stepClosed e p c) else s) := by
  show execStepCloseReady e s = _
  simp only [execStepCloseReady, hp, hc]

theorem exec_markerAck_closing (hm : p.markerSent = false) : exec (.markerAck e) s = .next (
    if c.phase == .marker then (s.dropMarker e true).sealClosed e p c else s) := by
  show execMarkerAck e s = _
  simp only [execMarkerAck, hp, hc, hm, Bool.false_eq_true, if_false]

theorem exec_sealWritebackDone_writeback (hw : c.phase = .writeback) : exec (.sealWritebackDone e) s = .next (
    if s.mirroring p && !p.journal.isEmpty then s
    else if s.mirroring p then
      (s.setProt e { p with closing := some { c with phase := .marker } }).sendMarker e p true (lookD s.objs.jobs e noJob).step
    else s.sealClosed e p c) := by
  show execSealWritebackDone e s = _
  simp only [execSealWritebackDone, hp, hc, if_pos hw]

end

theorem State.dropMarker_unasked {close : Bool} (h : ∀ r ∈ s.fab.reqs, r.2.kind ≠ .marker e close) : s.dropMarker e close = s := by
  have hnone : (s.fab.reqs.find? fun r => r.2.kind == ReqKind.marker e close) = none :=
    List.find?_eq_none.mpr fun r hr => by simpa using h r hr
  rw [State.dropMarker, hnone]

theorem State.dropMarker_asked {i : Nat} {r : Req} {close : Bool}
    (h : (s.fab.reqs.find? fun r => r.2.kind == ReqKind.marker e close) = some (i, r)) : s.dropMarker e close = s.dropReq i := by
  rw [State.dropMarker, h]

theorem exec_markerAck_step (hp : s.prot e = some p) (hm : p.markerSent = true) :
    exec (.markerAck e) s = .next ((s.dropMarker e false).releaseHeld e) := by
  show execMarkerAck e s = _
  simp only [execMarkerAck, hp, if_pos hm]

theorem exec_sealStreamAck_streaming (hp : s.prot e = some p) (hs : p.stage = .streaming) (hpair : s.surv.pair = .paired) :
    exec (.sealStreamAck e) s = .next ((s.dropReqs fun r => match r.kind with | .twin e' _ => e' == e | _ => false).setProt e { p with
      stage := .complete
      openSeal := p.openSeal.map fun x => { x with digests := s.pageDigests p x, record := s.sealRecord p x (s.pageDigests p x) } }) := by
  show execSealStreamAck e s = _
  rw [execSealStreamAck, hp]
  exact congrArg Host.Outcome.next (if_pos ⟨hs, hpair⟩)

end

/-- Settles O36: protection by the pool's share, a mirror store and a marker by what the device asks of its partner (`State.Asks`), and the
record by the lengths of its parts (`State.recordFault_sealRecord`). -/
theorem protectionRuns : Obligations.ProtectionRuns := by
  intro s e p
  refine ⟨fun j es hj hp ht hpair => ⟨fun hpool => ?_, fun hpool => ?_⟩, fun j hj hp ht => exec_protectEnable_unlisted hj hp ht,
    fun hp => ⟨fun hc => ⟨exec_protectDisable_settled hp hc, fun hnone => ?_⟩, fun line m hm => ⟨fun hr => ?_, fun i r hr => ?_⟩,
      fun c hc => ⟨fun hph hup hdr => ?_, fun hph hwait => ?_, fun hm hph => ?_, fun hm hph => ?_, fun hph hmir => ?_, fun hph hmir hj => ?_,
        fun hph hmir hj => ?_⟩,
      fun hm => exec_markerAck_step hp hm, fun close => State.dropMarker_unasked, fun i r close => State.dropMarker_asked,
      fun hs hpair => exec_sealStreamAck_streaming hp hs hpair⟩,
    fun x ds => ⟨s.length_sealRecord p x ds, s.recordFault_sealRecord p x ds⟩⟩
  · exact (exec_protectEnable_unpaired hj hp ht hpair rfl).trans (congrArg Host.Outcome.next (if_pos hpool))
  · exact ⟨_, (exec_protectEnable_unpaired hj hp ht hpair rfl).trans (congrArg Host.Outcome.next (if_neg (Nat.not_lt.mpr hpool))),
      s.shareTaken_leaves e _ _⟩
  · obtain ⟨hoff, hfree, hheld, hasks⟩ := s.unprotected_leaves e p
    exact ⟨s.unprotected e p, (exec_protectDisable_settled hp hc).trans (congrArg Host.Outcome.next (State.releaseWrites_none (hheld.trans hnone))),
      hoff, hfree, hasks, State.unprotected_same .objs (by decide), State.unprotected_same .mem (by decide)⟩
  · exact exec_mirrorStoreAck_unasked hp hm rfl hr
  · exact exec_mirrorStoreAck_asked hp hm rfl hr
  · exact (exec_stepCloseReady_closing hp hc).trans (congrArg Host.Outcome.next (if_pos (by simpa [hph, hup] using hdr)))
  · refine (exec_stepCloseReady_closing hp hc).trans (congrArg Host.Outcome.next (if_neg ?_))
    rcases hwait with hup | ⟨hdr, hmir⟩
    · simp [hup]
    · simp [hdr, hmir]
  · exact (exec_markerAck_closing hp hc hm).trans (congrArg Host.Outcome.next (if_pos (beq_iff_eq.mpr hph)))
  · exact (exec_markerAck_closing hp hc hm).trans (congrArg Host.Outcome.next (if_neg (mt beq_iff_eq.mp hph)))
  · exact (exec_sealWritebackDone_writeback hp hc hph).trans (congrArg Host.Outcome.next ((if_neg (by simp [hmir])).trans (if_neg (by simp [hmir]))))
  · exact (exec_sealWritebackDone_writeback hp hc hph).trans (congrArg Host.Outcome.next (if_pos (by simp [hmir, hj])))
  · exact (exec_sealWritebackDone_writeback hp hc hph).trans (congrArg Host.Outcome.next ((if_neg (by simp [hj])).trans (if_pos hmir)))

end Sys2Proof.Machine
end

section
/-! PROOFS. Restores of a protected job, from the device's own seal and from the partner's (R451 to R454). -/

namespace Sys2Proof.Machine

open Sys2Proof

/-! ### RESTORE_GO -/

section
variable {s : State} {e : Nat} {p : Prot} {record : List Byte}

/-- A restore refused with a code: the code is all that changes. -/
def State.restoreRefused (s : State) (e : Nat) (p : Prot) (code : Nat) : State := s.setProt e { p with lastCode := code }

/-- A restore begun, from the partner or not, with its seal's record. -/
def State.restoreBegun (s : State) (e : Nat) (p : Prot) (partner : Bool) (r : List Byte) : State :=
  s.setProt e { p with state := .restoring, fromPartner := partner, fetched := r, openSeal := none, stage := .none }

theorem exec_restoreGo_unprotected (hp : look s.surv.prots e = none) :
    exec (.restoreGo e record) s = .next (s.setProt e (protOff (lookD s.objs.jobs e noJob).id 0x7025)) := by
  show Host.Outcome.next (s.restoreWith e record) = _
  rw [State.restoreWith, hp]

section
variable (hp : look s.surv.prots e = some p)
include hp

theorem exec_restoreGo_busy (h : p.state = .off ∨ p.state = .restoring ∨ s.jobBusy e = true) :
    exec (.restoreGo e record) s = .next (s.restoreRefused e p 0x7025) := by
  show Host.Outcome.next (s.restoreWith e record) = _
  rw [State.restoreWith, hp]
  refine congrArg Host.Outcome.next (if_pos ?_)
  rcases h with h | h | h <;> simp [h]

variable (hidle : p.state ≠ .off ∧ p.state ≠ .restoring ∧ s.jobBusy e = false)
include hidle

/-- A restore of an idle job goes by the source that its control register names. -/
theorem exec_restoreGo_local (hsrc : bit (s.reg (offSurv e 0x20)) 1 = false) :
    (∀ x, p.settled = some x → x.intact = true → s.recordFault p x.record = none →
      exec (.restoreGo e record) s = .next (s.restoreBegun e p false x.record)) ∧
    (∀ x code, p.settled = some x → x.intact = true → s.recordFault p x.record = some code →
      exec (.restoreGo e record) s = .next (s.restoreRefused e p code)) ∧
    (∀ x, p.settled = some x → x.intact = false → exec (.restoreGo e record) s = .next (s.restoreRefused e p 0x7026)) ∧
    (p.settled = none → exec (.restoreGo e record) s = .next (s.restoreRefused e p 0x7026)) := by
  obtain ⟨hoff, hres, hbusy⟩ := hidle
  have hpass : ¬((p.state == .off || p.state == .restoring || s.jobBusy e) = true) := by simp [hoff, hres, hbusy]
  show (∀ x, _ → _ → _ → Host.Outcome.next (s.restoreWith e record) = _) ∧ (∀ x code, _ → _ → _ → Host.Outcome.next (s.restoreWith e record) = _) ∧
    (∀ x, _ → _ → Host.Outcome.next (s.restoreWith e record) = _) ∧ (_ → Host.Outcome.next (s.restoreWith e record) = _)
  simp only [State.restoreWith, State.restoreRefused, State.restoreBegun, hp, hsrc, if_neg hpass]
  refine ⟨fun x hx hi hf => ?_, fun x code hx hi hf => ?_, fun x hx hi => ?_, fun hx => ?_⟩
  · simp only [hx, hi, hf, Bool.false_eq_true, if_false, if_true]
  · simp only [hx, hi, hf, Bool.false_eq_true, if_false, if_true]
  · simp only [hx, hi, Bool.false_eq_true, if_false]
  · simp only [hx, Bool.false_eq_true, if_false]

theorem exec_restoreGo_partner (hsrc : bit (s.reg (offSurv e 0x20)) 1 = true) :
    (s.surv.pair ≠ .paired → exec (.restoreGo e record) s = .next (s.restoreRefused e p 0x7026)) ∧
    (s.surv.pair = .paired → s.recordFault p record = none → exec (.restoreGo e record) s = .next (s.restoreBegun e p true record)) ∧
    (∀ code, s.surv.pair = .paired → s.recordFault p record = some code →
      exec (.restoreGo e record) s = .next (s.restoreRefused e p code)) := by
  obtain ⟨hoff, hres, hbusy⟩ := hidle
  have hpass : ¬((p.state == .off || p.state == .restoring || s.jobBusy e) = true) := by simp [hoff, hres, hbusy]
  show (_ → Host.Outcome.next (s.restoreWith e record) = _) ∧ (_ → _ → Host.Outcome.next (s.restoreWith e record) = _) ∧
    (∀ code, _ → _ → Host.Outcome.next (s.restoreWith e record) = _)
  simp only [State.restoreWith, State.restoreRefused, State.restoreBegun, hp, hsrc, if_neg hpass]
  refine ⟨fun hpair => ?_, fun hpair hf => ?_, fun code hpair hf => ?_⟩
  · simp only [bne_iff_ne.mpr hpair, if_true]
  · simp only [hpair, hf, bne_self_eq_false, Bool.false_eq_true, if_false, if_true]
  · simp only [hpair, hf, bne_self_eq_false, Bool.false_eq_true, if_false, if_true]

end

end

/-! ### RESTORE_COMPLETE -/

section
variable {s : State} {e : Nat} {p : Prot} {lost : Bool} {failed : Option Nat} {digests : List (List Byte)} {pages : List (Nat × List Byte)}

/-- The lines of the protected pages dropped from the cache, before the pages are written back. -/
def State.linesDropped (s : State) (p : Prot) : State :=
  (p.entries.flatMap fun t => if t.cls ≤ 1 then s.entryPages t else []).foldl (fun (t : State) g => t.dropRange g.1 (pageBytes g.2)) s

theorem exec_restoreComplete_idle (hp : s.prot e = some p) (hs : p.state ≠ .restoring) :
    exec (.restoreComplete e lost failed digests pages) s = .next s := by
  show execRestoreComplete e lost failed digests pages s = _
  simp only [execRestoreComplete, hp, if_pos hs]

section
variable (hp : s.prot e = some p) (hs : p.state = .restoring)
include hp hs

theorem exec_restoreComplete_local (hsrc : p.fromPartner = false) :
    exec (.restoreComplete e lost failed digests pages) s = .next ((s.linesDropped p).restoreLocal e p failed) := by
  show execRestoreComplete e lost failed digests pages s = _
  simp only [execRestoreComplete, hp, hs, hsrc]
  rfl

theorem exec_restoreComplete_partner (hsrc : p.fromPartner = true) :
    exec (.restoreComplete e lost failed digests pages) s = .next ((s.linesDropped p).restorePartner e p lost digests pages) := by
  show execRestoreComplete e lost failed digests pages s = _
  simp only [execRestoreComplete, hp, hs, hsrc]
  rfl

end

/-- The pages of a local restore that are read: up to the one whose read failed. -/
def State.pagesRead (s : State) (p : Prot) (x : Seal) : Option Nat → List (Nat × List Byte)
  | some n => (s.localPages p x).take n
  | none => s.localPages p x

/-- The pages read before the first that fails its digest. -/
def State.pagesGood (s : State) (p : Prot) (x : Seal) (failed : Option Nat) : List (Nat × List Byte) :=
  (s.pagesRead p x failed).takeWhile (s.pageMatches p x.digests)

theorem State.restoreLocal_unsealed (hx : p.settled = none) : s.restoreLocal e p failed = s.restoreStops e p 0x7026 := by
  rw [State.restoreLocal, hx]

theorem State.restoreLocal_sealed {x : Seal} (hx : p.settled = some x) : s.restoreLocal e p failed =
    let s1 := (s.pagesGood p x failed).foldl (fun t g => t.restorePage g) s
    if failed.isSome || (s.pagesGood p x failed).length < (s.localPages p x).length then s1.restoreStops e p 0x7027
    else if sha384 (x.sched.bytes p.job) ≠ sliceBytes x.record 0xA0 48 then s1.restoreStops e p 0x7027
    else s1.restored e p x.sched x.digests := by
  rw [State.restoreLocal, hx]
  rfl

section
variable {x : Seal} (hx : p.settled = some x)
include hx

theorem State.restoreLocal_stops (h : failed ≠ none ∨ (s.pagesGood p x failed).length < (s.localPages p x).length ∨
    sha384 (x.sched.bytes p.job) ≠ sliceBytes x.record 0xA0 48) :
    s.restoreLocal e p failed = ((s.pagesGood p x failed).foldl (fun t g => t.restorePage g) s).restoreStops e p 0x7027 := by
  rw [State.restoreLocal_sealed hx]
  dsimp only
  split
  · rfl
  · next hread =>
    refine if_pos ?_
    rcases h with h | h | h
    · exact absurd (by simp [Option.isSome_iff_ne_none.mpr h]) hread
    · exact absurd (by simp [h]) hread
    · exact h

theorem State.restoreLocal_whole (hf : failed = none) (hlen : (s.pagesGood p x failed).length = (s.localPages p x).length)
    (hsched : sha384 (x.sched.bytes p.job) = sliceBytes x.record 0xA0 48) :
    s.restoreLocal e p failed = ((s.pagesGood p x failed).foldl (fun t g => t.restorePage g) s).restored e p x.sched x.digests := by
  rw [State.restoreLocal_sealed hx]
  dsimp only
  rw [if_neg (by simp [hf ▸ hlen, hf]), if_neg (not_not.mpr hsched)]

end

/-! A restore from the partner. -/

/-- The pages that the partner gave, its schedule apart. -/
def pagesGiven (pages : List (Nat × List Byte)) : List (Nat × List Byte) := pages.filter fun g => g.1 != schedAddr

/-- The pages given before the first that fails its digest. -/
def State.givenGood (s : State) (p : Prot) (digests : List (List Byte)) (pages : List (Nat × List Byte)) : List (Nat × List Byte) :=
  (pagesGiven pages).takeWhile (s.pageMatches p digests)

/-- Some given pages written, each first copied where a seal froze it. -/
def State.givenWritten (s : State) (good : List (Nat × List Byte)) : State := good.foldl (fun (t : State) g => (t.touch g.1).restorePage g) s

/-- Digests that are not the record's stop a partner's restore before any page. -/
theorem State.restorePartner_unlisted (h : sha384 digests.flatten ≠ sliceBytes p.fetched 0x70 48) :
    s.restorePartner e p false digests pages = s.restoreStops e p 0x7027 := by
  rw [State.restorePartner, beq_eq_false_iff_ne.mpr h]
  simp only [Bool.false_and, Bool.false_eq_true, if_false, List.foldl_nil]
  split <;> rfl

section
variable (hlist : sha384 digests.flatten = sliceBytes p.fetched 0x70 48)
include hlist

theorem State.restorePartner_lost :
    s.restorePartner e p true digests pages = (s.givenWritten (s.givenGood p digests pages)).restoreStops e p 0x7029 := by
  rw [State.restorePartner, beq_iff_eq.mpr hlist]
  rfl

theorem State.restorePartner_failed (h : (s.givenGood p digests pages).length < (pagesGiven pages).length) :
    s.restorePartner e p false digests pages = (s.givenWritten (s.givenGood p digests pages)).restoreStops e p 0x7027 := by
  have hlen : ((s.givenGood p digests pages).length == (pagesGiven pages).length) = false := beq_eq_false_iff_ne.mpr (Nat.ne_of_lt h)
  unfold State.givenGood pagesGiven at hlen
  rw [State.restorePartner, beq_iff_eq.mpr hlist]
  simp only [if_true, hlen, Bool.and_false, Bool.false_and, Bool.false_eq_true, if_false]
  split <;> rfl

theorem State.restorePartner_scheduled {b : List Byte} (hb : look pages schedAddr = some b) : s.restorePartner e p false digests pages =
    let s1 := s.givenWritten (s.givenGood p digests pages)
    if ((s.givenGood p digests pages).length == (pagesGiven pages).length &&
        (s.sealPages p).all fun a => (pagesGiven pages).any fun g => g.1 == a) && sha384 b == sliceBytes p.fetched 0xA0 48 then
      s1.restored e p (s1.parseSched p b) digests
    else s1.restoreStops e p 0x7027 := by
  rw [State.restorePartner, beq_iff_eq.mpr hlist, hb]
  rfl

end

end

/-- Settles O37: a restore's checks in their order, then its pages and its schedule, by the source that it goes from. -/
theorem restoresRun : Obligations.RestoresRun := by
  intro s e p record
  refine ⟨exec_restoreGo_unprotected, fun hp => ⟨exec_restoreGo_busy hp, fun hoff hres hbusy hsrc => ?_, fun hoff hres hbusy hsrc =>
      exec_restoreGo_partner hp ⟨hoff, hres, hbusy⟩ hsrc⟩,
    fun hp hs lost digests pages => ⟨fun hsrc => ⟨fun x failed hx => ⟨fun h => ?_, fun hf hlen hsched => ?_⟩, fun failed hx => ?_⟩,
      fun hsrc failed hlist => ⟨fun hl => ?_, fun hl hlen => ?_, fun b hl hlen hb hsched hall => ?_, fun b hl hb hsched => ?_⟩,
      fun hsrc failed hl hlist => ?_⟩,
    fun hp hs lost failed digests pages => exec_restoreComplete_idle hp hs⟩
  · obtain ⟨hgo, hfault, hbroken, hnone⟩ := exec_restoreGo_local (record := record) hp ⟨hoff, hres, hbusy⟩ hsrc
    exact ⟨fun x hx hi => ⟨hgo x hx hi, fun code => hfault x code hx hi⟩, hbroken, hnone⟩
  · refine (exec_restoreComplete_local hp hs hsrc).trans (congrArg Host.Outcome.next ?_)
    cases failed <;> exact State.restoreLocal_stops hx h
  · refine (exec_restoreComplete_local hp hs hsrc).trans (congrArg Host.Outcome.next ?_)
    subst hf
    exact State.restoreLocal_whole hx rfl hlen hsched
  · exact (exec_restoreComplete_local hp hs hsrc).trans (congrArg Host.Outcome.next (State.restoreLocal_unsealed hx))
  · subst hl
    exact (exec_restoreComplete_partner hp hs hsrc).trans (congrArg Host.Outcome.next (State.restorePartner_lost hlist))
  · subst hl
    exact (exec_restoreComplete_partner hp hs hsrc).trans (congrArg Host.Outcome.next (State.restorePartner_failed hlist hlen))
  · subst hl
    refine (exec_restoreComplete_partner hp hs hsrc).trans (congrArg Host.Outcome.next ((State.restorePartner_scheduled hlist hb).trans (if_pos ?_)))
    simp only [Bool.and_eq_true, beq_iff_eq]
    exact ⟨⟨hlen, hall⟩, hsched⟩
  · subst hl
    refine (exec_restoreComplete_partner hp hs hsrc).trans (congrArg Host.Outcome.next ((State.restorePartner_scheduled hlist hb).trans (if_neg ?_)))
    simp [hsched]
  · subst hl
    exact (exec_restoreComplete_partner hp hs hsrc).trans (congrArg Host.Outcome.next (State.restorePartner_unlisted hlist))

end Sys2Proof.Machine
end
